-- ==== Sys2Proof/Word.lean ====
section
/-! DEFINITION. Word.lean: the plain types of the model: bytes, register words, and sparse data by key. -/

namespace Sys2Proof

/-- A byte of memory or of a record. -/
abbrev Byte := BitVec 8

/-- A BAR0 register (R6: every register is 64 bits wide). -/
abbrev Word := BitVec 64

/-- A 64-byte descriptor record (R62), byte 0 in the low bits (R5). -/
abbrev Rec := BitVec 512

/-- Bytes, lowest address first. -/
abbrev Bytes := List Byte

/-- Sparse data by key: pairs in strictly rising key order. -/
abbrev SMap (α : Type) := List (Nat × α)

end Sys2Proof
end

