-- ==== Sys2Proof/Syntax.lean ====
section
/-! DEFINITION. Syntax.lean: the 126 commands of spec/opcode_table.json, one constructor per row, in the table's order. The table
gives the rows no operands: the operands here name the unit an event happens in, the bytes that come from outside the block,
the TIME of an event where the spec stamps or judges it, and the outcome of a physical fact (entry 9). -/

namespace Sys2Proof

/-- A pump (R400): the local pump of a core, well pump w of a slice, the link pump of a link. -/
inductive PumpId where
  | core (c : Fin 256)
  | well (s : Fin 4) (w : Fin 4)
  | link (l : Fin 36)
  deriving DecidableEq, Repr

/-- Kinds of host rings (R524). -/
inductive RingKind where
  | sq | cq | iq | rq
  deriving DecidableEq, Repr

/-- One link of an advertisement (R492): number, partner's identity, state code. -/
structure AdvLink where
  link : Nat
  partner : Bytes
  state : Nat
  deriving DecidableEq, Repr

/-- An advertisement (R492, R583), with whether the member holds a job that is neither EMPTY nor LOADING (R42). -/
structure Advert where
  identity : Bytes
  seq : Nat
  baseRoot : Bytes
  epoch : Nat
  aligned : Bool
  compiles : List (Nat × Nat)
  links : List AdvLink
  localReady : Bool
  busy : Bool
  deriving DecidableEq, Repr

/-- The physical measurements of a round (R602): 0.1 W, 0.0625 °C, 0.1 ms, 0.1 A. -/
structure Measure where
  pAvg : Nat
  pFix : Nat
  pPeak : Nat
  high : Nat
  tMax : Int
  linkMib : Nat
  sliceI : List Nat
  sliceT : List Int
  deriving DecidableEq, Repr

/-- What a detector saw in a command (R365, R538): nothing, a residue or parity error at a lane of an engine, or ECC events of a read. -/
inductive Detect where
  | none
  | residue (engine : Nat) (parity : Bool) (elem : Nat)
  | eccCorrected (words : Nat)
  | eccUncorrectable (bank : Nat) (addr : Nat)
  deriving DecidableEq, Repr

/-- Physical events inside one engine operation: bank accesses lost (R369) and a detection (R540). -/
structure EngEv where
  lost : Nat
  detect : Detect
  deriving DecidableEq, Repr

/-- The task whose word issues or goes on, the bank accesses lost (R369), and what a detector saw in the word's fetch and reads (R365). -/
structure TaskEv where
  task : Fin 8
  lost : Nat
  det : Detect
  deriving DecidableEq, Repr

/-- A word without physical events. -/
def TaskEv.of (t : Fin 8) : TaskEv := ⟨t, 0, .none⟩

def TaskEv.ev (e : TaskEv) : EngEv := ⟨e.lost, e.det⟩

/-- What happened to a relay flit: its CRC, the accesses that its take write lost, whether that write still waits (R158, R369, R371). -/
structure FlitEv where
  crcOk : Bool
  lost : Nat
  waits : Bool
  deriving DecidableEq, Repr

/-- The bytes of a remote write, and the accesses that it lost at the target's port (R369). -/
structure RemoteBytes where
  bytes : Bytes
  lost : Nat
  deriving DecidableEq, Repr

/-- What a completed transfer read: the bytes of the deep well (R523), the accesses it lost (R369), and what a detector saw (R365). -/
structure DeepRead where
  bytes : Bytes
  lost : Nat
  det : Detect
  deriving DecidableEq, Repr

/-- The job slot that is to be staged, and the bytes of its objects in the deep well, in the order of WELL_MAP (R79 step 5, R436). -/
structure StagedLoad where
  slot : Fin 16
  deep : List Bytes
  deriving DecidableEq, Repr

/-- How many bytes a BAR2 read asks for, and what a detector saw in them (R365). -/
structure ReadSize where
  bytes : Nat
  det : Detect
  deriving DecidableEq, Repr

/-- What an epoch flood carries: EPOCH and, from a base that runs, a mark's TIME and number and the round length (R498; entry 74). -/
structure BaseFlood where
  epoch : Nat
  running : Option (Nat × Nat × Nat)
  deriving DecidableEq, Repr

inductive Instr where
  | pwrGoodRise
  | pwrGoodFall
  | brdRstN
  | perstN (asserted : Bool)
  | functionLevelReset
  | pllLock
  | firmwareVerification
  | keySlotCheck
  | cisternTest (failing : List (Fin 256))
  | wellTraining (channel : Fin 8) (ok : Bool)
  | localReadiness (ms : Nat)
  | wellZeroingDone
  | linkTrained (l : Fin 36)
  | linkIdentify (l : Fin 36) (nonce cert sig : Bytes) (partnerLink : Fin 36) (baseRoot : Bytes) (busy : Bool)
  | linkDown (l : Fin 36)
  | linkFlitReceive (l : Fin 36) (fecOk : Bool) (corrected : Nat) (flit : Bytes)
  | linkTransferArrival (l : Fin 36) (now : Nat)
  | windowReject (sent : Nat)
  | advertisement (a : Advert)
  | mapConverged
  | selfRoot
  | alignmentStart
  | timeExchange (l : Fin 36) (t1 t2 t3 t4 : Nat)
  | alignedReport (id : Bytes)
  | epochFlood (epoch : BaseFlood)
  | membershipReport (id : Bytes)
  | membershipVersionFlood (version effRound : Nat) (roundLen : Option Nat)
  | roundLenReport (len : Nat) (id : Bytes)
  | roundLenRefusal
  | stagedReport (compile dev : Nat)
  | activationRoundFlood (compile round : Nat)
  | stagingTimeout (compile : Nat)
  | jobAbortFlood (compile : Nat)
  | recoveryNotice (compile round : Nat) (everyDevice : Bool)
  | mirrorShipment (data : Bytes)
  | roundMark (m : Measure)
  | tagTimeout (core : Fin 256) (task : Fin 8)
  | taskWatchdog (core : Fin 256) (task : Fin 8)
  | vmcWatchdog
  | thermalTrip
  | powerTrip
  | intakeSeal
  | nop (core : Fin 256) (task : TaskEv)
  | wEnd (core : Fin 256) (task : TaskEv)
  | matRun (core : Fin 256) (task : Fin 8) (ev : EngEv)
  | relay (core : Fin 256) (task : TaskEv)
  | relayFlit (core : Fin 256) (ev : FlitEv)
  | gateSet (core : Fin 256) (task : TaskEv)
  | eleRun (core : Fin 256) (task : Fin 8) (ev : EngEv)
  | eleScan (core : Fin 256) (task : Fin 8) (ev : EngEv)
  | convert (core : Fin 256) (task : Fin 8) (ev : EngEv)
  | redRun (core : Fin 256) (task : Fin 8) (ev : EngEv)
  | pump (core : Fin 256) (task : TaskEv)
  | pumpReadRequest (p : PumpId) (bytes now : Nat)
  | pumpDrainStart (p : PumpId)
  | pumpTransferComplete (p : PumpId) (now : Nat) (deep : DeepRead)
  | release (core : Fin 256) (task : TaskEv)
  | elasticWaitEnd (core : Fin 256) (task : TaskEv) (cycle : Nat)
  | interlockWaitEnd (core : Fin 256) (task : TaskEv) (cycle : Nat)
  | tlyAdd (core : Fin 256) (task : TaskEv)
  | tlyWait (core : Fin 256) (task : TaskEv)
  | tlyWaitSatisfied (core : Fin 256) (task : TaskEv)
  | tlyWaitTimeout (core : Fin 256) (task : Fin 8)
  | summ (core : Fin 256) (task : TaskEv)
  | branch (core : Fin 256) (task : TaskEv)
  | wRepeat (core : Fin 256) (task : TaskEv)
  | smpReq (core : Fin 256) (task : TaskEv)
  | specOpen (core : Fin 256) (task : TaskEv)
  | specCommit (core : Fin 256) (task : TaskEv)
  | specAbort (core : Fin 256) (task : TaskEv)
  | emberOut (core : Fin 256) (task : TaskEv)
  | emberIn (core : Fin 256) (task : TaskEv)
  | result (core : Fin 256) (task : TaskEv) (now : Nat)
  | resultBacklogDrain (kind : RingKind) (ring : Fin 32)
  | window (core : Fin 256) (task : TaskEv)
  | adaptSpan (core : Fin 256) (task : TaskEv)
  | statFlush (core : Fin 256) (task : TaskEv)
  | nanTrap (core : Fin 256) (task : Fin 8) (word elem : Nat) (handle : Option (Fin 32768))
  | errorRecordHandle
  | scrubPatrol (core : Fin 256) (bank : Fin 48) (det : Detect)
  | remoteWrite (writer target : Fin 256) (off : Nat) (data : RemoteBytes)
  | killScrubComplete (j : Fin 16) (wellToo : Bool)
  | sliceScrubComplete (sl : Fin 4)
  | expSlotRelease (core : Fin 256) (slot : Fin 4)
  | tdmFrame (p : Fin 16) (slots : List Nat) (now : Nat)
  | tdmMissingSync (p : Fin 16) (now : Nat)
  | tdmClockStop (p : Fin 16) (now : Nat)
  | tdmStopRepeatFrame (p : Fin 16) (now : Nat)
  | tdmPlayRefill (p : Fin 16) (route : Fin 8)
  | sqDoorbell (ring : Fin 16) (hostidx now : Nat)
  | iqDoorbell (ring : Fin 32) (hostidx now : Nat)
  | ringHostidxConsume (result : Bool) (ring : Fin 32) (hostidx : Nat)
  | ringRecordFetch (intake : Bool) (ring : Fin 32) (record payload : Bytes) (now : Nat)
  | intakeRecord (ring : Fin 32)
  | ringIrqHoldoff (kind : RingKind) (ring : Fin 32) (now : Nat)
  | loadImage (image : Bytes)
  | loadStaged (j : StagedLoad)
  | stopJob
  | killJob
  | register
  | deregister
  | resetMark
  | target (tokens : Bytes)
  | bar2Write (off : Nat) (data : Bytes) (now : Nat)
  | bar2WriteApply
  | bar2Read (off : Nat) (n : ReadSize)
  | bar4Write (off : Nat) (data : Bytes)
  | bar4Read (off n : Nat)
  | roundLenWrite (value now : Nat)
  | linkEnableWrite (l : Fin 36) (en : Bool)
  | vmcLogTailWrite (value : Nat)
  | errTailWrite (value : Nat)
  | ovrClr (core : Fin 256) (task : Fin 8)
  | cisScrubClr (core : Fin 256)
  | stpeakClr (core : Fin 256)
  | hqAttGo
  | attestationReport (reachable : Bool)
  | vmcKeyGo
  | keyRequestComplete (request : Option Bytes)
  | registerWrite (off : Nat) (data : Bytes)
  | tdmFrameSync (p : Fin 16) (atExpected early : Bool) (now : Nat)
  | sliceScrubStart (sl : Fin 4)
  | weightRefetchComplete (core : Fin 256)
  | fwFailRetryEnd
  | lateActivationReport (compile dev : Nat)
  | shipmentCompleteReport (mirror round : Nat)
  deriving DecidableEq, Repr

end Sys2Proof
end

