-- ==== Sys2Proof/Config.lean ====
section
/-! DEFINITION. Config.lean: what the spec leaves open, as constants without a body, and the part's fixed figures. -/

namespace Sys2Proof.Config

/-- Byte `i` of the `k`-th 32-byte nonce the device draws (R591, R599; free value, entry 4). -/
opaque freeNonceByte : Nat → Nat → Byte

/-- Whether a detection in word `w` of a task of core `c` touches the scheduled item of handle `h` (R540; the map from
rows, lanes and elements to streams is the image's and the spec states none; free value, entry 6). Arguments: core, task,
word, handle. -/
opaque serves : Nat → Nat → Nat → Nat → Bool

/-- Which of the eight well controllers (slice × 2 + controller) serves a 64 KiB well page; the spec gives no map of pages to
controllers (free value, entry 11). -/
opaque controllerOf : Nat → Nat

/-- The core whose PUMP word issued a link transfer: R501 judges it, and the transfer header of R480 does not carry it (free value, entry
88). Arguments: COMPILE_ID, DEVICE_INDEX of the sender, route. -/
opaque issuingCore : Nat → Nat → Nat → Nat

/-- Byte `i` of the masters, generation-0 copies and moments that an adapter holds at activation: R345 has them come from the image, and
no section of R51 to R79 holds them (free value, entry 4). Arguments: image digest, adapter, tensor of R344, byte. -/
opaque adapterInit : Nat → Nat → Nat → Nat → Byte

/-- Byte `i` of part `k` of an origin's state as the units of its copy hold it: R503 gives the units no address and no layout (free value,
entry 64). Arguments: units of the copy, COMPILE_ID, DEVICE_INDEX of the origin, part, byte. -/
opaque mirrorState : List (Nat × Bytes) → Nat → Nat → Nat → Nat → Byte

/-- Whether a unit of a copy holds blocks in Peat form (R51, R503: their descriptors say so; free value, entry 64). Argument: its place. -/
opaque peatUnit : Nat → Bool

/-- A value the spec leaves open, by kind and by what it belongs to (entry 4). -/
opaque freeValue : Nat → Nat → Nat

/-- Cistern bytes of a core of the HRD4096-F (R391). -/
def cisternBytes : Nat := 0x500000

/-- Bytes of the well, 512 GB (entry 7: taken as 512 GiB). -/
def wellBytes : Nat := 549755813888

end Sys2Proof.Config
end

