-- ==== Sys2Proof/Machine/Sha.lean ====
section
/-! DEFINITION. Machine/Sha.lean: bytes to numbers and back (R5), SHA3-256 of FIPS 202 (R16, R28, R57, R596) and CRC-32C (R16). -/

namespace Sys2Proof.Machine

/-- The little-endian number of a byte list (R5). -/
def leNat : Bytes → Nat
  | [] => 0
  | b :: r => b.toNat + 256 * leNat r

/-- The n low bytes of a number, lowest first (R5). -/
def leBytes : Nat → Nat → Bytes
  | 0, _ => []
  | n + 1, v => BitVec.ofNat 8 v :: leBytes n (v / 256)

/-- Bytes off to off + n − 1 of a byte list as a number; missing bytes are zero. -/
def leAt (bs : Bytes) (off n : Nat) : Nat := leNat ((bs.drop off).take n)

/-- n bytes from off, completed with zeros. -/
def sliceZ (bs : Bytes) (off n : Nat) : Bytes :=
  let s := (bs.drop off).take n
  s ++ List.replicate (n - s.length) 0

/-- Whether bytes off to off + n − 1 are zero. -/
def zerosAt (bs : Bytes) (off n : Nat) : Bool := ((bs.drop off).take n).all (· == 0)

/-- Padding to a multiple of n with zeros. -/
def padTo (n : Nat) (bs : Bytes) : Bytes := bs ++ List.replicate ((n - bs.length % n) % n) 0

/-! ### SHA3-256 -/

def keccakRc : List Nat :=
  [0x0000000000000001, 0x0000000000008082, 0x800000000000808A, 0x8000000080008000, 0x000000000000808B,
   0x0000000080000001, 0x8000000080008081, 0x8000000000008009, 0x000000000000008A, 0x0000000000000088,
   0x0000000080008009, 0x000000008000000A] ++
  [0x000000008000808B, 0x800000000000008B, 0x8000000000008089, 0x8000000000008003, 0x8000000000008002,
   0x8000000000000080, 0x000000000000800A, 0x800000008000000A, 0x8000000080008081, 0x8000000000008080,
   0x0000000080000001, 0x8000000080008008]

/-- Rotation offsets of lane x + 5y. -/
def keccakRot : List Nat :=
  [0, 1, 62, 28, 27, 36, 44, 6, 55, 20, 3, 10, 43, 25, 39, 41, 45, 15, 21, 8, 18, 2, 61, 56, 14]

def rotl64 (w n : Nat) : Nat := (w <<< n) % 2 ^ 64 ||| (w >>> (64 - n))

/-- One round of Keccak-f[1600] on 25 lanes. -/
def keccakRound (a : List Nat) (rc : Nat) : List Nat :=
  let at_ (l : List Nat) (i : Nat) : Nat := l.getD i 0
  let c := (List.range 5).map (fun x => at_ a x ^^^ at_ a (x + 5) ^^^ at_ a (x + 10) ^^^ at_ a (x + 15) ^^^ at_ a (x + 20))
  let d := (List.range 5).map (fun x => at_ c ((x + 4) % 5) ^^^ rotl64 (at_ c ((x + 1) % 5)) 1)
  let t := (List.range 25).map (fun i => at_ a i ^^^ at_ d (i % 5))
  -- lane (x, y) goes to (y, 2x + 3y): the lane at (X, Y) comes from x = X + 3Y, y = X
  let b := (List.range 25).map (fun i =>
    let X := i % 5
    let Y := i / 5
    let src := (X + 3 * Y) % 5 + 5 * X
    rotl64 (at_ t src) (at_ keccakRot src))
  let e := (List.range 25).map (fun i =>
    let X := i % 5
    let Y := i / 5
    at_ b i ^^^ ((2 ^ 64 - 1 - at_ b ((X + 1) % 5 + 5 * Y)) &&& at_ b ((X + 2) % 5 + 5 * Y)))
  match e with
  | l :: r => (l ^^^ rc) :: r
  | [] => []

def keccakF (a : List Nat) : List Nat := keccakRc.foldl keccakRound a

/-- XOR a 136-byte block into the state. -/
def keccakAbsorb (a : List Nat) (blk : Bytes) : List Nat :=
  keccakF ((List.range 25).map (fun i => a.getD i 0 ^^^ (if i < 17 then leAt blk (8 * i) 8 else 0)))

def keccakBlocks : Nat → List Nat → Bytes → List Nat
  | 0, a, _ => a
  | n + 1, a, bs => keccakBlocks n (keccakAbsorb a (bs.take 136)) (bs.drop 136)

/-- Replace the last byte b by b xor 0x80 (the end of the padding). -/
def markLast : Bytes → Bytes
  | [] => []
  | [b] => [b ^^^ 0x80#8]
  | b :: r => b :: markLast r

/-- The SHA3-256 digest. -/
def sha3 (m : Bytes) : Bytes :=
  let p := markLast (padTo 136 (m ++ [0x06#8]))
  let a := keccakBlocks (p.length / 136) (List.replicate 25 0) p
  ((List.range 4).map (fun i => leBytes 8 (a.getD i 0))).flatten

/-! ### CRC-32C -/

/-- One byte into the reflected CRC-32C register (Castagnoli polynomial 0x1EDC6F41, reflected 0x82F63B78). -/
def crcByte (c : Nat) (b : Byte) : Nat :=
  (List.range 8).foldl (fun v _ => if v % 2 = 1 then (v / 2) ^^^ 0x82F63B78 else v / 2) (c ^^^ b.toNat)

def crc32c (bs : Bytes) : Nat := (bs.foldl crcByte 0xFFFFFFFF) ^^^ 0xFFFFFFFF

end Sys2Proof.Machine
end

