-- ==== Sys2Proof/Machine/Arith.lean ====
section
/-! DEFINITION. Machine/Arith.lean: the number formats and the arithmetic of spec/03 (R98 to R133, R620): decoding a code to
an exact value, exact operations on dyadic values, and the one rounding of each result. -/

namespace Sys2Proof.Machine

/-- Arithmetic flags of R126. -/
structure Fl where
  nan : Bool := false
  ovf : Bool := false
  unf : Bool := false
  sat : Bool := false
  deriving DecidableEq, Repr

def Fl.or (a b : Fl) : Fl := ⟨a.nan || b.nan, a.ovf || b.ovf, a.unf || b.unf, a.sat || b.sat⟩

def Fl.bits (a : Fl) : Nat := a.nan.toNat + 2 * a.ovf.toNat + 4 * a.unf.toNat + 8 * a.sat.toNat

/-- An exact value. A NaN holds its sign and its payload in the 23 mantissa places of FP32; `num m e` is m × 2^e, m ≠ 0. -/
inductive Val where
  | nan (neg : Bool) (pay : Nat)
  | inf (neg : Bool)
  | zero (neg : Bool)
  | num (m : Int) (e : Int)
  deriving DecidableEq, Repr

def Val.isNan : Val → Bool
  | .nan _ _ => true
  | _ => false

/-- The sign of a value. -/
def Val.neg : Val → Bool
  | .nan n _ => n
  | .inf n => n
  | .zero n => n
  | .num m _ => decide (m < 0)

/-- The exact value m × 2^e of a dyadic number, zero with the given sign when m is 0. -/
def mkNum (zneg : Bool) (m e : Int) : Val := if m = 0 then .zero zneg else .num m e

/-- Format codes of R98. -/
inductive Fmt where
  | fp32 | bf16 | fp16 | e4m3 | e5m2 | mxint8 | mxfp6 | mxfp4 | int8 | int4 | int32
  deriving DecidableEq, Repr

def Fmt.ofCode : Nat → Option Fmt
  | 0 => some .fp32 | 1 => some .bf16 | 2 => some .fp16 | 3 => some .e4m3 | 4 => some .e5m2
  | 5 => some .mxint8 | 6 => some .mxfp6 | 7 => some .mxfp4 | 8 => some .int8 | 9 => some .int4
  | 10 => some .int32 | _ => none

/-- Element bits (R98). -/
def Fmt.bits : Fmt → Nat
  | .fp32 => 32 | .bf16 => 16 | .fp16 => 16 | .e4m3 => 8 | .e5m2 => 8 | .mxint8 => 8 | .mxfp6 => 6
  | .mxfp4 => 4 | .int8 => 8 | .int4 => 4 | .int32 => 32

/-- Whole bytes of an element of a byte-addressed format; 0 for packed ones (R106, R622). -/
def Fmt.size : Fmt → Nat
  | .fp32 => 4 | .bf16 => 2 | .fp16 => 2 | .e4m3 => 1 | .e5m2 => 1 | .int8 => 1 | .int32 => 4 | _ => 0

def Fmt.isFloat : Fmt → Bool
  | .fp32 | .bf16 | .fp16 | .e4m3 | .e5m2 => true
  | _ => false

def Fmt.isInt : Fmt → Bool
  | .int8 | .int4 | .int32 => true
  | _ => false

def Fmt.isMx : Fmt → Bool
  | .mxint8 | .mxfp6 | .mxfp4 => true
  | _ => false

/-- Exponent and mantissa widths (R99). -/
def Fmt.ebits : Fmt → Nat
  | .fp32 => 8 | .bf16 => 8 | .fp16 => 5 | .e4m3 => 4 | .e5m2 => 5 | .mxfp6 => 2 | .mxfp4 => 2 | _ => 0

def Fmt.mbits : Fmt → Nat
  | .fp32 => 23 | .bf16 => 7 | .fp16 => 10 | .e4m3 => 3 | .e5m2 => 2 | .mxfp6 => 3 | .mxfp4 => 1 | _ => 0

def Fmt.bias : Fmt → Int
  | .fp32 => 127 | .bf16 => 127 | .fp16 => 15 | .e4m3 => 7 | .e5m2 => 15 | .mxfp6 => 1 | .mxfp4 => 1 | _ => 0

/-- FP32 and BF16 flush subnormals in FAST tasks (R117). -/
def Fmt.flushes : Fmt → Bool
  | .fp32 | .bf16 => true
  | _ => false

/-- The n-bit two's complement value of a code. -/
def sext (n c : Nat) : Int := if c % 2 ^ n < 2 ^ (n - 1) then (c % 2 ^ n : Nat) else ((c % 2 ^ n : Nat) : Int) - 2 ^ n

/-- The n-bit two's complement code of an integer. -/
def unsext (n : Nat) (v : Int) : Nat := (v % (2 ^ n : Int)).toNat

/-- The value of a code (R99 to R105): integers by their code, floats exactly, subnormals at their value. -/
def decodeVal (f : Fmt) (c : Nat) : Val :=
  match f with
  | .int8 => mkNum false (sext 8 c) 0
  | .int4 => mkNum false (sext 4 c) 0
  | .int32 => mkNum false (sext 32 c) 0
  | .mxint8 => mkNum false (sext 8 c) (-6)
  | _ =>
    let m := f.mbits
    let man := c % 2 ^ m
    let ex := c / 2 ^ m % 2 ^ f.ebits
    let neg := decide (c / 2 ^ (m + f.ebits) % 2 = 1)
    let top := 2 ^ f.ebits - 1
    let sgn (k : Nat) : Int := if neg then -(k : Int) else k
    if ex = 0 then
      if man = 0 then .zero neg else .num (sgn man) (1 - f.bias - m)
    else
      let finite : Val := .num (sgn (2 ^ m + man)) ((ex : Int) - f.bias - m)
      match f with
      | .e4m3 => if ex = top ∧ man = 7 then .nan neg (2 ^ 22) else finite
      | .mxfp6 => finite
      | .mxfp4 => finite
      | _ =>
        if ex = top then
          if man = 0 then .inf neg else .nan neg (man * 2 ^ (23 - m))
        else finite

/-- Whether a float code is a non-zero subnormal. -/
def isSubnormal (f : Fmt) (c : Nat) : Bool :=
  f.isFloat && decide (c / 2 ^ f.mbits % 2 ^ f.ebits = 0) && decide (c % 2 ^ f.mbits ≠ 0)

/-- A code as an operation outside the array reads it (R116, R117): FAST reads FP32 and BF16 subnormals as signed zero. -/
def readVal (strict : Bool) (f : Fmt) (c : Nat) : Val :=
  if !strict && f.flushes && isSubnormal f c then .zero (decodeVal f c).neg else decodeVal f c

/-- floor(log2 |m × 2^e|) for m ≠ 0. -/
def ilog2 (m e : Int) : Int := (Nat.log2 m.natAbs : Int) + e

/-- floor(m × 2^e ÷ 2^k). -/
def floorShift (m e k : Int) : Int :=
  if k ≤ e then m * 2 ^ (e - k).toNat else m / 2 ^ (k - e).toNat

/-- Rounding modes (R119): RNE, RTZ and SR with its eight random bits. -/
inductive Rm where
  | rne
  | rtz
  | sr (r : Nat)
  deriving DecidableEq, Repr

/-- |m × 2^e| in units of 2^u, rounded to an integer under the mode (R119, R120). -/
def roundUnits (rm : Rm) (m e u : Int) : Nat :=
  let a := m.natAbs
  if u ≤ e then a * 2 ^ (e - u).toNat
  else
    let sh := (u - e).toNat
    let q := a / 2 ^ sh
    let rem := a % 2 ^ sh
    if rem = 0 then q
    else match rm with
      | .rne => if 2 * rem > 2 ^ sh ∨ (2 * rem = 2 ^ sh ∧ q % 2 = 1) then q + 1 else q
      | .rtz => q
      | .sr r => if rem * 512 / 2 ^ sh + 1 + 2 * r ≥ 512 then q + 1 else q

/-- Whether m × 2^e is a multiple of 2^u: then SR draws nothing (R121). -/
def exactIn (m e u : Int) : Bool := decide (u ≤ e) || decide (m.natAbs % 2 ^ (u - e).toNat = 0)

/-- Exponent of the unit in which a result of format `f` is rounded: the unit at the value's own exponent, and the
subnormal unit below the smallest normal unless the exponent is unbounded below (R117, R120). -/
def unitExp (f : Fmt) (unbounded : Bool) (m e : Int) : Int :=
  let own := ilog2 m e - f.mbits
  if unbounded then own else max own (1 - f.bias - f.mbits)

/-- Largest finite value as (integer, exponent) (R99). -/
def maxFinite : Fmt → Nat × Int
  | .fp32 => (2 ^ 24 - 1, 104)
  | .bf16 => (255, 120)
  | .fp16 => (2047, 5)
  | .e4m3 => (7, 6)
  | .e5m2 => (7, 13)
  | _ => (0, 0)

/-- Whether q × 2^u exceeds the largest finite value of the format. -/
def overflows (f : Fmt) (q : Nat) (u : Int) : Bool :=
  let (mq, mu) := maxFinite f
  if mu ≤ u then decide (q * 2 ^ (u - mu).toNat > mq) else decide (q > mq * 2 ^ (mu - u).toNat)

/-- Sign bit of a float code. -/
def signBit (f : Fmt) (neg : Bool) : Nat := if neg then 2 ^ (f.mbits + f.ebits) else 0

/-- The code of ±q × 2^u, which the format holds exactly. -/
def encodeFinite (f : Fmt) (neg : Bool) (q : Nat) (u : Int) : Nat :=
  if q = 0 then signBit f neg
  else
    let ex : Int := (Nat.log2 q : Int) + u
    let emin : Int := 1 - f.bias
    let su : Int := (if ex < emin then emin else ex) - f.mbits
    let sig := if su ≤ u then q * 2 ^ (u - su).toNat else q / 2 ^ (su - u).toNat
    if ex < emin then signBit f neg + sig
    else signBit f neg + (ex + f.bias).toNat * 2 ^ f.mbits + (sig - 2 ^ f.mbits)

def infCode (f : Fmt) (neg : Bool) : Nat :=
  match f with
  | .e4m3 => signBit f neg + 0x7F
  | _ => signBit f neg + (2 ^ f.ebits - 1) * 2 ^ f.mbits

def maxCode (f : Fmt) (neg : Bool) : Nat := encodeFinite f neg (maxFinite f).1 (maxFinite f).2

/-- Canonical NaN (R99) with a sign. -/
def canonNan (f : Fmt) (neg : Bool) : Nat :=
  signBit f neg +
    match f with
    | .e4m3 => 0x7F
    | .e5m2 => 0x7E
    | _ => (2 ^ f.ebits - 1) * 2 ^ f.mbits + 2 ^ (f.mbits - 1)

/-- A NaN converted to a format: sign and highest payload bits kept, quiet bit set; E4M3 and E5M2 canonical (R620). -/
def quietNan (f : Fmt) (neg : Bool) (pay : Nat) : Nat :=
  match f with
  | .e4m3 => canonNan f neg
  | .e5m2 => canonNan f neg
  | _ =>
    let p := pay / 2 ^ (23 - f.mbits) % 2 ^ f.mbits
    let p := if p / 2 ^ (f.mbits - 1) % 2 = 1 then p else p + 2 ^ (f.mbits - 1)
    signBit f neg + (2 ^ f.ebits - 1) * 2 ^ f.mbits + p

/-- The NaN result of an operation outside the array: FAST canonical (R117), STRICT the first NaN operand (R620). -/
def nanResult (strict : Bool) (f : Fmt) (ops : List Val) : Nat :=
  if strict then
    match ops.find? Val.isNan with
    | some (.nan n p) => quietNan f n p
    | _ => canonNan f false
  else canonNan f false

/-- The rounded code of a result, of an arithmetic operation when `sat` is false and the format's overflow gives infinity
(R117), or of a conversion with SATFINITE (R125). -/
def roundCode (strict : Bool) (f : Fmt) (rm : Rm) (satfinite : Bool) (v : Val) : Nat × Fl :=
  match v with
  | .nan n p => (if strict then quietNan f n p else canonNan f false, { nan := true })
  | .zero n => (signBit f n, {})
  | .inf n =>
    if satfinite then (maxCode f n, { sat := true })
    else (infCode f n, { nan := decide (f = .e4m3) })
  | .num m e =>
    let neg := decide (m < 0)
    let unb := !strict && f.flushes
    let u := unitExp f unb m e
    let q := roundUnits rm m e u
    if overflows f q u then
      if satfinite then (maxCode f neg, { ovf := true, sat := true })
      else (infCode f neg, { ovf := true, nan := decide (f = .e4m3) })
    else if unb && decide (q ≠ 0) && decide ((Nat.log2 q : Int) + u < 1 - f.bias) then
      (signBit f neg, { unf := true })
    else (encodeFinite f neg q u, { unf := decide (q = 0) })

/-- Saturation of an exact integer to the n-bit range (R118). -/
def satInt (n : Nat) (v : Int) : Nat × Fl :=
  if v < -(2 ^ (n - 1) : Int) then (unsext n (-(2 ^ (n - 1) : Int)), { sat := true })
  else if v > (2 ^ (n - 1) : Int) - 1 then (unsext n ((2 ^ (n - 1) : Int) - 1), { sat := true })
  else (unsext n v, {})

/-- A value rounded to an integer with unit 1 (R173, R268). -/
def roundInt (rm : Rm) (m e : Int) : Int :=
  let q := roundUnits rm m e 0
  if m < 0 then -(q : Int) else q

/-- A value to an n-bit integer code under R125; `nanCode` is the code of a NaN source. -/
def toIntCode (n : Nat) (rm : Rm) (nanCode : Nat) (v : Val) : Nat × Fl :=
  match v with
  | .nan _ _ => (nanCode, { nan := true })
  | .inf neg =>
    (if neg then unsext n (-(2 ^ (n - 1) : Int)) else unsext n ((2 ^ (n - 1) : Int) - 1), { sat := true })
  | .zero _ => (0, {})
  | .num m e => satInt n (roundInt rm m e)

/-- Integer width of an integer format. -/
def Fmt.intBits : Fmt → Nat
  | .int8 => 8 | .int4 => 4 | _ => 32

/-- The conversion of R125 to any destination format of CONVERT, CVT and ST. -/
def convertCode (strict : Bool) (f : Fmt) (rm : Rm) (satfinite : Bool) (v : Val) : Nat × Fl :=
  if f.isInt then toIntCode f.intBits rm 0 v else roundCode strict f rm satfinite v

/-- Whether a rounding to the destination would draw random bits (R121). -/
def drawsIn (strict : Bool) (f : Fmt) (v : Val) : Bool :=
  match v with
  | .num m e => if f.isInt then !exactIn m e 0 else !exactIn m e (unitExp f (!strict && f.flushes) m e)
  | _ => false

/-! ### Exact operations -/

/-- Align two dyadic numbers and add them. -/
def addDy (m1 e1 m2 e2 : Int) : Int × Int :=
  if e1 ≤ e2 then (m1 + m2 * 2 ^ (e2 - e1).toNat, e1) else (m1 * 2 ^ (e1 - e2).toNat + m2, e2)

/-- Exact sum of two values that are not NaN; none when invalid. -/
def vadd : Val → Val → Option Val
  | .inf a, .inf b => if a = b then some (.inf a) else none
  | .inf a, _ => some (.inf a)
  | _, .inf b => some (.inf b)
  | .zero a, .zero b => some (.zero (a && b))
  | .zero _, .num m e => some (.num m e)
  | .num m e, .zero _ => some (.num m e)
  | .num m1 e1, .num m2 e2 => let r := addDy m1 e1 m2 e2; some (mkNum false r.1 r.2)
  | _, _ => none

/-- Exact product of two values that are not NaN; none when invalid. -/
def vmul : Val → Val → Option Val
  | .num m1 e1, .num m2 e2 => some (mkNum false (m1 * m2) (e1 + e2))
  | .zero a, .inf _ => let _ := a; none
  | .inf _, .zero _ => none
  | a, b =>
    let n := xor a.neg b.neg
    match a, b with
    | .inf _, _ => some (.inf n)
    | _, .inf _ => some (.inf n)
    | _, _ => some (.zero n)

/-- A value with its sign inverted. -/
def vneg : Val → Val
  | .nan n p => .nan (!n) p
  | .inf n => .inf (!n)
  | .zero n => .zero (!n)
  | .num m e => .num (-m) e

/-- Order of two values that are not NaN: a < b, zeros equal. -/
def vlt : Val → Val → Bool
  | .inf a, .inf b => a && !b
  | .inf a, _ => a
  | _, .inf b => !b
  | .zero _, .zero _ => false
  | .zero _, .num m _ => decide (m > 0)
  | .num m _, .zero _ => decide (m < 0)
  | .num m1 e1, .num m2 e2 => decide ((addDy m1 e1 (-m2) e2).1 < 0)
  | _, _ => false

def veq (a b : Val) : Bool := !a.isNan && !b.isNan && !vlt a b && !vlt b a

/-- An arithmetic operation outside the array on already read operands (R116, R117, R620). -/
def arithRes (strict : Bool) (f : Fmt) (rm : Rm) (ops : List Val) (r : Option Val) : Nat × Fl :=
  if ops.any Val.isNan then (nanResult strict f ops, { nan := true })
  else match r with
    | none => (canonNan f false, { nan := true })
    | some v => roundCode strict f rm false v

def opAdd (strict : Bool) (f : Fmt) (rm : Rm) (a b : Val) : Nat × Fl := arithRes strict f rm [a, b] (vadd a b)

def opSub (strict : Bool) (f : Fmt) (rm : Rm) (a b : Val) : Nat × Fl := arithRes strict f rm [a, b] (vadd a (vneg b))

def opMul (strict : Bool) (f : Fmt) (rm : Rm) (a b : Val) : Nat × Fl := arithRes strict f rm [a, b] (vmul a b)

def opFma (strict : Bool) (f : Fmt) (rm : Rm) (a b c : Val) : Nat × Fl :=
  arithRes strict f rm [a, b, c] ((vmul a b).bind (fun p => vadd p c))

/-- MIN and MAX of R173 and R174: MIN(−0, +0) is −0 and MAX is +0. -/
def opMin (strict : Bool) (f : Fmt) (a b : Val) : Nat × Fl :=
  if a.isNan || b.isNan then (nanResult strict f [a, b], { nan := true })
  else roundCode strict f .rne false (if veq a b then (if a.neg then a else b) else if vlt a b then a else b)

def opMax (strict : Bool) (f : Fmt) (a b : Val) : Nat × Fl :=
  if a.isNan || b.isNan then (nanResult strict f [a, b], { nan := true })
  else roundCode strict f .rne false (if veq a b then (if a.neg then b else a) else if vlt a b then b else a)

/-- The quotient of two non-zero dyadic numbers, exact in its leading 80 bits with a sticky bit below: one rounding of it
to at most 24 bits is the rounding of the exact quotient. -/
def quotDy (m1 e1 m2 e2 : Int) : Val :=
  let a := m1.natAbs
  let b := m2.natAbs
  let k := 90 + Nat.log2 b - min (Nat.log2 a) (89 + Nat.log2 b)
  let q := a * 2 ^ k / b
  let s := if a * 2 ^ k % b = 0 then 0 else 1
  let m : Int := (2 * q + s : Nat)
  .num (if xor (decide (m1 < 0)) (decide (m2 < 0)) then -m else m) (e1 - e2 - k - 1)

/-- Exact division of values that are not NaN (R281); none when invalid. -/
def vdiv : Val → Val → Option Val
  | .num m1 e1, .num m2 e2 => some (quotDy m1 e1 m2 e2)
  | .zero _, .zero _ => none
  | .inf _, .inf _ => none
  | a, b =>
    let n := xor a.neg b.neg
    match a, b with
    | .inf _, _ => some (.inf n)
    | _, .zero _ => some (.inf n)
    | _, _ => some (.zero n)

/-! ### FP32 operations with RNE and subnormals kept (R194, R276, R281, R299) -/

def f32 (c : Nat) : Val := decodeVal .fp32 c

def f32add (a b : Nat) : Nat × Fl := opAdd true .fp32 .rne (f32 a) (f32 b)

def f32sub (a b : Nat) : Nat × Fl := opSub true .fp32 .rne (f32 a) (f32 b)

def f32mul (a b : Nat) : Nat × Fl := opMul true .fp32 .rne (f32 a) (f32 b)

def f32fma (a b c : Nat) : Nat × Fl := opFma true .fp32 .rne (f32 a) (f32 b) (f32 c)

def f32div (a b : Nat) : Nat × Fl := arithRes true .fp32 .rne [f32 a, f32 b] (vdiv (f32 a) (f32 b))

def f32max (a b : Nat) : Nat := (opMax true .fp32 (f32 a) (f32 b)).1

def f32min (a b : Nat) : Nat := (opMin true .fp32 (f32 a) (f32 b)).1

def f32lt (a b : Nat) : Bool := vlt (f32 a) (f32 b)

/-- An integer as the FP32 value nearest to it. -/
def f32ofInt (v : Int) : Nat := (roundCode true .fp32 .rne false (mkNum false v 0)).1

def f32neg (a : Nat) : Nat := if a ≥ 2 ^ 31 then a - 2 ^ 31 else a + 2 ^ 31

def f32abs (a : Nat) : Nat := a % 2 ^ 31

def f32isNan (a : Nat) : Bool := (f32 a).isNan

end Sys2Proof.Machine
end

