-- ==== Sys2Proof/Machine/State.lean ====
section
/-! DEFINITION. Machine/State.lean: everything the spec gives the machine, as plain data, with the reasons a step can stop
and the machine right after reset. -/

namespace Sys2Proof.Machine

/-- Why a step stops with a fault. No command of the table ends in one: every row has an effect in the spec. -/
inductive Fault where
  /-- Raised by no meaning. Kept so that the type of outcomes stays closed and inhabited; stopping would be safe. -/
  | noSuchEffect
  deriving DecidableEq, Repr

/-- Why a step gives no meaning. -/
inductive Refusal where
  /-- The dispatcher's answer to a command that has no meaning yet; safe, since the run stops. No arm uses it. -/
  | notModelled (mnemonic : String)
  deriving DecidableEq, Repr

/-! ### Kindling and trust (spec/18) -/

/-- Step of the start sequence (R573 to R581, R598). -/
structure Kindle where
  powered : Bool
  pllLocked : Bool
  fwDone : Bool
  fwOk : Bool
  fwFail : Bool
  fwSlotB : Bool
  keysDone : Bool
  bistDone : Bool
  wellTried : Nat
  wellOk : Nat
  wellFail : Nat
  localReady : Bool
  zeroed : Bool
  localMs : Nat
  readyOut : Bool
  faultN : Bool
  outputsHiZ : Bool
  crs : Bool
  linkTrained : Bool
  retryEnded : Bool
  fwVersion : Nat
  fwSec : Nat
  fwDigest : Bytes
  deriving DecidableEq, Repr

/-- A key slot's fuses (R589). -/
structure KeyFuse where
  digest : Bytes
  enrolled : Bool
  revoked : Bool
  deriving DecidableEq, Repr

/-- Fuses and flash (R586 to R592): they survive loss of power. -/
structure Vault where
  vendor : List Bytes
  vendorRevoked : Nat
  fwMin : Nat
  slots : List KeyFuse
  seed : Bytes
  flash : SMap Byte
  deriving DecidableEq, Repr

/-- Keys usable in this kindling, identity and mailbox of spec/16 and spec/18. Slots 0 to 3 image, 4 F0, 5 F1. -/
structure Trust where
  usable : Nat
  keys : List Bytes
  publicKey : Bytes
  cert : Bytes
  identity : Bytes
  nonce : Bytes
  keyState : Nat
  keyErr : Nat
  keyEv : Bool
  keyAddr : Nat
  attState : Nat
  attErr : Nat
  attEv : Bool
  attLen : Nat
  deriving DecidableEq, Repr

/-! ### Time base and rounds (spec/01, spec/15) -/

structure TimeBase where
  now : Nat
  aligned : Bool
  state : Nat
  parent : Nat
  offset : Int
  good : Nat
  epoch : Nat
  baseT : Nat
  baseN : Nat
  round : Nat
  nextMark : Nat
  running : Bool
  lenHalf : Nat
  changes : List (Nat × Nat)
  winStart : Nat
  sealed : Nat
  baseRoot : Bytes
  deriving DecidableEq, Repr

/-! ### Images and jobs (spec/02) -/

/-- A checked structure image: header figures and the entries of its sections, each entry as its bytes. -/
structure Image where
  minor : Nat
  compileId : Nat
  deviceIndex : Nat
  fabricSize : Nat
  roundLen : Nat
  jobFlags : Nat
  adaptShare : Nat
  endCycle : Nat
  coreMask : Nat
  keySlot : Nat
  digest : Bytes
  placements : List Rec
  bankRoles : List Rec
  routes : List Rec
  rings : List Rec
  windows : List Rec
  descs : List Rec
  peat : List Bytes
  tallies : List (Nat × List Nat)
  jobSeed : Nat
  snumBase : Nat
  hasSeeds : Bool
  bindings : List Rec
  sched : List Nat
  ranges : List Rec
  objects : List Rec
  pools : List Rec
  regulators : List Rec
  failover : Bytes
  classes : List (Rec × List Rec × List Rec)
  adapters : List Rec
  deriving DecidableEq, Repr

inductive JobState where
  | empty | loading | staged | active | stopping | stopped | killed
  deriving DecidableEq, Repr

/-- The host command that a job slot will complete: submission ring, index, tag. -/
structure CmdRef where
  ring : Nat
  index : Nat
  tag : Nat
  deriving DecidableEq, Repr

/-- An adapter's job state beside its tensors (R355); `seen`: one more than the round last counted as a granted round; `sent`: the
generation of the masters, moments and copies that were shipped last. -/
structure AdpState where
  gen : Nat
  switchAt : Option Nat
  step : Nat
  n : Nat
  discards : Nat
  seen : Nat
  sent : Option Nat
  deriving DecidableEq, Repr

/-- The shipped rounds that a standby replays after its activation (R563): round r of the origin in round r + lag, for `first` to
`last`. -/
structure Replay where
  first : Nat
  last : Nat
  lag : Nat
  deriving DecidableEq, Repr

structure Job where
  state : JobState
  loadErr : Nat
  actRound : Option Nat
  gen : Nat
  img : Option Image
  standby : Bool
  stagedRound : Nat
  timeout : Nat
  loadCmd : Option CmdRef
  stopCmds : List CmdRef
  killCmds : List CmdRef
  stopAt : Option Nat
  spares : Nat
  adps : SMap AdpState
  /-- The path of each route that has one, as chosen at activation and at the last effective mark (R489). -/
  paths : SMap Nat
  /-- Slots of deregistered streams that a transfer still names (R412). -/
  draining : List Nat
  yielded : Bool
  /-- Rounds for which the adaptation share is yielded, for programs that still run as those of their own round (R36, R77). -/
  yieldRounds : List Nat
  /-- What VMC_ADPj_STAT shows since the last mark (R356): GEN, STEP_MAX, DISCARD. -/
  adpGens : Nat
  adpStep : Nat
  adpDisc : Nat
  /-- What it replays as an activated standby (R563). -/
  replay : Option Replay
  shipped : Nat
  /-- Bytes of the objects in the deep well, by address, as step 5 of R79 checked them. -/
  deepObjs : SMap Bytes
  /-- The cisterns of a killed job are clear: its cores are free (R387 step 4). -/
  clear : Bool
  /-- A fabric job that halts because its device is in the minority (R496, R550). -/
  halting : Bool
  deriving DecidableEq, Repr

/-! ### Cores (spec/03 to spec/13) -/

/-- `held`: the program of an earlier round is ended, and the next one waits for the tasks that share a cord (R36). -/
inductive TaskState where
  | none | staged | running | ended | held | overrun | stopped
  deriving DecidableEq, Repr

/-- A slot ring of a task: its SLOT_RINGS entry and its indices (R64, R374). -/
structure Ring where
  decl : Rec
  put : Nat
  get : Nat
  deriving DecidableEq, Repr

/-- Why the sequencer holds a word: an elastic ring, an interlock, a tally, a full pump queue, transfers of some pumps (R412). -/
inductive WaitKind where
  | ring (ring : Nat) (writing : Bool)
  | interlock
  | tally (tally : Nat)
  | queue
  | drain (pumps : List PumpId)
  deriving DecidableEq, Repr

/-- A held word: `order` places it among the held words of all tasks, in the order in which they were issued (R145, R164). -/
structure Wait where
  kind : WaitKind
  began : Nat
  issued : Nat
  budget : Nat
  order : Nat
  deriving DecidableEq, Repr

/-- A REPEAT loop (R74): first and last word of the body, iterations left after this one, iteration, period. -/
structure Loop where
  first : Nat
  last : Nat
  left : Nat
  iter : Nat
  period : Nat
  deriving DecidableEq, Repr

/-- A NaN that an engine met, in rank order (R129). -/
structure NanCand where
  word : Nat
  engine : Nat
  operand : Nat
  elem : Nat
  round : Nat
  deriving DecidableEq, Repr

structure Task where
  job : Nat
  strict : Bool
  nanTrap : Bool
  base : Nat
  bound : Nat
  schedAddr : Nat
  schedWords : Nat
  descs : List Rec
  rings : List Ring
  state : TaskState
  pc : Nat
  lastCycle : Nat
  progRound : Nat
  passed : Nat
  ovrCnt : Nat
  /-- CTL values due at marks that the task passed in overrun (R36): mark, value. -/
  due : List (Nat × Word)
  loop : Option Loop
  wait : Option Wait
  gate : Option Nat
  sums : SMap (Nat × Bool)
  flags : Fl
  flagsRound : Fl
  flagsLr : Fl
  flagsProg : Fl
  emptyRow : Bool
  trapA : Nat
  trapElem : Nat
  trapRound : Nat
  /-- NaNs that the program's words met and that no trap has passed, first ones first (R129). -/
  cands : List NanCand
  /-- The program has trapped: later candidates of the trapped item trap no more (R129). -/
  trapped : Bool
  cmdTrap : Option Nat
  /-- Between the words of an adaptation span that runs (R353). -/
  adapting : Bool
  /-- The program has passed the end of an adaptation span that ran (R352). -/
  spanned : Bool
  /-- A NaN of an adaptation span of the program has trapped (R353). -/
  spanNan : Bool
  redRes : SMap (Nat × Bool)
  eleCnt : SMap Nat
  issued : Bool
  /-- The round in which the task issued its latest END (R96). -/
  endedAt : Option Nat
  released : List Nat
  /-- Link rings whose release tick found none of a round's transfers: ring, round (R482). -/
  missed : List (Nat × Nat)
  kvFree : Nat
  /-- The latest mark whose checkpointed state has been folded into the state peaks (R229). -/
  folded : Nat
  deriving DecidableEq, Repr

structure Tag where
  full : Bool
  wait : Bool
  slipped : Bool
  deriving DecidableEq, Repr

structure Win where
  job : Nat
  owner : Nat
  base : Nat
  bound : Nat
  devLo : Nat
  devHi : Nat
  writers : Nat
  isOpen : Bool
  deriving DecidableEq, Repr

/-- A scale group (R272) with its clip count of the round, its decided values waiting in shadows and the record of that
decision, not yet written (R280 to R282). -/
structure Group where
  decl : Rec
  count : Nat
  shadow : List (Nat × Nat)
  unlogged : Bytes
  deriving DecidableEq, Repr

/-- A statistics accumulator (R275, R276) and the record of its last close (R289). -/
structure StatAcc where
  task : Nat
  desc : Nat
  isOpen : Bool
  count : Nat
  clips : Nat
  sumsq : Nat
  maxmag : Nat
  nans : Nat
  chans : SMap (Nat × Nat)
  record : Bytes
  deriving DecidableEq, Repr

/-- An expander generation slot (R430): 0 EMPTY, 1 LOADED, 2 RETIRING; the first round whose program it serves and the round
that replaced it (R431). -/
structure GenSlot where
  state : Nat
  gen : Nat
  ew : Nat
  values : List Nat
  since : Nat
  retired : Nat
  deriving DecidableEq, Repr

/-- A staged or pending table load (R432): `since`, the first round whose program it serves, follows that of the program that issued it
(R431); the task that issued it. -/
structure TableLoad where
  gen : Nat
  replaces : Nat
  ew : Nat
  values : List Nat
  since : Nat
  task : Nat
  deriving DecidableEq, Repr

/-- A relay flit in flight (R155): the pass's head and tail positions, pass number, flit number, bytes, CRC. -/
structure RFlit where
  head : Nat
  tail : Nat
  pass : Nat
  num : Nat
  data : Bytes
  crc : Nat
  last : Bool
  deriving DecidableEq, Repr

/-- A take in progress or complete (R156 to R158). -/
structure Take where
  task : Nat
  head : Nat
  pass : Nat
  first : Nat
  count : Nat
  dst : Nat
  got : Nat
  bad : Bool
  /-- A run's wait for the take has ended at a mark with E_SLIP (R159). -/
  late : Bool
  deriving DecidableEq, Repr

/-- A pass of which flits went by a port before its RELAY word (R158): head, pass, the flits that went by, and whether one of the take was lost
in a full buffer. -/
structure PastPass where
  head : Nat
  pass : Nat
  gone : Nat
  slipped : Bool
  deriving DecidableEq, Repr

structure Relay where
  inbox : List RFlit
  buf : List RFlit
  past : List PastPass
  takes : List Take
  passes : SMap Nat
  deriving DecidableEq, Repr

/-- A slot of another core's ring that a transfer writes through a window (R375, R376): core, task, ring, and whether it has slipped. -/
structure FarSlot where
  core : Nat
  task : Nat
  ring : Nat
  slipped : Bool
  deriving DecidableEq, Repr

/-- A queued pump transfer (R401, R403): who issued it, its descriptor, its job generation (R417), the round in which a wait on
a ring slot began, the bytes of a completed transfer that wait for a RELEASE, as offsets within the slot (R413), and the slots that it
fills in other cores. -/
structure Xfer where
  job : Nat
  gen : Nat
  core : Nat
  task : Nat
  desc : Nat
  word : Nat
  round : Nat
  started : Bool
  charged : Nat
  dropped : Bool
  deadline : Nat
  path : Nat
  wait : Option Nat
  land : List (Nat × Bytes)
  far : List FarSlot
  deriving DecidableEq, Repr

/-- A remote write that waits at a full elastic slot (R376, R378): target core, place, bytes, the round in which the wait began. -/
structure FarWrite where
  target : Nat
  off : Nat
  data : Bytes
  began : Nat
  deriving DecidableEq, Repr

/-- A pump's queue and its regulator (R410): the level in thousandths of a byte at a TIME; the write of a local pump that waits. -/
structure Pump where
  queue : List Xfer
  level : Nat
  at_ : Nat
  held : Option FarWrite
  deriving DecidableEq, Repr

/-- What an engine's status register shows of its last operation (R161, R199 to R201, R306): core, task, descriptor, kind, and
EMPTY_ROW for the reduction unit. -/
structure EngLast where
  core : Nat
  task : Nat
  desc : Nat
  kind : Nat
  empty : Bool
  deriving DecidableEq, Repr

structure Core where
  mem : SMap Byte
  roles : SMap Nat
  bad : SMap Nat
  patrolPos : SMap Nat
  patrolWb : SMap Nat
  tasks : SMap Task
  tags : SMap Tag
  tallies : SMap Nat
  tallySat : List Nat
  acc : SMap Nat
  windows : SMap Win
  scale : SMap Nat
  groups : List Group
  accs : List StatAcc
  stpeak : SMap Nat
  stpeakUsed : Nat
  stpeakUnrec : Nat
  stpeakClr : Bool
  gens : List GenSlot
  pendLoads : List TableLoad
  staged : List TableLoad
  relay : Relay
  pump : Pump
  landed : List Xfer
  matLast : EngLast
  eleLast : EngLast
  redLast : EngLast
  gatLast : EngLast
  maint : Bool
  locked : Bool
  denied : Nat
  deriving DecidableEq, Repr

inductive SliceState where
  | off | kindling | ready | running | contained | scrubbing | retired
  deriving DecidableEq, Repr

structure Slice where
  state : SliceState
  pumps : SMap Pump
  smpLast : EngLast
  ctlStopped : Nat
  deriving DecidableEq, Repr

/-! ### Streams (spec/06, spec/07, spec/10) -/

inductive HandleState where
  | free | parked | primed | entering | active | leaving
  deriving DecidableEq, Repr

/-- An item of a stream (R314, R381, R555). `run` is the round of its first compute round once scheduled. -/
structure Item where
  seq : Nat
  kind : Nat
  formed : Nat
  first : Nat
  count : Nat
  energy : Nat
  seg : Nat
  segRec : Bytes
  run : Option Nat
  attempts : Nat
  replayed : Bool
  withheld : Bool
  timedOut : Bool
  detected : Nat
  failed : Nat
  /-- The round in which it has trapped a NaN (R129). -/
  trapAt : Option Nat
  lost : Bool
  deriving DecidableEq, Repr

/-- What the programs of a round read of a stream: its positions, segment and draft length after that round's mark (R36, R295). -/
structure RoundPos where
  round : Nat
  frame : Nat
  token : Nat
  seg : Nat
  dlen : Nat
  deriving DecidableEq, Repr

/-- A stream (R310). `chunkAt`: one more than the round that formed its latest chunk. -/
structure Stream where
  state : HandleState
  job : Nat
  cls : Nat
  source : Nat
  port : Nat
  tdmSlot : Nat
  rate : Nat
  slot : Option Nat
  seed : Nat
  snum : Nat
  frame : Nat
  token : Nat
  seg : Nat
  marks : List Nat
  samples : List Int
  sampleBase : Nat
  items : List Item
  nextItem : Nat
  energy : Nat
  quiet : Nat
  dlen : Nat
  accept : List (Nat × Nat)
  proposed : Nat
  accepted : Nat
  committed : Nat
  /-- A draft of the item that runs has advanced the stream at an earlier mark (R297). -/
  drafted : Bool
  lag : Nat
  specGen : Nat
  /-- Generation with which each task (8 × core + task) stamped the slot's shadow entries (R329). -/
  stamps : SMap Nat
  specOpen : Bool
  specLen : Nat
  primedAt : Nat
  regAt : Option Nat
  deregAt : Option Nat
  regCmd : Option CmdRef
  deregCmd : Option CmdRef
  posted : SMap Nat
  keepCk : Bool
  chunkAt : Nat
  /-- One entry for each round whose program may still run, oldest first. -/
  pos : List RoundPos
  /-- Void samples of the chunks of recent rounds: the round, the first index, the index behind the last (R221). -/
  voids : List (Nat × Nat × Nat)
  deriving DecidableEq, Repr

/-- A key-value sequence (R236, R237). Unlisted page-list entries are unallocated. -/
structure Seq where
  /-- An item has failed at the end of the list: later ones fail until a new segment starts (R238). -/
  full : Bool
  /-- Generation with which the twins are stamped (R329). -/
  stamp : Nat
  /-- For each current entry, the sixteen positions, as position ÷ 16, that its frame was assigned for (R251, R255). -/
  born : SMap Nat
  len : Nat
  seg : Nat
  retLen : Nat
  retSeg : Nat
  specLen : Nat
  specOpen : Bool
  cur : SMap Nat
  twin : SMap Nat
  ret : SMap Nat
  lastRun : Nat
  deriving DecidableEq, Repr

/-- A spill or prime in progress (R256). -/
structure Move where
  key : Nat
  entry : Nat
  src : Nat
  dst : Nat
  deriving DecidableEq, Repr

/-! ### Crossing queues and the host (spec/01, spec/16) -/

/-- What an item at a domain boundary carries (R26). -/
inductive Cross where
  | frame (values : List Int) (isRepeat : Bool) (events : Nat) (rate : Nat)
  | submission (bytes : Bytes)
  | intake (bytes payload : Bytes)
  | bar2 (off : Nat) (data : Bytes)
  deriving DecidableEq, Repr

/-- An item in a crossing queue. `late`: while it waits, that an earlier seal deferred it; once assigned, that its stamp lies before
the round's window (R27). `taken`: its stream has taken it (R531). -/
structure CrossItem where
  stamp : Nat
  present : Nat
  seq : Nat
  len : Nat
  late : Bool
  taken : Bool
  data : Cross
  deriving DecidableEq, Repr

/-- An item whose confirmed record posted, offered to adapters (R348, R349). -/
structure Sample where
  job : Nat
  cls : Nat
  round : Nat
  handle : Nat
  seq : Nat
  seg : Nat
  first : Nat
  deriving DecidableEq, Repr

/-- Host tokens that make an item a sample (R348, R529): the round of their intake cut. -/
structure Target where
  round : Nat
  handle : Nat
  seg : Nat
  first : Nat
  tokens : Bytes
  deriving DecidableEq, Repr

/-- One source: items waiting for a seal and items assigned per round (R27). -/
structure CrossQ where
  items : List CrossItem
  assigned : List (Nat × CrossItem)
  nextSeq : Nat
  deriving DecidableEq, Repr

/-- A command that the cut assigned and that has not yet acted (R530). -/
structure HostCmd where
  ring : Nat
  index : Nat
  bytes : Bytes
  round : Nat
  deriving DecidableEq, Repr

/-- A host ring beside its registers: entries waiting in the backlog, interrupt holdoff, doorbell stamps not yet fetched. -/
structure HostRing where
  hostIdx : Nat
  devIdx : Nat
  backlog : List Bytes
  lastIrq : Nat
  irqPending : Bool
  holding : Bool
  stamps : List (Nat × Nat)
  deriving DecidableEq, Repr

/-- What left the device toward the host, in order. -/
inductive HostOut where
  | entry (kind ring index : Nat) (bytes : Bytes)
  | vector (v : Nat)
  | read (bytes : Bytes)
  | report (addr : Nat) (bytes : Bytes)
  | refetch (kind ring index : Nat)
  deriving DecidableEq, Repr

/-- A completion (R533). -/
structure Completion where
  job : Nat
  status : Nat
  kind : Nat
  handle : Nat
  code : Nat
  item : Nat
  ref : Nat
  deriving DecidableEq, Repr

/-- A provisional record posted and not yet superseded (R333). -/
structure Prov where
  job : Nat
  handle : Nat
  unit : Nat
  seg : Nat
  first : Nat
  count : Nat
  index : Nat
  round : Nat
  deriving DecidableEq, Repr

/-! ### Ports, links and the fabric (spec/14, spec/15) -/

/-- A port frame in progress (R457, R465): the stamp of its opening edge, whether it becomes a repeat, its EVENTS bits, and whether
it waits for nothing but the frames before it (a missing sync's, or one cut short). -/
structure OpenFrame where
  stamp : Nat
  isRepeat : Bool
  events : Nat
  ready : Bool
  deriving DecidableEq, Repr

/-- A TDM port: STATE of R468, frames in progress, the stamp of the latest frame (t0 of R464) and the repeats made in a stop, the
rate measurement of R463; `routes` in the order of loading (R473), keyed by job × 256 + place, and per key its play queue. -/
structure Port where
  state : Nat
  seq : Nat
  last : List Int
  opened : List OpenFrame
  stopT0 : Nat
  stopJ : Nat
  stamps : List Nat
  meas : Nat
  devRun : Nat
  okRun : Nat
  rateAct : Bool
  events : Nat
  ev : Nat
  played : List (Nat × List Int)
  playQ : SMap (List (List (List Int)))
  playOn : List Nat
  playPos : SMap Nat
  outSlots : List (Option Nat)
  routes : List (Nat × Rec)
  deriving DecidableEq, Repr

/-- A transfer being received or forwarded over a link (R480). -/
structure RxXfer where
  route : Nat
  path : Nat
  data : Bytes
  whole : Bool
  at_ : Nat
  link : Nat
  fixed : Bool
  judged : Bool
  late : Bool
  deriving DecidableEq, Repr

/-- A data flit that waits until its link's window has room (R477, R483). -/
structure OutFlit where
  type : Nat
  route : Nat
  len : Nat
  first : Bool
  last : Bool
  payload : Bytes
  deriving DecidableEq, Repr

structure Link where
  state : Nat
  partnerDev : Nat
  partnerIdx : Bool
  partnerLink : Nat
  partnerId : Bytes
  partnerBase : Bytes
  latency : Nat
  downEv : Bool
  idEv : Bool
  txSeq : Nat
  acked : Nat
  replay : List Bytes
  queue : List OutFlit
  rxLast : Nat
  nak : Bool
  naks : Nat
  merge : Bool
  rx : List RxXfer
  sent : List Bytes
  pump : Pump
  deriving DecidableEq, Repr

/-- A membership version flooded and not yet applied (R494). -/
structure Version where
  version : Nat
  eff : Nat
  members : List Bytes
  roundLen : Option Nat
  deriving DecidableEq, Repr

/-- Messages that this device sends over BULK or floods, in order. -/
inductive Flood where
  | advert (a : Advert)
  | version (v : Version)
  | epoch (t : Nat)
  | aligned
  | roundLen (len : Nat)
  | roundLenRefused (id : Bytes)
  | staged (compile dev : Nat)
  | activate (compile round : Nat)
  | lateReport (compile dev : Nat)
  | abort (compile : Nat)
  | mapChange (id : Bytes)
  | recovery (compile round : Nat)
  | shipment (job : Nat) (header body : Bytes)
  | shipped (job round : Nat)
  | reject (srcDev : Nat) (header : Bytes)
  deriving DecidableEq, Repr

structure Fabric where
  map : List Advert
  mySeq : Nat
  state : Nat
  root : Bytes
  isRoot : Bool
  version : Nat
  members : List Bytes
  pending : List Version
  lenReport : Option (Nat × Bytes)
  stagedReports : List (Nat × Nat)
  alignedReports : List Bytes
  aligning : Bool
  roundLenOut : Bool
  recovery : List (Nat × Nat × Bool)
  sends : List Flood
  minority : Bool
  sentXfers : List Xfer
  rejects : List Xfer
  deriving DecidableEq, Repr

/-- A part of a shipment received as a mirror (R503 to R505): its header's figures and the bytes that have come. -/
structure Ship where
  compile : Nat
  origin : Nat
  round : Nat
  part : Nat
  units : Nat
  bytes : Nat
  digest : Bytes
  data : Bytes
  deriving DecidableEq, Repr

/-- What a device keeps as a mirror: parts of the last rounds, the copies of the origins' state as 4 KiB units by their place, the
complete shipments (compile, origin, round), the latest part 3 of each adapter (R355: by compile, origin and adapter; a pair of its
every-round and its switch bytes), the reports that mirrors made to it as an origin (mirror, round), and the standbys
activated (compile, round of the shipment they start from). -/
structure Mirror where
  parts : List Ship
  state : SMap Bytes
  complete : List (Nat × Nat × Nat)
  adapters : List ((Nat × Nat × Nat) × Bytes × Bytes)
  reported : List (Nat × Nat)
  active : List (Nat × Nat)
  deriving DecidableEq, Repr

/-! ### Faults, checkpoints, log, governor (spec/10, spec/17, spec/19) -/

/-- A detection awaiting its recovery mark (R546, R553). -/
structure Action where
  code : Nat
  cls : Nat
  kind : Nat
  unit : Nat
  handles : List Nat
  job : Nat
  core : Nat
  task : Nat
  round : Nat
  markAt : Nat
  deriving DecidableEq, Repr

structure ErrBlock where
  head : Nat
  tail : Nat
  recs : SMap Bytes
  dropped : Nat
  ovf : Bool
  halting : Bool
  halted : Bool
  handling : Option Action
  queue : List Action
  history : List (Nat × Nat × Nat)
  retired : Nat
  retiredAt : List (Nat × Nat)
  deriving DecidableEq, Repr

structure LogBlock where
  head : Nat
  tail : Nat
  round : List Bytes
  digest : Bytes
  digestRound : Nat
  fullEpisode : Bool
  deriving DecidableEq, Repr

/-- A stream's checkpoint (R551): its record and the bytes its class's ember descriptors name, by 8 × core + task and tensor. -/
structure StreamCk where
  handle : Nat
  round : Nat
  stream : Stream
  slices : List (Nat × Nat × Bytes)
  seqs : List (Nat × Seq)
  deriving DecidableEq, Repr

/-- A core's job state in a checkpoint (R551): histories and adapter tensors as bytes at their place; adapters by job and number. -/
structure CoreCk where
  core : Nat
  round : Nat
  tags : SMap Tag
  tallies : SMap Nat
  rings : SMap (List Ring)
  scale : SMap Nat
  groups : List Group
  gens : List GenSlot
  pendLoads : List TableLoad
  mem : List (Nat × Bytes)
  adps : List (Nat × Nat × AdpState)
  deriving DecidableEq, Repr

/-- The governor (R604, R605) and the figures of VMC_STRM_STAT, which change at marks (R339). -/
structure Governor where
  level : Nat
  fMhz : Nat
  floorMhz : Nat
  coolRun : Nat
  shedSpec : Bool
  /-- Rounds for which speculation is shed, for programs that still run as those of their own round (R36, R77). -/
  shedRounds : List Nat
  last : Measure
  tNow : List Int
  lvlEv : Bool
  active : Nat
  primed : Nat
  registered : Nat
  waiting : Nat
  deriving DecidableEq, Repr

/-! ### The whole machine -/

/-- Everything that a loss of power loses (R573). -/
structure Dev where
  kindle : Kindle
  trust : Trust
  tb : TimeBase
  regs : SMap Word
  shadow : SMap Word
  /-- S-class values of staged jobs, which take effect at their activation (R79 step 6, R83). -/
  staged : SMap Word
  cntNow : SMap Nat
  cntLr : SMap Nat
  cores : SMap Core
  slices : SMap Slice
  well : SMap Byte
  deep : SMap Byte
  poolUse : SMap Nat
  zeroing : List (Nat × Nat × Nat)
  jobs : SMap Job
  cmds : List HostCmd
  streams : SMap Stream
  seqs : SMap Seq
  moves : List Move
  /-- Log records of the pages that killed sequences gave up, without their round, for the next mark (R255). -/
  freed : List Bytes
  cross : SMap CrossQ
  /-- The input bytes that the latest cut assigned, for a job with mirrors (R503 part 1). -/
  shipIn : Bytes
  rings : SMap HostRing
  out : List HostOut
  /-- Vectors that wait in the pending-bit array of MSI-X, as bits (R16, R518). -/
  msix : Nat
  dones : List (Nat × Completion)
  provs : List Prov
  /-- Port slots bound to streams in recent rounds (R456): round, port, slot, handle. -/
  bound : List (Nat × Nat × Nat × Nat)
  targets : List Target
  samples : List Sample
  ports : SMap Port
  links : SMap Link
  fabric : Fabric
  mirror : Mirror
  err : ErrBlock
  log : LogBlock
  streamCks : List StreamCk
  coreCks : List CoreCk
  gov : Governor
  flr : Bool
  free : Nat
  /-- Words that have been held so far (R164). -/
  holds : Nat
  deriving DecidableEq, Repr

/-- The machine: the commands that wait, first in, first out; the fuses and the flash; everything else. -/
structure State where
  pending : List Instr
  vault : Vault
  dev : Dev
  deriving DecidableEq, Repr

/-! ### Values at reset -/

def Kindle.reset : Kindle :=
  { powered := false, pllLocked := false, fwDone := false, fwOk := false, fwFail := false, fwSlotB := false,
    keysDone := false, bistDone := false, wellTried := 0, wellOk := 0, wellFail := 0, localReady := false,
    zeroed := false, localMs := 0, readyOut := false, faultN := true, outputsHiZ := true, crs := true,
    linkTrained := false, retryEnded := false, fwVersion := 0, fwSec := 0, fwDigest := [] }

def zeros (n : Nat) : Bytes := List.replicate n 0

/-- Fuses of a part as it leaves manufacture (R589): F0 enrolled, F1 and the image slots blank; entry 2 for the values. -/
def Vault.reset : Vault :=
  { vendor := List.replicate 4 (zeros 32), vendorRevoked := 0, fwMin := 0,
    slots := List.replicate 4 ⟨zeros 32, false, false⟩ ++ [⟨zeros 32, true, false⟩, ⟨zeros 32, false, false⟩],
    seed := zeros 32, flash := [] }

def Trust.reset : Trust :=
  { usable := 0, keys := List.replicate 6 [], publicKey := [], cert := [], identity := zeros 32, nonce := zeros 32,
    keyState := 0, keyErr := 0, keyEv := false, keyAddr := 0, attState := 0, attErr := 0, attEv := false, attLen := 0 }

def TimeBase.reset : TimeBase :=
  { now := 0, aligned := false, state := 0, parent := 0, offset := 0, good := 0, epoch := 0, baseT := 0, baseN := 0,
    round := 0, nextMark := 0, running := false, lenHalf := 20, changes := [], winStart := 0, sealed := 0,
    baseRoot := [] }

/-- A pump's regulator is full: 64 KiB of burst, in thousandths of a byte (R410, R437; entry 112). -/
def Pump.reset : Pump := { queue := [], level := 65536000, at_ := 0, held := none }

def Task.reset : Task :=
  { job := 0, strict := false, nanTrap := true, base := 0, bound := 0, schedAddr := 0, schedWords := 0, descs := [],
    rings := [], state := .none, pc := 0, lastCycle := 0, progRound := 0, passed := 0, ovrCnt := 0, due := [], loop := none,
    wait := none, gate := none, sums := [], flags := {}, flagsRound := {}, flagsLr := {}, flagsProg := {},
    emptyRow := false, trapA := 0, trapElem := 0, trapRound := 0, cands := [], trapped := false, cmdTrap := none, adapting := false, spanned := false, spanNan := false, redRes := [], eleCnt := [],
    issued := false, endedAt := none, released := [], missed := [], kvFree := 0, folded := 0 }

def EngLast.none : EngLast := { core := 0, task := 0, desc := 0, kind := 0, empty := false }

def GenSlot.reset : GenSlot := { state := 0, gen := 0, ew := 0, values := [], since := 0, retired := 0 }

def Relay.reset : Relay := { inbox := [], buf := [], past := [], takes := [], passes := [] }

/-- A core at the release of device reset: CIS_MODE.MAINT reads 1 (R393). -/
def Core.reset : Core :=
  { mem := [], roles := [], bad := [], patrolPos := [], patrolWb := [], tasks := [], tags := [], tallies := [],
    tallySat := [], acc := [], windows := [], scale := [], groups := [], accs := [], stpeak := [], stpeakUsed := 0,
    stpeakUnrec := 0, stpeakClr := false, gens := List.replicate 4 GenSlot.reset, pendLoads := [], staged := [],
    relay := Relay.reset, pump := Pump.reset, landed := [], matLast := EngLast.none, eleLast := EngLast.none, redLast := EngLast.none,
    gatLast := EngLast.none, maint := true, locked := false, denied := 0 }

def Slice.reset : Slice := { state := .off, pumps := [], smpLast := EngLast.none, ctlStopped := 0 }

def Job.reset : Job :=
  { state := .empty, loadErr := 0, actRound := none, gen := 0, img := none, standby := false, stagedRound := 0,
    timeout := 0, loadCmd := none, stopCmds := [], killCmds := [], stopAt := none, spares := 0,
    adps := [], paths := [], draining := [], yielded := false, yieldRounds := [], adpGens := 0, adpStep := 0, adpDisc := 0, replay := none, shipped := 0, deepObjs := [], clear := false,
    halting := false }

def Stream.reset : Stream :=
  { state := .free, job := 0, cls := 0, source := 0, port := 0, tdmSlot := 0, rate := 0, slot := none, seed := 0,
    snum := 0, frame := 0, token := 0, seg := 0, marks := [], samples := [], sampleBase := 0, items := [],
    nextItem := 0, energy := 0, quiet := 0, dlen := 0, accept := List.replicate 8 (0, 0), proposed := 0, accepted := 0,
    committed := 0, drafted := false, lag := 0, specGen := 0, stamps := [], specOpen := false, specLen := 0, primedAt := 0, regAt := none,
    deregAt := none, regCmd := none, deregCmd := none, posted := [], keepCk := false, chunkAt := 0, pos := [], voids := [] }

def Seq.reset : Seq :=
  { full := false, stamp := 0, born := [], len := 0, seg := 0, retLen := 0, retSeg := 0, specLen := 0, specOpen := false, cur := [], twin := [], ret := [],
    lastRun := 0 }

def CrossQ.reset : CrossQ := { items := [], assigned := [], nextSeq := 0 }

def HostRing.reset : HostRing :=
  { hostIdx := 0, devIdx := 0, backlog := [], lastIrq := 0, irqPending := false, holding := false, stamps := [] }

def Port.reset : Port :=
  { state := 0, seq := 0, last := [], opened := [], stopT0 := 0, stopJ := 0, stamps := [], meas := 0, devRun := 0, okRun := 0, rateAct := false, events := 0, ev := 0,
    played := [], playQ := [], playOn := [], playPos := [], outSlots := [], routes := [] }

def Link.reset : Link :=
  { state := 0, partnerDev := 0, partnerIdx := false, partnerLink := 0, partnerId := [], partnerBase := [], latency := 0,
    downEv := false, idEv := false, txSeq := 0, acked := 0, replay := [], queue := [], rxLast := 0, nak := false, naks := 0,
    merge := false, rx := [], sent := [], pump := Pump.reset }

/-- FAB_STAT.MEMBERS reads 1 at reset (R513). -/
def Fabric.reset : Fabric :=
  { map := [], mySeq := 0, state := 0, root := zeros 8, isRoot := false, version := 0, members := [], pending := [],
    lenReport := none, stagedReports := [], alignedReports := [], aligning := false, roundLenOut := false, recovery := [],
    sends := [], minority := false, sentXfers := [], rejects := [] }

def Mirror.reset : Mirror := { parts := [], state := [], complete := [], adapters := [], reported := [], active := [] }

def ErrBlock.reset : ErrBlock :=
  { head := 0, tail := 0, recs := [], dropped := 0, ovf := false, halting := false, halted := false, handling := none,
    queue := [], history := [], retired := 0, retiredAt := [] }

def LogBlock.reset : LogBlock :=
  { head := 0, tail := 0, round := [], digest := zeros 32, digestRound := 0, fullEpisode := false }

def Measure.reset : Measure :=
  { pAvg := 0, pFix := 0, pPeak := 0, high := 0, tMax := 0, linkMib := 0, sliceI := [0, 0, 0, 0], sliceT := [0, 0, 0, 0] }

/-- PWR_STAT.F_MHZ reads 1,750 at reset (R618). -/
def Governor.reset : Governor :=
  { level := 0, fMhz := 1750, floorMhz := 0, coolRun := 0, shedSpec := false, shedRounds := [], last := Measure.reset,
    tNow := [0, 0, 0, 0], lvlEv := false, active := 0, primed := 0, registered := 0, waiting := 0 }

/-- Every register at its Reset column (R11). A register, core, port, link, ring, stream or byte that a map does not list
holds its reset value. -/
def Dev.reset : Dev :=
  { kindle := Kindle.reset, trust := Trust.reset, tb := TimeBase.reset, regs := [],
    shadow := [], staged := [], cntNow := [], cntLr := [], cores := [], slices := [], well := [], deep := [], poolUse := [], zeroing := [],
    jobs := [], cmds := [], streams := [], seqs := [], moves := [], freed := [], cross := [], shipIn := [], rings := [], out := [], msix := 0, dones := [],
    provs := [], bound := [], targets := [], samples := [], ports := [], links := [], fabric := Fabric.reset, mirror := Mirror.reset,
    err := ErrBlock.reset, log := LogBlock.reset, streamCks := [], coreCks := [], gov := Governor.reset, flr := false, free := 0, holds := 0 }

/-- The machine right after reset: PWR_GOOD has not risen, nothing queued. -/
def State.reset : State := { pending := [], vault := Vault.reset, dev := Dev.reset }

end Sys2Proof.Machine
end

