-- ==== Sys2Proof/Machine/Ops.lean ====
section
/-! DEFINITION. Machine/Ops.lean: the named operations over sparse data, memories, registers and counters, and the three
writers that every block shares: the error ring (R543 to R545), the decision log (R334, R338) and the host rings (R527, R533,
R535). -/

namespace Sys2Proof.Machine

/-! ### Sparse data by key -/

def mget {α : Type} : SMap α → Nat → Option α
  | [], _ => none
  | (a, v) :: r, k => if a = k then some v else mget r k

def mset {α : Type} : SMap α → Nat → α → SMap α
  | [], k, x => [(k, x)]
  | (a, v) :: r, k, x => if k < a then (k, x) :: (a, v) :: r else if k = a then (k, x) :: r else (a, v) :: mset r k x

def mdel {α : Type} (m : SMap α) (k : Nat) : SMap α := m.filter (fun p => p.1 != k)

def mgetD {α : Type} (m : SMap α) (k : Nat) (d : α) : α := (mget m k).getD d

/-- Keys in strictly rising order. -/
def mwf {α : Type} : SMap α → Bool
  | [] => true
  | [_] => true
  | a :: b :: r => decide (a.1 < b.1) && mwf (b :: r)

def mmap {α : Type} (f : Nat → α → α) (m : SMap α) : SMap α := m.map (fun p => (p.1, f p.1 p.2))

/-- A change of a list's entry. -/
def lset {α : Type} (l : List α) (i : Nat) (f : α → α) : List α := l.zipIdx.map (fun p => if p.2 = i then f p.1 else p.1)

/-! ### Memory: an unlisted byte reads zero (R579, R581) and no zero byte is listed -/

/-- The canonical form: rising addresses, no zero byte. -/
def Memory.wf (m : SMap Byte) : Bool := mwf m && m.all (fun p => p.2 != 0)

def memGet (m : SMap Byte) (a : Nat) : Byte := mgetD m a 0

/-- The listed bytes of n addresses from a, filled with zeros. -/
def memFill : Nat → Nat → SMap Byte → Bytes
  | _, 0, _ => []
  | a, n + 1, [] => (0 : Byte) :: memFill (a + 1) n []
  | a, n + 1, (k, v) :: r => if k = a then v :: memFill (a + 1) n r else 0 :: memFill (a + 1) n ((k, v) :: r)

/-- n bytes from address a, lowest first. -/
def memRead (m : SMap Byte) (a n : Nat) : Bytes := memFill a n (m.filter (fun p => decide (a ≤ p.1) && decide (p.1 < a + n)))

/-- The entries that bytes at a make. -/
def memCells : Nat → Bytes → SMap Byte
  | _, [] => []
  | a, b :: r => if b = 0 then memCells (a + 1) r else (a, b) :: memCells (a + 1) r

/-- Bytes written from address a. -/
def memWrite (m : SMap Byte) (a : Nat) (bs : Bytes) : SMap Byte :=
  m.filter (fun p => decide (p.1 < a)) ++ memCells a bs ++ m.filter (fun p => decide (a + bs.length ≤ p.1))

/-- n bytes from a become zero. -/
def memZero (m : SMap Byte) (a n : Nat) : SMap Byte := m.filter (fun p => decide (p.1 < a) || decide (a + n ≤ p.1))

/-! ### Bit fields -/

def bits (w lo n : Nat) : Nat := (w >>> lo) % 2 ^ n

def bit (w i : Nat) : Bool := w.testBit i

/-- A number with bits lo to lo + n − 1 replaced. -/
def putBits (w lo n v : Nat) : Nat := w - (bits w lo n) * 2 ^ lo + (v % 2 ^ n) * 2 ^ lo

/-- Bytes off to off + n − 1 of a 64-byte record as a number (R5, R62). -/
def fld (r : Rec) (off n : Nat) : Nat := bits r.toNat (8 * off) (8 * n)

def fldS (r : Rec) (off n : Nat) : Int := sext (8 * n) (fld r off n)

/-- A 64-byte record from bytes; missing bytes are zero. -/
def recOf (bs : Bytes) : Rec := BitVec.ofNat 512 (leNat (bs.take 64))

def recBytes (r : Rec) : Bytes := leBytes 64 r.toNat

/-- Chunks of n bytes, the last one possibly short. -/
def chunksAux (n : Nat) : Nat → Bytes → List Bytes
  | 0, _ => []
  | _ + 1, [] => []
  | f + 1, bs => bs.take n :: chunksAux n f (bs.drop n)

def chunks (n : Nat) (bs : Bytes) : List Bytes := chunksAux n bs.length bs

/-! ### Writes to a cistern and what it reads as (R364, R365) -/

/-- Cistern offset of word k of a bank, and the bytes of such a word (R358). -/
def bankWord (b k : Nat) : Nat :=
  if b < 16 then b / 4 * 262144 + (4 * k + b % 4) * 64 else 0x100000 + (b - 16) / 2 * 262144 + (2 * k + (b - 16) % 2) * 128

def bankWidth (b : Nat) : Nat := if b < 16 then 64 else 128

/-- Write-backs of the patrol that a write of n bytes at a overtakes are dropped (R366); an entry holds one more than its word's number. -/
def Core.overtake (x : Core) (a n : Nat) : SMap Nat :=
  x.patrolWb.filter (fun p => !(decide (a < bankWord p.1 (p.2 - 1) + bankWidth p.1) && decide (bankWord p.1 (p.2 - 1) < a + n)))

/-- The spans of bytes that writes cover, where each write that goes on at the end of the one before it belongs to its span (entry 93). -/
def runsOf : List (Nat × Bytes) → List (Nat × Nat)
  | [] => []
  | w :: r => match runsOf r with
    | [] => [(w.1, w.1 + w.2.length)]
    | y :: z => if w.1 ≤ y.1 ∧ y.1 ≤ w.1 + w.2.length then (w.1, max y.2 (w.1 + w.2.length)) :: z else (w.1, w.1 + w.2.length) :: y :: z

/-- Writes land in order; a word that one access covers is clean again (R364), and the patrol's write-backs that they overtake are
dropped. -/
def Core.storeAll (x : Core) (ws : List (Nat × Bytes)) : Core :=
  { x with
    mem := ws.foldl (fun m w => memWrite m w.1 w.2) x.mem
    patrolWb := if x.patrolWb.isEmpty then x.patrolWb else ws.foldl (fun p w => { x with patrolWb := p }.overtake w.1 w.2.length) x.patrolWb
    bad := if x.bad.isEmpty then x.bad
      else x.bad.filter (fun b => !((runsOf ws).any (fun y => decide (y.1 ≤ 8 * b.1) && decide (8 * b.1 + 8 ≤ y.2)))) }

/-- n bytes from a become zero; a word that they cover is clean again. -/
def Core.zeroAt (x : Core) (a n : Nat) : Core :=
  { x with mem := memZero x.mem a n, patrolWb := x.overtake a n, bad := x.bad.filter (fun b => !(decide (a ≤ 8 * b.1) && decide (8 * b.1 + 8 ≤ a + n))) }

/-- The cistern as a read delivers it: zeros for each word that holds an uncorrectable error. -/
def Core.readable (x : Core) : SMap Byte :=
  if x.bad.isEmpty then x.mem else x.mem.filter (fun p => (mget x.bad (p.1 / 8)).isNone)

/-! ### Units (R1 to R3, R13) -/

def coreOff (c : Nat) : Nat := 0x800000 + (c / 64) * 0x800000 + 0x100000 + (c % 64) * 0x10000
def sliceOff (s : Nat) : Nat := 0x800000 + s * 0x800000
def linkOff (l : Nat) : Nat := 0x200000 + l * 0x10000
def portOff (p : Nat) : Nat := 0x600000 + p * 0x10000

def Dev.core (d : Dev) (c : Nat) : Core := mgetD d.cores c Core.reset
def Dev.setCore (d : Dev) (c : Nat) (x : Core) : Dev := { d with cores := mset d.cores c x }
def Dev.onCore (d : Dev) (c : Nat) (f : Core → Core) : Dev := d.setCore c (f (d.core c))

def Core.task (x : Core) (t : Nat) : Task := mgetD x.tasks t Task.reset
def Core.setTask (x : Core) (t : Nat) (k : Task) : Core := { x with tasks := mset x.tasks t k }

def Dev.task (d : Dev) (c t : Nat) : Task := (d.core c).task t
def Dev.onTask (d : Dev) (c t : Nat) (f : Task → Task) : Dev := d.onCore c (fun x => x.setTask t (f (x.task t)))

def Dev.slice (d : Dev) (s : Nat) : Slice := mgetD d.slices s Slice.reset
def Dev.onSlice (d : Dev) (s : Nat) (f : Slice → Slice) : Dev := { d with slices := mset d.slices s (f (d.slice s)) }

def Dev.job (d : Dev) (j : Nat) : Job := mgetD d.jobs j Job.reset
def Dev.onJob (d : Dev) (j : Nat) (f : Job → Job) : Dev := { d with jobs := mset d.jobs j (f (d.job j)) }

def Dev.stream (d : Dev) (h : Nat) : Stream := mgetD d.streams h Stream.reset
def Dev.onStream (d : Dev) (h : Nat) (f : Stream → Stream) : Dev := { d with streams := mset d.streams h (f (d.stream h)) }

def Dev.port (d : Dev) (p : Nat) : Port := mgetD d.ports p Port.reset
def Dev.onPort (d : Dev) (p : Nat) (f : Port → Port) : Dev := { d with ports := mset d.ports p (f (d.port p)) }

def Dev.link (d : Dev) (l : Nat) : Link := mgetD d.links l Link.reset
def Dev.onLink (d : Dev) (l : Nat) (f : Link → Link) : Dev := { d with links := mset d.links l (f (d.link l)) }

def Dev.crossQ (d : Dev) (k : Nat) : CrossQ := mgetD d.cross k CrossQ.reset
def Dev.onCross (d : Dev) (k : Nat) (f : CrossQ → CrossQ) : Dev := { d with cross := mset d.cross k (f (d.crossQ k)) }

def Dev.ring (d : Dev) (k : Nat) : HostRing := mgetD d.rings k HostRing.reset
def Dev.onRing (d : Dev) (k : Nat) (f : HostRing → HostRing) : Dev := { d with rings := mset d.rings k (f (d.ring k)) }

/-- The key of a crossing source: SRC_TYPE and SRC_ID of R28. -/
def srcKey (ty id : Nat) : Nat := ty * 256 + id

/-- A job is loaded while it is not EMPTY (R90). -/
def Job.loaded (j : Job) : Bool := j.state != .empty

def Dev.anyLoaded (d : Dev) : Bool := d.jobs.any (fun p => p.2.loaded)

def Job.image (j : Job) (d : Image) : Image := j.img.getD d

/-- TIME advances to the TIME of an event (R23: it never decreases). -/
def Dev.at_ (d : Dev) (now : Nat) : Dev := { d with tb := { d.tb with now := max d.tb.now now } }

/-! ### Registers in effect and counters -/

/-- The register words whose reset columns are not zero, of the fields the host can write (R38, R341, R437, R467 to R525,
R617); the mask bits of MSI-X are 1 at reset (PRESUMED, entry 27). -/
def resetWord (off : Nat) : Nat :=
  if off = 0x1008 then 20 + 200 * 2 ^ 8
  else if off = 0x3018 then 16384
  else if off = 0x7000 then 450 + 105 * 2 ^ 10
  else if 0x100000 ≤ off ∧ off < 0x100C00 ∧ off % 0x20 = 8 then 2 ^ 16
  else if 0x1F0000 ≤ off ∧ off < 0x1F0400 ∧ off % 16 = 8 then 2 ^ 32
  else if 0x200000 ≤ off ∧ off < 0x440000 ∧ off % 0x10000 = 0 then 1
  else if 0x200000 ≤ off ∧ off < 0x440000 ∧ off % 0x10000 = 0x100 then 0xFFF + 0x40 * 2 ^ 16
  else if 0x800000 ≤ off ∧ off < 0x2800000 ∧ off % 0x800000 < 0x100000 ∧
      (off % 0x800000 = 0x3000 ∨ off % 0x800000 = 0x3020 ∨ off % 0x800000 = 0x3040 ∨ off % 0x800000 = 0x3060) then
    0xFFF + 0x40 * 2 ^ 16
  else if 0x800000 ≤ off ∧ off < 0x2800000 ∧ 0x100000 ≤ off % 0x800000 ∧ off % 0x800000 < 0x500000 ∧
      off % 0x10000 = 0xE00 then 0xFFF + 0x40 * 2 ^ 16
  else 0

/-- The value of a register's writable fields in effect. -/
def Dev.reg (d : Dev) (off : Nat) : Nat := match mget d.regs off with
  | some w => w.toNat
  | none => resetWord off

def Dev.regF (d : Dev) (off lo n : Nat) : Nat := bits (d.reg off) lo n

def Dev.setReg (d : Dev) (off v : Nat) : Dev := { d with regs := mset d.regs off (BitVec.ofNat 64 v) }

/-- What a read of a register's writable fields returns: the value that a staged job brings, the shadow of a host write, or the value in
effect (R79 step 6, R91). -/
def Dev.shadowReg (d : Dev) (off : Nat) : Nat := match mget d.staged off, mget d.shadow off with
  | some w, _ => w.toNat
  | none, some w => w.toNat
  | none, none => d.reg off

/-- A field's value takes effect at once; a shadow that waits in the same register holds it too (R91, R92). -/
def Dev.putField (d : Dev) (off lo n v : Nat) : Dev :=
  let d1 := d.setReg off (putBits (d.reg off) lo n v)
  match mget d.shadow off with
  | some w => { d1 with shadow := mset d1.shadow off (BitVec.ofNat 64 (putBits w.toNat lo n v)) }
  | none => d1

/-- A per-round counter field counts n (R12: its LR field shows the round before). -/
def Dev.count (d : Dev) (off lo n : Nat) : Dev :=
  if n = 0 then d else { d with cntNow := mset d.cntNow (off * 64 + lo) (mgetD d.cntNow (off * 64 + lo) 0 + n) }

/-- A field that shows what the mark itself decided counts n, after the counters have turned over. -/
def Dev.noteLr (d : Dev) (off lo n : Nat) : Dev :=
  if n = 0 then d else { d with cntLr := mset d.cntLr (off * 64 + lo) (mgetD d.cntLr (off * 64 + lo) 0 + n) }

def Dev.lr (d : Dev) (off lo n : Nat) : Nat := min (mgetD d.cntLr (off * 64 + lo) 0) (2 ^ n - 1)

/-- The intake guard D in ns (R38). -/
def Dev.guardNs (d : Dev) : Nat := d.regF 0x1008 8 16 * 1000

/-- A free value of a kind, and the count of free values moved on (entry 4). -/
def Dev.freeVal (d : Dev) (kind : Nat) : Nat × Dev := (Config.freeValue kind d.free, { d with free := d.free + 1 })

/-! ### Interrupts and what leaves for the host -/

def Dev.emit (d : Dev) (o : HostOut) : Dev := { d with out := d.out ++ [o] }

/-- The word of a vector's MSI-X entry that holds its data and its mask bit (R518; PRESUMED from PCI Express, entry 27). -/
def msixCtl (v : Nat) : Nat := 0x1F0008 + 16 * v

/-- A vector goes out, or becomes pending while its mask bit is 1 (R16, R518; PRESUMED, entry 27). -/
def Dev.vector (d : Dev) (v : Nat) : Dev :=
  if d.regF (msixCtl v) 32 1 = 1 then { d with msix := d.msix ||| 2 ^ v } else d.emit (.vector v)

/-- A mask bit falls: the vector goes out if it was pending. -/
def Dev.unmask (d : Dev) (v : Nat) : Dev :=
  if bit d.msix v then { d with msix := d.msix - 2 ^ v }.emit (.vector v) else d

/-! ### Error records (R542 to R545) -/

/-- Containment classes (R543). -/
def clsItem : Nat := 0
def clsStream : Nat := 1
def clsTask : Nat := 2
def clsCore : Nat := 3
def clsSlice : Nat := 4
def clsDevice : Nat := 5

/-- What a record says beside the round and the time (R543, R544). -/
structure Err where
  code : Nat
  cls : Nat := 0
  corr : Bool := true
  esc : Bool := false
  kind : Nat := 6
  task : Nat := 0
  unit : Nat := 0
  handle : Option Nat := none
  a : Nat := 0
  b : Nat := 0
  round : Option Nat := none
  deriving DecidableEq, Repr

def errBytes (e : Err) (queued : Bool) (round now : Nat) : Bytes :=
  leBytes 2 e.code ++
  leBytes 1 (e.cls + 8 * e.corr.toNat + 16 * e.esc.toNat + 32 * queued.toNat + 64 * e.handle.isNone.toNat) ++
  leBytes 1 (e.kind + 32 * (if e.kind = 0 then e.task else 0)) ++ leBytes 2 e.unit ++ leBytes 2 (e.handle.getD 0) ++
  leBytes 8 round ++ leBytes 4 e.a ++ leBytes 8 e.b ++ leBytes 4 now

/-- The device halts: intake stops at once, the rest follows at the marks (R550). -/
def Dev.halt (d : Dev) : Dev := { d with err := { d.err with halting := true } }

/-- A record is written, or dropped when the host holds 256 unread ones (R545); ERR_CTL decides its interrupt (R568). -/
def Dev.raise (d : Dev) (e : Err) : Dev :=
  let rec_ := errBytes e d.err.handling.isSome (e.round.getD d.tb.round) d.tb.now
  let d1 :=
    if d.err.head - d.err.tail ≥ 256 then
      { d with err := { d.err with ovf := true, dropped := min (d.err.dropped + 1) (2 ^ 32 - 1) } }
    else
      let d' := { d with err := { d.err with head := d.err.head + 1, recs := mset d.err.recs (d.err.head % 256) rec_ } }
      if d.regF 0x6000 0 1 = 1 && decide (d.regF 0x6000 8 3 ≤ e.cls) && (!e.corr || d.regF 0x6000 7 1 = 1) then
        d'.vector (d.regF 0x6000 1 6)
      else d'
  if e.cls = clsDevice then d1.halt else d1

def recHostAccess : Err := { code := 0x0103 }
def recCfgRange : Err := { code := 0x0102 }
def recCfgLocked (off v : Nat) : Err := { code := 0x0101, a := off, b := v }

/-! ### The decision log (R334, R338, R596) -/

def Dev.logCap (d : Dev) : Nat := d.regF 0x3018 0 32 * 128

/-- The ring has no room for a record (R338). -/
def Dev.logFull (d : Dev) : Bool := decide (d.log.head - d.log.tail ≥ d.logCap)

def Dev.logBase (d : Dev) : Nat := d.regF 0x3010 12 36 * 4096

/-- A decision record goes to the ring in the well, and into the round's records for the digest. The first record that finds
the ring full in an episode raises E_LOG_FULL; a record that finds it full is lost. -/
def Dev.logRec (d : Dev) (r : Bytes) : Dev :=
  if d.logFull then
    if d.log.fullEpisode then d
    else ({ d with log := { d.log with fullEpisode := true } }).raise { code := 0x0705, cls := clsDevice, corr := false }
  else
    { d with
      well := memWrite d.well (d.logBase + (d.log.head % d.logCap) * 32) r
      log := { d.log with head := d.log.head + 1, fullEpisode := false, round := d.log.round ++ [r] } }

/-- A governor record (R335). -/
def govRec (kind action handle slot aux round a b : Nat) : Bytes :=
  leBytes 1 kind ++ leBytes 1 action ++ leBytes 2 handle ++ leBytes 2 slot ++ leBytes 2 aux ++ leBytes 8 round ++
    leBytes 8 a ++ leBytes 8 b

/-- An outcome record or a job event (R336). -/
def outcomeRec (kind status handle itemKind round item code : Nat) : Bytes :=
  leBytes 1 kind ++ leBytes 1 status ++ leBytes 2 handle ++ leBytes 2 itemKind ++ leBytes 2 0 ++ leBytes 8 round ++
    leBytes 8 item ++ leBytes 4 code ++ leBytes 4 0

/-! ### Host rings (R524 to R527, R535) -/

def ringCode : RingKind → Nat
  | .sq => 0 | .cq => 1 | .iq => 2 | .rq => 3

/-- BAR0 block of a ring (R524). -/
def ringOff (kind n : Nat) : Nat :=
  (if kind = 0 then 0x100000 else if kind = 1 then 0x100200 else if kind = 2 then 0x100400 else 0x100800) + n * 0x20

def ringKey (kind n : Nat) : Nat := kind * 256 + n

def Dev.ringEn (d : Dev) (kind n : Nat) : Bool := d.regF (ringOff kind n + 8) 0 1 = 1

def Dev.ringEntries (d : Dev) (kind n : Nat) : Nat := 2 ^ (d.regF (ringOff kind n + 8) 1 4 + 4)

/-- Entry counts are modulo 2^32 (R524). -/
def sub32 (a b : Nat) : Nat := (a + 2 ^ 32 - b % 2 ^ 32) % 2 ^ 32

/-- A ring's interrupt, at most once per holdoff (R527). -/
def Dev.ringIrq (d : Dev) (kind n : Nat) : Dev :=
  let cfg := ringOff kind n + 8
  if d.regF cfg 54 1 = 0 then d
  else if (d.ring (ringKey kind n)).holding then d.onRing (ringKey kind n) (fun r => { r with irqPending := true })
  else
    ((d.onRing (ringKey kind n) (fun r => { r with lastIrq := d.tb.now, holding := decide (0 < d.regF cfg 56 8) })).vector
      (d.regF cfg 48 6))

/-- PHASE is bit SIZE + 4 of the index (R527). -/
def Dev.phase (d : Dev) (kind n idx : Nat) : Nat := bits idx (d.regF (ringOff kind n + 8) 1 4 + 4) 1

/-- A byte list with PHASE set in bit 7 of a byte. -/
def withPhase (bs : Bytes) (at_ ph : Nat) : Bytes :=
  lset bs at_ (fun b => BitVec.ofNat 8 (b.toNat % 128 + 128 * ph))

/-- The byte that carries PHASE: byte 31 of a completion, byte 4 of a result. -/
def phaseAt (kind : Nat) : Nat := if kind = 1 then 31 else 4

def Dev.ringRoom (d : Dev) (kind n : Nat) : Bool :=
  d.ringEn kind n &&
    decide (sub32 (d.ring (ringKey kind n)).devIdx (d.ring (ringKey kind n)).hostIdx < d.ringEntries kind n)

/-- An entry is written whole, then DEVIDX advances (R527). -/
def Dev.writeEntry (d : Dev) (kind n : Nat) (bs : Bytes) : Dev :=
  let idx := (d.ring (ringKey kind n)).devIdx
  let d1 := d.emit (.entry kind n idx (withPhase bs (phaseAt kind) (d.phase kind n idx)))
  (d1.onRing (ringKey kind n) (fun r => { r with devIdx := (idx + 1) % 2 ^ 32 })).ringIrq kind n

/-- Bytes waiting in a ring's backlog of 4 MiB (R535). -/
def HostRing.backlogBytes (r : HostRing) : Nat := r.backlog.foldl (fun n b => n + b.length) 0

def backlogMax : Nat := 4194304

/-- An entry is posted, waits in the backlog, or finds it full: `false`. -/
def Dev.post (d : Dev) (kind n : Nat) (bs : Bytes) : Dev × Bool :=
  let r := d.ring (ringKey kind n)
  if r.backlog.isEmpty && d.ringRoom kind n then (d.writeEntry kind n bs, true)
  else if r.backlogBytes + bs.length ≤ backlogMax then
    (d.onRing (ringKey kind n) (fun x => { x with backlog := x.backlog ++ [bs] }), true)
  else (d, false)

/-! ### Completions (R533) -/

def stOk : Nat := 0
def stReplayed : Nat := 1
def stFailed : Nat := 2
def stCancelled : Nat := 3
def stSuperseded : Nat := 4

def completionBytes (c : Completion) (now : Nat) : Bytes :=
  leBytes 1 c.status ++ leBytes 1 c.kind ++ leBytes 2 c.handle ++ leBytes 4 c.code ++ leBytes 8 c.item ++ leBytes 8 c.ref ++
    leBytes 8 (now % 2 ^ 63)

/-- A completion is posted; one that finds its backlog full raises E_CQ_FULL (R535). -/
def Dev.postCompletion (d : Dev) (c : Completion) : Dev :=
  match d.post 1 c.job (completionBytes c d.tb.now) with
  | (d', true) => d'
  | (d', false) => d'.raise { code := 0x0A08, cls := clsDevice, corr := false, kind := 4, unit := 256 + c.job }

/-- A completion with the outcome record of one that failed or was cancelled, which names the outcome's round (R336). -/
def Dev.finishAt (d : Dev) (c : Completion) (round : Nat) : Dev :=
  let d1 := if c.status = stFailed ∨ c.status = stCancelled then
      d.logRec (outcomeRec 0x30 c.status c.handle (c.kind % 8) round c.item (if c.status = stFailed then c.code else 0))
    else d
  d1.postCompletion c

/-- The round that a record of an outcome names: the current one, or the next once its cut is sealed, so that the log stays in round
order behind the cut's records (R334; entry 28). -/
def Dev.logRound (d : Dev) : Nat := max d.tb.round (d.tb.sealed - 1)

def Dev.finish (d : Dev) (c : Completion) : Dev := d.finishAt c d.logRound

/-- The completion of a host command. -/
def cmdCompletion (job : Nat) (r : CmdRef) (status code : Nat) : Completion :=
  { job := job, status := status, kind := 3, handle := 0xFFFF, code := code, item := r.index, ref := r.tag }

def Dev.finishCmd (d : Dev) (job : Nat) (r : CmdRef) (status code : Nat) : Dev := d.finish (cmdCompletion job r status code)

end Sys2Proof.Machine
end

