-- ==== Sys2Proof/Machine/Contain.lean ====
section
/-! DEFINITION. Machine/Contain.lean: the well behind its controllers (R18), jobs and their tasks, containment of cores and
slices (R546, R547), items that end early (R86, R333), and the end of a job (R84, R86, R387, R389). -/

namespace Sys2Proof.Machine

/-! ### The well -/

/-- A byte of the well behind a stopped controller cannot be reached (R18). -/
def Dev.ctlDown (d : Dev) (a : Nat) : Bool :=
  let k := Config.controllerOf (a / 65536) % 8
  bit (d.slice (k / 2)).ctlStopped (k % 2)

def Dev.anyCtlDown (d : Dev) : Bool := d.slices.any (fun p => p.2.ctlStopped != 0)

/-- Well bytes; beyond the end of the well and behind a stopped controller they read zero (R18, R522). -/
def Dev.wellRead (d : Dev) (a n : Nat) : Bytes :=
  let bs := memRead d.well a n
  if d.anyCtlDown then bs.zipIdx.map (fun p => if d.ctlDown (a + p.2) then 0 else p.1) else bs

/-- Bytes written to the well; a byte beyond its end or behind a stopped controller is dropped. -/
def Dev.wellWrite (d : Dev) (a : Nat) (bs : Bytes) : Dev :=
  let bs := bs.take (Config.wellBytes - a)
  if d.anyCtlDown then
    let old := memRead d.well a bs.length
    { d with well := memWrite d.well a ((bs.zip old).zipIdx.map (fun p => if d.ctlDown (a + p.2) then p.1.2 else p.1.1)) }
  else { d with well := memWrite d.well a bs }

/-! ### Jobs and tasks -/

/-- Core and task of a placement (R60). -/
def placeCore (p : Rec) : Nat := fld p 0 2
def placeTask (p : Rec) : Nat := fld p 2 1

/-- The tasks of an image, in the order of its placements. -/
def Image.tasks (i : Image) : List (Nat × Nat) := i.placements.map (fun p => (placeCore p, placeTask p))

/-- The tasks that a job holds: none once its cisterns are clear after a kill. -/
def Job.tasks (j : Job) : List (Nat × Nat) := match j.img with
  | some i => if j.clear then [] else i.tasks
  | none => []

/-- The cores of a job, each once. -/
def Job.cores (j : Job) : List Nat := (j.tasks.map (·.1)).eraseDups

/-- A job runs in its states ACTIVE and STOPPING (R85). -/
def Job.live (j : Job) : Bool := j.state == .active || j.state == .stopping

def Job.mirrors (j : Job) : Nat := match j.img with
  | some i => bits i.jobFlags 2 2
  | none => 0

/-- A job halts with its device, or as a fabric job of a device in the minority (R550). -/
def Dev.jobHalts (d : Dev) (j : Nat) : Bool := d.err.halting || (d.job j).halting

def Job.realtime (j : Job) : Bool := match j.img with
  | some i => bit i.jobFlags 0
  | none => false

/-- Ranges of WELL_MAP in a SPACE as (base, bytes) (R436). -/
def Image.spaceRanges (i : Image) (space : Nat) : List (Nat × Nat) :=
  (i.ranges.filter (fun r => fld r 6 1 % 8 == space)).map (fun r => (fld r 0 6, fld r 8 8))

def Image.wellRanges (i : Image) : List (Nat × Nat) := i.spaceRanges 1

def Job.holdsWell (j : Job) (a : Nat) : Bool := match j.img with
  | some i => i.wellRanges.any (fun r => decide (r.1 ≤ a) && decide (a < r.1 + r.2))
  | none => false

/-- Jobs in ascending slot order. -/
def Dev.jobList (d : Dev) : List (Nat × Job) := d.jobs

def Dev.onJobs (d : Dev) (f : Dev → Nat → Dev) : Dev := (d.jobs.map (·.1)).foldl f d

/-- Streams in ascending handle order. -/
def Dev.handles (d : Dev) : List Nat := d.streams.map (·.1)

def Dev.handlesOf (d : Dev) (j : Nat) : List Nat :=
  (d.streams.filter (fun p => p.2.state != .free && p.2.job == j)).map (·.1)

/-- A slice is RUNNING while a job's task is placed on it, else READY (R21). -/
def Dev.refreshSlices (d : Dev) : Dev :=
  (List.range 4).foldl (fun d s =>
    let used := d.cores.any (fun p => p.1 / 64 == s && p.2.tasks.any (fun t => t.2.state != .none))
    match (d.slice s).state with
    | .ready => if used then d.onSlice s (fun x => { x with state := .running }) else d
    | .running => if used then d else d.onSlice s (fun x => { x with state := .ready })
    | _ => d) d

/-- Cores, ports, links and pumps of a slice serve while it is neither contained nor being scrubbed nor retired (R18, R21). -/
def Dev.sliceUp (d : Dev) (s : Nat) : Bool := match (d.slice s).state with
  | .contained => false
  | .scrubbing => false
  | .retired => false
  | _ => true

def Dev.coreRetired (d : Dev) (c : Nat) : Bool := bit d.err.retired c

/-- A core runs schedule words: not in maintenance (R372), not retired, its slice in service. -/
def Dev.coreUp (d : Dev) (c : Nat) : Bool :=
  !(d.core c).maint && !(d.core c).locked && !d.coreRetired c && d.sliceUp (c / 64)

/-! ### Items that end before their time -/

/-- Completion kind of an item's kind (R533). -/
def itemCompletion (job h : Nat) (i : Item) (status code : Nat) : Completion :=
  { job := job, status := status, kind := i.kind + (if i.lost then 8 else 0), handle := h, code := code, item := i.seq,
    ref := i.first }

/-- The class entry of a job's image. -/
def Image.cls (i : Image) (c : Nat) : Option (Rec × List Rec × List Rec) := i.classes.find? (fun x => fld x.1 0 1 == c)

/-- Look-ahead of a stream's class in frames (R307). -/
def Dev.classLa (d : Dev) (st : Stream) : Nat := match (d.job st.job).img with
  | some i => match i.cls st.cls with
    | some c => fld c.1 7 1
    | none => 0
  | none => 0

/-- A provisional record is confirmed by the item that completes its frame's look-ahead, or whose segment start ends the frame's segment
within it, or that is its stream's last one; or by the item that holds its token (R223, R227, R332). -/
def provOf (la : Nat) (last : Bool) (i : Item) (p : Prov) : Bool :=
  let stop := i.first + i.count
  let start := leAt i.segRec 8 1
  if p.unit = 0 then
    (decide (i.first ≤ p.first + la) && (decide (p.first + la < stop) || (last && decide (p.first < stop)))) ||
      (start != 0xFF && decide (p.first < i.first + start) && decide (i.first + start ≤ p.first + la))
  else decide (i.first ≤ p.first) && decide (p.first < stop)

/-- The last item of a stream that is being deregistered. -/
def Stream.lastItem (s : Stream) (i : Item) : Bool := s.deregAt.isSome && s.items.all (fun x => decide (x.seq ≤ i.seq))

/-- The completion SUPERSEDED of a provisional record, with the code of a failed confirming item (R333). -/
def Dev.supersede (d : Dev) (p : Prov) (code : Nat) : Dev :=
  ({ d with provs := d.provs.filter (· != p) }).finish
    { job := p.job, status := stSuperseded, kind := 4, handle := p.handle, code := code, item := p.index, ref := p.first }

/-- The provisional records that an item would have confirmed end SUPERSEDED (R333). -/
def Dev.supersedeItem (d : Dev) (h : Nat) (i : Item) (code : Nat) : Dev :=
  (d.provs.filter (fun p => p.handle == h && provOf (d.classLa (d.stream h)) ((d.stream h).lastItem i) i p)).foldl (fun d p => d.supersede p code) d

/-- An item leaves its stream with an outcome. -/
def Dev.endItem (d : Dev) (h : Nat) (i : Item) (status code : Nat) : Dev :=
  let d1 := d.onStream h (fun s => { s with items := s.items.filter (fun x => x.seq != i.seq) })
  let d2 := d1.supersedeItem h i (if status = stFailed then code else 0)
  -- an item that did not end well is no sample of an adapter (R348)
  let d2 := { d2 with samples := if status = stOk ∨ status = stReplayed then d2.samples else d2.samples.filter (fun s => s.handle != h || s.seq != i.seq) }
  d2.finish (itemCompletion (d.stream h).job h i status code)

/-- Every open item of a stream ends CANCELLED (R86, R311). -/
def Dev.cancelItems (d : Dev) (h : Nat) : Dev := (d.stream h).items.foldl (fun d i => d.endItem h i stCancelled 0) d

/-! ### Containment -/

/-- No operation of the core's waits on a tag any more (R399). -/
def Core.unwait (x : Core) : Core := { x with tags := mmap (fun _ g => { g with wait := false }) x.tags }

/-- Every task of a core halts (R546). -/
def Core.haltTasks (x : Core) : Core :=
  { x.unwait with tasks := mmap (fun _ t => if t.state == .none then t else { t with state := .stopped, wait := none }) x.tasks }

/-! ### The end of a job -/

/-- R418: a transfer whose generation is not its job's leaves its queue at once; it counts in its pump's DROPPED_LR. -/
def Dev.stale (d : Dev) (x : Xfer) : Bool := x.gen != (d.job x.job).gen

/-- A pump's queue without its stale transfers, and their number. -/
def Dev.purge (d : Dev) (p : Pump) : Pump × Nat :=
  ({ p with queue := p.queue.filter (fun x => !(d.stale x)), held := if p.queue.any d.stale then none else p.held }, (p.queue.filter d.stale).length)

def Dev.dropStale (d : Dev) : Dev :=
  let d1 := d.cores.foldl (fun d c =>
    let r := d.purge c.2.pump
    (d.onCore c.1 (fun x => { x with pump := r.1, landed := x.landed.filter (fun y => !(d.stale y)) })).count
      (coreOff c.1 + 0xE08) 32 r.2) d
  let d2 := d1.slices.foldl (fun d s => s.2.pumps.foldl (fun d p =>
    let r := d.purge p.2
    (d.onSlice s.1 (fun x => { x with pumps := mset x.pumps p.1 r.1 })).count (sliceOff s.1 + 0x3008 + p.1 * 0x20) 32 r.2) d) d1
  d2.links.foldl (fun d l =>
    let r := d.purge l.2.pump
    (d.onLink l.1 (fun x => { x with pump := r.1 })).count (linkOff l.1 + 0x108) 32 r.2) d2

/-- The port routes of a job that leaves its slot (R473). -/
def Dev.unroute (d : Dev) (j : Nat) : Dev :=
  { d with ports := mmap (fun _ p =>
    { p with
      routes := p.routes.filter (fun r => r.1 / 256 != j)
      playQ := p.playQ.filter (fun r => r.1 / 256 != j)
      playOn := p.playOn.filter (fun k => k / 256 != j)
      playPos := p.playPos.filter (fun r => r.1 / 256 != j)
      played := p.played.filter (fun r => r.1 / 256 != j) }) d.ports }

/-- The windows of a job close when it leaves ACTIVE (R386). -/
def Dev.closeWindows (d : Dev) (j : Nat) : Dev :=
  { d with cores := mmap (fun _ x => { x with windows := mmap (fun _ w => if w.job = j then { w with isOpen := false } else w) x.windows }) d.cores }

/-- S-class values of a job's cores that wait for its activation are dropped with the job. -/
def Dev.unstage (d : Dev) (j : Nat) : Dev :=
  { d with staged := d.staged.filter (fun p => !((d.job j).cores.any (fun c => decide (coreOff c ≤ p.1) && decide (p.1 < coreOff c + 0x10000)))) }

/-- A task that has left its core; what the host alone clears stays (R96, R126, R132). -/
def Task.gone (k : Task) : Task :=
  { Task.reset with ovrCnt := k.ovrCnt, flags := k.flags, trapA := k.trapA, trapElem := k.trapElem, trapRound := k.trapRound }

/-- What staging wrote on a job's cores is undone, for a job that fails before it is active (R80). -/
def Dev.unplace (d : Dev) (j : Nat) : Dev :=
  (d.job j).cores.foldl (fun d c => d.onCore c (fun x =>
    { x with
      tasks := mmap (fun _ k => if k.state != .none && k.job == j then k.gone else k) x.tasks
      windows := x.windows.filter (fun w => w.2.job != j)
      scale := []
      groups := []
      accs := [] })) ((d.unroute j).unstage j)

/-- The tasks of a job take a state; their waits end. -/
def Dev.setTaskStates (d : Dev) (j : Nat) (st : TaskState) : Dev :=
  (d.job j).tasks.foldl (fun d p => (d.onTask p.1 p.2 (fun t =>
    if t.state == .none then t else { t with state := st, wait := none })).onCore p.1 Core.unwait) d

/-! ### Pages of a stream -/

def kvLayer (r : Rec) : Nat := fld r 0 1
def kvMaxPages (r : Rec) : Nat := fld r 10 2
def kvMax (l : Rec) : Nat := max 1 (kvMaxPages l)

def noPage : Nat := 0xFFFFFFFF

def seqKey (handle layer : Nat) : Nat := handle * 256 + layer

def Dev.seq (d : Dev) (handle layer : Nat) : Seq := mgetD d.seqs (seqKey handle layer) Seq.reset

/-- KV layers of a stream's class. -/
def Dev.layersOf (d : Dev) (h : Nat) : List Rec :=
  let s := d.stream h
  match (d.job s.job).img.bind (fun i => i.cls s.cls) with
  | some c => c.2.1
  | none => []

/-- A page decision's record (R335). -/
def Dev.pageRec (d : Dev) (action h : Nat) (l : Rec) (entry page : Nat) : Bytes :=
  govRec 0x14 action h ((d.stream h).slot.getD 0xFFFF) (kvLayer l) d.tb.round entry page

/-- Records of the frames that a stream gives up (R255 step 1). -/
def Dev.heldRecs (d : Dev) (h : Nat) : List Bytes := (d.layersOf h).flatMap (fun l =>
  let s := d.seq h (kvLayer l)
  s.cur.map (fun e => d.pageRec 1 h l e.1 noPage) ++ s.twin.map (fun e => d.pageRec 1 h l (kvMax l + e.1) noPage) ++
    s.ret.map (fun e => d.pageRec 1 h l (2 * kvMax l + e.1) noPage))

/-- A handle's sequences vanish, and its stream becomes what a function makes of it. -/
def Dev.dropStream (d : Dev) (h : Nat) (f : Stream → Stream) : Dev :=
  { d.onStream h f with
    seqs := d.seqs.filter (fun p => p.1 / 256 != h)
    moves := d.moves.filter (fun m => m.key / 256 != h) }

/-- A handle becomes FREE. -/
def Dev.freeStream (d : Dev) (h : Nat) : Dev := d.dropStream h (fun _ => Stream.reset)

/-- The job of a stream whose job was killed: none. -/
def noJob : Nat := 16

/-- A stream of a killed job holds its state alone until the next mark makes its handle FREE (R310, entry 12); a deregistration that
waits for that mark ends CANCELLED. The records of its frames stand in that mark's log. -/
def Dev.endStream (d : Dev) (h : Nat) : Dev :=
  let s := d.stream h
  let d1 := ({ d with freed := d.freed ++ d.heldRecs h }).dropStream h (fun s => { Stream.reset with state := s.state, job := noJob })
  match s.deregCmd with
  | some c => d1.finishCmd s.job c stCancelled 0
  | none => d1

/-- KILL_JOB halts the tasks at once, cancels every open item, locks the job's regions, closes its windows and unmaps its
well pages; the job is KILLED until both scrubs end (R86, R386, R387, R389). `load` is how a LOAD_IMAGE under way ends. -/
def Dev.kill (d : Dev) (j : Nat) (load : Nat × Nat) (logStatus : Nat) : Dev :=
  let job := d.job j
  if job.state == .empty || job.state == .killed then d
  else
    let d1 := d.setTaskStates j .stopped
    let d2 := (d1.handlesOf j).foldl (fun d h => (d.cancelItems h)) d1
    let d2b := (d2.dones.filter (fun p => p.2.job == j)).foldl (fun d p => d.finish { p.2 with status := stCancelled, code := 0 })
      { d2 with dones := d2.dones.filter (fun p => p.2.job != j) }
    let d3 := (d2b.provs.filter (fun p => p.job == j)).foldl (fun d p => d.supersede p 0) d2b
    let d4 := (d3.handlesOf j).foldl Dev.endStream d3
    let d5 := job.cores.foldl (fun d c => d.onCore c (fun x => { x with maint := true, locked := true })) d4
    let d6 := (d5.closeWindows j).unstage j
    let zs := match job.img with
      | some i => i.wellRanges.map (fun r => (j, r.1, r.2))
      | none => []
    let d7 := { d6 with zeroing := d6.zeroing ++ zs }
    let d8 := d7.logRec (outcomeRec 0x31 logStatus j 0 d7.logRound 0 0)
    let d9 := match job.loadCmd with
      | some r => d8.finishCmd j r load.1 load.2
      | none => d8
    let d10 := job.stopCmds.foldl (fun d r => d.finishCmd j r stCancelled 0) d9
    (d10.onJob j (fun x =>
      { x with
        state := .killed
        loadCmd := none
        stopCmds := []
        stopAt := none
        replay := none
        gen := (x.gen + 1) % 65536 })).dropStale.refreshSlices

/-- An abort of a compile's fabric job kills it with E_LOAD_LATE; the abort and the kill are logged (R84). -/
def Dev.abortCompile (d : Dev) (compile : Nat) : Dev :=
  d.onJobs (fun d j => match (d.job j).img with
    | some i =>
      if i.compileId = compile ∧ (d.job j).state != .empty ∧ (d.job j).state != .killed then
        let d1 := d.logRec (outcomeRec 0x31 1 j 0 d.logRound 0 0x020B)
        d1.kill j (stFailed, 0x020B) 2
      else d
    | none => d)

/-- The registers of the host block return to reset once every kill of a Function Level Reset is complete, and the halt
ends (R519, R550). -/
def Dev.flrDone (d : Dev) : Dev :=
  if d.flr && !(d.anyLoaded) then
    { d with
      flr := false
      regs := d.regs.filter (fun p => decide (p.1 < 0x100000) || decide (0x200000 ≤ p.1))
      shadow := d.shadow.filter (fun p => decide (p.1 < 0x100000) || decide (0x200000 ≤ p.1))
      rings := []
      msix := 0
      trust := { d.trust with attState := 0, attErr := 0, attEv := false, attLen := 0 }
      kindle := { d.kindle with faultN := true }
      err := { d.err with halting := false, halted := false } }
  else d

/-- A Function Level Reset kills every job that is not EMPTY (R519). -/
def Dev.functionReset (d : Dev) : Dev :=
  (({ d with flr := true }).onJobs (fun d j => d.kill j (stCancelled, 0) 2)).flrDone

end Sys2Proof.Machine
end

