-- ==== Sys2Proof/Machine/Dsa.lean ====
section
/-! DEFINITION. Machine/Dsa.lean: ML-DSA-44 of FIPS 204 (R16): verification (R57, R588, R591, R593), key generation and signing (R592, R595).
The spec adopts the standard and does not print it: PRESUMED, entry 5. -/

namespace Sys2Proof.Machine

/-! ### SHAKE128 and SHAKE256 (rates of 168 and 136 bytes) -/

def spongeAbsorb (rate : Nat) : Nat → List Nat → Bytes → List Nat
  | 0, a, _ => a
  | n + 1, a, bs => spongeAbsorb rate n (keccakF ((List.range 25).map (fun i => a.getD i 0 ^^^ (if 8 * i < rate then leAt bs (8 * i) 8 else 0)))) (bs.drop rate)

def spongeSqueeze (rate : Nat) : Nat → List Nat → Bytes
  | 0, _ => []
  | n + 1, a => (a.take (rate / 8)).flatMap (leBytes 8) ++ spongeSqueeze rate n (keccakF a)

/-- The first n bytes of an extendable output. -/
def shake (rate : Nat) (m : Bytes) (n : Nat) : Bytes :=
  let p := markLast (padTo rate (m ++ [0x1F#8]))
  (spongeSqueeze rate ((n + rate - 1) / rate) (spongeAbsorb rate (p.length / rate) (List.replicate 25 0) p)).take n

def shake128 : Bytes → Nat → Bytes := shake 168
def shake256 : Bytes → Nat → Bytes := shake 136

/-! ### Polynomials modulo q -/

def dsaQ : Nat := 8380417
def dsaGamma1 : Nat := 131072
def dsaGamma2 : Nat := 95232
def dsaBeta : Nat := 78

def powMod : Nat → Nat → Nat
  | _, 0 => 1
  | z, n + 1 => z * powMod z n % dsaQ

/-- The odd powers of 1753, in the order of the transform's entries: exponent 2·brv₈(i) + 1. -/
def dsaExp (i : Nat) : Nat := 2 * ((List.range 8).foldl (fun (m : Nat) k => m + i / 2 ^ k % 2 * 2 ^ (7 - k)) 0) + 1

/-- Coefficients as residues. -/
def toRes (p : List Int) : List Nat := p.map (fun (x : Int) => (x % (dsaQ : Int)).toNat)

/-- The centred representative of a residue. -/
def centred (x : Nat) : Int := if x ≤ dsaQ / 2 then x else (x : Int) - dsaQ

/-- The transform: entry i is the polynomial's value at the i-th odd power. -/
def ntt (p : List Nat) : List Nat := (List.range 256).map (fun i =>
  let z := powMod 1753 (dsaExp i)
  (p.foldl (fun (a : Nat × Nat) x => ((a.1 + x * a.2) % dsaQ, a.2 * z % dsaQ)) (0, 1)).1)

/-- Coefficients from entries, each multiplied by its inverse power once more for the next one. -/
def inttGo (inv : List Nat) : Nat → List Nat → List Nat
  | 0, _ => []
  | n + 1, cs => cs.foldl (fun a x => a + x) 0 % dsaQ * 8347681 % dsaQ :: inttGo inv n ((cs.zip inv).map (fun p => p.1 * p.2 % dsaQ))

def intt (w : List Nat) : List Nat := inttGo ((List.range 256).map (fun i => powMod 1753 (512 - dsaExp i))) 256 w

def polyAdd (a b : List Nat) : List Nat := (a.zip b).map (fun p => (p.1 + p.2) % dsaQ)
def polySub (a b : List Nat) : List Nat := (a.zip b).map (fun p => (p.1 + dsaQ - p.2) % dsaQ)
def polyMul (a b : List Nat) : List Nat := (a.zip b).map (fun p => p.1 * p.2 % dsaQ)

/-- A matrix of transforms by a vector of transforms. -/
def matVec (m : List (List (List Nat))) (v : List (List Nat)) : List (List Nat) :=
  m.map (fun row => (row.zip v).foldl (fun s p => polyAdd s (polyMul p.1 p.2)) (List.replicate 256 0))

/-- The largest magnitude of some polynomials' centred coefficients. -/
def infNorm (ps : List (List Nat)) : Nat := ps.foldl (fun m p => p.foldl (fun m x => max m (centred x).natAbs) m) 0

/-! ### Packing -/

/-- Numbers of w bits, lowest first. -/
def dsaUnpack (w : Nat) (bs : Bytes) : List Nat :=
  let v := leNat bs
  (List.range (8 * bs.length / w)).map (fun i => bits v (w * i) w)

def dsaPack (w : Nat) (vs : List Nat) : Bytes := leBytes (w * vs.length / 8) (vs.foldr (fun x a => x + 2 ^ w * a) 0)

/-- Polynomials of n bytes each. -/
def unpackPolys (w n : Nat) (bs : Bytes) : List (List Nat) := (chunks n bs).map (dsaUnpack w)

/-- Coefficients stored as γ₁ less their value. -/
def dsaUnmask (p : List Nat) : List Nat := toRes (p.map (fun (v : Nat) => (dsaGamma1 : Int) - v))
def dsaMask (p : List Nat) : List Nat := p.map (fun x => ((dsaGamma1 : Int) - centred x).toNat)

/-! ### Sampling -/

def sampleNtt (seed : Bytes) : List Nat :=
  (((chunks 3 (shake128 seed 1008)).map (fun b => leNat b % 2 ^ 23)).filter (fun v => decide (v < dsaQ))).take 256

/-- The matrix of a seed. -/
def expandA (rho : Bytes) : List (List (List Nat)) :=
  (List.range 4).map (fun r => (List.range 4).map (fun s => sampleNtt (rho ++ leBytes 1 s ++ leBytes 1 r)))

/-- Coefficients from −2 to 2, two to a byte. -/
def sampleBounded (seed : Bytes) : List Nat :=
  toRes ((((shake256 seed 544).flatMap (fun b => [b.toNat % 16, b.toNat / 16])).filter (fun v => decide (v < 15))).map
    (fun (v : Nat) => (2 : Int) - ((v % 5 : Nat) : Int)) |>.take 256)

/-- The polynomial with 39 coefficients of ±1. -/
def sampleBall (ct : Bytes) : List Nat :=
  let s := shake256 ct 272
  let sg := leAt s 0 8
  ((List.range 39).foldl (fun (a : Bytes × List Nat) k =>
    let i := 217 + k
    let bs := a.1.dropWhile (fun b => decide (i < b.toNat))
    let j := ((bs.head?).map BitVec.toNat).getD 0
    let c := lset a.2 i (fun _ => a.2.getD j 0)
    (bs.drop 1, lset c j (fun _ => if bit sg k then dsaQ - 1 else 1))) (s.drop 8, List.replicate 256 0)).2

/-! ### High bits and hints -/

/-- High part and centred low part of a residue. -/
def decompose (r : Nat) : Nat × Int :=
  let m := r % (2 * dsaGamma2)
  let r0 : Int := if m ≤ dsaGamma2 then m else (m : Int) - 2 * dsaGamma2
  if (r : Int) - r0 = dsaQ - 1 then (0, r0 - 1) else ((((r : Int) - r0) / (2 * dsaGamma2)).toNat, r0)

def useHint (h : Bool) (r : Nat) : Nat :=
  let x := decompose r
  if h then (if 0 < x.2 then (x.1 + 1) % 44 else (x.1 + 43) % 44) else x.1

/-- The positions of one polynomial's hints rise. -/
def rising : List Nat → Bool
  | a :: b :: r => decide (a < b) && rising (b :: r)
  | _ => true

/-- The hints of the four polynomials from 80 positions and four running counts. -/
def unpackHints (y : Bytes) : Option (List (List Bool)) :=
  let pos (i : Nat) : Nat := ((y.getD i 0) : Byte).toNat
  let ends := (List.range 4).map (fun r => pos (80 + r))
  let starts := 0 :: ends.take 3
  let lists := (starts.zip ends).map (fun p => (List.range (p.2 - p.1)).map (fun k => pos (p.1 + k)))
  let total := ends.getLastD 0
  if (starts.zip ends).all (fun p => decide (p.1 ≤ p.2) && decide (p.2 ≤ 80)) && lists.all rising && zerosAt y total (80 - total) then
    some (lists.map (fun l => (List.range 256).map l.contains))
  else none

def packHints (hs : List (List Bool)) : Bytes :=
  let lists := hs.map (fun h => (List.range 256).filter (fun j => h.getD j false))
  let all := lists.flatten
  sliceZ (all.map (fun j => BitVec.ofNat 8 j)) 0 80 ++
    (List.range 4).map (fun r => BitVec.ofNat 8 ((lists.take (r + 1)).foldl (fun (m : Nat) l => m + l.length) 0))

/-! ### Verification, keys and signatures -/

/-- The hash of a public key and of a message with an empty context string. -/
def dsaMu (tr m : Bytes) : Bytes := shake256 (tr ++ [0, 0] ++ m) 64

/-- A signature of a message under a public key. -/
@[irreducible] def mldsaVerify (pk m sig : Bytes) : Bool :=
  if pk.length ≠ 1312 ∨ sig.length ≠ 2420 then false
  else match unpackHints (sig.drop 2336) with
    | none => false
    | some hs =>
      let ct := sig.take 32
      let z := (unpackPolys 18 576 ((sig.drop 32).take 2304)).map dsaUnmask
      let c := ntt (sampleBall ct)
      let az := matVec (expandA (pk.take 32)) (z.map ntt)
      let t := (unpackPolys 10 320 (pk.drop 32)).map (fun p => ntt (p.map (fun x => x * 2 ^ 13 % dsaQ)))
      let w := (az.zip t).map (fun p => intt (polySub p.1 (polyMul c p.2)))
      let w1 := (hs.zip w).flatMap (fun p => dsaPack 6 ((p.1.zip p.2).map (fun x => useHint x.1 x.2)))
      decide (infNorm z < dsaGamma1 - dsaBeta) && ct == shake256 (dsaMu (shake256 pk 64) m ++ w1) 32

/-- A private key: ρ, K, the public key's hash and the vectors s₁, s₂ and t₀. -/
structure DsaKey where
  rho : Bytes
  key : Bytes
  tr : Bytes
  s1 : List (List Nat)
  s2 : List (List Nat)
  t0 : List (List Nat)
  deriving DecidableEq, Repr

/-- t₁ and t₀ of a coefficient of t. -/
def power2Round (r : Nat) : Nat × Nat :=
  let m := r % 8192
  if m ≤ 4096 then (r / 8192, m) else (r / 8192 + 1, (m + dsaQ - 8192) % dsaQ)

/-- Public key and private key of a seed. -/
def dsaKeys (seed : Bytes) : Bytes × DsaKey :=
  let h := shake256 (seed ++ [4, 4]) 128
  let rho := h.take 32
  let vec (k : Nat) : List (List Nat) := (List.range 4).map (fun r => sampleBounded ((h.drop 32).take 64 ++ leBytes 2 (r + k)))
  let s1 := vec 0
  let s2 := vec 4
  let t := ((matVec (expandA rho) (s1.map ntt)).zip s2).map (fun p => (polyAdd (intt p.1) p.2).map power2Round)
  let pk := rho ++ t.flatMap (fun p => dsaPack 10 (p.map Prod.fst))
  (pk, { rho := rho, key := h.drop 96, tr := shake256 pk 64, s1 := s1, s2 := s2, t0 := t.map (fun p => p.map Prod.snd) })

/-- The public key of a seed. -/
@[irreducible] def mldsaPublicKey (seed : Bytes) : Bytes := (dsaKeys seed).1

/-- One attempt at a signature; none when a bound rejects it. -/
def dsaAttempt (k : DsaKey) (a : List (List (List Nat))) (mu rpp : Bytes) (kappa : Nat) : Option Bytes :=
  let y := (List.range 4).map (fun r => dsaUnmask (dsaUnpack 18 (shake256 (rpp ++ leBytes 2 (kappa + r)) 576)))
  let w := (matVec a (y.map ntt)).map intt
  let ct := shake256 (mu ++ w.flatMap (fun p => dsaPack 6 (p.map (fun x => (decompose x).1)))) 32
  let c := ntt (sampleBall ct)
  let by_ (v : List (List Nat)) : List (List Nat) := v.map (fun s => intt (polyMul c (ntt s)))
  let z := (y.zip (by_ k.s1)).map (fun p => polyAdd p.1 p.2)
  let wc := (w.zip (by_ k.s2)).map (fun p => polySub p.1 p.2)
  let c0 := by_ k.t0
  let low : Nat := wc.foldl (fun (m : Nat) p => p.foldl (fun (m : Nat) x => max m (decompose x).2.natAbs) m) 0
  let hs := (wc.zip c0).map (fun p => (p.1.zip p.2).map (fun x => (decompose ((x.1 + x.2) % dsaQ)).1 != (decompose x.1).1))
  let ones : Nat := hs.foldl (fun (m : Nat) h => m + (h.filter id).length) 0
  if dsaGamma1 - dsaBeta ≤ infNorm z ∨ dsaGamma2 - dsaBeta ≤ low ∨ dsaGamma2 ≤ infNorm c0 ∨ 80 < ones then none
  else some (ct ++ z.flatMap (fun p => dsaPack 18 (dsaMask p)) ++ packHints hs)

/-- The first attempt that no bound rejects. -/
def dsaLoop (k : DsaKey) (a : List (List (List Nat))) (mu rpp : Bytes) : Nat → Nat → Bytes
  | 0, _ => zeros 2420
  | n + 1, kappa => match dsaAttempt k a mu rpp kappa with
    | some s => s
    | none => dsaLoop k a mu rpp n (kappa + 4)

/-- The signature of a message by the key of a seed with 32 random bytes. -/
@[irreducible] def mldsaSign (seed rnd m : Bytes) : Bytes :=
  let k := (dsaKeys seed).2
  let mu := dsaMu k.tr m
  dsaLoop k (expandA k.rho) mu (shake256 (k.key ++ rnd ++ mu) 64) 814 0

end Sys2Proof.Machine
end

