-- ==== Sys2Proof/Machine/Fabric.lean ====
section
/-! DEFINITION. Machine/Fabric.lean: links, discovery, membership and the time base (spec/15, R31, R42, R83, R84, R583, R584). -/

namespace Sys2Proof.Machine

/-! ### Identities and the map -/

/-- An identity as a number with byte 0 the most significant (R492). -/
def idNat (b : Bytes) : Nat := leNat b.reverse

def idLt (a b : Bytes) : Bool := decide (idNat a < idNat b)

/-- The lowest of some identities. -/
def lowestId : List Bytes → Bytes
  | [] => []
  | a :: r => r.foldl (fun m b => if idLt b m then b else m) a

/-- Identities in ascending order (R515). -/
def idInsert (x : Bytes) : List Bytes → List Bytes
  | [] => [x]
  | a :: r => if idLt x a then x :: a :: r else a :: idInsert x r

def idSort (l : List Bytes) : List Bytes := l.foldr idInsert []

def Dev.mapIds (d : Dev) : List Bytes := idSort (d.fabric.map.map (·.identity))

def Dev.advert? (d : Dev) (id : Bytes) : Option Advert := d.fabric.map.find? (fun a => a.identity == id)

/-- One hop outward over MEMBER links of a map (R490). -/
def hopStep (map : List Advert) (seen : List (Bytes × Nat)) (h : Nat) : List (Bytes × Nat) :=
  let edge := (seen.filter (fun p => p.2 == h)).flatMap (fun p =>
    ((map.filter (fun a => a.identity == p.1)).flatMap (fun a => (a.links.filter (fun l => l.state == 3)).map (·.partner))))
  seen ++ ((edge.eraseDups.filter (fun i => !(seen.any (fun p => p.1 == i)) && map.any (fun a => a.identity == i))).map
    (fun i => (i, h + 1)))

/-- Hop counts from an identity, up to 31 (R515). -/
def hopsFrom (map : List Advert) (src : Bytes) : List (Bytes × Nat) :=
  (List.range 31).foldl (hopStep map) [(src, 0)]

def hopsTo (map : List Advert) (src dst : Bytes) : Option Nat := ((hopsFrom map src).find? (fun p => p.1 == dst)).map (·.2)

/-- The advertisement of this device as its state stands (R492, R583). -/
def Dev.selfAdvert (d : Dev) : Advert :=
  { identity := d.trust.identity, seq := d.fabric.mySeq + 1, baseRoot := d.tb.baseRoot, epoch := d.tb.epoch,
    aligned := d.tb.aligned,
    compiles := d.jobs.filterMap (fun p => match p.2.img with
      | some i => if p.2.standby || !p.2.loaded then none else some (i.compileId, i.deviceIndex)
      | none => none),
    links := d.links.map (fun p => ⟨p.1, p.2.partnerId, p.2.state⟩),
    localReady := d.kindle.localReady,
    busy := d.jobs.any (fun p => p.2.state != .empty && p.2.state != .loading) }

/-- This device's own advertisement changes: the map takes it and it is flooded (R492). A device whose map holds no other
member keeps the state it has: ALONE is no discovery (R583, FAB_STAT). -/
def Dev.advertise (d : Dev) : Dev :=
  let a := d.selfAdvert
  let others := d.fabric.map.filter (fun x => x.identity != a.identity)
  { d with fabric := { d.fabric with
      mySeq := a.seq
      map := others ++ [a]
      state := if d.fabric.state = 3 ∨ others.isEmpty then d.fabric.state else 1
      sends := d.fabric.sends ++ [.advert a] } }

def Dev.send (d : Dev) (f : Flood) : Dev := { d with fabric := { d.fabric with sends := d.fabric.sends ++ [f] } }

/-! ### Marks (R31, R42) -/

def halfMs : Nat := 500000

/-- T(n) under the length in force. -/
def TimeBase.markTime (t : TimeBase) (n : Nat) : Nat := t.baseT + (n - t.baseN) * (t.lenHalf * halfMs)

/-- The first round whose mark lies after a TIME, not before the base round (R498). -/
def TimeBase.firstAfter (t : TimeBase) (now : Nat) : Nat :=
  if now < t.baseT then t.baseN else t.baseN + (now - t.baseT) / (t.lenHalf * halfMs) + 1

/-- The first round whose mark lies at or after a TIME. -/
def TimeBase.firstFrom (t : TimeBase) (x : Nat) : Nat :=
  if x ≤ t.baseT then t.baseN
  else t.baseN + (x - t.baseT + (t.lenHalf * halfMs - 1)) / (t.lenHalf * halfMs)

/-- The time base is aligned at an EPOCH (R31, R498 step 4), with the TIME and the round that its marks count from. A frame whose sync came
before has no stamp and is discarded (R582). -/
def Dev.setBase (d : Dev) (epoch baseT baseN : Nat) (root : Bytes) (parent : Nat) : Dev :=
  let tb := { d.tb with
    epoch := epoch
    baseT := baseT
    baseN := baseN
    aligned := true
    state := 2
    parent := parent
    baseRoot := root
    winStart := 0
    sealed := 0 }
  let n := tb.firstAfter d.tb.now
  { d with
    tb := { tb with nextMark := n, running := true }
    ports := mmap (fun _ x => { x with opened := [], stopT0 := 0 }) d.ports
    fabric := { d.fabric with aligning := false } }

/-- A base fixed anew: its marks count from EPOCH and round 0 (R498 step 4). -/
def Dev.setEpoch (d : Dev) (epoch : Nat) (root : Bytes) (parent : Nat) : Dev := d.setBase epoch epoch 0 root parent

/-! ### Links -/

def Dev.linkUp (d : Dev) (l : Nat) : Bool := d.sliceUp (l / 9)

/-- LNK_CTL.EN (R507). -/
def Dev.linkEn (d : Dev) (l : Nat) : Bool := d.regF (linkOff l) 0 1 = 1

/-- A W1C bit of LNK_STAT raises the link's vector (R507). -/
def Dev.linkIrq (d : Dev) (l : Nat) : Dev := if d.regF (linkOff l) 8 1 = 1 then d.vector (d.regF (linkOff l) 9 6) else d

/-- A change of the map is reported to the root after alignment (R494 step 1). -/
def Dev.reportMap (d : Dev) : Dev := if d.tb.aligned then d.send (.mapChange d.trust.identity) else d

/-- A link that may train does (R490). -/
def Dev.trainLink (d : Dev) (l : Nat) : Dev :=
  if d.linkEn l && d.linkUp l then d.onLink l (fun x => { x with state := 1 }) else d.onLink l (fun x => { x with state := 0 })

/-- The parent link: the MEMBER neighbour one hop closer to the root, the lowest link number among equals (R498). -/
def Dev.chooseParent (d : Dev) : Nat :=
  if d.fabric.isRoot then 63
  else
    match hopsTo d.fabric.map d.fabric.root d.trust.identity with
    | none => 62
    | some h =>
      match (d.links.filter (fun p => p.2.state == 3 &&
          (match hopsTo d.fabric.map d.fabric.root p.2.partnerId with
            | some k => decide (k + 1 = h)
            | none => false))).head? with
      | some p => p.1
      | none => 62

/-- The parent is chosen anew; without a path to the root the device holds over (R499). -/
def Dev.reparent (d : Dev) : Dev :=
  let p := d.chooseParent
  if p = 62 then { d with tb := { d.tb with state := if d.tb.aligned then 3 else d.tb.state } }
  else { d with tb := { d.tb with parent := p, state := if d.tb.aligned then 2 else d.tb.state } }

/-- LINK_TRAINED: TRAINING ends and the identity exchange starts (R490). Both ends count flits anew from there (entry 13). -/
def linkTrainedD (l : Nat) (d : Dev) : Dev :=
  if (d.link l).state = 1 ∧ d.linkEn l ∧ d.linkUp l then
    (d.onLink l (fun x => { x with
      state := 2
      txSeq := 0
      acked := 0
      rxLast := 0
      nak := false
      naks := 0 })).advertise
  else d

/-- A certificate under a usable fabric key (R593, R594). -/
def Trust.certOk (t : Trust) (cert : Bytes) : Bool :=
  let slot := leAt cert 6 1
  let key := t.keys.getD (4 + slot) []
  decide (cert.length = 3796) && decide (leAt cert 0 4 = 0x54524348) && decide (leAt cert 4 2 = 1) && decide (slot ≤ 1) &&
    zerosAt cert 7 1 && zerosAt cert 56 8 && bit t.usable (4 + slot) && sliceZ cert 16 32 == sha3 key &&
    mldsaVerify key (sha3 (cert.take 1376)) (sliceZ cert 1376 2420)

/-- The nonce that this device sends in an identity exchange: a free value (R491, entry 4). -/
def drawNonce (k : Nat) : Bytes := (List.range 32).map (Config.freeNonceByte k)

/-- Without a path to the root the device holds over; a new parent is taken at the next exchange (R499). -/
def Dev.lostParent (d : Dev) : Dev :=
  if d.chooseParent = 62 ∧ d.tb.aligned then { d with tb := { d.tb with state := 3 } } else d

/-- A device leaves its time base for the surviving one: what it kept of its own base, versions and changes of round length among it, is
over (R500). -/
def Dev.leaveBase (d : Dev) (l : Nat) : Dev :=
  { d with
    tb := { d.tb with
      aligned := false
      state := 1
      parent := l
      good := 0
      running := false
      baseRoot := []
      changes := [] }
    fabric := { d.fabric with
      isRoot := false
      minority := false
      state := 1
      version := 0
      pending := []
      lenReport := none } }

/-- A link becomes MEMBER. -/
def Dev.memberLink (d : Dev) (l : Nat) : Dev :=
  ((d.onLink l (fun x => { x with state := 3, merge := false })).advertise).reportMap

/-- LINK_IDENTIFY: the exchange completes (R491); links between two time bases follow R500. The partner signs the pair of
nonces with its own first. -/
def linkIdentifyD (l : Nat) (nonce cert sig : Bytes) (partnerLink : Nat) (baseRoot : Bytes) (busy : Bool) (d : Dev) : Dev :=
  if (d.link l).state ≠ 2 ∨ (d.link l).merge then d
  else
    let own := drawNonce d.free
    let d := { d with free := d.free + 1 }
    let id := sha3 cert
    let ok := d.trust.certOk cert && mldsaVerify (sliceZ cert 64 1312) (nonce ++ own) sig && id != d.trust.identity
    if !ok then
      let d1 := (d.onLink l (fun x => { x with state := 4, idEv := true })).linkIrq l
      (d1.raise { code := 0x0903, kind := 3, unit := l }).advertise
    else
      let d1 := d.onLink l (fun x => { x with partnerId := id, partnerLink := partnerLink, partnerBase := baseRoot })
      if d1.tb.aligned && baseRoot != [] && baseRoot != d1.tb.baseRoot then
        let survives := idLt d1.tb.baseRoot baseRoot
        let idle := !d1.anyLoaded
        if survives && !busy then d1.memberLink l
        else if !survives && idle then (d1.leaveBase l).memberLink l
        else
          (d1.onLink l (fun x => { x with merge := true })).raise { code := 0x0907, kind := 3, unit := l }
      else d1.memberLink l

/-- The links that join a device to the surviving base: those held in IDENTIFY whose partners' base is the lowest, if it lies below its own
(R500). -/
def Dev.joinLinks (d : Dev) : List Nat :=
  let ls := d.links.filter (fun p => p.2.merge && idLt p.2.partnerBase d.tb.baseRoot)
  (ls.filter (fun p => p.2.partnerBase == lowestId (ls.map (fun q => q.2.partnerBase)))).map Prod.fst

/-- When the last job becomes EMPTY, a device that kept its base joins the surviving one (R500). -/
def Dev.joinIfIdle (d : Dev) : Dev :=
  if d.anyLoaded then d
  else match d.joinLinks with
    | [] => d
    | l :: r => (l :: r).foldl Dev.memberLink (d.leaveBase l)

/-- A link held in IDENTIFY between two bases follows its partner's advertisement (R500): it becomes MEMBER once the partner has left its base
for the one of this device. -/
def Dev.mergeOn (d : Dev) (a : Advert) (l : Nat) : Dev :=
  let x := d.link l
  if !x.merge || x.partnerId != a.identity then d
  else if a.baseRoot == d.tb.baseRoot || (!a.aligned && idLt d.tb.baseRoot x.partnerBase) then d.memberLink l
  else if a.aligned then d.onLink l (fun y => { y with partnerBase := a.baseRoot })
  else d

/-- Identities that MEMBER links reach from this device (R490, R492). -/
def Dev.reach (d : Dev) : List Bytes := (hopsFrom d.fabric.map d.trust.identity).map (·.1)

/-- Whether the map shows a minority of the last applied version (R496). -/
def Dev.inMinority (d : Dev) : Bool :=
  let n := d.fabric.members.length
  let k := (d.fabric.members.filter (fun i => d.reach.contains i)).length
  let rootThere := d.reach.contains d.fabric.root
  decide (1 < n) && (decide (2 * k < n) || (decide (2 * k = n) && !rootThere))

/-- The fabric jobs halt as a device halts (R496, R550): their items in compute rounds complete, and they stop. -/
def Dev.haltFabricJobs (d : Dev) : Dev :=
  d.onJobs (fun d j => match (d.job j).img with
    | some i => if 1 < i.fabricSize ∧ ¬ (d.job j).standby ∧ ((d.job j).state = .active ∨ (d.job j).state = .staged) then
        d.onJob j (fun x => { x with halting := true }) else d
    | none => d)

/-- E_FAB_MINORITY: the record says class DEVICE and only the fabric jobs halt (R496, R550). -/
def Dev.checkMinority (d : Dev) : Dev :=
  if d.inMinority then
    if d.fabric.minority then d
    else
      let halting := d.err.halting
      let d1 := d.raise { code := 0x0904, cls := clsDevice, corr := false }
      ({ d1 with
        err := { d1.err with halting := halting }
        fabric := { d1.fabric with minority := true, state := 3 } }).haltFabricJobs
  else if d.fabric.minority then { d with fabric := { d.fabric with minority := false, state := 1 } }
  else d

/-- LINK_DOWN (R478): replay buffers and transfers in part are discarded, one E_LINK_DOWN, and the link retrains while EN is 1. A FAILED_ID
link stays so until EN is written (R491); LNK_PARTNER_ID reads zero until IDENTIFY completes again (R511). -/
def linkDownD (l : Nat) (d : Dev) : Dev :=
  if (d.link l).state = 0 ∨ (d.link l).state = 4 then d
  else
    let d1 := d.onLink l (fun x => { x with
      state := 0
      partnerId := []
      replay := []
      queue := []
      rx := x.rx.filter (fun y => y.whole || y.fixed)
      nak := false
      merge := false
      partnerIdx := false
      downEv := true })
    let d2 := ((d1.linkIrq l).count (linkOff l + 0x10) 48 1).raise { code := 0x0902, kind := 3, unit := l }
    let d3 := ((d2.trainLink l).advertise).reportMap
    let d4 := if d3.tb.aligned then d3.checkMinority else d3
    if d4.tb.parent = l ∧ ¬ d4.fabric.isRoot ∧ d4.tb.aligned then d4.lostParent else d4

/-! ### Containment of slices and cores (R18, R547) -/

/-- A slice is contained: its cores, ports and links stop (R18); each link of it that was not DOWN goes DOWN (R478). -/
def Dev.containSlice (d : Dev) (s : Nat) : Dev :=
  let d1 := d.onSlice s (fun x => { x with state := .contained })
  let d2 := { d1 with
    cores := mmap (fun c x => if c / 64 = s then x.haltTasks else x) d1.cores
    ports := mmap (fun p x => if p / 4 = s then { x with state := 0, opened := [] } else x) d1.ports }
  let d3 := ((d2.links.map Prod.fst).filter (fun l => l / 9 == s)).foldl (fun d l => linkDownD l d) d2
  let n := ((List.range 4).filter (fun k => !(d3.sliceUp k))).length
  -- R547: two contained slices take class DEVICE
  if n = 2 then d3.halt else d3

/-- A core is retired until the next cold start; two within 4,096 rounds contain their slice (R547). -/
def Dev.retireCore (d : Dev) (c : Nat) : Dev :=
  if d.coreRetired c then d
  else
    let d1 := (d.onCore c Core.haltTasks)
    let d2 := { d1 with err := { d1.err with
      retired := d1.err.retired + 2 ^ c
      retiredAt := d1.err.retiredAt ++ [(c, d1.tb.round)] } }
    let near := d2.err.retiredAt.filter (fun p => p.1 / 64 == c / 64 && decide (d2.tb.round < p.2 + 4096))
    if near.length ≥ 2 && d2.sliceUp (c / 64) then d2.containSlice (c / 64) else d2

/-! ### LNK_CTL -/

/-- A loaded job has a forward entry on the link (R92). -/
def Dev.linkRuns (d : Dev) (l : Nat) : Bool :=
  d.jobs.any (fun p => p.2.loaded && (match p.2.img with
    | some i => i.routes.any (fun r => fld r 0 1 == 2 && (fld r 4 1 == l || fld r 5 1 == l))
    | none => false))

/-- LINK_ENABLE_WRITE: LNK_CTL.EN (R507): 0 holds the link DOWN, 1 trains it; FAILED_ID ends by 0 and then 1. The field is
L-class: while a loaded job has a forward entry on the link, a write that differs is refused (R92). -/
def linkEnableD (l : Nat) (en : Bool) (d : Dev) : Dev :=
  if d.linkEn l = en then d
  else if d.linkRuns l then d.raise (recCfgLocked (linkOff l) (putBits (d.reg (linkOff l)) 0 1 en.toNat))
  else
    let d1 := d.putField (linkOff l) 0 1 en.toNat
    if en then (d1.trainLink l).advertise
    else
      let d2 := if (d1.link l).state = 0 ∨ (d1.link l).state = 4 then d1.onLink l (fun x => { x with state := 0 })
        else linkDownD l d1
      d2.advertise

/-! ### Flits (R475 to R477) -/

def hdrOf (flit : Bytes) : Nat := leAt flit 0 8

/-- A flit of this device (R475, R476). -/
def mkFlit (type seq ack : Nat) (nak : Bool) (route len : Nat) (first last : Bool) (payload : Bytes) : Bytes :=
  let body := leBytes 8 (type + seq * 2 ^ 4 + ack * 2 ^ 16 + nak.toNat * 2 ^ 28 + route * 2 ^ 32 + len * 2 ^ 48 +
    first.toNat * 2 ^ 58 + last.toNat * 2 ^ 59) ++ sliceZ payload 0 624 ++ leBytes 4 0
  body ++ leBytes 4 (crc32c body)

/-- Flits that a link may have unacknowledged (R477). -/
def linkWindow : Nat := 256

/-- A flit goes out over a link, into its replay buffer. -/
def Link.put (x : Link) (o : OutFlit) : Link :=
  let seq := (x.txSeq + 1) % 4096
  let f := mkFlit o.type seq x.rxLast x.nak o.route o.len o.first o.last o.payload
  { x with
    txSeq := seq
    nak := false
    replay := x.replay ++ [f]
    sent := x.sent ++ [f] }

/-- The next flit of a queue, FIXED ones before BULK ones (R483), and the others. -/
def nextFlit (q : List OutFlit) : Option (OutFlit × List OutFlit) := match q.findIdx? (fun o => o.type == 1) with
  | some k => (q[k]?).map (fun o => (o, q.take k ++ q.drop (k + 1)))
  | none => match q with
    | o :: r => some (o, r)
    | [] => none

/-- Flits go out while no more than 256 are unacknowledged (R477). -/
def Link.drain : Nat → Link → Link
  | 0, x => x
  | n + 1, x =>
    if linkWindow ≤ x.replay.length then x
    else match nextFlit x.queue with
      | some (o, q) => Link.drain n (({ x with queue := q } : Link).put o)
      | none => x

/-- A data flit joins those that a link has to send; a link that is not MEMBER carries none, so that the flit is lost (R490, R478). -/
def Dev.sendFlit (d : Dev) (l type route len : Nat) (first last : Bool) (payload : Bytes) : Dev :=
  if (d.link l).state = 3 then
    d.onLink l (fun x => Link.drain (x.queue.length + 1) { x with queue := x.queue ++ [⟨type, route, len, first, last, payload⟩] })
  else d

/-- After a discard the next flit sent carries NAK; with nothing else to send it is an IDLE flit (R477 step 4). -/
def Dev.sendNak (d : Dev) (l : Nat) : Dev :=
  (d.onLink l (fun x => { x with sent := x.sent ++ [mkFlit 0 x.txSeq x.rxLast true 0 0 false false []], nak := false })).count
    (linkOff l + 0x10) 0 1

/-- The sender's side of a received header: flits up to ACK leave the replay buffer; on NAK the rest go again (R477). -/
def Link.takeAck (x : Link) (ack : Nat) (nak : Bool) : Link :=
  let keep := x.replay.filter (fun f => decide ((bits (hdrOf f) 4 12 + 4096 - ack) % 4096 ≤ 2048) &&
    decide ((bits (hdrOf f) 4 12 + 4096 - ack) % 4096 ≠ 0))
  { x with
    acked := ack
    replay := keep
    sent := if nak then x.sent ++ keep else x.sent
    naks := if !nak then 0 else if ack = x.acked then x.naks + 1 else 1 }

/-- The forward entry of a route that arrives on a link (R486): kind 2, its route and IN_LINK, over every loaded job. -/
def Dev.forwardOf (d : Dev) (route inLink : Nat) : Option (Nat × Rec) :=
  (d.jobs.flatMap (fun p => match p.2.img with
    | some i => if p.2.loaded then
        (i.routes.filter (fun r => fld r 0 1 == 2 && fld r 2 2 == route && fld r 4 1 == inLink)).map (fun r => (p.1, r))
      else []
    | none => [])).head?

/-- A transfer of a route and a traffic class. -/
def RxXfer.sameFlow (y : RxXfer) (route type : Nat) : Bool := y.route == route && (y.fixed == (type == 1))

/-- A transfer whose LAST flit has come is whole when every byte of its header's BYTES has (R478, R480). -/
def RxXfer.closed (y : RxXfer) : RxXfer := { y with whole := y.whole && y.data.length == 48 + leAt y.data 40 4 }

/-- An in-order data flit of a MEMBER link (R490): forwarded over OUT_LINK without a look inside, or gathered into its transfer (R480, R486). -/
def Dev.acceptFlit (d : Dev) (l : Nat) (flit : Bytes) : Dev :=
  let h := hdrOf flit
  let type := bits h 0 4
  let route := bits h 32 16
  let len := bits h 48 10
  let payload := (flit.drop 8).take len
  if type = 3 ∨ (d.link l).state ≠ 3 then d
  else
    match d.forwardOf route l with
    | none => d
    | some (_, r) =>
      if fld r 5 1 ≠ 0xFF then d.sendFlit (fld r 5 1) type route len (bit h 58) (bit h 59) ((flit.drop 8).take 624)
      else
        d.onLink l (fun x =>
          -- flits join the newest transfer of their route: an older one has lost flits and never completes (R478)
          if bit h 58 then
            let y : RxXfer := { route := route, path := fld r 1 1, data := payload, whole := bit h 59, at_ := 0, link := l,
                                fixed := type == 1, judged := false, late := false }
            { x with rx := x.rx.filter (fun y => !y.sameFlow route type || y.whole || y.fixed) ++ [y.closed] }
          else
            match (x.rx.zipIdx.filter (fun y => y.1.sameFlow route type)).getLast? with
            | some (y, i) => if y.whole then x
              else { x with rx := lset x.rx i (fun y => ({ y with data := y.data ++ payload, whole := bit h 59 } : RxXfer).closed) }
            | none => x)

/-- LINK_FLIT_RECEIVE (R477, R478). -/
def linkFlitD (l : Nat) (fecOk : Bool) (corrected : Nat) (flit : Bytes) (d : Dev) : Dev :=
  let st := (d.link l).state
  if (st ≠ 2 ∧ st ≠ 3) ∨ ¬ d.linkUp l then d
  else if !fecOk then (d.count (linkOff l + 0x10) 16 1).sendNak l
  else
    let d := d.count (linkOff l + 0x18) 0 corrected
    let h := hdrOf flit
    if leAt flit 636 4 ≠ crc32c (flit.take 636) ∨ 3 < bits h 0 4 then d.sendNak l
    else
      let d1 := d.onLink l (fun x => let y := x.takeAck (bits h 16 12) (bit h 28); Link.drain y.queue.length y)
      let seq := bits h 4 12
      let gap := (seq + 4096 - (d1.link l).rxLast) % 4096
      -- 16 consecutive NAKs for the same SEQ take the link DOWN (R478)
      if 16 ≤ (d1.link l).naks then linkDownD l d1
      else if bits h 0 4 = 0 then d1
      else if gap = 1 then
        (d1.onLink l (fun x => { x with rxLast := seq })).acceptFlit l flit
      -- an old SEQ is a duplicate and has no effect; a gap ahead is a discard
      else if gap = 0 ∨ 2048 ≤ gap then d1
      else d1.sendNak l

/-! ### Discovery -/

/-- ADVERTISEMENT (R492): a newer one updates the map and goes on over every MEMBER link; a link between two bases follows it (R500). -/
def advertisementD (a : Advert) (d : Dev) : Dev :=
  let old := d.advert? a.identity
  let newer := match old with
    | some o => decide (o.seq < a.seq)
    | none => true
  if !newer ∨ a.identity == d.trust.identity then d
  else
    let changed := match old with
      | some o => { o with seq := 0 } != { a with seq := 0 }
      | none => true
    let report := match old with
      | some o => o.compiles != a.compiles
      | none => true
    let d1 := { d with fabric := { d.fabric with
      map := d.fabric.map.filter (fun (x : Advert) => x.identity != a.identity) ++ [a]
      state := if changed ∧ d.fabric.state ≠ 3 then 1 else d.fabric.state
      sends := d.fabric.sends ++ [Flood.advert a] } }
    let d2 := { d1 with links := mmap (fun _ x => if x.partnerId == a.identity then
        { x with
          partnerIdx := !a.compiles.isEmpty
          partnerDev := match a.compiles.head? with
            | some c => c.2
            | none => 0 } else x) d1.links }
    let d3 := if report then d2.reportMap else d2
    let d4 := ((d3.links.map Prod.fst).foldl (fun d l => d.mergeOn a l) d3).joinIfIdle
    if d4.tb.aligned then d4.checkMinority else d4

/-- Members whose time base is fixed, of the base that survives (R494, R500): a device without a base joins theirs. -/
def Dev.basedOn (d : Dev) : List Advert :=
  let as := d.fabric.map.filter (fun a => a.aligned && a.identity != d.trust.identity)
  let low := lowestId (as.map (·.baseRoot))
  as.filter (fun a => a.baseRoot == low)

/-- The root of a converged map: its lowest identity (R493); a device without a base takes no other base's root than the one it joins
(R494, R500). -/
def Dev.mapRoot (d : Dev) : Bytes :=
  let as := if d.basedOn.isEmpty then d.fabric.map else d.basedOn
  lowestId (as.map (·.identity))

/-- MAP_CONVERGED (R492, R493): the root is the lowest identity; before alignment the map takes effect at once (R494) and an
elected root's TIME becomes 0 (R498 step 1). A device in the minority takes no part (R496). -/
def mapConvergedD (d : Dev) : Dev :=
  if d.fabric.map.length < 2 ∨ d.fabric.state ≠ 1 then d
  else
    let root := d.mapRoot
    let isRoot := root == d.trust.identity
    let changed := root != d.fabric.root
    let f := { d.fabric with state := 2 }
    if d.tb.aligned then ({ d with fabric := f }).checkMinority
    else
      let d1 := { d with
        fabric := { f with
          root := root
          isRoot := isRoot
          members := d.mapIds
          aligning := if changed then false else f.aligning
          alignedReports := if changed then [] else f.alignedReports }
        tb := { d.tb with state := 1, good := if changed then 0 else d.tb.good } }
      if isRoot then { d1 with tb := { d1.tb with now := if changed then 0 else d1.tb.now, parent := 63 } }
      else d1.reparent

/-- SELF_ROOT (R583): no other member in the map: TIME 0 and EPOCH at 10 ms, once the device has its identity. -/
def selfRootD (d : Dev) : Dev :=
  if d.tb.aligned ∨ ¬ d.kindle.keysDone ∨ d.fabric.map.any (fun a => a.identity != d.trust.identity) then d
  else
    let d1 := { d with
      tb := { d.tb with now := 0 }
      fabric := { d.fabric with state := 0, root := d.trust.identity, isRoot := true, members := [d.trust.identity] } }
    (d1.setEpoch 10000000 d.trust.identity 63).advertise

/-- ALIGNMENT_START (R584): the root of a converged map starts alignment. -/
def alignmentStartD (d : Dev) : Dev :=
  if d.fabric.isRoot ∧ ¬ d.tb.aligned ∧ ¬ d.fabric.aligning ∧ d.kindle.localReady then
    { d with fabric := { d.fabric with aligning := true, alignedReports := [] } }
  else d

/-- The floor of a half; an odd sum's half ns is a free value (R497 gives no rounding, entry 4). -/
def Dev.halve (d : Dev) (x : Int) : Int × Dev :=
  if x % 2 = 0 then (x / 2, d)
  else
    let (v, d') := d.freeVal 0
    (x / 2 + ((v % 2 : Nat) : Int), d')

/-- TIME_EXCHANGE (R497 to R499): this device is B and its parent A; θ steps TIME before alignment and is slewed after it. -/
def timeExchangeD (l : Nat) (t1 t2 t3 t4 : Nat) (d : Dev) : Dev :=
  let st := (d.link l).state
  if st ≠ 3 then d
  else
    let (theta, d) := d.halve (((t2 : Int) - t1) - ((t4 : Int) - t3))
    let (delay, d) := d.halve (((t2 : Int) - t1) + ((t4 : Int) - t3))
    let d1 := d.onLink l (fun x => { x with latency := delay.toNat % 65536 })
    if d1.fabric.isRoot then d1
    else
      -- a device in holdover takes its parent anew at the next exchange (R499)
      let d2 := if d1.tb.parent = l ∧ ¬ (d1.tb.aligned ∧ d1.tb.state = 3) then d1 else d1.reparent
      if d2.tb.parent ≠ l then d2
      else if d2.tb.aligned then { d2 with tb := { d2.tb with offset := theta } }
      else
        let good := if theta.natAbs ≤ 8 then d2.tb.good + 1 else 0
        let d3 := { d2 with tb := { d2.tb with
          state := 1
          offset := theta
          good := good
          now := ((d2.tb.now : Int) - theta).toNat } }
        if 16 ≤ d2.tb.good then { d2 with tb := { d2.tb with offset := theta } }
        else if good = 16 then d3.send .aligned
        else d3

/-- The largest hop count from this device to a member (R498 step 3). -/
def Dev.maxHops (d : Dev) : Nat := (hopsFrom d.fabric.map d.trust.identity).foldl (fun m p => max m p.2) 0

/-- ALIGNED_REPORT (R498 step 3, R584): once every member that takes part has reported, EPOCH is fixed and flooded. -/
def alignedReportD (id : Bytes) (d : Dev) : Dev :=
  if ¬ (d.fabric.isRoot ∧ d.fabric.aligning) then d
  else
    let reports := if d.fabric.alignedReports.contains id then d.fabric.alignedReports else d.fabric.alignedReports ++ [id]
    let d1 := { d with fabric := { d.fabric with alignedReports := reports } }
    let need := (d.fabric.map.filter (fun a => a.localReady && a.identity != d.trust.identity)).map (·.identity)
    if need.all reports.contains then
      let t := d.tb.now + 10000000 + 2000000 * d.maxHops
      let epoch := (t + 999999) / 1000000 * 1000000
      ((d1.setEpoch epoch d.trust.identity 63).send (.epoch epoch)).advertise
    else d1

/-- EPOCH_FLOOD (R498 step 4); a device that joins a base which runs takes its TIM_RBASE_T, TIM_RBASE_N and round length too (R494,
R500). -/
def epochFloodD (epoch : Nat) (running : Option (Nat × Nat × Nat)) (d : Dev) : Dev :=
  if d.tb.aligned ∨ d.fabric.isRoot then d
  else
    let root := match d.basedOn.head? with
      | some a => a.baseRoot
      | none => d.fabric.root
    match running with
    | some (baseT, baseN, len) =>
      let d1 := { d with tb := { d.tb with lenHalf := len }, fabric := { d.fabric with roundLenOut := false } }
      ((d1.putField 0x1008 0 7 len).setBase epoch baseT baseN root d.tb.parent).advertise
    -- a member that is not LOCAL_READY takes no part in an alignment (R584)
    | none => if d.kindle.localReady then (d.setEpoch epoch root d.tb.parent).advertise else d

/-! ### Membership and round length at the root -/

/-- The next version with its effective round; changes reported before one effective mark are combined (R494). -/
def Dev.newVersion (d : Dev) (len : Option Nat) : Dev :=
  let eff := d.tb.round + 4
  let fresh : Version := { version := (d.fabric.pending.foldl (fun m v => max m v.version) d.fabric.version) + 1, eff := eff, members := [], roundLen := len }
  let v : Version := match (d.fabric.pending.filter (fun v => decide (d.tb.round < v.eff) && v.roundLen.isNone)).getLast? with
    | some v => if len.isNone then v else fresh
    | none => fresh
  if d.fabric.pending.contains v then d
  else ({ d with fabric := { d.fabric with pending := d.fabric.pending ++ [v] } }).send (.version v)

/-- The device that acts as root for the members it reaches: the root of the version in force or, when a converged map no longer reaches
that one, the lowest of those that it does (R493, R494); a device in the minority takes no part (R496). -/
def Dev.leads (d : Dev) : Bool :=
  !d.fabric.minority && (d.fabric.isRoot || (d.fabric.state == 2 && !(d.reach.contains d.fabric.root) &&
    lowestId (d.fabric.members.filter d.reach.contains) == d.trust.identity))

/-- MEMBERSHIP_REPORT (R494 step 2). -/
def membershipReportD (_id : Bytes) (d : Dev) : Dev :=
  if d.leads ∧ d.tb.aligned then d.newVersion none else d

/-- MEMBERSHIP_VERSION_FLOOD (R494 step 3): kept until its effective mark. -/
def membershipVersionD (version eff : Nat) (len : Option Nat) (d : Dev) : Dev :=
  if d.tb.aligned ∧ d.fabric.version < version ∧ ¬ d.fabric.pending.any (fun v => v.version == version) then
    let d1 := { d with fabric := { d.fabric with
      pending := d.fabric.pending ++ [{ version := version, eff := eff, members := [], roundLen := len }] } }
    -- of two versions with a length for one change mark the later one is the root's choice
    let later := d.fabric.pending.any (fun v => v.eff == eff && v.roundLen.isSome && decide (version < v.version))
    match len with
    | some n => if later then d1 else { d1 with tb := { d1.tb with changes := d1.tb.changes.filter (fun c => c.1 != eff) ++ [(eff, n)] } }
    | none => d1
  else d

/-- ROUND_LEN_REPORT (R42): refused while a member holds a job that is neither EMPTY nor LOADING; of two reports in one round
the one of the lower identity is taken, with a version of its own. -/
def roundLenReportD (len : Nat) (id : Bytes) (d : Dev) : Dev :=
  if ¬ (d.fabric.isRoot ∧ d.tb.aligned) then d
  else if d.fabric.map.any (·.busy) then d.send (.roundLenRefused id)
  else
    let nc := d.tb.round + 4
    let loses := match d.fabric.lenReport with
      | some (r, other) => decide (r = d.tb.round) && !(idLt id other)
      | none => false
    if loses then d
    else
      let d1 := { d with fabric := { d.fabric with lenReport := some (d.tb.round, id) } }
      let d2 := d1.newVersion (some len)
      { d2 with tb := { d2.tb with changes := d2.tb.changes.filter (fun c => c.1 != nc) ++ [(nc, len)] } }

/-- ROUND_LEN_REFUSAL (R42): ROUND_LEN returns to the length in force, E_IMG_ROUND is written, and the LOAD_IMAGE that caused
the report fails. -/
def roundLenRefusalD (d : Dev) : Dev :=
  if !d.fabric.roundLenOut then d
  else
    let d1 := { d with fabric := { d.fabric with roundLenOut := false } }
    let d2 := d1.putField 0x1008 0 7 d1.tb.lenHalf
    let d3 := d2.raise { code := 0x0206, corr := false }
    (d3.onJobs (fun d j =>
      let job := d.job j
      match job.img, job.loadCmd with
      | some i, some r =>
        if (job.state == .loading || job.state == .staged) && i.roundLen != d.tb.lenHalf then
          ((d.unplace j).finishCmd j r stFailed 0x0206).onJob j (fun x => { Job.reset with loadErr := 0x0206, gen := x.gen })
        else d
      | _, _ => d)).joinIfIdle.refreshSlices

/-! ### Activation of fabric jobs -/

/-- The activation round reaches a staged job of the compile; too late, the device reports so (R83, R84). -/
def activationFloodD (compile round : Nat) (d : Dev) : Dev :=
  d.onJobs (fun d j =>
    let job := d.job j
    match job.img with
    | some i =>
      if i.compileId = compile ∧ job.state == .staged ∧ !job.standby ∧ 1 < i.fabricSize then
        if round ≤ d.tb.round + 1 then d.send (.lateReport compile i.deviceIndex)
        else d.onJob j (fun x => { x with actRound := some round })
      else d
    | none => d)

/-- Devices of a compile: FABRIC_SIZE of the root's own image, else those the map shows. -/
def Dev.compileSize (d : Dev) (compile : Nat) : Nat :=
  match (d.jobs.filterMap (fun p => match p.2.img with
      | some i => if i.compileId = compile then some i.fabricSize else none
      | none => none)).head? with
  | some n => n
  | none => (d.fabric.map.filter (fun a => a.compiles.any (fun c => c.1 == compile))).length

/-- STAGED_REPORT (R83). -/
def stagedReportD (compile dev : Nat) (d : Dev) : Dev :=
  if ¬ d.fabric.isRoot then d
  else
    let reps := if d.fabric.stagedReports.contains (compile, dev) then d.fabric.stagedReports
      else d.fabric.stagedReports ++ [(compile, dev)]
    let d1 := { d with fabric := { d.fabric with stagedReports := reps } }
    if (reps.filter (fun p => p.1 == compile)).length = d.compileSize compile then
      let a := d.tb.round + 4
      activationFloodD compile a
        (({ d1 with fabric := { d1.fabric with stagedReports := reps.filter (fun p => p.1 != compile) } }).send (.activate compile a))
    else d1

/-- Fabric jobs of a compile on the root. -/
def Dev.fabricJobs (d : Dev) (compile : Nat) : List Job :=
  (d.jobs.filter (fun p => p.2.state != .empty && !p.2.standby && (match p.2.img with
    | some i => i.compileId == compile && decide (1 < i.fabricSize)
    | none => false))).map Prod.snd

/-- One of them has no activation round, its own device or another not having reported, and its staging timeout has passed since it was staged or,
of a job still LOADING, since its command (entry 122). -/
def Dev.unfixed (d : Dev) (compile : Nat) : Bool :=
  (d.fabricJobs compile).any (fun x => (x.state == .loading || x.state == .staged) && x.actRound.isNone && decide (x.stagedRound + x.timeout ≤ d.tb.round))

/-- STAGING_TIMEOUT (R84): not every device has reported, so the root floods an abort. A root that has no image of the compile knows no timeout
of its own: reports without the last one show this there. -/
def stagingTimeoutD (compile : Nat) (d : Dev) : Dev :=
  if d.fabric.isRoot ∧ (d.unfixed compile ∨ ((d.fabricJobs compile).isEmpty ∧ d.fabric.stagedReports.any (fun p => p.1 == compile))) then
    (({ d with fabric := { d.fabric with stagedReports := d.fabric.stagedReports.filter (fun p => p.1 != compile) } }).send
      (.abort compile)).abortCompile compile
  else d

/-- LATE_ACTIVATION_REPORT (R84). -/
def lateActivationD (compile : Nat) (d : Dev) : Dev :=
  if d.fabric.isRoot then (d.send (.abort compile)).abortCompile compile else d

/-- RECOVERY_NOTICE (R553): the recovery mark of the detections in round n of a compile's fabric jobs is n + 1 when the notice
reached every device by T(n + 1) − 20 µs, else n + 2. The root floods it on. -/
def recoveryNoticeD (compile round : Nat) (everyDevice : Bool) (d : Dev) : Dev :=
  let mark := if everyDevice then round + 1 else round + 2
  let fix (a : Action) : Action :=
    match (d.job a.job).img with
    | some i => if i.compileId = compile ∧ 1 < i.fabricSize ∧ a.round = round then { a with markAt := max a.markAt mark } else a
    | none => a
  let d1 := { d with
    err := { d.err with handling := d.err.handling.map fix, queue := d.err.queue.map fix }
    fabric := { d.fabric with recovery := d.fabric.recovery ++ [(compile, round, everyDevice)] } }
  if d.fabric.isRoot then d1.send (.recovery compile round) else d1

/-- SHIPMENT_COMPLETE_REPORT (R566). -/
def shipmentReportD (mirror round : Nat) (d : Dev) : Dev :=
  if d.mirror.reported.contains (mirror, round) then d
  else { d with mirror := { d.mirror with reported := d.mirror.reported ++ [(mirror, round)] } }

/-! ### Meanings -/

/-- The block is powered and out of the start sequence's first steps. -/
def Dev.up (d : Dev) : Bool := d.kindle.powered && d.kindle.fwOk

/-- The answer of a meaning: a change of everything but the queue and the fuses. -/
def onDev (s : State) (f : Dev → Dev) : Host.Outcome State Fault Refusal := .next { s with dev := f s.dev }

/-- A change that takes place only while the firmware runs. -/
def onUp (s : State) (f : Dev → Dev) : Host.Outcome State Fault Refusal := onDev s (fun d => if d.up then f d else d)

def execLinkTrained (l : Fin 36) (s : State) : Host.Outcome State Fault Refusal := onUp s (linkTrainedD l.val)

def execLinkIdentify (l : Fin 36) (nonce cert sig : Bytes) (pl : Fin 36) (baseRoot : Bytes) (busy : Bool) (s : State) :
    Host.Outcome State Fault Refusal := onUp s (linkIdentifyD l.val nonce cert sig pl.val baseRoot busy)

def execLinkDown (l : Fin 36) (s : State) : Host.Outcome State Fault Refusal := onUp s (linkDownD l.val)

def execLinkFlitReceive (l : Fin 36) (fecOk : Bool) (corrected : Nat) (flit : Bytes) (s : State) :
    Host.Outcome State Fault Refusal := onUp s (linkFlitD l.val fecOk corrected flit)

def execAdvertisement (a : Advert) (s : State) : Host.Outcome State Fault Refusal := onUp s (advertisementD a)

def execMapConverged (s : State) : Host.Outcome State Fault Refusal := onUp s mapConvergedD

def execSelfRoot (s : State) : Host.Outcome State Fault Refusal := onUp s selfRootD

def execAlignmentStart (s : State) : Host.Outcome State Fault Refusal := onUp s alignmentStartD

def execTimeExchange (l : Fin 36) (t1 t2 t3 t4 : Nat) (s : State) : Host.Outcome State Fault Refusal :=
  onUp s (timeExchangeD l.val t1 t2 t3 t4)

def execAlignedReport (id : Bytes) (s : State) : Host.Outcome State Fault Refusal := onUp s (alignedReportD id)

def execEpochFlood (epoch : BaseFlood) (s : State) : Host.Outcome State Fault Refusal :=
  onUp s (epochFloodD epoch.epoch epoch.running)

def execMembershipReport (id : Bytes) (s : State) : Host.Outcome State Fault Refusal := onUp s (membershipReportD id)

def execMembershipVersionFlood (version eff : Nat) (len : Option Nat) (s : State) : Host.Outcome State Fault Refusal :=
  onUp s (membershipVersionD version eff len)

def execRoundLenReport (len : Nat) (id : Bytes) (s : State) : Host.Outcome State Fault Refusal :=
  onUp s (roundLenReportD len id)

def execRoundLenRefusal (s : State) : Host.Outcome State Fault Refusal := onUp s roundLenRefusalD

def execStagedReport (compile dev : Nat) (s : State) : Host.Outcome State Fault Refusal := onUp s (stagedReportD compile dev)

def execActivationRoundFlood (compile round : Nat) (s : State) : Host.Outcome State Fault Refusal :=
  onUp s (activationFloodD compile round)

def execStagingTimeout (compile : Nat) (s : State) : Host.Outcome State Fault Refusal := onUp s (stagingTimeoutD compile)

def execJobAbortFlood (compile : Nat) (s : State) : Host.Outcome State Fault Refusal :=
  onUp s (fun d => d.abortCompile compile)

def execRecoveryNotice (compile round : Nat) (everyDevice : Bool) (s : State) : Host.Outcome State Fault Refusal :=
  onUp s (recoveryNoticeD compile round everyDevice)

def execLateActivationReport (compile _dev : Nat) (s : State) : Host.Outcome State Fault Refusal :=
  onUp s (lateActivationD compile)

def execShipmentCompleteReport (mirror round : Nat) (s : State) : Host.Outcome State Fault Refusal :=
  onUp s (shipmentReportD mirror round)

def execLinkEnableWrite (l : Fin 36) (en : Bool) (s : State) : Host.Outcome State Fault Refusal :=
  onDev s (fun d => if d.kindle.localReady then linkEnableD l.val en d else d)

end Sys2Proof.Machine
end

