-- ==== Sys2Proof/Machine/Array.lean ====
section
/-! DEFINITION. Machine/Array.lean: one step of the matrix array, FAST (R111, R113) and STRICT (R114, R115). -/

namespace Sys2Proof.Machine

/-- One operand pair of a step: activation, weight, block exponent, and whether the block's scale is NaN. -/
structure Pair where
  a : Val
  b : Val
  x : Int
  scaleNan : Bool
  deriving DecidableEq, Repr

/-- The term of a pair, with OVF when a finite product overflows (R111); the integer 0 counts as +0 (DESIGN CHOICE, entry 100). -/
def pairTerm (p : Pair) : Val × Bool :=
  if p.a.isNan || p.b.isNan || p.scaleNan then (.nan false (2 ^ 22), false)
  else match vmul p.a p.b with
    | none => (.nan false (2 ^ 22), false)
    | some (.num m e) =>
      if ilog2 m (e + p.x) > 127 then (.inf (decide (m < 0)), true) else (.num m (e + p.x), false)
    | some v => (v, false)

/-- Largest floor(log2 |t|) over the finite non-zero terms. -/
def maxExp (ts : List Val) : Option Int :=
  ts.foldl (fun acc t => match t with
    | .num m e => some (match acc with | none => ilog2 m e | some k => max k (ilog2 m e))
    | _ => acc) none

def isInfOf (neg : Bool) : Val → Bool
  | .inf n => n == neg
  | _ => false

/-- The sum of a FAST step's terms, truncated toward minus infinity at 2^(E − 40) and rounded once (R111). -/
def sumTerms (ts : List Val) : Nat × Fl :=
  if ts.any Val.isNan || (ts.any (isInfOf true) && ts.any (isInfOf false)) then (0x7FC00000, { nan := true })
  else if ts.any (isInfOf true) then (0xFF800000, {})
  else if ts.any (isInfOf false) then (0x7F800000, {})
  else match maxExp ts with
    | none => (if ts.all (fun t => t.neg) then 0x80000000 else 0, {})
    | some E =>
      let S : Int := ts.foldl (fun acc t => match t with
        | .num m e => acc + floorShift m e (E - 40)
        | _ => acc) 0
      if S = 0 then (0, {})
      else
        let neg := decide (S < 0)
        let u := ilog2 S (E - 40) - 23
        let q := roundUnits .rne S (E - 40) u
        if overflows .fp32 q u then (infCode .fp32 neg, { ovf := true })
        else if (Nat.log2 q : Int) + u < -126 then (signBit .fp32 neg, { unf := true })
        else (encodeFinite .fp32 neg q u, {})

/-- The FAST step of R111 on accumulator code `c`. -/
def fastStep (c : Nat) (ps : List Pair) : Nat × Fl :=
  let cv := readVal false .fp32 c
  let ts := ps.map pairTerm
  let r := sumTerms (cv :: ts.map Prod.fst)
  (r.1, r.2.or { ovf := ts.any Prod.snd })

/-- One fused multiply-add of a STRICT run, with the NaN order accumulator, activation, weight, block scale (R115). -/
def strictFma (c : Nat) (p : Pair) : Nat × Fl :=
  let cv := decodeVal .fp32 c
  let scale : List Val := if p.scaleNan then [.nan false (2 ^ 22)] else []
  let bx := match p.b with | .num m e => .num m (e + p.x) | v => v
  arithRes true .fp32 .rne ([cv, p.a, p.b] ++ scale) ((vmul p.a bx).bind (fun q => vadd q cv))

/-- The STRICT chain over the pairs present (R114): padding positions are absent. -/
def strictStep (c : Nat) (ps : List Pair) : Nat × Fl :=
  ps.foldl (fun acc p => let r := strictFma acc.1 p; (r.1, acc.2.or r.2)) (c, {})

/-- A step in the task's arithmetic mode. -/
def arrayStep (strict : Bool) (c : Nat) (ps : List Pair) : Nat × Fl :=
  if strict then strictStep c ps else fastStep c ps

/-- The first NaN operand of a step: (position or none for the accumulator, OPERAND code), in the rank order of R115 and
R133; a produced NaN comes last with OPERAND 5. Opposite infinities that a FAST step meets before a NaN operand of a higher position are
reported at their position (DESIGN CHOICE: R133 does not rank the two; entry 125). -/
def stepNan (strict : Bool) (c : Nat) (ps : List Pair) : Option (Nat × Nat) :=
  if (decodeVal .fp32 c).isNan then some (0, 2)
  else
    let rec go (k : Nat) (acc : Nat) (seen : Option Bool) : List Pair → Option (Nat × Nat)
      | [] => none
      | p :: rest =>
        if p.a.isNan then some (k, 0)
        else if p.b.isNan then some (k, 1)
        else if p.scaleNan then some (k, 3)
        else if strict then
          let r := strictFma acc p
          if (decodeVal .fp32 r.1).isNan then some (k, 5) else go (k + 1) r.1 seen rest
        else match (pairTerm p).1 with
          | .nan _ _ => some (k, 5)
          | .inf n => match seen with
            | some m => if m == n then go (k + 1) acc seen rest else some (k, 5)
            | none => go (k + 1) acc (some n) rest
          | _ => go (k + 1) acc seen rest
    go 0 c (match readVal false .fp32 c with | .inf n => some n | _ => none) ps

end Sys2Proof.Machine
end

