-- ==== Sys2Proof/Machine/GateFn.lean ====
section
/-! DEFINITION. Machine/GateFn.lean: the gate functions (R194 to R197). The exact real functions of R194 are evaluated in fixed
point with 2^-256 units (entry 8), far below the spacing of FP32 coefficients. -/

namespace Sys2Proof.Machine

/-! ### Exact real functions in fixed point -/

/-- Fixed-point scale of the reference functions. -/
def fxP : Nat := 256

def fxOne : Int := 2 ^ fxP

/-- num ÷ den in fixed point. -/
def fx (num den : Int) : Int := num * fxOne / den

def fxMul (a b : Int) : Int := a * b / fxOne

def fxDiv (a b : Int) : Int := a * fxOne / b

/-- Σ of a Taylor-like series: term k is the previous term × x × (1 ÷ step k). -/
def fxSeries (x : Int) (step : Nat → Int) : Nat → Nat → Int → Int → Int
  | 0, _, _, acc => acc
  | n + 1, k, t, acc =>
    let t := fxMul t x / step k
    fxSeries x step n (k + 1) t (acc + t)

/-- e^x, by halving the argument eight times. -/
def fxExp (x : Int) : Int :=
  let y := x / 256
  let e := fxSeries y (fun k => (k : Int)) 60 1 fxOne fxOne
  (List.range 8).foldl (fun v _ => fxMul v v) e

/-- 2 × artanh z for |z| ≤ 1/3. -/
def fxArtanh2 (z : Int) : Int :=
  let z2 := fxMul z z
  ((List.range 90).foldl (fun (p : Int × Int) (k : Nat) => (p.1 + p.2 / (2 * (k : Int) + 1), fxMul p.2 z2)) (0, 2 * z)).1

/-- ln of a value in [1, 2]. -/
def fxLn (u : Int) : Int := fxArtanh2 (fxDiv (u - fxOne) (u + fxOne))

def fxLn2 : Int := fxLn (2 * fxOne)

/-- arctan (1 ÷ n). -/
def fxArctanInv (n : Int) : Int :=
  ((List.range 60).foldl (fun (p : Int × Int) (k : Nat) =>
    (if k % 2 = 0 then p.1 + p.2 / (2 * (k : Int) + 1) else p.1 - p.2 / (2 * (k : Int) + 1), p.2 / (n * n))) (0, fxOne / n)).1

/-- π by Machin's formula. -/
def fxPi : Int :=
  let a := ((List.range 120).foldl (fun (p : Int × Int) (k : Nat) =>
    (if k % 2 = 0 then p.1 + p.2 / (2 * (k : Int) + 1) else p.1 - p.2 / (2 * (k : Int) + 1), p.2 / 25)) (0, fxOne / 5)).1
  4 * (4 * a - fxArctanInv 239)

/-- sin x and cos x for |x| ≤ 2π. -/
def fxSin (x : Int) : Int :=
  let x2 := -fxMul x x
  fxSeries x2 (fun k => (2 * k : Int) * (2 * k + 1)) 60 1 x x

def fxCos (x : Int) : Int :=
  let x2 := -fxMul x x
  fxSeries x2 (fun k => (2 * k - 1 : Int) * (2 * k)) 60 1 fxOne fxOne

def fxSqrt (u : Int) : Int := (Nat.sqrt (u.toNat * 2 ^ fxP) : Nat)

/-- The exact real functions g of R196. -/
inductive RealFn where
  | sigmoid | tanh | softplus | exp2 | ln | recip | rsqrt | sqrt | sin | cos
  deriving DecidableEq, Repr

def RealFn.eval : RealFn → Int → Int
  | .sigmoid, u => fxDiv fxOne (fxOne + fxExp (-u))
  | .tanh, u => let t := fxExp (-2 * u); fxDiv (fxOne - t) (fxOne + t)
  | .softplus, u => u + fxLn (fxOne + fxExp (-u))
  | .exp2, u => fxExp (fxMul u fxLn2)
  | .ln, u => fxLn u
  | .recip, u => fxDiv fxOne u
  | .rsqrt, u => fxDiv fxOne (fxSqrt u)
  | .sqrt, u => fxSqrt u
  | .sin, u => fxSin (2 * fxMul fxPi u)
  | .cos, u => fxCos (2 * fxMul fxPi u)

/-- A fixed-point number to the nearest FP32 code, ties to even (R194). A value below half the least subnormal is the error
of the fixed point on an exact zero (the cosine of a quarter turn), so it is +0. -/
def fxF32 (v : Int) : Nat :=
  if v.natAbs < 2 ^ (fxP - 151) then 0 else (roundCode true .fp32 .rne false (mkNum false v (-(fxP : Int)))).1

/-- The FP32 coefficients c0, c1, c2 of the quadratic through the ends and the middle of a segment (R194), for a start
and width given as fractions over `den`. -/
def segCoef (g : RealFn) (u0 w den : Int) : Nat × Nat × Nat :=
  let g0 := g.eval (fx u0 den)
  let g1 := g.eval (fx (2 * u0 + w) (2 * den))
  let g2 := g.eval (fx (u0 + w) den)
  let c1 := (-3 * g0 + 4 * g1 - g2) * den / w
  let c2 := 2 * (g0 - 2 * g1 + g2) * den * den / (w * w)
  (fxF32 g0, fxF32 c1, fxF32 c2)

/-! ### FP32 operations that gather flags -/

/-- A value with the flags gathered so far. -/
abbrev FV := Nat × Fl

def FV.add (a : FV) (b : Nat) : FV := let r := f32add a.1 b; (r.1, a.2.or r.2)
def FV.sub (a : FV) (b : Nat) : FV := let r := f32sub a.1 b; (r.1, a.2.or r.2)
def FV.mul (a : FV) (b : Nat) : FV := let r := f32mul a.1 b; (r.1, a.2.or r.2)
def FV.fma (a : FV) (b c : Nat) : FV := let r := f32fma a.1 b c; (r.1, a.2.or r.2)

/-- P of R194 at the already formed t. -/
def polyAt (c : Nat × Nat × Nat) (t : FV) : FV :=
  let q := f32fma c.2.2 t.1 c.2.1
  let r := f32fma q.1 t.1 c.1
  (r.1, (t.2.or q.2).or r.2)

/-- P of R194 at u, on the segment that starts at u0 ÷ den. -/
def segEval (g : RealFn) (u0 w den : Int) (u : Nat) : FV :=
  polyAt (segCoef g u0 w den) (f32sub u (fxF32 (fx u0 den)))

/-- m × 2^e as m × 2^k × 2^-24 exactly, |value| in [1, 2) × 2^(ilog2): the exponent and the 24-bit significand. -/
def sigOf (c : Nat) : Int × Nat :=
  match f32 c with
  | .num m e => (ilog2 m e, (m.natAbs * 2 ^ 24) / 2 ^ Nat.log2 m.natAbs / 2)
  | _ => (0, 0)

/-- Final scaling of a value by a power of two, rounded once (R194). -/
def scaleP2 (a : FV) (k : Int) : FV :=
  match f32 a.1 with
  | .num m e => let r := roundCode true .fp32 .rne false (.num m (e + k)); (r.1, a.2.or r.2)
  | _ => a

/-- x < c, x ≥ c for a small integer c, on FP32 codes. -/
def f32ltInt (x : Nat) (c : Int) : Bool := vlt (f32 x) (mkNum false c 0)
def f32geInt (x : Nat) (c : Int) : Bool := !(f32 x).isNan && !f32ltInt x c

def cOne : Nat := 0x3F800000
def cHalf : Nat := 0x3F000000

/-- The octave segment of R195 for 2^-4 ≤ |x| < 16, evaluated at |x|. -/
def octaveEval (g : RealFn) (ax : Nat) : FV :=
  let s := sigOf ax
  let q : Int := (s.2 / 2 ^ 20 % 8 : Nat)
  -- start 2^e (8 + q) ÷ 8, width 2^e ÷ 8, over the common denominator 128
  let p2 : Int := 2 ^ (s.1 + 4).toNat
  segEval g (p2 * (8 + q)) p2 128 ax

/-- Whether |x| < 2^-4. -/
def belowSixteenth (ax : Nat) : Bool := vlt (f32 ax) (.num 1 (-4))

/-- EXP of R196 for finite x. -/
def fnExp (x : Nat) : FV :=
  let z := f32mul x 0x3FB8AA3B
  if f32geInt z.1 128 then (0x7F800000, z.2.or { ovf := true })
  else if f32ltInt z.1 (-150) then (0, {})
  else match f32 z.1 with
    | .num m e =>
      let k := floorShift m e 0
      let t := f32sub z.1 (f32ofInt k)
      let (k, t) := if t.1 = cOne then (k + 1, ((0, t.2) : FV)) else (k, t)
      let j : Int := match f32 t.1 with | .num m e => floorShift m (e + 6) 0 | _ => 0
      let p := segEval .exp2 j 1 64 t.1
      scaleP2 (p.1, (z.2.or t.2).or p.2) k
    | _ => (cOne, z.2)

/-- SIGMOID of R196 for finite x. -/
def fnSigmoid (x : Nat) : FV :=
  let ax := f32abs x
  if belowSixteenth ax then f32fma x 0x3E800000 cHalf
  else if f32geInt x 16 then (cOne, {})
  else if !f32ltInt (f32neg x) 16 then fnExp x
  else
    let p := octaveEval .sigmoid ax
    if x < 2 ^ 31 then p else let r := f32sub cOne p.1; (r.1, p.2.or r.2)

/-- TANH of R196 for finite x. -/
def fnTanh (x : Nat) : FV :=
  let ax := f32abs x
  let sgn := if x < 2 ^ 31 then 0 else 2 ^ 31
  if belowSixteenth ax then
    let q := f32mul x x
    let q := FV.mul q 0xBEAAAAAB
    FV.fma q x x
  else if f32geInt ax 16 then (cOne + sgn, {})
  else let p := octaveEval .tanh ax; (p.1 % 2 ^ 31 + sgn, p.2)

/-- SILU, GELU, SOFTPLUS of R196 for finite x. -/
def fnSilu (x : Nat) : FV := let s := fnSigmoid x; let r := f32mul x s.1; (r.1, s.2.or r.2)

/-- TANH with its special inputs (R197), as GELU uses it on a value that may have overflowed. -/
def tanhAny (x : Nat) : FV :=
  match f32 x with
  | .inf n => (if n then cOne + 2 ^ 31 else cOne, {})
  | .zero _ => (x, {})
  | .nan n p => (quietNan .fp32 n p, { nan := true })
  | _ => fnTanh x

def fnGelu (x : Nat) : FV :=
  let w := f32mul x x
  let w := FV.fma w 0x3D372713 cOne
  let w := FV.mul w x
  let w := FV.mul w 0x3F4C422A
  let h := f32mul x cHalf
  let t := tanhAny w.1
  let r := f32fma h.1 t.1 h.1
  (r.1, ((w.2.or h.2).or t.2).or r.2)

def fnSoftplus (x : Nat) : FV :=
  let ax := f32abs x
  if belowSixteenth ax then
    let i := f32fma x 0x3E000000 cHalf
    let r := f32fma x i.1 0x3F317218
    (r.1, i.2.or r.2)
  else if f32geInt x 16 then (x, {})
  else if !f32ltInt (f32neg x) 16 then fnExp x
  else
    let p := octaveEval .softplus ax
    if x < 2 ^ 31 then p else FV.sub p ax

/-- LOG, RECIP, RSQRT, SQRT of R196 for finite x > 0 (RECIP: x ≠ 0). -/
def fnLog (x : Nat) : FV :=
  let s := sigOf x
  let j : Int := (s.2 / 2 ^ 17 % 64 : Nat)
  let m := encodeFinite .fp32 false s.2 (-23)
  let p := segEval .ln (64 + j) 1 64 m
  let r := f32fma (f32ofInt s.1) 0x3F317218 p.1
  (r.1, p.2.or r.2)

def fnRecip (x : Nat) : FV :=
  let s := sigOf x
  let j : Int := (s.2 / 2 ^ 17 % 64 : Nat)
  let m := encodeFinite .fp32 false s.2 (-23)
  let p := scaleP2 (segEval .recip (64 + j) 1 64 m) (-s.1)
  (if x < 2 ^ 31 then p.1 else f32neg p.1, p.2)

def fnRoot (g : RealFn) (sgn : Int) (x : Nat) : FV :=
  let s := sigOf x
  let odd := decide (s.1 % 2 ≠ 0)
  let m' := if odd then 2 * s.2 else s.2
  let e' := if odd then s.1 - 1 else s.1
  let j : Int := ((m' - 2 ^ 23) * 64 / 3 / 2 ^ 23 : Nat)
  let m := encodeFinite .fp32 false m' (-23)
  scaleP2 (segEval g (64 + 3 * j) 3 64 m) (sgn * (e' / 2))

/-- SIN and COS at the reduced argument t (R196, COSP of R303). -/
def fnSinAt (g : RealFn) (t : FV) : FV :=
  let j : Int := match f32 t.1 with
    | .num m e => min 63 (floorShift (addDy m e 1 (-1)).1 ((addDy m e 1 (-1)).2 + 6) 0)
    | _ => 32
  polyAt (segCoef g (j - 32) 1 64) (let r := f32sub t.1 (fxF32 (fx (j - 32) 64)); (r.1, t.2.or r.2))

def fnSin (g : RealFn) (x : Nat) : FV :=
  let z := f32mul x 0x3E22F983
  match f32 z.1 with
  | .num m e =>
    let n := f32ofInt (roundInt .rne m e)
    let t := f32sub z.1 n
    fnSinAt g (t.1, z.2.or t.2)
  | _ => fnSinAt g (0, z.2)

/-- Special inputs of R197: the result code when the input is not finite and non-zero, or is negative where the function
is not defined. -/
def fnSpecial (fn : Nat) (v : Val) : Option FV :=
  let nanR : FV := (0x7FC00000, { nan := true })
  let ninf := 0xFF800000
  let pinf := 0x7F800000
  match v with
  | .zero n =>
    let z := if n then 0x80000000 else 0
    match fn with
    | 1 => some (cHalf, {})
    | 5 => some (0x3F317218, {})
    | 6 => some (cOne, {})
    | 7 => some (ninf, {})
    | 8 => some (if n then ninf else pinf, {})
    | 9 => some (if n then ninf else pinf, {})
    | 12 => some (cOne, {})
    | _ => some (z, {})
  | .inf false =>
    match fn with
    | 1 => some (cOne, {})
    | 2 => some (cOne, {})
    | 8 => some (0, {})
    | 9 => some (0, {})
    | 11 => some nanR
    | 12 => some nanR
    | _ => some (pinf, {})
  | .inf true =>
    match fn with
    | 1 => some (0, {})
    | 2 => some (0xBF800000, {})
    | 3 => some (0x80000000, {})
    | 4 => some (0x80000000, {})
    | 5 => some (0, {})
    | 6 => some (0, {})
    | 8 => some (0x80000000, {})
    | _ => some nanR
  | .num m _ => if m < 0 ∧ (fn = 7 ∨ fn = 9 ∨ fn = 10) then some nanR else none
  | .nan _ _ => none

/-- A gate function of R196 on an FP32 code: the value the unit computes, before its destination (R194). -/
def gateFn (strict : Bool) (fn x : Nat) : FV :=
  let v := readVal strict .fp32 x
  match v with
  | .nan n p => (if strict then quietNan .fp32 n p else canonNan .fp32 false, { nan := true })
  | _ =>
    match fnSpecial fn v with
    | some r => r
    | none =>
      match fn with
      | 1 => fnSigmoid x
      | 2 => fnTanh x
      | 3 => fnSilu x
      | 4 => fnGelu x
      | 5 => fnSoftplus x
      | 6 => fnExp x
      | 7 => fnLog x
      | 8 => fnRecip x
      | 9 => fnRoot .rsqrt (-1) x
      | 10 => fnRoot .sqrt 1 x
      | 11 => fnSin .sin x
      | _ => fnSin .cos x

/-- The function's value written to an FP32 destination in the task's mode (R194): FAST writes a subnormal as signed zero
and sets UNF. -/
def gateFnF32 (strict : Bool) (fn x : Nat) : FV :=
  let r := gateFn strict fn x
  if !strict && isSubnormal .fp32 r.1 then (signBit .fp32 (decide (r.1 ≥ 2 ^ 31)), r.2.or { unf := true }) else r

end Sys2Proof.Machine
end

