-- ==== Sys2Proof/Machine/Kindling.lean ====
section
/-! DEFINITION. Machine/Kindling.lean: the reset inputs, the steps of kindling, keys, fuses and attestation (spec/18). -/

namespace Sys2Proof.Machine

/-! ### Reset inputs (R573 to R575) -/

/-- Kindling starts from its first step: everything but the fuses and the flash is as the Reset column gives it, and every
slice is KINDLING (R11, R21, R576). The count of free values goes on, so that no free value returns (entry 4). -/
def coldStart (free : Nat) : Dev :=
  { Dev.reset with
    free := free
    kindle := { Kindle.reset with powered := true, outputsHiZ := false }
    slices := (List.range 4).map (fun s => (s, { Slice.reset with state := .kindling })) }

/-- Loss of power (R573). -/
def powerOff (free : Nat) : Dev := { Dev.reset with free := free }

def execPwrGoodRise (s : State) : Host.Outcome State Fault Refusal :=
  onDev s (fun d => if d.kindle.powered then d else coldStart d.free)

def execPwrGoodFall (s : State) : Host.Outcome State Fault Refusal := onDev s (fun d => powerOff d.free)

def execBrdRstN (s : State) : Host.Outcome State Fault Refusal :=
  onDev s (fun d => if d.kindle.powered then coldStart d.free else d)

/-- PERST_N (R575): an assertion after local readiness acts as a Function Level Reset, and configuration requests are held
until the deassertion. -/
def perstD (asserted : Bool) (d : Dev) : Dev :=
  if !d.kindle.powered then d
  else if asserted then
    let d1 := { d with kindle := { d.kindle with linkTrained := false, crs := true } }
    if d.kindle.localReady then d1.functionReset else d1
  else
    { d with kindle := { d.kindle with linkTrained := true, crs := !(d.kindle.localReady || d.kindle.retryEnded) } }

def execPerstN (asserted : Bool) (s : State) : Host.Outcome State Fault Refusal := onDev s (perstD asserted)

/-- FUNCTION_LEVEL_RESET (R519). -/
def execFunctionLevelReset (s : State) : Host.Outcome State Fault Refusal :=
  onDev s (fun d => if d.kindle.localReady then d.functionReset else d)

/-! ### Steps of kindling (R576) -/

def execPllLock (s : State) : Host.Outcome State Fault Refusal :=
  onDev s (fun d => if d.kindle.powered then { d with kindle := { d.kindle with pllLocked := true } } else d)

/-- What a firmware slot holds (R586, R587). -/
def Vault.slotBytes (v : Vault) (slot : Nat) (off n : Nat) : Bytes := memRead v.flash (slot * 0x100000 + off) n

/-- FW_DIGEST of a slot (R588). -/
def Vault.fwDigest (v : Vault) (slot : Nat) : Bytes :=
  let h := v.slotBytes slot 0 4096
  sha3 (h.take 1376 ++ v.slotBytes slot 4096 (leAt h 12 4))

/-- The boot ROM's conditions (R587, R588). -/
def Vault.fwAccepts (v : Vault) (slot : Nat) : Bool :=
  let h := v.slotBytes slot 0 4096
  let key := sliceZ h 64 1312
  let vk := leAt h 9 1
  decide (leAt h 0 4 = 0x57465256) && zerosAt h 10 2 && zerosAt h 16 48 && zerosAt h 3796 300 && decide (leAt h 8 1 ≤ 63) &&
    decide (vk ≤ 3) && decide (1 ≤ leAt h 12 4) && decide (leAt h 12 4 ≤ 520192) &&
    sha3 key == v.vendor.getD vk [] && !(bit v.vendorRevoked vk) && decide (v.fwMin ≤ leAt h 8 1) &&
    mldsaVerify key (v.fwDigest slot) (sliceZ h 1376 2420)

/-- FIRMWARE_VERIFICATION (R578, R588): slot A, then slot B; links start to train. -/
def firmwareD (v : Vault) (d : Dev) : Dev :=
  if ¬ d.kindle.pllLocked ∨ d.kindle.fwDone then d
  else
    let take (slot : Nat) : Dev :=
      let h := v.slotBytes slot 0 16
      let d1 := { d with kindle := { d.kindle with
        fwDone := true
        fwOk := true
        fwSlotB := decide (slot = 1)
        fwVersion := leAt h 4 4
        fwSec := leAt h 8 1
        fwDigest := v.fwDigest slot } }
      (List.range 36).foldl (fun d l => d.trainLink l) d1
    if v.fwAccepts 0 then take 0
    else if v.fwAccepts 1 then take 1
    else
      let d1 := d.raise { code := 0x0B01, cls := clsDevice, corr := false }
      { d1 with
        kindle := { d1.kindle with fwDone := true, fwFail := true, faultN := false }
        err := { d1.err with halted := true } }

def execFirmwareVerification (s : State) : Host.Outcome State Fault Refusal := onDev s (firmwareD s.vault)

/-- FW_FAIL_RETRY_END (R578). -/
def execFwFailRetryEnd (s : State) : Host.Outcome State Fault Refusal :=
  onDev s (fun d => if d.kindle.fwFail then { d with kindle := { d.kindle with retryEnded := true, crs := false } } else d)

/-- Key k of the key block: image slots 0 to 3, F0, F1 (R586). -/
def Vault.blockKey (v : Vault) (k : Nat) : Bytes := memRead v.flash (0x200000 + k * 1312) 1312

/-- A slot is usable when it is enrolled, not revoked and its key has the fused digest (R589). -/
def Vault.slotUsable (v : Vault) (k : Nat) : Bool := match v.slots[k]? with
  | some f => f.enrolled && !f.revoked && sha3 (v.blockKey k) == f.digest
  | none => false

def Vault.usableMask (v : Vault) : Nat :=
  (List.range 6).foldl (fun m k => m + (if v.slotUsable k then 2 ^ k else 0)) 0

/-- The certificate that the device presents (R594). -/
def Trust.chooseCert (t : Trust) (v : Vault) : Bytes :=
  let f1 := memRead v.flash 0x211000 3796
  if bit t.usable 5 && decide (leAt f1 6 1 = 1) && t.certOk f1 && sliceZ f1 64 1312 == t.publicKey then f1
  else memRead v.flash 0x210000 3796

def Trust.withKeys (t : Trust) (v : Vault) : Trust :=
  let t1 := { t with
    usable := v.usableMask
    keys := (List.range 6).map v.blockKey
    publicKey := mldsaPublicKey v.seed }
  let cert := t1.chooseCert v
  { t1 with cert := cert, identity := sha3 cert }

/-- KEY_SLOT_CHECK (R589, R592). -/
def keySlotD (v : Vault) (d : Dev) : Dev :=
  if d.kindle.fwOk ∧ ¬ d.kindle.keysDone then
    { d with trust := d.trust.withKeys v, kindle := { d.kindle with keysDone := true } }
  else d

def execKeySlotCheck (s : State) : Host.Outcome State Fault Refusal := onDev s (keySlotD s.vault)

/-- CISTERN_TEST (R579): every bank zero; cores with a failing cell are retired with E_BIST. -/
def cisternTestD (failing : List Nat) (d : Dev) : Dev :=
  if ¬ d.kindle.fwOk ∨ d.kindle.bistDone then d
  else
    let d1 := { d with
      cores := mmap (fun _ x => { x with mem := [], roles := [], bad := [], maint := true }) d.cores
      kindle := { d.kindle with bistDone := true } }
    failing.eraseDups.foldl (fun d c =>
      (d.raise { code := 0x0B02, cls := clsCore, corr := false, kind := 0, unit := c }).retireCore c) d1

def execCisternTest (failing : List (Fin 256)) (s : State) : Host.Outcome State Fault Refusal :=
  onDev s (cisternTestD (failing.map (·.val)))

def Kindle.wellDone (k : Kindle) : Bool :=
  (List.range 8).all (fun c => bit k.wellOk c || bit k.wellFail c)

/-- WELL_TRAINING (R580): a channel that fails twice contains its slice, and its controller stops (R18). -/
def wellTrainingD (ch : Nat) (ok : Bool) (d : Dev) : Dev :=
  if ¬ d.kindle.fwOk ∨ bit d.kindle.wellOk ch ∨ bit d.kindle.wellFail ch then d
  else if ok then { d with kindle := { d.kindle with wellOk := d.kindle.wellOk + 2 ^ ch } }
  else if bit d.kindle.wellTried ch then
    let d1 := { d with kindle := { d.kindle with wellFail := d.kindle.wellFail + 2 ^ ch } }
    let d2 := d1.raise { code := 0x0B03, cls := clsSlice, corr := false, kind := 7, unit := ch }
    (d2.containSlice (ch / 2)).onSlice (ch / 2) (fun x => { x with ctlStopped := x.ctlStopped ||| 2 ^ (ch % 2) })
  else { d with kindle := { d.kindle with wellTried := d.kindle.wellTried + 2 ^ ch } }

def execWellTraining (ch : Fin 8) (ok : Bool) (s : State) : Host.Outcome State Fault Refusal :=
  onDev s (wellTrainingD ch.val ok)

/-- LOCAL_READINESS (R577, R579, R583, R599). -/
def localReadyD (ms : Nat) (d : Dev) : Dev :=
  let k := d.kindle
  if ¬ k.keysDone ∨ ¬ k.bistDone ∨ ¬ k.wellDone ∨ k.localReady then d
  else
    let d1 := { d with
      kindle := { k with localReady := true, localMs := ms, readyOut := true, crs := false }
      trust := { d.trust with nonce := drawNonce d.free }
      free := d.free + 1
      cores := (List.range 256).map (fun c => (c, { d.core c with maint := d.coreRetired c }))
      slices := mmap (fun _ x => if x.state == SliceState.kindling then { x with state := .ready } else x) d.slices }
    d1.advertise

def execLocalReadiness (ms : Nat) (s : State) : Host.Outcome State Fault Refusal := onDev s (localReadyD ms)

/-- WELL_ZEROING_DONE (R581): pages not yet written read zero already; ZEROED is set. -/
def execWellZeroingDone (s : State) : Host.Outcome State Fault Refusal :=
  onDev s (fun d => if d.kindle.fwOk && d.kindle.wellDone then { d with kindle := { d.kindle with zeroed := true } } else d)

/-! ### Key requests (R590, R591, R599 to R601) -/

/-- A mailbox's vector (R536, R600): IRQ_EN in bit 7, IRQ_VEC in bits 6 to 1. -/
def Dev.boxIrq (d : Dev) (ctl : Nat) : Dev := if d.regF ctl 7 1 = 1 then d.vector (d.regF ctl 1 6) else d

/-- VMC_KEY_GO: a request while one is BUSY is discarded and sets ERR to 1. -/
def keyGoD (d : Dev) : Dev :=
  if !d.kindle.localReady then d
  else if d.trust.keyState = 1 then { d with trust := { d.trust with keyErr := 1 } }
  else { d with trust := { d.trust with keyState := 1, keyErr := 0, keyAddr := d.reg 0x5020 / 4096 * 4096 } }

def execVmcKeyGo (s : State) : Host.Outcome State Fault Refusal := onDev s keyGoD

/-- The slot that a request names: image slots 0 to 3, fabric slots 4 and 5. -/
def reqSlot (op slot : Nat) : Nat := if op = 3 then 5 else if op = 4 then 4 + slot else slot

/-- ERR of a request (R591, R601): 0 accepts it, 8 stands for a malformed request, whose ERR the spec does not state. An enrolment into slot 0 that was never enrolled is signed by its own key. -/
def keyRequestErr (v : Vault) (d : Dev) (r : Bytes) : Nat :=
  let op := leAt r 0 1
  let slot := leAt r 1 1
  let k := reqSlot op slot
  let fuse := v.slots.getD k ⟨[], false, false⟩
  let slot0 := v.slots.getD 0 ⟨[], false, false⟩
  let key := sliceZ r 80 1312
  let msg := sha3 (r.take 1392)
  let sig := sliceZ r 1392 2420
  let signer := if op = 1 ∧ slot = 0 ∧ !slot0.enrolled then some key
    else if bit d.trust.usable 0 && slot0.enrolled && !slot0.revoked then some (d.trust.keys.getD 0 []) else none
  let formOk := decide (r.length = 3812) && decide (1 ≤ op) && decide (op ≤ 5) && zerosAt r 3 13 &&
    (if op = 1 ∨ op = 2 then decide (slot ≤ 3) else if op = 4 then decide (slot ≤ 1) else true) &&
    (if op = 1 ∨ op = 3 then true else zerosAt r 80 1312)
  if d.anyLoaded then 2
  else if sliceZ r 16 32 ≠ d.trust.identity ∨ sliceZ r 48 32 ≠ d.trust.nonce then 3
  else if !(match signer with | some p => mldsaVerify p msg sig | none => false) then 4
  else if !formOk then 8
  else if (op = 1 ∨ op = 3) ∧ fuse.enrolled then 5
  else if (op = 2 ∨ op = 4) ∧ (fuse.revoked ∨ !fuse.enrolled) then 5
  else if op = 5 ∧ (leAt r 2 1 ≤ v.fwMin ∨ 63 < leAt r 2 1) then 6
  else 0

/-- The fuses and the key block after an accepted request. -/
def Vault.apply (v : Vault) (r : Bytes) : Vault :=
  let op := leAt r 0 1
  let k := reqSlot op (leAt r 1 1)
  let key := sliceZ r 80 1312
  if op = 1 ∨ op = 3 then
    { v with
      slots := lset v.slots k (fun _ => ⟨sha3 key, true, false⟩)
      flash := memWrite v.flash (0x200000 + k * 1312) key }
  else if op = 2 ∨ op = 4 then { v with slots := lset v.slots k (fun f => { f with revoked := true }) }
  else { v with fwMin := leAt r 2 1 }

/-- KEY_REQUEST_COMPLETE (R591): the fuses are blown, the change is effective at once and a new nonce is drawn, or the request
ends in ERROR; `none` is a request that cannot be reached. -/
def keyCompleteS (request : Option Bytes) (s : State) : State :=
  let d := s.dev
  if d.trust.keyState ≠ 1 then s
  else
    let err := match request with
      | some r => keyRequestErr s.vault d r
      | none => 7
    match err, request with
    | 0, some r =>
      let v := s.vault.apply r
      let t := { d.trust.withKeys v with keyState := 2, keyErr := 0, keyEv := true, nonce := drawNonce d.free }
      { s with vault := v, dev := ({ d with trust := t, free := d.free + 1 }).boxIrq 0x5028 }
    | e, _ =>
      let (v, d') := if e = 8 then d.freeVal 1 else (e, d)
      { s with dev := ({ d' with trust := { d'.trust with keyState := 3, keyErr := v % 256, keyEv := true } }).boxIrq 0x5028 }

def execKeyRequestComplete (request : Option Bytes) (s : State) : Host.Outcome State Fault Refusal :=
  .next (keyCompleteS request s)

/-! ### Attestation (R536, R537, R595 to R597) -/

/-- GLB_ID (R14). -/
def glbId : Nat := 0x0000400440964600 + 0xA1

/-- HQ_ATT_GO. -/
def attGoD (d : Dev) : Dev :=
  if !d.kindle.localReady then d
  else if d.trust.attState = 1 then { d with trust := { d.trust with attErr := 1 } }
  else { d with trust := { d.trust with attState := 1, attErr := 0 } }

def execHqAttGo (s : State) : Host.Outcome State Fault Refusal := onDev s attGoD

/-- A job's state code (R87). -/
def JobState.code : JobState → Nat
  | .empty => 0 | .loading => 1 | .staged => 2 | .active => 3 | .stopping => 4 | .stopped => 5 | .killed => 6

/-- A job entry of a report (R597). -/
def attJob (j : Nat) (x : Job) : Bytes :=
  if x.state == .empty then leBytes 64 j
  else
    match x.img with
    | some i => leBytes 1 j ++ leBytes 1 x.state.code ++ leBytes 6 0 ++ leBytes 8 i.compileId ++ leBytes 8 (x.actRound.getD 0) ++
        sliceZ i.digest 0 32 ++ leBytes 2 i.keySlot ++ leBytes 2 i.deviceIndex ++ leBytes 4 0
    | none => leBytes 1 j ++ leBytes 1 x.state.code ++ leBytes 62 0

def Vault.fuseWord (v : Vault) : Nat :=
  (v.slots.zipIdx.foldl (fun m p => m + (if p.1.enrolled then 2 ^ p.2 else 0) + (if p.1.revoked then 2 ^ (6 + p.2) else 0)) 0) +
    v.vendorRevoked % 16 * 2 ^ 12

/-- The report without its signature (R595). -/
def attBody (v : Vault) (d : Dev) : Bytes :=
  leBytes 4 0x54544148 ++ leBytes 2 1 ++ leBytes 2 0 ++ leBytes 4 7628 ++ leBytes 4 0 ++
    ((List.range 4).flatMap (fun k => leBytes 8 (d.reg (0x101200 + k * 8)))) ++
    leBytes 8 (if d.tb.aligned then d.tb.now else 0) ++ leBytes 8 d.log.digestRound ++ leBytes 8 glbId ++
    sliceZ d.kindle.fwDigest 0 32 ++ leBytes 1 d.kindle.fwSlotB.toNat ++ leBytes 1 d.kindle.fwSec ++ leBytes 1 v.fwMin ++
    leBytes 1 0 ++ leBytes 4 d.kindle.fwVersion ++ sliceZ d.log.digest 0 32 ++
    (v.slots.take 4).flatMap (fun f => if f.enrolled then sliceZ f.digest 0 32 else zeros 32) ++
    (v.slots.drop 4).flatMap (fun f => sliceZ f.digest 0 32) ++ leBytes 8 v.fuseWord ++ leBytes 8 0 ++
    leBytes 32 d.err.retired ++ (List.range 16).flatMap (fun j => attJob j (d.job j)) ++ sliceZ d.trust.cert 0 3796 ++ leBytes 4 0

/-- ATTESTATION_REPORT (R537, R595): DONE with the signed report in the host's buffer, or ERROR; the 32 random bytes of the signature are a
free value (entry 4). No identity is enrolled when the flash holds no certificate. -/
def attReportD (v : Vault) (reachable : Bool) (d : Dev) : Dev :=
  if d.trust.attState ≠ 1 then d
  else if leAt d.trust.cert 0 4 ≠ 0x54524348 then
    ({ d with trust := { d.trust with attState := 3, attErr := 3, attEv := true } }).boxIrq 0x101228
  else if !reachable then
    ({ d with trust := { d.trust with attState := 3, attErr := 2, attEv := true } }).boxIrq 0x101228
  else
    let body := attBody v d
    let report := body ++ sliceZ (mldsaSign v.seed (drawNonce d.free) (sha3 body)) 0 2420
    (({ d with free := d.free + 1, trust := { d.trust with attState := 2, attErr := 0, attEv := true, attLen := 7628 } }).emit
      (.report (d.reg 0x101220 / 4096 * 4096) report)).boxIrq 0x101228

def execAttestationReport (reachable : Bool) (s : State) : Host.Outcome State Fault Refusal :=
  onDev s (attReportD s.vault reachable)

end Sys2Proof.Machine
end

