-- ==== Sys2Proof/Machine/Registers.lean ====
section
/-! DEFINITION. Machine/Registers.lean: host writes of BAR0 (R6 to R12, R88 to R94): the writable fields, their blocks'
running conditions, and the one generic write. -/

namespace Sys2Proof.Machine

/-! ### Writable fields -/

/-- Access codes of R9 that a host write can act on. -/
inductive Acc where
  | rw | w1c | wo
  deriving DecidableEq, Repr

/-- Change classes (R11). -/
inductive Cls where
  | s | l | d
  deriving DecidableEq, Repr

/-- A writable field: place, access, class and range. -/
structure Field where
  lo : Nat
  n : Nat
  acc : Acc
  cls : Cls
  min : Nat := 0
  max : Nat := 2 ^ 64
  deriving DecidableEq, Repr

def rwL (lo n : Nat) : Field := { lo := lo, n := n, acc := .rw, cls := .l }
def rwS (lo n : Nat) : Field := { lo := lo, n := n, acc := .rw, cls := .s }
def rwD (lo n : Nat) : Field := { lo := lo, n := n, acc := .rw, cls := .d }
def w1c (lo : Nat) : Field := { lo := lo, n := 1, acc := .w1c, cls := .d }
def wo (lo : Nat) : Field := { lo := lo, n := 1, acc := .wo, cls := .d }

/-- PMP_REG (R437). -/
def pmpFields : List Field := [{ rwS 0 12 with min := 1 }, { rwS 16 16 with min := 4 }]

/-- Which block an offset lies in. -/
inductive Blk where
  | glob (off : Nat)
  | host (off : Nat)
  | link (l off : Nat)
  | port (p off : Nat)
  | slice (s off : Nat)
  | core (c off : Nat)
  | none
  deriving DecidableEq, Repr

/-- The address map (R13). -/
def blkOf (off : Nat) : Blk :=
  if off < 0x100000 then .glob off
  else if off < 0x200000 then .host (off - 0x100000)
  else if off < 0x440000 then .link ((off - 0x200000) / 0x10000) ((off - 0x200000) % 0x10000)
  else if off < 0x600000 then .none
  else if off < 0x700000 then .port ((off - 0x600000) / 0x10000) ((off - 0x600000) % 0x10000)
  else if off < 0x800000 then .none
  else if off < 0x2800000 then
    let s := (off - 0x800000) / 0x800000
    let o := (off - 0x800000) % 0x800000
    if o < 0x100000 then .slice s o
    else if o < 0x500000 then .core (s * 64 + (o - 0x100000) / 0x10000) ((o - 0x100000) % 0x10000)
    else .none
  else .none

/-- Kind and number of the host ring whose register lies at a host-block offset (R524). -/
def ringAt (o : Nat) : Option (Nat × Nat) :=
  if o < 0x200 then some (0, o / 0x20)
  else if o < 0x400 then some (1, (o - 0x200) / 0x20)
  else if o < 0x800 then some (2, (o - 0x400) / 0x20)
  else if o < 0xC00 then some (3, (o - 0x800) / 0x20)
  else none

/-- The writable fields of the register at an offset; a register with none, or no register, has an empty list (R8, R9). -/
def fieldsAt (off : Nat) : List Field :=
  match blkOf off with
  | .glob o =>
    if o = 0x1008 then [{ rwL 0 7 with min := 2, max := 80 }, { rwL 8 16 with min := 40, max := 2000 }]
    else if o = 0x3010 then [rwL 12 36]
    else if o = 0x3018 then [{ rwL 0 32 with min := 16384, max := 16777216 }]
    else if o = 0x3028 then [rwD 0 64]
    else if o = 0x5020 then [rwL 12 52]
    else if o = 0x5028 then [wo 0, rwL 1 6, rwS 7 1]
    else if o = 0x5030 then [w1c 2]
    else if o = 0x6000 then [rwS 0 1, rwL 1 6, rwS 7 1, rwS 8 3]
    else if o = 0x6008 then [w1c 0]
    else if o = 0x6018 then [rwD 0 64]
    else if o = 0x7000 then
      [{ rwS 0 10 with min := 200, max := 450 }, { rwS 10 7 with min := 85, max := 105 }, rwS 17 1, rwL 18 6]
    else if o = 0x7008 then [w1c 48]
    else []
  | .host o =>
    if o < 0xC00 then
      if o % 0x20 = 0 then [rwL 12 52]
      else if o % 0x20 = 8 then
        [rwL 0 1, rwL 1 4, rwL 12 1, rwL 16 8, rwL 24 8, rwL 32 8, rwL 40 3, rwL 48 6, rwS 54 1, rwS 56 8]
      else if o % 0x20 = 0x10 then [rwD 0 32]
      else []
    else if 0x1000 ≤ o ∧ o < 0x1100 then [rwL 0 1, rwL 8 8, rwL 16 4]
    else if o = 0x1100 then [rwL 0 10]
    else if o = 0x1108 then [rwL 12 52]
    else if o = 0x1110 then [rwL 12 36]
    else if 0x1200 ≤ o ∧ o < 0x1220 then [rwL 0 64]
    else if o = 0x1220 then [rwL 12 52]
    else if o = 0x1228 then [wo 0, rwL 1 6, rwS 7 1]
    else if o = 0x1230 then [w1c 2]
    else if 0xF0000 ≤ o ∧ o < 0xF0400 then if o % 16 = 8 then [rwD 0 32, rwD 32 1] else [rwD 2 62]
    else []
  | .link l o =>
    if 36 ≤ l then []
    else if o = 0 then [rwL 0 1, rwS 8 1, rwL 9 6]
    else if o = 8 then [w1c 48, w1c 49]
    else if o = 0x100 then pmpFields
    else []
  | .port _ o =>
    if o = 0 then
      [rwL 0 1, rwL 1 2, rwL 3 2, rwL 5 7, rwL 12 1, rwL 13 1, rwL 14 1, rwL 15 1, rwL 16 1, rwL 17 1, rwS 24 1, rwL 25 6]
    else if o = 8 then [w1c 8, w1c 9, w1c 10, w1c 11, w1c 12]
    else []
  | .slice _ o => if o = 0x3000 ∨ o = 0x3020 ∨ o = 0x3040 ∨ o = 0x3060 then pmpFields else []
  | .core _ o =>
    if 0x100 ≤ o ∧ o < 0x200 then
      if o % 0x20 = 0 then [rwS 2 1, rwL 3 6] else if o % 0x20 = 8 then [wo 32] else []
    else if 0x200 ≤ o ∧ o < 0x240 then [w1c 0, w1c 1, w1c 2, w1c 3]
    else if 0x280 ≤ o ∧ o < 0x380 then if o % 0x20 = 0 then [w1c 63] else []
    else if o = 0xC00 then [wo 0]
    else if o = 0xE00 then pmpFields
    else if o = 0x1828 then [wo 32]
    else []
  | .none => []

/-! ### Running conditions (R90, R94) -/

/-- A slot ring's fields (R64). -/
def srRing (r : Rec) : Nat := fld r 0 2
def srCore (r : Rec) : Nat := fld r 2 2
def srFirst (r : Rec) : Nat := fld r 4 2
def srSlots (r : Rec) : Nat := fld r 6 2
def srBytes (r : Rec) : Nat := fld r 8 4
def srBase (r : Rec) : Nat := fld r 12 4
def srElastic (r : Rec) : Bool := fld r 16 1 == 1
def srBudget (r : Rec) : Nat := fld r 17 1
def srSource (r : Rec) : Nat := fld r 18 1
def srTask (r : Rec) : Nat := fld r 19 1
def srProducer (r : Rec) : Nat := fld r 20 4
def srConsumer (r : Rec) : Nat := fld r 24 4

/-- A loaded job uses the block of a register. -/
def Dev.jobUses (d : Dev) (j : Nat) (job : Job) (off : Nat) : Bool :=
  match job.img with
  | none => false
  | some i =>
    match blkOf off with
    | .glob o => o = 0x1008 ∨ o = 0x3010 ∨ o = 0x3018 ∨ o = 0x6000 ∨ o = 0x7000
    | .host o =>
      match ringAt o with
      | some (1, n) => n == j
      | some (2, n) => i.rings.any (fun r => srSource r == 3 && srProducer r == n)
      | some (3, n) =>
        let cfg := ringOff 3 n + 8
        i.tasks.contains (d.regF cfg 32 8, d.regF cfg 40 3)
      | some _ => false
      | none =>
        if 0x1000 ≤ o ∧ o < 0x1100 then
          let m := d.reg (0x100000 + o)
          i.windows.any (fun w => fld w 0 2 == bits m 8 8 && fld w 2 1 == bits m 16 4)
        else if o = 0x1108 ∨ o = 0x1110 then !(i.spaceRanges 2).isEmpty
        else false
    | .link l _ => i.routes.any (fun r => fld r 0 1 == 2 && (fld r 4 1 == l || fld r 5 1 == l))
    | .port p _ => i.routes.any (fun r => fld r 0 1 == 4 && fld r 1 1 == p)
    | .slice s _ => i.tasks.any (fun p => p.1 / 64 == s)
    | .core c _ => i.tasks.any (fun p => p.1 == c)
    | .none => false

/-- The owning block of an L-class field runs. -/
def Dev.blockRuns (d : Dev) (off : Nat) : Bool :=
  match blkOf off with
  | .glob o => if o = 0x5020 ∨ o = 0x5028 then d.trust.keyState == 1 else d.anyLoaded
  | .host o =>
    match ringAt o with
    | some (0, n) => (d.ring (ringKey 0 n)).hostIdx != (d.ring (ringKey 0 n)).devIdx
    | some (3, n) => (d.task (d.regF (ringOff 3 n + 8) 32 8) (d.regF (ringOff 3 n + 8) 40 3)).state != .none
    | some _ => d.jobs.any (fun p => p.2.loaded && d.jobUses p.1 p.2 off)
    | none =>
      if o = 0x1100 then false
      else if 0x1200 ≤ o ∧ o ≤ 0x1230 then d.trust.attState == 1
      else d.jobs.any (fun p => p.2.loaded && d.jobUses p.1 p.2 off)
  | _ => d.jobs.any (fun p => p.2.loaded && d.jobUses p.1 p.2 off)

/-- A job between LOADING and activation uses the block (R94). -/
def Dev.loadingUses (d : Dev) (off : Nat) : Bool :=
  d.jobs.any (fun p => (p.2.state == .loading || p.2.state == .staged) && d.jobUses p.1 p.2 off)

/-! ### Effects of single fields -/

/-- Ports: enabling starts framing anew from sequence number 0 (R457, R468). -/
def Dev.portEnable (d : Dev) (p : Nat) (was now : Bool) : Dev :=
  if was = now then d
  else if now then d.onPort p (fun x => { Port.reset with state := 1, ev := x.ev, routes := x.routes })
  else d.onPort p (fun x => { x with state := 0, opened := [] })

/-- The decision-log ring is set anew (R342, R596). -/
def Dev.setLogRing (d : Dev) : Dev :=
  { d with log := { LogBlock.reset with round := d.log.round } }

/-- An accepted write of ROUND_LEN (R42). -/
def Dev.acceptRoundLen (d : Dev) (v : Nat) : Dev :=
  let d1 := d.putField 0x1008 0 7 v
  if !d1.tb.aligned then { d1 with tb := { d1.tb with lenHalf := v } }
  else if d1.fabric.state = 0 then
    let nc := max (d1.tb.firstFrom (d1.tb.now + 1000000)) (d1.tb.nextMark)
    { d1 with tb := { d1.tb with changes := [(nc, v)] } }
  else ({ d1 with fabric := { d1.fabric with roundLenOut := true } }).send (.roundLen v)

/-- A value takes effect in a field. -/
def Dev.takeField (d : Dev) (off : Nat) (f : Field) (v : Nat) : Dev :=
  let d1 := d.putField off f.lo f.n v
  match blkOf off with
  | .glob o =>
    if o = 0x1008 ∧ f.lo = 0 then d.acceptRoundLen v
    else if o = 0x3010 ∨ o = 0x3018 then d1.setLogRing
    else d1
  | .port p o => if o = 0 ∧ f.lo = 0 then d1.portEnable p (d.regF off 0 1 = 1) (v = 1) else d1
  | .link l o => if o = 0 ∧ f.lo = 0 then linkEnableD l (v = 1) d else d1
  | _ => d1

/-- VMC_LOG_TAIL (R342). -/
def logTailD (v : Nat) (d : Dev) : Dev :=
  if v < d.log.tail ∨ d.log.head < v then d.raise recCfgRange else { d with log := { d.log with tail := v } }

/-- ERR_TAIL (R570). -/
def errTailD (v : Nat) (d : Dev) : Dev :=
  if v < d.err.tail ∨ d.err.head < v then d.raise recCfgRange else { d with err := { d.err with tail := v } }

/-- HOSTIDX of a ring (R526): the produced − consumed count must lie between 0 and the number of entries. -/
def hostIdxD (kind n v : Nat) (d : Dev) : Dev :=
  let r := d.ring (ringKey kind n)
  let v := v % 2 ^ 32
  let count := if kind = 0 ∨ kind = 2 then sub32 v r.devIdx else sub32 r.devIdx v
  if d.ringEntries kind n < count then d.raise recCfgRange
  else
    let stamp := if d.tb.aligned then d.tb.now else 0
    d.onRing (ringKey kind n) (fun x =>
      { x with
        hostIdx := v
        stamps := if kind = 0 ∨ kind = 2 then
            if v = x.hostIdx then x.stamps else x.stamps ++ [(v, stamp)]
          else x.stamps })

def ovrClrD (c t : Nat) (d : Dev) : Dev := d.onTask c t (fun k => { k with ovrCnt := 0 })
def cisScrubClrD (c : Nat) (d : Dev) : Dev := d.onCore c (fun x => { x with denied := 0 })
/-- STPEAK_CLR requests a clear of every entry at the next mark (R230). -/
def stpeakClrD (c : Nat) (d : Dev) : Dev := d.onCore c (fun x => { x with stpeakClr := true })

/-- A D-class value or acknowledgement (R93). -/
def Dev.dClass (d : Dev) (off : Nat) (f : Field) (v : Nat) : Dev :=
  match blkOf off with
  | .glob o =>
    if o = 0x3028 then logTailD v d
    else if o = 0x6018 then errTailD v d
    else if v = 0 then d
    else if o = 0x5028 then keyGoD d
    else if o = 0x5030 then { d with trust := { d.trust with keyEv := false } }
    else if o = 0x6008 then { d with err := { d.err with ovf := false } }
    else if o = 0x7008 then { d with gov := { d.gov with lvlEv := false } }
    else d
  | .host o =>
    if o < 0xC00 then
      match ringAt o with
      | some (kind, n) => hostIdxD kind n v d
      | none => d
    else if 0xF0000 ≤ o then
      let d1 := d.putField off f.lo f.n v
      if f.lo = 32 ∧ v = 0 then d1.unmask ((o - 0xF0000) / 16) else d1
    else if v = 0 then d
    else if o = 0x1228 then attGoD d
    else if o = 0x1230 then { d with trust := { d.trust with attEv := false } }
    else d
  | .link l _ =>
    if v = 0 then d
    else if f.lo = 48 then d.onLink l (fun x => { x with downEv := false })
    else d.onLink l (fun x => { x with idEv := false })
  | .port p _ => if v = 0 then d else d.onPort p (fun x => { x with ev := putBits x.ev f.lo 1 0 })
  | .core c o =>
    if v = 0 then d
    else if o = 0xC00 then stpeakClrD c d
    else if o = 0x1828 then cisScrubClrD c d
    else if o < 0x200 then ovrClrD c ((o - 0x100) / 0x20) d
    else if o < 0x240 then d.onTask c ((o - 0x200) / 8) (fun k =>
      { k with flags := { k.flags with
          nan := k.flags.nan && f.lo != 0
          ovf := k.flags.ovf && f.lo != 1
          unf := k.flags.unf && f.lo != 2
          sat := k.flags.sat && f.lo != 3 } })
    else d.onTask c ((o - 0x280) / 0x20) (fun k => { k with trapA := putBits k.trapA 63 1 0 })
  | _ => d

/-! ### The generic write -/

/-- What a write has met so far: the state, a broken range, a refused field. -/
structure WriteAcc where
  d : Dev
  range : Bool
  locked : Bool

/-- One field of a write (R88): `v` is its merged value, `was` the state before the write, by which every field of it is judged. Range
first, then R94, then the change class (R91 to R93); a value equal to the current one has no effect. -/
def writeField (was : Dev) (off : Nat) (v : Nat) (f : Field) (a : WriteAcc) : WriteAcc :=
  match f.acc with
  | .rw =>
    if v < f.min ∨ f.max < v then { a with range := true }
    else
      match f.cls with
      | .d => { a with d := a.d.dClass off f v }
      | .s =>
        if was.loadingUses off then
          if v = bits (was.shadowReg off) f.lo f.n then a else { a with locked := true }
        else
          { a with d := { a.d with shadow := mset a.d.shadow off (BitVec.ofNat 64 (putBits (a.d.shadowReg off) f.lo f.n v)) } }
      | .l =>
        if v = was.regF off f.lo f.n then a
        -- GO in the same write has started the block (R92)
        else if was.blockRuns off || was.loadingUses off || a.d.blockRuns off then { a with locked := true }
        else { a with d := a.d.takeField off f v }
  | .w1c => { a with d := a.d.dClass off f v }
  | .wo => { a with d := a.d.dClass off f v }

/-- Whether a write of n bytes at byte b of the register touches a field. -/
def Field.touched (f : Field) (b n : Nat) : Bool := decide (f.lo < 8 * (b + n)) && decide (8 * b < f.lo + f.n)

/-- The written bits in the written half, the current bits elsewhere (R7); acknowledgements have no current bits. -/
def mergeField (cur : Nat) (f : Field) (b n v : Nat) : Nat :=
  let base := match f.acc with
    | .rw => cur
    | _ => 0
  bits (putBits base (8 * b) (8 * n) v) f.lo f.n

/-- Frame rate code to Hz (R467). -/
def tdmHz (c : Nat) : Nat := if c = 0 then 8000 else if c = 1 then 16000 else if c = 2 then 32000 else 48000

/-- R445: frame rate × SLOTS × WIDTH of a TDM_CTL value lies within 49.152 MHz. -/
def tdmRateOk (w : Nat) : Bool := decide (tdmHz (bits w 1 2) * (bits w 5 7 + 1) * (8 * (bits w 3 2 + 1)) ≤ 49152000)

/-- The current value of a field of an RW register: its shadow for an S-class field (R91), the stored index of a ring or
tail for a doorbell. -/
def Dev.curWord (d : Dev) (off : Nat) : Nat :=
  match blkOf off with
  | .glob o => if o = 0x3028 then d.log.tail else if o = 0x6018 then d.err.tail else d.shadowReg off
  | .host o =>
    if o < 0xC00 ∧ o % 0x20 = 0x10 then
      match ringAt o with
      | some (kind, n) => (d.ring (ringKey kind n)).hostIdx
      | none => 0
    else d.shadowReg off
  | _ => d.shadowReg off

/-- Offsets that still answer once firmware verification has failed (R578): ERR_STAT is the one with a writable bit. -/
def failAnswers (off : Nat) : Bool := off / 8 * 8 == 0x6008

/-- BAR0 reaches the device (R577, R578). -/
def Dev.bar0Open (d : Dev) (off : Nat) : Bool := d.kindle.localReady || (d.kindle.retryEnded && failAnswers off)

/-- A host write of BAR0 (R7, R8, R88). One of a wrong size or alignment is reported, at an offset without a register too (DEDUCED, entry 26). -/
def registerWriteD (off : Nat) (data : Bytes) (d : Dev) : Dev :=
  let n := data.length
  if !d.bar0Open off then d
  else if !((n == 8 && off % 8 == 0) || (n == 4 && off % 4 == 0)) then d.raise recHostAccess
  else
    let reg := off / 8 * 8
    let b := off % 8
    let v := leNat data
    let fs := (fieldsAt reg).filter (fun f => f.touched b n)
    let cur := d.curWord reg
    let tdmBad := match blkOf reg with
      | .port _ 0 => !(tdmRateOk (putBits cur (8 * b) (8 * n) v))
      | _ => false
    if tdmBad then d.raise recCfgRange
    else
      let a := fs.foldl (fun a f => writeField d reg (mergeField cur f b n v) f a) { d := d, range := false, locked := false }
      -- a write that breaks a range rule is discarded whole, with that record alone (R92)
      if a.range then d.raise recCfgRange
      else if a.locked then a.d.raise (recCfgLocked reg (v <<< (8 * b)))
      else a.d

/-- Shadows take effect at R33 step 2, but for those that `keep` names (R36: blocks of a task in overrun). -/
def Dev.applyShadows (d : Dev) (keep : Nat → Bool) : Dev :=
  { d with
    regs := (d.shadow.filter (fun p => !(keep p.1))).foldl (fun m p => mset m p.1 p.2) d.regs
    shadow := d.shadow.filter (fun p => keep p.1) }

/-! ### Meanings -/

/-- A host access that reaches the device only after local readiness (R577). -/
def onHost (s : State) (f : Dev → Dev) : Host.Outcome State Fault Refusal :=
  onDev s (fun d => if d.kindle.localReady then f d else d)

def execRegisterWrite (off : Nat) (data : Bytes) (s : State) : Host.Outcome State Fault Refusal :=
  onDev s (registerWriteD off data)

/-- ROUND_LEN_WRITE: the field [6:0] of TIM_ROUND_CFG (R38, R42, R92). -/
def roundLenWriteD (v now : Nat) (d : Dev) : Dev :=
  let d := d.at_ now
  let a := writeField d 0x1008 v { rwL 0 7 with min := 2, max := 80 } { d := d, range := false, locked := false }
  let d1 := if a.range then a.d.raise recCfgRange else a.d
  if a.locked then d1.raise (recCfgLocked 0x1008 (putBits (d.reg 0x1008) 0 7 v)) else d1

def execRoundLenWrite (v now : Nat) (s : State) : Host.Outcome State Fault Refusal := onHost s (roundLenWriteD v now)

def execVmcLogTailWrite (v : Nat) (s : State) : Host.Outcome State Fault Refusal := onHost s (logTailD v)

def execErrTailWrite (v : Nat) (s : State) : Host.Outcome State Fault Refusal := onHost s (errTailD v)

def execOvrClr (c : Fin 256) (t : Fin 8) (s : State) : Host.Outcome State Fault Refusal := onHost s (ovrClrD c.val t.val)

def execCisScrubClr (c : Fin 256) (s : State) : Host.Outcome State Fault Refusal := onHost s (cisScrubClrD c.val)

def execStpeakClr (c : Fin 256) (s : State) : Host.Outcome State Fault Refusal := onHost s (stpeakClrD c.val)

def execSqDoorbell (ring : Fin 16) (idx now : Nat) (s : State) : Host.Outcome State Fault Refusal :=
  onHost s (fun d => hostIdxD 0 ring.val idx (d.at_ now))

def execIqDoorbell (ring : Fin 32) (idx now : Nat) (s : State) : Host.Outcome State Fault Refusal :=
  onHost s (fun d => hostIdxD 2 ring.val idx (d.at_ now))

/-- Completion rings number 0 to 15, result rings 0 to 31 (R524). -/
def execRingHostidxConsume (result : Bool) (ring : Fin 32) (idx : Nat) (s : State) : Host.Outcome State Fault Refusal :=
  onHost s (fun d => if result then hostIdxD 3 ring.val idx d else if ring.val < 16 then hostIdxD 1 ring.val idx d else d)

end Sys2Proof.Machine
end

