-- ==== Sys2Proof/Machine/HostPort.lean ====
section
/-! DEFINITION. Machine/HostPort.lean: the host rings' fetches, backlogs and interrupts (R524 to R528, R535), and the BAR2 and
BAR4 apertures (R388, R389, R520 to R522). -/

namespace Sys2Proof.Machine

/-! ### Fetching records -/

/-- The stamp of the record at an index: that of the first doorbell whose new index lies beyond it (R526). -/
def stampOf (stamps : List (Nat × Nat)) (idx : Nat) : Nat :=
  match stamps.find? (fun p => decide (1 ≤ sub32 p.1 idx) && decide (sub32 p.1 idx < 2 ^ 31)) with
  | some p => p.2
  | none => 0

/-- Bytes of an intake record's payload: COUNT tokens of 4 bytes, codes of 1 or samples of 2 (R531). -/
def intakeBytes (r : Bytes) : Nat :=
  min (leAt r 4 4) 65536 * (if bit (leAt r 2 1) 1 then 4 else if leAt r 3 1 ≤ 1 then 1 else 2)

/-- RING_RECORD_FETCH (R526): the record and its payload enter the crossing queue and DEVIDX advances. -/
def ringFetchD (intake : Bool) (n : Nat) (record payload : Bytes) (now : Nat) (d : Dev) : Dev :=
  let kind := if intake then 2 else 0
  let d := d.at_ now
  let r := d.ring (ringKey kind n)
  if !d.ringEn kind n ∨ r.hostIdx = r.devIdx ∨ (kind = 0 ∧ 16 ≤ n) then d
  else
    let stamp := stampOf r.stamps r.devIdx
    let record := sliceZ record 0 64
    let payload := sliceZ payload 0 (intakeBytes record)
    let data : Cross := if intake then .intake (sliceZ record 0 32) payload else .submission (sliceZ record 0 64)
    let len := if intake then 32 + payload.length else 64
    let it : CrossItem := { stamp := stamp, present := now, seq := r.devIdx, len := len, late := false, taken := false, data := data }
    let d1 := d.onRing (ringKey kind n) (fun x =>
      { x with
        devIdx := (x.devIdx + 1) % 2 ^ 32
        stamps := x.stamps.filter (fun p => decide (p.1 ≠ (x.devIdx + 1) % 2 ^ 32)) })
    let d2 := d1.onCross (srcKey (if intake then 1 else 2) n) (fun q => { q with items := q.items ++ [it] })
    d2.ringIrq kind n

def execRingRecordFetch (intake : Bool) (ring : Fin 32) (record payload : Bytes) (now : Nat) (s : State) :
    Host.Outcome State Fault Refusal := onHost s (ringFetchD intake ring.val record payload now)

/-- RESULT_BACKLOG_DRAIN (R535): the oldest waiting record goes out once its ring has room. -/
def backlogDrainD (kind n : Nat) (d : Dev) : Dev :=
  match (d.ring (ringKey kind n)).backlog with
  | [] => d
  | b :: rest =>
    if (kind = 1 ∨ kind = 3) ∧ d.ringRoom kind n then
      (d.onRing (ringKey kind n) (fun x => { x with backlog := rest })).writeEntry kind n b
    else d

def execResultBacklogDrain (kind : RingKind) (ring : Fin 32) (s : State) : Host.Outcome State Fault Refusal :=
  onHost s (backlogDrainD (ringCode kind) ring.val)

/-- RING_IRQ_HOLDOFF (R527): events during the holdoff raise one interrupt at its end, which starts the next. -/
def irqHoldoffD (kind n now : Nat) (d : Dev) : Dev :=
  let d := d.at_ now
  let r := d.ring (ringKey kind n)
  let cfg := ringOff kind n + 8
  if !r.holding ∨ now < r.lastIrq + d.regF cfg 56 8 * 1000 then d
  else if r.irqPending then
    (d.onRing (ringKey kind n) (fun x => { x with irqPending := false, lastIrq := now })).vector (d.regF cfg 48 6)
  else d.onRing (ringKey kind n) (fun x => { x with holding := false })

def execRingIrqHoldoff (kind : RingKind) (ring : Fin 32) (now : Nat) (s : State) : Host.Outcome State Fault Refusal :=
  onHost s (irqHoldoffD (ringCode kind) ring.val now)

/-! ### BAR2 -/

def aperture : Nat := 67108864

/-- BAR2_WRITE: stamped and queued; it is judged at its release tick (R521). -/
def bar2WriteD (off : Nat) (data : Bytes) (now : Nat) (d : Dev) : Dev :=
  let d := d.at_ now
  d.onCross (srcKey 3 (off / aperture % 32)) (fun q =>
    let it : CrossItem := { stamp := if d.tb.aligned then now else 0, present := now, seq := q.nextSeq, len := data.length,
                            late := false, taken := false, data := .bar2 (off % aperture) data }
    { q with items := q.items ++ [it], nextSeq := (q.nextSeq + 1) % 2 ^ 32 })

def execBar2Write (off : Nat) (data : Bytes) (now : Nat) (s : State) : Host.Outcome State Fault Refusal :=
  onHost s (bar2WriteD off data now)

/-- The core and the declared window that an aperture maps onto (R520). -/
def Dev.b2Window (d : Dev) (w : Nat) : Option (Nat × Win) :=
  let m := d.reg (0x101000 + w * 8)
  if bits m 0 1 = 1 then (mget (d.core (bits m 8 8)).windows (bits m 16 4)).map (fun x => (bits m 8 8, x)) else none

/-- A dropped host write to a locked region (R388). -/
def Dev.deny (d : Dev) (c : Nat) : Dev :=
  (d.onCore c (fun x => { x with denied := min (x.denied + 1) (2 ^ 32 - 1) })).raise { code := 0x0506, kind := 0, unit := c }

/-- A write that no window accepts: E_WINDOW for the item that made it, and a count at the target (R384). -/
def Dev.windowDrop (d : Dev) (c : Nat) : Dev := d.count (coreOff c + 0x1820) 48 1

/-- One BAR2 write at its tick (R521). -/
def Dev.bar2Apply (d : Dev) (w off : Nat) (data : Bytes) : Dev :=
  match d.b2Window w with
  | none =>
    let m := d.reg (0x101000 + w * 8)
    let d1 := d.raise { code := 0x0505 }
    if bits m 0 1 = 1 then d1.windowDrop (bits m 8 8) else d1
  | some (c, win) =>
    if (d.core c).locked then d.deny c
    -- traffic into a contained slice is dropped at its ring stop (R19)
    else if !(d.sliceUp (c / 64)) then d.raise { code := 0x0507 }
    else if win.isOpen && decide (off + data.length ≤ win.bound - win.base) then
      let base := (d.task c win.owner).base + win.base + off
      let m := bits (d.reg (0x101000 + w * 8)) 16 4
      (d.onCore c (fun x => x.storeAll [(base, data)])).count (coreOff c + 0x1908 + m * 0x10) 32 1
    else (d.raise { code := 0x0505 }).windowDrop c

/-- Insertion by stamp after equal stamps. -/
def insertStamp {α : Type} (x : Nat × α) : List (Nat × α) → List (Nat × α)
  | [] => [x]
  | a :: r => if x.1 < a.1 then x :: a :: r else a :: insertStamp x r

def sortStamp {α : Type} (l : List (Nat × α)) : List (Nat × α) := l.foldl (fun acc x => insertStamp x acc) []

/-- BAR2_WRITE_APPLY: at cycle offset 0 the writes assigned to the current round act in stamp order (R521). -/
def bar2ApplyD (d : Dev) : Dev :=
  let n := d.tb.round
  let ws := (List.range 32).flatMap (fun w =>
    ((d.crossQ (srcKey 3 w)).assigned.filter (fun p => p.1 == n)).map (fun p => (p.2.stamp, (w, p.2))))
  let d1 := (List.range 32).foldl (fun d w =>
    if (d.crossQ (srcKey 3 w)).assigned.isEmpty then d
    else d.onCross (srcKey 3 w) (fun q => { q with assigned := q.assigned.filter (fun p => p.1 != n) })) d
  (sortStamp ws).foldl (fun d p => match p.2.2.data with
    | .bar2 off data => d.bar2Apply p.2.1 off data
    | _ => d) d1

def execBar2WriteApply (s : State) : Host.Outcome State Fault Refusal := onHost s bar2ApplyD

/-! ### BAR4 -/

/-- The well address of a BAR4 offset (R522). -/
def Dev.bar4Addr (d : Dev) (off : Nat) : Nat := d.regF 0x101100 0 10 * 1073741824 + off

/-- A page unmapped by a kill and not yet zeroed (R389). -/
def Dev.unmapped (d : Dev) (a n : Nat) : Bool :=
  d.zeroing.any (fun z => decide (z.2.1 < a + n) && decide (a < z.2.1 + z.2.2))

/-- A page of a job that is not EMPTY. -/
def Dev.heldPage (d : Dev) (a n : Nat) : Bool :=
  d.jobs.any (fun p => p.2.loaded && (match p.2.img with
    | some i => i.wellRanges.any (fun r => decide (r.1 < a + n) && decide (a < r.1 + r.2))
    | none => false))

def bar4WriteD (off : Nat) (data : Bytes) (d : Dev) : Dev :=
  let a := d.bar4Addr off
  if d.unmapped a data.length then d.raise { code := 0x0506 }
  else if d.heldPage a data.length then d.raise recHostAccess
  else d.wellWrite a data

def execBar4Write (off : Nat) (data : Bytes) (s : State) : Host.Outcome State Fault Refusal := onHost s (bar4WriteD off data)

def bar4ReadD (off n : Nat) (d : Dev) : Dev :=
  let a := d.bar4Addr off
  if d.unmapped a n then (d.raise { code := 0x0506 }).emit (.read (zeros n)) else d.emit (.read (d.wellRead a n))

def execBar4Read (off n : Nat) (s : State) : Host.Outcome State Fault Refusal := onHost s (bar4ReadD off n)

end Sys2Proof.Machine
end

