-- ==== Sys2Proof/Machine/Replay.lean ====
section
/-! DEFINITION. Machine/Replay.lean: what a standby that was activated reads of its origin's shipments while it replays their rounds (R30,
R337, R382, R416, R503, R559, R563). The layout of part 1 is the model's (entry 64). -/

namespace Sys2Proof.Machine

/-- The origin's round that round n of a job replays (R563 step 4). -/
def Job.originRound (j : Job) (n : Nat) : Option Nat := match j.replay with
  | some p => if p.first + p.lag ≤ n ∧ n ≤ p.last + p.lag then some (n - p.lag) else none
  | none => none

/-- The job replays round n, so that what depends on timing or on measurements comes from the log. -/
def Dev.replays (d : Dev) (j n : Nat) : Bool := ((d.job j).originRound n).isSome

/-- Bytes of a part that an origin shipped for a round. -/
def Mirror.shipped (m : Mirror) (compile origin part r : Nat) : Bytes :=
  (m.parts.filter (fun s => s.compile == compile && s.origin == origin && s.round == r && s.part == part)).flatMap (fun s => s.data)

/-- The origin's log records of a round (part 2). -/
def Dev.originLog (d : Dev) (j r : Nat) : List Bytes := match (d.job j).img with
  | some i => chunks 32 (d.mirror.shipped i.compileId i.deviceIndex 2 r)
  | none => []

/-- The records of the round that round n of a job replays; none outside a replay. -/
def Dev.replayLog (d : Dev) (j n : Nat) : Option (List Bytes) := ((d.job j).originRound n).map (d.originLog j)

/-! ### Physical decisions (R337) -/

/-- The level of a round's shedding record; a round without one has level 0 (R606). -/
def levelOf (recs : List Bytes) : Nat := match recs.find? (fun b => leAt b 0 1 == 0x16) with
  | some b => leAt b 1 1
  | none => 0

/-- Speculation is shed for the programs of a round: as the governor decided, in a replay as the log says. -/
def Dev.shedIn (d : Dev) (j n : Nat) : Bool := match d.replayLog j n with
  | some recs => decide (2 ≤ levelOf recs)
  | none => d.gov.shedRounds.contains n

/-- The adaptation share is yielded for the programs of a round. -/
def Dev.yieldedIn (d : Dev) (j n : Nat) : Bool := match d.replayLog j n with
  | some recs => decide (1 ≤ levelOf recs)
  | none => (d.job j).yieldRounds.contains n

/-- The level that the mark of round n finds, decided at the mark before. -/
def Dev.levelAt (d : Dev) (j n : Nat) : Nat := match (d.job j).originRound n with
  | some r => levelOf (d.originLog j (r - 1))
  | none => d.gov.level

/-- Full speed in MHz (R604). -/
def fMax : Nat := 1750

/-- The clock that a round's shedding record gives; a round without one has level 0 and runs at full speed (R606). -/
def clockOf (recs : List Bytes) : Nat := match recs.find? (fun b => leAt b 0 1 == 0x16) with
  | some b => leAt b 4 4
  | none => fMax

/-- The clock that a replay takes from the log at the mark of the round (R337); none when no job replays it. -/
def Dev.loggedF (d : Dev) : Option Nat := d.jobs.findSome? (fun p => (d.replayLog p.1 d.tb.round).map clockOf)

/-- At the mark of round n a low log refuses a stream, which is logged (R338); in a replay the log tells. -/
def Dev.refuses (d : Dev) (j n h : Nat) (low : Bool) : Bool := match d.replayLog j n with
  | some recs => recs.any (fun b => leAt b 0 1 == 0x11 && leAt b 1 1 == 6 && leAt b 2 2 == h)
  | none => low

/-! ### Outcomes of items (R382, R416, R559) -/

/-- Handle, sequence number and code of the items whose outcome records have a status. -/
def outcomesOf (recs : List Bytes) (status : Nat) : List (Nat × Nat × Nat) :=
  (recs.filter (fun b => leAt b 0 1 == 0x30 && leAt b 1 1 == status && leAt b 4 2 != 3)).map (fun b => (leAt b 2 2, leAt b 16 8, leAt b 24 4))

/-- Items that the replayed rounds' log has fail with a code: handle and sequence number; none outside a replay (R416, R482). -/
def Dev.loggedFails (d : Dev) (j n code : Nat) : Option (List (Nat × Nat)) := match (d.job j).replay with
  | some p =>
    if d.replays j n then
      some ((List.range (p.last + 1 - p.first)).flatMap (fun k =>
        ((outcomesOf (d.originLog j (p.first + k)) 2).filter (fun o => o.2.2 == code)).map (fun o => (o.1, o.2.1))))
    else none
  | none => none

/-! ### Input (R28, R30, R503 part 1) -/

/-- The bytes of an item in part 1: of a frame its flags and rate, then its values. -/
def crossBytes : Cross → Bytes
  | .frame v rep ev rate => leBytes 1 rep.toNat ++ leBytes 1 ev ++ leBytes 4 rate ++ v.flatMap (fun x => leBytes 4 (unsext 32 x))
  | .submission b => b
  | .intake r p => sliceZ r 0 32 ++ p
  | .bar2 off b => leBytes 8 off ++ b

/-- An item in part 1: the entry that R28 digests, the length of its bytes, its bytes. -/
def shipItem (x : CrossItem) : Bytes :=
  let b := crossBytes x.data
  leBytes 8 x.stamp ++ leBytes 4 x.len ++ leBytes 4 x.seq ++ leBytes 4 b.length ++ b

def crossOf (ty : Nat) (b : Bytes) : Cross :=
  if ty = 0 then .frame ((chunks 4 (b.drop 6)).map (fun v => sext 32 (leNat v))) (leAt b 0 1 == 1) (leAt b 1 1) (leAt b 2 4)
  else if ty = 1 then .intake (b.take 32) (b.drop 32)
  else if ty = 2 then .submission b
  else .bar2 (leAt b 0 8) (b.drop 8)

/-- Up to n items of a source type at the front of a part, and what follows them. -/
def takeItems (ty : Nat) : Nat → Bytes → List CrossItem × Bytes
  | 0, b => ([], b)
  | n + 1, b =>
    if b.length < 20 + leAt b 16 4 then ([], [])
    else
      let r := takeItems ty n (b.drop (20 + leAt b 16 4))
      ({ stamp := leAt b 0 8, present := 0, seq := leAt b 12 4, len := leAt b 8 4, late := true, taken := false,
         data := crossOf ty ((b.drop 20).take (leAt b 16 4)) } :: r.1, r.2)

/-- The digest of a cut record (R28). -/
def cutDigest (xs : List CrossItem) : Bytes :=
  let inSeq := (sortStamp (xs.map (fun x => (x.seq, x)))).map Prod.snd
  (sha3 (inSeq.flatMap (fun x => leBytes 8 x.stamp ++ leBytes 4 x.len ++ leBytes 4 x.seq))).take 8

/-- One source of a replayed round: its type and number, its items, and whether they are those its cut record names. -/
structure Fed where
  ty : Nat
  id : Nat
  items : List CrossItem
  whole : Bool
  deriving DecidableEq, Repr

/-- The items of part 1 by the cut records of part 2. -/
def feedOf : List Bytes → Bytes → List Fed
  | [], _ => []
  | r :: rs, b =>
    let x := takeItems (leAt r 1 1) (leAt r 4 4) b
    { ty := leAt r 1 1, id := leAt r 2 2, items := x.1, whole := decide (x.1.length = leAt r 4 4) && cutDigest x.1 == sliceZ r 24 8 } :: feedOf rs x.2

/-- The sources of the round that round n of a job replays. -/
def Dev.fedTo (d : Dev) (j n : Nat) : List Fed := match (d.job j).originRound n, (d.job j).img with
  | some r, some i => feedOf ((d.originLog j r).filter (fun b => leAt b 0 1 == 1)) (d.mirror.shipped i.compileId i.deviceIndex 1 r)
  | _, _ => []

/-- A source feeds a stream of a job. -/
def Dev.sourceOf (d : Dev) (j ty id h : Nat) : Bool :=
  let s := d.stream h
  s.state != .free && s.job == j && s.port == id && ((s.source == 1 && ty == 0) || (s.source == 0 && ty == 1))

/-- A submission is a command for a stream. -/
def streamCmd (b : Bytes) : Bool := decide (0x10 ≤ leAt b 0 1) && decide (leAt b 0 1 ≤ 0x13)

/-- A command of the origin for a stream acts on the standby's slot; the origin's other commands were for its own slots. -/
def Fed.ownCommands (f : Fed) (j : Nat) : List CrossItem := f.items.filterMap (fun x => match x.data with
  | .submission b => if streamCmd b then some { x with data := .submission (lset b 1 (fun _ => BitVec.ofNat 8 j)) } else none
  | _ => none)

/-- The commands that the log assigns to round n from a ring in a replay. -/
def Dev.replayCmds (d : Dev) (n ring : Nat) : List CrossItem := d.jobs.flatMap (fun p =>
  if (p.2.originRound n).isNone then []
  else ((d.fedTo p.1 n).filter (fun f => f.ty == 2 && f.id == ring)).flatMap (fun f => f.ownCommands p.1))

/-- A command that arrives for a stream of a job whose rounds are being replayed waits for their end (R30). -/
def Dev.waitsReplay (d : Dev) (n : Nat) (x : CrossItem) : Bool := match x.data with
  | .submission b => streamCmd b && d.replays (leAt b 1 1) n
  | _ => false

/-- An aperture of the host leads into a window of a job. -/
def Dev.apertureOf (d : Dev) (j id : Nat) : Bool := match d.b2Window id with
  | some (_, w) => w.job == j
  | none => false

/-- The items that a source other than a submission ring gives to round n in a replay; none where no replay binds the source (R30). -/
def Dev.replayItems (d : Dev) (n ty id : Nat) : Option (List CrossItem) :=
  if ty = 2 then none
  else d.jobs.findSome? (fun p =>
    if (p.2.originRound n).isNone then none
    else match (d.fedTo p.1 n).find? (fun f => f.ty == ty && f.id == id && !f.items.isEmpty) with
      | some f => some f.items
      | none => if d.streams.any (fun q => d.sourceOf p.1 ty id q.1) || (ty == 3 && d.apertureOf p.1 id) then some [] else none)

end Sys2Proof.Machine
end

