-- ==== Sys2Proof/Machine/Detect.lean ====
section
/-! DEFINITION. Machine/Detect.lean: detections and failures of items (R540, R542, R546 to R549). -/

namespace Sys2Proof.Machine

/-! ### Which items an operation serves -/

/-- Cords that a descriptor names (R298, R322, R326). -/
def descCords (r : Rec) : List Nat :=
  let k := fld r 63 1
  if k = 0x09 then (if fld r 6 1 = 0 then [fld r 20 1] else [])
  else if k = 0x0A then [fld r 1 1]
  else if k = 0x0B then [fld r 3 1]
  else []

/-- Cords that a task works on: those of its descriptors, its purpose bindings and the classes whose metadata it takes; all
cords where it names none (entry 6). -/
def Dev.taskCords (d : Dev) (c t : Nat) : List Nat :=
  let k := d.task c t
  let fromDescs := k.descs.flatMap descCords
  let fromImg := match (d.job k.job).img with
    | some i =>
      (i.bindings.filter (fun b => fld b 0 2 == c && fld b 2 1 == t && fld b 5 1 != 0xFF)).map (fun b => fld b 7 1) ++
      (i.classes.filter (fun x => fld x.1 20 2 == c && fld x.1 19 1 == t)).flatMap (fun x =>
        (List.range (fld x.1 17 1 + 1)).filter (fun n => decide (fld x.1 16 1 ≤ n)))
    | none => []
  let cords := (fromDescs ++ fromImg).eraseDups
  if cords.isEmpty then List.range 64 else cords

def Dev.clsOf (d : Dev) (h : Nat) : Rec :=
  let s := d.stream h
  match (d.job s.job).img.bind (fun i => i.cls s.cls) with
  | some c => c.1
  | none => 0

/-- Compute rounds of a stream's class (R307). -/
def Dev.rounds (d : Dev) (h : Nat) : Nat := max 1 (fld (d.clsOf h) 4 1)

/-- An item that round n's programs serve: n is one of its compute rounds, and it has no outcome yet. -/
def Item.runs (i : Item) (rounds n : Nat) : Bool := match i.run with
  | some r => decide (r ≤ n) && decide (n < r + rounds) && !i.withheld
  | none => false

/-- The stream of a handle has an item that round n's programs serve. -/
def Dev.serves (d : Dev) (n h : Nat) : Bool := (d.stream h).items.any (fun i => i.runs (d.rounds h) n)

/-- Handles of a job with an item that runs in round n in a slot of some cords. -/
def Dev.runningIn (d : Dev) (j n : Nat) (cords : List Nat) : List Nat :=
  (d.streams.filter (fun p => p.2.job == j && p.2.state != .free && d.serves n p.1 &&
    (match p.2.slot with
      | some s => cords.contains (s / 64)
      | none => false))).map (·.1)

/-- Handles whose items the task serves in the round of its program (R36; R546, class TASK). -/
def Dev.taskHandles (d : Dev) (c t : Nat) : List Nat := d.runningIn (d.task c t).job (d.task c t).progRound (d.taskCords c t)

/-- Handles whose items one operation of a word of round n's program serves (R540; entry 6). -/
def Dev.opHandlesAt (d : Dev) (c t w n : Nat) : List Nat :=
  (d.runningIn (d.task c t).job n (d.taskCords c t)).filter (fun h => Config.serves c t w h)

/-- Those of a word of the program that the task runs. -/
def Dev.opHandles (d : Dev) (c t w : Nat) : List Nat := (d.taskHandles c t).filter (fun h => Config.serves c t w h)

/-- The items of some handles that run in round n. -/
def Dev.runningItems (d : Dev) (n : Nat) (hs : List Nat) : List (Nat × Item) :=
  hs.flatMap (fun h => ((d.stream h).items.filter (fun i => i.runs (d.rounds h) n)).map (fun i => (h, i)))

/-- Sequence number of the lowest affected item (R544). -/
def Dev.lowestSeq (d : Dev) (n : Nat) (hs : List Nat) : Nat := match (d.runningItems n hs).head? with
  | some p => p.2.seq
  | none => 0

/-- The items of some handles that run in round n change. -/
def Dev.onRunning (d : Dev) (n : Nat) (hs : List Nat) (f : Item → Item) : Dev :=
  hs.foldl (fun d h => d.onStream h (fun s =>
    { s with items := s.items.map (fun i => if i.runs (d.rounds h) n then f i else i) })) d

/-- Items fail with a code; the first code stays (R542, fate Fail). -/
def Dev.markFailed (d : Dev) (n : Nat) (hs : List Nat) (code : Nat) : Dev :=
  d.onRunning n hs (fun i => if i.failed = 0 then { i with failed := code } else i)

/-- An error of fate Fail for the items of some handles in round n, with its record. Ring-carrying details hold the ring in bits 7 to 0. -/
def Dev.failItems (d : Dev) (e : Err) (n : Nat) (hs : List Nat) (ring : Option Nat) : Dev :=
  let k := (d.runningItems n hs).length
  let a := match ring with
    | some r => r % 256 + 256 * k
    | none => k
  (d.markFailed n hs e.code).raise { e with corr := decide (k = 0), handle := hs.head?, a := a, b := d.lowestSeq n hs, round := some n }

/-! ### Retirement (R547) -/

/-- A core or slice that is lost waits for its recovery mark, counted from the detection (R562); the code is that detection's (R559). -/
def lostAction (code kind cls unit round now : Nat) : Action :=
  { code := code, cls := cls, kind := kind, unit := unit, handles := [], job := 0, core := unit, task := 0, round := round,
    markAt := max round now + 1 }

def Dev.addAction (d : Dev) (a : Action) : Dev :=
  match d.err.handling with
  | none => { d with err := { d.err with handling := some a } }
  | some _ => { d with err := { d.err with queue := d.err.queue ++ [a] } }

/-- A core is lost by a detection of a round: retired, its tasks halted, and an action queued for its tasks. -/
def Dev.loseCore (d : Dev) (c code round : Nat) : Dev :=
  if d.coreRetired c then d
  else
    let up := d.sliceUp (c / 64)
    let d1 := (d.retireCore c).addAction (lostAction code 0 clsCore c round d.tb.round)
    if up && !d1.sliceUp (c / 64) then d1.addAction (lostAction code 1 clsSlice (c / 64) round d.tb.round) else d1

def Dev.loseSlice (d : Dev) (s code round : Nat) : Dev :=
  if d.sliceUp s then (d.containSlice s).addAction (lostAction code 1 clsSlice s round d.tb.round) else d

/-- A well controller is lost: its slice is contained, and the controller whose own fault this is stops with it (R18). -/
def Dev.loseCtl (d : Dev) (k code round : Nat) : Dev :=
  (d.loseSlice (k / 2) code round).onSlice (k / 2) (fun x => { x with ctlStopped := x.ctlStopped ||| 2 ^ (k % 2) })

/-- Three different rounds within 16 consecutive ones. -/
def threeRounds (l : List Nat) : Bool :=
  l.any (fun r => decide (3 ≤ ((l.filter (fun x => decide (r ≤ x) && decide (x < r + 16))).eraseDups).length))

/-- The three-round rule: E_RESIDUE, E_ECC_UNC and E_WATCHDOG of a core, or of a slice's sampler, network or controllers. -/
def Dev.countDetection (d : Dev) (code kind unit round : Nat) : Dev :=
  if code = 0x0401 ∨ code = 0x0403 ∨ code = 0x0405 then
    let hist := (d.err.history.filter (fun h => decide (round < h.2.2 + 16))) ++ [(kind, unit, round)]
    let d1 := { d with err := { d.err with history := hist } }
    let rounds := (hist.filter (fun h => h.1 == kind && h.2.1 == unit)).map (fun h => h.2.2)
    if threeRounds rounds then
      if kind = 0 then d1.loseCore unit code round
      else if kind = 1 ∧ unit % 16 < 2 then d1.loseSlice (unit / 16) code round
      else if kind = 7 then d1.loseCtl unit code round
      else d1
    else d1
  else d

/-! ### Detections with fate Replay -/

/-- The unit of a detection is the unit being handled, or lies inside it (R549): a slice, a core, a task, the streams of class STREAM, or
the items of class ITEM, which are those of one round (R546). -/
def Action.covers (a : Action) (kind unit task cls round : Nat) (hs : List Nat) : Bool :=
  if a.cls = clsSlice then (kind == 0 && unit / 64 == a.unit) || (kind == 1 && unit / 16 == a.unit) || (kind == 7 && unit / 2 == a.unit)
  else if a.cls = clsCore then kind == 0 && unit == a.unit
  else if a.cls = clsTask then kind == 0 && a.kind == 0 && unit == a.unit && task == a.task && decide (cls ≤ clsTask)
  else !hs.isEmpty && hs.all a.handles.contains && decide (cls ≤ a.cls) && (a.cls == clsStream || a.round == round)

/-- The class of a detection: when its unit lies in the one being handled, that unit rises one class (R548, R549). -/
def Dev.detectCls (d : Dev) (e : Err) (task round : Nat) (hs : List Nat) : Nat := match d.err.handling with
  | some a => if a.covers e.kind e.unit task e.cls round hs then a.cls + 1 else e.cls
  | none => e.cls

/-- E_NAN_TRAP records of an item of a round that the host has not read. -/
def trapRecord (handle : Option Nat) (round : Nat) (b : Bytes) : Bool :=
  leAt b 0 2 == 0x0302 && leAt b 8 8 == round && (match handle with
    | some h => leAt b 6 2 == h && !bit (leAt b 2 1) 6
    | none => bit (leAt b 2 1) 6)

/-- Unread error records that a predicate names are withdrawn; the others close up. -/
def Dev.withdraw (d : Dev) (p : Bytes → Bool) : Dev :=
  let unread := (List.range (d.err.head - d.err.tail)).map (fun k => (mget d.err.recs ((d.err.tail + k) % 256)).getD [])
  let kept := unread.filter (fun b => !p b)
  if kept.length = unread.length then d
  else { d with err := { d.err with
    head := d.err.tail + kept.length
    recs := kept.zipIdx.foldl (fun m x => mset m ((d.err.tail + x.2) % 256) x.1) d.err.recs } }

/-- A detected fault takes precedence over the NaN trap of the same item in the same round: the trap and its record are discarded, and
the replayed execution alone decides (R131). -/
def Dev.discardTrap (d : Dev) (core task round : Nat) (handle : Option Nat) : Dev :=
  let mine (k : Task) : Bool := decide (2 ^ 63 ≤ k.trapA) && k.trapRound == round && (match handle with
    | some h => bits k.trapA 16 15 == h && !bit k.trapA 31
    | none => bit k.trapA 31)
  let d1 := (d.withdraw (trapRecord handle round)).onTask core task (fun k =>
    if mine k then { k with trapA := 0, trapElem := 0, trapRound := 0 } else k)
  match handle with
  | some h => d1.onStream h (fun s => { s with items := s.items.map (fun i => if i.trapAt = some round then
      { i with trapAt := none, failed := if i.failed = 0x0302 then 0 else i.failed } else i) })
  | none => d1.onTask core task (fun k => if k.cmdTrap = some round then { k with cmdTrap := none } else k)

/-- The traps of the items that a detection concerns: those of some handles on any task of the job, or the task's command item. -/
def Dev.discardTraps (d : Dev) (hs : List Nat) (job core task round : Nat) : Dev :=
  let trapped (h : Nat) : Bool := (d.stream h).items.any (fun i => i.trapAt == some round)
  let d1 := (hs.filter trapped).foldl (fun d h => (d.job job).tasks.foldl (fun d p => d.discardTrap p.1 p.2 round (some h)) d) d
  if (d.task core task).cmdTrap = some round then d1.discardTrap core task round none else d1

/-- One detection: its record, its items withheld, its action queued, its class raised when its unit is being handled (R540,
R546 to R549), and in a fabric job the recovery notice (R553). -/
def Dev.detect (d : Dev) (e : Err) (hs : List Nat) (job core task round : Nat) : Dev :=
  let cls := d.detectCls e task round hs
  let wide := if cls = clsTask then (hs ++ d.taskHandles core task).eraseDups else hs
  let d0 := d.discardTraps wide job core task round
  let d1 := d0.raise { e with corr := hs.isEmpty && e.cls == clsItem, handle := hs.head?, round := some round }
  let d2 := if cls ≠ e.cls then d1.raise { e with cls := cls, esc := true, corr := false, handle := hs.head?, round := some round } else d1
  let hs := wide
  let d3 := d2.onRunning round hs (fun i => if i.detected = 0 then { i with detected := e.code } else i)
  let d4 :=
    if cls = clsCore then d3.loseCore core e.code round
    else if cls = clsSlice then d3.loseSlice (if e.kind = 1 then e.unit / 16 else core / 64) e.code round
    else if cls = clsDevice then d3
    else d3.addAction { code := e.code, cls := cls, kind := e.kind, unit := e.unit, handles := hs, job := job, core := core,
                        task := task, round := round, markAt := round + 1 }
  let d5 := d4.countDetection e.code e.kind e.unit round
  match (d.job job).img with
  | some i => if 1 < i.fabricSize ∧ cls < clsDevice then d5.send (.recovery i.compileId round) else d5
  | none => d5

/-- A detection in an operation of a word of round n's program. -/
def Dev.opDetectAt (d : Dev) (code cls c t w n a b : Nat) : Dev :=
  d.detect { code := code, cls := cls, kind := 0, task := t, unit := c, a := a, b := b } (d.opHandlesAt c t w n) (d.task c t).job c t n

/-- A detection in an operation of a word of the program that the task runs. -/
def Dev.opDetect (d : Dev) (code cls c t w a b : Nat) : Dev := d.opDetectAt code cls c t w (d.task c t).progRound a b

/-- Traffic of a word into a contained slice is dropped at its ring stop, and the writer receives E_SLICE_DOWN (R19). -/
def Dev.sliceDown (d : Dev) (c t w : Nat) : Dev :=
  let hs := d.opHandles c t w
  let n := (d.task c t).progRound
  d.opDetect 0x0507 clsItem c t w (d.runningItems n hs).length (d.lowestSeq n hs)

/-- E_CRC, E_TABLE_MISS of Peat blocks that a word of round n's program reads (R153): the first replays, the second fails. -/
def Dev.blockFault (d : Dev) (code c t w n tgen blocks addr : Nat) : Dev :=
  let a := tgen % 65536 + 65536 * (blocks % 65536)
  if code = 0x0404 then d.opDetectAt code clsItem c t w n a addr
  else
    let hs := d.opHandlesAt c t w n
    ((d.markFailed n hs code).raise
      { code := code, corr := hs.isEmpty, kind := 0, task := t, unit := c, handle := hs.head?, a := a, b := addr, round := some n })

/-- The physical event of an engine operation (R365, R369, R538). -/
def Dev.engEvent (d : Dev) (c t w : Nat) (ev : EngEv) : Dev :=
  let d1 := d.count (coreOff c + 0x1820) 0 ev.lost
  match ev.detect with
  | .none => d1
  | .residue eng par elem =>
    let n := (d1.runningItems (d1.task c t).progRound (d1.opHandles c t w)).length
    d1.opDetect 0x0401 clsItem c t w (eng % 8 + 8 * par.toNat + 16 * (w % 32768) + 2 ^ 19 * (n % 8192)) elem
  | .eccCorrected n => d1.count (coreOff c + 0x1818) 0 n
  | .eccUncorrectable bank addr =>
    let d2 := d1.count (coreOff c + 0x1818) 16 1
    let cls := if mgetD (d.core c).roles bank 0 = 1 then clsTask else clsItem
    d2.opDetect 0x0403 cls c t w (bank % 256 + 256) addr

end Sys2Proof.Machine
end

