-- ==== Sys2Proof/Machine/Rng.lean ====
section
/-! DEFINITION. Machine/Rng.lean: the counter-based generator (R290 to R292). -/

namespace Sys2Proof.Machine

def two64 : Nat := 18446744073709551616

def rngMul : List Nat := [0xB4E91C7D3A65F28B, 0x8F2D6B41E97C05A3, 0xC6A13F852D9E7B17, 0x9D57E2B31C48A6F5]

/-- One round of mix (R291). -/
def mixRound (key : Nat) (v : Nat) (i : Nat) : Nat :=
  let v := (v + key + i * 0x5A8317E9C46D0B2F) % two64
  let v := v ^^^ (v >>> 31)
  let v := v * rngMul.getD i 0 % two64
  v ^^^ (v >>> 27)

/-- The 64-bit output of a draw (R291). -/
def mix (K S C : Nat) : Nat :=
  let key := K ^^^ (S * 0xC2A75E196B3D8F41 % two64)
  (List.range 4).foldl (mixRound key) C

/-- The counter of R290. -/
def rngCounter (purpose position element : Nat) : Nat :=
  purpose % 256 * 2 ^ 56 + position % 2 ^ 48 * 256 + element % 256

/-- Output bits of R292. -/
def bitsSr (o : Nat) : Nat := o / 2 ^ 56 % 256
def bitsU (o : Nat) : Nat := o / 2 ^ 40 % 2 ^ 24
def bitsB (o : Nat) : Nat := o / 2 ^ 16 % 2 ^ 24

end Sys2Proof.Machine
end

