-- ==== Sys2Proof/Machine/Operands.lean ====
section
/-! DEFINITION. Machine/Operands.lean: tensors (R63, R106, R167, R622), slot rings and their tags (R374 to R376), the
accumulator bank (R146, R148), accesses outside a region (R361), words with an uncorrectable error (R364, R365), and the waits
of a word (R165, R378). -/

namespace Sys2Proof.Machine

/-! ### Tensor descriptors -/

def tAddr (t : Rec) : Nat := bits (fld t 0 8) 0 48
def tSpace (t : Rec) : Nat := bits (fld t 0 8) 48 3
def tFmtCode (t : Rec) : Nat := fld t 8 1
def tFmt (t : Rec) : Fmt := (Fmt.ofCode (tFmtCode t)).getD .fp32
def tNdim (t : Rec) : Nat := fld t 9 1
def tPeat (t : Rec) : Bool := bit (fld t 10 1) 0
def tRing (t : Rec) : Nat := fld t 11 1
def tSize (t : Rec) (k : Nat) : Nat := fld t (16 + 4 * k) 4
def tStride (t : Rec) (k : Nat) : Int := fldS t (32 + 4 * k) 4
def tPeatIndex (t : Rec) : Nat := bits (fld t 48 8) 0 48

/-- Dimension 0 is packed (R622). -/
def tPacked (t : Rec) : Bool := tFmt t == .int4 || (tFmt t).isMx

/-- Elements of a tensor. -/
def tCount (t : Rec) : Nat := tSize t 0 * tSize t 1 * tSize t 2 * tSize t 3

/-- A point of an iteration space. -/
structure Pt where
  i0 : Nat
  i1 : Nat
  i2 : Nat
  i3 : Nat
  deriving DecidableEq, Repr

def Pt.get (p : Pt) (k : Nat) : Nat := if k = 0 then p.i0 else if k = 1 then p.i1 else if k = 2 then p.i2 else p.i3

/-- The point of a flat index (R167). -/
def ptOf (s0 s1 s2 f : Nat) : Pt := ⟨f % s0, f / s0 % s1, f / (s0 * s1) % s2, f / (s0 * s1 * s2)⟩

def tPt (t : Rec) (f : Nat) : Pt := ptOf (tSize t 0) (tSize t 1) (tSize t 2) f

/-- Byte offset of a point's element from ADDRESS, and whether it is the high nibble (R167, R622). -/
def tOff (t : Rec) (p : Pt) : Int × Bool :=
  let hi := (p.i1 : Int) * tStride t 1 + p.i2 * tStride t 2 + p.i3 * tStride t 3
  if tFmt t == .int4 then (hi + (p.i0 / 2 : Nat), p.i0 % 2 == 1)
  else (hi + (p.i0 : Int) * tStride t 0, false)

/-! ### A task's view of a tensor -/

/-- Who runs an operation: core, task and index of the schedule word. -/
structure Who where
  core : Nat
  task : Nat
  word : Nat
  deriving DecidableEq, Repr

def Dev.tk (d : Dev) (w : Who) : Task := d.task w.core w.task

def Task.desc (k : Task) (i : Nat) : Rec := k.descs.getD i 0

/-- A tensor placed in a core's cistern: absolute start, region, and whether its slot slipped (R376). -/
structure View where
  t : Rec
  base : Int
  lo : Nat
  hi : Nat
  dead : Bool
  deriving DecidableEq, Repr

def Task.ring? (k : Task) (r : Nat) : Option Ring := k.rings.find? (fun x => srRing x.decl == r)

/-- Offset of a tensor in the task's region: within its ring's current slot, or its ADDRESS (R374). -/
def Task.tensorOff (k : Task) (t : Rec) (writing : Bool) : Nat :=
  match k.ring? (tRing t) with
  | some r =>
    if tRing t = 0xFF then tAddr t
    else srBase r.decl + (if writing then r.put else r.get) * srBytes r.decl + tAddr t
  | none => tAddr t

def Task.view (k : Task) (i : Nat) (writing : Bool) (slips : List (Nat × Bool)) : View :=
  let t := k.desc i
  { t := t, base := ((k.base + k.tensorOff t writing : Nat) : Int), lo := k.base, hi := k.bound,
    dead := tRing t != 0xFF && slips.contains (tRing t, writing) }

/-- Whether n bytes at an absolute offset lie in the region (R361). -/
def View.inside (v : View) (a : Int) (n : Nat) : Bool := decide ((v.lo : Int) ≤ a) && decide (a + n ≤ (v.hi : Int))

/-- The code of a point's element; zero from a slipped slot and outside the region. -/
def View.code (v : View) (m : SMap Byte) (p : Pt) : Nat :=
  let o := tOff v.t p
  let a := v.base + o.1
  let n := max 1 (tFmt v.t).size
  if v.dead || !v.inside a n then 0
  else if tFmt v.t == .int4 then
    let b := (memGet m a.toNat).toNat
    if o.2 then b / 16 else b % 16
  else leNat ((List.range n).map (fun i => memGet m (a.toNat + i)))

/-- The bytes that a point's element is written as: none from a slipped slot and outside the region. A row of odd length
leaves its padding nibble zero (R622). -/
def View.store (v : View) (m : SMap Byte) (p : Pt) (code : Nat) : Option (Nat × Bytes) :=
  let o := tOff v.t p
  let a := v.base + o.1
  let n := max 1 (tFmt v.t).size
  if v.dead || !v.inside a n then none
  else if tFmt v.t == .int4 then
    let b := (memGet m a.toNat).toNat
    let nb := if o.2 then b % 16 + 16 * (code % 16)
      else code % 16 + (if p.i0 + 1 = tSize v.t 0 then 0 else b / 16 * 16)
    some (a.toNat, [BitVec.ofNat 8 nb])
  else some (a.toNat, leBytes n code)

/-- Whether a point's access is not made (R361). -/
def View.lost (v : View) (p : Pt) : Bool := !v.dead && !v.inside (v.base + (tOff v.t p).1) (max 1 (tFmt v.t).size)

/-- A point's value as an operation reads it (R116, R117). -/
def View.val (v : View) (strict : Bool) (m : SMap Byte) (p : Pt) : Val := readVal strict (tFmt v.t) (v.code m p)

/-- Accesses of a view over its points that lie outside the region. -/
def View.lostCount (v : View) : Nat :=
  ((List.range (tCount v.t)).filter (fun f => v.lost (tPt v.t f))).length

/-- Elements of an MX unit (R107). -/
def mxUnit : Fmt → Nat
  | .mxint8 => 480 | .mxfp6 => 640 | _ => 960

/-- Raw bytes of a weight row of length K (R134, R138). -/
def rawRow (f : Fmt) (K : Nat) : Nat :=
  if f.isMx then (K * 512 + (mxUnit f - 1)) / mxUnit f else if f = .int4 then (K + 1) / 2 else K * f.size

/-- Bytes of a row of a dense tensor: dimension 0. -/
def tRowBytes (t : Rec) : Nat :=
  if tFmt t == .int4 then (tSize t 0 + 1) / 2
  else if (tFmt t).isMx then rawRow (tFmt t) (tSize t 0)
  else tSize t 0 * (tFmt t).size

/-- The range of bytes of a tensor relative to its start: lowest and end. -/
def tSpan (t : Rec) : Int × Int :=
  let ext (k : Nat) : Int := ((tSize t k - 1 : Nat) : Int) * tStride t k
  let e0 : Int := if tFmt t == .int4 then (((tSize t 0 - 1) / 2 : Nat) : Int)
    else if (tFmt t).isMx then 0 else ext 0
  let es := [e0, ext 1, ext 2, ext 3]
  let lo := es.foldl (fun a e => if e < 0 then a + e else a) 0
  let hi := es.foldl (fun a e => if 0 < e then a + e else a) 0
  (lo, hi + (if (tFmt t).isMx then tRowBytes t else max 1 (tFmt t).size : Nat))

/-- Absolute byte range of a view. -/
def View.range (v : View) : Int × Int := let s := tSpan v.t; (v.base + s.1, v.base + s.2)

def overlaps (a b : Int × Int) : Bool := decide (a.1 < b.2) && decide (b.1 < a.2)

/-! ### Words with an uncorrectable error (R364, R365) -/

/-- A bad word within a range of bytes. -/
def Core.badIn (x : Core) (r : Int × Int) : Option Nat :=
  (x.bad.find? (fun b => overlaps ((8 * b.1 : Nat), (8 * b.1 + 8 : Nat)) r)).map (fun b => 8 * b.1)

/-- The bad words that ranges of bytes meet. -/
def Core.badWords (x : Core) (rs : List (Int × Int)) : List Nat :=
  (x.bad.filter (fun b => rs.any (overlaps ((8 * b.1 : Nat), (8 * b.1 + 8 : Nat))))).map (fun b => 8 * b.1)

/-- An element of a view, or a row of blocks, takes a byte of the 64-bit word at a. -/
def View.touches (v : View) (a : Nat) : Bool :=
  let near (o : Int) (n : Nat) : Bool := overlaps ((a : Nat), (a + 8 : Nat)) (v.base + o, v.base + o + (n : Nat))
  if (tFmt v.t).isMx then
    (List.range (tSize v.t 1 * tSize v.t 2 * tSize v.t 3)).any (fun f =>
      near (tOff v.t ⟨0, f % max 1 (tSize v.t 1), f / max 1 (tSize v.t 1) % max 1 (tSize v.t 2), f / max 1 (tSize v.t 1) / max 1 (tSize v.t 2)⟩).1 (tRowBytes v.t))
  else (List.range (tCount v.t)).any (fun f => near (tOff v.t (tPt v.t f)).1 (max 1 (tFmt v.t).size))

/-- The bad words that the elements of some views take. -/
def Core.badFor (x : Core) (vs : List View) : List Nat :=
  (x.badWords (vs.map (fun v => v.range))).filter (fun a => vs.any (fun v => v.touches a))

/-- The bank of a cistern offset (R358). -/
def bankOf (a : Nat) : Nat :=
  if a < 0x100000 then 4 * (a / 262144) + a / 64 % 4
  else 16 + 2 * ((a - 0x100000) / 262144) + (a - 0x100000) / 128 % 2

/-! ### The accumulator bank -/

/-- A lane of an entry; +0 while its valid bit is clear (R148). -/
def Core.accLane (x : Core) (byte : Nat) : Nat := mgetD x.acc (byte / 4) 0

def Core.setAcc (x : Core) (lane code : Nat) : Core := { x with acc := mset x.acc lane code }

/-! ### Slot tags -/

def ringTag (r : Ring) (writing : Bool) : Nat :=
  fld r.decl 4 2 + (if writing then r.put else r.get)

def Core.tag (x : Core) (i : Nat) : Tag := mgetD x.tags i ⟨false, false, false⟩
def Core.onTag (x : Core) (i : Nat) (f : Tag → Tag) : Core := { x with tags := mset x.tags i (f (x.tag i)) }

/-- Rings that an operation uses: index and direction, each once. -/
def Task.ringUses (k : Task) (reads writes : List Nat) : List (Nat × Bool) :=
  let rs := (reads.map (fun i => (tRing (k.desc i), false))) ++ (writes.map (fun i => (tRing (k.desc i), true)))
  (rs.filter (fun p => p.1 != 0xFF && (k.ring? p.1).isSome)).eraseDups

/-- A tag test fails: a read of an empty slot or a write to a full one (R376). -/
def Dev.ringFails (d : Dev) (c t : Nat) (u : Nat × Bool) : Bool :=
  match (d.task c t).ring? u.1 with
  | some r => ((d.core c).tag (ringTag r u.2)).full == u.2
  | none => false

/-- The index moves on and the tag takes its new value; a slipped slot keeps its tag and shows SLIPPED, which stands until a
failed test that raises no E_SLIP (R375, R376). -/
def Dev.ringMove (d : Dev) (c t : Nat) (slips : List (Nat × Bool)) (u : Nat × Bool) : Dev :=
  match (d.task c t).ring? u.1 with
  | some r =>
    let slip := slips.contains u
    let d1 := d.onCore c (fun x => x.onTag (ringTag r u.2) (fun g => if slip then { g with slipped := true } else
      { g with full := u.2, wait := false }))
    d1.onTask c t (fun k => { k with rings := k.rings.map (fun x =>
      if srRing x.decl = u.1 then
        (if u.2 then { x with put := (x.put + 1) % (max 1 (srSlots x.decl)) }
         else { x with get := (x.get + 1) % (max 1 (srSlots x.decl)) })
      else x) })
  | none => d

/-- E_SLIP of a ring for the items that a word serves (R376). -/
def Dev.slip (d : Dev) (w : Who) (ring : Nat) : Dev :=
  let hs := d.opHandles w.core w.task w.word
  let r := (d.tk w).progRound
  d.opDetect 0x0502 clsItem w.core w.task w.word (ring % 256 + 256 * (d.runningItems r hs).length) (d.lowestSeq r hs)

/-! ### Waits -/

/-- A task's word no longer waits on a slot: its tag shows it (R399). -/
def Dev.endRingWait (d : Dev) (c t : Nat) : Dev :=
  let k := d.task c t
  match k.wait.map Wait.kind with
  | some (.ring r wr) => match k.ring? r with
    | some x => d.onCore c (fun y => y.onTag (ringTag x wr) (fun g => { g with wait := false }))
    | none => d
  | _ => d

/-- What a word does when it is issued: it goes through, or it is held with a reason and a budget in rounds. -/
inductive WRes where
  | done (d : Dev)
  | hold (kind : WaitKind) (budget : Nat)

/-- Budget of an elastic ring (R64). -/
def Task.budget (k : Task) (ring : Nat) : Nat := match k.ring? ring with
  | some r => srBudget r.decl
  | none => 1

def Task.elastic (k : Task) (ring : Nat) : Bool := match k.ring? ring with
  | some r => srElastic r.decl
  | none => false

/-- What an operation leaves: bytes written, flags, NaN candidates, rounding draws, accesses not made. -/
structure OpOut where
  writes : List (Nat × Bytes) := []
  fl : Fl := {}
  cands : List NanCand := []
  draws : Nat := 0
  lost : Nat := 0
  engine : Nat := 2

def OpOut.join (a b : OpOut) : OpOut :=
  { writes := a.writes ++ b.writes, fl := a.fl.or b.fl, cands := a.cands ++ b.cands, draws := a.draws + b.draws,
    lost := a.lost + b.lost, engine := a.engine }

/-- Flags of a task: sticky, of the round, of the program (R126, R188). -/
def Task.event (k : Task) (f : Fl) : Task :=
  { k with flags := k.flags.or f, flagsRound := k.flagsRound.or f, flagsProg := k.flagsProg.or f }

/-- Uncorrectable words of a core that have been read for items of a task: those of each bank are counted and are a detection, of class
TASK in a WEIGHT bank, of class ITEM in another (R365, entry 93). -/
def Dev.eccReadFor (d : Dev) (hs : List Nat) (c t round : Nat) (ws : List Nat) : Dev :=
  (ws.map bankOf).eraseDups.foldl (fun d b =>
    let mine := ws.filter (fun a => bankOf a == b)
    (d.count (coreOff c + 0x1818) 16 mine.length).detect
      { code := 0x0403, cls := if mgetD (d.core c).roles b 0 = 1 then clsTask else clsItem, kind := 0, task := t, unit := c,
        a := b + 256 * mine.length, b := mine.headD 0 } hs (d.task c t).job c t round) d

/-- Those that an operation of a task's word has read. -/
def Dev.eccRead (d : Dev) (c t w round : Nat) (ws : List Nat) : Dev := d.eccReadFor (d.opHandlesAt c t w round) c t round ws

/-- E_BOUND for accesses of a round's program that were not made (R361). -/
def Dev.boundFault (d : Dev) (w : Who) (round n : Nat) : Dev :=
  if n = 0 then d
  else
    let d1 := d.count (coreOff w.core + 0x1820) 32 n
    d1.failItems { code := 0x0504, kind := 0, task := w.task, unit := w.core } round (d1.opHandlesAt w.core w.task w.word round) none

/-- Candidates in the order of their element indices; of one element they keep the order in which the operation met them (R129). -/
def candInsert (n : NanCand) : List NanCand → List NanCand
  | [] => [n]
  | m :: r => if n.elem ≤ m.elem then n :: m :: r else m :: candInsert n r

def candSort (l : List NanCand) : List NanCand := l.foldr candInsert []

/-- Infinities of a tensor in a floating-point format that a word reads or writes: element and operand. -/
def View.infAt (v : View) (strict : Bool) (m : SMap Byte) (op : Nat) : List (Nat × Nat) :=
  if (tFmt v.t).isInt then []
  else ((List.range (tCount v.t)).filter (fun f => match v.val strict m (tPt v.t f) with
    | .inf _ => true
    | _ => false)).map (fun f => (f, op))

/-- Infinities that a word of an adaptation span meets: its operands in order, then what it wrote (R353, entry 80). -/
def Task.spanInf (k : Task) (m m' : SMap Byte) (w : Who) (reads writes : List Nat) (engine : Nat) : List NanCand :=
  if !k.adapting || !k.nanTrap then []
  else ((reads.zipIdx.flatMap (fun i => (k.view i.1 false []).infAt k.strict m (min i.2 4))) ++
    writes.flatMap (fun i => (k.view i true []).infAt k.strict m' 5)).map (fun e =>
      ({ word := w.word, engine := engine, operand := e.2, elem := e.1, round := k.progRound } : NanCand))

/-- The end of an operation: its writes land, flags and candidates gather, its ring slots move on, slips and bad words are
reported. -/
def Dev.opDone (d : Dev) (w : Who) (reads writes : List Nat) (slips : List (Nat × Bool)) (o : OpOut) : Dev :=
  let tk := d.tk w
  -- a slipped slot delivers zeros and is not read
  let read (i : Nat) : Bool := !tPeat (tk.desc i) && (tRing (tk.desc i) == 0xFF || !(slips.contains (tRing (tk.desc i), false)))
  let met := (d.core w.core).badFor ((reads.filter read).map (fun i => tk.view i false []))
  let d1 := d.onCore w.core (fun x => x.storeAll o.writes)
  let infs := tk.spanInf (d.core w.core).readable (d1.core w.core).readable w reads writes o.engine
  let d2 := d1.onTask w.core w.task (fun k => { k.event o.fl with cands := k.cands ++ candSort (o.cands ++ infs) })
  let d3 := d2.count (coreOff w.core + 0xD00) 32 o.draws
  let d4 := (tk.ringUses reads writes).foldl (fun d u => d.ringMove w.core w.task slips u) d3
  let d5 := slips.foldl (fun d u => d.slip w u.1) d4
  (d5.boundFault w tk.progRound o.lost).eccRead w.core w.task w.word tk.progRound met

/-- An uncorrectable word that the operation met (R365) is bad from then on: the operation reads zeros for it. -/
def Dev.evBad (d : Dev) (c : Nat) (ev : EngEv) : SMap Byte :=
  match ev.detect with
  | .eccUncorrectable _ addr => memZero (d.core c).readable (addr / 8 * 8) 8
  | _ => (d.core c).readable

def Dev.evSeen (d : Dev) (c : Nat) (ev : EngEv) : Dev := match ev.detect with
  | .eccUncorrectable _ addr => d.onCore c (fun x => { x with bad := mset x.bad (addr / 8) 1 })
  | _ => d

/-- What a detector saw in the reads of a command (R365): corrected words are counted, an uncorrectable one is bad from then on. -/
def Dev.seen (d : Dev) (c : Nat) (det : Detect) : Dev := match det with
  | .eccCorrected n => d.count (coreOff c + 0x1818) 0 n
  | .eccUncorrectable _ addr => d.onCore c (fun x => { x with bad := mset x.bad (addr / 8) 1 })
  | _ => d

def Dev.evMark (d : Dev) (w : Who) (ev : EngEv) : Dev := (d.evSeen w.core ev).engEvent w.core w.task w.word ev

/-! ### Random bits (R290 to R295) -/

/-- The purpose binding of a task (R294). -/
def Dev.binding (d : Dev) (c t purpose : Nat) : Option Rec := match (d.job (d.task c t).job).img with
  | some i => i.bindings.find? (fun b => fld b 0 2 == c && fld b 2 1 == t && fld b 3 1 == purpose)
  | none => none

/-- The stream of a job in an active slot. -/
def Dev.slotStream (d : Dev) (j slot : Nat) : Option (Nat × Stream) :=
  d.streams.find? (fun p => p.2.job == j && p.2.state != .free && p.2.slot == some slot)

/-- The positions of a stream that the program of a round reads (R36): those after that round's mark. -/
def Stream.posIn (s : Stream) (round : Nat) : RoundPos :=
  (s.pos.find? (fun p => p.round == round)).getD { round := round, frame := s.frame, token := s.token, seg := s.seg, dlen := s.dlen }

/-- Draw inputs K, S, C of R295, for a point of sizes s0 to s3. -/
def Dev.drawInputs (d : Dev) (c t purpose : Nat) (sizes : Nat → Nat) (p : Pt) (round : Nat) : Nat × Nat × Nat :=
  let k := d.task c t
  match (d.job k.job).img, d.binding c t purpose with
  | some im, some b =>
    let sd := fld b 5 1
    let pd := fld b 6 1
    let q := if pd = 0xFF then 0 else p.get pd
    let cc := ((List.range 4).foldl (fun (a : Nat × Nat) n =>
      if n = sd ∨ n = pd then a else (a.1 + a.2 * p.get n, a.2 * sizes n)) (0, 1)).1
    let own := if sd = 0xFF then none else d.slotStream k.job (fld b 7 1 * 64 + p.get sd)
    let (K, snum, pos) := match own with
      | some s => (s.2.seed, s.2.snum, ((if bit (fld b 4 1) 0 then (s.2.posIn round).token else (s.2.posIn round).frame) + q) % 2 ^ 48)
      | none => ((im.jobSeed + round / 2 ^ 32) % two64, (im.snumBase + 32768 + 8 * c + t) % 2 ^ 24, round % 2 ^ 32 * 65536 + q)
    (K, snum * 256 + cc % 256, rngCounter purpose pos (cc / 256))
  | _, _ => (0, 0, rngCounter purpose 0 0)

/-- The 64-bit draw of a point. -/
def Dev.draw (d : Dev) (c t purpose : Nat) (sizes : Nat → Nat) (p : Pt) : Nat :=
  let x := d.drawInputs c t purpose sizes p (d.task c t).progRound
  mix x.1 x.2.1 x.2.2

/-- A rounding mode of R119 with its random bits for a point. -/
def Dev.rmOf (d : Dev) (c t round purpose : Nat) (sizes : Nat → Nat) (p : Pt) : Rm :=
  if round = 0 then .rne else if round = 1 then .rtz else .sr (bitsSr (d.draw c t purpose sizes p))

end Sys2Proof.Machine
end

