-- ==== Sys2Proof/Machine/Peat.lean ====
section
/-! DEFINITION. Machine/Peat.lean: Peat blocks (R419 to R426, R428), value-table generations (R430 to R434). -/

namespace Sys2Proof.Machine

/-- Slot size of a class (R419). -/
def peatSize (c : Nat) : Nat := if c = 0 then 128 else if c = 1 then 256 else if c = 2 then 384 else 520

/-- The smallest class whose slot holds 8 bytes and a payload; none when it fits no class (R420). -/
def peatClass (payload : Nat) : Option Nat := (List.range 4).find? (fun c => decide (8 + payload ≤ peatSize c))

/-- Elements of width w bytes of a raw block. -/
def peatElems (w : Nat) (raw : Bytes) : List Nat := (chunks w raw).map leNat

/-- The bitmap of non-zero elements, element i at bit i mod 8 of byte i ÷ 8 (R421). -/
def peatBitmap (es : List Nat) : Bytes :=
  (List.range (es.length / 8)).map (fun k => BitVec.ofNat 8 ((List.range 8).foldl (fun a i =>
    a + (if es.getD (8 * k + i) 0 = 0 then 0 else 2 ^ i)) 0))

/-- Nibbles packed in ascending order from the low bits (R106). -/
def packNibbles : List Nat → Bytes
  | [] => []
  | [a] => [BitVec.ofNat 8 (a % 16)]
  | a :: b :: r => BitVec.ofNat 8 (a % 16 + 16 * (b % 16)) :: packNibbles r

/-- A stored block of a coding: header, CRC and payload, filled with zeros to its slot (R419, R420). -/
def peatStored (cls coding ew nnz tgen : Nat) (payload : Bytes) : Bytes :=
  let h := leBytes 4 (cls + 4 * coding + 16 * ew + 64 * nnz + 65536 * tgen)
  let body := sliceZ (h ++ leBytes 4 0 ++ payload) 0 (peatSize cls)
  sliceZ (h ++ leBytes 4 (crc32c body) ++ payload) 0 (peatSize cls)

/-- A block and the class of its slot. -/
structure PeatBlock where
  cls : Nat
  tgen : Nat
  bytes : Bytes
  deriving DecidableEq, Repr

/-- The encoder's choice (R423): the smallest class, SPARSE before TABLE before RAW. -/
def peatEncode (ew gen : Nat) (table : Option (List Nat)) (raw : Bytes) : PeatBlock :=
  let es := peatElems (2 ^ ew) raw
  let nz := es.filter (· != 0)
  let bm := peatBitmap es
  let sparse := bm ++ nz.flatMap (leBytes (2 ^ ew))
  let tab : Option Bytes := match table with
    | some v => if gen ≠ 0 ∧ nz.all (fun e => v.contains e) then some (bm ++ packNibbles (nz.map (fun e => v.idxOf e))) else none
    | none => none
  let sc := peatClass sparse.length
  let tc := tab.bind (fun p => peatClass p.length)
  let mk (c coding g : Nat) (p : Bytes) (n : Nat) : PeatBlock := ⟨c, g, peatStored c coding ew n g p⟩
  match sc, tc, tab with
  | some s, some t, some p => if s ≤ t then mk s 1 0 sparse nz.length else mk t 2 gen p nz.length
  | some s, _, _ => mk s 1 0 sparse nz.length
  | none, some t, some p => mk t 2 gen p nz.length
  | none, _, _ => mk 3 0 0 raw 0

/-! ### Decoding -/

/-- What the decoder delivers: 512 bytes, the code of a failed check, where the block lies and its size, and whether its slot lies
outside what the task may read. -/
structure PeatGot where
  raw : Bytes
  code : Nat
  tgen : Nat
  addr : Nat
  size : Nat
  out : Bool
  deriving DecidableEq, Repr

/-- Elements put back at the set bits of a bitmap. -/
def peatFill (w : Nat) : List Bool → List Nat → Bytes
  | [], _ => []
  | false :: r, vs => leBytes w 0 ++ peatFill w r vs
  | true :: r, v :: vs => leBytes w v ++ peatFill w r vs
  | true :: r, [] => leBytes w 0 ++ peatFill w r []

/-- An index entry of a tensor (R424, R425). -/
def peatEntry (rd : Nat → Nat → Bytes) (pidx b : Nat) : Nat := leNat (rd (pidx + 64 + 8 * b) 8)

/-- The decoder's checks in order (R428, R434): a word delivered as zeros, the CRC, the coding, NNZ and CLASS, EW and the
index, and the table generation. A slot outside the region is not read (R361). -/
def peatDecode (rd : Nat → Nat → Bytes) (inside bad : Nat → Nat → Bool) (tab : Nat → Option (List Nat)) (pidx b : Nat) : PeatGot :=
  let e := peatEntry rd pidx b
  let addr := 8 * bits e 0 45
  let out := !inside addr (peatSize (bits e 45 2))
  let blk := if out then zeros 520 else rd addr 520
  let h := leAt blk 0 4
  let cls := bits h 0 2
  let coding := bits h 2 2
  let ew := bits h 4 2
  let nnz := bits h 6 10
  let tgen := bits h 16 16
  let w := 2 ^ ew
  let n := 512 / w
  let iw := leAt (rd (pidx + 4) 1) 0 1
  let flat := blk.take 4 ++ leBytes 4 0 ++ (blk.drop 8).take (peatSize cls - 8)
  let bmBytes := (blk.drop 8).take (n / 8)
  let flags := bmBytes.flatMap (fun x => (List.range 8).map (fun i => x.toNat.testBit i))
  let set := (flags.filter id).length
  let payload := if coding = 1 then n / 8 + set * w else n / 8 + (set + 1) / 2
  let fail (code : Nat) : PeatGot := ⟨zeros 512, code, tgen, addr, peatSize cls, out⟩
  if bad addr (peatSize cls) then fail 0x0403
  else if leAt blk 4 4 ≠ crc32c flat then fail 0x0404
  else if coding = 3 ∨ (coding = 0 ∧ cls ≠ 3) then fail 0x0404
  else if (coding = 0 ∧ nnz ≠ 0) ∨ (coding ≠ 0 ∧ (nnz ≠ set ∨ peatClass payload ≠ some cls)) then fail 0x0404
  else if ew ≠ iw ∨ 2 < ew ∨ bits e 45 2 < cls ∨ bits e 48 16 ≠ tgen then fail 0x0404
  else if coding = 0 then ⟨(blk.drop 8).take 512, 0, tgen, addr, peatSize cls, out⟩
  else if coding = 1 then ⟨peatFill w flags ((chunks w ((blk.drop (8 + n / 8)).take (set * w))).map leNat), 0, tgen, addr, peatSize cls, out⟩
  else match tab tgen with
    | some v =>
      let ix := ((blk.drop (8 + n / 8)).take ((set + 1) / 2)).flatMap (fun x => [x.toNat % 16, x.toNat / 16])
      ⟨peatFill w flags ((ix.take set).map (fun i => v.getD i 0)), 0, tgen, addr, peatSize cls, out⟩
    | none => fail 0x0602

/-! ### Generations (R430 to R434) -/

/-- A slot's generation is available to the program of a round (R431). -/
def GenSlot.serves (g : GenSlot) (round : Nat) : Bool :=
  decide (g.since ≤ round) && (g.state == 1 || (g.state == 2 && decide (round < g.retired)))

/-- A load of an earlier round's program replaces a generation at its next mark, so that it no longer serves the round (R431). -/
def Core.superseded (x : Core) (round gen : Nat) : Bool :=
  x.staged.any (fun l => l.replaces == gen && decide (l.since ≤ round) && !(x.gens.any (fun g => g.state == 1 && g.gen == l.gen)))

/-- The value table of a generation for the program of a round. -/
def Core.table (x : Core) (round gen : Nat) : Option (List Nat) :=
  if x.superseded round gen then none else (x.gens.find? (fun g => g.state != 0 && g.gen == gen && g.serves round)).map (·.values)

/-- An available generation whose load is still pending (R434), or, staged by the program of an earlier round, waits for its mark. -/
def Core.tablePending (x : Core) (round gen : Nat) : Bool :=
  x.gens.any (fun g => g.state != 0 && g.gen == gen && g.serves round && g.values.isEmpty && gen != 0) ||
  (x.pendLoads ++ x.staged).any (fun l => l.gen == gen && decide (l.since ≤ round)) && (x.table round gen).isNone

/-- A load takes the lowest EMPTY slot; with none it waits (R432). -/
def Core.takeSlot (x : Core) (l : TableLoad) : Core :=
  match x.gens.findIdx? (fun g => g.state == 0) with
  | some i => { x with gens := lset x.gens i (fun _ =>
      { state := 1, gen := l.gen, ew := l.ew, values := l.values, since := l.since, retired := 0 }) }
  | none => { x with pendLoads := x.pendLoads ++ [l] }

/-- R433: a RETIRING slot becomes EMPTY and the oldest pending load takes it. -/
def Core.freeSlot (x : Core) (i : Nat) : Core :=
  let x1 := { x with gens := lset x.gens i (fun _ => GenSlot.reset) }
  match x1.pendLoads with
  | l :: r => ({ x1 with pendLoads := r }).takeSlot l
  | [] => x1

/-- R432 at the mark: one staged load; true when it is dropped with E_TABLE_MISS: all four slots hold generations that are available, or four
loads are pending already (R441; entry 113). -/
def Core.applyLoad (x : Core) (l : TableLoad) : Core × Bool :=
  if x.gens.any (fun g => g.state == 1 && g.gen == l.gen) || x.pendLoads.any (fun p => p.gen == l.gen) then (x, false)
  else
    let x1 := { x with gens := x.gens.map (fun g =>
      if l.replaces ≠ 0 && g.state == 1 && g.gen == l.replaces then { g with state := 2, retired := l.since } else g) }
    if x1.gens.all (fun g => g.state == 1) || decide (4 ≤ x1.pendLoads.length) then (x1, true) else (x1.takeSlot l, false)

/-! ### Readers of a space -/

/-- Bytes of the cistern relative to a task's region; outside it, zeros (R361). -/
def cisReader (m : SMap Byte) (base bound : Nat) (a n : Nat) : Bytes :=
  (List.range n).map (fun i => if base + a + i < bound then memGet m (base + a + i) else 0)

/-- The bad words of a block. -/
def PeatGot.badWords (g : PeatGot) (x : Core) (base : Nat) : List Nat :=
  x.badWords [((base + g.addr : Nat), (base + g.addr + g.size : Nat))]

/-- A block of a tensor of a core, as the expander delivers it to a request of a round's program of a task (R434). -/
def Dev.cisBlock (d : Dev) (c t round : Nat) (m : SMap Byte) (pidx b : Nat) : PeatGot :=
  let k := d.task c t
  let x := d.core c
  peatDecode (cisReader m k.base k.bound) (fun a n => decide (k.base + a + n ≤ k.bound))
    (fun a n => x.bad.any (fun w => overlaps ((8 * w.1 : Nat), (8 * w.1 + 8 : Nat)) ((k.base + a : Nat), (k.base + a + n : Nat))))
    (fun g => if g = 0 then none else x.table round g) pidx b

end Sys2Proof.Machine
end

