-- ==== Sys2Proof/Machine/PumpPlan.lean ====
section
/-! DEFINITION. Machine/PumpPlan.lean: what a pump transfer reads and writes (R403 to R408, R426, R427), and page walks (R239, R406). -/

namespace Sys2Proof.Machine

/-! ### Pump descriptors (R403) -/

def pdSrc (r : Rec) : Nat := fld r 0 2
def pdDst (r : Rec) : Nat := fld r 2 2
def pdIdx (r : Rec) : Nat := fld r 4 2
def pdMode (r : Rec) : Nat := fld r 6 1
def pdDecode (r : Rec) : Bool := bit (fld r 7 1) 0
def pdAlloc (r : Rec) : Bool := bit (fld r 7 1) 1
def pdDrain (r : Rec) : Bool := bit (fld r 7 1) 2
def pdTwin (r : Rec) : Bool := bit (fld r 7 1) 3
def pdRetiring (r : Rec) : Bool := bit (fld r 7 1) 4
def pdTally (r : Rec) : Bool := bit (fld r 7 1) 5
def pdBlock (r : Rec) : Nat := fld r 8 4
def pdUnit (r : Rec) : Nat := fld r 12 2
def pdDst2 (r : Rec) : Nat := fld r 14 2
def pdTly (r : Rec) : Nat := fld r 16 1
def pdTlyCore (r : Rec) : Nat := fld r 18 2
def pdGen (r : Rec) : Nat := fld r 20 2
def pdReplaces (r : Rec) : Nat := fld r 22 2
def pdPool (r : Rec) : Nat := fld r 28 4
def pdRoute (r : Rec) : Nat := fld r 32 2
def pdDstCore (r : Rec) : Nat := fld r 34 1
def pdWindow (r : Rec) : Nat := fld r 35 1
def pdLand (r : Rec) : Nat := fld r 36 1

/-! ### Bytes of tensors -/

def tDense (t : Rec) : Nat := tRowBytes t * tSize t 1 * tSize t 2 * tSize t 3

/-- Offsets and lengths that a STRIDED transfer copies: elements, or rows where dimension 0 is packed (R404, R622). -/
def stridedParts (s t : Rec) : List (Int × Int × Nat) :=
  if tPacked s then
    (List.range (tSize s 1 * tSize s 2 * tSize s 3)).map (fun f =>
      let p := ptOf 1 (tSize s 1) (tSize s 2) f
      ((tOff s p).1, (tOff t p).1, tRowBytes s))
  else (List.range (tCount s)).map (fun f => ((tOff s (tPt s f)).1, (tOff t (tPt s f)).1, (tFmt s).size))

/-! ### What a transfer reads and writes -/

/-- A transfer's bytes: charged by the regulator, places read (with their space) and written, and what went wrong. Cistern places
are relative to the task's region, others are addresses of their space. -/
structure PumpPlan where
  total : Nat := 0
  reads : List (Nat × Nat × Nat) := []
  lost : Nat := 0
  writes : List (Nat × Bytes) := []
  entries : List (Nat × Bytes) := []
  pool : SMap Nat := []
  code : Nat := 0
  faults : List PeatGot := []
  blocks : Nat := 0
  waits : Bool := false
  /-- Places of blocks that the expander reads, and reports on. -/
  stored : List (Nat × Nat) := []
  /-- Active slots whose rows read a range with a page in the deep well (R406). -/
  deepSlots : List Nat := []

/-- The deep well is host memory (R523): its bytes come with the command, in the order in which the transfer reads them. -/
def Dev.rdSpace (d : Dev) (c t : Nat) (deep : SMap Byte) (space a n : Nat) : Bytes :=
  let k := d.task c t
  if space = 0 then cisReader (d.core c).readable k.base k.bound a n
  else if space = 1 then (if d.unmapped a n then zeros n else d.wellRead a n)
  else if space = 2 then (if a + n ≤ d.regF 0x101110 12 36 * 4096 then memRead deep a n else zeros n)
  else zeros n

/-- A part that a transfer reads lies inside its space: the task's region, the mapped well, the deep well (R361, R389, R523). -/
def Dev.partIn (d : Dev) (c t space : Nat) (a : Int) (n : Nat) : Bool :=
  let k := d.task c t
  decide (0 ≤ a) && (if space = 0 then decide (k.base + a.toNat + n ≤ k.bound) else if space = 1 then decide (a.toNat + n ≤ Config.wellBytes) && !d.unmapped a.toNat n
    else decide (a.toNat + n ≤ d.regF 0x101110 12 36 * 4096))

/-- Start of a tensor in its space. -/
def Task.tStart (k : Task) (t : Rec) (writing : Bool) : Nat := if tSpace t = 0 then k.tensorOff t writing else tAddr t

/-- Deep-well bytes placed where a transfer reads them, one part after another. -/
def placeDeep (parts : List (Nat × Nat)) (bs : Bytes) : SMap Byte :=
  (parts.foldl (fun (a : SMap Byte × Bytes) p => (memWrite a.1 p.1 (sliceZ a.2 0 p.2), a.2.drop p.2)) ([], bs)).1

def planPlain (s : Rec) (space sa ta : Nat) (rd : Nat → Nat → Bytes) (ok : Int → Nat → Bool) : PumpPlan :=
  { total := if ok sa (tDense s) then tDense s else 0
    reads := if ok sa (tDense s) then [(space, sa, tDense s)] else []
    lost := if ok sa (tDense s) then 0 else 1
    writes := [(ta, if ok sa (tDense s) then rd sa (tDense s) else zeros (tDense s))] }

def planStrided (s t : Rec) (space sa ta : Nat) (rd : Nat → Nat → Bytes) (ok : Int → Nat → Bool) : PumpPlan :=
  let ps := stridedParts s t
  let made := ps.filter (fun p => ok ((sa : Int) + p.1) p.2.2)
  { total := (made.map (fun p => p.2.2)).foldl (· + ·) 0
    reads := made.map (fun p => (space, ((sa : Int) + p.1).toNat, p.2.2))
    lost := ps.length - made.length
    writes := ps.map (fun p => (((ta : Int) + p.2.1).toNat,
      if ok ((sa : Int) + p.1) p.2.2 then rd ((sa : Int) + p.1).toNat p.2.2 else zeros p.2.2)) }

/-- INDEXED (R405): an index of −1 writes zeros and reads nothing; a block outside its space is not read and gives zeros (R361). -/
def planIndexed (n bb : Nat) (ispace : Nat) (ia : Nat → Nat) (idx : Nat → Int) (space sa ta : Nat) (rd : Nat → Nat → Bytes)
    (ok : Int → Nat → Bool) : PumpPlan :=
  let js := (List.range n).map (fun j => (j, idx j, (sa : Int) + idx j * bb))
  let named := js.filter (fun p => p.2.1 != -1)
  let made := named.filter (fun p => ok p.2.2 bb)
  { total := 4 * n + bb * made.length
    reads := (List.range n).map (fun j => (ispace, ia j, 4)) ++ made.map (fun p => (space, p.2.2.toNat, bb))
    lost := named.length - made.length
    writes := js.map (fun p => (ta + p.1 * bb, if p.2.1 = -1 || !ok p.2.2 bb then zeros bb else rd p.2.2.toNat bb)) }

/-! ### Pools of Peat slots (R427, R436) -/

/-- First byte of a class's slots in a pool. -/
def poolClassBase (p : Rec) (c : Nat) : Nat :=
  fld p 8 8 + ((List.range c).map (fun i => fld p (16 + 4 * i) 4 * peatSize i)).foldl (· + ·) 0

/-- The lowest free slot of a class, or of the next larger class that has one: address and class. -/
def poolTake (p : Rec) (used : SMap Nat) (c : Nat) : Option (Nat × Nat) :=
  ((List.range 4).filter (fun k => decide (c ≤ k))).findSome? (fun k =>
    ((List.range (fld p (16 + 4 * k) 4)).map (fun i => poolClassBase p k + i * peatSize k)).findSome? (fun a =>
      if (mget used a).isNone then some (a, k) else none))

/-- Stored blocks copied in block order, placed one after another or in a pool's slots (R426, R427). A slot outside its space is not
read and gives zeros (R361). -/
def planStored (space si ta ti blocks : Nat) (pool : Option Rec) (used : SMap Nat) (rd : Nat → Nat → Bytes) (ok : Int → Nat → Bool) :
    PumpPlan :=
  let r := (List.range blocks).foldl (fun (a : PumpPlan × Nat × Nat) b =>
    if a.1.code ≠ 0 then a
    else
      let named := ok (si + 64 + 8 * b : Nat) 8
      let e := if named then peatEntry rd si b else 0
      let c := bits e 45 2
      let src := 8 * bits e 0 45
      let place : Option (Nat × Nat) := match pool with
        | some p => poolTake p a.1.pool c
        | none => some (ta + a.2.1, c)
      match place with
      | none => ({ a.1 with code := 0x0603 }, a.2)
      | some (at_, k) =>
        ({ a.1 with
            total := a.1.total + 8 * named.toNat + (if ok src (peatSize c) then peatSize c else 0)
            reads := a.1.reads ++ (if named then [(space, si + 64 + 8 * b, 8)] else []) ++ (if ok src (peatSize c) then [(space, src, peatSize c)] else [])
            lost := a.1.lost + (!named).toNat + (if ok src (peatSize c) then 0 else 1)
            writes := a.1.writes ++ [(at_, if ok src (peatSize c) then rd src (peatSize c) else zeros (peatSize c)), (ti + 64 + 8 * b, leBytes 8 (at_ / 8 + k * 2 ^ 45 + bits e 48 16 * 2 ^ 48))]
            pool := if pool.isSome then mset a.1.pool at_ 1 else a.1.pool }, a.2.1 + peatSize k, a.2.2 + peatSize k))
    (({ pool := used, total := 64, reads := [(space, si, 64)] } : PumpPlan), 0, 0)
  { r.1 with writes := r.1.writes ++ (if blocks = 0 then [] else [(ti + 16, leBytes 8 r.2.2)]) }

/-- The dense bytes of a tensor laid where its strides place them: rows where dimension 0 is packed, elements otherwise (R404, R622). -/
def scatter (t : Rec) (ta : Nat) (raw : Bytes) : List (Nat × Bytes) :=
  if tPacked t then
    (List.range (tSize t 1 * tSize t 2 * tSize t 3)).map (fun f =>
      (((ta : Int) + (tOff t (ptOf 1 (tSize t 1) (tSize t 2) f)).1).toNat, sliceZ raw (f * tRowBytes t) (tRowBytes t)))
  else (List.range (tCount t)).map (fun f => (((ta : Int) + (tOff t (tPt t f)).1).toNat, sliceZ raw (f * (tFmt t).size) (tFmt t).size))

/-- Places of the blocks of n raw bytes of a Peat tensor in a task's region, as their index entries name them: address, size. -/
def Dev.blocksAt (d : Dev) (c t : Nat) (pidx n : Nat) : List (Nat × Nat) :=
  let k := d.task c t
  (List.range ((n + 511) / 512)).map (fun b =>
    let e := peatEntry (cisReader (d.core c).readable k.base k.bound) pidx b
    (8 * bits e 0 45, peatSize (bits e 45 2)))

/-- Decoding through the expander, for a request of a round's program (R408, R434). -/
def Dev.planDecode (d : Dev) (c t round : Nat) (s : Rec) (n : Nat) (place : Bytes → List (Nat × Bytes)) (ok : Int → Nat → Bool) : PumpPlan :=
  let m := (d.core c).readable
  let blocks := d.blocksAt c t (tPeatIndex s) n
  let index := 64 + 8 * ((n + 511) / 512)
  let gs := (List.range ((n + 511) / 512)).map (fun b => d.cisBlock c t round m (tPeatIndex s) b)
  { total := index + (blocks.map Prod.snd).foldl (· + ·) 0
    reads := if ok (tPeatIndex s : Nat) index then [(0, tPeatIndex s, index)] else []
    lost := (gs.filter (·.out)).length + (if ok (tPeatIndex s : Nat) index then 0 else 1)
    writes := place ((gs.flatMap (·.raw)).take n)
    faults := gs.filter (fun g => g.code != 0)
    blocks := gs.length
    stored := blocks
    waits := gs.any (fun g => (d.core c).tablePending round g.tgen) }

/-! ### Page walks (R239, R406) -/

/-- A KV layer entry's fields (R232). -/
def kvElem (r : Rec) : Nat := if fld r 1 1 = 1 then 2 else 1
def kvDim (r : Rec) : Nat := 32 * fld r 2 1
def kvHeads (r : Rec) : Nat := fld r 3 1
def kvHpc (r : Rec) : Nat := fld r 5 1
def kvSplit (r : Rec) : Nat := fld r 6 1
def kvReach (r : Rec) : Nat := fld r 7 1
def kvRangePages (r : Rec) : Nat := fld r 8 2
def kvWindow (r : Rec) : Bool := bit (fld r 12 1) 1
def kvTask (r : Rec) : Nat := fld r 13 1
def kvCore0 (r : Rec) : Nat := fld r 14 1
def kvWindowTok (r : Rec) : Nat := fld r 16 4
def kvWellFrames (r : Rec) : Nat := fld r 24 4
def kvDeepFrames (r : Rec) : Nat := fld r 28 4
def kvPoolFrames (r : Rec) : Nat := fld r 32 4
def kvPoolBase (r : Rec) : Nat := fld r 36 4
def kvWellBase (r : Rec) : Nat := fld r 40 8
def kvDeepBase (r : Rec) : Nat := fld r 48 8

/-- Bytes of a page of one head (R234). -/
def kvPage (r : Rec) : Nat := 32 * kvDim r * kvElem r

/-- Range cores of a KV layer (R233). -/
def kvCores (l : Rec) : List Nat :=
  (List.range ((kvHeads l + kvHpc l - 1) / max 1 (kvHpc l))).flatMap (fun q => (List.range (kvSplit l)).map (fun j => kvCore0 l + q * kvSplit l + j))

/-- Entry n of a sequence's page list of 3 × mx entries (R236). -/
def Seq.entry (s : Seq) (mx n : Nat) : Nat :=
  if n < mx then mgetD s.cur n noPage else if n < 2 * mx then mgetD s.twin (n - mx) noPage else mgetD s.ret (n - 2 * mx) noPage

/-- The page that entry i delivers to a walk (R239): a twin stands for an entry that the open generation can write alone (R251). -/
def walkEntry (kv : Rec) (list : Nat → Nat) (len : Nat) (retiring twin : Bool) (i : Nat) : Nat :=
  let mx := max 1 (kvMaxPages kv)
  if retiring then list (2 * mx + i)
  else if twin && (if kvWindow kv then decide ((i + mx - len / 16 % mx) % mx ≤ kvReach kv) else decide (len / 16 ≤ i)) && list (mx + i) != noPage then
    list (mx + i)
  else list i

/-- Address of element k of row q of a tensor of sequence records that starts at `ia`. -/
def recAt (idx : Rec) (ia k q : Nat) : Nat := ((ia : Int) + (tOff idx ⟨k, q, 0, 0⟩).1).toNat

/-- The sequence record in row q (R237, R406). -/
def recRow (idx : Rec) (ia q : Nat) (rd : Nat → Nat → Nat → Bytes) : Bytes :=
  (List.range 8).flatMap (fun k => rd (tSpace idx) (recAt idx ia k q) 4)

/-- Place of a page list: its space, and its address there (R237, R63). -/
def listSpace (la : Nat) : Nat := bits la 48 3
def listAt (la n : Nat) : Nat := bits la 0 48 + 4 * n

/-- One page's writes: its keys as they lie, its values channel by channel. -/
def pageWrites (kv : Rec) (Q kst vst row : Nat) (page : Bytes) : List (Nat × Bytes) :=
  let e := kvElem kv
  let d := kvDim kv
  (kst + row * 16 * d * e, page.take (16 * d * e)) ::
    (List.range d).map (fun c => (vst + (c * 16 * kvRangePages kv * Q + row * 16) * e,
      (page.drop (16 * d * e + c * 16 * e)).take (16 * e)))

/-- The layer entry that a KV_WALK descriptor of a job names. -/
def Dev.walkLayer (d : Dev) (job : Nat) (r : Rec) : Option Rec :=
  (((d.job job).img.bind (fun i => i.cls (fld r 24 1))).map (fun c => c.2.1)).bind (fun ls => ls.find? (fun l => kvLayer l == fld r 25 1))

/-- The walk of a range for the sequences of its IDX rows (R406): a record that names no list stands for the device's own (entry 96). -/
def Dev.planWalk (d : Dev) (x : Xfer) (r : Rec) (kst vst : Nat) (idx : Rec) (rd : Nat → Nat → Nat → Bytes) : PumpPlan :=
  let k := d.task x.core x.task
  match d.walkLayer x.job r with
  | some kv =>
    let Q := tSize idx 1
    let h := fld r 26 1
    let j := fld r 27 1
    let ia := k.tStart idx false
    let fb := kvPage kv
    (List.range Q).foldl (fun (a : PumpPlan) q =>
      let rec_ := recRow idx ia q rd
      let la := leAt rec_ 24 8
      let s := match d.slotStream x.job (leAt rec_ 6 2) with
        | some p => d.seq p.1 (kvLayer kv)
        | none => Seq.reset
      let list (n : Nat) : Nat := if la = 0 then s.entry (max 1 (kvMaxPages kv)) n else leNat (rd (listSpace la) (listAt la n) 4)
      let named (n : Nat) : Bool := la = 0 || d.partIn x.core x.task (listSpace la) (listAt la n : Nat) 4
      let len := if la = 0 then s.len else leAt rec_ 0 4
      let es := (List.range (kvRangePages kv)).filter (fun i => decide (j * kvRangePages kv + i < kvMaxPages kv))
      es.foldl (fun (a : PumpPlan) i =>
        let p := walkEntry kv list len (pdRetiring r) (pdTwin r) (j * kvRangePages kv + i)
        let f := bits p 0 30
        let tier := bits p 30 2
        let row := q * kvRangePages kv + i
        let addr := if tier = 0 then kvPoolBase kv + f * kvHpc kv * fb + h % (max 1 (kvHpc kv)) * fb
          else kvWellBase kv + (f * kvHeads kv + h) * fb
        let there := tier < 2 && d.partIn x.core x.task tier addr fb
        let page := if there then rd tier addr fb else zeros fb
        { a with
          total := a.total + 4 + (if there then fb else 0)
          reads := if there then a.reads ++ [(tier, addr, fb)] else a.reads
          lost := a.lost + (if tier < 2 && !there then 1 else 0) + (!named (j * kvRangePages kv + i)).toNat
          writes := a.writes ++ pageWrites kv Q kst vst row page
          code := if tier = 2 then 0x0601 else a.code
          deepSlots := if tier = 2 && !a.deepSlots.contains (leAt rec_ 6 2) then a.deepSlots ++ [leAt rec_ 6 2] else a.deepSlots }) { a with
          total := a.total + 32
          reads := a.reads ++ (List.range 8).map (fun k => (tSpace idx, recAt idx ia k q, 4)) ++
            (if la = 0 then [] else (es.filter (fun i => named (j * kvRangePages kv + i))).map (fun i => (listSpace la, listAt la (j * kvRangePages kv + i), 4))) }) {}
  | none => {}

/-! ### The plan of a transfer -/

/-- Deep-well bytes of the records and lists of a walk: records first, then the lists that they place there (R237, R406). -/
def walkDeep (kv : Rec) (r idx : Rec) (ia : Nat) (deep : Bytes) : SMap Byte :=
  let Q := tSize idx 1
  let recs := if tSpace idx = 2 then (List.range Q).flatMap (fun q => (List.range 8).map (fun k => (recAt idx ia k q, 4))) else []
  let lists (m : SMap Byte) : List (Nat × Nat) := (List.range Q).flatMap (fun q =>
    let la := if tSpace idx = 2 then leAt (recRow idx ia q (fun _ a n => memRead m a n)) 24 8 else 0
    if listSpace la = 2 then (List.range (kvRangePages kv)).map (fun i => (listAt la (fld r 27 1 * kvRangePages kv + i), 4)) else [])
  placeDeep (recs ++ lists (placeDeep recs deep)) deep

/-- Where a transfer of the deep well reads, so that the command's bytes can be laid there. -/
def deepParts (s : Rec) (mode n : Nat) (bb : Nat) (idx : Nat → Int) (deep : Bytes) : List (Nat × Nat) :=
  if tPeat s then
    let h := leNat (sliceZ deep 0 4)
    (tPeatIndex s, 64 + 8 * h) :: (List.range h).map (fun b =>
      let e := leAt deep (64 + 8 * b) 8
      (8 * bits e 0 45, peatSize (bits e 45 2)))
  else if mode = 2 then ((List.range n).filter (fun j => idx j != -1)).map (fun j => (((tAddr s : Int) + idx j * bb).toNat, bb))
  else [(((tAddr s : Int) + (tSpan s).1).toNat, ((tSpan s).2 - (tSpan s).1).toNat)]

def Dev.pumpPlan (d : Dev) (x : Xfer) (deep : Bytes) : PumpPlan :=
  let k := d.task x.core x.task
  let r := k.desc x.desc
  let s := k.desc (pdSrc r)
  let t := k.desc (pdDst r)
  let sa := k.tStart s false
  let ta := k.tStart t true
  let ix := k.desc (pdIdx r)
  let ia := k.tStart ix false
  let ixAt (j : Nat) : Nat := ((ia : Int) + (tOff ix ⟨j, 0, 0, 0⟩).1).toNat
  -- indices in the deep well come first
  let ixs : List (Nat × Nat) := if pdMode r = 2 ∧ tSpace ix = 2 then (List.range (tSize ix 0)).map (fun j => (ixAt j, 4)) else []
  let idx (j : Nat) : Int := sext 32 (leNat (d.rdSpace x.core x.task (placeDeep ixs deep) (tSpace ix) (ixAt j) 4))
  let ok := d.partIn x.core x.task (tSpace s)
  let dm := if pdMode r = 3 then (match d.walkLayer x.job r with
      | some kv => walkDeep kv r ix ia deep
      | none => [])
    else placeDeep (ixs ++ (if tSpace s = 2 then deepParts s (pdMode r) (tSize ix 0) (pdBlock r) idx (deep.drop (4 * ixs.length)) else [])) deep
  let rd := d.rdSpace x.core x.task dm
  let mode := pdMode r
  if mode = 0 ∨ mode = 1 then
    if tPeat s && pdDecode r then
      d.planDecode x.core x.task x.round s (tDense t) (fun raw => if mode = 0 then [(ta, raw)] else scatter t ta raw) ok
    else if tPeat s then
      let pool := if pdAlloc r then ((d.job x.job).img.bind (fun i => i.pools.find? (fun p => fld p 0 2 == pdPool r))) else none
      let B := leNat (rd (tSpace s) (tPeatIndex s) 4)
      if pdAlloc r && pool.isNone then { code := 0x0603 }
      else planStored (tSpace s) (tPeatIndex s) ta (tPeatIndex t) B pool d.poolUse (rd (tSpace s)) ok
    else if mode = 0 then planPlain s (tSpace s) sa ta (rd (tSpace s)) ok
    else planStrided s t (tSpace s) sa ta (rd (tSpace s)) ok
  else if mode = 2 then planIndexed (tSize ix 0) (pdBlock r) (tSpace ix) ixAt idx (tSpace s) sa ta (rd (tSpace s)) ok
  else if mode = 3 then d.planWalk x r (k.tStart t true) (k.tStart (k.desc (pdDst2 r)) true) ix rd
  else if mode = 4 then { total := 64, reads := [(tSpace s, sa, 64)] }
  else
    let B := leNat (rd (tSpace s) (tPeatIndex s) 4)
    let as_ := (List.range B).map (fun b => 8 * bits (peatEntry (rd (tSpace s)) (tPeatIndex s) b) 0 45)
    { total := 64 + 8 * B
      reads := [(tSpace s, tPeatIndex s, 64 + 8 * B)]
      entries := (List.range B).map (fun b => (tPeatIndex s + 64 + 8 * b, zeros 8))
      pool := as_.foldl (fun m a => mdel m a) d.poolUse }

end Sys2Proof.Machine
end

