-- ==== Sys2Proof/Machine/Interlock.lean ====
section
/-! DEFINITION. Machine/Interlock.lean: schedule words in the cistern (R69), the waits of a word for transfers and takes (R165), and the tests before
an operation's first access (R376, R378). -/

namespace Sys2Proof.Machine

/-! ### Schedule words -/

/-- Schedule words of a task, from its program in the cistern (R69). -/
def Dev.wordAt (d : Dev) (c t i : Nat) : Nat :=
  let k := d.task c t
  leNat (memRead (d.core c).readable (k.base + k.schedAddr + 8 * i) 8)

def wOpcode (w : Nat) : Nat := bits w 31 6
def wArgs (w : Nat) : Nat := bits w 0 31
def wOffset (w : Nat) : Nat := bits w 37 27

/-! ### Interlocks -/

/-- Bytes of a task's region as absolute offsets. -/
def Task.abs (k : Task) (a n : Nat) : Int × Int := ((k.base + a : Nat), (k.base + a + n : Nat))

/-- The stored bytes of a Peat tensor that is read: its index, and the slots that the index names (R424, R425). -/
def Dev.peatReads (d : Dev) (c t : Nat) (r : Rec) (raw : Nat) : List (Int × Int) :=
  (d.task c t).abs (tPeatIndex r) (64 + 8 * ((raw + 511) / 512)) :: (d.blocksAt c t (tPeatIndex r) raw).map (fun b => (d.task c t).abs b.1 b.2)

/-- The stored bytes of a Peat tensor that is written: its index, and 520 bytes for each block (R426). -/
def Task.peatWrites (k : Task) (r : Rec) : List (Int × Int) :=
  [k.abs (tPeatIndex r) (64 + 8 * ((tDense r + 511) / 512)), k.abs (tAddr r) (520 * ((tDense r + 511) / 512))]

/-- The places of a tensor in the cistern that names no ring; none of another tensor. -/
def Dev.places (d : Dev) (c t i : Nat) (writing : Bool) : List (Int × Int) :=
  let k := d.task c t
  let r := k.desc i
  if i = 0xFFFF ∨ tSpace r ≠ 0 ∨ tRing r ≠ 0xFF then []
  else if tPeat r then (if writing then k.peatWrites r else d.peatReads c t r (tDense r))
  else [(k.view i writing []).range]

/-- The places that a queued transfer writes or reads in its issuing core's cistern under tensors that name no ring: those of DST and DST2, or
of SRC and IDX, and what a walk reads of pages and lists (R403, R406); PEAT_FREE writes its index entries (R427). -/
def Dev.xferRanges (d : Dev) (x : Xfer) (dst : Bool) : List (Int × Int) :=
  let k := d.task x.core x.task
  let p := k.desc x.desc
  let m := pdMode p
  let at_ (i : Nat) : List (Int × Int) := d.places x.core x.task i dst
  if dst then
    if m = 4 then [] else if m = 5 then (if tSpace (k.desc (pdSrc p)) = 0 then [k.abs (tPeatIndex (k.desc (pdSrc p))) (64 + 8 * ((tDense (k.desc (pdSrc p)) + 511) / 512))] else [])
    else at_ (pdDst p) ++ at_ (pdDst2 p)
  else if m = 3 then ((d.pumpPlan x []).reads.filter (fun r => r.1 == 0)).map (fun r => k.abs r.2.1 r.2.2)
  else at_ (pdSrc p) ++ at_ (pdIdx p)

/-- Destinations of the takes of a task that are in progress (R155, R165). -/
def Dev.takeRanges (d : Dev) (c t : Nat) : List (Int × Int) :=
  ((d.core c).relay.takes.filter (fun y => y.task == t && decide (y.got < y.count) && !y.late)).map (fun y => ((y.dst : Int), (y.dst + 512 * y.count : Nat)))

/-- Transfers of a task that have not completed, over all pumps. -/
def Dev.xfersOf (d : Dev) (c t : Nat) : List Xfer :=
  let all := (d.core c).pump.queue ++ (d.slices.flatMap (fun s => s.2.pumps.flatMap (fun p => p.2.queue))) ++
    (d.links.flatMap (fun l => l.2.pump.queue))
  all.filter (fun x => x.core == c && x.task == t && !x.dropped)

/-- An earlier transfer or take still writes what the word reads or writes, or a transfer still reads what it writes (R165). -/
def Dev.interlocked (d : Dev) (c t : Nat) (reads writes : List (Int × Int)) : Bool :=
  (d.takeRanges c t).any (fun r => reads.any (overlaps r) || writes.any (overlaps r)) || (d.xfersOf c t).any (fun x =>
    (d.xferRanges x true).any (fun r => reads.any (overlaps r) || writes.any (overlaps r)) ||
    (d.xferRanges x false).any (fun r => writes.any (overlaps r)))

/-- Pumps that hold a transfer of a task which has not completed. -/
def Dev.pumpsOf (d : Dev) (c t : Nat) (p : Xfer → Bool) : List PumpId :=
  let mine (q : Pump) : Bool := q.queue.any (fun x => x.core == c && x.task == t && !x.dropped && p x)
  (if mine (d.core c).pump then [.core (Fin.ofNat 256 c)] else []) ++
    d.slices.flatMap (fun s => (s.2.pumps.filter (fun q => mine q.2)).map (fun q => .well (Fin.ofNat 4 s.1) (Fin.ofNat 4 q.1))) ++
    (d.links.filter (fun l => mine l.2.pump)).map (fun l => .link (Fin.ofNat 36 l.1))

/-- A transfer names one of some tensors: by its descriptor, its ring or its bytes (R412). -/
def Dev.namesState (d : Dev) (x : Xfer) (is_ : List Nat) : Bool :=
  let k := d.task x.core x.task
  let p := k.desc x.desc
  let its := [pdSrc p, pdDst p, pdIdx p, pdDst2 p].filter (· != 0xFFFF)
  let ranges := is_.map (fun i => (k.view i true []).range)
  is_.any (fun i => its.any (fun j => i == j || (tRing (k.desc i) != 0xFF && tRing (k.desc j) == tRing (k.desc i)))) ||
    ((d.xferRanges x true) ++ (d.xferRanges x false)).any (fun r => ranges.any (overlaps r))

/-- A task has no transfer in some pumps. -/
def Dev.pumpsFree (d : Dev) (c t : Nat) (ps : List PumpId) : Bool := !((d.pumpsOf c t (fun _ => true)).any ps.contains)

def isDataWait : WaitKind → Bool
  | .interlock => true
  | .drain _ => true
  | _ => false

/-- The tests before an operation's first access: an elastic ring or an interlock holds it, a static slip lets it go on. -/
def Dev.opTest (d : Dev) (w : Who) (reads writes : List Nat) (k : List (Nat × Bool) → WRes) : WRes :=
  let tk := d.tk w
  let uses := tk.ringUses reads writes
  match uses.find? (fun u => d.ringFails w.core w.task u && tk.elastic u.1) with
  | some u => .hold (.ring u.1 u.2) (tk.budget u.1)
  | none =>
    if d.interlocked w.core w.task (reads.flatMap (fun i => d.places w.core w.task i false)) (writes.flatMap (fun i => d.places w.core w.task i true)) then .hold .interlock 1
    else k (uses.filter (d.ringFails w.core w.task))

end Sys2Proof.Machine
end

