-- ==== Sys2Proof/Machine/Flags.lean ====
section
/-! DEFINITION. Machine/Flags.lean: scale entries and groups (R264 to R274), the one conversion of a value to a stored code (R125,
R268, R269), conversion statistics (R275 to R278) and scale decisions (R279 to R282). -/

namespace Sys2Proof.Machine

/-! ### Scale entries and groups -/

/-- An entry in COR_SCALE_i layout: SCALE in bits 31 to 0, ZP in bits 39 to 32 (R287). -/
def Core.scaleEntry (x : Core) (i : Nat) : Nat := mgetD x.scale i 0
def entryScale (e : Nat) : Nat := bits e 0 32
def entryZp (e : Nat) : Int := sext 8 (bits e 32 8)
def mkEntry (s : Nat) (z : Int) : Nat := s + unsext 8 z * 2 ^ 32

/-- INV of R264. -/
def entryInv (e : Nat) : Nat := (f32div cOne (entryScale e)).1

def gFirst (g : Rec) : Nat := fld g 0 2
def gCount (g : Rec) : Nat := fld g 2 2
def gTask (g : Rec) : Nat := fld g 4 1
def gMode (g : Rec) : Nat := fld g 5 1
def gCode (g : Rec) : Nat := fld g 6 1
def gZpFixed (g : Rec) : Bool := bit (fld g 7 1) 0
def gGran (g : Rec) : Nat := bits (fld g 7 1) 1 2
def gWindow (g : Rec) : Nat := fld g 8 1
def gSrcA (g : Rec) : Nat := fld g 10 2
def gMargin (g : Rec) : Nat := fld g 12 4
def gClipTh (g : Rec) : Nat := fld g 16 4
def gHist (g : Rec) : Nat := fld g 20 4
def gSrcW (g : Rec) : Nat := fld g 24 2

def gQmin (g : Rec) : Int := if gCode g = 9 then -8 else -128
def gQmax (g : Rec) : Int := if gCode g = 9 then 7 else 127

/-- A group adapts: TRACK or ON_CLIP. -/
def gAdapts (g : Rec) : Bool := gMode g == 1 || gMode g == 2

/-- The group whose FIRST is an entry number. -/
def Core.groupAt (x : Core) (sel : Nat) : Option (Nat × Group) :=
  (x.groups.zipIdx.find? (fun p => gFirst p.1.decl == sel)).map (fun p => (p.2, p.1))

/-- The entry of a point within its group (R270). -/
def gChan (g : Rec) (p : Pt) : Nat := if gGran g = 1 then p.i0 else if gGran g = 2 then p.i1 else 0

/-! ### One conversion -/

/-- What a conversion of one value gives. -/
structure ConvOut where
  code : Nat
  fl : Fl
  clip : Bool
  drew : Bool
  /-- the real value that was converted, after the mapping of an integer source -/
  src : Val
  deriving DecidableEq, Repr

/-- v × INV + ZP, exactly (R268). -/
def mapReal (e : Nat) (v : Val) : Val := match vmul v (f32 (entryInv e)) with
  | some p => (vadd p (mkNum false (entryZp e) 0)).getD (.nan false (2 ^ 22))
  | none => .nan false (2 ^ 22)

/-- SCALE × (q − ZP), exactly (R269). -/
def unmapReal (e : Nat) (v : Val) : Val :=
  let q : Val := match v with
    | .num m x => let r := addDy m x (-(entryZp e)) 0; mkNum false r.1 r.2
    | _ => mkNum false (-(entryZp e)) 0
  (vmul (f32 (entryScale e)) q).getD (.nan false (2 ^ 22))

/-- A value to its stored code, with MAP when an entry is given (R125, R268, R269). `srcInt`: the source is an integer code. -/
def convOne (strict : Bool) (dst : Fmt) (satf : Bool) (entry : Option Nat) (srcInt : Bool) (rm : Rm) (v : Val) : ConvOut :=
  match entry with
  | none =>
    let r := convertCode strict dst rm satf v
    { code := r.1, fl := r.2, clip := if dst.isInt then r.2.sat else r.2.ovf, drew := drawsIn strict dst v, src := v }
  | some e =>
    if srcInt then
      let x := unmapReal e v
      let r := convertCode strict dst rm satf x
      { code := r.1, fl := r.2, clip := r.2.ovf, drew := drawsIn strict dst x, src := x }
    else
      match v with
      | .nan _ _ => { code := unsext dst.intBits (entryZp e), fl := { nan := true }, clip := false, drew := false, src := v }
      | _ =>
        let x := mapReal e v
        let r := toIntCode dst.intBits rm (unsext dst.intBits (entryZp e)) x
        { code := r.1, fl := r.2, clip := r.2.sat, drew := drawsIn strict dst x, src := v }

/-! ### Statistics of one conversion -/

/-- A converted point: flat index, channel of its group, what the conversion gave, and the error e (R276). -/
structure ConvPt where
  f : Nat
  chan : Nat
  out : ConvOut
  err : Nat
  deriving DecidableEq, Repr

/-- e of R276 with one rounding to FP32. R276 names MAP and floating-point destinations alone: to an integer destination without MAP, e is the
stored value minus v too (DESIGN CHOICE, entry 121). -/
def convErr (dst : Fmt) (entry : Option Nat) (srcInt : Bool) (o : ConvOut) : Nat :=
  let stored : Val := match entry with
    | some e => if srcInt then decodeVal dst o.code
        else (vmul (f32 (entryScale e)) (mkNum false (sext dst.intBits o.code - entryZp e) 0)).getD (.zero false)
    | none => decodeVal dst o.code
  (arithRes true .fp32 .rne [stored, o.src] (vadd stored (vneg o.src))).1

/-- A real value as FP32. One that FP32 does not hold (of an INT32 source, or SCALE × (q − ZP)) is rounded with RNE for MAXMAG, hi and lo, of
which R276 gives no rounding (DESIGN CHOICE, entry 121). -/
def asF32 (v : Val) : Nat := (roundCode true .fp32 .rne false v).1

/-- Lane partials of FMA sums merged at widths 32 to 1 (R185, R277). -/
def mergeLanes (add : Nat → Nat → Nat) (ls : List Nat) : Nat :=
  ([32, 16, 8, 4, 2, 1].foldl (fun p w => p.zipIdx.map (fun x => if x.2 < w then add x.1 (p.getD (x.2 + w) 0) else x.1)) ls).getD 0 0

/-- SUMSQ of one conversion over the finite points, each lane in ascending flat index (R277). -/
def convSumsq (ps : List ConvPt) : Nat :=
  let byF := ps.mergeSort (fun a b => decide (a.f ≤ b.f))
  mergeLanes (fun a b => (f32add a b).1) ((List.range 64).map (fun l =>
    (byF.filter (fun p => p.f % 64 == l)).foldl (fun a p => (f32fma p.err p.err a).1) 0))

def isFinite : Val → Bool
  | .num _ _ => true
  | .zero _ => true
  | _ => false

def isInf : Val → Bool
  | .inf _ => true
  | _ => false

/-- The contribution of a conversion to an accumulator (R276, R277). `fold`: the group is TRACK or ON_CLIP. -/
def StatAcc.add (a : StatAcc) (gi : Nat) (fold : Bool) (ps : List ConvPt) : StatAcc :=
  let fin := ps.filter (fun p => isFinite p.out.src)
  let infs := ps.filter (fun p => isInf p.out.src)
  let mag := fin.foldl (fun m p => f32max m (f32abs (asF32 p.out.src))) a.maxmag
  let chans := if fold then fin.foldl (fun m p =>
      let k := gi * 65536 + p.chan
      let hl := mgetD m k (0, 0)
      mset m k (f32max hl.1 (asF32 p.out.src), f32min hl.2 (asF32 p.out.src))) a.chans else a.chans
  { a with
    isOpen := true
    count := a.count + fin.length
    clips := a.clips + infs.length + (fin.filter (fun p => p.out.clip)).length
    sumsq := (f32add a.sumsq (convSumsq fin)).1
    maxmag := if infs.isEmpty then mag else 0x7F800000
    nans := a.nans + (ps.filter (fun p => p.out.src.isNan)).length
    chans := chans }

/-- A conversion of a task into tensor `desc` with STATS set. -/
def Core.addStats (x : Core) (task desc gi : Nat) (fold : Bool) (ps : List ConvPt) : Core :=
  { x with accs := x.accs.map (fun a => if a.task = task ∧ a.desc = desc then a.add gi fold ps else a) }

/-! ### Closing an accumulator (R278) -/

def sat32 (n : Nat) : Nat := min n (2 ^ 32 - 1)

def statRecord (a : StatAcc) (round : Nat) : Bytes :=
  leBytes 4 (sat32 a.count) ++ leBytes 4 (sat32 a.clips) ++ leBytes 4 a.sumsq ++
    leBytes 4 (if a.count = 0 then 0 else (f32div a.sumsq (f32ofInt (sat32 a.count))).1) ++ leBytes 4 a.maxmag ++
    leBytes 4 (sat32 a.nans) ++ leBytes 4 round ++ leBytes 2 (a.desc % 4096 + 4096 * a.task) ++ leBytes 2 0

/-- Groups that the STATS conversions into a tensor map through: CONVERT (R123) and gate programs (R191). -/
def accGroups (k : Task) (x : Core) (desc : Nat) : List Nat :=
  (k.descs.filterMap (fun r =>
    if fld r 63 1 = 0x06 ∧ fld r 2 2 = desc ∧ bits (fld r 7 1) 0 2 = 3 then x.groupAt (fld r 8 2)
    else if fld r 63 1 = 0x03 ∧ fld r 0 2 = desc ∧ bits (fld r 11 1) 1 2 = 3 then x.groupAt (fld r 14 2)
    else none)).map (·.1) |>.eraseDups

/-- A word of a history slot (R279). -/
def histAddr (k : Task) (g : Rec) (slot j : Nat) : Nat := k.base + gHist g + (slot * gCount g + j) * 8

def histGet (m : SMap Byte) (a : Nat) : Nat × Nat := (leNat (memRead m a 4), leNat (memRead m (a + 4) 4))

def histSet (m : SMap Byte) (a : Nat) (hl : Nat × Nat) : SMap Byte := memWrite m a (leBytes 4 hl.1 ++ leBytes 4 hl.2)

/-- A close of one accumulator. -/
def Core.closeAcc (x : Core) (k : Task) (a : StatAcc) : Core :=
  let gs := accGroups k x a.desc
  let mem := a.chans.foldl (fun m c =>
    match x.groups[c.1 / 65536]? with
    | some g =>
      let ad := histAddr k g.decl (k.progRound % (max 1 (gWindow g.decl))) (c.1 % 65536)
      let old := histGet m ad
      histSet m ad (f32max old.1 c.2.1, f32min old.2 c.2.2)
    | none => m) x.mem
  { x with
    mem := mem
    groups := x.groups.zipIdx.map (fun p => if gs.contains p.2 then { p.1 with count := sat32 (p.1.count + sat32 a.clips) } else p.1)
    accs := x.accs.map (fun b => if b.task = a.task ∧ b.desc = a.desc then
      { b with
        isOpen := false
        record := statRecord a k.progRound
        count := 0
        clips := 0
        sumsq := 0
        maxmag := 0
        nans := 0
        chans := [] } else b) }

/-- The accumulators of a task not closed since their last conversion close at END (R278). -/
def Core.closeAll (x : Core) (t : Nat) (k : Task) : Core :=
  (x.accs.filter (fun a => a.task == t && a.isOpen)).foldl (fun x a => x.closeAcc k a) x

/-! ### Decisions (R280, R281) -/

/-- Clamp to 2^−125 to 2^125. -/
def clampScale (s : Nat) : Nat := f32min (f32max s 0x01000000) 0x7E000000

def clampInt (v lo hi : Int) : Int := max lo (min v hi)

/-- decide(j) of R281; none keeps the entry. -/
def decideEntry (m : SMap Byte) (k : Task) (g : Rec) (e : Nat) (j : Nat) : Option Nat :=
  let hl := (List.range (gWindow g)).foldl (fun (a : Nat × Nat) w =>
    let h := histGet m (histAddr k g w j)
    (f32max a.1 h.1, f32min a.2 h.2)) (0, 0)
  let hm := (f32mul hl.1 (gMargin g)).1
  let lm := (f32mul hl.2 (gMargin g)).1
  if f32abs hm = 0 ∧ f32abs lm = 0 then none
  else if gZpFixed g then
    let z := entryZp e
    let s := f32max (f32div hm (f32ofInt (gQmax g - z))).1 (f32div lm (f32ofInt (gQmin g - z))).1
    some (mkEntry (clampScale s) z)
  else
    let s := clampScale (f32div (f32sub hm lm).1 (f32ofInt (gQmax g - gQmin g))).1
    let t := match f32 (f32div lm s).1 with
      | .num m x => roundInt .rne m x
      | .inf _ => -65536
      | _ => 0
    some (mkEntry s (clampInt (gQmin g - t) (gQmin g) (gQmax g)))

/-- The entry of a group as the next program will see it: decided in a shadow, else in effect. -/
def Core.nextEntry (x : Core) (i : Nat) : Nat :=
  match (x.groups.flatMap (·.shadow)).find? (fun p => p.1 == i) with
  | some p => p.2
  | none => x.scaleEntry i

/-- The decision record of R282. -/
def scaleRecord (reason core task group changed round clips : Nat) (entries : List Nat) : Bytes :=
  leBytes 1 0x20 ++ leBytes 1 reason ++ leBytes 2 core ++ leBytes 1 task ++ leBytes 1 group ++ leBytes 2 changed ++
    leBytes 8 round ++ leBytes 4 clips ++ leBytes 4 0 ++ (sha3 (entries.flatMap (leBytes 8))).take 8

/-- A group takes decided values for its entries. -/
def Core.decided (x : Core) (c gi reason round : Nat) (vals : List (Nat × Nat)) : Core :=
  let ch := vals.filter (fun p => x.scaleEntry p.1 != p.2)
  if ch.isEmpty then x
  else match x.groups[gi]? with
    | some g =>
      let x1 := { x with groups := lset x.groups gi (fun g => { g with shadow := ch }) }
      let es := (List.range (gCount g.decl)).map (fun j => x1.nextEntry (gFirst g.decl + j))
      { x1 with groups := lset x1.groups gi (fun g => { g with
          unlogged := scaleRecord reason c (gTask g.decl) gi ch.length round g.count es }) }
    | none => x

/-- R280 for the groups of a task after its END of round n. -/
def Core.decideAll (x : Core) (c t n : Nat) (k : Task) : Core :=
  let mine := (List.range x.groups.length).filter (fun i => match x.groups[i]? with
    | some g => gTask g.decl == t
    | none => false)
  let x1 := mine.foldl (fun x i => match x.groups[i]? with
    | some g =>
      if gMode g.decl = 1 ∨ (gMode g.decl = 2 ∧ gClipTh g.decl < g.count) then
        let vals := (List.range (gCount g.decl)).filterMap (fun j =>
          (decideEntry x.mem k g.decl (x.scaleEntry (gFirst g.decl + j)) j).map (fun v => (gFirst g.decl + j, v)))
        x.decided c i (if gMode g.decl = 1 then 0 else 1) (n + 1) vals
      else x
    | none => x) x
  let changed (i : Nat) : Bool := match x1.groups[i]? with
    | some g => !g.shadow.isEmpty
    | none => false
  let x2 := mine.foldl (fun x i => match x.groups[i]? with
    | some g =>
      if gMode g.decl = 3 ∧ (changed (gSrcA g.decl) ∨ changed (gSrcW g.decl)) then
        let a := (x.groups.getD (gSrcA g.decl) ⟨0, 0, [], []⟩).decl
        let w := (x.groups.getD (gSrcW g.decl) ⟨0, 0, [], []⟩).decl
        let sa := entryScale (x.nextEntry (gFirst a))
        let vals := (List.range (gCount g.decl)).map (fun j =>
          (gFirst g.decl + j, mkEntry (clampScale (f32mul sa (entryScale (x.nextEntry (gFirst w + j)))).1) 0))
        x.decided c i 2 (n + 1) vals
      else x
    | none => x) x1
  mine.foldl (fun x i => match x.groups[i]? with
    | some g =>
      let w := max 1 (gWindow g.decl)
      { x with
        mem := if gAdapts g.decl then
            memZero x.mem (histAddr k g.decl ((n + 1) % w) 0) (gCount g.decl * 8) else x.mem
        groups := lset x.groups i (fun g => { g with count := 0 }) }
    | none => x) x2

/-- Decided values take effect when the task's next program starts (R280). -/
def Core.applyScales (x : Core) (t : Nat) : Core :=
  { x with
    scale := (x.groups.filter (fun g => gTask g.decl == t)).foldl (fun m g => g.shadow.foldl (fun m p => mset m p.1 p.2) m) x.scale
    groups := x.groups.map (fun g => if gTask g.decl = t then { g with shadow := [] } else g) }

end Sys2Proof.Machine
end

