-- ==== Sys2Proof/Machine/Matrix.lean ====
section
/-! DEFINITION. Machine/Matrix.lean: matrix runs (R134 to R149), the expander's delivery of weights (R140, R150 to R153) and the
gate pipeline on the drain (R191 to R193). -/

namespace Sys2Proof.Machine

/-! ### Weights -/

/-- Code of a packed element (R106). -/
def packedCode (f : Fmt) (bs : Bytes) (i : Nat) : Nat :=
  match f with
  | .mxfp6 => bits (leAt bs (3 * (i / 4)) 3) (6 * (i % 4)) 6
  | .mxint8 => leAt bs i 1
  | _ => bits (leAt bs (i / 2) 1) (4 * (i % 2)) 4

/-- A weight at reduction position k of a raw row: value, block exponent, NaN scale (R139, R140). -/
def weightAt (f : Fmt) (row : Bytes) (k : Nat) (zp : Int) : Val × Int × Bool :=
  if f.isMx then
    let u := (row.drop (512 * (k / mxUnit f))).take 512
    let i := k % mxUnit f
    let e := leAt u (480 + i / 32) 1
    let c := packedCode f u i
    if f = .mxint8 then (mkNum false (sext 8 c) 0, (e : Int) - 127 - 6, e == 255)
    else (decodeVal f c, (e : Int) - 127, e == 255)
  else if f = .int4 then (mkNum false (sext 4 (packedCode .int4 row k) - zp) 0, 0, false)
  else if f = .int8 then (mkNum false (sext 8 (leAt row k 1) - zp) 0, 0, false)
  else (decodeVal f (leAt row (k * f.size) f.size), 0, false)

/-- The raw bytes of a weight tensor, row by row, with the blocks that failed their checks. -/
structure WeightRows where
  rows : List Bytes
  faults : List PeatGot
  blocks : Nat

/-- Raw weight bytes of N rows (R138, R150): plain rows at their stride, or Peat blocks in order; the raw blocks of R162 are counted over
the whole tensor (DESIGN CHOICE, entry 102). -/
def Dev.weightRows (d : Dev) (w : Who) (m : SMap Byte) (v : View) (K N : Nat) : WeightRows :=
  let f := tFmt v.t
  let rb := rawRow f K
  if tPeat v.t then
    let nb := (N * rb + 511) / 512
    let got := (List.range nb).map (fun b => d.cisBlock w.core w.task (d.tk w).progRound m (tPeatIndex v.t) b)
    let raw := got.flatMap (·.raw)
    { rows := (List.range N).map (fun n => sliceZ raw (n * rb) rb), faults := got.filter (fun g => g.code != 0), blocks := nb }
  else
    let row (n : Nat) : Bytes := (List.range rb).map (fun (i : Nat) =>
      let a := v.base + (n : Int) * tStride v.t 1 + (i : Int)
      if v.dead || !v.inside a 1 then 0 else memGet m a.toNat)
    { rows := (List.range N).map row, faults := [], blocks := (N * rb + 511) / 512 }

/-! ### One output -/

/-- Operand pairs of step j; FAST steps are filled with +0 (R111, R114, R136). -/
def stepPairs (strict : Bool) (K j : Nat) (a : Nat → Val) (b : Nat → Val × Int × Bool) : List Pair :=
  (List.range 64).filterMap (fun i =>
    let k := 64 * j + i
    if k < K then
      let w := b k
      some { a := a k, b := w.1, x := w.2.1, scaleNan := w.2.2 }
    else if strict then none
    else some { a := .zero false, b := .zero false, x := 0, scaleNan := false })

/-- The chain of steps of one output: its final value, flags and first NaN as (reduction position, operand). -/
def dotChain (strict : Bool) (K : Nat) (c : Nat) (a : Nat → Val) (b : Nat → Val × Int × Bool) :
    Nat × Fl × Option (Nat × Nat) :=
  (List.range ((K + 63) / 64)).foldl (fun acc j =>
    let ps := stepPairs strict K j a b
    let r := arrayStep strict acc.1 ps
    let nan := match acc.2.2 with
      | some n => some n
      | none => (stepNan strict acc.1 ps).map (fun n => (64 * j + n.1, n.2))
    (r.1, acc.2.1.or r.2, nan)) (c, {}, none)

/-! ### The gate pipeline -/

def gpOut (g : Rec) : Nat := fld g 0 2
def gpGate (g : Rec) : Nat := fld g 2 2
def gpBias (g : Rec) : Nat := fld g 4 2
def gpFlags (g : Rec) : Nat := fld g 11 1

/-- A code of a float format widened exactly to FP32 as it is read (R117, R124). -/
def widenF32 (strict : Bool) (f : Fmt) (code : Nat) : Nat :=
  if f = .fp32 then (if !strict && isSubnormal .fp32 code then signBit .fp32 (decide (2 ^ 31 ≤ code)) else code)
  else match readVal strict f code with
    | .nan n p => quietNan .fp32 n p
    | v => (roundCode true .fp32 .rne false v).1

/-- What one drained value becomes. -/
structure Drained where
  n : Nat
  m : Nat
  conv : ConvOut
  fl : Fl
  entry : Option Nat
  chan : Nat
  cand : Option Nat
  draw : Bool

/-- gate(v, m, n) of R192 up to its store. -/
def Dev.gateOne (d : Dev) (w : Who) (mem : SMap Byte) (g : Rec) (vo vg vb : View) (v m n : Nat) : Drained :=
  let k := d.tk w
  let st := k.strict
  let x := d.core w.core
  let fl := gpFlags g
  let isc := bit fl 0
  let sc := entryScale (x.scaleEntry (fld g 12 2 + n))
  let hasBias := decide (gpBias g ≠ 0xFFFF)
  let hasGate := decide (gpGate g ≠ 0xFFFF)
  let bias := vb.code mem ⟨n, 0, 0, 0⟩
  let rv (c : Nat) : Val := readVal st .fp32 c
  let s1 : Nat × Fl :=
    if isc then (if hasBias then opFma st .fp32 .rne (rv v) (rv sc) (rv bias) else opMul st .fp32 .rne (rv v) (rv sc))
    else if hasBias then opAdd st .fp32 .rne (rv v) (rv bias)
    else (v, { nan := (f32 v).isNan })
  let s2 : Nat × Fl := if fld g 6 1 ≠ 0 then (let r := gateFnF32 st (fld g 6 1) s1.1; (r.1, s1.2.or r.2)) else s1
  let gcode := vg.code mem ⟨n, m, 0, 0⟩
  let gv := widenF32 st (tFmt vg.t) gcode
  let s3 : Nat × Fl :=
    if hasGate then
      let gg : Nat × Fl := if fld g 7 1 ≠ 0 then gateFnF32 st (fld g 7 1) gv else (gv, {})
      let r := opMul st .fp32 .rne (rv s2.1) (rv gg.1)
      (r.1, (s2.2.or gg.2).or r.2)
    else s2
  let grp := if bit fl 1 then x.groupAt (fld g 14 2) else none
  let chan := match grp with
    | some q => gChan q.2.decl ⟨n, m, 0, 0⟩
    | none => 0
  let entry := grp.map (fun q => x.scaleEntry (gFirst q.2.decl + chan))
  let rm := d.rmOf w.core w.task (fld g 8 1) (fld g 10 1) (tSize vo.t) ⟨n, m, 0, 0⟩
  let o := convOne st (tFmt vo.t) (fld g 9 1 == 0) entry false rm (rv s3.1)
  let cand :=
    if (f32 v).isNan then some 2
    else if hasBias && (f32 bias).isNan then some 0
    else if hasGate && (decodeVal (tFmt vg.t) gcode).isNan then some 1
    else if (f32 s3.1).isNan || (decodeVal (tFmt vo.t) o.code).isNan then some 5
    else none
  { n := n, m := m, conv := o, fl := s3.2.or o.fl, entry := entry, chan := chan, cand := cand,
    draw := fld g 8 1 == 2 && o.drew }

/-- The raw blocks of a Peat OUT tensor that a run drains values into (R192, R426); bytes of a block that the run does not drain keep what the
block held (DESIGN CHOICE, entry 118). A row of INT4 packs two codes in a byte, and a padding nibble ends an odd row (R622). -/
def peatOutBlocks (t : Rec) (held : Nat → Bytes) (ds : List Drained) : List (Nat × Bytes) :=
  let sz := max 1 (tFmt t).size
  let row := if tPacked t then (tSize t 0 + 1) / 2 else sz * tSize t 0
  let total := row * (tCount t / max 1 (tSize t 0))
  let code (n m : Nat) : Option Nat := (ds.find? (fun x => x.n == n && x.m == m)).map (fun x => x.conv.code)
  -- byte k, where o is the byte that the tensor holds there
  let byte (k o : Nat) : Option Nat :=
    let m := k / max 1 row
    let j := k % max 1 row
    if tPacked t then (match code (2 * j) m, (if tSize t 0 ≤ 2 * j + 1 then (code (2 * j) m).map (fun _ => 0) else code (2 * j + 1) m) with
      | none, none => none
      | a, b => some (a.getD (o % 16) % 16 + 16 * (b.getD (o / 16) % 16)))
    else (code (j / sz) m).map (fun c => c / 256 ^ (j % sz) % 256)
  (List.range ((total + 511) / 512)).filterMap (fun b =>
    let idx := (List.range 512).filter (fun i => decide (512 * b + i < total))
    if (idx.all (fun i => (byte (512 * b + i) 0).isNone)) then none
    else
      let old := held b
      let o (i : Nat) : Nat := (old.getD i 0).toNat
      some (b, sliceZ (idx.map (fun i => (BitVec.ofNat 8 ((byte (512 * b + i) (o i)).getD (o i)) : Byte))) 0 512))

/-- Stored blocks placed in order from ADDRESS, with their entries and STORED (R424 to R426). Writes are absolute. -/
def placePeat (rd : Nat → Nat → Bytes) (base addr pidx ew gen : Nat) (table : Option (List Nat)) (blks : List (Nat × Bytes)) :
    List (Nat × Bytes) :=
  let stepB (acc : List (Nat × Bytes) × SMap Nat) (b : Nat × Bytes) : List (Nat × Bytes) × SMap Nat :=
    let e := peatEncode ew gen table b.2
    let before := (List.range b.1).foldl (fun s i =>
      s + (match mget acc.2 i with
        | some c => peatSize c
        | none => if peatEntry rd pidx i = 0 then 0 else peatSize (bits (peatEntry rd pidx i) 45 2))) 0
    let a := addr + before
    (acc.1 ++ [(base + a, e.bytes), (base + pidx + 64 + 8 * b.1, leBytes 8 (a / 8 + e.cls * 2 ^ 45 + e.tgen * 2 ^ 48))],
      mset acc.2 b.1 e.cls)
  let r := blks.foldl stepB ([], [])
  let n := leNat (rd pidx 4)
  let stored := (List.range n).foldl (fun s i =>
    s + (match mget r.2 i with
      | some c => peatSize c
      | none => if peatEntry rd pidx i = 0 then 0 else peatSize (bits (peatEntry rd pidx i) 45 2))) 0
  if blks.isEmpty then [] else r.1 ++ [(base + pidx + 16, leBytes 8 stored)]

/-- The writes of a drain to OUT. -/
def Dev.drainWrites (d : Dev) (w : Who) (mem : SMap Byte) (vo : View) (ds : List Drained) : List (Nat × Bytes) :=
  if tPeat vo.t then
    let k := d.tk w
    let rd := cisReader mem k.base k.bound
    let pidx := tPeatIndex vo.t
    let gen := leNat (rd (pidx + 8) 2)
    placePeat rd k.base (tAddr vo.t) pidx (leNat (rd (pidx + 4) 1)) gen ((d.core w.core).table k.progRound gen)
      (peatOutBlocks vo.t (fun b => (d.cisBlock w.core w.task k.progRound mem pidx b).raw) ds)
  else
    (ds.foldl (fun (acc : List (Nat × Bytes) × SMap Byte) x =>
      match vo.store acc.2 ⟨x.n, x.m, 0, 0⟩ x.conv.code with
      | some q => (acc.1 ++ [q], memWrite acc.2 q.1 q.2)
      | none => acc) ([], mem)).1

/-! ### The run -/

/-- What the panels leave: accumulators, flags, candidates, drained values. -/
structure RunAcc where
  core : Core
  fl : Fl
  cands : List NanCand
  drained : List Drained

def mrAct (r : Rec) : Nat := fld r 0 2
def mrWgt (r : Rec) : Nat := fld r 2 2
def mrClear (r : Rec) : Bool := bit (fld r 5 1) 0
def mrDrain (r : Rec) : Bool := bit (fld r 5 1) 1
def mrM (r : Rec) : Nat := fld r 8 4
def mrK (r : Rec) : Nat := fld r 12 4
def mrN (r : Rec) : Nat := fld r 16 4
def mrWzp (r : Rec) : Nat := fld r 20 2

/-- The gate program that drains a run, and the tensors it uses (R149, R191). -/
def Task.gateRec (k : Task) : Rec := match k.gate with
  | some g => k.desc g
  | none => 0

def Task.gateReads (k : Task) : List Nat := match k.gate with
  | some g => (if gpGate (k.desc g) ≠ 0xFFFF then [gpGate (k.desc g)] else []) ++
      (if gpBias (k.desc g) ≠ 0xFFFF then [gpBias (k.desc g)] else [])
  | none => []

/-- Element (m, n) of a run: its chain and, with DRAIN set, its drain (R143). -/
def Dev.runOne (d : Dev) (w : Who) (mem : SMap Byte) (r : Rec) (B : Nat) (va : View) (ws : WeightRows) (wf : Fmt) (vo vg vb : View)
    (p m l : Nat) (a : RunAcc) : RunAcc :=
  let k := d.tk w
  let n := 32 * p + l
  let K := mrK r
  if mrN r ≤ n then a
  else
    let e := if mrDrain r then B + m else B + p * mrM r + m
    let zp := if fld r 4 1 = 8 then entryZp (a.core.scaleEntry (mrWzp r + n)) else 0
    let zpa := sext 8 (fld r 6 1)
    let row := ws.rows.getD n []
    let act (i : Nat) : Val :=
      let c := va.code mem ⟨i, m, 0, 0⟩
      if fld r 4 1 = 8 then mkNum false (sext 8 c - zpa) 0 else decodeVal (tFmt va.t) c
    let c0 := if mrClear r then 0 else a.core.accLane (128 * e + 4 * l)
    let res := dotChain k.strict K c0 act (fun i => weightAt wf row i zp)
    let o := (p * mrM r + m) * 32 + l
    let cand := match res.2.2 with
      | some q => [{ word := w.word, engine := 0, operand := q.2, elem := q.1 + K * o, round := k.progRound : NanCand }]
      | none => []
    let a1 := { a with core := a.core.setAcc (32 * e + l) res.1, fl := a.fl.or res.2.1, cands := a.cands ++ cand }
    if mrDrain r && k.gate.isSome then
      let q := d.gateOne w mem k.gateRec vo vg vb res.1 m n
      let gc := match q.cand with
        | some op => [{ word := w.word, engine := 1, operand := op, elem := o, round := k.progRound : NanCand }]
        | none => []
      { a1 with fl := a1.fl.or q.fl, cands := a1.cands ++ gc, drained := a1.drained ++ [q] }
    else a1

/-- A take of the relay into the weights is still in progress (R159). -/
def Dev.takeOpen (d : Dev) (c : Nat) (rs : List (Int × Int)) : Bool :=
  (d.core c).relay.takes.any (fun t => decide (t.got < t.count) && !t.late && rs.any (overlaps ((t.dst : Nat), (t.dst + 512 * t.count : Nat))))

/-- Stored bytes that a weight tensor's run of a task reads. -/
def Dev.weightRanges (d : Dev) (c t : Nat) (v : View) (K N : Nat) : List (Int × Int) :=
  if tPeat v.t then d.peatReads c t v.t (N * rawRow (tFmt v.t) K)
  else [(v.base, v.base + ((N * rawRow (tFmt v.t) K : Nat) : Int))]

/-- A block that waits for a pending table load (R434). -/
def Dev.waitsTable (d : Dev) (w : Who) (m : SMap Byte) (v : View) (K N : Nat) : Bool :=
  tPeat v.t && (List.range ((N * rawRow (tFmt v.t) K + 511) / 512)).any (fun b =>
    (d.core w.core).tablePending (d.tk w).progRound (d.cisBlock w.core w.task (d.tk w).progRound m (tPeatIndex v.t) b).tgen)

/-- MAT_RUN (R143): B is the accumulator base entry, `wgt` the weight tensor that the word reads (R345). -/
def matRunW (d : Dev) (w : Who) (desc B wgt : Nat) (ev : EngEv) : WRes :=
  let k := d.tk w
  let r := k.desc desc
  let g := k.gateRec
  let drains := mrDrain r && k.gate.isSome
  let reads := [mrAct r, wgt] ++ (if drains then k.gateReads else [])
  let writes := if drains then [gpOut g] else []
  d.opTest w reads writes (fun slips =>
    let mem := d.evBad w.core ev
    let va := k.view (mrAct r) false slips
    let vw := k.view wgt false slips
    if d.takeOpen w.core (d.weightRanges w.core w.task vw (mrK r) (mrN r)) || d.waitsTable w mem vw (mrK r) (mrN r) then .hold .interlock 1
    else
      let vo := k.view (gpOut g) true slips
      let vg := k.view (gpGate g) false slips
      let vb := k.view (gpBias g) false slips
      let ws := (d.evSeen w.core ev).weightRows w mem vw (mrK r) (mrN r)
      let P := (mrN r + 31) / 32
      let a := (List.range P).foldl (fun a p => (List.range (mrM r)).foldl (fun a m => (List.range 32).foldl (fun a l =>
        d.runOne w mem r B va ws (tFmt vw.t) vo vg vb p m l a) a) a) { core := d.core w.core, fl := {}, cands := [], drained := [] }
      let ds := a.drained
      let x1 := { a.core with matLast := ⟨w.core, w.task, desc, 0, false⟩ }
      let x2 := if drains then { x1 with gatLast := ⟨w.core, w.task, k.gate.getD 0, 0, false⟩ } else x1
      let grp := if drains && bit (gpFlags g) 1 then x2.groupAt (fld g 14 2) else none
      let pts := ds.map (fun q => ({ f := q.n + tSize vo.t 0 * q.m, chan := q.chan, out := q.conv,
                                     err := convErr (tFmt vo.t) q.entry false q.conv } : ConvPt))
      let x3 := if drains && bit (gpFlags g) 2 then
          x2.addStats w.task (gpOut g) (match grp with | some q => q.1 | none => 0)
            (match grp with | some q => gAdapts q.2.decl | none => false) pts
        else x2
      let d1 := d.setCore w.core x3
      let out : OpOut := { writes := if drains then d.drainWrites w mem vo ds else [], fl := a.fl, cands := a.cands,
                           draws := (ds.filter (·.draw)).length, lost := (ws.faults.filter (·.out)).length,
                           engine := 0 }
      let d2 := d1.opDone w reads writes slips out
      let d3 := (d2.count (coreOff w.core + 0x480) 0 ws.blocks).count (coreOff w.core + 0x580) 32 (if drains then P * mrM r else 0)
      let d4 := ws.faults.foldl (fun d f =>
        let d := if f.code = 0x0602 then d.count (coreOff w.core + 0x4B0) 32 1 else if f.code = 0x0404 then
          d.count (coreOff w.core + 0x480) 32 1 else d
        if f.code = 0x0403 then d.eccRead w.core w.task w.word k.progRound (f.badWords (d.core w.core) k.base)
        else d.blockFault f.code w.core w.task w.word k.progRound f.tgen 1 f.addr) d3
      .done (d4.evMark w ev))

/-- GATE_SET (R149, R166). -/
def gateSetW (d : Dev) (w : Who) (desc : Nat) : WRes := .done (d.onTask w.core w.task (fun k => { k with gate := some desc }))

end Sys2Proof.Machine
end

