-- ==== Sys2Proof/Machine/Element.lean ====
section
/-! DEFINITION. Machine/Element.lean: element programs (R169 to R177) and LUT de-quantisation (R190). -/

namespace Sys2Proof.Machine

/-- A micro-operation (R171). -/
structure Uop where
  op : Nat
  ty : Nat
  dst : Nat
  a : Nat
  b : Nat
  c : Nat
  rm : Nat
  nonsat : Bool
  deriving DecidableEq, Repr

def uopOf (w : Nat) : Uop :=
  { op := bits w 0 6, ty := bits w 6 3, dst := bits w 9 3, a := bits w 12 5, b := bits w 17 5, c := bits w 22 5,
    rm := bits w 27 2, nonsat := bit w 29 }

/-- The micro-operations of a program in its continuation records (R169). -/
def uopsOf (k : Task) (desc : Nat) : List Uop :=
  (List.range (fld (k.desc desc) 34 1)).map (fun j => uopOf (fld (k.desc (desc + 1 + j / 15)) (4 * (j % 15)) 4))

/-- The format of a TYPE code. -/
def tyFmt (ty : Nat) : Fmt := if ty = 0 then .fp32 else if ty = 1 then .int32 else if ty = 2 then .bf16 else if ty = 3 then .fp16 else .int8

def tyBits (ty : Nat) : Nat := (tyFmt ty).bits

def tyIsInt (ty : Nat) : Bool := (tyFmt ty).isInt

/-- A typed code in a temporary. -/
abbrev Typed := Nat × Nat

/-- What the evaluation of one point has gathered. -/
structure PtAcc where
  temps : SMap Typed
  fl : Fl
  cand : Option Nat
  sr : Nat
  draws : Nat
  outs : SMap (Nat × Val)

/-- What the evaluation of a point reads: the mode, the input formats and codes, the immediates, the flat index, and the random
bits of the j-th SR rounding. -/
structure PtEnv where
  strict : Bool
  ins : List (Fmt × Nat)
  imm : Nat → Nat
  f : Nat
  r : Nat → Nat

/-- Operations that round: a floating-point ADD, SUB, MUL or FMA, and every CVT and ST (R119, R176). -/
def uopRounds (u : Uop) : Bool := u.op == 0x12 || u.op == 0x14 || (decide (1 ≤ u.op ∧ u.op ≤ 4) && !tyIsInt u.ty)

/-- An SR rounding of a program (R175, R176). -/
def uopSr (u : Uop) : Bool := u.rm == 2 && uopRounds u

/-- A source operand as a type: its code, and its OPERAND code when it is a NaN read from an input or an immediate (R172,
R621). -/
def srcRead (e : PtEnv) (a : PtAcc) (ty src place : Nat) : Nat × Option Nat :=
  if src < 8 then
    let t := (mget a.temps src).getD (ty, 0)
    (t.2, none)
  else if src < 12 then
    let i := e.ins.getD (src - 8) (.fp32, 0)
    let F := tyFmt ty
    let nan := (decodeVal i.1 i.2).isNan
    let code :=
      if F.isInt then unsext F.bits (sext i.1.bits i.2)
      else if i.1 = F then
        (if !e.strict && F.flushes && isSubnormal F i.2 then signBit F (decodeVal F i.2).neg else i.2)
      else match readVal e.strict i.1 i.2 with
        | .nan n p => quietNan F n p
        | v => (roundCode true F .rne false v).1
    (code, if nan && !F.isInt then some place else none)
  else if src < 20 then
    let c := e.imm (src - 12) % 2 ^ tyBits ty
    (c, if !tyIsInt ty && (decodeVal (tyFmt ty) c).isNan then some 4 else none)
  else (e.f % 2 ^ 32, none)

/-- The source of a CVT or ST as an exact value in its own type or format. -/
def srcOwn (e : PtEnv) (a : PtAcc) (ty src : Nat) : Val × Option Nat :=
  if src < 8 then
    let t := (mget a.temps src).getD (ty, 0)
    (readVal e.strict (tyFmt t.1) t.2, none)
  else if src < 12 then
    let i := e.ins.getD (src - 8) (.fp32, 0)
    let v := readVal e.strict i.1 i.2
    (v, if v.isNan then some 0 else none)
  else if src < 20 then
    let c := e.imm (src - 12) % 2 ^ tyBits ty
    let v := readVal e.strict (tyFmt ty) c
    (v, if v.isNan then some 4 else none)
  else (mkNum false (sext 32 e.f) 0, none)

/-- Result of an integer operation (R118, R173). -/
def intOp (op n : Nat) (a b c : Nat) : Nat × Fl :=
  let x := sext n a
  let y := sext n b
  let z := sext n c
  if op = 1 then satInt n (x + y)
  else if op = 2 then satInt n (x - y)
  else if op = 3 then satInt n (x * y)
  else if op = 4 then satInt n (x * y + z)
  else if op = 5 then (unsext n (min x y), {})
  else if op = 6 then (unsext n (max x y), {})
  else if op = 7 then satInt n (if x < 0 then -x else x)
  else if op = 8 then satInt n (-x)
  else if op = 10 then (if x < y then 1 else 0, {})
  else if op = 11 then (if x ≤ y then 1 else 0, {})
  else if op = 12 then (if x = y then 1 else 0, {})
  else if op = 13 then (a &&& b, {})
  else if op = 14 then (a ||| b, {})
  else if op = 15 then (a ^^^ b, {})
  else if op = 16 then satInt n (x * 2 ^ (y % n).toNat)
  else (unsext n (x / 2 ^ (y % n).toNat), {})

/-- Result of a floating-point operation, whether SR drew, and whether the operation read a NaN (R173, R174, R620). -/
def floatOp (strict : Bool) (F : Fmt) (rm : Rm) (op : Nat) (a b c : Nat) : Nat × Fl × Bool :=
  let x := readVal strict F a
  let y := readVal strict F b
  let z := readVal strict F c
  let ar (ops : List Val) (r : Option Val) : Nat × Fl × Bool :=
    let q := arithRes strict F rm ops r
    (q.1, q.2, !(ops.any Val.isNan) && (match r with | some v => drawsIn strict F v | none => false))
  let fl1 (v : Val) : Fl := { nan := v.isNan }
  if op = 1 then ar [x, y] (vadd x y)
  else if op = 2 then ar [x, y] (vadd x (vneg y))
  else if op = 3 then ar [x, y] (vmul x y)
  else if op = 4 then ar [x, y, z] ((vmul x y).bind (fun p => vadd p z))
  else if op = 5 then (let q := opMin strict F x y; (q.1, q.2, false))
  else if op = 6 then (let q := opMax strict F x y; (q.1, q.2, false))
  else if op = 7 then (a % 2 ^ (F.bits - 1), fl1 x, false)
  else if op = 8 then ((a + 2 ^ (F.bits - 1)) % 2 ^ F.bits, fl1 x, false)
  else if op = 10 then (if vlt x y && !x.isNan && !y.isNan then 1 else 0, (fl1 x).or (fl1 y), false)
  else if op = 11 then (if (vlt x y || veq x y) && !x.isNan && !y.isNan then 1 else 0, (fl1 x).or (fl1 y), false)
  else (if veq x y then 1 else 0, (fl1 x).or (fl1 y), false)

/-- Sources that an operation uses: 1, 2 or 3; SEL is apart. -/
def opArity (op : Nat) : Nat := if op = 4 then 3 else if op = 7 ∨ op = 8 ∨ op = 0x13 then 1 else 2

/-- One micro-operation at a point. -/
def uopStep (e : PtEnv) (outFmt : Nat → Fmt) (a : PtAcc) (u : Uop) : PtAcc :=
  let note (c : Option Nat) (a : PtAcc) : PtAcc := match a.cand, c with
    | none, some x => { a with cand := some x }
    | _, _ => a
  let rm : Rm := if u.rm = 0 then .rne else if u.rm = 1 then .rtz else .sr (e.r a.sr)
  let srs := if uopSr u then 1 else 0
  if u.op = 0x12 then
    let s := srcOwn e a u.ty u.a
    let F := tyFmt u.ty
    let q := convertCode e.strict F rm (!u.nonsat) s.1
    let a1 := note s.2 a
    let made := !s.1.isNan && (decodeVal F q.1).isNan
    let a2 := note (if made then some 5 else none) a1
    { a2 with
      temps := mset a2.temps u.dst (u.ty, q.1)
      fl := a2.fl.or q.2
      sr := a2.sr + srs
      draws := a2.draws + (if u.rm = 2 && drawsIn e.strict F s.1 then 1 else 0) }
  else if u.op = 0x14 then
    let o := u.dst % 2
    let F := outFmt o
    let s := srcOwn e a u.ty u.a
    let q := convertCode e.strict F rm (!u.nonsat) s.1
    let a1 := note s.2 a
    let a2 := note (if !s.1.isNan && (decodeVal F q.1).isNan then some 5 else none) a1
    { a2 with
      outs := mset a2.outs o (q.1, decodeVal F q.1)
      fl := a2.fl.or q.2
      sr := a2.sr + srs
      draws := a2.draws + (if u.rm = 2 && drawsIn e.strict F s.1 then 1 else 0) }
  else if u.op = 9 then
    let ct := if u.ty = 4 then 4 else 1
    let c := (srcRead e a ct u.c 2).1
    let pick := if c ≠ 0 then srcRead e a u.ty u.a 0 else srcRead e a u.ty u.b 1
    let F := tyFmt u.ty
    let code := if F.isInt then pick.1 else
      (if !e.strict && F.flushes && isSubnormal F pick.1 then signBit F (decodeVal F pick.1).neg else pick.1)
    let a1 := note pick.2 a
    { a1 with
      temps := mset a1.temps u.dst (u.ty, code)
      fl := a1.fl.or { nan := !F.isInt && (decodeVal F code).isNan } }
  else
    let n := opArity u.op
    let x := srcRead e a u.ty u.a 0
    let y : Nat × Option Nat := if n < 2 then (0, none) else srcRead e a u.ty u.b 1
    let z : Nat × Option Nat := if n < 3 then (0, none) else srcRead e a u.ty u.c 2
    -- inputs rank before an immediate, whichever source reads it (R621)
    let reads := [x.2, y.2, z.2].filterMap id
    let a1 := note (reads.find? (fun (o : Nat) => o != 4) <|> reads.head?) a
    let F := tyFmt u.ty
    let cmp := decide (u.op = 10 ∨ u.op = 11 ∨ u.op = 12)
    let rty := if cmp && u.ty = 0 then 1 else u.ty
    let res : Nat × Fl × Bool :=
      if F.isInt then (let q := intOp u.op F.bits x.1 y.1 z.1; (q.1, q.2, false))
      else if u.op = 0x13 then (let q := gateFnF32 e.strict u.b x.1; (q.1, q.2, false))
      else floatOp e.strict F rm u.op x.1 y.1 z.1
    let made := !F.isInt && !cmp && (decodeVal F res.1).isNan &&
      !((decodeVal F x.1).isNan || (n ≥ 2 && (decodeVal F y.1).isNan) || (n ≥ 3 && (decodeVal F z.1).isNan))
    let a2 := note (if made then some 5 else none) a1
    { a2 with
      temps := mset a2.temps u.dst (rty, res.1)
      fl := a2.fl.or res.2.1
      sr := a2.sr + srs
      draws := a2.draws + (if uopSr u && res.2.2 then 1 else 0) }

/-- A chain of micro-operations at a point. -/
def runUops (e : PtEnv) (outFmt : Nat → Fmt) (us : List Uop) : PtAcc :=
  us.foldl (uopStep e outFmt) { temps := [], fl := {}, cand := none, sr := 0, draws := 0, outs := [] }

/-- A value that R188 counts as zero. -/
def isZeroVal : Val → Bool
  | .zero _ => true
  | _ => false

def epNin (r : Rec) : Nat := fld r 32 1
def epNout (r : Rec) : Nat := fld r 33 1

/-- Writes of views gathered one after another. -/
def gatherWrites (mem : SMap Byte) (l : List (View × Pt × Nat)) : List (Nat × Bytes) :=
  (l.foldl (fun (acc : List (Nat × Bytes) × SMap Byte) q =>
    match q.1.store acc.2 q.2.1 q.2.2 with
    | some x => (acc.1 ++ [x], memWrite acc.2 x.1 x.2)
    | none => acc) ([], mem)).1

/-- ELE_RUN with MODE MAP. -/
def elementMap (d : Dev) (w : Who) (desc first : Nat) (ev : EngEv) : WRes :=
  let k := d.tk w
  let r := k.desc desc
  let nin := epNin r
  let nout := epNout r
  let isAcc (i : Nat) : Bool := bit (fld r 37 1) i
  let ins := (List.range nin).map (fun i => first + i)
  let outs := (List.range nout).map (fun i => first + nin + i)
  let reads := ((List.range nin).filter (fun i => !isAcc i)).map (fun i => first + i)
  d.opTest w reads outs (fun slips =>
    let mem := d.evBad w.core ev
    let x := d.core w.core
    let vin := ins.map (fun i => k.view i false slips)
    let vout := outs.map (fun i => k.view i true slips)
    let t0 := k.desc (outs.getD 0 0)
    let us := uopsOf k desc
    let outFmt (o : Nat) : Fmt := tFmt (k.desc (outs.getD o 0))
    let res := (List.range (tCount t0)).map (fun f =>
      let p := tPt t0 f
      let codes := (vin.zipIdx).map (fun v =>
        (tFmt v.1.t, if isAcc v.2 then x.accLane ((tAddr v.1.t : Int) + (tOff v.1.t p).1).toNat else v.1.code mem p))
      let e : PtEnv := { strict := k.strict, ins := codes, imm := fun i => fld r (4 * i) 4, f := f,
                         r := fun j => bitsSr (d.draw w.core w.task ((fld r 36 1 + j) % 256) (tSize t0) p) }
      (f, p, runUops e outFmt us))
    let ws := gatherWrites mem (res.flatMap (fun q => (vout.zipIdx).filterMap (fun v =>
      (mget q.2.2.outs v.2).map (fun o => (v.1, q.2.1, o.1)))))
    let cands := res.filterMap (fun q => q.2.2.cand.map (fun op =>
      ({ word := w.word, engine := 2, operand := op, elem := q.1, round := k.progRound } : NanCand)))
    let cnt := (res.filter (fun q => match mget q.2.2.outs 0 with
      | some o => !isZeroVal o.2
      | none => false)).length
    let lost := ((vin.zipIdx.filter (fun v => !isAcc v.2)).foldl (fun n v => n + v.1.lostCount) 0) +
      vout.foldl (fun n v => n + v.lostCount) 0
    let out : OpOut := { writes := ws, fl := res.foldl (fun f q => f.or q.2.2.fl) {}, cands := cands,
                         draws := res.foldl (fun n q => n + q.2.2.draws) 0, lost := lost }
    let d1 := d.onTask w.core w.task (fun k => { k with eleCnt := mset k.eleCnt desc cnt })
    let d2 := d1.onCore w.core (fun x => { x with eleLast := ⟨w.core, w.task, desc, 0, false⟩ })
    .done ((d2.opDone w reads outs slips out).evMark w ev))

/-- A sum in ascending k of R190: its value, its flags, and the first k at which it became a NaN of no NaN operand. -/
structure LutSum where
  v : Nat
  fl : Fl
  made : Option Nat

/-- One term t of position k, of the element x. -/
def LutSum.step (strict : Bool) (a : LutSum) (x : Val) (t : FV) (k : Nat) : LutSum :=
  let r := opAdd strict .fp32 .rne (readVal strict .fp32 a.v) (readVal strict .fp32 t.1)
  { v := r.1, fl := (a.fl.or t.2).or r.2,
    made := a.made <|> (if (f32 r.1).isNan && !(f32 a.v).isNan && !x.isNan then some k else none) }

/-- The sum of the activations (R190). -/
def lutXsum (strict : Bool) (xs : List Val) : LutSum :=
  xs.zipIdx.foldl (fun a q =>
    let r := opAdd strict .fp32 .rne (readVal strict .fp32 a.v) q.1
    { v := r.1, fl := a.fl.or r.2,
      made := a.made <|> (if (f32 r.1).isNan && !(f32 a.v).isNan && !q.1.isNan then some q.2 else none) }) { v := 0, fl := {}, made := none }

/-- One channel (R190): c × x[k] for the 4-bit code c of each k, their sum, and the result; with the k at which a NaN arose: in
either sum, or, in the last two operations, which belong to no one k, the last. -/
def lutChannel (strict : Bool) (xs : List Val) (row : Nat → Nat) (z : Int) (s : Nat) (xsum : LutSum) : Nat × Fl × Option Nat :=
  let acc := xs.zipIdx.foldl (fun (a : LutSum) q =>
    a.step strict q.1 (arithRes strict .fp32 .rne [q.1] (vmul (mkNum false (sext 4 (row q.2)) 0) q.1)) q.2) { v := 0, fl := {}, made := none }
  let rv (c : Nat) : Val := readVal strict .fp32 c
  let first (a b : Option Nat) : Option Nat := match a, b with
    | some i, some j => some (min i j)
    | none, y => y
    | x, none => x
  let q := arithRes strict .fp32 .rne [rv xsum.v, rv acc.v]
    ((vmul (mkNum false (-z) 0) (rv xsum.v)).bind (fun p => vadd p (rv acc.v)))
  let y := opMul strict .fp32 .rne (rv s) (rv q.1)
  let late := (f32 y.1).isNan && !(f32 xsum.v).isNan && !(f32 acc.v).isNan
  (y.1, ((acc.fl.or q.2).or y.2), first xsum.made acc.made <|> (if late then some (xs.length - 1) else none))

/-- ELE_RUN with MODE LUT_DEQ (R190). -/
def elementLut (d : Dev) (w : Who) (desc first : Nat) (ev : EngEv) : WRes :=
  let k := d.tk w
  let r := k.desc desc
  let reads := [first, first + 1]
  let outs := [first + 2]
  d.opTest w reads outs (fun slips =>
    let mem := d.evBad w.core ev
    let x := d.core w.core
    let vx := k.view first false slips
    let vw := k.view (first + 1) false slips
    let vy := k.view (first + 2) true slips
    let K := tSize vx.t 0
    let N := tSize vy.t 0
    let xs := (List.range K).map (fun i => vx.val k.strict mem ⟨i, 0, 0, 0⟩)
    let xsum := lutXsum k.strict xs
    let ys := (List.range N).map (fun n =>
      let e := x.scaleEntry (fld r 38 2 + n)
      (n, lutChannel k.strict xs (fun i => vw.code mem ⟨i, n, 0, 0⟩) (entryZp e) (entryScale e) xsum))
    let nanX := xs.findIdx? Val.isNan
    let at_ (y : Nat × Nat × Fl × Option Nat) (op : Nat) (i : Nat) : NanCand :=
      { word := w.word, engine := 2, operand := op, elem := i + K * y.1, round := k.progRound }
    let cands := ys.flatMap (fun y => (nanX.map (at_ y 0)).toList ++ (y.2.2.2.map (at_ y 5)).toList)
    let out : OpOut := { writes := gatherWrites mem (ys.map (fun y => (vy, ⟨y.1, 0, 0, 0⟩, y.2.1))),
                         fl := ys.foldl (fun f y => f.or y.2.2.1) xsum.fl, cands := cands, draws := 0,
                         lost := vx.lostCount + vw.lostCount + vy.lostCount }
    let d1 := d.onTask w.core w.task (fun k => { k with
      eleCnt := mset k.eleCnt desc ((ys.filter (fun y => !isZeroVal (f32 y.2.1))).length) })
    let d2 := d1.onCore w.core (fun x => { x with eleLast := ⟨w.core, w.task, desc, 3, false⟩ })
    .done ((d2.opDone w reads outs slips out).evMark w ev))

/-- ELE_RUN (R169, R170). -/
def eleRunW (d : Dev) (w : Who) (desc first : Nat) (ev : EngEv) : WRes :=
  if fld ((d.tk w).desc desc) 35 1 = 1 then elementLut d w desc first ev else elementMap d w desc first ev

end Sys2Proof.Machine
end

