-- ==== Sys2Proof/Machine/Scan.lean ====
section
/-! DEFINITION. Machine/Scan.lean: prefix sums and segmented scans (R178 to R182), compensated pairs (R214, R215). -/

namespace Sys2Proof.Machine

/-! ### FP32 operations in the task's mode on codes, with an explicit NaN order (R620) -/

def mAdd (st : Bool) (a b : Nat) : FV := opAdd st .fp32 .rne (readVal st .fp32 a) (readVal st .fp32 b)
def mSub (st : Bool) (a b : Nat) : FV := opSub st .fp32 .rne (readVal st .fp32 a) (readVal st .fp32 b)
def mMul (st : Bool) (a b : Nat) : FV := opMul st .fp32 .rne (readVal st .fp32 a) (readVal st .fp32 b)
def mFma (st : Bool) (a b c : Nat) : FV :=
  opFma st .fp32 .rne (readVal st .fp32 a) (readVal st .fp32 b) (readVal st .fp32 c)

/-- combine_comp of R214; every product names the earlier operand's field first, as R620 ranks NaNs. -/
def combineComp (st : Bool) (e l : List Nat) : List Nat × Fl :=
  let g (x : List Nat) (i : Nat) : Nat := x.getD i 0
  let ah := g e 0; let al := g e 1; let bh := g e 2; let bl := g e 3
  let ah' := g l 0; let al' := g l 1; let bh' := g l 2; let bl' := g l 3
  let ph := mMul st ah ah'
  let p1 := mFma st ah ah' (f32neg ph.1)
  let p2 := mFma st ah al' p1.1
  let pl := mFma st al ah' p2.1
  let Ah := mAdd st ph.1 pl.1
  let a1 := mSub st Ah.1 ph.1
  let Al := mSub st pl.1 a1.1
  let qh := mMul st bh ah'
  let q1 := mFma st bh ah' (f32neg qh.1)
  let q2 := mFma st bl ah' q1.1
  let ql := mFma st bh al' q2.1
  let sh := mAdd st qh.1 bh'
  let z := mSub st sh.1 qh.1
  let s1 := mSub st sh.1 z.1
  let s2 := mSub st qh.1 s1.1
  let s3 := mSub st bh' z.1
  let sl := mAdd st s2.1 s3.1
  let t1 := mAdd st sl.1 ql.1
  let t := mAdd st t1.1 bl'
  let Bh := mAdd st sh.1 t.1
  let b1 := mSub st Bh.1 sh.1
  let Bl := mSub st t.1 b1.1
  ([Ah.1, Al.1, Bh.1, Bl.1],
    [ph, p1, p2, pl, Ah, a1, Al, qh, q1, q2, ql, sh, z, s1, s2, s3, sl, t1, t, Bh, b1, Bl].foldl (fun f x => f.or x.2) {})

/-- What kind of combine a scan makes. -/
structure ScanKind where
  op : Nat
  isInt : Bool
  comp : Bool
  strict : Bool

/-- combine of R180: earlier operand first. -/
def scanCombine (k : ScanKind) (e l : List Nat) : List Nat × Fl :=
  let g (x : List Nat) (i : Nat) : Nat := x.getD i 0
  if k.op = 2 then
    if k.comp then combineComp k.strict e l
    else
      let a := mMul k.strict (g e 0) (g l 0)
      let b := mFma k.strict (g e 1) (g l 0) (g l 1)
      ([a.1, b.1], a.2.or b.2)
  else if k.isInt then
    let r := if k.op = 0 then satInt 32 (sext 32 (g e 0) + sext 32 (g l 0)) else (unsext 32 (max (sext 32 (g e 0)) (sext 32 (g l 0))), {})
    ([r.1], r.2)
  else if k.op = 0 then (let r := mAdd k.strict (g e 0) (g l 0); ([r.1], r.2))
  else (let r := opMax k.strict .fp32 (readVal k.strict .fp32 (g e 0)) (readVal k.strict .fp32 (g l 0)); ([r.1], r.2))

/-- An element in a scan block: its value and whether a start lies at or before it. -/
abbrev ScanEl := List Nat × Bool

/-- One pass of width d over a block, all from the values before it (R181). -/
def scanPass (k : ScanKind) (d : Nat) (s : List ScanEl × Fl) : List ScanEl × Fl :=
  let els := s.1
  let rs := els.zipIdx.map (fun p =>
    if d ≤ p.2 then
      let q := els.getD (p.2 - d) ([], false)
      if p.1.2 then ((p.1.1, true), ({} : Fl))
      else (let r := scanCombine k q.1 p.1.1; ((r.1, q.2), r.2))
    else (p.1, {}))
  (rs.map (·.1), rs.foldl (fun f r => f.or r.2) s.2)

/-- One block of 64: passes of widths 1, 2, 4 up to 32. -/
def scanBlock (k : ScanKind) (run : Option (List Nat)) (els : List ScanEl) : List (List Nat) × Fl :=
  let v := [1, 2, 4, 8, 16, 32].foldl (fun s d => if d < els.length then scanPass k d s else s) (els, {})
  match run with
  | none => (v.1.map (·.1), v.2)
  | some r =>
    let ys := v.1.map (fun e => if e.2 then (e.1, ({} : Fl)) else scanCombine k r e.1)
    (ys.map (·.1), ys.foldl (fun f y => f.or y.2) v.2)

/-- A row (R181): FAST by blocks of 64, STRICT in ascending order. -/
def scanRow (k : ScanKind) (carry : Option (List Nat)) (els : List ScanEl) : List (List Nat) × Fl :=
  if k.strict then
    let r := els.foldl (fun (acc : List (List Nat) × Option (List Nat) × Fl) e =>
      if e.2 then (acc.1 ++ [e.1], some e.1, acc.2.2)
      else match acc.2.1 with
        | some p => let q := scanCombine k p e.1; (acc.1 ++ [q.1], some q.1, acc.2.2.or q.2)
        | none => (acc.1 ++ [e.1], some e.1, acc.2.2)) ([], carry, {})
    (r.1, r.2.2)
  else
    let r := (List.range ((els.length + 63) / 64)).foldl (fun (acc : List (List Nat) × Option (List Nat) × Fl) b =>
      let q := scanBlock k acc.2.1 ((els.drop (64 * b)).take 64)
      (acc.1 ++ q.1, q.1.getLast?, acc.2.2.or q.2)) ([], carry, {})
    (r.1, r.2.2)

/-- An input element at the scan's TYPE (R178): FP32 as stored, other formats widened exactly. -/
def scanIn (strict isInt : Bool) (v : View) (m : SMap Byte) (p : Pt) : Nat :=
  let f := tFmt v.t
  let c := v.code m p
  if isInt then unsext 32 (sext f.bits c)
  else if f = .fp32 then c
  else if f.isInt then f32ofInt (sext f.bits c)
  else widenF32 strict f c

/-- The point of a per-row tensor (R178). -/
def rowPt (p : Pt) : Pt := ⟨p.i1, p.i2, p.i3, 0⟩

def sdXa (r : Rec) : Nat := fld r 0 2
def sdXb (r : Rec) : Nat := fld r 2 2
def sdY (r : Rec) : Nat := fld r 4 2
def sdYa (r : Rec) : Nat := fld r 6 2
def sdCarry (r : Rec) : Nat := fld r 8 2
def sdCarryOut (r : Rec) : Nat := fld r 10 2
def sdSeg (r : Rec) : Nat := fld r 12 2
def sdSegPrev (r : Rec) : Nat := fld r 14 2
def sdOp (r : Rec) : Nat := fld r 16 1
def sdSegSrc (r : Rec) : Nat := fld r 17 1
def sdType (r : Rec) : Nat := fld r 18 1
def sdComp (r : Rec) : Bool := bit (fld r 19 1) 0

/-- Tensors present in a list of indices. -/
def present (l : List Nat) : List Nat := l.filter (· != 0xFFFF)

/-- ELE_SCAN (R178). A NaN of XA at a segment start of a PAIR scan without YA counts as read, though no result uses it (DESIGN CHOICE,
entry 125). -/
def eleScanW (d : Dev) (w : Who) (desc : Nat) (ev : EngEv) : WRes :=
  let k := d.tk w
  let r := k.desc desc
  let comp := sdComp r
  let low (i : Nat) : List Nat := if comp && i != 0xFFFF then [i + 1] else []
  let reads := present [sdXa r, sdXb r, sdCarry r, sdSeg r, sdSegPrev r] ++ low (sdCarry r)
  let writes := present [sdY r, sdYa r, sdCarryOut r] ++ low (sdY r) ++ low (sdYa r) ++ low (sdCarryOut r)
  d.opTest w reads writes (fun slips =>
    let mem := d.evBad w.core ev
    let vw (i : Nat) : View := k.view i false slips
    let xa := vw (sdXa r)
    let isInt := decide (sdType r = 1)
    let kind : ScanKind := { op := sdOp r, isInt := isInt, comp := comp, strict := k.strict }
    let T := tSize xa.t 0
    let rows := tSize xa.t 1 * tSize xa.t 2 * tSize xa.t 3
    let rowRes := (List.range rows).map (fun ri =>
      let pt (i : Nat) : Pt := { (ptOf (tSize xa.t 1) (tSize xa.t 2) (tSize xa.t 3) ri) with
        i0 := i, i1 := ri % tSize xa.t 1, i2 := ri / tSize xa.t 1 % tSize xa.t 2, i3 := ri / (tSize xa.t 1 * tSize xa.t 2) }
      let inA (i : Nat) : Nat := scanIn k.strict isInt xa mem (pt i)
      let inB (i : Nat) : Nat := scanIn k.strict isInt (vw (sdXb r)) mem (pt i)
      let el (i : Nat) : List Nat :=
        if sdOp r = 2 then (if comp then [inA i, 0, inB i, 0] else [inA i, inB i]) else [inA i]
      let seg (i : Nat) : Nat := (vw (sdSeg r)).code mem (pt i)
      let start (i : Nat) : Bool :=
        if sdSegSrc r = 1 then seg i != 0
        else if sdSegSrc r = 2 then
          (if i = 0 then sdSegPrev r != 0xFFFF && (vw (sdSegPrev r)).code mem (rowPt (pt 0)) != seg 0 else seg i != seg (i - 1))
        else false
      let cv : Nat := scanIn k.strict isInt (vw (sdCarry r)) mem (rowPt (pt 0))
      let cvLow : Nat := if comp then (vw (sdCarry r + 1)).code mem (rowPt (pt 0)) else 0
      let carry : Option (List Nat) :=
        if sdCarry r = 0xFFFF then none
        else if sdOp r = 2 then (if comp then some [cOne, 0, cv, cvLow] else some [cOne, cv])
        else some [cv]
      let els := (List.range T).map (fun i => (el i, start i))
      let q := scanRow kind carry els
      let f0 := T * ri
      let nanAt (i : Nat) : Option Nat :=
        if isInt then none
        -- a CARRY is read only when the first segment does not start at element 0 (R128)
        else if i = 0 && carry.isSome && !start 0 && ((f32 cv).isNan || (f32 cvLow).isNan) then some 2
        else if (f32 (inA i)).isNan then some 0
        else if sdOp r = 2 && (f32 (inB i)).isNan then some 1
        else none
      let readCs := (List.range T).filterMap (fun i => (nanAt i).map (fun o => (f0 + i, o)))
      let made := (q.1.zipIdx.find? (fun y => y.1.any (fun c => !isInt && (f32 c).isNan))).map (·.2)
      let cs := match made with
        | some i => if readCs.any (fun x => decide (x.1 ≤ f0 + i)) then readCs else readCs ++ [(f0 + i, 5)]
        | none => readCs
      (pt, q, cs))
    let hiOf (y : List Nat) : Nat := if sdOp r = 2 then y.getD (if comp then 2 else 1) 0 else y.getD 0 0
    let wr (i : Nat) : View := k.view i true slips
    let put (i : Nat) (f : List Nat → Nat) : List (View × Pt × Nat) :=
      if i = 0xFFFF then [] else rowRes.flatMap (fun x => x.2.1.1.zipIdx.map (fun y => (wr i, x.1 y.2, f y.1)))
    let putRow (i : Nat) (f : List Nat → Nat) : List (View × Pt × Nat) :=
      if i = 0xFFFF then [] else rowRes.filterMap (fun x => x.2.1.1.getLast?.map (fun y => (wr i, rowPt (x.1 0), f y)))
    let lowOut : List (View × Pt × Nat) :=
      if comp then
        put (sdY r + 1) (fun y => y.getD 3 0) ++ (if sdYa r = 0xFFFF then [] else put (sdYa r + 1) (fun y => y.getD 1 0)) ++
          (if sdCarryOut r = 0xFFFF then [] else putRow (sdCarryOut r + 1) (fun y => y.getD 3 0))
      else []
    let ws := gatherWrites mem (put (sdY r) hiOf ++ put (sdYa r) (fun y => y.getD 0 0) ++ putRow (sdCarryOut r) hiOf ++ lowOut)
    let anyNan := rowRes.any (fun x => !x.2.2.isEmpty)
    let out : OpOut :=
      { writes := ws
        fl := rowRes.foldl (fun f x => f.or x.2.1.2) { nan := anyNan }
        cands := rowRes.flatMap (fun x => x.2.2.map (fun c =>
          ({ word := w.word, engine := 2, operand := c.2, elem := c.1, round := k.progRound } : NanCand)))
        draws := 0
        lost := (reads.map vw).foldl (fun n v => n + v.lostCount) 0 + (writes.map wr).foldl (fun n v => n + v.lostCount) 0 }
    let d1 := d.onCore w.core (fun x => { x with eleLast := ⟨w.core, w.task, desc, 1, false⟩ })
    .done ((d1.opDone w reads writes slips out).evMark w ev))

end Sys2Proof.Machine
end

