-- ==== Sys2Proof/Machine/Reduce.lean ====
section
/-! DEFINITION. Machine/Reduce.lean: the reduction unit (R184 to R187). -/

namespace Sys2Proof.Machine

/-- A partial state of a reduction: SUM, MAX, SUMSQ one value; ARGMAX value and index; SOFTMAX (m, s). -/
abbrev Part := List Nat

def negInf : Nat := 0xFF800000

/-- EXP of an RNE difference (R186), written to FP32 in the task's mode. -/
def expDiff (st : Bool) (a b : Nat) : FV :=
  let dlt := mSub st a b
  let e := gateFnF32 st 6 dlt.1
  (e.1, dlt.2.or e.2)

/-- m and s of a SOFTMAX with a NaN are canonical (R186). -/
def nanPart : Part := [0x7FC00000, 0x7FC00000]

/-- Greater in ARGMAX order: a NaN exceeds every number (R186). -/
def argGreater (isInt : Bool) (a b : Nat) : Bool :=
  if isInt then decide (sext 32 b < sext 32 a)
  else match (f32 a).isNan, (f32 b).isNan with
    | true, false => true
    | true, true => false
    | false, true => false
    | false, false => vlt (f32 b) (f32 a)

/-- Of two (value, index) partials the larger; a tie, or two NaNs, goes to the lower index. -/
def argPick (isInt : Bool) (p q : Part) : Part :=
  let a := p.getD 0 0
  let b := q.getD 0 0
  if argGreater isInt a b then p
  else if argGreater isInt b a then q
  else if p.getD 1 0 ≤ q.getD 1 0 then p else q

/-- The merge step of R186 on (m, s). -/
def softMerge (st : Bool) (p q : Part) : Part × Fl :=
  let m := p.getD 0 0; let s := p.getD 1 0
  let mq := q.getD 0 0; let sq := q.getD 1 0
  if mq = negInf then (p, {})
  else if (f32 m).isNan || (f32 s).isNan || (f32 mq).isNan || (f32 sq).isNan then (nanPart, { nan := true })
  else if m = negInf then (q, {})
  else if !vlt (f32 m) (f32 mq) then
    let f := expDiff st mq m
    let r := mFma st sq f.1 s
    ([m, r.1], f.2.or r.2)
  else
    let f := expDiff st m mq
    let r := mFma st s f.1 sq
    ([mq, r.1], f.2.or r.2)

/-- acc(p, x) of R185 and R186; x carries its index. -/
def redAcc (st isInt : Bool) (op : Nat) (p : Option Part) (x i : Nat) : Option Part × Fl :=
  let rd (c : Nat) : Val := readVal st .fp32 c
  match op with
  | 0 => match p with
    | none => (some [x], { nan := !isInt && (f32 x).isNan })
    | some q =>
      if isInt then (let r := satInt 32 (sext 32 (q.getD 0 0) + sext 32 x); (some [r.1], r.2))
      else (let r := mAdd st (q.getD 0 0) x; (some [r.1], r.2))
  | 1 => match p with
    | none => (some [x], { nan := !isInt && (f32 x).isNan })
    | some q =>
      if isInt then (some [unsext 32 (max (sext 32 (q.getD 0 0)) (sext 32 x))], {})
      else (let r := opMax st .fp32 (rd (q.getD 0 0)) (rd x); (some [r.1], r.2))
  | 2 => match p with
    | none => (some [x, i], { nan := !isInt && (f32 x).isNan })
    | some q => (some (argPick isInt q [x, i]), { nan := !isInt && (f32 x).isNan })
  | 3 =>
    let q := match p with
      | some q => q.getD 0 0
      | none => 0
    let r := arithRes st .fp32 .rne [rd q, rd x] ((vmul (rd x) (rd x)).bind (fun y => vadd y (rd q)))
    (some [r.1], r.2)
  | _ =>
    if x = negInf then (p, {})
    else if (f32 x).isNan then (some nanPart, { nan := true })
    else match p with
      | none => (some [x, cOne], {})
      | some q =>
        let m := q.getD 0 0
        let s := q.getD 1 0
        if (f32 m).isNan || (f32 s).isNan then (some nanPart, { nan := true })
        else if vlt (rd m) (rd x) then
          let f := expDiff st m x
          let r := mFma st s f.1 cOne
          (some [x, r.1], f.2.or r.2)
        else
          let f := expDiff st x m
          let r := mAdd st s f.1
          (some [m, r.1], f.2.or r.2)

/-- mrg(p, q) of R185 and R186. -/
def redMrg (st isInt : Bool) (op : Nat) (p q : Option Part) : Option Part × Fl :=
  match p, q with
  | none, _ => (q, {})
  | _, none => (p, {})
  | some a, some b =>
    match op with
    | 0 =>
      if isInt then (let r := satInt 32 (sext 32 (a.getD 0 0) + sext 32 (b.getD 0 0)); (some [r.1], r.2))
      else (let r := mAdd st (a.getD 0 0) (b.getD 0 0); (some [r.1], r.2))
    | 3 => (let r := mAdd st (a.getD 0 0) (b.getD 0 0); (some [r.1], r.2))
    | 1 =>
      if isInt then (some [unsext 32 (max (sext 32 (a.getD 0 0)) (sext 32 (b.getD 0 0)))], {})
      else (let r := opMax st .fp32 (readVal st .fp32 (a.getD 0 0)) (readVal st .fp32 (b.getD 0 0)); (some [r.1], r.2))
    | 2 => (some (argPick isInt a b), {})
    | _ => let r := softMerge st a b; (some r.1, r.2)

/-- A partial with its flags and the positions at which a step made a NaN of no NaN operand (R129, R168). -/
structure RedSt where
  p : Option Part
  fl : Fl
  made : List Nat

/-- A partial that holds a NaN. -/
def partNan (isInt : Bool) (p : Option Part) : Bool := !isInt && (p.getD []).any (fun c => (f32 c).isNan)

/-- A fold in ascending order. -/
def redFold (st isInt : Bool) (op : Nat) (xs : List (Nat × Nat)) : RedSt :=
  xs.foldl (fun a x =>
    let r := redAcc st isInt op a.p x.1 x.2
    { p := r.1, fl := a.fl.or r.2,
      made := if partNan isInt r.1 && !partNan isInt a.p && !(f32 x.1).isNan then a.made ++ [x.2] else a.made }) { p := none, fl := {}, made := [] }

/-- A merge of two lanes; a NaN that it makes belongs to no one source point and is given the row's last (DESIGN CHOICE, entry 101). -/
def redJoin (st isInt : Bool) (op last : Nat) (a b : RedSt) : RedSt :=
  let r := redMrg st isInt op a.p b.p
  { p := r.1, fl := (a.fl.or b.fl).or r.2,
    made := a.made ++ b.made ++ (if partNan isInt r.1 && !partNan isInt a.p && !partNan isInt b.p then [last] else []) }

/-- One result (R185): lanes of 64 and their merge in a FAST task with AXIS 0, else one fold. -/
def redOne (st isInt : Bool) (op axis : Nat) (xs : List Nat) : RedSt :=
  let ix := xs.zipIdx
  let none_ : RedSt := { p := none, fl := {}, made := [] }
  if !st && axis = 0 then
    let lanes := (List.range 64).map (fun l => redFold st isInt op (ix.filter (fun x => x.2 % 64 == l)))
    ([32, 16, 8, 4, 2, 1].foldl (fun (s : List RedSt) w =>
      (List.range w).map (fun l => redJoin st isInt op (xs.length - 1) (s.getD l none_) (s.getD (l + w) none_))) lanes).getD 0 none_
  else redFold st isInt op ix

/-- The empty value (R184, R186). -/
def redEmpty (isInt : Bool) (op : Nat) : Part :=
  let least := if isInt then 0x80000000 else negInf
  match op with
  | 0 => [0]
  | 1 => [least]
  | 2 => [least, 0xFFFFFFFF]
  | 3 => [0]
  | _ => [negInf, 0]

/-- A MERGE partial: (m, s, o). -/
structure MPart where
  m : Nat
  s : Nat
  o : List Nat
  deriving DecidableEq, Repr

def MPart.nan (n : Nat) : MPart := ⟨0x7FC00000, 0x7FC00000, List.replicate n 0x7FC00000⟩

/-- The output elements at which a partial holds a NaN; one in m or s is given the partial's first element (R621). -/
def MPart.nans (p : MPart) : List Nat :=
  (if (f32 p.m).isNan || (f32 p.s).isNan then [0] else []) ++ (p.o.zipIdx.filter (fun c => (f32 c.1).isNan)).map Prod.snd

/-- A partial, absent ones apart, that holds a NaN; one with m = −∞ is skipped and holds none. -/
def optNan : Option MPart → Bool
  | some p => p.m != negInf && !p.nans.isEmpty
  | none => false

/-- merge_step of R186 with o. -/
def mergeStep (st : Bool) (p : Option MPart) (q : MPart) : Option MPart × Fl :=
  if q.m = negInf then (p, {})
  else
    let badO := q.o.any (fun c => (f32 c).isNan)
    let badQ := (f32 q.m).isNan || (f32 q.s).isNan
    match p with
    | none => if badO || badQ then (some (MPart.nan q.o.length), { nan := true }) else (some q, {})
    | some p =>
      if badO || badQ || (f32 p.m).isNan || (f32 p.s).isNan || p.o.any (fun c => (f32 c).isNan) then
        (some (MPart.nan q.o.length), { nan := true })
      else if p.m = negInf then (some q, {})
      else
        let up := vlt (f32 p.m) (f32 q.m)
        let f := if up then expDiff st p.m q.m else expDiff st q.m p.m
        let s := if up then mFma st p.s f.1 q.s else mFma st q.s f.1 p.s
        let os := (p.o.zip q.o).map (fun x => if up then mFma st x.1 f.1 x.2 else mFma st x.2 f.1 x.1)
        let fl := os.foldl (fun g x => g.or x.2) (f.2.or s.2)
        let r : MPart := ⟨if up then q.m else p.m, s.1, os.map (·.1)⟩
        (some r, fl)

def rdSrc (r : Rec) : Nat := fld r 0 2
def rdSrcM (r : Rec) : Nat := fld r 2 2
def rdSrcS (r : Rec) : Nat := fld r 4 2
def rdDst (r : Rec) : Nat := fld r 6 2
def rdDst2 (r : Rec) : Nat := fld r 8 2
def rdDst3 (r : Rec) : Nat := fld r 10 2
def rdOp (r : Rec) : Nat := fld r 12 1
def rdAxis (r : Rec) : Nat := fld r 13 1

/-- The source point of position i along the reduced dimension for result point q (R184). -/
def redPt (axis i : Nat) (q : Pt) : Pt := if axis = 0 then ⟨i, q.i0, q.i1, q.i2⟩ else ⟨q.i0, i, q.i1, q.i2⟩

/-- A source code at FP32 or INT32. -/
def redIn (st isInt : Bool) (v : View) (m : SMap Byte) (p : Pt) : Nat :=
  let f := tFmt v.t
  if isInt then unsext 32 (sext f.bits (v.code m p)) else widenF32 st f (v.code m p)

/-- What one result writes, its flags, whether it is empty, and its NaN candidates. -/
structure RedRow where
  puts : List (Nat × Pt × Nat)
  fl : Fl
  empty : Bool
  cands : List (Nat × Nat)

/-- One result of every operation but MERGE. -/
def redRow (k : Task) (r : Rec) (v : View) (mem : SMap Byte) (isInt : Bool) (q : Pt) : RedRow :=
  let t := v.t
  let n := if rdAxis r = 0 then tSize t 0 else tSize t 1
  let pts := (List.range n).map (fun i => redPt (rdAxis r) i q)
  let xs := pts.map (redIn k.strict isInt v mem)
  let res := redOne k.strict isInt (rdOp r) (rdAxis r) xs
  let emp := res.p.isNone
  let p := res.p.getD (redEmpty isInt (rdOp r))
  let flat (p : Pt) : Nat := p.i0 + tSize t 0 * (p.i1 + tSize t 1 * (p.i2 + tSize t 2 * p.i3))
  let reads := if isInt then [] else ((pts.zip xs).filter (fun x => (f32 x.2).isNan)).map (fun x => (flat x.1, 0))
  let made := res.made.filterMap (fun i => pts[i]?.map (fun x => (flat x, 5)))
  let puts := if rdOp r = 2 then [(rdDst r, q, p.getD 1 0), (rdDst2 r, q, p.getD 0 0)]
    else if rdOp r = 4 then [(rdDst r, q, p.getD 0 0), (rdDst2 r, q, p.getD 1 0)]
    else [(rdDst r, q, p.getD 0 0)]
  { puts := puts.filter (fun x => x.1 != 0xFFFF), fl := res.fl, empty := emp && decide (rdOp r = 4), cands := reads ++ made }

/-- One result of MERGE: a row of partials k, with the output vector in dimension 0. -/
def mergeRow (k : Task) (r : Rec) (v vm vs : View) (mem : SMap Byte) (i2 i3 : Nat) : RedRow :=
  let t := v.t
  let nd := tSize t 0
  let parts := (List.range (tSize t 1)).map (fun p =>
    ({ m := redIn k.strict false vm mem ⟨p, i2, i3, 0⟩, s := redIn k.strict false vs mem ⟨p, i2, i3, 0⟩,
       o := (List.range nd).map (fun c => redIn k.strict false v mem ⟨c, p, i2, i3⟩) } : MPart))
  let f (c pp : Nat) : Nat := c + nd * (pp + tSize t 1 * (i2 + tSize t 2 * i3))
  let res := parts.zipIdx.foldl (fun (a : Option MPart × Fl × List (Nat × Nat)) q =>
    let x := mergeStep k.strict a.1 q.1
    let fresh := !(optNan a.1) && !(optNan (some q.1))
    (x.1, a.2.1.or x.2, if fresh then a.2.2 ++ (x.1.elim [] (fun y => y.nans)).map (fun c => (f c q.2, 5)) else a.2.2)) (none, {}, [])
  let emp := match res.1 with
    | none => true
    | some _ => false
  let p := res.1.getD ⟨negInf, 0, List.replicate nd 0⟩
  let reads := parts.zipIdx.flatMap (fun q =>
    if q.1.m = negInf then []
    else (if (f32 q.1.m).isNan then [(f 0 q.2, 1)] else if (f32 q.1.s).isNan then [(f 0 q.2, 2)] else []) ++
      (q.1.o.zipIdx.filter (fun c => (f32 c.1).isNan)).map (fun c => (f c.2 q.2, 0)))
  { puts := ((List.range nd).map (fun c => (rdDst r, (⟨c, i2, i3, 0⟩ : Pt), p.o.getD c 0))) ++
      [(rdDst2 r, ⟨i2, i3, 0, 0⟩, p.m), (rdDst3 r, ⟨i2, i3, 0, 0⟩, p.s)],
    fl := res.2.1, empty := emp, cands := reads ++ res.2.2 }

/-- RED_RUN (R184): `sum` names the summary register that takes the scalar result (R72). -/
def redRunW (d : Dev) (w : Who) (desc sum : Nat) (ev : EngEv) : WRes :=
  let k := d.tk w
  let r := k.desc desc
  let merge := decide (rdOp r = 5)
  let reads := if merge then [rdSrc r, rdSrcM r, rdSrcS r] else [rdSrc r]
  let writes := present [rdDst r, rdDst2 r, rdDst3 r]
  d.opTest w reads writes (fun slips =>
    let mem := d.evBad w.core ev
    let v := k.view (rdSrc r) false slips
    let isInt := tFmt v.t == .int32
    let t := v.t
    let rows :=
      if merge then
        (List.range (tSize t 3)).flatMap (fun i3 => (List.range (tSize t 2)).map (fun i2 =>
          mergeRow k r v (k.view (rdSrcM r) false slips) (k.view (rdSrcS r) false slips) mem i2 i3))
      else
        let s0 := if rdAxis r = 0 then tSize t 1 else tSize t 0
        (List.range (s0 * tSize t 2 * tSize t 3)).map (fun f => redRow k r v mem isInt (ptOf s0 (tSize t 2) (tSize t 3) f))
    let ws := gatherWrites mem (rows.flatMap (fun x => x.puts.map (fun p => (k.view p.1 true slips, p.2.1, p.2.2))))
    let nEmpty := (rows.filter (·.empty)).length
    let first := ((rows.flatMap (·.puts)).find? (fun p => p.1 == rdDst r)).map (fun p => p.2.2)
    let tyF := tFmt (k.desc (rdDst r)) == .fp32
    let out : OpOut :=
      { writes := ws
        fl := rows.foldl (fun f x => f.or x.fl) {}
        cands := rows.flatMap (fun x => x.cands.map (fun c =>
          ({ word := w.word, engine := 3, operand := c.2, elem := c.1, round := k.progRound } : NanCand)))
        draws := 0
        lost := (reads.map (fun i => k.view i false slips)).foldl (fun n v => n + v.lostCount) 0 +
          (writes.map (fun i => k.view i true slips)).foldl (fun n v => n + v.lostCount) 0
        engine := 3 }
    let d1 := d.onTask w.core w.task (fun k => { k with
      emptyRow := decide (0 < nEmpty)
      redRes := match first with
        | some c => mset k.redRes desc (c, tyF)
        | none => k.redRes
      sums := match first with
        | some c => mset k.sums sum (c, tyF)
        | none => k.sums })
    let d2 := d1.onCore w.core (fun x => { x with redLast := ⟨w.core, w.task, desc, 0, decide (0 < nEmpty)⟩ })
    let d3 := d2.count (coreOff w.core + 0x540) 32 nEmpty
    .done ((d3.opDone w reads writes slips out).evMark w ev))

end Sys2Proof.Machine
end

