-- ==== Sys2Proof/Machine/Convert.lean ====
section
/-! DEFINITION. Machine/Convert.lean: CONVERT (R123 to R125, R268 to R270, R276) and STAT_FLUSH (R278). -/

namespace Sys2Proof.Machine

/-- CONVERT (R123). -/
def convertW (d : Dev) (w : Who) (desc : Nat) (ev : EngEv) : WRes :=
  let k := d.tk w
  let r := k.desc desc
  let si := fld r 0 2
  let di := fld r 2 2
  d.opTest w [si] [di] (fun slips =>
    let mem := d.evBad w.core ev
    let x := d.core w.core
    let vs := k.view si false slips
    let vd := k.view di true slips
    let fs := tFmt vs.t
    let fd := tFmt vd.t
    let map := bit (fld r 7 1) 1
    let grp := if map then x.groupAt (fld r 8 2) else none
    let pts := (List.range (tCount vd.t)).map (fun f =>
      let p := tPt vd.t f
      let chan := match grp with
        | some q => gChan q.2.decl p
        | none => 0
      let entry := grp.map (fun q => x.scaleEntry (gFirst q.2.decl + chan))
      let v := vs.val k.strict mem p
      let rm := d.rmOf w.core w.task (fld r 4 1) (fld r 6 1) (tSize vd.t) p
      let o := convOne k.strict fd (fld r 5 1 == 0) entry (map && fs.isInt) rm v
      (f, p, chan, entry, v, o))
    let nan (q : Nat × Pt × Nat × Option Nat × Val × ConvOut) : Option Nat :=
      if q.2.2.2.2.1.isNan then some 0
      else if (decodeVal fd q.2.2.2.2.2.code).isNan then some 5 else none
    let cps : List ConvPt := pts.map (fun q =>
      { f := q.1, chan := q.2.2.1, out := q.2.2.2.2.2, err := convErr fd q.2.2.2.1 (map && fs.isInt) q.2.2.2.2.2 })
    let out : OpOut :=
      { writes := gatherWrites mem (pts.map (fun q => (vd, q.2.1, q.2.2.2.2.2.code)))
        fl := pts.foldl (fun f q => f.or q.2.2.2.2.2.fl) {}
        cands := pts.filterMap (fun q => (nan q).map (fun op =>
          ({ word := w.word, engine := 2, operand := op, elem := q.1, round := k.progRound } : NanCand)))
        draws := if fld r 4 1 = 2 then (pts.filter (fun q => q.2.2.2.2.2.drew)).length else 0
        lost := vs.lostCount + vd.lostCount }
    let d1 := d.onCore w.core (fun x =>
      let y := { x with eleLast := ⟨w.core, w.task, desc, 2, false⟩ }
      if bit (fld r 7 1) 0 then
        y.addStats w.task di (match grp with | some q => q.1 | none => 0)
          (match grp with | some q => gAdapts q.2.decl | none => false) cps
      else y)
    .done ((d1.opDone w [si] [di] slips out).evMark w ev))

/-- STAT_FLUSH (R278). -/
def statFlushW (d : Dev) (w : Who) (desc : Nat) : WRes :=
  .done (d.onCore w.core (fun x => match x.accs.find? (fun a => a.task == w.task && a.desc == desc) with
    | some a => x.closeAcc (x.task w.task) a
    | none => x))

end Sys2Proof.Machine
end

