-- ==== Sys2Proof/Machine/Sampler.lean ====
section
/-! DEFINITION. Machine/Sampler.lean: sampler requests (R298 to R304). -/

namespace Sys2Proof.Machine

/-- A value in the ranking order of R300: z descending, then the index ascending. -/
def rankBefore (a b : Nat × Nat) : Bool :=
  if vlt (f32 b.1) (f32 a.1) then true else if vlt (f32 a.1) (f32 b.1) then false else decide (a.2 < b.2)

def rankInsert (x : Nat × Nat) : List (Nat × Nat) → List (Nat × Nat)
  | [] => [x]
  | a :: r => if rankBefore x a then x :: a :: r else a :: rankInsert x r

/-- The candidates, best first (R300). -/
def rankAll (zs : List Nat) : List (Nat × Nat) := zs.zipIdx.foldl (fun l x => rankInsert x l) []

/-- z of a logit, with NAN for a NaN (R300). -/
def logitZ (f : Fmt) (invTemp code : Nat) : Nat × Fl :=
  let c := match decodeVal f code with
    | .nan n p => quietNan .fp32 n p
    | v => (roundCode true .fp32 .rne false v).1
  let r : Nat × Fl := if invTemp = 0 then (c, {}) else f32mul c invTemp
  if (f32 r.1).isNan then (negInf, { nan := true }) else r

/-- Weights of the candidates by rank (R300). -/
def weightOf (top z : Nat) (k : Nat) : FV :=
  if k = 0 then (cOne, {})
  else if top = 0x7F800000 then (if z = 0x7F800000 then cOne else 0, {})
  else if top = negInf then (0, {})
  else
    let dl := f32sub z top
    let e := gateFn true 6 dl.1
    (e.1, dl.2.or e.2)

/-- Running sums. -/
def prefixSums (ws : List Nat) : List Nat :=
  (ws.foldl (fun (a : List Nat × Option Nat) w => match a.2 with
    | none => (a.1 ++ [w], some w)
    | some s => let t := (f32add s w).1; (a.1 ++ [t], some t)) ([], none)).1

/-- sample_row of R300 with the draw's uniform u. -/
def sampleRow (zs : List Nat) (invTemp topK topP u : Nat) : Nat × Fl :=
  let n := min topK zs.length
  let cand := (rankAll zs).take n
  let idx (k : Nat) : Nat := (cand.getD k (0, 0)).2
  if invTemp = 0 ∨ n = 1 then (idx 0, {})
  else
    let top := (cand.getD 0 (0, 0)).1
    let ws := cand.zipIdx.map (fun c => weightOf top c.1.1 c.2)
    let C := prefixSums (ws.map (·.1))
    let cut := (f32mul topP (C.getD (n - 1) 0)).1
    let m := 1 + ((C.findIdx? (fun c => !vlt (f32 c) (f32 cut))).getD (n - 1))
    let t := (f32mul (C.getD (m - 1) 0) (roundCode true .fp32 .rne false (mkNum false u (-24))).1).1
    let pick := ((C.take m).findIdx? (fun c => vlt (f32 t) (f32 c))).getD (m - 1)
    (idx pick, ws.foldl (fun f w => f.or w.2) {})

/-- SQRT and LOG with their special inputs, subnormals kept (R299). -/
def fnS (fn x : Nat) : Nat := (gateFn true fn x).1

/-- transform(a, b) of R303. -/
def normalTransform (a b : Nat) : Nat :=
  let u1 := (roundCode true .fp32 .rne false (mkNum false ((a : Int) + 1) (-24))).1
  let t := (roundCode true .fp32 .rne false (mkNum false ((b : Int) - 2 ^ 23) (-24))).1
  let l := (f32mul 0xC0000000 (fnS 7 u1)).1
  let rho := fnS 10 (f32max 0 l)
  (f32mul rho (fnSinAt .cos (t, {})).1).1

/-- table_deviate(u) of R304. -/
def tableDeviate (T : Nat → Nat) (u : Nat) : Nat × Fl :=
  let x := u * 1023
  let j := x / 2 ^ 24
  let f := (roundCode true .fp32 .rne false (mkNum false ((x % 2 ^ 24 : Nat) : Int) (-24))).1
  let dl := f32sub (T (j + 1)) (T j)
  let r := f32fma f dl.1 (T j)
  (r.1, dl.2.or r.2)

/-- A deviate reads a NaN entry (R304). -/
def tableNan (T : Nat → Nat) (u : Nat) : Bool := (f32 (T (u * 1023 / 2 ^ 24))).isNan || (f32 (T (u * 1023 / 2 ^ 24 + 1))).isNan

def sqSrc (r : Rec) : Nat := fld r 0 2
def sqDst (r : Rec) : Nat := fld r 2 2
def sqMeta (r : Rec) : Nat := fld r 4 2
def sqOp (r : Rec) : Nat := fld r 6 1
def sqTable (r : Rec) : Nat := fld r 10 2

/-- SMP_REQ (R298): a TOKEN request, or a fill of DST. DESIGN CHOICE (entry 101): a NaN TABLE entry has the flat index of the DST point. -/
def smpReqW (d : Dev) (w : Who) (desc : Nat) : WRes :=
  let k := d.tk w
  let r := k.desc desc
  let token := decide (sqOp r = 0)
  let reads := if token then [sqSrc r, sqMeta r] else present [sqTable r]
  let writes := [sqDst r]
  d.opTest w reads writes (fun slips =>
    let mem := (d.core w.core).readable
    let vd := k.view (sqDst r) true slips
    let cand (elem op : Nat) : NanCand := { word := w.word, engine := 4, operand := op, elem := elem, round := k.progRound }
    let out : OpOut :=
      if token then
        let vs := k.view (sqSrc r) false slips
        let vm := k.view (sqMeta r) false slips
        let V := tSize vs.t 0
        let rows : List (Nat × Nat × Fl × List Nat) := (List.range (tSize vs.t 1)).map (fun i =>
          let slot := vm.code mem ⟨0, i, 0, 0⟩
          let off := vm.code mem ⟨1, i, 0, 0⟩
          let codes : List Nat := (List.range V).map (fun c => vs.code mem ⟨c, i, 0, 0⟩)
          let own := if slot < 64 ∧ off < 256 then d.slotStream k.job (fld r 20 1 * 64 + slot) else none
          match own with
          | none => (i, 0xFFFFFFFF, ({} : Fl), ([] : List Nat))
          | some s =>
            let zs : List (Nat × Fl) := codes.map (logitZ (tFmt vs.t) (fld r 12 4))
            let u := bitsU (mix s.2.seed (s.2.snum * 256) (rngCounter (fld r 7 1) (((s.2.posIn k.progRound).token + off) % 2 ^ 48) 0))
            let q := sampleRow (zs.map (·.1)) (fld r 12 4) (fld r 8 2) (fld r 16 4) u
            let nans := (codes.zipIdx.filter (fun c => (decodeVal (tFmt vs.t) c.1).isNan)).map (fun c => i * V + c.2)
            (i, q.1, zs.foldl (fun f z => f.or z.2) q.2, nans))
        { writes := gatherWrites mem (rows.map (fun x => (vd, ⟨x.1, 0, 0, 0⟩, x.2.1)))
          fl := rows.foldl (fun f x => f.or x.2.2.1) {}
          cands := rows.flatMap (fun x => x.2.2.2.map (fun e => cand e 0))
          draws := 0
          lost := vs.lostCount + vm.lostCount + vd.lostCount
          engine := 4 }
      else
        let vt := k.view (sqTable r) false slips
        let T (j : Nat) : Nat := vt.code mem ⟨j, 0, 0, 0⟩
        let pts := (List.range (tCount vd.t)).map (fun f =>
          let p := tPt vd.t f
          let o := d.draw w.core w.task (fld r 7 1) (tSize vd.t) p
          let v : Nat × Fl × Bool :=
            if sqOp r = 1 then ((roundCode true .fp32 .rne false (mkNum false (bitsU o) (-24))).1, {}, false)
            else if sqOp r = 2 then (normalTransform (bitsU o) (bitsB o), {}, false)
            else (let y := tableDeviate T (bitsU o); (y.1, y.2, tableNan T (bitsU o)))
          (f, p, v))
        { writes := gatherWrites mem (pts.map (fun q => (vd, q.2.1, q.2.2.1)))
          fl := pts.foldl (fun f q => f.or q.2.2.2.1) {}
          cands := if sqOp r = 3 then
              pts.filterMap (fun q => if q.2.2.2.2 then some (cand q.1 1) else if (f32 q.2.2.1).isNan then some (cand q.1 5) else none) else []
          draws := 0
          lost := vd.lostCount
          engine := 4 }
    let s := w.core / 64
    let d1 := d.onSlice s (fun x => { x with smpLast := ⟨w.core % 64, w.task, desc, 0, false⟩ })
    let d2 := d1.count (sliceOff s + 0x2000) 32 1
    .done (d2.opDone w reads writes slips out))

end Sys2Proof.Machine
end

