-- ==== Sys2Proof/Machine/Relay.lean ====
section
/-! DEFINITION. Machine/Relay.lean: the weight relay (R154 to R158). -/

namespace Sys2Proof.Machine

/-- Chain position of a core in its slice (R154). -/
def chainPos (c : Nat) : Nat :=
  let i := c % 64
  if i / 8 % 2 = 0 then i else i / 8 * 8 + (7 - i % 8)

/-- The core of a slice at a chain position: the same rule read backward. -/
def coreAtPos (slice p : Nat) : Nat := slice * 64 + (if p / 8 % 2 = 0 then p else p / 8 * 8 + (7 - p % 8))

def rkFirst (r : Rec) : Nat := fld r 0 4
def rkCount (r : Rec) : Nat := fld r 4 4
def rkFlits (r : Rec) : Nat := fld r 8 4
def rkSrc (r : Rec) : Nat := fld r 12 4
def rkHead (r : Rec) : Nat := fld r 16 1
def rkTail (r : Rec) : Nat := fld r 17 1
def rkRole (r : Rec) : Nat := fld r 18 1

/-- REPEAT: its count and the length of its body (R74). -/
def rpCount (w : Nat) : Nat := bits (wArgs w) 0 10 + 1
def rpLength (w : Nat) : Nat := bits (wArgs w) 10 7 + 1

/-- The RELAY words of a program in the order in which it issues them, a REPEAT body once for each iteration (R74). -/
def relayOrder : Nat → List Nat → List Nat
  | _, [] => []
  | fuel, w :: rest =>
    match fuel with
    | 0 => []
    | fuel + 1 =>
      if wOpcode w = 0x0F then
        let body := (rest.take (rpLength w)).filter (fun x => wOpcode x == 3)
        (List.range (rpCount w)).flatMap (fun _ => body) ++ relayOrder fuel (rest.drop (rpLength w))
      else if wOpcode w = 3 then w :: relayOrder fuel rest
      else relayOrder fuel rest

/-- The takes that a core's programs make from a head in a round, in program order: task and descriptor (R157). -/
def Dev.relayWords (d : Dev) (c head : Nat) : List (Nat × Nat) :=
  (d.core c).tasks.flatMap (fun p =>
    ((relayOrder p.2.schedWords ((List.range p.2.schedWords).map (d.wordAt c p.1))).map (fun w => bits (wArgs w) 0 12)).filterMap (fun desc =>
      if rkHead (p.2.desc (desc + 1)) = head then some (p.1, desc) else none))

/-- The streams whose runs read a take: those of the MAT_RUN words of the core with weights in its destination (R158). -/
def Dev.takeHandles (d : Dev) (c lo hi : Nat) : List Nat :=
  ((d.core c).tasks.flatMap (fun p =>
    (List.range p.2.schedWords).flatMap (fun i =>
      let w := d.wordAt c p.1 i
      let r := p.2.desc (bits (wArgs w) 0 12)
      let v := p.2.view (mrWgt r) false []
      if wOpcode w = 2 ∧ (d.weightRanges c p.1 v (mrK r) (mrN r)).any (overlaps ((lo : Nat), (hi : Nat))) then d.opHandles c p.1 i else []))).eraseDups

/-- E_CRC and E_SLIP of a take: the items whose runs read it (R158). -/
def Dev.takeFault (d : Dev) (code c t lo hi b : Nat) : Dev :=
  let k := d.task c t
  let hs := d.takeHandles c lo hi
  let ab := if code = 0x0502 then (255 + 256 * (d.runningItems k.progRound hs).length, d.lowestSeq k.progRound hs) else (65536, b)
  d.detect { code := code, cls := clsItem, kind := 0, task := t, unit := c, a := ab.1, b := ab.2 } hs k.job c t k.progRound

/-- Number of a pass: the round of the program and the count of RELAY words that name the head in it. -/
def passNo (round k : Nat) : Nat := round * 65536 + k

/-- A flit's bytes land at the take's destination; with a bad CRC, zeros (R156, R158). -/
def Core.takeFlit (x : Core) (t : Take) (num : Nat) (data : Bytes) : Core :=
  let x1 := x.storeAll [(t.dst + 512 * (num - t.first), data)]
  { x1 with relay := { x1.relay with takes := x1.relay.takes.map (fun y => if y = t then { y with got := y.got + 1 } else y) } }

/-- A flit belongs to a take. -/
def Take.wants (t : Take) (head pass num : Nat) : Bool :=
  t.head == head && t.pass == pass && decide (t.first ≤ num) && decide (num < t.first + t.count)

/-- Buffered flits of takes that have begun land, in order. -/
def Core.flushFlits (x : Core) : Core :=
  x.relay.buf.foldl (fun x f => match x.relay.takes.find? (fun t => t.wants f.head f.pass f.num) with
    | some t => { x with relay := { x.relay with buf := x.relay.buf.filter (· != f) } }.takeFlit t f.num f.data
    | none => x) x

/-- What went by of a pass before its RELAY word. -/
def Relay.pastOf (r : Relay) (head pass : Nat) : PastPass := (r.past.find? (fun p => p.head == head && p.pass == pass)).getD ⟨head, pass, 0, false⟩

def Relay.setPast (r : Relay) (p : PastPass) : Relay := { r with past := r.past.filter (fun q => !(q.head == p.head && q.pass == p.pass)) ++ [p] }

/-- RELAY words that name a head before the place of a task's program: those that it has issued or skipped. -/
def Dev.relayPassed (d : Dev) (c t head : Nat) : Nat :=
  let k := d.task c t
  let names (w : Nat) : Bool := rkHead (k.desc (bits (wArgs w) 0 12 + 1)) == head
  let words (a n : Nat) : List Nat := (List.range n).map (fun i => d.wordAt c t (a + i))
  let count (a n : Nat) : Nat := ((relayOrder n (words a n)).filter names).length
  match k.loop with
  | none => count 0 k.pc
  | some l => count 0 (l.first - 1) + l.iter * count l.first (l.last + 1 - l.first) + count l.first (k.pc - l.first)

/-- The take that a pass's RELAY word will make, as the programs stand: the word of its number among those that the tasks still issue. A word
that a BRANCH has skipped gives its number to the next one (R157; entry 114). -/
def Dev.takeToCome (d : Dev) (c head pass : Nat) : Option (Nat × Nat) :=
  let issued := match mget (d.core c).relay.passes head with
    | some p => if p / 65536 = pass / 65536 then p % 65536 + 1 else 0
    | none => 0
  let passed := ((d.core c).tasks.map (fun p => if p.2.progRound = pass / 65536 then d.relayPassed c p.1 head else 0)).foldl (· + ·) 0
  (d.relayWords c head)[pass % 65536 + (passed - issued)]?

/-- RELAY (R156, R157): the head injects its flits, and the take begins; flits already buffered land in it, and those that went by before
are lost (R158). -/
def relayW (d : Dev) (w : Who) (desc : Nat) : WRes :=
  let k := d.tk w
  let t := k.desc desc
  let r := k.desc (desc + 1)
  let x := d.core w.core
  let head := rkHead r
  let n := match mget x.relay.passes head with
    | some p => if p / 65536 = k.progRound then p % 65536 + 1 else 0
    | none => 0
  let pass := passNo k.progRound n
  let fresh (i : Nat) : RFlit :=
    let data := memRead x.readable (k.base + rkSrc r + 512 * i) 512
    { head := head, tail := rkTail r, pass := pass, num := i, data := data, crc := crc32c data, last := decide (i + 1 = rkFlits r) }
  let inj := if rkRole r = 1 then (List.range (rkFlits r)).map fresh else []
  let met := if rkRole r = 1 then x.badWords [((k.base + rkSrc r : Nat), (k.base + rkSrc r + 512 * rkFlits r : Nat))] else []
  let past := x.relay.pastOf head pass
  let held (f : RFlit) : Bool := f.head == head && f.pass == pass && decide (rkFirst r ≤ f.num) && decide (f.num < rkFirst r + rkCount r)
  -- flits of the take that went by and that the buffer does not hold
  let lostN := min past.gone (rkFirst r + rkCount r) - rkFirst r - (x.relay.buf.filter held).length
  let dst := k.base + tAddr t
  let take : Take := { task := w.task, head := head, pass := pass, first := rkFirst r, count := rkCount r,
                       dst := dst, got := lostN, bad := decide (0 < lostN), late := false }
  let d1 := d.onCore w.core (fun (x : Core) => ({ x with relay := { x.relay with
    inbox := x.relay.inbox ++ inj
    takes := x.relay.takes.filter (fun (y : Take) => decide (y.got < y.count)) ++ (if rkCount r = 0 then [] else [take])
    buf := x.relay.buf.filter (fun f => held f || !(f.head == head && decide (f.pass ≤ pass)))
    past := x.relay.past.filter (fun p => !(p.head == head && decide (p.pass ≤ pass)))
    passes := mset x.relay.passes head pass } }).flushFlits)
  let d2 := d1.eccRead w.core w.task w.word k.progRound met
  .done (if lostN = 0 ∨ past.slipped then d2
    else (d2.count (coreOff w.core + 0x4C0) 32 1).takeFault 0x0502 w.core w.task dst (dst + 512 * rkCount r) 0)

/-- A flit that no begun take wants (R158): until the RELAY word of its pass issues, it waits in the buffer when it belongs to the take, or is
lost in a full one. -/
def earlyFlitD (c : Nat) (f : RFlit) (crcOk : Bool) (d : Dev) : Dev :=
  let issued := match mget (d.core c).relay.passes f.head with
    | some n => decide (f.pass ≤ n)
    | none => false
  if issued then d
  else
    let past := (d.core c).relay.pastOf f.head f.pass
    let note (s : Bool) (d : Dev) : Dev := d.onCore c (fun x => { x with relay := x.relay.setPast { past with gone := f.num + 1, slipped := past.slipped || s } })
    match d.takeToCome c f.head f.pass with
    | none => note false d
    | some (task, desc) =>
      let r := (d.task c task).desc (desc + 1)
      let dst := (d.task c task).base + tAddr ((d.task c task).desc desc)
      let fault (code : Nat) (d : Dev) : Dev := d.takeFault code c task dst (dst + 512 * rkCount r) (dst + 512 * (f.num - rkFirst r))
      if f.num < rkFirst r || decide (rkFirst r + rkCount r ≤ f.num) then note false d
      else if (d.core c).relay.buf.length < 16 then
        let d1 := (note false d).onCore c (fun x => { x with relay := { x.relay with buf := x.relay.buf ++ [if crcOk then f else { f with data := zeros 512 }] } })
        if crcOk then d1 else fault 0x0404 d1
      else if past.slipped then note true d
      else fault 0x0502 ((note true d).count (coreOff c + 0x4C0) 32 1)

/-- A flit of a take that has begun: its write lands, or waits, and then it and those behind it collect in the buffer (R371). -/
def takenFlitD (c : Nat) (f : RFlit) (t : Take) (ev : FlitEv) (d : Dev) : Dev :=
  let g := if ev.crcOk then f else { f with data := zeros 512 }
  let fault (code : Nat) (d : Dev) : Dev := d.takeFault code c t.task t.dst (t.dst + 512 * t.count) (t.dst + 512 * (f.num - t.first))
  if ev.waits then
    if (d.core c).relay.buf.length < 16 then
      let d1 := d.onCore c (fun x => { x with relay := { x.relay with buf := x.relay.buf ++ [g] } })
      if ev.crcOk then d1 else fault 0x0404 d1
    else
      let d1 := d.onCore c (fun x => { x with relay := { x.relay with takes := x.relay.takes.map (fun y =>
        if y = t then { y with got := y.got + 1, bad := true } else y) } })
      if t.bad then d1 else fault 0x0502 (d1.count (coreOff c + 0x4C0) 32 1)
  else
    let d1 := d.onCore c (fun x => x.takeFlit t f.num g.data)
    if ev.crcOk then d1 else fault 0x0404 d1

/-- RELAY_FLIT (R155, R157, R158, R371): buffered flits whose takes have begun land, unless their write still waits; then the oldest flit at the
port is forwarded, and taken, buffered or lost. -/
def relayFlitD (c : Nat) (ev : FlitEv) (d0 : Dev) : Dev :=
  let d := (if ev.waits then d0 else d0.onCore c Core.flushFlits).count (coreOff c + 0x1820) 0 ev.lost
  match (d.core c).relay.inbox with
  | [] => d
  | f :: rest =>
    let p := chainPos c
    let d1 := d.onCore c (fun x => { x with relay := { x.relay with inbox := rest } })
    let d2 := if p < f.tail ∧ f.head ≤ p then
        d1.onCore (coreAtPos (c / 64) (p + 1)) (fun x => { x with relay := { x.relay with inbox := x.relay.inbox ++ [f] } })
      else d1
    let d3 := if f.last then d2.count (coreOff c + 0x4C0) 16 1 else d2
    match (d3.core c).relay.takes.find? (fun t => t.wants f.head f.pass f.num) with
    | some t => takenFlitD c f t ev d3
    | none => earlyFlitD c f ev.crcOk d3

def execRelayFlit (core : Fin 256) (ev : FlitEv) (s : State) : Host.Outcome State Fault Refusal :=
  onDev s (fun d => if d.coreUp core.val then relayFlitD core.val ev d else d)

end Sys2Proof.Machine
end

