-- ==== Sys2Proof/Machine/Pump.lean ====
section
/-! DEFINITION. Machine/Pump.lean: pumps and their transfers (R400 to R418, R426, R427, R432), page walks (R239, R406) and the
sending side of link transfers (R479 to R483, R489). -/

namespace Sys2Proof.Machine

/-! ### Pumps -/

def Dev.pump (d : Dev) : PumpId → Pump
  | .core c => (d.core c.val).pump
  | .well s w => mgetD (d.slice s.val).pumps w.val Pump.reset
  | .link l => (d.link l.val).pump

def Dev.onPump (d : Dev) (p : PumpId) (f : Pump → Pump) : Dev := match p with
  | .core c => d.onCore c.val (fun x => { x with pump := f x.pump })
  | .well s w => d.onSlice s.val (fun x => { x with pumps := mset x.pumps w.val (f (mgetD x.pumps w.val Pump.reset)) })
  | .link l => d.onLink l.val (fun x => { x with pump := f x.pump })

/-- Offset of PMP_REG (R437, R512). -/
def pumpReg : PumpId → Nat
  | .core c => coreOff c.val + 0xE00
  | .well s w => sliceOff s.val + 0x3000 + w.val * 0x20
  | .link l => linkOff l.val + 0x100

/-- A pump works while its slice serves (R18) and, for a local pump, while its core is not retired. -/
def Dev.pumpUp (d : Dev) : PumpId → Bool
  | .core c => d.sliceUp (c.val / 64) && !d.coreRetired c.val
  | .well s _ => d.sliceUp s.val
  | .link l => d.sliceUp (l.val / 9)

/-- Capacity of the regulator in thousandths of a byte, and its level at a TIME (R410). -/
def Dev.pumpCap (d : Dev) (p : PumpId) : Nat := d.regF (pumpReg p) 16 16 * 1024000

def Dev.pumpLevel (d : Dev) (p : PumpId) (now : Nat) : Nat :=
  let x := d.pump p
  min (d.pumpCap p) (x.level + d.regF (pumpReg p) 0 12 * 64 * (now - x.at_))

def allPumps : List PumpId := (List.range 256).map (fun c => .core (Fin.ofNat 256 c)) ++
  (List.range 16).map (fun w => .well (Fin.ofNat 4 (w / 4)) (Fin.ofNat 4 w)) ++ (List.range 36).map (fun l => .link (Fin.ofNat 36 l))

/-- Before a new RATE or BURST takes effect, the level counts what the old one has given (R410). -/
def Dev.rebasePumps (d : Dev) : Dev := (allPumps.filter (fun p => (mget d.shadow (pumpReg p)).isSome)).foldl (fun d p =>
  d.onPump p (fun x => { x with level := d.pumpLevel p d.tb.now, at_ := max x.at_ d.tb.now })) d

/-! ### Tallies (R76) -/

/-- A tally grows, at most to 2^20 − 1; one that would pass it is noted for its E_TALLY_SAT record. -/
def Core.addTally (x : Core) (i n : Nat) : Core :=
  let v := mgetD x.tallies i 0 + n
  { x with
    tallies := mset x.tallies i (min v (2 ^ 20 - 1))
    tallySat := if v < 2 ^ 20 || x.tallySat.contains i then x.tallySat else x.tallySat ++ [i] }

/-! ### PUMP -/

/-- The origin entry of a route (R485). -/
def Image.origin (i : Image) (route : Nat) : Option Rec := i.routes.find? (fun r => fld r 0 1 == 1 && fld r 2 2 == route)

/-- The first hop of a path of a route on this device (R486). -/
def Image.firstHop (i : Image) (route path : Nat) : Option Rec :=
  i.routes.find? (fun r => fld r 0 1 == 2 && fld r 2 2 == route && fld r 1 1 == path && fld r 4 1 == 0xFF)

/-- Over MEMBER links of the map a device of the compile reaches another; true where the map does not know both (R489, R492). -/
def Dev.linked (d : Dev) (compile a b : Nat) : Bool :=
  let id (x : Nat) : Option Bytes := (d.fabric.map.find? (fun v => v.compiles.contains (compile, x))).map (·.identity)
  match id a, id b with
  | some x, some y => (hopsTo d.fabric.map x y).isSome
  | _, _ => true

/-- The lowest path of an origin entry whose links are MEMBER: the first link by its state, those behind it, of which the image names none,
by the map, in which the destination must be reached from the first partner (R489, entry 98). -/
def Dev.bestPath (d : Dev) (i : Image) (o : Rec) : Option Nat :=
  (List.range (fld o 6 1)).find? (fun p => match i.firstHop (fld o 2 2) p with
    | some h => (d.link (fld h 5 1)).state == 3 && d.linked i.compileId (fld h 6 2) (fld o 4 2)
    | none => false)

/-- Each route of a job takes its path, at its activation and at each effective mark (R489). -/
def Dev.choosePaths (d : Dev) (j : Nat) : Dev := match (d.job j).img with
  | none => d
  | some i =>
    let ps := (i.routes.filter (fun r => fld r 0 1 == 1)).filterMap (fun o => (d.bestPath i o).map (fun p => (fld o 2 2, p)))
    d.onJob j (fun x => { x with paths := ps.foldl (fun m p => mset m p.1 p.2) [] })

/-- The path of a route, with its first link. -/
def Job.pathOf (x : Job) (i : Image) (route : Nat) : Option (Nat × Nat) :=
  (mget x.paths route).bind (fun p => (i.firstHop route p).map (fun h => (p, fld h 5 1)))

/-- Flits of a transfer of n data bytes (R480). -/
def flitsOf (n : Nat) : Nat := if n ≤ 576 then 1 else 1 + (n - 576 + 623) / 624

/-- F × 13.6 ns in whole ns; the fraction's rounding is a free value (R482 gives none, entry 4). -/
def Dev.flitTime (d : Dev) (f : Nat) : Nat × Dev :=
  if f * 136 % 10 = 0 then (f * 136 / 10, d)
  else
    let v := d.freeVal 2
    (f * 136 / 10 + v.1 % 2, v.2)

/-- Bytes that a link transfer carries. -/
def PumpPlan.data (p : PumpPlan) : Bytes := p.writes.flatMap (·.2)

/-- The transfers before the first DRAIN transfer that has not started start (R402, R412). -/
def startAll : List Xfer → (Xfer → Bool) → List Xfer
  | [], _ => []
  | x :: r, drain => if x.started then x :: startAll r drain else if drain x then x :: r else { x with started := true } :: startAll r drain

def Dev.xferDrain (d : Dev) (x : Xfer) : Bool := pdDrain ((d.task x.core x.task).desc x.desc)

/-- A transfer joins a pump's queue. A TABLE_LOAD is noted with its generation at once: it counts for the program of the next round (R431). -/
def Dev.enqueue (d : Dev) (p : PumpId) (x : Xfer) : Dev :=
  let r := (d.task x.core x.task).desc x.desc
  let d1 := if pdMode r = 4 then
      let ew := Nat.log2 (max 1 (tFmt ((d.task x.core x.task).desc (pdSrc r))).size)
      d.onCore x.core (fun c => { c with staged := c.staged ++ [⟨pdGen r, pdReplaces r, ew, [], x.round + 1, x.task⟩] })
    else d
  d1.onPump p (fun y => { y with queue := startAll (y.queue ++ [x]) d1.xferDrain })

/-- PUMP (R401): the transfer is queued; a full queue or an interlock holds the word. -/
def pumpW (d : Dev) (w : Who) (desc kind : Nat) : WRes :=
  let k := d.tk w
  let r := k.desc desc
  let job := d.job k.job
  let x : Xfer := { job := k.job, gen := job.gen, core := w.core, task := w.task, desc := desc, word := w.word, round := k.progRound,
                    started := false, charged := 0, dropped := false, deadline := 0, path := 0, wait := none, land := [], far := [] }
  if d.interlocked w.core w.task (d.xferRanges x false) (d.xferRanges x true) then .hold .interlock 1
  else
    let go (p : PumpId) (d : Dev) (x : Xfer) : WRes :=
      if 64 ≤ (d.pump p).queue.length then .hold .queue 0 else .done (d.enqueue p x)
    if kind = 0 then go (.core (Fin.ofNat 256 w.core)) d x
    else if kind = 1 then go (.well (Fin.ofNat 4 (w.core / 64)) (Fin.ofNat 4 (pdUnit r))) d x
    else
      match job.img.bind (fun i => (job.pathOf i (pdRoute r)).map (fun p => (i, p))) with
      -- a route that is down: nothing is sent, and a FIXED transfer fails at its release tick (R489)
      | none => .done d
      | some (i, path, l) =>
        let o := (i.origin (pdRoute r)).getD 0
        let n := (d.pumpPlan x []).data.length
        let ft := d.flitTime (flitsOf n)
        let dl := if fld o 1 1 = 0 then d.tb.now + ft.1 + fld o (12 + 2 * path) 2 else 0
        go (.link (Fin.ofNat 36 l)) (if fld o 1 1 = 0 then ft.2 else d) { x with deadline := dl, path := path }

/-! ### PUMP_READ_REQUEST -/

/-- The transfer that reads next: the first started one with bytes left to read. -/
def Dev.nextRead (d : Dev) (p : PumpId) : Option Nat :=
  ((d.pump p).queue.zipIdx.find? (fun y => y.1.started &&
    (tSpace ((d.task y.1.core y.1.task).desc (pdSrc ((d.task y.1.core y.1.task).desc y.1.desc))) == 2 ||
      decide (y.1.charged < (d.pumpPlan y.1 []).total)))).map (·.2)

/-- A read request of n bytes once the level allows it (R410). -/
def pumpReadD (p : PumpId) (n now : Nat) (d : Dev) : Dev :=
  let d := d.at_ now
  if !(d.pumpUp p) ∨ n = 0 ∨ 4096 < n then d
  else
    let lvl := d.pumpLevel p now
    if lvl < n * 1000 then d
    else
      match d.nextRead p with
      | none => d
      | some i =>
        (d.onPump p (fun y => { y with
          level := lvl - n * 1000
          at_ := now
          queue := lset y.queue i (fun x => { x with charged := x.charged + n }) })).count (pumpReg p + 0x10) 0 n

def execPumpReadRequest (p : PumpId) (bytes now : Nat) (s : State) : Host.Outcome State Fault Refusal :=
  onDev s (pumpReadD p bytes now)

/-! ### PUMP_DRAIN_START -/

/-- The first transfer that has not started starts once no earlier one of its task is left on the pump (R412). -/
def startDrain : List Xfer → List Xfer → (Xfer → Bool) → List Xfer
  | _, [], _ => []
  | seen, x :: r, drain =>
    if x.started then x :: startDrain (seen ++ [x]) r drain
    else if seen.any (fun y => y.core == x.core && y.task == x.task) then x :: r
    else { x with started := true } :: startAll r drain

def pumpDrainD (p : PumpId) (d : Dev) : Dev :=
  if d.pumpUp p then d.onPump p (fun y => { y with queue := startDrain [] y.queue d.xferDrain }) else d

def execPumpDrainStart (p : PumpId) (s : State) : Host.Outcome State Fault Refusal := onDev s (pumpDrainD p)

/-! ### Requests to the expander (R433, R440) -/

/-- Generations that the blocks of a Peat tensor in a task's region name. -/
def Dev.tgensOf (d : Dev) (c t pidx n : Nat) : List Nat :=
  let k := d.task c t
  (List.range ((n + 511) / 512)).map (fun b => bits (peatEntry (cisReader (d.core c).readable k.base k.bound) pidx b) 48 16)

/-- A DECODE transfer that is queued names a generation. -/
def Dev.xferNames (d : Dev) (x : Xfer) (gen : Nat) : Bool :=
  let k := d.task x.core x.task
  let s := k.desc (pdSrc (k.desc x.desc))
  pdDecode (k.desc x.desc) && (d.tgensOf x.core x.task (tPeatIndex s) (tDense s)).contains gen

/-- A schedule word requests blocks that name a generation: a MAT_RUN with Peat weights, or a PUMP with DECODE. -/
def Dev.wordNames (d : Dev) (c t word gen : Nat) : Bool :=
  let k := d.task c t
  let r := k.desc (bits (wArgs word) 0 12)
  if wOpcode word = 0x02 then
    let v := k.desc (mrWgt r)
    tPeat v && (d.tgensOf c t (tPeatIndex v) (mrN r * rawRow (tFmt v) (mrK r))).contains gen
  else if wOpcode word = 0x09 then
    let s := k.desc (pdSrc r)
    pdDecode r && (d.tgensOf c t (tPeatIndex s) (tDense s)).contains gen
  else false

/-- Queued and held requests of programs before a round that name a generation: DECODE transfers and MAT_RUN words, each one request. -/
def Dev.genRequests (d : Dev) (c gen before : Nat) : Nat :=
  ((d.core c).pump.queue.filter (fun x => !x.dropped && decide (x.round < before) && d.xferNames x gen)).length +
  ((d.core c).tasks.filter (fun p => p.2.wait.isSome && decide (p.2.progRound < before) && wOpcode (d.wordAt c p.1 p.2.pc) == 0x02 &&
    d.wordNames c p.1 (d.wordAt c p.1 p.2.pc) gen)).length

/-- A program before a round has a word left that names a generation: its request would find the old table (R431; entry 113). -/
def Dev.genToCome (d : Dev) (c gen before : Nat) : Bool :=
  (d.core c).tasks.any (fun p => (((p.2.state == .running || p.2.state == .overrun) && decide (p.2.progRound < before)) ||
      (p.2.state == .held && decide (p.2.progRound + 1 < before))) &&
    (let first := if p.2.state == .held then 0 else match p.2.loop with
      | some l => min l.first p.2.pc
      | none => p.2.pc
    (List.range (p.2.schedWords - first)).any (fun i => d.wordNames c p.1 (d.wordAt c p.1 (first + i)) gen)))

/-! ### PUMP_TRANSFER_COMPLETE -/

/-- A TABLE_LOAD's values reach its staging buffer, or the slot or pending load that already stands for it (R432). -/
def Core.fillTable (x : Core) (gen : Nat) (values : List Nat) : Core :=
  { x with
    staged := x.staged.map (fun l => if l.gen = gen && l.values.isEmpty then { l with values := values } else l)
    pendLoads := x.pendLoads.map (fun l => if l.gen = gen && l.values.isEmpty then { l with values := values } else l)
    gens := x.gens.map (fun g => if g.state ≠ 0 && g.gen == gen && g.values.isEmpty then { g with values := values } else g) }

/-- The bytes of a transfer land in a space. Cistern bytes outside the region are not written and are counted, and neither are those of unmapped
well pages (R389). Those for another core's window have come to its port as the writes of REMOTE_WRITE (entry 83). -/
def Dev.landIn (d : Dev) (x : Xfer) (space : Nat) (ws : List (Nat × Bytes)) : Dev :=
  let k := d.task x.core x.task
  if space = 0 then
    let ok := ws.filter (fun w => decide (k.base + w.1 + w.2.length ≤ k.bound))
    (d.onCore x.core (fun c => c.storeAll (ok.map (fun w => (k.base + w.1, w.2))))).boundFault ⟨x.core, x.task, x.word⟩ x.round (ws.length - ok.length)
  else if space = 1 then (ws.filter (fun w => !d.unmapped w.1 w.2.length)).foldl (fun d w => d.wellWrite w.1 w.2) d
  else if space = 2 then
    let size := d.regF 0x101110 12 36 * 4096
    let ok := ws.filter (fun w => decide (w.1 + w.2.length ≤ size))
    (ok.foldl (fun d w => d.emit (.report (d.regF 0x101108 12 52 * 4096 + w.1) w.2)) d).boundFault ⟨x.core, x.task, x.word⟩ x.round
      (ws.length - ok.length)
  else d

/-- The header of a link transfer (R480). -/
def xferHeader (i : Image) (o : Rec) (r t : Rec) (x : Xfer) (n : Nat) : Bytes :=
  let fixed := fld o 1 1 = 0
  leBytes 8 i.compileId ++ leBytes 2 i.deviceIndex ++ leBytes 2 (fld o 4 2) ++ leBytes 1 (pdDstCore r) ++ leBytes 1 (pdWindow r) ++
    leBytes 1 (if tSpace t = 1 then 1 else 0) ++ leBytes 1 x.path ++ leBytes 8 (if fixed then x.round + pdLand r else 0) ++
    leBytes 8 x.deadline ++ leBytes 8 (tAddr t) ++ leBytes 4 n ++ leBytes 2 x.gen ++ zeros 2

/-- A transfer's flits go out in order (R480, R483). -/
def Dev.sendXfer (d : Dev) (l : Nat) (fixed : Bool) (route : Nat) (bs : Bytes) : Dev :=
  let cs := chunks 624 bs
  cs.zipIdx.foldl (fun d c => d.sendFlit l (if fixed then 1 else 2) route c.1.length (c.2 == 0) (c.2 + 1 == cs.length) c.1) d

/-- A read of the well behind a stopped controller (R18): E_ECC_UNC with SRC_KIND 7. -/
def Dev.wellFault (d : Dev) (x : Xfer) (reads : List (Nat × Nat × Nat)) : Dev :=
  if ¬ d.anyCtlDown then d
  else match ((reads.filter (fun r => r.1 == 1)).flatMap (fun r => (List.range r.2.2).map (fun i => r.2.1 + i))).find? d.ctlDown with
    | none => d
    | some a =>
      let u := Config.controllerOf (a / 65536) % 8
      d.detect { code := 0x0403, kind := 7, unit := u, a := u + 256, b := a } (d.opHandlesAt x.core x.task x.word x.round) x.job x.core x.task x.round

/-- What the reads of a transfer report: accesses not made, and uncorrectable words of the well and of the cistern (R361, R365). -/
def Dev.readFaults (d : Dev) (x : Xfer) (pl : PumpPlan) (met : List Nat) : Dev :=
  ((d.boundFault ⟨x.core, x.task, x.word⟩ x.round pl.lost).wellFault x pl.reads).eccRead x.core x.task x.word x.round met

/-- The uncorrectable cistern words that a transfer reads. -/
def Dev.xferMet (d : Dev) (x : Xfer) (pl : PumpPlan) : List Nat :=
  let k := d.task x.core x.task
  (d.core x.core).badWords ((pl.reads.filter (fun r => r.1 == 0)).map (fun r => ((k.base + r.2.1 : Nat), (k.base + r.2.1 + r.2.2 : Nat))))

/-- Rings that a transfer uses: index and direction. -/
def Dev.xferRings (d : Dev) (x : Xfer) : List (Nat × Bool) :=
  let k := d.task x.core x.task
  let r := k.desc x.desc
  let use (i : Nat) (wr : Bool) : List (Nat × Bool) :=
    if i != 0xFFFF && tSpace (k.desc i) == 0 && tRing (k.desc i) != 0xFF && (k.ring? (tRing (k.desc i))).isSome then [(tRing (k.desc i), wr)] else []
  (use (pdSrc r) false ++ (if pdMode r = 4 ∨ pdMode r = 5 then [] else use (pdDst r) true)).eraseDups

/-- A ring whose slots a RELEASE fills from this transfer (R25, R413). -/
def Dev.xferCrossing (d : Dev) (x : Xfer) : Option Ring :=
  ((d.xferRings x).find? (·.2)).bind (fun u => ((d.task x.core x.task).ring? u.1).bind (fun r => if srSource r.decl = 5 then some r else none))

/-- The items of a transfer fail, each logged when it ends (R384). -/
def Dev.xferFail (d : Dev) (x : Xfer) (code : Nat) (ring : Option Nat) : Dev :=
  d.failItems { code := code, kind := 0, task := x.task, unit := x.core } x.round (d.opHandlesAt x.core x.task x.word x.round) ring

/-- The streams whose items a plan makes fail with a code: those whose rows read a range with a page in the deep well (R406), or all of the
transfer's (R427). A replay has them from its log. -/
def Dev.planFails (d : Dev) (x : Xfer) (pl : PumpPlan) (code : Nat) : List Nat :=
  let hs := d.opHandlesAt x.core x.task x.word x.round
  match d.loggedFails x.job x.round code with
  | some l => hs.filter (fun h => (d.runningItems x.round [h]).any (fun p => l.contains (p.1, p.2.seq)))
  | none => if pl.code ≠ code then [] else if code = 0x0601 then
      hs.filter (fun h => match (d.stream h).slot with
        | some s => pl.deepSlots.contains s
        | none => false)
    else hs

/-- The items of a walk or of an ALLOC copy fail, each logged when it ends (R406, R427). -/
def Dev.planFail (d : Dev) (x : Xfer) (pl : PumpPlan) : Dev :=
  let r := (d.task x.core x.task).desc x.desc
  let code := if pdMode r = 3 then 0x0601 else 0x0603
  let hs := d.planFails x pl code
  if hs.isEmpty && (pl.code != code || d.replays x.job x.round) then d
  else d.failItems { code := code, kind := 0, task := x.task, unit := x.core } x.round hs none

/-- A transfer leaves its pump's queue. -/
def Dev.dropXfer (d : Dev) (p : PumpId) (x : Xfer) : Dev := d.onPump p (fun y => { y with queue := y.queue.erase x })

/-- The slots that a transfer has filled in other cores become full, or, where it slipped, are passed over (R375, R376). -/
def Dev.farDone (d : Dev) (x : Xfer) : Dev :=
  x.far.foldl (fun d f => d.ringMove f.core f.task (if f.slipped then [(f.ring, true)] else []) (f.ring, true)) d

/-- A completed transfer leaves its queue and adds its tally; one into a contained slice is dropped (R19). -/
def Dev.xferDone (d : Dev) (p : PumpId) (x : Xfer) : Dev :=
  let r := (d.task x.core x.task).desc x.desc
  let d1 := (d.dropXfer p x).farDone x
  if !pdTally r then d1
  else if d1.sliceUp (pdTlyCore r / 64) then d1.onCore (pdTlyCore r) (fun c => c.addTally (pdTly r) 1)
  else d1.sliceDown x.core x.task x.word

/-- Faults of the blocks that a DECODE transfer decoded (R153, R408). -/
def Dev.decodeFaults (d : Dev) (x : Xfer) (p : PumpPlan) : Dev :=
  let d1 := d.count (coreOff x.core + 0x480) 0 p.blocks
  p.faults.foldl (fun d f =>
    let d := if f.code = 0x0602 then d.count (coreOff x.core + 0x4B0) 32 1 else if f.code = 0x0404 then
      d.count (coreOff x.core + 0x480) 32 1 else d
    if f.code = 0x0403 then d.eccRead x.core x.task x.word x.round (f.badWords (d.core x.core) (d.task x.core x.task).base)
    else d.blockFault f.code x.core x.task x.word x.round f.tgen 1 f.addr) d1

/-- The effects of a transfer whose reads are done (R402). -/
def Dev.landXfer (d : Dev) (p : PumpId) (x : Xfer) (pl : PumpPlan) : Dev :=
  let k := d.task x.core x.task
  let r := k.desc x.desc
  let s := k.desc (pdSrc r)
  let t := k.desc (pdDst r)
  let uses := d.xferRings x
  let slips : List (Nat × Bool) := uses.filter (d.ringFails x.core x.task)
  let dstSlip := slips.any (fun u : Nat × Bool => u.2)
  let srcSlip := slips.any (fun u : Nat × Bool => !u.2)
  let ws : List (Nat × Bytes) := if srcSlip then pl.writes.map (fun w => (w.1, zeros w.2.length)) else pl.writes
  let d1 := match p with
    | .link l =>
      match (d.job x.job).img.bind (fun i => (i.origin (pdRoute r)).map (fun o => (i, o))) with
      | some (i, o) =>
        let bs : Bytes := (ws.map Prod.snd).flatten
        let d' := d.sendXfer l.val (fld o 1 1 = 0) (pdRoute r) (xferHeader i o r t x bs.length ++ bs)
        { d' with fabric := { d'.fabric with sentXfers := d'.fabric.sentXfers ++ [x] } }
      | none => d
    | _ =>
      if pdMode r = 4 then
        let bs := d.rdSpace x.core x.task [] (tSpace s) (k.tStart s false) 64
        let ew := Nat.log2 (max 1 (tFmt s).size)
        d.onCore x.core (fun c => c.fillTable (pdGen r) ((List.range 16).map (fun i => leAt bs (2 ^ ew * i) (2 ^ ew))))
      else if dstSlip then d
      else d.landIn x (tSpace t) ws
  let d2 := d1.landIn x (tSpace s) pl.entries
  let d3 := if pdAlloc r || pdMode r == 5 then { d2 with poolUse := pl.pool } else d2
  let d4 := uses.foldl (fun d u => d.ringMove x.core x.task slips u) d3
  let d5 := slips.foldl (fun d u => d.slip ⟨x.core, x.task, x.word⟩ u.1) d4
  let d6 := (d5.decodeFaults x pl).readFaults x pl (d.xferMet x pl)
  (d6.planFail x pl).xferDone p x

/-- A FIXED transfer of a link pump (R482, R485). -/
def Dev.xferFixed (d : Dev) (x : Xfer) : Bool := match (d.job x.job).img.bind (fun i => i.origin (pdRoute ((d.task x.core x.task).desc x.desc))) with
  | some o => fld o 1 1 == 0
  | none => false

/-- The transfer of a pump that completes next: its oldest, on a link the oldest FIXED one that has started, before BULK ones (R402, R483). -/
def Dev.nextXfer (d : Dev) (p : PumpId) : Option Xfer := match p with
  | .link _ => (d.pump p).queue.find? (fun x => x.started && d.xferFixed x) <|> (d.pump p).queue.head?
  | _ => (d.pump p).queue.head?

/-- A transfer waits on the elastic slots that are not ready: their tags show it (R378, R399). -/
def Dev.xferWaits (d : Dev) (p : PumpId) (x : Xfer) (us : List (Nat × Bool)) : Dev :=
  us.foldl (fun d u => match (d.task x.core x.task).ring? u.1 with
    | some r => d.onCore x.core (fun c => c.onTag (ringTag r u.2) (fun g => { g with wait := true, slipped := false }))
    | none => d) (d.onPump p (fun y => { y with queue := y.queue.replace x { x with wait := some (x.wait.getD d.tb.round) } }))

/-- A wait that began in a round has outlasted a budget of rounds; in a replay only the log ends a wait (R379, R382). -/
def Dev.outlasted (d : Dev) (j n began budget : Nat) : Bool := !d.replays j n && decide (began + budget ≤ d.tb.round)

/-- PUMP_TRANSFER_COMPLETE: the next transfer of a pump completes once its bytes are read. One that meets an elastic slot that
is not ready waits (R378, R409), and so does one with a write that waits at another core; one for a crossing ring keeps its bytes for the
RELEASE. A wait that has outlasted its budget ends as a timeout alone (R379). -/
def pumpCompleteD (p : PumpId) (now : Nat) (deep : Bytes) (d : Dev) : Dev :=
  let d := d.at_ now
  match d.nextXfer p with
  | none => d
  | some x =>
    let pl := d.pumpPlan x deep
    let k := d.task x.core x.task
    if !(d.pumpUp p) || !x.started || decide (x.charged < pl.total) || pl.waits || (d.pump p).held.isSome then d
    else if x.dropped then d.dropXfer p x
    else if d.stale x then (d.dropXfer p x).count (pumpReg p + 8) 32 1
    else if (d.xferRings x).any (fun u => match x.wait with
      | some b => d.outlasted x.job x.round b (k.budget u.1)
      | none => false) then d
    else match d.xferCrossing x with
    | some ring =>
      let off := srBase ring.decl + ring.put * srBytes ring.decl
      let y := { x with land := pl.writes.map (fun w => (w.1 - off, w.2)) }
      let d1 := (d.onCore x.core (fun c => { c with landed := c.landed ++ [y] })).readFaults x pl (d.xferMet x pl)
      (d1.planFail x pl).xferDone p x
    | none =>
      match (d.xferRings x).filter (fun u => d.ringFails x.core x.task u && k.elastic u.1) with
      | [] => d.landXfer p x pl
      | us => d.xferWaits p x us

/-- The core whose cistern a pump's next transfer reads. -/
def Dev.headCore (d : Dev) (p : PumpId) : Nat := ((d.nextXfer p).map (fun x => x.core)).getD 0

def execPumpTransferComplete (p : PumpId) (now : Nat) (deep : DeepRead) (s : State) : Host.Outcome State Fault Refusal :=
  onDev s (fun d => pumpCompleteD p now deep.bytes ((d.seen (d.headCore p) deep.det).count (coreOff (d.headCore p) + 0x1820) 0 deep.lost))

end Sys2Proof.Machine
end

