-- ==== Sys2Proof/Machine/Image.lean ====
section
/-! DEFINITION. Machine/Image.lean: structure images as bytes (R52 to R59) and their parsed form; the tasks of an image. -/

namespace Sys2Proof.Machine

/-! ### Header, section table and trailer -/

def imgMajor (bs : Bytes) : Nat := leAt bs 4 2
def imgMinor (bs : Bytes) : Nat := leAt bs 6 2
def imgSections (bs : Bytes) : Nat := leAt bs 8 4

/-- A section table entry (R54). -/
structure SecEntry where
  type : Nat
  ver : Nat
  off : Nat
  len : Nat
  digest : Bytes
  zero : Bool
  deriving DecidableEq, Repr

def secEntry (bs : Bytes) (i : Nat) : SecEntry :=
  let e := sliceZ bs (128 + 64 * i) 64
  { type := leAt e 0 2, ver := leAt e 2 2, off := leAt e 8 8, len := leAt e 16 8, digest := sliceZ e 32 32,
    zero := zerosAt e 4 4 && zerosAt e 24 8 }

def secTable (bs : Bytes) : List SecEntry := (List.range (min 64 (imgSections bs))).map (secEntry bs)

/-- The bytes of a section type; empty when absent. -/
def secBytes (bs : Bytes) (type : Nat) : Bytes := match (secTable bs).find? (fun e => e.type == type) with
  | some e => sliceZ bs e.off e.len
  | none => []

def hasSec (bs : Bytes) (type : Nat) : Bool := (secTable bs).any (fun e => e.type == type)

/-- The image digest (R57): header and section table. -/
def imgDigest (bs : Bytes) : Bytes := sha3 (bs.take (128 + 64 * imgSections bs))

def imgTrailer (bs : Bytes) : Bytes := bs.drop (bs.length - 2560)

/-! ### Parsing -/

def recsOf (n : Nat) (bs : Bytes) : List Rec := (chunks n bs).map recOf

/-- STREAM_CLASSES (R307): each class with its KV layers and its buckets. -/
def parseClasses : Nat → Bytes → List (Rec × List Rec × List Rec)
  | 0, _ => []
  | _ + 1, [] => []
  | f + 1, bs =>
    let c := recOf bs
    let kv := fld c 11 1
    let bk := fld c 12 1
    (c, recsOf 64 (sliceZ bs 64 (64 * kv)), recsOf 8 (sliceZ bs (64 + 64 * kv) (8 * bk))) ::
      parseClasses f (bs.drop (64 + 64 * kv + 8 * bk))

/-- Bytes that the class entries of a section take. -/
def classesLen (cs : List (Rec × List Rec × List Rec)) : Nat :=
  cs.foldl (fun n c => n + 64 + 64 * fld c.1 11 1 + 8 * fld c.1 12 1) 0

/-- The parsed image; its checks are in Checks.lean. -/
def parseImage (bs : Bytes) : Image :=
  let sec := secBytes bs
  let wm := sec 0xB
  let nr := leAt wm 0 2
  let no := leAt wm 2 2
  let np := leAt wm 4 2
  let ng := leAt wm 6 2
  let seeds := sec 9
  let ad := sec 0xE
  { minor := imgMinor bs
    compileId := leAt bs 24 8
    deviceIndex := leAt bs 32 2
    fabricSize := leAt bs 34 2
    roundLen := leAt bs 36 1
    jobFlags := leAt bs 37 1
    adaptShare := leAt bs 38 1
    endCycle := leAt bs 40 8
    coreMask := leAt bs 64 32
    keySlot := leAt (imgTrailer bs) 0 2
    digest := imgDigest bs
    placements := recsOf 64 (sec 1)
    bankRoles := recsOf 64 (sec 2)
    routes := recsOf 32 (sec 3)
    rings := recsOf 32 (sec 4)
    windows := recsOf 48 (sec 5)
    descs := recsOf 64 (sec 6)
    peat := chunks 80 (sec 7)
    tallies := (chunks 1032 (sec 8)).map (fun c => (leAt c 0 2, (chunks 4 (c.drop 8)).map leNat))
    jobSeed := leAt seeds 0 8
    snumBase := leAt seeds 8 3
    hasSeeds := hasSec bs 9
    bindings := recsOf 8 (seeds.drop 16)
    sched := (chunks 8 (sec 0xA)).map leNat
    ranges := recsOf 16 (sliceZ wm 16 (16 * nr))
    objects := recsOf 64 (sliceZ wm (16 + 16 * nr) (64 * no))
    pools := recsOf 32 (sliceZ wm (16 + 16 * nr + 64 * no) (32 * np))
    regulators := recsOf 8 (sliceZ wm (16 + 16 * nr + 64 * no + 32 * np) (8 * ng))
    failover := sec 0xC
    classes := parseClasses (sec 0xD).length (sec 0xD)
    adapters := recsOf 64 (ad.drop 16) }

/-! ### Placements -/

def plMode (p : Rec) : Nat := fld p 3 1
def plStrict (p : Rec) : Bool := bit (plMode p) 0
def plBase (p : Rec) : Nat := fld p 4 4
def plBound (p : Rec) : Nat := fld p 8 4
def plSchedOff (p : Rec) : Nat := fld p 12 4
def plSchedWords (p : Rec) : Nat := fld p 16 4
def plSchedAddr (p : Rec) : Nat := fld p 20 4
def plDescFirst (p : Rec) : Nat := fld p 24 2
def plDescCount (p : Rec) : Nat := fld p 26 2

/-- A task of an image: placement, descriptors, program, rings. -/
structure TaskImg where
  pl : Rec
  descs : List Rec
  words : List Nat
  rings : List Rec
  deriving DecidableEq, Repr

def Image.taskImg (i : Image) (p : Rec) : TaskImg :=
  { pl := p
    descs := (i.descs.drop (plDescFirst p)).take (plDescCount p)
    words := (i.sched.drop (plSchedOff p / 8)).take (plSchedWords p)
    rings := i.rings.filter (fun r => srCore r == placeCore p && srTask r == placeTask p) }

def Image.taskImgs (i : Image) : List TaskImg := i.placements.map i.taskImg

def TaskImg.core (t : TaskImg) : Nat := placeCore t.pl
def TaskImg.task (t : TaskImg) : Nat := placeTask t.pl
def TaskImg.region (t : TaskImg) : Nat := plBound t.pl - plBase t.pl
def TaskImg.strict (t : TaskImg) : Bool := plStrict t.pl
def TaskImg.desc (t : TaskImg) (i : Nat) : Rec := t.descs.getD i 0
def TaskImg.kind (t : TaskImg) (i : Nat) : Nat := fld (t.desc i) 63 1
def TaskImg.ring? (t : TaskImg) (r : Nat) : Option Rec := t.rings.find? (fun x => srRing x == r)

def Image.task? (i : Image) (core task : Nat) : Option TaskImg :=
  (i.placements.find? (fun p => placeCore p == core && placeTask p == task)).map i.taskImg

/-! ### Loops and effective offsets (R70, R74) -/

def rpPeriod (w : Nat) : Nat := bits (wArgs w) 17 14 * 16

/-- Loops of a program: index of the REPEAT word, its length, count and period. -/
def loopsOf (ws : List Nat) : List (Nat × Nat × Nat × Nat) :=
  ws.zipIdx.filterMap (fun p => if wOpcode p.1 = 0x0F then some (p.2, rpLength p.1, rpCount p.1, rpPeriod p.1) else none)

/-- The last effective offset of the word at an index. -/
def lastOffset (ws : List Nat) (i : Nat) : Nat :=
  let off := wOffset (ws.getD i 0)
  match (loopsOf ws).find? (fun l => decide (l.1 < i) && decide (i ≤ l.1 + l.2.1)) with
  | some l => off + (l.2.2.1 - 1) * l.2.2.2
  | none => off

/-! ### Scale tables (R271, R272) -/

structure ScaleTable where
  core : Nat
  entries : List Nat
  groups : List Rec
  ok : Bool
  deriving DecidableEq, Repr

def parseScale (bs : Bytes) : ScaleTable :=
  let ng := leAt bs 2 2
  let ne := leAt bs 4 2
  { core := leAt bs 0 2
    entries := (List.range ne).map (fun i => leAt bs (8 + 8 * i) 8)
    groups := (List.range ng).map (fun g => recOf (sliceZ bs (8 + 8 * ne + 32 * g) 32))
    ok := decide (ng ≤ 256) && decide (1 ≤ ne) && decide (ne ≤ 4096) && zerosAt bs 6 2 && 8 + 8 * ne + 32 * ng == bs.length }

/-- Objects of WELL_MAP (R436). -/
def obAddr (o : Rec) : Nat := bits (fld o 0 8) 0 48
def obSpace (o : Rec) : Nat := bits (fld o 0 8) 48 3
def obLen (o : Rec) : Nat := fld o 8 8
def obKind (o : Rec) : Nat := fld o 16 1
def obCore (o : Rec) : Nat := fld o 18 2
def obDigest (o : Rec) : Bytes := sliceZ (recBytes o) 32 32

/-- The bytes of an object: in the well, or in the deep well, which is host memory (R523) and whose bytes `deep` gives by address. -/
def Dev.object (d : Dev) (deep : SMap Bytes) (o : Rec) : Bytes :=
  if obSpace o = 2 then sliceZ (mgetD deep (obAddr o) []) 0 (obLen o) else d.wellRead (obAddr o) (obLen o)

def Dev.objectOk (d : Dev) (deep : SMap Bytes) (o : Rec) : Bool := sha3 (d.object deep o) == obDigest o

/-- The objects of an image in the deep well with the bytes that the host's memory holds for them, in the order of WELL_MAP. -/
def Image.deepBytes (i : Image) (bs : List Bytes) : SMap Bytes :=
  ((i.objects.filter (fun o => obSpace o == 2)).zip bs).foldl (fun m p => mset m (obAddr p.1) p.2) []

/-- The scale tables of an image. -/
def Dev.scaleTables (d : Dev) (deep : SMap Bytes) (i : Image) : List (Rec × ScaleTable) :=
  (i.objects.filter (fun o => obKind o == 1)).map (fun o => (o, parseScale (d.object deep o)))

/-! ### Alternate sets (R561) -/

def foEntries (fo : Bytes) : List Rec := (List.range (leAt fo 0 2)).map (fun k => recOf (sliceZ fo (16 + 64 * k) 64))

def foKind (e : Rec) : Nat := fld e 0 1
def foFailed (e : Rec) : Nat := if foKind e = 1 then fld e 2 2 else fld e 1 1
def foOrigin (e : Rec) : Nat := fld e 4 2
def foMirror (e : Rec) (k : Nat) : Nat := fld e (6 + 2 * k) 2
def foStandby (e : Rec) : Nat := fld e 12 1
def foSpares (e : Rec) : Nat := fld e 32 32

/-- The sub-sections of an alternate set: type and contents. -/
def subSections : Nat → Bytes → List (Nat × Bytes)
  | 0, _ => []
  | _ + 1, [] => []
  | f + 1, bs => (leAt bs 0 2, sliceZ bs 16 (leAt bs 8 8)) :: subSections f (bs.drop (16 + leAt bs 8 8))

def altSet (fo : Bytes) (e : Rec) : List (Nat × Bytes) :=
  let b := sliceZ fo (fld e 16 8) (fld e 24 8)
  subSections b.length b

end Sys2Proof.Machine
end

