-- ==== Sys2Proof/Machine/CheckDesc.lean ====
section
/-! DEFINITION. Machine/CheckDesc.lean: the descriptor checks of R79 step 4, each a breach of E_IMG_SECTION (R62, R63, R98, R107 to
R110, R123, R124, R134 to R138, R141, R156, R167 to R175, R178, R184, R190, R191, R215, R270, R293 to R298, R322, R326, R403 to
R407, R479, R622). -/

namespace Sys2Proof.Machine

/-! ### Fields -/

/-- Bytes of a record that must be zero. -/
def rz (r : Rec) (off n : Nat) : Bool := fld r off n == 0

def inR (lo v hi : Nat) : Bool := decide (lo ≤ v) && decide (v ≤ hi)

def absent : Nat := 0xFFFF

/-! ### Tensors -/

/-- The range of a tensor inside its region or slot (R361). -/
def TaskImg.spanIn (t : TaskImg) (x : Rec) : Bool :=
  let s := tSpan x
  let lo := (tAddr x : Int) + s.1
  let hi := (tAddr x : Int) + s.2
  if tRing x = 0xFF then decide (0 ≤ lo) && decide (hi ≤ (t.region : Int))
  else match t.ring? (tRing x) with
    | some r => decide (0 ≤ lo) && decide (hi ≤ (srBytes r : Int))
    | none => false

/-- MX tensors (R107, R108). -/
def mxOk (x : Rec) : Bool :=
  !(tFmt x).isMx || (tSize x 0 % mxUnit (tFmt x) == 0 && (List.range 3).all (fun k => tStride x (k + 1) % 512 == 0))

/-- A tensor descriptor (R63, R98, R108, R622). -/
def tensorOk (x : Rec) : Bool :=
  bits (fld x 0 8) 51 13 == 0 && decide (tSpace x ≤ 3) && (Fmt.ofCode (tFmtCode x)).isSome && inR 1 (tNdim x) 4 &&
    decide (fld x 10 1 ≤ 1) && rz x 12 4 &&
    (List.range 4).all (fun k => inR 1 (tSize x k) 16777216 && (decide (k < tNdim x) || tSize x k == 1)) &&
    (tPeat x || rz x 48 8) && rz x 56 7 && (!tPacked x || tStride x 0 == 0) && mxOk x

/-- A tensor that an engine of the core reads or writes. -/
def TaskImg.engT (t : TaskImg) (i : Nat) : Bool :=
  decide (i < t.descs.length) && t.kind i == 1 && tSpace (t.desc i) == 0 && (tPeat (t.desc i) || t.spanIn (t.desc i))

def sameShape (a b : Rec) : Bool := tNdim a == tNdim b && (List.range 4).all (fun k => tSize a k == tSize b k)

/-- Two different points of a layout never touch one byte: every difference of points moves at least sz bytes. -/
def touches (sz : Nat) : List (Nat × Int) → Int → Bool → Bool
  | [], acc, moved => moved && decide (acc.natAbs < sz)
  | (n, s) :: r, acc, moved => (List.range (2 * n - 1)).any (fun k =>
      let dl : Int := (k : Int) - ((n - 1 : Nat) : Int)
      touches sz r (acc + dl * s) (moved || dl != 0))

/-- An output tensor (R167). -/
def outOk (x : Rec) : Bool :=
  let dims := (List.range 4).map (fun k => (tSize x k, tStride x k))
  if tPacked x then (dims.drop 1).all (fun p => p.1 == 1 || p.2 != 0) && !touches (tRowBytes x) (dims.drop 1) 0 false
  else dims.all (fun p => p.1 == 1 || p.2 != 0) && !touches (max 1 (tFmt x).size) dims 0 false

/-- A Peat tensor that the gate pipeline writes: room for BLOCKS × 520 bytes and for the index, in the region or in a slot (R424, R426). -/
def TaskImg.peatRoom (t : TaskImg) (x : Rec) : Bool :=
  let n := (tDense x + 511) / 512
  let room := if tRing x = 0xFF then t.region else ((t.ring? (tRing x)).map srBytes).getD 0
  decide (tAddr x + 520 * n ≤ room) && decide (tPeatIndex x + 64 + 8 * n ≤ t.region)

/-- OUT of a gate program (R167, R192); a PEAT one is placed by blocks, and its strides are not checked (DESIGN CHOICE, entry 103). -/
def TaskImg.outT (t : TaskImg) (i : Nat) : Bool := t.engT i && (if tPeat (t.desc i) then t.peatRoom (t.desc i) else outOk (t.desc i))

/-- A tensor that an engine reads at its strides. The spec leads Peat tensors through the expander to MAT_RUN and to the local pump alone, and to
them from the gate pipeline; PEAT set on a tensor of another engine is refused (DESIGN CHOICE, entry 103). -/
def TaskImg.plainT (t : TaskImg) (i : Nat) : Bool := t.engT i && !tPeat (t.desc i)

/-- A tensor that such an engine writes (R167). -/
def TaskImg.plainOut (t : TaskImg) (i : Nat) : Bool := t.plainT i && outOk (t.desc i)

def fmtIn (x : Rec) (l : List Fmt) : Bool := l.contains (tFmt x)

def floatFmts : List Fmt := [.fp32, .bf16, .fp16, .e4m3, .e5m2]

/-! ### Random bits (R293 to R295) -/

/-- A purpose code's binding for a task covers every point of the given sizes. -/
def Image.drawOk (i : Image) (t : TaskImg) (purpose : Nat) (size : Nat → Nat) : Bool :=
  i.hasSeeds && decide (purpose < 0xF0) &&
    match i.bindings.find? (fun b => fld b 0 2 == t.core && fld b 2 1 == t.task && fld b 3 1 == purpose) with
    | none => false
    | some b =>
      let sd := fld b 5 1
      let pd := fld b 6 1
      let c := (List.range 4).foldl (fun a k => if k = sd ∨ k = pd then a else a * size k) 1
      decide (c ≤ 65536) && (pd == 0xFF || decide (size pd ≤ 65536)) && (sd == 0xFF || decide (size sd ≤ 64))

/-- A rounding field that names a purpose (R119, R293). -/
def Image.roundOk (i : Image) (t : TaskImg) (round purpose : Nat) (size : Nat → Nat) : Bool :=
  decide (round ≤ 2) && decide (purpose < 0xF0) && (round != 2 || i.drawOk t purpose size)

/-! ### Engine descriptors -/

/-- Weight formats that a run format takes (R110). -/
def weightFmts (f : Nat) : List Fmt :=
  if f = 3 then [.e4m3, .mxfp6, .mxfp4] else if f = 4 then [.e5m2] else if f = 8 then [.int8, .int4, .mxint8]
  else if f = 1 then [.bf16] else [.fp16]

/-- A weight tensor's ADDRESS lies in a deep bank: in the region, or in every slot of its ring (R138, R358). -/
def TaskImg.inDeep (t : TaskImg) (x : Rec) : Bool :=
  if tRing x = 0xFF then decide (0x100000 ≤ plBase t.pl + tAddr x)
  else match t.ring? (tRing x) with
    | some r => decide (0x100000 ≤ plBase t.pl + srBase r + tAddr x)
    | none => false

/-- Largest K of a run (R134). -/
def maxK (f : Nat) (w : Fmt) : Nat := if f = 1 ∨ f = 2 then 1024 else if w.isMx then 1920 else 2048

/-- A matrix run (R134, R135, R137, R138, R141, R142). -/
def TaskImg.matOk (t : TaskImg) (r : Rec) : Bool :=
  let a := t.desc (mrAct r)
  let w := t.desc (mrWgt r)
  let f := fld r 4 1
  let K := mrK r
  let rr := rawRow (tFmt w) K
  [1, 2, 3, 4, 8].contains f && decide (fld r 5 1 < 4) && (f == 8 || (rz r 6 1 && rz r 20 2)) && rz r 7 1 && inR 1 (mrM r) 512 &&
    inR 1 K (maxK f (tFmt w)) && inR 1 (mrN r) 65536 && rz r 22 41 && t.plainT (mrAct r) && t.engT (mrWgt r) &&
    tNdim a == 2 && tSize a 0 == K && tSize a 1 == mrM r && tFmtCode a == f && tStride a 0 == ((tFmt a).size : Int) &&
    tStride a 1 % 64 == 0 && tAddr a % 64 == 0 &&
    (weightFmts f).contains (tFmt w) && tNdim w == 2 && tSize w 0 == K && tSize w 1 == mrN r && tStride w 1 == (rr : Int) &&
    (tPacked w || tStride w 0 == ((tFmt w).size : Int)) && (!(tFmt w).isMx || K % mxUnit (tFmt w) == 0) &&
    (!tPeat w || rr % 16 == 0) && t.inDeep w &&
    (f != 8 || decide (fld r 20 2 + mrN r ≤ 4096))

/-- Entries that a descriptor reads lie below 4,096, once it reads any; what the scale table gives them is checked with it (R265). -/
def selOk (used : Bool) (sel n : Nat) : Bool := !used || decide (sel + n ≤ 4096)

/-- A gate program (R191). -/
def TaskImg.gateOk (t : TaskImg) (i : Image) (r : Rec) : Bool :=
  let o := t.desc (gpOut r)
  let isInt := tFmt o == .int8 || tFmt o == .int4
  t.outT (gpOut r) && !(tFmt o).isMx && (gpGate r == absent || (t.plainT (gpGate r) && fmtIn (t.desc (gpGate r)) floatFmts)) &&
    (gpBias r == absent || (t.plainT (gpBias r) && tFmt (t.desc (gpBias r)) == .fp32)) && decide (fld r 6 1 ≤ 12) &&
    decide (fld r 7 1 ≤ 12) && i.roundOk t (fld r 8 1) (fld r 10 1) (tSize o) && decide (fld r 9 1 ≤ 1) && decide (gpFlags r < 8) &&
    bit (gpFlags r) 1 == isInt && rz r 16 47 && selOk (bit (gpFlags r) 0) (fld r 12 2) 1 && selOk (bit (gpFlags r) 1) (fld r 14 2) 1

/-- Micro-operations of a program. -/
def TaskImg.uops (t : TaskImg) (d : Nat) : List Uop :=
  (List.range (fld (t.desc d) 34 1)).map (fun j => uopOf (fld (t.desc (d + 1 + j / 15)) (4 * (j % 15)) 4))

/-- TYPE codes that an operation takes (R173). -/
def uopTypes (op : Nat) : List Nat :=
  if op = 0x13 then [0]
  else if 0x0A ≤ op ∧ op ≤ 0x0C then [0, 1, 4]
  else if 0x0D ≤ op ∧ op ≤ 0x11 then [1, 4]
  else [0, 1, 2, 3, 4]

/-- The type of an operation's result. -/
def uopResult (u : Uop) : Nat := if 0x0A ≤ u.op ∧ u.op ≤ 0x0C then (if u.ty = 4 then 4 else 1) else u.ty

/-- An exact widening of a format to a type (R124, R172). -/
def widens (f : Fmt) (ty : Nat) : Bool :=
  f == tyFmt ty || (ty == 0 && f.isFloat) || ((ty == 2 || ty == 3) && (f == .e4m3 || f == .e5m2)) || (ty == 1 && f == .int8)

/-- A source of a micro-operation of TYPE `own` read as a type; `none` accepts any (R172, R175). `fmts`: the formats of the inputs,
unknown (`none`) in a program that no ELE_RUN names. -/
def srcOk (nin : Nat) (fmts : Option (List Fmt)) (own : Nat) (temps : SMap Nat) (src : Nat) (ty : Option Nat) : Bool :=
  if src < 8 then match mget temps src with
    | some x => ty == none || ty == some x
    | none => false
  else if src < 12 then match fmts with
    | none => decide (src - 8 < nin)
    | some l => match l[src - 8]? with
      | some f => (f != .int4 && !f.isMx) && (match ty with
        | some y => widens f y
        | none => true)
      | none => false
  else if src < 20 then true
  else src == 20 && own == 1

/-- One micro-operation's sources. -/
def uopSrcOk (nin : Nat) (fmts : Option (List Fmt)) (temps : SMap Nat) (u : Uop) : Bool :=
  let srcOk := srcOk nin fmts u.ty temps
  let any := u.op == 0x12 || u.op == 0x14
  let ty := if any then none else some u.ty
  let cty := if u.ty = 4 then 4 else 1
  srcOk u.a ty && (u.op != 0x13 || inR 1 u.b 12) &&
    (any || u.op == 7 || u.op == 8 || u.op == 0x13 || srcOk u.b ty) &&
    (u.op != 4 || srcOk u.c ty) && (u.op != 9 || srcOk u.c (some cty))

/-- The type that an ST reads: a temporary's, an input's format or the program's own. -/
def stSource (fmts : List Fmt) (temps : SMap Nat) (u : Uop) : Option Fmt :=
  if u.a < 8 then (mget temps u.a).map tyFmt else if u.a < 12 then fmts[u.a - 8]? else some (tyFmt u.ty)

/-- The micro-operations of a program (R171 to R175). -/
def uopsOk (nin : Nat) (fmts : Option (List Fmt)) (outs : List Fmt) : List Uop → SMap Nat → Bool
  | [], _ => true
  | u :: r, temps =>
    inR 1 u.op 0x14 && decide (u.ty ≤ 4) && (uopTypes u.op).contains u.ty && decide (u.rm ≤ 2) && uopSrcOk nin fmts temps u &&
      (u.op != 0x14 || (match fmts with
        | none => true
        | some l => match outs[u.dst % 2]? with
          | some f => !(f == .int8 || f == .int4) || (match stSource l temps u with
            | some .int8 => true
            | some .int32 => true
            | _ => false)
          | none => false)) &&
      uopsOk nin fmts outs r (if u.op = 0x14 then temps else mset temps u.dst (uopResult u))

/-- Raw bits of a micro-operation that must be zero (R171). -/
def uopZero (t : TaskImg) (d j : Nat) : Bool :=
  let w := fld (t.desc (d + 1 + j / 15)) (4 * (j % 15)) 4
  bits w 30 2 == 0

/-- An element program's own fields (R169, R175); its tensors are checked with each ELE_RUN. -/
def TaskImg.eleOk (t : TaskImg) (_i : Image) (d : Nat) : Bool :=
  let r := t.desc d
  let n := fld r 34 1
  let us := t.uops d
  decide (epNin r ≤ 4) && inR 1 (epNout r) 2 && decide (fld r 35 1 ≤ 1) && decide (fld r 37 1 < 2 ^ epNin r) && rz r 40 23 &&
    (if fld r 35 1 = 0 then inR 1 n 32 && rz r 38 2 else n == 0 && epNin r == 2 && epNout r == 1) &&
    (List.range ((n + 14) / 15)).all (fun k => t.kind (d + 1 + k) == 0x0F && rz (t.desc (d + 1 + k)) 60 3) &&
    (List.range n).all (uopZero t d) &&
    decide ((us.filter uopSr).length ≤ 8) && decide (fld r 36 1 < 0xF0) && (fld r 35 1 == 0 || fld r 37 1 == 0) &&
    (fld r 35 1 == 1 || uopsOk (epNin r) none [] us []) &&
    (fld r 35 1 == 1 || (List.range (epNout r)).all (fun o => (us.filter (fun u => u.op == 0x14 && u.dst % 2 == o)).length == 1)) &&
    us.all (fun u => u.op != 0x14 || decide (u.dst % 2 < epNout r))

/-- An accumulator input (R170). -/
def accOk (x : Rec) : Bool :=
  let s := tSpan x
  tFmt x == .fp32 && tSpace x == 0 && tAddr x % 4 == 0 && (List.range 4).all (fun k => tStride x k % 4 == 0) &&
    decide (0 ≤ (tAddr x : Int) + s.1) && decide ((tAddr x : Int) + s.2 ≤ 65536)

/-- An ELE_RUN's tensors (R170, R190). Output 0 of LUT_DEQ must have NDIM 1: R190 gives its SIZE0 alone (DESIGN CHOICE, entry 119). -/
def TaskImg.eleRunOk (t : TaskImg) (i : Image) (d f : Nat) : Bool :=
  let r := t.desc d
  let ins := (List.range (epNin r)).map (fun k => f + k)
  let outs := (List.range (epNout r)).map (fun k => f + epNin r + k)
  let x := t.desc f
  let w := t.desc (f + 1)
  let y := t.desc (f + 2)
  decide (f + epNin r + epNout r ≤ t.descs.length) && (ins ++ outs).all (fun k => t.kind k == 1) &&
    if fld r 35 1 = 0 then
      let fmts := ins.map (fun k => tFmt (t.desc k))
      let ofm := outs.map (fun k => tFmt (t.desc k))
      let us := t.uops d
      let srs := us.filter uopSr
      (ins ++ outs).all (fun k => sameShape (t.desc k) (t.desc (outs.getD 0 0))) && outs.all t.plainOut &&
        ins.all (fun k => if bit (fld r 37 1) (k - f) then accOk (t.desc k) else t.plainT k) &&
        ofm.all (fun g => !g.isMx) && uopsOk (epNin r) (some fmts) ofm us [] &&
        (List.range srs.length).all (fun j => i.drawOk t ((fld r 36 1 + j) % 256) (tSize (t.desc (outs.getD 0 0))))
    else
      let K := tSize x 0
      let N := tSize y 0
      t.plainT f && t.plainT (f + 1) && t.plainOut (f + 2) && tNdim x == 1 && fmtIn x [.bf16, .fp16, .e4m3, .e5m2] && tNdim w == 2 &&
        tFmt w == .int4 && tSize w 0 == K && tSize w 1 == N && K % 2 == 0 && tStride w 1 == ((K / 2 : Nat) : Int) &&
        tFmt y == .fp32 && tNdim y == 1 && selOk (fld r 35 1 == 1) (fld r 38 2) N

/-- A scan (R178, R215). -/
def TaskImg.scanOk (t : TaskImg) (d : Nat) : Bool :=
  let r := t.desc d
  let xa := t.desc (sdXa r)
  let pair := sdOp r == 2
  let f : Fmt := if sdType r = 0 then .fp32 else .int32
  let rowShape (i : Nat) : Bool :=
    let y := t.desc i
    if tNdim xa = 1 then tNdim y == 1 && tSize y 0 == 1
    else tNdim y + 1 == tNdim xa && (List.range 3).all (fun k => tSize y k == tSize xa (k + 1))
  let opt (i : Nat) (ok : Nat → Bool) : Bool := i == absent || ok i
  let lowOk (i : Nat) : Bool :=
    let a := t.desc i
    let b := t.desc (i + 1)
    t.kind (i + 1) == 1 && tFmt b == .fp32 && sameShape a b && (List.range 4).all (fun k => tStride a k == tStride b k)
  let inFmt (i : Nat) : Bool := widens (tFmt (t.desc i)) (sdType r)
  decide (sdOp r ≤ 2) && decide (sdSegSrc r ≤ 2) && decide (sdType r ≤ 1) && decide (fld r 19 1 ≤ 1) && rz r 20 43 &&
    (!pair || sdType r == 0) && (!sdComp r || pair) && t.plainT (sdXa r) && inFmt (sdXa r) && inR 1 (tSize xa 0) 65536 &&
    (sdXb r != absent) == pair && opt (sdXb r) (fun i => t.plainT i && sameShape (t.desc i) xa && inFmt i) &&
    t.plainOut (sdY r) && sameShape (t.desc (sdY r)) xa && tFmt (t.desc (sdY r)) == f &&
    (pair || sdYa r == absent) && opt (sdYa r) (fun i => t.plainOut i && sameShape (t.desc i) xa && tFmt (t.desc i) == f) &&
    opt (sdCarry r) (fun i => t.plainT i && rowShape i && inFmt i) &&
    opt (sdCarryOut r) (fun i => t.plainOut i && rowShape i && tFmt (t.desc i) == f) &&
    (sdSeg r != absent) == (sdSegSrc r != 0) &&
    opt (sdSeg r) (fun i => t.plainT i && sameShape (t.desc i) xa && tFmt (t.desc i) == (if sdSegSrc r = 1 then Fmt.int8 else Fmt.int32)) &&
    (sdSegPrev r == absent || sdSegSrc r == 2) && opt (sdSegPrev r) (fun i => t.plainT i && rowShape i && tFmt (t.desc i) == .int32) &&
    (!sdComp r || (lowOk (sdY r) && opt (sdYa r) lowOk && opt (sdCarry r) lowOk && opt (sdCarryOut r) lowOk))

/-- A conversion (R123, R124). -/
def TaskImg.convOk (t : TaskImg) (i : Image) (d : Nat) : Bool :=
  let r := t.desc d
  let s := t.desc (fld r 0 2)
  let o := t.desc (fld r 2 2)
  let q (f : Fmt) : Bool := f == .int8 || f == .int4
  let map := bit (fld r 7 1) 1
  t.plainT (fld r 0 2) && t.plainOut (fld r 2 2) && sameShape s o && !(tFmt s).isMx && !(tFmt o).isMx &&
    i.roundOk t (fld r 4 1) (fld r 6 1) (tSize o) && decide (fld r 5 1 ≤ 1) && decide (fld r 7 1 < 4) && rz r 10 53 &&
    map == ((q (tFmt s) && (tFmt o).isFloat) || (q (tFmt o) && (tFmt s).isFloat)) && selOk map (fld r 8 2) 1

/-- A reduction (R184). AXIS 1 needs a source with a dimension 1, and the result of a source with NDIM 1 has NDIM 1 and SIZE0 1: a shape without
dimensions has no descriptor (DESIGN CHOICE, entry 119). -/
def TaskImg.redOk (t : TaskImg) (d : Nat) : Bool :=
  let r := t.desc d
  let s := t.desc (rdSrc r)
  let op := rdOp r
  let isInt := tFmt s == .int32
  let removed (i : Nat) : Bool :=
    let y := t.desc i
    let want (k : Nat) : Nat := if rdAxis r = 0 then tSize s (k + 1) else if k = 0 then tSize s 0 else tSize s (k + 1)
    (List.range 3).all (fun k => tSize y k == want k) && tSize y 3 == 1 && tNdim y == max 1 (tNdim s - 1)
  let noDim0 (i : Nat) : Bool := fmtIn (t.desc i) floatFmts && tNdim (t.desc i) == max 1 (tNdim s - 1) &&
    (List.range 3).all (fun k => tSize (t.desc i) k == tSize s (k + 1)) && tSize (t.desc i) 3 == 1
  let noDim01 (i : Nat) : Bool := tNdim (t.desc i) == max 1 (tNdim s - 2) &&
    (List.range 2).all (fun k => tSize (t.desc i) k == tSize s (k + 2)) && tSize (t.desc i) 2 == 1 && tSize (t.desc i) 3 == 1
  let valF : Fmt := if isInt then .int32 else .fp32
  let fm (i : Nat) (f : Fmt) : Bool := tFmt (t.desc i) == f
  decide (op ≤ 5) && decide (rdAxis r ≤ 1) && rz r 14 49 && t.plainT (rdSrc r) && (isInt || (tFmt s).isFloat) &&
    (!isInt || decide (op ≤ 2)) && t.plainOut (rdDst r) && removed (rdDst r) &&
    (rdAxis r == 0 || decide (2 ≤ tNdim s)) &&
    (if op = 2 then fm (rdDst r) .int32 else fm (rdDst r) (if op ≤ 1 then valF else .fp32)) &&
    (if op = 2 then rdDst2 r == absent || (t.plainOut (rdDst2 r) && removed (rdDst2 r) && fm (rdDst2 r) valF)
     else if op = 4 then t.plainOut (rdDst2 r) && removed (rdDst2 r) && fm (rdDst2 r) .fp32
     else if op = 5 then t.plainOut (rdDst2 r) && noDim01 (rdDst2 r) && fm (rdDst2 r) .fp32
     else rdDst2 r == absent) &&
    (if op = 5 then rdAxis r == 1 && t.plainOut (rdDst3 r) && noDim01 (rdDst3 r) && fm (rdDst3 r) .fp32 && t.plainT (rdSrcM r) && noDim0 (rdSrcM r) &&
        t.plainT (rdSrcS r) && noDim0 (rdSrcS r)
     else rdDst3 r == absent && rdSrcM r == absent && rdSrcS r == absent)

/-- A sampler request (R298). -/
def TaskImg.smpOk (t : TaskImg) (i : Image) (d : Nat) : Bool :=
  let r := t.desc d
  let s := t.desc (sqSrc r)
  let o := t.desc (sqDst r)
  let m := t.desc (sqMeta r)
  let finite0 (c hi : Nat) : Bool := decide (c ≤ hi)
  rz r 21 42 && t.plainOut (sqDst r) &&
    if sqOp r = 0 then
      t.plainT (sqSrc r) && fmtIn s [.fp32, .bf16, .fp16] && tNdim s == 2 && inR 1 (tSize s 0) 262144 && inR 1 (tSize s 1) 64 &&
        tFmt o == .int32 && tNdim o == 1 && tSize o 0 == tSize s 1 && t.plainT (sqMeta r) && tFmt m == .int32 && tNdim m == 2 &&
        tSize m 0 == 2 && tSize m 1 == tSize s 1 && (fld r 7 1 == 0xF0 || fld r 7 1 == 0xF1) && inR 1 (fld r 8 2) 1024 &&
        sqTable r == absent && finite0 (fld r 12 4) 0x5F800000 && inR 1 (fld r 16 4) 0x3F800000 && decide (fld r 20 1 ≤ 63) &&
        (fld r 12 4 == 0 || i.hasSeeds)
    else
      decide (sqOp r ≤ 3) && sqSrc r == absent && sqMeta r == absent && rz r 8 2 && tFmt o == .fp32 &&
        i.drawOk t (fld r 7 1) (tSize o) &&
        (if sqOp r = 3 then t.plainT (sqTable r) && tFmt (t.desc (sqTable r)) == .fp32 && tNdim (t.desc (sqTable r)) == 1 &&
            tSize (t.desc (sqTable r)) 0 == 1024
         else sqTable r == absent)

/-- A speculation descriptor (R326). -/
def TaskImg.specOk (t : TaskImg) (i : Image) (d : Nat) : Bool :=
  let r := t.desc d
  let n := fld r 6 1
  let pair (k : Nat) : Nat × Nat := (fld (t.desc (d + 1 + k / 7)) (8 * (k % 7)) 2, fld (t.desc (d + 1 + k / 7)) (8 * (k % 7) + 2) 2)
  let shadowOk (m s : Rec) : Bool :=
    tNdim s == tNdim m + 1 && (List.range (tNdim m)).all (fun k => tSize s k == tSize m k) && tSize s (tNdim m) == 9 && tFmt s == tFmt m
  decide (fld r 0 1 ≤ 1) && decide (fld r 1 1 ≤ 63) && (i.cls (fld r 2 1)).any (fun c => inR (fld c.1 16 1) (fld r 1 1) (fld c.1 17 1)) &&
    (fld r 3 1 == 0xFF || (t.ring? (fld r 3 1)).isSome) &&
    (if fld r 0 1 = 1 then t.plainT (fld r 4 2) && tFmt (t.desc (fld r 4 2)) == .int32 && tNdim (t.desc (fld r 4 2)) == 1 &&
        tSize (t.desc (fld r 4 2)) 0 == 64 else fld r 4 2 == absent) &&
    decide (n ≤ 56) && rz r 7 56 && (List.range ((n + 6) / 7)).all (fun k => t.kind (d + 1 + k) == 0x0F) &&
    (List.range n).all (fun k => fld (t.desc (d + 1 + k / 7)) (8 * (k % 7) + 4) 4 == 0 && t.plainT (pair k).1 && t.plainT (pair k).2 && shadowOk (t.desc (pair k).1) (t.desc (pair k).2))

/-- Bytes of a slot's slice of a state tensor, padded (R322). -/
def sliceBytes (x : Rec) : Nat := (tRowBytes x * tSize x 2 * tSize x 3 + 63) / 64 * 64

/-- KV layers of a class that a task of a core holds. -/
def kvOnTask (cls : Rec × List Rec × List Rec) (core task : Nat) : List Rec :=
  cls.2.1.filter (fun l => kvTask l == task && (kvCores l).contains core)

/-- An ember descriptor (R322). -/
def TaskImg.emberOk (t : TaskImg) (i : Image) (d : Nat) : Bool :=
  let r := t.desc d
  let ts := (List.range (fld r 2 1)).map (fun k => fld r 0 2 + k)
  match i.cls (fld r 12 1) with
  | none => false
  | some c =>
    let need := (ts.map (fun k => sliceBytes (t.desc k))).foldl (· + ·) 0 + (if bit (fld r 13 1) 0 then 32 * (kvOnTask c t.core t.task).length else 0)
    inR 1 (fld r 2 1) 16 && ts.all (fun k => t.plainT k && inR 2 (tNdim (t.desc k)) 4 && tSize (t.desc k) 1 == 64) && decide (fld r 3 1 ≤ 63) &&
      inR (fld c.1 16 1) (fld r 3 1) (fld c.1 17 1) && fld r 4 4 % 64 == 0 && decide (64 ≤ fld r 4 4) &&
      decide (fld r 4 4 + fld r 8 4 ≤ fld c.1 48 4) && decide (need ≤ fld r 8 4) && decide (fld r 13 1 ≤ 1) && rz r 14 49

/-- A pump descriptor, whatever its pump kind (R403 to R407). -/
def TaskImg.pumpOk (t : TaskImg) (i : Image) (d : Nat) : Bool :=
  let r := t.desc d
  let s := t.desc (pdSrc r)
  let o := t.desc (pdDst r)
  let m := pdMode r
  let isT (k : Nat) : Bool := decide (k < t.descs.length) && t.kind k == 1
  let dense (x : Rec) : Bool :=
    (tPacked x || tStride x 0 == ((tFmt x).size : Int)) && tStride x 1 == (tRowBytes x : Int) &&
      tStride x 2 == ((tRowBytes x * tSize x 1 : Nat) : Int) && tStride x 3 == ((tRowBytes x * tSize x 1 * tSize x 2 : Nat) : Int)
  decide (m ≤ 5) && decide (fld r 7 1 < 64) && rz r 17 1 && rz r 48 15 && (if m = 2 then pdBlock r % 64 == 0 && inR 64 (pdBlock r) 65536 else rz r 8 4) &&
    (if m = 3 then isT (pdDst2 r) else pdDst2 r == absent) && (if m = 2 ∨ m = 3 then isT (pdIdx r) else pdIdx r == absent) &&
    (if m = 4 then inR 1 (pdGen r) 65535 else rz r 20 4) && (m == 3 || rz r 24 4) && (pdAlloc r || rz r 28 4) &&
    (m == 3 || isT (pdSrc r)) && (m == 4 || m == 5 || isT (pdDst r)) && (m != 3 || (tSpace o == 0 && t.inDeep o && tSpace (t.desc (pdDst2 r)) == 0 && t.inDeep (t.desc (pdDst2 r)))) &&
    (m != 0 || (dense s && dense o && tDense s == tDense o)) && (m != 1 || sameShape s o) &&
    (!(decide (m ≤ 1) && tPeat s && !pdDecode r) || tPeat o) &&
    (!pdDecode r || (decide (m ≤ 1) && tPeat s && !tPeat o)) &&
    (m != 2 || (tFmt (t.desc (pdIdx r)) == .int32 && tNdim (t.desc (pdIdx r)) == 1)) &&
    (m != 3 || (tFmt (t.desc (pdIdx r)) == .int32 && tSize (t.desc (pdIdx r)) 0 == 8 && inR 1 (tSize (t.desc (pdIdx r)) 1) 64 &&
      (i.cls (fld r 24 1)).any (fun c => c.2.1.any (fun l => kvLayer l == fld r 25 1 && decide (fld r 26 1 < kvHeads l) && decide (fld r 27 1 < kvSplit l))))) &&
    (m != 4 || (tSpace s == 0 && t.spanIn s)) &&
    (m != 5 || tPeat s) && (!pdAlloc r || (tPeat o && tSpace o == 1 && i.pools.any (fun p => fld p 0 2 == pdPool r))) &&
    (!pdTally r || (decide (fld r 18 2 ≤ 255)))

/-- A pump descriptor on the pump kind of its PUMP word: the spaces of every tensor that it names, the frames that a walk reads, and, for a link
pump, UNIT as its route (R400, R401, R407, R479; entry 115). -/
def TaskImg.pumpKindOk (t : TaskImg) (i : Image) (d kind : Nat) : Bool :=
  let r := t.desc d
  let o := t.desc (pdDst r)
  let m := pdMode r
  let opt (used : Bool) (k : Nat) : List Nat := if used then [tSpace (t.desc k)] else []
  let srcs := opt (m != 3) (pdSrc r) ++ opt (m == 2 || m == 3) (pdIdx r)
  let wellFrames := m == 3 && (i.cls (fld r 24 1)).any (fun c => c.2.1.any (fun l => kvLayer l == fld r 25 1 && kvWellFrames l != 0))
  let dsts := if m = 4 ∨ m = 5 then [] else [tSpace o]
  let linkZero := rz r 32 16
  if kind = 0 then
    srcs.all (· == 0) && !wellFrames && dsts.all (fun x => x == 0 || x == 3) && rz r 12 2 && linkZero
  else if kind = 1 then
    srcs.all (fun x => decide (x ≤ 2)) && dsts.all (fun x => decide (x ≤ 2)) && !pdDecode r && decide (pdUnit r ≤ 3) && linkZero
  else
    match i.origin (pdRoute r) with
    | none => false
    | some og =>
      m != 3 && m != 4 && m != 5 && pdUnit r == pdRoute r && srcs.all (fun x => decide (x ≤ 1)) && dsts.all (fun x => x == 3 || x == 1) && !pdDecode r && !pdAlloc r && rz r 37 11 && decide (pdWindow r ≤ 15) &&
        decide (pdLand r ≤ 15) && (fld og 1 1 != 0 || tSpace o == 3 && tRing o != 0xFF) && (fld og 1 1 == 0 || pdLand r == 0)

/-- The relay's continuation record (R156). -/
def TaskImg.relayRecOk (t : TaskImg) (d : Nat) : Bool :=
  let r := t.desc (d + 1)
  t.kind (d + 1) == 0x0F && decide (rkCount r ≤ 65536) && decide (rkHead r ≤ 63) && inR (rkHead r) (rkTail r) 63 && decide (rkRole r ≤ 1) && rz r 19 44 &&
    (if rkRole r = 1 then inR 1 (rkFlits r) 65536 && decide (0x100000 ≤ plBase t.pl + rkSrc r) && decide (rkSrc r + 512 * rkFlits r ≤ t.region)
     else rkFlits r == 0 && rkSrc r == 0) &&
    tSpace (t.desc d) == 0 && decide (tAddr (t.desc d) + 512 * rkCount r ≤ t.region)

/-- Continuation records that a descriptor takes. -/
def TaskImg.conts (t : TaskImg) (d : Nat) : Nat :=
  let r := t.desc d
  if t.kind d = 4 then (fld r 34 1 + 14) / 15 else if t.kind d = 0x0A then (fld r 6 1 + 6) / 7 else if t.kind d = 1 then
    (if t.kind (d + 1) = 0x0F then 1 else 0) else 0

/-- Continuation records follow the descriptors that they belong to (R62). -/
def TaskImg.contsOk (t : TaskImg) : Bool :=
  (List.range t.descs.length).all (fun d => t.kind d != 0x0F ||
    (List.range d).any (fun e => t.kind e != 0x0F && decide (d ≤ e + t.conts e)))

/-- Tensors that only name accumulator lanes, places of another device, or stored bytes need no room in the region. -/
def TaskImg.accOnly (t : TaskImg) (d : Nat) : Bool :=
  t.words.any (fun w =>
    let e := bits (wArgs w) 0 12
    let f := bits (wArgs w) 12 12
    wOpcode w == 5 && (List.range (epNin (t.desc e))).any (fun k => f + k == d && bit (fld (t.desc e) 37 1) k))

/-- One descriptor of a task. -/
def TaskImg.descOk (t : TaskImg) (i : Image) (d : Nat) : Bool :=
  let r := t.desc d
  let k := t.kind d
  if k = 1 then
    tensorOk r && (tSpace r != 0 || tPeat r || t.accOnly d || t.spanIn r || t.kind (d + 1) == 0x0F) &&
      (tSpace r == 3 || tRing r == 0xFF || (t.ring? (tRing r)).isSome)
  else if k = 2 then t.matOk r
  else if k = 3 then t.gateOk i r
  else if k = 4 then t.eleOk i d
  else if k = 5 then t.scanOk d
  else if k = 6 then t.convOk i d
  else if k = 7 then t.redOk d
  else if k = 8 then t.pumpOk i d
  else if k = 9 then t.smpOk i d
  else if k = 0x0A then t.specOk i d
  else if k = 0x0B then t.emberOk i d
  else k == 0x0F

/-- Ember parts of one class and cord do not overlap (R322). -/
def embersApart (i : Image) : Bool :=
  let es := i.taskImgs.flatMap (fun t => (List.range t.descs.length).filterMap (fun d =>
    if t.kind d = 0x0B then some (t.desc d) else none))
  es.zipIdx.all (fun a => es.zipIdx.all (fun b => decide (b.2 ≤ a.2) || fld a.1 12 1 != fld b.1 12 1 || fld a.1 3 1 != fld b.1 3 1 ||
    decide (fld a.1 4 4 + fld a.1 8 4 ≤ fld b.1 4 4) || decide (fld b.1 4 4 + fld b.1 8 4 ≤ fld a.1 4 4)))

/-- All descriptors of an image. -/
def Image.descsOk (i : Image) : Bool :=
  i.taskImgs.all (fun t => t.contsOk && (List.range t.descs.length).all (t.descOk i)) && embersApart i

end Sys2Proof.Machine
end

