-- ==== Sys2Proof/Machine/CheckSched.lean ====
section
/-! DEFINITION. Machine/CheckSched.lean: the checks of task programs (R34, R71 to R74, R142, R149, R156, R188, R275, R278, R327, R345,
R346), the modes that R50 refuses, and the occupancy of engines that R50 and R346 sum (R134, R144, R177, R183, R187, R190). -/

namespace Sys2Proof.Machine

/-! ### Words (R72) -/

/-- ARGS bits that an opcode names. -/
def argMask (op : Nat) : Nat :=
  if op = 0x02 then 0x1FFFFF
  else if op = 0x03 then 0x1FFF
  else if op = 0x05 then 0xFFFFFF
  else if op = 0x08 then 0xFFFF
  else if op = 0x09 then 0x3FFF
  else if op = 0x0A then 0xFF
  else if op = 0x0B then 0x1FFFFFF
  else if op = 0x0C then 0xFFFFFFF
  else if op = 0x0D then 0xFFFFF
  else if op = 0x0E then 0x3FFFFF
  else if op = 0x0F then 0x7FFFFFFF
  else if op = 0x16 then 0x1FF
  else if op = 0x17 then 0x1F
  else if op = 0x18 then 1
  else if op = 4 ∨ op = 6 ∨ op = 7 ∨ (0x10 ≤ op ∧ op ≤ 0x15) ∨ op = 0x19 then 0xFFF
  else 0

/-- Kind of the descriptor that an opcode's ARGS[11:0] names; 0 for none. -/
def argKind (op : Nat) : Nat :=
  if op = 2 then 2 else if op = 3 then 1 else if op = 4 then 3 else if op = 5 then 4 else if op = 6 then 5 else if op = 7 then 6
  else if op = 8 then 7 else if op = 9 then 8 else if op = 0x10 then 9 else if op = 0x11 ∨ op = 0x12 ∨ op = 0x13 then 0x0A
  else if op = 0x14 ∨ op = 0x15 then 0x0B else if op = 0x19 then 1 else 0

def wDesc (w : Nat) : Nat := bits (wArgs w) 0 12
def wFirst (w : Nat) : Nat := bits (wArgs w) 12 12
def mwBase (w : Nat) : Nat := bits (wArgs w) 12 9
def pwKind (w : Nat) : Nat := bits (wArgs w) 12 2
def brSkip (w : Nat) : Nat := bits (wArgs w) 7 15
def brCond (w : Nat) : Nat := bits (wArgs w) 4 3

/-- The latest GATE_SET before a word, in program order. -/
def gateBefore (ws : List Nat) (i : Nat) : Option Nat :=
  ((ws.take i).reverse.find? (fun w => wOpcode w == 4)).map wDesc

/-- Words that can follow a word: the next, a BRANCH's target, the end of a span that is withheld, the first word of a loop's body after
its last, the first word of all after END (R71, R73, R74, R77). -/
def wordSuccs (ws : List Nat) (i : Nat) : List Nat :=
  let w := ws.getD i 0
  let after (p : Nat → Bool) : Nat := ((((List.range ws.length).filter (fun k => decide (i < k))).find? (fun k => p (ws.getD k 0)))).getD (i + 1)
  let next : List Nat :=
    if wOpcode w = 0x01 then [0]
    else if wOpcode w = 0x0E then [i + 1, i + 1 + brSkip w]
    else if wOpcode w = 0x11 then [i + 1, after (fun x => wOpcode x == 0x12 || wOpcode x == 0x13)]
    else if wOpcode w = 0x18 ∧ bit (wArgs w) 0 then [i + 1, after (fun x => wOpcode x == 0x18 && !bit (wArgs x) 0)]
    else [i + 1]
  match (loopsOf ws).find? (fun l => decide (l.1 < i) && decide (i ≤ l.1 + l.2.1)) with
  | some l => next ++ (if next.any (fun s => decide (l.1 + l.2.1 < s)) then [l.1 + 1] else [])
  | none => next

/-- One pass over a program in word order: the gate programs that are in effect at each word spread to the words that follow it. -/
def gatePass (ws : List Nat) (succs : List (List Nat)) (ins : List (List Nat)) : List (List Nat) :=
  ws.zipIdx.foldl (fun (ins : List (List Nat)) p =>
    let out := if wOpcode p.1 = 4 then [wDesc p.1] else ins.getD p.2 []
    (succs.getD p.2 []).foldl (fun (ins : List (List Nat)) s => ins.set s ((ins.getD s [] ++ out).eraseDups)) ins) ins

/-- The gate programs that can be in effect when each word issues (R149, R166): a path takes at most one loop's end, the end of the
program and one more loop's end before it reaches a word. -/
def gatesAt (ws : List Nat) : List (List Nat) :=
  let succs := (List.range ws.length).map (wordSuccs ws)
  (List.range 4).foldl (fun ins _ => gatePass ws succs ins) (ws.map (fun _ => []))

/-- Tensors that a word's operation reads and writes through descriptors: indices. -/
def wordTensors (desc : Nat → Rec) (gate : Option Nat) (w : Nat) : List Nat × List Nat :=
  let op := wOpcode w
  let i := wDesc w
  let r := desc i
  let some_ (l : List Nat) : List Nat := l.filter (· != 0xFFFF)
  if op = 2 then
    let g := if mrDrain r then gate.map desc else none
    match g with
    | some g => (some_ [mrAct r, mrWgt r, gpGate g, gpBias g], [gpOut g])
    | none => ([mrAct r, mrWgt r], [])
  else if op = 3 then ([], [i])
  else if op = 5 then
    let f := wFirst w
    (((List.range (epNin r)).filter (fun k => !bit (fld r 37 1) k)).map (f + ·), (List.range (epNout r)).map (fun k => f + epNin r + k))
  else if op = 6 then (some_ [sdXa r, sdXb r, sdCarry r, sdSeg r, sdSegPrev r], some_ [sdY r, sdYa r, sdCarryOut r])
  else if op = 7 then ([fld r 0 2], [fld r 2 2])
  else if op = 8 then (some_ [rdSrc r, rdSrcM r, rdSrcS r], some_ [rdDst r, rdDst2 r, rdDst3 r])
  else if op = 9 then
    (some_ ((if pdMode r = 3 then [] else [pdSrc r]) ++ [pdIdx r]), if pdMode r = 4 ∨ pdMode r = 5 then [] else some_ [pdDst r, pdDst2 r])
  else if op = 0x10 then (some_ [sqSrc r, sqMeta r, sqTable r], [sqDst r])
  else if op = 0x12 then
    let ps := (List.range (fld r 6 1)).map (fun k => (fld (desc (i + 1 + k / 7)) (8 * (k % 7)) 2, fld (desc (i + 1 + k / 7)) (8 * (k % 7) + 2) 2))
    (some_ (fld r 4 2 :: ps.map Prod.snd), ps.map Prod.fst)
  else if op = 0x14 then ((List.range (fld r 2 1)).map (fld r 0 2 + ·), [])
  else if op = 0x15 then ([], (List.range (fld r 2 1)).map (fld r 0 2 + ·))
  else ([], [])

/-- The same for every gate program that can be in effect. -/
def wordTensorsAll (desc : Nat → Rec) (gates : List Nat) (w : Nat) : List Nat × List Nat :=
  let ts := (if gates.isEmpty then [none] else gates.map some).map (fun g => wordTensors desc g w)
  ((ts.flatMap Prod.fst).eraseDups, (ts.flatMap Prod.snd).eraseDups)

/-! ### Program order (R71, R73, R74) -/

/-- Effective offsets do not decrease, stay within END_CYCLE, and a body's next iteration begins no earlier than the last one
ends. -/
def offsetsOk (endCycle : Nat) (ws : List Nat) : Bool :=
  let ls := loopsOf ws
  (List.range ws.length).all (fun i =>
    let mine := ls.find? (fun l => decide (l.1 < i) && decide (i ≤ l.1 + l.2.1))
    let inner := match mine with
      | some l => decide (i < l.1 + l.2.1)
      | none => false
    decide (lastOffset ws i ≤ endCycle) &&
      (decide (ws.length ≤ i + 1) || (if inner then decide (wOffset (ws.getD i 0) ≤ wOffset (ws.getD (i + 1) 0))
        else decide (lastOffset ws i ≤ wOffset (ws.getD (i + 1) 0))))) &&
    ls.all (fun l => l.2.2.1 == 1 || decide (wOffset (ws.getD (l.1 + l.2.1) 0) ≤ wOffset (ws.getD (l.1 + 1) 0) + l.2.2.2))

/-- Loops and branches. -/
def flowOk (ws : List Nat) : Bool :=
  let ls := loopsOf ws
  let last := ws.length - 1
  (wOpcode (ws.getD last 0) == 1 && decide (0 < ws.length)) &&
    ls.all (fun l => decide (1 ≤ bits (wArgs (ws.getD l.1 0)) 17 14) && decide (l.1 + l.2.1 < ws.length) &&
      ((ws.drop (l.1 + 1)).take l.2.1).all (fun w => wOpcode w != 0x0F && wOpcode w != 1)) &&
    ws.zipIdx.all (fun p => wOpcode p.1 != 0x0E ||
      (let b := p.2
       let e := b + brSkip p.1
       decide (1 ≤ brSkip p.1) && decide (brCond p.1 ≤ 5) && decide (e < last) &&
         ((ws.drop (b + 1)).take (brSkip p.1)).all (fun w => wOpcode w != 1) &&
         ls.all (fun l =>
           if l.1 < b ∧ b ≤ l.1 + l.2.1 then decide (e ≤ l.1 + l.2.1)
           else decide (e < l.1) || decide (l.1 + l.2.1 < b) || (decide (b < l.1) && decide (l.1 + l.2.1 ≤ e)))))

/-! ### One word -/

/-- Descriptors with STATS set that store into a tensor (R275). -/
def TaskImg.statsInto (t : TaskImg) (dst : Nat) : Bool :=
  t.descs.any (fun r => (fld r 63 1 == 6 && bit (fld r 7 1) 0 && fld r 2 2 == dst) || (fld r 63 1 == 3 && bit (fld r 11 1) 2 && fld r 0 2 == dst))

/-- The pairs (task, destination) of an image's core that take statistics accumulators, in order (R275). -/
def TaskImg.statPairs (t : TaskImg) : List (Nat × Nat) :=
  ((List.range t.descs.length).filter t.statsInto).map (fun d => (t.task, d))

/-- SUMM sources and indices (R72, R188). -/
def TaskImg.summOk (t : TaskImg) (w : Nat) : Bool :=
  let src := bits (wArgs w) 4 4
  let ix := bits (wArgs w) 8 12
  if src = 0 then decide (ix < t.descs.length) && t.kind ix == 7
  else if src = 1 then decide (ix < t.descs.length) && t.kind ix == 4
  else if src = 2 then decide (ix ≤ 4)
  else src == 3 && decide (ix ≤ 255)

/-- The rules of one word that R71 judges. -/
def TaskImg.wordOk (t : TaskImg) (i : Image) (w : Nat) : Bool :=
  let op := wOpcode w
  let a := wArgs w
  let d := wDesc w
  decide (op ≤ 0x19) && a &&& argMask op == a &&
    (argKind op == 0 || (decide (d < t.descs.length) && t.kind d == argKind op)) &&
    (op != 5 || decide (wFirst w < t.descs.length)) && (op != 9 || pwKind w != 3) &&
    (!(op == 0x0A || op == 0x16) || (t.ring? (bits a 0 8)).isSome) &&
    (op != 0x0B || bit a 24 || (i.placements.any (fun p => placeCore p == bits a 16 8))) &&
    (op != 0x0D || t.summOk w) &&
    (op != 0x17 || i.windows.any (fun x => fld x 0 2 == t.core && fld x 2 1 == bits a 0 4 && bits (fld x 3 1) 0 3 == t.task)) &&
    (op != 0x19 || t.statsInto d)

/-- Rules of the descriptors that a word puts to use: breaches of E_IMG_SECTION. -/
def TaskImg.wordDescOk (t : TaskImg) (i : Image) (w : Nat) (gate : Option Nat) : Bool :=
  let op := wOpcode w
  let d := wDesc w
  if op = 5 then t.eleRunOk i d (wFirst w)
  else if op = 9 then t.pumpKindOk i d (pwKind w)
  else if op = 2 ∧ mrDrain (t.desc d) then
    match gate with
    | none => true
    | some g =>
      let r := t.desc d
      let N := mrN r
      let rows := mrM r
      let fits (x : Nat) (n m : Nat) : Bool := x == absent || (decide (n ≤ tSize (t.desc x) 0) && decide (m ≤ tSize (t.desc x) 1))
      fits (gpOut (t.desc g)) N rows && fits (gpGate (t.desc g)) N rows && fits (gpBias (t.desc g)) N 1
  else true

/-! ### Accumulator entries (R142, R149) -/

/-- Entries of a run: base and count. -/
def runEntries (r : Rec) (w : Nat) : Nat × Nat :=
  (mwBase w, if mrDrain r then mrM r else (mrN r + 31) / 32 * mrM r)

def TaskImg.entryRanges (t : TaskImg) : List (Nat × Nat) :=
  (t.words.filter (fun w => wOpcode w == 2)).map (fun w => runEntries (t.desc (wDesc w)) w)

def TaskImg.entriesOk (t : TaskImg) : Bool :=
  t.entryRanges.all (fun e => decide (e.1 + e.2 ≤ 512)) &&
    t.words.zipIdx.all (fun p => wOpcode p.1 != 2 || !mrDrain (t.desc (wDesc p.1)) || (gateBefore t.words p.2).isSome)

/-- Runs of different tasks of one core name no common entry. -/
def Image.entriesApart (i : Image) : Bool :=
  let ts := i.taskImgs
  ts.all (fun a => ts.all (fun b => a.core != b.core || a.task == b.task ||
    a.entryRanges.all (fun x => b.entryRanges.all (fun y => decide (x.1 + x.2 ≤ y.1) || decide (y.1 + y.2 ≤ x.1)))))

/-! ### The relay (R156) -/

def TaskImg.relayWordOk (t : TaskImg) (w : Nat) : Bool :=
  let d := wDesc w
  let r := t.desc (d + 1)
  let p := chainPos t.core
  wOpcode w != 3 || (t.relayRecOk d && inR (rkHead r) p (rkTail r) && (rkRole r == 1) == (p == rkHead r) && bit (wArgs w) 12 == (p != rkTail r))

/-- The segments of an image: slice, head, tail. -/
def Image.segments (i : Image) : List (Nat × Nat × Nat) :=
  (i.taskImgs.flatMap (fun t => (t.words.filter (fun w => wOpcode w == 3)).map (fun w =>
    (t.core / 64, rkHead (t.desc (wDesc w + 1)), rkTail (t.desc (wDesc w + 1)))))).eraseDups

/-! ### Spans (R275, R327, R345, R346) -/

/-- For the words from the k-th on, the word that opened the span in which each lies; spans open and close by opcode. -/
def inSpans (opens closes : Nat → Bool) : Nat → List Nat → Option Nat → List (Option Nat)
  | _, [], _ => []
  | k, w :: r, cur =>
    if closes w then none :: inSpans opens closes (k + 1) r none
    else if opens w then cur :: inSpans opens closes (k + 1) r (some k)
    else cur :: inSpans opens closes (k + 1) r cur

/-- The SPEC_OPEN of the span in which each word lies. -/
def specSpans (ws : List Nat) : List (Option Nat) :=
  inSpans (fun w => wOpcode w == 0x11) (fun w => wOpcode w == 0x12 || wOpcode w == 0x13) 0 ws none

/-- Words between ADAPT_SPAN begin and end. -/
def adaptSpans (ws : List Nat) : List Bool :=
  (inSpans (fun w => wOpcode w == 0x18 && bit (wArgs w) 0) (fun w => wOpcode w == 0x18 && !bit (wArgs w) 0) 0 ws none).map (·.isSome)

/-- Byte range of a tensor within its place: a ring's slot or the region. -/
def tRange (x : Rec) : Int × Int := ((tAddr x : Int) + (tSpan x).1, (tAddr x : Int) + (tSpan x).2)

/-- Bytes of a task's region that a tensor can take: its own, or every slot of its ring. -/
def TaskImg.reach (t : TaskImg) (x : Rec) : Int × Int :=
  match (if tRing x = 0xFF then none else t.ring? (tRing x)) with
  | some r => ((srBase r : Int), ((srBase r + srSlots r * srBytes r : Nat) : Int))
  | none => tRange x

def TaskImg.sharesBytes (t : TaskImg) (a b : Rec) : Bool :=
  tSpace a == tSpace b && overlaps (t.reach a) (t.reach b)

def within (a b : Rec) : Bool :=
  tSpace a == tSpace b && tRing a == tRing b && decide ((tRange b).1 ≤ (tRange a).1) && decide ((tRange a).2 ≤ (tRange b).2)

/-- A tensor lies in a key–value pool that the task holds (R252: a word of a span stores keys and values in twins). -/
def TaskImg.inPool (t : TaskImg) (i : Image) (x : Rec) : Bool :=
  tSpace x == 0 && tRing x == 0xFF && i.classes.any (fun c => (kvOnTask c t.core t.task).any (fun l =>
    decide ((kvPoolBase l : Int) ≤ (tRange x).1) && decide ((tRange x).2 ≤ ((kvPoolBase l + kvPoolFrames l * kvHpc l * kvPage l : Nat) : Int))))

/-- A word outside some span reads bytes of a range of a space; a RESULT and a play route read their ring. `inside`: words of the span. -/
def TaskImg.readOutside (t : TaskImg) (inside : Nat → Bool) (gs : List (List Nat)) (space : Nat) (x : Int × Int) : Bool :=
  t.words.zipIdx.any (fun p => !inside p.2 &&
    ((wordTensorsAll t.desc (gs.getD p.2 []) p.1).1.any (fun y => tSpace (t.desc y) == space && overlaps x (t.reach (t.desc y))) ||
      (wOpcode p.1 == 0x16 && space == 0 && (match t.ring? (bits (wArgs p.1) 0 8) with
        | some r => overlaps x ((srBase r : Int), ((srBase r + srSlots r * srBytes r : Nat) : Int))
        | none => false))))

/-- A play route drains a ring that takes some bytes of the task's region (R450). -/
def TaskImg.playsFrom (t : TaskImg) (i : Image) (x : Int × Int) : Bool :=
  i.routes.any (fun q => fld q 0 1 == 4 && fld q 2 1 == 1 && fld q 10 2 == t.core && fld q 9 1 == t.task && (match t.ring? (fld q 12 2) with
    | some r => overlaps x ((srBase r : Int), ((srBase r + srSlots r * srBytes r : Nat) : Int))
    | none => false))

/-- Other tasks of the device read bytes of the well or the deep well. -/
def Image.readElsewhere (i : Image) (t : TaskImg) (space : Nat) (x : Int × Int) : Bool :=
  decide (space = 1 ∨ space = 2) && i.taskImgs.any (fun o => !(o.core == t.core && o.task == t.task) && o.readOutside (fun _ => false) (gatesAt o.words) space x)

/-- The destination of a PUMP word lies on this device: it does but for a link pump whose route leads elsewhere (R485). -/
def Image.landsHere (i : Image) (word : Nat) (r : Rec) : Bool :=
  pwKind word != 2 || (i.origin (pdRoute r)).any (fun o => fld o 4 2 == i.deviceIndex)

/-- The windows of this device that a transfer of a task into SPACE 3 can write: the one that a link pump's descriptor names, and, since a local
pump's descriptor names none, every window of another core that admits the core (entry 120). -/
def Image.windowsOf (i : Image) (t : TaskImg) (word : Nat) (r : Rec) : List Rec :=
  if !i.landsHere word r then []
  else if pwKind word = 2 then i.windows.filter (fun x => fld x 0 2 == pdDstCore r && fld x 2 1 == pdWindow r)
  else i.windows.filter (fun x => fld x 0 2 != t.core && decide (fld x 12 2 ≤ i.deviceIndex) && decide (i.deviceIndex ≤ fld x 14 2) &&
    bit (fld x (16 + t.core / 8) 1) (t.core % 8))

/-- What a window and an offset in it place in the owning task's region. -/
def windowRange (w x : Rec) : Int × Int := ((fld w 4 4 : Int) + (tRange x).1, (fld w 4 4 : Int) + (tRange x).2)

/-- What a word of a span pumps through a window of this device is read there in spans alone (R327). -/
def Image.remoteTemp (i : Image) (w x : Rec) : Bool := match i.task? (fld w 0 2) (bits (fld w 3 1) 0 3) with
  | none => true
  | some o =>
    let sp := specSpans o.words
    !o.readOutside (fun k => (sp.getD k none).isSome) (gatesAt o.words) 0 (windowRange w x) && !o.playsFrom i (windowRange w x)

/-- Words of speculation spans keep to R327. -/
def TaskImg.specSpansOk (t : TaskImg) (i : Image) : Bool :=
  let sp := specSpans t.words
  let ws := t.words.zipIdx
  let span (k : Nat) : Option Nat := (sp.getD k none)
  let gs := gatesAt t.words
  let ten (k : Nat) (w : Nat) : List Nat × List Nat := wordTensorsAll t.desc (gs.getD k []) w
  ws.all (fun p => match span p.2 with
    | none => true
    | some o =>
      let d := wDesc (t.words.getD o 0)
      let r := t.desc d
      let shadows := (List.range (fld r 6 1)).map (fun k => fld (t.desc (d + 1 + k / 7)) (8 * (k % 7) + 2) 2)
      let op := wOpcode p.1
      (op != 0x16 || bit (wArgs p.1) 8) && op != 0x14 && op != 0x19 && op != 0x11 &&
        !(op == 7 && bit (fld (t.desc (wDesc p.1)) 7 1) 0) &&
        !(op == 4 && bit (gpFlags (t.desc (wDesc p.1))) 2) &&
        !(op == 2 && mrDrain (t.desc (wDesc p.1)) && ((gs.getD p.2 []).any (fun g => bit (gpFlags (t.desc g)) 2))) &&
        (ten p.2 p.1).2.all (fun y =>
          let pd := t.desc (wDesc p.1)
          if tSpace (t.desc y) = 3 then op != 9 || (i.windowsOf t p.1 pd).all (fun x => i.remoteTemp x (t.desc y))
          else if op = 9 ∧ !i.landsHere p.1 pd then true
          else shadows.any (fun s => s == y || within (t.desc y) (t.desc s)) || t.inPool i (t.desc y) ||
            (!t.readOutside (fun k => span k == some o) gs (tSpace (t.desc y)) (t.reach (t.desc y)) &&
              !i.readElsewhere t (tSpace (t.desc y)) (t.reach (t.desc y)) && !(tSpace (t.desc y) == 0 && t.playsFrom i (t.reach (t.desc y)))))) &&
    -- SKIND 0 in a SPEC_COMMIT
    t.words.all (fun w => wOpcode w != 0x12 || fld (t.desc (wDesc w)) 0 1 != 0)

/-- A serving word of a task pumps into the bytes of an adapter's tensor, through a window of this device or to the well or the deep well. -/
def Image.pumpsInto (i : Image) (t o : TaskImg) (word : Nat) (y : Rec) : Bool :=
  let r := t.desc (wDesc word)
  wOpcode word == 9 && pdMode r != 4 && pdMode r != 5 &&
    (if tSpace (t.desc (pdDst r)) = 3 then (i.windowsOf t word r).any (fun w => fld w 0 2 == o.core && bits (fld w 3 1) 0 3 == o.task && tSpace y == 0 &&
        overlaps (windowRange w (t.desc (pdDst r))) (o.reach y))
     else !(t.core == o.core && t.task == o.task) && tSpace (t.desc (pdDst r)) != 0 && i.landsHere word r && tSpace (t.desc (pdDst r)) == tSpace y &&
        overlaps (t.reach (t.desc (pdDst r))) (o.reach y))

/-- Serving words of every task keep to R345 for the adapters of all tasks. -/
def TaskImg.adaptersApart (t : TaskImg) (i : Image) : Bool :=
  let sp := adaptSpans t.words
  t.words.zipIdx.all (fun p => sp.getD p.2 false || i.adapters.all (fun a => match i.task? (fld a 4 2) (fld a 6 1) with
    | none => true
    | some o => (List.range 16).all (fun k => !i.pumpsInto t o p.1 (o.desc (fld a 18 2 + k)))))

/-- Serving words keep to R345. -/
def TaskImg.adaptersOk (t : TaskImg) (i : Image) : Bool :=
  let sp := adaptSpans t.words
  let gs := gatesAt t.words
  let mine := i.adapters.filter (fun a => fld a 4 2 == t.core && fld a 6 1 == t.task)
  t.words.zipIdx.all (fun p => sp.getD p.2 false ||
    (let ten := wordTensorsAll t.desc (gs.getD p.2 []) p.1
     mine.all (fun a =>
       let f := fld a 18 2
       (wOpcode p.1 != 2 || (mrWgt (t.desc (wDesc p.1)) != f + 4 && mrWgt (t.desc (wDesc p.1)) != f + 5)) &&
         ten.2.all (fun y => (List.range 16).all (fun k => !t.sharesBytes (t.desc y) (t.desc (f + k)))))))

/-! ### Occupancy (R134, R144, R177, R183, R187, R190) -/

/-- Cycles per step. -/
def stepCycles (strict : Bool) (f : Nat) : Nat :=
  if f = 1 ∨ f = 2 then (if strict then 64 else 4) else if strict then 16 else 1

def cdiv (a b : Nat) : Nat := (a + b - 1) / b

/-- Occupancy of a matrix run, from the issue of its word; the two cycles before the first fill are not occupancy. -/
def TaskImg.matOcc (t : TaskImg) (strict : Bool) (r : Rec) : Nat :=
  let N := mrN r
  let rr := rawRow (tFmt (t.desc (mrWgt r))) (mrK r)
  let P := cdiv N 32
  let C := cdiv (mrK r) 64 * max (mrM r * stepCycles strict (fld r 4 1)) 11
  let F (p : Nat) : Nat := if p < P then cdiv (min 32 (N - 32 * p) * rr) 128 else 0
  F 0 + ((List.range P).map (fun p => max C (F (p + 1)))).foldl (· + ·) 0

/-- Bytes of n elements of a format. -/
def elemBytes (f : Fmt) (n : Nat) : Nat := if f == .int4 then cdiv n 2 else n * f.size

def laneWidth (tys : List Nat) : Nat :=
  if tys.any (fun y => y == 0 || y == 1) then 64 else if tys.any (fun y => y == 2 || y == 3) then 128 else 256

/-- Cycles of an element program (R50): every input counts W elements, a broadcast one too (DESIGN CHOICE, entry 30). -/
def TaskImg.eleOcc (t : TaskImg) (d f : Nat) : Nat :=
  let r := t.desc d
  if fld r 35 1 = 1 then 16 + cdiv (tSize (t.desc (f + 2)) 0) 64 * cdiv (tSize (t.desc f) 0) 8
  else
    let us := t.uops d
    let W := laneWidth (us.map (·.ty))
    let sz (k : Nat) : Nat := elemBytes (tFmt (t.desc (f + k))) W
    let bi := ((List.range (epNin r)).map sz).foldl (· + ·) 0
    let bo := ((List.range (epNout r)).map (fun k => sz (epNin r + k))).foldl (· + ·) 0
    12 + cdiv (tCount (t.desc (f + epNin r))) W * max us.length (max (cdiv bi 256) (cdiv bo 256))

def TaskImg.scanOcc (t : TaskImg) (strict : Bool) (d : Nat) : Nat :=
  let r := t.desc d
  let x := t.desc (sdXa r)
  let T := tSize x 0
  let R := tCount x / max 1 T
  let k := if sdComp r then 21 else if sdOp r = 2 then 2 else 1
  if strict then 16 + cdiv R 64 * T * 16 * k
  else if T ≤ 64 then
    let P := 2 ^ Nat.log2 (2 * T - 1)
    16 + cdiv (R * P) 64 * (Nat.log2 P + 1) * k
  else 16 + R * cdiv T 64 * 7 * k

def fmtWidth (f : Fmt) : Nat := if f.bits ≤ 8 then 256 else if f.bits ≤ 16 then 128 else 64

def TaskImg.convOcc (t : TaskImg) (d : Nat) : Nat :=
  let s := t.desc (fld (t.desc d) 0 2)
  12 + cdiv (tCount s) (min (fmtWidth (tFmt s)) (fmtWidth (tFmt (t.desc (fld (t.desc d) 2 2)))))

def TaskImg.redOcc (t : TaskImg) (d : Nat) : Nat :=
  let r := t.desc d
  (16 + cdiv (tCount (t.desc (rdSrc r))) 64) * (if rdOp r = 4 ∨ rdOp r = 5 then 2 else 1)

/-- Engine occupancy of a word; none for a word that starts no engine operation of R50. -/
def TaskImg.occ (t : TaskImg) (strict : Bool) (w : Nat) : Option Nat :=
  let op := wOpcode w
  let d := wDesc w
  if op = 2 then some (t.matOcc strict (t.desc d))
  else if op = 5 then some (t.eleOcc d (wFirst w))
  else if op = 6 then some (t.scanOcc strict d)
  else if op = 7 then some (t.convOcc d)
  else if op = 8 then some (t.redOcc d)
  else none

/-- R346: the matrix time of a task's adaptation spans. -/
def TaskImg.shareOk (t : TaskImg) (i : Image) : Bool :=
  let sp := adaptSpans t.words
  let ls := loopsOf t.words
  let sum := (t.words.zipIdx.map (fun p =>
    if sp.getD p.2 false ∧ wOpcode p.1 = 2 then
      let n := match ls.find? (fun l => decide (l.1 < p.2) && decide (p.2 ≤ l.1 + l.2.1)) with
        | some l => l.2.2.1
        | none => 1
      n * t.matOcc t.strict (t.desc (wDesc p.1))
    else 0)).foldl (· + ·) 0
  decide (sum * 100 ≤ i.adaptShare * i.endCycle)

/-! ### All programs -/

/-- Breaches of E_IMG_SCHEDULE. -/
def Image.schedOk (i : Image) : Bool :=
  decide (i.endCycle ≤ 866250 * i.roundLen) && i.entriesApart &&
    i.taskImgs.all (fun t => flowOk t.words && offsetsOk i.endCycle t.words && t.words.all (fun w => t.wordOk i w && t.relayWordOk w) &&
      t.entriesOk && t.specSpansOk i && t.adaptersOk i && t.adaptersApart i && t.shareOk i)

/-- Breaches of E_IMG_SECTION that a word's use of a descriptor makes. -/
def Image.wordDescsOk (i : Image) : Bool :=
  i.taskImgs.all (fun t =>
    let gs := gatesAt t.words
    t.words.zipIdx.all (fun p => (match gs.getD p.2 [] with
      | [] => [none]
      | l => l.map some).all (fun g => t.wordDescOk i p.1 g)))

/-- No FP32 or BF16 arithmetic micro-operation of a STRICT task, CVT, ST and the compares (whose results are integers) apart, selects RTZ or SR (R116). -/
def TaskImg.strictRoundOk (t : TaskImg) : Bool :=
  !t.strict || (List.range t.descs.length).all (fun d => t.kind d != 4 ||
    (t.uops d).all (fun u => inR 0x0A u.op 0x0C || u.op == 0x12 || u.op == 0x14 || u.rm == 0 || !(u.ty == 0 || u.ty == 2)))

/-- Breaches of E_IMG_MODE (R50, R116): a transfer into a slot ring over a BULK route; STRICT beyond END_CYCLE; STRICT rounding. -/
def Image.modeOk (i : Image) : Bool :=
  i.taskImgs.all (fun t => t.strictRoundOk && t.words.zipIdx.all (fun p =>
    let r := t.desc (wDesc p.1)
    let bulk := match i.origin (pdRoute r) with
      | some o => fld o 1 1 == 1
      | none => false
    !(wOpcode p.1 == 9 && pwKind p.1 == 2 && bulk && tRing (t.desc (pdDst r)) != 0xFF) &&
      (!t.strict || (match t.occ true p.1 with
        | some n => decide (lastOffset t.words p.2 + n ≤ i.endCycle)
        | none => true))))

end Sys2Proof.Machine
end

