-- ==== Sys2Proof/Machine/Checks.lean ====
section
/-! DEFINITION. Machine/Checks.lean: the checks of R79 steps 1 to 5 over a structure image, each with its refusal code (R52 to R68, R80,
R82, R233, R265 to R275, R280, R294, R307, R308, R343, R344, R362, R435, R436, R450, R451, R484 to R488, R547, R552, R561, R564). -/

namespace Sys2Proof.Machine

def eImgVersion : Nat := 0x0201
def eImgSection : Nat := 0x0202
def eImgDigest : Nat := 0x0203
def eImgSignature : Nat := 0x0204
def eImgDevice : Nat := 0x0205
def eImgRound : Nat := 0x0206
def eImgSchedule : Nat := 0x0207
def eImgMode : Nat := 0x0208
def eImgOverlap : Nat := 0x0209
def eImgResource : Nat := 0x020A

/-! ### Step 1: header and section table (R52 to R58) -/

def imgVersionOk (bs : Bytes) : Bool :=
  imgMajor bs == 1 && decide (imgMinor bs ≤ 1) && !(imgMinor bs == 0 && bit (leAt bs 37 1) 1)

def secTypeOk (minor ty : Nat) : Bool := inR 1 ty (if minor = 0 then 0xD else 0xE)

/-- Header fields and lengths. -/
def imgHeaderOk (bs : Bytes) : Bool :=
  let n := imgSections bs
  let flags := leAt bs 37 1
  let share := leAt bs 38 1
  decide (128 ≤ bs.length) && inR 1 n 64 && leAt bs 16 8 == bs.length && decide (bs.length ≤ 2 ^ 30) && decide (128 + 64 * n + 2560 ≤ bs.length) &&
    zerosAt bs 12 4 && inR 1 (leAt bs 34 2) 512 && decide (leAt bs 32 2 < leAt bs 34 2) && inR 2 (leAt bs 36 1) 80 && decide (flags < 16) &&
    (if bit flags 1 then inR 1 share 15 else share == 0) && zerosAt bs 39 1 && zerosAt bs 56 8 && zerosAt bs 96 32

/-- The section table: entries in ascending order, apart, each type once, zeros between. -/
def imgTableOk (bs : Bytes) : Bool :=
  let es := secTable bs
  let start := 128 + 64 * imgSections bs
  let stop := bs.length - 2560
  let ends := es.foldl (fun (a : Nat × Bool) e =>
    (e.off + e.len, a.2 && decide (a.1 ≤ e.off) && zerosAt bs a.1 (e.off - a.1))) (start, true)
  es.all (fun e => e.ver == 1 && e.zero && e.off % 64 == 0 && decide (e.off + e.len ≤ stop) && secTypeOk (imgMinor bs) e.type) &&
    (es.map (·.type)).eraseDups.length == es.length && ends.2 && decide (ends.1 ≤ stop) && zerosAt bs ends.1 (stop - ends.1)

/-- The signature trailer (R56). -/
def imgTrailerOk (bs : Bytes) : Bool :=
  let t := imgTrailer bs
  decide (leAt t 0 2 ≤ 3) && leAt t 2 2 == 2420 && zerosAt t 4 4 && zerosAt t 2428 132

/-- Cores that a mask names. -/
def maskCores (m : Nat) : List Nat := (List.range 256).filter (bit m)

/-- Cores of jobs other than j, with those reserved for their spares (R561). -/
def Dev.otherCores (d : Dev) (j : Nat) : List Nat :=
  (d.jobs.filter (fun p => p.1 != j)).flatMap (fun p => p.2.cores ++ maskCores p.2.spares)

/-! ### Step 3: the signature (R57) -/

def imgSigned (d : Dev) (bs : Bytes) : Bool :=
  let t := imgTrailer bs
  let k := leAt t 0 2
  bit d.trust.usable k && mldsaVerify (d.trust.keys.getD k []) (imgDigest bs) (sliceZ t 8 2420)

/-! ### Step 4: sections -/

/-- Sections whose length is a whole number of entries. -/
def imgSizesOk (bs : Bytes) : Bool :=
  let m (ty n : Nat) : Bool := (secBytes bs ty).length % n == 0
  m 1 64 && m 2 64 && m 3 32 && m 4 32 && m 5 48 && m 6 64 && m 7 80 && m 8 1032 && m 0xA 8

/-- Required sections (R59). -/
def imgRequired (bs : Bytes) : Bool :=
  [1, 2, 4, 6, 8, 0xA, 0xB, 0xD].all (hasSec bs) && (bits (leAt bs 37 1) 2 2 == 0 || hasSec bs 0xC) &&
    (!bit (leAt bs 37 1) 1 || hasSec bs 0xE)

/-- PLACEMENT (R60, R61). -/
def Image.placementsOk (i : Image) : Bool :=
  i.placements.all (fun p =>
    decide (placeCore p ≤ 255) && decide (placeTask p ≤ 7) && decide (plMode p < 4) && plBase p % 64 == 0 && plBound p % 64 == 0 &&
      decide (plBase p < plBound p) && decide (plBound p ≤ Config.cisternBytes) && plSchedOff p % 8 == 0 && inR 1 (plSchedWords p) 32768 &&
      decide (plSchedOff p / 8 + plSchedWords p ≤ i.sched.length) && inR 1 (plDescCount p) 4096 &&
      decide (plDescFirst p + plDescCount p ≤ i.descs.length) && rz p 28 36 &&
      decide (plSchedAddr p + 8 * plSchedWords p ≤ plBound p - plBase p)) &&
    i.placements.zipIdx.all (fun a => i.placements.zipIdx.all (fun b => decide (b.2 ≤ a.2) || placeCore a.1 != placeCore b.1 ||
      (placeTask a.1 != placeTask b.1 && (decide (plBound a.1 ≤ plBase b.1) || decide (plBound b.1 ≤ plBase a.1))))) &&
    (List.range 256).all (fun c => bit i.coreMask c == i.placements.any (fun p => placeCore p == c))

def Image.hasTask (i : Image) (c t : Nat) : Bool := i.placements.any (fun p => placeCore p == c && placeTask p == t)

/-- Bytes of a task's region. -/
def Image.regionOf (i : Image) (c t : Nat) : Nat := match i.task? c t with
  | some x => x.region
  | none => 0

/-- BANK_ROLES (R362): codes, and one role per bank group of 4 near or 2 deep banks. -/
def Image.rolesOk (i : Image) : Bool :=
  i.bankRoles.all (fun r =>
    let role (b : Nat) : Nat := fld r (8 + b) 1
    decide (fld r 0 2 ≤ 255) && rz r 2 6 && rz r 56 8 &&
      (List.range 48).all (fun b => decide (role b ≤ 1) && (if b < 16 then role b == role (b / 4 * 4) else role b == role (b / 2 * 2))))

/-- SLOT_RINGS (R64, R65). -/
def Image.ringsOk (i : Image) : Bool :=
  i.rings.all (fun r =>
    decide (srRing r ≤ 254) && i.hasTask (srCore r) (srTask r) && decide (1 ≤ srSlots r) && decide (srFirst r + srSlots r ≤ 1024) &&
      srBytes r % 64 == 0 && decide (srBase r + srSlots r * srBytes r ≤ i.regionOf (srCore r) (srTask r)) && decide (fld r 16 1 ≤ 1) &&
      (if srElastic r then inR 1 (srBudget r) 255 else srBudget r == 0) && decide (srSource r ≤ 5) && decide (srConsumer r ≤ 5) &&
      (srElastic r || decide (srSource r ≤ 1)) && rz r 28 4) &&
    i.rings.zipIdx.all (fun a => i.rings.zipIdx.all (fun b => decide (b.2 ≤ a.2) || srCore a.1 != srCore b.1 ||
      (!(srTask a.1 == srTask b.1 && srRing a.1 == srRing b.1) &&
        (decide (srFirst a.1 + srSlots a.1 ≤ srFirst b.1) || decide (srFirst b.1 + srSlots b.1 ≤ srFirst a.1)))))

/-- WINDOWS (R66). -/
def Image.windowsOk (i : Image) : Bool :=
  i.windows.all (fun w =>
    let owner := bits (fld w 3 1) 0 3
    i.hasTask (fld w 0 2) owner && decide (fld w 2 1 ≤ 15) && bits (fld w 3 1) 3 4 == 0 && decide (fld w 4 4 < fld w 8 4) &&
      decide (fld w 8 4 ≤ i.regionOf (fld w 0 2) owner) && decide (fld w 12 2 ≤ fld w 14 2) && decide (fld w 14 2 < i.fabricSize)) &&
    (i.windows.map (fun w => (fld w 0 2, fld w 2 1))).eraseDups.length == i.windows.length

/-- TALLIES (R59, R68). -/
def talliesOk (bs : Bytes) : Bool :=
  (chunks 1032 (secBytes bs 8)).all (fun c => decide (leAt c 0 2 ≤ 255) && zerosAt c 2 6 && (chunks 4 (c.drop 8)).all (fun v => decide (leNat v < 2 ^ 20)))

/-- PEAT_TABLES (R435). -/
def Image.peatOk (i : Image) : Bool :=
  i.peat.all (fun e =>
    let c := leAt e 0 2
    let t := leAt e 6 1
    let ew := leAt e 4 1
    i.hasTask c t && inR 1 (leAt e 2 2) 65535 && decide (ew ≤ 2) && decide (leAt e 5 1 ≤ 1) && zerosAt e 7 1 && leAt e 8 4 % 64 == 0 &&
      decide (leAt e 8 4 + 64 ≤ i.regionOf c t) && zerosAt e 12 4 && zerosAt e (16 + 16 * 2 ^ ew) (64 - 16 * 2 ^ ew) &&
      decide ((i.peat.filter (fun x => leAt x 0 2 == c && bit (leAt x 5 1) 0)).length ≤ 4))

/-- WELL_MAP (R436). -/
def Image.wellMapOk (i : Image) (bs : Bytes) : Bool :=
  let wm := secBytes bs 0xB
  let inRange (space a n : Nat) : Bool := (i.spaceRanges space).any (fun r => decide (r.1 ≤ a) && decide (a + n ≤ r.1 + r.2))
  decide (16 ≤ wm.length) && zerosAt wm 8 8 && wm.length == 16 + 16 * leAt wm 0 2 + 64 * leAt wm 2 2 + 32 * leAt wm 4 2 + 8 * leAt wm 6 2 &&
    i.ranges.all (fun r => fld r 0 6 % 65536 == 0 && inR 1 (fld r 6 2) 2 && fld r 8 8 % 65536 == 0) &&
    i.objects.all (fun o => bits (fld o 0 8) 51 13 == 0 && inR 1 (obSpace o) 2 && inRange (obSpace o) (obAddr o) (obLen o) &&
      decide (obKind o ≤ 3) && rz o 17 1 && (if obKind o = 1 then decide (obCore o ≤ 255) else obCore o == 0xFFFF) && rz o 20 12) &&
    i.pools.all (fun p => decide (fld p 2 1 ≤ 3) && rz p 3 5 && inRange 1 (fld p 8 8) (((List.range 4).map (fun k => fld p (16 + 4 * k) 4 * peatSize k)).foldl (· + ·) 0)) &&
    i.regulators.all (fun r => i.placements.any (fun p => placeCore p == fld r 0 2) && inR 1 (fld r 2 2) 4095 && inR 4 (fld r 4 4) 65535)

/-- SEEDS (R294). -/
def Image.seedsOk (i : Image) (bs : Bytes) : Bool :=
  let s := secBytes bs 9
  !i.hasSeeds || (decide (16 ≤ s.length) && zerosAt s 11 1 && decide (leAt s 12 2 ≤ 2048) && s.length == 16 + 8 * leAt s 12 2 && zerosAt s 14 2 &&
    i.bindings.all (fun b => decide (fld b 0 2 ≤ 255) && decide (fld b 2 1 ≤ 7) && decide (fld b 3 1 ≤ 239) && decide (fld b 4 1 ≤ 1) &&
      (decide (fld b 5 1 ≤ 3) || fld b 5 1 == 0xFF) && (decide (fld b 6 1 ≤ 3) || fld b 6 1 == 0xFF) && (fld b 5 1 == 0xFF || fld b 5 1 != fld b 6 1) &&
      decide (fld b 7 1 ≤ 63)) &&
    (i.bindings.map (fun b => (fld b 0 2, fld b 2 1, fld b 3 1))).eraseDups.length == i.bindings.length)

/-- A KV layer entry (R232, R233). -/
def Image.kvOk (i : Image) (l : Rec) : Bool :=
  let cs := kvCores l
  let size := kvPoolFrames l * kvHpc l * kvPage l
  [1, 3, 4].contains (fld l 1 1) && inR 1 (fld l 2 1) 8 && inR 1 (kvHeads l) 64 && inR 1 (fld l 4 1) 16 && inR 1 (kvHpc l) 8 && inR 1 (kvSplit l) 16 &&
    inR 1 (kvReach l) 16 && inR 1 (kvRangePages l) 512 && inR 1 (kvMaxPages l) 8192 && decide (fld l 12 1 < 8) && decide (kvTask l ≤ 7) && rz l 15 1 &&
    (if kvWindow l then inR 1 (kvWindowTok l) 131072 && decide (kvWindowTok l + 16 * kvReach l ≤ 16 * kvMaxPages l) else kvWindowTok l == 0) &&
    decide (fld l 20 2 ≤ 4095) && rz l 56 8 && decide (kvMaxPages l ≤ kvSplit l * kvRangePages l) &&
    cs.all (fun c => c / 64 == kvCore0 l / 64 && (match i.task? c (kvTask l) with
      | some t => decide (kvPoolBase l + size ≤ t.region) && (kvPoolFrames l == 0 || decide (0x100000 ≤ plBase t.pl + kvPoolBase l)) &&
          (!bit (fld l 12 1) 2 || (decide (fld l 22 2 < t.descs.length) && t.engT (fld l 22 2) && tFmt (t.desc (fld l 22 2)) == .fp32 &&
            tSize (t.desc (fld l 22 2)) 0 == 2 * fld l 20 2 + 1 && tSize (t.desc (fld l 22 2)) 1 == fld l 4 1 * kvHpc l))
      | none => false))

/-- STREAM_CLASSES (R307, R308). -/
def Image.classesOk (i : Image) (bs : Bytes) : Bool :=
  classesLen i.classes == (secBytes bs 0xD).length &&
    i.classes.all (fun x =>
      let c := x.1
      let f (o : Nat) : Nat := fld c o 1
      let tok := f 1 == 1
      decide (f 1 ≤ 1) && (if tok then f 2 == 0 && f 3 == 1 else [1, 2, 4].contains (f 2) && inR 1 (f 3) 32) && inR 1 (f 4) 4 && decide (f 5 ≤ 1) &&
        decide (f 6 < 16) && inR 1 (f 8) 8 && inR (f 8) (f 9) 8 && inR (f 8) (f 10) (f 9) && decide (f 11 ≤ 64) && decide (f 12 ≤ 16) && inR 1 (f 13) 8 &&
        inR 1 (f 15) 16 && decide (f 16 ≤ 63) && inR (f 16) (f 17) 63 && decide (f 18 ≤ 15) && i.hasTask (fld c 20 2) (f 19) && rz c 22 2 &&
        decide (fld c 32 4 ≤ fld c 28 4) && decide (fld c 36 4 + (f 17 - f 16 + 1) * 17920 ≤ i.regionOf (fld c 20 2) (f 19)) &&
        fld c 48 4 % 64 == 0 && decide (128 ≤ fld c 48 4) && (match i.objects[fld c 52 4]? with
          | some o => obKind o == 2
          | none => false) && rz c 56 8 &&
        x.2.1.all i.kvOk && (x.2.1.map kvLayer).eraseDups.length == x.2.1.length && x.2.2.all (fun b => rz b 6 2) &&
        (x.2.2.zip (x.2.2.drop 1)).all (fun p => decide (fld p.1 0 4 < fld p.2 0 4)) &&
        (!tok || !bit (f 6) 0) && (tok || !bit (f 6) 1) && (tok || decide (i.roundLen ≤ f 2 * 10 * f 3))) &&
    (i.classes.map (fun x => fld x.1 0 1)).eraseDups.length == i.classes.length &&
    i.classes.zipIdx.all (fun a => i.classes.zipIdx.all (fun b => decide (b.2 ≤ a.2) || decide (fld a.1.1 17 1 < fld b.1.1 16 1) ||
      decide (fld b.1.1 17 1 < fld a.1.1 16 1)))

/-- ADAPTERS (R343, R344). -/
def Image.adapterOk (i : Image) (a : Rec) : Bool :=
  match i.task? (fld a 4 2) (fld a 6 1) with
  | none => false
  | some t =>
    let f := fld a 18 2
    let rank := fld a 1 1
    let din := fld a 8 2
    let dout := fld a 10 2
    let na := din * rank
    let nb := rank * dout
    let run : Fmt := if fld a 2 1 = 1 then .bf16 else .e4m3
    let is2 (k : Nat) (fm : Fmt) (p q : Nat) : Bool :=
      let x := t.desc (f + k)
      tFmt x == fm && tNdim x == 2 && tSize x 0 == p && tSize x 1 == q
    let is1 (k : Nat) (fm : Fmt) (n : Nat) : Bool :=
      let x := t.desc (f + k)
      tFmt x == fm && tNdim x == 1 && tSize x 0 == n
    let bound (p : Nat) : Bool := i.bindings.any (fun b => fld b 0 2 == t.core && fld b 2 1 == t.task && fld b 3 1 == p && fld b 5 1 == 0xFF)
    decide (fld a 0 1 ≤ 63) && inR 1 rank 64 && [1, 3].contains (fld a 2 1) && decide (fld a 3 1 ≤ 1) && inR 32 din 4096 && din % 32 == 0 &&
      inR 32 dout 4096 && dout % 32 == 0 && decide (1 ≤ fld a 12 1) && inR (fld a 14 2) (fld a 16 2) 32767 && inR 1 (fld a 20 4) 0x7F800000 &&
      decide (fld a 24 4 < 0x3F800000) && decide (fld a 28 4 < 0x3F800000) && decide (fld a 32 4 ≤ 0x7F800000) && decide (fld a 40 4 ≤ 0x3F800000) &&
      inR 1 (fld a 44 2) 4096 && rz a 46 18 && decide (f + 16 ≤ t.descs.length) &&
      (List.range 16).all (fun k => t.engT (f + k) && !tPeat (t.desc (f + k))) && is2 0 .bf16 din rank && is2 1 .bf16 rank dout && is2 2 run din rank && is2 3 run rank dout && is2 4 run din rank &&
      is2 5 run rank dout && tFmt (t.desc (f + 6)) == .fp32 && tCount (t.desc (f + 6)) == na && tFmt (t.desc (f + 7)) == .fp32 && tCount (t.desc (f + 7)) == nb &&
      is1 8 .int8 na && is1 9 .fp32 (na / 32) && is1 10 .int8 nb && is1 11 .fp32 (nb / 32) && is1 12 .int8 na && is1 13 .fp32 (na / 32) && is1 14 .int8 nb &&
      is1 15 .fp32 (nb / 32) && bound (fld a 7 1) && bound (fld a 7 1 + 1) && bound (fld a 7 1 + 2) &&
      -- the points that the update draws for (R295, R352)
      [8, 10, 12, 14].all (fun k => i.drawOk t (fld a 7 1) (tSize (t.desc (f + k)))) && [0, 1].all (fun k => i.drawOk t (fld a 7 1 + 1) (tSize (t.desc (f + k))))

def Image.adaptersValid (i : Image) (bs : Bytes) : Bool :=
  let s := secBytes bs 0xE
  !hasSec bs 0xE || (decide (16 ≤ s.length) && inR 1 (leAt s 0 2) 64 && zerosAt s 2 14 && s.length == 16 + 64 * leAt s 0 2 && i.adapters.all i.adapterOk &&
    (i.adapters.map (fun a => fld a 0 1)).eraseDups.length == i.adapters.length)

/-! ### Routes (R450, R451, R484 to R487) -/

def prPort (r : Rec) : Nat := fld r 1 1
def prDir (r : Rec) : Nat := fld r 2 1
def prEnc (r : Rec) : Nat := fld r 3 1
def prFirst (r : Rec) : Nat := fld r 4 1
def prChans (r : Rec) : Nat := fld r 5 1
def prRate (r : Rec) : Nat := fld r 6 1
def prWidth (r : Rec) : Nat := fld r 7 1
def prPack (r : Rec) : Bool := bit (fld r 8 1) 0
def prTask (r : Rec) : Nat := fld r 9 1
def prCore (r : Rec) : Nat := fld r 10 2
def prRing (r : Rec) : Nat := fld r 12 2
def prCap (r : Rec) : Nat := fld r 14 2

/-- The port routes of an image, in order. -/
def Image.portRoutes (i : Image) : List Rec := i.routes.filter (fun r => fld r 0 1 == 4)

/-- Bytes per sample in memory (R447). -/
def encBytes (enc : Nat) (pack : Bool) : Nat := if enc ≤ 2 then 2 else if enc = 3 then (if pack then 4 else 3) else 4

/-- Slot widths of an encoding, as TDM_CTL codes (R447). -/
def encWidthOk (enc width : Nat) : Bool :=
  if enc ≤ 1 then decide (width ≤ 3) else if enc = 2 then inR 1 width 3 else if enc = 3 then inR 2 width 3 else enc == 4 && width == 3

/-- S, Sm and the block size of a route (R452, R455). -/
def prS (r : Rec) : Nat := (prCap r * encBytes (prEnc r) (prPack r) + 63) / 64 * 64
def prSm (r : Rec) : Nat := (prCap r + 511) / 512 * 64
def prBlock (r : Rec) : Nat :=
  if prDir r = 0 then prChans r * prS r + prChans r * prSm r + 64 + (2 * prChans r + 63) / 64 * 64 else prChans r * prS r

/-- Twice the frames of a round: rate × round length in units of 0.5 ms. -/
def framesX2000 (i : Image) (rate : Nat) : Nat := tdmHz rate * i.roundLen

def Image.portRouteOk (i : Image) (r : Rec) : Bool :=
  let f := framesX2000 i (prRate r)
  decide (prPort r ≤ 15) && decide (prDir r ≤ 1) && encWidthOk (prEnc r) (prWidth r) && decide (prFirst r ≤ 127) && inR 1 (prChans r) 64 &&
    decide (prFirst r + prChans r ≤ 128) && decide (prRate r ≤ 3) && decide (fld r 8 1 ≤ 1) && rz r 16 16 && prCore r / 64 == prPort r / 4 &&
    decide (prCore r ≤ 255) &&
    (match i.rings.find? (fun x => srRing x == prRing r && srCore x == prCore r && srTask x == prTask r) with
      | some x => (if prDir r = 0 then srSource x == 2 && srProducer x == prPort r else srSource x == 0 && srConsumer x == 4) && decide (prBlock r ≤ srBytes x)
      | none => false) &&
    (if prDir r = 0 then decide (cdiv (102 * f) (100 * 2000) + 2 ≤ prCap r) else decide (prCap r * 2000 = f))

def Image.portRoutesOk (i : Image) : Bool :=
  let rs := i.portRoutes
  rs.all i.portRouteOk &&
    rs.zipIdx.all (fun a => rs.zipIdx.all (fun b => decide (b.2 ≤ a.2) || prPort a.1 != prPort b.1 ||
      (prEnc a.1 == prEnc b.1 && prPack a.1 == prPack b.1 && (prDir a.1 != prDir b.1 || decide (prFirst a.1 + prChans a.1 ≤ prFirst b.1) ||
        decide (prFirst b.1 + prChans b.1 ≤ prFirst a.1))))) &&
    (List.range 16).all (fun p => decide ((rs.filter (fun r => prPort r == p)).length ≤ 8))

def fwPath (r : Rec) : Nat := fld r 1 1
def fwRoute (r : Rec) : Nat := fld r 2 2
def fwIn (r : Rec) : Nat := fld r 4 1
def fwOut (r : Rec) : Nat := fld r 5 1
def fwPartner (r : Rec) : Nat := fld r 6 2
def fwBudget (r : Rec) : Nat := fld r 8 2

/-- Forward entries of an image. -/
def Image.forwards (i : Image) : List Rec := i.routes.filter (fun r => fld r 0 1 == 2)

/-- Links of a path of a route on this device. -/
def Image.pathLinks (i : Image) (route path : Nat) : List Nat :=
  ((i.forwards.filter (fun f => fwRoute f == route && fwPath f == path)).flatMap (fun f => [fwIn f, fwOut f])).filter (· != 0xFF)

def Image.linkRoutesOk (i : Image) : Bool :=
  i.routes.all (fun r =>
    let k := fld r 0 1
    if k = 1 then
      let bulk := fld r 1 1 == 1
      decide (fld r 1 1 ≤ 1) && decide (fld r 4 2 ≤ 511) && inR 1 (fld r 6 1) 4 && rz r 7 1 && (!bulk || rz r 8 4) &&
        (List.range 4).all (fun p => (decide (p < fld r 6 1) && !bulk) || rz r (12 + 2 * p) 2) && rz r 20 12
    else if k = 2 then
      decide (fwPath r ≤ 3) && (decide (fwIn r ≤ 35) || fwIn r == 0xFF) && (if fwOut r = 0xFF then fwPartner r == 0xFFFF && fwBudget r == 0
        else decide (fwOut r ≤ 35)) && rz r 10 22
    else if k = 3 then decide (fld r 1 1 ≤ 1) && decide (fld r 2 2 ≤ 255) && decide (fld r 4 2 ≤ 255) && rz r 6 26
    else k == 4) &&
    i.forwards.all (fun f => (List.range 4).all (fun p => p == fwPath f ||
      (i.pathLinks (fwRoute f) p).all (fun l => !(i.pathLinks (fwRoute f) (fwPath f)).contains l)))

/-! ### FAILOVER (R561, R564) -/

/-- What a link transfer lands where: the fields of R479 that an alternate set must keep. -/
def linkLandings (ds : List Rec) : List Nat :=
  ((ds.filter (fun r => fld r 63 1 == 8)).map (fun r => fld r 32 5)).filter (· != 0) |>.eraseDups

def sameSet (a b : List Nat) : Bool := a.all b.contains && b.all a.contains

def Image.failoverOk (i : Image) : Bool :=
  let fo := i.failover
  let n := leAt fo 0 2
  fo.isEmpty || (decide (16 + 64 * n ≤ fo.length) && zerosAt fo 2 14 && (foEntries fo).all (fun e =>
    let alt := altSet fo e
    inR 1 (foKind e) 3 && rz e 13 3 && decide (fld e 16 8 + fld e 24 8 ≤ fo.length) &&
      (if foKind e = 1 then decide (foFailed e ≤ 255) && foOrigin e == i.deviceIndex
       else if foKind e = 2 then decide (foFailed e ≤ 3) && rz e 2 2 && foOrigin e == i.deviceIndex
       else rz e 1 3 && decide (foStandby e ≤ 15)) &&
      alt.all (fun s => inR 1 s.1 0xE) && (maskCores (foSpares e)).all (fun c => !bit i.coreMask c) &&
      (match alt.find? (fun s => s.1 == 6) with
        | some s => sameSet (linkLandings (recsOf 64 s.2)) (linkLandings i.descs)
        | none => true)))

/-- A standby needs its MIRROR entry (R564). -/
def Image.standbyOk (i : Image) (j : Nat) : Bool :=
  (foEntries i.failover).any (fun e => foKind e == 3 && foOrigin e == i.deviceIndex && foStandby e == j)

/-! ### All sections -/

def Image.sectionsOk (i : Image) (bs : Bytes) (j : Nat) (standby : Bool) : Bool :=
  imgTrailerOk bs && imgRequired bs && imgSizesOk bs && i.placementsOk && i.rolesOk && i.ringsOk && i.windowsOk && talliesOk bs && i.peatOk && i.wellMapOk bs && i.seedsOk bs &&
    i.classesOk bs && i.adaptersValid bs && i.linkRoutesOk && i.portRoutesOk && i.failoverOk && (!standby || i.standbyOk j) && i.descsOk && i.wordDescsOk

/-! ### Device-wide resources (R18, R21, R82, R154, R275, R451, R547, R552) -/

/-- FIXED reservations of an image on a link in MB/s. -/
def Image.reserved (i : Image) (l : Nat) : Nat :=
  ((i.forwards.filter (fun f => fwOut f == l)).map (fun f => match i.origin (fwRoute f) with
    | some o => if fld o 1 1 = 0 then fld o 8 4 else 0
    | none => 0)).foldl (· + ·) 0

/-- The FIXED reservations of some images fit a link's payload rate (R82). -/
def linkRoom (all : List Image) (l : Nat) : Bool := decide ((all.map (fun x => x.reserved l)).foldl (· + ·) 0 ≤ 45880)

/-- Bytes of one checkpoint of a job (R551): the ember slices of its slots, its KV records and lists, tags, tallies and tables. -/
def Image.ckBytes (i : Image) : Nat :=
  let embers := (i.taskImgs.flatMap (fun t => (t.descs.filter (fun r => fld r 63 1 == 0x0B)).map (fun r =>
    64 * ((List.range (fld r 2 1)).map (fun k => sliceBytes (t.desc (fld r 0 2 + k)))).foldl (· + ·) 0))).foldl (· + ·) 0
  let kv := (i.classes.map (fun c => (fld c.1 17 1 - fld c.1 16 1 + 1) * 64 *
    (24 + (c.2.1.map (fun l => 32 + 12 * kvMaxPages l)).foldl (· + ·) 0))).foldl (· + ·) 0
  embers + kv + (i.tasks.map (·.1)).eraseDups.length * (1024 + 1024 + 32768)

def disjoint (a b : List (Nat × Nat)) : Bool :=
  a.all (fun x => b.all (fun y => decide (x.1 + x.2 ≤ y.1) || decide (y.1 + y.2 ≤ x.1) || x.2 == 0 || y.2 == 0))

/-- A well range holds a page behind a stopped controller (R18). -/
def Dev.rangeDown (d : Dev) (r : Nat × Nat) : Bool :=
  d.anyCtlDown && (List.range (r.2 / 65536)).any (fun p => d.ctlDown (r.1 + 65536 * p))

/-- Slots that the routes of an image take: port, direction, slot. -/
def Image.tdmSlots (i : Image) : List (Nat × Nat × Nat) :=
  i.portRoutes.flatMap (fun r => (List.range (prChans r)).map (fun k => (prPort r, prDir r, prFirst r + k)))

/-- Host intake rings that feed an image. -/
def Image.hostRings (i : Image) : List Nat := (i.rings.filter (fun r => srSource r == 3)).map srProducer

/-- R451 at step 4, against the port's TDM_CTL. -/
def Dev.portOk (d : Dev) (others : List Image) (r : Rec) : Bool :=
  let w := d.reg (portOff (prPort r))
  bit w 0 && bits w 1 2 == prRate r && bits w 3 2 == prWidth r && decide (prFirst r + prChans r ≤ bits w 5 7 + 1) &&
    others.all (fun o => o.portRoutes.all (fun q => prPort q != prPort r || (prEnc q == prEnc r && prPack q == prPack r)))

def Dev.resourcesOk (d : Dev) (i : Image) (j : Nat) : Bool :=
  let others := (d.jobs.filter (fun p => p.1 != j && p.2.state != .empty)).filterMap (fun p => p.2.img)
  let taken := d.otherCores j
  let spares := ((foEntries i.failover).filter (fun e => foKind e != 3)).flatMap (fun e => maskCores (foSpares e))
  let cores := (i.tasks.map (·.1)).eraseDups
  let all := i :: others
  let used := (all.map (fun x => ((x.wellRanges.map Prod.snd).foldl (· + ·) 0) + 2 * x.ckBytes)).foldl (· + ·) 0
  cores.all (fun c => d.sliceUp (c / 64) && !d.coreRetired c) && (cores ++ spares).all (fun c => !taken.contains c) &&
    i.wellRanges.all (fun r => decide (r.1 + r.2 ≤ Config.wellBytes) && !d.rangeDown r) &&
    others.all (fun o => disjoint i.wellRanges o.wellRanges && disjoint (i.spaceRanges 2) (o.spaceRanges 2) &&
      i.tdmSlots.all (fun s => !o.tdmSlots.contains s) && i.hostRings.all (fun r => !o.hostRings.contains r)) &&
    (i.fabricSize != 1 || (List.range 36).all (fun l => linkRoom all l)) &&
    -- a port shows up to 8 routes, whatever jobs they belong to (R472)
    (List.range 16).all (fun p => decide ((all.flatMap (fun x => x.portRoutes.filter (fun r => prPort r == p))).length ≤ 8)) &&
    (List.range 4).all (fun s =>
      let on (x : Image) : Bool := x.tasks.any (fun p => p.1 / 64 == s)
      !on i || decide (((all.filter on).map (·.adaptShare)).foldl (· + ·) 0 ≤ 15)) &&
    i.segments.all (fun g => decide (g.2.2 ≤ 63) && (List.range (g.2.2 + 1 - g.2.1)).all (fun k => cores.contains (coreAtPos g.1 (g.2.1 + k)))) &&
    cores.all (fun c => decide (((i.taskImgs.filter (fun t => t.core == c)).flatMap TaskImg.statPairs).length ≤ 64)) &&
    i.portRoutes.all (d.portOk others) && decide (used ≤ Config.wellBytes) &&
    decide ((all.map Image.ckBytes).foldl (· + ·) 0 ≤ 34240000 * i.roundLen)

/-! ### Step 5: scale tables (R265, R270 to R274, R280) -/

def ScaleTable.entry (s : ScaleTable) (e : Nat) : Nat := s.entries.getD e 0

def ScaleTable.groupAt (s : ScaleTable) (sel : Nat) : Option Rec := s.groups.find? (fun g => gFirst g == sel)

/-- An entry of a scale table (R265): SCALE from 2^-125 to 2^125. -/
def seOk (e : Nat) : Bool := inR 0x01000000 (entryScale e) 0x7E000000 && bits e 40 24 == 0

/-- One group record (R272, R273). -/
def ScaleTable.groupOk (s : ScaleTable) (i : Image) (k : Nat) (g : Rec) : Bool :=
  let m := gMode g
  let n := gCount g
  let es := (List.range n).map (fun j => s.entry (gFirst g + j))
  let int4 := gCode g == 9
  decide (1 ≤ n) && decide (gFirst g + n ≤ 4096) && i.hasTask s.core (gTask g) && decide (m ≤ 3) &&
    (if m = 3 then gCode g == 0 else gCode g == 8 || gCode g == 9) && decide (fld g 7 1 < 8) && decide (gGran g ≤ 2) &&
    (if gAdapts g then inR 1 (gWindow g) 16 && inR 0x3F800000 (gMargin g) 0x40000000 && gHist g % 64 == 0 &&
        decide (gHist g + gWindow g * n * 8 ≤ i.regionOf s.core (gTask g))
      else gWindow g == 0) && rz g 9 1 && rz g 26 6 &&
    (!int4 || es.all (fun e => decide (-8 ≤ entryZp e) && decide (entryZp e ≤ 7))) &&
    (!gZpFixed g || es.all (fun e => entryZp e != gQmin g && entryZp e != gQmax g)) &&
    (m != 3 || (decide (gSrcA g < k) && decide (gSrcW g < k) && gGran (s.groups.getD (gSrcA g) 0) == 0 && gCount (s.groups.getD (gSrcW g) 0) == n))

def ScaleTable.valid (s : ScaleTable) (i : Image) : Bool :=
  s.ok && s.entries.all seOk && s.groups.zipIdx.all (fun p => s.groupOk i p.2 p.1) &&
   
    s.groups.zipIdx.all (fun a => s.groups.zipIdx.all (fun b => decide (b.2 ≤ a.2) || disjoint [(gFirst a.1, gCount a.1)] [(gFirst b.1, gCount b.1)]))

/-- Entries that a user of a task reads: none lies in another task's group, SCALE set where it is read (R265, R273). -/
def ScaleTable.readsOk (s : ScaleTable) (task first n : Nat) (scale : Bool) : Bool :=
  decide (first + n ≤ 4096) && s.groups.all (fun g => gTask g == task || disjoint [(first, n)] [(gFirst g, gCount g)]) &&
    (!scale || (List.range n).all (fun j => entryScale (s.entry (first + j)) != 0))

/-- A MAP user reads a group (R265, R270, R273, R274); R270 names no channel dimension for GRAN 0, whose COUNT must be 1 (DESIGN CHOICE,
entry 125). -/
def ScaleTable.mapOk (s : ScaleTable) (task sel : Nat) (x : Rec) (code : Nat) (stats : Bool) : Bool :=
  match s.groupAt sel with
  | none => false
  | some g => gTask g == task && (gGran g == 0 && gCount g == 1 || gGran g == 1 && tSize x 0 == gCount g || gGran g == 2 && tSize x 1 == gCount g) &&
      (gMode g == 3 || gCode g == code) && (!gAdapts g || stats) && (List.range (gCount g)).all (fun j => entryScale (s.entry (gFirst g + j)) != 0)

def fmtCode4 (f : Fmt) : Nat := if f == .int4 then 9 else 8

/-- The scale uses of a task's descriptors. -/
def ScaleTable.taskOk (s : ScaleTable) (t : TaskImg) : Bool :=
  let gs := gatesAt t.words
  let runsOf (g : Nat) : List Nat := (t.words.zipIdx.filter (fun p => wOpcode p.1 == 2 && mrDrain (t.desc (wDesc p.1)) && (gs.getD p.2 []).contains g)).map (fun p => mrN (t.desc (wDesc p.1)))
  (List.range t.descs.length).all (fun d =>
    let r := t.desc d
    if t.kind d = 6 then
      let src := t.desc (fld r 0 2)
      let dst := t.desc (fld r 2 2)
      let q := if tFmt dst == .int8 || tFmt dst == .int4 then tFmt dst else tFmt src
      !bit (fld r 7 1) 1 || s.mapOk t.task (fld r 8 2) dst (fmtCode4 q) (bit (fld r 7 1) 0)
    else if t.kind d = 3 then
      (!bit (gpFlags r) 1 || s.mapOk t.task (fld r 14 2) (t.desc (gpOut r)) (fmtCode4 (tFmt (t.desc (gpOut r)))) (bit (gpFlags r) 2)) &&
        (!bit (gpFlags r) 0 || s.readsOk t.task (fld r 12 2) ((runsOf d).foldl max 0) true)
    else if t.kind d = 2 ∧ fld r 4 1 = 8 then
      s.readsOk t.task (mrWzp r) (mrN r) false &&
        t.descs.all (fun c =>
          let sel := if fld c 63 1 = 6 ∧ bit (fld c 7 1) 1 ∧ fld c 2 2 = mrAct r then some (fld c 8 2)
            else if fld c 63 1 = 3 ∧ bit (gpFlags c) 1 ∧ gpOut c = mrAct r then some (fld c 14 2) else none
          match sel.bind s.groupAt with
          | some g => gZpFixed g && (List.range (gCount g)).all (fun j => entryZp (s.entry (gFirst g + j)) == sext 8 (fld r 6 1))
          | none => true)
    else if t.kind d = 4 ∧ fld r 35 1 = 1 then
      t.words.all (fun w => wOpcode w != 5 || wDesc w != d || s.readsOk t.task (fld r 38 2) (tSize (t.desc (wFirst w + 2)) 0) true)
    else true)

/-- The decision time of a task's groups (R280). -/
def ScaleTable.decideTime (s : ScaleTable) (task : Nat) : Nat :=
  let gs := s.groups
  let adapting := gs.zipIdx.foldl (fun (l : List Nat) p =>
    if gAdapts p.1 || (gMode p.1 == 3 && (l.contains (gSrcA p.1) || l.contains (gSrcW p.1))) then l ++ [p.2] else l) []
  (adapting.map (fun k => let g := gs.getD k 0; if gTask g = task then 8 + gCount g * (gWindow g + 6) else 0)).foldl (· + ·) 0

def noTable (core : Nat) : ScaleTable := { core := core, entries := [], groups := [], ok := true }

/-- The scale tables of an image against its descriptors: the code of a breach, 0 for none. -/
def Dev.scaleCode (d : Dev) (deep : SMap Bytes) (i : Image) : Nat :=
  let ts := d.scaleTables deep i
  let tab (c : Nat) : ScaleTable := match ts.find? (fun p => obCore p.1 == c) with
    | some p => p.2
    | none => noTable c
  if !(ts.all (fun p => p.2.core == obCore p.1 && p.2.valid i) && (ts.map (fun p => obCore p.1)).eraseDups.length == ts.length &&
      i.taskImgs.all (fun t => (tab t.core).taskOk t)) then eImgSection
  else if !(i.taskImgs.all (fun t => decide (wOffset (t.words.getD (t.words.length - 1) 0) + (tab t.core).decideTime t.task ≤ i.endCycle))) then eImgSchedule
  else 0

/-! ### R79, steps 1 to 5 -/

def roundBusy (d : Dev) (j : Nat) : Bool := d.jobs.any (fun p => p.1 != j && p.2.loaded)

/-- The refusal code of an image for a job slot; 0 when every check of steps 1 to 4 passes. -/
def Dev.checkImage (d : Dev) (j : Nat) (bs : Bytes) (standby : Bool) : Nat :=
  if leAt bs 0 4 ≠ 0x56484C53 then eImgSection
  else if !imgVersionOk bs then eImgVersion
  else if !imgHeaderOk bs || !imgTableOk bs then eImgSection
  else if !(zerosAt bs 48 8) && sliceZ bs 48 8 != d.trust.identity.take 8 then eImgDevice
  else if roundBusy d j && leAt bs 36 1 != d.regF 0x1008 0 7 then eImgRound
  else if (maskCores (leAt bs 64 32)).any (fun c => (d.jobs.filter (fun p => p.1 != j)).any (fun p => p.2.cores.contains c)) then eImgOverlap
  else if !(secTable bs).all (fun e => sha3 (sliceZ bs e.off e.len) == e.digest) then eImgDigest
  else if !imgSigned d bs then eImgSignature
  else
    let i := parseImage bs
    if !i.sectionsOk bs j standby then eImgSection
    else if !i.schedOk then eImgSchedule
    else if !i.modeOk then eImgMode
    else if !d.resourcesOk i j then eImgResource
    else 0

/-- Step 5: the digests of the weight objects, and the scale tables that they hold. -/
def Dev.checkObjects (d : Dev) (deep : SMap Bytes) (i : Image) : Nat :=
  if !i.objects.all (d.objectOk deep) then eImgDigest else d.scaleCode deep i

/-- Links of a fabric image, those on which its forward entries receive and those on which they send, and the reservations of all jobs on them
(R488; entry 123). -/
def Dev.linkMapOk (d : Dev) (i : Image) : Bool :=
  let all := (d.jobs.filter (fun p => p.2.loaded)).filterMap (fun p => p.2.img)
  let runs (n : Nat) (dev : Nat → Bool) : Bool :=
    (d.link n).state == 3 && d.fabric.map.any (fun a => a.identity == (d.link n).partnerId && a.compiles.any (fun c => c.1 == i.compileId && dev c.2))
  i.fabricSize == 1 || i.forwards.all (fun f =>
    (fwIn f == 0xFF || runs (fwIn f) (fun _ => true)) &&
    (fwOut f == 0xFF || (runs (fwOut f) (· == fwPartner f) && decide ((d.link (fwOut f)).latency + 400 ≤ fwBudget f) && linkRoom all (fwOut f))))

end Sys2Proof.Machine
end

