-- ==== Sys2Proof/Machine/Spec.lean ====
section
/-! DEFINITION. Machine/Spec.lean: key–value pages as bytes (R234, R235), speculation generations with their twins (R251 to R253, R325
to R331), and embers (R296, R321 to R323). -/

namespace Sys2Proof.Machine

/-! ### Pages (R234, R235) -/

/-- Core and byte address of a head's page in a cistern pool. -/
def Dev.poolPlace (d : Dev) (l : Rec) (i f h : Nat) : Nat × Nat :=
  let c := kvCore0 l + h / max 1 (kvHpc l) * kvSplit l + i / max 1 (kvRangePages l)
  (c, (d.task c (kvTask l)).base + kvPoolBase l + (f * kvHpc l + h % max 1 (kvHpc l)) * kvPage l)

/-- The page of a head that list entry i holds under a page number; no page delivers zeros. Frames that this device moved to the deep
well are held by their offset there (entry 46). -/
def Dev.pageRead (d : Dev) (l : Rec) (i p h : Nat) : Bytes :=
  let f := bits p 0 30
  if p / 2 ^ 30 = 0 then
    let a := d.poolPlace l i f h
    sliceZ (memRead (d.core a.1).readable a.2 (kvPage l)) 0 (kvPage l)
  else if p / 2 ^ 30 = 1 then d.wellRead (kvWellBase l + (f * kvHeads l + h) * kvPage l) (kvPage l)
  else if p / 2 ^ 30 = 2 then memRead d.deep (kvDeepBase l + (f * kvHeads l + h) * kvPage l) (kvPage l)
  else zeros (kvPage l)

/-- Bytes of a head's page are written, each part at its offset. -/
def Dev.pageWrite (d : Dev) (l : Rec) (i p h : Nat) (ws : List (Nat × Bytes)) : Dev :=
  let f := bits p 0 30
  if p / 2 ^ 30 = 0 then
    let a := d.poolPlace l i f h
    d.onCore a.1 (fun x => x.storeAll (ws.map (fun w => (a.2 + w.1, w.2))))
  else if p / 2 ^ 30 = 1 then ws.foldl (fun d w => d.wellWrite (kvWellBase l + (f * kvHeads l + h) * kvPage l + w.1) w.2) d
  else if p / 2 ^ 30 = 2 then
    let a := kvDeepBase l + (f * kvHeads l + h) * kvPage l
    let m := ws.foldl (fun m w => memWrite m (a + w.1) w.2) d.deep
    if ws.isEmpty then d else ({ d with deep := m }).emit (.report (d.regF 0x101108 12 52 * 4096 + a) (memRead m a (kvPage l)))
  else d

/-- Parts of a frame's pages of every head are written. -/
def Dev.onPages (d : Dev) (l : Rec) (i p : Nat) (ws : List (Nat × Bytes)) : Dev :=
  (List.range (kvHeads l)).foldl (fun d h => d.pageWrite l i p h ws) d

/-- A frame's pages are copied; words with uncorrectable errors read as zeros and are reported for the items that the copy serves (R365). -/
def Dev.copyPages (d : Dev) (l : Rec) (i src dst round : Nat) (hs : List Nat) : Dev :=
  (List.range (kvHeads l)).foldl (fun d h =>
    let a := d.poolPlace l i (bits src 0 30) h
    let met := if src / 2 ^ 30 = 0 then (d.core a.1).badWords [((a.2 : Nat), (a.2 + kvPage l : Nat))] else []
    (d.pageWrite l i dst h [(0, d.pageRead l i src h)]).eccReadFor hs a.1 (kvTask l) round met) d

/-- Zeros for the slots of a page that a test picks: their rows of keys, then their elements of each value feature (R234). -/
def clearSlots (l : Rec) (drop : Nat → Bool) : List (Nat × Bytes) :=
  let e := kvElem l
  let n := kvDim l
  let gone := (List.range 16).filter drop
  gone.map (fun s => (s * n * e, zeros (n * e))) ++ (List.range n).flatMap (fun f => gone.map (fun s => ((16 * n + 16 * f + s) * e, zeros e)))

/-! ### Sequences of a stream -/

def Dev.setSeq (d : Dev) (h layer : Nat) (f : Seq → Seq) : Dev := { d with seqs := mset d.seqs (seqKey h layer) (f (d.seq h layer)) }

/-- A page number of a list, none as 0xFFFF_FFFF. -/
def entryOf (m : SMap Nat) (i : Nat) : Nat := mgetD m i noPage

def setEntry (m : SMap Nat) (i p : Nat) : SMap Nat := if p = noPage then mdel m i else mset m i p

/-- R252: the tail page is copied into its twin. -/
def Dev.openSeq (d : Dev) (h round : Nat) (l : Rec) : Dev :=
  let s := d.seq h (kvLayer l)
  let i := s.len / 16 % max 1 (kvMaxPages l)
  let d1 := match mget s.twin i with
    | some t => if s.len % 16 ≠ 0 ∧ entryOf s.cur i ≠ noPage then d.copyPages l i (entryOf s.cur i) t round [h] else d
    | none => d
  d1.setSeq h (kvLayer l) (fun s => { s with specOpen := true, specLen := 0, stamp := ((d.stream h).specGen + 1) % 256 })

/-- R253: a commit of c positions. -/
def Dev.commitSeq (d : Dev) (h : Nat) (l : Rec) (c : Nat) : Dev :=
  let s := d.seq h (kvLayer l)
  let L2 := s.len + c
  let es := (List.range ((L2 - 1) / 16 + 1 - s.len / 16)).map (s.len / 16 + ·)
  let d1 := es.foldl (fun d e =>
    let i := e % max 1 (kvMaxPages l)
    match mget (d.seq h (kvLayer l)).twin i with
    | some t =>
      let d1 := d.onPages l i t (clearSlots l (fun k => decide (L2 ≤ 16 * e + k)))
      d1.setSeq h (kvLayer l) (fun s => { s with cur := mset s.cur i t, twin := setEntry s.twin i (entryOf s.cur i) })
    | none => d) d
  d1.setSeq h (kvLayer l) (fun s => { s with len := L2, specLen := 0, specOpen := false })

def Dev.abortSeq (d : Dev) (h : Nat) (l : Rec) : Dev :=
  d.setSeq h (kvLayer l) (fun s => { s with specLen := 0, specOpen := false })

/-- A generation ends without a commit; an abort of a draft counts its proposal (R331). -/
def Dev.abortGen (d : Dev) (h : Nat) (draft : Bool) : Dev :=
  if (d.stream h).specOpen then
    ((d.layersOf h).foldl (fun d l => d.abortSeq h l) d).onStream h (fun s =>
      { s with specOpen := false, specLen := 0, proposed := s.proposed + (if draft then s.dlen else 0) })
  else d

/-! ### Sequence records and page lists in memory (R237, R240) -/

/-- A sequence record (R237). -/
def seqRecord (s : Seq) (slot addr : Nat) : Bytes :=
  leBytes 4 s.len ++ leBytes 2 s.seg ++ leBytes 2 slot ++ leBytes 4 s.retLen ++ leBytes 2 s.retSeg ++ leBytes 1 s.specOpen.toNat ++ leBytes 1 0 ++
    leBytes 4 s.specLen ++ zeros 4 ++ leBytes 8 addr

/-- Bytes that the device writes for a task in the cistern, within its region, or in the well. -/
def Dev.putIn (d : Dev) (c t space : Nat) (ws : List (Nat × Bytes)) : Dev :=
  let k := d.task c t
  if space = 0 then d.onCore c (fun x => x.storeAll ((ws.filter (fun w => decide (k.base + w.1 + w.2.length ≤ k.bound))).map (fun w => (k.base + w.1, w.2))))
  else if space = 1 then ws.foldl (fun d w => d.wellWrite w.1 w.2) d
  else d

/-- The KV_WALK descriptors of a task whose records lie in the cistern or the well. -/
def Dev.walkDescs (d : Dev) (c t : Nat) : List Rec :=
  (d.task c t).descs.filter (fun r => fld r 63 1 == 8 && pdMode r == 3 && decide (tSpace ((d.task c t).desc (pdIdx r)) < 2) &&
    tRing ((d.task c t).desc (pdIdx r)) == 0xFF)

/-- Row q of a descriptor's records: the record and, where the row names a place, the page list of the stream in its SLOT (entry 96). -/
def Dev.writeRow (d : Dev) (c t : Nat) (r : Rec) (q : Nat) : Dev :=
  let k := d.task c t
  let idx := k.desc (pdIdx r)
  let ia := k.tStart idx false
  let row := recRow idx ia q (d.rdSpace c t [])
  match d.walkLayer k.job r with
  | none => d
  | some l =>
    let s := match d.slotStream k.job (leAt row 6 2) with
      | some p => if p.2.cls = fld r 24 1 then d.seq p.1 (kvLayer l) else Seq.reset
      | none => Seq.reset
    let la := leAt row 24 8
    let mx := max 1 (kvMaxPages l)
    let new := seqRecord s (leAt row 6 2) la
    let d1 := d.putIn c t (tSpace idx) ((List.range 8).map (fun k => (recAt idx ia k q, sliceZ new (4 * k) 4)))
    if la = 0 then d1 else d1.putIn c t (listSpace la) [(listAt la 0, (List.range (3 * mx)).flatMap (fun n => leBytes 4 (s.entry mx n)))]

/-- The records and lists that a task's walks read. -/
def Dev.writeRows (d : Dev) (c t : Nat) : Dev := (d.walkDescs c t).foldl (fun d r =>
  (List.range (tSize ((d.task c t).desc (pdIdx r)) 1)).foldl (fun d q => d.writeRow c t r q) d) d

def Dev.writeSeqs (d : Dev) (j : Nat) : Dev := (d.job j).tasks.foldl (fun d p => d.writeRows p.1 p.2) d

/-- LIST_ADDR of a stream's sequence, from a row of the task that holds its record; with none, a free value (entry 4). -/
def Dev.listAddr (d : Dev) (c t slot layer : Nat) : Nat :=
  let k := d.task c t
  match (d.walkDescs c t).findSome? (fun r =>
      if fld r 25 1 = layer then
        ((List.range (tSize (k.desc (pdIdx r)) 1)).map (fun q =>
          recRow (k.desc (pdIdx r)) (k.tStart (k.desc (pdIdx r)) false) q (d.rdSpace c t []))).find? (fun b => leAt b 6 2 == slot && leAt b 24 8 != 0)
      else none) with
  | some b => leAt b 24 8
  | none => Config.freeValue 3 (((c * 8 + t) * 65536 + slot) * 256 + layer)

/-! ### SPEC_OPEN, SPEC_COMMIT, SPEC_ABORT (R329) -/

/-- Slots of a cord whose VALID is 1 in round n and whose class enables a kind: slot within the cord and handle. -/
def Dev.specSlots (d : Dev) (job n cord kind : Nat) : List (Nat × Nat) :=
  (List.range 64).filterMap (fun s => match d.slotStream job (cord * 64 + s) with
    | some p =>
      if d.serves n p.1 && bit (fld (d.clsOf p.1) 6 1) kind then some (s, p.1) else none
    | none => none)

def spCord (r : Rec) : Nat := fld r 1 1
def spKind (r : Rec) : Nat := fld r 0 1

/-- The shadow pairs of a speculation descriptor (R326). -/
def spPairs (desc : Nat → Rec) (i : Nat) : List (Nat × Nat) :=
  (List.range (fld (desc i) 6 1)).map (fun k => (fld (desc (i + 1 + k / 7)) (8 * (k % 7)) 2, fld (desc (i + 1 + k / 7)) (8 * (k % 7) + 2) 2))

/-- SPEC_OPEN: a generation that another task of the cord opened goes on. Its number stamps the twins, and the task's shadow entries of
the slot. -/
def specOpenW (d : Dev) (w : Who) (desc : Nat) : WRes :=
  let k := d.tk w
  let r := k.desc desc
  .done ((d.specSlots k.job k.progRound (spCord r) (spKind r)).foldl (fun d s =>
    let d1 := if (d.stream s.2).specOpen then d
      else ((d.layersOf s.2).foldl (fun d l => d.openSeq s.2 k.progRound l) d).onStream s.2 (fun x =>
        { x with specOpen := true, specLen := 0, specGen := (x.specGen + 1) % 256 })
    d1.onStream s.2 (fun x => { x with stamps := mset x.stamps (8 * w.core + w.task) x.specGen })) d |>.writeSeqs k.job)

/-- SPEC_ABORT. -/
def specAbortW (d : Dev) (w : Who) (desc : Nat) : WRes :=
  let k := d.tk w
  let r := k.desc desc
  .done ((d.specSlots k.job k.progRound (spCord r) (spKind r)).foldl (fun d s => d.abortGen s.2 (spKind r == 1)) d |>.writeSeqs k.job)

/-- The slices of a slot at an offset of a shadow are copied to its main tensor. -/
def shadowWrites (k : Task) (m : SMap Byte) (main shadow slot off : Nat) : List (Nat × Bytes) :=
  let vm := k.view main true []
  let vs := k.view shadow false []
  let n := tNdim vm.t
  let at_ (p : Pt) : Pt := if n = 1 then { p with i1 := off } else if n = 2 then { p with i2 := off } else { p with i3 := off }
  (List.range (tCount vm.t)).filterMap (fun f =>
    let p := tPt vm.t f
    if p.i1 = slot then vm.store m p (vs.code m (at_ p)) else none)

/-- The bytes of a shadow that such a copy reads. -/
def shadowReads (k : Task) (main shadow slot off : Nat) : List (Int × Int) :=
  let vs := k.view shadow false []
  let t := (k.view main true []).t
  let n := tNdim t
  let at_ (p : Pt) : Pt := if n = 1 then { p with i1 := off } else if n = 2 then { p with i2 := off } else { p with i3 := off }
  ((List.range (tCount t)).filter (fun f => (tPt t f).i1 == slot)).map (fun f =>
    let o := (tOff vs.t (at_ (tPt t f))).1
    (vs.base + o, vs.base + o + (max 1 (tFmt vs.t).size : Nat)))

/-- SPEC_LEN of a stream's open generation: the least of its layers; a class without layers counts the draft and its successor. -/
def Dev.specLenOf (d : Dev) (h : Nat) : Nat :=
  match (d.layersOf h).map (fun l => (d.seq h (kvLayer l)).specLen) with
  | [] => (d.stream h).dlen + 1
  | a :: r => r.foldl min a

/-- SPEC_COMMIT for one slot with count c. The first task's commit ends the generation; others copy their shadows alone. -/
def Dev.commitSlot (d : Dev) (w : Who) (r : Rec) (pairs : List (Nat × Nat)) (slot h : Nat) (c : Int) : Dev :=
  let st := d.stream h
  let len := if st.specOpen then d.specLenOf h else st.specLen
  -- shed or aborted: there is no generation to commit
  if !st.specOpen ∧ st.specLen = 0 then d
  else if c = 0 then d.abortGen h true
  else if c < 0 ∨ (len : Int) < c then
    let d1 := d.abortGen h true
    let r := (d1.tk w).progRound
    d1.raise { code := 0x0703, kind := 0, task := w.task, unit := w.core, handle := some h, a := (d1.runningItems r [h]).length, b := d1.lowestSeq r [h], round := some (d1.tk w).progRound }
  else
    let _ := r
    let n := c.toNat
    let d1 := if st.specOpen then
        ((d.layersOf h).foldl (fun d l => d.commitSeq h l n) d).onStream h (fun s =>
          { s with specOpen := false, specLen := len, committed := s.committed + n, proposed := s.proposed + s.dlen, accepted := s.accepted + (n - 1) })
      else d
    let m := (d1.core w.core).readable
    -- shadow entries of another generation are not taken
    if mget st.stamps (8 * w.core + w.task) ≠ some st.specGen then d1
    else
      let met := (d1.core w.core).badWords (pairs.flatMap (fun p => shadowReads (d1.tk w) p.1 p.2 slot (n - 1)))
      (d1.onCore w.core (fun x => x.storeAll (pairs.flatMap (fun p => shadowWrites (d1.tk w) m p.1 p.2 slot (n - 1))))).eccReadFor [h] w.core w.task
        (d1.tk w).progRound met

def specCommitW (d : Dev) (w : Who) (desc : Nat) : WRes :=
  let k := d.tk w
  let r := k.desc desc
  d.opTest w [fld r 4 2] [] (fun slips =>
    let v := k.view (fld r 4 2) false slips
    let m := (d.core w.core).readable
    let cs := (List.range 64).map (fun s => sext 32 (v.code m ⟨s, 0, 0, 0⟩))
    let d1 := (d.specSlots k.job k.progRound (spCord r) 1).foldl (fun d s => d.commitSlot w r (spPairs k.desc desc) s.1 s.2 (cs.getD s.1 0)) d
    .done ((d1.opDone w [fld r 4 2] [] slips {}).writeSeqs k.job))

/-- Positions of an open generation that a word stores into twins: SPEC_LEN counts them (R252). -/
def Dev.specTrack (d : Dev) (w : Who) (writes : List Nat) : Dev :=
  let k := d.tk w
  let open_ := d.streams.filter (fun p => p.2.job == k.job && p.2.specOpen)
  if open_.isEmpty then d
  else
    let addrs := writes.flatMap (fun i =>
      let v := k.view i true []
      (List.range (tCount v.t)).map (fun f => (v.base + (tOff v.t (tPt v.t f)).1).toNat))
    let d1 := open_.foldl (fun d p => ((d.layersOf p.1).filter (fun l => kvTask l == w.task && (kvCores l).contains w.core)).foldl (fun d l =>
      let s := d.seq p.1 (kvLayer l)
      let mx := max 1 (kvMaxPages l)
      let rc := max 1 (kvRangePages l)
      let hit (e : Nat) (slot : Nat) : Bool :=
        let i := e % mx
        (w.core - kvCore0 l) % max 1 (kvSplit l) == i / rc && (match mget s.twin i with
          | some t => (List.range (kvHpc l)).any (fun q =>
              let a := k.base + kvPoolBase l + (bits t 0 30 * kvHpc l + q) * kvPage l + slot * kvDim l * kvElem l
              addrs.any (fun x => decide (a ≤ x) && decide (x < a + kvDim l * kvElem l)))
          | none => false)
      let ps := (List.range (16 * (kvReach l + 1))).filter (fun o => hit ((s.len + o) / 16) ((s.len + o) % 16))
      let top := (ps.map (· + 1)).foldl max 0
      if s.specLen < top then d.setSeq p.1 (kvLayer l) (fun s => { s with specLen := top }) else d) d) d
    if d1.seqs == d.seqs then d1 else d1.writeSeqs k.job

/-! ### Embers (R296, R321 to R323) -/

/-- The bytes of a slot's slice of a state tensor, padded to 64. -/
def sliceOf (m : SMap Byte) (v : View) (slot : Nat) : Bytes :=
  let t := v.t
  let rows := (List.range (tSize t 2 * tSize t 3)).flatMap (fun f =>
    let i2 := f % tSize t 2
    let i3 := f / tSize t 2
    if tPacked t then
      let a := (v.base + (tOff t ⟨0, slot, i2, i3⟩).1).toNat
      if v.inside a (tRowBytes t) then sliceZ (memRead m a (tRowBytes t)) 0 (tRowBytes t) else zeros (tRowBytes t)
    else (List.range (tSize t 0)).flatMap (fun i0 => leBytes (tFmt t).size (v.code m ⟨i0, slot, i2, i3⟩)))
  padTo (sliceBytes t) rows

/-- The writes that put such bytes back. -/
def sliceInto (m : SMap Byte) (v : View) (slot : Nat) (bs : Bytes) : List (Nat × Bytes) :=
  let t := v.t
  (List.range (tSize t 2 * tSize t 3)).flatMap (fun f =>
    let i2 := f % tSize t 2
    let i3 := f / tSize t 2
    let row := sliceZ bs (f * tRowBytes t) (tRowBytes t)
    if tPacked t then
      let a := (v.base + (tOff t ⟨0, slot, i2, i3⟩).1).toNat
      if v.inside a (tRowBytes t) then [(a, row)] else []
    else (List.range (tSize t 0)).filterMap (fun i0 => v.store m ⟨i0, slot, i2, i3⟩ (leAt row (i0 * (tFmt t).size) (tFmt t).size)))

def emPartOff (r : Rec) : Nat := fld r 4 4
def emPartBytes (r : Rec) : Nat := fld r 8 4
def emCord (r : Rec) : Nat := fld r 3 1
def emTensors (r : Rec) : List Nat := (List.range (fld r 2 1)).map (fld r 0 2 + ·)

/-- The generator context (R296). -/
def genContext (s : Stream) : Bytes := leBytes 8 s.seed ++ leBytes 4 s.snum ++ leBytes 6 s.frame ++ leBytes 6 s.token

/-- The ember header with a zero CRC (R321). -/
def emberHeader (h : Nat) (s : Stream) (bytes round : Nat) (init : Bool) : Bytes :=
  leBytes 2 h ++ leBytes 1 s.cls ++ leBytes 1 init.toNat ++ leBytes 4 bytes ++ leBytes 8 (if init then 0 else round) ++ genContext s ++ zeros 4 ++
    leBytes 1 s.dlen ++ zeros 3 ++ s.accept.flatMap (fun p => leBytes 1 p.1 ++ leBytes 1 p.2)

/-- Address of a stream's ember (R311). -/
def Dev.emberAddr (d : Dev) (h : Nat) : Nat := fld (d.clsOf h) 40 8 + h * fld (d.clsOf h) 48 4

/-- The CRC of an ember, its own bytes taken as zero. -/
def emberCrc (bs : Bytes) : Nat := crc32c (bs.take 40 ++ zeros 4 ++ bs.drop 44)

/-- Header and CRC of an ember whose parts lie in the well. -/
def Dev.sealEmber (d : Dev) (h round : Nat) (init : Bool) : Dev :=
  let a := d.emberAddr h
  let n := fld (d.clsOf h) 48 4
  let d1 := d.wellWrite a (emberHeader h (d.stream h) n round init)
  d1.wellWrite (a + 40) (leBytes 4 (emberCrc (d1.wellRead a n)))

/-- Slots of a cord of a class whose stream is in some states: slot within the cord and handle. -/
def Dev.cordSlots (d : Dev) (job : Nat) (r : Rec) (st : HandleState → Bool) : List (Nat × Nat) :=
  (List.range 64).filterMap (fun s => match d.slotStream job (emCord r * 64 + s) with
    | some p => if st p.2.state && p.2.cls == fld r 12 1 then some (s, p.1) else none
    | none => none)

/-- The KV layers of an ember part: those of its task on its core (R322). -/
def Dev.emLayers (d : Dev) (h : Nat) (w : Who) (r : Rec) : List Rec :=
  if bit (fld r 13 1) 0 then (d.layersOf h).filter (fun l => kvTask l == w.task && (kvCores l).contains w.core) else []

/-- The stream's checkpoint of a round's mark (R323, R551). -/
def Dev.ckAt (d : Dev) (h n : Nat) : Option StreamCk := d.streamCks.find? (fun c => c.handle == h && c.round == n)

/-- Pumps that hold a transfer of a task which names one of some tensors (R412). -/
def Dev.namedByXfer (d : Dev) (c t : Nat) (is_ : List Nat) : List PumpId := d.pumpsOf c t (fun x => d.namesState x is_)

/-- The pumps that an ember word waits for, as if DRAIN were set: those that held a transfer naming the state at its issue (R412). -/
def Dev.emberPumps (d : Dev) (w : Who) (r : Rec) : List PumpId := match (d.tk w).wait with
  | some ⟨.drain ps, _, _, _, _⟩ => ps
  | _ => d.namedByXfer w.core w.task (emTensors r)

/-- EMBER_OUT (R323): the state as the checkpoint of the round's mark holds it. -/
def emberOutW (d : Dev) (w : Who) (desc : Nat) : WRes :=
  let k := d.tk w
  let r := k.desc desc
  if !d.pumpsFree w.core w.task (d.emberPumps w r) then .hold (.drain (d.emberPumps w r)) 1
  else d.opTest w (emTensors r) [] (fun slips =>
    let m := (d.core w.core).readable
    let slots := d.cordSlots k.job r (· == .leaving)
    let d1 := slots.foldl (fun d s =>
      let ck := d.ckAt s.2 k.progRound
      let ts := (emTensors r).flatMap (fun i => match ck.bind (fun c => c.slices.find? (fun x => x.1 == 8 * w.core + w.task && x.2.1 == i)) with
        | some x => x.2.2
        | none => sliceOf m (k.view i false []) s.1)
      let rs := (d.emLayers s.2 w r).flatMap (fun l =>
        let q := match ck.bind (fun c => c.seqs.find? (fun x => x.1 == kvLayer l)) with
          | some x => x.2
          | none => d.seq s.2 (kvLayer l)
        seqRecord q (emCord r * 64 + s.1) (d.listAddr w.core w.task (emCord r * 64 + s.1) (kvLayer l)))
      (d.wellWrite (d.emberAddr s.2 + emPartOff r) (sliceZ (ts ++ rs) 0 (emPartBytes r))).sealEmber s.2 k.progRound false) d
    .done (d1.opDone w (emTensors r) [] slips {}))

/-- A transfer that names the state tensors of a slot's cord has not completed (R412). -/
def Dev.slotBusy (d : Dev) (j slot : Nat) : Bool := (d.job j).tasks.any (fun p =>
  ((d.task p.1 p.2).descs.filter (fun r => fld r 63 1 == 0x0B && emCord r == slot / 64)).any (fun r => !(d.namedByXfer p.1 p.2 (emTensors r)).isEmpty))

/-- EMBER_IN (R323): an ember with a bad CRC raises E_CRC and its stream is recovered. -/
def emberInW (d : Dev) (w : Who) (desc : Nat) : WRes :=
  let k := d.tk w
  let r := k.desc desc
  if !d.pumpsFree w.core w.task (d.emberPumps w r) then .hold (.drain (d.emberPumps w r)) 1
  else d.opTest w [] (emTensors r) (fun slips =>
    let slots := d.cordSlots k.job r (fun s => s == .entering || s == .primed)
    let d1 := slots.foldl (fun d s =>
      let a := d.emberAddr s.2
      let n := fld (d.clsOf s.2) 48 4
      let e := d.wellRead a n
      if emberCrc e ≠ leAt e 40 4 then
        d.detect { code := 0x0404, cls := clsStream, kind := 0, task := w.task, unit := w.core, a := 65536, b := a } [s.2] k.job w.core w.task k.progRound
      else
        let part := sliceZ e (emPartOff r) (emPartBytes r)
        let m := (d.core w.core).readable
        let ws := (emTensors r).foldl (fun (x : List (Nat × Bytes) × Nat) i =>
          let v := k.view i true []
          (x.1 ++ sliceInto m v s.1 (sliceZ part x.2 (sliceBytes v.t)), x.2 + sliceBytes v.t)) (([] : List (Nat × Bytes)), 0)
        let d2 := d.onCore w.core (fun x => x.storeAll ws.1)
        -- the header's context and draft figures return (R296, R321); FRAME has counted the chunks formed since it was written (entry 97)
        let d3 := d2.onStream s.2 (fun x =>
          { x with
            seed := leAt e 16 8
            snum := leAt e 24 4
            token := leAt e 34 6
            dlen := leAt e 44 1
            accept := (List.range 8).map (fun i => (leAt e (48 + 2 * i) 1, leAt e (49 + 2 * i) 1)) })
        ((d3.emLayers s.2 w r).foldl (fun (y : Dev × Nat) l =>
          let b := sliceZ part y.2 32
          (y.1.setSeq s.2 (kvLayer l) (fun q => { q with len := leAt b 0 4, seg := leAt b 4 2, retLen := leAt b 8 4, retSeg := leAt b 12 2 }), y.2 + 32)) (d3, ws.2)).1) d
    .done (d1.opDone w [] (emTensors r) slips {}))

end Sys2Proof.Machine
end

