-- ==== Sys2Proof/Machine/Release.lean ====
section
/-! DEFINITION. Machine/Release.lean: remote writes at a window (R383, R384), G.711 coding (R448, R449), and the release ticks of crossing
queues: port blocks (R452 to R454), intake records (R532), link transfers (R481, R482), well data (R413 to R415), and the metadata
of cords (R222, R309). -/

namespace Sys2Proof.Machine

/-! ### Windows (R383, R384) -/

/-- Who writes (R383, R501): compile, DEVICE_INDEX, the issuing core. -/
structure Writer where
  compile : Nat
  dev : Nat
  core : Nat
  deriving DecidableEq, Repr

/-- One window accepts a write of bytes lo to hi − 1 of its core. -/
def Dev.winAccepts (d : Dev) (c : Nat) (w : Writer) (lo hi : Nat) (x : Win) : Bool :=
  let base := (d.task c x.owner).base
  let compile := match (d.job x.job).img with
    | some i => i.compileId
    | none => 0
  x.isOpen && (d.job x.job).img.isSome && compile == w.compile && decide (x.devLo ≤ w.dev) && decide (w.dev ≤ x.devHi) &&
    (x.writers % 2 ^ 256 == 2 ^ 256 - 1 || bit x.writers w.core) && decide (base + x.base ≤ lo) && decide (hi ≤ base + x.bound)

/-- The lowest-numbered window of a core that accepts a write. -/
def Dev.accepts (d : Dev) (c : Nat) (w : Writer) (lo n : Nat) : Option Nat :=
  ((d.core c).windows.find? (fun p => d.winAccepts c w lo (lo + n) p.2)).map (·.1)

/-- The windows of a core that accept a write. -/
def Dev.acceptors (d : Dev) (c : Nat) (w : Writer) (lo n : Nat) : List Nat :=
  ((d.core c).windows.filter (fun p => d.winAccepts c w lo (lo + n) p.2)).map (·.1)

/-- An accepted write is counted at each window that accepts it (R398). -/
def Dev.countWindows (d : Dev) (c : Nat) (w : Writer) (lo n : Nat) : Dev :=
  (d.acceptors c w lo n).foldl (fun d win => d.count (coreOff c + 0x1908 + win * 0x10) 32 1) d

/-! ### Sample codes (R447 to R449) -/

def alawDecode (c : Nat) : Int :=
  let u := c ^^^ 0x55
  let e := bits u 4 3
  let t := 16 * bits u 0 4 + 8
  let t := if e > 0 then (t + 256) * 2 ^ (e - 1) else t
  if bit u 7 then t else -(t : Int)

def ulawDecode (c : Nat) : Int :=
  let u := c ^^^ 0xFF
  let t := (8 * bits u 0 4 + 132) * 2 ^ bits u 4 3
  if bit u 7 then 132 - (t : Int) else (t : Int) - 132

/-- Segment of a magnitude: how often it halves before it fits n bits. -/
def segOf : Nat → Nat → Nat → Nat
  | 0, _, s => s
  | f + 1, m, s => if m < 2 then s else segOf f (m / 2) (s + 1)

/-- A-law of a 16-bit value: the 13-bit value's sign, segment and mantissa, even bits inverted (G.711). -/
def alawEncode (x : Int) : Nat :=
  let v := x / 8
  let neg := decide (v < 0)
  let m := if neg then (-v - 1).toNat else v.toNat
  let m := min m 4095
  let s := segOf 12 (m / 32) 0
  let s' := if m < 32 then 0 else s + 1
  let q := if s' ≤ 1 then bits m 1 4 else bits m s' 4
  ((if neg then 0 else 128) + s' * 16 + q) ^^^ 0x55

/-- μ-law of a 16-bit value: the 14-bit value's sign, segment and mantissa, inverted (G.711). -/
def ulawEncode (x : Int) : Nat :=
  let v := max (-8159) (min 8158 (x / 4))
  let neg := decide (v < 0)
  let m := min (v.natAbs + 33) 8191
  let s := segOf 12 (m / 64) 0
  let s' := if m < 64 then 0 else s + 1
  ((if neg then 128 else 0) + s' * 16 + bits m (s' + 1) 4) ^^^ 0xFF

/-- A sample as its bytes in memory (R447). -/
def sampleBytes (enc : Nat) (pack : Bool) (v : Int) : Bytes :=
  if enc ≤ 2 then leBytes 2 (unsext 16 v)
  else if enc = 3 then (if pack then leBytes 4 (unsext 24 v * 256) else leBytes 3 (unsext 24 v))
  else leBytes 4 (unsext 32 v)

/-! ### Ring slots -/

/-- Absolute cistern offset of a ring's put slot. -/
def Task.putSlot (k : Task) (r : Ring) : Nat := k.base + srBase r.decl + r.put * srBytes r.decl

/-- A slot receives bytes and its tag fills, or the word waits for room (R375, R376). -/
def Dev.fillSlot (d : Dev) (c t ring : Nat) (writes : List (Nat × Bytes)) : WRes :=
  let k := d.task c t
  if d.ringFails c t (ring, true) then .hold (.ring ring true) (k.budget ring)
  else
    match k.ring? ring with
    | none => .done d
    | some r =>
      let a := k.putSlot r
      let ws := (writes.map (fun w => (a + w.1, w.2))).filter (fun w => decide (w.1 + w.2.length ≤ k.bound))
      .done ((d.onCore c (fun x => x.storeAll ws)).ringMove c t [] (ring, true))

/-- A slot treated as in a static slip (R376, R415, R482): it delivers zeros once and the indices advance; a full slot stays. -/
def Dev.slipSlot (d : Dev) (c t ring : Nat) : Dev :=
  let k := d.task c t
  match k.ring? ring with
  | none => d
  | some r =>
    if d.ringFails c t (ring, true) then d.ringMove c t [(ring, true)] (ring, true)
    else
      let tag := ringTag r true
      let d1 := (d.onCore c (fun x => x.storeAll [(k.putSlot r, zeros (srBytes r.decl))])).ringMove c t [] (ring, true)
      d1.onCore c (fun x => x.onTag tag (fun g => { g with slipped := true }))

/-- One record for each item of some handles that runs in round n (R415, R482). -/
def Dev.recordEach (d : Dev) (e : Err) (n : Nat) (hs : List Nat) (ring : Nat) (corr : Nat → Bool) : Dev :=
  (d.runningItems n hs).foldl (fun d p => d.raise { e with corr := corr p.1, handle := some p.1, a := ring % 256 + 256, b := p.2.seq }) d

/-! ### Port blocks (R452 to R454) -/

/-- Frames that the cut assigned to a round. -/
def Dev.portFrames (d : Dev) (port n : Nat) : List CrossItem :=
  ((d.crossQ (srcKey 0 port)).assigned.filter (fun p => p.1 == n)).map Prod.snd

/-- The stream bound to a port slot in a round (R456). -/
def Dev.boundStream (d : Dev) (port slot n : Nat) : Option Nat :=
  (d.bound.find? (fun b => b.1 == n && b.2.1 == port && b.2.2.1 == slot)).map (fun b => b.2.2.2)

/-- Samples per hop of a stream (R220): HOP × 5 ms × its sample rate. -/
def Dev.hopSamples (d : Dev) (h : Nat) : Nat :=
  let s := d.stream h
  let hz := if s.source = 1 then tdmHz (d.regF (portOff s.port) 1 2) else tdmHz s.rate
  fld (d.clsOf h) 2 1 * 5 * hz / 1000

/-- Samples that the rounds from n on gave a stream of a port's route, at most CAP_FRAMES each. -/
def Dev.framesSince (d : Dev) (port cap n : Nat) : Nat :=
  ((List.range (d.tb.round + 1 - n)).map (fun k => min cap (d.portFrames port (n + k)).length)).foldl (· + ·) 0

/-- Whether a sample index of a stream lies in a void frame of a chunk formed in a round (R221). -/
def Dev.voidSample (d : Dev) (h n ix : Nat) : Bool :=
  (d.stream h).voids.any (fun v => v.1 == n && decide (v.2.1 ≤ ix) && decide (ix < v.2.2))

def frameOf (x : CrossItem) : List Int × Bool × Nat × Nat := match x.data with
  | .frame v r e m => (v, r, e, m)
  | _ => ([], false, 0, 0)

/-- Bit masks packed eight to a byte, padded to n bytes. -/
def packBits (n : Nat) (l : List Bool) : Bytes :=
  (List.range n).map (fun i => BitVec.ofNat 8 (((List.range 8).map (fun b => if l.getD (8 * i + b) false then 2 ^ b else 0)).foldl (· + ·) 0))

/-- The block of a receive route in a round. -/
def Dev.portBlock (d : Dev) (r : Rec) (n : Nat) : Bytes :=
  let port := prPort r
  let all := d.portFrames port n
  let fs := all.take (prCap r)
  let chan (k : Nat) : Bytes × Bytes :=
    let slot := prFirst r + k
    let h := d.boundStream port slot n
    let void (i : Nat) : Bool := match h with
      | some h => d.voidSample h n ((d.stream h).sampleBase + (d.stream h).samples.length - d.framesSince port (prCap r) n + i)
      | none => false
    let vs := fs.zipIdx.map (fun p => if void p.2 then 0 else (frameOf p.1).1.getD slot 0)
    (padTo (prS r) (vs.flatMap (sampleBytes (prEnc r) (prPack r))),
     packBits (prSm r) (fs.zipIdx.map (fun p => (frameOf p.1).2.1 || void p.2)))
  let cs := (List.range (prChans r)).map chan
  let ev := (all.map (fun f => (frameOf f).2.2.1)).foldl (· ||| ·) 0
  let lastRate := match all.getLast? with
    | some f => bit (frameOf f).2.2.1 2
    | none => false
  let events := bits ev 0 2 + (if lastRate then 4 else 0) + (if bit ev 3 then 8 else 0)
  -- a block without frames, or without a real one, has no stamps, no SEQ, no MEAS_RATE of its own: free values of the route and the
  -- round, so that equal inputs give equal blocks (R46; entry 4)
  let open_ (k : Nat) : Nat := Config.freeValue 8 (((((n * 16 + port) * 256 + prCore r) * 8 + prTask r) * 256 + prRing r) * 4 + k)
  let meas := match (fs.filter (fun f => !(frameOf f).2.1)).getLast? with
    | some f => (frameOf f).2.2.2
    | none => open_ 0
  let stamp (k : Nat) (f : Option CrossItem) : Nat := match f with
    | some x => x.stamp
    | none => open_ k
  let sq := match fs.head? with
    | some x => x.seq
    | none => open_ 3
  let rec_ := leBytes 8 n ++ leBytes 2 fs.length ++ leBytes 2 (all.length - fs.length) ++ leBytes 2 (fs.filter (fun f => (frameOf f).2.1)).length ++
    leBytes 1 events ++ leBytes 1 port ++ leBytes 8 (stamp 1 fs.head?) ++ leBytes 4 sq ++ leBytes 4 meas ++ leBytes 8 (stamp 2 fs.getLast?) ++ zeros 24
  let hs := (List.range (prChans r)).flatMap (fun k => leBytes 2 (match d.boundStream port (prFirst r + k) n with
    | some h => h
    | none => 0xFFFF))
  cs.flatMap Prod.fst ++ cs.flatMap Prod.snd ++ rec_ ++ padTo ((2 * prChans r + 63) / 64 * 64) hs

/-! ### Intake blocks (R531, R532) -/

/-- A record with its payload as it lies in the slot: audio as 16-bit linear, padded to 64 bytes. -/
def recordBytes (rec_ payload : Bytes) : Bytes :=
  let enc := leAt rec_ 3 1
  let body := if bit (leAt rec_ 2 1) 1 then payload
    else if enc = 0 then payload.flatMap (fun b => leBytes 2 (unsext 16 (alawDecode b.toNat)))
    else if enc = 1 then payload.flatMap (fun b => leBytes 2 (unsext 16 (ulawDecode b.toNat)))
    else payload
  let bs := rec_ ++ body
  padTo ((bs.length + 63) / 64 * 64) bs

/-- Audio samples of a record (R531). -/
def recordSamples (r payload : Bytes) : Nat :=
  if bit (leAt r 2 1) 1 then 0 else if leAt r 3 1 ≤ 1 then payload.length else payload.length / 2

/-- Records of an intake ring with the round of their cut. -/
def Dev.ringRecords (d : Dev) (ring : Nat) : List (Nat × Bytes × Bytes) :=
  (d.crossQ (srcKey 1 ring)).assigned.filterMap (fun p => match p.2.data with
    | .intake r b => if p.2.taken then some (p.1, r, b) else none
    | _ => none)

/-- A record's bytes with the samples of void frames replaced by zeros (R221); `ix`: index of its first sample in its stream. -/
def Dev.voidedRecord (d : Dev) (n ix : Nat) (r payload : Bytes) : Bytes :=
  let bs := recordBytes r payload
  let k := recordSamples r payload
  bs.zipIdx.map (fun p => if 32 ≤ p.2 && decide (p.2 < 32 + 2 * k) && d.voidSample (leAt r 0 2) n (ix + (p.2 - 32) / 2) then 0 else p.1)

def Dev.intakeBlock (d : Dev) (ring n : Nat) : Bytes :=
  let all := (d.ringRecords ring).filter (fun x => decide (n ≤ x.1))
  let count (l : List (Nat × Bytes × Bytes)) (h : Nat) : Nat := ((l.filter (fun x => leAt x.2.1 0 2 == h)).map (fun x => recordSamples x.2.1 x.2.2)).foldl (· + ·) 0
  let rs := (all.filter (fun x => x.1 == n)).zipIdx.map (fun x =>
    let h := leAt x.1.2.1 0 2
    let st := d.stream h
    d.voidedRecord n (st.sampleBase + st.samples.length - count all h + count ((all.filter (fun y => y.1 == n)).take x.2) h) x.1.2.1 x.1.2.2)
  let body := rs.flatten
  leBytes 8 n ++ leBytes 4 rs.length ++ leBytes 4 body.length ++ zeros 48 ++ body

/-! ### Void frames in the blocks of earlier rounds (R221) -/

/-- A chunk formed in a round has void frames. -/
def Dev.anyVoid (d : Dev) (n : Nat) : Bool := d.streams.any (fun p => p.2.voids.any (fun v => v.1 == n))

/-- The slots of a ring behind its newest, newest first: address and bytes. -/
def Dev.olderSlots (d : Dev) (w : Who) (ring : Nat) : List (Nat × Bytes) :=
  let k := d.tk w
  match k.ring? ring with
  | none => []
  | some r =>
    let n := srSlots r.decl
    (List.range (n - 1)).map (fun j =>
      let a := k.base + srBase r.decl + (r.put + 2 * n - 2 - j) % n * srBytes r.decl
      (a, sliceZ (memRead (d.core w.core).mem a (srBytes r.decl)) 0 (srBytes r.decl)))

/-- Writes that void the samples of one channel in an older block of f frames: the samples become zero and the fill mask marks them. -/
def voidWrites (r : Rec) (a k f : Nat) (bs : Bytes) (void : Nat → Bool) : List (Nat × Bytes) :=
  let e := encBytes (prEnc r) (prPack r)
  let mask := prChans r * prS r + k * prSm r
  let is_ := (List.range f).filter void
  if is_.isEmpty then []
  else is_.map (fun i => (a + k * prS r + e * i, zeros e)) ++
    [(a + mask, packBits (prSm r) ((List.range f).map (fun i => void i || bit (leAt bs (mask + i / 8) 1) (i % 8))))]

/-- Samples of the chunks formed in round n that lie in the port blocks of earlier rounds. -/
def Dev.voidPort (d : Dev) (w : Who) (ring : Nat) (r : Rec) (n : Nat) : Dev :=
  let rec_ := prChans r * (prS r + prSm r)
  let chans := (List.range (prChans r)).filterMap (fun k => (d.boundStream (prPort r) (prFirst r + k) n).map (fun p => (k, p)))
  let new := d.framesSince (prPort r) (prCap r) n
  ((d.olderSlots w ring).zipIdx.foldl (fun (a : Dev × Nat × Bool) x =>
    let bs := x.1.2
    if !a.2.2 || decide (n ≤ x.2) || leAt bs rec_ 8 + x.2 + 1 != n then (a.1, a.2.1, false)
    else
      let f := leAt bs (rec_ + 8) 2
      let back := a.2.1 + f
      let ws := chans.flatMap (fun (c : Nat × Nat) =>
        let total := (d.stream c.2).sampleBase + (d.stream c.2).samples.length
        voidWrites r x.1.1 c.1 f bs (fun i => decide (back ≤ total + i) && d.voidSample c.2 n (total + i - back)))
      (a.1.onCore w.core (fun x => x.storeAll ws), back, true)) (d, new, true)).1

/-- The records of an intake block: offset and header (R532). -/
def blockRecords : Nat → Nat → Bytes → List (Nat × Bytes)
  | 0, _, _ => []
  | n + 1, off, bs =>
    let h := sliceZ bs off 32
    let len := 32 + leAt h 4 4 * (if bit (leAt h 2 1) 1 then 4 else 2)
    (off, h) :: blockRecords n (off + (len + 63) / 64 * 64) bs

/-- Samples of the chunks formed in round n that lie in the intake blocks of earlier rounds. -/
def Dev.voidIntake (d : Dev) (w : Who) (ring src n : Nat) : Dev :=
  let audio (h : Bytes) : Nat := if bit (leAt h 2 1) 1 then 0 else leAt h 4 4
  let given (hs : List Bytes) (s : Nat) : Nat := ((hs.filter (fun h => leAt h 0 2 == s)).map audio).foldl (· + ·) 0
  let new := ((d.ringRecords src).filter (fun x => decide (n ≤ x.1))).map (fun x => x.2.1)
  ((d.olderSlots w ring).zipIdx.foldl (fun (a : Dev × List Bytes × Bool) x =>
    let bs := x.1.2
    if !a.2.2 || decide (n ≤ x.2) || leAt bs 0 8 + x.2 + 1 != n then (a.1, a.2.1, false)
    else
      let rs := blockRecords (leAt bs 8 4) 64 bs
      let ws := rs.zipIdx.flatMap (fun (y : (Nat × Bytes) × Nat) =>
        let s := leAt y.1.2 0 2
        let total := (d.stream s).sampleBase + (d.stream s).samples.length
        let back := given (a.2.1 ++ (rs.drop y.2).map Prod.snd) s
        ((List.range (audio y.1.2)).filter (fun i => decide (back ≤ total + i) && d.voidSample s n (total + i - back))).map
          (fun i => (x.1.1 + y.1.1 + 32 + 2 * i, zeros 2)))
      (a.1.onCore w.core (fun x => x.storeAll ws), a.2.1 ++ rs.map Prod.snd, true)) (d, new, true)).1

/-! ### Link transfers (R481, R482) -/

/-- Fields of a transfer header (R480). -/
def thCompile (b : Bytes) : Nat := leAt b 0 8
def thSrcDev (b : Bytes) : Nat := leAt b 8 2
def thDstDev (b : Bytes) : Nat := leAt b 10 2
def thCore (b : Bytes) : Nat := leAt b 12 1
def thWindow (b : Bytes) : Nat := leAt b 13 1
def thWell (b : Bytes) : Bool := bit (leAt b 14 1) 0
def thLand (b : Bytes) : Nat := leAt b 16 8
def thDeadline (b : Bytes) : Nat := leAt b 24 8
def thAddr (b : Bytes) : Nat := leAt b 32 8
def thBytes (b : Bytes) : Nat := leAt b 40 4
def thGen (b : Bytes) : Nat := leAt b 44 2
def thData (b : Bytes) : Bytes := sliceZ b 48 (thBytes b)

/-- The link that names a route's ring: IN_LINK of the delivering entry of path 0. -/
def Image.deliverLink (i : Image) (route : Nat) : Option Nat :=
  (i.routes.find? (fun r => fld r 0 1 == 2 && fld r 1 1 == 0 && fld r 2 2 == route && fld r 5 1 == 0xFF)).map (fun r => fld r 4 1)

/-- FIXED transfers that name a core's link ring for a round: link, place in its list, transfer. DESIGN CHOICE (entry 94): ascending sender,
route and address, then arrival, so that the order does not depend on the paths taken (R46). -/
def Dev.named (d : Dev) (job c : Nat) (r : Ring) (n : Nat) : List (Nat × Nat × RxXfer) :=
  match (d.job job).img with
  | none => []
  | some i =>
    let l : List (Nat × Nat × RxXfer) := d.links.flatMap (fun l => (l.2.rx.zipIdx.filter (fun p =>
      p.1.fixed && thCompile p.1.data == i.compileId && thCore p.1.data == c && thLand p.1.data == n && i.deliverLink p.1.route == some (srProducer r.decl))).map
        (fun p => (l.1, p.2, p.1)))
    (sortStamp (l.map (fun x => ((thSrcDev x.2.2.data * 65536 + x.2.2.route) * 2 ^ 64 + thAddr x.2.2.data, x)))).map Prod.snd

/-- Those that a RELEASE acts on: whole ones, and late ones, whose slots slip. -/
def Dev.landings (d : Dev) (job c : Nat) (r : Ring) (n : Nat) : List (Nat × Nat × RxXfer) :=
  (d.named job c r n).filter (fun x => x.2.2.whole || x.2.2.late)

/-- The writer of a link transfer. -/
def RxXfer.writer (x : RxXfer) : Writer :=
  ⟨thCompile x.data, thSrcDev x.data, Config.issuingCore (thCompile x.data) (thSrcDev x.data) x.route % 256⟩

def Dev.dropRx (d : Dev) (l k : Nat) : Dev := d.onLink l (fun x => { x with rx := (x.rx.zipIdx.filter (fun p => p.2 != k)).map Prod.fst })

/-- A CONTROL reject goes back to the sender (R502). -/
def Dev.reject (d : Dev) (header : Bytes) : Dev := d.send (.reject (thSrcDev header) (header.take 48))

/-- One LNK_CNT.LATE count (R509). -/
def Dev.countLate (d : Dev) (l : Nat) : Dev := d.count (linkOff l + 0x10) 32 1

/-- The first of the transfers that land is released into the ring's next slot, or dropped; none: it finds no room. -/
def Dev.landOne (d : Dev) (w : Who) (ring : Nat) : Option Dev :=
  let k := d.tk w
  match k.ring? ring with
  | none => some d
  | some r => match d.landings k.job w.core r k.progRound with
    | [] => some d
    | (l, i, x) :: _ =>
      if x.late then some ((d.dropRx l i).slipSlot w.core w.task ring)
      else if d.ringFails w.core w.task (ring, true) then none
      else
        let bs := thData x.data
        match d.accepts w.core x.writer (k.putSlot r + thAddr x.data) bs.length with
        | some _ => match ((d.countWindows w.core x.writer (k.putSlot r + thAddr x.data) bs.length).dropRx l i).fillSlot w.core w.task ring [(thAddr x.data, bs)] with
          | .done d1 => some d1
          | .hold _ _ => none
        | none => some (((d.dropRx l i).windowDrop w.core).reject x.data)

/-- The transfers that land, in order, until one finds no room; whether all are released. Their order is the model's choice (entry 94). -/
def Dev.landAll (w : Who) (ring : Nat) : Nat → Dev → Dev × Bool
  | 0, d => (d, true)
  | n + 1, d => match d.landOne w ring with
    | none => (d, false)
    | some d1 => Dev.landAll w ring n d1

/-- The program has released a ring's crossing queue. -/
def Dev.noteReleased (d : Dev) (w : Who) (ring : Nat) : Dev :=
  d.onTask w.core w.task (fun k => if k.released.contains ring then k else { k with released := k.released ++ [ring] })

/-- The transfers of a list take a judgement as late, or lose it. -/
def Dev.judgeRx (d : Dev) (late : Bool) (xs : List (Nat × Nat × RxXfer)) : Dev :=
  xs.foldl (fun d x => d.onLink x.1 (fun y => { y with rx := lset y.rx x.2.1 (fun z => { z with judged := true, late := late }) })) d

/-- The release tick of a round's transfers (R25, R482): those that are not complete are late as those that came after their DEADLINE are, and
each late one fails the items of the RELEASE. Where none has come, one is absent. `false`: a replay, which takes the failures from its log,
waits for data that did not fail. -/
def Dev.judgeTick (d : Dev) (w : Who) (ring : Nat) (r : Ring) : Dev × Bool :=
  let k := d.tk w
  let hs := d.opHandles w.core w.task w.word
  let all := d.named k.job w.core r k.progRound
  let bad := all.filter (fun x => !x.2.2.whole || x.2.2.late)
  let link := srProducer r.decl % 64
  let e : Err := { code := 0x0901, kind := 3, unit := link, round := some k.progRound }
  let fail (d : Dev) : Dev := (d.recordEach e k.progRound hs ring (fun _ => false)).markFailed k.progRound hs 0x0901
  match d.loggedFails k.job k.progRound 0x0901 with
  | some fs =>
    if (d.runningItems k.progRound hs).any (fun i => fs.contains (i.1, i.2.seq)) then
      (if all.isEmpty then d.slipSlot w.core w.task ring else d.judgeRx true bad, true)
    else (d.judgeRx false (bad.filter (fun x => x.2.2.whole)), !all.isEmpty && all.all (fun x => x.2.2.whole))
  | none =>
    if all.isEmpty then
      (((fail d).countLate link).slipSlot w.core w.task ring |>.onTask w.core w.task (fun k => { k with missed := k.missed ++ [(ring, k.progRound)] }), true)
    else
      let d1 := (bad.filter (fun x => !x.2.2.late)).foldl (fun d x => d.countLate x.1) d
      ((bad.foldl (fun d _ => fail d) d1).judgeRx true bad, true)

/-- The first RELEASE of a round is its tick; a further one, or one that waited for room, releases what the tick left. -/
def Dev.releaseLink (d : Dev) (w : Who) (ring : Nat) (r : Ring) : WRes :=
  let k := d.tk w
  let j := if k.released.contains ring then (d, true) else d.judgeTick w ring r
  if !j.2 then .hold (.ring ring true) (k.budget ring)
  else
    let a := Dev.landAll w ring (j.1.landings k.job w.core r k.progRound).length j.1
    if a.2 then .done (a.1.noteReleased w ring) else .hold (.ring ring true) (k.budget ring)

/-! ### Well data (R413 to R415) -/

/-- Transfers of a task into a crossing ring that no RELEASE has taken: still queued on a well pump (with its pump), and landed. -/
def Dev.wellQueued (d : Dev) (w : Who) (ring : Nat) : List (PumpId × Xfer) :=
  let s : Fin 4 := Fin.ofNat 4 (w.core / 64)
  (List.range 4).flatMap (fun p =>
    let id : PumpId := .well s (Fin.ofNat 4 p)
    ((d.pump id).queue.filter (fun x => x.core == w.core && x.task == w.task && !x.dropped && (d.xferRings x).contains (ring, true))).map (fun x => (id, x)))

def Dev.wellLanded (d : Dev) (w : Who) (ring : Nat) : List Xfer :=
  (d.core w.core).landed.filter (fun x => x.core == w.core && x.task == w.task && (d.xferRings x).contains (ring, true))

/-- Issue order of transfers. -/
def before (a b : Xfer) : Bool := decide (a.round < b.round) || (a.round == b.round && decide (a.word < b.word))

def oldest (l : List Xfer) : Option Xfer := l.foldl (fun a x => match a with
  | some y => if before x y then some x else some y
  | none => some x) none

/-- The class policy of a stream: LATE_FAIL (R307). -/
def Dev.lateFail (d : Dev) (h : Nat) : Bool := bit (fld (d.clsOf h) 5 1) 0

/-- A change of one queued transfer of a pump: the first that equals it. -/
def Dev.onXfer (d : Dev) (p : PumpId) (x : Xfer) (f : Xfer → Xfer) : Dev :=
  d.onPump p (fun y => match y.queue.findIdx? (· == x) with
    | some i => { y with queue := lset y.queue i f }
    | none => y)

/-- What a late well transfer does at its due tick: records once (R415), then the consumer waits or goes on. `none`: it waits. -/
def Dev.lateXfer (d : Dev) (w : Who) (p : PumpId) (x : Xfer) (ring : Nat) : Dev × Bool :=
  let hs := d.opHandlesAt x.core x.task x.word x.round
  let items := d.runningItems x.round hs
  let noted := decide (x.deadline ≠ 0)
  let count (d : Dev) : Dev := if noted then d else d.count (pumpReg p + 8) 16 1
  let drop (d : Dev) : Dev := (d.onXfer p x (fun x => { x with dropped := true })).count (pumpReg p + 8) 32 1
  let keep (d : Dev) : Dev := d.onXfer p x (fun x => { x with deadline := 1 })
  -- R51: late speculative work is aborted without an error record
  let spec := ((specSpans ((List.range (d.tk w).schedWords).map (d.wordAt w.core w.task))).getD x.word none).isSome
  if !((d.job x.job).realtime) then (keep (count d), true)
  else if spec then (drop (count (hs.foldl (fun d h => d.abortGen h true) d)), false)
  else match d.loggedFails x.job (d.tk w).progRound 0x0601 with
  -- R416: a replay fails the logged items alone, which their marks do, and waits for any other
  | some fs =>
    if !items.isEmpty && items.all (fun i => fs.contains (i.1, i.2.seq)) then (drop (count d), false) else (keep (count d), true)
  | none =>
    let anyWaits := items.any (fun i => !d.lateFail i.1) || items.isEmpty
    let d1 := if noted then d
      else
        let d2 := (count d).recordEach { code := 0x0601, kind := 0, task := w.task, unit := w.core, round := some (d.tk w).progRound } x.round hs ring (fun h => !d.lateFail h)
        d2.markFailed x.round (hs.filter d.lateFail) 0x0601
    if anyWaits then (keep d1, true) else (drop d1, false)

def Dev.releaseWell (d : Dev) (w : Who) (ring : Nat) : WRes :=
  let k := d.tk w
  let q := d.wellQueued w ring
  let l := d.wellLanded w ring
  match oldest (l ++ q.map Prod.snd) with
  | none => .done d
  | some x =>
    if l.contains x then
      match d.fillSlot w.core w.task ring x.land with
      | .done d1 => .done (d1.onCore w.core (fun c => { c with landed := c.landed.erase x }))
      | h => h
    else match q.find? (fun y => y.2 == x) with
      | none => .done d
      | some (p, _) =>
        let r := d.lateXfer w p x ring
        -- a wait keeps what its records and failures changed only when the word goes on; they are written once it is held
        if r.2 then .hold (.ring ring true) (k.budget ring) else .done (r.1.slipSlot w.core w.task ring)

/-- The records of R415 when a late transfer holds a RELEASE. -/
def Dev.noteWell (d : Dev) (w : Who) (ring : Nat) : Dev :=
  match oldest ((d.wellLanded w ring) ++ (d.wellQueued w ring).map Prod.snd) with
  | none => d
  | some x => match (d.wellQueued w ring).find? (fun y => y.2 == x) with
    | some (p, _) => (d.lateXfer w p x ring).1
    | none => d

/-- What a RELEASE that is held has done: the tick of its link transfers and those that found room, the records of a late well transfer. -/
def Dev.noteLate (d : Dev) (w : Who) (ring : Nat) : Dev :=
  match (d.tk w).ring? ring with
  | some r =>
    if srSource r.decl = 4 then
      let k := d.tk w
      let j := if k.released.contains ring then (d, true) else d.judgeTick w ring r
      if j.2 then (Dev.landAll w ring (j.1.landings k.job w.core r k.progRound).length j.1).1.noteReleased w ring else j.1
    else d.noteWell w ring
  | none => d

/-! ### Remote writes (R19, R375 to R378, R384) -/

/-- The transfer whose write comes from a core: the first of its local pump that runs and has its DST in another core's window (R400). -/
def Dev.farXfer (d : Dev) (c : Nat) : Option Xfer := (d.core c).pump.queue.find? (fun x =>
  let k := d.task x.core x.task
  x.started && !x.dropped && tSpace (k.desc (pdDst (k.desc x.desc))) == 3)

/-- The task that a core's remote write belongs to: that of its transfer, else its lowest. -/
def Dev.farTask (d : Dev) (c : Nat) : Nat := match d.farXfer c with
  | some x => x.task
  | none => (((d.core c).tasks.find? (fun p => p.2.state != .none)).map Prod.fst).getD 0

/-- The ring whose current put slot the bytes fall into, fed by another core: target's task and ring. -/
def Dev.putRing (d : Dev) (writer target off n : Nat) : Option (Nat × Nat) :=
  (d.core target).tasks.findSome? (fun p => (p.2.rings.find? (fun r => srSource r.decl == 1 && srProducer r.decl == writer &&
    decide (p.2.putSlot r ≤ off) && decide (off + n ≤ p.2.putSlot r + srBytes r.decl))).map (fun r => (p.1, srRing r.decl)))

def Core.store (x : Core) (off : Nat) (data : Bytes) : Core := x.storeAll [(off, data)]

/-- The tag of another core's put slot shows whether a write waits on it (R399). -/
def Dev.farWait (d : Dev) (target t ring : Nat) (wait : Bool) : Dev := match (d.task target t).ring? ring with
  | some r => d.onCore target (fun x => x.onTag (ringTag r true) (fun g => { g with wait := wait, slipped := g.slipped && !wait }))
  | none => d

/-- A write that a window has accepted, into a ring's put slot. A transfer's first one tests the tag, and its slot becomes full once the transfer
completes; a write of no transfer is an operation of its own. A full elastic slot holds the write back, a full static one slips. -/
def Dev.farWrite (d : Dev) (writer target off : Nat) (data : Bytes) (t ring : Nat) : Dev :=
  let x := d.farXfer writer
  let note (s : Bool) (d : Dev) : Dev := match x with
    | some y => d.onXfer (.core (Fin.ofNat 256 writer)) y (fun y => { y with far := y.far ++ [⟨target, t, ring, s⟩] })
    | none => d.ringMove target t (if s then [(ring, true)] else []) (ring, true)
  match x.bind (fun y => y.far.find? (fun f => f.core == target && f.task == t && f.ring == ring)) with
  | some f => if f.slipped then d else d.onCore target (fun c => c.store off data)
  | none =>
    if !(d.ringFails target t (ring, true)) then note false (d.onCore target (fun c => c.store off data))
    else if (d.task target t).elastic ring then
      (d.onCore writer (fun c => { c with pump := { c.pump with held := some ⟨target, off, data, d.tb.round⟩ } })).farWait target t ring true
    else match x with
    | some y =>
      let hs := d.opHandlesAt writer y.task y.word y.round
      let e : Err := { code := 0x0502, kind := 0, task := t, unit := target, a := ring % 256 + 256 * (d.runningItems y.round hs).length, b := d.lowestSeq y.round hs }
      (note true d).detect e hs y.job target t y.round
    | none => (note true d).slip ⟨target, t, (d.task target t).pc⟩ ring

/-- A write that waits at a full slot, with the task and ring that hold it. -/
def Dev.farHeld (d : Dev) (writer : Nat) : Option (FarWrite × Nat × Nat) := (d.core writer).pump.held.bind (fun h =>
  (d.putRing writer h.target h.off h.data.length).map (fun r => (h, r)))

def Dev.farFree (d : Dev) (writer : Nat) : Dev := d.onCore writer (fun c => { c with pump := { c.pump with held := none } })

/-- The write of a core goes on once its slot is empty (R376, R378); one whose wait has outlasted its budget ends as a timeout alone (R379). -/
def Dev.retryFar (d : Dev) (writer : Nat) : Dev := match (d.core writer).pump.held with
  | none => d
  | some h => match d.putRing writer h.target h.off h.data.length with
    | none => d.farFree writer
    | some (t, ring) =>
      let outlasted := match d.farXfer writer with
        | some x => d.outlasted x.job x.round h.began ((d.task h.target t).budget ring)
        | none => decide (h.began + (d.task h.target t).budget ring ≤ d.tb.round)
      if outlasted || d.ringFails h.target t (ring, true) then d
      else ((d.farFree writer).farWait h.target t ring false).farWrite writer h.target h.off h.data t ring

/-! ### Metadata of cords (R222, R309) -/

def clToken (c : Rec) : Bool := fld c 1 1 == 1
def clChunk (c : Rec) : Nat := if clToken c then 1 else fld c 3 1

/-- The crossing queue that a stream takes its samples from (R28). -/
def Stream.crossing (s : Stream) : Nat × Nat := (if s.source = 1 then 0 else 1, s.port)

/-- The bytes of a cord's block in the slots that `sel` names, of the item scheduled in round n, else of one whose N compute rounds go on: a slot whose stream has no item in the round, or that holds no stream, shows no start (R222,
DEDUCED for an empty slot, entry 44). -/
def Dev.metaWrites (d : Dev) (job n : Nat) (c : Rec) (cord : Nat) (sel : Option (Nat × Nat) → Bool) : List (Nat × Bytes) :=
  ((List.range 64).filter (fun s => sel ((d.slotStream job (cord * 64 + s)).map (fun p => p.2.crossing)))).flatMap (fun s =>
    let st := (d.slotStream job (cord * 64 + s)).map Prod.snd
    let N := max 1 (fld c 4 1)
    let item := st.bind (fun x => (x.items.filter (fun i => !i.withheld)).find? (fun i => i.run == some n) <|>
      (x.items.filter (fun i => !i.withheld)).find? (fun i => i.run.any (fun r => decide (r < n) && decide (n < r + N))))
    let seg := match st with
      | some x => (x.posIn n).seg
      | none => 0
    let dlen := match st with
      | some x => if bit (fld c 6 1) 1 then (x.posIn n).dlen else 0
      | none => 0
    let r := match item with
      | some i => sliceZ i.segRec 0 16
      | none => leBytes 4 seg ++ leBytes 4 seg ++ leBytes 1 0xFF ++ zeros 7
    let T := match item with
      | some i => if i.kind = 0 then i.count else 1
      | none => if clToken c then 1 else clChunk c
    let start := leAt r 8 1
    [(16 * s, r), (1024 + 128 * s, (List.range T).flatMap (fun f => leBytes 4 (if f < start then leAt r 0 4 else leAt r 4 4))),
      (9216 + 128 * s, (List.range T).flatMap (fun f => leBytes 4 (if f < start then 1 else 0))),
      (17408 + 4 * s, leBytes 4 item.isSome.toNat), (17664 + 4 * s, leBytes 4 dlen)])

/-- The blocks of a class in the task that takes its metadata, for the slots that `sel` names by their streams' intake queue. -/
def Dev.writeClsMeta (d : Dev) (job n : Nat) (sel : Option (Nat × Nat) → Bool) (x : Rec) : Dev :=
  (List.range (fld x 17 1 + 1 - fld x 16 1)).foldl (fun d j =>
    let c := fld x 20 2
    let base := (d.task c (fld x 19 1)).base + fld x 36 4 + j * 17920
    d.onCore c (fun y => y.storeAll ((d.metaWrites job n x (fld x 16 1 + j) sel).map (fun w => (base + w.1, w.2))))) d

/-- The blocks of a job's classes that some tasks take. -/
def Dev.writeMeta (d : Dev) (job n : Nat) (tasks : Nat → Nat → Bool) (sel : Option (Nat × Nat) → Bool) : Dev := match (d.job job).img with
  | none => d
  | some i => ((i.classes.map Prod.fst).filter (fun x => tasks (fld x 20 2) (fld x 19 1))).foldl (fun d x => d.writeClsMeta job n sel x) d

/-- The intake queue that a ring of a task takes: a port's, an intake ring's. -/
def Dev.ringCrossing (d : Dev) (c t : Nat) (r : Ring) : Option (Nat × Nat) :=
  if srSource r.decl = 3 then some (1, srProducer r.decl)
  else if srSource r.decl = 2 then
    ((d.job (d.task c t).job).img.bind (fun i => i.portRoutes.find? (fun x => prDir x == 0 && prCore x == c && prTask x == t && prRing x == srRing r.decl))).map
      (fun x => (0, prPort x))
  else none

/-- A program of the job releases an intake queue. -/
def Dev.releasesQueue (d : Dev) (job : Nat) (q : Nat × Nat) : Bool := (d.job job).tasks.any (fun p =>
  let k := d.task p.1 p.2
  (List.range k.schedWords).any (fun i =>
    let w := d.wordAt p.1 p.2 i
    wOpcode w == 0x0A && (match k.ring? (bits (wArgs w) 0 8) with
      | some r => d.ringCrossing p.1 p.2 r == some q
      | none => false)))

/-! ### RELEASE -/

/-- RELEASE (R25): the entries that the rule for the ring's source names. The first one of a round releases the round's block. -/
def releaseW (d : Dev) (w : Who) (ring : Nat) : WRes :=
  let k := d.tk w
  match k.ring? ring with
  | none => .done d
  | some r =>
    let src := srSource r.decl
    let once (bs : Bytes) (old : Dev → Dev) : WRes :=
      if k.released.contains ring then .done d
      else match d.fillSlot w.core w.task ring [(0, bs)] with
        | .done d1 => .done (((if d.anyVoid k.progRound then old d1 else d1).noteReleased w ring).writeMeta k.job k.progRound (fun _ _ => true)
            (fun q => q.isSome && q == d.ringCrossing w.core w.task r))
        | h => h
    if src = 2 then
      match (d.job k.job).img.bind (fun i => i.portRoutes.find? (fun x => prDir x == 0 && prCore x == w.core && prTask x == w.task && prRing x == ring)) with
      | some x => once (d.portBlock x k.progRound) (fun d => d.voidPort w ring x k.progRound)
      | none => .done d
    else if src = 3 then once (d.intakeBlock (srProducer r.decl) k.progRound) (fun d => d.voidIntake w ring (srProducer r.decl) k.progRound)
    else if src = 4 then d.releaseLink w ring r
    else if src = 5 then d.releaseWell w ring
    else .done d

end Sys2Proof.Machine
end

