-- ==== Sys2Proof/Machine/Recover.lean ====
section
/-! DEFINITION. Machine/Recover.lean: checkpoints of streams and cores (R33, R36, R380, R551), and their restore (R381, R554 to R559). -/

namespace Sys2Proof.Machine

/-! ### Capture -/

/-- Ember descriptors of a class and cord on a task. -/
def emberDescs (k : Task) (cls cord : Nat) : List Rec :=
  k.descs.filter (fun r => fld r 63 1 == 0x0B && fld r 12 1 == cls && emCord r == cord)

/-- The slices of a stream's active slot. -/
def Dev.ckSlices (d : Dev) (h : Nat) : List (Nat × Nat × Bytes) :=
  let s := d.stream h
  match s.slot with
  | none => []
  | some slot => (d.job s.job).tasks.flatMap (fun p =>
      let k := d.task p.1 p.2
      (emberDescs k s.cls (slot / 64)).flatMap (fun r => (emTensors r).map (fun i =>
        (p.1 * 8 + p.2, i, sliceOf (d.core p.1).readable (k.view i false []) (slot % 64)))))

def Dev.ckSeqs (d : Dev) (h : Nat) : List (Nat × Seq) := (d.layersOf h).map (fun l => (kvLayer l, d.seq h (kvLayer l)))

/-- The stream's checkpoint of a mark, with the generator context of that mark (R296); the two latest are kept (R552). -/
def Dev.capture (d : Dev) (n h : Nat) : Dev :=
  let s := d.stream h
  let ck : StreamCk := { handle := h, round := n, stream := { s with frame := (s.posIn n).frame, token := (s.posIn n).token }, slices := d.ckSlices h, seqs := d.ckSeqs h }
  let mine := (d.streamCks.filter (fun c => c.handle == h && decide (c.round < n)))
  { d with streamCks := d.streamCks.filter (fun c => c.handle != h) ++ mine.drop (mine.length - 1) ++ [ck] }

/-- Places of a core's histories (R279) and of its adapters' tensors (R344). -/
def Dev.ckPlaces (d : Dev) (c : Nat) : List (Nat × Nat) :=
  let x := d.core c
  (x.groups.filter (fun g => gAdapts g.decl)).map (fun g =>
    (histAddr (x.task (gTask g.decl)) g.decl 0 0, gWindow g.decl * gCount g.decl * 8)) ++
  d.jobs.flatMap (fun j => match j.2.img with
    | some i => (i.adapters.filter (fun a => fld a 4 2 == c)).flatMap (fun a =>
        let k := x.task (fld a 6 1)
        (List.range 16).map (fun t =>
          let r := (k.view (fld a 18 2 + t) false []).range
          (r.1.toNat, (r.2 - r.1).toNat)))
    | none => [])

def Dev.ckAdapters (d : Dev) (c : Nat) : List (Nat × Nat × AdpState) :=
  d.jobs.flatMap (fun j => match j.2.img with
    | some i => (i.adapters.filter (fun a => fld a 4 2 == c)).filterMap (fun a =>
        (mget j.2.adps (fld a 0 1)).map (fun s => (j.1, fld a 0 1, s)))
    | none => [])

/-- A core's job state at a mark. -/
def Dev.captureCore (d : Dev) (n c : Nat) : Dev :=
  let x := d.core c
  let ck : CoreCk :=
    { core := c, round := n, tags := x.tags, tallies := x.tallies, rings := mmap (fun _ r => r) (x.tasks.map (fun p => (p.1, p.2.rings))),
      scale := x.scale, groups := x.groups, gens := x.gens, pendLoads := x.pendLoads,
      mem := (d.ckPlaces c).map (fun p => (p.1, memRead x.mem p.1 p.2)), adps := d.ckAdapters c }
  let mine := d.coreCks.filter (fun k => k.core == c && decide (k.round < n))
  { d with coreCks := d.coreCks.filter (fun k => k.core != c) ++ mine.drop (mine.length - 1) ++ [ck] }

/-- The latest checkpoint of a mark up to n. -/
def Dev.ckOf (d : Dev) (h n : Nat) : Option StreamCk := (d.streamCks.filter (fun c => c.handle == h && decide (c.round ≤ n))).getLast?

def Dev.coreCkOf (d : Dev) (c n : Nat) : Option CoreCk := (d.coreCks.filter (fun k => k.core == c && decide (k.round ≤ n))).getLast?

/-! ### Restore of a stream -/

/-- Tensor slices go back into the slot; `mv` gives the task that holds them now (R562). -/
def Dev.putSlices (d : Dev) (ck : StreamCk) (mv : Nat → Nat) : Dev :=
  match ck.stream.slot with
  | none => d
  | some slot => ck.slices.foldl (fun d x =>
      let t := mv x.1
      d.onCore (t / 8) (fun y => y.storeAll (sliceInto y.readable ((y.task (t % 8)).view x.2.1 true []) (slot % 64) x.2.2))) d

/-- A sequence's record and list return; slots at or beyond its lengths become zero, twins go (R551). -/
def Dev.restoreSeq (d : Dev) (h : Nat) (l : Rec) (q : Seq) : Dev :=
  let d1 := d.setSeq h (kvLayer l) (fun s => { q with twin := [], specLen := 0, specOpen := false, lastRun := s.lastRun })
  let mx := max 1 (kvMaxPages l)
  let past (len i s : Nat) : Bool :=
    if kvWindow l then (List.range (16 * (kvReach l + 2))).any (fun o => (len + o) % (16 * mx) == 16 * i + s) else decide (len ≤ 16 * i + s)
  let d2 := q.cur.foldl (fun d e => d.onPages l e.1 e.2 (clearSlots l (past q.len e.1))) d1
  q.ret.foldl (fun d e => d.onPages l e.1 e.2 (clearSlots l (past q.retLen e.1))) d2

/-- Tensors, sequences and token count of a checkpoint; a handle that was entering or leaving does so again. -/
def Dev.putState (d : Dev) (ck : StreamCk) (mv : Nat → Nat) : Dev :=
  let h := ck.handle
  let d1 := d.putSlices ck mv
  let d2 := (d1.layersOf h).foldl (fun d l => match ck.seqs.find? (fun q => q.1 == kvLayer l) with
    | some q => d.restoreSeq h l q.2
    | none => d) d1
  let taken := d2.streams.any (fun p => p.1 != h && p.2.state != .free && p.2.slot == ck.stream.slot && ck.stream.slot.isSome && p.2.job == ck.stream.job)
  d2.onStream h (fun s =>
    let again := (ck.stream.state == .entering || ck.stream.state == .leaving) && !taken
    { s with
      token := ck.stream.token
      committed := 0
      drafted := ck.stream.drafted
      specOpen := false
      specLen := 0
      state := if again then ck.stream.state else s.state
      slot := if again then ck.stream.slot else s.slot })

/-- An item of a class with N rounds ran in round n or later. -/
def ranFrom (n rounds : Nat) (i : Item) : Bool := match i.run with
  | some r => decide (n < r + rounds)
  | none => false

/-- Items that ran from round n on are held again; their attempt's detections and failures are forgotten (R131, R554). -/
def heldAgain (n rounds : Nat) (i : Item) : Item :=
  if ranFrom n rounds i then { i with run := none, detected := 0, failed := 0, replayed := true } else i

/-- R554, R555, R559 for one stream at a recovery mark: state from the checkpoint of mark n, items held again and logged, LAG raised.
The mark's decisions schedule the oldest held item. `hit` tells which items the detection's code stands for. -/
def Dev.restoreStream (d : Dev) (h n code : Nat) (mv : Nat → Nat) (hit : Item → Bool) : Dev :=
  match d.ckOf h n with
  | none => d
  | some ck =>
    let again := (d.stream h).items.filter (ranFrom ck.round (d.rounds h))
    let d1 := d.putState ck mv
    let d2 := again.foldl (fun d i => d.logRec (outcomeRec 0x30 1 h (i.kind % 8) d.tb.round i.seq (if hit i then code else 0))) d1
    d2.onStream h (fun s =>
      { s with
        frame := ck.stream.frame
        lag := s.lag + (d.tb.round - ck.round)
        items := s.items.map (heldAgain ck.round (d.rounds h)) })

/-- R558: another item of a stream ran since the mark of round n, so that a restore from there replays it. -/
def Dev.ranSince (d : Dev) (h n : Nat) : Bool := match d.ckOf h n with
  | none => false
  | some ck => (d.stream h).items.any (fun i => ranFrom ck.round (d.rounds h) i && decide (i.run.getD 0 < d.tb.round))

/-- R558 with nothing to replay: the stream's state returns, FRAME keeps its advance and LAG its value. -/
def Dev.restoreState (d : Dev) (h n : Nat) : Dev := match d.ckOf h n with
  | none => d
  | some ck => d.putState ck id

/-! ### Restore of a core's job state -/

/-- The state of one task: rings and their tags, scale groups with their entries and histories, adapters (R554, class TASK). -/
def Dev.restoreTask (d : Dev) (c t n : Nat) : Dev :=
  match d.coreCkOf c n with
  | none => d
  | some ck =>
    let rs := mgetD ck.rings t []
    let d1 := d.onTask c t (fun k => { k with rings := rs, wait := none })
    let d2 := d1.onCore c (fun x =>
      let tags := rs.foldl (fun m r => (List.range (srSlots r.decl)).foldl (fun m i => match mget ck.tags (srFirst r.decl + i) with
        | some g => mset m (srFirst r.decl + i) g
        | none => mdel m (srFirst r.decl + i)) m) x.tags
      let gs := x.groups.zipIdx.map (fun p => if gTask p.1.decl = t then ck.groups.getD p.2 p.1 else p.1)
      let sc := (ck.groups.filter (fun g => gTask g.decl == t)).foldl (fun m g =>
        (List.range (gCount g.decl)).foldl (fun m j => mset m (gFirst g.decl + j) (mgetD ck.scale (gFirst g.decl + j) 0)) m) x.scale
      { x with tags := tags, groups := gs, scale := sc })
    let k := d2.task c t
    let d3 := d2.onCore c (fun x => (ck.mem.filter (fun p => decide (k.base ≤ p.1) && decide (p.1 + p.2.length ≤ k.bound))).foldl
      (fun x p => x.storeAll [p]) x)
    ck.adps.foldl (fun d a => match (d.job a.1).img.bind (fun i => i.adapters.find? (fun r => fld r 0 1 == a.2.1)) with
      | some r => if fld r 6 1 = t then d.onJob a.1 (fun j => { j with adps := mset j.adps a.2.1 a.2.2 }) else d
      | none => d) d3

/-- The job state of a whole core, put on a core that stands in for it (R562). -/
def Dev.restoreCore (d : Dev) (c c' n : Nat) : Dev :=
  match d.coreCkOf c n with
  | none => d
  | some ck =>
    let d1 := d.onCore c' (fun x =>
      { x with
        tags := ck.tags
        tallies := ck.tallies
        scale := ck.scale
        groups := ck.groups
        gens := ck.gens
        pendLoads := ck.pendLoads
        tasks := mmap (fun t k => { k with rings := mgetD ck.rings t k.rings, wait := none }) x.tasks })
    let place (a : Nat) : Nat := match (d.core c).tasks.find? (fun p => decide (p.2.base ≤ a) && decide (a < p.2.bound)) with
      | some p => (d.task c' p.1).base + (a - p.2.base)
      | none => a
    let d2 := d1.onCore c' (fun x => ck.mem.foldl (fun x p => x.storeAll [(place p.1, p.2)]) x)
    ck.adps.foldl (fun d a => d.onJob a.1 (fun j => { j with adps := mset j.adps a.2.1 a.2.2 })) d2

/-! ### Timeouts (R379 to R381) -/

/-- A stream of a timed-out item is restored from the mark of the round in which the item began. -/
def Dev.restoreTimed (d : Dev) (h : Nat) : Dev :=
  let runs := ((d.stream h).items.filter (·.timedOut)).filterMap (·.run)
  match runs.head? with
  | none => d
  | some r0 =>
    let b := runs.foldl min r0
    match d.ckOf h b with
    | none => d.onStream h (fun s => { s with items := s.items.map (heldAgain b (d.rounds h)) })
    | some ck => (d.putState ck id).onStream h (fun s =>
        { s with frame := ck.stream.frame, lag := s.lag + (d.tb.round - ck.round), items := s.items.map (heldAgain ck.round (d.rounds h)) })

end Sys2Proof.Machine
end

