-- ==== Sys2Proof/Machine/Adapt.lean ====
section
/-! DEFINITION. Machine/Adapt.lean: adapters: their samples (R348 to R350), the update (R286, R352, R353) and the generation that a
serving run reads (R345, R354). -/

namespace Sys2Proof.Machine

/-! ### Entries (R343) -/

def adNum (a : Rec) : Nat := fld a 0 1
def adRank (a : Rec) : Nat := fld a 1 1
def adFmt (a : Rec) : Fmt := if fld a 2 1 = 1 then .bf16 else .e4m3
def adHost (a : Rec) : Bool := bit (fld a 3 1) 0
def adCore (a : Rec) : Nat := fld a 4 2
def adTask (a : Rec) : Nat := fld a 6 1
def adPurpose (a : Rec) : Nat := fld a 7 1
def adSteps (a : Rec) : Nat := fld a 12 1
def adFirst (a : Rec) : Nat := fld a 18 2
def adLr (a : Rec) : Nat := fld a 20 4
def adBeta1 (a : Rec) : Nat := fld a 24 4
def adBeta2 (a : Rec) : Nat := fld a 28 4
def adEps (a : Rec) : Nat := fld a 32 4
def adMax (a : Rec) : Nat := fld a 44 2

def AdpState.start : AdpState := { gen := 0, switchAt := none, step := 0, n := 0, discards := 0, seen := 0, sent := none }

def Job.adp (j : Job) (a : Nat) : AdpState := mgetD j.adps a AdpState.start

def Dev.onAdp (d : Dev) (j a : Nat) (f : AdpState → AdpState) : Dev := d.onJob j (fun x => { x with adps := mset x.adps a (f (x.adp a)) })

/-- Adapters whose tensors a task holds. -/
def Dev.adaptersOf (d : Dev) (c t : Nat) : List Rec := match (d.job (d.task c t).job).img with
  | some i => i.adapters.filter (fun a => adCore a == c && adTask a == t)
  | none => []

/-- The weight that a serving run reads: copies of odd generations in place of those it names (R345). -/
def Dev.weightIdx (d : Dev) (w : Who) (i : Nat) : Nat :=
  let j := d.job (d.tk w).job
  match (d.adaptersOf w.core w.task).find? (fun a => i == adFirst a + 2 || i == adFirst a + 3) with
  | some a => if (j.adp (adNum a)).gen % 2 = 1 then i + 2 else i
  | none => i

/-! ### Samples (R348 to R350) -/

/-- The samples that a round offers an adapter, in order, up to MAX_SAMPLES: items that have ended, none of them otherwise than OK or
OK_REPLAYED (R348). -/
def Dev.samplesFor (d : Dev) (a : Rec) (n : Nat) : List Sample :=
  ((d.samples.filter (fun s => s.round + 1 == n && decide (fld a 14 2 ≤ s.handle) && decide (s.handle ≤ fld a 16 2) &&
    s.cls == fld a 13 1 && s.job == (d.task (adCore a) (adTask a)).job && !((d.stream s.handle).items.any (fun i => i.seq == s.seq)) &&
    (!adHost a || d.targets.any (fun t => t.handle == s.handle && t.seg == s.seg && t.first == s.first && decide (t.round ≤ s.round))))).mergeSort
      (fun x y => decide (x.handle < y.handle) || (x.handle == y.handle && decide (x.seq ≤ y.seq)))).take (adMax a)

/-- CONF_TH. -/
def adConf (a : Rec) : Nat := fld a 40 4

/-- The largest probability that the recomputed forward pass gives a token of a sample, from +0 to 1.0 (R350). The pass is what the span's
words compute, and the spec names no tensor that holds its logits: a free value of the sample (entry 4). -/
def sampleProb (a : Rec) (s : Sample) : Nat :=
  Config.freeValue 4 (((s.job * 64 + adNum a) * 32768 + s.handle) * 2 ^ 32 + s.seq) % 0x3F800001

/-- How many samples contribute: all with host targets; with the item's own tokens those with a token of probability CONF_TH or more. -/
def Dev.contributing (d : Dev) (a : Rec) (n : Nat) : Nat :=
  ((d.samplesFor a n).filter (fun s => adHost a || decide (adConf a ≤ sampleProb a s))).length

/-! ### The update -/

/-- Requantisation of a block (R286): conversions, scale, and whether every value on the way is finite. -/
def requant (st : Bool) (rm : Nat → Rm) (vs : List Nat) : List ConvOut × Nat × Bool :=
  let mx := vs.foldl (fun m v => f32max m (f32abs v)) 0
  let scale := (mMul st mx 0x3C010204).1
  let k := if f32lt 0 mx then (mMul st 0x42FE0000 (gateFnF32 st 8 mx).1).1 else 0
  (vs.zipIdx.map (fun p => convOne st .int8 false none false (rm p.2)
    (f32 (f32min 0x42FE0000 (f32max 0xC2FE0000 (mMul st p.1 k).1)))), scale,
    isFinite (f32 scale) && isFinite (f32 k) && vs.all (fun v => isFinite (f32 (mMul st v k).1)))

/-- What the update of one matrix gives: bytes, rounding draws, and whether a value is not finite. -/
structure AdpHalf where
  writes : List (Nat × Bytes)
  draws : Nat
  inner : Bool
  kept : Bool
  deriving DecidableEq, Repr

/-- One element: first moment, second moment, new master, and whether every value of the update is finite. -/
def updateElement (st : Bool) (a : Rec) (rn G mscale mcode vscale vcode master : Nat) : Nat × Nat × Nat × Bool :=
  let g := (mMul st G rn).1
  let m := (mMul st mscale (f32ofInt (sext 8 mcode))).1
  let v := (mMul st vscale (f32ofInt (sext 8 vcode))).1
  let m' := (mFma st (adBeta1 a) (mSub st m g).1 g).1
  let gg := (mMul st g g).1
  let v' := (mFma st (adBeta2 a) (mSub st v gg).1 gg).1
  let ve := (mAdd st v' (adEps a)).1
  let rs := (gateFnF32 st 9 ve).1
  let step := (mMul st m' rs).1
  let w := (mFma st (f32neg (adLr a)) step (master * 65536)).1
  (m', v', w, [g, m, v, m', gg, v', ve, rs, step, w].all (fun c => isFinite (f32 c)))

/-- R352 for A (k = 0) or B (k = 1). -/
def Dev.updateHalf (d : Dev) (w : Who) (a : Rec) (k n : Nat) (odd : Bool) : AdpHalf :=
  let tk := d.tk w
  let st := tk.strict
  let m := (d.core w.core).readable
  let i0 := adFirst a
  let view (i : Nat) : View := tk.view (i0 + i) false []
  let rn := (gateFnF32 st 8 (f32ofInt n)).1
  let vM := view k
  let vC := view (if odd then 2 + k else 4 + k)
  let vG := view (6 + k)
  let mC := view (8 + 2 * k)
  let mS := view (9 + 2 * k)
  let sC := view (12 + 2 * k)
  let sS := view (13 + 2 * k)
  let N := tCount vM.t
  let flat (e : Nat) : Pt := ⟨e, 0, 0, 0⟩
  let es := (List.range N).map (fun e => updateElement st a rn (vG.code m (tPt vG.t e)) (mS.code m (flat (e / 32))) (mC.code m (flat e))
    (sS.code m (flat (e / 32))) (sC.code m (flat e)) (vM.code m (tPt vM.t e)))
  let sz (v : View) (i : Nat) : Nat := tSize v.t i
  let kept := es.zipIdx.map (fun p => convOne st .bf16 false none false
    (d.rmOf w.core w.task 2 (adPurpose a + 1) (sz vM) (tPt vM.t p.2)) (readVal st .fp32 p.1.2.2.1))
  let masters := kept.map (fun c => c.code)
  let copies := masters.map (fun c => (convOne st (adFmt a) true none false .rne (readVal st .bf16 c)).code)
  let blocks (vs : List Nat) (vc : View) : List (List ConvOut × Nat × Bool) := (List.range ((N + 31) / 32)).map (fun b =>
    requant st (fun i => d.rmOf w.core w.task 2 (adPurpose a) (sz vc) (flat (32 * b + i))) ((vs.drop (32 * b)).take 32))
  let bm := blocks (es.map (fun x => x.1)) mC
  let bv := blocks (es.map (fun x => x.2.1)) sC
  let put (v : View) (at_ : Nat → Pt) (cs : List Nat) : List (Nat × Bytes) := cs.zipIdx.filterMap (fun p => v.store m (at_ p.2) p.1)
  let fin (c : Nat) : Bool := isFinite (f32 c)
  { writes := put vM (tPt vM.t) masters ++ put vC (tPt vC.t) copies ++ put mC flat (bm.flatMap (fun b => b.1.map (fun c => c.code))) ++
      put mS flat (bm.map (fun b => b.2.1)) ++ put sC flat (bv.flatMap (fun b => b.1.map (fun c => c.code))) ++ put sS flat (bv.map (fun b => b.2.1)),
    draws := ((kept ++ (bm ++ bv).flatMap (fun b => b.1)).filter (fun c => c.drew)).length,
    inner := es.all (fun x => x.2.2.2) && (bm ++ bv).all (fun b => b.2.2) && masters.all (fun c => isFinite (decodeVal .bf16 c)),
    kept := es.all (fun x => fin x.1 && fin x.2.1) && (bm ++ bv).all (fun b => fin b.2.1) && masters.all (fun c => isFinite (decodeVal .bf16 c)) }

/-- GA and GB become +0. -/
def Dev.clearGrads (d : Dev) (w : Who) (a : Rec) : Dev :=
  let k := d.tk w
  let m := (d.core w.core).mem
  [6, 7].foldl (fun d i =>
    let v := k.view (adFirst a + i) true []
    d.onCore w.core (fun x => x.storeAll ((List.range (tCount v.t)).filterMap (fun f => v.store m (tPt v.t f) 0)))) d

/-- A word of an adaptation span, its end included. -/
def Dev.spanWord (d : Dev) (c t word : Nat) : Bool :=
  let ws := (List.range (d.task c t).schedWords).map (d.wordAt c t)
  (adaptSpans ws).getD word false || wOpcode (ws.getD word 0) == 0x18

/-- A NaN or an infinity that a word of an adaptation span of this program met, in a task whose trap is enabled (R353). -/
def Dev.spanNan (d : Dev) (w : Who) : Bool :=
  let k := d.tk w
  let sp := adaptSpans ((List.range k.schedWords).map (d.wordAt w.core w.task))
  k.nanTrap && (k.spanNan || k.cands.any (fun c => c.round == k.progRound && sp.getD c.word false))

/-- The end of a span in a granted round, for one adapter: the step counts, and at STEP_ROUNDS the update runs. -/
def Dev.adaptStep (d : Dev) (w : Who) (a : Rec) : Dev :=
  let k := d.tk w
  let s := (d.job k.job).adp (adNum a)
  let n := k.progRound
  if s.seen = n + 1 then d
  else
    let d0 := d
    let step := s.step + 1
    let tot := s.n + d.contributing a n
    let restart (d : Dev) (disc : Nat) (sw : Option Nat) : Dev :=
      d.onAdp k.job (adNum a) (fun x => { x with step := 0, n := 0, seen := n + 1, discards := min 255 (x.discards + disc), switchAt := sw })
    if d0.spanNan w then restart (d0.clearGrads w a) 1 s.switchAt
    else if step < adSteps a then d0.onAdp k.job (adNum a) (fun x => { x with step := step, n := tot, seen := n + 1 })
    else if tot = 0 then restart d0 0 s.switchAt
    else
      let hs := [d0.updateHalf w a 0 tot (s.gen % 2 = 1), d0.updateHalf w a 1 tot (s.gen % 2 = 1)]
      let met := (d0.core w.core).badWords ([0, 1, 6, 7, 8, 9, 10, 11, 12, 13, 14, 15].map (fun i => (k.view (adFirst a + i) false []).range))
      let ok := if k.nanTrap then hs.all (fun x => x.inner) else hs.all (fun x => x.kept)
      -- the draws of the masters and of both moments (R305, R352)
      let d0 := d0.count (coreOff w.core + 0xD00) 32 ((hs.map (fun x => x.draws)).foldl (· + ·) 0)
      let d1 := if ok then restart ((d0.onCore w.core (fun x => x.storeAll (hs.flatMap (fun x => x.writes)))).clearGrads w a) 0 (some (n + 1))
        else
          let d1 := restart (d0.clearGrads w a) 1 s.switchAt
          if k.nanTrap then d1.onTask w.core w.task (fun x => { x with cands := x.cands ++ [⟨w.word, 2, 5, 0, n⟩] }) else d1
      d1.eccRead w.core w.task w.word n met

/-- No later word of the program ends a span: the additions of the round are made (R352). -/
def Dev.lastSpan (d : Dev) (w : Who) : Bool :=
  let k := d.tk w
  (List.range k.schedWords).all (fun i => decide (i ≤ w.word) || wOpcode (d.wordAt w.core w.task i) != 0x18) &&
    (match k.loop with
      | some l => l.left == 0 || decide (l.last < w.word)
      | none => true)

/-- Every adapter of the task, in ascending order. -/
def Dev.adaptSpanEnd (d : Dev) (w : Who) : Dev := (d.adaptersOf w.core w.task).foldl (fun d a => d.adaptStep w a) d

/-- A due switch takes effect as the owning task's program starts (R354). -/
def Dev.switchAdapters (d : Dev) (c t r : Nat) : Dev :=
  (d.adaptersOf c t).foldl (fun d a =>
    let j := (d.task c t).job
    match ((d.job j).adp (adNum a)).switchAt with
    | some s =>
      if s ≤ r then d.onAdp j (adNum a) (fun x => { x with gen := x.gen + 1, switchAt := none }) else d
    | none => d) d

/-- What VMC_ADPj_STAT shows changes at a mark (R356). -/
def Job.latchAdp (j : Job) : Job :=
  { j with
    adpGens := min (2 ^ 32 - 1) ((j.adps.map (fun a => a.2.gen)).foldl (· + ·) 0)
    adpStep := (j.adps.map (fun a => a.2.step)).foldl max 0
    adpDisc := min 255 ((j.adps.map (fun a => a.2.discards)).foldl (· + ·) 0) }

end Sys2Proof.Machine
end

