-- ==== Sys2Proof/Machine/Results.lean ====
section
/-! DEFINITION. Machine/Results.lean: result records and the RESULT word (R332, R333, R534, R535, R541, R556). -/

namespace Sys2Proof.Machine

/-! ### Records in a slot -/

/-- Records of a result slot: a 32-byte header and BYTES of payload each, padded to 64; COUNT 0 ends the list. -/
def slotRecords : Nat → Bytes → List (Bytes × Bytes)
  | 0, _ => []
  | f + 1, bs =>
    if bs.length < 32 ∨ leAt bs 12 4 = 0 then []
    else (bs.take 32, sliceZ bs 32 (leAt bs 20 4)) :: slotRecords f (bs.drop ((32 + leAt bs 20 4 + 63) / 64 * 64))

def rrHandle (h : Bytes) : Nat := leAt h 0 2
def rrSeg (h : Bytes) : Nat := leAt h 2 2
def rrUnit (h : Bytes) : Nat := leAt h 4 1 / 2 % 2
def rrFirst (h : Bytes) : Nat := leAt h 8 4
def rrCount (h : Bytes) : Nat := leAt h 12 4

/-- One entry: the header with its flags, the supersessor of a provisional record, BYTES and TIME; then the piece of payload. -/
def resultEntry (size : Nat) (h piece : Bytes) (prov cont more : Bool) (now : Nat) : Bytes :=
  padTo size (h.take 4 ++ leBytes 1 (prov.toNat + 2 * rrUnit h + 4 * cont.toNat + 8 * more.toNat) ++ leBytes 1 0 ++
    (if prov then sliceZ h 6 2 else zeros 2) ++ sliceZ h 8 8 ++ (if prov then sliceZ h 16 4 else zeros 4) ++
    leBytes 4 piece.length ++ leBytes 8 now ++ piece)

/-- The entries of a record (R534). -/
def resultEntries (size : Nat) (h payload : Bytes) (prov : Bool) (now : Nat) : List Bytes :=
  let ps := if payload.isEmpty then [[]] else chunks (size - 32) payload
  ps.zipIdx.map (fun p => resultEntry size h p.1 prov (p.2 != 0) (decide (p.2 + 1 < ps.length)) now)

/-! ### Result rings -/

/-- The enabled result ring that names a slot ring. -/
def Dev.resultRing (d : Dev) (c t ring : Nat) (prov : Bool) : Option Nat :=
  (List.range 32).find? (fun n =>
    let cfg := d.reg (ringOff 3 n + 8)
    bit cfg 0 && bit cfg 12 == prov && bits cfg 24 8 == ring && bits cfg 32 8 == c && bits cfg 40 3 == t)

/-- Whether a record's entries are written or wait; a record that does not fit its backlog is dropped (R535). -/
def Dev.resultRoom (d : Dev) (n entries size : Nat) : Bool :=
  let r := d.ring (ringKey 3 n)
  (r.backlog.isEmpty && decide (entries + sub32 r.devIdx r.hostIdx ≤ d.ringEntries 3 n)) || decide (r.backlogBytes + entries * size ≤ backlogMax)

/-- The item that a record of a round's program belongs to: of those that run then the one that confirms its frames, else the oldest. -/
def Dev.recordItem (d : Dev) (n h unit first : Nat) : Option Item :=
  let s := d.stream h
  let run := s.items.filter (fun i => i.runs (d.rounds h) n)
  let p : Prov := { job := s.job, handle := h, unit := unit, seg := 0, first := first, count := 1, index := 0, round := 0 }
  match run.find? (fun i => provOf (d.classLa s) (s.lastItem i) i p) with
  | some i => some i
  | none => run.head?

/-- Ends of the ranges posted, confirmed by UNIT and provisional by UNIT + 2 (R556). -/
def Stream.postedEnd (s : Stream) (k : Nat) : Nat := mgetD s.posted k 0

/-- The item that confirms a provisional record runs in its last compute round, so that both would post in round n (R333). -/
def Dev.confirmsNow (d : Dev) (n h unit first : Nat) : Bool :=
  let s := d.stream h
  let p : Prov := { job := s.job, handle := h, unit := unit, seg := 0, first := first, count := 1, index := 0, round := 0 }
  s.items.any (fun i => i.runs (d.rounds h) n && provOf (d.classLa s) (s.lastItem i) i p &&
    (match i.run with
      | some r => r + d.rounds h == n + 1
      | none => false))

/-- Bytes of an entry of a result ring (R525). A host may write REC_64 outside 1 to 64, and the spec states no entry size for
that: a free value in 1 to 64 (entry 4). -/
def Dev.entrySize (d : Dev) (n : Nat) : Nat :=
  let v := d.regF (ringOff 3 n + 8) 16 8
  if inR 1 v 64 then 64 * v else 64 * (1 + Config.freeValue 10 v % 64)

/-- One record of a RESULT word. -/
def Dev.postRecord (d : Dev) (w : Who) (n : Nat) (prov : Bool) (h payload : Bytes) (now : Nat) : Dev :=
  let hd := rrHandle h
  let st := d.stream hd
  let j := (d.tk w).job
  let unit := rrUnit h
  let stop := rrFirst h + rrCount h
  let size := d.entrySize n
  let es := resultEntries size h payload prov now
  match d.recordItem (d.tk w).progRound hd unit (rrFirst h) with
  | none => d
  | some i =>
    let again := i.replayed && (decide (stop ≤ st.postedEnd (if prov then unit + 2 else unit)) || (prov && decide (stop ≤ st.postedEnd unit)))
    let tooLate := prov && (decide (rrFirst h < st.postedEnd unit) || d.confirmsNow (d.tk w).progRound hd unit (rrFirst h))
    let masked := prov && unit == 1 && !bit (fld (d.clsOf hd) 6 1) 3
    if st.job ≠ j ∨ i.detected ≠ 0 ∨ i.failed ≠ 0 ∨ again ∨ tooLate ∨ masked then d
    else if !d.resultRoom n es.length size then
      let d1 := d.onStream hd (fun s => { s with items := s.items.map (fun x => if x.seq = i.seq then { x with lost := true } else x) })
      d1.raise { code := 0x0A07, cls := clsStream, kind := 4, unit := 3 * 256 + n, handle := some hd, a := 1, b := i.seq, round := some (d.tk w).progRound }
    else
      let index := ((d.ring (ringKey 3 n)).devIdx + (d.ring (ringKey 3 n)).backlog.length) % 2 ^ 32
      let d1 := es.foldl (fun d e => (d.post 3 n e).1) d
      let d2 := d1.onStream hd (fun s => { s with posted := mset s.posted (if prov then unit + 2 else unit) (max stop (s.postedEnd (if prov then unit + 2 else unit))) })
      if prov then
        { d2 with provs := d2.provs ++ [{ job := j, handle := hd, unit := unit, seg := rrSeg h, first := rrFirst h, count := rrCount h, index := index, round := d.tb.round }] }
      else
        let d3 := (d2.provs.filter (fun p => p.handle == hd && p.unit == unit && decide (rrFirst h ≤ p.first) && decide (p.first < stop))).foldl
          (fun d p => d.supersede p 0) d2
        if d3.samples.any (fun s => s.handle == hd && s.seq == i.seq) then d3
        else { d3 with samples := d3.samples ++ [{ job := j, cls := st.cls, round := (d.tk w).progRound, handle := hd, seq := i.seq, seg := rrSeg h, first := rrFirst h }] }

/-- RESULT (R72, R534): the slot's records go to the ring that names it; with none, E_RING_UNBOUND. -/
def resultW (d : Dev) (w : Who) (ring : Nat) (prov : Bool) (now : Nat) : WRes :=
  let k := d.tk w
  match k.ring? ring with
  | none => .done d
  | some r =>
    let empty := d.ringFails w.core w.task (ring, false)
    if empty && k.elastic ring then .hold (.ring ring false) (k.budget ring)
    else
      let a := k.base + srBase r.decl + r.get * srBytes r.decl
      let bs := if empty then [] else memRead (d.core w.core).readable a (srBytes r.decl)
      let met := if empty then [] else (d.core w.core).badWords [((a : Nat), (a + srBytes r.decl : Nat))]
      let d1 := (d.at_ now).eccRead w.core w.task w.word k.progRound met
      let d2 := match d1.resultRing w.core w.task ring prov with
        | some n => (slotRecords bs.length bs).foldl (fun (d : Dev) (x : Bytes × Bytes) => d.postRecord w n prov x.1 x.2 now) d1
        | none => d1.raise { code := 0x0A06, kind := 0, task := w.task, unit := w.core, round := some k.progRound }
      let d3 := d2.ringMove w.core w.task (if empty then [(ring, false)] else []) (ring, false)
      .done (if empty then d3.slip w ring else d3)

end Sys2Proof.Machine
end

