-- ==== Sys2Proof/Machine/Programs.lean ====
section
/-! DEFINITION. Machine/Programs.lean: the start and the end of a task's program (R33 step 5, R36, R148, R188, R278 to R280, R354), and
the barrier between the tasks that serve a stream (R36). -/

namespace Sys2Proof.Machine

/-- Lanes of the accumulator entries that a task's runs use (R148). -/
def Dev.taskEntries (d : Dev) (c t : Nat) : List (Nat × Nat) :=
  match (d.job (d.task c t).job).img.bind (fun i => i.task? c t) with
  | some x => x.entryRanges
  | none => []

/-! ### State peaks (R228, R229) -/

/-- Tensors that hold the low parts of compensated scans (R215). -/
def lowParts (ds : List Rec) : List Nat :=
  (ds.filter (fun r => fld r 63 1 == 0x05 && bit (fld r 19 1) 0)).flatMap (fun r =>
    ([4, 6, 8, 10].map (fun o => fld r o 2)).filterMap (fun i => if i = 0xFFFF then none else some (i + 1)))

/-- State tensors of a core's ember descriptors in the order of R228, each once: task, tensor, entries. -/
def stateTensors (ts : List (Nat × List Rec)) : List (Nat × Nat × Nat) :=
  ts.flatMap (fun t => (((t.2.filter (fun r => fld r 63 1 == 0x0B)).flatMap emTensors).eraseDups.filter (fun i => !((lowParts t.2).contains i))).map
    (fun i => (t.1, i, tSize (t.2.getD i 0) 0)))

/-- One element folded into a peak. -/
def foldPeak (old : Nat) (v : Val) : Nat :=
  if old = 0x7FC00000 then old
  else match v with
  | .nan _ _ => 0x7FC00000
  | .inf _ => 0x7F800000
  | v => max old (f32abs (roundCode true .fp32 .rne false v).1)

/-- A requested clear of the peaks, before a mark's fold (R230). -/
def Core.clearPeaks (x : Core) : Core := if x.stpeakClr then { x with stpeak := [], stpeakClr := false } else x

/-- A slot of a task's state tensor whose stream keeps an earlier checkpoint at this mark (R380). -/
def Dev.keptCell (d : Dev) (c t i slot : Nat) : Bool :=
  let k := d.task c t
  k.descs.any (fun r => fld r 63 1 == 0x0B && (emTensors r).contains i && (d.slotStream k.job (emCord r * 64 + slot)).any (fun p => p.2.keepCk))

/-- The checkpointed state of mark n of some tasks folded into the core's peaks (R229), but for slots of which the mark takes no checkpoint. -/
def Core.foldPeaks (x : Core) (n : Nat) (sel : Nat → Task → Bool) (kept : Nat → Nat → Nat → Bool) : Core :=
  let m := x.readable
  let ts := stateTensors (x.tasks.map (fun p => (p.1, p.2.descs)))
  let cells := ts.flatMap (fun t => (List.range t.2.2).map (fun i0 => (t.1, t.2.1, i0)))
  let peak (e : Nat) (c : Nat × Nat × Nat) : Nat :=
    let k := x.task c.1
    let v := k.view c.2.1 false []
    let cells := tSize v.t 1 * tSize v.t 2 * tSize v.t 3
    if sel c.1 k then
      ((List.range cells).filter (fun f => !kept c.1 c.2.1 (f % max 1 (tSize v.t 1)))).foldl (fun p f => foldPeak p (v.val true m ⟨c.2.2, f % max 1 (tSize v.t 1), f / max 1 (tSize v.t 1) % max 1 (tSize v.t 2),
        f / max 1 (tSize v.t 1) / max 1 (tSize v.t 2)⟩)) (mgetD x.stpeak e 0)
    else mgetD x.stpeak e 0
  let new := (cells.take 4096).zipIdx.filterMap (fun c => let p := peak c.2 c.1; if p = 0 then none else some (c.2, p))
  { x with stpeak := new, tasks := mmap (fun t k => if sel t k then { k with folded := n } else k) x.tasks }

/-- The shadow of the task's own block that was due at the mark of the program that starts takes effect (R36); one written since waits for
its own mark. -/
def Dev.applyDue (d : Dev) (c t r : Nat) : Dev :=
  let own := coreOff c + 0x100 + t * 0x20
  let later := (d.task c t).due.filter (fun x => decide (r < x.1))
  match ((d.task c t).due.filter (fun x => decide (x.1 ≤ r))).getLast? with
  | none => d
  | some x =>
    let d1 := (d.setReg own x.2.toNat).onTask c t (fun k => { k with due := later })
    if later.isEmpty && mget d.shadow own == some x.2 then { d1 with shadow := mdel d1.shadow own } else d1

/-- The program of a round starts: entries invalid, summaries and statistic flags reset, decided scales and adapter generations in
effect, shadows of the task's own block applied, the cords' metadata written where no intake queue's tick writes it. -/
def Dev.startProgram (d : Dev) (c t r : Nat) : Dev :=
  -- a mark that the task passed in overrun folds its checkpoint now, before the next program changes the state (R36, R229)
  let dp := if (d.task c t).folded < r then d.onCore c (fun x => x.foldPeaks r (fun n _ => n == t) (d.keptCell c)) else d
  let d0 := dp.switchAdapters c t r
  let d1 := d0.applyDue c t r
  let es := d1.taskEntries c t
  let d2 := d1.onCore c (fun x =>
    ({ x with acc := x.acc.filter (fun p => !(es.any (fun e => decide (e.1 ≤ p.1 / 32) && decide (p.1 / 32 < e.1 + e.2)))) }).applyScales t)
  let d3 := d2.onTask c t (fun k =>
    { k with
      state := if r = d2.tb.round then .running else .overrun
      pc := 0
      progRound := r
      passed := 0
      lastCycle := 0
      issued := false
      adapting := false
      spanned := false
      spanNan := false
      loop := none
      wait := none
      cands := []
      trapped := false
      sums := []
      flagsProg := {}
      redRes := []
      eleCnt := []
      released := []
      missed := k.missed.filter (fun x => decide (r ≤ x.2 + 16)) })
  let d4 := d3.writeRows c t
  let j := (d4.task c t).job
  -- slots whose stream's intake queue no program of the job releases have no tick of their own
  d4.writeMeta j r (fun c' t' => c' == c && t' == t) (fun q => match q with
    | some q => !(d4.releasesQueue j q)
    | none => true)

/-! ### The barrier -/

/-- Tasks of a job that serve a cord. -/
def Dev.serving (d : Dev) (j cord : Nat) : List (Nat × Nat) :=
  (d.job j).tasks.filter (fun p => (d.task p.1 p.2).state != .none && (d.taskCords p.1 p.2).contains cord)

/-- The last program that a task has finished, plus one; a stopped task holds nobody. -/
def Dev.doneUpTo (d : Dev) (c t : Nat) : Option Nat :=
  let k := d.task c t
  match k.state with
  | .ended => some (k.progRound + 1)
  | .held => some (k.progRound + 1)
  | .running => some k.progRound
  | .overrun => some k.progRound
  | _ => none

/-- The round up to whose mark every one of some tasks has finished; none when no task counts. -/
def Dev.allDone (d : Dev) (ts : List (Nat × Nat)) : Option Nat :=
  (ts.filterMap (fun p => d.doneUpTo p.1 p.2)).foldl (fun a x => match a with
    | some y => some (min x y)
    | none => some x) none

/-- The mark whose checkpoint a stream is due: that of the current round, or one that its tasks in overrun deferred. -/
def Dev.ckDue (d : Dev) (h : Nat) : Option Nat :=
  let s := d.stream h
  let last := match d.ckOf h d.tb.round with
    | some c => c.round
    | none => 0
  let n := match s.slot.bind (fun x => d.allDone (d.serving s.job (x / 64))) with
    | some p => min p d.tb.round
    | none => d.tb.round
  let first := match d.ckOf h d.tb.round with
    | some _ => decide (last < n)
    | none => true
  if s.state == .free || s.keepCk || !first then none else some n

/-- Checkpoints that are due are taken (R33 step 4, R36, R380). -/
def Dev.captureDue (d : Dev) (j : Nat) : Dev :=
  let d1 := (d.handlesOf j).foldl (fun d h => match d.ckDue h with
    | some n => d.capture n h
    | none => d) d
  (d1.job j).cores.foldl (fun d c =>
    let n := match d.allDone (((d.job j).tasks.filter (fun p => p.1 == c))) with
      | some p => min p d.tb.round
      | none => d.tb.round
    match d.coreCkOf c d.tb.round with
    | some k => if k.round < n then d.captureCore n c else d
    | none => d.captureCore n c) d1

/-- A task may start its next program: it has ended one of an earlier round, and so have all that share a cord with it. -/
def Dev.mayStart (d : Dev) (j : Nat) (p : Nat × Nat) : Bool :=
  let k := d.task p.1 p.2
  let cords := d.taskCords p.1 p.2
  (k.state == .ended || k.state == .held) && decide (k.progRound < d.tb.round) && (d.job j).live && d.coreUp p.1 &&
    (d.job j).tasks.all (fun q =>
      !((d.taskCords q.1 q.2).any cords.contains) || (match d.doneUpTo q.1 q.2 with
        | some n => decide (k.progRound + 1 ≤ n)
        | none => true))

/-- A job that stops: from its mark on, no task starts a further program (R85). -/
def Job.mayRun (x : Job) (now : Nat) : Bool := match x.stopAt with
  | some s => decide (now < s)
  | none => true

/-- Checkpoints that came due, then the programs that may start. -/
def Dev.advanceJob (d : Dev) (j : Nat) : Dev :=
  let d1 := d.captureDue j
  let ts := (d1.job j).tasks.filter (d1.mayStart j)
  let d2 := ts.foldl (fun d p =>
    let r := (d.task p.1 p.2).progRound + 1
    if (d.job j).mayRun d.tb.round then d.startProgram p.1 p.2 r else d.onTask p.1 p.2 (fun k => { k with state := .stopped })) d1
  -- those that the barrier holds back wait for their next program
  if (d2.job j).live then
    (d2.job j).tasks.foldl (fun d p =>
      let k := d.task p.1 p.2
      if k.state == .ended && decide (k.progRound < d.tb.round) then d.onTask p.1 p.2 (fun k => { k with state := .held }) else d) d2
  else d2

/-- A stopping job whose tasks have all stopped is STOPPED, and commands that still wait complete (R85). -/
def Dev.settleStop (d : Dev) (j : Nat) : Dev :=
  let x := d.job j
  let due := match x.stopAt with
    | some s => decide (s ≤ d.tb.round)
    | none => false
  let idle := x.tasks.all (fun p => match (d.task p.1 p.2).state with
    | .none => true
    | .stopped => true
    | _ => false)
  if x.state == .stopping && due && idle then
    let d1 := (d.closeWindows j).onJob j (fun x => { x with state := .stopped, stopCmds := [] })
    x.stopCmds.foldl (fun d r => d.finishCmd j r stOk 0) d1
  else d

/-! ### END -/

/-- END (R72, R278, R280): accumulators close, scales are decided, later programs that wait for this task start. -/
def Dev.endProgram (d : Dev) (c t : Nat) : Dev :=
  let k := d.task c t
  -- a branch over the last span's end: the round's update is made at END (R352)
  let d := if k.spanned then d.adaptSpanEnd ⟨c, t, k.pc⟩ else d
  let d1 := d.onCore c (fun x => ((x.closeAll t k).decideAll c t k.progRound k))
  let d2 := d1.onTask c t (fun k => { k with state := .ended, loop := none, endedAt := some d1.tb.round })
  (d2.advanceJob k.job).settleStop k.job

end Sys2Proof.Machine
end

