-- ==== Sys2Proof/Machine/Sequencer.lean ====
section
/-! DEFINITION. Machine/Sequencer.lean: the sequencer of a task (R69 to R78, R164, R165, R188, R189, R378) and the meanings of the schedule
words. A row names core and task; it acts when the word at the task's place has the row's opcode and the task can issue it. -/

namespace Sys2Proof.Machine

/-! ### Issue (R70) -/

/-- A task issues words: it runs or is in overrun, its core serves, its job is live (R85, R372). -/
def Dev.taskRuns (d : Dev) (c t : Nat) : Bool :=
  let k := d.task c t
  (k.state == .running || k.state == .overrun) && d.coreUp c && (d.job k.job).live

/-- Effective offset of a word (R70). -/
def Task.effOffset (k : Task) (word : Nat) : Nat := wOffset word + (match k.loop with
  | some l => if l.first ≤ k.pc then l.iter * l.period else 0
  | none => 0)

/-- The earliest cycle in which a word can issue: its effective offset, and after the word before it. -/
def Task.issueAt (k : Task) (word : Nat) : Task :=
  { k with lastCycle := if k.issued then max (k.effOffset word) (k.lastCycle + 1) else k.effOffset word, issued := true }

/-- The sequencer goes on to a word; past the last word of a body the loop runs again or ends (R74). -/
def Task.goTo (k : Task) (next : Nat) : Task :=
  match k.loop with
  | some l =>
    if next ≤ l.last then { k with pc := next }
    else if 0 < l.left then { k with pc := l.first, loop := some { l with left := l.left - 1, iter := l.iter + 1 } }
    else { k with pc := next, loop := none }
  | none => { k with pc := next }

/-- The next word after `i` with one of some opcodes. -/
def Dev.findWord (d : Dev) (c t i : Nat) (p : Nat → Bool) : Option Nat :=
  ((List.range (d.task c t).schedWords).filter (fun k => decide (i < k))).find? (fun k => p (d.wordAt c t k))

/-! ### Summaries (R188, R189) -/

/-- SUMM: the value of a source, with whether it is FP32. -/
def Dev.summVal (d : Dev) (w : Who) (src ix : Nat) : Nat × Bool :=
  let k := d.tk w
  let f := k.flagsProg
  if src = 0 then mgetD k.redRes ix (0, false)
  else if src = 1 then (mgetD k.eleCnt ix 0, false)
  else if src = 2 then
    ((if ix = 0 then f.nan else if ix = 1 then f.ovf else if ix = 2 then f.unf else if ix = 3 then f.sat else k.emptyRow).toNat, false)
  else (mgetD (d.core w.core).tallies ix 0, false)

/-- BRANCH: a register against a condition code. -/
def branchTaken (v : Nat × Bool) (cond : Nat) : Bool :=
  let sgn : Option Int :=
    if v.2 then (match f32 v.1 with
      | .nan _ _ => none
      | .zero _ => some 0
      | x => some (if x.neg then -1 else 1))
    else some (sext 32 v.1)
  match sgn with
  | none => cond == 1
  | some s =>
    if cond = 0 then s == 0 else if cond = 1 then s != 0 else if cond = 2 then decide (s < 0) else if cond = 3 then decide (0 ≤ s)
    else if cond = 4 then decide (0 < s) else if cond = 5 then decide (s ≤ 0) else false

/-! ### Tallies and windows -/

/-- TLY_ADD (R72, R76); one into a contained slice is dropped (R19). -/
def tlyAddW (d : Dev) (w : Who) (a : Nat) : WRes :=
  let c := if bit a 24 then w.core else bits a 16 8
  if d.sliceUp (c / 64) then .done (d.onCore c (fun x => x.addTally (bits a 0 8) (bits a 8 8))) else .done (d.sliceDown w.core w.task w.word)

/-- TLY_WAIT: subtracts the threshold once the tally has reached it; one round is its limit (R75). -/
def tlyWaitW (d : Dev) (w : Who) (a : Nat) : WRes :=
  let v := mgetD (d.core w.core).tallies (bits a 0 8) 0
  if bits a 8 20 ≤ v then .done (d.onCore w.core (fun x => { x with tallies := mset x.tallies (bits a 0 8) (v - bits a 8 20) }))
  else .hold (.tally (bits a 0 8)) 1

/-- WINDOW (R385). -/
def windowW (d : Dev) (w : Who) (a : Nat) : WRes :=
  .done (d.onCore w.core (fun x => { x with windows := match mget x.windows (bits a 0 4) with
    | some v => mset x.windows (bits a 0 4) { v with isOpen := bit a 4 }
    | none => x.windows }))

/-! ### One word -/

def evNone : EngEv := ⟨0, .none⟩

/-- Speculation is shed in the round whose program a task runs (R36, R77). -/
def Dev.shed (d : Dev) (w : Who) : Bool := d.shedIn (d.tk w).job (d.tk w).progRound

/-- The adaptation share is yielded in the round whose program a task runs (R36, R77). -/
def Dev.yields (d : Dev) (w : Who) : Bool := d.yieldedIn (d.tk w).job (d.tk w).progRound

/-! ### Engines shared by tasks (R145, R147, R164) -/

/-- The engine of an opcode: 1 matrix engine, 2 element engine, 3 reduction unit, 4 sampler of the slice, 0 none. -/
def engineOf (op : Nat) : Nat :=
  if op = 0x02 then 1 else if op = 0x05 ∨ op = 0x06 ∨ op = 0x07 then 2 else if op = 0x08 then 3 else if op = 0x10 then 4 else 0

/-- Words of other tasks on some cores that are held and were issued before a task's word. -/
def Dev.ahead (d : Dev) (w : Who) (cores : Nat → Bool) : List Who :=
  let mine := match (d.tk w).wait with
    | some x => x.order
    | none => d.holds
  (d.cores.filter (fun c => cores c.1)).flatMap (fun c => (c.2.tasks.filter (fun t => !(c.1 == w.core && t.1 == w.task) &&
    t.2.wait.any (fun x => decide (x.order < mine)))).map (fun t => ⟨c.1, t.1, t.2.pc⟩))

/-- Accumulator bytes that a word writes, as a matrix run, or reads, as an element program (R143, R169). -/
def Dev.accBytes (d : Dev) (w : Who) (word : Nat) : List (Int × Int) :=
  let k := d.tk w
  let r := k.desc (wDesc word)
  if wOpcode word = 0x02 then
    [((128 * mwBase word : Nat), (128 * (mwBase word + (if mrDrain r then 1 else (mrN r + 31) / 32) * mrM r) : Nat))]
  else if wOpcode word = 0x05 then
    ((List.range (epNin r)).filter (fun i => bit (fld r 37 1) i)).map (fun i =>
      let t := k.desc (wFirst word + i)
      ((tAddr t : Int) + (tSpan t).1, (tAddr t : Int) + (tSpan t).2))
  else []

/-- A held word issued before, of another task, has the word's engine, or accumulator entries that the word reads after its writes or writes
after its reads. -/
def Dev.engineHeld (d : Dev) (w : Who) (word : Nat) : Bool :=
  let e := engineOf (wOpcode word)
  if e = 0 then false
  else (d.ahead w (fun c => if e = 4 then c / 64 == w.core / 64 else c == w.core)).any (fun y =>
    let op := wOpcode (d.wordAt y.core y.task y.word)
    engineOf op == e || (op != wOpcode word && (d.accBytes y (d.wordAt y.core y.task y.word)).any (fun r => (d.accBytes w word).any (overlaps r))))

/-- What a word does. Control words move the sequencer in `nextPc`. -/
def wordEffect (d : Dev) (w : Who) (word : Nat) (ev : EngEv) (now : Nat) : WRes :=
  let a := wArgs word
  let i := wDesc word
  match wOpcode word with
  -- a word with an uncorrectable error reads as zeros, a NOP (R365)
  | 0x00 =>
    let at_ := (d.tk w).base + (d.tk w).schedAddr + 8 * w.word
    .done (d.eccRead w.core w.task w.word (d.tk w).progRound ((d.core w.core).badWords [((at_ : Nat), (at_ + 8 : Nat))]))
  | 0x02 => matRunW d w i (mwBase word) (d.weightIdx w (mrWgt ((d.tk w).desc i))) ev
  | 0x03 => relayW d w i
  | 0x04 => gateSetW d w i
  | 0x05 => eleRunW d w i (wFirst word) ev
  | 0x06 => eleScanW d w i ev
  | 0x07 => convertW d w i ev
  | 0x08 => redRunW d w i (bits a 12 4) ev
  | 0x09 => pumpW d w i (pwKind word)
  | 0x0A => releaseW d w (bits a 0 8)
  | 0x0B => tlyAddW d w a
  | 0x0C => tlyWaitW d w a
  | 0x0D => .done (d.onTask w.core w.task (fun k => { k with sums := mset k.sums (bits a 0 4) (d.summVal w (bits a 4 4) (bits a 8 12)) }))
  | 0x10 => smpReqW d w i
  | 0x11 => if d.shed w then .done d else specOpenW d w i
  | 0x12 => if d.shed w then .done d else specCommitW d w i
  | 0x13 => if d.shed w then .done d else specAbortW d w i
  | 0x14 => emberOutW d w i
  | 0x15 => emberInW d w i
  | 0x16 => resultW d w (bits a 0 8) (bit a 8) now
  | 0x17 => windowW d w a
  | 0x18 =>
    if d.yields w then .done d
    else if bit a 0 then .done (d.onTask w.core w.task (fun k => { k with adapting := true }))
    else .done ((if d.lastSpan w then d.adaptSpanEnd w else d).onTask w.core w.task (fun k => { k with adapting := false, spanned := true }))
  | 0x19 => statFlushW d w i
  | _ => .done d

/-- A sequencer that comes into a span whose words are withheld goes on to the word that ends it: no word of the span issues (R77, R347). -/
def Dev.skipSpan (d : Dev) (w : Who) (k : Task) : Task :=
  let go (p : Nat → Bool) : Task := { k with pc := if p (d.wordAt w.core w.task k.pc) then k.pc else (d.findWord w.core w.task k.pc p).getD k.pc }
  if d.shed w && ((specSpans ((List.range k.schedWords).map (d.wordAt w.core w.task))).getD k.pc none).isSome then
    go (fun x => wOpcode x == 0x12 || wOpcode x == 0x13)
  else if d.yields w && d.spanWord w.core w.task k.pc then go (fun x => wOpcode x == 0x18 && !bit (wArgs x) 0)
  else k

/-- Where the sequencer goes after a word (R73, R74, R77). -/
def Dev.nextTask (d : Dev) (w : Who) (word : Nat) : Task :=
  d.skipSpan w <|
  let k := d.tk w
  let a := wArgs word
  match wOpcode word with
  | 0x0E => if branchTaken (mgetD k.sums (bits a 0 4) (0, false)) (brCond word) then k.goTo (k.pc + 1 + brSkip word) else k.goTo (k.pc + 1)
  | 0x0F => { k with
      pc := k.pc + 1
      loop := some ⟨k.pc + 1, k.pc + rpLength word, rpCount word - 1, 0, rpPeriod word⟩ }
  | 0x11 =>
    if d.shed w then k.goTo ((d.findWord w.core w.task k.pc (fun x => wOpcode x == 0x12 || wOpcode x == 0x13)).getD (k.pc + 1))
    else k.goTo (k.pc + 1)
  | 0x18 =>
    if bit a 0 ∧ d.yields w then
      k.goTo ((d.findWord w.core w.task k.pc (fun x => wOpcode x == 0x18 && !bit (wArgs x) 0)).getD (k.pc + 1))
    else k.goTo (k.pc + 1)
  | _ => k.goTo (k.pc + 1)

/-- A word completes: positions that it stored into twins are counted, but for a SPEC_COMMIT's own copies, and the sequencer goes
on. -/
def Dev.wordDone (d : Dev) (w : Who) (word : Nat) : Dev :=
  let k := d.tk w
  let ws := (wordTensors k.desc k.gate word).2
  let d1 := if ws.isEmpty || wOpcode word == 0x12 then d else d.specTrack w ws
  let k1 := d1.nextTask w word
  d1.onTask w.core w.task (fun _ => { k1 with wait := none })

/-- Well transfers of a word's task into what the word reads beside rings: they are late at its issue (R413). -/
def Dev.lateXfers (d : Dev) (w : Who) (word : Nat) : List (PumpId × Xfer) :=
  let k := d.tk w
  let rs := ((wordTensors k.desc k.gate word).1.filter (fun i => tRing (k.desc i) == 0xFF && tSpace (k.desc i) == 0)).map (fun i => (k.view i false []).range)
  let s : Fin 4 := Fin.ofNat 4 (w.core / 64)
  (List.range 4).flatMap (fun p =>
    let id : PumpId := .well s (Fin.ofNat 4 p)
    ((d.pump id).queue.filter (fun x => x.core == w.core && x.task == w.task && !x.dropped &&
      (d.xferRanges x true).any (fun r => rs.any (overlaps r)))).map (fun x => (id, x)))

/-- Late well data of a word that names no ring: the streams that fail lose the transfer, and the word runs (R413 to R415). -/
def Dev.lateReads (d : Dev) (w : Who) (word : Nat) : Dev × Bool :=
  (d.lateXfers w word).foldl (fun (a : Dev × Bool) y =>
    let r := a.1.lateXfer w y.1 y.2 255
    (r.1, a.2 || !r.2)) (d, false)

/-- A word is held: the wait begins, or goes on; the tag of the slot shows it (R378). -/
def Dev.holdWord (d : Dev) (w : Who) (kind : WaitKind) (budget : Nat) : Dev :=
  let k := d.tk w
  let d1 := match kind with
    | .ring r wr => (match k.ring? r with
        | some x => d.onCore w.core (fun c => c.onTag (ringTag x wr) (fun g => { g with wait := true, slipped := false }))
        | none => d)
    | _ => d
  let fresh (order : Nat) : Option Wait := some ⟨kind, d.tb.round, k.lastCycle, budget, order⟩
  { d1.onTask w.core w.task (fun k => { k with wait := match k.wait with
      | some x => if x.kind = kind then some x else fresh x.order
      | none => fresh d.holds }) with holds := d.holds + 1 }

/-- Cycles for which a word's engine was held (R161, R199). -/
def Dev.countStall (d : Dev) (c word n : Nat) : Dev :=
  if wOpcode word = 0x02 then d.count (coreOff c + 0x408) 32 n
  else if wOpcode word = 0x05 ∨ wOpcode word = 0x06 ∨ wOpcode word = 0x07 then d.count (coreOff c + 0x508) 32 n
  else d

/-- The effect of the word at the task's place, or its wait; a lost bank access holds its engine for a cycle (R369). -/
def Dev.runWord (d : Dev) (w : Who) (word : Nat) (ev : EngEv) (now : Nat) : Dev :=
  if d.engineHeld w word then d.holdWord w .interlock 1
  else match wordEffect d w word ev now with
  | .done d1 => (d1.countStall w.core word ev.lost).wordDone w word
  | .hold kind budget =>
    if wOpcode word = 0x0A then (d.noteLate w (bits (wArgs word) 0 8)).holdWord w kind budget
    else if isDataWait kind then
      let r := d.lateReads w word
      if r.2 then
        match wordEffect r.1 w word ev now with
        | .done d1 => (d1.countStall w.core word ev.lost).wordDone w word
        | .hold kind budget => r.1.holdWord w kind budget
      else r.1.holdWord w kind budget
    else d.holdWord w kind budget

/-- The word at a task's place. -/
def Dev.curWordOf (d : Dev) (c t : Nat) : Option Nat :=
  let k := d.task c t
  if k.pc < k.schedWords then some (d.wordAt c t k.pc) else none

/-- The word at a task's place has an opcode, and the task can issue it. -/
def Dev.canIssue (d : Dev) (op c t : Nat) : Bool := match d.curWordOf c t with
  | none => false
  | some word => wOpcode word == op && d.taskRuns c t && (d.task c t).wait.isNone

/-- What a detector saw in a command's fetch and reads, and the accesses that it lost (R365, R369). -/
def Dev.noted (d : Dev) (c : Nat) (e : TaskEv) : Dev := (d.seen c e.det).count (coreOff c + 0x1820) 0 e.lost

/-- Issue of a word of an opcode. -/
def issueD (op c t : Nat) (ev : EngEv) (now : Nat) (d : Dev) : Dev :=
  match d.curWordOf c t with
  | none => d
  | some word =>
    if wOpcode word ≠ op ∨ !d.taskRuns c t ∨ (d.task c t).wait.isSome then d
    else (d.onTask c t (fun k => k.issueAt word)).runWord ⟨c, t, (d.task c t).pc⟩ word ev now

/-- Issue of a word of no engine, with what happened to its fetch and reads: a word whose fetch is uncorrectable is a NOP. -/
def issueTD (op c : Nat) (e : TaskEv) (now : Nat) (d : Dev) : Dev :=
  if (d.noted c e).canIssue op c e.task.val then issueD op c e.task.val evNone now (d.noted c e) else d

/-- Issue of END. -/
def endD (c t : Nat) (d : Dev) : Dev :=
  match d.curWordOf c t with
  | none => d
  | some word =>
    if wOpcode word ≠ 0x01 ∨ !d.taskRuns c t ∨ (d.task c t).wait.isSome then d
    else (d.onTask c t (fun k => k.issueAt word)).endProgram c t

/-- END with what happened to its fetch. -/
def endTD (c : Nat) (e : TaskEv) (d : Dev) : Dev := if (d.noted c e).canIssue 0x01 c e.task.val then endD c e.task.val (d.noted c e) else d

/-- Whether a wait that has outlasted its budget ends as a timeout alone (R75, R379, R414). -/
def Dev.overdue (d : Dev) (c t : Nat) (word : Nat) (x : Wait) : Bool :=
  let k := d.task c t
  match x.kind with
  | .ring _ _ => d.outlasted k.job k.progRound x.began x.budget
  | .tally _ => d.outlasted k.job k.progRound x.began (x.budget + 1)
  | .interlock => d.outlasted k.job k.progRound x.began x.budget && !(d.lateXfers ⟨c, t, k.pc⟩ word).isEmpty
  | .drain _ => d.outlasted k.job k.progRound x.began x.budget && !(d.lateXfers ⟨c, t, k.pc⟩ word).isEmpty
  | .queue => false

/-- The end of a wait: the word is tried again from the access it was about to make, in a later cycle. An interlock that ends counts
the cycles for which it held the engine. -/
def retryD (c : Nat) (e : TaskEv) (cycle : Nat) (may : WaitKind → Bool) (d0 : Dev) : Dev :=
  let t := e.task.val
  match d0.curWordOf c t, (d0.task c t).wait with
  | some word, some x =>
    if may x.kind && d0.taskRuns c t && !d0.overdue c t word x then
      let engine := decide (1 ≤ engineOf (wOpcode word) ∧ engineOf (wOpcode word) ≤ 3)
      let d := if engine then d0 else d0.noted c e
      let d1 := (d.onTask c t (fun k => { k with lastCycle := max k.lastCycle cycle })).runWord ⟨c, t, (d.task c t).pc⟩ word
        (if engine then e.ev else evNone) d.tb.now
      let held := match (d1.task c t).wait with
        | some y => decide (y.kind = .interlock)
        | none => false
      if x.kind = .interlock ∧ !held then d1.countStall c word (cycle - x.issued) else d1
    else d0
  | _, _ => d0

def isRingWait : WaitKind → Bool
  | .ring _ _ => true
  | _ => false

def isStallWait : WaitKind → Bool
  | .ring _ _ => false
  | .tally _ => false
  | _ => true

def isTallyWait : WaitKind → Bool
  | .tally _ => true
  | _ => false

/-! ### Meanings of the words -/

def execNop (core : Fin 256) (task : TaskEv) (s : State) : Host.Outcome State Fault Refusal := onUp s (issueTD 0x00 core.val task 0)
def execEnd (core : Fin 256) (task : TaskEv) (s : State) : Host.Outcome State Fault Refusal := onUp s (endTD core.val task)
def execMatRun (core : Fin 256) (task : Fin 8) (ev : EngEv) (s : State) : Host.Outcome State Fault Refusal :=
  onUp s (issueD 0x02 core.val task.val ev 0)
def execRelay (core : Fin 256) (task : TaskEv) (s : State) : Host.Outcome State Fault Refusal :=
  onUp s (issueTD 0x03 core.val task 0)
def execGateSet (core : Fin 256) (task : TaskEv) (s : State) : Host.Outcome State Fault Refusal := onUp s (issueTD 0x04 core.val task 0)
def execEleRun (core : Fin 256) (task : Fin 8) (ev : EngEv) (s : State) : Host.Outcome State Fault Refusal :=
  onUp s (issueD 0x05 core.val task.val ev 0)
def execEleScan (core : Fin 256) (task : Fin 8) (ev : EngEv) (s : State) : Host.Outcome State Fault Refusal :=
  onUp s (issueD 0x06 core.val task.val ev 0)
def execConvert (core : Fin 256) (task : Fin 8) (ev : EngEv) (s : State) : Host.Outcome State Fault Refusal :=
  onUp s (issueD 0x07 core.val task.val ev 0)
def execRedRun (core : Fin 256) (task : Fin 8) (ev : EngEv) (s : State) : Host.Outcome State Fault Refusal :=
  onUp s (issueD 0x08 core.val task.val ev 0)
def execPump (core : Fin 256) (task : TaskEv) (s : State) : Host.Outcome State Fault Refusal := onUp s (issueTD 0x09 core.val task 0)
def execRelease (core : Fin 256) (task : TaskEv) (s : State) : Host.Outcome State Fault Refusal := onUp s (issueTD 0x0A core.val task 0)
def execTlyAdd (core : Fin 256) (task : TaskEv) (s : State) : Host.Outcome State Fault Refusal := onUp s (issueTD 0x0B core.val task 0)
def execTlyWait (core : Fin 256) (task : TaskEv) (s : State) : Host.Outcome State Fault Refusal := onUp s (issueTD 0x0C core.val task 0)
def execSumm (core : Fin 256) (task : TaskEv) (s : State) : Host.Outcome State Fault Refusal := onUp s (issueTD 0x0D core.val task 0)
def execBranch (core : Fin 256) (task : TaskEv) (s : State) : Host.Outcome State Fault Refusal := onUp s (issueTD 0x0E core.val task 0)
def execRepeat (core : Fin 256) (task : TaskEv) (s : State) : Host.Outcome State Fault Refusal := onUp s (issueTD 0x0F core.val task 0)
def execSmpReq (core : Fin 256) (task : TaskEv) (s : State) : Host.Outcome State Fault Refusal :=
  onUp s (issueTD 0x10 core.val task 0)
def execSpecOpen (core : Fin 256) (task : TaskEv) (s : State) : Host.Outcome State Fault Refusal := onUp s (issueTD 0x11 core.val task 0)
def execSpecCommit (core : Fin 256) (task : TaskEv) (s : State) : Host.Outcome State Fault Refusal := onUp s (issueTD 0x12 core.val task 0)
def execSpecAbort (core : Fin 256) (task : TaskEv) (s : State) : Host.Outcome State Fault Refusal := onUp s (issueTD 0x13 core.val task 0)
def execEmberOut (core : Fin 256) (task : TaskEv) (s : State) : Host.Outcome State Fault Refusal :=
  onUp s (issueTD 0x14 core.val task 0)
def execEmberIn (core : Fin 256) (task : TaskEv) (s : State) : Host.Outcome State Fault Refusal := onUp s (issueTD 0x15 core.val task 0)
def execResult (core : Fin 256) (task : TaskEv) (now : Nat) (s : State) : Host.Outcome State Fault Refusal :=
  onUp s (issueTD 0x16 core.val task now)
def execWindow (core : Fin 256) (task : TaskEv) (s : State) : Host.Outcome State Fault Refusal := onUp s (issueTD 0x17 core.val task 0)
def execAdaptSpan (core : Fin 256) (task : TaskEv) (s : State) : Host.Outcome State Fault Refusal := onUp s (issueTD 0x18 core.val task 0)
def execStatFlush (core : Fin 256) (task : TaskEv) (s : State) : Host.Outcome State Fault Refusal := onUp s (issueTD 0x19 core.val task 0)

/-- ELASTIC_WAIT_END (R378): the word of the task goes on, or the write of its transfer at another core. -/
def execElasticWaitEnd (core : Fin 256) (task : TaskEv) (cycle : Nat) (s : State) : Host.Outcome State Fault Refusal :=
  onUp s (fun d => retryD core.val task cycle isRingWait (if d.farTask core.val = task.task.val then d.retryFar core.val else d))

/-- INTERLOCK_WAIT_END (R165); a full pump queue is such a wait too (R401). -/
def execInterlockWaitEnd (core : Fin 256) (task : TaskEv) (cycle : Nat) (s : State) : Host.Outcome State Fault Refusal :=
  onUp s (retryD core.val task cycle isStallWait)

/-- TLY_WAIT_SATISFIED (R72): the tally has reached the threshold. -/
def execTlyWaitSatisfied (core : Fin 256) (task : TaskEv) (s : State) : Host.Outcome State Fault Refusal :=
  onUp s (retryD core.val task 0 isTallyWait)

end Sys2Proof.Machine
end

