-- ==== Sys2Proof/Machine/Jobs.lean ====
section
/-! DEFINITION. Machine/Jobs.lean: staging and activation of images (R79 step 6, R83, R228, R275, R363, R411, R435), and the host
commands (R84 to R86, R311, R528 to R530, R564). -/

namespace Sys2Proof.Machine

/-! ### Staging (R79 step 6) -/

/-- A placed task. What the host alone clears stays (R96, R126, R132). -/
def stagedTask (j : Nat) (x : TaskImg) (old : Task) : Task :=
  { Task.reset with
    job := j
    strict := plStrict x.pl
    nanTrap := bit (plMode x.pl) 1
    base := plBase x.pl
    bound := plBound x.pl
    schedAddr := plSchedAddr x.pl
    schedWords := plSchedWords x.pl
    descs := x.descs
    rings := x.rings.map (fun r => { decl := r, put := 0, get := 0 })
    state := .staged
    ovrCnt := old.ovrCnt
    flags := old.flags
    trapA := old.trapA
    trapElem := old.trapElem
    trapRound := old.trapRound }

/-- A task's program and Peat table values reach its region (R79, R435). -/
def Image.regionBytes (i : Image) (x : TaskImg) : List (Nat × Bytes) :=
  (plBase x.pl + plSchedAddr x.pl, x.words.flatMap (leBytes 8)) ::
    (i.peat.filter (fun b => leAt b 0 2 == x.core && leAt b 6 1 == x.task)).map (fun b => (plBase x.pl + leAt b 8 4, sliceZ b 16 64))

def Dev.placeTask (d : Dev) (j : Nat) (i : Image) (x : TaskImg) : Dev :=
  d.onCore x.core (fun c => (c.setTask x.task (stagedTask j x (c.task x.task))).storeAll (i.regionBytes x))

/-- Windows of a core as the image declares them, closed (R66). -/
def Image.coreWindows (i : Image) (j c : Nat) : SMap Win :=
  (i.windows.filter (fun w => fld w 0 2 == c)).foldl (fun m w => mset m (fld w 2 1)
    { job := j, owner := bits (fld w 3 1) 0 3, base := fld w 4 4, bound := fld w 8 4, devLo := fld w 12 2, devHi := fld w 14 2,
      writers := fld w 16 32, isOpen := false }) []

/-- The scale entries and groups of a core's table object (R271). -/
def Dev.coreScale (d : Dev) (deep : SMap Bytes) (i : Image) (c : Nat) : SMap Nat × List Group :=
  match (d.scaleTables deep i).find? (fun p => obCore p.1 == c) with
  | some p => (p.2.entries.zipIdx.foldl (fun m e => mset m e.2 e.1) [], p.2.groups.map (fun g => { decl := g, count := 0, shadow := [], unlogged := [] }))
  | none => ([], [])

/-- Statistics accumulators of a core in the order of R275. -/
def Image.coreAccs (i : Image) (c : Nat) : List StatAcc :=
  ((((i.taskImgs.filter (fun t => t.core == c)).flatMap (fun t => t.statPairs)).mergeSort (fun a b => decide (a.1 ≤ b.1))).map (fun p =>
    { task := p.1, desc := p.2, isOpen := false, count := 0, clips := 0, sumsq := 0, maxmag := 0, nans := 0, chans := [], record := [] }))

/-- The image's blocks are written and its programs loaded; S-class values wait for the activation (R79 step 6, R83). -/
def Dev.stage (d : Dev) (j : Nat) (i : Image) : Dev :=
  let d1 := i.taskImgs.foldl (fun d x => d.placeTask j i x) d
  let d2 := (d1.job j).cores.foldl (fun d c =>
    d.onCore c (fun x => { x with windows := i.coreWindows j c })) d1
  -- R411: local regulators
  let d3 := (d2.job j).cores.foldl (fun d c =>
    let v := match i.regulators.find? (fun g => fld g 0 2 == c) with
      | some g => bits (fld g 2 2) 0 12 + bits (fld g 4 4) 0 16 * 65536
      | none => resetWord (coreOff c + 0xE00)
    { d with staged := mset d.staged (coreOff c + 0xE00) (BitVec.ofNat 64 v) }) d2
  -- R473: port routes in the order of loading
  i.portRoutes.zipIdx.foldl (fun d r => d.onPort (prPort r.1) (fun x => { x with routes := x.routes ++ [(j * 256 + r.2, r.1)] })) d3

/-! ### Activation (R83) -/

/-- Roles of a core's banks; a bank whose role changes is zeroed (R362, R363). -/
def Dev.setRoles (d : Dev) (i : Image) (c : Nat) : Dev :=
  let new : SMap Nat := match i.bankRoles.find? (fun r => fld r 0 2 == c) with
    | some r => ((List.range 48).filter (fun b => fld r (8 + b) 1 != 0)).map (fun b => (b, 1))
    | none => []
  let x := d.core c
  let ch := (List.range 48).filter (fun b => mgetD x.roles b 0 != mgetD new b 0)
  if ch.isEmpty then d
  else d.onCore c (fun x => { x with roles := new, mem := x.mem.filter (fun p => !(ch.contains (bankOf p.1))), bad := x.bad.filter (fun p => !(ch.contains (bankOf (8 * p.1)))) })

/-- A history holds (+0, +0) in every slot at activation (R279). -/
def Core.clearHist (x : Core) (g : Rec) : Core :=
  if gAdapts g then x.zeroAt (histAddr (x.task (gTask g)) g 0 0) (gWindow g * gCount g * 8) else x

/-- A core of a job at its activation: tags empty, tallies, table generations, scale entries and groups from the image (R271), histories
of +0 (R279), OPEN_AT_START windows open, statistics accumulators (R275) and state peaks assigned, its local pump's regulator full. -/
def Dev.startCore (d : Dev) (j : Nat) (i : Image) (c : Nat) : Dev :=
  let d1 := d.setRoles i c
  let d2 := (i.taskImgs.filter (fun t => t.core == c)).foldl (fun d t => d.onCore c (fun x => x.storeAll (i.regionBytes t))) d1
  let tl : SMap Nat := match i.tallies.find? (fun t => t.1 == c) with
    | some t => t.2.zipIdx.foldl (fun m v => if v.1 = 0 then m else mset m v.2 v.1) []
    | none => []
  let init := i.peat.filter (fun b => leAt b 0 2 == c && bit (leAt b 5 1) 0)
  let slot (b : Bytes) : GenSlot :=
    let ew := leAt b 4 1
    { state := 1, gen := leAt b 2 2, ew := ew, values := (List.range 16).map (fun k => leAt b (16 + k * 2 ^ ew) (2 ^ ew)), since := 0, retired := 0 }
  let opens := i.windows.filter (fun w => fld w 0 2 == c && bit (fld w 3 1) 7)
  let sc := d2.coreScale (d.job j).deepObjs i c
  let ts := stateTensors ((d2.core c).tasks.map (fun p => (p.1, p.2.descs)))
  let total := (ts.map (fun t => t.2.2)).foldl (· + ·) 0
  let p : PumpId := .core (Fin.ofNat 256 c)
  let d3 := d2.onCore c (fun x =>
    { x with
      tags := []
      tallies := tl
      tallySat := []
      acc := []
      scale := sc.1
      groups := sc.2
      accs := i.coreAccs c
      gens := (init.map slot ++ List.replicate 4 GenSlot.reset).take 4
      pendLoads := []
      staged := []
      relay := Relay.reset
      landed := []
      windows := opens.foldl (fun m w => match mget m (fld w 2 1) with
        | some v => if v.job = j then mset m (fld w 2 1) { v with isOpen := true } else m
        | none => m) x.windows
      stpeak := []
      stpeakUsed := min total 4096
      stpeakUnrec := min (total - 4096) 65535
      maint := false })
  let d4 := sc.2.foldl (fun d g => d.onCore c (fun x => x.clearHist g.decl)) d3
  d4.onPump p (fun x => { x with level := d4.pumpCap p, at_ := d4.tb.now })

/-- Masters, the copies of generation 0 and the moments of an adapter, as the image gives them (R345). -/
def Dev.fillAdapter (d : Dev) (i : Image) (a : Rec) : Dev :=
  let k := d.task (adCore a) (adTask a)
  d.onCore (adCore a) (fun x => x.storeAll (([0, 1, 2, 3, 8, 9, 10, 11, 12, 13, 14, 15] : List Nat).map (fun t =>
    let r := (k.view (adFirst a + t) false []).range
    (r.1.toNat, (List.range (r.2 - r.1).toNat).map (Config.adapterInit (leNat i.digest) (adNum a) t)))))

/-- GA and GB hold +0 at activation, generation 0 is live (R345). -/
def Dev.startAdapters (d : Dev) (j : Nat) (i : Image) : Dev :=
  i.adapters.foldl (fun d a => ((d.clearGrads ⟨adCore a, adTask a, 0⟩ a).fillAdapter i a).onJob j (fun x => { x with adps := mset x.adps (adNum a) AdpState.start })) d

/-- The tasks of an active job stand as if they had ended the program of the round before, so that they start at step 5. -/
def Dev.readyTasks (d : Dev) (j r : Nat) : Dev :=
  (d.job j).tasks.foldl (fun d p => d.onTask p.1 p.2 (fun k => if k.state == .staged then { k with state := .ended, progRound := r - 1 } else k)) d

/-- The S-class values of a job take effect, and the shadows of its cores with them (R83). -/
def Dev.applyStaged (d : Dev) (j : Nat) : Dev :=
  let mine (off : Nat) : Bool := (d.job j).cores.any (fun c => decide (coreOff c ≤ off) && decide (off < coreOff c + 0x10000))
  { d with
    regs := (d.staged.filter (fun p => mine p.1)).foldl (fun m p => mset m p.1 p.2) d.regs
    staged := d.staged.filter (fun p => !(mine p.1)) }

/-- The regulators of the well pumps of a job's slices and of the link pumps of its routes are full at its activation (R410; entry 112). -/
def Dev.fillPumps (d : Dev) (j : Nat) (i : Image) : Dev :=
  let wells : List PumpId := (List.range 4).flatMap (fun s => if (d.job j).cores.any (fun c => c / 64 == s) then
    (List.range 4).map (fun w => .well (Fin.ofNat 4 s) (Fin.ofNat 4 w)) else [])
  let links : List PumpId := ((i.forwards.filter (fun f => fwIn f == 0xFF && fwOut f != 0xFF)).map (fun f => .link (Fin.ofNat 36 (fwOut f)))).eraseDups
  (wells ++ links).foldl (fun d p => d.onPump p (fun x => { x with level := d.pumpCap p, at_ := d.tb.now })) d

/-- A staged job becomes ACTIVE in round r (R33 step 2, R83). -/
def Dev.activate (d : Dev) (j r : Nat) : Dev :=
  match (d.job j).img with
  | none => d
  | some i =>
    let d1 := ((d.job j).cores.foldl (fun d c => d.startCore j i c) (d.applyStaged j)).fillPumps j i
    let d2 := (d1.startAdapters j i).choosePaths j
    let d3 := d2.onJob j (fun x => { x with state := .active, adpGens := 0, adpStep := 0, adpDisc := 0, loadCmd := none, standby := false })
    let d4 := (d3.readyTasks j r).logRec (outcomeRec 0x31 0 j 0 r 0 0)
    match (d.job j).loadCmd with
    | some c => d4.finishCmd j c stOk 0
    | none => d4

/-! ### Commands (R528 to R530) -/

def cmOp (b : Bytes) : Nat := leAt b 0 1
def cmJob (b : Bytes) : Nat := leAt b 1 1 % 16
def cmTag (b : Bytes) : Nat := leAt b 8 8

def HostCmd.ref (x : HostCmd) : CmdRef := { ring := x.ring, index := x.index, tag := cmTag x.bytes }

/-- The command at the front, when it has an opcode. -/
def Dev.front (d : Dev) (op : Nat) : Option HostCmd := match d.cmds with
  | x :: _ => if cmOp x.bytes = op then some x else none
  | [] => none

def Dev.popCmd (d : Dev) : Dev := { d with cmds := d.cmds.drop 1 }

/-- A command completes. -/
def Dev.answer (d : Dev) (x : HostCmd) (status code : Nat) : Dev := d.finishCmd (cmJob x.bytes) x.ref status code

/-- The round of a command's failure (R336): that of the cut that brings it, unless a later cut is already in the log (R334; DEDUCED,
entry 28). -/
def Dev.refusedIn (d : Dev) (x : HostCmd) : Nat := max d.logRound x.round

/-- An error of a command is recorded too (R542, fate Refuse): the item is a command. -/
def Dev.refuse (d : Dev) (x : HostCmd) (code : Nat) : Dev :=
  (d.raise { code := code, kind := 5, unit := cmJob x.bytes, corr := false, a := 1, b := x.index }).finishAt
    (cmdCompletion (cmJob x.bytes) x.ref stFailed code) (d.refusedIn x)

def definedOps : List Nat := [0x01, 0x02, 0x03, 0x10, 0x11, 0x12, 0x13]

def HostCmd.undefined (x : HostCmd) : Bool := !(definedOps.contains (cmOp x.bytes))

/-- Commands at the front whose opcode is undefined fail (R530). -/
def Dev.dropUndefined (d : Dev) : Dev :=
  (d.cmds.takeWhile HostCmd.undefined).foldl (fun d x => d.refuse x 0x0A01) { d with cmds := d.cmds.dropWhile HostCmd.undefined }

/-- The command at the front takes its effect; those behind it with an undefined opcode fail. -/
def onCommand (s : State) (f : Dev → Dev) : Host.Outcome State Fault Refusal := onHost s (fun d => (f d).dropUndefined)

/-- The mark after a command's cut that has not passed. -/
def Dev.cmdMark (d : Dev) (x : HostCmd) : Nat := max x.round (d.tb.round + 1)

/-- LOAD_IMAGE: steps 1 to 4 of R79 on the image that the host's memory holds. -/
def loadImageD (image : Bytes) (d0 : Dev) : Dev :=
  match d0.front 0x01 with
  | none => d0
  | some x =>
    let d := d0.popCmd
    let j := cmJob x.bytes
    let bs := sliceZ image 0 (leAt x.bytes 24 8)
    let timeout := leAt x.bytes 32 4
    if timeout < 1 ∨ 1000 < timeout then d.refuse x 0x0A01
    else if (d.job j).state != .empty then d.refuse x 0x0A02
    else
      let standby := bit (leAt x.bytes 36 1) 0
      let code := d.checkImage j bs standby
      if code ≠ 0 then (d.onJob j (fun y => { y with loadErr := code })).refuse x code
      else
        let i := parseImage bs
        let sp := (foEntries i.failover).foldl (fun m e => if foKind e = 3 then m else m ||| foSpares e) 0
        d.onJob j (fun y => { Job.reset with state := .loading, gen := y.gen, loadErr := y.loadErr, img := some i, standby := standby, timeout := timeout, stagedRound := d.tb.round, loadCmd := some x.ref, spares := sp })

/-- LOAD_STAGED: steps 5 and 6 of R79 for a slot in LOADING; `deep`: the bytes of its objects in the deep well. -/
def loadStagedD (j : Nat) (deep : List Bytes) (d : Dev) : Dev :=
  match (d.job j).img with
  | none => d
  | some i =>
    if (d.job j).state != .loading then d
    else
      let objs := i.deepBytes deep
      -- of two loads under way with different lengths, the one that is staged second is refused (R37)
      let code := if roundBusy d j && d.regF 0x1008 0 7 != i.roundLen then eImgRound else d.checkObjects objs i
      if code ≠ 0 then
        let d1 := (d.onJob j (fun y => { Job.reset with gen := y.gen, loadErr := code })).joinIfIdle.refreshSlices
        match (d.job j).loadCmd with
        | some r => (d1.raise { code := code, kind := 5, unit := j, corr := false, a := 1, b := r.index }).finishCmd j r stFailed code
        | none => d1
      else
        let d1 := if d.regF 0x1008 0 7 == i.roundLen then d else d.acceptRoundLen i.roundLen
        let d2 := (d1.stage j i).onJob j (fun y => { y with state := .staged, stagedRound := d.tb.round, deepObjs := objs })
        let d3 := d2.refreshSlices
        if (d.job j).standby then
          match (d.job j).loadCmd with
          | some r => (d3.onJob j (fun y => { y with loadCmd := none })).finishCmd j r stOk 0
          | none => d3
        else if i.fabricSize = 1 then d3.onJob j (fun y => { y with actRound := some (d.tb.round + 2) })
        else if d.linkMapOk i then d3.send (.staged i.compileId i.deviceIndex)
        else d3.raise { code := 0x020C, kind := 5, unit := j, corr := true }

/-- STOP_JOB (R85). -/
def stopJobD (d0 : Dev) : Dev :=
  match d0.front 0x02 with
  | none => d0
  | some x =>
    let d := d0.popCmd
    let j := cmJob x.bytes
    match (d.job j).state with
    | .empty => d.refuse x 0x0A03
    | .stopped => d.answer x stOk 0
    | .killed => d.answer x stOk 0
    | .active => d.onJob j (fun y => { y with state := .stopping, stopAt := some (d.cmdMark x), stopCmds := y.stopCmds ++ [x.ref] })
    | _ => d.onJob j (fun y => { y with stopAt := some (y.stopAt.getD (d.cmdMark x)), stopCmds := y.stopCmds ++ [x.ref] })

/-- KILL_JOB (R86, R387). -/
def killJobD (d0 : Dev) : Dev :=
  match d0.front 0x03 with
  | none => d0
  | some x =>
    let d := d0.popCmd
    let j := cmJob x.bytes
    if (d.job j).state == .empty then d.refuse x 0x0A03
    else (d.onJob j (fun y => { y with killCmds := y.killCmds ++ [x.ref] })).kill j (stCancelled, 0) 2

/-- Handle, class, source, unit, slot and rate of a REGISTER command are the job's own (R530). -/
def Image.registerOk (i : Image) (b : Bytes) : Bool :=
  let u := leAt b 20 1
  let s := leAt b 21 1
  decide (leAt b 16 2 < 32768) && (i.cls (leAt b 18 1)).isSome &&
    (if leAt b 19 1 = 0 then i.hostRings.contains u
     else leAt b 19 1 == 1 && i.portRoutes.any (fun r => prDir r == 0 && prPort r == u && decide (prFirst r ≤ s) && decide (s < prFirst r + prChans r)))

/-- REGISTER: the handle is taken at once and becomes PARKED at the mark (R311). -/
def registerD (d0 : Dev) : Dev :=
  match d0.front 0x10 with
  | none => d0
  | some x =>
    let d := d0.popCmd
    let b := x.bytes
    let j := cmJob b
    let h := leAt b 16 2
    match (d.job j).img with
    | none => d.refuse x 0x0A01
    | some i =>
      if (d.job j).state == .killed ∨ !i.registerOk b then d.refuse x 0x0A01
      else if (d.stream h).state != .free ∨ (d.stream h).regAt.isSome then d.refuse x 0x0A04
      else d.onStream h (fun _ =>
        { Stream.reset with
          job := j
          cls := leAt b 18 1
          source := leAt b 19 1
          port := leAt b 20 1
          tdmSlot := if leAt b 19 1 = 1 then leAt b 21 1 else 0
          rate := leAt b 22 1 % 4
          seed := if leAt b 24 8 = 0 then i.jobSeed else leAt b 24 8
          snum := (i.snumBase + h) % 2 ^ 24
          dlen := match i.cls (leAt b 18 1) with
            | some c => fld c.1 10 1
            | none => 0
          regAt := some (d.cmdMark x)
          regCmd := some x.ref })

/-- DEREGISTER takes effect at the mark (R311). -/
def deregisterD (d0 : Dev) : Dev :=
  match d0.front 0x11 with
  | none => d0
  | some x =>
    let d := d0.popCmd
    let h := leAt x.bytes 16 2
    let s := d.stream h
    if (s.state == .free ∧ s.regAt.isNone) ∨ s.job ≠ cmJob x.bytes ∨ s.deregAt.isSome ∨ 32768 ≤ h then d.refuse x 0x0A01
    else d.onStream h (fun y => { y with deregAt := some (max (d.cmdMark x) ((y.regAt.getD 0) + 1)), deregCmd := some x.ref })

/-- RESET_MARK (R219): a mark at sample S, from the round of its cut on. -/
def resetMarkD (d0 : Dev) : Dev :=
  match d0.front 0x12 with
  | none => d0
  | some x =>
    let d := d0.popCmd
    let h := leAt x.bytes 16 2
    let s := d.stream h
    if (s.state == .free ∧ s.regAt.isNone) ∨ s.job ≠ cmJob x.bytes then d.refuse x 0x0A01
    else (d.onStream h (fun y => { y with marks := y.marks ++ [leAt x.bytes 24 8] })).answer x stOk 0

/-- TARGET (R348, R529): COUNT tokens that the host's memory holds. -/
def targetD (tokens : Bytes) (d0 : Dev) : Dev :=
  match d0.front 0x13 with
  | none => d0
  | some x =>
    let d := d0.popCmd
    let b := x.bytes
    let h := leAt b 16 2
    let s := d.stream h
    if (s.state == .free ∧ s.regAt.isNone) ∨ s.job ≠ cmJob b ∨ leAt b 24 4 < 1 ∨ 4096 < leAt b 24 4 then d.refuse x 0x0A01
    else ({ d with targets := d.targets ++ [({ round := x.round, handle := h, seg := leAt b 18 2, first := leAt b 20 4, tokens := sliceZ tokens 0 (4 * leAt b 24 4) } : Target)] }).answer x stOk 0

def execLoadImage (image : Bytes) (s : State) : Host.Outcome State Fault Refusal := onCommand s (loadImageD image)
def execLoadStaged (j : StagedLoad) (s : State) : Host.Outcome State Fault Refusal := onHost s (loadStagedD j.slot.val j.deep)
def execStopJob (s : State) : Host.Outcome State Fault Refusal := onCommand s stopJobD
def execKillJob (s : State) : Host.Outcome State Fault Refusal := onCommand s killJobD
def execRegister (s : State) : Host.Outcome State Fault Refusal := onCommand s registerD
def execDeregister (s : State) : Host.Outcome State Fault Refusal := onCommand s deregisterD
def execResetMark (s : State) : Host.Outcome State Fault Refusal := onCommand s resetMarkD
def execTarget (tokens : Bytes) (s : State) : Host.Outcome State Fault Refusal := onCommand s (targetD tokens)

end Sys2Proof.Machine
end

