-- ==== Sys2Proof/Machine/Intake.lean ====
section
/-! DEFINITION. Machine/Intake.lean: the intake cut (R27 to R29, R530, R532) and intake records (R531). -/

namespace Sys2Proof.Machine

/-! ### The cut (R27) -/

/-- A round's stamp window and the TIME of its seal. -/
structure Cut where
  round : Nat
  start : Nat
  stop : Nat
  due : Nat
  deriving DecidableEq, Repr

def Dev.cut (d : Dev) : Cut :=
  let t := d.tb.markTime d.tb.nextMark
  { round := d.tb.nextMark, start := d.tb.winStart, stop := max d.tb.winStart (t - d.guardNs), due := t - 20000 }

/-- An item is offered: present at the seal, its stamp before the window's end. -/
def Cut.offers (c : Cut) (x : CrossItem) : Bool := decide (x.present ≤ c.due) && decide (x.stamp < c.stop)

/-- The offered items in the order in which they are taken: deferred ones first, then by stamp, then in sequence. -/
def Cut.order (c : Cut) (items : List CrossItem) : List CrossItem :=
  let byStamp (l : List CrossItem) : List CrossItem := (sortStamp (l.map (fun x => (x.stamp, x)))).map Prod.snd
  let off := items.filter c.offers
  byStamp (off.filter (·.late)) ++ byStamp (off.filter (fun x => !x.late))

/-- Bytes that a record takes in its round's slot (R532). -/
def slotLen (x : CrossItem) : Nat := match x.data with
  | .intake r p => (recordBytes r p).length
  | _ => 0

/-- The items that fit a release slot, in order, and those that cannot fit an empty one. -/
def fitSlot : Nat → Option Nat → List CrossItem → List CrossItem × List CrossItem
  | _, none, l => (l, [])
  | _, some _, [] => ([], [])
  | used, some cap, x :: r =>
    if cap < 64 + slotLen x then
      let y := fitSlot used (some cap) r
      (y.1, x :: y.2)
    else if cap < used + slotLen x then
      -- the first that does not fit ends the round's records; records that fit no slot are discarded all the same
      ([], r.filter (fun y => decide (cap < 64 + slotLen y)))
    else
      let y := fitSlot (used + slotLen x) (some cap) r
      (x :: y.1, y.2)

/-- SLOT_BYTES of the slot ring that an intake ring feeds; none when no loaded job names it. -/
def Dev.intakeSlot (d : Dev) (ring : Nat) : Option Nat :=
  (d.jobs.findSome? (fun p => match p.2.img with
    | some i => if p.2.loaded then i.rings.find? (fun r => srSource r == 3 && srProducer r == ring) else none
    | none => none)).map srBytes

/-- An intake cut record (R28). -/
def cutRecord (ty id round : Nat) (xs : List CrossItem) : Bytes :=
  leBytes 1 1 ++ leBytes 1 ty ++ leBytes 2 id ++ leBytes 4 xs.length ++ leBytes 8 round ++
    leBytes 4 (xs.filter (·.late)).length ++ leBytes 4 0 ++ cutDigest xs

/-- A record that cannot fit an empty slot (R532). -/
def intakeErr (ring : Nat) : Err := { code := 0x0A05, kind := 4, unit := 512 + ring }

/-- A host item that crossed before the time base ran is stamped with EPOCH, so that it falls in round 1 at the earliest (R582). -/
def Dev.fromEpoch (d : Dev) (ty : Nat) (xs : List CrossItem) : List CrossItem :=
  if ty = 0 then xs else xs.map (fun x => { x with stamp := max x.stamp d.tb.epoch })

/-- The jobs that take the items of a port or an intake ring. -/
def Dev.sourceJobs (d : Dev) (ty id : Nat) : List Nat :=
  if ty = 0 then ((d.port id).routes.filter (fun r => prDir r.2 == 0)).map (fun r => r.1 / 256)
  else if ty = 1 then (d.jobs.filter (fun p => match p.2.img with
    | some i => p.2.loaded && i.rings.any (fun r => srSource r == 3 && srProducer r == id)
    | none => false)).map Prod.fst
  else []

/-- A source is assigned nothing while the device halts; one that feeds only fabric jobs halted in the minority neither (R550). -/
def Dev.cutHalts (d : Dev) (ty id : Nat) : Bool :=
  d.err.halting || (!(d.sourceJobs ty id).isEmpty && (d.sourceJobs ty id).all (fun j => (d.job j).halting))

/-- One source at a seal: its items assigned, deferred or discarded, and its cut record (R28: every source has one, R29). A full log takes
no record, so that nothing is assigned (R29, R338). A replay assigns what the log names, and what arrives waits (R30). -/
def Dev.cutOne (d : Dev) (c : Cut) (ty id : Nat) : Dev :=
  let key := srcKey ty id
  let q := d.crossQ key
  let items := d.fromEpoch ty q.items
  let old := d.replayItems c.round ty id
  let fit := if d.cutHalts ty id || d.logFull || old.isSome then ([], [])
    else fitSlot 64 (if ty = 1 then d.intakeSlot id else none) (c.order (items.filter (fun x => !(d.waitsReplay c.round x))))
  let logged := old.getD (if ty = 2 then d.replayCmds c.round id else [])
  let asg := (fit.1 ++ logged).map (fun x => { x with late := decide (x.stamp < c.start) })
  let gone := fit.1 ++ fit.2
  let left := (items.filter (fun x => !(gone.contains x))).map (fun x => if c.offers x then { x with late := true } else x)
  let d1 := if items.isEmpty && asg.isEmpty then d else d.onCross key (fun q => { q with items := left, assigned := q.assigned ++ asg.map (fun x => (c.round, x)) })
  (fit.2.foldl (fun d _ => d.raise (intakeErr id)) d1).logRec (cutRecord ty id c.round asg)

/-- Sources in the order of their records: type, then number. -/
def cutSources : List (Nat × Nat) :=
  (List.range 16).map (fun i => (0, i)) ++ (List.range 32).map (fun i => (1, i)) ++ (List.range 16).map (fun i => (2, i)) ++
    (List.range 32).map (fun i => (3, i))

/-- The commands of a round, in stamp order, then by ring; one with an undefined opcode fails when its turn comes (R530). -/
def Dev.takeCommands (d : Dev) (round : Nat) : Dev :=
  let xs := (List.range 16).flatMap (fun r => ((d.crossQ (srcKey 2 r)).assigned).filterMap (fun p => match p.2.data with
    | .submission b => some (p.2.stamp, ({ ring := r, index := p.2.seq, bytes := b, round := round } : HostCmd))
    | _ => none))
  let d1 := (List.range 16).foldl (fun d r => if (d.crossQ (srcKey 2 r)).assigned.isEmpty then d else d.onCross (srcKey 2 r) (fun q => { q with assigned := [] })) d
  { d1 with cmds := d1.cmds ++ (sortStamp xs).map (fun (x : Nat × HostCmd) => x.2) }.dropUndefined

/-- The items of a source in a round's part 1, in sequence order (R503). -/
def Dev.assignedTo (d : Dev) (round : Nat) (s : Nat × Nat) : Bytes :=
  let xs := ((d.crossQ (srcKey s.1 s.2)).assigned.filter (fun p => p.1 == round)).map Prod.snd
  ((sortStamp (xs.map (fun x => (x.seq, x)))).map Prod.snd).flatMap shipItem

/-- INTAKE_SEAL: the cut of the next round, at its mark − 20 µs. -/
def intakeSealD (d : Dev) : Dev :=
  if !d.tb.running ∨ d.tb.sealed = d.tb.nextMark + 1 then d
  else
    let c := d.cut
    let d0 := cutSources.foldl (fun (d : Dev) (s : Nat × Nat) => d.cutOne c s.1 s.2) (d.at_ c.due)
    let d1 := { d0 with shipIn := if d0.jobs.any (fun p => p.2.mirrors != 0) then cutSources.flatMap (d0.assignedTo c.round) else [] }
    { d1 with tb := { d1.tb with winStart := c.stop, sealed := c.round + 1 } }.takeCommands c.round

def execIntakeSeal (s : State) : Host.Outcome State Fault Refusal := onUp s intakeSealD

/-! ### Intake records (R531) -/

/-- A handle is registered with SOURCE 0 on a ring for the items of a round. -/
def Dev.onRing0 (d : Dev) (h ring n : Nat) : Bool :=
  let s := d.stream h
  s.source == 0 && s.port == ring &&
    (s.state != .free || (match s.regAt with
      | some r => decide (r ≤ n)
      | none => false)) &&
    (match s.deregAt with
      | some r => decide (n < r)
      | none => true)

/-- Numbers that a record carries for its stream: audio as decoded samples, tokens as INT32 (R448, R531). -/
def recordValues (r payload : Bytes) : List Int :=
  if bit (leAt r 2 1) 1 then (chunks 4 payload).map (fun b => sext 32 (leNat b))
  else if leAt r 3 1 = 0 then payload.map (fun b => alawDecode b.toNat)
  else if leAt r 3 1 = 1 then payload.map (fun b => ulawDecode b.toNat)
  else (chunks 2 payload).map (fun b => sext 16 (leNat b))

/-- The stream takes the record's samples, or a token stream its tokens, and its reset mark. -/
def Dev.feed (d : Dev) (h : Nat) (r payload : Bytes) : Dev :=
  let tokens := bit (leAt r 2 1) 1
  let fits := tokens == (fld (d.clsOf h) 1 1 == 1)
  d.onStream h (fun s =>
    { s with
      marks := if bit (leAt r 2 1) 0 then s.marks ++ [leAt r 8 8] else s.marks
      samples := if fits then s.samples ++ recordValues r payload else s.samples })

/-- The first record of a ring that its stream has not taken, up to a round: taken, or discarded with E_INTAKE. -/
def Dev.takeRecord (d : Dev) (ring upTo : Nat) : Dev :=
  let key := srcKey 1 ring
  let as_ := (d.crossQ key).assigned
  match as_.findIdx? (fun p => !p.2.taken && decide (p.1 ≤ upTo)) with
  | none => d
  | some i => match as_[i]? with
    | some (n, x) =>
      match x.data with
      | .intake r payload =>
        let h := leAt r 0 2
        if d.onRing0 h ring n then
          (d.onCross key (fun q => { q with assigned := lset q.assigned i (fun p => (p.1, { p.2 with taken := true })) })).feed h r payload
        else
          (d.onCross key (fun q => { q with assigned := q.assigned.take i ++ q.assigned.drop (i + 1) })).raise (intakeErr ring)
      | _ => d
    | none => d

/-- Every record of the rings that is left, up to a round. -/
def Dev.takeRecords (d : Dev) (upTo : Nat) : Dev :=
  (List.range 32).foldl (fun d ring =>
    (List.range ((d.crossQ (srcKey 1 ring)).assigned.filter (fun p => !p.2.taken)).length).foldl (fun d _ => d.takeRecord ring upTo) d) d

def execIntakeRecord (ring : Fin 32) (s : State) : Host.Outcome State Fault Refusal :=
  onUp s (fun d => d.takeRecord ring.val d.tb.nextMark)

/-! ### BAR2_READ (R388, R521) -/

/-- A read of a window's bytes by the host; an uncorrectable word reads as zeros and is reported as any read of it is (R364, R365). -/
def bar2ReadD (off n : Nat) (det : Detect) (d : Dev) : Dev :=
  let o := off % aperture
  match d.b2Window (off / aperture % 32) with
  | some (c, win) =>
    if (d.core c).locked then (d.deny c).emit (.read (zeros n))
    else if (d.job win.job).loaded && decide (o + n ≤ win.bound - win.base) then
      let d1 := d.seen c det
      let a := (d.task c win.owner).base + win.base + o
      (d1.eccReadFor [] c win.owner d.tb.round ((d1.core c).badWords [((a : Nat), (a + n : Nat))])).emit (.read (memRead (d1.core c).readable a n))
    else (d.raise recHostAccess).emit (.read (zeros n))
  | none => (d.raise recHostAccess).emit (.read (zeros n))

def execBar2Read (off : Nat) (n : ReadSize) (s : State) : Host.Outcome State Fault Refusal := onHost s (bar2ReadD off n.bytes n.det)

end Sys2Proof.Machine
end

