-- ==== Sys2Proof/Machine/Tdm.lean ====
section
/-! DEFINITION. Machine/Tdm.lean: the TDM ports (spec/14): frames, stamps and repeats (R457, R462 to R465), the rate measurement (R463),
overrun and play (R459 to R461), and what a round mark does (R464, R466). -/

namespace Sys2Proof.Machine

/-! ### Configuration -/

def Dev.pctl (d : Dev) (p : Nat) : Nat := d.reg (portOff p)

/-- Slots of a frame and bits of a slot (R467). -/
def Dev.pSlots (d : Dev) (p : Nat) : Nat := bits (d.pctl p) 5 7 + 1
def Dev.pWidth (d : Dev) (p : Nat) : Nat := 8 * (bits (d.pctl p) 3 2 + 1)

/-- Nominal frame rate in mHz. -/
def Dev.pNominal (d : Dev) (p : Nat) : Nat := 1000 * tdmHz (bits (d.pctl p) 1 2)

/-- Encoding and packing that the loaded images set (R472). -/
def Dev.pEnc (d : Dev) (p : Nat) : Nat := match (d.port p).routes.head? with
  | some r => prEnc r.2
  | none => 0

/-- Bits of a sample on the line (R447). -/
def encBits (enc : Nat) : Nat := if enc ≤ 1 then 8 else if enc = 2 then 16 else if enc = 3 then 24 else 32

/-- The sample in a slot: its most significant bits (R444, R448). -/
def lineDecode (enc width code : Nat) : Int :=
  let c := code % 2 ^ width / 2 ^ (width - encBits enc)
  if enc = 0 then alawDecode c else if enc = 1 then ulawDecode c else sext (encBits enc) c

/-- A sample as the slot carries it (R444, R449). -/
def lineEncode (enc width : Nat) (v : Int) : Nat :=
  (if enc = 0 then alawEncode v else if enc = 1 then ulawEncode v else unsext (encBits enc) v) * 2 ^ (width - encBits enc)

/-- A port works while it is enabled and its slice serves (R18, R468). -/
def Dev.portUp (d : Dev) (p : Nat) : Bool := bit (d.pctl p) 0 && decide ((d.port p).state ≠ 0) && d.sliceUp (p / 4)

/-- An event of a port: its W1C bit and its interrupt (R467, R468). -/
def Dev.portEvent (d : Dev) (p b : Nat) : Dev :=
  let d1 := d.onPort p (fun x => { x with ev := putBits x.ev b 1 1 })
  if bit (d.pctl p) 24 then d1.vector (bits (d.pctl p) 25 6) else d1

/-! ### Frames -/

/-- The measurement of R463 at a real frame: 16 predecessors, all real. -/
def Dev.measure (d : Dev) (p stamp : Nat) (real : Bool) : Dev :=
  if !real then d.onPort p (fun x => { x with stamps := [] })
  else
    let x := d.port p
    let ss := (x.stamps ++ [stamp])
    if ss.length < 17 then d.onPort p (fun x => { x with stamps := ss })
    else
      let span := stamp - ss.headD 0
      let m := 16 * 10 ^ 12 / span
      let nom := d.pNominal p
      let dev := decide (nom < 200 * (max m nom - min m nom))
      let devRun := if dev then x.devRun + 1 else 0
      let okRun := if dev then 0 else x.okRun + 1
      let starts := !x.rateAct && decide (16 ≤ devRun)
      let act := if starts then true else if x.rateAct && decide (16 ≤ okRun) then false else x.rateAct
      let d1 := d.onPort p (fun x => { x with stamps := ss.drop 1, meas := m, devRun := devRun, okRun := okRun, rateAct := act })
      if starts then (d1.count (portOff p + 0x20) 48 1).portEvent p 10 else d1

/-- Receive routes of a port. -/
def Dev.rxRoutes (d : Dev) (p : Nat) : List (Nat × Rec) := (d.port p).routes.filter (fun r => prDir r.2 == 0)

/-- A route's task has released the block of a round, or has passed it. -/
def Dev.blockOut (d : Dev) (n : Nat) (r : Rec) : Bool :=
  let k := d.task (prCore r) (prTask r)
  k.state == .none || decide (n < k.progRound) || (k.progRound == n && k.released.contains (prRing r))

/-- The samples placed last, channel by channel: those of the channels that a loaded receive route places (R462). -/
def Dev.placed (d : Dev) (p : Nat) (last vs : List Int) : List Int :=
  let rs := d.rxRoutes p
  if rs.isEmpty then (d.port p).last
  else last.zipIdx.map (fun s => if rs.any (fun r => decide (prFirst r.2 ≤ s.2) && decide (s.2 < prFirst r.2 + prChans r.2)) then vs.getD s.2 0 else s.1)

/-- Frames that take room in a port's receive queue: not yet released to every route, overrun repeats apart (R459). -/
def Dev.queued (d : Dev) (p : Nat) : Nat :=
  let q := d.crossQ (srcKey 0 p)
  let holds (x : CrossItem) : Bool := !bit (frameOf x).2.2.1 3
  (q.items.filter holds).length + (q.assigned.filter (fun a => holds a.2 && !((d.rxRoutes p).all (fun r => d.blockOut a.1 r.2)))).length

/-- Capacity of the receive queue; none while no receive route is loaded. -/
def Dev.rxCap (d : Dev) (p : Nat) : Option Nat := match (d.rxRoutes p).map (fun r => prCap r.2) with
  | [] => none
  | a :: r => some (2 * r.foldl max a)

/-- A frame is complete: it is queued under the next sequence number, a repeat when it stands for one or finds the queue full. Until the time
base is aligned frames are discarded and not counted (R582). -/
def Dev.emitFrame (d : Dev) (p : Nat) (f : OpenFrame) (vals : List Int) (now : Nat) : Dev :=
  if !d.tb.aligned then d else
  let full_ := match d.rxCap p with
    | some c => decide (c ≤ d.queued p)
    | none => false
  let x := d.port p
  let rep := f.isRepeat || full_
  let last := if x.last.isEmpty then List.replicate (d.pSlots p) 0 else x.last
  let vs := if rep then last else vals
  let d1 := d.measure p f.stamp (!f.isRepeat)
  let ev := f.events + (if (d1.port p).rateAct then 4 else 0) + (if full_ then 8 else 0)
  let it : CrossItem :=
    { stamp := f.stamp, present := now, seq := x.seq, len := d.pSlots p * d.pWidth p / 8, late := false, taken := false,
      data := .frame vs rep ev (d1.port p).meas }
  let d2 := d1.onCross (srcKey 0 p) (fun q => { q with items := q.items ++ [it] })
  let d3 := d2.onPort p (fun x => { x with seq := (x.seq + 1) % 2 ^ 32, last := d.placed p last vs })
  if full_ then (d3.count (portOff p + 0x18) 0 1).portEvent p 11 else d3

/-! ### Play (R460, R461) -/

/-- What one play route plays in a frame: its samples, its queue afterwards, whether the queue was empty. -/
def playStep (x : Port) (key chans : Nat) : List Int × Port × Bool :=
  match mgetD x.playQ key [] with
  | [] => (((x.played.find? (fun r => r.1 == key)).map Prod.snd).getD (List.replicate chans 0), x, true)
  | blk :: rest =>
    if x.playOn.contains key then
      let pos := mgetD x.playPos key 0
      let vs := blk.getD pos []
      let ended := decide (blk.length ≤ pos + 1)
      (vs,
        { x with
          playQ := if ended then mset x.playQ key rest else x.playQ
          playPos := mset x.playPos key (if ended then 0 else pos + 1)
          played := x.played.filter (fun r => r.1 != key) ++ [(key, vs)] },
        false)
    else (List.replicate chans 0, x, false)

/-- Every route plays its next sample; the slots that no route names are idle. -/
def Dev.playFrame (d : Dev) (p : Nat) : Dev :=
  let enc := d.pEnc p
  let w := d.pWidth p
  let idle : Option Nat := if bit (d.pctl p) 17 then some (lineEncode enc w 0) else none
  let rs := (d.port p).routes.filter (fun r => prDir r.2 == 1)
  let r := rs.foldl (fun (a : List (Option Nat) × Port × Bool) r =>
    let y := playStep a.2.1 r.1 (prChans r.2)
    (a.1.zipIdx.map (fun s => if prFirst r.2 ≤ s.2 ∧ s.2 < prFirst r.2 + prChans r.2 then some (lineEncode enc w (y.1.getD (s.2 - prFirst r.2) 0)) else s.1),
      y.2.1, a.2.2 || y.2.2)) (List.replicate (d.pSlots p) idle, d.port p, false)
  let d1 := d.onPort p (fun _ => { r.2.1 with outSlots := r.1 })
  if r.2.2 then (d1.count (portOff p + 0x18) 32 1).portEvent p 12 else d1

/-- Samples of a play block (R455), frame by frame. -/
def playBlock (r : Rec) (bs : Bytes) : List (List Int) :=
  let b := encBytes (prEnc r) (prPack r)
  (List.range (prCap r)).map (fun i => (List.range (prChans r)).map (fun k =>
    let v := leAt bs (k * prS r + i * b) b
    if prEnc r ≤ 2 then sext 16 v else if prEnc r = 3 then sext 24 (if prPack r then v / 256 else v) else sext 32 v))

/-- The full slot at the get index of a play route's ring: its bytes. -/
def Dev.playSlot (d : Dev) (r : Rec) : Option Bytes :=
  let c := prCore r
  let k := d.task c (prTask r)
  match k.ring? (prRing r) with
  | some g => if ((d.core c).tag (ringTag g false)).full then some (memRead (d.core c).readable (k.base + srBase g.decl + g.get * srBytes g.decl) (srBytes g.decl)) else none
  | none => none

/-- TDM_PLAY_REFILL (R460): a full ring slot is copied into a queue of fewer than two blocks, and is empty. -/
def playRefillD (p route : Nat) (d : Dev) : Dev :=
  match (d.port p).routes[route]? with
  | none => d
  | some (key, r) =>
    if prDir r ≠ 1 ∨ !d.portUp p ∨ !d.pumpUp (.core (Fin.ofNat 256 (prCore r))) ∨ 2 ≤ (mgetD (d.port p).playQ key []).length then d
    else
      match d.playSlot r with
      | none => d
      | some bs =>
        let d1 := d.onPort p (fun x =>
          let q := mgetD x.playQ key [] ++ [playBlock r bs]
          { x with playQ := mset x.playQ key q, playOn := if 2 ≤ q.length ∧ !(x.playOn.contains key) then x.playOn ++ [key] else x.playOn })
        let k := d.task (prCore r) (prTask r)
        let met := match k.ring? (prRing r) with
          | some g => (d.core (prCore r)).badWords [((k.base + srBase g.decl + g.get * srBytes g.decl : Nat),
              (k.base + srBase g.decl + g.get * srBytes g.decl + srBytes g.decl : Nat))]
          | none => []
        (d1.ringMove (prCore r) (prTask r) [] (prRing r, false)).eccReadFor [] (prCore r) (prTask r) d.tb.round met

def execTdmPlayRefill (p : Fin 16) (route : Fin 8) (s : State) : Host.Outcome State Fault Refusal := onUp s (playRefillD p.val route.val)

/-! ### The line -/

/-- Frames at the front that wait for no more of the line are complete; the port plays a frame for each. -/
def Dev.flushReady (d : Dev) (p now : Nat) : Dev :=
  let fs := (d.port p).opened
  (fs.takeWhile (·.ready)).foldl (fun d f => (d.emitFrame p f [] now).playFrame p)
    (d.onPort p (fun x => { x with opened := fs.dropWhile (·.ready) }))

/-- TDM_FRAME: the oldest frame in progress is complete; its slots' codes are decoded, and a frame is played. -/
def tdmFrameD (p : Nat) (slots : List Nat) (now : Nat) (d0 : Dev) : Dev :=
  let d := d0.at_ now
  match (d.port p).opened with
  | [] => d
  | f :: r =>
    if !d.portUp p then d
    else
      let vals := (List.range (d.pSlots p)).map (fun i => lineDecode (d.pEnc p) (d.pWidth p) (slots.getD i 0))
      ((((d.onPort p (fun x => { x with opened := r })).emitFrame p f vals now)).playFrame p).flushReady p now

def execTdmFrame (p : Fin 16) (slots : List Nat) (now : Nat) (s : State) : Host.Outcome State Fault Refusal := onUp s (tdmFrameD p.val slots now)

/-- A misplaced or missing sync is counted. -/
def Dev.glitch (d : Dev) (p : Nat) : Dev := (d.count (portOff p + 0x20) 0 1).portEvent p 9

/-- A frame opens. -/
def Dev.openFrame (d : Dev) (p : Nat) (f : OpenFrame) : Dev :=
  d.onPort p (fun x => { x with state := 2, opened := x.opened ++ [f], stopT0 := f.stamp, stopJ := 0 })

/-- The stamp of a frame sync: ports with FS_SRC share FSYNC_SH, so that the one TIME sample of an edge stamps the frames that it opens on
all of them (R458). An edge less than half a frame after another port's stamp is that port's (DEDUCED, entry 124). -/
def Dev.syncStamp (d : Dev) (p now : Nat) : Nat :=
  let f := d.pNominal p
  if !bit (d.pctl p) 16 then now
  else match d.ports.find? (fun q => q.1 != p && bit (d.pctl q.1) 16 && d.portUp q.1 && decide (q.2.stopT0 ≠ 0) && decide (q.2.stopT0 ≤ now) &&
      decide (2 * f * (now - q.2.stopT0) < 10 ^ 12)) with
    | some q => q.2.stopT0
    | none => now

/-- TDM_FRAME_SYNC: SEEKING and STOPPED end, and the frame is taken normally; a locked port judges the sync's place (R464, R465). -/
def frameSyncD (p : Nat) (atExpected early : Bool) (now : Nat) (d0 : Dev) : Dev :=
  let d := d0.at_ now
  let at_ := d.syncStamp p now
  if !d.portUp p then d
  else if (d.port p).state ≠ 2 ∨ atExpected then d.openFrame p ⟨at_, false, 0, false⟩
  else
    let d1 := d.glitch p
    let d2 := match (d1.port p).opened.getLast? with
      | some f =>
        if early then (d1.onPort p (fun x => { x with opened :=
          x.opened.dropLast ++ [{ f with isRepeat := true, events := f.events ||| 2, ready := true }] })).flushReady p now
        else d1
      | none => d1
    d2.openFrame p ⟨at_, true, 2, false⟩

def execTdmFrameSync (p : Fin 16) (atExpected early : Bool) (now : Nat) (s : State) : Host.Outcome State Fault Refusal :=
  onUp s (frameSyncD p.val atExpected early now)

/-- TDM_MISSING_SYNC: a repeat frame stamped at the expected edge, behind the frames still in progress; the phase stays. -/
def missingSyncD (p now : Nat) (d0 : Dev) : Dev :=
  let d := d0.at_ now
  if !d.portUp p ∨ (d.port p).state ≠ 2 then d
  else
    ((d.glitch p).onPort p (fun x => { x with opened := x.opened ++ [⟨now, true, 2, true⟩], stopT0 := now, stopJ := 0 })).flushReady p now

def execTdmMissingSync (p : Fin 16) (now : Nat) (s : State) : Host.Outcome State Fault Refusal := onUp s (missingSyncD p.val now)

/-- TDM_CLOCK_STOP: the frames in progress become repeats with their own stamps. A port that still seeks its first frame has none, so that
its stop makes no repeats (DEDUCED, entry 124). -/
def clockStopD (p now : Nat) (d0 : Dev) : Dev :=
  let d := d0.at_ now
  if !d.portUp p ∨ (d.port p).state = 3 then d
  else
    let fs := (d.port p).opened
    let d1 := (d.onPort p (fun x => { x with state := 3, opened := [], stopJ := 0 })).count (portOff p + 0x20) 16 1
    fs.foldl (fun d f => d.emitFrame p { f with isRepeat := true, events := f.events ||| 1 } [] now) (d1.portEvent p 8)

def execTdmClockStop (p : Fin 16) (now : Nat) (s : State) : Host.Outcome State Fault Refusal := onUp s (clockStopD p.val now)

/-- The expected frame rate in mHz: the latest measurement while a rate event is active (R463). -/
def Dev.expectedRate (d : Dev) (p : Nat) : Nat := if (d.port p).rateAct then max 1 (d.port p).meas else d.pNominal p

/-- TDM_STOP_REPEAT_FRAME: at t_j + P ÷ 2 a repeat frame stamped t_j = t0 + j × P; a stamp that is no whole ns is rounded by a free
value (entry 4). -/
def stopRepeatD (p now : Nat) (d0 : Dev) : Dev :=
  let d := d0.at_ now
  let x := d.port p
  let j := x.stopJ + 1
  let f := d.expectedRate p
  if !d.portUp p ∨ x.state ≠ 3 ∨ x.stopT0 = 0 ∨ 2 * f * (now - x.stopT0) < (2 * j + 1) * 10 ^ 12 then d
  else
    let r := if j * 10 ^ 12 % f = 0 then (0, d) else d.freeVal 7
    (r.2.onPort p (fun x => { x with stopJ := j })).emitFrame p ⟨x.stopT0 + j * 10 ^ 12 / f + r.1 % 2, true, 1, true⟩ [] now

def execTdmStopRepeatFrame (p : Fin 16) (now : Nat) (s : State) : Host.Outcome State Fault Refusal := onUp s (stopRepeatD p.val now)

/-! ### At a round mark -/

/-- R466: one record per port and per kind of event of the round just ended. -/
def Dev.portErrors (d : Dev) : Dev :=
  (List.range 16).foldl (fun d p =>
    [(0x0801, 0x20, 16), (0x0802, 0x20, 0), (0x0803, 0x20, 48), (0x0804, 0x18, 0), (0x0805, 0x18, 32)].foldl (fun (d : Dev) (e : Nat × Nat × Nat) =>
      if mgetD d.cntNow ((portOff p + e.2.1) * 64 + e.2.2) 0 = 0 then d else d.raise { code := e.1, kind := 2, unit := p, round := some (d.tb.round - 1) }) d) d

/-- R464 step 5: a stopped port discards one full slot of each play route. -/
def Dev.portDiscards (d : Dev) : Dev :=
  d.ports.foldl (fun d p =>
    if p.2.state ≠ 3 then d
    else (p.2.routes.filter (fun r => prDir r.2 == 1)).foldl (fun d r => match d.playSlot r.2 with
      | some _ => (d.ringMove (prCore r.2) (prTask r.2) [] (prRing r.2, false)).count (portOff p.1 + 0x20) 32 1
      | none => d) d) d

end Sys2Proof.Machine
end

