-- ==== Sys2Proof/Machine/Transfer.lean ====
section
/-! DEFINITION. Machine/Transfer.lean: transfers at their destination (R481, R482, R501, R502), and shipments to and from mirrors (R503 to
R505, R563, R566). -/

namespace Sys2Proof.Machine

/-! ### LINK_TRANSFER_ARRIVAL -/

/-- The loaded job of a compile on this device that runs tasks. -/
def Dev.jobOf (d : Dev) (compile : Nat) : Option (Nat × Image) :=
  d.jobs.findSome? (fun p => match p.2.img with
    | some i => if p.2.loaded ∧ i.compileId = compile ∧ !p.2.standby then some (p.1, i) else none
    | none => none)

/-- The task whose link ring takes a FIXED transfer, with the ring's number (R481). -/
def Dev.landRing (d : Dev) (x : RxXfer) : Option (Nat × Nat × Nat) :=
  match d.jobOf (thCompile x.data) with
  | none => none
  | some (j, i) =>
    ((d.core (thCore x.data)).tasks.findSome? (fun t =>
      if t.2.job = j ∧ t.2.state ≠ .none then
        (t.2.rings.find? (fun r => srSource r.decl == 4 && i.deliverLink x.route == some (srProducer r.decl))).map (fun r => (thCore x.data, t.1, srRing r.decl))
      else none))

/-- The release tick of a task's link ring in round n is over. -/
def Dev.ticked (d : Dev) (c t ring n : Nat) : Bool :=
  let k := d.task c t
  decide (n < k.progRound) || (k.progRound == n && (k.released.contains ring || k.state == .ended || k.state == .held))

/-- A transfer that was not complete at its release tick (R482): judged there already when the tick found none, else one record now for each
item of its landing round in the receiving task, which fails; a replay has those from its log. -/
def Dev.missedTick (d : Dev) (l : Nat) (x : RxXfer) (c t ring : Nat) : Dev :=
  let n := thLand x.data
  if (d.task c t).missed.contains (ring, n) then d.onTask c t (fun k => { k with missed := k.missed.erase (ring, n) })
  else
    let j := (d.task c t).job
    let hs := d.runningIn j n (d.taskCords c t)
    let d1 := d.countLate l
    if d.replays j n then d1
    else (d1.recordEach { code := 0x0901, kind := 3, unit := l, round := some n } n hs ring (fun _ => false)).markFailed n hs 0x0901

/-- A FIXED transfer at its arrival (R482): one whose tick is over is late and dropped; else it waits for its tick, late when its DEADLINE is
past. -/
def Dev.arriveFixed (d : Dev) (l i now : Nat) (x : RxXfer) : Dev :=
  let late := decide (thDeadline x.data < now)
  let wait (d : Dev) : Dev :=
    (if late then d.countLate l else d).onLink l (fun y => { y with rx := lset y.rx i (fun x => { x with at_ := now, judged := true, late := late }) })
  match d.landRing x with
  | some (c, t, ring) => if d.ticked c t ring (thLand x.data) then (d.dropRx l i).missedTick l x c t ring else wait d
  | none => wait d

/-- Well bytes land when a job of the compile holds every one of them; a killed job's pages are unmapped (R389, R501). -/
def Dev.landWell (d : Dev) (x : RxXfer) : Dev :=
  let a := thAddr x.data
  let n := thBytes x.data
  if d.jobs.any (fun p => p.2.loaded && p.2.state != .killed && (match p.2.img with
      | some i => i.compileId == thCompile x.data && i.wellRanges.any (fun r => decide (r.1 ≤ a) && decide (a + n ≤ r.1 + r.2))
      | none => false)) then d.wellWrite a (thData x.data)
  else d.reject x.data

/-- A BULK transfer into a window is judged as it arrives (R383, R501, R502). -/
def Dev.landWindow (d : Dev) (x : RxXfer) : Dev :=
  let c := thCore x.data
  let bs := thData x.data
  -- traffic into a contained slice is dropped at its ring stop (R19; entry 111)
  if !(d.sliceUp (c / 64)) then (d.raise { code := 0x0507, kind := 3, unit := x.link }).reject x.data
  else match mget (d.core c).windows (thWindow x.data) with
  | none => (d.windowDrop c).reject x.data
  | some win =>
    let a := (d.task c win.owner).base + win.base + thAddr x.data
    match d.accepts c x.writer a bs.length with
    | some _ => (d.countWindows c x.writer a bs.length).onCore c (fun y => y.storeAll [(a, bs)])
    | none => (d.windowDrop c).reject x.data

/-- LINK_TRANSFER_ARRIVAL: the oldest whole transfer of a link that has not been judged. A FIXED one waits, on time or late, for the
RELEASE of its landing round; a late one is not written. -/
def arrivalD (l now : Nat) (d0 : Dev) : Dev :=
  let d := d0.at_ now
  match (d.link l).rx.findIdx? (fun x => x.whole && !x.judged) with
  | none => d
  | some k => match (d.link l).rx[k]? with
    | none => d
    | some x =>
      if !d.linkUp l then d
      else if x.fixed && !(thWell x.data) then d.arriveFixed l k now x
      else if x.fixed && decide (thDeadline x.data < now) then (d.dropRx l k).countLate l
      else if thWell x.data then (d.dropRx l k).landWell x
      else (d.dropRx l k).landWindow x

def execLinkTransferArrival (l : Fin 36) (now : Nat) (s : State) : Host.Outcome State Fault Refusal := onUp s (arrivalD l.val now)

/-! ### WINDOW_REJECT -/

/-- WINDOW_REJECT (R502): the reject names a transfer that this device sent; it acts at the next mark. -/
def windowRejectD (sent : Nat) (d : Dev) : Dev :=
  match d.fabric.sentXfers[sent]? with
  | none => d
  | some x => { d with fabric := { d.fabric with rejects := d.fabric.rejects ++ [x] } }

def execWindowReject (sent : Nat) (s : State) : Host.Outcome State Fault Refusal := onUp s (windowRejectD sent)

/-- At the mark: E_WINDOW for the items of each rejected transfer. -/
def Dev.handleRejects (d : Dev) : Dev :=
  d.fabric.rejects.foldl (fun d x => d.xferFail x 0x0505 none) { d with fabric := { d.fabric with rejects := [] } }

/-! ### Shipments received (R504, R505) -/

def shCompile (b : Bytes) : Nat := leAt b 0 8
def shOrigin (b : Bytes) : Nat := leAt b 8 2
def shPart (b : Bytes) : Nat := leAt b 10 1
def shUnits (b : Bytes) : Nat := leAt b 12 4
def shRound (b : Bytes) : Nat := leAt b 16 8
def shBytes (b : Bytes) : Nat := leAt b 24 8

/-- A standby of an origin's compile that is STAGED (R564). -/
def Dev.standbyOf (d : Dev) (compile origin : Nat) : Option Nat :=
  (d.jobs.find? (fun p => p.2.standby && p.2.state == .staged && (match p.2.img with
    | some i => i.compileId == compile && i.deviceIndex == origin
    | none => false))).map Prod.fst

def Ship.matches_ (s : Ship) (b : Bytes) : Bool :=
  s.compile == shCompile b && s.origin == shOrigin b && s.round == shRound b && s.part == shPart b

/-- All bytes of a part are there and have its digest. -/
def Ship.whole (s : Ship) : Bool := s.data.length == s.bytes && (sha3 s.data).take 8 == s.digest

/-- The four parts of a shipment are complete. -/
def Mirror.whole (m : Mirror) (compile origin round : Nat) : Bool :=
  (List.range 4).all (fun p => m.parts.any (fun s => s.compile == compile && s.origin == origin && s.round == round && s.part == p && s.whole))

/-- The units of part 0 with their places in the copy. A unit carries no address: its place is a free value (entry 4). -/
def placeUnits (compile origin round : Nat) (bs : Bytes) : List (Nat × Bytes) :=
  (chunks 4096 bs).zipIdx.map (fun u => (Config.freeValue 6 (((compile * 512 + origin) * 2 ^ 64 + round) * 2 ^ 32 + u.2), u.1))

/-- Up to n stored blocks one after another, each in the slot of its class; zeros and a block that the unit's end cuts are not checked. -/
def peatBlocksOk : Nat → Bytes → Bool
  | 0, _ => true
  | n + 1, b =>
    let size := peatSize (leAt b 0 1 % 4)
    if b.length < size || b.all (· == 0) then true
    else leAt b 4 4 == crc32c (b.take 4 ++ zeros 4 ++ sliceZ b 8 (size - 8)) && peatBlocksOk n (b.drop size)

/-- The CRC-32C of the Peat blocks of a unit (R51, R429). -/
def peatUnitOk (u : Bytes) : Bool := peatBlocksOk (u.length / 128 + 1) u

/-! ### Adapters in shipments (R355) -/

/-- Tensors that ship at a switch: masters, copies, moments. -/
def adpSwitched : List Nat := [0, 1, 2, 3, 4, 5, 8, 9, 10, 11, 12, 13, 14, 15]

/-- Place and bytes of some of an adapter's tensors (R344). -/
def Dev.adpRanges (d : Dev) (a : Rec) (ts : List Nat) : List (Nat × Nat) :=
  let k := d.task (adCore a) (adTask a)
  ts.map (fun t => let r := (k.view (adFirst a + t) false []).range; (r.1.toNat, (r.2 - r.1).toNat))

def sumLens (rs : List (Nat × Nat)) : Nat := (rs.map Prod.snd).foldl (· + ·) 0

/-- An adapter's bytes in part 3: number, whether a switch's tensors follow, step count, n, generation; GA and GB (entry 64). -/
def Dev.adpPart (d : Dev) (j : Nat) (a : Rec) (full : Bool) : Bytes :=
  let s := (d.job j).adp (adNum a)
  let rd (ts : List Nat) : Bytes := (d.adpRanges a ts).flatMap (fun r => sliceZ (memRead (d.core (adCore a)).mem r.1 r.2) 0 r.2)
  leBytes 1 (adNum a) ++ leBytes 1 full.toNat ++ zeros 2 ++ leBytes 4 s.step ++ leBytes 4 s.n ++ leBytes 4 s.gen ++ rd [6, 7] ++
    (if full then rd adpSwitched else [])

/-- A switch took effect since the last shipment, or the job started (R354, R355). -/
def Dev.adpDue (d : Dev) (j : Nat) (a : Rec) : Bool := ((d.job j).adp (adNum a)).sent != some ((d.job j).adp (adNum a)).gen

/-- The mirror keeps each adapter's latest bytes of both kinds. -/
def Dev.takeAdapters (d : Dev) (compile origin : Nat) : List Rec → Bytes → Dev
  | [], _ => d
  | a :: r, b =>
    let n1 := 16 + sumLens (d.adpRanges a [6, 7])
    let n2 := if leAt b 1 1 = 1 then sumLens (d.adpRanges a adpSwitched) else 0
    let key := (compile, origin, adNum a)
    let old := ((d.mirror.adapters.find? (fun x => x.1 == key)).map (fun x => x.2.2)).getD []
    let new := (key, b.take n1, if n2 = 0 then old else (b.drop n1).take n2)
    Dev.takeAdapters { d with mirror := { d.mirror with adapters := d.mirror.adapters.filter (fun x => x.1 != key) ++ [new] } } compile origin r (b.drop (n1 + n2))

/-- Writes of some bytes into ranges, in order. -/
def spread : List (Nat × Nat) → Bytes → List (Nat × Bytes)
  | [], _ => []
  | r :: rs, b => (r.1, sliceZ b 0 r.2) :: spread rs (b.drop r.2)

/-- An activated standby's adapters as the latest complete shipment has them (R563 step 3). -/
def Dev.restoreAdapters (d : Dev) (j : Nat) (i : Image) : Dev := i.adapters.foldl (fun d a =>
  match d.mirror.adapters.find? (fun x => x.1 == (i.compileId, i.deviceIndex, adNum a)) with
  | none => d
  | some (_, each, full) =>
    let ws := spread (d.adpRanges a [6, 7]) (each.drop 16) ++ (if full.isEmpty then [] else spread (d.adpRanges a adpSwitched) full)
    (d.onCore (adCore a) (fun x => x.storeAll ws)).onAdp j (adNum a) (fun s => { s with step := leAt each 4 4, n := leAt each 8 4, gen := leAt each 12 4 })) d

/-- A complete shipment: applied and reported; the last two stay, with parts 1 and 2 since the older of them. One whose units in Peat form
do not have their CRC-32C is not complete (R51). -/
def Dev.takeShipment (d0 : Dev) (j compile origin round : Nat) : Dev :=
  let m := d0.mirror
  let bytes (p : Nat) : Bytes := m.shipped compile origin p round
  let u := placeUnits compile origin round (bytes 0)
  if u.any (fun x => Config.peatUnit x.1 && !peatUnitOk x.2) then
    { d0 with mirror := { m with parts := m.parts.filter (fun s => !(s.compile == compile && s.origin == origin && s.round == round && s.part == 0)) } }
  else
  let d := { d0 with mirror := { m with state := u.foldl (fun (s : SMap Bytes) (x : Nat × Bytes) => mset s x.1 x.2) m.state } }
  let d1 := match (d.job j).img with
    | some i => d.takeAdapters compile origin i.adapters (bytes 3)
    | none => d
  let mine := m.complete.filter (fun (c : Nat × Nat × Nat) => c.1 == compile && c.2.1 == origin)
  let keep := mine.drop (mine.length - 1) ++ [(compile, origin, round)]
  let oldest := (keep.map (fun c => c.2.2)).foldl min round
  ({ d1 with mirror := { d1.mirror with
    complete := m.complete.filter (fun (c : Nat × Nat × Nat) => !(c.1 == compile && c.2.1 == origin)) ++ keep
    parts := d1.mirror.parts.filter (fun s => !(s.compile == compile && s.origin == origin) || ((s.part == 1 || s.part == 2) && decide (oldest ≤ s.round)) || decide (round < s.round)) } }).send (.shipped j round)

/-- MIRROR_SHIPMENT: one transfer of a part, header first. -/
def shipmentD (b : Bytes) (d : Dev) : Dev :=
  match d.standbyOf (shCompile b) (shOrigin b) with
  | none => d
  | some j =>
    if 3 < shPart b ∨ d.mirror.complete.contains (shCompile b, shOrigin b, shRound b) then d
    else
      let body := b.drop 64
      let parts := if d.mirror.parts.any (fun s => s.matches_ b) then d.mirror.parts.map (fun s => if s.matches_ b then { s with data := s.data ++ body } else s)
        else d.mirror.parts ++ [{ compile := shCompile b, origin := shOrigin b, round := shRound b, part := shPart b, units := shUnits b, bytes := shBytes b, digest := sliceZ b 32 8, data := body }]
      let d1 := { d with mirror := { d.mirror with parts := parts } }
      if d1.mirror.whole (shCompile b) (shOrigin b) (shRound b) then d1.takeShipment j (shCompile b) (shOrigin b) (shRound b) else d1

def execMirrorShipment (data : Bytes) (s : State) : Host.Outcome State Fault Refusal := onUp s (shipmentD data)

/-! ### Shipments sent (R503 to R505) -/

def shipHeader (compile dev part units round bytes : Nat) (digest : Bytes) : Bytes :=
  leBytes 8 compile ++ leBytes 2 dev ++ leBytes 1 part ++ leBytes 1 0 ++ leBytes 4 units ++ leBytes 8 round ++ leBytes 8 bytes ++ digest.take 8 ++ zeros 24

/-- MIRROR entry of an image for its own index: the mirrors' indices (R561). -/
def Image.mirrorsOf (i : Image) : List Nat := match (foEntries i.failover).find? (fun e => foKind e == 3 && fld e 4 2 == i.deviceIndex) with
  | some e => ((List.range 3).map (fun k => fld e (6 + 2 * k) 2)).filter (fun m => m != 0xFFFF)
  | none => []

/-- A device of a compile is present: a member advertises its index (R492). -/
def Dev.present (d : Dev) (compile dev : Nat) : Bool :=
  d.fabric.map.any (fun a => (d.fabric.members.isEmpty || d.fabric.members.contains a.identity) && a.compiles.contains (compile, dev))

def Dev.presentMirrors (d : Dev) (i : Image) : List Nat := i.mirrorsOf.filter (d.present i.compileId)

/-- The shipment of a mark's round: parts 1 to 3 with their digests, in the model's layout (entry 64); the spec fixes no order of the units
of part 0, so that their number and their digest are free values (entry 4). -/
def Dev.ship (d : Dev) (j : Nat) (logged : List Bytes) : Dev :=
  match (d.job j).img with
  | none => d
  | some i =>
    if (d.job j).mirrors = 0 ∨ !(d.job j).live then d
    else
      let n := d.tb.round
      let whole (d : Dev) (p units : Nat) (bs : Bytes) : Dev :=
        d.send (.shipment j (shipHeader i.compileId i.deviceIndex p units n bs.length (sha3 bs)) bs)
      let part (d : Dev) (p : Nat) : Dev :=
        if p = 1 then whole d 1 (((logged.filter (fun b => leAt b 0 1 == 1)).map (fun b => leAt b 4 4)).foldl (· + ·) 0) d.shipIn
        else if p = 2 then whole d 2 logged.length logged.flatten
        else if p = 3 then
          i.adapters.foldl (fun d a => d.onAdp j (adNum a) (fun s => { s with sent := some s.gen }))
            (whole d 3 i.adapters.length (i.adapters.flatMap (fun a => d.adpPart j a (d.adpDue j a))))
        else
          let u := d.freeVal 5
          let v := u.2.freeVal 5
          v.2.send (.shipment j (shipHeader i.compileId i.deviceIndex p (u.1 % 2 ^ 32) n (u.1 % 2 ^ 32 * 4096) (leBytes 8 v.1)) [])
      ([0, 1, 2, 3].foldl part d).onJob j (fun x => { x with shipped := n })

/-- E_MIRROR_LATE: the shipment of two rounds ago is not complete at a present mirror (R505). -/
def Dev.mirrorLate (d : Dev) (j since : Nat) : Dev :=
  match (d.job j).img with
  | none => d
  | some i =>
    let n := d.tb.round - 2
    if (d.job j).mirrors ≠ 0 ∧ (d.job j).live ∧ since ≤ n ∧ 2 ≤ d.tb.round ∧ (d.presentMirrors i).any (fun m => !(d.mirror.reported.contains (m, n))) then
      d.raise { code := 0x0905, kind := 5, unit := j }
    else d

/-- The present mirrors have reported a round's shipment (R566). -/
def Dev.mirrored (d : Dev) (j n : Nat) : Bool := match (d.job j).img with
  | some i => (d.job j).mirrors == 0 || (d.presentMirrors i).all (fun m => d.mirror.reported.contains (m, n))
  | none => true

end Sys2Proof.Machine
end

