-- ==== Sys2Proof/Machine/Pages.lean ====
section
/-! DEFINITION. Machine/Pages.lean: what a round mark decides about buckets and key–value pages (R236, R238, R250, R251, R254 to R259). -/

namespace Sys2Proof.Machine

/-! ### Items of a stream -/

/-- The item's compute rounds lie behind the mark of round r. -/
def Item.over (i : Item) (rounds r : Nat) : Bool := match i.run with
  | some q => decide (q + rounds ≤ r)
  | none => false

/-- A detection or a failure of the stream waits for its recovery: its pages stay as its checkpoints name them. -/
def Stream.troubled (s : Stream) : Bool := s.items.any (fun i => i.detected != 0 || i.failed != 0)

/-- START_FRAME of an item's segment record (R222). -/
def Item.start (i : Item) : Nat := leAt i.segRec 8 1

/-- Positions that an item adds to the current list: a chunk from its segment start on, a token step and its draft. -/
def Dev.itemAdds (d : Dev) (h : Nat) (i : Item) : Nat :=
  if i.kind = 0 then (if i.start = 0xFF then i.count else i.count - i.start)
  else 1 + (if bit (fld (d.clsOf h) 6 1) 1 && decide (d.levelAt (d.stream h).job d.tb.round < 2) then (d.stream h).dlen else 0)

/-! ### Page numbers -/

def pageOf (tier f : Nat) : Nat := tier * 2 ^ 30 + f
def pageTier (p : Nat) : Nat := p / 2 ^ 30
def kvRange (l : Rec) (i : Nat) : Nat := i / max 1 (kvRangePages l)

/-- Entries from the tail to the last that the round can reach (R251). -/
def reachEntries (l : Rec) (s : Seq) : List Nat :=
  ((List.range ((s.len + 16 * kvReach l - 1) / 16 + 1 - s.len / 16)).map (fun k => (s.len / 16 + k) % kvMax l)).eraseDups

def Dev.classHandles (d : Dev) (j c : Nat) : List Nat :=
  (d.streams.filter (fun p => p.2.state != .free && p.2.job == j && p.2.cls == c)).map Prod.fst

/-- Frames of a layer that are taken, with the entry that holds each: those of every list, and destinations of moves. -/
def Dev.layerPages (d : Dev) (h : Nat) (l : Rec) : List (Nat × Nat) :=
  let hs := d.classHandles (d.stream h).job (d.stream h).cls
  hs.flatMap (fun k => let s := d.seq k (kvLayer l); s.cur ++ s.twin ++ s.ret) ++
    (d.moves.filter (fun m => m.key % 256 == kvLayer l && hs.contains (m.key / 256))).map (fun m => (m.entry, m.dst))

/-- The lowest free frame of a tier for an entry: of its range's pool, of the layer's well or deep frames (R255 step 2). -/
def Dev.freeFrame (d : Dev) (h : Nat) (l : Rec) (tier i : Nat) : Option Nat :=
  let used := d.layerPages h l
  let n := if tier = 0 then kvPoolFrames l else if tier = 1 then kvWellFrames l else kvDeepFrames l
  ((List.range n).find? (fun f => !(used.any (fun p => p.2 == pageOf tier f && (tier != 0 || kvRange l p.1 == kvRange l i))))).map (pageOf tier)

def Dev.logPage (d : Dev) (action h : Nat) (l : Rec) (entry page : Nat) : Dev := d.logRec (d.pageRec action h l entry page)

/-! ### What COR_KVt_STAT shows of a mark (R263) -/

/-- Range cores of an entry's range: one for each quotient of R233. -/
def rangeCores (l : Rec) (i : Nat) : List Nat := (kvCores l).filter (fun c => (c - kvCore0 l) % max 1 (kvSplit l) == kvRange l i)

def kvStat (l : Rec) (c : Nat) : Nat := coreOff c + 0x608 + kvTask l * 0x10

/-- A count of COR_KVt_STAT on some cores of a layer: lo 16 SPILL_LR, 32 PRIME_LR, 48 DEFER_LR. -/
def Dev.notePool (d : Dev) (l : Rec) (cs : List Nat) (lo : Nat) : Dev := cs.foldl (fun d c => d.noteLr (kvStat l c) lo 1) d

/-- A deferred stream counts on every core of its layers. -/
def Dev.noteDefer (d : Dev) (h : Nat) : Dev := (d.layersOf h).foldl (fun d l => d.notePool l (kvCores l) 48) d

/-- Every task of the device. -/
def Dev.tasksHere (d : Dev) : List (Nat × Nat) := d.cores.flatMap (fun x => x.2.tasks.map (fun t => (x.1, t.1)))

/-- Frame groups of a task's pool that no list and no move holds. -/
def Dev.poolFree (d : Dev) (j cls c : Nat) (l : Rec) : Nat :=
  let hs := d.classHandles j cls
  let r := (c - kvCore0 l) % max 1 (kvSplit l)
  let here (e : Nat × Nat) : Bool := pageTier e.2 == 0 && kvRange l e.1 == r
  let held := hs.flatMap (fun k =>
      let s := d.seq k (kvLayer l)
      ((s.cur ++ s.twin ++ s.ret).filter here).map Prod.snd) ++
    ((d.moves.filter (fun m => m.key % 256 == kvLayer l && hs.contains (m.key / 256) && here (m.entry, m.dst))).map (fun m => m.dst))
  kvPoolFrames l - held.eraseDups.length

/-- The KV layer whose pool a task holds, with its class; of two layers that name the same task of a core the first (DESIGN CHOICE,
entry 117). -/
def Dev.poolLayer (d : Dev) (c t : Nat) : Option (Nat × Rec) :=
  let k := d.task c t
  if k.state == .none then none
  else (d.job k.job).img.bind (fun i => i.classes.findSome? (fun x =>
    (x.2.1.find? (fun l => kvTask l == t && (kvCores l).contains c)).map (fun l => (fld x.1 0 1, l))))

/-- FREE of every task that holds a range, after the decisions of the mark. -/
def Dev.notePools (d : Dev) : Dev := d.tasksHere.foldl (fun d p => match d.poolLayer p.1 p.2 with
  | some (cls, l) => d.onTask p.1 p.2 (fun k => { k with kvFree := d.poolFree k.job cls p.1 l })
  | none => d) d

/-! ### Frees (R255 step 1) -/

/-- A move whose copy is complete: its entry takes the new number. -/
def Dev.endMove (d : Dev) (m : Move) : Dev × List Bytes :=
  let h := m.key / 256
  match (d.layersOf h).find? (fun l => kvLayer l == m.key % 256) with
  | some l =>
    if (d.stream h).troubled ∨ entryOf (d.seq h (kvLayer l)).cur m.entry ≠ m.src then (d, [])
    else (((d.copyPages l m.entry m.src m.dst d.tb.round []).setSeq h (kvLayer l) (fun s => { s with cur := mset s.cur m.entry m.dst })),
          [d.pageRec 1 h l m.entry m.dst])
  | none => (d, [])

/-- An entry of a windowed list whose positions all lie before the window; one whose frame was assigned for positions to come is not. -/
def oldEntry (l : Rec) (s : Seq) (i : Nat) : Bool :=
  let t := (s.len - 1) / 16
  let back := (t + kvMax l - i % kvMax l) % kvMax l
  kvWindow l && decide (0 < s.len) && decide (mgetD s.born i 0 ≤ t) && decide (back ≤ t) && decide (16 * (t - back) + 15 + kvWindowTok l ≤ s.len)

/-- Retiring frames, twins and entries older than the window become free. -/
def Dev.freeSeq (d : Dev) (h : Nat) (l : Rec) : Dev × List Bytes :=
  let s := d.seq h (kvLayer l)
  let old := s.cur.filter (fun e => oldEntry l s e.1)
  let recs := old.map (fun e => d.pageRec 1 h l e.1 noPage) ++ s.twin.map (fun e => d.pageRec 1 h l (kvMax l + e.1) noPage) ++
    s.ret.map (fun e => d.pageRec 1 h l (2 * kvMax l + e.1) noPage)
  (d.setSeq h (kvLayer l) (fun s => { s with
    cur := s.cur.filter (fun e => !(oldEntry l s e.1))
    twin := []
    ret := []
    retLen := 0 }), recs)

/-- Frees of a mark, with the records that step 9 writes. -/
def Dev.settlePages (d : Dev) : Dev × List Bytes :=
  let r := d.moves.foldl (fun (a : Dev × List Bytes) m => let x := a.1.endMove m; (x.1, a.2 ++ x.2)) ({ d with moves := [] }, [])
  r.1.handles.foldl (fun (a : Dev × List Bytes) h =>
    if (a.1.stream h).state == .free || (a.1.stream h).troubled then a
    else (a.1.layersOf h).foldl (fun (a : Dev × List Bytes) l => let x := a.1.freeSeq h l; (x.1, a.2 ++ x.2)) a) r

/-! ### Segment starts (R250 step 1) -/

/-- The current list retires and a new segment begins, once for an item. -/
def Dev.startSegment (d : Dev) (h : Nat) (i : Item) : Dev :=
  if i.start = 0xFF then d
  else
    let new := leAt i.segRec 4 4
    (d.layersOf h).foldl (fun d l => d.setSeq h (kvLayer l) (fun s =>
      if s.seg = new then s
      else { s with full := false, born := [], ret := s.cur, retLen := s.len, retSeg := s.seg, cur := [], twin := [], len := 0, seg := new, specLen := 0, specOpen := false })) d

/-! ### Buckets (R254) -/

def bkBound (b : Rec) : Nat := fld b 0 4
def bkSlots (b : Rec) : Nat := fld b 4 2

/-- The first bucket that takes a length and has a free slot. -/
def pickBucket (bs : List Rec) (used : SMap Nat) (n : Nat) : Option Nat :=
  (bs.zipIdx.find? (fun b => decide (n ≤ bkBound b.1) && decide (mgetD used b.2 0 < bkSlots b.1))).map Prod.snd

def Dev.bucketsOf (d : Dev) (h : Nat) : List Rec := match (d.job (d.stream h).job).img.bind (fun i => i.cls (d.stream h).cls) with
  | some c => c.2.2
  | none => []

/-- L_after: LENGTH of the stream's layers plus the positions of its item. -/
def Dev.lAfter (d : Dev) (h : Nat) (i : Item) : Nat :=
  ((d.layersOf h).map (fun l => (d.seq h (kvLayer l)).len)).foldl max 0 + d.itemAdds h i

/-- Streams with work are placed per class by L_after, then handle; those that fit no bucket are deferred. -/
def Dev.placeBuckets (d : Dev) (work : List (Nat × Item)) : Dev × List Nat :=
  let keyed := (work.filter (fun x => !(d.bucketsOf x.1).isEmpty)).map (fun x => (d.lAfter x.1 x.2, x.1))
  let order := keyed.mergeSort (fun a b => decide (a.1 < b.1) || (a.1 == b.1 && decide (a.2 ≤ b.2)))
  let r := order.foldl (fun (a : Dev × List Nat × SMap (SMap Nat)) x =>
    let s := a.1.stream x.2
    let key := s.job * 256 + s.cls
    let used := mgetD a.2.2 key []
    let log (n : Nat) : Dev := a.1.logRec (govRec 0x13 n x.2 (s.slot.getD 0xFFFF) 0 a.1.tb.round x.1 0)
    match pickBucket (a.1.bucketsOf x.2) used x.1 with
    | some b => (log b, a.2.1, mset a.2.2 key (mset used b (mgetD used b 0 + 1)))
    | none => (log 0xFF, a.2.1 ++ [x.2], a.2.2)) (d, [], [])
  (r.1, r.2.1)

/-- A layer whose current list has failed an item, or would be passed by this one (R238). -/
def Dev.listFull (d : Dev) (h : Nat) (i : Item) (l : Rec) : Bool :=
  let s := d.seq h (kvLayer l)
  !kvWindow l && (s.full || decide (16 * kvMaxPages l < s.len + d.itemAdds h i))

/-- R238: an item that would pass the end of a list without WINDOW. -/
def Dev.kvFull (d : Dev) (h : Nat) (i : Item) : Bool := (d.layersOf h).any (fun l =>
  d.listFull h i l || (!kvWindow l && i.start != 0xFF && decide (16 * kvMaxPages l < (d.seq h (kvLayer l)).retLen + i.start)))

/-- A current entry in the deep well (R258). -/
def Dev.deepHeld (d : Dev) (h : Nat) : Bool := (d.layersOf h).any (fun l => (d.seq h (kvLayer l)).cur.any (fun e => pageTier e.2 == 2))

/-! ### Allocation (R255 step 2) -/

/-- Frames that could not be given: handle, layer, entry. -/
abbrev Missing := List (Nat × Rec × Nat)

def Dev.takeFrame (d : Dev) (h : Nat) (l : Rec) (e : Nat) (twin : Bool) : Option Dev := (d.freeFrame h l 0 e).map (fun p =>
  let s := d.seq h (kvLayer l)
  let ahead := (e + kvMax l - s.len / 16 % kvMax l) % kvMax l
  ((d.onPages l e p [(0, zeros (kvPage l))]).setSeq h (kvLayer l) (fun s =>
    if twin then { s with twin := mset s.twin e p } else { s with cur := mset s.cur e p, born := mset s.born e (s.len / 16 + ahead) })).logPage 2 h l (if twin then kvMax l + e else e) p)

def Dev.takeEntry (a : Dev × Missing) (h : Nat) (l : Rec) (e : Nat) (twin : Bool) : Dev × Missing :=
  let s := a.1.seq h (kvLayer l)
  if (mget (if twin then s.twin else s.cur) e).isSome then a
  else match a.1.takeFrame h l e twin with
    | some d => (d, a.2)
    | none => (a.1, a.2 ++ [(h, l, e)])

/-- Frames and twins of R251 for every layer of a stream. -/
def Dev.allocate (a : Dev × Missing) (h : Nat) : Dev × Missing :=
  (a.1.layersOf h).foldl (fun a l => (reachEntries l (a.1.seq h (kvLayer l))).foldl (fun a e =>
    Dev.takeEntry (Dev.takeEntry a h l e false) h l e true) a) a

/-! ### Spill and priming (R255 steps 3, 4, 6, 7, R256) -/

def Dev.startMove (d : Dev) (action h : Nat) (l : Rec) (e src dst : Nat) : Dev :=
  let d1 := ({ d with moves := d.moves ++ [(⟨seqKey h (kvLayer l), e, src, dst⟩ : Move)] }).logPage action h l e dst
  if action = 3 then d1.notePool l (rangeCores l e) 16 else if action = 6 then d1.notePool l (rangeCores l e) 32 else d1

def Dev.moving (d : Dev) (h : Nat) (l : Rec) (e : Nat) : Bool := d.moves.any (fun m => m.key == seqKey h (kvLayer l) && m.entry == e)

/-- Victims of a tier in victim order: sequences that do not run first, then the round of their last scheduling, handle, entry. -/
def Dev.victims (d : Dev) (h : Nat) (l : Rec) (runs : List Nat) (tier : Nat) (ok : Nat → Bool) : List (Nat × Nat × Nat) :=
  let hs := (d.classHandles (d.stream h).job (d.stream h).cls).filter (fun k => !(d.stream k).troubled)
  let all := hs.flatMap (fun k =>
    let s := d.seq k (kvLayer l)
    (s.cur.filter (fun e => pageTier e.2 == tier && ok e.1 && e.1 != s.len / 16 % kvMax l && !(d.moving k l e.1) &&
      !(runs.contains k && (reachEntries l s).contains e.1))).map (fun e => ((if runs.contains k then 1 else 0, s.lastRun), k, e.1, e.2)))
  (all.mergeSort (fun a b => decide (a.1.1 < b.1.1) || (a.1.1 == b.1.1 && (decide (a.1.2 < b.1.2) || (a.1.2 == b.1.2 &&
    (decide (a.2.1 < b.2.1) || (a.2.1 == b.2.1 && decide (a.2.2.1 ≤ b.2.2.1)))))))).map (fun x => x.2)

/-- Step 3 for a missing frame: the first victim goes to the well; true when the well pool is full. -/
def Dev.spillWell (d : Dev) (runs : List Nat) (m : Nat × Rec × Nat) : Dev × Bool :=
  match (d.victims m.1 m.2.1 runs 0 (fun e => kvRange m.2.1 e == kvRange m.2.1 m.2.2)).head? with
  | none => (d, false)
  | some v => match d.freeFrame m.1 m.2.1 1 v.2.1 with
    | some p => (d.startMove 3 v.1 m.2.1 v.2.1 v.2.2 p, false)
    | none => (d, true)

/-- Step 4 for a missing frame that met a full well pool: its first victim goes to the deep well. -/
def Dev.spillDeep (d : Dev) (runs : List Nat) (m : Nat × Rec × Nat) : Dev :=
  match (d.victims m.1 m.2.1 runs 1 (fun _ => true)).head?, d.freeFrame m.1 m.2.1 2 0 with
  | some u, some p => d.startMove 4 u.1 m.2.1 u.2.1 u.2.2 p
  | _, _ => d

/-- Steps 3 and 4 for the frames that step 2 could not give, each step for all of them. -/
def Dev.spill (d : Dev) (runs : List Nat) (ms : Missing) : Dev :=
  let a := ms.foldl (fun (a : Dev × Missing) m => let x := a.1.spillWell runs m; (x.1, if x.2 then a.2 ++ [m] else a.2)) (d, [])
  a.2.foldl (fun d m => d.spillDeep runs m) a.1

/-- Entries of a tier move up one tier while frames are free; what the round may write is no source (R256), which a deferred
sequence does not. -/
def Dev.prime (d : Dev) (h tier action : Nat) : Dev :=
  (d.layersOf h).foldl (fun d l =>
    let s := d.seq h (kvLayer l)
    (s.cur.filter (fun e => pageTier e.2 == tier && !(d.moving h l e.1) && (action == 7 || !((reachEntries l s).contains e.1)))).foldl (fun d e =>
      match d.freeFrame h l (tier - 1) e.1 with
      | some p => d.startMove action h l e.1 e.2 p
      | none => d) d) d

/-- Records and lists of a deferred stream as they stood before the mark gave it anything. -/
def Dev.revertSeqs (d : Dev) (saved : SMap Seq) (h : Nat) : Dev :=
  (d.layersOf h).foldl (fun d l => d.setSeq h (kvLayer l) (fun _ => mgetD saved (seqKey h (kvLayer l)) Seq.reset)) d

/-- A failed item's list (R238): nothing of the item stays but the segment that it started, and the list that is full stays so. -/
def Dev.failList (d : Dev) (saved : SMap Seq) (h : Nat) (i : Item) : Dev :=
  let past := (d.layersOf h).filter (d.listFull h i)
  past.foldl (fun d l => d.setSeq h (kvLayer l) (fun s => { s with full := true })) (if i.start = 0xFF then d.revertSeqs saved h else d)

/-- Step 5 for one sequence: what it misses is given if frames that others returned serve it, else it is deferred and returns its own.
R335 names no entry and no page for the record: one for each KV layer, with A and B 0 (DESIGN CHOICE, entry 117). -/
def Dev.deferSeq (saved : SMap Seq) (a : Dev × List Nat) (h : Nat) : Dev × List Nat :=
  let y := Dev.allocate (a.1, []) h
  if y.2.isEmpty then (y.1, a.2)
  else ((a.1.layersOf h).foldl (fun d l => d.logPage 5 h l 0 0) (a.1.revertSeqs saved h), a.2 ++ [h])

/-- Steps 2 to 5 for the sequences that run; `saved`: their lists before the mark. Answers those that step 5 defers. -/
def Dev.givePages (d0 : Dev) (runs : List Nat) (saved : SMap Seq) : Dev × List Nat :=
  let a := runs.foldl Dev.allocate (d0, [])
  ((a.2.map (fun m => m.1)).eraseDups).foldl (Dev.deferSeq saved) (a.1.spill runs a.2, [])

/-- Step 9 of R317 for streams that run; `held`: streams that R258 defers. Answers those that step 5 defers. -/
def Dev.pageStep (d0 : Dev) (recs : List Bytes) (runs held : List Nat) (saved : SMap Seq) : Dev × List Nat :=
  let d1 := recs.foldl (fun d r => d.logRec r) d0
  let g := d1.givePages runs saved
  let d3 := g.1
  let out := g.2
  let on := runs.filter (fun h => !(out.contains h))
  let d4 := on.foldl (fun d h => d.prime h 1 6) d3
  let d5 := ((out ++ held).mergeSort (fun x y => decide (x ≤ y))).foldl (fun d h => d.prime h 2 7) d4
  (on.foldl (fun d h => (d.layersOf h).foldl (fun d l => d.setSeq h (kvLayer l) (fun s => { s with lastRun := d.tb.round })) d) d5, out)

end Sys2Proof.Machine
end

