-- ==== Sys2Proof/Machine/Govern.lean ====
section
/-! DEFINITION. Machine/Govern.lean: the governor's decisions at a round mark (R297, R311 to R320, R331, R381, R555, R602 to R606). -/

namespace Sys2Proof.Machine

/-! ### Class entries (R307) -/

def clBacklog (c : Rec) : Nat := fld c 13 1
def clQuiet (c : Rec) : Nat := fld c 14 1
def clHold (c : Rec) : Nat := fld c 15 1
def clFirst (c : Rec) : Nat := fld c 16 1
def clLast (c : Rec) : Nat := fld c 17 1
def clLate (c : Rec) : Nat := fld c 18 1
def clIdle (c : Rec) : Nat := fld c 24 4
def clWake (c : Rec) : Nat := fld c 28 4
def clPrime (c : Rec) : Nat := fld c 32 4
def clDraft (c : Rec) : Bool := bit (fld c 6 1) 1
def clPriming (c : Rec) : Bool := bit (fld c 6 1) 2

/-! ### Step 1: FRAME, TOKEN and LENGTH (R297) -/

/-- A generation that is still open at a mark is aborted there (R251, R329). -/
def Dev.abortOpen (d : Dev) : Dev := d.handles.foldl (fun d h => (d.abortGen h (clDraft (d.clsOf h))).onStream h (fun s => { s with specLen := 0 })) d

/-- Items whose last compute round has just ended without a detection or a failure. -/
def Dev.endedItems (d : Dev) (h : Nat) : List Item :=
  (d.stream h).items.filter (fun i => i.run.isSome && i.run.getD 0 + d.rounds h == d.tb.round && i.detected == 0 && i.failed == 0)

/-- FRAME grows by the chunk of the round before, TOKEN by its confirmed tokens; sequences grow by the ended items' positions, unless
a draft of the item has set them at a commit (R253), in the round just ended or in an earlier one. -/
def Dev.advance (d : Dev) (h : Nat) : Dev :=
  let s := d.stream h
  let c := d.clsOf h
  let es := d.endedItems h
  let drafted := s.drafted || s.committed != 0 || s.proposed != 0
  let d1 := if drafted then d else es.foldl (fun d i => (d.layersOf h).foldl (fun d l => d.setSeq h (kvLayer l) (fun q =>
    { q with len := q.len + (if i.kind = 0 then (if i.start = 0xFF then i.count else i.count - i.start) else 1) })) d) d
  d1.onStream h (fun s =>
    { s with
      frame := if !clToken c && s.chunkAt == d.tb.round then (s.frame + clChunk c) % 2 ^ 48 else s.frame
      token := (s.token + s.committed + (if !drafted && clToken c then es.length else 0)) % 2 ^ 48
      committed := 0
      drafted := drafted && es.isEmpty })

/-! ### Step 2: registrations and deregistrations (R311) -/

def Dev.logStream (d : Dev) (action h a : Nat) : Dev := d.logRec (govRec 0x11 action h ((d.stream h).slot.getD 0xFFFF) 0 d.tb.round a 0)

/-- The initial ember of a class, at its object of WELL_MAP. -/
def Dev.initEmber (d : Dev) (h : Nat) : Bytes := match (d.job (d.stream h).job).img with
  | some i => match i.objects[fld (d.clsOf h) 52 4]? with
    | some o => sliceZ (d.object (d.job (d.stream h).job).deepObjs o) 0 (fld (d.clsOf h) 48 4)
    | none => []
  | none => []

/-- REGISTER takes effect; on a job that was killed meanwhile it ends CANCELLED. -/
def Dev.registerNow (d : Dev) (h : Nat) : Dev :=
  let s := d.stream h
  let j := s.job
  if (d.job j).img.isNone || (d.job j).state == .killed then
    let d1 := d.onStream h (fun _ => Stream.reset)
    match s.regCmd with
    | some c => d1.finishCmd j c stCancelled 0
    | none => d1
  else
    let d1 := (d.wellWrite (d.emberAddr h) (d.initEmber h)).sealEmber h 0 true
    let d2 := (d1.onStream h (fun x => { x with state := .parked, regAt := none, regCmd := none })).logStream 0 h 0
    match s.regCmd with
    | some c => d2.finishCmd j c stOk 0
    | none => d2

/-- DEREGISTER takes effect; the slot is free once no transfer names its state tensors (R412). -/
def Dev.deregisterNow (d : Dev) (h : Nat) : Dev × List Bytes :=
  let s := d.stream h
  let d1 := (d.logStream 1 h 0).cancelItems h
  let d2 := (d1.provs.filter (fun p => p.handle == h)).foldl (fun d p => d.supersede p 0) d1
  let recs := d2.heldRecs h
  let busy := s.slot.toList.filter (d2.slotBusy s.job)
  let d3 := ({ d2.freeStream h with streamCks := d2.streamCks.filter (fun c => c.handle != h) }).onJob s.job (fun x => { x with draining := x.draining ++ busy })
  (match s.deregCmd with
   | some c => d3.finishCmd s.job c stOk 0
   | none => d3, recs)

/-- The slots that no transfer names any more are free. -/
def Dev.drained (d : Dev) (j : Nat) : Dev :=
  if (d.job j).draining.isEmpty then d else d.onJob j (fun x => { x with draining := x.draining.filter (d.slotBusy j) })

/-- A log record of a round. -/
def stampRound (n : Nat) (b : Bytes) : Bytes := sliceZ b 0 8 ++ leBytes 8 n ++ sliceZ b 16 16

/-- Step 2, with the records of the pages of the streams that are gone, killed ones included. -/
def Dev.registerStep (d0 : Dev) : Dev × List Bytes :=
  let d := ({ d0 with freed := [] }).onJobs Dev.drained
  d.handles.foldl (fun (a : Dev × List Bytes) h =>
    let s := a.1.stream h
    if s.state == .free ∧ s.regAt.isSome ∧ s.regAt.getD 0 ≤ a.1.tb.round then (a.1.registerNow h, a.2)
    else if s.state != .free ∧ s.job = noJob then
      ({ a.1.freeStream h with streamCks := a.1.streamCks.filter (fun c => c.handle != h) }, a.2)
    else if s.state != .free ∧ s.deregAt.isSome ∧ s.deregAt.getD 0 ≤ a.1.tb.round then
      let x := a.1.deregisterNow h
      (x.1, a.2 ++ x.2)
    else a) (d, d0.freed.map (stampRound d.tb.round))

/-! ### Ember words of the round before (R310, R323) -/

/-- A task of the slot's cord that has not come past its EMBER_OUT or EMBER_IN for the class. -/
def Dev.emberPending (d : Dev) (h op : Nat) : Option (Nat × Nat) :=
  let s := d.stream h
  match s.slot with
  | none => none
  | some slot => (d.job s.job).tasks.find? (fun p =>
      let k := d.task p.1 p.2
      (k.state == .running || k.state == .overrun) && decide (k.progRound < d.tb.round) &&
        (List.range k.schedWords).any (fun i =>
          let w := d.wordAt p.1 p.2 i
          let r := k.desc (wDesc w)
          wOpcode w == op && fld r 12 1 == s.cls && emCord r == slot / 64 && (decide (k.pc ≤ i) || decide (k.progRound + 1 < d.tb.round))))

/-- LEAVING ends in PARKED with its slot free, ENTERING in ACTIVE; an ember word that has not completed is a slip of its stream, that of
a PRIMED slot too. -/
def Dev.emberStep (d : Dev) (h : Nat) : Dev :=
  let s := d.stream h
  let op := if s.state == .leaving then 0x14 else 0x15
  if s.state != .leaving && s.state != .entering && !(s.state == .primed && decide (s.primedAt < d.tb.round)) then d
  else match d.emberPending h op with
  | some p => d.detect { code := 0x0502, cls := clsStream, kind := 0, task := p.2, unit := p.1, a := 256 * (d.runningItems (d.tb.round - 1) [h]).length,
                         b := d.lowestSeq (d.tb.round - 1) [h] } [h] s.job p.1 p.2 (d.tb.round - 1)
  | none => d.onStream h (fun x => if x.state == .leaving then { x with state := .parked, slot := none } else if x.state == .entering then { x with state := .active } else x)

/-! ### Steps 3 and 4: samples, chunks and held items (R312 to R315, R219 to R222) -/

/-- A TDM stream takes a sample of each frame of the round, up to the route's CAP_FRAMES. -/
def Dev.gather (d : Dev) (h : Nat) : Dev :=
  let s := d.stream h
  if s.state == .free || s.source != 1 then d
  else match (d.port s.port).routes.find? (fun r => r.1 / 256 == s.job && prDir r.2 == 0 && decide (prFirst r.2 ≤ s.tdmSlot) &&
      decide (s.tdmSlot < prFirst r.2 + prChans r.2)) with
    | some r =>
      let vs := ((d.portFrames s.port d.tb.round).take (prCap r.2)).map (fun f => (frameOf f).1.getD s.tdmSlot 0)
      d.onStream h (fun x => { x with samples := x.samples ++ vs })
    | none => d

/-- A sample as a 16-bit value (R312). -/
def Dev.energySample (d : Dev) (h : Nat) (v : Int) : Int :=
  let s := d.stream h
  if s.source = 1 then
    (if d.pEnc s.port = 3 then v / 256 else if d.pEnc s.port = 4 then v / 65536 else v)
  else v

/-- Start frames of pending marks up to the end of a chunk of frames F to F + C − 1, and the marks that stay pending. -/
def splitMarks (H F C : Nat) (marks : List Nat) : List Nat × List Nat :=
  let f (s : Nat) : Nat := (s + H - 1) / H
  ((marks.filter (fun s => decide (f s < F + C))).map f, marks.filter (fun s => decide (F + C ≤ f s)))

/-- The segment record of a chunk (R220 to R222). -/
def segRecord (prev F : Nat) (fs : List Nat) : Bytes :=
  match fs with
  | [] => leBytes 4 prev ++ leBytes 4 prev ++ leBytes 1 0xFF ++ zeros 7
  | a :: r =>
    let lo := r.foldl (fun m f => min m (max f F)) (max a F)
    let hi := r.foldl (fun m f => max m (max f F)) (max a F)
    leBytes 4 prev ++ leBytes 4 ((prev + 1) % 65536) ++ leBytes 1 (lo - F) ++ leBytes 1 (min r.length 255) ++
      leBytes 1 (if fs.any (fun f => decide (f < F)) then 1 else 0) ++ leBytes 1 (hi - lo) ++ zeros 4

/-- Mean of the squares of a chunk, its void frames as zeros (R312). -/
def chunkEnergy (H : Nat) (seg : Bytes) (vs : List Int) : Nat :=
  let start := leAt seg 8 1
  let voids := leAt seg 11 1
  let sq := vs.zipIdx.map (fun p =>
    let f := p.2 / max 1 H
    if start ≤ f ∧ f < start + voids then 0 else (p.1 * p.1).toNat)
  sq.foldl (· + ·) 0 / max 1 vs.length

/-- A failed item with its record, its outcome and its completion. -/
def Dev.failNow (d : Dev) (h : Nat) (i : Item) (code ring : Nat) : Dev :=
  let a := if code = 0x0601 then ring + 256 else 1
  (d.raise { code := code, kind := 5, unit := (d.stream h).job, corr := false, handle := some h, a := a, b := i.seq }).endItem h i stFailed code

/-- The next chunk, or the next token step, once its samples are there: at most one in a round. -/
def Dev.formChunk (d : Dev) (h : Nat) : Dev :=
  let s := d.stream h
  let c := d.clsOf h
  let tok := clToken c
  let H := if tok then 1 else d.hopSamples h
  let C := clChunk c
  if s.state == .free || H == 0 || C == 0 || decide (s.samples.length < C * H) then d
  else
    let F := s.sampleBase / H
    let m := splitMarks H F C s.marks
    let seg := segRecord s.seg F m.1
    let vs := (s.samples.take (C * H)).map (d.energySample h)
    let e := if tok then 0 else chunkEnergy H seg vs
    let quiet := !tok && s.state == .parked && decide (e < clWake c)
    let item : Item := { seq := s.nextItem, kind := if tok then 1 else 0, formed := d.tb.round, first := F, count := C, energy := e, seg := s.seg,
                         segRec := seg, run := none, attempts := 0, replayed := d.replays s.job d.tb.round, withheld := false, timedOut := false, detected := 0, failed := 0, trapAt := none,
                         lost := false }
    let lo := (F + leAt seg 8 1) * H
    let d1 := d.onStream h (fun s =>
      { s with
        voids := if leAt seg 11 1 = 0 then s.voids else s.voids ++ [(d.tb.round, lo, lo + leAt seg 11 1 * H)]
        samples := s.samples.drop (C * H)
        sampleBase := s.sampleBase + C * H
        marks := m.2
        seg := leAt seg 4 4
        energy := e
        chunkAt := d.tb.round + 1
        nextItem := if quiet then s.nextItem else s.nextItem + 1
        items := if quiet then s.items else s.items ++ [item] })
    let held := (d1.stream h).items.filter (fun i => i.run.isNone && !i.timedOut)
    match held.head? with
    | some i => if clBacklog c < held.length then d1.failNow h i 0x0702 0 else d1
    | none => d1

/-- Rounds without a chunk of energy IDLE_TH or more (R318). -/
def Dev.countQuiet (d : Dev) (h : Nat) : Dev :=
  let c := d.clsOf h
  d.onStream h (fun s =>
    let loud := s.chunkAt == d.tb.round + 1 && (clToken c || decide (clIdle c ≤ s.energy))
    let pending := clToken c && s.items.any (fun i => i.run.isNone)
    { s with quiet := if loud || pending then 0 else s.quiet + 1 })

/-! ### Retries of timed-out items (R381) -/

/-- The stream whose timed-out item is retried next: the lowest handle, when none of the set is being retried. -/
def Dev.retryTurn (d : Dev) : Option Nat :=
  if d.streams.any (fun p => p.2.items.any (fun i => i.timedOut && i.run.isSome && !(i.over (d.rounds p.1) d.tb.round))) then none
  else (d.streams.find? (fun p => p.2.items.any (fun i => i.timedOut && i.run.isNone))).map Prod.fst

/-- A held item that LATE_FAIL ends at this mark or ended its chance at an earlier one (R316, R555). -/
def Dev.tooLate (d : Dev) (h : Nat) (i : Item) : Bool :=
  let s := d.stream h
  (d.job s.job).realtime && i.run.isNone && !i.withheld && !i.timedOut && decide (i.formed + clLate (d.clsOf h) + s.lag < d.tb.round)

/-- The item that a stream would run: its oldest held one, or its retry when that is due. -/
def Dev.candidate (d : Dev) (turn : Option Nat) (h : Nat) : Option Item :=
  let s := d.stream h
  match s.items.find? (fun i => i.timedOut && i.run.isNone) with
  | some i => if turn == some h then some i else none
  | none =>
    if s.items.any (fun i => i.timedOut) then none
    else s.items.find? (fun i => i.run.isNone && !i.withheld && !(d.lateFail h && d.tooLate h i))

/-! ### Steps 5 to 7: idling, admission, priming (R318 to R320, R338) -/

def Dev.idleStep (d : Dev) (h : Nat) : Dev :=
  let s := d.stream h
  let c := d.clsOf h
  let done (i : Item) : Bool := i.over (d.rounds h) d.tb.round && i.detected == 0 && i.failed == 0
  if s.state == .active && clQuiet c != 0 && decide (clQuiet c ≤ s.quiet) && s.items.all done && !s.specOpen then
    (d.onStream h (fun s => { s with state := .leaving })).logStream 5 h s.energy
  else d

/-- Less than one eighth of the log ring is free. -/
def Dev.logLow (d : Dev) : Bool := decide (8 * (d.logCap - (d.log.head - d.log.tail)) < d.logCap)

/-- Primed slots past PRIME_HOLD return to PARKED. -/
def Dev.unprimeStep (d : Dev) (h : Nat) : Dev :=
  let s := d.stream h
  if s.state == .primed && decide (s.primedAt + clHold (d.clsOf h) ≤ d.tb.round) then
    (d.logStream 4 h s.energy).onStream h (fun s => { s with state := .parked, slot := none })
  else d

/-- Slots of the class's cords in ascending order. -/
def clSlots (c : Rec) : List Nat := (List.range ((clLast c + 1 - clFirst c) * 64)).map (fun k => clFirst c * 64 + k)

def Dev.slotFree (d : Dev) (j slot : Nat) : Bool := !((d.job j).draining.contains slot) &&
  !(d.streams.any (fun p => p.2.state != .free && p.2.job == j && p.2.slot == some slot))

def Dev.oldestHeld (d : Dev) (h : Nat) : Option Item := (d.stream h).items.find? (fun i => i.run.isNone)

/-- Streams that ask for a slot, oldest item first. -/
def Dev.candidates (d : Dev) : List Nat :=
  ((d.handles.filterMap (fun h =>
    let s := d.stream h
    if (s.state == .parked || s.state == .primed) && (d.job s.job).live then (d.oldestHeld h).map (fun i => (i.formed, h)) else none)).mergeSort
      (fun a b => decide (a.1 < b.1) || (a.1 == b.1 && decide (a.2 ≤ b.2)))).map Prod.snd

/-- One candidate: its primed slot, the lowest free slot, or the lowest primed one. -/
def Dev.letIn (d : Dev) (h : Nat) : Dev :=
  let s := d.stream h
  let e := ((d.oldestHeld h).map (fun i => i.energy)).getD 0
  if s.state == .primed then (d.onStream h (fun s => { s with state := .active })).logStream 2 h e
  else
    let slots := clSlots (d.clsOf h)
    match slots.find? (d.slotFree s.job) with
    | some n => (d.onStream h (fun s => { s with state := .entering, slot := some n })).logStream 2 h e
    | none => match slots.findSome? (fun n => (d.streams.find? (fun p => p.2.job == s.job && p.2.state == .primed && p.2.slot == some n)).map (fun p => (n, p.1))) with
      | some (n, k) =>
        let d1 := (d.logStream 4 k (d.stream k).energy).onStream k (fun s => { s with state := .parked, slot := none })
        (d1.onStream h (fun s => { s with state := .entering, slot := some n })).logStream 2 h e
      | none => d

/-- Step 6. Under level 4 nobody is admitted; with a low log each refusal is logged (R338); a replay takes both from the log (R337). -/
def Dev.admitStep (d : Dev) : Dev :=
  let d1 := d.handles.foldl Dev.unprimeStep d
  let cs := d1.candidates
  let low := d1.logLow
  let d2 := cs.foldl (fun d h =>
    let j := (d.stream h).job
    if d.levelAt j d.tb.round = 4 then d
    else if d.refuses j d.tb.round h low then d.logStream 6 h (((d.oldestHeld h).map (fun i => i.energy)).getD 0)
    else d.letIn h) d1
  let waiting := (cs.filter (fun h => (d2.stream h).state == .parked || (d2.stream h).state == .primed)).length
  { d2 with gov := { d2.gov with waiting := min waiting 65535 } }

/-- Step 7: parked streams whose chunk is loud enough, by energy, into the slots that are left; with a low log each is refused (R338). -/
def Dev.primeStep (d : Dev) : Dev :=
    let cs := (d.handles.filter (fun h =>
      let s := d.stream h
      let c := d.clsOf h
      s.state == .parked && clPriming c && s.chunkAt != 0 && decide (clPrime c ≤ s.energy) && decide (s.energy < clWake c) && (d.job s.job).live)).mergeSort
        (fun a b => decide ((d.stream b).energy < (d.stream a).energy) || ((d.stream a).energy == (d.stream b).energy && decide (a ≤ b)))
    let low := d.logLow
    cs.foldl (fun d h =>
      if d.refuses (d.stream h).job d.tb.round h low then d.logStream 6 h (d.stream h).energy
      else match (clSlots (d.clsOf h)).find? (d.slotFree (d.stream h).job) with
        | some n => (d.onStream h (fun s => { s with state := .primed, slot := some n, primedAt := d.tb.round })).logStream 3 h (d.stream h).energy
        | none => d) d

/-! ### Step 10: lateness (R316, R555) -/

/-- Late items: under LATE_FAIL they end FAILED, else one record says so at the first mark at which they are late. -/
def Dev.lateStep (d : Dev) (h : Nat) : Dev :=
  let s := d.stream h
  (s.items.filter (d.tooLate h)).foldl (fun d i =>
    if d.lateFail h then d.failNow h i 0x0601 0
    else if i.formed + clLate (d.clsOf h) + s.lag + 1 = d.tb.round then
      d.raise { code := 0x0601, kind := 5, unit := s.job, corr := true, handle := some h, a := 256, b := i.seq }
    else d) d

/-! ### Step 11: draft lengths (R331) -/

def sumPairs (l : List (Nat × Nat)) : Nat × Nat := l.foldl (fun a p => (a.1 + p.1, a.2 + p.2)) (0, 0)

def newDlen (c : Rec) (dlen P A : Nat) : Nat :=
  if P < 16 then dlen
  else if 224 * P ≤ 256 * A then min (dlen + 1) (fld c 9 1)
  else if 256 * A < 128 * P then max (dlen - 1) (fld c 8 1)
  else dlen

/-- The stream's step 11; one that turned LEAVING at step 5 of the same mark has it too (DEDUCED: R331 excepts nobody; entry 54). -/
def Dev.draftStep (d : Dev) (h : Nat) : Dev :=
  let s := d.stream h
  let c := d.clsOf h
  if (s.state != .active && s.state != .leaving) || !clDraft c then d.onStream h (fun s => { s with proposed := 0, accepted := 0 })
  else
    let t := sumPairs s.accept
    let n := newDlen c s.dlen t.1 t.2
    let d1 := d.onStream h (fun s =>
      { s with
        dlen := n
        accept := lset s.accept ((d.tb.round - 1) % 8) (fun _ => (min 255 s.proposed, min 255 s.accepted))
        proposed := 0
        accepted := 0 })
    if n = s.dlen then d1 else d1.logRec (govRec 0x15 0 h (s.slot.getD 0xFFFF) n d.tb.round 0 0)

/-! ### Step 12: power (R602 to R606, R347) -/

def Dev.limitW (d : Dev) : Nat := d.regF 0x7000 0 10
def Dev.hotAt (d : Dev) : Nat := d.regF 0x7000 10 7

def pPeak (m : Measure) : Bool := decide (5600 < m.pPeak)
def pLong (m : Measure) : Bool := decide (100 < m.high)

def Dev.isHot (d : Dev) (m : Measure) : Bool :=
  decide (10 * d.limitW < m.pAvg) || pPeak m || pLong m || decide ((16 * d.hotAt : Int) ≤ m.tMax)

def Dev.isCool (d : Dev) (m : Measure) : Bool :=
  decide (m.pAvg + 400 ≤ 10 * d.limitW) && decide (m.tMax < (16 * d.hotAt : Int) - 80) && !pPeak m && !pLong m

/-- The physical measurement record (R603). -/
def Dev.measureRec (d : Dev) (m : Measure) : Bytes :=
  leBytes 1 2 ++ leBytes 1 ((pPeak m).toNat + 2 * (pLong m).toNat + 4 * (d.isHot m).toNat + 8 * (d.isCool m).toNat) ++ leBytes 2 (unsext 16 m.tMax) ++
    leBytes 2 m.pAvg ++ leBytes 2 m.pFix ++ leBytes 8 d.tb.round ++ leBytes 2 m.pPeak ++ leBytes 2 (min m.high 65535) ++ leBytes 4 m.linkMib ++
    (List.range 4).flatMap (fun s => leBytes 2 (m.sliceI.getD s 0))

/-- F_FLOOR of the loaded jobs in MHz (R604). -/
def Dev.floorMhz (d : Dev) : Nat :=
  d.jobs.foldl (fun m p => match p.2.img with
    | some i => if p.2.loaded then max m ((i.endCycle + (500 * d.tb.lenHalf - 100) * 25 - 1) / ((500 * d.tb.lenHalf - 100) * 25) * 25) else m
    | none => m) 1000

/-- lower of R605, in exact rationals; a negative quotient lies below every floor. The quotient by P_AVG − P_FIX = 0 is not stated:
`open_` stands for it (entry 4). -/
def lowerF (limit floor pAvg pFix open_ f : Nat) : Nat :=
  let g : Nat := if 10 * limit < pAvg then
      (if pAvg = pFix then open_ / 25 * 25
       else if pAvg < pFix then f * (pFix - 10 * limit) / (pFix - pAvg) / 25 * 25
       else f * (10 * limit - pFix) / (pAvg - pFix) / 25 * 25)
    else f - 100
  max floor (min g (f - 25))

/-- govern of R605: level, F, COOLRUN. -/
def Dev.govern (d : Dev) (m : Measure) : Nat × Nat × Nat :=
  let g := d.gov
  let low (f : Nat) : Nat := lowerF d.limitW d.floorMhz m.pAvg m.pFix (Config.freeValue 11 d.free) f
  if d.isHot m then
    if g.level < 2 then (g.level + 1, g.fMhz, 0)
    else if g.level = 2 then (3, low fMax, 0)
    else if g.level = 3 ∧ d.floorMhz < g.fMhz then (3, low g.fMhz, 0)
    else (4, g.fMhz, 0)
  else if d.isCool m then
    if g.coolRun + 1 = 4 then
      if g.level = 4 then (3, g.fMhz, 0)
      else if g.level = 3 ∧ g.fMhz + 100 < fMax then (3, g.fMhz + 100, 0)
      else if g.level = 3 then (2, fMax, 0)
      else (g.level - 1, g.fMhz, 0)
    else (g.level, g.fMhz, g.coolRun + 1)
  else (g.level, g.fMhz, 0)

/-- The shedding record (R606). -/
def shedRec (level coolRun f floor round : Nat) : Bytes :=
  leBytes 1 0x16 ++ leBytes 1 level ++ leBytes 1 ((decide (1 ≤ level)).toNat + 2 * (decide (2 ≤ level)).toNat + 4 * (decide (3 ≤ level)).toNat +
    8 * (decide (4 ≤ level)).toNat) ++ leBytes 1 coolRun ++ leBytes 4 f ++ leBytes 8 round ++ leBytes 2 floor ++ zeros 14

/-- Step 12; a replay takes the clock from the log (R337). -/
def Dev.powerStep (d : Dev) (m : Measure) : Dev :=
  let d0 := d.logRec (d.measureRec m)
  let g := d0.govern m
  let x := (g.1, d0.loggedF.getD g.2.1, g.2.2)
  let old := d0.gov.level
  let fl := d0.floorMhz
  let d1 := { d0 with
    free := d0.free + 1
    gov := { d0.gov with
      level := x.1
      fMhz := x.2.1
      coolRun := x.2.2
      floorMhz := if d0.anyLoaded then fl else 0
      shedSpec := decide (2 ≤ x.1)
      shedRounds := d0.gov.shedRounds ++ (if 2 ≤ x.1 then [d0.tb.round] else [])
      last := m
      tNow := m.sliceT
      lvlEv := d0.gov.lvlEv || x.1 != old }
    jobs := mmap (fun _ j => { j with yielded := decide (1 ≤ x.1), yieldRounds := j.yieldRounds ++ (if 1 ≤ x.1 then [d0.tb.round] else []) }) d0.jobs }
  let d2 := if x.1 ≠ old ∧ d1.regF 0x7000 17 1 = 1 then d1.vector (d1.regF 0x7000 18 6) else d1
  if x.1 ≠ 0 ∨ x.1 ≠ old then d2.logRec (shedRec x.1 x.2.2 x.2.1 fl d2.tb.round) else d2

/-! ### The steps in order (R317) -/

/-- The item of a stream that the buckets and pages must serve: the one that may start, else one that still runs. -/
def Dev.workItem (d : Dev) (turn : Option Nat) (h : Nat) : Option Item :=
  let s := d.stream h
  if s.state != .active || !((d.job s.job).live) || s.troubled then none
  else match (if (d.job s.job).mayRun d.tb.round then d.candidate turn h else none) with
    | some i => some i
    | none => s.items.find? (fun i => i.run.isSome && !(i.over (d.rounds h) d.tb.round))

/-- A held item runs in the round that begins. -/
def Dev.runItem (d : Dev) (h : Nat) (i : Item) : Dev := d.onStream h (fun s =>
  { s with items := s.items.map (fun x => if x.seq = i.seq ∧ x.run.isNone then { x with run := some d.tb.round, attempts := x.attempts + 1, withheld := false } else x) })

/-- LAG returns to 0 once no item is held; FRAME then is that of the chunk that the round takes (R555). -/
def Dev.endLag (d : Dev) (h : Nat) : Dev :=
  let c := d.clsOf h
  let H := max 1 (d.hopSamples h)
  d.onStream h (fun s =>
    if s.lag = 0 ∨ s.items.any (fun i => i.run.isNone) then s
    else { s with lag := 0, frame := if clToken c then s.frame else
      (s.sampleBase / H - (if s.chunkAt = d.tb.round + 1 then clChunk c else 0)) % 2 ^ 48 })

/-- Handles that are not FREE. -/
def Dev.liveHandles (d : Dev) : List Nat := d.handles.filter (fun h => (d.stream h).state != .free)

/-- Step 1: FRAME and TOKEN. -/
def Dev.governFirst (d : Dev) : Dev := d.liveHandles.foldl Dev.advance d.abortOpen

/-- Decisions of steps 2 to 12 and the scheduling that follows from them. `restore`: the recoveries of the mark, whose items are held
again before steps 8 and 9 place them. A stream without an item in the round is not scheduled, so that its deep-well entries ask for no
priming (DESIGN CHOICE on R258, entry 117). -/
def Dev.governStep (d1 : Dev) (m : Measure) (restore : Dev → Dev) : Dev :=
  let live (d : Dev) : List Nat := d.liveHandles
  let r2 := d1.registerStep
  let d2 := r2.1
  let r3 := d2.settlePages
  let d4 := (live r3.1).foldl (fun d h => (d.gather h).formChunk h |>.countQuiet h) r3.1
  let d5 := (live d4).foldl Dev.idleStep d4
  let p6 := d5.admitStep.primeStep
  let d6 := restore p6
  let saved := d6.seqs
  let turn := d6.retryTurn
  let ready (d : Dev) (h : Nat) : Option (Nat × Item) := (d.workItem turn h).map (fun i => (h, i))
  -- step 3 for the items that may start
  let d7 := ((live d6).filterMap (ready d6)).foldl (fun d x => if x.2.run.isNone then d.startSegment x.1 x.2 else d) d6
  let full := ((live d7).filterMap (ready d7)).filter (fun x => x.2.run.isNone && d7.kvFull x.1 x.2)
  let r8 := d7.placeBuckets (((live d7).filterMap (ready d7)).filter (fun x => !(full.any (fun y => y.1 == x.1))))
  let d8 := full.foldl (fun d x => (d.failList saved x.1 x.2).failNow x.1 x.2 0x0701 0) r8.1
  let starting (d : Dev) (h : Nat) : Bool := match ready d h with
    | some x => x.2.run.isNone
    | none => false
  let out := r8.2 ++ full.map (fun x => x.1)
  let deep := ((live d8).filter (fun h => (ready d8 h).isSome && d8.deepHeld h)).filter (fun h => !(out.contains h))
  let d8a := (r8.2 ++ deep).foldl (fun d h => if starting d h then d.revertSeqs saved h else d) d8
  let runs := (live d8a).filter (fun h => (ready d8a h).isSome && !(out.contains h) && !(deep.contains h))
  let p9 := d8a.pageStep (r2.2 ++ r3.2) runs (deep ++ r8.2.filter d8.deepHeld) saved
  let r9 := (((r8.2 ++ deep ++ p9.2).foldl Dev.noteDefer p9.1).notePools, p9.2)
  let go := runs.filter (fun h => !(r9.2.contains h))
  let d9 := (live r9.1).foldl Dev.lateStep r9.1
  let d10 := go.foldl (fun d h => match ready d h with
    | some x => if x.2.run.isNone then d.runItem h x.2 else d
    | none => d) d9
  let d11 := (live d10).foldl Dev.draftStep d10
  let d12 := (d11.powerStep m)
  let d13 := ((live d12).filter (fun h => (d6.stream h).lag == (p6.stream h).lag)).foldl Dev.endLag d12
  let n (st : HandleState → Bool) : Nat := (d13.streams.filter (fun p => st p.2.state)).length
  { d13 with gov := { d13.gov with
    active := n (fun s => s == .active || s == .entering)
    primed := n (· == .primed)
    registered := n (· != .free) } }

end Sys2Proof.Machine
end

