-- ==== Sys2Proof/Machine/Faults.lean ====
section
/-! DEFINITION. Machine/Faults.lean: watchdogs and trips (R538, R608), timeouts (R75, R379 to R381), the NaN trap (R129 to R133), record
handling (R549), the patrol (R366), remote writes (R383, R384), scrubs (R387 to R390), value-table slots (R433), refetch (R546). -/

namespace Sys2Proof.Machine

/-! ### Watchdogs and trips -/

/-- TASK_WATCHDOG (R538): a task that has passed four counted marks within one program halts; its items are recovered. -/
def taskWatchdogD (c t : Nat) (d : Dev) : Dev :=
  let k := d.task c t
  if (k.state == .running || k.state == .overrun) && decide (4 ≤ k.passed) then
    let d1 := d.detect { code := 0x0405, cls := clsTask, kind := 0, task := t, unit := c, a := (d.runningItems k.progRound (d.taskHandles c t)).length,
                         b := d.lowestSeq k.progRound (d.taskHandles c t) } (d.taskHandles c t) k.job c t k.progRound
    (d1.endRingWait c t).onTask c t (fun k => { k with state := .stopped, wait := none })
  else d

def execTaskWatchdog (core : Fin 256) (task : Fin 8) (s : State) : Host.Outcome State Fault Refusal := onUp s (taskWatchdogD core.val task.val)

/-- VMC_WATCHDOG (R538): class DEVICE. -/
def execVmcWatchdog (s : State) : Host.Outcome State Fault Refusal := onUp s (fun d => d.raise { code := 0x0405, cls := clsDevice, corr := false })

/-- A trip halts the device and drives FAULT_N low at once (R608). -/
def Dev.trip (d : Dev) (code : Nat) : Dev :=
  let d1 := d.raise { code := code, cls := clsDevice, corr := false }
  { d1 with kindle := { d1.kindle with faultN := false } }

def execThermalTrip (s : State) : Host.Outcome State Fault Refusal := onUp s (fun d => d.trip 0x0B04)
def execPowerTrip (s : State) : Host.Outcome State Fault Refusal := onUp s (fun d => d.trip 0x0B05)

/-! ### Timeouts (R75, R379 to R381) -/

/-- One running item of a wait that timed out: its first attempt is logged and it waits for its retry; a second one fails. -/
def Dev.timeOutItem (d : Dev) (h : Nat) (i : Item) : Dev :=
  let put (f : Item → Item) (d : Dev) : Dev := d.onStream h (fun s => { s with items := s.items.map (fun x => if x.seq = i.seq then f x else x) })
  if i.timedOut then put (fun x => { x with failed := if x.failed = 0 then 0x0503 else x.failed, timedOut := false }) d
  else put (fun x => { x with timedOut := true }) (d.logRec (outcomeRec 0x30 stFailed h (i.kind % 8) d.tb.round i.seq 0x0503))

/-- The streams of timed-out items are restored, and those items wait for a retry (R380, R381). -/
def Dev.restoreAllTimed (d : Dev) (hs : List Nat) : Dev :=
  hs.foldl (fun d h => (d.restoreTimed h).onStream h (fun s =>
    { s with items := s.items.map (fun i => if i.timedOut && i.run.isNone then { i with withheld := true } else i) })) d

/-- E_TAG_TIMEOUT for the running items of some streams; the streams are restored and their items wait for a retry. -/
def Dev.timeOut (d : Dev) (c t ring progRound : Nat) (hs : List Nat) : Dev :=
  let items := d.runningItems progRound hs
  let d1 := d.raise { code := 0x0503, kind := 0, task := t, unit := c, corr := items.isEmpty, handle := hs.head?, a := ring % 256 + 256 * items.length,
                      b := d.lowestSeq progRound hs, round := some progRound }
  (items.foldl (fun d p => d.timeOutItem p.1 p.2) d1).restoreAllTimed hs

/-- The late transfers that a word waits for are abandoned with it: those that a RELEASE takes, or that write what the word reads; their remaining
writes are dropped (R414, R418; entry 116). -/
def Dev.dropAwaited (d : Dev) (w : Who) (word : Nat) : Dev :=
  if wOpcode word = 0x0A then
    let ring := bits (wArgs word) 0 8
    match ((d.tk w).ring? ring).filter (fun r => srSource r.decl == 5), oldest ((d.wellLanded w ring) ++ (d.wellQueued w ring).map Prod.snd) with
    | some _, some x => match (d.wellQueued w ring).find? (fun y => y.2 == x) with
      | some (p, _) => (d.onXfer p x (fun x => { x with dropped := true })).count (pumpReg p + 8) 32 1
      | none => d.onCore w.core (fun c => { c with landed := c.landed.erase x })
    | _, _ => d
  else (d.lateXfers w word).foldl (fun d y => (d.onXfer y.1 y.2 (fun x => { x with dropped := true })).count (pumpReg y.1 + 8) 32 1) d

/-- The word that waits is abandoned and the task goes on. -/
def Dev.abandonWord (d : Dev) (c t ring : Nat) : Dev :=
  let k := d.task c t
  let hs := d.opHandles c t k.pc
  match d.curWordOf c t with
  | none => d
  | some word =>
    let d1 := (d.endRingWait c t).dropAwaited ⟨c, t, k.pc⟩ word
    (d1.timeOut c t ring k.progRound hs).onTask c t (fun _ => { d1.nextTask ⟨c, t, k.pc⟩ word with wait := none })

/-- A transfer of the task that its pump would complete next and whose wait on an elastic slot has outlasted its budget. -/
def Dev.dueXfer (d : Dev) (c t : Nat) : Option (PumpId × Xfer × Nat) :=
  let s : Fin 4 := Fin.ofNat 4 (c / 64)
  let pumps : List PumpId := .core (Fin.ofNat 256 c) :: (List.range 4).map (fun p => .well s (Fin.ofNat 4 p)) ++ (List.range 36).map (fun l => .link (Fin.ofNat 36 l))
  pumps.findSome? (fun p => match d.nextXfer p with
    | some x => match x.wait, (d.xferRings x).find? (fun u => d.ringFails c t u) with
      | some b, some u => if x.core = c ∧ x.task = t ∧ b + (d.task c t).budget u.1 ≤ d.tb.round then some (p, x, u.1) else none
      | _, _ => none
    | none => none)

/-- A task's write that waits at another core's slot has outlasted the ring's budget: the ring. -/
def Dev.dueFar (d : Dev) (c t : Nat) : Option (FarWrite × Nat × Nat) := (d.farHeld c).filter (fun h =>
  d.farTask c == t && decide (h.1.began + (d.task h.1.target h.2.1).budget h.2.2 ≤ d.tb.round))

/-- The ring of a task's word, else of its waiting transfer or of its write at another core, whose wait has outlasted its budget. -/
def Dev.dueRing (d : Dev) (c t : Nat) : Option Nat :=
  let rest := ((d.dueXfer c t).map (fun x => x.2.2)) <|> ((d.dueFar c t).map (fun h => h.2.2))
  if d.replays (d.task c t).job (d.task c t).progRound then none
  else match (d.task c t).wait with
  | some ⟨.ring r _, b, _, n, _⟩ => if b + n ≤ d.tb.round then some r else none
  -- a wait for late well data beside rings has a budget of one round (R414)
  | some ⟨kind, b, _, n, _⟩ => if isDataWait kind && decide (b + n ≤ d.tb.round) && ((d.curWordOf c t).map (fun w => !(d.lateXfers ⟨c, t, (d.task c t).pc⟩ w).isEmpty)).getD false
      then some 255 else rest
  | _ => rest

/-- No wait of a lower core, or of a lower ring of the core, has outlasted its budget: timeouts of one mark come in that order (R379). -/
def Dev.firstDue (d : Dev) (c ring : Nat) : Bool := d.cores.all (fun x => x.2.tasks.all (fun t => match d.dueRing x.1 t.1 with
  | some r => decide (c < x.1) || (x.1 == c && decide (ring ≤ r))
  | none => true))

/-- A waiting transfer is abandoned: it leaves its pump, and its remaining writes are dropped (R418). -/
def Dev.abandonXfer (d : Dev) (p : PumpId) (x : Xfer) (ring : Nat) : Dev :=
  let d1 := ((d.xferRings x).foldl (fun d u => match (d.task x.core x.task).ring? u.1 with
    | some r => d.onCore x.core (fun c => c.onTag (ringTag r u.2) (fun g => { g with wait := false }))
    | none => d) d).dropXfer p x
  (d1.count (pumpReg p + 8) 32 1).timeOut x.core x.task ring x.round (d.opHandlesAt x.core x.task x.word x.round)

/-- A write that waits at another core is abandoned with its transfer. -/
def Dev.abandonFar (d : Dev) (c : Nat) (h : FarWrite) (t ring : Nat) : Dev :=
  let d1 := (d.farWait h.target t ring false).farFree c
  match d.farXfer c with
  | some x => d1.abandonXfer (.core (Fin.ofNat 256 c)) x ring
  | none => d1.timeOut c (d.farTask c) ring d.tb.round []

/-- TAG_TIMEOUT: of a task's word, else of its waiting transfer or write. A replay takes every timeout from its log (R382). -/
def tagTimeoutD (c t : Nat) (d : Dev) : Dev :=
  match d.dueRing c t with
  | none => d
  | some r =>
    if !d.firstDue c r then d
    else
      let word := match (d.task c t).wait with
        | some ⟨.ring _ _, _, _, _, _⟩ => true
        | _ => r == 255
      if word then d.abandonWord c t r
      else match d.dueXfer c t, d.dueFar c t with
      | some (p, x, _), _ => d.abandonXfer p x r
      | none, some (h, u, ring) => d.abandonFar c h u ring
      | none, none => d

def execTagTimeout (core : Fin 256) (task : Fin 8) (s : State) : Host.Outcome State Fault Refusal := onUp s (tagTimeoutD core.val task.val)

/-- TLY_WAIT_TIMEOUT (R75): its limit is one round from its issue, which the mark after the next one finds to have passed (entry 40); the record
names ring 255 (DESIGN CHOICE, entry 99). -/
def tlyTimeoutD (c t : Nat) (d : Dev) : Dev :=
  if d.replays (d.task c t).job (d.task c t).progRound then d
  else match (d.task c t).wait with
  | some ⟨.tally _, b, _, n, _⟩ => if b + n < d.tb.round then d.abandonWord c t 255 else d
  | _ => d

def execTlyWaitTimeout (core : Fin 256) (task : Fin 8) (s : State) : Host.Outcome State Fault Refusal := onUp s (tlyTimeoutD core.val task.val)

/-! ### NAN_TRAP (R129 to R133) -/

/-- COR_NANTRAPt_A (R132). -/
def trapWord (n : NanCand) (handle : Option Nat) : Nat :=
  n.word % 32768 + (handle.getD 0) % 32768 * 2 ^ 16 + handle.isNone.toNat * 2 ^ 31 + n.engine % 8 * 2 ^ 32 + n.operand % 16 * 2 ^ 35 + 2 ^ 63

/-- The item runs in the NaN's round, with neither an earlier trap nor a detection (R129, R131). -/
def Dev.trapsItem (d : Dev) (h n : Nat) (i : Item) : Bool := i.runs (d.rounds h) n && i.trapAt.isNone && i.detected == 0

/-- The NaN that the program noted at a word and element, when it may be some item's first (R129): the first of all, or, once one
has trapped, a later one. -/
def Task.nanAt (k : Task) (word elem : Nat) : Option NanCand :=
  let here (n : NanCand) : Bool := n.word == word && n.elem == elem
  if k.trapped then k.cands.find? here else k.cands.head?.filter here

/-- The candidates that a trap leaves: those after it. -/
def Task.nansAfter (k : Task) (word elem : Nat) : List NanCand :=
  (k.cands.dropWhile (fun n => !(n.word == word && n.elem == elem))).drop 1

/-- Whether the item may still trap: that of a stream that the word serves, or the command item of the task's round, each once (R129).
In an adaptation span no stream's item does (R353). -/
def Dev.mayTrap (d : Dev) (c t : Nat) (k : Task) (n : NanCand) (handle : Option Nat) : Bool :=
  match handle with
  | some h => !d.spanWord c t n.word && (d.opHandlesAt c t n.word n.round).contains h && (d.stream h).items.any (d.trapsItem h n.round)
  | none => k.cmdTrap != some n.round

/-- The NaN that the task noted at a word and element traps, for an item of the stream, or for the command item of its round. -/
def nanTrapD (c t word elem : Nat) (handle : Option Nat) (d : Dev) : Dev :=
  let k := d.task c t
  match k.nanAt word elem with
  | none => d
  | some n =>
    if !k.nanTrap || !d.mayTrap c t k n handle then d
    else
      let d0 := d.onTask c t (fun k => { k with
        cands := k.nansAfter word elem
        trapped := true
        spanNan := k.spanNan || (k.cands.take (k.cands.length - (k.nansAfter word elem).length)).any (fun x => x.round == k.progRound && d.spanWord c t x.word) })
      let d1 := if 2 ^ 63 ≤ k.trapA then d0
        else d0.onTask c t (fun k => { k with trapA := trapWord n handle, trapElem := elem, trapRound := n.round })
      let d3 := match handle with
        | some h => d1.onStream h (fun s => { s with items := s.items.map (fun i => if d.trapsItem h n.round i then
            { i with trapAt := some n.round, failed := if i.failed = 0 then 0x0302 else i.failed } else i) })
        | none => d1.onTask c t (fun k => { k with cmdTrap := some n.round })
      d3.raise { code := 0x0302, kind := 0, task := t, unit := c, corr := false, handle := handle,
                 a := n.word % 32768 + n.engine % 8 * 2 ^ 15 + n.operand % 16 * 2 ^ 18, b := elem, round := some n.round }

def execNanTrap (core : Fin 256) (task : Fin 8) (word elem : Nat) (handle : Option (Fin 32768)) (s : State) : Host.Outcome State Fault Refusal :=
  onUp s (nanTrapD core.val task.val word elem (handle.map (fun h => h.val)))

/-! ### ERROR_RECORD_HANDLE (R549) -/

def recordHandleD (d : Dev) : Dev :=
  match d.err.handling, d.err.queue with
  | none, a :: r => { d with err := { d.err with handling := some a, queue := r } }
  | _, _ => d

def execErrorRecordHandle (s : State) : Host.Outcome State Fault Refusal := onUp s recordHandleD

/-! ### SCRUB_PATROL (R366) -/

/-- The task whose region holds a byte. -/
def Core.ownerOf (x : Core) (a : Nat) : Option (Nat × Task) := x.tasks.find? (fun p => p.2.state != .none && decide (p.2.base ≤ a) && decide (a < p.2.bound))

/-- The core's job is ACTIVE. -/
def Dev.coreActive (d : Dev) (c : Nat) : Bool := (d.core c).tasks.any (fun p => p.2.state != .none && (d.job p.2.job).state == .active)

/-- The patrol reads the next word of a WEIGHT bank, or writes a corrected word back; uncorrectable words are reported as any read
of them is (R365). -/
def patrolD (c bank : Nat) (det : Detect) (d : Dev) : Dev :=
  let x := d.core c
  if mgetD x.roles bank 0 ≠ 1 ∨ !d.coreActive c then d
  else if (mget x.patrolWb bank).isSome then d.onCore c (fun x => { x with patrolWb := mdel x.patrolWb bank })
  else
    let pos := mgetD x.patrolPos bank 0
    let a := bankWord bank pos
    let n := match det with
      | .eccCorrected n => n
      | _ => 0
    let d1 := (d.seen c det).onCore c (fun x =>
      { x with
        patrolPos := mset x.patrolPos bank ((pos + 1) % 1024)
        patrolWb := if 0 < n then mset x.patrolWb bank (pos + 1) else x.patrolWb })
    let d2 := if pos = 1023 then d1.count (coreOff c + 0x1818) 32 1 else d1
    let met := (d2.core c).badWords [((a : Nat), (a + bankWidth bank : Nat))]
    if met.isEmpty then d2
    else
      let d3 := d2.count (coreOff c + 0x1818) 16 met.length
      match x.ownerOf (met.headD 0) with
      | some (t, k) => d3.detect { code := 0x0403, cls := clsTask, kind := 0, task := t, unit := c, a := bank + 256 * met.length, b := met.headD 0 } [] k.job c t
          k.progRound
      | none => d3

def execScrubPatrol (core : Fin 256) (bank : Fin 48) (det : Detect) (s : State) : Host.Outcome State Fault Refusal :=
  onUp s (patrolD core.val bank.val det)

/-! ### REMOTE_WRITE (R19, R375, R383, R384) -/

/-- The job of a core. -/
def Dev.coreJob (d : Dev) (c : Nat) : Option (Nat × Image) :=
  ((d.core c).tasks.find? (fun p => p.2.state != .none)).bind (fun p => ((d.job p.2.job).img).map (fun i => (p.2.job, i)))

/-- A write of a core's local pump reaches another core's cistern port (R400); none comes while an earlier one waits. One that no window accepts, or
that goes into a contained slice, is dropped, for the items of the writing transfer; without one, for none. Bytes that lie in the put slot
of a ring fed by the core use the slot. -/
def remoteWriteD (writer target off : Nat) (data : RemoteBytes) (d0 : Dev) : Dev :=
  match d0.coreJob writer with
  | none => d0
  | some (j, i) =>
    if (d0.core writer).pump.held.isSome then d0
    else
      let d := d0.count (coreOff target + 0x1820) 0 data.lost
      let n := data.bytes.length
      let who : Writer := ⟨i.compileId, i.deviceIndex, writer⟩
      let round := ((d.farXfer writer).map (fun x => x.round)).getD d.tb.round
      let hs := match d.farXfer writer with
        | some x => d.opHandlesAt writer x.task x.word x.round
        | none => []
      if !(d.sliceUp (target / 64)) then
        d.detect { code := 0x0507, kind := 0, task := d.farTask writer, unit := writer, a := (d.runningItems round hs).length, b := d.lowestSeq round hs } hs j
          writer (d.farTask writer) round
      else match d.accepts target who off n with
      | none => (d.windowDrop target).failItems { code := 0x0505, kind := 0, task := d.farTask writer, unit := writer } round hs none
      | some _ =>
        let d1 := d.countWindows target who off n
        match d.putRing writer target off n with
        | none => d1.onCore target (fun x => x.store off data.bytes)
        | some (t, ring) => d1.farWrite writer target off data.bytes t ring

def execRemoteWrite (writer target : Fin 256) (off : Nat) (data : RemoteBytes) (s : State) : Host.Outcome State Fault Refusal :=
  onUp s (remoteWriteD writer.val target.val off data)

/-! ### Scrubs (R387 to R390) -/

/-- Steps 2 and 3 of R387 on a core: every byte of the regions, tags, tallies, windows, accumulators, summaries, scales, statistics and
state peaks; the maintenance of the scrub ends (R372). -/
def Core.scrubbed (x : Core) : Core :=
  { x with
    mem := []
    bad := []
    tasks := mmap (fun _ k => k.gone) x.tasks
    tags := []
    tallies := []
    tallySat := []
    windows := []
    acc := []
    scale := []
    groups := []
    accs := []
    stpeak := []
    stpeakUsed := 0
    stpeakUnrec := 0
    maint := false }

/-- Well bytes of a range become zero, but those behind a stopped controller (R18, R389). -/
def Dev.zeroWell (d : Dev) (base n : Nat) : Dev :=
  { d with well := d.well.filter (fun p => decide (p.1 < base) || decide (base + n ≤ p.1) || d.ctlDown p.1) }

/-- The cisterns of a killed job are clear: the locks are released and its cores are free for another job (R387 step 4). -/
def Dev.coresClear (d : Dev) (j : Nat) : Dev :=
  let job := d.job j
  let d1 := job.cores.foldl (fun d c => d.onCore c (fun x => { x.scrubbed with locked := false, maint := (d.slice (c / 64)).state == .scrubbing })) d
  ({ d1 with coreCks := d1.coreCks.filter (fun k => !(job.cores.contains k.core)) }).onJob j (fun x => { x with clear := true, spares := 0 })

/-- KILL_SCRUB_COMPLETE: the cisterns of a killed job are clear; once the well is clear too, the job is EMPTY and its KILL_JOB
commands complete (R86, R387, R389). -/
def killDoneD (j : Nat) (wellToo : Bool) (d : Dev) : Dev :=
  let job := d.job j
  if job.state != .killed then d
  else
    let d1 := d.coresClear j
    let zs := d1.zeroing.filter (fun z => z.1 == j)
    if !wellToo && !zs.isEmpty then d1.refreshSlices
    else
      let d2 := zs.foldl (fun d z => d.zeroWell z.2.1 z.2.2) { d1 with zeroing := d1.zeroing.filter (fun z => z.1 != j) }
      let d3 := { d2 with
        poolUse := d2.poolUse.filter (fun p => !(zs.any (fun z => decide (z.2.1 ≤ p.1) && decide (p.1 < z.2.1 + z.2.2))))
        streamCks := d2.streamCks.filter (fun k => k.stream.job != j) }
      let d4 := (d3.unroute j).onJob j (fun x => { Job.reset with gen := x.gen, loadErr := x.loadErr })
      let d5 := job.killCmds.foldl (fun d r => d.finishCmd j r stOk 0) d4
      d5.flrDone.joinIfIdle.refreshSlices

def execKillScrubComplete (j : Fin 16) (wellToo : Bool) (s : State) : Host.Outcome State Fault Refusal := onUp s (killDoneD j.val wellToo)

/-- SLICE_SCRUB_START (R21, R372). -/
def sliceScrubD (s : Nat) (d : Dev) : Dev :=
  match (d.slice s).state with
  | .contained => (List.range 64).foldl (fun d k => d.onCore (64 * s + k) (fun x => { x with maint := true })) (d.onSlice s (fun x => { x with state := .scrubbing }))
  | _ => d

def execSliceScrubStart (s : Fin 4) (st : State) : Host.Outcome State Fault Refusal := onUp st (sliceScrubD s.val)

/-- SLICE_SCRUB_COMPLETE (R390): the cisterns of the slice's 64 cores are clear. -/
def sliceDoneD (s : Nat) (d : Dev) : Dev :=
  match (d.slice s).state with
  | .scrubbing => (List.range 64).foldl (fun d k => d.onCore (64 * s + k) (fun x => { x.scrubbed with maint := x.locked })) (d.onSlice s (fun x => { x with state := .retired }))
  | _ => d

def execSliceScrubComplete (s : Fin 4) (st : State) : Host.Outcome State Fault Refusal := onUp st (sliceDoneD s.val)

/-! ### EXP_SLOT_RELEASE (R433) -/

/-- A request of a program before a round names a generation: it is queued, or a word of a running program still makes it. -/
def Dev.earlierRequests (d : Dev) (c gen round : Nat) : Bool := decide (0 < d.genRequests c gen round) || d.genToCome c gen round

def slotReleaseD (c slot : Nat) (d : Dev) : Dev :=
  match (d.core c).gens[slot]? with
  | some g => if g.state = 2 ∧ !(d.earlierRequests c g.gen g.retired) then d.onCore c (fun x => x.freeSlot slot) else d
  | none => d

def execExpSlotRelease (core : Fin 256) (slot : Fin 4) (s : State) : Host.Outcome State Fault Refusal := onUp s (slotReleaseD core.val slot.val)

/-! ### WEIGHT_REFETCH_COMPLETE (R546) -/

/-- The words of the core's WEIGHT banks hold their objects' bytes again, and the core leaves maintenance. -/
def refetchD (c : Nat) (d : Dev) : Dev :=
  let x := d.core c
  if x.maint && !x.locked && d.coreActive c && d.sliceUp (c / 64) then
    d.onCore c (fun x => { x with maint := false, bad := x.bad.filter (fun b => mgetD x.roles (bankOf (8 * b.1)) 0 != 1) })
  else d

def execWeightRefetchComplete (core : Fin 256) (s : State) : Host.Outcome State Fault Refusal := onUp s (refetchD core.val)

end Sys2Proof.Machine
end

