-- ==== Sys2Proof/Machine/Mirror.lean ====
section
/-! DEFINITION. Machine/Mirror.lean: a standby that takes over its origin's work: the state of the latest complete shipment, and what the
marks of its replay do (R30, R283, R337, R382, R416, R559, R563, R565). -/

namespace Sys2Proof.Machine

/-! ### The state of the latest complete shipment (R563 step 3)

R503 gives the units of part 0 no address and R46 no layout of the state. Each piece is therefore a free value of the copy's units, in a
record of the model's (entry 64). -/

/-- n bytes of a piece of an origin's state. -/
def Dev.copyBytes (d : Dev) (i : Image) (piece n : Nat) : Bytes :=
  (List.range n).map (fun k => Config.mirrorState d.mirror.state i.compileId i.deviceIndex piece k)

/-- The item that the stream's state holds open, if any. -/
def copiedItem (b : Bytes) : Item :=
  { seq := leAt b 4 4, kind := leAt b 2 1 % 2, formed := leAt b 8 8, first := leAt b 16 8, count := leAt b 24 2, energy := leAt b 26 4, seg := leAt b 30 2,
    segRec := sliceZ b 32 16, run := none, attempts := 1, replayed := true, withheld := false, timedOut := false, detected := 0, failed := 0, trapAt := none, lost := false }

/-- A stream of the origin (R310, R296), with the LAG that it takes. Its open generation is aborted (R565). -/
def copiedStream (j lag : Nat) (slot : Option Nat) (b : Bytes) (samples : List Int) (marks : List Nat) : Stream :=
  { Stream.reset with
    state := if slot.isSome then .active else .parked
    job := j
    cls := leAt b 3 1
    source := leAt b 4 1 % 2
    port := leAt b 5 1
    tdmSlot := leAt b 6 1
    rate := leAt b 7 1 % 4
    slot := slot
    seed := leAt b 16 8
    snum := leAt b 24 3
    frame := leAt b 28 6
    token := leAt b 34 6
    dlen := leAt b 40 1
    seg := leAt b 42 2
    nextItem := leAt b 44 4
    sampleBase := leAt b 48 8
    energy := leAt b 12 4
    accept := (List.range 8).map (fun k => (leAt b (56 + 2 * k) 1, leAt b (57 + 2 * k) 1))
    samples := samples
    marks := marks
    items := if bit (leAt b 2 1) 1 then [copiedItem (b.drop 72)] else []
    lag := lag }

/-- One key–value sequence of a stream: its record, its lists, and the bytes of their pages. -/
def Dev.copySeq (d : Dev) (i : Image) (h : Nat) (l : Rec) : Dev :=
  let at_ (k : Nat) : Nat := 2 ^ 40 + ((h * 256 + kvLayer l) * 2 ^ 16 + k) * 256
  let b := d.copyBytes i (at_ 0) 16
  let list (k : Nat) : SMap Nat := (List.range (kvMax l)).filterMap (fun e =>
    let v := leAt (d.copyBytes i (at_ (1 + k * 16384 + e)) 5) 0 5
    if bit v 32 then some (e, v % 2 ^ 32) else none)
  let cur := list 0
  let ret := list 1
  let d1 := d.setSeq h (kvLayer l) (fun _ => { Seq.reset with len := leAt b 0 4, seg := leAt b 4 2, retLen := leAt b 8 4, retSeg := leAt b 12 2, cur := cur, ret := ret })
  [(0, cur), (1, ret)].foldl (fun d (x : Nat × SMap Nat) => x.2.foldl (fun d e => (List.range (kvHeads l)).foldl (fun d q =>
    d.pageWrite l e.1 e.2 q [(0, d.copyBytes i (at_ (1 + x.1 * 16384 + e.1) + 1 + q) (kvPage l))]) d) d) d1

/-- The k-th stream of the copy, with its tensors and sequences. A handle or a slot that the device uses is not taken. -/
def Dev.copyStream (d : Dev) (j lag : Nat) (i : Image) (k : Nat) : Dev :=
  let b := d.copyBytes i (1 + 4 * k) 128
  let h := leAt b 0 2 % 32768
  let s0 := leAt b 8 2 % 4096
  if (d.stream h).state != .free || (d.stream h).regAt.isSome || (i.cls (leAt b 3 1)).isNone then d
  else
    let slot := if bit (leAt b 2 1) 0 && d.slotFree j s0 then some s0 else none
    let n := leAt b 10 2
    let samples := (chunks 4 (d.copyBytes i (2 + 4 * k) (4 * n))).map (fun v => sext 32 (leNat v))
    let marks := (chunks 8 (d.copyBytes i (3 + 4 * k) (8 * leAt b 41 1))).map leNat
    let d1 := d.onStream h (fun _ => copiedStream j lag slot b samples marks)
    let shapes := d1.ckSlices h
    let total := (shapes.map (fun x => x.2.2.length)).foldl (· + ·) 0
    let bytes := d.copyBytes i (4 + 4 * k) total
    let slices := (shapes.foldl (fun (a : List (Nat × Nat × Bytes) × Bytes) x =>
      (a.1 ++ [(x.1, x.2.1, a.2.take x.2.2.length)], a.2.drop x.2.2.length)) ([], bytes)).1
    let d2 := d1.putSlices { handle := h, round := 0, stream := d1.stream h, slices := slices, seqs := [] } id
    (d1.layersOf h).foldl (fun d l => d.copySeq i h l) d2

/-- Scale registers, and the histories that decide the next ones (R279, R283). -/
def Dev.copyScale (d : Dev) (i : Image) (c : Nat) : Dev := d.onCore c (fun x =>
  let at_ (k : Nat) : Nat := 2 ^ 48 + c * 2 ^ 20 + k
  let es := x.groups.flatMap (fun g => (List.range (gCount g.decl)).map (fun e => gFirst g.decl + e))
  let hs := (x.groups.filter (fun g => gAdapts g.decl)).map (fun g => (histAddr (x.task (gTask g.decl)) g.decl 0 0, gWindow g.decl * gCount g.decl * 8))
  ({ x with scale := es.foldl (fun m e => mset m e (leNat (d.copyBytes i (at_ e) 8))) x.scale }).storeAll
    (hs.zipIdx.map (fun (p : (Nat × Nat) × Nat) => (p.1.1, d.copyBytes i (at_ (65536 + p.2)) p.1.2))))

/-- Provisional records that the origin posted and that no confirmed one has replaced: the mirror's confirmed records supersede them. -/
def Dev.copyProvs (d : Dev) (j : Nat) (i : Image) : Dev :=
  let n := leNat (d.copyBytes i (2 ^ 47) 2)
  let new := (List.range n).map (fun k =>
    let b := d.copyBytes i (2 ^ 47 + 1 + k) 32
    ({ job := j, handle := leAt b 0 2, unit := leAt b 2 1, seg := leAt b 4 2, first := leAt b 8 4, count := leAt b 12 4, index := leAt b 16 8,
       round := leAt b 24 8 } : Prov))
  { d with provs := d.provs ++ new }

/-- The whole state, into the standby's tasks. -/
def Dev.copyState (d : Dev) (j lag : Nat) (i : Image) : Dev :=
  let n := leNat (d.copyBytes i 0 2) % 32769
  let d1 := (List.range n).foldl (fun d k => d.copyStream j lag i k) d
  let d2 := (d1.job j).cores.foldl (fun d c => d.copyScale i c) d1
  (d2.restoreAdapters j i).copyProvs j i

/-! ### Input of the first replayed round, records without a shipment (R30, R565) -/

/-- The round of the mark has its cut already: the items of its sources wait, and the shipped ones take their place. -/
def Dev.replayNow (d : Dev) : Dev :=
  let n := d.tb.round
  let swap (d : Dev) (s : Nat × Nat) (back : CrossItem → Bool) (xs : List CrossItem) : Dev := d.onCross (srcKey s.1 s.2) (fun q =>
    { q with
      items := (q.assigned.filter (fun p => p.1 == n && back p.2)).map (fun p => { p.2 with late := true, taken := false }) ++ q.items
      assigned := q.assigned.filter (fun p => !(p.1 == n && back p.2)) ++ xs.map (fun x => (n, x)) })
  let d1 := cutSources.foldl (fun d s =>
    if s.1 = 2 then swap d s (d.waitsReplay n) (d.replayCmds n s.2)
    else match d.replayItems n s.1 s.2 with
      | none => d
      | some xs => swap d s (fun _ => true) xs) d
  d1.takeCommands n

/-- The rings of the origin whose records no shipment holds are fetched again, from the DEVIDX of the last shipment on, which is a free
value of the ring (R565; entry 64). -/
def Dev.refetch (d : Dev) (j : Nat) (i : Image) : Dev :=
  let intake := ((d.streams.filter (fun p => p.2.state != .free && p.2.job == j && p.2.source == 0)).map (fun p => p.2.port)).eraseDups
  let out (d : Dev) (kind ring : Nat) : Dev := d.emit (.refetch kind ring (leNat (d.copyBytes i (2 ^ 46 + kind * 256 + ring) 4)))
  (List.range 16).foldl (fun d r => out d 0 r) (intake.foldl (fun d r => out d 2 r) d)

/-! ### The marks of a replay -/

/-- Jobs that replay a round. -/
def Dev.replaying (d : Dev) (n : Nat) : List Nat := (d.jobs.filter (fun p => (p.2.originRound n).isSome)).map Prod.fst

def Dev.onReplays (d : Dev) (f : Dev → Nat → Dev) : Dev := (d.replaying d.tb.round).foldl f d

/-- An item of a stream of a job changes. -/
def Dev.onItem (d : Dev) (j h seq : Nat) (f : Item → Item) : Dev := d.onStream h (fun s =>
  if s.job = j then { s with items := s.items.map (fun i => if i.seq = seq then f i else i) } else s)

/-- Items that the log has end FAILED at this mark do so with its code (R382, R416); those it has restored are marked with theirs. The
first timeout of an item is no end: `replayTimeouts` does it. -/
def Dev.replayOutcomes (d : Dev) (j : Nat) : Dev := match d.replayLog j d.tb.round with
  | none => d
  | some recs =>
    let d1 := (outcomesOf recs stFailed).foldl (fun d o => d.onItem j o.1 o.2.1 (fun i =>
      if i.failed = 0 ∧ i.run.isSome ∧ (o.2.2 ≠ 0x0503 ∨ i.timedOut) then { i with failed := o.2.2 } else i)) d
    (outcomesOf recs stReplayed).foldl (fun d o => d.onItem j o.1 o.2.1 (fun i => if i.run.isSome then { i with detected := o.2.2 } else i)) d1

/-- Streams that the log has restored at this mark: handle, the mark of the round in which the item last ran, code (R559). -/
def Dev.replayRestores (d : Dev) (j : Nat) : List (Nat × Nat × Nat) := match d.replayLog j d.tb.round with
  | none => []
  | some recs => (outcomesOf recs stReplayed).filterMap (fun o =>
      if (d.stream o.1).job = j then (((d.stream o.1).items.find? (fun i => i.seq == o.2.1)).bind (fun i => i.run)).map (fun r => (o.1, r, o.2.2)) else none)

/-- The transfers that wait on an elastic slot, with their pumps. -/
def Dev.waitingXfers (d : Dev) : List (PumpId × Xfer) := allPumps.flatMap (fun p => ((d.pump p).queue.filter (fun x => x.wait.isSome)).map (fun x => (p, x)))

/-- The timeouts of the round that begins: a task or a transfer that still waits for one of the items abandons its operation at once; the
items retry as they did (R382). -/
def Dev.replayTimeouts (d : Dev) (j : Nat) : Dev := match d.replayLog j d.tb.round with
  | none => d
  | some recs =>
    let named := ((outcomesOf recs stFailed).filter (fun o => o.2.2 == 0x0503 && (d.stream o.1).job == j)).map (fun o => (o.1, o.2.1))
    let hs := (named.map Prod.fst).eraseDups
    let waits := (d.job j).tasks.filterMap (fun p => match (d.task p.1 p.2).wait with
      | some ⟨.ring r _, _, _, _, _⟩ => some (p.1, p.2, r)
      | some ⟨.tally _, _, _, _, _⟩ => some (p.1, p.2, 255)
      | _ => none)
    let d1 := waits.foldl (fun d (w : Nat × Nat × Nat) =>
      if (d.opHandles w.1 w.2.1 (d.task w.1 w.2.1).pc).any hs.contains then d.abandonWord w.1 w.2.1 w.2.2 else d) d
    let xs := d1.waitingXfers.filter (fun y => (d1.task y.2.core y.2.task).job == j && (d1.opHandlesAt y.2.core y.2.task y.2.word y.2.round).any hs.contains)
    let d2 := xs.foldl (fun d (y : PumpId × Xfer) => d.abandonXfer y.1 y.2 (((d.xferRings y.2).head?.map Prod.fst).getD 255)) d1
    let left := (d2.runningItems d2.tb.round hs).filter (fun p => named.contains (p.1, p.2.seq) && !p.2.timedOut)
    (left.foldl (fun d p => d.timeOutItem p.1 p.2) d2).restoreAllTimed (left.map Prod.fst).eraseDups

/-- E_LOG_MISMATCH for the items of some streams (R30, R283, R337). -/
def Dev.mismatch (d : Dev) (j : Nat) (hs : List Nat) : Dev := d.failItems { code := 0x0704, cls := clsTask, kind := 5, unit := j } d.tb.round hs none

/-- A governor decision that a replay recomputes: every one but refusals (R337). -/
def recomputed (b : Bytes) : Bool :=
  (leAt b 0 1 == 0x11 && leAt b 1 1 != 6) || leAt b 0 1 == 0x13 || leAt b 0 1 == 0x14 || leAt b 0 1 == 0x15

/-- The decisions of the mark beside the logged ones, stream by stream; `hs`: the job's streams before the mark. -/
def Dev.checkDecisions (d : Dev) (j : Nat) (hs : List Nat) : Dev := match d.replayLog j d.tb.round with
  | none => d
  | some recs =>
    let of (l : List Bytes) (h : Nat) : List Bytes := (l.filter (fun b => recomputed b && leAt b 2 2 == h)).map (fun b => sliceZ b 0 8 ++ sliceZ b 16 16)
    let own := d.log.round.filter (fun b => leAt b 8 8 == d.tb.round)
    ((hs ++ d.handlesOf j).eraseDups.filter (fun h => of own h != of recs h)).foldl (fun d h => d.mismatch j [h]) d

/-- Items of the round's input that the log names and the shipment does not hold: their streams' chunks fail (R30); of a source that feeds no
stream a record without a handle stands in the error log. -/
def Dev.checkInput (d : Dev) (j : Nat) : Dev := ((d.fedTo j d.tb.round).filter (fun f => !f.whole)).foldl (fun d f =>
  if !(d.handles.any (d.sourceOf j f.ty f.id)) then d.raise { code := 0x0704, cls := clsTask, kind := 5, unit := j } else
  (d.handles.filter (d.sourceOf j f.ty f.id)).foldl (fun d h =>
    let is_ := (d.stream h).items.filter (fun i => i.formed == d.tb.round)
    (d.onStream h (fun s => { s with items := s.items.map (fun i => if i.formed = d.tb.round ∧ i.failed = 0 then { i with failed := 0x0704 } else i) })).raise
      { code := 0x0704, cls := clsTask, kind := 5, unit := j, corr := is_.isEmpty, handle := some h, a := is_.length,
        b := ((is_.head?).map (fun i => i.seq)).getD 0 }) d) d

/-- A group's scale decision beside the logged one, before the record is written (R283). -/
def Dev.checkScale (d : Dev) (c : Nat) (g : Group) (gi : Nat) : Dev :=
  let t := gTask g.decl
  match d.replayLog (d.task c t).job d.tb.round with
  | none => d
  | some recs =>
    let cut (b : Bytes) : Bytes := sliceZ b 0 8 ++ sliceZ b 16 16
    let logged := (recs.filter (fun b => leAt b 0 1 == 0x20 && leAt b 2 2 == c && leAt b 4 1 == t && leAt b 5 1 == gi)).map cut
    if (if g.unlogged.isEmpty then [] else [cut g.unlogged]) == logged then d
    else d.failItems { code := 0x0704, cls := clsTask, kind := 0, task := t, unit := c } (d.task c t).progRound (d.taskHandles c t) none

/-- After the last shipped round: the chunks of the port frames of the unshipped rounds end FAILED with E_FAILOVER, and the replay is over
(R565). -/
def Dev.endReplay (d : Dev) (j : Nat) : Dev := match (d.job j).replay with
  | none => d
  | some p =>
    if d.tb.round < p.last + p.lag + 1 then d
    else
      let missing := p.first + p.lag - 1 - p.last
      let tdm := (d.handlesOf j).filter (fun h => (d.stream h).state != .free && (d.stream h).source == 1)
      let d1 := tdm.foldl (fun d h =>
        let s := d.stream h
        let c := d.clsOf h
        let C := fld c 3 1
        let H := d.hopSamples h
        let n := missing * (tdmHz (d.regF (portOff s.port) 1 2) * d.tb.lenHalf / 2000) / max 1 (C * H)
        (List.range n).foldl (fun d k =>
          let s := d.stream h
          let i : Item := { seq := s.nextItem, kind := 0, formed := d.tb.round, first := s.sampleBase / max 1 H, count := C, energy := 0, seg := s.seg,
                            segRec := [], run := none, attempts := 0, replayed := false, withheld := false, timedOut := false, detected := 0,
                            failed := 0, trapAt := none, lost := true }
          let _ := k
          (d.onStream h (fun s => { s with nextItem := s.nextItem + 1, sampleBase := s.sampleBase + C * H, frame := (s.frame + C) % 2 ^ 48, items := s.items ++ [i] })).failNow
            h i 0x0906 0) d) d
      d1.onJob j (fun x => { x with replay := none })

end Sys2Proof.Machine
end

