-- ==== Sys2Proof/Machine/Failover.lean ====
section
/-! DEFINITION. Machine/Failover.lean: alternate sets, spare cores and slices (R561, R562), mirrors (R563 to R565), membership versions at
their marks (R494, R495). -/

namespace Sys2Proof.Machine

/-! ### Alternate sets (R561) -/

def setFld (r : Rec) (off n v : Nat) : Rec := BitVec.ofNat 512 (putBits r.toNat (8 * off) (8 * n) v)

/-- Entries of a set replace those with the same key. -/
def replaceBy {α : Type} (key : α → Nat) (old new : List α) : List α := old.filter (fun x => !(new.any (fun y => key y == key x))) ++ new

/-- Key of a route entry: link routes by kind, path and route, bridges by their cores, port routes by port, direction and first slot. -/
def routeKey (r : Rec) : Nat := if fld r 0 1 = 3 then 3 + 256 * fld r 2 4 else if fld r 0 1 = 4 then 4 + 256 * (fld r 1 2 + 65536 * fld r 4 1) else fld r 0 4

/-- The image with an alternate set in place of its entries for the same cores, rings and routes; `dead`: cores that are lost. -/
def Image.withAlt (i : Image) (alt : List (Nat × Bytes)) (dead : List Nat) : Image :=
  let sec (t : Nat) : Bytes := match alt.find? (fun s => s.1 == t) with
    | some s => s.2
    | none => []
  let has (t : Nat) : Bool := alt.any (fun s => s.1 == t)
  let adj (p : Rec) : Rec := setFld (setFld p 24 2 (plDescFirst p + (if has 6 then i.descs.length else 0))) 12 4
    (plSchedOff p + (if has 0xA then 8 * i.sched.length else 0))
  let live (c : Nat) : Bool := !(dead.contains c)
  let wm := sec 0xB
  let w1 := 16 + 16 * leAt wm 0 2
  let w2 := w1 + 64 * leAt wm 2 2
  let w3 := w2 + 32 * leAt wm 4 2
  { i with
    placements := replaceBy placeCore (i.placements.filter (fun p => live (placeCore p))) ((recsOf 64 (sec 1)).map adj)
    bankRoles := replaceBy (fun r => fld r 0 2) i.bankRoles (recsOf 64 (sec 2))
    routes := replaceBy routeKey i.routes (recsOf 32 (sec 3))
    rings := replaceBy (fun r => srRing r + 65536 * srCore r) (i.rings.filter (fun r => live (srCore r))) (recsOf 32 (sec 4))
    windows := replaceBy (fun w => fld w 0 3) (i.windows.filter (fun w => live (fld w 0 2))) (recsOf 48 (sec 5))
    descs := i.descs ++ recsOf 64 (sec 6)
    peat := replaceBy (fun b => leAt b 0 2) (i.peat.filter (fun b => live (leAt b 0 2))) (chunks 80 (sec 7))
    tallies := replaceBy Prod.fst i.tallies ((chunks 1032 (sec 8)).map (fun c => (leAt c 0 2, (chunks 4 (c.drop 8)).map leNat)))
    bindings := replaceBy (fun b => fld b 0 4) (i.bindings.filter (fun b => live (fld b 0 2))) (recsOf 8 ((sec 9).drop 16))
    sched := i.sched ++ (chunks 8 (sec 0xA)).map leNat
    objects := i.objects ++ recsOf 64 (sliceZ wm w1 (64 * leAt wm 2 2))
    regulators := replaceBy (fun g => fld g 0 2) i.regulators (recsOf 8 (sliceZ wm w3 (8 * leAt wm 6 2)))
    classes := replaceBy (fun c => fld c.1 0 1) i.classes (parseClasses (sec 0xD).length (sec 0xD))
    adapters := replaceBy (fun a => fld a 0 1) i.adapters (recsOf 64 ((sec 0xE).drop 16)) }

/-! ### Spare cores and slices (R562) -/

/-- The job's cores that an action takes away. -/
def Job.lostCores (j : Job) (a : Action) : List Nat := j.cores.filter (fun c => if a.cls = clsCore then c == a.unit else c / 64 == a.unit)

def Image.spareEntry (i : Image) (a : Action) : Option Rec :=
  (foEntries i.failover).find? (fun e => foKind e == (if a.cls = clsCore then 1 else 2) && foFailed e == a.unit)

/-- Streams whose slots a set of cores serves. -/
def Dev.streamsOn (d : Dev) (j : Nat) (cores : List Nat) : List Nat :=
  let cords := ((d.job j).tasks.filter (fun p => cores.contains p.1)).flatMap (fun p => d.taskCords p.1 p.2)
  (d.streams.filter (fun p => p.2.state != .free && p.2.job == j && (match p.2.slot with
    | some s => cords.contains (s / 64)
    | none => false))).map Prod.fst

/-- A core that an alternate set uses: its tasks, windows, scale entries and accumulators, then its start. -/
def Dev.startSpare (d : Dev) (j : Nat) (i : Image) (c : Nat) : Dev :=
  let d1 := (i.taskImgs.filter (fun x => x.core == c)).foldl (fun d x => d.placeTask j i x) d
  (d1.onCore c (fun x => { x with windows := i.coreWindows j c })).startCore j i c

/-- Old core of a job to its stand-in, in ascending order. -/
def standIn (dead spare : List Nat) (c : Nat) : Nat := match (dead.zip spare).find? (fun p => p.1 == c) with
  | some p => p.2
  | none => c

/-- The ports take the port routes of a job's image as an alternate set leaves them, each in its place (R473, R561). -/
def Dev.moveRoutes (d : Dev) (j : Nat) (i : Image) : Dev :=
  let rs := i.portRoutes
  let moved (r : Nat × Rec) : Nat × Rec := if r.1 / 256 = j then (r.1, (rs.find? (fun q => routeKey q == routeKey r.2)).getD r.2) else r
  let d1 := { d with ports := mmap (fun _ x => { x with routes := x.routes.map moved }) d.ports }
  let new := rs.filter (fun q => !((d.port (prPort q)).routes.any (fun r => r.1 / 256 == j && routeKey r.2 == routeKey q)))
  new.zipIdx.foldl (fun d r => d.onPort (prPort r.1) (fun x => { x with routes := x.routes ++ [(j * 256 + 128 + r.2, r.1)] })) d1

/-- The job moves to the spares of an entry; its streams there are restored from the mark of the detection's round and replay. -/
def Dev.moveJob (d : Dev) (j : Nat) (i : Image) (a : Action) (e : Rec) : Dev :=
  let asc (l : List Nat) : List Nat := l.mergeSort (fun x y => decide (x ≤ y))
  let dead := asc ((d.job j).lostCores a)
  let hs := d.streamsOn j dead
  let i' := i.withAlt (altSet i.failover e) dead
  let spare := asc ((i'.tasks.map Prod.fst).eraseDups.filter (fun c => !((d.job j).cores.contains c)))
  let d1 := ((d.onJob j (fun x => { x with img := some i', gen := (x.gen + 1) % 65536 })).dropStale).moveRoutes j i'
  let d2 := spare.foldl (fun d c => d.startSpare j i' c) d1
  let d3 := (dead.zip spare).foldl (fun d p => d.restoreCore p.1 p.2 a.round) d2
  let d4 := dead.foldl (fun d c => d.onCore c (fun x => { x with tasks := mmap (fun _ k => if k.job = j then k.gone else k) x.tasks })) d3
  let mv (x : Nat) : Nat := standIn dead spare (x / 8) * 8 + x % 8
  let d5 := hs.foldl (fun d h => d.restoreStream h a.round a.code mv (fun x => x.detected != 0)) (d4.readyTasks j d4.tb.round)
  d5.refreshSlices

/-- No spare and no mirror: every open item ends FAILED with E_FAILOVER and the job is STOPPED. -/
def Dev.failJob (d : Dev) (j : Nat) : Dev :=
  let hs := d.handlesOf j
  let n := ((hs.map (fun h => (d.stream h).items.length)).foldl (· + ·) 0)
  let first := hs.find? (fun h => !((d.stream h).items.isEmpty))
  let low := match first with
    | some h => (((d.stream h).items.head?).map (fun i => i.seq)).getD 0
    | none => 0
  let d1 := d.raise { code := 0x0906, kind := 5, unit := j, corr := decide (n = 0), handle := first, a := n, b := low }
  let d2 := hs.foldl (fun d h => (d.stream h).items.foldl (fun d i => d.endItem h i stFailed 0x0906) d) d1
  let d3 := (d2.setTaskStates j .stopped).closeWindows j
  let cmds := (d3.job j).stopCmds
  let d4 := d3.onJob j (fun x => { x with state := .stopped, stopCmds := [] })
  cmds.foldl (fun d r => d.finishCmd j r stOk 0) d4

/-- R548: the class of an action that finds no placement rises by one. -/
def Dev.riseAction (d : Dev) (a : Action) : Dev :=
  let e : Err := { code := a.code, cls := a.cls + 1, esc := true, corr := false, kind := a.kind, unit := a.unit, round := some a.round }
  let s := if a.cls = clsCore then a.unit / 64 else a.unit
  if a.cls = clsCore ∧ d.sliceUp s then (d.raise e).loseSlice s a.code a.round
  else d.raise { e with cls := clsDevice }

/-- A lost core or slice at its recovery mark. -/
def Dev.failover (d : Dev) (a : Action) : Dev :=
  let js := (d.jobs.filter (fun p => p.2.live && !(p.2.lostCores a).isEmpty)).map Prod.fst
  let r := js.foldl (fun (x : Dev × Bool) j => match (x.1.job j).img with
    | none => x
    | some i => match i.spareEntry a with
      | some e => (x.1.moveJob j i a e, x.2)
      | none => if (x.1.job j).mirrors = 0 then (x.1.failJob j, x.2) else (x.1, true)) (d, false)
  if r.2 then r.1.riseAction a else r.1

/-! ### Membership versions (R494, R495) and mirrors (R563 to R565) -/

/-- The MIRROR entry of a standby for its origin. -/
def Image.mirrorEntry (i : Image) : Option Rec := (foEntries i.failover).find? (fun e => foKind e == 3 && foOrigin e == i.deviceIndex)

/-- Every device of the compile applies the MIRROR entry's alternate routes (R563 step 1). -/
def Dev.applyAltRoutes (d : Dev) (compile origin : Nat) : Dev :=
  let routed (i : Image) : Image := match (foEntries i.failover).find? (fun e => foKind e == 3 && foOrigin e == origin) with
    | some e => i.withAlt ((altSet i.failover e).filter (fun s => s.1 == 3)) []
    | none => i
  let here (j : Job) (i : Image) : Image := if i.compileId = compile ∧ j.loaded then routed i else i
  let d1 := { d with jobs := mmap (fun _ (j : Job) => { j with img := j.img.map (here j) }) d.jobs }
  d1.onJobs (fun d j => match (d.job j).img with
    | some i => if i.compileId = compile then d.moveRoutes j i else d
    | none => d)

/-- This device is the first of an origin's mirrors that is present. -/
def Dev.firstMirror (d : Dev) (i : Image) : Bool :=
  let me := d.fabric.map.find? (fun a => a.identity == d.trust.identity)
  match (d.presentMirrors i).head?, me with
  | some m, some a => a.compiles.contains (i.compileId, m)
  | _, _ => false

/-- State of the latest complete shipment c, and the replay of the rounds after it whose parts 1 and 2 are whole (R563 steps 3 and 4). -/
def Dev.startReplay (d : Dev) (j : Nat) (i : Image) (c : Nat) : Dev :=
  let lag := d.tb.round - c - 1
  let held (r : Nat) : Bool := [1, 2].all (fun p => d.mirror.parts.any (fun s =>
    s.compile == i.compileId && s.origin == i.deviceIndex && s.round == r && s.part == p && s.whole))
  let n := ((List.range lag).takeWhile (fun k => held (c + 1 + k))).length
  let d1 := (d.copyState j lag i).onJob j (fun x => { x with replay := some { first := c + 1, last := c + n, lag := lag } })
  (d1.replayNow).refetch j i

/-- A standby whose origin has left is activated at the effective mark (R563 step 2, R564), with the next job generation (R417). -/
def Dev.takeOver (d : Dev) (j : Nat) (i : Image) : Dev :=
  let d1 := d.applyAltRoutes i.compileId i.deviceIndex
  let cs := (d1.mirror.complete.filter (fun (c : Nat × Nat × Nat) => c.1 == i.compileId && c.2.1 == i.deviceIndex)).map (fun (c : Nat × Nat × Nat) => c.2.2)
  let c := cs.foldl max 0
  let d2 := { d1 with mirror := { d1.mirror with active := d1.mirror.active ++ [(i.compileId, c)] } }
  let d3 := (d2.onJob j (fun x => { x with actRound := some d2.tb.round, gen := (x.gen + 1) % 65536 })).activate j d2.tb.round
  (if cs.isEmpty then d3 else d3.startReplay j i c).advertise

/-- Origins of the compiles held here that have left with a version. -/
def Dev.lostOrigins (d : Dev) (before : List Bytes) : List (Nat × Nat) :=
  (d.fabric.map.filter (fun a => before.contains a.identity && !(d.fabric.members.contains a.identity))).flatMap (fun a => a.compiles)

/-- One version takes effect: members, root, abort of staging fabric jobs under another root, failover of lost origins. -/
def Dev.applyVersion (d : Dev) (v : Version) : Dev :=
  let before := d.fabric.members
  let members := idSort d.reach
  let root := lowestId members
  let changed := root != d.fabric.root
  let d1 := { d with fabric := { d.fabric with
    version := v.version
    members := members
    root := root
    isRoot := root == d.trust.identity
    stagedReports := if changed then [] else d.fabric.stagedReports } }
  let d2 := (if d1.tb.aligned then d1.checkMinority.reparent else d1).onJobs Dev.choosePaths
  let d3 := if changed then d2.onJobs (fun d j => match (d.job j).img with
      | some i => if 1 < i.fabricSize ∧ !((d.job j).standby) ∧ ((d.job j).state == .loading ∨ (d.job j).state == .staged) then d.abortCompile i.compileId else d
      | none => d) else d2
  (d3.lostOrigins before).foldl (fun d o => (d.applyAltRoutes o.1 o.2).onJobs (fun d j => match (d.job j).img with
    | some i => if (d.job j).standby ∧ (d.job j).state == .staged ∧ i.compileId = o.1 ∧ i.deviceIndex = o.2 ∧ d.firstMirror i then d.takeOver j i else d
    | none => d)) d3

/-- Versions whose effective mark has come, in order. -/
def Dev.applyVersions (d : Dev) : Dev :=
  let due := d.fabric.pending.filter (fun v => decide (v.eff ≤ d.tb.round))
  due.foldl (fun d v => if v.roundLen.isSome then { d with fabric := { d.fabric with version := max d.fabric.version v.version } } else d.applyVersion v)
    { d with fabric := { d.fabric with pending := d.fabric.pending.filter (fun v => decide (d.tb.round < v.eff)) } }

end Sys2Proof.Machine
end

