-- ==== Sys2Proof/Machine/Mark.lean ====
section
/-! DEFINITION. Machine/Mark.lean: ROUND_MARK: what a round mark does, in the order of R33, with the records of the round just ended, the
recoveries due (R553 to R559), the completions (R541, R566) and the halt (R550). -/

namespace Sys2Proof.Machine

/-! ### Step 1: the round number, and the round just ended -/

/-- ROUND_LEN at a change mark: the length that now is in force, but the value last written stays while its own report is out (R9, R42). -/
def Dev.lenInForce (d : Dev) (len : Nat) : Dev :=
  if d.fabric.roundLenOut && d.regF 0x1008 0 7 != len then d
  else ({ d with fabric := { d.fabric with roundLenOut := false } }).putField 0x1008 0 7 len

/-- The mark of the next round: TIME, the number, and a round length whose change mark it is (R31, R42). -/
def Dev.nextRound (d : Dev) : Dev :=
  let r := d.tb.nextMark
  let t := d.tb.markTime r
  let d1 := d.at_ t
  let d2 := { d1 with tb := { d1.tb with round := r, nextMark := r + 1 } }
  match d2.tb.changes.find? (fun c => c.1 == r) with
  | none => d2
  | some c =>
    let later := d2.tb.changes.filter (fun x => decide (r < x.1))
    ({ d2 with tb := { d2.tb with baseT := t, baseN := r, lenHalf := c.2, changes := later } }).lenInForce c.2

/-- Flags as a number (R126). -/
def Fl.num (f : Fl) : Nat := f.nan.toNat + 2 * f.ovf.toNat + 4 * f.unf.toNat + 8 * f.sat.toNat

/-- A count of the round just ended, before the counters turn over (R12). -/
def Dev.counted (d : Dev) (off lo : Nat) : Nat := mgetD d.cntNow (off * 64 + lo) 0

/-- The records of a core about the round just ended: E_ARITH (R127), E_ECC_COR (R365), E_BANK_CONFLICT (R369), E_TALLY_SAT (R76; that it names task 0 is a DESIGN CHOICE, entry 99). -/
def Dev.coreRecords (d : Dev) (c : Nat) : Dev :=
  let prev := d.tb.round - 1
  let x := d.core c
  let d1 := x.tasks.foldl (fun d t =>
    if t.2.flagsRound.nan || t.2.flagsRound.ovf then
      d.raise { code := 0x0301, kind := 0, task := t.1, unit := c, a := t.2.flagsRound.num, round := some prev }
    else d) d
  let ecc := d1.counted (coreOff c + 0x1818) 0
  -- several words in one record: which bank and offset it names is a free value (entry 4)
  let d2 := if ecc = 0 then d1 else
    let v := d1.freeVal 9
    v.2.raise { code := 0x0402, kind := 0, unit := c, a := v.1 % 48 + 256 * ecc, b := v.1 / 48 % Config.cisternBytes, round := some prev }
  let lost := d2.counted (coreOff c + 0x1820) 0
  let d3 := if lost = 0 then d2 else d2.raise { code := 0x0501, kind := 0, unit := c, a := lost, round := some prev }
  let d4 := x.tallySat.foldl (fun d _ => d.raise { code := 0x0508, cls := clsTask, kind := 0, unit := c, round := some prev }) d3
  d4.onCore c (fun x => { x with
    tallySat := []
    tasks := mmap (fun _ k => { k with flagsLr := k.flagsRound, flagsRound := {} }) x.tasks })

/-- Records, then the counters of the round turn over (R12). -/
def Dev.turnOver (d : Dev) : Dev :=
  let d1 := (d.cores.map Prod.fst).foldl Dev.coreRecords d.portErrors
  { d1 with cntLr := d1.cntNow, cntNow := [] }

/-- The log's digest takes the records of the rounds that have ended (R596). -/
def Dev.foldLog (d : Dev) : Dev :=
  let old := d.log.round.filter (fun b => decide (leAt b 8 8 < d.tb.round))
  { d with log := { d.log with
    digest := sha3 (d.log.digest ++ old.flatten)
    digestRound := d.tb.round - 1
    round := d.log.round.filter (fun b => decide (d.tb.round ≤ leAt b 8 8)) } }

/-- A wait within its budget, whose marks the watchdog does not count (R538). -/
def Wait.within (w : Wait) (r : Nat) : Bool := match w.kind with
  | .ring _ _ => decide (r ≤ w.began + w.budget)
  | .tally _ => decide (r ≤ w.began + w.budget)
  | _ => false

/-- A mark that a task passes in overrun (R36, R95, R96, R538); one that reached its end word and waits at the barrier was in time
(DEDUCED, entry 90). -/
def Dev.passMark (d : Dev) (c t : Nat) : Dev :=
  let k := d.task c t
  if k.state != .running && k.state != .overrun && k.state != .held then d
  else
    let ctl := d.reg (coreOff c + 0x100 + t * 0x20)
    let held := match k.wait with
      | some w => w.within d.tb.round
      | none => false
    let d1 := d.onTask c t (fun k => { k with
      state := if k.state == .held then .held else .overrun
      ovrCnt := min (k.ovrCnt + 1) 65535
      passed := if held then k.passed else k.passed + 1 })
    if bit ctl 2 then d1.vector (bits ctl 3 6) else d1

/-! ### Step 2: shadows, jobs that start or stop -/

/-- Shadows apply, but those of the own blocks of tasks in overrun, which become due when the program of this mark starts (R36, R91). -/
def Dev.markShadows (d : Dev) : Dev :=
  let late := d.tasksHere.filter (fun p => (d.task p.1 p.2).state == .overrun || (d.task p.1 p.2).state == .held)
  let own (p : Nat × Nat) : Nat := coreOff p.1 + 0x100 + p.2 * 0x20
  let d1 := late.foldl (fun d p => match mget d.shadow (own p) with
    | some v => d.onTask p.1 p.2 (fun k => { k with due := k.due ++ [(d.tb.round, v)] })
    | none => d) d
  (d1.rebasePumps).applyShadows (late.map own).contains

/-- STOP_JOB on a job that never started: the job is STOPPED and its LOAD_IMAGE ends CANCELLED. -/
def Dev.stopUnstarted (d : Dev) (j : Nat) : Dev :=
  let x := d.job j
  let due := match x.stopAt with
    | some s => decide (s ≤ d.tb.round)
    | none => false
  if due && (x.state == .loading || x.state == .staged) then
    let d1 := (d.setTaskStates j .stopped).onJob j (fun x => { x with state := .stopped, stopCmds := [], loadCmd := none, actRound := none, gen := (x.gen + 1) % 65536 })
    let d2 := match x.loadCmd with
      | some c => d1.finishCmd j c stCancelled 0
      | none => d1
    x.stopCmds.foldl (fun d r => d.finishCmd j r stOk 0) d2
  else d

def Dev.activateDue (d : Dev) (j : Nat) : Dev :=
  let x := d.job j
  match x.actRound with
  | some a => if x.state == .staged && !x.standby && decide (a ≤ d.tb.round) then d.activate j d.tb.round else d
  | none => d

/-! ### Items that end at the mark -/

/-- Every task that serves a stream's cord has finished the program of a round. -/
def Dev.servedUpTo (d : Dev) (h n : Nat) : Bool :=
  let s := d.stream h
  match s.slot.bind (fun x => d.allDone (d.serving s.job (x / 64))) with
  | some p => decide (n < p)
  | none => true

/-- A compute round of an item is over, and every task has finished it: the round. -/
def Dev.lastRun (d : Dev) (h : Nat) (i : Item) : Option Nat := match i.run with
  | some q => if decide (q + d.rounds h ≤ d.tb.round) && d.servedUpTo h (q + d.rounds h - 1) then some (q + d.rounds h - 1) else none
  | none => none

/-- Streams with the mark whose state they return to. -/
abbrev Ended := List (Nat × Nat)

/-- A failed item whose last compute round is over ends FAILED (R542, R558). -/
def Dev.endFailed (a : Dev × Ended) (h : Nat) : Dev × Ended :=
  (a.1.stream h).items.foldl (fun (a : Dev × Ended) i =>
    if i.failed = 0 || i.detected != 0 then a
    else match a.1.lastRun h i with
      | some n => (a.1.endItem h i stFailed i.failed, a.2 ++ [(h, n)])
      | none => a) a

/-- In a halt every item with a detection ends FAILED with its code (R550). -/
def Dev.endHalted (a : Dev × Ended) (h : Nat) : Dev × Ended :=
  if !(a.1.jobHalts (a.1.stream h).job) then a
  else (a.1.stream h).items.foldl (fun (a : Dev × Ended) i =>
    if i.detected = 0 then a else (a.1.endItem h i stFailed i.detected, a.2 ++ [(h, i.run.getD 0)])) a

/-! ### Recovery marks (R549, R553) -/

def Dev.actions (d : Dev) : List Action := d.err.handling.toList ++ d.err.queue

/-- The faulty task still runs the program of the detection at the mark after it. -/
def Dev.stillRuns (d : Dev) (a : Action) : Bool :=
  let k := d.task a.core a.task
  a.kind == 0 && decide (a.cls ≤ clsTask) && decide (d.tb.round ≤ a.round + 1) && (k.state == .running || k.state == .overrun) && decide (k.progRound ≤ a.round)

/-- Actions that wait one mark more (R553). -/
def Dev.postpone (d : Dev) : Dev :=
  let late (a : Action) : Action := if d.stillRuns a then { a with markAt := max a.markAt (a.round + 2) } else a
  { d with err := { d.err with handling := d.err.handling.map late, queue := d.err.queue.map late } }

def Dev.dueActions (d : Dev) : List Action := d.actions.filter (fun a => decide (a.markAt ≤ d.tb.round))

/-- Handling of a record ends at the mark at which its action applies (R549). -/
def Dev.clearDue (d : Dev) : Dev :=
  let stays (a : Action) : Bool := decide (d.tb.round < a.markAt)
  { d with err := { d.err with handling := d.err.handling.filter stays, queue := d.err.queue.filter stays } }

/-- R557: an item whose third attempt met the detection ends, and the detection's unit is retired. -/
def Dev.replayLimit (a : Dev × Ended) (x : Action) : Dev × Ended :=
  if clsCore ≤ x.cls then a
  else
    let hit := x.handles.flatMap (fun h => ((a.1.stream h).items.filter (fun i => i.detected != 0 && decide (3 ≤ i.attempts))).map (fun i => (h, i)))
    match hit with
    | [] => a
    | p :: _ =>
      let d1 := a.1.raise { code := 0x0406, kind := x.kind, task := x.task, unit := x.unit, corr := false, handle := some p.1, a := hit.length, b := p.2.seq,
                            round := some x.round }
      let d2 := hit.foldl (fun d p => d.endItem p.1 p.2 stFailed 0x0406) d1
      let d3 := if x.kind = 0 then d2.loseCore x.unit x.code d2.tb.round else if x.kind = 1 then d2.loseSlice (x.unit / 16) x.code d2.tb.round
        else if x.kind = 7 then d2.loseCtl x.unit x.code d2.tb.round else d2
      (d3, a.2 ++ hit.map (fun p => (p.1, x.round)))

/-- A stream to restore: its handle, the mark, the code of its detection. -/
abbrev Plan := List (Nat × Nat × Nat)

def Plan.add (p : Plan) (h n code : Nat) : Plan :=
  if p.any (fun x => x.1 == h) then p.map (fun x => if x.1 = h then (h, min x.2.1 n, if x.2.2 = 0 then code else x.2.2) else x)
  else p ++ [(h, n, code)]

/-- Streams that some actions and the ended items name, each once, with the earliest mark. -/
def planOf (as : List Action) (es : Ended) : Plan :=
  let p := (as.filter (fun a => decide (a.cls < clsCore))).foldl (fun (p : Plan) a => a.handles.foldl (fun p h => p.add h a.round a.code) p) []
  es.foldl (fun p e => p.add e.1 e.2 0) p

/-- The recoveries of a mark among its decisions: streams are restored, and lost cores and slices fail over (R554, R562). -/
def Dev.recover (due : List Action) (runs : Plan) (d : Dev) : Dev :=
  let d1 := runs.foldl (fun d x => d.restoreStream x.1 x.2.1 x.2.2 id (fun i => i.detected != 0)) d
  (due.filter (fun a => decide (clsCore ≤ a.cls))).foldl Dev.failover d1.clearDue

/-- The task side of an action (R546): job state, maintenance for a refetch, the restart of a halted task. -/
def Dev.unitRecovery (d : Dev) (a : Action) : Dev :=
  if a.cls = clsTask ∧ (d.job (d.task a.core a.task).job).live then
    let d1 := d.restoreTask a.core a.task a.round
    if a.code = 0x0403 then d1.onCore a.core (fun x => { x with maint := true })
    else if a.code = 0x0405 then d1.onTask a.core a.task (fun k => { k with state := .ended, progRound := d1.tb.round - 1, passed := 0, wait := none, loop := none })
    else d1
  else d

/-! ### Step 4: checkpoints that are kept (R380), state peaks (R229) -/

/-- Handles with an item in an elastic wait: of a word, of a transfer. -/
def Dev.waitingHandles (d : Dev) : List Nat :=
  (d.tasksHere.flatMap (fun p => match (d.task p.1 p.2).wait with
    | some ⟨.ring _ _, _, _, _, _⟩ => d.opHandles p.1 p.2 (d.task p.1 p.2).pc
    | _ => [])) ++
  ((d.cores.flatMap (fun c => c.2.pump.queue) ++ d.slices.flatMap (fun s => s.2.pumps.flatMap (fun p => p.2.queue)) ++ d.links.flatMap (fun l => l.2.pump.queue)).filter
    (fun x => x.wait.isSome)).flatMap (fun x => d.opHandles x.core x.task x.word)

def Dev.keepChecks (d : Dev) : Dev :=
  let hs := d.waitingHandles
  { d with streams := mmap (fun h s => { s with keepCk := hs.contains h }) d.streams }

/-! ### Completions -/

/-- Items whose compute rounds are over without a detection or a failure leave their stream (R541). -/
def Dev.finishItems (d : Dev) (h : Nat) : Dev :=
  (d.stream h).items.foldl (fun d i =>
    if i.detected != 0 || i.failed != 0 then d
    else match d.lastRun h i with
      | none => d
      | some n =>
        let d1 := d.onStream h (fun s => { s with items := s.items.filter (fun x => x.seq != i.seq) })
        let d2 := d1.supersedeItem h i 0
        { d2 with dones := d2.dones ++ [(n + 1, itemCompletion (d.stream h).job h i (if i.replayed then stReplayed else stOk) 0)] }) d

/-- Completions whose job's mirrors have what they wait for (R566). -/
def Dev.postDones (d : Dev) : Dev :=
  let ready := d.dones.filter (fun p => d.mirrored p.2.job p.1)
  ready.foldl (fun d p => d.finish p.2) { d with dones := d.dones.filter (fun p => !(d.mirrored p.2.job p.1)) }

/-- Scale decisions of the round (R282). -/
def Dev.scaleRecords (d : Dev) : Dev :=
  (d.cores.map Prod.fst).foldl (fun d c =>
    let d0 := (d.core c).groups.zipIdx.foldl (fun d g => d.checkScale c g.1 g.2) d
    let d1 := ((d0.core c).groups.filter (fun g => !g.unlogged.isEmpty)).foldl (fun d g =>
      (d.logRec g.unlogged).noteLr (coreOff c + 0xC08) 32 1) d0
    d1.onCore c (fun x => { x with groups := x.groups.map (fun g => { g with unlogged := [] }) })) d

/-- Table loads of the round just ended (R432). -/
def Dev.tableLoads (d : Dev) : Dev :=
  (d.cores.map Prod.fst).foldl (fun d c =>
    let r := (d.core c).staged.foldl (fun (a : Core × List Nat) l =>
      let y := a.1.applyLoad l
      (y.1, if y.2 then a.2 ++ [l.task] else a.2)) (d.core c, [])
    r.2.foldl (fun d t => d.raise { code := 0x0602, cls := clsTask, kind := 0, unit := c, task := t, round := some (d.tb.round - 1) })
      (d.setCore c { r.1 with staged := [] })) d

/-! ### Jobs that stop, the halt -/

/-- STOP_JOB completes at the mark of R85, though a task in overrun still runs (R529). -/
def Dev.stopAnswers (d : Dev) (j : Nat) : Dev :=
  let x := d.job j
  if x.state == .stopping && !x.mayRun d.tb.round then
    x.stopCmds.foldl (fun d r => d.finishCmd j r stOk 0) (d.onJob j (fun x => { x with stopCmds := [] }))
  else d

/-- The tasks of a stopping job at its mark: none starts again; its transfers lose their generation (R85, R417). -/
def Dev.stopDue (d0 : Dev) (j : Nat) : Dev :=
  let d := d0.stopAnswers j
  let x := d.job j
  if x.state == .stopping && x.stopAt == some d.tb.round then
    let d1 := x.tasks.foldl (fun d p => d.onTask p.1 p.2 (fun k => if k.state == .ended || k.state == .held then { k with state := .stopped } else k)) d
    (d1.onJob j (fun x => { x with gen := (x.gen + 1) % 65536 })).dropStale
  else d

/-- R550: an ACTIVE job none of whose items is in a compute round stops at this mark. -/
def Dev.haltJob (d : Dev) (j : Nat) : Dev :=
  let busy := d.streams.any (fun p => p.2.job == j && p.2.state != .free && p.2.items.any (fun i => i.run.isSome && !(i.over (d.rounds p.1) d.tb.round)))
  if d.jobHalts j && !d.err.halted && (d.job j).state == .active && !busy then
    d.onJob j (fun x => { x with state := .stopping, stopAt := some d.tb.round })
  else d

/-- HALTED is set once every job has stopped; FAULT_N is driven low. -/
def Dev.haltDone (d : Dev) : Dev :=
  if d.err.halting && !d.err.halted && !(d.jobs.any (fun p => p.2.live)) then
    { d with err := { d.err with halted := true }, kindle := { d.kindle with faultN := false } }
  else d

/-- Crossing items, samples and targets that no program can still ask for. -/
def Dev.purgeOld (d : Dev) : Dev :=
  let oldest := (d.tasksHere.filterMap (fun p =>
    let k := d.task p.1 p.2
    if k.state == .running || k.state == .overrun then some k.progRound else if k.state == .held then some (k.progRound + 1) else none)).foldl min d.tb.round
  let kept := d.samples.filter (fun s => decide (oldest ≤ s.round + 1))
  { d with
    cross := mmap (fun _ q => { q with assigned := q.assigned.filter (fun p => decide (oldest ≤ p.1)) }) d.cross
    samples := kept
    links := mmap (fun _ x => { x with rx := x.rx.filter (fun y => !(y.fixed && y.judged && decide (thLand y.data < oldest))) }) d.links
    gov := { d.gov with shedRounds := d.gov.shedRounds.filter (fun r => decide (oldest ≤ r)) }
    jobs := mmap (fun _ j => { j with yieldRounds := j.yieldRounds.filter (fun r => decide (oldest ≤ r)) }) d.jobs
    bound := d.bound.filter (fun b => decide (oldest ≤ b.1))
    streams := mmap (fun _ s => { s with pos := s.pos.filter (fun p => decide (oldest ≤ p.round)), voids := s.voids.filter (fun v => decide (oldest ≤ v.1)) }) d.streams
    targets := d.targets.filter (fun t => (d.stream t.handle).state != .free || (d.stream t.handle).regAt.isSome || kept.any (fun s => s.handle == t.handle)) }

/-! ### The mark -/

/-- The accumulator entries that no task of their core names are cleared at every mark (R148). -/
def Dev.clearUnnamed (d : Dev) : Dev :=
  { d with cores := mmap (fun c x =>
      let es := (x.tasks.filter (fun p => p.2.state != .none)).flatMap (fun p => d.taskEntries c p.1)
      { x with acc := x.acc.filter (fun q => es.any (fun e => decide (e.1 ≤ q.1 / 32) && decide (q.1 / 32 < e.1 + e.2))) }) d.cores }

/-- A MAT_RUN that still waits for a take of the relay at a mark: its wait ends there with E_SLIP (R159). -/
def Dev.endTakeWait (d : Dev) (c t : Nat) : Dev :=
  let k := d.task c t
  match d.curWordOf c t with
  | none => d
  | some w =>
    let r := k.desc (bits (wArgs w) 0 12)
    let rng := d.weightRanges c t (k.view (d.weightIdx ⟨c, t, k.pc⟩ (mrWgt r)) false []) (mrK r) (mrN r)
    if wOpcode w = 2 ∧ k.wait.any (fun x => x.kind == .interlock) ∧ d.takeOpen c rng then
      let d1 := d.onCore c (fun x => { x with relay := { x.relay with takes := x.relay.takes.map (fun y =>
        if decide (y.got < y.count) && rng.any (overlaps ((y.dst : Nat), (y.dst + 512 * y.count : Nat))) then { y with late := true, bad := true } else y) } })
      retryD c (TaskEv.of (Fin.ofNat 8 t)) k.lastCycle isStallWait (d1.slip ⟨c, t, k.pc⟩ 255)
    else d

/-- R33 step 1 with the records of the round just ended, and step 2. -/
def Dev.markStart (d : Dev) : Dev :=
  let d1 := d.nextRound
  let d2 := d1.turnOver.foldLog
  let d3 := d2.tasksHere.foldl (fun d p => d.passMark p.1 p.2) d2
  let d4 := (d3.tasksHere.foldl (fun d p => d.endTakeWait p.1 p.2) d3).markShadows.onJobs Dev.stopUnstarted
  (d4.onJobs Dev.activateDue).applyVersions.clearUnnamed

/-- Steps 3 and 4: the governor's decisions, table loads, recoveries, state peaks. -/
def Dev.markDecide (d0 : Dev) (m : Measure) : Dev :=
  let hs (d : Dev) : List (Nat × List Nat) := (d.replaying d.tb.round).map (fun j => (j, d.handlesOf j))
  let dt := ((d0.onJobs Dev.endReplay).takeRecords d0.tb.round).tableLoads.handleRejects
  -- what the ember words of the round before have done, before a deregistration (R310)
  let d := ((dt.liveHandles.foldl Dev.emberStep dt).postpone).onReplays Dev.replayOutcomes
  let due := d.dueActions
  let e1 := d.handles.foldl Dev.endHalted (d, [])
  let e2 := due.foldl Dev.replayLimit e1
  let e3 := d.handles.foldl Dev.endFailed e2
  -- a replay takes its restores from the log (R559)
  let plan := ((e3.1.replaying e3.1.tb.round).flatMap e3.1.replayRestores).foldl (fun (p : Plan) x => p.add x.1 x.2.1 x.2.2) (planOf due e3.2)
  let runs := plan.filter (fun x => e3.1.ranSince x.1 x.2.1)
  let d1 := (plan.filter (fun x => !(e3.1.ranSince x.1 x.2.1))).foldl (fun d x => d.restoreState x.1 x.2.1) e3.1
  let f1 := d1.governFirst
  let done := (f1.handles.filter (fun h => !(plan.any (fun x => x.1 == h)))).foldl Dev.finishItems f1
  let d2 := done.postDones.governStep m (Dev.recover due runs)
  let d4 := ((hs d).foldl (fun d p => d.checkDecisions p.1 p.2) d2).onReplays Dev.checkInput
  let d5 := due.foldl Dev.unitRecovery d4.clearDue
  (d5.cores.map Prod.fst).foldl (fun d c => if (d.core c).stpeakClr || d.coreActive c then
    d.onCore c (fun x => x.clearPeaks.foldPeaks d.tb.round (fun _ k => k.state == .ended || k.state == .stopped) (d.keptCell c)) else d) d5.keepChecks

/-- What the programs of this mark's round read of each stream (R36), and the streams that are bound to port slots in it (R456). -/
def Dev.keepPos (d : Dev) : Dev :=
  let bs : List (Nat × Nat × Nat × Nat) := (d.streams.filter (fun p => p.2.state != .free && p.2.source == 1)).map (fun p => (d.tb.round, p.2.port, p.2.tdmSlot, p.1))
  let d1 : Dev := { d with bound := d.bound.filter (fun b => b.1 != d.tb.round) ++ bs }
  d1.handles.foldl (fun d h => d.onStream h (fun s =>
    { s with pos := s.pos.filter (fun p => p.round != d.tb.round) ++
        [{ round := d.tb.round, frame := s.frame, token := s.token, seg := s.seg, dlen := s.dlen }] })) d1

/-- Step 5, the completions, shipments and stops. -/
def Dev.markRun (d0 : Dev) : Dev :=
  let d1 := (d0.keepPos.onJobs Dev.haltJob).onJobs Dev.stopDue
  let d2 := d1.handles.foldl Dev.finishItems d1.scaleRecords
  let d3 := d2.onJobs Dev.advanceJob
  let logged := d3.log.round.filter (fun b => leAt b 8 8 == d3.tb.round)
  let d4 := d3.onJobs (fun d j => (d.ship j logged).mirrorLate j ((d.job j).actRound.getD 0))
  let d5 := (d4.postDones.portDiscards).onJobs Dev.settleStop
  let d6 := d5.haltDone.purgeOld
  ({ d6 with jobs := mmap (fun _ j => j.latchAdp) d6.jobs }.refreshSlices).onReplays Dev.replayTimeouts

/-- ROUND_MARK: after the seal of the round's cut, with the measurements of the round just ended (R602). -/
def roundMarkD (m : Measure) (d : Dev) : Dev :=
  if d.tb.running && d.tb.sealed == d.tb.nextMark + 1 then (d.markStart.markDecide m).markRun else d

def execRoundMark (m : Measure) (s : State) : Host.Outcome State Fault Refusal := onUp s (roundMarkD m)

end Sys2Proof.Machine
end

