-- ==== Sys2Proof/Machine/Dispatch.lean ====
section
/-! DEFINITION. Machine/Dispatch.lean: one arm per command: a direct call of its meaning. -/

namespace Sys2Proof.Machine

def exec (i : Instr) (s : State) : Host.Outcome State Fault Refusal :=
  match i with
  | .pwrGoodRise => Sys2Proof.Machine.execPwrGoodRise s
  | .pwrGoodFall => Sys2Proof.Machine.execPwrGoodFall s
  | .brdRstN => Sys2Proof.Machine.execBrdRstN s
  | .perstN asserted => Sys2Proof.Machine.execPerstN asserted s
  | .functionLevelReset => Sys2Proof.Machine.execFunctionLevelReset s
  | .pllLock => Sys2Proof.Machine.execPllLock s
  | .firmwareVerification => Sys2Proof.Machine.execFirmwareVerification s
  | .keySlotCheck => Sys2Proof.Machine.execKeySlotCheck s
  | .cisternTest failing => Sys2Proof.Machine.execCisternTest failing s
  | .wellTraining channel ok => Sys2Proof.Machine.execWellTraining channel ok s
  | .localReadiness ms => Sys2Proof.Machine.execLocalReadiness ms s
  | .wellZeroingDone => Sys2Proof.Machine.execWellZeroingDone s
  | .linkTrained l => Sys2Proof.Machine.execLinkTrained l s
  | .linkIdentify l nonce cert sig partnerLink baseRoot busy => Sys2Proof.Machine.execLinkIdentify l nonce cert sig partnerLink baseRoot busy s
  | .linkDown l => Sys2Proof.Machine.execLinkDown l s
  | .linkFlitReceive l fecOk corrected flit => Sys2Proof.Machine.execLinkFlitReceive l fecOk corrected flit s
  | .linkTransferArrival l now => Sys2Proof.Machine.execLinkTransferArrival l now s
  | .windowReject sent => Sys2Proof.Machine.execWindowReject sent s
  | .advertisement a => Sys2Proof.Machine.execAdvertisement a s
  | .mapConverged => Sys2Proof.Machine.execMapConverged s
  | .selfRoot => Sys2Proof.Machine.execSelfRoot s
  | .alignmentStart => Sys2Proof.Machine.execAlignmentStart s
  | .timeExchange l t1 t2 t3 t4 => Sys2Proof.Machine.execTimeExchange l t1 t2 t3 t4 s
  | .alignedReport id => Sys2Proof.Machine.execAlignedReport id s
  | .epochFlood epoch => Sys2Proof.Machine.execEpochFlood epoch s
  | .membershipReport id => Sys2Proof.Machine.execMembershipReport id s
  | .membershipVersionFlood version effRound roundLen => Sys2Proof.Machine.execMembershipVersionFlood version effRound roundLen s
  | .roundLenReport len id => Sys2Proof.Machine.execRoundLenReport len id s
  | .roundLenRefusal => Sys2Proof.Machine.execRoundLenRefusal s
  | .stagedReport compile dev => Sys2Proof.Machine.execStagedReport compile dev s
  | .activationRoundFlood compile round => Sys2Proof.Machine.execActivationRoundFlood compile round s
  | .stagingTimeout compile => Sys2Proof.Machine.execStagingTimeout compile s
  | .jobAbortFlood compile => Sys2Proof.Machine.execJobAbortFlood compile s
  | .recoveryNotice compile round everyDevice => Sys2Proof.Machine.execRecoveryNotice compile round everyDevice s
  | .mirrorShipment data => Sys2Proof.Machine.execMirrorShipment data s
  | .roundMark m => Sys2Proof.Machine.execRoundMark m s
  | .tagTimeout core task => Sys2Proof.Machine.execTagTimeout core task s
  | .taskWatchdog core task => Sys2Proof.Machine.execTaskWatchdog core task s
  | .vmcWatchdog => Sys2Proof.Machine.execVmcWatchdog s
  | .thermalTrip => Sys2Proof.Machine.execThermalTrip s
  | .powerTrip => Sys2Proof.Machine.execPowerTrip s
  | .intakeSeal => Sys2Proof.Machine.execIntakeSeal s
  | .nop core task => Sys2Proof.Machine.execNop core task s
  | .wEnd core task => Sys2Proof.Machine.execEnd core task s
  | .matRun core task ev => Sys2Proof.Machine.execMatRun core task ev s
  | .relay core task => Sys2Proof.Machine.execRelay core task s
  | .relayFlit core crcOk => Sys2Proof.Machine.execRelayFlit core crcOk s
  | .gateSet core task => Sys2Proof.Machine.execGateSet core task s
  | .eleRun core task ev => Sys2Proof.Machine.execEleRun core task ev s
  | .eleScan core task ev => Sys2Proof.Machine.execEleScan core task ev s
  | .convert core task ev => Sys2Proof.Machine.execConvert core task ev s
  | .redRun core task ev => Sys2Proof.Machine.execRedRun core task ev s
  | .pump core task => Sys2Proof.Machine.execPump core task s
  | .pumpReadRequest p bytes now => Sys2Proof.Machine.execPumpReadRequest p bytes now s
  | .pumpDrainStart p => Sys2Proof.Machine.execPumpDrainStart p s
  | .pumpTransferComplete p now deep => Sys2Proof.Machine.execPumpTransferComplete p now deep s
  | .release core task => Sys2Proof.Machine.execRelease core task s
  | .elasticWaitEnd core task cycle => Sys2Proof.Machine.execElasticWaitEnd core task cycle s
  | .interlockWaitEnd core task cycle => Sys2Proof.Machine.execInterlockWaitEnd core task cycle s
  | .tlyAdd core task => Sys2Proof.Machine.execTlyAdd core task s
  | .tlyWait core task => Sys2Proof.Machine.execTlyWait core task s
  | .tlyWaitSatisfied core task => Sys2Proof.Machine.execTlyWaitSatisfied core task s
  | .tlyWaitTimeout core task => Sys2Proof.Machine.execTlyWaitTimeout core task s
  | .summ core task => Sys2Proof.Machine.execSumm core task s
  | .branch core task => Sys2Proof.Machine.execBranch core task s
  | .wRepeat core task => Sys2Proof.Machine.execRepeat core task s
  | .smpReq core task => Sys2Proof.Machine.execSmpReq core task s
  | .specOpen core task => Sys2Proof.Machine.execSpecOpen core task s
  | .specCommit core task => Sys2Proof.Machine.execSpecCommit core task s
  | .specAbort core task => Sys2Proof.Machine.execSpecAbort core task s
  | .emberOut core task => Sys2Proof.Machine.execEmberOut core task s
  | .emberIn core task => Sys2Proof.Machine.execEmberIn core task s
  | .result core task now => Sys2Proof.Machine.execResult core task now s
  | .resultBacklogDrain kind ring => Sys2Proof.Machine.execResultBacklogDrain kind ring s
  | .window core task => Sys2Proof.Machine.execWindow core task s
  | .adaptSpan core task => Sys2Proof.Machine.execAdaptSpan core task s
  | .statFlush core task => Sys2Proof.Machine.execStatFlush core task s
  | .nanTrap core task word elem handle => Sys2Proof.Machine.execNanTrap core task word elem handle s
  | .errorRecordHandle => Sys2Proof.Machine.execErrorRecordHandle s
  | .scrubPatrol core bank corrected => Sys2Proof.Machine.execScrubPatrol core bank corrected s
  | .remoteWrite writer target off data => Sys2Proof.Machine.execRemoteWrite writer target off data s
  | .killScrubComplete j wellToo => Sys2Proof.Machine.execKillScrubComplete j wellToo s
  | .sliceScrubComplete sl => Sys2Proof.Machine.execSliceScrubComplete sl s
  | .expSlotRelease core slot => Sys2Proof.Machine.execExpSlotRelease core slot s
  | .tdmFrame p slots now => Sys2Proof.Machine.execTdmFrame p slots now s
  | .tdmMissingSync p now => Sys2Proof.Machine.execTdmMissingSync p now s
  | .tdmClockStop p now => Sys2Proof.Machine.execTdmClockStop p now s
  | .tdmStopRepeatFrame p now => Sys2Proof.Machine.execTdmStopRepeatFrame p now s
  | .tdmPlayRefill p route => Sys2Proof.Machine.execTdmPlayRefill p route s
  | .sqDoorbell ring hostidx now => Sys2Proof.Machine.execSqDoorbell ring hostidx now s
  | .iqDoorbell ring hostidx now => Sys2Proof.Machine.execIqDoorbell ring hostidx now s
  | .ringHostidxConsume result ring hostidx => Sys2Proof.Machine.execRingHostidxConsume result ring hostidx s
  | .ringRecordFetch intake ring record payload now => Sys2Proof.Machine.execRingRecordFetch intake ring record payload now s
  | .intakeRecord ring => Sys2Proof.Machine.execIntakeRecord ring s
  | .ringIrqHoldoff kind ring now => Sys2Proof.Machine.execRingIrqHoldoff kind ring now s
  | .loadImage image => Sys2Proof.Machine.execLoadImage image s
  | .loadStaged j => Sys2Proof.Machine.execLoadStaged j s
  | .stopJob => Sys2Proof.Machine.execStopJob s
  | .killJob => Sys2Proof.Machine.execKillJob s
  | .register => Sys2Proof.Machine.execRegister s
  | .deregister => Sys2Proof.Machine.execDeregister s
  | .resetMark => Sys2Proof.Machine.execResetMark s
  | .target tokens => Sys2Proof.Machine.execTarget tokens s
  | .bar2Write off data now => Sys2Proof.Machine.execBar2Write off data now s
  | .bar2WriteApply => Sys2Proof.Machine.execBar2WriteApply s
  | .bar2Read off n => Sys2Proof.Machine.execBar2Read off n s
  | .bar4Write off data => Sys2Proof.Machine.execBar4Write off data s
  | .bar4Read off n => Sys2Proof.Machine.execBar4Read off n s
  | .roundLenWrite value now => Sys2Proof.Machine.execRoundLenWrite value now s
  | .linkEnableWrite l en => Sys2Proof.Machine.execLinkEnableWrite l en s
  | .vmcLogTailWrite value => Sys2Proof.Machine.execVmcLogTailWrite value s
  | .errTailWrite value => Sys2Proof.Machine.execErrTailWrite value s
  | .ovrClr core task => Sys2Proof.Machine.execOvrClr core task s
  | .cisScrubClr core => Sys2Proof.Machine.execCisScrubClr core s
  | .stpeakClr core => Sys2Proof.Machine.execStpeakClr core s
  | .hqAttGo => Sys2Proof.Machine.execHqAttGo s
  | .attestationReport reachable => Sys2Proof.Machine.execAttestationReport reachable s
  | .vmcKeyGo => Sys2Proof.Machine.execVmcKeyGo s
  | .keyRequestComplete request => Sys2Proof.Machine.execKeyRequestComplete request s
  | .registerWrite off data => Sys2Proof.Machine.execRegisterWrite off data s
  | .tdmFrameSync p atExpected early now => Sys2Proof.Machine.execTdmFrameSync p atExpected early now s
  | .sliceScrubStart sl => Sys2Proof.Machine.execSliceScrubStart sl s
  | .weightRefetchComplete core => Sys2Proof.Machine.execWeightRefetchComplete core s
  | .fwFailRetryEnd => Sys2Proof.Machine.execFwFailRetryEnd s
  | .lateActivationReport compile dev => Sys2Proof.Machine.execLateActivationReport compile dev s
  | .shipmentCompleteReport mirror round => Sys2Proof.Machine.execShipmentCompleteReport mirror round s

end Sys2Proof.Machine
end

