-- ==== Sys2Proof/Safety.lean ====
section
/-! DEFINITION. Safety.lean: what claims about runs of the block are stated in. -/

namespace Sys2Proof

/-- A command goes through in a state: it answers a next state. -/
def Machine.Completes (c : Instr) (s : Machine.State) : Prop := ∃ t, Machine.exec c s = .next t

/-- A state after a number of steps, none of which stopped. -/
def Machine.RunsTo (n : Nat) (s t : Machine.State) : Prop :=
  (Host.Core.run core n s : Host.Outcome Machine.State Machine.Fault Machine.Refusal) = .next t

/-- What holds of the fuses and the flash of every part: four vendor keys, six key slots, a revoked slot is enrolled, FW_MIN is
a thermometer of 63 bits (R588, R589), and the flash is in its canonical form. -/
def Machine.Vault.Inv (v : Machine.Vault) : Prop :=
  v.vendor.length = 4 ∧ v.slots.length = 6 ∧ (∀ f ∈ v.slots, f.revoked = true → f.enrolled = true) ∧ v.fwMin ≤ 63 ∧
    Machine.Memory.wf v.flash = true

/-- Every memory of the device is in its canonical form: the well, the deep well's frames and each core's cistern. -/
def Machine.MemoriesCanonical (d : Machine.Dev) : Prop :=
  Machine.Memory.wf d.well = true ∧ Machine.Memory.wf d.deep = true ∧ ∀ c, Machine.Memory.wf (d.core c).mem = true

/-- What a state keeps of another whatever a command does to the block: the commands that wait, the fuses and the flash. -/
def Machine.Keeps (s t : Machine.State) : Prop := t.pending = s.pending ∧ t.vault = s.vault

/-- Kindling begins in `t` (R11, R573, R574, R576): the fuses are kept, every slice is KINDLING, and nothing else is left of what
the block held. -/
def Machine.StartsKindling (s t : Machine.State) : Prop :=
  Machine.Keeps s t ∧
    t.dev = { Machine.Dev.reset with
      free := s.dev.free
      kindle := t.dev.kindle
      slices := t.dev.slices } ∧
    t.dev.kindle.powered = true ∧ t.dev.kindle.outputsHiZ = false ∧ t.dev.kindle.pllLocked = false ∧ t.dev.kindle.localReady = false ∧
    t.dev.kindle.readyOut = false ∧ t.dev.kindle.crs = true ∧
    (∀ k, k < 4 → (t.dev.slice k).state = .kindling) ∧ t.dev.regs = [] ∧ t.dev.cores = [] ∧ t.dev.well = [] ∧
    t.dev.jobs = [] ∧ t.dev.streams = [] ∧ t.dev.links = [] ∧ t.dev.err = Machine.ErrBlock.reset ∧
    t.dev.log = Machine.LogBlock.reset ∧ t.dev.tb = Machine.TimeBase.reset

/-- A function reset takes effect (R519, R575): every job that held a slot is KILLED, TIME, membership and the states of links stay, and the
registers of the host block are at reset when no job was loaded. -/
def Machine.ResetsFunction (s t : Machine.State) : Prop :=
  Machine.Keeps s t ∧ (∀ j, (s.dev.job j).state ≠ .empty → (t.dev.job j).state = .killed) ∧
    (∀ j, (s.dev.job j).state = .empty → (t.dev.job j).state = .empty) ∧
    t.dev.tb = s.dev.tb ∧ t.dev.fabric = s.dev.fabric ∧ (∀ l, (t.dev.link l).state = (s.dev.link l).state) ∧
    (s.dev.anyLoaded = false → ∀ off, 0x100000 ≤ off → off < 0x200000 → t.dev.reg off = Machine.resetWord off)

/-- A received ACK is taken (R477): the flits up to it leave the replay buffer, and nothing new is numbered. -/
def Machine.AckTaken (x y : Machine.Link) (ack : Nat) : Prop :=
  y.acked = ack ∧ y.txSeq = x.txSeq ∧ y.replay = x.replay.filter (fun f =>
    decide (1 ≤ (Machine.bits (Machine.hdrOf f) 4 12 + 4096 - ack) % 4096) && decide ((Machine.bits (Machine.hdrOf f) 4 12 + 4096 - ack) % 4096 ≤ 2048))

/-- The word at a task's place has an opcode and the task can issue it: the firmware runs, the task runs on a core in service
for a live job, and no earlier word waits (R70, R85, R372). -/
def Machine.Issues (op : Nat) (core : Fin 256) (task : Fin 8) (word : Nat) (s : Machine.State) : Prop :=
  s.dev.up = true ∧ s.dev.taskRuns core task = true ∧ s.dev.curWordOf core task = some word ∧ Machine.wOpcode word = op ∧
    (s.dev.task core task).wait = none

/-- Words issue in order, each no earlier than its effective offset and after the word before it (R70). -/
def Machine.IssuedAs (k k' : Machine.Task) (word : Nat) : Prop :=
  k'.issued = true ∧ k.effOffset word ≤ k'.lastCycle ∧ (k.issued = true → k.lastCycle < k'.lastCycle) ∧
    (k'.lastCycle = k.effOffset word ∨ k'.lastCycle = k.lastCycle + 1)

/-- The sequencer goes on to the word `next`: past the last word of a REPEAT body the body runs again while iterations are left (R74). -/
def Machine.Jumps (k k' : Machine.Task) (next : Nat) : Prop :=
  (k.loop = none → k'.pc = next ∧ k'.loop = none) ∧
    (∀ l, k.loop = some l →
      (next ≤ l.last → k'.pc = next ∧ k'.loop = some l) ∧
      (l.last < next → 0 < l.left → k'.pc = l.first ∧ k'.loop = some { l with left := l.left - 1, iter := l.iter + 1 }) ∧
      (l.last < next → l.left = 0 → k'.pc = next ∧ k'.loop = none))

/-- A task goes on to the word `next`, and no word of it waits; where the round of its program withholds spans (R77, R347) its place may move on past one. -/
def Machine.Steers (d : Machine.Dev) (c k : Nat) (k' : Machine.Task) (next : Nat) : Prop :=
  k'.wait = none ∧ (d.shed ⟨c, k, (d.task c k).pc⟩ = false → d.yields ⟨c, k, (d.task c k).pc⟩ = false → Machine.Jumps (d.task c k) k' next)

/-- A command of a task's word that meets no uncorrectable word: what it lost and the words it corrected are counted, and nothing else comes of them. -/
def Machine.Undisturbed (e : TaskEv) (task : Fin 8) : Prop := e.task = task ∧ ∀ b a, e.det ≠ .eccUncorrectable b a

/-- The condition of a BRANCH on a 32-bit register (R72, R189): codes 0 EQZ, 1 NEZ, 2 LTZ, 3 GEZ, 4 GTZ, 5 LEZ. -/
def Machine.BranchHolds (code : Nat) (isFp : Bool) (cond : Nat) : Prop :=
  if isFp = true then
    if 0x7F800000 < code % 2 ^ 31 then cond = 1
    else if code % 2 ^ 31 = 0 then cond = 0 ∨ cond = 3 ∨ cond = 5
    else if code < 2 ^ 31 then cond = 1 ∨ cond = 3 ∨ cond = 4
    else cond = 1 ∨ cond = 2 ∨ cond = 5
  else if code = 0 then cond = 0 ∨ cond = 3 ∨ cond = 5
  else if code < 2 ^ 31 then cond = 1 ∨ cond = 3 ∨ cond = 4
  else cond = 1 ∨ cond = 2 ∨ cond = 5

/-- What a control word leaves of a task whatever it does to the sequencer's place. -/
def Machine.SameButPlace (k k' : Machine.Task) : Prop :=
  k' = { k with pc := k'.pc, loop := k'.loop, wait := k'.wait, lastCycle := k'.lastCycle, issued := k'.issued }

/-- Nothing but one task of one core differs between two states, the counts of accesses and the order of waits apart. -/
def Machine.OnlyTask (s t : Machine.State) (c k : Nat) : Prop :=
  Machine.Keeps s t ∧ t.dev = { s.dev with cores := t.dev.cores, cntNow := t.dev.cntNow, holds := t.dev.holds } ∧ (∀ x, x ≠ c → t.dev.core x = s.dev.core x) ∧
    t.dev.core c = { s.dev.core c with tasks := (t.dev.core c).tasks } ∧ ∀ y, y ≠ k → t.dev.task c y = s.dev.task c y

/-- Nothing holds an operation of a task: no elastic ring among its tensors fails its tag test, no earlier transfer of the task stands in the way,
and no earlier word of another task waits for the same engine (R145, R165, R376, R378). -/
def Machine.Unheld (d : Machine.Dev) (c k : Nat) (reads writes : List Nat) : Prop :=
  (∀ u ∈ (d.task c k).ringUses reads writes, d.ringFails c k u = true → (d.task c k).elastic u.1 = false) ∧
    d.interlocked c k (reads.flatMap (fun i => d.places c k i false)) (writes.flatMap (fun i => d.places c k i true)) = false ∧
    d.engineHeld ⟨c, k, (d.task c k).pc⟩ (d.wordAt c k (d.task c k).pc) = false

/-- What a wait that timed out leaves (R75, R379): its word is abandoned and the task goes on with the next one; the E_TAG_TIMEOUT record is
in the error ring where the ring had room, and no tally, job or time base changes. -/
def Machine.TimesOut (s t : Machine.State) (c : Fin 256) (k : Fin 8) (ring : Nat) : Prop :=
  Machine.Keeps s t ∧ Machine.SameButPlace (s.dev.task c k) (t.dev.task c k) ∧
    Machine.Steers s.dev c k (t.dev.task c k) ((s.dev.task c k).pc + 1) ∧
    (∀ i, Machine.mgetD (t.dev.core c).tallies i 0 = Machine.mgetD (s.dev.core c).tallies i 0) ∧ t.dev.jobs = s.dev.jobs ∧ t.dev.tb = s.dev.tb ∧
    (s.dev.err.head - s.dev.err.tail < 256 → Machine.mget t.dev.err.recs (s.dev.err.head % 256) = some (Machine.errBytes
      { code := 0x0503, kind := 0, task := k.val, unit := c.val
        corr := (s.dev.runningItems (s.dev.task c k).progRound (s.dev.opHandles c k (s.dev.task c k).pc)).isEmpty
        handle := (s.dev.opHandles c k (s.dev.task c k).pc).head?
        a := ring % 256 + 256 * (s.dev.runningItems (s.dev.task c k).progRound (s.dev.opHandles c k (s.dev.task c k).pc)).length
        b := s.dev.lowestSeq (s.dev.task c k).progRound (s.dev.opHandles c k (s.dev.task c k).pc) }
      s.dev.err.handling.isSome (s.dev.task c k).progRound s.dev.tb.now))

/-- A word of a job writes no sequence record beside its own effect (R240, R252): the job has no open generation that it could store into, or none
of its tasks keeps records in memory. -/
def Machine.Quiet (d : Machine.Dev) (j : Nat) : Prop :=
  (∀ p ∈ d.streams, p.2.job = j → p.2.specOpen = false) ∨ ∀ q ∈ (d.job j).tasks, d.walkDescs q.1 q.2 = []

/-- What an engine's word of some opcode leaves (R164, R183, R361): the task goes on with the next word, no byte outside the task's region changes
where no sequence record does, nor any accumulator or scale entry; of the summary registers at most a reduction's, of the counts at most an element program's. -/
def Machine.StaysInRegion (s t : Machine.State) (c : Fin 256) (k : Fin 8) (word op : Nat) : Prop :=
  Machine.Keeps s t ∧ Machine.Steers s.dev c k (t.dev.task c k) ((s.dev.task c k).pc + 1) ∧
    (Machine.Quiet s.dev (s.dev.task c k).job → t.dev.well = s.dev.well ∧
      ∀ x a, x ≠ c.val ∨ a < (s.dev.task c k).base ∨ (s.dev.task c k).bound ≤ a →
        Machine.memGet (t.dev.core x).mem a = Machine.memGet (s.dev.core x).mem a) ∧
    (∀ x, (t.dev.core x).acc = (s.dev.core x).acc ∧ (t.dev.core x).scale = (s.dev.core x).scale) ∧
    (∀ n, op ≠ 0x08 ∨ n ≠ Machine.bits (Machine.wArgs word) 12 4 → Machine.mget (t.dev.task c k).sums n = Machine.mget (s.dev.task c k).sums n) ∧
    (∀ n, op ≠ 0x05 ∨ n ≠ Machine.wDesc word → Machine.mget (t.dev.task c k).eleCnt n = Machine.mget (s.dev.task c k).eleCnt n)

/-- Static rings among an operation's tensors whose slot slips (R376). -/
def Machine.slipsOf (d : Machine.Dev) (c k : Nat) (reads writes : List Nat) : List (Nat × Bool) :=
  ((d.task c k).ringUses reads writes).filter (d.ringFails c k)

/-- The tensors that an element, reduction or sampler word reads and writes (R169, R178, R123, R183, R298), by its opcode. -/
def Machine.engineUses (k : Machine.Task) (word : Nat) : List Nat × List Nat :=
  let i := Machine.wDesc word
  let r := k.desc i
  let f := Machine.wFirst word
  if Machine.wOpcode word = 5 then
    if Machine.fld r 35 1 = 1 then ([f, f + 1], [f + 2])
    else (((List.range (Machine.epNin r)).filter (fun n => !Machine.bit (Machine.fld r 37 1) n)).map (fun n => f + n),
      (List.range (Machine.epNout r)).map (fun n => f + Machine.epNin r + n))
  else if Machine.wOpcode word = 6 then
    let low (n : Nat) : List Nat := if Machine.sdComp r && n != 0xFFFF then [n + 1] else []
    (Machine.present [Machine.sdXa r, Machine.sdXb r, Machine.sdCarry r, Machine.sdSeg r, Machine.sdSegPrev r] ++ low (Machine.sdCarry r),
      Machine.present [Machine.sdY r, Machine.sdYa r, Machine.sdCarryOut r] ++ low (Machine.sdY r) ++ low (Machine.sdYa r) ++ low (Machine.sdCarryOut r))
  else if Machine.wOpcode word = 7 then ([Machine.fld r 0 2], [Machine.fld r 2 2])
  else if Machine.wOpcode word = 8 then
    (if Machine.rdOp r = 5 then [Machine.rdSrc r, Machine.rdSrcM r, Machine.rdSrcS r] else [Machine.rdSrc r],
      Machine.present [Machine.rdDst r, Machine.rdDst2 r, Machine.rdDst3 r])
  else (if Machine.sqOp r = 0 then [Machine.sqSrc r, Machine.sqMeta r] else Machine.present [Machine.sqTable r], [Machine.sqDst r])

/-- A held engine word goes on (R165, R378): it runs to its end, from the cycle at which its wait ended on, in its task's region. -/
def Machine.GoesOn (s t : Machine.State) (c : Fin 256) (k : Fin 8) (cycle : Nat) : Prop :=
  Machine.Keeps s t ∧ Machine.Steers s.dev c k (t.dev.task c k) ((s.dev.task c k).pc + 1) ∧
    (t.dev.task c k).lastCycle = max (s.dev.task c k).lastCycle cycle ∧
    (Machine.Quiet s.dev (s.dev.task c k).job → t.dev.well = s.dev.well ∧
      ∀ x a, x ≠ c.val ∨ a < (s.dev.task c k).base ∨ (s.dev.task c k).bound ≤ a →
        Machine.memGet (t.dev.core x).mem a = Machine.memGet (s.dev.core x).mem a)

/-- A held engine word stays held by an elastic ring that fails its tag test (R378): its place stays, no byte changes, and a wait for that ring goes on
as it began. -/
def Machine.StaysHeld (s t : Machine.State) (c : Fin 256) (k : Fin 8) (word : Nat) : Prop :=
  Machine.Keeps s t ∧ t.dev = { s.dev with cores := t.dev.cores, cntNow := t.dev.cntNow, holds := t.dev.holds } ∧
    (t.dev.task c k).pc = (s.dev.task c k).pc ∧ (∀ x, (t.dev.core x).mem = (s.dev.core x).mem) ∧
    ∃ u ∈ (s.dev.task c k).ringUses (Machine.engineUses (s.dev.task c k) word).1 (Machine.engineUses (s.dev.task c k) word).2,
      s.dev.ringFails c k u = true ∧ (s.dev.task c k).elastic u.1 = true ∧
      ((t.dev.task c k).wait.map (·.kind)) = some (.ring u.1 u.2) ∧
      ∀ w, (s.dev.task c k).wait = some w → w.kind = .ring u.1 u.2 → (t.dev.task c k).wait = some w

/-- A device-class record starts a halt (R538, R543, R546, R550): nothing but the error ring, its interrupt and FAULT_N changes. -/
def Machine.StartsHalt (s t : Machine.State) (code : Nat) (faultN : Bool) : Prop :=
  Machine.Keeps s t ∧ t.dev.err.halting = true ∧ t.dev.err.halted = s.dev.err.halted ∧
    t.dev = { s.dev with
      err := t.dev.err
      out := t.dev.out
      msix := t.dev.msix
      kindle := { s.dev.kindle with faultN := faultN } } ∧
    (s.dev.err.head - s.dev.err.tail < 256 → t.dev.err.head = s.dev.err.head + 1 ∧ Machine.mget t.dev.err.recs (s.dev.err.head % 256) =
      some (Machine.errBytes { code := code, cls := 5, corr := false } s.dev.err.handling.isSome s.dev.tb.round s.dev.tb.now))

/-- An event of a port's line touches no core, job or stream, no other port, and no other source's queue (R457, R464, R465). -/
def Machine.PortAlone (s t : Machine.State) (p : Nat) : Prop :=
  Machine.Keeps s t ∧ t.dev.cores = s.dev.cores ∧ t.dev.jobs = s.dev.jobs ∧ t.dev.streams = s.dev.streams ∧ t.dev.well = s.dev.well ∧
    (∀ y, y ≠ p → t.dev.port y = s.dev.port y) ∧ ∀ k, k ≠ Machine.srcKey 0 p → t.dev.crossQ k = s.dev.crossQ k

/-- A value out of its range is discarded and reported as E_CFG_RANGE: nothing but the error ring and its interrupt changes. -/
def Machine.OutOfRange (s t : Machine.State) : Prop :=
  Machine.Keeps s t ∧ t.dev = { s.dev with err := t.dev.err, out := t.dev.out, msix := t.dev.msix } ∧ t.dev.err.tail = s.dev.err.tail ∧
    (s.dev.err.head - s.dev.err.tail < 256 → Machine.mget t.dev.err.recs (s.dev.err.head % 256) = some (Machine.errBytes
      { code := 0x0102 } s.dev.err.handling.isSome s.dev.tb.round s.dev.tb.now))

/-- A host ring's HOSTIDX takes a value `v` that keeps the entry count within the ring, and the doorbell of a ring that the host writes (kinds 0
and 2) is stamped when it moves the index; a count beyond the ring is E_CFG_RANGE (R524, R526). -/
def Machine.MovesHostIdx (s t : Machine.State) (kind n v now : Nat) : Prop :=
  let r := s.dev.ring (Machine.ringKey kind n)
  let count := if kind = 0 ∨ kind = 2 then Machine.sub32 v r.devIdx else Machine.sub32 r.devIdx v
  Machine.Keeps s t ∧ t.dev.cores = s.dev.cores ∧ t.dev.cross = s.dev.cross ∧
    (∀ k, k ≠ Machine.ringKey kind n → t.dev.ring k = s.dev.ring k) ∧
    (count ≤ s.dev.ringEntries kind n → t.dev.err = s.dev.err ∧
      t.dev.ring (Machine.ringKey kind n) = { r with
        hostIdx := v
        stamps := if (kind = 0 ∨ kind = 2) ∧ v ≠ r.hostIdx then
            r.stamps ++ [(v, if s.dev.tb.aligned = true then max s.dev.tb.now now else 0)] else r.stamps }) ∧
    (s.dev.ringEntries kind n < count → t.dev.ring (Machine.ringKey kind n) = r ∧
      (s.dev.err.head - s.dev.err.tail < 256 → Machine.mget t.dev.err.recs (s.dev.err.head % 256) = some (Machine.errBytes
        { code := 0x0102 } s.dev.err.handling.isSome s.dev.tb.round (max s.dev.tb.now now))))

/-- A host command at the front is done with: it and the undefined ones behind it leave, and no other job changes (R530). -/
def Machine.TakesCommand (s t : Machine.State) (rest : List Machine.HostCmd) (j : Nat) : Prop :=
  Machine.Keeps s t ∧ t.dev.cmds = rest.dropWhile Machine.HostCmd.undefined ∧ ∀ y, y ≠ j → t.dev.job y = s.dev.job y

/-- The completion of a job's host command goes out (R529, R535): on a completion ring with room and no backlog it is among what the
command adds to what the device writes. -/
def Machine.Answers (s t : Machine.State) (x : Machine.HostCmd) (j status code : Nat) : Prop :=
  (s.dev.ring (Machine.ringKey 1 j)).backlog = [] → s.dev.ringRoom 1 j = true →
    Machine.HostOut.entry 1 j (s.dev.ring (Machine.ringKey 1 j)).devIdx (Machine.withPhase (Machine.completionBytes
      { job := j, status := status, kind := 3, handle := 0xFFFF, code := code, item := x.index, ref := Machine.leAt x.bytes 8 8 } s.dev.tb.now) 31
      (s.dev.phase 1 j (s.dev.ring (Machine.ringKey 1 j)).devIdx)) ∈ t.dev.out.drop s.dev.out.length

/-- A stream's command touches its stream alone: no core, no job, no other handle (R311, R529). -/
def Machine.StreamOnly (s t : Machine.State) (rest : List Machine.HostCmd) (h : Nat) : Prop :=
  Machine.Keeps s t ∧ t.dev.cores = s.dev.cores ∧ t.dev.jobs = s.dev.jobs ∧ t.dev.cmds = rest.dropWhile Machine.HostCmd.undefined ∧
    ∀ y, y ≠ h → t.dev.stream y = s.dev.stream y

end Sys2Proof
end

