-- ==== Sys2Proof/Certificates/Slice0/Obligations.lean ====
section
/-! DEFINITION. Certificates/Slice0/Obligations.lean: the statements about the model, for the provers. -/

open Sys2Proof Sys2Proof.Machine

/-! ### The block as a whole -/

/-- A step with a command in front of the queue is that command's effect on the state with the queue's rest. -/
def Obligations.StepRunsFront : Prop :=
  ∀ (c : Instr) (rest : List Instr) (s : State), s.pending = c :: rest →
    step s = exec c { s with pending := rest }

/-- No command of the table stops the block, and none touches the queue: one step takes the front command off, and with
nothing queued the block stays as it is (the model's choice, entry 10). -/
def Obligations.EveryStepGoesOn : Prop :=
  ∀ s : State, (∃ t, step s = .next t ∧ t.pending = s.pending.tail) ∧ (s.pending = [] → step s = .next s)

/-- What a command does to everything but the queue does not depend on the commands that wait behind it. -/
def Obligations.CommandsIgnoreTheQueue : Prop :=
  ∀ (c : Instr) (q : List Instr) (s t : State), exec c s = .next t →
    exec c { s with pending := q } = .next { t with pending := q }

/-- R574, R588, R589: no command clears a fuse, in a part whose fuses are as every step keeps them. The vendor keys, their revocations and the seed stay; a slot that is enrolled
or revoked stays so; FW_MIN never falls; only KEY_REQUEST_COMPLETE changes the fuses or the flash at all. -/
def Obligations.FusesOnlyBlow : Prop :=
  ∀ (c : Instr) (s t : State), s.vault.Inv → exec c s = .next t →
    t.vault.vendor = s.vault.vendor ∧ t.vault.vendorRevoked = s.vault.vendorRevoked ∧ t.vault.seed = s.vault.seed ∧
    s.vault.fwMin ≤ t.vault.fwMin ∧
    (∀ (k : Nat) (f : KeyFuse), s.vault.slots[k]? = some f → ∃ g : KeyFuse, t.vault.slots[k]? = some g ∧
      (f.enrolled = true → g.enrolled = true) ∧ (f.revoked = true → g.revoked = true)) ∧
    ((∀ r, c ≠ .keyRequestComplete r) → t.vault = s.vault)

/-- What every step keeps of the fuses and the flash (R586, R588, R589, R591): four vendor keys and six key slots; a revoked slot
is an enrolled one; the thermometer FW_MIN has 63 bits; the flash is in its canonical form. -/
def Obligations.StepsKeepVaultInvariant : Prop :=
  ∀ s t : State, s.vault.Inv → step s = .next t → t.vault.Inv

/-- What every step keeps of the memories: the well, the frames in the deep well and every cistern stay in their canonical form, so that equal
memories are equal data (the form is the model's; R364, R436 and R579 give the bytes). -/
def Obligations.StepsKeepMemoriesCanonical : Prop :=
  ∀ s t : State, MemoriesCanonical s.dev → step s = .next t → MemoriesCanonical t.dev

/-! ### Kindling and trust (spec/18) -/

/-- R573, R574, R576: the rising edge of PWR_GOOD and a pulse of BRD_RST_N start kindling with every slice KINDLING; a fall of
PWR_GOOD loses all state except fuses and makes the outputs high-impedance. -/
def Obligations.PowerInputsStartKindling : Prop :=
  ∀ s : State,
    (s.dev.kindle.powered = false → ∃ t, exec .pwrGoodRise s = .next t ∧ StartsKindling s t) ∧
    (s.dev.kindle.powered = true → ∃ t, exec .brdRstN s = .next t ∧ StartsKindling s t) ∧
    (∃ t, exec .pwrGoodFall s = .next t ∧ Keeps s t ∧ t.dev.kindle.powered = false ∧ t.dev.kindle.outputsHiZ = true ∧
      t.dev = { Dev.reset with free := s.dev.free })

/-- R519, R575: a Function Level Reset, and an assertion of PERST_N after local readiness, kill every job that is not EMPTY and
keep TIME, membership and the states of links; the host block's registers return to reset at once when no job was loaded. -/
def Obligations.FunctionResetKillsEveryJob : Prop :=
  ∀ s : State, s.dev.kindle.localReady = true →
    (∃ t, exec .functionLevelReset s = .next t ∧ ResetsFunction s t) ∧
    (s.dev.kindle.powered = true → ∃ t, exec (.perstN true) s = .next t ∧ ResetsFunction s t ∧ t.dev.kindle.crs = true)

/-- R575: the PCI Express link trains from each deassertion of PERST_N, and kindling goes on as it was. -/
def Obligations.PerstDeassertionTrainsTheHostLink : Prop :=
  ∀ s : State, s.dev.kindle.powered = true →
    exec (.perstN false) s = .next { s with dev := { s.dev with kindle := { s.dev.kindle with
      linkTrained := true
      crs := !(s.dev.kindle.localReady || s.dev.kindle.retryEnded) } } }

/-- R576, R578, R581: three steps of kindling set their one status and leave everything else alone. -/
def Obligations.KindlingStepsSetOneStatus : Prop :=
  ∀ s : State,
    (s.dev.kindle.powered = true → exec .pllLock s =
      .next { s with dev := { s.dev with kindle := { s.dev.kindle with pllLocked := true } } }) ∧
    (s.dev.kindle.fwFail = true → exec .fwFailRetryEnd s =
      .next { s with dev := { s.dev with kindle := { s.dev.kindle with retryEnded := true, crs := false } } }) ∧
    (s.dev.kindle.fwOk = true → s.dev.kindle.wellDone = true → exec .wellZeroingDone s =
      .next { s with dev := { s.dev with kindle := { s.dev.kindle with zeroed := true } } })

/-- R578, R588: the boot ROM tries slot A first and slot B when slot A is not accepted; with neither accepted it sets FW_FAIL and
HALTED, writes an E_FW_VERIFY record of class DEVICE and drives FAULT_N low. -/
def Obligations.BootRomTriesSlotAThenB : Prop :=
  ∀ s : State, s.dev.kindle.pllLocked = true → s.dev.kindle.fwDone = false → s.dev.err = ErrBlock.reset →
    ∃ t, exec .firmwareVerification s = .next t ∧ Keeps s t ∧ t.dev.kindle.fwDone = true ∧
      (s.vault.fwAccepts 0 = true → t.dev.kindle.fwOk = true ∧ t.dev.kindle.fwSlotB = false ∧
        t.dev.kindle.fwDigest = s.vault.fwDigest 0 ∧ t.dev.err = s.dev.err) ∧
      (s.vault.fwAccepts 0 = false → s.vault.fwAccepts 1 = true → t.dev.kindle.fwOk = true ∧ t.dev.kindle.fwSlotB = true ∧
        t.dev.kindle.fwDigest = s.vault.fwDigest 1 ∧ t.dev.err = s.dev.err) ∧
      (s.vault.fwAccepts 0 = false → s.vault.fwAccepts 1 = false → t.dev.kindle.fwFail = true ∧ t.dev.kindle.faultN = false ∧
        t.dev.kindle.fwOk = s.dev.kindle.fwOk ∧ t.dev.err.halted = true ∧ t.dev.err.head = 1 ∧
        mget t.dev.err.recs 0 = some (errBytes { code := 0x0B01, cls := clsDevice, corr := false } false s.dev.tb.round s.dev.tb.now))

/-- R589, R592, R594: at step 3 a key slot is usable when it is enrolled, not revoked and its key in the key block has the fused
digest; the identity is the digest of the certificate that the device presents. -/
def Obligations.KeySlotCheckFindsUsableSlots : Prop :=
  ∀ s : State, s.dev.kindle.fwOk = true → s.dev.kindle.keysDone = false →
    ∃ t, exec .keySlotCheck s = .next t ∧ Keeps s t ∧ t.dev.kindle.keysDone = true ∧
      (∀ k, k < 6 → (bit t.dev.trust.usable k = true ↔ ∃ f : KeyFuse, s.vault.slots[k]? = some f ∧ f.enrolled = true ∧
        f.revoked = false ∧ sha3 (s.vault.blockKey k) = f.digest)) ∧
      t.dev.trust.publicKey = mldsaPublicKey s.vault.seed ∧ t.dev.trust.identity = sha3 t.dev.trust.cert

/-- R579: the cistern test leaves every bank zero in role ACT, and retires each core with a failing cell. -/
def Obligations.CisternTestZeroesAndRetires : Prop :=
  ∀ (failing : List (Fin 256)) (s : State), s.dev.kindle.fwOk = true → s.dev.kindle.bistDone = false →
    ∃ t, exec (.cisternTest failing) s = .next t ∧ Keeps s t ∧ t.dev.kindle.bistDone = true ∧
      (∀ c, c < 256 → (t.dev.core c).mem = [] ∧ (t.dev.core c).roles = [] ∧ (t.dev.core c).maint = true) ∧
      (∀ c : Fin 256, t.dev.coreRetired c = (s.dev.coreRetired c || failing.contains c))

/-- R580: a channel that trains is marked so; the first failure of a channel is tried once more; a second one sets its bit of
WELL_FAIL, contains the channel's slice and raises E_WELL_TRAIN of class SLICE. -/
def Obligations.WellTrainingTriesTwice : Prop :=
  ∀ (ch : Fin 8) (s : State), s.dev.kindle.fwOk = true → bit s.dev.kindle.wellOk ch = false →
    bit s.dev.kindle.wellFail ch = false →
    (exec (.wellTraining ch true) s =
      .next { s with dev := { s.dev with kindle := { s.dev.kindle with wellOk := s.dev.kindle.wellOk + 2 ^ ch.val } } }) ∧
    (bit s.dev.kindle.wellTried ch = false → exec (.wellTraining ch false) s =
      .next { s with dev := { s.dev with kindle := { s.dev.kindle with wellTried := s.dev.kindle.wellTried + 2 ^ ch.val } } }) ∧
    (bit s.dev.kindle.wellTried ch = true → s.dev.err.head - s.dev.err.tail < 256 →
      ∃ t, exec (.wellTraining ch false) s = .next t ∧ Keeps s t ∧
        t.dev.kindle = { s.dev.kindle with wellFail := s.dev.kindle.wellFail + 2 ^ ch.val } ∧
        (t.dev.slice (ch.val / 2)).state = .contained ∧ t.dev.err.head = s.dev.err.head + 1 ∧
        mget t.dev.err.recs (s.dev.err.head % 256) = some (errBytes { code := 0x0B03, cls := clsSlice, corr := false, kind := 7, unit := ch.val }
          s.dev.err.handling.isSome s.dev.tb.round s.dev.tb.now))

/-- R576, R577, R579, R583: once steps 3, 4 and 5 are done the device is locally ready: READY_OUT and LOCAL_READY are set, Configuration
Request Retry Status ends, MAINT becomes 0 on every core that is not retired, a KINDLING slice becomes READY and the change is
advertised. -/
def Obligations.LocalReadinessOpensTheDevice : Prop :=
  ∀ (ms : Nat) (s : State), s.dev.kindle.keysDone = true → s.dev.kindle.bistDone = true → s.dev.kindle.wellDone = true →
    s.dev.kindle.localReady = false →
    ∃ t, exec (.localReadiness ms) s = .next t ∧ Keeps s t ∧
      t.dev.kindle = { s.dev.kindle with localReady := true, localMs := ms, readyOut := true, crs := false } ∧
      (∀ c, c < 256 → (t.dev.core c).maint = s.dev.coreRetired c ∧ (t.dev.core c).mem = (s.dev.core c).mem) ∧
      (∀ k, (s.dev.slice k).state = .kindling → (t.dev.slice k).state = .ready) ∧
      (∀ k, (s.dev.slice k).state ≠ .kindling → (t.dev.slice k).state = (s.dev.slice k).state) ∧
      t.dev.jobs = s.dev.jobs ∧ t.dev.err = s.dev.err ∧
      ∃ a, t.dev.fabric.sends = s.dev.fabric.sends ++ [.advert a] ∧ a.localReady = true

/-- R599, R600: GO submits the request at VMC_KEY_ADDR; while one is BUSY a second GO is discarded and sets ERR to 1. -/
def Obligations.KeyGoSubmitsOneRequest : Prop :=
  ∀ s : State, s.dev.kindle.localReady = true →
    (s.dev.trust.keyState ≠ 1 → exec .vmcKeyGo s = .next { s with dev := { s.dev with trust := { s.dev.trust with
      keyState := 1
      keyErr := 0
      keyAddr := s.dev.reg 0x5020 / 4096 * 4096 } } }) ∧
    (s.dev.trust.keyState = 1 → exec .vmcKeyGo s = .next { s with dev := { s.dev with trust := { s.dev.trust with keyErr := 1 } } })

/-- R590, R591: an accepted enrolment blows the slot's fuses, writes its key into the key block, makes the change effective at once
and draws a new nonce; a request that is refused ends in ERROR and changes no fuse. -/
def Obligations.KeyRequestEnrolsOrIsRefused : Prop :=
  ∀ (r : Bytes) (s : State), s.vault.Inv → s.dev.trust.keyState = 1 →
    ∃ t, exec (.keyRequestComplete (some r)) s = .next t ∧ t.pending = s.pending ∧ t.dev.trust.keyEv = true ∧
      (keyRequestErr s.vault s.dev r = 0 → t.dev.trust.keyState = 2 ∧ t.dev.trust.keyErr = 0 ∧
        t.dev.trust.nonce = drawNonce s.dev.free ∧ t.dev.trust.usable = t.vault.usableMask ∧
        (leAt r 0 1 = 1 →
          t.vault.slots[leAt r 1 1]? = some ⟨sha3 (sliceZ r 80 1312), true, false⟩ ∧
          t.vault.blockKey (leAt r 1 1) = sliceZ r 80 1312) ∧
        (leAt r 0 1 = 5 → t.vault = { s.vault with fwMin := leAt r 2 1 })) ∧
      (keyRequestErr s.vault s.dev r ≠ 0 → t.dev.trust.keyState = 3 ∧ t.vault = s.vault ∧ t.dev.trust.usable = s.dev.trust.usable)

/-- R537, R595: GO makes the attestation block BUSY; the report then reaches the host's buffer with LENGTH 7,628 when the device
holds a certificate and the buffer can be reached, else STATE becomes ERROR. -/
def Obligations.AttestationReportsOnce : Prop :=
  ∀ s : State,
    (s.dev.kindle.localReady = true → s.dev.trust.attState ≠ 1 → exec .hqAttGo s =
      .next { s with dev := { s.dev with trust := { s.dev.trust with attState := 1, attErr := 0 } } }) ∧
    (s.dev.trust.attState = 1 → leAt s.dev.trust.cert 0 4 = 0x54524348 →
      (∃ t, exec (.attestationReport true) s = .next t ∧ Keeps s t ∧ t.dev.trust.attState = 2 ∧ t.dev.trust.attLen = 7628 ∧
        t.dev.out.take (s.dev.out.length + 1) = s.dev.out ++ [.report (s.dev.reg 0x101220 / 4096 * 4096)
          (attBody s.vault s.dev ++ sliceZ (mldsaSign s.vault.seed (drawNonce s.dev.free) (sha3 (attBody s.vault s.dev))) 0 2420)]) ∧
      (∃ t, exec (.attestationReport false) s = .next t ∧ Keeps s t ∧ t.dev.trust.attState = 3))

/-! ### Links and the fabric (spec/15, spec/02) -/

/-- R490, R491, R500: a link that ends TRAINING identifies itself with fresh sequence numbers; an accepted exchange makes it MEMBER and names
its partner; between two time bases the device of the base that does not survive leaves it if no job is loaded on it, and else the link stays in
IDENTIFY with an E_FAB_MERGE record; an exchange that is not accepted leaves it FAILED_ID with an E_LINK_ID record. No other link changes. -/
def Obligations.LinksTrainThenIdentify : Prop :=
  ∀ (l : Fin 36) (s : State), s.dev.up = true →
    ((s.dev.link l).state = 1 → s.dev.linkEn l = true → s.dev.linkUp l = true →
      ∃ t, exec (.linkTrained l) s = .next t ∧ Keeps s t ∧
        t.dev.link l = { s.dev.link l with state := 2, txSeq := 0, acked := 0, rxLast := 0, nak := false, naks := 0 } ∧
        (∀ k, k ≠ l.val → t.dev.link k = s.dev.link k) ∧ t.dev.tb = s.dev.tb ∧ t.dev.jobs = s.dev.jobs ∧ t.dev.cores = s.dev.cores ∧
        ∃ a, t.dev.fabric.sends = s.dev.fabric.sends ++ [.advert a]) ∧
    (∀ (nonce cert sig base : Bytes) (pl : Fin 36) (busy : Bool), (s.dev.link l).state = 2 → (s.dev.link l).merge = false →
      ((s.dev.trust.certOk cert = true ∧ mldsaVerify (sliceZ cert 64 1312) (nonce ++ drawNonce s.dev.free) sig = true ∧
          sha3 cert ≠ s.dev.trust.identity ∧ (s.dev.tb.aligned = false ∨ base = [] ∨ base = s.dev.tb.baseRoot)) →
        ∃ t, exec (.linkIdentify l nonce cert sig pl base busy) s = .next t ∧ Keeps s t ∧
          (t.dev.link l).state = 3 ∧ (t.dev.link l).partnerId = sha3 cert ∧ (t.dev.link l).partnerLink = pl.val ∧
          (∀ k, k ≠ l.val → t.dev.link k = s.dev.link k) ∧ t.dev.err = s.dev.err) ∧
      (s.dev.trust.certOk cert = true → mldsaVerify (sliceZ cert 64 1312) (nonce ++ drawNonce s.dev.free) sig = true →
          sha3 cert ≠ s.dev.trust.identity → s.dev.tb.aligned = true → base ≠ [] → base ≠ s.dev.tb.baseRoot →
        ((if idLt s.dev.tb.baseRoot base = true then busy = false else s.dev.anyLoaded = false) →
          ∃ t, exec (.linkIdentify l nonce cert sig pl base busy) s = .next t ∧ Keeps s t ∧ (t.dev.link l).state = 3 ∧
            (t.dev.link l).partnerId = sha3 cert ∧ (∀ k, k ≠ l.val → t.dev.link k = s.dev.link k) ∧ t.dev.err = s.dev.err ∧
            t.dev.tb.aligned = idLt s.dev.tb.baseRoot base) ∧
        ((if idLt s.dev.tb.baseRoot base = true then busy = true else s.dev.anyLoaded = true) → s.dev.err.head - s.dev.err.tail < 256 →
          ∃ t, exec (.linkIdentify l nonce cert sig pl base busy) s = .next t ∧ Keeps s t ∧ t.dev.tb = s.dev.tb ∧
            t.dev.link l = { s.dev.link l with partnerId := sha3 cert, partnerLink := pl.val, partnerBase := base, merge := true } ∧
            (∀ k, k ≠ l.val → t.dev.link k = s.dev.link k) ∧ t.dev.err.head = s.dev.err.head + 1 ∧
            mget t.dev.err.recs (s.dev.err.head % 256) = some (errBytes { code := 0x0907, kind := 3, unit := l.val }
              s.dev.err.handling.isSome s.dev.tb.round s.dev.tb.now))) ∧
      ((s.dev.trust.certOk cert = false ∨ mldsaVerify (sliceZ cert 64 1312) (nonce ++ drawNonce s.dev.free) sig = false) →
        s.dev.err.head - s.dev.err.tail < 256 →
        ∃ t, exec (.linkIdentify l nonce cert sig pl base busy) s = .next t ∧ Keeps s t ∧
          t.dev.link l = { s.dev.link l with state := 4, idEv := true } ∧ (∀ k, k ≠ l.val → t.dev.link k = s.dev.link k) ∧
          t.dev.err.head = s.dev.err.head + 1 ∧ mget t.dev.err.recs (s.dev.err.head % 256) =
            some (errBytes { code := 0x0903, kind := 3, unit := l.val } s.dev.err.handling.isSome s.dev.tb.round s.dev.tb.now)))

/-- R478, R491, R507: a link that goes DOWN discards its replay buffer, what waits to be sent and its BULK transfers in part, is counted, writes
E_LINK_DOWN and retrains while EN is 1, and a FAILED_ID link stays so; EN written 0 holds it DOWN, EN written 1 trains it; while a loaded job's routes use the link a
write of 0 is refused. A FIXED transfer in part stays to be judged at its release tick (R482). -/
def Obligations.LinkDownAndEnable : Prop :=
  ∀ (l : Fin 36) (s : State),
    ((s.dev.link l).state = 0 ∨ (s.dev.link l).state = 4 → exec (.linkDown l) s = .next s) ∧
    (s.dev.up = true → (s.dev.link l).state ≠ 0 → (s.dev.link l).state ≠ 4 →
      ∃ t, exec (.linkDown l) s = .next t ∧ Keeps s t ∧ (t.dev.link l).partnerId = [] ∧ (t.dev.link l).replay = [] ∧ (t.dev.link l).queue = [] ∧ (t.dev.link l).downEv = true ∧
        (t.dev.link l).rx = (s.dev.link l).rx.filter (fun y => y.whole || y.fixed) ∧
        (t.dev.link l).state = (if s.dev.linkEn l && s.dev.linkUp l then 1 else 0) ∧
        (∀ k, k ≠ l.val → t.dev.link k = s.dev.link k) ∧
        (s.dev.err.head - s.dev.err.tail < 256 → mget t.dev.err.recs (s.dev.err.head % 256) =
          some (errBytes { code := 0x0902, kind := 3, unit := l.val } s.dev.err.handling.isSome s.dev.tb.round s.dev.tb.now)) ∧
        mgetD t.dev.cntNow ((linkOff l + 0x10) * 64 + 48) 0 = mgetD s.dev.cntNow ((linkOff l + 0x10) * 64 + 48) 0 + 1) ∧
    (s.dev.kindle.localReady = true → s.dev.linkRuns l = false → s.dev.linkEn l = true →
      ∃ t, exec (.linkEnableWrite l false) s = .next t ∧ Keeps s t ∧ t.dev.linkEn l = false ∧ (t.dev.link l).state = 0) ∧
    (s.dev.kindle.localReady = true → s.dev.linkRuns l = false → s.dev.linkEn l = false → s.dev.linkUp l = true →
      ∃ t, exec (.linkEnableWrite l true) s = .next t ∧ Keeps s t ∧ t.dev.linkEn l = true ∧ (t.dev.link l).state = 1 ∧
        t.dev.err = s.dev.err) ∧
    (s.dev.kindle.localReady = true → s.dev.linkRuns l = true → s.dev.linkEn l = true →
      exec (.linkEnableWrite l false) s = 
        .next { s with dev := s.dev.raise (recCfgLocked (linkOff l) (putBits (s.dev.reg (linkOff l)) 0 1 0)) })

/-- R477, R478: a codeword that FEC cannot correct and a flit whose CRC does not match are discarded: no transfer takes their bytes, and an IDLE
flit with NAK and the last in-order SEQ goes back. A good flit's ACK empties the replay buffer as far as it goes, and its NAK sends the rest
again, the sixteenth for one SEQ taking the link DOWN. A data or CONTROL flit with the next SEQ moves the last in-order SEQ on: on a MEMBER link a data flit whose
route ends here begins a transfer or goes on with the newest of its route, and one that goes on to another MEMBER link is sent there as it came;
a link that is not MEMBER carries none (R490). A
duplicate moves nothing, and a flit too far ahead is answered with NAK. An IDLE flit carries no SEQ. -/
def Obligations.LinkReceiverTakesFlitsInOrder : Prop :=
  ∀ (l : Fin 36) (n : Nat) (flit : Bytes) (s : State), s.dev.up = true → s.dev.linkUp l = true →
    ((s.dev.link l).state = 2 ∨ (s.dev.link l).state = 3) →
    (∀ ok : Bool, (ok = false ∨ leAt flit 636 4 ≠ crc32c (flit.take 636)) →
      ∃ t, exec (.linkFlitReceive l ok n flit) s = .next t ∧ t.dev = { s.dev with links := t.dev.links, cntNow := t.dev.cntNow } ∧ Keeps s t ∧
        t.dev.link l = { s.dev.link l with
          sent := (s.dev.link l).sent ++ [mkFlit 0 (s.dev.link l).txSeq (s.dev.link l).rxLast true 0 0 false false []]
          nak := false } ∧
        (∀ k, k ≠ l.val → t.dev.link k = s.dev.link k)) ∧
    (∀ (type seq ack route gap : Nat) (nak : Bool) (payload : Bytes), leAt flit 636 4 = crc32c (flit.take 636) →
      type = bits (hdrOf flit) 0 4 → type ≤ 3 → seq = bits (hdrOf flit) 4 12 → ack = bits (hdrOf flit) 16 12 → nak = bit (hdrOf flit) 28 →
      route = bits (hdrOf flit) 32 16 → payload = (flit.drop 8).take (bits (hdrOf flit) 48 10) →
      gap = (seq + 4096 - (s.dev.link l).rxLast) % 4096 → (s.dev.link l).queue = [] →
      (nak = true → 15 ≤ (s.dev.link l).naks → ack = (s.dev.link l).acked →
        ∃ t, exec (.linkFlitReceive l true n flit) s = .next t ∧ Keeps s t ∧ (t.dev.link l).replay = [] ∧ (t.dev.link l).queue = [] ∧
          (t.dev.link l).downEv = true ∧ (t.dev.link l).rx = (s.dev.link l).rx.filter (fun y => y.whole || y.fixed) ∧
          (t.dev.link l).state = (if s.dev.linkEn l && s.dev.linkUp l then 1 else 0)) ∧
      ((nak = true → ack = (s.dev.link l).acked → (s.dev.link l).naks < 15) →
        (type = 0 →
          ∃ t, exec (.linkFlitReceive l true n flit) s = .next t ∧ t.dev = { s.dev with links := t.dev.links, cntNow := t.dev.cntNow } ∧ Keeps s t ∧
            AckTaken (s.dev.link l) (t.dev.link l) ack ∧ (t.dev.link l).rxLast = (s.dev.link l).rxLast ∧ (t.dev.link l).rx = (s.dev.link l).rx ∧
            (t.dev.link l).sent = (s.dev.link l).sent ++ (if nak = true then (t.dev.link l).replay else []) ∧
            (∀ k, k ≠ l.val → t.dev.link k = s.dev.link k)) ∧
        (1 ≤ type → gap = 0 ∨ 2048 ≤ gap →
          ∃ t, exec (.linkFlitReceive l true n flit) s = .next t ∧ t.dev = { s.dev with links := t.dev.links, cntNow := t.dev.cntNow } ∧ Keeps s t ∧
            AckTaken (s.dev.link l) (t.dev.link l) ack ∧ (t.dev.link l).rxLast = (s.dev.link l).rxLast ∧ (t.dev.link l).rx = (s.dev.link l).rx ∧
            (t.dev.link l).sent = (s.dev.link l).sent ++ (if nak = true then (t.dev.link l).replay else []) ∧
            (∀ k, k ≠ l.val → t.dev.link k = s.dev.link k)) ∧
        (1 ≤ type → 2 ≤ gap → gap < 2048 →
          ∃ t, exec (.linkFlitReceive l true n flit) s = .next t ∧ t.dev = { s.dev with links := t.dev.links, cntNow := t.dev.cntNow } ∧ Keeps s t ∧
            AckTaken (s.dev.link l) (t.dev.link l) ack ∧ (t.dev.link l).rxLast = (s.dev.link l).rxLast ∧ (t.dev.link l).rx = (s.dev.link l).rx ∧
            (t.dev.link l).sent = (s.dev.link l).sent ++ (if nak = true then (t.dev.link l).replay else []) ++
              [mkFlit 0 (s.dev.link l).txSeq (s.dev.link l).rxLast true 0 0 false false []] ∧
            (∀ k, k ≠ l.val → t.dev.link k = s.dev.link k)) ∧
        (type = 3 → gap = 1 →
          ∃ t, exec (.linkFlitReceive l true n flit) s = .next t ∧ t.dev = { s.dev with links := t.dev.links, cntNow := t.dev.cntNow } ∧ Keeps s t ∧
            AckTaken (s.dev.link l) (t.dev.link l) ack ∧ (t.dev.link l).rxLast = seq ∧ (t.dev.link l).rx = (s.dev.link l).rx ∧
            (∀ k, k ≠ l.val → t.dev.link k = s.dev.link k)) ∧
        (type = 1 ∨ type = 2 → gap = 1 → (s.dev.link l).state = 2 →
          ∃ t, exec (.linkFlitReceive l true n flit) s = .next t ∧ t.dev = { s.dev with links := t.dev.links, cntNow := t.dev.cntNow } ∧ Keeps s t ∧
            AckTaken (s.dev.link l) (t.dev.link l) ack ∧ (t.dev.link l).rxLast = seq ∧ (t.dev.link l).rx = (s.dev.link l).rx ∧
            (∀ k, k ≠ l.val → t.dev.link k = s.dev.link k)) ∧
        (type = 1 ∨ type = 2 → gap = 1 → (s.dev.link l).state = 3 → ∀ (j : Nat) (r : Rec), s.dev.forwardOf route l = some (j, r) →
          (fld r 5 1 = 0xFF →
            ∃ t, exec (.linkFlitReceive l true n flit) s = .next t ∧ t.dev = { s.dev with links := t.dev.links, cntNow := t.dev.cntNow } ∧ Keeps s t ∧
              AckTaken (s.dev.link l) (t.dev.link l) ack ∧ (t.dev.link l).rxLast = seq ∧ (∀ k, k ≠ l.val → t.dev.link k = s.dev.link k) ∧
              (bit (hdrOf flit) 58 = true → ∃ y, (t.dev.link l).rx.getLast? = some y ∧ y.route = route ∧ y.data = payload ∧ y.link = l.val ∧
                y.path = fld r 1 1 ∧ y.fixed = decide (type = 1) ∧ y.judged = false ∧
                (y.whole = true ↔ bit (hdrOf flit) 59 = true ∧ payload.length = 48 + leAt payload 40 4)) ∧
              (∀ (old : List RxXfer) (y : RxXfer), bit (hdrOf flit) 58 = false → (s.dev.link l).rx = old ++ [y] → y.route = route →
                y.fixed = decide (type = 1) → y.whole = false → ∃ z, (t.dev.link l).rx = old ++ [z] ∧
                z = { y with data := y.data ++ payload, whole := z.whole } ∧
                (z.whole = true ↔ bit (hdrOf flit) 59 = true ∧ z.data.length = 48 + leAt z.data 40 4))) ∧
          (fld r 5 1 ≠ 0xFF → fld r 5 1 ≠ l.val → (s.dev.link (fld r 5 1)).state ≠ 3 →
            ∃ t, exec (.linkFlitReceive l true n flit) s = .next t ∧ t.dev = { s.dev with links := t.dev.links, cntNow := t.dev.cntNow } ∧
              Keeps s t ∧ (t.dev.link l).rxLast = seq ∧ (t.dev.link l).rx = (s.dev.link l).rx ∧ (∀ k, k ≠ l.val → t.dev.link k = s.dev.link k)) ∧
          (fld r 5 1 ≠ 0xFF → fld r 5 1 ≠ l.val → (s.dev.link (fld r 5 1)).state = 3 → (s.dev.link (fld r 5 1)).queue = [] → (s.dev.link (fld r 5 1)).replay.length < 256 →
            ∃ t f, exec (.linkFlitReceive l true n flit) s = .next t ∧ t.dev = { s.dev with links := t.dev.links, cntNow := t.dev.cntNow } ∧
              Keeps s t ∧ (t.dev.link l).rxLast = seq ∧ (t.dev.link l).rx = (s.dev.link l).rx ∧
              (t.dev.link (fld r 5 1)).sent = (s.dev.link (fld r 5 1)).sent ++ [f] ∧
              (t.dev.link (fld r 5 1)).replay = (s.dev.link (fld r 5 1)).replay ++ [f] ∧
              f = mkFlit type (((s.dev.link (fld r 5 1)).txSeq + 1) % 4096) (s.dev.link (fld r 5 1)).rxLast (s.dev.link (fld r 5 1)).nak
                route (bits (hdrOf flit) 48 10) (bit (hdrOf flit) 58) (bit (hdrOf flit) 59) ((flit.drop 8).take 624)))))

/-- R481, R482, R501, R502: the oldest whole transfer of a link is judged as it arrives. A FIXED one for a ring whose tick is still to come waits, on time or
late by its DEADLINE; one whose tick is over is dropped. A BULK one lands in its window when the window takes it, and in the well when a job of its
compile holds every byte; else it is dropped and a reject goes back; a FIXED one
for the well after its DEADLINE is dropped. A reject that names a transfer sent from here waits for the next mark. -/
def Obligations.TransfersAreJudgedOnArrival : Prop :=
  ∀ (l : Fin 36) (now k : Nat) (x : RxXfer) (s : State), s.dev.up = true → s.dev.linkUp l = true →
    (s.dev.link l).rx.findIdx? (fun x => x.whole && !x.judged) = some k → (s.dev.link l).rx[k]? = some x →
    (x.fixed = true → thWell x.data = false → (∀ c t ring, s.dev.landRing x = some (c, t, ring) → s.dev.ticked c t ring (thLand x.data) = false) →
      (now ≤ thDeadline x.data →
        exec (.linkTransferArrival l now) s = .next { s with dev := (s.dev.at_ now).onLink l (fun y =>
          { y with rx := lset y.rx k (fun x => { x with at_ := now, judged := true, late := false }) }) }) ∧
      (thDeadline x.data < now →
        ∃ t, exec (.linkTransferArrival l now) s = .next t ∧ Keeps s t ∧
          (t.dev.link l).rx = lset (s.dev.link l).rx k (fun x => { x with at_ := now, judged := true, late := true }) ∧
          t.dev.cores = s.dev.cores ∧ t.dev.well = s.dev.well)) ∧
    (x.fixed = true → thWell x.data = false → ∀ c t ring, s.dev.landRing x = some (c, t, ring) → s.dev.ticked c t ring (thLand x.data) = true →
      ∃ u, exec (.linkTransferArrival l now) s = .next u ∧ Keeps s u ∧
        (u.dev.link l).rx = ((s.dev.link l).rx.zipIdx.filter (fun p => p.2 != k)).map Prod.fst ∧
        (∀ y, (u.dev.core y).mem = (s.dev.core y).mem) ∧ u.dev.well = s.dev.well) ∧
    (x.fixed = false → thWell x.data = false →
      s.dev.sliceUp (thCore x.data / 64) = false ∨ mget (s.dev.core (thCore x.data)).windows (thWindow x.data) = none →
      ∃ t, exec (.linkTransferArrival l now) s = .next t ∧ Keeps s t ∧ t.dev.cores = s.dev.cores ∧ t.dev.well = s.dev.well ∧
        t.dev.fabric.sends = s.dev.fabric.sends ++ [.reject (thSrcDev x.data) (x.data.take 48)]) ∧
    (x.fixed = false → thWell x.data = false → s.dev.sliceUp (thCore x.data / 64) = true → ∀ win : Win,
      mget (s.dev.core (thCore x.data)).windows (thWindow x.data) = some win →
      (∀ n : Nat, (s.dev.at_ now).accepts (thCore x.data) x.writer
          ((s.dev.task (thCore x.data) win.owner).base + win.base + thAddr x.data) (thData x.data).length = some n →
        ∃ t, exec (.linkTransferArrival l now) s = .next t ∧ Keeps s t ∧ ∀ a,
          memGet (t.dev.core (thCore x.data)).mem a =
            (if (s.dev.task (thCore x.data) win.owner).base + win.base + thAddr x.data ≤ a ∧
                a < (s.dev.task (thCore x.data) win.owner).base + win.base + thAddr x.data + (thData x.data).length then
              (thData x.data).getD (a - ((s.dev.task (thCore x.data) win.owner).base + win.base + thAddr x.data)) 0
            else memGet (s.dev.core (thCore x.data)).mem a)) ∧
      ((s.dev.at_ now).accepts (thCore x.data) x.writer
          ((s.dev.task (thCore x.data) win.owner).base + win.base + thAddr x.data) (thData x.data).length = none →
        ∃ t, exec (.linkTransferArrival l now) s = .next t ∧ Keeps s t ∧ t.dev.cores = s.dev.cores ∧ t.dev.well = s.dev.well ∧
          t.dev.fabric.sends = s.dev.fabric.sends ++ [.reject (thSrcDev x.data) (x.data.take 48)])) ∧
    (x.fixed = true → thWell x.data = true → thDeadline x.data < now →
      ∃ t, exec (.linkTransferArrival l now) s = .next t ∧ Keeps s t ∧ t.dev.cores = s.dev.cores ∧ t.dev.well = s.dev.well ∧
        (t.dev.link l).rx = ((s.dev.link l).rx.zipIdx.filter (fun p => p.2 != k)).map Prod.fst) ∧
    (x.fixed = false ∨ now ≤ thDeadline x.data → thWell x.data = true → s.dev.anyCtlDown = false →
      thAddr x.data + thBytes x.data ≤ Config.wellBytes →
      (∀ j i r, (j, i) ∈ s.dev.jobs → i.loaded = true → i.state ≠ .killed → i.img = some r → r.compileId = thCompile x.data →
        r.wellRanges.any (fun w => decide (w.1 ≤ thAddr x.data) && decide (thAddr x.data + thBytes x.data ≤ w.1 + w.2)) = true →
        ∃ t, exec (.linkTransferArrival l now) s = .next t ∧ Keeps s t ∧ t.dev.cores = s.dev.cores ∧ ∀ a, memGet t.dev.well a =
          if thAddr x.data ≤ a ∧ a < thAddr x.data + thBytes x.data then (thData x.data).getD (a - thAddr x.data) 0 else memGet s.dev.well a) ∧
      ((∀ j i, (j, i) ∈ s.dev.jobs → i.loaded = false ∨ i.state = .killed ∨ ∀ r, i.img = some r → r.compileId ≠ thCompile x.data) →
        ∃ t, exec (.linkTransferArrival l now) s = .next t ∧ Keeps s t ∧ t.dev.cores = s.dev.cores ∧ t.dev.well = s.dev.well ∧
          t.dev.fabric.sends = s.dev.fabric.sends ++ [.reject (thSrcDev x.data) (x.data.take 48)])) ∧
    (∀ (sent : Nat) (y : Xfer), s.dev.fabric.sentXfers[sent]? = some y → exec (.windowReject sent) s =
      .next { s with dev := { s.dev with fabric := { s.dev.fabric with rejects := s.dev.fabric.rejects ++ [y] } } })

/-- R492, R493, R583: a newer advertisement replaces the one of its device in the map and goes on, and the device's own changes with it only where
a link between two time bases follows it (R500); an older one and the device's own have
no effect; on a converged map the root is the
member of the lowest identity, among the aligned members of the lowest base root where there are some (R500; entry 74); a device alone is its own root, with TIME 0 and EPOCH at
10 ms. -/
def Obligations.TheMapFindsTheRoot : Prop :=
  ∀ s : State, s.dev.up = true →
    (∀ a : Advert, a.identity ≠ s.dev.trust.identity → (∀ o, s.dev.advert? a.identity = some o → o.seq < a.seq) →
      ∃ t, exec (.advertisement a) s = .next t ∧ Keeps s t ∧ t.dev.advert? a.identity = some a ∧
        (∀ id, id ≠ a.identity → id ≠ s.dev.trust.identity → t.dev.advert? id = s.dev.advert? id) ∧
        ((∀ l x, (l, x) ∈ s.dev.links → x.merge = false) → t.dev.advert? s.dev.trust.identity = s.dev.advert? s.dev.trust.identity) ∧ Flood.advert a ∈ t.dev.fabric.sends ∧
        t.dev.kindle = s.dev.kindle ∧ t.dev.cores = s.dev.cores ∧ t.dev.well = s.dev.well) ∧
    (∀ a : Advert, (a.identity = s.dev.trust.identity ∨ ∃ o, s.dev.advert? a.identity = some o ∧ a.seq ≤ o.seq) →
      exec (.advertisement a) s = .next s) ∧
    (2 ≤ s.dev.fabric.map.length → s.dev.fabric.state = 1 → s.dev.tb.aligned = false →
      ∃ t, exec .mapConverged s = .next t ∧ Keeps s t ∧ t.dev.fabric.state = 2 ∧
        ((∀ a ∈ s.dev.fabric.map, a.aligned = true → a.identity = s.dev.trust.identity) →
          t.dev.fabric.root = lowestId (s.dev.fabric.map.map (·.identity))) ∧
        (∀ b : Bytes, (∃ a ∈ s.dev.fabric.map, a.aligned = true ∧ a.identity ≠ s.dev.trust.identity) →
          b = lowestId ((s.dev.fabric.map.filter (fun a => a.aligned && a.identity != s.dev.trust.identity)).map (·.baseRoot)) →
          t.dev.fabric.isRoot = false ∧ t.dev.fabric.root =
            lowestId ((s.dev.fabric.map.filter (fun a => a.aligned && a.identity != s.dev.trust.identity && a.baseRoot == b)).map (·.identity))) ∧
        (t.dev.fabric.isRoot = true ↔ t.dev.fabric.root = s.dev.trust.identity) ∧
        (t.dev.fabric.isRoot = true → t.dev.fabric.root ≠ s.dev.fabric.root → t.dev.tb.now = 0) ∧
        t.dev.fabric.map = s.dev.fabric.map) ∧
    (s.dev.tb.aligned = false → s.dev.kindle.keysDone = true →
      (∀ a ∈ s.dev.fabric.map, a.identity = s.dev.trust.identity) →
      ∃ t, exec .selfRoot s = .next t ∧ Keeps s t ∧ t.dev.fabric.isRoot = true ∧ t.dev.fabric.root = s.dev.trust.identity ∧
        t.dev.tb.now = 0 ∧ t.dev.tb.epoch = 10000000 ∧ t.dev.tb.aligned = true ∧ t.dev.tb.nextMark = 0 ∧ t.dev.fabric.state = 0)

/-- R497, R498, R584: the root of a converged map starts alignment; before EPOCH each exchange of another device with its parent steps TIME by −θ and
counts the exchanges in a row with |θ| up to 8 ns, the sixteenth of which it reports to the root and after which it steps no more; once every member that
takes part has reported, the root floods an EPOCH that is a multiple of 1 ms and lies at least 10 ms and 2 ms a hop ahead, and less than 1 ms more; a device
that the flood reaches is aligned at that EPOCH if it is LOCAL_READY, and one that joins a running base takes its marks and its round length (R500). An exchange of an aligned
device with its parent, or with the one that it takes when it holds over (R499), gives the offset that it slews by, and one of the root gives the hop delay alone. An odd difference has a θ on either side of its half (entry 4). -/
def Obligations.AlignmentReachesTheEpoch : Prop :=
  ∀ s : State, s.dev.up = true →
    (s.dev.fabric.isRoot = true → s.dev.tb.aligned = false → s.dev.fabric.aligning = false → s.dev.kindle.localReady = true →
      exec .alignmentStart s = .next { s with dev := { s.dev with fabric := { s.dev.fabric with
        aligning := true
        alignedReports := [] } } }) ∧
    (∀ (l : Fin 36) (t1 t2 t3 t4 : Nat), (s.dev.link l).state = 3 →
      ∃ (t : State) (theta delay : Int), exec (.timeExchange l t1 t2 t3 t4) s = .next t ∧ Keeps s t ∧
        |2 * theta - (((t2 : Int) - t1) - ((t4 : Int) - t3))| ≤ 1 ∧ |2 * delay - (((t2 : Int) - t1) + ((t4 : Int) - t3))| ≤ 1 ∧
        (t.dev.link l).latency = delay.toNat % 65536 ∧ (∀ k, k ≠ l.val → t.dev.link k = s.dev.link k) ∧ t.dev.jobs = s.dev.jobs ∧
        t.dev.cores = s.dev.cores ∧
        (s.dev.fabric.isRoot = true → t.dev.tb = s.dev.tb ∧ t.dev.fabric = s.dev.fabric) ∧
        (s.dev.fabric.isRoot = false → s.dev.tb.parent = l.val → s.dev.tb.aligned = true → s.dev.tb.state ≠ 3 →
          t.dev.tb = { s.dev.tb with offset := theta } ∧ t.dev.fabric = s.dev.fabric) ∧
        (s.dev.fabric.isRoot = false → s.dev.tb.parent ≠ l.val ∨ s.dev.tb.state = 3 → s.dev.tb.aligned = true → s.dev.chooseParent = l.val →
          t.dev.tb = { s.dev.tb with parent := l.val, state := 2, offset := theta } ∧ t.dev.fabric = s.dev.fabric) ∧
        (s.dev.fabric.isRoot = false → s.dev.tb.parent = l.val → s.dev.tb.aligned = false → 16 ≤ s.dev.tb.good →
          t.dev.tb = { s.dev.tb with offset := theta } ∧ t.dev.fabric = s.dev.fabric) ∧
        (s.dev.fabric.isRoot = false → s.dev.tb.parent = l.val → s.dev.tb.aligned = false → s.dev.tb.good < 16 →
          t.dev.tb.now = ((s.dev.tb.now : Int) - theta).toNat ∧ t.dev.tb.offset = theta ∧ t.dev.tb.parent = l.val ∧ t.dev.tb.aligned = false ∧
          (-8 ≤ theta → theta ≤ 8 → t.dev.tb.good = s.dev.tb.good + 1) ∧ (theta < -8 ∨ 8 < theta → t.dev.tb.good = 0) ∧
          (t.dev.tb.good = 16 → t.dev.fabric.sends = s.dev.fabric.sends ++ [Flood.aligned]) ∧
          (t.dev.tb.good ≠ 16 → t.dev.fabric = s.dev.fabric))) ∧
    (∀ id : Bytes, s.dev.fabric.isRoot = true → s.dev.fabric.aligning = true →
      ((∀ a ∈ s.dev.fabric.map, a.localReady = true → a.identity ≠ s.dev.trust.identity →
          a.identity = id ∨ a.identity ∈ s.dev.fabric.alignedReports) →
        ∃ t, exec (.alignedReport id) s = .next t ∧ Keeps s t ∧ t.dev.tb.aligned = true ∧ t.dev.tb.epoch % 1000000 = 0 ∧
          s.dev.tb.now + 10000000 + 2000000 * s.dev.maxHops ≤ t.dev.tb.epoch ∧
          t.dev.tb.epoch < s.dev.tb.now + 11000000 + 2000000 * s.dev.maxHops ∧ t.dev.tb.markTime 0 = t.dev.tb.epoch ∧
          t.dev.tb.now = s.dev.tb.now ∧ t.dev.fabric.aligning = false ∧ Flood.epoch t.dev.tb.epoch ∈ t.dev.fabric.sends) ∧
      ((∃ a ∈ s.dev.fabric.map, a.localReady = true ∧ a.identity ≠ s.dev.trust.identity ∧ a.identity ≠ id ∧
          a.identity ∉ s.dev.fabric.alignedReports) →
        exec (.alignedReport id) s = .next { s with dev := { s.dev with fabric := { s.dev.fabric with
          alignedReports := if id ∈ s.dev.fabric.alignedReports then s.dev.fabric.alignedReports else s.dev.fabric.alignedReports ++ [id] } } })) ∧
    (∀ epoch : Nat, s.dev.tb.aligned = false → s.dev.fabric.isRoot = false →
      (s.dev.kindle.localReady = false → exec (.epochFlood ⟨epoch, none⟩) s = .next s) ∧
      (s.dev.kindle.localReady = true → ∃ t, exec (.epochFlood ⟨epoch, none⟩) s = .next t ∧ Keeps s t ∧ t.dev.tb.aligned = true ∧ t.dev.tb.epoch = epoch ∧
        t.dev.tb.markTime 0 = epoch ∧ t.dev.tb.nextMark = t.dev.tb.firstAfter s.dev.tb.now ∧ t.dev.tb.now = s.dev.tb.now ∧
        t.dev.tb.lenHalf = s.dev.tb.lenHalf) ∧
      (∀ baseT baseN len : Nat,
        ∃ t, exec (.epochFlood ⟨epoch, some (baseT, baseN, len)⟩) s = .next t ∧ Keeps s t ∧ t.dev.tb.aligned = true ∧
          t.dev.tb.epoch = epoch ∧ t.dev.tb.markTime baseN = baseT ∧ t.dev.tb.lenHalf = len ∧ t.dev.regF 0x1008 0 7 = len % 128 ∧
          t.dev.tb.nextMark = t.dev.tb.firstAfter s.dev.tb.now ∧ t.dev.tb.now = s.dev.tb.now))

/-- R42, R494, R496: the root, or once the map has lost it the lowest member that it still reaches (entry 126), turns a report into the next
membership version, to take effect four rounds on, and floods it, and a device in the minority makes none; a device keeps a
flooded version until its mark, with the round length that it carries; the root refuses a round length while a member holds a job, else it takes effect
four rounds on and is flooded with a version; a refusal returns ROUND_LEN to the length in force with an E_IMG_ROUND record. -/
def Obligations.MembershipAndRoundLengthVersions : Prop :=
  ∀ s : State, s.dev.up = true → s.dev.tb.aligned = true →
    (∀ id, s.dev.fabric.minority = true → exec (.membershipReport id) s = .next s) ∧
    (∀ id, s.dev.fabric.minority = false → s.dev.fabric.isRoot = true ∨ s.dev.fabric.state = 2 ∧ s.dev.fabric.root ∉ s.dev.reach ∧
        lowestId (s.dev.fabric.members.filter (fun i => decide (i ∈ s.dev.reach))) = s.dev.trust.identity → s.dev.fabric.pending = [] →
      exec (.membershipReport id) s = .next { s with dev := { s.dev with fabric := { s.dev.fabric with
        pending := [⟨s.dev.fabric.version + 1, s.dev.tb.round + 4, [], none⟩]
        sends := s.dev.fabric.sends ++ [.version ⟨s.dev.fabric.version + 1, s.dev.tb.round + 4, [], none⟩] } } }) ∧
    (∀ (version eff : Nat), s.dev.fabric.version < version → (∀ v ∈ s.dev.fabric.pending, v.version ≠ version) →
      exec (.membershipVersionFlood version eff none) s = .next { s with dev := { s.dev with fabric := { s.dev.fabric with
        pending := s.dev.fabric.pending ++ [⟨version, eff, [], none⟩] } } } ∧
      ∀ len : Nat, s.dev.fabric.pending = [] → s.dev.tb.changes = [] →
        exec (.membershipVersionFlood version eff (some len)) s = .next { s with dev := { s.dev with
          tb := { s.dev.tb with changes := [(eff, len)] }
          fabric := { s.dev.fabric with pending := [⟨version, eff, [], some len⟩] } } }) ∧
    (∀ (version eff : Nat) (len : Option Nat), version ≤ s.dev.fabric.version ∨ (∃ v ∈ s.dev.fabric.pending, v.version = version) →
      exec (.membershipVersionFlood version eff len) s = .next s) ∧
    (∀ (len : Nat) (id : Bytes), s.dev.fabric.isRoot = true → (∃ a ∈ s.dev.fabric.map, a.busy = true) →
      exec (.roundLenReport len id) s = .next { s with dev := s.dev.send (.roundLenRefused id) }) ∧
    (∀ (len : Nat) (id : Bytes), s.dev.fabric.isRoot = true → (∀ a ∈ s.dev.fabric.map, a.busy = false) →
      (∀ r other, s.dev.fabric.lenReport = some (r, other) → r ≠ s.dev.tb.round) →
      ∃ t, exec (.roundLenReport len id) s = .next t ∧ Keeps s t ∧ (s.dev.tb.round + 4, len) ∈ t.dev.tb.changes ∧
        (∀ n, (s.dev.tb.round + 4, n) ∈ t.dev.tb.changes → n = len) ∧ t.dev.fabric.lenReport = some (s.dev.tb.round, id) ∧
        (∃ v, v.eff = s.dev.tb.round + 4 ∧ v.roundLen = some len ∧ t.dev.fabric.sends = s.dev.fabric.sends ++ [.version v]) ∧
        t.dev.jobs = s.dev.jobs) ∧
    (s.dev.fabric.roundLenOut = true →
      ∃ t, exec .roundLenRefusal s = .next t ∧ Keeps s t ∧ t.dev.fabric.roundLenOut = false ∧
        t.dev.regF 0x1008 0 7 = s.dev.tb.lenHalf % 128 ∧ t.dev.tb = s.dev.tb ∧
        (s.dev.err.head - s.dev.err.tail < 256 → mget t.dev.err.recs (s.dev.err.head % 256) = some (errBytes
          { code := 0x0206, corr := false } s.dev.err.handling.isSome s.dev.tb.round s.dev.tb.now)))

/-- R83, R84: with the last STAGED report the root floods an activation round four rounds on; a staged job of the compile takes a round that
lies far enough ahead and else reports itself late; a late report, and a staging timeout of a job that waits for reports and whose timeout has passed, make
the root flood an abort; an abort kills the compile's job. -/
def Obligations.FabricJobsActivateTogetherOrAbort : Prop :=
  ∀ (compile : Nat) (s : State), s.dev.up = true →
    (∀ dev : Nat, s.dev.fabric.isRoot = true → (compile, dev) ∉ s.dev.fabric.stagedReports →
      ((s.dev.fabric.stagedReports.filter (fun p => p.1 == compile)).length + 1 = s.dev.compileSize compile →
        ∃ t, exec (.stagedReport compile dev) s = .next t ∧ Keeps s t ∧
          t.dev.fabric.sends = s.dev.fabric.sends ++ [Flood.activate compile (s.dev.tb.round + 4)] ∧
          (∀ j i, (s.dev.job j).img = some i → i.compileId = compile → 1 < i.fabricSize → (s.dev.job j).state = .staged →
            (s.dev.job j).standby = false → (t.dev.job j).actRound = some (s.dev.tb.round + 4))) ∧
      ((s.dev.fabric.stagedReports.filter (fun p => p.1 == compile)).length + 1 ≠ s.dev.compileSize compile →
        exec (.stagedReport compile dev) s = .next { s with dev := { s.dev with fabric := { s.dev.fabric with
          stagedReports := s.dev.fabric.stagedReports ++ [(compile, dev)] } } })) ∧
    (∀ dev : Nat, (compile, dev) ∈ s.dev.fabric.stagedReports →
      (s.dev.fabric.stagedReports.filter (fun p => p.1 == compile)).length ≠ s.dev.compileSize compile →
      exec (.stagedReport compile dev) s = .next s) ∧
    (∀ (round j : Nat) (i : Image), (s.dev.job j).img = some i → i.compileId = compile → 1 < i.fabricSize →
      (s.dev.job j).state = .staged → (s.dev.job j).standby = false →
      ∃ t, exec (.activationRoundFlood compile round) s = .next t ∧ Keeps s t ∧
        (s.dev.tb.round + 1 < round → (t.dev.job j).actRound = some round ∧ (t.dev.job j).state = .staged) ∧
        (round ≤ s.dev.tb.round + 1 → t.dev.job j = s.dev.job j ∧ Flood.lateReport compile i.deviceIndex ∈ t.dev.fabric.sends)) ∧
    (∀ (j : Nat) (i : Image), (s.dev.job j).img = some i → i.compileId = compile → (s.dev.job j).state ≠ .empty →
      (∃ t, exec (.jobAbortFlood compile) s = .next t ∧ Keeps s t ∧ (t.dev.job j).state = .killed) ∧
      (s.dev.fabric.isRoot = true →
        (∀ dev, ∃ t, exec (.lateActivationReport compile dev) s = .next t ∧ Keeps s t ∧ (t.dev.job j).state = .killed ∧
          Flood.abort compile ∈ t.dev.fabric.sends) ∧
        ((s.dev.job j).state = .staged ∨ (s.dev.job j).state = .loading → (s.dev.job j).actRound = none →
          (s.dev.job j).standby = false → 1 < i.fabricSize → (s.dev.job j).stagedRound + (s.dev.job j).timeout ≤ s.dev.tb.round →
          ∃ t, exec (.stagingTimeout compile) s = .next t ∧ Keeps s t ∧ (t.dev.job j).state = .killed ∧
            Flood.abort compile ∈ t.dev.fabric.sends))) ∧
    (s.dev.fabric.isRoot = true → s.dev.fabricJobs compile ≠ [] →
      (∀ x ∈ s.dev.fabricJobs compile, x.actRound ≠ none ∨ s.dev.tb.round < x.stagedRound + x.timeout) →
      exec (.stagingTimeout compile) s = .next s)

/-- R504, R505, R553, R566: a recovery notice fixes the mark at which the fabric recovers from a round's detections, the next one when it reached every
device in time and else the one after; the bytes of a shipment part gather at its mirror; a mirror's report is kept once. -/
def Obligations.RecoveryNoticesAndShipments : Prop :=
  ∀ s : State, s.dev.up = true →
    (∀ (compile round : Nat) (every : Bool) (a : Action) (i : Image), s.dev.err.handling = some a →
      (s.dev.job a.job).img = some i → i.compileId = compile → 1 < i.fabricSize → a.round = round →
      ∃ t, exec (.recoveryNotice compile round every) s = .next t ∧ Keeps s t ∧
        t.dev.err.handling = some { a with markAt := max a.markAt (if every then round + 1 else round + 2) } ∧
        (compile, round, every) ∈ t.dev.fabric.recovery ∧ t.dev.jobs = s.dev.jobs ∧ t.dev.streams = s.dev.streams ∧ t.dev.tb = s.dev.tb) ∧
    (∀ (b : Bytes) (j : Nat), s.dev.standbyOf (shCompile b) (shOrigin b) = some j → shPart b ≤ 3 →
      (shCompile b, shOrigin b, shRound b) ∉ s.dev.mirror.complete →
      (s.dev.mirror.parts = [] → exec (.mirrorShipment b) s = .next { s with dev := { s.dev with mirror := { s.dev.mirror with
        parts := [{ compile := shCompile b, origin := shOrigin b, round := shRound b, part := shPart b, units := shUnits b,
                    bytes := shBytes b, digest := sliceZ b 32 8, data := b.drop 64 }] } } }) ∧
      (∀ x : Ship, s.dev.mirror.parts = [x] → x.matches_ b = true → exec (.mirrorShipment b) s =
        .next { s with dev := { s.dev with mirror := { s.dev.mirror with parts := [{ x with data := x.data ++ b.drop 64 }] } } })) ∧
    (∀ mirror round : Nat,
      ((mirror, round) ∉ s.dev.mirror.reported → exec (.shipmentCompleteReport mirror round) s =
        .next { s with dev := { s.dev with mirror := { s.dev.mirror with reported := s.dev.mirror.reported ++ [(mirror, round)] } } }) ∧
      ((mirror, round) ∈ s.dev.mirror.reported → exec (.shipmentCompleteReport mirror round) s = .next s))

/-! ### Schedule words: control (spec/02, spec/05) -/

/-- R69, R70, R72, R74: NOP, when no word of its own bytes is bad, changes nothing but the sequencer's place; REPEAT begins a loop over the next words, and a
loop's last word returns to its first while iterations are left; GATE_SET names the gate program of the drains to come. Each changes its own task alone. -/
def Obligations.ControlWordsSteer : Prop :=
  ∀ (core : Fin 256) (task : Fin 8) (e : TaskEv) (word : Nat) (s : State), Undisturbed e task →
    (Issues 0x00 core task word s → ((∀ a : Nat, a = (s.dev.task core task).base + (s.dev.task core task).schedAddr + 8 * (s.dev.task core task).pc →
        (s.dev.core core).badWords [((a : Int), ((a + 8 : Nat) : Int))] = []) → ∃ t, exec (.nop core e) s = .next t ∧ OnlyTask s t core task ∧
      SameButPlace (s.dev.task core task) (t.dev.task core task) ∧ IssuedAs (s.dev.task core task) (t.dev.task core task) word ∧
      Steers s.dev core task (t.dev.task core task) ((s.dev.task core task).pc + 1))) ∧
    (Issues 0x0F core task word s → ∃ t, exec (.wRepeat core e) s = .next t ∧ OnlyTask s t core task ∧
      SameButPlace (s.dev.task core task) (t.dev.task core task) ∧ IssuedAs (s.dev.task core task) (t.dev.task core task) word ∧
      (s.dev.shed ⟨core, task, (s.dev.task core task).pc⟩ = false → s.dev.yields ⟨core, task, (s.dev.task core task).pc⟩ = false →
        (t.dev.task core task).pc = (s.dev.task core task).pc + 1) ∧ (t.dev.task core task).wait = none ∧
      (t.dev.task core task).loop = some { first := (s.dev.task core task).pc + 1
                                           last := (s.dev.task core task).pc + (bits (wArgs word) 10 7 + 1)
                                           left := bits (wArgs word) 0 10
                                           iter := 0
                                           period := 16 * bits (wArgs word) 17 14 }) ∧
    (Issues 0x04 core task word s → ∃ t, exec (.gateSet core e) s = .next t ∧ OnlyTask s t core task ∧
      SameButPlace { s.dev.task core task with gate := some (bits (wArgs word) 0 12) } (t.dev.task core task) ∧
      IssuedAs (s.dev.task core task) (t.dev.task core task) word ∧
      Steers s.dev core task (t.dev.task core task) ((s.dev.task core task).pc + 1))

/-- R189: BRANCH compares an INT32 register as a signed integer and an FP32 register with zero, both zeros alike; for a NaN only NEZ
holds. When the condition holds the next skip words do not issue; nothing but the task's place changes. -/
def Obligations.BranchComparesItsRegister : Prop :=
  ∀ (core : Fin 256) (task : Fin 8) (e : TaskEv) (word code : Nat) (isFp : Bool) (s : State), Undisturbed e task → Issues 0x0E core task word s →
    mgetD (s.dev.task core task).sums (bits (wArgs word) 0 4) (0, false) = (code, isFp) → code < 2 ^ 32 → bits (wArgs word) 4 3 ≤ 5 →
    ∃ t, exec (.branch core e) s = .next t ∧ OnlyTask s t core task ∧ SameButPlace (s.dev.task core task) (t.dev.task core task) ∧
      IssuedAs (s.dev.task core task) (t.dev.task core task) word ∧
      (BranchHolds code isFp (bits (wArgs word) 4 3) →
        Steers s.dev core task (t.dev.task core task) ((s.dev.task core task).pc + 1 + bits (wArgs word) 7 15)) ∧
      (¬ BranchHolds code isFp (bits (wArgs word) 4 3) →
        Steers s.dev core task (t.dev.task core task) ((s.dev.task core task).pc + 1))

/-- R72, R188: SUMM loads one summary register of the task, with its type, from the reduction result, the element count, the statistic
flag or the tally that it names; the other registers keep their values. -/
def Obligations.SummLoadsOneRegister : Prop :=
  ∀ (core : Fin 256) (task : Fin 8) (e : TaskEv) (word : Nat) (s : State), Undisturbed e task → Issues 0x0D core task word s → bits (wArgs word) 4 4 ≤ 3 →
    ∃ t, exec (.summ core e) s = .next t ∧ OnlyTask s t core task ∧
      SameButPlace { s.dev.task core task with sums := (t.dev.task core task).sums } (t.dev.task core task) ∧
      IssuedAs (s.dev.task core task) (t.dev.task core task) word ∧
      Steers s.dev core task (t.dev.task core task) ((s.dev.task core task).pc + 1) ∧
      (∀ r, r ≠ bits (wArgs word) 0 4 → mget (t.dev.task core task).sums r = mget (s.dev.task core task).sums r) ∧
      ∃ v : Nat × Bool, mget (t.dev.task core task).sums (bits (wArgs word) 0 4) = some v ∧
        (bits (wArgs word) 4 4 = 0 → v = (mget (s.dev.task core task).redRes (bits (wArgs word) 8 12)).getD (0, false)) ∧
        (bits (wArgs word) 4 4 = 1 → v = ((mget (s.dev.task core task).eleCnt (bits (wArgs word) 8 12)).getD 0, false)) ∧
        (bits (wArgs word) 4 4 = 2 → v.2 = false ∧ v.1 ≤ 1 ∧
          (bits (wArgs word) 8 12 = 0 → (v.1 = 1 ↔ (s.dev.task core task).flagsProg.nan = true)) ∧
          (bits (wArgs word) 8 12 = 1 → (v.1 = 1 ↔ (s.dev.task core task).flagsProg.ovf = true)) ∧
          (bits (wArgs word) 8 12 = 2 → (v.1 = 1 ↔ (s.dev.task core task).flagsProg.unf = true)) ∧
          (bits (wArgs word) 8 12 = 3 → (v.1 = 1 ↔ (s.dev.task core task).flagsProg.sat = true)) ∧
          (bits (wArgs word) 8 12 = 4 → (v.1 = 1 ↔ (s.dev.task core task).emptyRow = true))) ∧
        (bits (wArgs word) 4 4 = 3 → v = ((mget (s.dev.core core).tallies (bits (wArgs word) 8 12)).getD 0, false))

/-! ### Tallies, waits and windows (spec/02, spec/12) -/

/-- R19, R72, R76: TLY_ADD adds to one tally of one core and stops at 2^20 − 1, which it notes; into a contained slice it adds nothing. TLY_WAIT subtracts its threshold from a tally
that has reached it, and else waits with the tally as it is; the end of the wait, while its time has not passed (entry 40), subtracts it. No byte of a cistern changes. -/
def Obligations.TalliesCountAndWait : Prop :=
  ∀ (core : Fin 256) (task : Fin 8) (e : TaskEv) (word : Nat) (s : State), Undisturbed e task →
    (Issues 0x0B core task word s → ∀ c : Nat, c = (if bit (wArgs word) 24 = true then core.val else bits (wArgs word) 16 8) →
      (s.dev.sliceUp (c / 64) = false → ∃ t, exec (.tlyAdd core e) s = .next t ∧ Keeps s t ∧
        (∀ x i, mgetD (t.dev.core x).tallies i 0 = mgetD (s.dev.core x).tallies i 0) ∧ (∀ x, (t.dev.core x).mem = (s.dev.core x).mem)) ∧
      (s.dev.sliceUp (c / 64) = true → ∃ t, exec (.tlyAdd core e) s = .next t ∧ Keeps s t ∧
        mgetD (t.dev.core c).tallies (bits (wArgs word) 0 8) 0 =
          min (mgetD (s.dev.core c).tallies (bits (wArgs word) 0 8) 0 + bits (wArgs word) 8 8) (2 ^ 20 - 1) ∧
        (2 ^ 20 ≤ mgetD (s.dev.core c).tallies (bits (wArgs word) 0 8) 0 + bits (wArgs word) 8 8 →
          bits (wArgs word) 0 8 ∈ (t.dev.core c).tallySat) ∧
        (∀ x i, x ≠ c ∨ i ≠ bits (wArgs word) 0 8 → mgetD (t.dev.core x).tallies i 0 = mgetD (s.dev.core x).tallies i 0) ∧
        (∀ x, (t.dev.core x).mem = (s.dev.core x).mem) ∧ t.dev = { s.dev with cores := t.dev.cores, cntNow := t.dev.cntNow } ∧
        Steers s.dev core task (t.dev.task core task) ((s.dev.task core task).pc + 1))) ∧
    (Issues 0x0C core task word s →
      (bits (wArgs word) 8 20 ≤ mgetD (s.dev.core core).tallies (bits (wArgs word) 0 8) 0 →
        ∃ t, exec (.tlyWait core e) s = .next t ∧ Keeps s t ∧ t.dev = { s.dev with cores := t.dev.cores, cntNow := t.dev.cntNow } ∧
          (t.dev.core core).tallies = mset (s.dev.core core).tallies (bits (wArgs word) 0 8)
            (mgetD (s.dev.core core).tallies (bits (wArgs word) 0 8) 0 - bits (wArgs word) 8 20) ∧
          (t.dev.core core).mem = (s.dev.core core).mem ∧ (∀ x, x ≠ core.val → t.dev.core x = s.dev.core x) ∧
          Steers s.dev core task (t.dev.task core task) ((s.dev.task core task).pc + 1)) ∧
      (mgetD (s.dev.core core).tallies (bits (wArgs word) 0 8) 0 < bits (wArgs word) 8 20 →
        ∃ t, exec (.tlyWait core e) s = .next t ∧ OnlyTask s t core task ∧
          (t.dev.task core task).pc = (s.dev.task core task).pc ∧ (t.dev.task core task).wait =
            some ⟨.tally (bits (wArgs word) 0 8), s.dev.tb.round, (t.dev.task core task).lastCycle, 1, s.dev.holds⟩)) ∧
    (∀ w : Wait, s.dev.up = true → s.dev.taskRuns core task = true → s.dev.curWordOf core task = some word → wOpcode word = 0x0C →
      (s.dev.task core task).wait = some w → w.kind = .tally (bits (wArgs word) 0 8) → s.dev.tb.round ≤ w.began + w.budget →
      bits (wArgs word) 8 20 ≤ mgetD (s.dev.core core).tallies (bits (wArgs word) 0 8) 0 →
      ∃ t, exec (.tlyWaitSatisfied core e) s = .next t ∧ Keeps s t ∧ t.dev = { s.dev with cores := t.dev.cores, cntNow := t.dev.cntNow } ∧
        (t.dev.core core).tallies = mset (s.dev.core core).tallies (bits (wArgs word) 0 8)
          (mgetD (s.dev.core core).tallies (bits (wArgs word) 0 8) 0 - bits (wArgs word) 8 20) ∧
        (t.dev.core core).mem = (s.dev.core core).mem ∧ (∀ x, x ≠ core.val → t.dev.core x = s.dev.core x) ∧
        Steers s.dev core task (t.dev.task core task) ((s.dev.task core task).pc + 1))

/-- R75, R379: a wait on a tally that has lasted its round, and a wait on an elastic ring that has outlasted its budget, is abandoned: the
task goes on with the next word, and an E_TAG_TIMEOUT record is written while the error ring has room. A transfer whose wait on such a ring has outlasted
the budget leaves its pump. A wait whose time has not come goes on as it is. That the time of a TLY_WAIT is counted in marks, and has passed at the second mark after its
issue, is the model's reading (entry 40), and that of two waits which are due at one mark the one of the lower core and then of the lower ring ends first
is how it reads R379 (entry 92). While a replay takes its timeouts from the log none ends a wait (R382). -/
def Obligations.WaitsThatTimeOutAreAbandoned : Prop :=
  ∀ (core : Fin 256) (task : Fin 8) (word began issued budget order : Nat) (s : State), s.dev.up = true →
    s.dev.curWordOf core task = some word →
    (∀ i : Nat, (s.dev.task core task).wait = some ⟨.tally i, began, issued, budget, order⟩ → wOpcode word = 0x0C →
      (began + budget < s.dev.tb.round → s.dev.replays (s.dev.task core task).job (s.dev.task core task).progRound = false →
        ∃ t, exec (.tlyWaitTimeout core task) s = .next t ∧ TimesOut s t core task 255) ∧
      (s.dev.tb.round ≤ began + budget → exec (.tlyWaitTimeout core task) s = .next s)) ∧
    (∀ (ring : Nat) (wr : Bool), (s.dev.task core task).wait = some ⟨.ring ring wr, began, issued, budget, order⟩ →
      (began + budget ≤ s.dev.tb.round → s.dev.replays (s.dev.task core task).job (s.dev.task core task).progRound = false →
        s.dev.firstDue core ring = true → wOpcode word ≠ 0x0E → wOpcode word ≠ 0x0F →
        ∃ t, exec (.tagTimeout core task) s = .next t ∧ TimesOut s t core task ring) ∧
      (s.dev.tb.round < began + budget → exec (.tagTimeout core task) s = .next s)) ∧
    (∀ (p : PumpId) (x : Xfer) (ring : Nat), (s.dev.task core task).wait = none → s.dev.dueXfer core task = some (p, x, ring) → ring < 255 →
      s.dev.replays (s.dev.task core task).job (s.dev.task core task).progRound = false → s.dev.firstDue core ring = true →
      ∃ t, exec (.tagTimeout core task) s = .next t ∧ Keeps s t ∧ (t.dev.pump p).queue = (s.dev.pump p).queue.erase x ∧
        t.dev.task core task = s.dev.task core task ∧ t.dev.jobs = s.dev.jobs ∧ t.dev.tb = s.dev.tb) ∧
    (s.dev.replays (s.dev.task core task).job (s.dev.task core task).progRound = true →
      exec (.tlyWaitTimeout core task) s = .next s ∧ exec (.tagTimeout core task) s = .next s)

/-- R67, R72, R383, R384, R386: WINDOW opens or closes one window of its core. A write from another core that a window accepts reaches
exactly its bytes, and one into a ring's put slot that is empty fills it, while one into a full elastic slot waits and changes no byte (R376, R378); a core with
no open window of the writer's compile keeps every byte, whatever is written to it. -/
def Obligations.WindowsAdmitRemoteWrites : Prop :=
  (∀ (core : Fin 256) (task : Fin 8) (e : TaskEv) (word : Nat) (s : State), Undisturbed e task → Issues 0x17 core task word s →
    ∃ t, exec (.window core e) s = .next t ∧ Keeps s t ∧ t.dev = { s.dev with cores := t.dev.cores, cntNow := t.dev.cntNow } ∧
      (∀ x, (t.dev.core x).mem = (s.dev.core x).mem) ∧
      (∀ x n, x ≠ core.val ∨ n ≠ bits (wArgs word) 0 4 → mget (t.dev.core x).windows n = mget (s.dev.core x).windows n) ∧
      mget (t.dev.core core).windows (bits (wArgs word) 0 4) =
        (mget (s.dev.core core).windows (bits (wArgs word) 0 4)).map (fun v => { v with isOpen := bit (wArgs word) 4 }) ∧
      Steers s.dev core task (t.dev.task core task) ((s.dev.task core task).pc + 1)) ∧
  (∀ (writer target : Fin 256) (off j lost : Nat) (data : Bytes) (i : Image) (s : State), s.dev.up = true →
    s.dev.coreJob writer = some (j, i) → (s.dev.core writer).pump.held = none →
    (∀ win, s.dev.sliceUp (target.val / 64) = true →
      s.dev.accepts target ⟨i.compileId, i.deviceIndex, writer.val⟩ off data.length = some win →
      (s.dev.putRing writer target off data.length = none →
        ∃ t, exec (.remoteWrite writer target off ⟨data, lost⟩) s = .next t ∧ Keeps s t ∧
          (∀ a, memGet (t.dev.core target).mem a =
            if off ≤ a ∧ a < off + data.length then data.getD (a - off) 0 else memGet (s.dev.core target).mem a) ∧
          (∀ x, x ≠ target.val → t.dev.core x = s.dev.core x) ∧ t.dev.well = s.dev.well ∧ t.dev.err = s.dev.err ∧
          t.dev.streams = s.dev.streams ∧ (t.dev.core target).tasks = (s.dev.core target).tasks ∧ (t.dev.core target).tags = (s.dev.core target).tags) ∧
      (∀ (k ring : Nat) (g : Ring), s.dev.putRing writer target off data.length = some (k, ring) → s.dev.farXfer writer = none →
        (s.dev.task target k).ring? ring = some g →
        (s.dev.ringFails target k (ring, true) = false →
          ∃ t, exec (.remoteWrite writer target off ⟨data, lost⟩) s = .next t ∧ Keeps s t ∧
            (∀ a, memGet (t.dev.core target).mem a =
              if off ≤ a ∧ a < off + data.length then data.getD (a - off) 0 else memGet (s.dev.core target).mem a) ∧
            ((t.dev.core target).tag (ringTag g true)).full = true ∧
            (t.dev.task target k).ring? ring = some { g with put := (g.put + 1) % max 1 (srSlots g.decl) } ∧
            (∀ x, x ≠ target.val → t.dev.core x = s.dev.core x) ∧ t.dev.well = s.dev.well) ∧
        (s.dev.ringFails target k (ring, true) = true → (s.dev.task target k).elastic ring = true →
          ∃ t, exec (.remoteWrite writer target off ⟨data, lost⟩) s = .next t ∧ Keeps s t ∧ (∀ x, (t.dev.core x).mem = (s.dev.core x).mem) ∧
            (t.dev.core writer).pump.held = some ⟨target, off, data, s.dev.tb.round⟩ ∧
            ((t.dev.core target).tag (ringTag g true)).wait = true ∧ t.dev.well = s.dev.well))) ∧
    ((∀ p ∈ (s.dev.core target).windows, p.2.isOpen = true → ∀ im, (s.dev.job p.2.job).img = some im → im.compileId ≠ i.compileId) →
      ∃ t, exec (.remoteWrite writer target off ⟨data, lost⟩) s = .next t ∧ Keeps s t ∧ (∀ x, (t.dev.core x).mem = (s.dev.core x).mem) ∧
        t.dev.well = s.dev.well))

/-- R36, R72, R278: STAT_FLUSH closes the statistics accumulator of one tensor: its record is written from its figures, which return to zero; the other
accumulators keep theirs. END ends the program of the task's round: its loop is over, none of its words waits, every statistics accumulator of the
task is closed; a task that is not behind starts no further program before the next mark. -/
def Obligations.FlushesAndEndsClose : Prop :=
  (∀ (core : Fin 256) (task : Fin 8) (e : TaskEv) (word : Nat) (s : State), Undisturbed e task → Issues 0x19 core task word s →
    ∃ t, exec (.statFlush core e) s = .next t ∧ Keeps s t ∧ t.dev = { s.dev with cores := t.dev.cores, cntNow := t.dev.cntNow } ∧
      Steers s.dev core task (t.dev.task core task) ((s.dev.task core task).pc + 1) ∧
      (∀ x, x ≠ core.val → t.dev.core x = s.dev.core x) ∧ (t.dev.core core).scale = (s.dev.core core).scale ∧
      (t.dev.core core).acc = (s.dev.core core).acc ∧
      (∀ a, (s.dev.core core).accs.find? (fun a => a.task == task.val && a.desc == bits (wArgs word) 0 12) = some a →
        (t.dev.core core).accs = (s.dev.core core).accs.map (fun b => if b.task = task.val ∧ b.desc = bits (wArgs word) 0 12 then
          { b with
            isOpen := false
            record := statRecord a (s.dev.task core task).progRound
            count := 0
            clips := 0
            sumsq := 0
            maxmag := 0
            nans := 0
            chans := [] } else b) ∧
        (a.chans = [] → (t.dev.core core).mem = (s.dev.core core).mem)) ∧
      ((s.dev.core core).accs.find? (fun a => a.task == task.val && a.desc == bits (wArgs word) 0 12) = none →
        (t.dev.core core).accs = (s.dev.core core).accs ∧ (t.dev.core core).mem = (s.dev.core core).mem)) ∧
  (∀ (core : Fin 256) (task : Fin 8) (e : TaskEv) (word : Nat) (s : State), Undisturbed e task → Issues 0x01 core task word s →
    s.dev.tb.round ≤ (s.dev.task core task).progRound →
    ∃ t, exec (.wEnd core e) s = .next t ∧ Keeps s t ∧ (t.dev.task core task).state = .ended ∧ (t.dev.task core task).wait = none ∧
      (t.dev.task core task).endedAt = some s.dev.tb.round ∧ (t.dev.task core task).loop = none ∧ (t.dev.task core task).progRound = (s.dev.task core task).progRound ∧
      (t.dev.task core task).pc = (s.dev.task core task).pc ∧ (t.dev.task core task).sums = (s.dev.task core task).sums ∧
      (∀ a ∈ (t.dev.core core).accs, a.task = task.val → a.isOpen = false) ∧ t.dev.tb = s.dev.tb ∧ t.dev.kindle = s.dev.kindle)

/-! ### Engines (spec/04, spec/05, spec/08, spec/09) -/

/-- R143, R144, R146, R148: a matrix run that nothing holds gives every lane of its output the chain of its products, from zero with CLEAR
set and else from what the accumulator held; lanes of no output keep their value; without DRAIN no byte of a cistern changes, and with DRAIN none outside the
task's region where no sequence record does. -/
def Obligations.MatrixRunsAccumulate : Prop :=
  ∀ (core : Fin 256) (task : Fin 8) (word : Nat) (ev : EngEv) (r : Rec) (s : State), Issues 0x02 core task word s →
    r = (s.dev.task core task).desc (wDesc word) →
    (∀ (wgt gate : Nat) (slips : List (Nat × Bool)) (vw : View) (k : Task), mrDrain r = true → k = s.dev.task core task → k.gate = some gate →
      wgt = s.dev.weightIdx ⟨core, task, k.pc⟩ (mrWgt r) → Unheld s.dev core task ([mrAct r, wgt] ++ k.gateReads) [gpOut k.gateRec] →
      slips = slipsOf s.dev core task ([mrAct r, wgt] ++ k.gateReads) [gpOut k.gateRec] → vw = k.view wgt false slips →
      s.dev.takeOpen core (s.dev.weightRanges core task vw (mrK r) (mrN r)) = false →
      s.dev.waitsTable ⟨core, task, k.pc⟩ (s.dev.evBad core ev) vw (mrK r) (mrN r) = false →
      ∃ t, exec (.matRun core task ev) s = .next t ∧ Keeps s t ∧ Steers s.dev core task (t.dev.task core task) (k.pc + 1) ∧
        (t.dev.core core).matLast = ⟨core, task, wDesc word, 0, false⟩ ∧ (t.dev.core core).gatLast = ⟨core, task, gate, 0, false⟩ ∧
        (Quiet s.dev k.job → t.dev.well = s.dev.well ∧ ∀ x a, x ≠ core.val ∨ a < k.base ∨ k.bound ≤ a →
          memGet (t.dev.core x).mem a = memGet (s.dev.core x).mem a)) ∧
    (mrDrain r = false →
    ∀ (wgt : Nat) (slips : List (Nat × Bool)) (va vw : View), wgt = s.dev.weightIdx ⟨core, task, (s.dev.task core task).pc⟩ (mrWgt r) →
    Unheld s.dev core task [mrAct r, wgt] [] → slips = slipsOf s.dev core task [mrAct r, wgt] [] →
    va = (s.dev.task core task).view (mrAct r) false slips → vw = (s.dev.task core task).view wgt false slips →
    s.dev.takeOpen core (s.dev.weightRanges core task vw (mrK r) (mrN r)) = false →
    s.dev.waitsTable ⟨core, task, (s.dev.task core task).pc⟩ (s.dev.evBad core ev) vw (mrK r) (mrN r) = false →
    ∃ t, exec (.matRun core task ev) s = .next t ∧ Keeps s t ∧
      Steers s.dev core task (t.dev.task core task) ((s.dev.task core task).pc + 1) ∧
      (t.dev.core core).matLast = ⟨core, task, wDesc word, 0, false⟩ ∧
      (∀ x a, memGet (t.dev.core x).mem a = memGet (s.dev.core x).mem a) ∧ t.dev.well = s.dev.well ∧
      (∀ x, x ≠ core.val → (t.dev.core x).acc = (s.dev.core x).acc) ∧
      (∀ p m l, 32 * p + l < mrN r → m < mrM r → l < 32 →
        mgetD (t.dev.core core).acc (32 * (mwBase word + p * mrM r + m) + l) 0 =
          (dotChain (s.dev.task core task).strict (mrK r)
            (if mrClear r then 0 else mgetD (s.dev.core core).acc (32 * (mwBase word + p * mrM r + m) + l) 0)
            (fun i => if fld r 4 1 = 8 then mkNum false (sext 8 (va.code (s.dev.evBad core ev) ⟨i, m, 0, 0⟩) - sext 8 (fld r 6 1)) 0
              else decodeVal (tFmt va.t) (va.code (s.dev.evBad core ev) ⟨i, m, 0, 0⟩))
            (fun i => weightAt (tFmt vw.t)
              (((s.dev.evSeen core ev).weightRows ⟨core, task, (s.dev.task core task).pc⟩ (s.dev.evBad core ev) vw (mrK r) (mrN r)).rows.getD (32 * p + l) [])
              i (if fld r 4 1 = 8 then entryZp ((s.dev.core core).scaleEntry (mrWzp r + (32 * p + l))) else 0))).1) ∧
      (∀ lane, (∀ p m l, 32 * p + l < mrN r → m < mrM r → l < 32 → lane ≠ 32 * (mwBase word + p * mrM r + m) + l) →
        mgetD (t.dev.core core).acc lane 0 = mgetD (s.dev.core core).acc lane 0))

/-- R164, R165, R183, R361: an element program, a scan, a conversion, a reduction and a sampler request that nothing holds run to their
end: the task goes on with the next word, and no byte outside the task's own region changes, sequence records apart, nor any accumulator. A reduction loads at most the
summary register that its word names, an element program at most its descriptor's count; the others load none. -/
def Obligations.EngineWordsStayInTheirRegion : Prop :=
  ∀ (core : Fin 256) (task : Fin 8) (word : Nat) (ev : EngEv) (e : TaskEv) (s : State), Undisturbed e task →
    Unheld s.dev core task (engineUses (s.dev.task core task) word).1 (engineUses (s.dev.task core task) word).2 →
    (Issues 0x05 core task word s → ∃ t, exec (.eleRun core task ev) s = .next t ∧ StaysInRegion s t core task word 0x05 ∧
      (t.dev.core core).eleLast.desc = wDesc word ∧ (t.dev.core core).eleLast.task = task) ∧
    (Issues 0x06 core task word s → ∃ t, exec (.eleScan core task ev) s = .next t ∧ StaysInRegion s t core task word 0x06 ∧
      (t.dev.core core).eleLast.desc = wDesc word ∧ (t.dev.core core).eleLast.task = task) ∧
    (Issues 0x07 core task word s → ∃ t, exec (.convert core task ev) s = .next t ∧ StaysInRegion s t core task word 0x07 ∧
      (t.dev.core core).eleLast.desc = wDesc word ∧ (t.dev.core core).eleLast.task = task) ∧
    (Issues 0x08 core task word s → ∃ t, exec (.redRun core task ev) s = .next t ∧ StaysInRegion s t core task word 0x08 ∧
      (t.dev.core core).redLast.desc = wDesc word ∧ (t.dev.core core).redLast.task = task) ∧
    (Issues 0x10 core task word s → ∃ t, exec (.smpReq core e) s = .next t ∧ StaysInRegion s t core task word 0x10 ∧
      (t.dev.slice (core.val / 64)).smpLast = ⟨core.val % 64, task, wDesc word, 0, false⟩)

/-- R123, R125: a conversion without a scale group and without statistics stores at each point of its destination what the rounding of the
point's source value gives, where the destination's points lie side by side in the task's region and no error is met. -/
def Obligations.ConvertStoresConvertedValues : Prop :=
  ∀ (core : Fin 256) (task : Fin 8) (word n : Nat) (r td : Rec) (vs vd : View) (s : State), Issues 0x07 core task word s →
    r = (s.dev.task core task).desc (wDesc word) → td = (s.dev.task core task).desc (fld r 2 2) →
    Unheld s.dev core task [fld r 0 2] [fld r 2 2] → slipsOf s.dev core task [fld r 0 2] [fld r 2 2] = [] →
    vs = (s.dev.task core task).view (fld r 0 2) false [] → vd = (s.dev.task core task).view (fld r 2 2) true [] →
    Quiet s.dev (s.dev.task core task).job →
    bits (fld r 7 1) 0 2 = 0 → tFmt td ≠ .int4 → (tFmt td).isMx = false → 0 < (tFmt td).size →
    tSize td 0 = n → tSize td 1 = 1 → tSize td 2 = 1 → tSize td 3 = 1 → tStride td 0 = ((tFmt td).size : Nat) →
    vd.inside vd.base (n * (tFmt td).size) = true → (s.dev.core core).bad = [] →
    ∃ t, exec (.convert core task ⟨0, .none⟩) s = .next t ∧ Keeps s t ∧
      (∀ f, f < n → memRead (t.dev.core core).mem (vd.base.toNat + f * (tFmt td).size) (tFmt td).size =
        leBytes (tFmt td).size (convOne (s.dev.task core task).strict (tFmt td) (fld r 5 1 == 0) none false
          (s.dev.rmOf core task (fld r 4 1) (fld r 6 1) (tSize td) ⟨f, 0, 0, 0⟩)
          (vs.val (s.dev.task core task).strict (s.dev.core core).mem ⟨f, 0, 0, 0⟩)).code) ∧
      (∀ a, (a < vd.base.toNat ∨ vd.base.toNat + n * (tFmt td).size ≤ a) → memGet (t.dev.core core).mem a = memGet (s.dev.core core).mem a)

/-! ### Speculation and embers (spec/10) -/

/-- R51, R77, R326 to R329, R331: SPEC_OPEN opens a generation for each stream of its cord that has none; SPEC_COMMIT counts the committed
tokens and ends the generation; SPEC_ABORT ends it without a commit. None advances FRAME or TOKEN, and what speculation has
stored enters a sequence only by a commit; SPEC_ABORT changes no byte but those of sequence records. In a round whose speculation the governor
sheds the three words change their own task alone, and SPEC_OPEN goes on with the word that ends its span. -/
def Obligations.SpeculationOpensCommitsAborts : Prop :=
  ∀ (core : Fin 256) (task : Fin 8) (e : TaskEv) (word : Nat) (r : Rec) (s : State), Undisturbed e task → r = (s.dev.task core task).desc (bits (wArgs word) 0 12) →
    (s.dev.shed ⟨core, task, (s.dev.task core task).pc⟩ = true →
      (Issues 0x11 core task word s → ∃ t, exec (.specOpen core e) s = .next t ∧ OnlyTask s t core task ∧ (t.dev.task core task).wait = none ∧
        ∀ m, (s.dev.task core task).loop = none → (s.dev.task core task).pc < m → m < (s.dev.task core task).schedWords →
          (wOpcode (s.dev.wordAt core task m) = 0x12 ∨ wOpcode (s.dev.wordAt core task m) = 0x13) →
          (∀ j, (s.dev.task core task).pc < j → j < m → wOpcode (s.dev.wordAt core task j) ≠ 0x12 ∧ wOpcode (s.dev.wordAt core task j) ≠ 0x13) →
          s.dev.yields ⟨core, task, (s.dev.task core task).pc⟩ = false ∨ s.dev.spanWord core task m = false →
          (t.dev.task core task).pc = m) ∧
      (Issues 0x12 core task word s → ∃ t, exec (.specCommit core e) s = .next t ∧ OnlyTask s t core task ∧ (t.dev.task core task).wait = none) ∧
      (Issues 0x13 core task word s → ∃ t, exec (.specAbort core e) s = .next t ∧ OnlyTask s t core task ∧ (t.dev.task core task).wait = none)) ∧
    (Issues 0x11 core task word s → s.dev.shed ⟨core, task, (s.dev.task core task).pc⟩ = false →
      ∃ t, exec (.specOpen core e) s = .next t ∧ Keeps s t ∧
        Steers s.dev core task (t.dev.task core task) ((s.dev.task core task).pc + 1) ∧
        (∀ h, (∃ sl, (sl, h) ∈ s.dev.specSlots (s.dev.task core task).job (s.dev.task core task).progRound (spCord r) (spKind r)) →
          (t.dev.stream h).specOpen = true ∧ (t.dev.stream h).specGen =
            if (s.dev.stream h).specOpen = true then (s.dev.stream h).specGen else ((s.dev.stream h).specGen + 1) % 256) ∧
        ((∀ x, (s.dev.core x).bad = []) → ∀ h, (∀ sl, (sl, h) ∉ s.dev.specSlots (s.dev.task core task).job (s.dev.task core task).progRound (spCord r) (spKind r)) →
          t.dev.stream h = s.dev.stream h) ∧
        (∀ h l, (t.dev.seq h l).len = (s.dev.seq h l).len ∧ (t.dev.seq h l).cur = (s.dev.seq h l).cur) ∧
        (∀ h, (t.dev.stream h).frame = (s.dev.stream h).frame ∧ (t.dev.stream h).token = (s.dev.stream h).token)) ∧
    (Issues 0x13 core task word s → s.dev.shed ⟨core, task, (s.dev.task core task).pc⟩ = false →
      ∃ t, exec (.specAbort core e) s = .next t ∧ Keeps s t ∧
        Steers s.dev core task (t.dev.task core task) ((s.dev.task core task).pc + 1) ∧
        (∀ h, (∃ sl, (sl, h) ∈ s.dev.specSlots (s.dev.task core task).job (s.dev.task core task).progRound (spCord r) (spKind r)) → (s.dev.stream h).specOpen = true →
          t.dev.stream h = { s.dev.stream h with
            specOpen := false
            specLen := 0
            proposed := (s.dev.stream h).proposed + (if spKind r = 1 then (s.dev.stream h).dlen else 0) }) ∧
        (∀ h, (∀ sl, (sl, h) ∉ s.dev.specSlots (s.dev.task core task).job (s.dev.task core task).progRound (spCord r) (spKind r)) ∨ (s.dev.stream h).specOpen = false →
          t.dev.stream h = s.dev.stream h) ∧
        (∀ h l, (t.dev.seq h l).len = (s.dev.seq h l).len ∧ (t.dev.seq h l).cur = (s.dev.seq h l).cur) ∧
        ((∀ q ∈ (s.dev.job (s.dev.task core task).job).tasks, s.dev.walkDescs q.1 q.2 = []) →
          (∀ x, (t.dev.core x).mem = (s.dev.core x).mem) ∧ t.dev.well = s.dev.well)) ∧
    (Issues 0x12 core task word s → s.dev.shed ⟨core, task, (s.dev.task core task).pc⟩ = false → Unheld s.dev core task [fld r 4 2] [] →
      ((s.dev.specSlots (s.dev.task core task).job (s.dev.task core task).progRound (spCord r) 1).map Prod.snd).Nodup →
      ∃ t, exec (.specCommit core e) s = .next t ∧ Keeps s t ∧
        Steers s.dev core task (t.dev.task core task) ((s.dev.task core task).pc + 1) ∧
        (∀ h, (t.dev.stream h).frame = (s.dev.stream h).frame ∧ (t.dev.stream h).token = (s.dev.stream h).token) ∧
        (∀ sl h c, (sl, h) ∈ s.dev.specSlots (s.dev.task core task).job (s.dev.task core task).progRound (spCord r) 1 → (s.dev.stream h).specOpen = true →
          sext 32 (((s.dev.task core task).view (fld r 4 2) false (slipsOf s.dev core task [fld r 4 2] [])).code
            (s.dev.core core).readable ⟨sl, 0, 0, 0⟩) = c →
          (t.dev.stream h).specOpen = false ∧ (t.dev.stream h).proposed = (s.dev.stream h).proposed + (s.dev.stream h).dlen ∧
          (1 ≤ c → c ≤ s.dev.specLenOf h → (t.dev.stream h).committed = (s.dev.stream h).committed + c.toNat ∧
            (t.dev.stream h).accepted = (s.dev.stream h).accepted + (c.toNat - 1)) ∧
          (c ≤ 0 ∨ (s.dev.specLenOf h : Int) < c → (t.dev.stream h).committed = (s.dev.stream h).committed ∧
            (t.dev.stream h).accepted = (s.dev.stream h).accepted ∧
            ∀ l, l < 256 → (t.dev.seq h l).len = (s.dev.seq h l).len ∧ (t.dev.seq h l).cur = (s.dev.seq h l).cur)))

/-- R321 to R323: EMBER_OUT leaves in the well, at the place of the leaving stream, an ember whose CRC is that of its bytes and whose header
names the stream and the round, with every cistern as it was; EMBER_IN writes inside the task's region alone, sequence records apart, and an ember with
a bad CRC changes no byte of it and raises E_CRC. -/
def Obligations.EmbersMoveStreamState : Prop :=
  ∀ (core : Fin 256) (task : Fin 8) (e : TaskEv) (word sl h a n : Nat) (r : Rec) (s : State), Undisturbed e task →
    r = (s.dev.task core task).desc (bits (wArgs word) 0 12) → a = s.dev.emberAddr h → n = fld (s.dev.clsOf h) 48 4 →
    (Issues 0x14 core task word s → Unheld s.dev core task (emTensors r) [] → s.dev.namedByXfer core task (emTensors r) = [] →
      s.dev.cordSlots (s.dev.task core task).job r (· == .leaving) = [(sl, h)] → 64 ≤ n → 64 ≤ emPartOff r →
      a + n ≤ Config.wellBytes → s.dev.anyCtlDown = false → (s.dev.stream h).accept.length = 8 →
      ∃ t, exec (.emberOut core e) s = .next t ∧ Keeps s t ∧
        Steers s.dev core task (t.dev.task core task) ((s.dev.task core task).pc + 1) ∧
        (∀ x, (t.dev.core x).mem = (s.dev.core x).mem) ∧
        emberCrc (memRead t.dev.well a n) = leAt (memRead t.dev.well a n) 40 4 ∧
        leAt (memRead t.dev.well a n) 0 2 = h % 2 ^ 16 ∧
        leAt (memRead t.dev.well a n) 8 8 = (s.dev.task core task).progRound % 2 ^ 64 ∧
        (∀ x, (x < a ∨ a + n ≤ x) → (x < a + emPartOff r ∨ a + emPartOff r + emPartBytes r ≤ x) →
          memGet t.dev.well x = memGet s.dev.well x)) ∧
    (Issues 0x15 core task word s → Unheld s.dev core task [] (emTensors r) → s.dev.namedByXfer core task (emTensors r) = [] →
      slipsOf s.dev core task [] (emTensors r) = [] →
      s.dev.cordSlots (s.dev.task core task).job r (fun x => x == .entering || x == .primed) = [(sl, h)] →
      ∃ t, exec (.emberIn core e) s = .next t ∧ Keeps s t ∧
        Steers s.dev core task (t.dev.task core task) ((s.dev.task core task).pc + 1) ∧
        (Quiet s.dev (s.dev.task core task).job → t.dev.well = s.dev.well ∧
          ∀ x y, x ≠ core.val ∨ y < (s.dev.task core task).base ∨ (s.dev.task core task).bound ≤ y →
            memGet (t.dev.core x).mem y = memGet (s.dev.core x).mem y) ∧
        (emberCrc (s.dev.wellRead a n) ≠ leAt (s.dev.wellRead a n) 40 4 →
          (Quiet s.dev (s.dev.task core task).job → ∀ x, (t.dev.core x).mem = (s.dev.core x).mem) ∧
          (s.dev.err.handling = none → (∀ i ∈ (s.dev.stream h).items, i.trapAt ≠ some (s.dev.task core task).progRound) →
            (s.dev.task core task).cmdTrap ≠ some (s.dev.task core task).progRound →
            s.dev.err.head - s.dev.err.tail < 256 → s.dev.err.head < t.dev.err.head ∧ mget t.dev.err.recs (s.dev.err.head % 256) =
              some (errBytes { code := 0x0404, cls := clsStream, corr := false, kind := 0, task := task.val, unit := core.val, handle := some h,
                               a := 65536, b := a } false (s.dev.task core task).progRound s.dev.tb.now))) ∧
        (emberCrc (s.dev.wellRead a n) = leAt (s.dev.wellRead a n) 40 4 → t.dev.err = s.dev.err))

/-! ### The weight relay and the pumps (spec/04, spec/13) -/

/-- R154 to R158: the head of a chain injects its flits and its take begins; a flit at a port goes on to the next core while its tail lies
further on, and lands in the take that wants it, as zeros when its CRC is bad; one whose write waits goes into the buffer while that has room (R371). -/
def Obligations.RelayPassesWeightsOn : Prop :=
  ∀ (core : Fin 256) (s : State),
    (∀ (task : Fin 8) (e : TaskEv) (word : Nat), Undisturbed e task → Issues 0x03 core task word s →
      ∃ t, exec (.relay core e) s = .next t ∧ Keeps s t ∧
        Steers s.dev core task (t.dev.task core task) ((s.dev.task core task).pc + 1)) ∧
    (∀ (task : Fin 8) (e : TaskEv) (word : Nat) (t0 r : Rec), Undisturbed e task → Issues 0x03 core task word s →
      Quiet s.dev (s.dev.task core task).job →
      t0 = (s.dev.task core task).desc (wDesc word) → r = (s.dev.task core task).desc (wDesc word + 1) →
      (s.dev.core core).relay.buf = [] → (s.dev.core core).relay.past = [] → (s.dev.core core).bad = [] →
      ∃ t, exec (.relay core e) s = .next t ∧ Keeps s t ∧
        (∀ x, (t.dev.core x).mem = (s.dev.core x).mem) ∧ (∀ x, x ≠ core.val → t.dev.core x = s.dev.core x) ∧
        (rkRole r ≠ 1 → (t.dev.core core).relay.inbox = (s.dev.core core).relay.inbox) ∧
        (rkRole r = 1 → (t.dev.core core).relay.inbox.length = (s.dev.core core).relay.inbox.length + rkFlits r ∧
          ∀ i, i < rkFlits r → ∃ f, (t.dev.core core).relay.inbox[(s.dev.core core).relay.inbox.length + i]? = some f ∧ f.num = i ∧
            f.head = rkHead r ∧ f.tail = rkTail r ∧ f.crc = crc32c f.data ∧
            f.data = memRead (s.dev.core core).readable ((s.dev.task core task).base + rkSrc r + 512 * i) 512) ∧
        (0 < rkCount r → ∃ k, (t.dev.core core).relay.takes = (s.dev.core core).relay.takes.filter (fun y => decide (y.got < y.count)) ++ [k] ∧ k.head = rkHead r ∧
          k.first = rkFirst r ∧ k.count = rkCount r ∧ k.dst = (s.dev.task core task).base + tAddr t0 ∧ k.got = 0)) ∧
    (∀ (f : RFlit) (rest : List RFlit) (k : Take) (lost : Nat), s.dev.coreUp core = true → (s.dev.core core).relay.inbox = f :: rest →
      (s.dev.core core).relay.takes.find? (fun t => t.wants f.head f.pass f.num) = some k → (s.dev.core core).relay.buf.length < 16 →
      ∃ t, exec (.relayFlit core ⟨true, lost, true⟩) s = .next t ∧ Keeps s t ∧ (t.dev.core core).relay.inbox = rest ∧
        (t.dev.core core).relay.buf = (s.dev.core core).relay.buf ++ [f] ∧ (t.dev.core core).relay.takes = (s.dev.core core).relay.takes ∧
        (∀ x, (t.dev.core x).mem = (s.dev.core x).mem) ∧ t.dev.err = s.dev.err) ∧
    (∀ (f : RFlit) (rest : List RFlit) (k : Take) (crcOk : Bool) (lost : Nat), s.dev.coreUp core = true → (s.dev.core core).relay.inbox = f :: rest →
      (s.dev.core core).relay.takes.find? (fun t => t.wants f.head f.pass f.num) = some k → (s.dev.core core).relay.buf = [] →
      ∃ t, exec (.relayFlit core ⟨crcOk, lost, false⟩) s = .next t ∧ Keeps s t ∧ (t.dev.core core).relay.inbox = rest ∧
        (chainPos core < f.tail → f.head ≤ chainPos core →
          (t.dev.core (coreAtPos (core.val / 64) (chainPos core + 1))).relay.inbox =
            (s.dev.core (coreAtPos (core.val / 64) (chainPos core + 1))).relay.inbox ++ [f]) ∧
        (∀ a, memGet (t.dev.core core).mem a =
          if k.dst + 512 * (f.num - k.first) ≤ a ∧ a < k.dst + 512 * (f.num - k.first) + (if crcOk then f.data.length else 512) then
            (if crcOk then f.data.getD (a - (k.dst + 512 * (f.num - k.first))) 0 else 0)
          else memGet (s.dev.core core).mem a) ∧
        (∀ x, x ≠ core.val → (t.dev.core x).mem = (s.dev.core x).mem) ∧
        (crcOk = true → t.dev.err = s.dev.err ∧ t.dev.streams = s.dev.streams))

/-- R401, R402, R410, R412: PUMP queues its transfer at the pump that it names and moves no byte; a full queue holds the word; a read request
within the regulator's level is charged to it and to the first started transfer with bytes left; one beyond the level waits; a
drain start leaves the queue's order. A link PUMP whose route has no path sends nothing and goes on (R489). -/
def Obligations.PumpsQueueAndMeterTransfers : Prop :=
  (∀ (core : Fin 256) (task : Fin 8) (e : TaskEv) (word : Nat) (r : Rec) (x0 : Xfer) (s : State), Undisturbed e task → Issues 0x09 core task word s →
    r = (s.dev.task core task).desc (wDesc word) →
    x0 = { job := (s.dev.task core task).job, gen := (s.dev.job (s.dev.task core task).job).gen, core := core, task := task, desc := wDesc word,
           word := (s.dev.task core task).pc, round := (s.dev.task core task).progRound, started := false, charged := 0, dropped := false,
           deadline := 0, path := 0, wait := none, land := [], far := [] } →
    s.dev.interlocked core task (s.dev.xferRanges x0 false) (s.dev.xferRanges x0 true) = false →
    (2 ≤ pwKind word → (∀ i, (s.dev.job (s.dev.task core task).job).img = some i → (s.dev.job (s.dev.task core task).job).pathOf i (pdRoute r) = none) →
      ∃ t, exec (.pump core e) s = .next t ∧ Keeps s t ∧ (∀ q, t.dev.pump q = s.dev.pump q) ∧
        Steers s.dev core task (t.dev.task core task) ((s.dev.task core task).pc + 1)) ∧
    ∀ (p : PumpId) (path : Nat), (p = .core core ∧ pwKind word = 0) ∨ (∃ u v, p = .well u v ∧ u.val = core.val / 64 ∧ v.val = pdUnit r % 4 ∧ pwKind word = 1) ∨
      (∃ i l lk, p = .link lk ∧ 2 ≤ pwKind word ∧ (s.dev.job (s.dev.task core task).job).img = some i ∧ (s.dev.job (s.dev.task core task).job).pathOf i (pdRoute r) = some (path, l) ∧
        lk.val = l % 36) →
    ((s.dev.pump p).queue.length < 64 →
      ∃ t x, exec (.pump core e) s = .next t ∧ Keeps s t ∧
        Steers s.dev core task (t.dev.task core task) ((s.dev.task core task).pc + 1) ∧
        (t.dev.pump p).queue.length = (s.dev.pump p).queue.length + 1 ∧ (t.dev.pump p).queue.getLast? = some x ∧ x.core = core ∧
        x.task = task ∧ x.desc = wDesc word ∧ x.job = (s.dev.task core task).job ∧ x.gen = (s.dev.job (s.dev.task core task).job).gen ∧
        x.round = (s.dev.task core task).progRound ∧ x.charged = 0 ∧
        (Quiet s.dev (s.dev.task core task).job → (∀ y, (t.dev.core y).mem = (s.dev.core y).mem) ∧ t.dev.well = s.dev.well)) ∧
    (64 ≤ (s.dev.pump p).queue.length →
      ∃ t, exec (.pump core e) s = .next t ∧ OnlyTask s t core task ∧ (t.dev.task core task).pc = (s.dev.task core task).pc ∧
        ((t.dev.task core task).wait.map (·.kind)) = some .queue)) ∧
  (∀ (p : PumpId) (n now : Nat) (s : State), s.dev.pumpUp p = true → 1 ≤ n → n ≤ 4096 →
    (∀ i x, n * 1000 ≤ s.dev.pumpLevel p now → s.dev.nextRead p = some i → (s.dev.pump p).queue[i]? = some x →
      ∃ t, exec (.pumpReadRequest p n now) s = .next t ∧ Keeps s t ∧
        (t.dev.pump p).queue = lset (s.dev.pump p).queue i (fun x => { x with charged := x.charged + n }) ∧
        (t.dev.pump p).level = s.dev.pumpLevel p now - n * 1000 ∧ (t.dev.pump p).at_ = now ∧
        (∀ q, q ≠ p → t.dev.pump q = s.dev.pump q) ∧ (∀ y, (t.dev.core y).mem = (s.dev.core y).mem)) ∧
    (s.dev.pumpLevel p now < n * 1000 → exec (.pumpReadRequest p n now) s = .next { s with dev := s.dev.at_ now }) ∧
    (∃ t, exec (.pumpDrainStart p) s = .next t ∧ Keeps s t ∧
      ((t.dev.pump p).queue.map (fun x => { x with started := false })) = ((s.dev.pump p).queue.map (fun x => { x with started := false })) ∧
      (∀ x ∈ (s.dev.pump p).queue.zip (t.dev.pump p).queue, x.1.started = true → x.2.started = true) ∧
      (∀ x rest, (s.dev.pump p).queue = x :: rest → ((t.dev.pump p).queue.head?.map (·.started)) = some true) ∧
      (∀ q, q ≠ p → t.dev.pump q = s.dev.pump q) ∧ (∀ y, (t.dev.core y).mem = (s.dev.core y).mem)))

/-- R402, R404, R418: a plain transfer whose bytes are read copies them from its source to its destination in the cistern and leaves the
queue, touching no other byte; a transfer whose generation is no longer its job's moves nothing and leaves; one with bytes left to
read, or whose plan waits for a table, stays. -/
def Obligations.CompletedTransfersLand : Prop :=
  ∀ (p : PumpId) (x : Xfer) (now lost : Nat) (deep : Bytes) (k : Task) (r : Rec) (s : State), s.dev.pumpUp p = true →
    s.dev.nextXfer p = some x → x.started = true → (s.dev.pump p).held = none → k = s.dev.task x.core x.task → r = k.desc x.desc →
    (∀ det, ∃ t, exec (.pumpTransferComplete p now ⟨deep, lost, det⟩) s = .next t ∧ Keeps s t) ∧
    (x.charged < (s.dev.pumpPlan x deep).total ∨ (s.dev.pumpPlan x deep).waits = true →
      ∃ t, exec (.pumpTransferComplete p now ⟨deep, lost, .none⟩) s = .next t ∧ Keeps s t ∧ t.dev = { s.dev.at_ now with cntNow := t.dev.cntNow }) ∧
    (s.dev.stale x = true ∨ x.dropped = true → (s.dev.pumpPlan x deep).total ≤ x.charged → (s.dev.pumpPlan x deep).waits = false →
      ∃ t, exec (.pumpTransferComplete p now ⟨deep, lost, .none⟩) s = .next t ∧ Keeps s t ∧ (t.dev.pump p).queue = (s.dev.pump p).queue.erase x ∧
        (∀ y, (t.dev.core y).mem = (s.dev.core y).mem) ∧ t.dev.well = s.dev.well ∧ t.dev.out = s.dev.out) ∧
    (∀ (n sa ta : Nat), (∀ l, p ≠ .link l) → s.dev.stale x = false → x.dropped = false → pdMode r = 0 → pdAlloc r = false → pdTally r = false →
      tSpace (k.desc (pdSrc r)) = 0 → tSpace (k.desc (pdDst r)) = 0 → tRing (k.desc (pdSrc r)) = 0xFF → tRing (k.desc (pdDst r)) = 0xFF →
      tPeat (k.desc (pdSrc r)) = false → n = tDense (k.desc (pdDst r)) → n = tDense (k.desc (pdSrc r)) → n ≤ x.charged →
      sa = tAddr (k.desc (pdSrc r)) → ta = tAddr (k.desc (pdDst r)) → k.base + sa + n ≤ k.bound → k.base + ta + n ≤ k.bound →
      (s.dev.core x.core).bad = [] →
      ∃ t, exec (.pumpTransferComplete p now ⟨deep, lost, .none⟩) s = .next t ∧ Keeps s t ∧ (t.dev.pump p).queue = (s.dev.pump p).queue.erase x ∧
        (∀ a, memGet (t.dev.core x.core).mem a =
          if k.base + ta ≤ a ∧ a < k.base + ta + n then memGet (s.dev.core x.core).mem (k.base + sa + (a - (k.base + ta)))
          else memGet (s.dev.core x.core).mem a) ∧
        (∀ y, y ≠ x.core → (t.dev.core y).mem = (s.dev.core y).mem) ∧ t.dev.well = s.dev.well ∧
        (s.dev.replays x.job x.round = false → t.dev.err = s.dev.err))

/-! ### Release ticks, held words and result records (spec/01, spec/12, spec/13, spec/16) -/

/-- R25, R375, R376, R454, R482, R532, R413: the first RELEASE of a round on the ring of a port or of an intake queue writes the round's block into
the ring's put slot, whose tag fills; a later one writes nothing; a full put slot holds the word. Metadata apart (R222), no other core changes. A link ring takes the transfer that lands in
the round through a window that accepts it, and is held while its slot is full; with none come, or one that has not come whole, the slot slips and the items that the word serves fail with
0x0901 (a replay takes such failures from its log). A crossing ring of the well takes the oldest transfer that has landed. A ring of another source is released by no tick. -/
def Obligations.ReleaseTicksFillSlots : Prop :=
  ∀ (core : Fin 256) (task : Fin 8) (e : TaskEv) (word : Nat) (k : Task) (s : State), Undisturbed e task → Issues 0x0A core task word s → k = s.dev.task core task →
    ((∀ x, k.ring? (bits (wArgs word) 0 8) = some x → srSource x.decl < 2 ∨ 5 < srSource x.decl) →
      ∃ t, exec (.release core e) s = .next t ∧ OnlyTask s t core task ∧ Steers s.dev core task (t.dev.task core task) (k.pc + 1)) ∧
    ∀ (x : Ring) (ring : Nat), ring = bits (wArgs word) 0 8 → k.ring? ring = some x →
      (∀ blk : Bytes, (srSource x.decl = 3 ∧ blk = s.dev.intakeBlock (srProducer x.decl) k.progRound) ∨
          (∃ i r, srSource x.decl = 2 ∧ (s.dev.job k.job).img = some i ∧
            i.portRoutes.find? (fun y => prDir y == 0 && prCore y == core.val && prTask y == task.val && prRing y == ring) = some r ∧
            blk = s.dev.portBlock r k.progRound) →
        (ring ∈ k.released →
          ∃ t, exec (.release core e) s = .next t ∧ Keeps s t ∧ Steers s.dev core task (t.dev.task core task) (k.pc + 1) ∧
            (∀ y, (t.dev.core y).mem = (s.dev.core y).mem ∧ (t.dev.core y).tags = (s.dev.core y).tags) ∧
            (t.dev.task core task).rings = k.rings) ∧
        (ring ∉ k.released → s.dev.ringFails core task (ring, true) = true → s.dev.wellQueued ⟨core, task, k.pc⟩ ring = [] →
          ∃ t, exec (.release core e) s = .next t ∧ Keeps s t ∧ (t.dev.task core task).pc = k.pc ∧
            ((t.dev.task core task).wait.map (·.kind)) = some (.ring ring true) ∧
            ((t.dev.core core).tag (ringTag x true)).wait = true ∧ (t.dev.task core task).rings = k.rings ∧
            (∀ y, (t.dev.core y).mem = (s.dev.core y).mem)) ∧
        (ring ∉ k.released → s.dev.ringFails core task (ring, true) = false → k.putSlot x + blk.length ≤ k.bound →
          ∃ t, exec (.release core e) s = .next t ∧ Keeps s t ∧ Steers s.dev core task (t.dev.task core task) (k.pc + 1) ∧
            (t.dev.task core task).ring? ring = some { x with put := (x.put + 1) % max 1 (srSlots x.decl) } ∧
            (t.dev.core core).tag (ringTag x true) = ⟨true, false, ((s.dev.core core).tag (ringTag x true)).slipped⟩ ∧ ring ∈ (t.dev.task core task).released ∧
            (s.dev.anyVoid k.progRound = false → (∀ i, (s.dev.job k.job).img = some i → ∀ c ∈ i.classes, fld c.1 20 2 ≠ core.val) → ∀ a, memGet (t.dev.core core).mem a =
              if k.putSlot x ≤ a ∧ a < k.putSlot x + blk.length then blk.getD (a - k.putSlot x) 0 else memGet (s.dev.core core).mem a) ∧
            (∀ y, y ≠ core.val → (∀ i, (s.dev.job k.job).img = some i → ∀ c ∈ i.classes, fld c.1 20 2 ≠ y) → t.dev.core y = s.dev.core y))) ∧
      (srSource x.decl = 4 → s.dev.landings k.job core x k.progRound = [] → ring ∈ k.released →
        ∃ t, exec (.release core e) s = .next t ∧ OnlyTask s t core task ∧ Steers s.dev core task (t.dev.task core task) (k.pc + 1)) ∧
      (∀ ys, srSource x.decl = 4 → s.dev.named k.job core x k.progRound = ys →
        (ys = [] ∨ ∃ l i y, ys = [(l, i, y)] ∧ y.whole = false ∧ y.late = false) → s.dev.loggedFails k.job k.progRound 0x0901 = none → ring ∉ k.released →
        ∃ t, exec (.release core e) s = .next t ∧ Keeps s t ∧ Steers s.dev core task (t.dev.task core task) (k.pc + 1) ∧
          (t.dev.task core task).ring? ring = some { x with put := (x.put + 1) % max 1 (srSlots x.decl) } ∧
          (t.dev.core core).tag (ringTag x true) =
            ⟨true, s.dev.ringFails core task (ring, true) && ((s.dev.core core).tag (ringTag x true)).wait, true⟩ ∧
          (∀ h ∈ s.dev.opHandles core task k.pc, (t.dev.stream h).items = (s.dev.stream h).items.map (fun i =>
            if i.runs (s.dev.rounds h) k.progRound = true ∧ i.failed = 0 then { i with failed := 0x0901 } else i)) ∧
          (∀ h, h ∉ s.dev.opHandles core task k.pc → t.dev.stream h = s.dev.stream h) ∧
          (∀ l i y, ys = [(l, i, y)] → (t.dev.link l).rx.length + 1 = (s.dev.link l).rx.length) ∧
          (∀ y, y ≠ core.val → t.dev.core y = s.dev.core y)) ∧
      (srSource x.decl = 4 → s.dev.named k.job core x k.progRound ≠ [] → (∀ y ∈ s.dev.named k.job core x k.progRound, y.2.2.whole = true ∧ y.2.2.late = false) →
        ring ∈ k.released ∨ s.dev.loggedFails k.job k.progRound 0x0901 = none → s.dev.ringFails core task (ring, true) = true →
        ∃ t, exec (.release core e) s = .next t ∧ Keeps s t ∧ (t.dev.task core task).pc = k.pc ∧ t.dev.links = s.dev.links ∧
          ((t.dev.task core task).wait.map (·.kind)) = some (.ring ring true) ∧ (∀ y, (t.dev.core y).mem = (s.dev.core y).mem)) ∧
      (∀ l i y win, srSource x.decl = 4 → s.dev.named k.job core x k.progRound = [(l, i, y)] → (s.dev.link l).rx[i]? = some y →
        y.whole = true → y.late = false → ring ∈ k.released ∨ s.dev.loggedFails k.job k.progRound 0x0901 = none → s.dev.ringFails core task (ring, true) = false →
        s.dev.accepts core y.writer (k.putSlot x + thAddr y.data) (thData y.data).length = some win →
        k.putSlot x + thAddr y.data + (thData y.data).length ≤ k.bound →
        ∃ t, exec (.release core e) s = .next t ∧ Keeps s t ∧ Steers s.dev core task (t.dev.task core task) (k.pc + 1) ∧
          (t.dev.task core task).ring? ring = some { x with put := (x.put + 1) % max 1 (srSlots x.decl) } ∧
          (t.dev.core core).tag (ringTag x true) = ⟨true, false, ((s.dev.core core).tag (ringTag x true)).slipped⟩ ∧
          (t.dev.link l).rx.length + 1 = (s.dev.link l).rx.length ∧
          (∀ a, memGet (t.dev.core core).mem a =
            if k.putSlot x + thAddr y.data ≤ a ∧ a < k.putSlot x + thAddr y.data + (thData y.data).length then
              (thData y.data).getD (a - (k.putSlot x + thAddr y.data)) 0
            else memGet (s.dev.core core).mem a) ∧
          (∀ y, y ≠ core.val → t.dev.core y = s.dev.core y)) ∧
      (∀ y, srSource x.decl = 5 → s.dev.wellQueued ⟨core, task, k.pc⟩ ring = [] →
        oldest (s.dev.wellLanded ⟨core, task, k.pc⟩ ring) = some y → s.dev.ringFails core task (ring, true) = false →
        ∃ t, exec (.release core e) s = .next t ∧ Keeps s t ∧ Steers s.dev core task (t.dev.task core task) (k.pc + 1) ∧
          (t.dev.task core task).ring? ring = some { x with put := (x.put + 1) % max 1 (srSlots x.decl) } ∧
          (t.dev.core core).tag (ringTag x true) = ⟨true, false, ((s.dev.core core).tag (ringTag x true)).slipped⟩ ∧
          (t.dev.core core).landed = (s.dev.core core).landed.erase y ∧
          (t.dev.core core).mem = ((s.dev.core core).storeAll ((y.land.map (fun w => (k.putSlot x + w.1, w.2))).filter
            (fun w => decide (w.1 + w.2.length ≤ k.bound)))).mem ∧
          (∀ y, y ≠ core.val → t.dev.core y = s.dev.core y))

/-- R165, R378, R401: an engine word held by an elastic ring or an interlock goes on once nothing holds it any more, from the access it was
about to make: it runs to its end in its task's region. While an elastic ring of it still fails its tag test the word stays held, with no byte
changed. The two events touch no wait of another kind, and no wait that has outlasted its budget. A core's write that waits at a full slot of another core's elastic
ring lands once the slot is empty. -/
def Obligations.HeldWordsGoOn : Prop :=
  (∀ (core : Fin 256) (task : Fin 8) (e : TaskEv) (word cycle : Nat) (w : Wait) (k : Task) (s : State), s.dev.up = true → Undisturbed e task →
    (s.dev.core core).pump.held = none ∨ s.dev.farTask core ≠ task.val →
    s.dev.taskRuns core task = true → s.dev.curWordOf core task = some word → k = s.dev.task core task → k.wait = some w →
    (s.dev.overdue core task word w = true → exec (.elasticWaitEnd core e cycle) s = .next s ∧ exec (.interlockWaitEnd core e cycle) s = .next s) ∧
    (s.dev.overdue core task word w = false → (5 ≤ wOpcode word ∧ wOpcode word ≤ 8) ∨ wOpcode word = 0x10 →
      (Unheld s.dev core task (engineUses k word).1 (engineUses k word).2 →
        ((∃ r wr, w.kind = .ring r wr) → ∃ t, exec (.elasticWaitEnd core e cycle) s = .next t ∧ GoesOn s t core task cycle) ∧
        (w.kind = .interlock ∨ w.kind = .queue ∨ (∃ ps, w.kind = .drain ps) → ∃ t, exec (.interlockWaitEnd core e cycle) s = .next t ∧ GoesOn s t core task cycle)) ∧
      (s.dev.engineHeld ⟨core, task, k.pc⟩ word = false → (∃ u ∈ k.ringUses (engineUses k word).1 (engineUses k word).2, s.dev.ringFails core task u = true ∧ k.elastic u.1 = true) →
        ((∃ r wr, w.kind = .ring r wr) → ∃ t, exec (.elasticWaitEnd core e cycle) s = .next t ∧ StaysHeld s t core task word) ∧
        (w.kind = .interlock ∨ w.kind = .queue ∨ (∃ ps, w.kind = .drain ps) → ∃ t, exec (.interlockWaitEnd core e cycle) s = .next t ∧ StaysHeld s t core task word))) ∧
    ((∀ r wr, w.kind ≠ .ring r wr) → exec (.elasticWaitEnd core e cycle) s = .next s) ∧
    (w.kind ≠ .interlock → w.kind ≠ .queue → (∀ ps, w.kind ≠ .drain ps) → exec (.interlockWaitEnd core e cycle) s = .next s)) ∧
  (∀ (core : Fin 256) (e : TaskEv) (cycle k ring : Nat) (h : FarWrite) (x : Xfer) (s : State), s.dev.up = true → s.dev.farTask core = e.task.val →
    (∀ r wr, (s.dev.task core e.task).wait.map (·.kind) ≠ some (.ring r wr)) → (s.dev.core core).pump.held = some h →
    s.dev.putRing core h.target h.off h.data.length = some (k, ring) → s.dev.farXfer core = some x →
    x.far.find? (fun f => f.core == h.target && f.task == k && f.ring == ring) = none →
    s.dev.outlasted x.job x.round h.began ((s.dev.task h.target k).budget ring) = false →
    (s.dev.ringFails h.target k (ring, true) = true → exec (.elasticWaitEnd core e cycle) s = .next s) ∧
    (s.dev.ringFails h.target k (ring, true) = false →
      ∃ t, exec (.elasticWaitEnd core e cycle) s = .next t ∧ Keeps s t ∧ (t.dev.core core).pump.held = none ∧
        (∀ a, memGet (t.dev.core h.target).mem a =
          if h.off ≤ a ∧ a < h.off + h.data.length then h.data.getD (a - h.off) 0 else memGet (s.dev.core h.target).mem a) ∧
        (∀ y, y ≠ h.target → (t.dev.core y).mem = (s.dev.core y).mem)))

/-- R25, R332, R534, R535: RESULT empties its slot. A slot whose only record fits one entry of the result ring that names the slot ring posts it at
DEVIDX with the ring's PHASE, and DEVIDX advances; the record of an item that failed or met a detection posts nothing; with no such result ring E_RING_UNBOUND is written. The layout of the records in a slot is the
model's (entry 56). A waiting entry leaves its backlog once its ring has room. -/
def Obligations.ResultsReachTheirRing : Prop :=
  (∀ (core : Fin 256) (task : Fin 8) (e : TaskEv) (word now ring : Nat) (x : Ring) (k : Task) (prov : Bool) (s : State), Undisturbed e task → Issues 0x16 core task word s →
    k = s.dev.task core task → ring = bits (wArgs word) 0 8 → prov = bit (wArgs word) 8 → k.ring? ring = some x →
    s.dev.ringFails core task (ring, false) = false →
    (∃ t, exec (.result core e now) s = .next t ∧ Keeps s t ∧ Steers s.dev core task (t.dev.task core task) (k.pc + 1) ∧
      (∀ y, (t.dev.core y).mem = (s.dev.core y).mem)) ∧
    ((s.dev.core core).bad = [] → ∃ t, exec (.result core e now) s = .next t ∧ Keeps s t ∧ Steers s.dev core task (t.dev.task core task) (k.pc + 1) ∧
      (t.dev.task core task).ring? ring = some { x with get := (x.get + 1) % max 1 (srSlots x.decl) } ∧
      (t.dev.core core).tag (ringTag x false) = ⟨false, false, ((s.dev.core core).tag (ringTag x false)).slipped⟩ ∧ (∀ y, (t.dev.core y).mem = (s.dev.core y).mem) ∧
      (s.dev.resultRing core task ring prov = none → t.dev.streams = s.dev.streams ∧ t.dev.rings = s.dev.rings ∧
        (s.dev.err.head - s.dev.err.tail < 256 → mget t.dev.err.recs (s.dev.err.head % 256) = some (errBytes
          { code := 0x0A06, kind := 0, task := task.val, unit := core.val } s.dev.err.handling.isSome k.progRound (max s.dev.tb.now now)))) ∧
      (∀ n h payload i, s.dev.resultRing core task ring prov = some n →
        slotRecords (srBytes x.decl) (memRead (s.dev.core core).readable (k.base + srBase x.decl + x.get * srBytes x.decl) (srBytes x.decl)) =
          [(h, payload)] →
        s.dev.recordItem k.progRound (rrHandle h) (rrUnit h) (rrFirst h) = some i → (s.dev.stream (rrHandle h)).job = k.job →
        (i.detected ≠ 0 ∨ i.failed ≠ 0 → 1 ≤ s.dev.regF (ringOff 3 n + 8) 16 8 → s.dev.regF (ringOff 3 n + 8) 16 8 ≤ 64 →
          t.dev.out = s.dev.out ∧ t.dev.rings = s.dev.rings) ∧
        (∀ size, size = 64 * s.dev.regF (ringOff 3 n + 8) 16 8 → prov = false → i.detected = 0 → i.failed = 0 → i.replayed = false →
          1 ≤ s.dev.regF (ringOff 3 n + 8) 16 8 → s.dev.regF (ringOff 3 n + 8) 16 8 ≤ 64 → payload.length ≤ size - 32 →
          (s.dev.ring (ringKey 3 n)).backlog = [] → s.dev.ringRoom 3 n = true → (∀ p ∈ s.dev.provs, p.handle ≠ rrHandle h) →
          HostOut.entry 3 n (s.dev.ring (ringKey 3 n)).devIdx (withPhase (resultEntry size h payload false false false now) 4
            (s.dev.phase 3 n (s.dev.ring (ringKey 3 n)).devIdx)) ∈ t.dev.out.drop s.dev.out.length ∧
          (t.dev.ring (ringKey 3 n)).devIdx = ((s.dev.ring (ringKey 3 n)).devIdx + 1) % 2 ^ 32 ∧ t.dev.err = s.dev.err)))) ∧
  (∀ (rk : RingKind) (n : Fin 32) (b : Bytes) (rest : List Bytes) (s : State), s.dev.kindle.localReady = true →
    (s.dev.ring (ringKey (ringCode rk) n)).backlog = b :: rest →
    ((rk = .cq ∨ rk = .rq) → s.dev.ringRoom (ringCode rk) n = true →
      ∃ t, exec (.resultBacklogDrain rk n) s = .next t ∧ Keeps s t ∧ (t.dev.ring (ringKey (ringCode rk) n)).backlog = rest ∧
        (t.dev.ring (ringKey (ringCode rk) n)).devIdx = ((s.dev.ring (ringKey (ringCode rk) n)).devIdx + 1) % 2 ^ 32 ∧
        HostOut.entry (ringCode rk) n (s.dev.ring (ringKey (ringCode rk) n)).devIdx (withPhase b (phaseAt (ringCode rk))
          (s.dev.phase (ringCode rk) n (s.dev.ring (ringKey (ringCode rk) n)).devIdx)) ∈ t.dev.out.drop s.dev.out.length ∧
        t.dev = { s.dev with rings := t.dev.rings, out := t.dev.out, msix := t.dev.msix }) ∧
    (s.dev.ringRoom (ringCode rk) n = false → exec (.resultBacklogDrain rk n) s = .next s))

/-! ### Adaptation (spec/11) -/

/-- R36, R77, R346, R350 to R354: ADAPT_SPAN that begins a span goes on with the next word, and in a round that yields adaptation with the word that
ends the span. The end of a span that is not the program's last, and one of a round that yields, changes its own task alone. At the end of the last span
of a round that does not yield, an adapter with host targets counts the round's samples once: before its last round it adds them; a step without
samples starts again; a step of a task with NAN_TRAP whose spans met a NaN or an infinity is discarded (which infinities count: entry 80); a step whose
values are all finite stores the update and switches the copies in the round after. -/
def Obligations.AdaptationSpansCountSamples : Prop :=
  ∀ (core : Fin 256) (task : Fin 8) (e : TaskEv) (word : Nat) (k : Task) (w : Who) (s : State), Undisturbed e task → Issues 0x18 core task word s → k = s.dev.task core task →
    w = ⟨core, task, k.pc⟩ →
    (bit (wArgs word) 0 = true → s.dev.yields w = false →
      ∃ t, exec (.adaptSpan core e) s = .next t ∧ OnlyTask s t core task ∧ Steers s.dev core task (t.dev.task core task) (k.pc + 1) ∧
        (t.dev.task core task).adapting = true) ∧
    (bit (wArgs word) 0 = true → s.dev.yields w = true →
      ∀ m, k.pc < m → m < k.schedWords → wOpcode (s.dev.wordAt core task m) = 0x18 → bit (wArgs (s.dev.wordAt core task m)) 0 = false →
        (∀ j, k.pc < j → j < m → wOpcode (s.dev.wordAt core task j) ≠ 0x18 ∨ bit (wArgs (s.dev.wordAt core task j)) 0 = true) →
        ∃ t, exec (.adaptSpan core e) s = .next t ∧ OnlyTask s t core task ∧ (t.dev.task core task).wait = none ∧
          ((∀ l, k.loop = some l → m ≤ l.last) → s.dev.shed w = false ∨ (specSpans ((List.range k.schedWords).map (s.dev.wordAt core task))).getD m none = none →
            (t.dev.task core task).pc = m ∧ (t.dev.task core task).loop = k.loop)) ∧
    (bit (wArgs word) 0 = false → s.dev.yields w = true ∨ s.dev.lastSpan w = false ∨ s.dev.adaptersOf core task = [] →
      ∃ t, exec (.adaptSpan core e) s = .next t ∧ OnlyTask s t core task ∧ Steers s.dev core task (t.dev.task core task) (k.pc + 1)) ∧
    (∀ (a : Rec) (p : AdpState) (n : Nat), bit (wArgs word) 0 = false → s.dev.yields w = false → s.dev.lastSpan w = true →
      s.dev.adaptersOf core task = [a] → adHost a = true → (s.dev.core core).bad = [] → p = (s.dev.job k.job).adp (adNum a) → p.seen ≠ k.progRound + 1 →
      n = p.n + (s.dev.samplesFor a k.progRound).length →
      ∃ t, exec (.adaptSpan core e) s = .next t ∧ Keeps s t ∧ Steers s.dev core task (t.dev.task core task) (k.pc + 1) ∧
        (t.dev.task core task).adapting = false ∧
        t.dev.job k.job = { s.dev.job k.job with adps := (t.dev.job k.job).adps } ∧ t.dev.streams = s.dev.streams ∧
        t.dev.well = s.dev.well ∧ (∀ y, y ≠ core.val → t.dev.core y = s.dev.core y) ∧
        (∀ b, b ≠ adNum a → (t.dev.job k.job).adp b = (s.dev.job k.job).adp b) ∧
        (s.dev.spanNan w = true → (t.dev.job k.job).adp (adNum a) =
          { p with step := 0, n := 0, seen := k.progRound + 1, discards := min 255 (p.discards + 1) }) ∧
        (s.dev.spanNan w = false → p.step + 1 < adSteps a → (t.dev.core core).mem = (s.dev.core core).mem ∧
          (t.dev.job k.job).adp (adNum a) = { p with step := p.step + 1, n := n, seen := k.progRound + 1 }) ∧
        (s.dev.spanNan w = false → adSteps a ≤ p.step + 1 → n = 0 → (t.dev.core core).mem = (s.dev.core core).mem ∧
          (t.dev.job k.job).adp (adNum a) = { p with step := 0, n := 0, seen := k.progRound + 1, discards := min 255 p.discards }) ∧
        (s.dev.spanNan w = false → adSteps a ≤ p.step + 1 → 0 < n →
          (∀ h, h < 2 → (s.dev.updateHalf w a h n (p.gen % 2 == 1)).inner = true ∧ (s.dev.updateHalf w a h n (p.gen % 2 == 1)).kept = true) →
          (t.dev.job k.job).adp (adNum a) =
            { p with step := 0, n := 0, seen := k.progRound + 1, discards := min 255 p.discards, switchAt := some (k.progRound + 1) }))

/-! ### Traps, watchdogs, trips, scrubs (spec/03, spec/12, spec/17, spec/19) -/

/-- R129, R130, R132, R133, R353, R549: a NaN that a task with NAN_TRAP noted fails the item of a stream that its word serves, where that item runs in the NaN's round, with
0x0302, or counts as the trap of the command item of its round; each traps once, and one in an adaptation span traps no stream's item but is remembered. The first trap of a
task is shown in COR_NANTRAP until the host clears it. Without NAN_TRAP, and where the item has trapped or been detected or its stream is not served, nothing changes. The next queued action is handled once none is. The trap of the command
item and the choice among rounds are the model's reading (entry 38). -/
def Obligations.NanTrapsAndRecordHandling : Prop :=
  (∀ (core : Fin 256) (task : Fin 8) (word elem : Nat) (handle : Option (Fin 32768)) (n : NanCand) (k : Task) (s : State), s.dev.up = true →
    k = s.dev.task core task → k.nanAt word elem = some n →
    (k.nanTrap = true → (∀ h : Fin 32768, handle = some h → s.dev.spanWord core task n.word = false ∧ h.val ∈ s.dev.opHandlesAt core task n.word n.round ∧
        ∃ i ∈ (s.dev.stream h).items, s.dev.trapsItem h n.round i = true) →
      (handle = none → k.cmdTrap ≠ some n.round) →
      ∃ t, exec (.nanTrap core task word elem handle) s = .next t ∧ Keeps s t ∧
        (t.dev.task core task).cands = k.nansAfter word elem ∧ (t.dev.task core task).trapped = true ∧
        (n.round = k.progRound → s.dev.spanWord core task n.word = true → (t.dev.task core task).spanNan = true) ∧
        (t.dev.task core task).cmdTrap = (if handle.isNone then some n.round else k.cmdTrap) ∧
        (k.trapA < 2 ^ 63 → bits (t.dev.task core task).trapA 0 15 = n.word % 2 ^ 15 ∧
          bits (t.dev.task core task).trapA 16 15 = ((handle.map Fin.val).getD 0) ∧ bit (t.dev.task core task).trapA 31 = handle.isNone ∧
          bits (t.dev.task core task).trapA 32 3 = n.engine % 8 ∧ bits (t.dev.task core task).trapA 35 4 = n.operand % 16 ∧
          bit (t.dev.task core task).trapA 63 = true ∧ (t.dev.task core task).trapElem = elem ∧ (t.dev.task core task).trapRound = n.round) ∧
        (2 ^ 63 ≤ k.trapA → (t.dev.task core task).trapA = k.trapA ∧ (t.dev.task core task).trapElem = k.trapElem) ∧
        (∀ h, handle = some h → (t.dev.stream h).items = (s.dev.stream h).items.map (fun i =>
          if s.dev.trapsItem h n.round i = true then { i with trapAt := some n.round, failed := if i.failed = 0 then 0x0302 else i.failed } else i)) ∧
        (∀ h : Nat, (∀ g, handle = some g → g.val ≠ h) → t.dev.stream h = s.dev.stream h) ∧
        (s.dev.err.head - s.dev.err.tail < 256 → mget t.dev.err.recs (s.dev.err.head % 256) = some (errBytes
          { code := 0x0302, kind := 0, task := task.val, unit := core.val, corr := false, handle := handle.map Fin.val,
            a := n.word % 2 ^ 15 + n.engine % 8 * 2 ^ 15 + n.operand % 16 * 2 ^ 18, b := elem } s.dev.err.handling.isSome n.round s.dev.tb.now)) ∧
        (∀ x, (t.dev.core x).mem = (s.dev.core x).mem)) ∧
    (k.nanTrap = false ∨ (∃ h, handle = some h ∧ (s.dev.spanWord core task n.word = true ∨ h.val ∉ s.dev.opHandlesAt core task n.word n.round ∨
          ∀ i ∈ (s.dev.stream h).items, s.dev.trapsItem h n.round i = false)) ∨
        (handle = none ∧ k.cmdTrap = some n.round) →
      exec (.nanTrap core task word elem handle) s = .next s)) ∧
  (∀ (a : Action) (rest : List Action) (s : State), s.dev.up = true → s.dev.err.handling = none → s.dev.err.queue = a :: rest →
    exec .errorRecordHandle s = .next { s with dev := { s.dev with err := { s.dev.err with handling := some a, queue := rest } } }) ∧
  (∀ (a : Action) (s : State), s.dev.err.handling = some a → exec .errorRecordHandle s = .next s)

/-- R538, R543, R546, R550, R608: the management core's watchdog and the two trips write a record of class DEVICE and start a halt; a trip drives
FAULT_N low at once. A task that has passed four marks within one program halts with a record of class TASK; before that its watchdog does nothing. -/
def Obligations.WatchdogsAndTripsStop : Prop :=
  (∀ (s : State), s.dev.up = true →
    (∃ t, exec .vmcWatchdog s = .next t ∧ StartsHalt s t 0x0405 s.dev.kindle.faultN) ∧
    (∃ t, exec .thermalTrip s = .next t ∧ StartsHalt s t 0x0B04 false) ∧
    (∃ t, exec .powerTrip s = .next t ∧ StartsHalt s t 0x0B05 false)) ∧
  (∀ (core : Fin 256) (task : Fin 8) (k : Task) (s : State), s.dev.up = true → k = s.dev.task core task →
    (k.state = .running ∨ k.state = .overrun → 4 ≤ k.passed →
      ∃ t, exec (.taskWatchdog core task) s = .next t ∧ Keeps s t ∧ (t.dev.task core task).state = .stopped ∧
        (t.dev.task core task).wait = none ∧ (t.dev.task core task).pc = k.pc ∧ (∀ x, (t.dev.core x).mem = (s.dev.core x).mem) ∧
        t.dev.well = s.dev.well ∧ t.dev.jobs = s.dev.jobs ∧
        ((∀ h ∈ s.dev.taskHandles core task, ∀ i ∈ (s.dev.stream h).items, i.trapAt ≠ some k.progRound) → k.cmdTrap ≠ some k.progRound → s.dev.err.head - s.dev.err.tail < 256 → mget t.dev.err.recs (s.dev.err.head % 256) = some (errBytes
          { code := 0x0405, cls := 2, kind := 0, task := task.val, unit := core.val, corr := false
            handle := (s.dev.taskHandles core task).head?
            a := (s.dev.runningItems k.progRound (s.dev.taskHandles core task)).length
            b := s.dev.lowestSeq k.progRound (s.dev.taskHandles core task) } s.dev.err.handling.isSome k.progRound s.dev.tb.now))) ∧
    (k.passed < 4 → exec (.taskWatchdog core task) s = .next s))

/-- R86, R366, R387 to R390, R430, R433, R546: the scrub of a killed job leaves no byte, tag or tally on its cores and releases their locks; once its well
pages are clear too the job is EMPTY. The scrub of a contained slice puts its cores in maintenance, and at its end their cisterns are empty and the
slice is RETIRED. The patrol reads the next word of a WEIGHT bank or writes a corrected one back, in ascending order with a wrap, and changes no
byte; a word that it finds uncorrectable is marked as one; a RETIRING table slot that no earlier request can name becomes EMPTY, and a pending load takes it; a refetch ends the maintenance of its
core, whose WEIGHT banks hold no bad word any more. When maintenance
ends is the model's reading (entry 35). -/
def Obligations.ScrubsClearAndPatrolsRead : Prop :=
  ((∀ (j : Fin 16) (wellToo : Bool) (s : State), s.dev.up = true →
    ((s.dev.job j).state = .killed →
      ∃ t, exec (.killScrubComplete j wellToo) s = .next t ∧ Keeps s t ∧
        (∀ c ∈ (s.dev.job j).cores, (t.dev.core c).mem = [] ∧ (t.dev.core c).maint = ((s.dev.slice (c / 64)).state == .scrubbing) ∧ (t.dev.core c).tags = [] ∧ (t.dev.core c).tallies = [] ∧ (t.dev.core c).acc = [] ∧
          (t.dev.core c).windows = [] ∧ (t.dev.core c).scale = [] ∧ (t.dev.core c).locked = false ∧ ∀ k, (t.dev.task c k).state = .none) ∧
        (∀ c, c ∉ (s.dev.job j).cores → t.dev.core c = s.dev.core c) ∧
        (wellToo = true ∨ (∀ z ∈ s.dev.zeroing, z.1 ≠ j.val) → (t.dev.job j).state = .empty ∧ (t.dev.job j).img = none) ∧
        (wellToo = false → (∃ z ∈ s.dev.zeroing, z.1 = j.val) → (t.dev.job j).state = .killed ∧ (t.dev.job j).clear = true ∧
          t.dev.zeroing = s.dev.zeroing)) ∧
    ((s.dev.job j).state ≠ .killed → exec (.killScrubComplete j wellToo) s = .next s)) ∧
  (∀ (sl : Fin 4) (s : State), s.dev.up = true →
    ((s.dev.slice sl).state = .contained →
      ∃ t, exec (.sliceScrubStart sl) s = .next t ∧ Keeps s t ∧ (t.dev.slice sl).state = .scrubbing ∧
        (∀ c, c / 64 = sl.val → t.dev.core c = { s.dev.core c with maint := true }) ∧
        (∀ c, c / 64 ≠ sl.val → t.dev.core c = s.dev.core c)) ∧
    ((s.dev.slice sl).state ≠ .contained → exec (.sliceScrubStart sl) s = .next s) ∧
    ((s.dev.slice sl).state = .scrubbing →
      ∃ t, exec (.sliceScrubComplete sl) s = .next t ∧ Keeps s t ∧ (t.dev.slice sl).state = .retired ∧
        (∀ c, c / 64 = sl.val → (t.dev.core c).mem = [] ∧ (t.dev.core c).maint = (s.dev.core c).locked ∧ (t.dev.core c).tags = [] ∧ (t.dev.core c).acc = [] ∧ (t.dev.core c).scale = [] ∧
          ∀ k, (t.dev.task c k).state = .none) ∧
        (∀ c, c / 64 ≠ sl.val → t.dev.core c = s.dev.core c) ∧ t.dev.well = s.dev.well) ∧
    ((s.dev.slice sl).state ≠ .scrubbing → exec (.sliceScrubComplete sl) s = .next s))) ∧
  (∀ (core : Fin 256) (s : State), s.dev.up = true →
    (∀ (bank : Fin 48) (det : Detect),
      (mgetD (s.dev.core core).roles bank 0 ≠ 1 ∨ s.dev.coreActive core = false → exec (.scrubPatrol core bank det) s = .next s) ∧
      (mgetD (s.dev.core core).roles bank 0 = 1 → s.dev.coreActive core = true →
        ∃ t, exec (.scrubPatrol core bank det) s = .next t ∧ Keeps s t ∧ (∀ x, (t.dev.core x).mem = (s.dev.core x).mem) ∧
          ((∀ b a, det ≠ .eccUncorrectable b a) → ∀ x, (t.dev.core x).bad = (s.dev.core x).bad) ∧
          (∀ v, mget (s.dev.core core).patrolWb bank = some v → (t.dev.core core).bad = (s.dev.core core).bad ∧
            mgetD (t.dev.core core).patrolPos bank 0 = mgetD (s.dev.core core).patrolPos bank 0) ∧
          (mget (s.dev.core core).patrolWb bank = none →
            mgetD (t.dev.core core).patrolPos bank 0 = (mgetD (s.dev.core core).patrolPos bank 0 + 1) % 1024 ∧
            (∀ b a, det = .eccUncorrectable b a → (t.dev.core core).bad = mset (s.dev.core core).bad (a / 8) 1) ∧
            (∀ n, det = .eccCorrected n → 0 < n → mget (t.dev.core core).patrolWb bank = some (mgetD (s.dev.core core).patrolPos bank 0 + 1)) ∧
            ((∀ n, det = .eccCorrected n → n = 0) → mget (t.dev.core core).patrolWb bank = none)))) ∧
    (∀ (slot : Fin 4) (g : GenSlot), (s.dev.core core).gens[slot.val]? = some g →
      (g.state = 2 → s.dev.earlierRequests core g.gen g.retired = false →
        ∃ t, exec (.expSlotRelease core slot) s = .next t ∧ Keeps s t ∧ t.dev = { s.dev with cores := t.dev.cores } ∧
          (∀ x, x ≠ core.val → t.dev.core x = s.dev.core x) ∧ (t.dev.core core).mem = (s.dev.core core).mem ∧
          (t.dev.core core).gens.length = (s.dev.core core).gens.length ∧
          ((s.dev.core core).pendLoads = [] → (t.dev.core core).gens[slot.val]? = some GenSlot.reset ∧
            ∀ i, i ≠ slot.val → (t.dev.core core).gens[i]? = (s.dev.core core).gens[i]?) ∧
          (∀ l rest, (s.dev.core core).pendLoads = l :: rest → (t.dev.core core).pendLoads = rest ∧
            ∃ y ∈ (t.dev.core core).gens, y.state = 1 ∧ y.gen = l.gen ∧ y.values = l.values)) ∧
      (g.state ≠ 2 ∨ s.dev.earlierRequests core g.gen g.retired = true → exec (.expSlotRelease core slot) s = .next s)) ∧
    ((s.dev.core core).maint = true → (s.dev.core core).locked = false → s.dev.coreActive core = true → s.dev.sliceUp (core.val / 64) = true →
      ∃ t, exec (.weightRefetchComplete core) s = .next t ∧ Keeps s t ∧ t.dev = { s.dev with cores := t.dev.cores } ∧
        (∀ x, x ≠ core.val → t.dev.core x = s.dev.core x) ∧
        t.dev.core core = { s.dev.core core with maint := false, bad := (t.dev.core core).bad } ∧
        ∀ w v, (w, v) ∈ (t.dev.core core).bad ↔ (w, v) ∈ (s.dev.core core).bad ∧ mgetD (s.dev.core core).roles (bankOf (8 * w)) 0 ≠ 1))

/-! ### TDM ports (spec/14) -/

/-- R444, R457, R458, R459, R460, R464, R465, R582: until the time base is aligned a complete frame is discarded; after that a port in service that seeks, has stopped, or meets a sync where it expects one opens a frame with the sync's
stamp, its own unless it shares FSYNC_SH (whose edge is whose: entry 124); a misplaced sync in a locked port opens a repeat frame, and an early one makes the frame that it cuts short a repeat. A complete frame is queued
under the next sequence number with its slots' decoded samples, and behind it the repeats that waited for it. A missing sync, a clock stop and the
stop's timer make repeats with the stamps that the rules give, and touch no other port, job or stream; a repeat of a missing sync or of a frame cut short follows the frames before it. None of them touches a core. A play route whose queue holds fewer than two blocks takes the full slot of its ring as the next
block, and the slot is empty. A port that is not stopped declares a stop; one that had no frame before makes no repeats (entry 124). The place of the repeats among frames in progress is the model's reading (entry 67). -/
def Obligations.PortsFrameAndPlay : Prop :=
  (∀ (p : Fin 16) (now st : Nat) (x : Port) (q : List CrossItem) (s : State), s.dev.up = true → s.dev.tb.aligned = true →
    s.dev.portUp p = true → x = s.dev.port p →
    q = (s.dev.crossQ (srcKey 0 p)).items → st = s.dev.syncStamp p now →
    (bit (s.dev.pctl p) 16 = false → st = now) ∧
    (∀ (atExpected early : Bool), x.state ≠ 2 ∨ atExpected = true →
      ∃ t, exec (.tdmFrameSync p atExpected early now) s = .next t ∧ Keeps s t ∧ t.dev.cores = s.dev.cores ∧ t.dev.cross = s.dev.cross ∧
        (t.dev.port p).state = 2 ∧ (t.dev.port p).opened = x.opened ++ [⟨st, false, 0, false⟩] ∧ (t.dev.port p).seq = x.seq ∧
        ∀ y, y ≠ p.val → t.dev.port y = s.dev.port y) ∧
    (∀ (early : Bool), x.state = 2 →
      ∃ t, exec (.tdmFrameSync p false early now) s = .next t ∧ Keeps s t ∧ t.dev.cores = s.dev.cores ∧ (t.dev.port p).state = 2 ∧
        bit (t.dev.port p).ev 9 = true ∧
        (early = false ∨ x.opened = [] → (t.dev.port p).opened = x.opened ++ [⟨st, true, 2, false⟩] ∧ t.dev.cross = s.dev.cross) ∧
        (∀ f g mid, early = true → x.opened = g :: mid ++ [f] → g.ready = false → t.dev.cross = s.dev.cross ∧ (t.dev.port p).opened =
          g :: mid ++ [{ f with isRepeat := true, events := f.events ||| 2, ready := true }, ⟨st, true, 2, false⟩]) ∧
        (∀ f, early = true → x.opened = [f] → (t.dev.port p).opened = [⟨st, true, 2, false⟩] ∧
          ∃ it, (t.dev.crossQ (srcKey 0 p)).items = q ++ [it] ∧ it.stamp = f.stamp ∧ it.seq = x.seq ∧ (frameOf it).2.1 = true)) ∧
    (∀ (slots : List Nat) (f : OpenFrame) (rest : List OpenFrame), x.opened = f :: rest →
      ∃ t it its, exec (.tdmFrame p slots now) s = .next t ∧ Keeps s t ∧ t.dev.cores = s.dev.cores ∧
        (t.dev.port p).opened = rest.dropWhile (·.ready) ∧ (t.dev.port p).seq = (x.seq + 1 + its.length) % 2 ^ 32 ∧
        (t.dev.crossQ (srcKey 0 p)).items = q ++ it :: its ∧ its.map (·.stamp) = (rest.takeWhile (·.ready)).map (·.stamp) ∧
        ((∀ g ∈ rest.takeWhile (·.ready), g.isRepeat = true) → ∀ y ∈ its, (frameOf y).2.1 = true) ∧ it.stamp = f.stamp ∧
        it.present = now ∧ it.seq = x.seq ∧
        (f.isRepeat = false → (∀ c, s.dev.rxCap p = some c → s.dev.queued p < c) → (frameOf it).2.1 = false ∧
          (frameOf it).1 = (List.range (s.dev.pSlots p)).map (fun i => lineDecode (s.dev.pEnc p) (s.dev.pWidth p) (slots.getD i 0))) ∧
        (f.isRepeat = true ∨ (∃ c, s.dev.rxCap p = some c ∧ c ≤ s.dev.queued p) → (frameOf it).2.1 = true ∧
          (frameOf it).1 = if x.last = [] then List.replicate (s.dev.pSlots p) 0 else x.last)) ∧
    (∀ (slots : List Nat), x.opened = [] → exec (.tdmFrame p slots now) s = .next { s with dev := s.dev.at_ now }) ∧
    (∀ f rest, x.state = 2 → x.opened = f :: rest → f.ready = false →
      ∃ t, exec (.tdmMissingSync p now) s = .next t ∧ Keeps s t ∧ t.dev.cores = s.dev.cores ∧ (t.dev.port p).state = 2 ∧
        (t.dev.port p).opened = x.opened ++ [⟨now, true, 2, true⟩] ∧ t.dev.cross = s.dev.cross ∧ (t.dev.port p).seq = x.seq ∧
        bit (t.dev.port p).ev 9 = true) ∧
    (x.state = 2 → x.opened = [] →
      ∃ t it, exec (.tdmMissingSync p now) s = .next t ∧ Keeps s t ∧ t.dev.cores = s.dev.cores ∧ (t.dev.port p).state = 2 ∧
        (t.dev.port p).opened = [] ∧ (t.dev.crossQ (srcKey 0 p)).items = q ++ [it] ∧ it.stamp = now ∧ it.seq = x.seq ∧
        (frameOf it).2.1 = true ∧ (frameOf it).1 = (if x.last = [] then List.replicate (s.dev.pSlots p) 0 else x.last) ∧
        bit (t.dev.port p).ev 9 = true) ∧
    (x.state ≠ 3 →
      ∃ t its, exec (.tdmClockStop p now) s = .next t ∧ Keeps s t ∧ t.dev.cores = s.dev.cores ∧ (t.dev.port p).state = 3 ∧
        (t.dev.port p).opened = [] ∧ bit (t.dev.port p).ev 8 = true ∧ (t.dev.crossQ (srcKey 0 p)).items = q ++ its ∧
        its.map (·.stamp) = x.opened.map (·.stamp) ∧ ∀ it ∈ its, (frameOf it).2.1 = true) ∧
    (x.opened ≠ [] → ∀ (slots : List Nat), ∃ t, exec (.tdmFrame p slots now) s = .next t ∧ PortAlone s t p) ∧
    (x.state = 2 → ∃ t, exec (.tdmMissingSync p now) s = .next t ∧ PortAlone s t p) ∧
    (x.state ≠ 3 → ∃ t, exec (.tdmClockStop p now) s = .next t ∧ PortAlone s t p) ∧
    (x.state = 3 → x.stopT0 ≠ 0 → (2 * (x.stopJ + 1) + 1) * 10 ^ 12 ≤ 2 * s.dev.expectedRate p * (now - x.stopT0) →
      ∃ t, exec (.tdmStopRepeatFrame p now) s = .next t ∧ PortAlone s t p) ∧
    (x.state ≠ 2 → exec (.tdmMissingSync p now) s = .next { s with dev := s.dev.at_ now }) ∧
    (x.state = 3 → exec (.tdmClockStop p now) s = .next { s with dev := s.dev.at_ now }) ∧
    (∀ (j f : Nat), x.state = 3 → j = x.stopJ + 1 → f = s.dev.expectedRate p →
      (x.stopT0 ≠ 0 → (2 * j + 1) * 10 ^ 12 ≤ 2 * f * (now - x.stopT0) →
        ∃ t it, exec (.tdmStopRepeatFrame p now) s = .next t ∧ Keeps s t ∧ t.dev.cores = s.dev.cores ∧ (t.dev.port p).state = 3 ∧
          (t.dev.port p).stopJ = j ∧ (t.dev.crossQ (srcKey 0 p)).items = q ++ [it] ∧ (frameOf it).2.1 = true ∧
          x.stopT0 + j * 10 ^ 12 / f ≤ it.stamp ∧ it.stamp ≤ x.stopT0 + j * 10 ^ 12 / f + 1 ∧
          (j * 10 ^ 12 % f = 0 → it.stamp = x.stopT0 + j * 10 ^ 12 / f)) ∧
      (x.stopT0 = 0 ∨ 2 * f * (now - x.stopT0) < (2 * j + 1) * 10 ^ 12 →
        exec (.tdmStopRepeatFrame p now) s = .next { s with dev := s.dev.at_ now }))) ∧
  (∀ (p : Fin 16) (now : Nat) (slots : List Nat) (f : OpenFrame) (rest : List OpenFrame) (s : State), s.dev.up = true → s.dev.tb.aligned = false →
    s.dev.portUp p = true → (s.dev.port p).opened = f :: rest →
    ∃ t, exec (.tdmFrame p slots now) s = .next t ∧ Keeps s t ∧ t.dev.cross = s.dev.cross ∧ (t.dev.port p).seq = (s.dev.port p).seq ∧
      (t.dev.port p).opened = rest.dropWhile (·.ready)) ∧
  (∀ (p : Fin 16) (route : Fin 8) (key : Nat) (r : Rec) (g : Ring) (k : Task) (s : State), s.dev.up = true →
    (s.dev.port p).routes[route.val]? = some (key, r) → k = s.dev.task (prCore r) (prTask r) → k.ring? (prRing r) = some g →
    (prDir r = 1 → s.dev.portUp p = true → s.dev.pumpUp (.core (Fin.ofNat 256 (prCore r))) = true →
      (mgetD (s.dev.port p).playQ key []).length < 2 → s.dev.ringFails (prCore r) (prTask r) (prRing r, false) = false →
      (s.dev.core (prCore r)).bad = [] →
      ∃ t, exec (.tdmPlayRefill p route) s = .next t ∧ Keeps s t ∧
        mgetD (t.dev.port p).playQ key [] = mgetD (s.dev.port p).playQ key [] ++
          [playBlock r (memRead (s.dev.core (prCore r)).readable (k.base + srBase g.decl + g.get * srBytes g.decl) (srBytes g.decl))] ∧
        (t.dev.task (prCore r) (prTask r)).ring? (prRing r) = some { g with get := (g.get + 1) % max 1 (srSlots g.decl) } ∧
        (t.dev.core (prCore r)).tag (ringTag g false) = ⟨false, false, ((s.dev.core (prCore r)).tag (ringTag g false)).slipped⟩ ∧ (∀ x, (t.dev.core x).mem = (s.dev.core x).mem) ∧
        (∀ y, y ≠ p.val → t.dev.port y = s.dev.port y)) ∧
    (2 ≤ (mgetD (s.dev.port p).playQ key []).length ∨ prDir r ≠ 1 ∨ s.dev.ringFails (prCore r) (prTask r) (prRing r, false) = true →
      exec (.tdmPlayRefill p route) s = .next s))

/-! ### The intake cut (spec/01) -/

/-- R27 to R29, R531, R532, R550: at the seal of a round the frames of a port that are present at the mark − 20 µs and stamped before the window's end
are assigned to the round, each late if its stamp lies before the window (unless a replay assigns the round's, R30); every other frame stays queued; a
device that halts assigns none, nor does a port all of whose jobs halt in a minority. The
window ends at the mark less the guard, never before it began. A second seal of one round does nothing. An intake record acts in its turn: its
stream, registered on the ring for the record's round, takes its samples or tokens and its reset mark; any other record is discarded with E_INTAKE. -/
def Obligations.CutsAssignAndRecordsFeedStreams : Prop :=
  (∀ (s : State), s.dev.up = true →
    (s.dev.tb.running = false ∨ s.dev.tb.sealed = s.dev.tb.nextMark + 1 → exec .intakeSeal s = .next s) ∧
    (∀ (T stop : Nat), s.dev.tb.running = true → s.dev.tb.sealed ≠ s.dev.tb.nextMark + 1 → T = s.dev.tb.markTime s.dev.tb.nextMark →
      stop = max s.dev.tb.winStart (T - s.dev.guardNs) →
      ∃ t, exec .intakeSeal s = .next t ∧ Keeps s t ∧ t.dev.cores = s.dev.cores ∧ t.dev.jobs = s.dev.jobs ∧ t.dev.streams = s.dev.streams ∧
        t.dev.tb = { s.dev.tb with now := max s.dev.tb.now (T - 20000), winStart := stop, sealed := s.dev.tb.nextMark + 1 } ∧
        ∀ (p : Nat) (q u : CrossQ), p < 16 → q = s.dev.crossQ (srcKey 0 p) → u = t.dev.crossQ (srcKey 0 p) →
          (s.dev.err.halting = true ∨ (s.dev.sourceJobs 0 p ≠ [] ∧ ∀ j ∈ s.dev.sourceJobs 0 p, (s.dev.job j).halting = true) →
            s.dev.replayItems s.dev.tb.nextMark 0 p = none → u.assigned = q.assigned) ∧
          (s.dev.err.halting = false → (s.dev.sourceJobs 0 p = [] ∨ ∃ j ∈ s.dev.sourceJobs 0 p, (s.dev.job j).halting = false) → s.dev.log.head + 96 ≤ s.dev.log.tail + s.dev.logCap → s.dev.replayItems s.dev.tb.nextMark 0 p = none →
            (∀ y ∈ q.items, y.present ≤ T - 20000 → y.stamp < stop →
              (s.dev.tb.nextMark, { y with late := decide (y.stamp < s.dev.tb.winStart) }) ∈ u.assigned) ∧
            (∀ y ∈ q.assigned, y ∈ u.assigned) ∧
            (∀ x ∈ u.assigned, x ∈ q.assigned ∨ x.1 = s.dev.tb.nextMark ∧ ∃ y ∈ q.items, y.present ≤ T - 20000 ∧ y.stamp < stop ∧
              x.2 = { y with late := decide (y.stamp < s.dev.tb.winStart) }) ∧
            (∀ y ∈ q.items, T - 20000 < y.present ∨ stop ≤ y.stamp → y ∈ u.items)))) ∧
  (∀ (ring : Fin 32) (i n h : Nat) (x : CrossItem) (r payload : Bytes) (q : CrossQ) (s : State), s.dev.up = true →
    q = s.dev.crossQ (srcKey 1 ring) →
    q.assigned.findIdx? (fun p => !p.2.taken && decide (p.1 ≤ s.dev.tb.nextMark)) = some i → q.assigned[i]? = some (n, x) →
    x.data = .intake r payload → h = leAt r 0 2 →
    ∃ t, exec (.intakeRecord ring) s = .next t ∧ Keeps s t ∧ t.dev.cores = s.dev.cores ∧ t.dev.jobs = s.dev.jobs ∧
      (∀ k, k ≠ srcKey 1 ring → t.dev.crossQ k = s.dev.crossQ k) ∧ (∀ y, y ≠ h → t.dev.stream y = s.dev.stream y) ∧
      (s.dev.onRing0 h ring n = true →
        (t.dev.crossQ (srcKey 1 ring)).assigned[i]? = some (n, { x with taken := true }) ∧ t.dev.err = s.dev.err ∧
        (t.dev.stream h).samples = (s.dev.stream h).samples ++
          (if bit (leAt r 2 1) 1 = (fld (s.dev.clsOf h) 1 1 == 1) then recordValues r payload else []) ∧
        (t.dev.stream h).marks = (s.dev.stream h).marks ++ (if bit (leAt r 2 1) 0 = true then [leAt r 8 8] else [])) ∧
      (s.dev.onRing0 h ring n = false → t.dev.stream h = s.dev.stream h ∧
        (t.dev.crossQ (srcKey 1 ring)).assigned.length + 1 = q.assigned.length ∧
        (s.dev.err.head - s.dev.err.tail < 256 → mget t.dev.err.recs (s.dev.err.head % 256) = some (errBytes
          { code := 0x0A05, kind := 4, unit := 512 + ring.val } s.dev.err.handling.isSome s.dev.tb.round s.dev.tb.now))))

/-! ### Host rings and apertures (spec/16) -/

/-- R524, R526, R527: a write of HOSTIDX whose entry count stays within the ring takes effect, and a doorbell that makes records visible is stamped with
TIME once the device is aligned; a count beyond the ring is discarded with E_CFG_RANGE. A visible record of an enabled ring is fetched: it enters
its crossing queue with its doorbell's stamp, and DEVIDX advances. The interrupt events of a holdoff raise one interrupt at its end; a vector whose mask bit is 1
becomes pending instead (what a mask bit does is taken from PCI Express, entry 27). -/
def Obligations.HostRingsMoveTheirIndices : Prop :=
  (∀ (idx now : Nat) (s : State), s.dev.kindle.localReady = true →
    (∀ k : Fin 16, ∃ t, exec (.sqDoorbell k idx now) s = .next t ∧ MovesHostIdx s t 0 k (idx % 2 ^ 32) now) ∧
    (∀ k : Fin 32, ∃ t, exec (.iqDoorbell k idx now) s = .next t ∧ MovesHostIdx s t 2 k (idx % 2 ^ 32) now) ∧
    (∀ k : Fin 32, k.val < 16 → ∃ t, exec (.ringHostidxConsume false k idx) s = .next t ∧ MovesHostIdx s t 1 k (idx % 2 ^ 32) 0) ∧
    (∀ k : Fin 32, ∃ t, exec (.ringHostidxConsume true k idx) s = .next t ∧ MovesHostIdx s t 3 k (idx % 2 ^ 32) 0)) ∧
  ((∀ (intake : Bool) (ring : Fin 32) (record payload : Bytes) (now kind : Nat) (r : HostRing) (s : State), s.dev.kindle.localReady = true →
    kind = (if intake then 2 else 0) → r = s.dev.ring (ringKey kind ring) →
    (s.dev.ringEn kind ring = true → r.hostIdx ≠ r.devIdx → intake = true ∨ ring.val < 16 →
      ∃ t it, exec (.ringRecordFetch intake ring record payload now) s = .next t ∧ Keeps s t ∧ t.dev.cores = s.dev.cores ∧
        (t.dev.ring (ringKey kind ring)).devIdx = (r.devIdx + 1) % 2 ^ 32 ∧ (t.dev.ring (ringKey kind ring)).hostIdx = r.hostIdx ∧
        (t.dev.crossQ (srcKey (if intake then 1 else 2) ring)).items = (s.dev.crossQ (srcKey (if intake then 1 else 2) ring)).items ++ [it] ∧
        it.seq = r.devIdx ∧ it.present = now ∧
        (∀ i st rest, r.stamps = (i, st) :: rest → i = (r.devIdx + 1) % 2 ^ 32 → it.stamp = st) ∧
        (intake = false → it.data = .submission (sliceZ record 0 64)) ∧
        (intake = true → it.data = .intake (sliceZ record 0 32) (sliceZ payload 0 (intakeBytes (sliceZ record 0 64))))) ∧
    (s.dev.ringEn kind ring = false ∨ r.hostIdx = r.devIdx →
      exec (.ringRecordFetch intake ring record payload now) s = .next { s with dev := s.dev.at_ now })) ∧
  (∀ (rk : RingKind) (ring : Fin 32) (now : Nat) (r : HostRing) (s : State), s.dev.kindle.localReady = true →
    r = s.dev.ring (ringKey (ringCode rk) ring) →
    (r.holding = true → r.lastIrq + s.dev.regF (ringOff (ringCode rk) ring + 8) 56 8 * 1000 ≤ now →
      ∃ t, exec (.ringIrqHoldoff rk ring now) s = .next t ∧ Keeps s t ∧
        t.dev = { s.dev.at_ now with rings := t.dev.rings, out := t.dev.out, msix := t.dev.msix } ∧
        (t.dev.ring (ringKey (ringCode rk) ring)).irqPending = false ∧
        (t.dev.ring (ringKey (ringCode rk) ring)).holding = r.irqPending ∧
        (r.irqPending = true → (t.dev.ring (ringKey (ringCode rk) ring)).lastIrq = now) ∧
        (r.irqPending = false → t.dev.out = s.dev.out ∧ t.dev.msix = s.dev.msix) ∧
        (∀ v, v = s.dev.regF (ringOff (ringCode rk) ring + 8) 48 6 → r.irqPending = true →
          (s.dev.regF (msixCtl v) 32 1 = 0 → t.dev.out = s.dev.out ++ [HostOut.vector v] ∧ t.dev.msix = s.dev.msix) ∧
          (s.dev.regF (msixCtl v) 32 1 = 1 → t.dev.out = s.dev.out ∧ t.dev.msix = s.dev.msix ||| 2 ^ v))) ∧
    (r.holding = false ∨ now < r.lastIrq + s.dev.regF (ringOff (ringCode rk) ring + 8) 56 8 * 1000 →
      exec (.ringIrqHoldoff rk ring now) s = .next { s with dev := s.dev.at_ now })))

/-- R388, R389, R520 to R522: a BAR2 write is stamped and queued, and touches no cistern; at the release tick of its round it lands in its open
declared window and nowhere else; out of the window it is dropped with E_WINDOW, in a locked region with E_SCRUBBING, in a slice that does not serve with E_SLICE_DOWN (R19). A BAR2 read delivers the
window's bytes, and zeros where it may not read. BAR4 reads the well's bytes and writes a page that no job holds; other writes and unmapped pages
are refused with their records, and no access reaches a cistern. -/
def Obligations.AperturesReachWindowsAndWell : Prop :=
  (∀ (off w : Nat) (s : State), s.dev.kindle.localReady = true → w = off / aperture % 32 →
    (∀ (data : Bytes) (now : Nat),
      ∃ t it, exec (.bar2Write off data now) s = .next t ∧ Keeps s t ∧ t.dev.cores = s.dev.cores ∧ t.dev.well = s.dev.well ∧
        (t.dev.crossQ (srcKey 3 w)).items = (s.dev.crossQ (srcKey 3 w)).items ++ [it] ∧
        it.data = .bar2 (off % aperture) data ∧ it.present = now ∧ it.stamp = (if s.dev.tb.aligned = true then now else 0) ∧
        it.seq = (s.dev.crossQ (srcKey 3 w)).nextSeq ∧ (∀ k, k ≠ srcKey 3 w → t.dev.crossQ k = s.dev.crossQ k)) ∧
    (∀ (data : Bytes) (it : CrossItem) (c : Nat) (win : Win), (s.dev.crossQ (srcKey 3 w)).assigned = [(s.dev.tb.round, it)] →
      (∀ v, v < 32 → v ≠ w → (s.dev.crossQ (srcKey 3 v)).assigned = []) → it.data = .bar2 off data → s.dev.b2Window w = some (c, win) →
      ∃ t, exec .bar2WriteApply s = .next t ∧ Keeps s t ∧ (t.dev.crossQ (srcKey 3 w)).assigned = [] ∧ t.dev.well = s.dev.well ∧
        (∀ x, x ≠ c → t.dev.core x = s.dev.core x) ∧
        ((s.dev.core c).locked = false → s.dev.sliceUp (c / 64) = true → win.isOpen = true → off + data.length ≤ win.bound - win.base →
          (∀ a, memGet (t.dev.core c).mem a =
            if (s.dev.task c win.owner).base + win.base + off ≤ a ∧ a < (s.dev.task c win.owner).base + win.base + off + data.length then
              data.getD (a - ((s.dev.task c win.owner).base + win.base + off)) 0
            else memGet (s.dev.core c).mem a) ∧ t.dev.err = s.dev.err) ∧
        (∀ code, (code = 0x0506 ∧ (s.dev.core c).locked = true) ∨ (code = 0x0507 ∧ (s.dev.core c).locked = false ∧ s.dev.sliceUp (c / 64) = false) ∨
            (code = 0x0505 ∧ (s.dev.core c).locked = false ∧ s.dev.sliceUp (c / 64) = true ∧ (win.isOpen = false ∨ win.bound - win.base < off + data.length)) →
          (t.dev.core c).mem = (s.dev.core c).mem ∧
          (s.dev.err.head - s.dev.err.tail < 256 → t.dev.err.head = s.dev.err.head + 1 ∧
            leAt ((mget t.dev.err.recs (s.dev.err.head % 256)).getD []) 0 2 = code) ∧
          ((s.dev.core c).locked = true → (t.dev.core c).denied = min ((s.dev.core c).denied + 1) (2 ^ 32 - 1)))) ∧
    (∀ (n c : Nat) (win : Win), s.dev.b2Window w = some (c, win) →
      (∀ det, ∃ t bs, exec (.bar2Read off ⟨n, det⟩) s = .next t ∧ Keeps s t ∧ t.dev.out.getLast? = some (.read bs)) ∧
      ∃ t bs, exec (.bar2Read off ⟨n, .none⟩) s = .next t ∧ Keeps s t ∧
        ((s.dev.core c).bad = [] → t.dev.well = s.dev.well ∧ ∀ x, (t.dev.core x).mem = (s.dev.core x).mem) ∧
        t.dev.out.getLast? = some (.read bs) ∧
        ((s.dev.core c).locked = false → (s.dev.job win.job).loaded = true → off % aperture + n ≤ win.bound - win.base →
          bs = memRead (s.dev.core c).readable ((s.dev.task c win.owner).base + win.base + off % aperture) n ∧
          ((s.dev.core c).bad = [] → t.dev.err = s.dev.err)) ∧
        ((s.dev.core c).locked = true ∨ (s.dev.job win.job).loaded = false ∨ win.bound - win.base < off % aperture + n → bs = zeros n)) ∧
    (∀ (n : Nat) (det : Detect), s.dev.b2Window w = none →
      ∃ t, exec (.bar2Read off ⟨n, det⟩) s = .next t ∧ Keeps s t ∧ t.dev.cores = s.dev.cores ∧ t.dev.out.getLast? = some (.read (zeros n)))) ∧
  (∀ (off a n : Nat) (data : Bytes) (s : State), s.dev.kindle.localReady = true → a = s.dev.bar4Addr off →
    (∃ t, exec (.bar4Write off data) s = .next t ∧ Keeps s t ∧ t.dev.cores = s.dev.cores ∧
      (s.dev.unmapped a data.length = false → s.dev.heldPage a data.length = false → a + data.length ≤ Config.wellBytes →
        s.dev.anyCtlDown = false → t.dev.err = s.dev.err ∧ ∀ x, memGet t.dev.well x =
          if a ≤ x ∧ x < a + data.length then data.getD (x - a) 0 else memGet s.dev.well x) ∧
      (∀ code, (s.dev.unmapped a data.length = true ∧ code = 0x0506) ∨
          (s.dev.unmapped a data.length = false ∧ s.dev.heldPage a data.length = true ∧ code = 0x0103) →
        t.dev.well = s.dev.well ∧ (s.dev.err.head - s.dev.err.tail < 256 → mget t.dev.err.recs (s.dev.err.head % 256) =
          some (errBytes { code := code } s.dev.err.handling.isSome s.dev.tb.round s.dev.tb.now)))) ∧
    (∃ t, exec (.bar4Read off n) s = .next t ∧ Keeps s t ∧ t.dev.cores = s.dev.cores ∧ t.dev.well = s.dev.well ∧
      (s.dev.unmapped a n = false → t.dev = { s.dev with out := s.dev.out ++ [.read (s.dev.wellRead a n)] }) ∧
      (s.dev.unmapped a n = true → t.dev.out.getLast? = some (.read (zeros n)))))

/-! ### Registers (spec/02, spec/14, spec/16) -/

/-- R445: a write of TDM_CTL whose value has a product of frame rate, SLOTS and WIDTH above 49.152 MHz is discarded and reported as
E_CFG_RANGE: nothing but the error ring and its interrupt changes. -/
def Obligations.TdmControlKeepsItsLimit : Prop :=
  ∀ (p : Fin 16) (data : Bytes) (s : State), s.dev.kindle.localReady = true → data.length = 8 ∨ data.length = 4 →
    49152000 < tdmHz (bits (leNat data) 1 2) * (bits (leNat data) 5 7 + 1) * (8 * (bits (leNat data) 3 2 + 1)) →
    ∃ t, exec (.registerWrite (portOff p) data) s = .next t ∧ Keeps s t ∧ t.dev = { s.dev with err := t.dev.err, out := t.dev.out, msix := t.dev.msix } ∧
      (s.dev.err.head - s.dev.err.tail < 256 → t.dev.err.head = s.dev.err.head + 1 ∧ mget t.dev.err.recs (s.dev.err.head % 256) =
        some (errBytes { code := 0x0102 } s.dev.err.handling.isSome s.dev.tb.round s.dev.tb.now))

/-- R7, R8, R38, R42, R88, R92, R230, R342, R388, R570, R577: before local readiness BAR0 takes no write but that of the error status of a device
whose firmware failed; a write of a wrong size or place raises E_HOST_ACCESS; a register without writable fields keeps its value; an entry of the
MSI-X table takes its fields as written, and a pending vector that it unmasks goes out (entry 27); no register write changes a byte of a cistern or of the well. The tails move within what the device has written; the three
clears reset their counter or ask for the clear of the next mark; a round length within 1 ms to 40 ms takes effect at once on a device that is not
aligned and has no job, and is refused outside that range. -/
def Obligations.RegisterWritesKeepTheirRules : Prop :=
  (∀ (off : Nat) (data : Bytes) (s : State),
    (∃ t, exec (.registerWrite off data) s = .next t ∧ Keeps s t ∧ (∀ x, (t.dev.core x).mem = (s.dev.core x).mem) ∧ t.dev.well = s.dev.well) ∧
    (s.dev.kindle.localReady = false → s.dev.kindle.retryEnded = false → exec (.registerWrite off data) s = .next s) ∧
    (s.dev.kindle.localReady = true → (data.length = 8 → off % 8 ≠ 0) → (data.length = 4 → off % 4 ≠ 0) →
      ∃ t, exec (.registerWrite off data) s = .next t ∧ t.dev = { s.dev with err := t.dev.err, out := t.dev.out, msix := t.dev.msix } ∧
        (s.dev.err.head - s.dev.err.tail < 256 → mget t.dev.err.recs (s.dev.err.head % 256) =
          some (errBytes { code := 0x0103 } s.dev.err.handling.isSome s.dev.tb.round s.dev.tb.now))) ∧
    (s.dev.kindle.localReady = true → data.length = 8 → off % 8 = 0 → fieldsAt off = [] →
      exec (.registerWrite off data) s = .next s) ∧
    (s.dev.kindle.localReady = true → data.length = 8 → off % 8 = 0 → 0x1F0000 ≤ off → off < 0x1F0400 →
      ∃ t, exec (.registerWrite off data) s = .next t ∧ t.dev = { s.dev with regs := t.dev.regs, shadow := t.dev.shadow, out := t.dev.out, msix := t.dev.msix } ∧
        (off % 16 = 0 → bits (t.dev.reg off) 2 62 = bits (leNat data) 2 62 ∧ t.dev.out = s.dev.out) ∧
        (off % 16 = 8 → bits (t.dev.reg off) 0 33 = bits (leNat data) 0 33 ∧
          (bit s.dev.msix ((off - 0x1F0000) / 16) = true → bit (leNat data) 32 = false →
            t.dev.out = s.dev.out ++ [.vector ((off - 0x1F0000) / 16)])) ∧
        ∀ r, r ≠ off → t.dev.reg r = s.dev.reg r)) ∧
  ((∀ (v : Nat) (s : State), s.dev.kindle.localReady = true →
    (s.dev.log.tail ≤ v → v ≤ s.dev.log.head → exec (.vmcLogTailWrite v) s = .next { s with dev := { s.dev with log := { s.dev.log with tail := v } } }) ∧
    (s.dev.err.tail ≤ v → v ≤ s.dev.err.head → exec (.errTailWrite v) s = .next { s with dev := { s.dev with err := { s.dev.err with tail := v } } }) ∧
    (v < s.dev.log.tail ∨ s.dev.log.head < v → ∃ t, exec (.vmcLogTailWrite v) s = .next t ∧ OutOfRange s t) ∧
    (v < s.dev.err.tail ∨ s.dev.err.head < v → ∃ t, exec (.errTailWrite v) s = .next t ∧ OutOfRange s t)) ∧
  (∀ (core : Fin 256) (task : Fin 8) (s : State), s.dev.kindle.localReady = true →
    (∃ t, exec (.ovrClr core task) s = .next t ∧ OnlyTask s t core task ∧ t.dev.task core task = { s.dev.task core task with ovrCnt := 0 }) ∧
    (∃ t, exec (.cisScrubClr core) s = .next t ∧ Keeps s t ∧ t.dev = { s.dev with cores := t.dev.cores } ∧
      t.dev.core core = { s.dev.core core with denied := 0 } ∧ ∀ x, x ≠ core.val → t.dev.core x = s.dev.core x) ∧
    (∃ t, exec (.stpeakClr core) s = .next t ∧ Keeps s t ∧ t.dev = { s.dev with cores := t.dev.cores } ∧
      t.dev.core core = { s.dev.core core with stpeakClr := true } ∧ ∀ x, x ≠ core.val → t.dev.core x = s.dev.core x)) ∧
  (∀ (v now : Nat) (s : State), s.dev.kindle.localReady = true →
    (2 ≤ v → v ≤ 80 → s.dev.anyLoaded = false → s.dev.tb.aligned = false → s.dev.regF 0x1008 0 7 = s.dev.tb.lenHalf →
      ∃ t, exec (.roundLenWrite v now) s = .next t ∧ Keeps s t ∧ t.dev.regF 0x1008 0 7 = v ∧ t.dev.tb.lenHalf = v ∧
        t.dev.guardNs = s.dev.guardNs ∧ t.dev.err = s.dev.err ∧ t.dev.cores = s.dev.cores) ∧
    (v < 2 ∨ 80 < v → ∃ t, exec (.roundLenWrite v now) s = .next t ∧ Keeps s t ∧
      t.dev = { s.dev.at_ now with err := t.dev.err, out := t.dev.out, msix := t.dev.msix } ∧
      (s.dev.err.head - s.dev.err.tail < 256 → mget t.dev.err.recs (s.dev.err.head % 256) = some (errBytes
        { code := 0x0102 } s.dev.err.handling.isSome s.dev.tb.round (max s.dev.tb.now now))))))

/-! ### Images, jobs and streams (spec/02, spec/10, spec/16) -/

/-- R79, R84, R529, R530, R533: LOAD_IMAGE on an EMPTY slot with an image that passes every check makes the slot LOADING; a timeout out of range, a slot
that is not EMPTY and an image that fails a check are refused with their code, and no job starts. LOAD_STAGED of a LOADING slot checks the objects: it
puts the tasks, their programs and closed windows in place, and a job of one device is ACTIVE two rounds later; a failed check empties the slot, and so does a round
length other than that in use while other jobs need it (R37). -/
def Obligations.ImagesLoadThenStage : Prop :=
  (∀ (image bs : Bytes) (x : HostCmd) (rest : List HostCmd) (j : Nat) (s : State), s.dev.kindle.localReady = true → s.dev.cmds = x :: rest →
    cmOp x.bytes = 0x01 → j = cmJob x.bytes → bs = sliceZ image 0 (leAt x.bytes 24 8) →
    ∃ t, exec (.loadImage image) s = .next t ∧ Keeps s t ∧ t.dev.cores = s.dev.cores ∧ t.dev.streams = s.dev.streams ∧
      t.dev.cmds = rest.dropWhile HostCmd.undefined ∧ (∀ y, y ≠ j → t.dev.job y = s.dev.job y) ∧
      (1 ≤ leAt x.bytes 32 4 → leAt x.bytes 32 4 ≤ 1000 → (s.dev.job j).state = .empty →
        s.dev.popCmd.checkImage j bs (bit (leAt x.bytes 36 1) 0) = 0 →
        (t.dev.job j).state = .loading ∧ (t.dev.job j).img = some (parseImage bs) ∧ (t.dev.job j).gen = (s.dev.job j).gen ∧
          (t.dev.job j).timeout = leAt x.bytes 32 4 ∧ (t.dev.job j).standby = bit (leAt x.bytes 36 1) 0 ∧
          (t.dev.job j).loadCmd = some ⟨x.ring, x.index, leAt x.bytes 8 8⟩) ∧
      (∀ code, (code = 0x0A01 ∧ (leAt x.bytes 32 4 < 1 ∨ 1000 < leAt x.bytes 32 4)) ∨
          (code = 0x0A02 ∧ 1 ≤ leAt x.bytes 32 4 ∧ leAt x.bytes 32 4 ≤ 1000 ∧ (s.dev.job j).state ≠ .empty) ∨
          (code ≠ 0 ∧ 1 ≤ leAt x.bytes 32 4 ∧ leAt x.bytes 32 4 ≤ 1000 ∧ (s.dev.job j).state = .empty ∧
            code = s.dev.popCmd.checkImage j bs (bit (leAt x.bytes 36 1) 0)) →
        (t.dev.job j).state = (s.dev.job j).state ∧ (t.dev.job j).img = (s.dev.job j).img ∧
        ((s.dev.ring (ringKey 1 j)).backlog = [] → s.dev.ringRoom 1 j = true →
          HostOut.entry 1 j (s.dev.ring (ringKey 1 j)).devIdx (withPhase (completionBytes
            { job := j, status := 2, kind := 3, handle := 0xFFFF, code := code, item := x.index, ref := leAt x.bytes 8 8 } s.dev.tb.now) 31
            (s.dev.phase 1 j (s.dev.ring (ringKey 1 j)).devIdx)) ∈ t.dev.out.drop s.dev.out.length))) ∧
  (∀ (j : Fin 16) (deep : List Bytes) (i : Image) (code : Nat) (s : State), s.dev.kindle.localReady = true → (s.dev.job j).img = some i →
    code = (if roundBusy s.dev j = true ∧ s.dev.regF 0x1008 0 7 ≠ i.roundLen then 0x0206 else s.dev.checkObjects (i.deepBytes deep) i) →
    ((s.dev.job j).state ≠ .loading → exec (.loadStaged ⟨j, deep⟩) s = .next s) ∧
    ((s.dev.job j).state = .loading → code = 0 →
      ∃ t, exec (.loadStaged ⟨j, deep⟩) s = .next t ∧ Keeps s t ∧ (t.dev.job j).state = .staged ∧ (t.dev.job j).img = some i ∧
        (t.dev.job j).deepObjs = i.deepBytes deep ∧
        (t.dev.job j).stagedRound = s.dev.tb.round ∧ t.dev.streams = s.dev.streams ∧ t.dev.well = s.dev.well ∧
        (∀ y, y ≠ j.val → t.dev.job y = s.dev.job y) ∧
        (∀ x ∈ i.taskImgs, (t.dev.task x.core x.task).state = .staged) ∧
        (∀ c ∈ (s.dev.job j).cores, ∀ w ∈ (t.dev.core c).windows, w.2.isOpen = false) ∧
        (∀ c, (∀ x ∈ i.taskImgs, x.core ≠ c) → c ∉ (s.dev.job j).cores → t.dev.core c = s.dev.core c) ∧
        ((s.dev.job j).standby = false → i.fabricSize = 1 → (t.dev.job j).actRound = some (s.dev.tb.round + 2)) ∧
        ((s.dev.job j).standby = false → i.fabricSize ≠ 1 → s.dev.linkMapOk i = true →
          t.dev.fabric.sends.getLast? = some (.staged i.compileId i.deviceIndex)) ∧
        ((s.dev.job j).standby = true → (t.dev.job j).loadCmd = none)) ∧
    ((s.dev.job j).state = .loading → code ≠ 0 →
      ∃ t, exec (.loadStaged ⟨j, deep⟩) s = .next t ∧ Keeps s t ∧ (t.dev.job j).state = .empty ∧ (t.dev.job j).img = none ∧
        (t.dev.job j).loadErr = code ∧ (t.dev.job j).gen = (s.dev.job j).gen ∧ t.dev.cores = s.dev.cores ∧
        t.dev.streams = s.dev.streams ∧ ∀ y, y ≠ j.val → t.dev.job y = s.dev.job y))

/-- R85, R86, R387, R529, R530: STOP_JOB makes an ACTIVE job STOPPING from the mark after its cut, and waits for the mark in another state; KILL_JOB
locks the job's cores, frees its streams and leaves its slot KILLED; on an EMPTY slot both fail with 0x0A03. What STOP_JOB does in
other states is the model's reading (entry 32). -/
def Obligations.StopAndKillEndJobs : Prop :=
  ∀ (x : HostCmd) (rest : List HostCmd) (j : Nat) (s : State), s.dev.kindle.localReady = true → s.dev.cmds = x :: rest → j = cmJob x.bytes →
    (cmOp x.bytes = 0x02 → ∃ t, exec .stopJob s = .next t ∧ TakesCommand s t rest j ∧ t.dev.streams = s.dev.streams ∧ t.dev.cores = s.dev.cores ∧
      ((s.dev.job j).state = .active → t.dev.job j = { s.dev.job j with
        state := .stopping
        stopAt := some (max x.round (s.dev.tb.round + 1))
        stopCmds := (s.dev.job j).stopCmds ++ [⟨x.ring, x.index, leAt x.bytes 8 8⟩] }) ∧
      ((s.dev.job j).state = .loading ∨ (s.dev.job j).state = .staged ∨ (s.dev.job j).state = .stopping →
        t.dev.job j = { s.dev.job j with
          stopAt := some ((s.dev.job j).stopAt.getD (max x.round (s.dev.tb.round + 1)))
          stopCmds := (s.dev.job j).stopCmds ++ [⟨x.ring, x.index, leAt x.bytes 8 8⟩] }) ∧
      ((s.dev.job j).state = .empty → t.dev.job j = s.dev.job j ∧ Answers s t x j 2 0x0A03) ∧
      ((s.dev.job j).state = .stopped ∨ (s.dev.job j).state = .killed → t.dev.job j = s.dev.job j ∧ Answers s t x j 0 0)) ∧
    (cmOp x.bytes = 0x03 → ∃ t, exec .killJob s = .next t ∧ TakesCommand s t rest j ∧ (∀ k, (t.dev.core k).mem = (s.dev.core k).mem) ∧
      ((s.dev.job j).state ≠ .empty → (t.dev.job j).state = .killed ∧
        (t.dev.job j).killCmds = (s.dev.job j).killCmds ++ [⟨x.ring, x.index, leAt x.bytes 8 8⟩]) ∧
      ((s.dev.job j).state ≠ .empty → (s.dev.job j).state ≠ .killed → (t.dev.job j).gen = ((s.dev.job j).gen + 1) % 65536 ∧
        (∀ k ∈ (s.dev.job j).cores, (t.dev.core k).locked = true ∧ (t.dev.core k).maint = true) ∧
        (∀ h ∈ s.dev.handlesOf j, (t.dev.stream h).items = [] ∧ (t.dev.stream h).job = noJob ∧ (t.dev.stream h).slot = none ∧
          (t.dev.stream h).state = (s.dev.stream h).state) ∧
        (∀ k, ∀ w ∈ (t.dev.core k).windows, w.2.job = j → w.2.isOpen = false)) ∧
      ((s.dev.job j).state = .empty → t.dev.job j = s.dev.job j ∧ t.dev.cores = s.dev.cores ∧ t.dev.streams = s.dev.streams ∧
        Answers s t x j 2 0x0A03))

/-- R219, R311, R348, R529, R530: REGISTER takes a free handle for a class and a source of its job; DEREGISTER, RESET_MARK and TARGET name a stream of
their job: the first ends it at the mark after its cut, the others add a mark or host tokens. A command that names none fails, and every stream
stays as it is. -/
def Obligations.StreamCommandsActOnTheirHandle : Prop :=
  ∀ (tokens : Bytes) (x : HostCmd) (rest : List HostCmd) (j h : Nat) (k : Stream) (s : State),
    s.dev.kindle.localReady = true → s.dev.cmds = x :: rest → j = cmJob x.bytes → h = leAt x.bytes 16 2 → k = s.dev.stream h →
    (cmOp x.bytes = 0x10 → ∃ t, exec .register s = .next t ∧ StreamOnly s t rest h ∧
      (∀ i, (s.dev.job j).img = some i → (s.dev.job j).state ≠ .killed → i.registerOk x.bytes = true → k.state = .free →
        k.regAt = none → (t.dev.stream h).state = .free ∧ (t.dev.stream h).regAt = some (max x.round (s.dev.tb.round + 1)) ∧
        (t.dev.stream h).job = j ∧ (t.dev.stream h).cls = leAt x.bytes 18 1 ∧ (t.dev.stream h).source = leAt x.bytes 19 1 ∧
        (t.dev.stream h).port = leAt x.bytes 20 1 ∧ (t.dev.stream h).snum = (i.snumBase + h) % 2 ^ 24 ∧
        (t.dev.stream h).seed = (if leAt x.bytes 24 8 = 0 then i.jobSeed else leAt x.bytes 24 8) ∧ (t.dev.stream h).items = [] ∧
        (t.dev.stream h).regCmd = some ⟨x.ring, x.index, leAt x.bytes 8 8⟩) ∧
      (k.state ≠ .free ∨ k.regAt.isSome = true → t.dev.stream h = k)) ∧
    (cmOp x.bytes = 0x11 → ∃ t, exec .deregister s = .next t ∧ StreamOnly s t rest h ∧
      (k.state ≠ .free ∨ k.regAt.isSome = true → k.job = j → k.deregAt = none → h < 32768 → t.dev.stream h = { k with
        deregAt := some (max (max x.round (s.dev.tb.round + 1)) (k.regAt.getD 0 + 1))
        deregCmd := some ⟨x.ring, x.index, leAt x.bytes 8 8⟩ }) ∧
      (k.state = .free → k.regAt = none → t.dev.stream h = k)) ∧
    (cmOp x.bytes = 0x12 → ∃ t, exec .resetMark s = .next t ∧ StreamOnly s t rest h ∧
      (k.state ≠ .free ∨ k.regAt.isSome = true → k.job = j → t.dev.stream h = { k with marks := k.marks ++ [leAt x.bytes 24 8] }) ∧
      (k.state = .free → k.regAt = none → t.dev.stream h = k)) ∧
    (cmOp x.bytes = 0x13 → ∃ t, exec (.target tokens) s = .next t ∧ StreamOnly s t rest h ∧ t.dev.stream h = k ∧
      (k.state ≠ .free ∨ k.regAt.isSome = true → k.job = j → 1 ≤ leAt x.bytes 24 4 → leAt x.bytes 24 4 ≤ 4096 →
        t.dev.targets = s.dev.targets ++ [⟨x.round, h, leAt x.bytes 18 2, leAt x.bytes 20 4, sliceZ tokens 0 (4 * leAt x.bytes 24 4)⟩]) ∧
      (k.state = .free → k.regAt = none → t.dev.targets = s.dev.targets))

/-! ### The round mark (spec/01) -/

/-- R31, R33, R42, R91, R602: the mark of the next round comes after the seal of its cut, and only then: the round's number and TIME move on, a round
length whose change mark it is takes effect from it, the governor takes the measurements of the round just ended, and S-class values that waited
take effect, but for those of task blocks and of blocks that an activation writes. -/
def Obligations.MarksBeginRounds : Prop :=
  ∀ (m : Measure) (s : State), s.dev.up = true →
    (s.dev.tb.running = false ∨ s.dev.tb.sealed ≠ s.dev.tb.nextMark + 1 → exec (.roundMark m) s = .next s) ∧
    (s.dev.tb.running = true → s.dev.tb.sealed = s.dev.tb.nextMark + 1 →
      ∃ t, exec (.roundMark m) s = .next t ∧ Keeps s t ∧ t.dev.tb.round = s.dev.tb.nextMark ∧ t.dev.tb.nextMark = s.dev.tb.nextMark + 1 ∧
        t.dev.tb.running = true ∧ t.dev.tb.sealed = s.dev.tb.sealed ∧
        t.dev.tb.now = max s.dev.tb.now (s.dev.tb.markTime s.dev.tb.nextMark) ∧ t.dev.gov.last = m ∧
        ((∀ c ∈ s.dev.tb.changes, c.1 ≠ s.dev.tb.nextMark) → t.dev.tb.lenHalf = s.dev.tb.lenHalf ∧ t.dev.tb.baseT = s.dev.tb.baseT ∧
          t.dev.tb.baseN = s.dev.tb.baseN) ∧
        (∀ len rest, s.dev.tb.changes = (s.dev.tb.nextMark, len) :: rest → t.dev.tb.lenHalf = len ∧ t.dev.tb.baseN = s.dev.tb.nextMark ∧
          t.dev.tb.baseT = s.dev.tb.markTime s.dev.tb.nextMark) ∧
        (mwf s.dev.shadow = true → ∀ off w, mget s.dev.shadow off = some w → (∀ c k, off ≠ coreOff c + 0x100 + k * 0x20) →
          (off ≠ 0x1008 ∨ ∀ c ∈ s.dev.tb.changes, c.1 ≠ s.dev.tb.nextMark) →
          (∀ p ∈ s.dev.staged, p.1 ≠ off) →
          t.dev.reg off = w.toNat ∧ mget t.dev.shadow off = none))

/-! ### Reset (spec/01, spec/02, spec/16 to spec/19) -/

/-- R11, R38, R341, R393, R437, R467, R507, R513, R524, R586 to R589, R617, R618: right after reset nothing waits and nothing has left, the
registers read their reset columns, every core is in maintenance, no job, stream, core task or link is in use, and the fuses and the flash meet
what every step keeps. The values of fuses, keys and cisterns that the spec leaves open are the model's (entries 2 and 3). -/
def Obligations.ResetHoldsTheResetColumns : Prop :=
  State.reset.pending = [] ∧ State.reset.vault.Inv ∧ MemoriesCanonical State.reset.dev ∧ State.reset.dev.out = [] ∧ State.reset.dev.kindle.powered = false ∧
    (∀ c, (State.reset.dev.core c).maint = true ∧ (State.reset.dev.core c).mem = [] ∧ (State.reset.dev.core c).tags = [] ∧
      ∀ k, (State.reset.dev.task c k).state = .none) ∧
    (∀ j, (State.reset.dev.job j).state = .empty) ∧ (∀ h, (State.reset.dev.stream h).state = .free) ∧
    (∀ l, (State.reset.dev.link l).state = 0) ∧ (∀ p, (State.reset.dev.port p).state = 0) ∧
    State.reset.dev.regF 0x1008 0 7 = 20 ∧ State.reset.dev.regF 0x1008 8 16 = 200 ∧ State.reset.dev.regF 0x3018 0 32 = 16384 ∧
    State.reset.dev.regF 0x7000 0 10 = 450 ∧ State.reset.dev.regF 0x7000 10 7 = 105 ∧ State.reset.dev.gov.fMhz = 1750 ∧
    (∀ l, l < 36 → State.reset.dev.regF (linkOff l) 0 1 = 1) ∧
    (∀ c, c < 256 → State.reset.dev.regF (coreOff c + 0xE00) 0 12 = 0xFFF ∧ State.reset.dev.regF (coreOff c + 0xE00) 16 16 = 0x40) ∧
    State.reset.dev.err.head = 0 ∧ State.reset.dev.err.tail = 0 ∧ State.reset.dev.log.head = 0 ∧ State.reset.dev.tb.round = 0
end

