-- ==== Sys2Proof/Laws/Exec.lean ====
section
/-! SUPPORT. Laws/Exec.lean: what every command does alike: it goes on, and it leaves the queue, the fuses and the flash alone
but for an accepted key request. -/

namespace Sys2Proof.Machine

/-- Every command answers a next state with the queue as it was. -/
theorem exec_next (c : Instr) (s : State) : ∃ v d, exec c s = .next { s with vault := v, dev := d } := by
  cases c
  case keyRequestComplete r =>
    show ∃ v d, Host.Outcome.next (keyCompleteS r s) = _
    unfold keyCompleteS
    dsimp only
    split
    · exact ⟨_, _, rfl⟩
    · generalize (match r with
        | some r => keyRequestErr s.vault s.dev r
        | none => 7) = e
      split <;> exact ⟨_, _, rfl⟩
  all_goals exact ⟨s.vault, _, rfl⟩

/-- Only KEY_REQUEST_COMPLETE touches the fuses and the flash. -/
theorem exec_vault (c : Instr) (s : State) (h : ∀ r, c ≠ .keyRequestComplete r) :
    ∃ d, exec c s = .next { s with dev := d } := by
  cases c
  case keyRequestComplete r => exact absurd rfl (h r)
  all_goals exact ⟨_, rfl⟩

/-- A command acts on everything but the queue as if nothing waited. -/
theorem exec_queue (c : Instr) (s t : State) (q : List Instr) (h : exec c s = .next t) :
    exec c { s with pending := q } = .next { t with pending := q } := by
  cases c
  case keyRequestComplete r =>
    have h1 : Host.Outcome.next (keyCompleteS r s) = (Host.Outcome.next t : Host.Outcome State Fault Refusal) := h
    injection h1 with h1
    subst h1
    show Host.Outcome.next (keyCompleteS r { s with pending := q }) = _
    unfold keyCompleteS
    dsimp only
    split
    · rfl
    · generalize (match r with
        | some r => keyRequestErr s.vault s.dev r
        | none => 7) = e
      split <;> rfl
  all_goals
    injection h with h
    subst h
    rfl

end Sys2Proof.Machine
end

