-- ==== Sys2Proof/Laws/State.lean ====
section
/-! SUPPORT. Laws/State.lean: what each named update of the state changes, field by field, true by rfl, so that no later proof
unfolds a record update. -/

namespace Sys2Proof.Machine

variable (d : Dev)

/-! `Dev.setCore` changes `cores` alone. -/

@[simp] theorem Dev.setCore_kindle (c : Nat) (x : Core) : (d.setCore c x).kindle = d.kindle := rfl
@[simp] theorem Dev.setCore_trust (c : Nat) (x : Core) : (d.setCore c x).trust = d.trust := rfl
@[simp] theorem Dev.setCore_tb (c : Nat) (x : Core) : (d.setCore c x).tb = d.tb := rfl
@[simp] theorem Dev.setCore_regs (c : Nat) (x : Core) : (d.setCore c x).regs = d.regs := rfl
@[simp] theorem Dev.setCore_shadow (c : Nat) (x : Core) : (d.setCore c x).shadow = d.shadow := rfl
@[simp] theorem Dev.setCore_staged (c : Nat) (x : Core) : (d.setCore c x).staged = d.staged := rfl
@[simp] theorem Dev.setCore_cntNow (c : Nat) (x : Core) : (d.setCore c x).cntNow = d.cntNow := rfl
@[simp] theorem Dev.setCore_cntLr (c : Nat) (x : Core) : (d.setCore c x).cntLr = d.cntLr := rfl
@[simp] theorem Dev.setCore_slices (c : Nat) (x : Core) : (d.setCore c x).slices = d.slices := rfl
@[simp] theorem Dev.setCore_well (c : Nat) (x : Core) : (d.setCore c x).well = d.well := rfl
@[simp] theorem Dev.setCore_deep (c : Nat) (x : Core) : (d.setCore c x).deep = d.deep := rfl
@[simp] theorem Dev.setCore_poolUse (c : Nat) (x : Core) : (d.setCore c x).poolUse = d.poolUse := rfl
@[simp] theorem Dev.setCore_zeroing (c : Nat) (x : Core) : (d.setCore c x).zeroing = d.zeroing := rfl
@[simp] theorem Dev.setCore_jobs (c : Nat) (x : Core) : (d.setCore c x).jobs = d.jobs := rfl
@[simp] theorem Dev.setCore_cmds (c : Nat) (x : Core) : (d.setCore c x).cmds = d.cmds := rfl
@[simp] theorem Dev.setCore_streams (c : Nat) (x : Core) : (d.setCore c x).streams = d.streams := rfl
@[simp] theorem Dev.setCore_seqs (c : Nat) (x : Core) : (d.setCore c x).seqs = d.seqs := rfl
@[simp] theorem Dev.setCore_moves (c : Nat) (x : Core) : (d.setCore c x).moves = d.moves := rfl
@[simp] theorem Dev.setCore_freed (c : Nat) (x : Core) : (d.setCore c x).freed = d.freed := rfl
@[simp] theorem Dev.setCore_cross (c : Nat) (x : Core) : (d.setCore c x).cross = d.cross := rfl
@[simp] theorem Dev.setCore_shipIn (c : Nat) (x : Core) : (d.setCore c x).shipIn = d.shipIn := rfl
@[simp] theorem Dev.setCore_rings (c : Nat) (x : Core) : (d.setCore c x).rings = d.rings := rfl
@[simp] theorem Dev.setCore_out (c : Nat) (x : Core) : (d.setCore c x).out = d.out := rfl
@[simp] theorem Dev.setCore_msix (c : Nat) (x : Core) : (d.setCore c x).msix = d.msix := rfl
@[simp] theorem Dev.setCore_dones (c : Nat) (x : Core) : (d.setCore c x).dones = d.dones := rfl
@[simp] theorem Dev.setCore_provs (c : Nat) (x : Core) : (d.setCore c x).provs = d.provs := rfl
@[simp] theorem Dev.setCore_bound (c : Nat) (x : Core) : (d.setCore c x).bound = d.bound := rfl
@[simp] theorem Dev.setCore_targets (c : Nat) (x : Core) : (d.setCore c x).targets = d.targets := rfl
@[simp] theorem Dev.setCore_samples (c : Nat) (x : Core) : (d.setCore c x).samples = d.samples := rfl
@[simp] theorem Dev.setCore_ports (c : Nat) (x : Core) : (d.setCore c x).ports = d.ports := rfl
@[simp] theorem Dev.setCore_links (c : Nat) (x : Core) : (d.setCore c x).links = d.links := rfl
@[simp] theorem Dev.setCore_fabric (c : Nat) (x : Core) : (d.setCore c x).fabric = d.fabric := rfl
@[simp] theorem Dev.setCore_mirror (c : Nat) (x : Core) : (d.setCore c x).mirror = d.mirror := rfl
@[simp] theorem Dev.setCore_err (c : Nat) (x : Core) : (d.setCore c x).err = d.err := rfl
@[simp] theorem Dev.setCore_log (c : Nat) (x : Core) : (d.setCore c x).log = d.log := rfl
@[simp] theorem Dev.setCore_streamCks (c : Nat) (x : Core) : (d.setCore c x).streamCks = d.streamCks := rfl
@[simp] theorem Dev.setCore_coreCks (c : Nat) (x : Core) : (d.setCore c x).coreCks = d.coreCks := rfl
@[simp] theorem Dev.setCore_gov (c : Nat) (x : Core) : (d.setCore c x).gov = d.gov := rfl
@[simp] theorem Dev.setCore_flr (c : Nat) (x : Core) : (d.setCore c x).flr = d.flr := rfl
@[simp] theorem Dev.setCore_free (c : Nat) (x : Core) : (d.setCore c x).free = d.free := rfl
@[simp] theorem Dev.setCore_holds (c : Nat) (x : Core) : (d.setCore c x).holds = d.holds := rfl

/-! `Dev.onCore` changes `cores` alone. -/

@[simp] theorem Dev.onCore_kindle (c : Nat) (f : Core → Core) : (d.onCore c f).kindle = d.kindle := rfl
@[simp] theorem Dev.onCore_trust (c : Nat) (f : Core → Core) : (d.onCore c f).trust = d.trust := rfl
@[simp] theorem Dev.onCore_tb (c : Nat) (f : Core → Core) : (d.onCore c f).tb = d.tb := rfl
@[simp] theorem Dev.onCore_regs (c : Nat) (f : Core → Core) : (d.onCore c f).regs = d.regs := rfl
@[simp] theorem Dev.onCore_shadow (c : Nat) (f : Core → Core) : (d.onCore c f).shadow = d.shadow := rfl
@[simp] theorem Dev.onCore_staged (c : Nat) (f : Core → Core) : (d.onCore c f).staged = d.staged := rfl
@[simp] theorem Dev.onCore_cntNow (c : Nat) (f : Core → Core) : (d.onCore c f).cntNow = d.cntNow := rfl
@[simp] theorem Dev.onCore_cntLr (c : Nat) (f : Core → Core) : (d.onCore c f).cntLr = d.cntLr := rfl
@[simp] theorem Dev.onCore_slices (c : Nat) (f : Core → Core) : (d.onCore c f).slices = d.slices := rfl
@[simp] theorem Dev.onCore_well (c : Nat) (f : Core → Core) : (d.onCore c f).well = d.well := rfl
@[simp] theorem Dev.onCore_deep (c : Nat) (f : Core → Core) : (d.onCore c f).deep = d.deep := rfl
@[simp] theorem Dev.onCore_poolUse (c : Nat) (f : Core → Core) : (d.onCore c f).poolUse = d.poolUse := rfl
@[simp] theorem Dev.onCore_zeroing (c : Nat) (f : Core → Core) : (d.onCore c f).zeroing = d.zeroing := rfl
@[simp] theorem Dev.onCore_jobs (c : Nat) (f : Core → Core) : (d.onCore c f).jobs = d.jobs := rfl
@[simp] theorem Dev.onCore_cmds (c : Nat) (f : Core → Core) : (d.onCore c f).cmds = d.cmds := rfl
@[simp] theorem Dev.onCore_streams (c : Nat) (f : Core → Core) : (d.onCore c f).streams = d.streams := rfl
@[simp] theorem Dev.onCore_seqs (c : Nat) (f : Core → Core) : (d.onCore c f).seqs = d.seqs := rfl
@[simp] theorem Dev.onCore_moves (c : Nat) (f : Core → Core) : (d.onCore c f).moves = d.moves := rfl
@[simp] theorem Dev.onCore_freed (c : Nat) (f : Core → Core) : (d.onCore c f).freed = d.freed := rfl
@[simp] theorem Dev.onCore_cross (c : Nat) (f : Core → Core) : (d.onCore c f).cross = d.cross := rfl
@[simp] theorem Dev.onCore_shipIn (c : Nat) (f : Core → Core) : (d.onCore c f).shipIn = d.shipIn := rfl
@[simp] theorem Dev.onCore_rings (c : Nat) (f : Core → Core) : (d.onCore c f).rings = d.rings := rfl
@[simp] theorem Dev.onCore_out (c : Nat) (f : Core → Core) : (d.onCore c f).out = d.out := rfl
@[simp] theorem Dev.onCore_msix (c : Nat) (f : Core → Core) : (d.onCore c f).msix = d.msix := rfl
@[simp] theorem Dev.onCore_dones (c : Nat) (f : Core → Core) : (d.onCore c f).dones = d.dones := rfl
@[simp] theorem Dev.onCore_provs (c : Nat) (f : Core → Core) : (d.onCore c f).provs = d.provs := rfl
@[simp] theorem Dev.onCore_bound (c : Nat) (f : Core → Core) : (d.onCore c f).bound = d.bound := rfl
@[simp] theorem Dev.onCore_targets (c : Nat) (f : Core → Core) : (d.onCore c f).targets = d.targets := rfl
@[simp] theorem Dev.onCore_samples (c : Nat) (f : Core → Core) : (d.onCore c f).samples = d.samples := rfl
@[simp] theorem Dev.onCore_ports (c : Nat) (f : Core → Core) : (d.onCore c f).ports = d.ports := rfl
@[simp] theorem Dev.onCore_links (c : Nat) (f : Core → Core) : (d.onCore c f).links = d.links := rfl
@[simp] theorem Dev.onCore_fabric (c : Nat) (f : Core → Core) : (d.onCore c f).fabric = d.fabric := rfl
@[simp] theorem Dev.onCore_mirror (c : Nat) (f : Core → Core) : (d.onCore c f).mirror = d.mirror := rfl
@[simp] theorem Dev.onCore_err (c : Nat) (f : Core → Core) : (d.onCore c f).err = d.err := rfl
@[simp] theorem Dev.onCore_log (c : Nat) (f : Core → Core) : (d.onCore c f).log = d.log := rfl
@[simp] theorem Dev.onCore_streamCks (c : Nat) (f : Core → Core) : (d.onCore c f).streamCks = d.streamCks := rfl
@[simp] theorem Dev.onCore_coreCks (c : Nat) (f : Core → Core) : (d.onCore c f).coreCks = d.coreCks := rfl
@[simp] theorem Dev.onCore_gov (c : Nat) (f : Core → Core) : (d.onCore c f).gov = d.gov := rfl
@[simp] theorem Dev.onCore_flr (c : Nat) (f : Core → Core) : (d.onCore c f).flr = d.flr := rfl
@[simp] theorem Dev.onCore_free (c : Nat) (f : Core → Core) : (d.onCore c f).free = d.free := rfl
@[simp] theorem Dev.onCore_holds (c : Nat) (f : Core → Core) : (d.onCore c f).holds = d.holds := rfl

/-! `Dev.onTask` changes `cores` alone. -/

@[simp] theorem Dev.onTask_kindle (c t : Nat) (f : Task → Task) : (d.onTask c t f).kindle = d.kindle := rfl
@[simp] theorem Dev.onTask_trust (c t : Nat) (f : Task → Task) : (d.onTask c t f).trust = d.trust := rfl
@[simp] theorem Dev.onTask_tb (c t : Nat) (f : Task → Task) : (d.onTask c t f).tb = d.tb := rfl
@[simp] theorem Dev.onTask_regs (c t : Nat) (f : Task → Task) : (d.onTask c t f).regs = d.regs := rfl
@[simp] theorem Dev.onTask_shadow (c t : Nat) (f : Task → Task) : (d.onTask c t f).shadow = d.shadow := rfl
@[simp] theorem Dev.onTask_staged (c t : Nat) (f : Task → Task) : (d.onTask c t f).staged = d.staged := rfl
@[simp] theorem Dev.onTask_cntNow (c t : Nat) (f : Task → Task) : (d.onTask c t f).cntNow = d.cntNow := rfl
@[simp] theorem Dev.onTask_cntLr (c t : Nat) (f : Task → Task) : (d.onTask c t f).cntLr = d.cntLr := rfl
@[simp] theorem Dev.onTask_slices (c t : Nat) (f : Task → Task) : (d.onTask c t f).slices = d.slices := rfl
@[simp] theorem Dev.onTask_well (c t : Nat) (f : Task → Task) : (d.onTask c t f).well = d.well := rfl
@[simp] theorem Dev.onTask_deep (c t : Nat) (f : Task → Task) : (d.onTask c t f).deep = d.deep := rfl
@[simp] theorem Dev.onTask_poolUse (c t : Nat) (f : Task → Task) : (d.onTask c t f).poolUse = d.poolUse := rfl
@[simp] theorem Dev.onTask_zeroing (c t : Nat) (f : Task → Task) : (d.onTask c t f).zeroing = d.zeroing := rfl
@[simp] theorem Dev.onTask_jobs (c t : Nat) (f : Task → Task) : (d.onTask c t f).jobs = d.jobs := rfl
@[simp] theorem Dev.onTask_cmds (c t : Nat) (f : Task → Task) : (d.onTask c t f).cmds = d.cmds := rfl
@[simp] theorem Dev.onTask_streams (c t : Nat) (f : Task → Task) : (d.onTask c t f).streams = d.streams := rfl
@[simp] theorem Dev.onTask_seqs (c t : Nat) (f : Task → Task) : (d.onTask c t f).seqs = d.seqs := rfl
@[simp] theorem Dev.onTask_moves (c t : Nat) (f : Task → Task) : (d.onTask c t f).moves = d.moves := rfl
@[simp] theorem Dev.onTask_freed (c t : Nat) (f : Task → Task) : (d.onTask c t f).freed = d.freed := rfl
@[simp] theorem Dev.onTask_cross (c t : Nat) (f : Task → Task) : (d.onTask c t f).cross = d.cross := rfl
@[simp] theorem Dev.onTask_shipIn (c t : Nat) (f : Task → Task) : (d.onTask c t f).shipIn = d.shipIn := rfl
@[simp] theorem Dev.onTask_rings (c t : Nat) (f : Task → Task) : (d.onTask c t f).rings = d.rings := rfl
@[simp] theorem Dev.onTask_out (c t : Nat) (f : Task → Task) : (d.onTask c t f).out = d.out := rfl
@[simp] theorem Dev.onTask_msix (c t : Nat) (f : Task → Task) : (d.onTask c t f).msix = d.msix := rfl
@[simp] theorem Dev.onTask_dones (c t : Nat) (f : Task → Task) : (d.onTask c t f).dones = d.dones := rfl
@[simp] theorem Dev.onTask_provs (c t : Nat) (f : Task → Task) : (d.onTask c t f).provs = d.provs := rfl
@[simp] theorem Dev.onTask_bound (c t : Nat) (f : Task → Task) : (d.onTask c t f).bound = d.bound := rfl
@[simp] theorem Dev.onTask_targets (c t : Nat) (f : Task → Task) : (d.onTask c t f).targets = d.targets := rfl
@[simp] theorem Dev.onTask_samples (c t : Nat) (f : Task → Task) : (d.onTask c t f).samples = d.samples := rfl
@[simp] theorem Dev.onTask_ports (c t : Nat) (f : Task → Task) : (d.onTask c t f).ports = d.ports := rfl
@[simp] theorem Dev.onTask_links (c t : Nat) (f : Task → Task) : (d.onTask c t f).links = d.links := rfl
@[simp] theorem Dev.onTask_fabric (c t : Nat) (f : Task → Task) : (d.onTask c t f).fabric = d.fabric := rfl
@[simp] theorem Dev.onTask_mirror (c t : Nat) (f : Task → Task) : (d.onTask c t f).mirror = d.mirror := rfl
@[simp] theorem Dev.onTask_err (c t : Nat) (f : Task → Task) : (d.onTask c t f).err = d.err := rfl
@[simp] theorem Dev.onTask_log (c t : Nat) (f : Task → Task) : (d.onTask c t f).log = d.log := rfl
@[simp] theorem Dev.onTask_streamCks (c t : Nat) (f : Task → Task) : (d.onTask c t f).streamCks = d.streamCks := rfl
@[simp] theorem Dev.onTask_coreCks (c t : Nat) (f : Task → Task) : (d.onTask c t f).coreCks = d.coreCks := rfl
@[simp] theorem Dev.onTask_gov (c t : Nat) (f : Task → Task) : (d.onTask c t f).gov = d.gov := rfl
@[simp] theorem Dev.onTask_flr (c t : Nat) (f : Task → Task) : (d.onTask c t f).flr = d.flr := rfl
@[simp] theorem Dev.onTask_free (c t : Nat) (f : Task → Task) : (d.onTask c t f).free = d.free := rfl
@[simp] theorem Dev.onTask_holds (c t : Nat) (f : Task → Task) : (d.onTask c t f).holds = d.holds := rfl

/-! `Dev.onSlice` changes `slices` alone. -/

@[simp] theorem Dev.onSlice_kindle (k : Nat) (f : Slice → Slice) : (d.onSlice k f).kindle = d.kindle := rfl
@[simp] theorem Dev.onSlice_trust (k : Nat) (f : Slice → Slice) : (d.onSlice k f).trust = d.trust := rfl
@[simp] theorem Dev.onSlice_tb (k : Nat) (f : Slice → Slice) : (d.onSlice k f).tb = d.tb := rfl
@[simp] theorem Dev.onSlice_regs (k : Nat) (f : Slice → Slice) : (d.onSlice k f).regs = d.regs := rfl
@[simp] theorem Dev.onSlice_shadow (k : Nat) (f : Slice → Slice) : (d.onSlice k f).shadow = d.shadow := rfl
@[simp] theorem Dev.onSlice_staged (k : Nat) (f : Slice → Slice) : (d.onSlice k f).staged = d.staged := rfl
@[simp] theorem Dev.onSlice_cntNow (k : Nat) (f : Slice → Slice) : (d.onSlice k f).cntNow = d.cntNow := rfl
@[simp] theorem Dev.onSlice_cntLr (k : Nat) (f : Slice → Slice) : (d.onSlice k f).cntLr = d.cntLr := rfl
@[simp] theorem Dev.onSlice_cores (k : Nat) (f : Slice → Slice) : (d.onSlice k f).cores = d.cores := rfl
@[simp] theorem Dev.onSlice_well (k : Nat) (f : Slice → Slice) : (d.onSlice k f).well = d.well := rfl
@[simp] theorem Dev.onSlice_deep (k : Nat) (f : Slice → Slice) : (d.onSlice k f).deep = d.deep := rfl
@[simp] theorem Dev.onSlice_poolUse (k : Nat) (f : Slice → Slice) : (d.onSlice k f).poolUse = d.poolUse := rfl
@[simp] theorem Dev.onSlice_zeroing (k : Nat) (f : Slice → Slice) : (d.onSlice k f).zeroing = d.zeroing := rfl
@[simp] theorem Dev.onSlice_jobs (k : Nat) (f : Slice → Slice) : (d.onSlice k f).jobs = d.jobs := rfl
@[simp] theorem Dev.onSlice_cmds (k : Nat) (f : Slice → Slice) : (d.onSlice k f).cmds = d.cmds := rfl
@[simp] theorem Dev.onSlice_streams (k : Nat) (f : Slice → Slice) : (d.onSlice k f).streams = d.streams := rfl
@[simp] theorem Dev.onSlice_seqs (k : Nat) (f : Slice → Slice) : (d.onSlice k f).seqs = d.seqs := rfl
@[simp] theorem Dev.onSlice_moves (k : Nat) (f : Slice → Slice) : (d.onSlice k f).moves = d.moves := rfl
@[simp] theorem Dev.onSlice_freed (k : Nat) (f : Slice → Slice) : (d.onSlice k f).freed = d.freed := rfl
@[simp] theorem Dev.onSlice_cross (k : Nat) (f : Slice → Slice) : (d.onSlice k f).cross = d.cross := rfl
@[simp] theorem Dev.onSlice_shipIn (k : Nat) (f : Slice → Slice) : (d.onSlice k f).shipIn = d.shipIn := rfl
@[simp] theorem Dev.onSlice_rings (k : Nat) (f : Slice → Slice) : (d.onSlice k f).rings = d.rings := rfl
@[simp] theorem Dev.onSlice_out (k : Nat) (f : Slice → Slice) : (d.onSlice k f).out = d.out := rfl
@[simp] theorem Dev.onSlice_msix (k : Nat) (f : Slice → Slice) : (d.onSlice k f).msix = d.msix := rfl
@[simp] theorem Dev.onSlice_dones (k : Nat) (f : Slice → Slice) : (d.onSlice k f).dones = d.dones := rfl
@[simp] theorem Dev.onSlice_provs (k : Nat) (f : Slice → Slice) : (d.onSlice k f).provs = d.provs := rfl
@[simp] theorem Dev.onSlice_bound (k : Nat) (f : Slice → Slice) : (d.onSlice k f).bound = d.bound := rfl
@[simp] theorem Dev.onSlice_targets (k : Nat) (f : Slice → Slice) : (d.onSlice k f).targets = d.targets := rfl
@[simp] theorem Dev.onSlice_samples (k : Nat) (f : Slice → Slice) : (d.onSlice k f).samples = d.samples := rfl
@[simp] theorem Dev.onSlice_ports (k : Nat) (f : Slice → Slice) : (d.onSlice k f).ports = d.ports := rfl
@[simp] theorem Dev.onSlice_links (k : Nat) (f : Slice → Slice) : (d.onSlice k f).links = d.links := rfl
@[simp] theorem Dev.onSlice_fabric (k : Nat) (f : Slice → Slice) : (d.onSlice k f).fabric = d.fabric := rfl
@[simp] theorem Dev.onSlice_mirror (k : Nat) (f : Slice → Slice) : (d.onSlice k f).mirror = d.mirror := rfl
@[simp] theorem Dev.onSlice_err (k : Nat) (f : Slice → Slice) : (d.onSlice k f).err = d.err := rfl
@[simp] theorem Dev.onSlice_log (k : Nat) (f : Slice → Slice) : (d.onSlice k f).log = d.log := rfl
@[simp] theorem Dev.onSlice_streamCks (k : Nat) (f : Slice → Slice) : (d.onSlice k f).streamCks = d.streamCks := rfl
@[simp] theorem Dev.onSlice_coreCks (k : Nat) (f : Slice → Slice) : (d.onSlice k f).coreCks = d.coreCks := rfl
@[simp] theorem Dev.onSlice_gov (k : Nat) (f : Slice → Slice) : (d.onSlice k f).gov = d.gov := rfl
@[simp] theorem Dev.onSlice_flr (k : Nat) (f : Slice → Slice) : (d.onSlice k f).flr = d.flr := rfl
@[simp] theorem Dev.onSlice_free (k : Nat) (f : Slice → Slice) : (d.onSlice k f).free = d.free := rfl
@[simp] theorem Dev.onSlice_holds (k : Nat) (f : Slice → Slice) : (d.onSlice k f).holds = d.holds := rfl

/-! `Dev.onJob` changes `jobs` alone. -/

@[simp] theorem Dev.onJob_kindle (k : Nat) (f : Job → Job) : (d.onJob k f).kindle = d.kindle := rfl
@[simp] theorem Dev.onJob_trust (k : Nat) (f : Job → Job) : (d.onJob k f).trust = d.trust := rfl
@[simp] theorem Dev.onJob_tb (k : Nat) (f : Job → Job) : (d.onJob k f).tb = d.tb := rfl
@[simp] theorem Dev.onJob_regs (k : Nat) (f : Job → Job) : (d.onJob k f).regs = d.regs := rfl
@[simp] theorem Dev.onJob_shadow (k : Nat) (f : Job → Job) : (d.onJob k f).shadow = d.shadow := rfl
@[simp] theorem Dev.onJob_staged (k : Nat) (f : Job → Job) : (d.onJob k f).staged = d.staged := rfl
@[simp] theorem Dev.onJob_cntNow (k : Nat) (f : Job → Job) : (d.onJob k f).cntNow = d.cntNow := rfl
@[simp] theorem Dev.onJob_cntLr (k : Nat) (f : Job → Job) : (d.onJob k f).cntLr = d.cntLr := rfl
@[simp] theorem Dev.onJob_cores (k : Nat) (f : Job → Job) : (d.onJob k f).cores = d.cores := rfl
@[simp] theorem Dev.onJob_slices (k : Nat) (f : Job → Job) : (d.onJob k f).slices = d.slices := rfl
@[simp] theorem Dev.onJob_well (k : Nat) (f : Job → Job) : (d.onJob k f).well = d.well := rfl
@[simp] theorem Dev.onJob_deep (k : Nat) (f : Job → Job) : (d.onJob k f).deep = d.deep := rfl
@[simp] theorem Dev.onJob_poolUse (k : Nat) (f : Job → Job) : (d.onJob k f).poolUse = d.poolUse := rfl
@[simp] theorem Dev.onJob_zeroing (k : Nat) (f : Job → Job) : (d.onJob k f).zeroing = d.zeroing := rfl
@[simp] theorem Dev.onJob_cmds (k : Nat) (f : Job → Job) : (d.onJob k f).cmds = d.cmds := rfl
@[simp] theorem Dev.onJob_streams (k : Nat) (f : Job → Job) : (d.onJob k f).streams = d.streams := rfl
@[simp] theorem Dev.onJob_seqs (k : Nat) (f : Job → Job) : (d.onJob k f).seqs = d.seqs := rfl
@[simp] theorem Dev.onJob_moves (k : Nat) (f : Job → Job) : (d.onJob k f).moves = d.moves := rfl
@[simp] theorem Dev.onJob_freed (k : Nat) (f : Job → Job) : (d.onJob k f).freed = d.freed := rfl
@[simp] theorem Dev.onJob_cross (k : Nat) (f : Job → Job) : (d.onJob k f).cross = d.cross := rfl
@[simp] theorem Dev.onJob_shipIn (k : Nat) (f : Job → Job) : (d.onJob k f).shipIn = d.shipIn := rfl
@[simp] theorem Dev.onJob_rings (k : Nat) (f : Job → Job) : (d.onJob k f).rings = d.rings := rfl
@[simp] theorem Dev.onJob_out (k : Nat) (f : Job → Job) : (d.onJob k f).out = d.out := rfl
@[simp] theorem Dev.onJob_msix (k : Nat) (f : Job → Job) : (d.onJob k f).msix = d.msix := rfl
@[simp] theorem Dev.onJob_dones (k : Nat) (f : Job → Job) : (d.onJob k f).dones = d.dones := rfl
@[simp] theorem Dev.onJob_provs (k : Nat) (f : Job → Job) : (d.onJob k f).provs = d.provs := rfl
@[simp] theorem Dev.onJob_bound (k : Nat) (f : Job → Job) : (d.onJob k f).bound = d.bound := rfl
@[simp] theorem Dev.onJob_targets (k : Nat) (f : Job → Job) : (d.onJob k f).targets = d.targets := rfl
@[simp] theorem Dev.onJob_samples (k : Nat) (f : Job → Job) : (d.onJob k f).samples = d.samples := rfl
@[simp] theorem Dev.onJob_ports (k : Nat) (f : Job → Job) : (d.onJob k f).ports = d.ports := rfl
@[simp] theorem Dev.onJob_links (k : Nat) (f : Job → Job) : (d.onJob k f).links = d.links := rfl
@[simp] theorem Dev.onJob_fabric (k : Nat) (f : Job → Job) : (d.onJob k f).fabric = d.fabric := rfl
@[simp] theorem Dev.onJob_mirror (k : Nat) (f : Job → Job) : (d.onJob k f).mirror = d.mirror := rfl
@[simp] theorem Dev.onJob_err (k : Nat) (f : Job → Job) : (d.onJob k f).err = d.err := rfl
@[simp] theorem Dev.onJob_log (k : Nat) (f : Job → Job) : (d.onJob k f).log = d.log := rfl
@[simp] theorem Dev.onJob_streamCks (k : Nat) (f : Job → Job) : (d.onJob k f).streamCks = d.streamCks := rfl
@[simp] theorem Dev.onJob_coreCks (k : Nat) (f : Job → Job) : (d.onJob k f).coreCks = d.coreCks := rfl
@[simp] theorem Dev.onJob_gov (k : Nat) (f : Job → Job) : (d.onJob k f).gov = d.gov := rfl
@[simp] theorem Dev.onJob_flr (k : Nat) (f : Job → Job) : (d.onJob k f).flr = d.flr := rfl
@[simp] theorem Dev.onJob_free (k : Nat) (f : Job → Job) : (d.onJob k f).free = d.free := rfl
@[simp] theorem Dev.onJob_holds (k : Nat) (f : Job → Job) : (d.onJob k f).holds = d.holds := rfl

/-! `Dev.onStream` changes `streams` alone. -/

@[simp] theorem Dev.onStream_kindle (k : Nat) (f : Stream → Stream) : (d.onStream k f).kindle = d.kindle := rfl
@[simp] theorem Dev.onStream_trust (k : Nat) (f : Stream → Stream) : (d.onStream k f).trust = d.trust := rfl
@[simp] theorem Dev.onStream_tb (k : Nat) (f : Stream → Stream) : (d.onStream k f).tb = d.tb := rfl
@[simp] theorem Dev.onStream_regs (k : Nat) (f : Stream → Stream) : (d.onStream k f).regs = d.regs := rfl
@[simp] theorem Dev.onStream_shadow (k : Nat) (f : Stream → Stream) : (d.onStream k f).shadow = d.shadow := rfl
@[simp] theorem Dev.onStream_staged (k : Nat) (f : Stream → Stream) : (d.onStream k f).staged = d.staged := rfl
@[simp] theorem Dev.onStream_cntNow (k : Nat) (f : Stream → Stream) : (d.onStream k f).cntNow = d.cntNow := rfl
@[simp] theorem Dev.onStream_cntLr (k : Nat) (f : Stream → Stream) : (d.onStream k f).cntLr = d.cntLr := rfl
@[simp] theorem Dev.onStream_cores (k : Nat) (f : Stream → Stream) : (d.onStream k f).cores = d.cores := rfl
@[simp] theorem Dev.onStream_slices (k : Nat) (f : Stream → Stream) : (d.onStream k f).slices = d.slices := rfl
@[simp] theorem Dev.onStream_well (k : Nat) (f : Stream → Stream) : (d.onStream k f).well = d.well := rfl
@[simp] theorem Dev.onStream_deep (k : Nat) (f : Stream → Stream) : (d.onStream k f).deep = d.deep := rfl
@[simp] theorem Dev.onStream_poolUse (k : Nat) (f : Stream → Stream) : (d.onStream k f).poolUse = d.poolUse := rfl
@[simp] theorem Dev.onStream_zeroing (k : Nat) (f : Stream → Stream) : (d.onStream k f).zeroing = d.zeroing := rfl
@[simp] theorem Dev.onStream_jobs (k : Nat) (f : Stream → Stream) : (d.onStream k f).jobs = d.jobs := rfl
@[simp] theorem Dev.onStream_cmds (k : Nat) (f : Stream → Stream) : (d.onStream k f).cmds = d.cmds := rfl
@[simp] theorem Dev.onStream_seqs (k : Nat) (f : Stream → Stream) : (d.onStream k f).seqs = d.seqs := rfl
@[simp] theorem Dev.onStream_moves (k : Nat) (f : Stream → Stream) : (d.onStream k f).moves = d.moves := rfl
@[simp] theorem Dev.onStream_freed (k : Nat) (f : Stream → Stream) : (d.onStream k f).freed = d.freed := rfl
@[simp] theorem Dev.onStream_cross (k : Nat) (f : Stream → Stream) : (d.onStream k f).cross = d.cross := rfl
@[simp] theorem Dev.onStream_shipIn (k : Nat) (f : Stream → Stream) : (d.onStream k f).shipIn = d.shipIn := rfl
@[simp] theorem Dev.onStream_rings (k : Nat) (f : Stream → Stream) : (d.onStream k f).rings = d.rings := rfl
@[simp] theorem Dev.onStream_out (k : Nat) (f : Stream → Stream) : (d.onStream k f).out = d.out := rfl
@[simp] theorem Dev.onStream_msix (k : Nat) (f : Stream → Stream) : (d.onStream k f).msix = d.msix := rfl
@[simp] theorem Dev.onStream_dones (k : Nat) (f : Stream → Stream) : (d.onStream k f).dones = d.dones := rfl
@[simp] theorem Dev.onStream_provs (k : Nat) (f : Stream → Stream) : (d.onStream k f).provs = d.provs := rfl
@[simp] theorem Dev.onStream_bound (k : Nat) (f : Stream → Stream) : (d.onStream k f).bound = d.bound := rfl
@[simp] theorem Dev.onStream_targets (k : Nat) (f : Stream → Stream) : (d.onStream k f).targets = d.targets := rfl
@[simp] theorem Dev.onStream_samples (k : Nat) (f : Stream → Stream) : (d.onStream k f).samples = d.samples := rfl
@[simp] theorem Dev.onStream_ports (k : Nat) (f : Stream → Stream) : (d.onStream k f).ports = d.ports := rfl
@[simp] theorem Dev.onStream_links (k : Nat) (f : Stream → Stream) : (d.onStream k f).links = d.links := rfl
@[simp] theorem Dev.onStream_fabric (k : Nat) (f : Stream → Stream) : (d.onStream k f).fabric = d.fabric := rfl
@[simp] theorem Dev.onStream_mirror (k : Nat) (f : Stream → Stream) : (d.onStream k f).mirror = d.mirror := rfl
@[simp] theorem Dev.onStream_err (k : Nat) (f : Stream → Stream) : (d.onStream k f).err = d.err := rfl
@[simp] theorem Dev.onStream_log (k : Nat) (f : Stream → Stream) : (d.onStream k f).log = d.log := rfl
@[simp] theorem Dev.onStream_streamCks (k : Nat) (f : Stream → Stream) : (d.onStream k f).streamCks = d.streamCks := rfl
@[simp] theorem Dev.onStream_coreCks (k : Nat) (f : Stream → Stream) : (d.onStream k f).coreCks = d.coreCks := rfl
@[simp] theorem Dev.onStream_gov (k : Nat) (f : Stream → Stream) : (d.onStream k f).gov = d.gov := rfl
@[simp] theorem Dev.onStream_flr (k : Nat) (f : Stream → Stream) : (d.onStream k f).flr = d.flr := rfl
@[simp] theorem Dev.onStream_free (k : Nat) (f : Stream → Stream) : (d.onStream k f).free = d.free := rfl
@[simp] theorem Dev.onStream_holds (k : Nat) (f : Stream → Stream) : (d.onStream k f).holds = d.holds := rfl

/-! `Dev.onPort` changes `ports` alone. -/

@[simp] theorem Dev.onPort_kindle (k : Nat) (f : Port → Port) : (d.onPort k f).kindle = d.kindle := rfl
@[simp] theorem Dev.onPort_trust (k : Nat) (f : Port → Port) : (d.onPort k f).trust = d.trust := rfl
@[simp] theorem Dev.onPort_tb (k : Nat) (f : Port → Port) : (d.onPort k f).tb = d.tb := rfl
@[simp] theorem Dev.onPort_regs (k : Nat) (f : Port → Port) : (d.onPort k f).regs = d.regs := rfl
@[simp] theorem Dev.onPort_shadow (k : Nat) (f : Port → Port) : (d.onPort k f).shadow = d.shadow := rfl
@[simp] theorem Dev.onPort_staged (k : Nat) (f : Port → Port) : (d.onPort k f).staged = d.staged := rfl
@[simp] theorem Dev.onPort_cntNow (k : Nat) (f : Port → Port) : (d.onPort k f).cntNow = d.cntNow := rfl
@[simp] theorem Dev.onPort_cntLr (k : Nat) (f : Port → Port) : (d.onPort k f).cntLr = d.cntLr := rfl
@[simp] theorem Dev.onPort_cores (k : Nat) (f : Port → Port) : (d.onPort k f).cores = d.cores := rfl
@[simp] theorem Dev.onPort_slices (k : Nat) (f : Port → Port) : (d.onPort k f).slices = d.slices := rfl
@[simp] theorem Dev.onPort_well (k : Nat) (f : Port → Port) : (d.onPort k f).well = d.well := rfl
@[simp] theorem Dev.onPort_deep (k : Nat) (f : Port → Port) : (d.onPort k f).deep = d.deep := rfl
@[simp] theorem Dev.onPort_poolUse (k : Nat) (f : Port → Port) : (d.onPort k f).poolUse = d.poolUse := rfl
@[simp] theorem Dev.onPort_zeroing (k : Nat) (f : Port → Port) : (d.onPort k f).zeroing = d.zeroing := rfl
@[simp] theorem Dev.onPort_jobs (k : Nat) (f : Port → Port) : (d.onPort k f).jobs = d.jobs := rfl
@[simp] theorem Dev.onPort_cmds (k : Nat) (f : Port → Port) : (d.onPort k f).cmds = d.cmds := rfl
@[simp] theorem Dev.onPort_streams (k : Nat) (f : Port → Port) : (d.onPort k f).streams = d.streams := rfl
@[simp] theorem Dev.onPort_seqs (k : Nat) (f : Port → Port) : (d.onPort k f).seqs = d.seqs := rfl
@[simp] theorem Dev.onPort_moves (k : Nat) (f : Port → Port) : (d.onPort k f).moves = d.moves := rfl
@[simp] theorem Dev.onPort_freed (k : Nat) (f : Port → Port) : (d.onPort k f).freed = d.freed := rfl
@[simp] theorem Dev.onPort_cross (k : Nat) (f : Port → Port) : (d.onPort k f).cross = d.cross := rfl
@[simp] theorem Dev.onPort_shipIn (k : Nat) (f : Port → Port) : (d.onPort k f).shipIn = d.shipIn := rfl
@[simp] theorem Dev.onPort_rings (k : Nat) (f : Port → Port) : (d.onPort k f).rings = d.rings := rfl
@[simp] theorem Dev.onPort_out (k : Nat) (f : Port → Port) : (d.onPort k f).out = d.out := rfl
@[simp] theorem Dev.onPort_msix (k : Nat) (f : Port → Port) : (d.onPort k f).msix = d.msix := rfl
@[simp] theorem Dev.onPort_dones (k : Nat) (f : Port → Port) : (d.onPort k f).dones = d.dones := rfl
@[simp] theorem Dev.onPort_provs (k : Nat) (f : Port → Port) : (d.onPort k f).provs = d.provs := rfl
@[simp] theorem Dev.onPort_bound (k : Nat) (f : Port → Port) : (d.onPort k f).bound = d.bound := rfl
@[simp] theorem Dev.onPort_targets (k : Nat) (f : Port → Port) : (d.onPort k f).targets = d.targets := rfl
@[simp] theorem Dev.onPort_samples (k : Nat) (f : Port → Port) : (d.onPort k f).samples = d.samples := rfl
@[simp] theorem Dev.onPort_links (k : Nat) (f : Port → Port) : (d.onPort k f).links = d.links := rfl
@[simp] theorem Dev.onPort_fabric (k : Nat) (f : Port → Port) : (d.onPort k f).fabric = d.fabric := rfl
@[simp] theorem Dev.onPort_mirror (k : Nat) (f : Port → Port) : (d.onPort k f).mirror = d.mirror := rfl
@[simp] theorem Dev.onPort_err (k : Nat) (f : Port → Port) : (d.onPort k f).err = d.err := rfl
@[simp] theorem Dev.onPort_log (k : Nat) (f : Port → Port) : (d.onPort k f).log = d.log := rfl
@[simp] theorem Dev.onPort_streamCks (k : Nat) (f : Port → Port) : (d.onPort k f).streamCks = d.streamCks := rfl
@[simp] theorem Dev.onPort_coreCks (k : Nat) (f : Port → Port) : (d.onPort k f).coreCks = d.coreCks := rfl
@[simp] theorem Dev.onPort_gov (k : Nat) (f : Port → Port) : (d.onPort k f).gov = d.gov := rfl
@[simp] theorem Dev.onPort_flr (k : Nat) (f : Port → Port) : (d.onPort k f).flr = d.flr := rfl
@[simp] theorem Dev.onPort_free (k : Nat) (f : Port → Port) : (d.onPort k f).free = d.free := rfl
@[simp] theorem Dev.onPort_holds (k : Nat) (f : Port → Port) : (d.onPort k f).holds = d.holds := rfl

/-! `Dev.onLink` changes `links` alone. -/

@[simp] theorem Dev.onLink_kindle (k : Nat) (f : Link → Link) : (d.onLink k f).kindle = d.kindle := rfl
@[simp] theorem Dev.onLink_trust (k : Nat) (f : Link → Link) : (d.onLink k f).trust = d.trust := rfl
@[simp] theorem Dev.onLink_tb (k : Nat) (f : Link → Link) : (d.onLink k f).tb = d.tb := rfl
@[simp] theorem Dev.onLink_regs (k : Nat) (f : Link → Link) : (d.onLink k f).regs = d.regs := rfl
@[simp] theorem Dev.onLink_shadow (k : Nat) (f : Link → Link) : (d.onLink k f).shadow = d.shadow := rfl
@[simp] theorem Dev.onLink_staged (k : Nat) (f : Link → Link) : (d.onLink k f).staged = d.staged := rfl
@[simp] theorem Dev.onLink_cntNow (k : Nat) (f : Link → Link) : (d.onLink k f).cntNow = d.cntNow := rfl
@[simp] theorem Dev.onLink_cntLr (k : Nat) (f : Link → Link) : (d.onLink k f).cntLr = d.cntLr := rfl
@[simp] theorem Dev.onLink_cores (k : Nat) (f : Link → Link) : (d.onLink k f).cores = d.cores := rfl
@[simp] theorem Dev.onLink_slices (k : Nat) (f : Link → Link) : (d.onLink k f).slices = d.slices := rfl
@[simp] theorem Dev.onLink_well (k : Nat) (f : Link → Link) : (d.onLink k f).well = d.well := rfl
@[simp] theorem Dev.onLink_deep (k : Nat) (f : Link → Link) : (d.onLink k f).deep = d.deep := rfl
@[simp] theorem Dev.onLink_poolUse (k : Nat) (f : Link → Link) : (d.onLink k f).poolUse = d.poolUse := rfl
@[simp] theorem Dev.onLink_zeroing (k : Nat) (f : Link → Link) : (d.onLink k f).zeroing = d.zeroing := rfl
@[simp] theorem Dev.onLink_jobs (k : Nat) (f : Link → Link) : (d.onLink k f).jobs = d.jobs := rfl
@[simp] theorem Dev.onLink_cmds (k : Nat) (f : Link → Link) : (d.onLink k f).cmds = d.cmds := rfl
@[simp] theorem Dev.onLink_streams (k : Nat) (f : Link → Link) : (d.onLink k f).streams = d.streams := rfl
@[simp] theorem Dev.onLink_seqs (k : Nat) (f : Link → Link) : (d.onLink k f).seqs = d.seqs := rfl
@[simp] theorem Dev.onLink_moves (k : Nat) (f : Link → Link) : (d.onLink k f).moves = d.moves := rfl
@[simp] theorem Dev.onLink_freed (k : Nat) (f : Link → Link) : (d.onLink k f).freed = d.freed := rfl
@[simp] theorem Dev.onLink_cross (k : Nat) (f : Link → Link) : (d.onLink k f).cross = d.cross := rfl
@[simp] theorem Dev.onLink_shipIn (k : Nat) (f : Link → Link) : (d.onLink k f).shipIn = d.shipIn := rfl
@[simp] theorem Dev.onLink_rings (k : Nat) (f : Link → Link) : (d.onLink k f).rings = d.rings := rfl
@[simp] theorem Dev.onLink_out (k : Nat) (f : Link → Link) : (d.onLink k f).out = d.out := rfl
@[simp] theorem Dev.onLink_msix (k : Nat) (f : Link → Link) : (d.onLink k f).msix = d.msix := rfl
@[simp] theorem Dev.onLink_dones (k : Nat) (f : Link → Link) : (d.onLink k f).dones = d.dones := rfl
@[simp] theorem Dev.onLink_provs (k : Nat) (f : Link → Link) : (d.onLink k f).provs = d.provs := rfl
@[simp] theorem Dev.onLink_bound (k : Nat) (f : Link → Link) : (d.onLink k f).bound = d.bound := rfl
@[simp] theorem Dev.onLink_targets (k : Nat) (f : Link → Link) : (d.onLink k f).targets = d.targets := rfl
@[simp] theorem Dev.onLink_samples (k : Nat) (f : Link → Link) : (d.onLink k f).samples = d.samples := rfl
@[simp] theorem Dev.onLink_ports (k : Nat) (f : Link → Link) : (d.onLink k f).ports = d.ports := rfl
@[simp] theorem Dev.onLink_fabric (k : Nat) (f : Link → Link) : (d.onLink k f).fabric = d.fabric := rfl
@[simp] theorem Dev.onLink_mirror (k : Nat) (f : Link → Link) : (d.onLink k f).mirror = d.mirror := rfl
@[simp] theorem Dev.onLink_err (k : Nat) (f : Link → Link) : (d.onLink k f).err = d.err := rfl
@[simp] theorem Dev.onLink_log (k : Nat) (f : Link → Link) : (d.onLink k f).log = d.log := rfl
@[simp] theorem Dev.onLink_streamCks (k : Nat) (f : Link → Link) : (d.onLink k f).streamCks = d.streamCks := rfl
@[simp] theorem Dev.onLink_coreCks (k : Nat) (f : Link → Link) : (d.onLink k f).coreCks = d.coreCks := rfl
@[simp] theorem Dev.onLink_gov (k : Nat) (f : Link → Link) : (d.onLink k f).gov = d.gov := rfl
@[simp] theorem Dev.onLink_flr (k : Nat) (f : Link → Link) : (d.onLink k f).flr = d.flr := rfl
@[simp] theorem Dev.onLink_free (k : Nat) (f : Link → Link) : (d.onLink k f).free = d.free := rfl
@[simp] theorem Dev.onLink_holds (k : Nat) (f : Link → Link) : (d.onLink k f).holds = d.holds := rfl

/-! `Dev.onCross` changes `cross` alone. -/

@[simp] theorem Dev.onCross_kindle (k : Nat) (f : CrossQ → CrossQ) : (d.onCross k f).kindle = d.kindle := rfl
@[simp] theorem Dev.onCross_trust (k : Nat) (f : CrossQ → CrossQ) : (d.onCross k f).trust = d.trust := rfl
@[simp] theorem Dev.onCross_tb (k : Nat) (f : CrossQ → CrossQ) : (d.onCross k f).tb = d.tb := rfl
@[simp] theorem Dev.onCross_regs (k : Nat) (f : CrossQ → CrossQ) : (d.onCross k f).regs = d.regs := rfl
@[simp] theorem Dev.onCross_shadow (k : Nat) (f : CrossQ → CrossQ) : (d.onCross k f).shadow = d.shadow := rfl
@[simp] theorem Dev.onCross_staged (k : Nat) (f : CrossQ → CrossQ) : (d.onCross k f).staged = d.staged := rfl
@[simp] theorem Dev.onCross_cntNow (k : Nat) (f : CrossQ → CrossQ) : (d.onCross k f).cntNow = d.cntNow := rfl
@[simp] theorem Dev.onCross_cntLr (k : Nat) (f : CrossQ → CrossQ) : (d.onCross k f).cntLr = d.cntLr := rfl
@[simp] theorem Dev.onCross_cores (k : Nat) (f : CrossQ → CrossQ) : (d.onCross k f).cores = d.cores := rfl
@[simp] theorem Dev.onCross_slices (k : Nat) (f : CrossQ → CrossQ) : (d.onCross k f).slices = d.slices := rfl
@[simp] theorem Dev.onCross_well (k : Nat) (f : CrossQ → CrossQ) : (d.onCross k f).well = d.well := rfl
@[simp] theorem Dev.onCross_deep (k : Nat) (f : CrossQ → CrossQ) : (d.onCross k f).deep = d.deep := rfl
@[simp] theorem Dev.onCross_poolUse (k : Nat) (f : CrossQ → CrossQ) : (d.onCross k f).poolUse = d.poolUse := rfl
@[simp] theorem Dev.onCross_zeroing (k : Nat) (f : CrossQ → CrossQ) : (d.onCross k f).zeroing = d.zeroing := rfl
@[simp] theorem Dev.onCross_jobs (k : Nat) (f : CrossQ → CrossQ) : (d.onCross k f).jobs = d.jobs := rfl
@[simp] theorem Dev.onCross_cmds (k : Nat) (f : CrossQ → CrossQ) : (d.onCross k f).cmds = d.cmds := rfl
@[simp] theorem Dev.onCross_streams (k : Nat) (f : CrossQ → CrossQ) : (d.onCross k f).streams = d.streams := rfl
@[simp] theorem Dev.onCross_seqs (k : Nat) (f : CrossQ → CrossQ) : (d.onCross k f).seqs = d.seqs := rfl
@[simp] theorem Dev.onCross_moves (k : Nat) (f : CrossQ → CrossQ) : (d.onCross k f).moves = d.moves := rfl
@[simp] theorem Dev.onCross_freed (k : Nat) (f : CrossQ → CrossQ) : (d.onCross k f).freed = d.freed := rfl
@[simp] theorem Dev.onCross_shipIn (k : Nat) (f : CrossQ → CrossQ) : (d.onCross k f).shipIn = d.shipIn := rfl
@[simp] theorem Dev.onCross_rings (k : Nat) (f : CrossQ → CrossQ) : (d.onCross k f).rings = d.rings := rfl
@[simp] theorem Dev.onCross_out (k : Nat) (f : CrossQ → CrossQ) : (d.onCross k f).out = d.out := rfl
@[simp] theorem Dev.onCross_msix (k : Nat) (f : CrossQ → CrossQ) : (d.onCross k f).msix = d.msix := rfl
@[simp] theorem Dev.onCross_dones (k : Nat) (f : CrossQ → CrossQ) : (d.onCross k f).dones = d.dones := rfl
@[simp] theorem Dev.onCross_provs (k : Nat) (f : CrossQ → CrossQ) : (d.onCross k f).provs = d.provs := rfl
@[simp] theorem Dev.onCross_bound (k : Nat) (f : CrossQ → CrossQ) : (d.onCross k f).bound = d.bound := rfl
@[simp] theorem Dev.onCross_targets (k : Nat) (f : CrossQ → CrossQ) : (d.onCross k f).targets = d.targets := rfl
@[simp] theorem Dev.onCross_samples (k : Nat) (f : CrossQ → CrossQ) : (d.onCross k f).samples = d.samples := rfl
@[simp] theorem Dev.onCross_ports (k : Nat) (f : CrossQ → CrossQ) : (d.onCross k f).ports = d.ports := rfl
@[simp] theorem Dev.onCross_links (k : Nat) (f : CrossQ → CrossQ) : (d.onCross k f).links = d.links := rfl
@[simp] theorem Dev.onCross_fabric (k : Nat) (f : CrossQ → CrossQ) : (d.onCross k f).fabric = d.fabric := rfl
@[simp] theorem Dev.onCross_mirror (k : Nat) (f : CrossQ → CrossQ) : (d.onCross k f).mirror = d.mirror := rfl
@[simp] theorem Dev.onCross_err (k : Nat) (f : CrossQ → CrossQ) : (d.onCross k f).err = d.err := rfl
@[simp] theorem Dev.onCross_log (k : Nat) (f : CrossQ → CrossQ) : (d.onCross k f).log = d.log := rfl
@[simp] theorem Dev.onCross_streamCks (k : Nat) (f : CrossQ → CrossQ) : (d.onCross k f).streamCks = d.streamCks := rfl
@[simp] theorem Dev.onCross_coreCks (k : Nat) (f : CrossQ → CrossQ) : (d.onCross k f).coreCks = d.coreCks := rfl
@[simp] theorem Dev.onCross_gov (k : Nat) (f : CrossQ → CrossQ) : (d.onCross k f).gov = d.gov := rfl
@[simp] theorem Dev.onCross_flr (k : Nat) (f : CrossQ → CrossQ) : (d.onCross k f).flr = d.flr := rfl
@[simp] theorem Dev.onCross_free (k : Nat) (f : CrossQ → CrossQ) : (d.onCross k f).free = d.free := rfl
@[simp] theorem Dev.onCross_holds (k : Nat) (f : CrossQ → CrossQ) : (d.onCross k f).holds = d.holds := rfl

/-! `Dev.onRing` changes `rings` alone. -/

@[simp] theorem Dev.onRing_kindle (k : Nat) (f : HostRing → HostRing) : (d.onRing k f).kindle = d.kindle := rfl
@[simp] theorem Dev.onRing_trust (k : Nat) (f : HostRing → HostRing) : (d.onRing k f).trust = d.trust := rfl
@[simp] theorem Dev.onRing_tb (k : Nat) (f : HostRing → HostRing) : (d.onRing k f).tb = d.tb := rfl
@[simp] theorem Dev.onRing_regs (k : Nat) (f : HostRing → HostRing) : (d.onRing k f).regs = d.regs := rfl
@[simp] theorem Dev.onRing_shadow (k : Nat) (f : HostRing → HostRing) : (d.onRing k f).shadow = d.shadow := rfl
@[simp] theorem Dev.onRing_staged (k : Nat) (f : HostRing → HostRing) : (d.onRing k f).staged = d.staged := rfl
@[simp] theorem Dev.onRing_cntNow (k : Nat) (f : HostRing → HostRing) : (d.onRing k f).cntNow = d.cntNow := rfl
@[simp] theorem Dev.onRing_cntLr (k : Nat) (f : HostRing → HostRing) : (d.onRing k f).cntLr = d.cntLr := rfl
@[simp] theorem Dev.onRing_cores (k : Nat) (f : HostRing → HostRing) : (d.onRing k f).cores = d.cores := rfl
@[simp] theorem Dev.onRing_slices (k : Nat) (f : HostRing → HostRing) : (d.onRing k f).slices = d.slices := rfl
@[simp] theorem Dev.onRing_well (k : Nat) (f : HostRing → HostRing) : (d.onRing k f).well = d.well := rfl
@[simp] theorem Dev.onRing_deep (k : Nat) (f : HostRing → HostRing) : (d.onRing k f).deep = d.deep := rfl
@[simp] theorem Dev.onRing_poolUse (k : Nat) (f : HostRing → HostRing) : (d.onRing k f).poolUse = d.poolUse := rfl
@[simp] theorem Dev.onRing_zeroing (k : Nat) (f : HostRing → HostRing) : (d.onRing k f).zeroing = d.zeroing := rfl
@[simp] theorem Dev.onRing_jobs (k : Nat) (f : HostRing → HostRing) : (d.onRing k f).jobs = d.jobs := rfl
@[simp] theorem Dev.onRing_cmds (k : Nat) (f : HostRing → HostRing) : (d.onRing k f).cmds = d.cmds := rfl
@[simp] theorem Dev.onRing_streams (k : Nat) (f : HostRing → HostRing) : (d.onRing k f).streams = d.streams := rfl
@[simp] theorem Dev.onRing_seqs (k : Nat) (f : HostRing → HostRing) : (d.onRing k f).seqs = d.seqs := rfl
@[simp] theorem Dev.onRing_moves (k : Nat) (f : HostRing → HostRing) : (d.onRing k f).moves = d.moves := rfl
@[simp] theorem Dev.onRing_freed (k : Nat) (f : HostRing → HostRing) : (d.onRing k f).freed = d.freed := rfl
@[simp] theorem Dev.onRing_cross (k : Nat) (f : HostRing → HostRing) : (d.onRing k f).cross = d.cross := rfl
@[simp] theorem Dev.onRing_shipIn (k : Nat) (f : HostRing → HostRing) : (d.onRing k f).shipIn = d.shipIn := rfl
@[simp] theorem Dev.onRing_out (k : Nat) (f : HostRing → HostRing) : (d.onRing k f).out = d.out := rfl
@[simp] theorem Dev.onRing_msix (k : Nat) (f : HostRing → HostRing) : (d.onRing k f).msix = d.msix := rfl
@[simp] theorem Dev.onRing_dones (k : Nat) (f : HostRing → HostRing) : (d.onRing k f).dones = d.dones := rfl
@[simp] theorem Dev.onRing_provs (k : Nat) (f : HostRing → HostRing) : (d.onRing k f).provs = d.provs := rfl
@[simp] theorem Dev.onRing_bound (k : Nat) (f : HostRing → HostRing) : (d.onRing k f).bound = d.bound := rfl
@[simp] theorem Dev.onRing_targets (k : Nat) (f : HostRing → HostRing) : (d.onRing k f).targets = d.targets := rfl
@[simp] theorem Dev.onRing_samples (k : Nat) (f : HostRing → HostRing) : (d.onRing k f).samples = d.samples := rfl
@[simp] theorem Dev.onRing_ports (k : Nat) (f : HostRing → HostRing) : (d.onRing k f).ports = d.ports := rfl
@[simp] theorem Dev.onRing_links (k : Nat) (f : HostRing → HostRing) : (d.onRing k f).links = d.links := rfl
@[simp] theorem Dev.onRing_fabric (k : Nat) (f : HostRing → HostRing) : (d.onRing k f).fabric = d.fabric := rfl
@[simp] theorem Dev.onRing_mirror (k : Nat) (f : HostRing → HostRing) : (d.onRing k f).mirror = d.mirror := rfl
@[simp] theorem Dev.onRing_err (k : Nat) (f : HostRing → HostRing) : (d.onRing k f).err = d.err := rfl
@[simp] theorem Dev.onRing_log (k : Nat) (f : HostRing → HostRing) : (d.onRing k f).log = d.log := rfl
@[simp] theorem Dev.onRing_streamCks (k : Nat) (f : HostRing → HostRing) : (d.onRing k f).streamCks = d.streamCks := rfl
@[simp] theorem Dev.onRing_coreCks (k : Nat) (f : HostRing → HostRing) : (d.onRing k f).coreCks = d.coreCks := rfl
@[simp] theorem Dev.onRing_gov (k : Nat) (f : HostRing → HostRing) : (d.onRing k f).gov = d.gov := rfl
@[simp] theorem Dev.onRing_flr (k : Nat) (f : HostRing → HostRing) : (d.onRing k f).flr = d.flr := rfl
@[simp] theorem Dev.onRing_free (k : Nat) (f : HostRing → HostRing) : (d.onRing k f).free = d.free := rfl
@[simp] theorem Dev.onRing_holds (k : Nat) (f : HostRing → HostRing) : (d.onRing k f).holds = d.holds := rfl

/-! `Dev.setReg` changes `regs` alone. -/

@[simp] theorem Dev.setReg_kindle (off v : Nat) : (d.setReg off v).kindle = d.kindle := rfl
@[simp] theorem Dev.setReg_trust (off v : Nat) : (d.setReg off v).trust = d.trust := rfl
@[simp] theorem Dev.setReg_tb (off v : Nat) : (d.setReg off v).tb = d.tb := rfl
@[simp] theorem Dev.setReg_shadow (off v : Nat) : (d.setReg off v).shadow = d.shadow := rfl
@[simp] theorem Dev.setReg_staged (off v : Nat) : (d.setReg off v).staged = d.staged := rfl
@[simp] theorem Dev.setReg_cntNow (off v : Nat) : (d.setReg off v).cntNow = d.cntNow := rfl
@[simp] theorem Dev.setReg_cntLr (off v : Nat) : (d.setReg off v).cntLr = d.cntLr := rfl
@[simp] theorem Dev.setReg_cores (off v : Nat) : (d.setReg off v).cores = d.cores := rfl
@[simp] theorem Dev.setReg_slices (off v : Nat) : (d.setReg off v).slices = d.slices := rfl
@[simp] theorem Dev.setReg_well (off v : Nat) : (d.setReg off v).well = d.well := rfl
@[simp] theorem Dev.setReg_deep (off v : Nat) : (d.setReg off v).deep = d.deep := rfl
@[simp] theorem Dev.setReg_poolUse (off v : Nat) : (d.setReg off v).poolUse = d.poolUse := rfl
@[simp] theorem Dev.setReg_zeroing (off v : Nat) : (d.setReg off v).zeroing = d.zeroing := rfl
@[simp] theorem Dev.setReg_jobs (off v : Nat) : (d.setReg off v).jobs = d.jobs := rfl
@[simp] theorem Dev.setReg_cmds (off v : Nat) : (d.setReg off v).cmds = d.cmds := rfl
@[simp] theorem Dev.setReg_streams (off v : Nat) : (d.setReg off v).streams = d.streams := rfl
@[simp] theorem Dev.setReg_seqs (off v : Nat) : (d.setReg off v).seqs = d.seqs := rfl
@[simp] theorem Dev.setReg_moves (off v : Nat) : (d.setReg off v).moves = d.moves := rfl
@[simp] theorem Dev.setReg_freed (off v : Nat) : (d.setReg off v).freed = d.freed := rfl
@[simp] theorem Dev.setReg_cross (off v : Nat) : (d.setReg off v).cross = d.cross := rfl
@[simp] theorem Dev.setReg_shipIn (off v : Nat) : (d.setReg off v).shipIn = d.shipIn := rfl
@[simp] theorem Dev.setReg_rings (off v : Nat) : (d.setReg off v).rings = d.rings := rfl
@[simp] theorem Dev.setReg_out (off v : Nat) : (d.setReg off v).out = d.out := rfl
@[simp] theorem Dev.setReg_msix (off v : Nat) : (d.setReg off v).msix = d.msix := rfl
@[simp] theorem Dev.setReg_dones (off v : Nat) : (d.setReg off v).dones = d.dones := rfl
@[simp] theorem Dev.setReg_provs (off v : Nat) : (d.setReg off v).provs = d.provs := rfl
@[simp] theorem Dev.setReg_bound (off v : Nat) : (d.setReg off v).bound = d.bound := rfl
@[simp] theorem Dev.setReg_targets (off v : Nat) : (d.setReg off v).targets = d.targets := rfl
@[simp] theorem Dev.setReg_samples (off v : Nat) : (d.setReg off v).samples = d.samples := rfl
@[simp] theorem Dev.setReg_ports (off v : Nat) : (d.setReg off v).ports = d.ports := rfl
@[simp] theorem Dev.setReg_links (off v : Nat) : (d.setReg off v).links = d.links := rfl
@[simp] theorem Dev.setReg_fabric (off v : Nat) : (d.setReg off v).fabric = d.fabric := rfl
@[simp] theorem Dev.setReg_mirror (off v : Nat) : (d.setReg off v).mirror = d.mirror := rfl
@[simp] theorem Dev.setReg_err (off v : Nat) : (d.setReg off v).err = d.err := rfl
@[simp] theorem Dev.setReg_log (off v : Nat) : (d.setReg off v).log = d.log := rfl
@[simp] theorem Dev.setReg_streamCks (off v : Nat) : (d.setReg off v).streamCks = d.streamCks := rfl
@[simp] theorem Dev.setReg_coreCks (off v : Nat) : (d.setReg off v).coreCks = d.coreCks := rfl
@[simp] theorem Dev.setReg_gov (off v : Nat) : (d.setReg off v).gov = d.gov := rfl
@[simp] theorem Dev.setReg_flr (off v : Nat) : (d.setReg off v).flr = d.flr := rfl
@[simp] theorem Dev.setReg_free (off v : Nat) : (d.setReg off v).free = d.free := rfl
@[simp] theorem Dev.setReg_holds (off v : Nat) : (d.setReg off v).holds = d.holds := rfl

/-! `Dev.emit` changes `out` alone. -/

@[simp] theorem Dev.emit_kindle (o : HostOut) : (d.emit o).kindle = d.kindle := rfl
@[simp] theorem Dev.emit_trust (o : HostOut) : (d.emit o).trust = d.trust := rfl
@[simp] theorem Dev.emit_tb (o : HostOut) : (d.emit o).tb = d.tb := rfl
@[simp] theorem Dev.emit_regs (o : HostOut) : (d.emit o).regs = d.regs := rfl
@[simp] theorem Dev.emit_shadow (o : HostOut) : (d.emit o).shadow = d.shadow := rfl
@[simp] theorem Dev.emit_staged (o : HostOut) : (d.emit o).staged = d.staged := rfl
@[simp] theorem Dev.emit_cntNow (o : HostOut) : (d.emit o).cntNow = d.cntNow := rfl
@[simp] theorem Dev.emit_cntLr (o : HostOut) : (d.emit o).cntLr = d.cntLr := rfl
@[simp] theorem Dev.emit_cores (o : HostOut) : (d.emit o).cores = d.cores := rfl
@[simp] theorem Dev.emit_slices (o : HostOut) : (d.emit o).slices = d.slices := rfl
@[simp] theorem Dev.emit_well (o : HostOut) : (d.emit o).well = d.well := rfl
@[simp] theorem Dev.emit_deep (o : HostOut) : (d.emit o).deep = d.deep := rfl
@[simp] theorem Dev.emit_poolUse (o : HostOut) : (d.emit o).poolUse = d.poolUse := rfl
@[simp] theorem Dev.emit_zeroing (o : HostOut) : (d.emit o).zeroing = d.zeroing := rfl
@[simp] theorem Dev.emit_jobs (o : HostOut) : (d.emit o).jobs = d.jobs := rfl
@[simp] theorem Dev.emit_cmds (o : HostOut) : (d.emit o).cmds = d.cmds := rfl
@[simp] theorem Dev.emit_streams (o : HostOut) : (d.emit o).streams = d.streams := rfl
@[simp] theorem Dev.emit_seqs (o : HostOut) : (d.emit o).seqs = d.seqs := rfl
@[simp] theorem Dev.emit_moves (o : HostOut) : (d.emit o).moves = d.moves := rfl
@[simp] theorem Dev.emit_freed (o : HostOut) : (d.emit o).freed = d.freed := rfl
@[simp] theorem Dev.emit_cross (o : HostOut) : (d.emit o).cross = d.cross := rfl
@[simp] theorem Dev.emit_shipIn (o : HostOut) : (d.emit o).shipIn = d.shipIn := rfl
@[simp] theorem Dev.emit_rings (o : HostOut) : (d.emit o).rings = d.rings := rfl
@[simp] theorem Dev.emit_msix (o : HostOut) : (d.emit o).msix = d.msix := rfl
@[simp] theorem Dev.emit_dones (o : HostOut) : (d.emit o).dones = d.dones := rfl
@[simp] theorem Dev.emit_provs (o : HostOut) : (d.emit o).provs = d.provs := rfl
@[simp] theorem Dev.emit_bound (o : HostOut) : (d.emit o).bound = d.bound := rfl
@[simp] theorem Dev.emit_targets (o : HostOut) : (d.emit o).targets = d.targets := rfl
@[simp] theorem Dev.emit_samples (o : HostOut) : (d.emit o).samples = d.samples := rfl
@[simp] theorem Dev.emit_ports (o : HostOut) : (d.emit o).ports = d.ports := rfl
@[simp] theorem Dev.emit_links (o : HostOut) : (d.emit o).links = d.links := rfl
@[simp] theorem Dev.emit_fabric (o : HostOut) : (d.emit o).fabric = d.fabric := rfl
@[simp] theorem Dev.emit_mirror (o : HostOut) : (d.emit o).mirror = d.mirror := rfl
@[simp] theorem Dev.emit_err (o : HostOut) : (d.emit o).err = d.err := rfl
@[simp] theorem Dev.emit_log (o : HostOut) : (d.emit o).log = d.log := rfl
@[simp] theorem Dev.emit_streamCks (o : HostOut) : (d.emit o).streamCks = d.streamCks := rfl
@[simp] theorem Dev.emit_coreCks (o : HostOut) : (d.emit o).coreCks = d.coreCks := rfl
@[simp] theorem Dev.emit_gov (o : HostOut) : (d.emit o).gov = d.gov := rfl
@[simp] theorem Dev.emit_flr (o : HostOut) : (d.emit o).flr = d.flr := rfl
@[simp] theorem Dev.emit_free (o : HostOut) : (d.emit o).free = d.free := rfl
@[simp] theorem Dev.emit_holds (o : HostOut) : (d.emit o).holds = d.holds := rfl

/-! `Dev.vector` changes `out` and `msix` alone. -/

@[simp] theorem Dev.vector_kindle (v : Nat) : (d.vector v).kindle = d.kindle := by
  unfold Dev.vector; split <;> rfl
@[simp] theorem Dev.vector_trust (v : Nat) : (d.vector v).trust = d.trust := by
  unfold Dev.vector; split <;> rfl
@[simp] theorem Dev.vector_tb (v : Nat) : (d.vector v).tb = d.tb := by
  unfold Dev.vector; split <;> rfl
@[simp] theorem Dev.vector_regs (v : Nat) : (d.vector v).regs = d.regs := by
  unfold Dev.vector; split <;> rfl
@[simp] theorem Dev.vector_shadow (v : Nat) : (d.vector v).shadow = d.shadow := by
  unfold Dev.vector; split <;> rfl
@[simp] theorem Dev.vector_staged (v : Nat) : (d.vector v).staged = d.staged := by
  unfold Dev.vector; split <;> rfl
@[simp] theorem Dev.vector_cntNow (v : Nat) : (d.vector v).cntNow = d.cntNow := by
  unfold Dev.vector; split <;> rfl
@[simp] theorem Dev.vector_cntLr (v : Nat) : (d.vector v).cntLr = d.cntLr := by
  unfold Dev.vector; split <;> rfl
@[simp] theorem Dev.vector_cores (v : Nat) : (d.vector v).cores = d.cores := by
  unfold Dev.vector; split <;> rfl
@[simp] theorem Dev.vector_slices (v : Nat) : (d.vector v).slices = d.slices := by
  unfold Dev.vector; split <;> rfl
@[simp] theorem Dev.vector_well (v : Nat) : (d.vector v).well = d.well := by
  unfold Dev.vector; split <;> rfl
@[simp] theorem Dev.vector_deep (v : Nat) : (d.vector v).deep = d.deep := by
  unfold Dev.vector; split <;> rfl
@[simp] theorem Dev.vector_poolUse (v : Nat) : (d.vector v).poolUse = d.poolUse := by
  unfold Dev.vector; split <;> rfl
@[simp] theorem Dev.vector_zeroing (v : Nat) : (d.vector v).zeroing = d.zeroing := by
  unfold Dev.vector; split <;> rfl
@[simp] theorem Dev.vector_jobs (v : Nat) : (d.vector v).jobs = d.jobs := by
  unfold Dev.vector; split <;> rfl
@[simp] theorem Dev.vector_cmds (v : Nat) : (d.vector v).cmds = d.cmds := by
  unfold Dev.vector; split <;> rfl
@[simp] theorem Dev.vector_streams (v : Nat) : (d.vector v).streams = d.streams := by
  unfold Dev.vector; split <;> rfl
@[simp] theorem Dev.vector_seqs (v : Nat) : (d.vector v).seqs = d.seqs := by
  unfold Dev.vector; split <;> rfl
@[simp] theorem Dev.vector_moves (v : Nat) : (d.vector v).moves = d.moves := by
  unfold Dev.vector; split <;> rfl
@[simp] theorem Dev.vector_freed (v : Nat) : (d.vector v).freed = d.freed := by
  unfold Dev.vector; split <;> rfl
@[simp] theorem Dev.vector_cross (v : Nat) : (d.vector v).cross = d.cross := by
  unfold Dev.vector; split <;> rfl
@[simp] theorem Dev.vector_shipIn (v : Nat) : (d.vector v).shipIn = d.shipIn := by
  unfold Dev.vector; split <;> rfl
@[simp] theorem Dev.vector_rings (v : Nat) : (d.vector v).rings = d.rings := by
  unfold Dev.vector; split <;> rfl
@[simp] theorem Dev.vector_dones (v : Nat) : (d.vector v).dones = d.dones := by
  unfold Dev.vector; split <;> rfl
@[simp] theorem Dev.vector_provs (v : Nat) : (d.vector v).provs = d.provs := by
  unfold Dev.vector; split <;> rfl
@[simp] theorem Dev.vector_bound (v : Nat) : (d.vector v).bound = d.bound := by
  unfold Dev.vector; split <;> rfl
@[simp] theorem Dev.vector_targets (v : Nat) : (d.vector v).targets = d.targets := by
  unfold Dev.vector; split <;> rfl
@[simp] theorem Dev.vector_samples (v : Nat) : (d.vector v).samples = d.samples := by
  unfold Dev.vector; split <;> rfl
@[simp] theorem Dev.vector_ports (v : Nat) : (d.vector v).ports = d.ports := by
  unfold Dev.vector; split <;> rfl
@[simp] theorem Dev.vector_links (v : Nat) : (d.vector v).links = d.links := by
  unfold Dev.vector; split <;> rfl
@[simp] theorem Dev.vector_fabric (v : Nat) : (d.vector v).fabric = d.fabric := by
  unfold Dev.vector; split <;> rfl
@[simp] theorem Dev.vector_mirror (v : Nat) : (d.vector v).mirror = d.mirror := by
  unfold Dev.vector; split <;> rfl
@[simp] theorem Dev.vector_err (v : Nat) : (d.vector v).err = d.err := by
  unfold Dev.vector; split <;> rfl
@[simp] theorem Dev.vector_log (v : Nat) : (d.vector v).log = d.log := by
  unfold Dev.vector; split <;> rfl
@[simp] theorem Dev.vector_streamCks (v : Nat) : (d.vector v).streamCks = d.streamCks := by
  unfold Dev.vector; split <;> rfl
@[simp] theorem Dev.vector_coreCks (v : Nat) : (d.vector v).coreCks = d.coreCks := by
  unfold Dev.vector; split <;> rfl
@[simp] theorem Dev.vector_gov (v : Nat) : (d.vector v).gov = d.gov := by
  unfold Dev.vector; split <;> rfl
@[simp] theorem Dev.vector_flr (v : Nat) : (d.vector v).flr = d.flr := by
  unfold Dev.vector; split <;> rfl
@[simp] theorem Dev.vector_free (v : Nat) : (d.vector v).free = d.free := by
  unfold Dev.vector; split <;> rfl
@[simp] theorem Dev.vector_holds (v : Nat) : (d.vector v).holds = d.holds := by
  unfold Dev.vector; split <;> rfl

/-! `Dev.halt` changes `err` alone. -/

@[simp] theorem Dev.halt_kindle : (d.halt).kindle = d.kindle := rfl
@[simp] theorem Dev.halt_trust : (d.halt).trust = d.trust := rfl
@[simp] theorem Dev.halt_tb : (d.halt).tb = d.tb := rfl
@[simp] theorem Dev.halt_regs : (d.halt).regs = d.regs := rfl
@[simp] theorem Dev.halt_shadow : (d.halt).shadow = d.shadow := rfl
@[simp] theorem Dev.halt_staged : (d.halt).staged = d.staged := rfl
@[simp] theorem Dev.halt_cntNow : (d.halt).cntNow = d.cntNow := rfl
@[simp] theorem Dev.halt_cntLr : (d.halt).cntLr = d.cntLr := rfl
@[simp] theorem Dev.halt_cores : (d.halt).cores = d.cores := rfl
@[simp] theorem Dev.halt_slices : (d.halt).slices = d.slices := rfl
@[simp] theorem Dev.halt_well : (d.halt).well = d.well := rfl
@[simp] theorem Dev.halt_deep : (d.halt).deep = d.deep := rfl
@[simp] theorem Dev.halt_poolUse : (d.halt).poolUse = d.poolUse := rfl
@[simp] theorem Dev.halt_zeroing : (d.halt).zeroing = d.zeroing := rfl
@[simp] theorem Dev.halt_jobs : (d.halt).jobs = d.jobs := rfl
@[simp] theorem Dev.halt_cmds : (d.halt).cmds = d.cmds := rfl
@[simp] theorem Dev.halt_streams : (d.halt).streams = d.streams := rfl
@[simp] theorem Dev.halt_seqs : (d.halt).seqs = d.seqs := rfl
@[simp] theorem Dev.halt_moves : (d.halt).moves = d.moves := rfl
@[simp] theorem Dev.halt_freed : (d.halt).freed = d.freed := rfl
@[simp] theorem Dev.halt_cross : (d.halt).cross = d.cross := rfl
@[simp] theorem Dev.halt_shipIn : (d.halt).shipIn = d.shipIn := rfl
@[simp] theorem Dev.halt_rings : (d.halt).rings = d.rings := rfl
@[simp] theorem Dev.halt_out : (d.halt).out = d.out := rfl
@[simp] theorem Dev.halt_msix : (d.halt).msix = d.msix := rfl
@[simp] theorem Dev.halt_dones : (d.halt).dones = d.dones := rfl
@[simp] theorem Dev.halt_provs : (d.halt).provs = d.provs := rfl
@[simp] theorem Dev.halt_bound : (d.halt).bound = d.bound := rfl
@[simp] theorem Dev.halt_targets : (d.halt).targets = d.targets := rfl
@[simp] theorem Dev.halt_samples : (d.halt).samples = d.samples := rfl
@[simp] theorem Dev.halt_ports : (d.halt).ports = d.ports := rfl
@[simp] theorem Dev.halt_links : (d.halt).links = d.links := rfl
@[simp] theorem Dev.halt_fabric : (d.halt).fabric = d.fabric := rfl
@[simp] theorem Dev.halt_mirror : (d.halt).mirror = d.mirror := rfl
@[simp] theorem Dev.halt_log : (d.halt).log = d.log := rfl
@[simp] theorem Dev.halt_streamCks : (d.halt).streamCks = d.streamCks := rfl
@[simp] theorem Dev.halt_coreCks : (d.halt).coreCks = d.coreCks := rfl
@[simp] theorem Dev.halt_gov : (d.halt).gov = d.gov := rfl
@[simp] theorem Dev.halt_flr : (d.halt).flr = d.flr := rfl
@[simp] theorem Dev.halt_free : (d.halt).free = d.free := rfl
@[simp] theorem Dev.halt_holds : (d.halt).holds = d.holds := rfl

/-! `Dev.at_` changes `tb` alone. -/

@[simp] theorem Dev.at_kindle (now : Nat) : (d.at_ now).kindle = d.kindle := rfl
@[simp] theorem Dev.at_trust (now : Nat) : (d.at_ now).trust = d.trust := rfl
@[simp] theorem Dev.at_regs (now : Nat) : (d.at_ now).regs = d.regs := rfl
@[simp] theorem Dev.at_shadow (now : Nat) : (d.at_ now).shadow = d.shadow := rfl
@[simp] theorem Dev.at_staged (now : Nat) : (d.at_ now).staged = d.staged := rfl
@[simp] theorem Dev.at_cntNow (now : Nat) : (d.at_ now).cntNow = d.cntNow := rfl
@[simp] theorem Dev.at_cntLr (now : Nat) : (d.at_ now).cntLr = d.cntLr := rfl
@[simp] theorem Dev.at_cores (now : Nat) : (d.at_ now).cores = d.cores := rfl
@[simp] theorem Dev.at_slices (now : Nat) : (d.at_ now).slices = d.slices := rfl
@[simp] theorem Dev.at_well (now : Nat) : (d.at_ now).well = d.well := rfl
@[simp] theorem Dev.at_deep (now : Nat) : (d.at_ now).deep = d.deep := rfl
@[simp] theorem Dev.at_poolUse (now : Nat) : (d.at_ now).poolUse = d.poolUse := rfl
@[simp] theorem Dev.at_zeroing (now : Nat) : (d.at_ now).zeroing = d.zeroing := rfl
@[simp] theorem Dev.at_jobs (now : Nat) : (d.at_ now).jobs = d.jobs := rfl
@[simp] theorem Dev.at_cmds (now : Nat) : (d.at_ now).cmds = d.cmds := rfl
@[simp] theorem Dev.at_streams (now : Nat) : (d.at_ now).streams = d.streams := rfl
@[simp] theorem Dev.at_seqs (now : Nat) : (d.at_ now).seqs = d.seqs := rfl
@[simp] theorem Dev.at_moves (now : Nat) : (d.at_ now).moves = d.moves := rfl
@[simp] theorem Dev.at_freed (now : Nat) : (d.at_ now).freed = d.freed := rfl
@[simp] theorem Dev.at_cross (now : Nat) : (d.at_ now).cross = d.cross := rfl
@[simp] theorem Dev.at_shipIn (now : Nat) : (d.at_ now).shipIn = d.shipIn := rfl
@[simp] theorem Dev.at_rings (now : Nat) : (d.at_ now).rings = d.rings := rfl
@[simp] theorem Dev.at_out (now : Nat) : (d.at_ now).out = d.out := rfl
@[simp] theorem Dev.at_msix (now : Nat) : (d.at_ now).msix = d.msix := rfl
@[simp] theorem Dev.at_dones (now : Nat) : (d.at_ now).dones = d.dones := rfl
@[simp] theorem Dev.at_provs (now : Nat) : (d.at_ now).provs = d.provs := rfl
@[simp] theorem Dev.at_bound (now : Nat) : (d.at_ now).bound = d.bound := rfl
@[simp] theorem Dev.at_targets (now : Nat) : (d.at_ now).targets = d.targets := rfl
@[simp] theorem Dev.at_samples (now : Nat) : (d.at_ now).samples = d.samples := rfl
@[simp] theorem Dev.at_ports (now : Nat) : (d.at_ now).ports = d.ports := rfl
@[simp] theorem Dev.at_links (now : Nat) : (d.at_ now).links = d.links := rfl
@[simp] theorem Dev.at_fabric (now : Nat) : (d.at_ now).fabric = d.fabric := rfl
@[simp] theorem Dev.at_mirror (now : Nat) : (d.at_ now).mirror = d.mirror := rfl
@[simp] theorem Dev.at_err (now : Nat) : (d.at_ now).err = d.err := rfl
@[simp] theorem Dev.at_log (now : Nat) : (d.at_ now).log = d.log := rfl
@[simp] theorem Dev.at_streamCks (now : Nat) : (d.at_ now).streamCks = d.streamCks := rfl
@[simp] theorem Dev.at_coreCks (now : Nat) : (d.at_ now).coreCks = d.coreCks := rfl
@[simp] theorem Dev.at_gov (now : Nat) : (d.at_ now).gov = d.gov := rfl
@[simp] theorem Dev.at_flr (now : Nat) : (d.at_ now).flr = d.flr := rfl
@[simp] theorem Dev.at_free (now : Nat) : (d.at_ now).free = d.free := rfl
@[simp] theorem Dev.at_holds (now : Nat) : (d.at_ now).holds = d.holds := rfl

/-! What they change it to. -/

theorem Dev.setCore_cores (c : Nat) (x : Core) : (d.setCore c x).cores = mset d.cores c x := rfl
theorem Dev.onCore_cores (c : Nat) (f : Core → Core) : (d.onCore c f).cores = mset d.cores c (f (d.core c)) := rfl
theorem Dev.onSlice_slices (k : Nat) (f : Slice → Slice) : (d.onSlice k f).slices = mset d.slices k (f (d.slice k)) := rfl
theorem Dev.onJob_jobs (k : Nat) (f : Job → Job) : (d.onJob k f).jobs = mset d.jobs k (f (d.job k)) := rfl
theorem Dev.onStream_streams (k : Nat) (f : Stream → Stream) : (d.onStream k f).streams = mset d.streams k (f (d.stream k)) := rfl
theorem Dev.onPort_ports (k : Nat) (f : Port → Port) : (d.onPort k f).ports = mset d.ports k (f (d.port k)) := rfl
theorem Dev.onLink_links (k : Nat) (f : Link → Link) : (d.onLink k f).links = mset d.links k (f (d.link k)) := rfl
theorem Dev.onCross_cross (k : Nat) (f : CrossQ → CrossQ) : (d.onCross k f).cross = mset d.cross k (f (d.crossQ k)) := rfl
theorem Dev.onRing_rings (k : Nat) (f : HostRing → HostRing) : (d.onRing k f).rings = mset d.rings k (f (d.ring k)) := rfl
theorem Dev.setReg_regs (off v : Nat) : (d.setReg off v).regs = mset d.regs off (BitVec.ofNat 64 v) := rfl
theorem Dev.emit_out (o : HostOut) : (d.emit o).out = d.out ++ [o] := rfl
theorem Dev.halt_err : (d.halt).err = { d.err with halting := true } := rfl
/-- An interrupt leaves for the host or becomes pending. -/
theorem Dev.vector_eq (v : Nat) : ∃ vs m, d.vector v = { d with out := d.out ++ vs, msix := m } := by
  unfold Dev.vector
  split
  · exact ⟨[], _, by simp; rfl⟩
  · exact ⟨_, _, rfl⟩

@[simp] theorem Dev.at_now (now : Nat) : (d.at_ now).tb.now = max d.tb.now now := rfl

/-! `Core.setTask` changes `tasks` alone, `Core.onTag` and `Core.setAcc` their own map. -/

@[simp] theorem Core.setTask_mem (x : Core) (t : Nat) (k : Task) : (x.setTask t k).mem = x.mem := rfl
@[simp] theorem Core.setTask_roles (x : Core) (t : Nat) (k : Task) : (x.setTask t k).roles = x.roles := rfl
@[simp] theorem Core.setTask_bad (x : Core) (t : Nat) (k : Task) : (x.setTask t k).bad = x.bad := rfl
@[simp] theorem Core.setTask_patrolPos (x : Core) (t : Nat) (k : Task) : (x.setTask t k).patrolPos = x.patrolPos := rfl
@[simp] theorem Core.setTask_patrolWb (x : Core) (t : Nat) (k : Task) : (x.setTask t k).patrolWb = x.patrolWb := rfl
@[simp] theorem Core.setTask_tags (x : Core) (t : Nat) (k : Task) : (x.setTask t k).tags = x.tags := rfl
@[simp] theorem Core.setTask_tallies (x : Core) (t : Nat) (k : Task) : (x.setTask t k).tallies = x.tallies := rfl
@[simp] theorem Core.setTask_tallySat (x : Core) (t : Nat) (k : Task) : (x.setTask t k).tallySat = x.tallySat := rfl
@[simp] theorem Core.setTask_acc (x : Core) (t : Nat) (k : Task) : (x.setTask t k).acc = x.acc := rfl
@[simp] theorem Core.setTask_windows (x : Core) (t : Nat) (k : Task) : (x.setTask t k).windows = x.windows := rfl
@[simp] theorem Core.setTask_scale (x : Core) (t : Nat) (k : Task) : (x.setTask t k).scale = x.scale := rfl
@[simp] theorem Core.setTask_groups (x : Core) (t : Nat) (k : Task) : (x.setTask t k).groups = x.groups := rfl
@[simp] theorem Core.setTask_accs (x : Core) (t : Nat) (k : Task) : (x.setTask t k).accs = x.accs := rfl
@[simp] theorem Core.setTask_stpeak (x : Core) (t : Nat) (k : Task) : (x.setTask t k).stpeak = x.stpeak := rfl
@[simp] theorem Core.setTask_stpeakUsed (x : Core) (t : Nat) (k : Task) : (x.setTask t k).stpeakUsed = x.stpeakUsed := rfl
@[simp] theorem Core.setTask_stpeakUnrec (x : Core) (t : Nat) (k : Task) : (x.setTask t k).stpeakUnrec = x.stpeakUnrec := rfl
@[simp] theorem Core.setTask_stpeakClr (x : Core) (t : Nat) (k : Task) : (x.setTask t k).stpeakClr = x.stpeakClr := rfl
@[simp] theorem Core.setTask_gens (x : Core) (t : Nat) (k : Task) : (x.setTask t k).gens = x.gens := rfl
@[simp] theorem Core.setTask_pendLoads (x : Core) (t : Nat) (k : Task) : (x.setTask t k).pendLoads = x.pendLoads := rfl
@[simp] theorem Core.setTask_staged (x : Core) (t : Nat) (k : Task) : (x.setTask t k).staged = x.staged := rfl
@[simp] theorem Core.setTask_relay (x : Core) (t : Nat) (k : Task) : (x.setTask t k).relay = x.relay := rfl
@[simp] theorem Core.setTask_pump (x : Core) (t : Nat) (k : Task) : (x.setTask t k).pump = x.pump := rfl
@[simp] theorem Core.setTask_landed (x : Core) (t : Nat) (k : Task) : (x.setTask t k).landed = x.landed := rfl
@[simp] theorem Core.setTask_matLast (x : Core) (t : Nat) (k : Task) : (x.setTask t k).matLast = x.matLast := rfl
@[simp] theorem Core.setTask_eleLast (x : Core) (t : Nat) (k : Task) : (x.setTask t k).eleLast = x.eleLast := rfl
@[simp] theorem Core.setTask_redLast (x : Core) (t : Nat) (k : Task) : (x.setTask t k).redLast = x.redLast := rfl
@[simp] theorem Core.setTask_gatLast (x : Core) (t : Nat) (k : Task) : (x.setTask t k).gatLast = x.gatLast := rfl
@[simp] theorem Core.setTask_maint (x : Core) (t : Nat) (k : Task) : (x.setTask t k).maint = x.maint := rfl
@[simp] theorem Core.setTask_locked (x : Core) (t : Nat) (k : Task) : (x.setTask t k).locked = x.locked := rfl
@[simp] theorem Core.setTask_denied (x : Core) (t : Nat) (k : Task) : (x.setTask t k).denied = x.denied := rfl

end Sys2Proof.Machine
end

