-- ==== Sys2Proof/Laws/Ops.lean ====
section
/-! SUPPORT. Laws/Ops.lean: sparse data by key, memories in their canonical form, units of the device after an update, and what
the shared writers (error ring, interrupts, host rings, decision log) can do. -/

namespace Sys2Proof.Machine

/-! ### Sparse data -/

@[simp] theorem mget_mset_self {α : Type} (m : SMap α) (k : Nat) (x : α) : mget (mset m k x) k = some x := by
  induction m with
  | nil => simp [mset, mget]
  | cons p r ih =>
    obtain ⟨a, v⟩ := p
    unfold mset
    by_cases h1 : k < a
    · simp [h1, mget]
    · by_cases h2 : k = a
      · simp [h2, mget]
      · simp [h1, h2, mget, Ne.symm h2, ih]

@[simp] theorem mget_mset_ne {α : Type} (m : SMap α) (k j : Nat) (x : α) (h : j ≠ k) : mget (mset m k x) j = mget m j := by
  induction m with
  | nil => simp [mset, mget, Ne.symm h]
  | cons p r ih =>
    obtain ⟨a, v⟩ := p
    unfold mset
    by_cases h1 : k < a
    · simp [h1, mget, Ne.symm h]
    · by_cases h2 : k = a
      · subst h2; simp [mget, Ne.symm h]
      · simp [h1, h2, mget, ih]

theorem mget_mset {α : Type} (m : SMap α) (k j : Nat) (x : α) : mget (mset m k x) j = if j = k then some x else mget m j := by
  by_cases h : j = k
  · subst h; simp
  · simp [h]

@[simp] theorem mgetD_mset_self {α : Type} (m : SMap α) (k : Nat) (x y : α) : mgetD (mset m k x) k y = x := by simp [mgetD]

@[simp] theorem mgetD_mset_ne {α : Type} (m : SMap α) (k j : Nat) (x y : α) (h : j ≠ k) :
    mgetD (mset m k x) j y = mgetD m j y := by simp [mgetD, h]

theorem mgetD_mset {α : Type} (m : SMap α) (k j : Nat) (x y : α) :
    mgetD (mset m k x) j y = if j = k then x else mgetD m j y := by
  by_cases h : j = k
  · subst h; simp
  · simp [h]

/-- A rising map has every later key above the first. -/
theorem mwf_iff_pairwise {α : Type} (m : SMap α) : mwf m = true ↔ m.Pairwise (fun a b => a.1 < b.1) := by
  induction m with
  | nil => simp [mwf]
  | cons p r ih =>
    cases r with
    | nil => simp [mwf]
    | cons q r =>
      simp only [mwf, Bool.and_eq_true, decide_eq_true_eq, ih, List.pairwise_cons]
      constructor
      · rintro ⟨h, h2, h3⟩
        refine ⟨?_, h2, h3⟩
        intro b hb
        rcases List.mem_cons.mp hb with rfl | hb
        · exact h
        · exact Nat.lt_trans h (h2 b hb)
      · rintro ⟨h, h2⟩
        exact ⟨h q (by simp), h2⟩

theorem mem_mset {α : Type} (m : SMap α) (k : Nat) (x : α) (p : Nat × α) (h : p ∈ mset m k x) : p = (k, x) ∨ p ∈ m := by
  induction m with
  | nil => simp [mset] at h; exact .inl h
  | cons q r ih =>
    obtain ⟨a, v⟩ := q
    unfold mset at h
    split at h
    · rcases List.mem_cons.mp h with h | h
      · exact .inl h
      · exact .inr h
    · split at h
      · rcases List.mem_cons.mp h with h | h
        · exact .inl h
        · exact .inr (List.mem_cons_of_mem _ h)
      · rcases List.mem_cons.mp h with h | h
        · exact .inr (by simp [h])
        · rcases ih h with h | h
          · exact .inl h
          · exact .inr (List.mem_cons_of_mem _ h)

/-- Setting a key keeps rising order. -/
theorem mwf_mset {α : Type} (m : SMap α) (k : Nat) (x : α) (h : mwf m = true) : mwf (mset m k x) = true := by
  rw [mwf_iff_pairwise] at h ⊢
  induction m with
  | nil => simp [mset]
  | cons q r ih =>
    obtain ⟨a, v⟩ := q
    rw [List.pairwise_cons] at h
    unfold mset
    split
    · rename_i hk
      refine List.pairwise_cons.mpr ⟨?_, List.pairwise_cons.mpr h⟩
      intro b hb
      rcases List.mem_cons.mp hb with rfl | hb
      · exact hk
      · exact Nat.lt_trans hk (h.1 b hb)
    · split
      · rename_i _ hk
        subst hk
        exact List.pairwise_cons.mpr ⟨fun b hb => h.1 b hb, h.2⟩
      · rename_i h1 h2
        refine List.pairwise_cons.mpr ⟨?_, ih h.2⟩
        intro b hb
        rcases mem_mset r k x b hb with rfl | hb
        · show a < k; omega
        · exact h.1 b hb

@[simp] theorem mget_mmap {α : Type} (f : Nat → α → α) (m : SMap α) (k : Nat) : mget (mmap f m) k = (mget m k).map (f k) := by
  induction m with
  | nil => rfl
  | cons p r ih =>
    obtain ⟨a, v⟩ := p
    by_cases h : a = k
    · subst h; simp [mmap, mget]
    · simp only [mmap, List.map_cons, mget, if_neg h]; exact ih

theorem mem_of_mget {α : Type} (m : SMap α) (k : Nat) (x : α) (h : mget m k = some x) : (k, x) ∈ m := by
  induction m with
  | nil => simp [mget] at h
  | cons p r ih =>
    obtain ⟨a, v⟩ := p
    unfold mget at h
    split at h
    · rename_i e; subst e; cases h; simp
    · exact List.mem_cons_of_mem _ (ih h)

/-- A change of one entry of a list. -/
theorem lset_getElem? {α : Type} (l : List α) (i : Nat) (f : α → α) (k : Nat) :
    (lset l i f)[k]? = if k = i then l[k]?.map f else l[k]? := by
  unfold lset
  simp only [List.getElem?_map, List.getElem?_zipIdx]
  cases l[k]?
  · simp
  · simp; split <;> rfl

@[simp] theorem lset_length {α : Type} (l : List α) (i : Nat) (f : α → α) : (lset l i f).length = l.length := by simp [lset]

theorem mwf_filter {α : Type} (m : SMap α) (p : Nat × α → Bool) (h : mwf m = true) : mwf (m.filter p) = true := by
  rw [mwf_iff_pairwise] at h ⊢
  exact h.filter p

/-! ### Memories -/

theorem Memory.wf_nil : Memory.wf [] = true := rfl

theorem Memory.wf_iff (m : SMap Byte) : Memory.wf m = true ↔ m.Pairwise (fun a b => a.1 < b.1) ∧ ∀ p ∈ m, p.2 ≠ 0 := by
  simp [Memory.wf, mwf_iff_pairwise, List.all_eq_true]

theorem memCells_mem (a : Nat) (bs : Bytes) (p : Nat × Byte) (h : p ∈ memCells a bs) :
    a ≤ p.1 ∧ p.1 < a + bs.length ∧ p.2 ≠ 0 ∧ bs[p.1 - a]? = some p.2 := by
  induction bs generalizing a with
  | nil => simp [memCells] at h
  | cons b r ih =>
    unfold memCells at h
    have tail : p ∈ memCells (a + 1) r → a ≤ p.1 ∧ p.1 < a + (b :: r).length ∧ p.2 ≠ 0 ∧ (b :: r)[p.1 - a]? = some p.2 := by
      intro h
      obtain ⟨h1, h2, h3, h4⟩ := ih _ h
      refine ⟨by omega, by simp; omega, h3, ?_⟩
      have : p.1 - a = (p.1 - (a + 1)) + 1 := by omega
      rw [this]; simpa using h4
    split at h
    · exact tail h
    · rename_i hb
      rcases List.mem_cons.mp h with h | h
      · subst h; exact ⟨Nat.le_refl _, by simp, hb, by simp⟩
      · exact tail h

theorem memCells_pairwise (a : Nat) (bs : Bytes) : (memCells a bs).Pairwise (fun x y => x.1 < y.1) := by
  induction bs generalizing a with
  | nil => simp [memCells]
  | cons b r ih =>
    unfold memCells
    split
    · exact ih _
    · refine List.pairwise_cons.mpr ⟨?_, ih _⟩
      intro q hq
      have := (memCells_mem _ _ _ hq).1
      show a < q.1
      omega

/-- A write keeps the canonical form. -/
theorem Memory.wf_write (m : SMap Byte) (a : Nat) (bs : Bytes) (h : Memory.wf m = true) : Memory.wf (memWrite m a bs) = true := by
  rw [Memory.wf_iff] at h ⊢
  unfold memWrite
  constructor
  · rw [List.pairwise_append, List.pairwise_append]
    refine ⟨⟨h.1.filter _, memCells_pairwise a bs, ?_⟩, h.1.filter _, ?_⟩
    · intro x hx y hy
      have h1 := (List.mem_filter.mp hx).2
      have h2 := (memCells_mem _ _ _ hy).1
      simp at h1; omega
    · intro x hx y hy
      have h2 := (List.mem_filter.mp hy).2
      simp at h2
      rcases List.mem_append.mp hx with hx | hx
      · have h1 := (List.mem_filter.mp hx).2
        simp at h1; omega
      · have h1 := (memCells_mem _ _ _ hx).2.1
        omega
  · intro p hp
    simp only [List.mem_append] at hp
    rcases hp with (hp | hp) | hp
    · exact h.2 p (List.mem_filter.mp hp).1
    · exact (memCells_mem _ _ _ hp).2.2.1
    · exact h.2 p (List.mem_filter.mp hp).1

/-- Clearing a range keeps the canonical form. -/
theorem Memory.wf_zero (m : SMap Byte) (a n : Nat) (h : Memory.wf m = true) : Memory.wf (memZero m a n) = true := by
  rw [Memory.wf_iff] at h ⊢
  exact ⟨h.1.filter _, fun p hp => h.2 p (List.mem_filter.mp hp).1⟩

theorem mget_append {α : Type} (m n : SMap α) (k : Nat) : mget (m ++ n) k = (mget m k).or (mget n k) := by
  induction m with
  | nil => simp [mget]
  | cons p r ih =>
    obtain ⟨a, v⟩ := p
    by_cases h : a = k
    · simp [mget, h]
    · simp [mget, h, ih]

theorem mget_filter {α : Type} (m : SMap α) (q : Nat → Bool) (k : Nat) :
    mget (m.filter (fun p => q p.1)) k = if q k then mget m k else none := by
  induction m with
  | nil => simp [mget]
  | cons p r ih =>
    obtain ⟨a, v⟩ := p
    by_cases h : a = k
    · subst h
      by_cases hq : q a <;> simp [hq, mget, ih]
    · by_cases hq : q a <;> simp [hq, mget, h, ih]

theorem mget_memCells (a : Nat) (bs : Bytes) (k : Nat) :
    (mget (memCells a bs) k).getD 0 = if a ≤ k then bs.getD (k - a) 0 else 0 := by
  induction bs generalizing a with
  | nil => simp [memCells, mget]
  | cons b r ih =>
    unfold memCells
    by_cases hk : k = a
    · subst hk
      split
      · rename_i hb; subst hb; rw [ih]; simp
      · simp [mget]
    · have hne : ¬ a = k := fun h => hk h.symm
      have hd : a + 1 ≤ k → (b :: r).getD (k - a) 0 = r.getD (k - (a + 1)) 0 := by
        intro h
        have : k - a = (k - (a + 1)) + 1 := by omega
        rw [this]; simp
      split <;> simp only [mget, hne, if_false, ih] <;>
      · by_cases h : a + 1 ≤ k
        · rw [if_pos h, if_pos (by omega), hd h]
        · rw [if_neg h, if_neg (by omega)]

/-- A byte after a write: what was written at it, else what it read as before. -/
theorem memGet_write (m : SMap Byte) (a : Nat) (bs : Bytes) (k : Nat) :
    memGet (memWrite m a bs) k = if a ≤ k ∧ k < a + bs.length then bs.getD (k - a) 0 else memGet m k := by
  unfold memGet memWrite mgetD
  rw [mget_append, mget_append, mget_filter m (fun i => decide (i < a)), mget_filter m (fun i => decide (a + bs.length ≤ i))]
  have hc := mget_memCells a bs k
  by_cases h1 : k < a
  · have : mget (memCells a bs) k = none ∨ True := Or.inr trivial
    have h2 : ¬ (a ≤ k ∧ k < a + bs.length) := by omega
    have h3 : ¬ (a + bs.length ≤ k) := by omega
    have hn : mget (memCells a bs) k = none := by
      by_contra hne
      obtain ⟨v, hv⟩ := Option.ne_none_iff_exists'.mp hne
      have hm : (k, v) ∈ memCells a bs := by
        clear hc h2 h3 this hne
        generalize memCells a bs = l at hv
        induction l with
        | nil => simp [mget] at hv
        | cons p r ih =>
          obtain ⟨x, y⟩ := p
          unfold mget at hv
          split at hv
          · rename_i hx; subst hx; cases hv; simp
          · exact List.mem_cons_of_mem _ (ih hv)
      have := (memCells_mem _ _ _ hm).1
      simp at this; omega
    simp [h1, h2, h3, hn]
  · have h4 : a ≤ k := by omega
    by_cases h5 : k < a + bs.length
    · have h6 : ¬ (a + bs.length ≤ k) := by omega
      have h8 : a ≤ k ∧ k < a + bs.length := ⟨h4, h5⟩
      rw [if_pos h4] at hc
      rw [← hc]
      simp [h1, h6, h8]
    · have h7 : a + bs.length ≤ k := by omega
      have hn : mget (memCells a bs) k = none := by
        by_contra hne
        obtain ⟨v, hv⟩ := Option.ne_none_iff_exists'.mp hne
        have hm : (k, v) ∈ memCells a bs := by
          clear hc hne
          generalize memCells a bs = l at hv
          induction l with
          | nil => simp [mget] at hv
          | cons p r ih =>
            obtain ⟨x, y⟩ := p
            unfold mget at hv
            split at hv
            · rename_i hx; subst hx; cases hv; simp
            · exact List.mem_cons_of_mem _ (ih hv)
        have := (memCells_mem _ _ _ hm).2.1
        simp at this; omega
      simp [h1, h5, h7, hn]

/-- A byte after a range is cleared. -/
theorem memGet_zero (m : SMap Byte) (a n k : Nat) :
    memGet (memZero m a n) k = if a ≤ k ∧ k < a + n then 0 else memGet m k := by
  unfold memGet memZero mgetD
  rw [mget_filter m (fun i => decide (i < a) || decide (a + n ≤ i))]
  by_cases h : a ≤ k ∧ k < a + n
  · have h1 : ¬ k < a := by omega
    have h2 : ¬ a + n ≤ k := by omega
    simp [h, h1, h2]
  · have h1 : k < a ∨ a + n ≤ k := by omega
    simp [h, h1]

theorem memFill_nil (n a : Nat) : memFill a n [] = List.replicate n 0 := by
  induction n generalizing a with
  | zero => rfl
  | succ n ih => simp [memFill, ih, List.replicate_succ]

/-- Bytes laid out as entries are read back. -/
theorem memFill_cells (bs : Bytes) : ∀ a, memFill a bs.length (memCells a bs) = bs := by
  have low : ∀ (n a : Nat) (m : SMap Byte), (∀ p ∈ m, a + 1 ≤ p.1) → memFill a (n + 1) m = 0 :: memFill (a + 1) n m := by
    intro n a m h
    cases m with
    | nil => rfl
    | cons p r =>
      obtain ⟨k, v⟩ := p
      have := h (k, v) (by simp)
      simp [memFill]
      intro e; simp at this; omega
  induction bs with
  | nil => intro a; rfl
  | cons b r ih =>
    intro a
    unfold memCells
    split
    · rename_i hb
      rw [List.length_cons, low _ _ _ (fun p hp => (memCells_mem _ _ _ hp).1), ih, hb]
    · rw [List.length_cons]; simp [memFill, ih]

/-- Reading a range just written gives what was written. -/
theorem memRead_write (m : SMap Byte) (a : Nat) (bs : Bytes) : memRead (memWrite m a bs) a bs.length = bs := by
  unfold memRead memWrite
  rw [List.filter_append, List.filter_append, List.filter_filter, List.filter_filter]
  have h1 : m.filter (fun p => (decide (a ≤ p.1) && decide (p.1 < a + bs.length)) && decide (p.1 < a)) = [] := by
    rw [List.filter_eq_nil_iff]; intro p _; simp; omega
  have h3 : m.filter (fun p => (decide (a ≤ p.1) && decide (p.1 < a + bs.length)) && decide (a + bs.length ≤ p.1)) = [] := by
    rw [List.filter_eq_nil_iff]; intro p _; simp
  have h2 : (memCells a bs).filter (fun p => decide (a ≤ p.1) && decide (p.1 < a + bs.length)) = memCells a bs := by
    rw [List.filter_eq_self]; intro p hp; have := memCells_mem _ _ _ hp; simp [this]
  rw [h1, h2, h3]
  simp [memFill_cells]

/-- Setting a clear bit by adding its power sets that bit alone. -/
theorem testBit_add_two_pow (n c k : Nat) (h : n.testBit c = false) : (n + 2 ^ c).testBit k = (n.testBit k || decide (k = c)) := by
  have hr : n % 2 ^ (c + 1) < 2 ^ c := by
    have h0 : n / 2 ^ c % 2 = 0 := by
      rw [Nat.testBit_eq_decide_div_mod_eq] at h
      simp at h
      omega
    have h1 : n % 2 ^ (c + 1) = n % 2 ^ c + 2 ^ c * (n / 2 ^ c % 2) := by rw [Nat.pow_succ, Nat.mod_mul]
    rw [h1, h0]
    have := Nat.mod_lt n (Nat.two_pow_pos c)
    omega
  have hn : n = 2 ^ (c + 1) * (n / 2 ^ (c + 1)) + n % 2 ^ (c + 1) := (Nat.div_add_mod n _).symm
  generalize n / 2 ^ (c + 1) = q at hn
  generalize n % 2 ^ (c + 1) = r at hn hr
  subst hn
  have hp : (2 : Nat) ^ (c + 1) = 2 ^ c + 2 ^ c := by rw [Nat.pow_succ]; omega
  rw [Nat.add_assoc, Nat.testBit_two_pow_mul_add _ (by omega), Nat.testBit_two_pow_mul_add _ (by omega)]
  have h2 : r + 2 ^ c = 2 ^ c * 1 + r := by omega
  rw [h2, Nat.testBit_two_pow_mul_add _ hr]
  by_cases h3 : k < c
  · have : k < c + 1 := by omega
    simp [h3, this]; omega
  · by_cases h4 : k = c
    · subst h4; simp
    · have : ¬ k < c + 1 := by omega
      simp [this, h4]

/-! ### Units of the device after an update -/

@[simp] theorem Dev.core_onCore (d : Dev) (c : Nat) (f : Core → Core) : (d.onCore c f).core c = f (d.core c) := by
  simp [Dev.core, Dev.onCore, Dev.setCore]

@[simp] theorem Dev.core_onCore_ne (d : Dev) (c e : Nat) (f : Core → Core) (h : e ≠ c) : (d.onCore c f).core e = d.core e := by
  simp [Dev.core, Dev.onCore, Dev.setCore, h]

@[simp] theorem Core.task_setTask (x : Core) (t : Nat) (k : Task) : (x.setTask t k).task t = k := by
  simp [Core.task, Core.setTask]

@[simp] theorem Core.task_setTask_ne (x : Core) (t u : Nat) (k : Task) (h : u ≠ t) : (x.setTask t k).task u = x.task u := by
  simp [Core.task, Core.setTask, h]

@[simp] theorem Dev.task_onTask (d : Dev) (c t : Nat) (f : Task → Task) : (d.onTask c t f).task c t = f (d.task c t) := by
  simp [Dev.task, Dev.onTask]

theorem Dev.task_onTask_ne (d : Dev) (c t c' t' : Nat) (f : Task → Task) (h : (c', t') ≠ (c, t)) :
    (d.onTask c t f).task c' t' = d.task c' t' := by
  by_cases hc : c' = c
  · subst hc
    have ht : t' ≠ t := fun e => h (by rw [e])
    simp [Dev.task, Dev.onTask, ht]
  · simp [Dev.task, Dev.onTask, hc]

@[simp] theorem Dev.core_onTask_ne (d : Dev) (c t e : Nat) (f : Task → Task) (h : e ≠ c) : (d.onTask c t f).core e = d.core e := by
  simp [Dev.onTask, h]

@[simp] theorem Dev.slice_onSlice (d : Dev) (k : Nat) (f : Slice → Slice) : (d.onSlice k f).slice k = f (d.slice k) := by
  simp [Dev.slice, Dev.onSlice]

@[simp] theorem Dev.slice_onSlice_ne (d : Dev) (k j : Nat) (f : Slice → Slice) (h : j ≠ k) :
    (d.onSlice k f).slice j = d.slice j := by simp [Dev.slice, Dev.onSlice, h]

@[simp] theorem Dev.job_onJob (d : Dev) (k : Nat) (f : Job → Job) : (d.onJob k f).job k = f (d.job k) := by
  simp [Dev.job, Dev.onJob]

@[simp] theorem Dev.job_onJob_ne (d : Dev) (k j : Nat) (f : Job → Job) (h : j ≠ k) : (d.onJob k f).job j = d.job j := by
  simp [Dev.job, Dev.onJob, h]

@[simp] theorem Dev.stream_onStream (d : Dev) (k : Nat) (f : Stream → Stream) : (d.onStream k f).stream k = f (d.stream k) := by
  simp [Dev.stream, Dev.onStream]

@[simp] theorem Dev.stream_onStream_ne (d : Dev) (k j : Nat) (f : Stream → Stream) (h : j ≠ k) :
    (d.onStream k f).stream j = d.stream j := by simp [Dev.stream, Dev.onStream, h]

@[simp] theorem Dev.port_onPort (d : Dev) (k : Nat) (f : Port → Port) : (d.onPort k f).port k = f (d.port k) := by
  simp [Dev.port, Dev.onPort]

@[simp] theorem Dev.port_onPort_ne (d : Dev) (k j : Nat) (f : Port → Port) (h : j ≠ k) : (d.onPort k f).port j = d.port j := by
  simp [Dev.port, Dev.onPort, h]

@[simp] theorem Dev.link_onLink (d : Dev) (k : Nat) (f : Link → Link) : (d.onLink k f).link k = f (d.link k) := by
  simp [Dev.link, Dev.onLink]

@[simp] theorem Dev.link_onLink_ne (d : Dev) (k j : Nat) (f : Link → Link) (h : j ≠ k) : (d.onLink k f).link j = d.link j := by
  simp [Dev.link, Dev.onLink, h]

@[simp] theorem Dev.crossQ_onCross (d : Dev) (k : Nat) (f : CrossQ → CrossQ) : (d.onCross k f).crossQ k = f (d.crossQ k) := by
  simp [Dev.crossQ, Dev.onCross]

@[simp] theorem Dev.ring_onRing (d : Dev) (k : Nat) (f : HostRing → HostRing) : (d.onRing k f).ring k = f (d.ring k) := by
  simp [Dev.ring, Dev.onRing]

@[simp] theorem Dev.ring_onRing_ne (d : Dev) (k j : Nat) (f : HostRing → HostRing) (h : j ≠ k) :
    (d.onRing k f).ring j = d.ring j := by simp [Dev.ring, Dev.onRing, h]

/-! ### A counter -/

/-- Counting changes a counter of the round alone. -/
theorem Dev.count_eq (d : Dev) (off lo n : Nat) : ∃ m, d.count off lo n = { d with cntNow := m } := by
  unfold Dev.count
  split
  · exact ⟨d.cntNow, rfl⟩
  · exact ⟨_, rfl⟩

/-! ### The error ring -/

/-- A record changes the error block; its interrupt leaves for the host or becomes pending (R568). -/
theorem Dev.raise_eq (d : Dev) (e : Err) : ∃ b vs m, d.raise e = { d with err := b, out := d.out ++ vs, msix := m } := by
  have h0 : ∀ b, ({ d with err := b } : Dev) = { d with err := b, out := d.out ++ [], msix := d.msix } := fun b => by simp
  have hv : ∀ b v, ∃ vs m, ({ d with err := b } : Dev).vector v = { d with err := b, out := d.out ++ vs, msix := m } := fun b v => by
    obtain ⟨vs, m, h⟩ := ({ d with err := b } : Dev).vector_eq v
    exact ⟨vs, m, h⟩
  unfold Dev.raise
  dsimp only
  split <;> split <;> (try split)
  · exact ⟨_, _, _, h0 _⟩
  · obtain ⟨vs, m, h⟩ := hv _ _; rw [h]; exact ⟨_, _, _, rfl⟩
  · exact ⟨_, _, _, h0 _⟩
  · exact ⟨_, _, _, h0 _⟩
  · obtain ⟨vs, m, h⟩ := hv _ _; rw [h]; exact ⟨_, _, _, rfl⟩
  · exact ⟨_, _, _, h0 _⟩

end Sys2Proof.Machine
end

