-- ==== Sys2Proof/Laws/Shared.lean ====
section
/-! SUPPORT. Laws/Shared.lean: for each writer that the blocks share, one lemma that says everything it can change. -/

namespace Sys2Proof.Machine

/-- An error record and its interrupt change nothing else, whatever the record. -/
theorem Dev.raise_cases (d : Dev) (e : Err) : ∃ b o m, d.raise e = { d with err := b, out := o, msix := m } := by
  obtain ⟨b, vs, m, h⟩ := d.raise_eq e
  exact ⟨b, _, m, h⟩

/-- A record with room in the ring takes the next place. -/
theorem Dev.raise_room (d : Dev) (e : Err) (h : d.err.head - d.err.tail < 256) :
    (d.raise e).err.head = d.err.head + 1 ∧
      mget (d.raise e).err.recs (d.err.head % 256) =
        some (errBytes e d.err.handling.isSome (e.round.getD d.tb.round) d.tb.now) ∧
      (d.raise e).err.tail = d.err.tail ∧ (d.raise e).err.dropped = d.err.dropped := by
  have hn : ¬ (d.err.head - d.err.tail ≥ 256) := by omega
  unfold Dev.raise
  dsimp only
  simp only [if_neg hn]
  split <;> split <;> simp [Dev.halt]

/-- A record that finds 256 unread ones is dropped and counted. -/
theorem Dev.raise_full (d : Dev) (e : Err) (h : 256 ≤ d.err.head - d.err.tail) :
    (d.raise e).err.head = d.err.head ∧ (d.raise e).err.recs = d.err.recs ∧ (d.raise e).err.ovf = true ∧
      (d.raise e).err.dropped = min (d.err.dropped + 1) (2 ^ 32 - 1) := by
  have hn : d.err.head - d.err.tail ≥ 256 := h
  unfold Dev.raise
  dsimp only
  simp only [if_pos hn]
  split <;> simp [Dev.halt]

/-- A record of class DEVICE starts a halt; another one starts none. -/
theorem Dev.raise_halting (d : Dev) (e : Err) :
    (d.raise e).err.halting = (d.err.halting || decide (e.cls = clsDevice)) := by
  unfold Dev.raise
  dsimp only
  split <;> split <;> (try split) <;> simp_all [Dev.halt]

/-- A raised record leaves the action being handled and its queue. -/
theorem Dev.raise_actions (d : Dev) (e : Err) :
    (d.raise e).err.handling = d.err.handling ∧ (d.raise e).err.queue = d.err.queue ∧
      (d.raise e).err.retired = d.err.retired ∧ (d.raise e).err.halted = d.err.halted := by
  unfold Dev.raise
  dsimp only
  split <;> split <;> (try split) <;> simp [Dev.halt]

/-- A log record reaches the log, the well that holds its ring, and, when it finds the ring full, the error block. -/
theorem Dev.logRec_cases (d : Dev) (r : Bytes) :
    ∃ w l b o m, d.logRec r = { d with well := w, log := l, err := b, out := o, msix := m } := by
  unfold Dev.logRec
  split
  · split
    · exact ⟨d.well, d.log, d.err, d.out, d.msix, rfl⟩
    · obtain ⟨b, o, m, h⟩ := Dev.raise_cases { d with log := { d.log with fullEpisode := true } }
        { code := 0x0705, cls := clsDevice, corr := false }
      exact ⟨d.well, _, b, o, m, h⟩
  · exact ⟨_, _, d.err, d.out, d.msix, rfl⟩

/-- A record with room in the log goes to its place and into the round's records (R334, R596). -/
theorem Dev.logRec_room (d : Dev) (r : Bytes) (h : d.log.head - d.log.tail < d.logCap) :
    d.logRec r = { d with
      well := memWrite d.well (d.logBase + (d.log.head % d.logCap) * 32) r
      log := { d.log with head := d.log.head + 1, fullEpisode := false, round := d.log.round ++ [r] } } := by
  have hf : d.logFull = false := by simpa [Dev.logFull] using h
  unfold Dev.logRec
  rw [hf]
  rfl

theorem Dev.ringIrq_cases (d : Dev) (kind n : Nat) : ∃ r o m, d.ringIrq kind n = { d with rings := r, out := o, msix := m } := by
  unfold Dev.ringIrq
  dsimp only
  split
  · exact ⟨d.rings, d.out, d.msix, rfl⟩
  · split
    · exact ⟨_, d.out, d.msix, rfl⟩
    · obtain ⟨vs, m, h⟩ := Dev.vector_eq (d.onRing (ringKey kind n) (fun r =>
        { r with lastIrq := d.tb.now, holding := decide (0 < d.regF (ringOff kind n + 8) 56 8) })) (d.regF (ringOff kind n + 8) 48 6)
      exact ⟨_, _, m, h⟩

theorem Dev.writeEntry_cases (d : Dev) (kind n : Nat) (bs : Bytes) :
    ∃ r o m, d.writeEntry kind n bs = { d with rings := r, out := o, msix := m } := by
  unfold Dev.writeEntry
  dsimp only
  obtain ⟨r, o, m, h⟩ := Dev.ringIrq_cases
    ((d.emit (.entry kind n (d.ring (ringKey kind n)).devIdx
      (withPhase bs (phaseAt kind) (d.phase kind n (d.ring (ringKey kind n)).devIdx)))).onRing (ringKey kind n)
        (fun r => { r with devIdx := ((d.ring (ringKey kind n)).devIdx + 1) % 2 ^ 32 })) kind n
  exact ⟨r, o, m, h⟩

/-- An entry for the host is written, waits, or is refused: rings and what leaves for the host change, nothing else. -/
theorem Dev.post_cases (d : Dev) (kind n : Nat) (bs : Bytes) : ∃ r o m ok, d.post kind n bs = ({ d with rings := r, out := o, msix := m }, ok) := by
  unfold Dev.post
  dsimp only
  split
  · obtain ⟨r, o, m, h⟩ := d.writeEntry_cases kind n bs
    exact ⟨r, o, m, true, by rw [h]⟩
  · split
    · exact ⟨_, d.out, d.msix, true, rfl⟩
    · exact ⟨d.rings, d.out, d.msix, false, rfl⟩

theorem Dev.postCompletion_cases (d : Dev) (c : Completion) :
    ∃ r o b m, d.postCompletion c = { d with rings := r, out := o, err := b, msix := m } := by
  unfold Dev.postCompletion
  obtain ⟨r, o, m, ok, h⟩ := d.post_cases 1 c.job (completionBytes c d.tb.now)
  rw [h]
  cases ok
  · obtain ⟨b, o2, m2, h2⟩ := Dev.raise_cases { d with rings := r, out := o, msix := m }
      { code := 0x0A08, cls := clsDevice, corr := false, kind := 4, unit := 256 + c.job }
    exact ⟨r, o2, b, m2, h2⟩
  · exact ⟨r, o, d.err, m, rfl⟩

/-- A completion with its outcome record. -/
theorem Dev.finishAt_cases (d : Dev) (c : Completion) (round : Nat) :
    ∃ w l r o b m, d.finishAt c round = { d with well := w, log := l, rings := r, out := o, err := b, msix := m } := by
  unfold Dev.finishAt
  dsimp only
  split
  · obtain ⟨w, l, b, o, m, h⟩ := d.logRec_cases
      (outcomeRec 0x30 c.status c.handle (c.kind % 8) round c.item (if c.status = stFailed then c.code else 0))
    rw [h]
    obtain ⟨r, o2, b2, m2, h2⟩ := Dev.postCompletion_cases { d with well := w, log := l, err := b, out := o, msix := m } c
    exact ⟨w, l, r, o2, b2, m2, h2⟩
  · obtain ⟨r, o, b, m, h⟩ := d.postCompletion_cases c
    exact ⟨d.well, d.log, r, o, b, m, h⟩

theorem Dev.finish_cases (d : Dev) (c : Completion) :
    ∃ w l r o b m, d.finish c = { d with well := w, log := l, rings := r, out := o, err := b, msix := m } :=
  d.finishAt_cases c d.logRound

theorem Dev.finishCmd_cases (d : Dev) (job : Nat) (c : CmdRef) (status code : Nat) :
    ∃ w l r o b m, d.finishCmd job c status code = { d with well := w, log := l, rings := r, out := o, err := b, msix := m } :=
  d.finish_cases _

/-! ### Folds -/

/-- What each step of a fold keeps, the fold keeps. -/
theorem foldl_keep {α β : Type} (P : β → Prop) (f : β → α → β) (l : List α) (b : β) (h0 : P b)
    (h : ∀ b a, a ∈ l → P b → P (f b a)) : P (l.foldl f b) := by
  induction l generalizing b with
  | nil => exact h0
  | cons a r ih => exact ih _ (h b a (by simp) h0) (fun b x hx => h b x (by simp [hx]))

/-- A projection that no step of a fold changes. -/
theorem foldl_proj {α β γ : Type} (g : β → γ) (f : β → α → β) (l : List α) (b : β)
    (h : ∀ b a, a ∈ l → g (f b a) = g b) : g (l.foldl f b) = g b :=
  foldl_keep (fun x => g x = g b) f l b rfl (fun x a ha hx => (h x a ha).trans hx)

end Sys2Proof.Machine
end

