-- ==== Sys2Proof/Laws/Frames.lean ====
section
/-! SUPPORT. Laws/Frames.lean: the fields that the shared writers leave alone, one by one, as simp lemmas. -/

namespace Sys2Proof.Machine

variable (d : Dev)

/-! `Dev.raise` changes err, out, msix alone. -/

@[simp] theorem Dev.raise_kindle (e : Err) : (d.raise e).kindle = d.kindle := by
  obtain ⟨b, o, m, h⟩ := d.raise_cases e; rw [h]
@[simp] theorem Dev.raise_trust (e : Err) : (d.raise e).trust = d.trust := by
  obtain ⟨b, o, m, h⟩ := d.raise_cases e; rw [h]
@[simp] theorem Dev.raise_tb (e : Err) : (d.raise e).tb = d.tb := by
  obtain ⟨b, o, m, h⟩ := d.raise_cases e; rw [h]
@[simp] theorem Dev.raise_regs (e : Err) : (d.raise e).regs = d.regs := by
  obtain ⟨b, o, m, h⟩ := d.raise_cases e; rw [h]
@[simp] theorem Dev.raise_shadow (e : Err) : (d.raise e).shadow = d.shadow := by
  obtain ⟨b, o, m, h⟩ := d.raise_cases e; rw [h]
@[simp] theorem Dev.raise_staged (e : Err) : (d.raise e).staged = d.staged := by
  obtain ⟨b, o, m, h⟩ := d.raise_cases e; rw [h]
@[simp] theorem Dev.raise_cntNow (e : Err) : (d.raise e).cntNow = d.cntNow := by
  obtain ⟨b, o, m, h⟩ := d.raise_cases e; rw [h]
@[simp] theorem Dev.raise_cntLr (e : Err) : (d.raise e).cntLr = d.cntLr := by
  obtain ⟨b, o, m, h⟩ := d.raise_cases e; rw [h]
@[simp] theorem Dev.raise_cores (e : Err) : (d.raise e).cores = d.cores := by
  obtain ⟨b, o, m, h⟩ := d.raise_cases e; rw [h]
@[simp] theorem Dev.raise_slices (e : Err) : (d.raise e).slices = d.slices := by
  obtain ⟨b, o, m, h⟩ := d.raise_cases e; rw [h]
@[simp] theorem Dev.raise_well (e : Err) : (d.raise e).well = d.well := by
  obtain ⟨b, o, m, h⟩ := d.raise_cases e; rw [h]
@[simp] theorem Dev.raise_deep (e : Err) : (d.raise e).deep = d.deep := by
  obtain ⟨b, o, m, h⟩ := d.raise_cases e; rw [h]
@[simp] theorem Dev.raise_poolUse (e : Err) : (d.raise e).poolUse = d.poolUse := by
  obtain ⟨b, o, m, h⟩ := d.raise_cases e; rw [h]
@[simp] theorem Dev.raise_zeroing (e : Err) : (d.raise e).zeroing = d.zeroing := by
  obtain ⟨b, o, m, h⟩ := d.raise_cases e; rw [h]
@[simp] theorem Dev.raise_jobs (e : Err) : (d.raise e).jobs = d.jobs := by
  obtain ⟨b, o, m, h⟩ := d.raise_cases e; rw [h]
@[simp] theorem Dev.raise_cmds (e : Err) : (d.raise e).cmds = d.cmds := by
  obtain ⟨b, o, m, h⟩ := d.raise_cases e; rw [h]
@[simp] theorem Dev.raise_streams (e : Err) : (d.raise e).streams = d.streams := by
  obtain ⟨b, o, m, h⟩ := d.raise_cases e; rw [h]
@[simp] theorem Dev.raise_seqs (e : Err) : (d.raise e).seqs = d.seqs := by
  obtain ⟨b, o, m, h⟩ := d.raise_cases e; rw [h]
@[simp] theorem Dev.raise_moves (e : Err) : (d.raise e).moves = d.moves := by
  obtain ⟨b, o, m, h⟩ := d.raise_cases e; rw [h]
@[simp] theorem Dev.raise_freed (e : Err) : (d.raise e).freed = d.freed := by
  obtain ⟨b, o, m, h⟩ := d.raise_cases e; rw [h]
@[simp] theorem Dev.raise_cross (e : Err) : (d.raise e).cross = d.cross := by
  obtain ⟨b, o, m, h⟩ := d.raise_cases e; rw [h]
@[simp] theorem Dev.raise_shipIn (e : Err) : (d.raise e).shipIn = d.shipIn := by
  obtain ⟨b, o, m, h⟩ := d.raise_cases e; rw [h]
@[simp] theorem Dev.raise_rings (e : Err) : (d.raise e).rings = d.rings := by
  obtain ⟨b, o, m, h⟩ := d.raise_cases e; rw [h]
@[simp] theorem Dev.raise_dones (e : Err) : (d.raise e).dones = d.dones := by
  obtain ⟨b, o, m, h⟩ := d.raise_cases e; rw [h]
@[simp] theorem Dev.raise_provs (e : Err) : (d.raise e).provs = d.provs := by
  obtain ⟨b, o, m, h⟩ := d.raise_cases e; rw [h]
@[simp] theorem Dev.raise_bound (e : Err) : (d.raise e).bound = d.bound := by
  obtain ⟨b, o, m, h⟩ := d.raise_cases e; rw [h]
@[simp] theorem Dev.raise_targets (e : Err) : (d.raise e).targets = d.targets := by
  obtain ⟨b, o, m, h⟩ := d.raise_cases e; rw [h]
@[simp] theorem Dev.raise_samples (e : Err) : (d.raise e).samples = d.samples := by
  obtain ⟨b, o, m, h⟩ := d.raise_cases e; rw [h]
@[simp] theorem Dev.raise_ports (e : Err) : (d.raise e).ports = d.ports := by
  obtain ⟨b, o, m, h⟩ := d.raise_cases e; rw [h]
@[simp] theorem Dev.raise_links (e : Err) : (d.raise e).links = d.links := by
  obtain ⟨b, o, m, h⟩ := d.raise_cases e; rw [h]
@[simp] theorem Dev.raise_fabric (e : Err) : (d.raise e).fabric = d.fabric := by
  obtain ⟨b, o, m, h⟩ := d.raise_cases e; rw [h]
@[simp] theorem Dev.raise_mirror (e : Err) : (d.raise e).mirror = d.mirror := by
  obtain ⟨b, o, m, h⟩ := d.raise_cases e; rw [h]
@[simp] theorem Dev.raise_log (e : Err) : (d.raise e).log = d.log := by
  obtain ⟨b, o, m, h⟩ := d.raise_cases e; rw [h]
@[simp] theorem Dev.raise_streamCks (e : Err) : (d.raise e).streamCks = d.streamCks := by
  obtain ⟨b, o, m, h⟩ := d.raise_cases e; rw [h]
@[simp] theorem Dev.raise_coreCks (e : Err) : (d.raise e).coreCks = d.coreCks := by
  obtain ⟨b, o, m, h⟩ := d.raise_cases e; rw [h]
@[simp] theorem Dev.raise_gov (e : Err) : (d.raise e).gov = d.gov := by
  obtain ⟨b, o, m, h⟩ := d.raise_cases e; rw [h]
@[simp] theorem Dev.raise_flr (e : Err) : (d.raise e).flr = d.flr := by
  obtain ⟨b, o, m, h⟩ := d.raise_cases e; rw [h]
@[simp] theorem Dev.raise_free (e : Err) : (d.raise e).free = d.free := by
  obtain ⟨b, o, m, h⟩ := d.raise_cases e; rw [h]
@[simp] theorem Dev.raise_holds (e : Err) : (d.raise e).holds = d.holds := by
  obtain ⟨b, o, m, h⟩ := d.raise_cases e; rw [h]

/-! `Dev.logRec` changes well, log, err, out, msix alone. -/

@[simp] theorem Dev.logRec_kindle (r : Bytes) : (d.logRec r).kindle = d.kindle := by
  obtain ⟨w, l, b, o, m, h⟩ := d.logRec_cases r; rw [h]
@[simp] theorem Dev.logRec_trust (r : Bytes) : (d.logRec r).trust = d.trust := by
  obtain ⟨w, l, b, o, m, h⟩ := d.logRec_cases r; rw [h]
@[simp] theorem Dev.logRec_tb (r : Bytes) : (d.logRec r).tb = d.tb := by
  obtain ⟨w, l, b, o, m, h⟩ := d.logRec_cases r; rw [h]
@[simp] theorem Dev.logRec_regs (r : Bytes) : (d.logRec r).regs = d.regs := by
  obtain ⟨w, l, b, o, m, h⟩ := d.logRec_cases r; rw [h]
@[simp] theorem Dev.logRec_shadow (r : Bytes) : (d.logRec r).shadow = d.shadow := by
  obtain ⟨w, l, b, o, m, h⟩ := d.logRec_cases r; rw [h]
@[simp] theorem Dev.logRec_staged (r : Bytes) : (d.logRec r).staged = d.staged := by
  obtain ⟨w, l, b, o, m, h⟩ := d.logRec_cases r; rw [h]
@[simp] theorem Dev.logRec_cntNow (r : Bytes) : (d.logRec r).cntNow = d.cntNow := by
  obtain ⟨w, l, b, o, m, h⟩ := d.logRec_cases r; rw [h]
@[simp] theorem Dev.logRec_cntLr (r : Bytes) : (d.logRec r).cntLr = d.cntLr := by
  obtain ⟨w, l, b, o, m, h⟩ := d.logRec_cases r; rw [h]
@[simp] theorem Dev.logRec_cores (r : Bytes) : (d.logRec r).cores = d.cores := by
  obtain ⟨w, l, b, o, m, h⟩ := d.logRec_cases r; rw [h]
@[simp] theorem Dev.logRec_slices (r : Bytes) : (d.logRec r).slices = d.slices := by
  obtain ⟨w, l, b, o, m, h⟩ := d.logRec_cases r; rw [h]
@[simp] theorem Dev.logRec_deep (r : Bytes) : (d.logRec r).deep = d.deep := by
  obtain ⟨w, l, b, o, m, h⟩ := d.logRec_cases r; rw [h]
@[simp] theorem Dev.logRec_poolUse (r : Bytes) : (d.logRec r).poolUse = d.poolUse := by
  obtain ⟨w, l, b, o, m, h⟩ := d.logRec_cases r; rw [h]
@[simp] theorem Dev.logRec_zeroing (r : Bytes) : (d.logRec r).zeroing = d.zeroing := by
  obtain ⟨w, l, b, o, m, h⟩ := d.logRec_cases r; rw [h]
@[simp] theorem Dev.logRec_jobs (r : Bytes) : (d.logRec r).jobs = d.jobs := by
  obtain ⟨w, l, b, o, m, h⟩ := d.logRec_cases r; rw [h]
@[simp] theorem Dev.logRec_cmds (r : Bytes) : (d.logRec r).cmds = d.cmds := by
  obtain ⟨w, l, b, o, m, h⟩ := d.logRec_cases r; rw [h]
@[simp] theorem Dev.logRec_streams (r : Bytes) : (d.logRec r).streams = d.streams := by
  obtain ⟨w, l, b, o, m, h⟩ := d.logRec_cases r; rw [h]
@[simp] theorem Dev.logRec_seqs (r : Bytes) : (d.logRec r).seqs = d.seqs := by
  obtain ⟨w, l, b, o, m, h⟩ := d.logRec_cases r; rw [h]
@[simp] theorem Dev.logRec_moves (r : Bytes) : (d.logRec r).moves = d.moves := by
  obtain ⟨w, l, b, o, m, h⟩ := d.logRec_cases r; rw [h]
@[simp] theorem Dev.logRec_freed (r : Bytes) : (d.logRec r).freed = d.freed := by
  obtain ⟨w, l, b, o, m, h⟩ := d.logRec_cases r; rw [h]
@[simp] theorem Dev.logRec_cross (r : Bytes) : (d.logRec r).cross = d.cross := by
  obtain ⟨w, l, b, o, m, h⟩ := d.logRec_cases r; rw [h]
@[simp] theorem Dev.logRec_shipIn (r : Bytes) : (d.logRec r).shipIn = d.shipIn := by
  obtain ⟨w, l, b, o, m, h⟩ := d.logRec_cases r; rw [h]
@[simp] theorem Dev.logRec_rings (r : Bytes) : (d.logRec r).rings = d.rings := by
  obtain ⟨w, l, b, o, m, h⟩ := d.logRec_cases r; rw [h]
@[simp] theorem Dev.logRec_dones (r : Bytes) : (d.logRec r).dones = d.dones := by
  obtain ⟨w, l, b, o, m, h⟩ := d.logRec_cases r; rw [h]
@[simp] theorem Dev.logRec_provs (r : Bytes) : (d.logRec r).provs = d.provs := by
  obtain ⟨w, l, b, o, m, h⟩ := d.logRec_cases r; rw [h]
@[simp] theorem Dev.logRec_bound (r : Bytes) : (d.logRec r).bound = d.bound := by
  obtain ⟨w, l, b, o, m, h⟩ := d.logRec_cases r; rw [h]
@[simp] theorem Dev.logRec_targets (r : Bytes) : (d.logRec r).targets = d.targets := by
  obtain ⟨w, l, b, o, m, h⟩ := d.logRec_cases r; rw [h]
@[simp] theorem Dev.logRec_samples (r : Bytes) : (d.logRec r).samples = d.samples := by
  obtain ⟨w, l, b, o, m, h⟩ := d.logRec_cases r; rw [h]
@[simp] theorem Dev.logRec_ports (r : Bytes) : (d.logRec r).ports = d.ports := by
  obtain ⟨w, l, b, o, m, h⟩ := d.logRec_cases r; rw [h]
@[simp] theorem Dev.logRec_links (r : Bytes) : (d.logRec r).links = d.links := by
  obtain ⟨w, l, b, o, m, h⟩ := d.logRec_cases r; rw [h]
@[simp] theorem Dev.logRec_fabric (r : Bytes) : (d.logRec r).fabric = d.fabric := by
  obtain ⟨w, l, b, o, m, h⟩ := d.logRec_cases r; rw [h]
@[simp] theorem Dev.logRec_mirror (r : Bytes) : (d.logRec r).mirror = d.mirror := by
  obtain ⟨w, l, b, o, m, h⟩ := d.logRec_cases r; rw [h]
@[simp] theorem Dev.logRec_streamCks (r : Bytes) : (d.logRec r).streamCks = d.streamCks := by
  obtain ⟨w, l, b, o, m, h⟩ := d.logRec_cases r; rw [h]
@[simp] theorem Dev.logRec_coreCks (r : Bytes) : (d.logRec r).coreCks = d.coreCks := by
  obtain ⟨w, l, b, o, m, h⟩ := d.logRec_cases r; rw [h]
@[simp] theorem Dev.logRec_gov (r : Bytes) : (d.logRec r).gov = d.gov := by
  obtain ⟨w, l, b, o, m, h⟩ := d.logRec_cases r; rw [h]
@[simp] theorem Dev.logRec_flr (r : Bytes) : (d.logRec r).flr = d.flr := by
  obtain ⟨w, l, b, o, m, h⟩ := d.logRec_cases r; rw [h]
@[simp] theorem Dev.logRec_free (r : Bytes) : (d.logRec r).free = d.free := by
  obtain ⟨w, l, b, o, m, h⟩ := d.logRec_cases r; rw [h]
@[simp] theorem Dev.logRec_holds (r : Bytes) : (d.logRec r).holds = d.holds := by
  obtain ⟨w, l, b, o, m, h⟩ := d.logRec_cases r; rw [h]

/-! `Dev.ringIrq` changes rings, out, msix alone. -/

@[simp] theorem Dev.ringIrq_kindle (kind n : Nat) : (d.ringIrq kind n).kindle = d.kindle := by
  obtain ⟨r, o, m, h⟩ := d.ringIrq_cases kind n; rw [h]
@[simp] theorem Dev.ringIrq_trust (kind n : Nat) : (d.ringIrq kind n).trust = d.trust := by
  obtain ⟨r, o, m, h⟩ := d.ringIrq_cases kind n; rw [h]
@[simp] theorem Dev.ringIrq_tb (kind n : Nat) : (d.ringIrq kind n).tb = d.tb := by
  obtain ⟨r, o, m, h⟩ := d.ringIrq_cases kind n; rw [h]
@[simp] theorem Dev.ringIrq_regs (kind n : Nat) : (d.ringIrq kind n).regs = d.regs := by
  obtain ⟨r, o, m, h⟩ := d.ringIrq_cases kind n; rw [h]
@[simp] theorem Dev.ringIrq_shadow (kind n : Nat) : (d.ringIrq kind n).shadow = d.shadow := by
  obtain ⟨r, o, m, h⟩ := d.ringIrq_cases kind n; rw [h]
@[simp] theorem Dev.ringIrq_staged (kind n : Nat) : (d.ringIrq kind n).staged = d.staged := by
  obtain ⟨r, o, m, h⟩ := d.ringIrq_cases kind n; rw [h]
@[simp] theorem Dev.ringIrq_cntNow (kind n : Nat) : (d.ringIrq kind n).cntNow = d.cntNow := by
  obtain ⟨r, o, m, h⟩ := d.ringIrq_cases kind n; rw [h]
@[simp] theorem Dev.ringIrq_cntLr (kind n : Nat) : (d.ringIrq kind n).cntLr = d.cntLr := by
  obtain ⟨r, o, m, h⟩ := d.ringIrq_cases kind n; rw [h]
@[simp] theorem Dev.ringIrq_cores (kind n : Nat) : (d.ringIrq kind n).cores = d.cores := by
  obtain ⟨r, o, m, h⟩ := d.ringIrq_cases kind n; rw [h]
@[simp] theorem Dev.ringIrq_slices (kind n : Nat) : (d.ringIrq kind n).slices = d.slices := by
  obtain ⟨r, o, m, h⟩ := d.ringIrq_cases kind n; rw [h]
@[simp] theorem Dev.ringIrq_well (kind n : Nat) : (d.ringIrq kind n).well = d.well := by
  obtain ⟨r, o, m, h⟩ := d.ringIrq_cases kind n; rw [h]
@[simp] theorem Dev.ringIrq_deep (kind n : Nat) : (d.ringIrq kind n).deep = d.deep := by
  obtain ⟨r, o, m, h⟩ := d.ringIrq_cases kind n; rw [h]
@[simp] theorem Dev.ringIrq_poolUse (kind n : Nat) : (d.ringIrq kind n).poolUse = d.poolUse := by
  obtain ⟨r, o, m, h⟩ := d.ringIrq_cases kind n; rw [h]
@[simp] theorem Dev.ringIrq_zeroing (kind n : Nat) : (d.ringIrq kind n).zeroing = d.zeroing := by
  obtain ⟨r, o, m, h⟩ := d.ringIrq_cases kind n; rw [h]
@[simp] theorem Dev.ringIrq_jobs (kind n : Nat) : (d.ringIrq kind n).jobs = d.jobs := by
  obtain ⟨r, o, m, h⟩ := d.ringIrq_cases kind n; rw [h]
@[simp] theorem Dev.ringIrq_cmds (kind n : Nat) : (d.ringIrq kind n).cmds = d.cmds := by
  obtain ⟨r, o, m, h⟩ := d.ringIrq_cases kind n; rw [h]
@[simp] theorem Dev.ringIrq_streams (kind n : Nat) : (d.ringIrq kind n).streams = d.streams := by
  obtain ⟨r, o, m, h⟩ := d.ringIrq_cases kind n; rw [h]
@[simp] theorem Dev.ringIrq_seqs (kind n : Nat) : (d.ringIrq kind n).seqs = d.seqs := by
  obtain ⟨r, o, m, h⟩ := d.ringIrq_cases kind n; rw [h]
@[simp] theorem Dev.ringIrq_moves (kind n : Nat) : (d.ringIrq kind n).moves = d.moves := by
  obtain ⟨r, o, m, h⟩ := d.ringIrq_cases kind n; rw [h]
@[simp] theorem Dev.ringIrq_freed (kind n : Nat) : (d.ringIrq kind n).freed = d.freed := by
  obtain ⟨r, o, m, h⟩ := d.ringIrq_cases kind n; rw [h]
@[simp] theorem Dev.ringIrq_cross (kind n : Nat) : (d.ringIrq kind n).cross = d.cross := by
  obtain ⟨r, o, m, h⟩ := d.ringIrq_cases kind n; rw [h]
@[simp] theorem Dev.ringIrq_shipIn (kind n : Nat) : (d.ringIrq kind n).shipIn = d.shipIn := by
  obtain ⟨r, o, m, h⟩ := d.ringIrq_cases kind n; rw [h]
@[simp] theorem Dev.ringIrq_dones (kind n : Nat) : (d.ringIrq kind n).dones = d.dones := by
  obtain ⟨r, o, m, h⟩ := d.ringIrq_cases kind n; rw [h]
@[simp] theorem Dev.ringIrq_provs (kind n : Nat) : (d.ringIrq kind n).provs = d.provs := by
  obtain ⟨r, o, m, h⟩ := d.ringIrq_cases kind n; rw [h]
@[simp] theorem Dev.ringIrq_bound (kind n : Nat) : (d.ringIrq kind n).bound = d.bound := by
  obtain ⟨r, o, m, h⟩ := d.ringIrq_cases kind n; rw [h]
@[simp] theorem Dev.ringIrq_targets (kind n : Nat) : (d.ringIrq kind n).targets = d.targets := by
  obtain ⟨r, o, m, h⟩ := d.ringIrq_cases kind n; rw [h]
@[simp] theorem Dev.ringIrq_samples (kind n : Nat) : (d.ringIrq kind n).samples = d.samples := by
  obtain ⟨r, o, m, h⟩ := d.ringIrq_cases kind n; rw [h]
@[simp] theorem Dev.ringIrq_ports (kind n : Nat) : (d.ringIrq kind n).ports = d.ports := by
  obtain ⟨r, o, m, h⟩ := d.ringIrq_cases kind n; rw [h]
@[simp] theorem Dev.ringIrq_links (kind n : Nat) : (d.ringIrq kind n).links = d.links := by
  obtain ⟨r, o, m, h⟩ := d.ringIrq_cases kind n; rw [h]
@[simp] theorem Dev.ringIrq_fabric (kind n : Nat) : (d.ringIrq kind n).fabric = d.fabric := by
  obtain ⟨r, o, m, h⟩ := d.ringIrq_cases kind n; rw [h]
@[simp] theorem Dev.ringIrq_mirror (kind n : Nat) : (d.ringIrq kind n).mirror = d.mirror := by
  obtain ⟨r, o, m, h⟩ := d.ringIrq_cases kind n; rw [h]
@[simp] theorem Dev.ringIrq_err (kind n : Nat) : (d.ringIrq kind n).err = d.err := by
  obtain ⟨r, o, m, h⟩ := d.ringIrq_cases kind n; rw [h]
@[simp] theorem Dev.ringIrq_log (kind n : Nat) : (d.ringIrq kind n).log = d.log := by
  obtain ⟨r, o, m, h⟩ := d.ringIrq_cases kind n; rw [h]
@[simp] theorem Dev.ringIrq_streamCks (kind n : Nat) : (d.ringIrq kind n).streamCks = d.streamCks := by
  obtain ⟨r, o, m, h⟩ := d.ringIrq_cases kind n; rw [h]
@[simp] theorem Dev.ringIrq_coreCks (kind n : Nat) : (d.ringIrq kind n).coreCks = d.coreCks := by
  obtain ⟨r, o, m, h⟩ := d.ringIrq_cases kind n; rw [h]
@[simp] theorem Dev.ringIrq_gov (kind n : Nat) : (d.ringIrq kind n).gov = d.gov := by
  obtain ⟨r, o, m, h⟩ := d.ringIrq_cases kind n; rw [h]
@[simp] theorem Dev.ringIrq_flr (kind n : Nat) : (d.ringIrq kind n).flr = d.flr := by
  obtain ⟨r, o, m, h⟩ := d.ringIrq_cases kind n; rw [h]
@[simp] theorem Dev.ringIrq_free (kind n : Nat) : (d.ringIrq kind n).free = d.free := by
  obtain ⟨r, o, m, h⟩ := d.ringIrq_cases kind n; rw [h]
@[simp] theorem Dev.ringIrq_holds (kind n : Nat) : (d.ringIrq kind n).holds = d.holds := by
  obtain ⟨r, o, m, h⟩ := d.ringIrq_cases kind n; rw [h]

/-! `Dev.writeEntry` changes rings, out, msix alone. -/

@[simp] theorem Dev.writeEntry_kindle (kind n : Nat) (bs : Bytes) : (d.writeEntry kind n bs).kindle = d.kindle := by
  obtain ⟨r, o, m, h⟩ := d.writeEntry_cases kind n bs; rw [h]
@[simp] theorem Dev.writeEntry_trust (kind n : Nat) (bs : Bytes) : (d.writeEntry kind n bs).trust = d.trust := by
  obtain ⟨r, o, m, h⟩ := d.writeEntry_cases kind n bs; rw [h]
@[simp] theorem Dev.writeEntry_tb (kind n : Nat) (bs : Bytes) : (d.writeEntry kind n bs).tb = d.tb := by
  obtain ⟨r, o, m, h⟩ := d.writeEntry_cases kind n bs; rw [h]
@[simp] theorem Dev.writeEntry_regs (kind n : Nat) (bs : Bytes) : (d.writeEntry kind n bs).regs = d.regs := by
  obtain ⟨r, o, m, h⟩ := d.writeEntry_cases kind n bs; rw [h]
@[simp] theorem Dev.writeEntry_shadow (kind n : Nat) (bs : Bytes) : (d.writeEntry kind n bs).shadow = d.shadow := by
  obtain ⟨r, o, m, h⟩ := d.writeEntry_cases kind n bs; rw [h]
@[simp] theorem Dev.writeEntry_staged (kind n : Nat) (bs : Bytes) : (d.writeEntry kind n bs).staged = d.staged := by
  obtain ⟨r, o, m, h⟩ := d.writeEntry_cases kind n bs; rw [h]
@[simp] theorem Dev.writeEntry_cntNow (kind n : Nat) (bs : Bytes) : (d.writeEntry kind n bs).cntNow = d.cntNow := by
  obtain ⟨r, o, m, h⟩ := d.writeEntry_cases kind n bs; rw [h]
@[simp] theorem Dev.writeEntry_cntLr (kind n : Nat) (bs : Bytes) : (d.writeEntry kind n bs).cntLr = d.cntLr := by
  obtain ⟨r, o, m, h⟩ := d.writeEntry_cases kind n bs; rw [h]
@[simp] theorem Dev.writeEntry_cores (kind n : Nat) (bs : Bytes) : (d.writeEntry kind n bs).cores = d.cores := by
  obtain ⟨r, o, m, h⟩ := d.writeEntry_cases kind n bs; rw [h]
@[simp] theorem Dev.writeEntry_slices (kind n : Nat) (bs : Bytes) : (d.writeEntry kind n bs).slices = d.slices := by
  obtain ⟨r, o, m, h⟩ := d.writeEntry_cases kind n bs; rw [h]
@[simp] theorem Dev.writeEntry_well (kind n : Nat) (bs : Bytes) : (d.writeEntry kind n bs).well = d.well := by
  obtain ⟨r, o, m, h⟩ := d.writeEntry_cases kind n bs; rw [h]
@[simp] theorem Dev.writeEntry_deep (kind n : Nat) (bs : Bytes) : (d.writeEntry kind n bs).deep = d.deep := by
  obtain ⟨r, o, m, h⟩ := d.writeEntry_cases kind n bs; rw [h]
@[simp] theorem Dev.writeEntry_poolUse (kind n : Nat) (bs : Bytes) : (d.writeEntry kind n bs).poolUse = d.poolUse := by
  obtain ⟨r, o, m, h⟩ := d.writeEntry_cases kind n bs; rw [h]
@[simp] theorem Dev.writeEntry_zeroing (kind n : Nat) (bs : Bytes) : (d.writeEntry kind n bs).zeroing = d.zeroing := by
  obtain ⟨r, o, m, h⟩ := d.writeEntry_cases kind n bs; rw [h]
@[simp] theorem Dev.writeEntry_jobs (kind n : Nat) (bs : Bytes) : (d.writeEntry kind n bs).jobs = d.jobs := by
  obtain ⟨r, o, m, h⟩ := d.writeEntry_cases kind n bs; rw [h]
@[simp] theorem Dev.writeEntry_cmds (kind n : Nat) (bs : Bytes) : (d.writeEntry kind n bs).cmds = d.cmds := by
  obtain ⟨r, o, m, h⟩ := d.writeEntry_cases kind n bs; rw [h]
@[simp] theorem Dev.writeEntry_streams (kind n : Nat) (bs : Bytes) : (d.writeEntry kind n bs).streams = d.streams := by
  obtain ⟨r, o, m, h⟩ := d.writeEntry_cases kind n bs; rw [h]
@[simp] theorem Dev.writeEntry_seqs (kind n : Nat) (bs : Bytes) : (d.writeEntry kind n bs).seqs = d.seqs := by
  obtain ⟨r, o, m, h⟩ := d.writeEntry_cases kind n bs; rw [h]
@[simp] theorem Dev.writeEntry_moves (kind n : Nat) (bs : Bytes) : (d.writeEntry kind n bs).moves = d.moves := by
  obtain ⟨r, o, m, h⟩ := d.writeEntry_cases kind n bs; rw [h]
@[simp] theorem Dev.writeEntry_freed (kind n : Nat) (bs : Bytes) : (d.writeEntry kind n bs).freed = d.freed := by
  obtain ⟨r, o, m, h⟩ := d.writeEntry_cases kind n bs; rw [h]
@[simp] theorem Dev.writeEntry_cross (kind n : Nat) (bs : Bytes) : (d.writeEntry kind n bs).cross = d.cross := by
  obtain ⟨r, o, m, h⟩ := d.writeEntry_cases kind n bs; rw [h]
@[simp] theorem Dev.writeEntry_shipIn (kind n : Nat) (bs : Bytes) : (d.writeEntry kind n bs).shipIn = d.shipIn := by
  obtain ⟨r, o, m, h⟩ := d.writeEntry_cases kind n bs; rw [h]
@[simp] theorem Dev.writeEntry_dones (kind n : Nat) (bs : Bytes) : (d.writeEntry kind n bs).dones = d.dones := by
  obtain ⟨r, o, m, h⟩ := d.writeEntry_cases kind n bs; rw [h]
@[simp] theorem Dev.writeEntry_provs (kind n : Nat) (bs : Bytes) : (d.writeEntry kind n bs).provs = d.provs := by
  obtain ⟨r, o, m, h⟩ := d.writeEntry_cases kind n bs; rw [h]
@[simp] theorem Dev.writeEntry_bound (kind n : Nat) (bs : Bytes) : (d.writeEntry kind n bs).bound = d.bound := by
  obtain ⟨r, o, m, h⟩ := d.writeEntry_cases kind n bs; rw [h]
@[simp] theorem Dev.writeEntry_targets (kind n : Nat) (bs : Bytes) : (d.writeEntry kind n bs).targets = d.targets := by
  obtain ⟨r, o, m, h⟩ := d.writeEntry_cases kind n bs; rw [h]
@[simp] theorem Dev.writeEntry_samples (kind n : Nat) (bs : Bytes) : (d.writeEntry kind n bs).samples = d.samples := by
  obtain ⟨r, o, m, h⟩ := d.writeEntry_cases kind n bs; rw [h]
@[simp] theorem Dev.writeEntry_ports (kind n : Nat) (bs : Bytes) : (d.writeEntry kind n bs).ports = d.ports := by
  obtain ⟨r, o, m, h⟩ := d.writeEntry_cases kind n bs; rw [h]
@[simp] theorem Dev.writeEntry_links (kind n : Nat) (bs : Bytes) : (d.writeEntry kind n bs).links = d.links := by
  obtain ⟨r, o, m, h⟩ := d.writeEntry_cases kind n bs; rw [h]
@[simp] theorem Dev.writeEntry_fabric (kind n : Nat) (bs : Bytes) : (d.writeEntry kind n bs).fabric = d.fabric := by
  obtain ⟨r, o, m, h⟩ := d.writeEntry_cases kind n bs; rw [h]
@[simp] theorem Dev.writeEntry_mirror (kind n : Nat) (bs : Bytes) : (d.writeEntry kind n bs).mirror = d.mirror := by
  obtain ⟨r, o, m, h⟩ := d.writeEntry_cases kind n bs; rw [h]
@[simp] theorem Dev.writeEntry_err (kind n : Nat) (bs : Bytes) : (d.writeEntry kind n bs).err = d.err := by
  obtain ⟨r, o, m, h⟩ := d.writeEntry_cases kind n bs; rw [h]
@[simp] theorem Dev.writeEntry_log (kind n : Nat) (bs : Bytes) : (d.writeEntry kind n bs).log = d.log := by
  obtain ⟨r, o, m, h⟩ := d.writeEntry_cases kind n bs; rw [h]
@[simp] theorem Dev.writeEntry_streamCks (kind n : Nat) (bs : Bytes) : (d.writeEntry kind n bs).streamCks = d.streamCks := by
  obtain ⟨r, o, m, h⟩ := d.writeEntry_cases kind n bs; rw [h]
@[simp] theorem Dev.writeEntry_coreCks (kind n : Nat) (bs : Bytes) : (d.writeEntry kind n bs).coreCks = d.coreCks := by
  obtain ⟨r, o, m, h⟩ := d.writeEntry_cases kind n bs; rw [h]
@[simp] theorem Dev.writeEntry_gov (kind n : Nat) (bs : Bytes) : (d.writeEntry kind n bs).gov = d.gov := by
  obtain ⟨r, o, m, h⟩ := d.writeEntry_cases kind n bs; rw [h]
@[simp] theorem Dev.writeEntry_flr (kind n : Nat) (bs : Bytes) : (d.writeEntry kind n bs).flr = d.flr := by
  obtain ⟨r, o, m, h⟩ := d.writeEntry_cases kind n bs; rw [h]
@[simp] theorem Dev.writeEntry_free (kind n : Nat) (bs : Bytes) : (d.writeEntry kind n bs).free = d.free := by
  obtain ⟨r, o, m, h⟩ := d.writeEntry_cases kind n bs; rw [h]
@[simp] theorem Dev.writeEntry_holds (kind n : Nat) (bs : Bytes) : (d.writeEntry kind n bs).holds = d.holds := by
  obtain ⟨r, o, m, h⟩ := d.writeEntry_cases kind n bs; rw [h]

/-! `Dev.postCompletion` changes rings, out, err, msix alone. -/

@[simp] theorem Dev.postCompletion_kindle (c : Completion) : (d.postCompletion c).kindle = d.kindle := by
  obtain ⟨r, o, b, m, h⟩ := d.postCompletion_cases c; rw [h]
@[simp] theorem Dev.postCompletion_trust (c : Completion) : (d.postCompletion c).trust = d.trust := by
  obtain ⟨r, o, b, m, h⟩ := d.postCompletion_cases c; rw [h]
@[simp] theorem Dev.postCompletion_tb (c : Completion) : (d.postCompletion c).tb = d.tb := by
  obtain ⟨r, o, b, m, h⟩ := d.postCompletion_cases c; rw [h]
@[simp] theorem Dev.postCompletion_regs (c : Completion) : (d.postCompletion c).regs = d.regs := by
  obtain ⟨r, o, b, m, h⟩ := d.postCompletion_cases c; rw [h]
@[simp] theorem Dev.postCompletion_shadow (c : Completion) : (d.postCompletion c).shadow = d.shadow := by
  obtain ⟨r, o, b, m, h⟩ := d.postCompletion_cases c; rw [h]
@[simp] theorem Dev.postCompletion_staged (c : Completion) : (d.postCompletion c).staged = d.staged := by
  obtain ⟨r, o, b, m, h⟩ := d.postCompletion_cases c; rw [h]
@[simp] theorem Dev.postCompletion_cntNow (c : Completion) : (d.postCompletion c).cntNow = d.cntNow := by
  obtain ⟨r, o, b, m, h⟩ := d.postCompletion_cases c; rw [h]
@[simp] theorem Dev.postCompletion_cntLr (c : Completion) : (d.postCompletion c).cntLr = d.cntLr := by
  obtain ⟨r, o, b, m, h⟩ := d.postCompletion_cases c; rw [h]
@[simp] theorem Dev.postCompletion_cores (c : Completion) : (d.postCompletion c).cores = d.cores := by
  obtain ⟨r, o, b, m, h⟩ := d.postCompletion_cases c; rw [h]
@[simp] theorem Dev.postCompletion_slices (c : Completion) : (d.postCompletion c).slices = d.slices := by
  obtain ⟨r, o, b, m, h⟩ := d.postCompletion_cases c; rw [h]
@[simp] theorem Dev.postCompletion_well (c : Completion) : (d.postCompletion c).well = d.well := by
  obtain ⟨r, o, b, m, h⟩ := d.postCompletion_cases c; rw [h]
@[simp] theorem Dev.postCompletion_deep (c : Completion) : (d.postCompletion c).deep = d.deep := by
  obtain ⟨r, o, b, m, h⟩ := d.postCompletion_cases c; rw [h]
@[simp] theorem Dev.postCompletion_poolUse (c : Completion) : (d.postCompletion c).poolUse = d.poolUse := by
  obtain ⟨r, o, b, m, h⟩ := d.postCompletion_cases c; rw [h]
@[simp] theorem Dev.postCompletion_zeroing (c : Completion) : (d.postCompletion c).zeroing = d.zeroing := by
  obtain ⟨r, o, b, m, h⟩ := d.postCompletion_cases c; rw [h]
@[simp] theorem Dev.postCompletion_jobs (c : Completion) : (d.postCompletion c).jobs = d.jobs := by
  obtain ⟨r, o, b, m, h⟩ := d.postCompletion_cases c; rw [h]
@[simp] theorem Dev.postCompletion_cmds (c : Completion) : (d.postCompletion c).cmds = d.cmds := by
  obtain ⟨r, o, b, m, h⟩ := d.postCompletion_cases c; rw [h]
@[simp] theorem Dev.postCompletion_streams (c : Completion) : (d.postCompletion c).streams = d.streams := by
  obtain ⟨r, o, b, m, h⟩ := d.postCompletion_cases c; rw [h]
@[simp] theorem Dev.postCompletion_seqs (c : Completion) : (d.postCompletion c).seqs = d.seqs := by
  obtain ⟨r, o, b, m, h⟩ := d.postCompletion_cases c; rw [h]
@[simp] theorem Dev.postCompletion_moves (c : Completion) : (d.postCompletion c).moves = d.moves := by
  obtain ⟨r, o, b, m, h⟩ := d.postCompletion_cases c; rw [h]
@[simp] theorem Dev.postCompletion_freed (c : Completion) : (d.postCompletion c).freed = d.freed := by
  obtain ⟨r, o, b, m, h⟩ := d.postCompletion_cases c; rw [h]
@[simp] theorem Dev.postCompletion_cross (c : Completion) : (d.postCompletion c).cross = d.cross := by
  obtain ⟨r, o, b, m, h⟩ := d.postCompletion_cases c; rw [h]
@[simp] theorem Dev.postCompletion_shipIn (c : Completion) : (d.postCompletion c).shipIn = d.shipIn := by
  obtain ⟨r, o, b, m, h⟩ := d.postCompletion_cases c; rw [h]
@[simp] theorem Dev.postCompletion_dones (c : Completion) : (d.postCompletion c).dones = d.dones := by
  obtain ⟨r, o, b, m, h⟩ := d.postCompletion_cases c; rw [h]
@[simp] theorem Dev.postCompletion_provs (c : Completion) : (d.postCompletion c).provs = d.provs := by
  obtain ⟨r, o, b, m, h⟩ := d.postCompletion_cases c; rw [h]
@[simp] theorem Dev.postCompletion_bound (c : Completion) : (d.postCompletion c).bound = d.bound := by
  obtain ⟨r, o, b, m, h⟩ := d.postCompletion_cases c; rw [h]
@[simp] theorem Dev.postCompletion_targets (c : Completion) : (d.postCompletion c).targets = d.targets := by
  obtain ⟨r, o, b, m, h⟩ := d.postCompletion_cases c; rw [h]
@[simp] theorem Dev.postCompletion_samples (c : Completion) : (d.postCompletion c).samples = d.samples := by
  obtain ⟨r, o, b, m, h⟩ := d.postCompletion_cases c; rw [h]
@[simp] theorem Dev.postCompletion_ports (c : Completion) : (d.postCompletion c).ports = d.ports := by
  obtain ⟨r, o, b, m, h⟩ := d.postCompletion_cases c; rw [h]
@[simp] theorem Dev.postCompletion_links (c : Completion) : (d.postCompletion c).links = d.links := by
  obtain ⟨r, o, b, m, h⟩ := d.postCompletion_cases c; rw [h]
@[simp] theorem Dev.postCompletion_fabric (c : Completion) : (d.postCompletion c).fabric = d.fabric := by
  obtain ⟨r, o, b, m, h⟩ := d.postCompletion_cases c; rw [h]
@[simp] theorem Dev.postCompletion_mirror (c : Completion) : (d.postCompletion c).mirror = d.mirror := by
  obtain ⟨r, o, b, m, h⟩ := d.postCompletion_cases c; rw [h]
@[simp] theorem Dev.postCompletion_log (c : Completion) : (d.postCompletion c).log = d.log := by
  obtain ⟨r, o, b, m, h⟩ := d.postCompletion_cases c; rw [h]
@[simp] theorem Dev.postCompletion_streamCks (c : Completion) : (d.postCompletion c).streamCks = d.streamCks := by
  obtain ⟨r, o, b, m, h⟩ := d.postCompletion_cases c; rw [h]
@[simp] theorem Dev.postCompletion_coreCks (c : Completion) : (d.postCompletion c).coreCks = d.coreCks := by
  obtain ⟨r, o, b, m, h⟩ := d.postCompletion_cases c; rw [h]
@[simp] theorem Dev.postCompletion_gov (c : Completion) : (d.postCompletion c).gov = d.gov := by
  obtain ⟨r, o, b, m, h⟩ := d.postCompletion_cases c; rw [h]
@[simp] theorem Dev.postCompletion_flr (c : Completion) : (d.postCompletion c).flr = d.flr := by
  obtain ⟨r, o, b, m, h⟩ := d.postCompletion_cases c; rw [h]
@[simp] theorem Dev.postCompletion_free (c : Completion) : (d.postCompletion c).free = d.free := by
  obtain ⟨r, o, b, m, h⟩ := d.postCompletion_cases c; rw [h]
@[simp] theorem Dev.postCompletion_holds (c : Completion) : (d.postCompletion c).holds = d.holds := by
  obtain ⟨r, o, b, m, h⟩ := d.postCompletion_cases c; rw [h]

/-! `Dev.finishAt` changes well, log, rings, out, err, msix alone. -/

@[simp] theorem Dev.finishAt_kindle (c : Completion) (n : Nat) : (d.finishAt c n).kindle = d.kindle := by
  obtain ⟨w, l, r, o, b, m, h⟩ := d.finishAt_cases c n; rw [h]
@[simp] theorem Dev.finishAt_trust (c : Completion) (n : Nat) : (d.finishAt c n).trust = d.trust := by
  obtain ⟨w, l, r, o, b, m, h⟩ := d.finishAt_cases c n; rw [h]
@[simp] theorem Dev.finishAt_tb (c : Completion) (n : Nat) : (d.finishAt c n).tb = d.tb := by
  obtain ⟨w, l, r, o, b, m, h⟩ := d.finishAt_cases c n; rw [h]
@[simp] theorem Dev.finishAt_regs (c : Completion) (n : Nat) : (d.finishAt c n).regs = d.regs := by
  obtain ⟨w, l, r, o, b, m, h⟩ := d.finishAt_cases c n; rw [h]
@[simp] theorem Dev.finishAt_shadow (c : Completion) (n : Nat) : (d.finishAt c n).shadow = d.shadow := by
  obtain ⟨w, l, r, o, b, m, h⟩ := d.finishAt_cases c n; rw [h]
@[simp] theorem Dev.finishAt_staged (c : Completion) (n : Nat) : (d.finishAt c n).staged = d.staged := by
  obtain ⟨w, l, r, o, b, m, h⟩ := d.finishAt_cases c n; rw [h]
@[simp] theorem Dev.finishAt_cntNow (c : Completion) (n : Nat) : (d.finishAt c n).cntNow = d.cntNow := by
  obtain ⟨w, l, r, o, b, m, h⟩ := d.finishAt_cases c n; rw [h]
@[simp] theorem Dev.finishAt_cntLr (c : Completion) (n : Nat) : (d.finishAt c n).cntLr = d.cntLr := by
  obtain ⟨w, l, r, o, b, m, h⟩ := d.finishAt_cases c n; rw [h]
@[simp] theorem Dev.finishAt_cores (c : Completion) (n : Nat) : (d.finishAt c n).cores = d.cores := by
  obtain ⟨w, l, r, o, b, m, h⟩ := d.finishAt_cases c n; rw [h]
@[simp] theorem Dev.finishAt_slices (c : Completion) (n : Nat) : (d.finishAt c n).slices = d.slices := by
  obtain ⟨w, l, r, o, b, m, h⟩ := d.finishAt_cases c n; rw [h]
@[simp] theorem Dev.finishAt_deep (c : Completion) (n : Nat) : (d.finishAt c n).deep = d.deep := by
  obtain ⟨w, l, r, o, b, m, h⟩ := d.finishAt_cases c n; rw [h]
@[simp] theorem Dev.finishAt_poolUse (c : Completion) (n : Nat) : (d.finishAt c n).poolUse = d.poolUse := by
  obtain ⟨w, l, r, o, b, m, h⟩ := d.finishAt_cases c n; rw [h]
@[simp] theorem Dev.finishAt_zeroing (c : Completion) (n : Nat) : (d.finishAt c n).zeroing = d.zeroing := by
  obtain ⟨w, l, r, o, b, m, h⟩ := d.finishAt_cases c n; rw [h]
@[simp] theorem Dev.finishAt_jobs (c : Completion) (n : Nat) : (d.finishAt c n).jobs = d.jobs := by
  obtain ⟨w, l, r, o, b, m, h⟩ := d.finishAt_cases c n; rw [h]
@[simp] theorem Dev.finishAt_cmds (c : Completion) (n : Nat) : (d.finishAt c n).cmds = d.cmds := by
  obtain ⟨w, l, r, o, b, m, h⟩ := d.finishAt_cases c n; rw [h]
@[simp] theorem Dev.finishAt_streams (c : Completion) (n : Nat) : (d.finishAt c n).streams = d.streams := by
  obtain ⟨w, l, r, o, b, m, h⟩ := d.finishAt_cases c n; rw [h]
@[simp] theorem Dev.finishAt_seqs (c : Completion) (n : Nat) : (d.finishAt c n).seqs = d.seqs := by
  obtain ⟨w, l, r, o, b, m, h⟩ := d.finishAt_cases c n; rw [h]
@[simp] theorem Dev.finishAt_moves (c : Completion) (n : Nat) : (d.finishAt c n).moves = d.moves := by
  obtain ⟨w, l, r, o, b, m, h⟩ := d.finishAt_cases c n; rw [h]
@[simp] theorem Dev.finishAt_freed (c : Completion) (n : Nat) : (d.finishAt c n).freed = d.freed := by
  obtain ⟨w, l, r, o, b, m, h⟩ := d.finishAt_cases c n; rw [h]
@[simp] theorem Dev.finishAt_cross (c : Completion) (n : Nat) : (d.finishAt c n).cross = d.cross := by
  obtain ⟨w, l, r, o, b, m, h⟩ := d.finishAt_cases c n; rw [h]
@[simp] theorem Dev.finishAt_shipIn (c : Completion) (n : Nat) : (d.finishAt c n).shipIn = d.shipIn := by
  obtain ⟨w, l, r, o, b, m, h⟩ := d.finishAt_cases c n; rw [h]
@[simp] theorem Dev.finishAt_dones (c : Completion) (n : Nat) : (d.finishAt c n).dones = d.dones := by
  obtain ⟨w, l, r, o, b, m, h⟩ := d.finishAt_cases c n; rw [h]
@[simp] theorem Dev.finishAt_provs (c : Completion) (n : Nat) : (d.finishAt c n).provs = d.provs := by
  obtain ⟨w, l, r, o, b, m, h⟩ := d.finishAt_cases c n; rw [h]
@[simp] theorem Dev.finishAt_bound (c : Completion) (n : Nat) : (d.finishAt c n).bound = d.bound := by
  obtain ⟨w, l, r, o, b, m, h⟩ := d.finishAt_cases c n; rw [h]
@[simp] theorem Dev.finishAt_targets (c : Completion) (n : Nat) : (d.finishAt c n).targets = d.targets := by
  obtain ⟨w, l, r, o, b, m, h⟩ := d.finishAt_cases c n; rw [h]
@[simp] theorem Dev.finishAt_samples (c : Completion) (n : Nat) : (d.finishAt c n).samples = d.samples := by
  obtain ⟨w, l, r, o, b, m, h⟩ := d.finishAt_cases c n; rw [h]
@[simp] theorem Dev.finishAt_ports (c : Completion) (n : Nat) : (d.finishAt c n).ports = d.ports := by
  obtain ⟨w, l, r, o, b, m, h⟩ := d.finishAt_cases c n; rw [h]
@[simp] theorem Dev.finishAt_links (c : Completion) (n : Nat) : (d.finishAt c n).links = d.links := by
  obtain ⟨w, l, r, o, b, m, h⟩ := d.finishAt_cases c n; rw [h]
@[simp] theorem Dev.finishAt_fabric (c : Completion) (n : Nat) : (d.finishAt c n).fabric = d.fabric := by
  obtain ⟨w, l, r, o, b, m, h⟩ := d.finishAt_cases c n; rw [h]
@[simp] theorem Dev.finishAt_mirror (c : Completion) (n : Nat) : (d.finishAt c n).mirror = d.mirror := by
  obtain ⟨w, l, r, o, b, m, h⟩ := d.finishAt_cases c n; rw [h]
@[simp] theorem Dev.finishAt_streamCks (c : Completion) (n : Nat) : (d.finishAt c n).streamCks = d.streamCks := by
  obtain ⟨w, l, r, o, b, m, h⟩ := d.finishAt_cases c n; rw [h]
@[simp] theorem Dev.finishAt_coreCks (c : Completion) (n : Nat) : (d.finishAt c n).coreCks = d.coreCks := by
  obtain ⟨w, l, r, o, b, m, h⟩ := d.finishAt_cases c n; rw [h]
@[simp] theorem Dev.finishAt_gov (c : Completion) (n : Nat) : (d.finishAt c n).gov = d.gov := by
  obtain ⟨w, l, r, o, b, m, h⟩ := d.finishAt_cases c n; rw [h]
@[simp] theorem Dev.finishAt_flr (c : Completion) (n : Nat) : (d.finishAt c n).flr = d.flr := by
  obtain ⟨w, l, r, o, b, m, h⟩ := d.finishAt_cases c n; rw [h]
@[simp] theorem Dev.finishAt_free (c : Completion) (n : Nat) : (d.finishAt c n).free = d.free := by
  obtain ⟨w, l, r, o, b, m, h⟩ := d.finishAt_cases c n; rw [h]
@[simp] theorem Dev.finishAt_holds (c : Completion) (n : Nat) : (d.finishAt c n).holds = d.holds := by
  obtain ⟨w, l, r, o, b, m, h⟩ := d.finishAt_cases c n; rw [h]

/-! `Dev.finish` changes well, log, rings, out, err, msix alone. -/

@[simp] theorem Dev.finish_kindle (c : Completion) : (d.finish c).kindle = d.kindle := by
  obtain ⟨w, l, r, o, b, m, h⟩ := d.finish_cases c; rw [h]
@[simp] theorem Dev.finish_trust (c : Completion) : (d.finish c).trust = d.trust := by
  obtain ⟨w, l, r, o, b, m, h⟩ := d.finish_cases c; rw [h]
@[simp] theorem Dev.finish_tb (c : Completion) : (d.finish c).tb = d.tb := by
  obtain ⟨w, l, r, o, b, m, h⟩ := d.finish_cases c; rw [h]
@[simp] theorem Dev.finish_regs (c : Completion) : (d.finish c).regs = d.regs := by
  obtain ⟨w, l, r, o, b, m, h⟩ := d.finish_cases c; rw [h]
@[simp] theorem Dev.finish_shadow (c : Completion) : (d.finish c).shadow = d.shadow := by
  obtain ⟨w, l, r, o, b, m, h⟩ := d.finish_cases c; rw [h]
@[simp] theorem Dev.finish_staged (c : Completion) : (d.finish c).staged = d.staged := by
  obtain ⟨w, l, r, o, b, m, h⟩ := d.finish_cases c; rw [h]
@[simp] theorem Dev.finish_cntNow (c : Completion) : (d.finish c).cntNow = d.cntNow := by
  obtain ⟨w, l, r, o, b, m, h⟩ := d.finish_cases c; rw [h]
@[simp] theorem Dev.finish_cntLr (c : Completion) : (d.finish c).cntLr = d.cntLr := by
  obtain ⟨w, l, r, o, b, m, h⟩ := d.finish_cases c; rw [h]
@[simp] theorem Dev.finish_cores (c : Completion) : (d.finish c).cores = d.cores := by
  obtain ⟨w, l, r, o, b, m, h⟩ := d.finish_cases c; rw [h]
@[simp] theorem Dev.finish_slices (c : Completion) : (d.finish c).slices = d.slices := by
  obtain ⟨w, l, r, o, b, m, h⟩ := d.finish_cases c; rw [h]
@[simp] theorem Dev.finish_deep (c : Completion) : (d.finish c).deep = d.deep := by
  obtain ⟨w, l, r, o, b, m, h⟩ := d.finish_cases c; rw [h]
@[simp] theorem Dev.finish_poolUse (c : Completion) : (d.finish c).poolUse = d.poolUse := by
  obtain ⟨w, l, r, o, b, m, h⟩ := d.finish_cases c; rw [h]
@[simp] theorem Dev.finish_zeroing (c : Completion) : (d.finish c).zeroing = d.zeroing := by
  obtain ⟨w, l, r, o, b, m, h⟩ := d.finish_cases c; rw [h]
@[simp] theorem Dev.finish_jobs (c : Completion) : (d.finish c).jobs = d.jobs := by
  obtain ⟨w, l, r, o, b, m, h⟩ := d.finish_cases c; rw [h]
@[simp] theorem Dev.finish_cmds (c : Completion) : (d.finish c).cmds = d.cmds := by
  obtain ⟨w, l, r, o, b, m, h⟩ := d.finish_cases c; rw [h]
@[simp] theorem Dev.finish_streams (c : Completion) : (d.finish c).streams = d.streams := by
  obtain ⟨w, l, r, o, b, m, h⟩ := d.finish_cases c; rw [h]
@[simp] theorem Dev.finish_seqs (c : Completion) : (d.finish c).seqs = d.seqs := by
  obtain ⟨w, l, r, o, b, m, h⟩ := d.finish_cases c; rw [h]
@[simp] theorem Dev.finish_moves (c : Completion) : (d.finish c).moves = d.moves := by
  obtain ⟨w, l, r, o, b, m, h⟩ := d.finish_cases c; rw [h]
@[simp] theorem Dev.finish_freed (c : Completion) : (d.finish c).freed = d.freed := by
  obtain ⟨w, l, r, o, b, m, h⟩ := d.finish_cases c; rw [h]
@[simp] theorem Dev.finish_cross (c : Completion) : (d.finish c).cross = d.cross := by
  obtain ⟨w, l, r, o, b, m, h⟩ := d.finish_cases c; rw [h]
@[simp] theorem Dev.finish_shipIn (c : Completion) : (d.finish c).shipIn = d.shipIn := by
  obtain ⟨w, l, r, o, b, m, h⟩ := d.finish_cases c; rw [h]
@[simp] theorem Dev.finish_dones (c : Completion) : (d.finish c).dones = d.dones := by
  obtain ⟨w, l, r, o, b, m, h⟩ := d.finish_cases c; rw [h]
@[simp] theorem Dev.finish_provs (c : Completion) : (d.finish c).provs = d.provs := by
  obtain ⟨w, l, r, o, b, m, h⟩ := d.finish_cases c; rw [h]
@[simp] theorem Dev.finish_bound (c : Completion) : (d.finish c).bound = d.bound := by
  obtain ⟨w, l, r, o, b, m, h⟩ := d.finish_cases c; rw [h]
@[simp] theorem Dev.finish_targets (c : Completion) : (d.finish c).targets = d.targets := by
  obtain ⟨w, l, r, o, b, m, h⟩ := d.finish_cases c; rw [h]
@[simp] theorem Dev.finish_samples (c : Completion) : (d.finish c).samples = d.samples := by
  obtain ⟨w, l, r, o, b, m, h⟩ := d.finish_cases c; rw [h]
@[simp] theorem Dev.finish_ports (c : Completion) : (d.finish c).ports = d.ports := by
  obtain ⟨w, l, r, o, b, m, h⟩ := d.finish_cases c; rw [h]
@[simp] theorem Dev.finish_links (c : Completion) : (d.finish c).links = d.links := by
  obtain ⟨w, l, r, o, b, m, h⟩ := d.finish_cases c; rw [h]
@[simp] theorem Dev.finish_fabric (c : Completion) : (d.finish c).fabric = d.fabric := by
  obtain ⟨w, l, r, o, b, m, h⟩ := d.finish_cases c; rw [h]
@[simp] theorem Dev.finish_mirror (c : Completion) : (d.finish c).mirror = d.mirror := by
  obtain ⟨w, l, r, o, b, m, h⟩ := d.finish_cases c; rw [h]
@[simp] theorem Dev.finish_streamCks (c : Completion) : (d.finish c).streamCks = d.streamCks := by
  obtain ⟨w, l, r, o, b, m, h⟩ := d.finish_cases c; rw [h]
@[simp] theorem Dev.finish_coreCks (c : Completion) : (d.finish c).coreCks = d.coreCks := by
  obtain ⟨w, l, r, o, b, m, h⟩ := d.finish_cases c; rw [h]
@[simp] theorem Dev.finish_gov (c : Completion) : (d.finish c).gov = d.gov := by
  obtain ⟨w, l, r, o, b, m, h⟩ := d.finish_cases c; rw [h]
@[simp] theorem Dev.finish_flr (c : Completion) : (d.finish c).flr = d.flr := by
  obtain ⟨w, l, r, o, b, m, h⟩ := d.finish_cases c; rw [h]
@[simp] theorem Dev.finish_free (c : Completion) : (d.finish c).free = d.free := by
  obtain ⟨w, l, r, o, b, m, h⟩ := d.finish_cases c; rw [h]
@[simp] theorem Dev.finish_holds (c : Completion) : (d.finish c).holds = d.holds := by
  obtain ⟨w, l, r, o, b, m, h⟩ := d.finish_cases c; rw [h]

/-! `Dev.finishCmd` changes well, log, rings, out, err, msix alone. -/

@[simp] theorem Dev.finishCmd_kindle (j : Nat) (c : CmdRef) (st code : Nat) : (d.finishCmd j c st code).kindle = d.kindle := by
  obtain ⟨w, l, r, o, b, m, h⟩ := d.finishCmd_cases j c st code; rw [h]
@[simp] theorem Dev.finishCmd_trust (j : Nat) (c : CmdRef) (st code : Nat) : (d.finishCmd j c st code).trust = d.trust := by
  obtain ⟨w, l, r, o, b, m, h⟩ := d.finishCmd_cases j c st code; rw [h]
@[simp] theorem Dev.finishCmd_tb (j : Nat) (c : CmdRef) (st code : Nat) : (d.finishCmd j c st code).tb = d.tb := by
  obtain ⟨w, l, r, o, b, m, h⟩ := d.finishCmd_cases j c st code; rw [h]
@[simp] theorem Dev.finishCmd_regs (j : Nat) (c : CmdRef) (st code : Nat) : (d.finishCmd j c st code).regs = d.regs := by
  obtain ⟨w, l, r, o, b, m, h⟩ := d.finishCmd_cases j c st code; rw [h]
@[simp] theorem Dev.finishCmd_shadow (j : Nat) (c : CmdRef) (st code : Nat) : (d.finishCmd j c st code).shadow = d.shadow := by
  obtain ⟨w, l, r, o, b, m, h⟩ := d.finishCmd_cases j c st code; rw [h]
@[simp] theorem Dev.finishCmd_staged (j : Nat) (c : CmdRef) (st code : Nat) : (d.finishCmd j c st code).staged = d.staged := by
  obtain ⟨w, l, r, o, b, m, h⟩ := d.finishCmd_cases j c st code; rw [h]
@[simp] theorem Dev.finishCmd_cntNow (j : Nat) (c : CmdRef) (st code : Nat) : (d.finishCmd j c st code).cntNow = d.cntNow := by
  obtain ⟨w, l, r, o, b, m, h⟩ := d.finishCmd_cases j c st code; rw [h]
@[simp] theorem Dev.finishCmd_cntLr (j : Nat) (c : CmdRef) (st code : Nat) : (d.finishCmd j c st code).cntLr = d.cntLr := by
  obtain ⟨w, l, r, o, b, m, h⟩ := d.finishCmd_cases j c st code; rw [h]
@[simp] theorem Dev.finishCmd_cores (j : Nat) (c : CmdRef) (st code : Nat) : (d.finishCmd j c st code).cores = d.cores := by
  obtain ⟨w, l, r, o, b, m, h⟩ := d.finishCmd_cases j c st code; rw [h]
@[simp] theorem Dev.finishCmd_slices (j : Nat) (c : CmdRef) (st code : Nat) : (d.finishCmd j c st code).slices = d.slices := by
  obtain ⟨w, l, r, o, b, m, h⟩ := d.finishCmd_cases j c st code; rw [h]
@[simp] theorem Dev.finishCmd_deep (j : Nat) (c : CmdRef) (st code : Nat) : (d.finishCmd j c st code).deep = d.deep := by
  obtain ⟨w, l, r, o, b, m, h⟩ := d.finishCmd_cases j c st code; rw [h]
@[simp] theorem Dev.finishCmd_poolUse (j : Nat) (c : CmdRef) (st code : Nat) : (d.finishCmd j c st code).poolUse = d.poolUse := by
  obtain ⟨w, l, r, o, b, m, h⟩ := d.finishCmd_cases j c st code; rw [h]
@[simp] theorem Dev.finishCmd_zeroing (j : Nat) (c : CmdRef) (st code : Nat) : (d.finishCmd j c st code).zeroing = d.zeroing := by
  obtain ⟨w, l, r, o, b, m, h⟩ := d.finishCmd_cases j c st code; rw [h]
@[simp] theorem Dev.finishCmd_jobs (j : Nat) (c : CmdRef) (st code : Nat) : (d.finishCmd j c st code).jobs = d.jobs := by
  obtain ⟨w, l, r, o, b, m, h⟩ := d.finishCmd_cases j c st code; rw [h]
@[simp] theorem Dev.finishCmd_cmds (j : Nat) (c : CmdRef) (st code : Nat) : (d.finishCmd j c st code).cmds = d.cmds := by
  obtain ⟨w, l, r, o, b, m, h⟩ := d.finishCmd_cases j c st code; rw [h]
@[simp] theorem Dev.finishCmd_streams (j : Nat) (c : CmdRef) (st code : Nat) : (d.finishCmd j c st code).streams = d.streams := by
  obtain ⟨w, l, r, o, b, m, h⟩ := d.finishCmd_cases j c st code; rw [h]
@[simp] theorem Dev.finishCmd_seqs (j : Nat) (c : CmdRef) (st code : Nat) : (d.finishCmd j c st code).seqs = d.seqs := by
  obtain ⟨w, l, r, o, b, m, h⟩ := d.finishCmd_cases j c st code; rw [h]
@[simp] theorem Dev.finishCmd_moves (j : Nat) (c : CmdRef) (st code : Nat) : (d.finishCmd j c st code).moves = d.moves := by
  obtain ⟨w, l, r, o, b, m, h⟩ := d.finishCmd_cases j c st code; rw [h]
@[simp] theorem Dev.finishCmd_freed (j : Nat) (c : CmdRef) (st code : Nat) : (d.finishCmd j c st code).freed = d.freed := by
  obtain ⟨w, l, r, o, b, m, h⟩ := d.finishCmd_cases j c st code; rw [h]
@[simp] theorem Dev.finishCmd_cross (j : Nat) (c : CmdRef) (st code : Nat) : (d.finishCmd j c st code).cross = d.cross := by
  obtain ⟨w, l, r, o, b, m, h⟩ := d.finishCmd_cases j c st code; rw [h]
@[simp] theorem Dev.finishCmd_shipIn (j : Nat) (c : CmdRef) (st code : Nat) : (d.finishCmd j c st code).shipIn = d.shipIn := by
  obtain ⟨w, l, r, o, b, m, h⟩ := d.finishCmd_cases j c st code; rw [h]
@[simp] theorem Dev.finishCmd_dones (j : Nat) (c : CmdRef) (st code : Nat) : (d.finishCmd j c st code).dones = d.dones := by
  obtain ⟨w, l, r, o, b, m, h⟩ := d.finishCmd_cases j c st code; rw [h]
@[simp] theorem Dev.finishCmd_provs (j : Nat) (c : CmdRef) (st code : Nat) : (d.finishCmd j c st code).provs = d.provs := by
  obtain ⟨w, l, r, o, b, m, h⟩ := d.finishCmd_cases j c st code; rw [h]
@[simp] theorem Dev.finishCmd_bound (j : Nat) (c : CmdRef) (st code : Nat) : (d.finishCmd j c st code).bound = d.bound := by
  obtain ⟨w, l, r, o, b, m, h⟩ := d.finishCmd_cases j c st code; rw [h]
@[simp] theorem Dev.finishCmd_targets (j : Nat) (c : CmdRef) (st code : Nat) : (d.finishCmd j c st code).targets = d.targets := by
  obtain ⟨w, l, r, o, b, m, h⟩ := d.finishCmd_cases j c st code; rw [h]
@[simp] theorem Dev.finishCmd_samples (j : Nat) (c : CmdRef) (st code : Nat) : (d.finishCmd j c st code).samples = d.samples := by
  obtain ⟨w, l, r, o, b, m, h⟩ := d.finishCmd_cases j c st code; rw [h]
@[simp] theorem Dev.finishCmd_ports (j : Nat) (c : CmdRef) (st code : Nat) : (d.finishCmd j c st code).ports = d.ports := by
  obtain ⟨w, l, r, o, b, m, h⟩ := d.finishCmd_cases j c st code; rw [h]
@[simp] theorem Dev.finishCmd_links (j : Nat) (c : CmdRef) (st code : Nat) : (d.finishCmd j c st code).links = d.links := by
  obtain ⟨w, l, r, o, b, m, h⟩ := d.finishCmd_cases j c st code; rw [h]
@[simp] theorem Dev.finishCmd_fabric (j : Nat) (c : CmdRef) (st code : Nat) : (d.finishCmd j c st code).fabric = d.fabric := by
  obtain ⟨w, l, r, o, b, m, h⟩ := d.finishCmd_cases j c st code; rw [h]
@[simp] theorem Dev.finishCmd_mirror (j : Nat) (c : CmdRef) (st code : Nat) : (d.finishCmd j c st code).mirror = d.mirror := by
  obtain ⟨w, l, r, o, b, m, h⟩ := d.finishCmd_cases j c st code; rw [h]
@[simp] theorem Dev.finishCmd_streamCks (j : Nat) (c : CmdRef) (st code : Nat) : (d.finishCmd j c st code).streamCks = d.streamCks := by
  obtain ⟨w, l, r, o, b, m, h⟩ := d.finishCmd_cases j c st code; rw [h]
@[simp] theorem Dev.finishCmd_coreCks (j : Nat) (c : CmdRef) (st code : Nat) : (d.finishCmd j c st code).coreCks = d.coreCks := by
  obtain ⟨w, l, r, o, b, m, h⟩ := d.finishCmd_cases j c st code; rw [h]
@[simp] theorem Dev.finishCmd_gov (j : Nat) (c : CmdRef) (st code : Nat) : (d.finishCmd j c st code).gov = d.gov := by
  obtain ⟨w, l, r, o, b, m, h⟩ := d.finishCmd_cases j c st code; rw [h]
@[simp] theorem Dev.finishCmd_flr (j : Nat) (c : CmdRef) (st code : Nat) : (d.finishCmd j c st code).flr = d.flr := by
  obtain ⟨w, l, r, o, b, m, h⟩ := d.finishCmd_cases j c st code; rw [h]
@[simp] theorem Dev.finishCmd_free (j : Nat) (c : CmdRef) (st code : Nat) : (d.finishCmd j c st code).free = d.free := by
  obtain ⟨w, l, r, o, b, m, h⟩ := d.finishCmd_cases j c st code; rw [h]
@[simp] theorem Dev.finishCmd_holds (j : Nat) (c : CmdRef) (st code : Nat) : (d.finishCmd j c st code).holds = d.holds := by
  obtain ⟨w, l, r, o, b, m, h⟩ := d.finishCmd_cases j c st code; rw [h]

/-! `Dev.count` changes cntNow alone. -/

@[simp] theorem Dev.count_kindle (off lo n : Nat) : (d.count off lo n).kindle = d.kindle := by
  obtain ⟨m, h⟩ := d.count_eq off lo n; rw [h]
@[simp] theorem Dev.count_trust (off lo n : Nat) : (d.count off lo n).trust = d.trust := by
  obtain ⟨m, h⟩ := d.count_eq off lo n; rw [h]
@[simp] theorem Dev.count_tb (off lo n : Nat) : (d.count off lo n).tb = d.tb := by
  obtain ⟨m, h⟩ := d.count_eq off lo n; rw [h]
@[simp] theorem Dev.count_regs (off lo n : Nat) : (d.count off lo n).regs = d.regs := by
  obtain ⟨m, h⟩ := d.count_eq off lo n; rw [h]
@[simp] theorem Dev.count_shadow (off lo n : Nat) : (d.count off lo n).shadow = d.shadow := by
  obtain ⟨m, h⟩ := d.count_eq off lo n; rw [h]
@[simp] theorem Dev.count_staged (off lo n : Nat) : (d.count off lo n).staged = d.staged := by
  obtain ⟨m, h⟩ := d.count_eq off lo n; rw [h]
@[simp] theorem Dev.count_cntLr (off lo n : Nat) : (d.count off lo n).cntLr = d.cntLr := by
  obtain ⟨m, h⟩ := d.count_eq off lo n; rw [h]
@[simp] theorem Dev.count_cores (off lo n : Nat) : (d.count off lo n).cores = d.cores := by
  obtain ⟨m, h⟩ := d.count_eq off lo n; rw [h]
@[simp] theorem Dev.count_slices (off lo n : Nat) : (d.count off lo n).slices = d.slices := by
  obtain ⟨m, h⟩ := d.count_eq off lo n; rw [h]
@[simp] theorem Dev.count_well (off lo n : Nat) : (d.count off lo n).well = d.well := by
  obtain ⟨m, h⟩ := d.count_eq off lo n; rw [h]
@[simp] theorem Dev.count_deep (off lo n : Nat) : (d.count off lo n).deep = d.deep := by
  obtain ⟨m, h⟩ := d.count_eq off lo n; rw [h]
@[simp] theorem Dev.count_poolUse (off lo n : Nat) : (d.count off lo n).poolUse = d.poolUse := by
  obtain ⟨m, h⟩ := d.count_eq off lo n; rw [h]
@[simp] theorem Dev.count_zeroing (off lo n : Nat) : (d.count off lo n).zeroing = d.zeroing := by
  obtain ⟨m, h⟩ := d.count_eq off lo n; rw [h]
@[simp] theorem Dev.count_jobs (off lo n : Nat) : (d.count off lo n).jobs = d.jobs := by
  obtain ⟨m, h⟩ := d.count_eq off lo n; rw [h]
@[simp] theorem Dev.count_cmds (off lo n : Nat) : (d.count off lo n).cmds = d.cmds := by
  obtain ⟨m, h⟩ := d.count_eq off lo n; rw [h]
@[simp] theorem Dev.count_streams (off lo n : Nat) : (d.count off lo n).streams = d.streams := by
  obtain ⟨m, h⟩ := d.count_eq off lo n; rw [h]
@[simp] theorem Dev.count_seqs (off lo n : Nat) : (d.count off lo n).seqs = d.seqs := by
  obtain ⟨m, h⟩ := d.count_eq off lo n; rw [h]
@[simp] theorem Dev.count_moves (off lo n : Nat) : (d.count off lo n).moves = d.moves := by
  obtain ⟨m, h⟩ := d.count_eq off lo n; rw [h]
@[simp] theorem Dev.count_freed (off lo n : Nat) : (d.count off lo n).freed = d.freed := by
  obtain ⟨m, h⟩ := d.count_eq off lo n; rw [h]
@[simp] theorem Dev.count_cross (off lo n : Nat) : (d.count off lo n).cross = d.cross := by
  obtain ⟨m, h⟩ := d.count_eq off lo n; rw [h]
@[simp] theorem Dev.count_shipIn (off lo n : Nat) : (d.count off lo n).shipIn = d.shipIn := by
  obtain ⟨m, h⟩ := d.count_eq off lo n; rw [h]
@[simp] theorem Dev.count_rings (off lo n : Nat) : (d.count off lo n).rings = d.rings := by
  obtain ⟨m, h⟩ := d.count_eq off lo n; rw [h]
@[simp] theorem Dev.count_out (off lo n : Nat) : (d.count off lo n).out = d.out := by
  obtain ⟨m, h⟩ := d.count_eq off lo n; rw [h]
@[simp] theorem Dev.count_msix (off lo n : Nat) : (d.count off lo n).msix = d.msix := by
  obtain ⟨m, h⟩ := d.count_eq off lo n; rw [h]
@[simp] theorem Dev.count_dones (off lo n : Nat) : (d.count off lo n).dones = d.dones := by
  obtain ⟨m, h⟩ := d.count_eq off lo n; rw [h]
@[simp] theorem Dev.count_provs (off lo n : Nat) : (d.count off lo n).provs = d.provs := by
  obtain ⟨m, h⟩ := d.count_eq off lo n; rw [h]
@[simp] theorem Dev.count_bound (off lo n : Nat) : (d.count off lo n).bound = d.bound := by
  obtain ⟨m, h⟩ := d.count_eq off lo n; rw [h]
@[simp] theorem Dev.count_targets (off lo n : Nat) : (d.count off lo n).targets = d.targets := by
  obtain ⟨m, h⟩ := d.count_eq off lo n; rw [h]
@[simp] theorem Dev.count_samples (off lo n : Nat) : (d.count off lo n).samples = d.samples := by
  obtain ⟨m, h⟩ := d.count_eq off lo n; rw [h]
@[simp] theorem Dev.count_ports (off lo n : Nat) : (d.count off lo n).ports = d.ports := by
  obtain ⟨m, h⟩ := d.count_eq off lo n; rw [h]
@[simp] theorem Dev.count_links (off lo n : Nat) : (d.count off lo n).links = d.links := by
  obtain ⟨m, h⟩ := d.count_eq off lo n; rw [h]
@[simp] theorem Dev.count_fabric (off lo n : Nat) : (d.count off lo n).fabric = d.fabric := by
  obtain ⟨m, h⟩ := d.count_eq off lo n; rw [h]
@[simp] theorem Dev.count_mirror (off lo n : Nat) : (d.count off lo n).mirror = d.mirror := by
  obtain ⟨m, h⟩ := d.count_eq off lo n; rw [h]
@[simp] theorem Dev.count_err (off lo n : Nat) : (d.count off lo n).err = d.err := by
  obtain ⟨m, h⟩ := d.count_eq off lo n; rw [h]
@[simp] theorem Dev.count_log (off lo n : Nat) : (d.count off lo n).log = d.log := by
  obtain ⟨m, h⟩ := d.count_eq off lo n; rw [h]
@[simp] theorem Dev.count_streamCks (off lo n : Nat) : (d.count off lo n).streamCks = d.streamCks := by
  obtain ⟨m, h⟩ := d.count_eq off lo n; rw [h]
@[simp] theorem Dev.count_coreCks (off lo n : Nat) : (d.count off lo n).coreCks = d.coreCks := by
  obtain ⟨m, h⟩ := d.count_eq off lo n; rw [h]
@[simp] theorem Dev.count_gov (off lo n : Nat) : (d.count off lo n).gov = d.gov := by
  obtain ⟨m, h⟩ := d.count_eq off lo n; rw [h]
@[simp] theorem Dev.count_flr (off lo n : Nat) : (d.count off lo n).flr = d.flr := by
  obtain ⟨m, h⟩ := d.count_eq off lo n; rw [h]
@[simp] theorem Dev.count_free (off lo n : Nat) : (d.count off lo n).free = d.free := by
  obtain ⟨m, h⟩ := d.count_eq off lo n; rw [h]
@[simp] theorem Dev.count_holds (off lo n : Nat) : (d.count off lo n).holds = d.holds := by
  obtain ⟨m, h⟩ := d.count_eq off lo n; rw [h]

/-! `Dev.supersede` changes well, log, rings, out, err, msix, provs alone. -/

@[simp] theorem Dev.supersede_kindle (p : Prov) (code : Nat) : (d.supersede p code).kindle = d.kindle := by
  unfold Dev.supersede; simp
@[simp] theorem Dev.supersede_trust (p : Prov) (code : Nat) : (d.supersede p code).trust = d.trust := by
  unfold Dev.supersede; simp
@[simp] theorem Dev.supersede_tb (p : Prov) (code : Nat) : (d.supersede p code).tb = d.tb := by
  unfold Dev.supersede; simp
@[simp] theorem Dev.supersede_regs (p : Prov) (code : Nat) : (d.supersede p code).regs = d.regs := by
  unfold Dev.supersede; simp
@[simp] theorem Dev.supersede_shadow (p : Prov) (code : Nat) : (d.supersede p code).shadow = d.shadow := by
  unfold Dev.supersede; simp
@[simp] theorem Dev.supersede_staged (p : Prov) (code : Nat) : (d.supersede p code).staged = d.staged := by
  unfold Dev.supersede; simp
@[simp] theorem Dev.supersede_cntNow (p : Prov) (code : Nat) : (d.supersede p code).cntNow = d.cntNow := by
  unfold Dev.supersede; simp
@[simp] theorem Dev.supersede_cntLr (p : Prov) (code : Nat) : (d.supersede p code).cntLr = d.cntLr := by
  unfold Dev.supersede; simp
@[simp] theorem Dev.supersede_cores (p : Prov) (code : Nat) : (d.supersede p code).cores = d.cores := by
  unfold Dev.supersede; simp
@[simp] theorem Dev.supersede_slices (p : Prov) (code : Nat) : (d.supersede p code).slices = d.slices := by
  unfold Dev.supersede; simp
@[simp] theorem Dev.supersede_deep (p : Prov) (code : Nat) : (d.supersede p code).deep = d.deep := by
  unfold Dev.supersede; simp
@[simp] theorem Dev.supersede_poolUse (p : Prov) (code : Nat) : (d.supersede p code).poolUse = d.poolUse := by
  unfold Dev.supersede; simp
@[simp] theorem Dev.supersede_zeroing (p : Prov) (code : Nat) : (d.supersede p code).zeroing = d.zeroing := by
  unfold Dev.supersede; simp
@[simp] theorem Dev.supersede_jobs (p : Prov) (code : Nat) : (d.supersede p code).jobs = d.jobs := by
  unfold Dev.supersede; simp
@[simp] theorem Dev.supersede_cmds (p : Prov) (code : Nat) : (d.supersede p code).cmds = d.cmds := by
  unfold Dev.supersede; simp
@[simp] theorem Dev.supersede_streams (p : Prov) (code : Nat) : (d.supersede p code).streams = d.streams := by
  unfold Dev.supersede; simp
@[simp] theorem Dev.supersede_seqs (p : Prov) (code : Nat) : (d.supersede p code).seqs = d.seqs := by
  unfold Dev.supersede; simp
@[simp] theorem Dev.supersede_moves (p : Prov) (code : Nat) : (d.supersede p code).moves = d.moves := by
  unfold Dev.supersede; simp
@[simp] theorem Dev.supersede_freed (p : Prov) (code : Nat) : (d.supersede p code).freed = d.freed := by
  unfold Dev.supersede; simp
@[simp] theorem Dev.supersede_cross (p : Prov) (code : Nat) : (d.supersede p code).cross = d.cross := by
  unfold Dev.supersede; simp
@[simp] theorem Dev.supersede_shipIn (p : Prov) (code : Nat) : (d.supersede p code).shipIn = d.shipIn := by
  unfold Dev.supersede; simp
@[simp] theorem Dev.supersede_dones (p : Prov) (code : Nat) : (d.supersede p code).dones = d.dones := by
  unfold Dev.supersede; simp
@[simp] theorem Dev.supersede_bound (p : Prov) (code : Nat) : (d.supersede p code).bound = d.bound := by
  unfold Dev.supersede; simp
@[simp] theorem Dev.supersede_targets (p : Prov) (code : Nat) : (d.supersede p code).targets = d.targets := by
  unfold Dev.supersede; simp
@[simp] theorem Dev.supersede_samples (p : Prov) (code : Nat) : (d.supersede p code).samples = d.samples := by
  unfold Dev.supersede; simp
@[simp] theorem Dev.supersede_ports (p : Prov) (code : Nat) : (d.supersede p code).ports = d.ports := by
  unfold Dev.supersede; simp
@[simp] theorem Dev.supersede_links (p : Prov) (code : Nat) : (d.supersede p code).links = d.links := by
  unfold Dev.supersede; simp
@[simp] theorem Dev.supersede_fabric (p : Prov) (code : Nat) : (d.supersede p code).fabric = d.fabric := by
  unfold Dev.supersede; simp
@[simp] theorem Dev.supersede_mirror (p : Prov) (code : Nat) : (d.supersede p code).mirror = d.mirror := by
  unfold Dev.supersede; simp
@[simp] theorem Dev.supersede_streamCks (p : Prov) (code : Nat) : (d.supersede p code).streamCks = d.streamCks := by
  unfold Dev.supersede; simp
@[simp] theorem Dev.supersede_coreCks (p : Prov) (code : Nat) : (d.supersede p code).coreCks = d.coreCks := by
  unfold Dev.supersede; simp
@[simp] theorem Dev.supersede_gov (p : Prov) (code : Nat) : (d.supersede p code).gov = d.gov := by
  unfold Dev.supersede; simp
@[simp] theorem Dev.supersede_flr (p : Prov) (code : Nat) : (d.supersede p code).flr = d.flr := by
  unfold Dev.supersede; simp
@[simp] theorem Dev.supersede_free (p : Prov) (code : Nat) : (d.supersede p code).free = d.free := by
  unfold Dev.supersede; simp
@[simp] theorem Dev.supersede_holds (p : Prov) (code : Nat) : (d.supersede p code).holds = d.holds := by
  unfold Dev.supersede; simp

/-! `Dev.supersedeItem` changes well, log, rings, out, err, msix, provs alone. -/

@[simp] theorem Dev.supersedeItem_kindle (k : Nat) (i : Item) (code : Nat) : (d.supersedeItem k i code).kindle = d.kindle := by
  exact foldl_proj (fun x : Dev => x.kindle) _ _ d (fun b p _ => by simp)
@[simp] theorem Dev.supersedeItem_trust (k : Nat) (i : Item) (code : Nat) : (d.supersedeItem k i code).trust = d.trust := by
  exact foldl_proj (fun x : Dev => x.trust) _ _ d (fun b p _ => by simp)
@[simp] theorem Dev.supersedeItem_tb (k : Nat) (i : Item) (code : Nat) : (d.supersedeItem k i code).tb = d.tb := by
  exact foldl_proj (fun x : Dev => x.tb) _ _ d (fun b p _ => by simp)
@[simp] theorem Dev.supersedeItem_regs (k : Nat) (i : Item) (code : Nat) : (d.supersedeItem k i code).regs = d.regs := by
  exact foldl_proj (fun x : Dev => x.regs) _ _ d (fun b p _ => by simp)
@[simp] theorem Dev.supersedeItem_shadow (k : Nat) (i : Item) (code : Nat) : (d.supersedeItem k i code).shadow = d.shadow := by
  exact foldl_proj (fun x : Dev => x.shadow) _ _ d (fun b p _ => by simp)
@[simp] theorem Dev.supersedeItem_staged (k : Nat) (i : Item) (code : Nat) : (d.supersedeItem k i code).staged = d.staged := by
  exact foldl_proj (fun x : Dev => x.staged) _ _ d (fun b p _ => by simp)
@[simp] theorem Dev.supersedeItem_cntNow (k : Nat) (i : Item) (code : Nat) : (d.supersedeItem k i code).cntNow = d.cntNow := by
  exact foldl_proj (fun x : Dev => x.cntNow) _ _ d (fun b p _ => by simp)
@[simp] theorem Dev.supersedeItem_cntLr (k : Nat) (i : Item) (code : Nat) : (d.supersedeItem k i code).cntLr = d.cntLr := by
  exact foldl_proj (fun x : Dev => x.cntLr) _ _ d (fun b p _ => by simp)
@[simp] theorem Dev.supersedeItem_cores (k : Nat) (i : Item) (code : Nat) : (d.supersedeItem k i code).cores = d.cores := by
  exact foldl_proj (fun x : Dev => x.cores) _ _ d (fun b p _ => by simp)
@[simp] theorem Dev.supersedeItem_slices (k : Nat) (i : Item) (code : Nat) : (d.supersedeItem k i code).slices = d.slices := by
  exact foldl_proj (fun x : Dev => x.slices) _ _ d (fun b p _ => by simp)
@[simp] theorem Dev.supersedeItem_deep (k : Nat) (i : Item) (code : Nat) : (d.supersedeItem k i code).deep = d.deep := by
  exact foldl_proj (fun x : Dev => x.deep) _ _ d (fun b p _ => by simp)
@[simp] theorem Dev.supersedeItem_poolUse (k : Nat) (i : Item) (code : Nat) : (d.supersedeItem k i code).poolUse = d.poolUse := by
  exact foldl_proj (fun x : Dev => x.poolUse) _ _ d (fun b p _ => by simp)
@[simp] theorem Dev.supersedeItem_zeroing (k : Nat) (i : Item) (code : Nat) : (d.supersedeItem k i code).zeroing = d.zeroing := by
  exact foldl_proj (fun x : Dev => x.zeroing) _ _ d (fun b p _ => by simp)
@[simp] theorem Dev.supersedeItem_jobs (k : Nat) (i : Item) (code : Nat) : (d.supersedeItem k i code).jobs = d.jobs := by
  exact foldl_proj (fun x : Dev => x.jobs) _ _ d (fun b p _ => by simp)
@[simp] theorem Dev.supersedeItem_cmds (k : Nat) (i : Item) (code : Nat) : (d.supersedeItem k i code).cmds = d.cmds := by
  exact foldl_proj (fun x : Dev => x.cmds) _ _ d (fun b p _ => by simp)
@[simp] theorem Dev.supersedeItem_streams (k : Nat) (i : Item) (code : Nat) : (d.supersedeItem k i code).streams = d.streams := by
  exact foldl_proj (fun x : Dev => x.streams) _ _ d (fun b p _ => by simp)
@[simp] theorem Dev.supersedeItem_seqs (k : Nat) (i : Item) (code : Nat) : (d.supersedeItem k i code).seqs = d.seqs := by
  exact foldl_proj (fun x : Dev => x.seqs) _ _ d (fun b p _ => by simp)
@[simp] theorem Dev.supersedeItem_moves (k : Nat) (i : Item) (code : Nat) : (d.supersedeItem k i code).moves = d.moves := by
  exact foldl_proj (fun x : Dev => x.moves) _ _ d (fun b p _ => by simp)
@[simp] theorem Dev.supersedeItem_freed (k : Nat) (i : Item) (code : Nat) : (d.supersedeItem k i code).freed = d.freed := by
  exact foldl_proj (fun x : Dev => x.freed) _ _ d (fun b p _ => by simp)
@[simp] theorem Dev.supersedeItem_cross (k : Nat) (i : Item) (code : Nat) : (d.supersedeItem k i code).cross = d.cross := by
  exact foldl_proj (fun x : Dev => x.cross) _ _ d (fun b p _ => by simp)
@[simp] theorem Dev.supersedeItem_shipIn (k : Nat) (i : Item) (code : Nat) : (d.supersedeItem k i code).shipIn = d.shipIn := by
  exact foldl_proj (fun x : Dev => x.shipIn) _ _ d (fun b p _ => by simp)
@[simp] theorem Dev.supersedeItem_dones (k : Nat) (i : Item) (code : Nat) : (d.supersedeItem k i code).dones = d.dones := by
  exact foldl_proj (fun x : Dev => x.dones) _ _ d (fun b p _ => by simp)
@[simp] theorem Dev.supersedeItem_bound (k : Nat) (i : Item) (code : Nat) : (d.supersedeItem k i code).bound = d.bound := by
  exact foldl_proj (fun x : Dev => x.bound) _ _ d (fun b p _ => by simp)
@[simp] theorem Dev.supersedeItem_targets (k : Nat) (i : Item) (code : Nat) : (d.supersedeItem k i code).targets = d.targets := by
  exact foldl_proj (fun x : Dev => x.targets) _ _ d (fun b p _ => by simp)
@[simp] theorem Dev.supersedeItem_samples (k : Nat) (i : Item) (code : Nat) : (d.supersedeItem k i code).samples = d.samples := by
  exact foldl_proj (fun x : Dev => x.samples) _ _ d (fun b p _ => by simp)
@[simp] theorem Dev.supersedeItem_ports (k : Nat) (i : Item) (code : Nat) : (d.supersedeItem k i code).ports = d.ports := by
  exact foldl_proj (fun x : Dev => x.ports) _ _ d (fun b p _ => by simp)
@[simp] theorem Dev.supersedeItem_links (k : Nat) (i : Item) (code : Nat) : (d.supersedeItem k i code).links = d.links := by
  exact foldl_proj (fun x : Dev => x.links) _ _ d (fun b p _ => by simp)
@[simp] theorem Dev.supersedeItem_fabric (k : Nat) (i : Item) (code : Nat) : (d.supersedeItem k i code).fabric = d.fabric := by
  exact foldl_proj (fun x : Dev => x.fabric) _ _ d (fun b p _ => by simp)
@[simp] theorem Dev.supersedeItem_mirror (k : Nat) (i : Item) (code : Nat) : (d.supersedeItem k i code).mirror = d.mirror := by
  exact foldl_proj (fun x : Dev => x.mirror) _ _ d (fun b p _ => by simp)
@[simp] theorem Dev.supersedeItem_streamCks (k : Nat) (i : Item) (code : Nat) : (d.supersedeItem k i code).streamCks = d.streamCks := by
  exact foldl_proj (fun x : Dev => x.streamCks) _ _ d (fun b p _ => by simp)
@[simp] theorem Dev.supersedeItem_coreCks (k : Nat) (i : Item) (code : Nat) : (d.supersedeItem k i code).coreCks = d.coreCks := by
  exact foldl_proj (fun x : Dev => x.coreCks) _ _ d (fun b p _ => by simp)
@[simp] theorem Dev.supersedeItem_gov (k : Nat) (i : Item) (code : Nat) : (d.supersedeItem k i code).gov = d.gov := by
  exact foldl_proj (fun x : Dev => x.gov) _ _ d (fun b p _ => by simp)
@[simp] theorem Dev.supersedeItem_flr (k : Nat) (i : Item) (code : Nat) : (d.supersedeItem k i code).flr = d.flr := by
  exact foldl_proj (fun x : Dev => x.flr) _ _ d (fun b p _ => by simp)
@[simp] theorem Dev.supersedeItem_free (k : Nat) (i : Item) (code : Nat) : (d.supersedeItem k i code).free = d.free := by
  exact foldl_proj (fun x : Dev => x.free) _ _ d (fun b p _ => by simp)
@[simp] theorem Dev.supersedeItem_holds (k : Nat) (i : Item) (code : Nat) : (d.supersedeItem k i code).holds = d.holds := by
  exact foldl_proj (fun x : Dev => x.holds) _ _ d (fun b p _ => by simp)

/-! `Dev.endItem` changes well, log, rings, out, err, msix, provs, streams, samples alone. -/

@[simp] theorem Dev.endItem_kindle (k : Nat) (i : Item) (st code : Nat) : (d.endItem k i st code).kindle = d.kindle := by
  unfold Dev.endItem; simp
@[simp] theorem Dev.endItem_trust (k : Nat) (i : Item) (st code : Nat) : (d.endItem k i st code).trust = d.trust := by
  unfold Dev.endItem; simp
@[simp] theorem Dev.endItem_tb (k : Nat) (i : Item) (st code : Nat) : (d.endItem k i st code).tb = d.tb := by
  unfold Dev.endItem; simp
@[simp] theorem Dev.endItem_regs (k : Nat) (i : Item) (st code : Nat) : (d.endItem k i st code).regs = d.regs := by
  unfold Dev.endItem; simp
@[simp] theorem Dev.endItem_shadow (k : Nat) (i : Item) (st code : Nat) : (d.endItem k i st code).shadow = d.shadow := by
  unfold Dev.endItem; simp
@[simp] theorem Dev.endItem_staged (k : Nat) (i : Item) (st code : Nat) : (d.endItem k i st code).staged = d.staged := by
  unfold Dev.endItem; simp
@[simp] theorem Dev.endItem_cntNow (k : Nat) (i : Item) (st code : Nat) : (d.endItem k i st code).cntNow = d.cntNow := by
  unfold Dev.endItem; simp
@[simp] theorem Dev.endItem_cntLr (k : Nat) (i : Item) (st code : Nat) : (d.endItem k i st code).cntLr = d.cntLr := by
  unfold Dev.endItem; simp
@[simp] theorem Dev.endItem_cores (k : Nat) (i : Item) (st code : Nat) : (d.endItem k i st code).cores = d.cores := by
  unfold Dev.endItem; simp
@[simp] theorem Dev.endItem_slices (k : Nat) (i : Item) (st code : Nat) : (d.endItem k i st code).slices = d.slices := by
  unfold Dev.endItem; simp
@[simp] theorem Dev.endItem_deep (k : Nat) (i : Item) (st code : Nat) : (d.endItem k i st code).deep = d.deep := by
  unfold Dev.endItem; simp
@[simp] theorem Dev.endItem_poolUse (k : Nat) (i : Item) (st code : Nat) : (d.endItem k i st code).poolUse = d.poolUse := by
  unfold Dev.endItem; simp
@[simp] theorem Dev.endItem_zeroing (k : Nat) (i : Item) (st code : Nat) : (d.endItem k i st code).zeroing = d.zeroing := by
  unfold Dev.endItem; simp
@[simp] theorem Dev.endItem_jobs (k : Nat) (i : Item) (st code : Nat) : (d.endItem k i st code).jobs = d.jobs := by
  unfold Dev.endItem; simp
@[simp] theorem Dev.endItem_cmds (k : Nat) (i : Item) (st code : Nat) : (d.endItem k i st code).cmds = d.cmds := by
  unfold Dev.endItem; simp
@[simp] theorem Dev.endItem_seqs (k : Nat) (i : Item) (st code : Nat) : (d.endItem k i st code).seqs = d.seqs := by
  unfold Dev.endItem; simp
@[simp] theorem Dev.endItem_moves (k : Nat) (i : Item) (st code : Nat) : (d.endItem k i st code).moves = d.moves := by
  unfold Dev.endItem; simp
@[simp] theorem Dev.endItem_freed (k : Nat) (i : Item) (st code : Nat) : (d.endItem k i st code).freed = d.freed := by
  unfold Dev.endItem; simp
@[simp] theorem Dev.endItem_cross (k : Nat) (i : Item) (st code : Nat) : (d.endItem k i st code).cross = d.cross := by
  unfold Dev.endItem; simp
@[simp] theorem Dev.endItem_shipIn (k : Nat) (i : Item) (st code : Nat) : (d.endItem k i st code).shipIn = d.shipIn := by
  unfold Dev.endItem; simp
@[simp] theorem Dev.endItem_dones (k : Nat) (i : Item) (st code : Nat) : (d.endItem k i st code).dones = d.dones := by
  unfold Dev.endItem; simp
@[simp] theorem Dev.endItem_bound (k : Nat) (i : Item) (st code : Nat) : (d.endItem k i st code).bound = d.bound := by
  unfold Dev.endItem; simp
@[simp] theorem Dev.endItem_targets (k : Nat) (i : Item) (st code : Nat) : (d.endItem k i st code).targets = d.targets := by
  unfold Dev.endItem; simp
@[simp] theorem Dev.endItem_ports (k : Nat) (i : Item) (st code : Nat) : (d.endItem k i st code).ports = d.ports := by
  unfold Dev.endItem; simp
@[simp] theorem Dev.endItem_links (k : Nat) (i : Item) (st code : Nat) : (d.endItem k i st code).links = d.links := by
  unfold Dev.endItem; simp
@[simp] theorem Dev.endItem_fabric (k : Nat) (i : Item) (st code : Nat) : (d.endItem k i st code).fabric = d.fabric := by
  unfold Dev.endItem; simp
@[simp] theorem Dev.endItem_mirror (k : Nat) (i : Item) (st code : Nat) : (d.endItem k i st code).mirror = d.mirror := by
  unfold Dev.endItem; simp
@[simp] theorem Dev.endItem_streamCks (k : Nat) (i : Item) (st code : Nat) : (d.endItem k i st code).streamCks = d.streamCks := by
  unfold Dev.endItem; simp
@[simp] theorem Dev.endItem_coreCks (k : Nat) (i : Item) (st code : Nat) : (d.endItem k i st code).coreCks = d.coreCks := by
  unfold Dev.endItem; simp
@[simp] theorem Dev.endItem_gov (k : Nat) (i : Item) (st code : Nat) : (d.endItem k i st code).gov = d.gov := by
  unfold Dev.endItem; simp
@[simp] theorem Dev.endItem_flr (k : Nat) (i : Item) (st code : Nat) : (d.endItem k i st code).flr = d.flr := by
  unfold Dev.endItem; simp
@[simp] theorem Dev.endItem_free (k : Nat) (i : Item) (st code : Nat) : (d.endItem k i st code).free = d.free := by
  unfold Dev.endItem; simp
@[simp] theorem Dev.endItem_holds (k : Nat) (i : Item) (st code : Nat) : (d.endItem k i st code).holds = d.holds := by
  unfold Dev.endItem; simp

/-! `Dev.cancelItems` changes well, log, rings, out, err, msix, provs, streams, samples alone. -/

@[simp] theorem Dev.cancelItems_kindle (k : Nat) : (d.cancelItems k).kindle = d.kindle := by
  exact foldl_proj (fun x : Dev => x.kindle) _ _ d (fun b i _ => by simp)
@[simp] theorem Dev.cancelItems_trust (k : Nat) : (d.cancelItems k).trust = d.trust := by
  exact foldl_proj (fun x : Dev => x.trust) _ _ d (fun b i _ => by simp)
@[simp] theorem Dev.cancelItems_tb (k : Nat) : (d.cancelItems k).tb = d.tb := by
  exact foldl_proj (fun x : Dev => x.tb) _ _ d (fun b i _ => by simp)
@[simp] theorem Dev.cancelItems_regs (k : Nat) : (d.cancelItems k).regs = d.regs := by
  exact foldl_proj (fun x : Dev => x.regs) _ _ d (fun b i _ => by simp)
@[simp] theorem Dev.cancelItems_shadow (k : Nat) : (d.cancelItems k).shadow = d.shadow := by
  exact foldl_proj (fun x : Dev => x.shadow) _ _ d (fun b i _ => by simp)
@[simp] theorem Dev.cancelItems_staged (k : Nat) : (d.cancelItems k).staged = d.staged := by
  exact foldl_proj (fun x : Dev => x.staged) _ _ d (fun b i _ => by simp)
@[simp] theorem Dev.cancelItems_cntNow (k : Nat) : (d.cancelItems k).cntNow = d.cntNow := by
  exact foldl_proj (fun x : Dev => x.cntNow) _ _ d (fun b i _ => by simp)
@[simp] theorem Dev.cancelItems_cntLr (k : Nat) : (d.cancelItems k).cntLr = d.cntLr := by
  exact foldl_proj (fun x : Dev => x.cntLr) _ _ d (fun b i _ => by simp)
@[simp] theorem Dev.cancelItems_cores (k : Nat) : (d.cancelItems k).cores = d.cores := by
  exact foldl_proj (fun x : Dev => x.cores) _ _ d (fun b i _ => by simp)
@[simp] theorem Dev.cancelItems_slices (k : Nat) : (d.cancelItems k).slices = d.slices := by
  exact foldl_proj (fun x : Dev => x.slices) _ _ d (fun b i _ => by simp)
@[simp] theorem Dev.cancelItems_deep (k : Nat) : (d.cancelItems k).deep = d.deep := by
  exact foldl_proj (fun x : Dev => x.deep) _ _ d (fun b i _ => by simp)
@[simp] theorem Dev.cancelItems_poolUse (k : Nat) : (d.cancelItems k).poolUse = d.poolUse := by
  exact foldl_proj (fun x : Dev => x.poolUse) _ _ d (fun b i _ => by simp)
@[simp] theorem Dev.cancelItems_zeroing (k : Nat) : (d.cancelItems k).zeroing = d.zeroing := by
  exact foldl_proj (fun x : Dev => x.zeroing) _ _ d (fun b i _ => by simp)
@[simp] theorem Dev.cancelItems_jobs (k : Nat) : (d.cancelItems k).jobs = d.jobs := by
  exact foldl_proj (fun x : Dev => x.jobs) _ _ d (fun b i _ => by simp)
@[simp] theorem Dev.cancelItems_cmds (k : Nat) : (d.cancelItems k).cmds = d.cmds := by
  exact foldl_proj (fun x : Dev => x.cmds) _ _ d (fun b i _ => by simp)
@[simp] theorem Dev.cancelItems_seqs (k : Nat) : (d.cancelItems k).seqs = d.seqs := by
  exact foldl_proj (fun x : Dev => x.seqs) _ _ d (fun b i _ => by simp)
@[simp] theorem Dev.cancelItems_moves (k : Nat) : (d.cancelItems k).moves = d.moves := by
  exact foldl_proj (fun x : Dev => x.moves) _ _ d (fun b i _ => by simp)
@[simp] theorem Dev.cancelItems_freed (k : Nat) : (d.cancelItems k).freed = d.freed := by
  exact foldl_proj (fun x : Dev => x.freed) _ _ d (fun b i _ => by simp)
@[simp] theorem Dev.cancelItems_cross (k : Nat) : (d.cancelItems k).cross = d.cross := by
  exact foldl_proj (fun x : Dev => x.cross) _ _ d (fun b i _ => by simp)
@[simp] theorem Dev.cancelItems_shipIn (k : Nat) : (d.cancelItems k).shipIn = d.shipIn := by
  exact foldl_proj (fun x : Dev => x.shipIn) _ _ d (fun b i _ => by simp)
@[simp] theorem Dev.cancelItems_dones (k : Nat) : (d.cancelItems k).dones = d.dones := by
  exact foldl_proj (fun x : Dev => x.dones) _ _ d (fun b i _ => by simp)
@[simp] theorem Dev.cancelItems_bound (k : Nat) : (d.cancelItems k).bound = d.bound := by
  exact foldl_proj (fun x : Dev => x.bound) _ _ d (fun b i _ => by simp)
@[simp] theorem Dev.cancelItems_targets (k : Nat) : (d.cancelItems k).targets = d.targets := by
  exact foldl_proj (fun x : Dev => x.targets) _ _ d (fun b i _ => by simp)
@[simp] theorem Dev.cancelItems_ports (k : Nat) : (d.cancelItems k).ports = d.ports := by
  exact foldl_proj (fun x : Dev => x.ports) _ _ d (fun b i _ => by simp)
@[simp] theorem Dev.cancelItems_links (k : Nat) : (d.cancelItems k).links = d.links := by
  exact foldl_proj (fun x : Dev => x.links) _ _ d (fun b i _ => by simp)
@[simp] theorem Dev.cancelItems_fabric (k : Nat) : (d.cancelItems k).fabric = d.fabric := by
  exact foldl_proj (fun x : Dev => x.fabric) _ _ d (fun b i _ => by simp)
@[simp] theorem Dev.cancelItems_mirror (k : Nat) : (d.cancelItems k).mirror = d.mirror := by
  exact foldl_proj (fun x : Dev => x.mirror) _ _ d (fun b i _ => by simp)
@[simp] theorem Dev.cancelItems_streamCks (k : Nat) : (d.cancelItems k).streamCks = d.streamCks := by
  exact foldl_proj (fun x : Dev => x.streamCks) _ _ d (fun b i _ => by simp)
@[simp] theorem Dev.cancelItems_coreCks (k : Nat) : (d.cancelItems k).coreCks = d.coreCks := by
  exact foldl_proj (fun x : Dev => x.coreCks) _ _ d (fun b i _ => by simp)
@[simp] theorem Dev.cancelItems_gov (k : Nat) : (d.cancelItems k).gov = d.gov := by
  exact foldl_proj (fun x : Dev => x.gov) _ _ d (fun b i _ => by simp)
@[simp] theorem Dev.cancelItems_flr (k : Nat) : (d.cancelItems k).flr = d.flr := by
  exact foldl_proj (fun x : Dev => x.flr) _ _ d (fun b i _ => by simp)
@[simp] theorem Dev.cancelItems_free (k : Nat) : (d.cancelItems k).free = d.free := by
  exact foldl_proj (fun x : Dev => x.free) _ _ d (fun b i _ => by simp)
@[simp] theorem Dev.cancelItems_holds (k : Nat) : (d.cancelItems k).holds = d.holds := by
  exact foldl_proj (fun x : Dev => x.holds) _ _ d (fun b i _ => by simp)

/-! `Dev.dropStream` changes streams, seqs, moves alone. -/

@[simp] theorem Dev.dropStream_kindle (k : Nat) (f : Stream → Stream) : (d.dropStream k f).kindle = d.kindle := rfl
@[simp] theorem Dev.dropStream_trust (k : Nat) (f : Stream → Stream) : (d.dropStream k f).trust = d.trust := rfl
@[simp] theorem Dev.dropStream_tb (k : Nat) (f : Stream → Stream) : (d.dropStream k f).tb = d.tb := rfl
@[simp] theorem Dev.dropStream_regs (k : Nat) (f : Stream → Stream) : (d.dropStream k f).regs = d.regs := rfl
@[simp] theorem Dev.dropStream_shadow (k : Nat) (f : Stream → Stream) : (d.dropStream k f).shadow = d.shadow := rfl
@[simp] theorem Dev.dropStream_staged (k : Nat) (f : Stream → Stream) : (d.dropStream k f).staged = d.staged := rfl
@[simp] theorem Dev.dropStream_cntNow (k : Nat) (f : Stream → Stream) : (d.dropStream k f).cntNow = d.cntNow := rfl
@[simp] theorem Dev.dropStream_cntLr (k : Nat) (f : Stream → Stream) : (d.dropStream k f).cntLr = d.cntLr := rfl
@[simp] theorem Dev.dropStream_cores (k : Nat) (f : Stream → Stream) : (d.dropStream k f).cores = d.cores := rfl
@[simp] theorem Dev.dropStream_slices (k : Nat) (f : Stream → Stream) : (d.dropStream k f).slices = d.slices := rfl
@[simp] theorem Dev.dropStream_well (k : Nat) (f : Stream → Stream) : (d.dropStream k f).well = d.well := rfl
@[simp] theorem Dev.dropStream_deep (k : Nat) (f : Stream → Stream) : (d.dropStream k f).deep = d.deep := rfl
@[simp] theorem Dev.dropStream_poolUse (k : Nat) (f : Stream → Stream) : (d.dropStream k f).poolUse = d.poolUse := rfl
@[simp] theorem Dev.dropStream_zeroing (k : Nat) (f : Stream → Stream) : (d.dropStream k f).zeroing = d.zeroing := rfl
@[simp] theorem Dev.dropStream_jobs (k : Nat) (f : Stream → Stream) : (d.dropStream k f).jobs = d.jobs := rfl
@[simp] theorem Dev.dropStream_cmds (k : Nat) (f : Stream → Stream) : (d.dropStream k f).cmds = d.cmds := rfl
@[simp] theorem Dev.dropStream_freed (k : Nat) (f : Stream → Stream) : (d.dropStream k f).freed = d.freed := rfl
@[simp] theorem Dev.dropStream_cross (k : Nat) (f : Stream → Stream) : (d.dropStream k f).cross = d.cross := rfl
@[simp] theorem Dev.dropStream_shipIn (k : Nat) (f : Stream → Stream) : (d.dropStream k f).shipIn = d.shipIn := rfl
@[simp] theorem Dev.dropStream_rings (k : Nat) (f : Stream → Stream) : (d.dropStream k f).rings = d.rings := rfl
@[simp] theorem Dev.dropStream_out (k : Nat) (f : Stream → Stream) : (d.dropStream k f).out = d.out := rfl
@[simp] theorem Dev.dropStream_msix (k : Nat) (f : Stream → Stream) : (d.dropStream k f).msix = d.msix := rfl
@[simp] theorem Dev.dropStream_dones (k : Nat) (f : Stream → Stream) : (d.dropStream k f).dones = d.dones := rfl
@[simp] theorem Dev.dropStream_provs (k : Nat) (f : Stream → Stream) : (d.dropStream k f).provs = d.provs := rfl
@[simp] theorem Dev.dropStream_bound (k : Nat) (f : Stream → Stream) : (d.dropStream k f).bound = d.bound := rfl
@[simp] theorem Dev.dropStream_targets (k : Nat) (f : Stream → Stream) : (d.dropStream k f).targets = d.targets := rfl
@[simp] theorem Dev.dropStream_samples (k : Nat) (f : Stream → Stream) : (d.dropStream k f).samples = d.samples := rfl
@[simp] theorem Dev.dropStream_ports (k : Nat) (f : Stream → Stream) : (d.dropStream k f).ports = d.ports := rfl
@[simp] theorem Dev.dropStream_links (k : Nat) (f : Stream → Stream) : (d.dropStream k f).links = d.links := rfl
@[simp] theorem Dev.dropStream_fabric (k : Nat) (f : Stream → Stream) : (d.dropStream k f).fabric = d.fabric := rfl
@[simp] theorem Dev.dropStream_mirror (k : Nat) (f : Stream → Stream) : (d.dropStream k f).mirror = d.mirror := rfl
@[simp] theorem Dev.dropStream_err (k : Nat) (f : Stream → Stream) : (d.dropStream k f).err = d.err := rfl
@[simp] theorem Dev.dropStream_log (k : Nat) (f : Stream → Stream) : (d.dropStream k f).log = d.log := rfl
@[simp] theorem Dev.dropStream_streamCks (k : Nat) (f : Stream → Stream) : (d.dropStream k f).streamCks = d.streamCks := rfl
@[simp] theorem Dev.dropStream_coreCks (k : Nat) (f : Stream → Stream) : (d.dropStream k f).coreCks = d.coreCks := rfl
@[simp] theorem Dev.dropStream_gov (k : Nat) (f : Stream → Stream) : (d.dropStream k f).gov = d.gov := rfl
@[simp] theorem Dev.dropStream_flr (k : Nat) (f : Stream → Stream) : (d.dropStream k f).flr = d.flr := rfl
@[simp] theorem Dev.dropStream_free (k : Nat) (f : Stream → Stream) : (d.dropStream k f).free = d.free := rfl
@[simp] theorem Dev.dropStream_holds (k : Nat) (f : Stream → Stream) : (d.dropStream k f).holds = d.holds := rfl

/-! `Dev.freeStream` changes streams, seqs, moves alone. -/

@[simp] theorem Dev.freeStream_kindle (k : Nat) : (d.freeStream k).kindle = d.kindle := rfl
@[simp] theorem Dev.freeStream_trust (k : Nat) : (d.freeStream k).trust = d.trust := rfl
@[simp] theorem Dev.freeStream_tb (k : Nat) : (d.freeStream k).tb = d.tb := rfl
@[simp] theorem Dev.freeStream_regs (k : Nat) : (d.freeStream k).regs = d.regs := rfl
@[simp] theorem Dev.freeStream_shadow (k : Nat) : (d.freeStream k).shadow = d.shadow := rfl
@[simp] theorem Dev.freeStream_staged (k : Nat) : (d.freeStream k).staged = d.staged := rfl
@[simp] theorem Dev.freeStream_cntNow (k : Nat) : (d.freeStream k).cntNow = d.cntNow := rfl
@[simp] theorem Dev.freeStream_cntLr (k : Nat) : (d.freeStream k).cntLr = d.cntLr := rfl
@[simp] theorem Dev.freeStream_cores (k : Nat) : (d.freeStream k).cores = d.cores := rfl
@[simp] theorem Dev.freeStream_slices (k : Nat) : (d.freeStream k).slices = d.slices := rfl
@[simp] theorem Dev.freeStream_well (k : Nat) : (d.freeStream k).well = d.well := rfl
@[simp] theorem Dev.freeStream_deep (k : Nat) : (d.freeStream k).deep = d.deep := rfl
@[simp] theorem Dev.freeStream_poolUse (k : Nat) : (d.freeStream k).poolUse = d.poolUse := rfl
@[simp] theorem Dev.freeStream_zeroing (k : Nat) : (d.freeStream k).zeroing = d.zeroing := rfl
@[simp] theorem Dev.freeStream_jobs (k : Nat) : (d.freeStream k).jobs = d.jobs := rfl
@[simp] theorem Dev.freeStream_cmds (k : Nat) : (d.freeStream k).cmds = d.cmds := rfl
@[simp] theorem Dev.freeStream_freed (k : Nat) : (d.freeStream k).freed = d.freed := rfl
@[simp] theorem Dev.freeStream_cross (k : Nat) : (d.freeStream k).cross = d.cross := rfl
@[simp] theorem Dev.freeStream_shipIn (k : Nat) : (d.freeStream k).shipIn = d.shipIn := rfl
@[simp] theorem Dev.freeStream_rings (k : Nat) : (d.freeStream k).rings = d.rings := rfl
@[simp] theorem Dev.freeStream_out (k : Nat) : (d.freeStream k).out = d.out := rfl
@[simp] theorem Dev.freeStream_msix (k : Nat) : (d.freeStream k).msix = d.msix := rfl
@[simp] theorem Dev.freeStream_dones (k : Nat) : (d.freeStream k).dones = d.dones := rfl
@[simp] theorem Dev.freeStream_provs (k : Nat) : (d.freeStream k).provs = d.provs := rfl
@[simp] theorem Dev.freeStream_bound (k : Nat) : (d.freeStream k).bound = d.bound := rfl
@[simp] theorem Dev.freeStream_targets (k : Nat) : (d.freeStream k).targets = d.targets := rfl
@[simp] theorem Dev.freeStream_samples (k : Nat) : (d.freeStream k).samples = d.samples := rfl
@[simp] theorem Dev.freeStream_ports (k : Nat) : (d.freeStream k).ports = d.ports := rfl
@[simp] theorem Dev.freeStream_links (k : Nat) : (d.freeStream k).links = d.links := rfl
@[simp] theorem Dev.freeStream_fabric (k : Nat) : (d.freeStream k).fabric = d.fabric := rfl
@[simp] theorem Dev.freeStream_mirror (k : Nat) : (d.freeStream k).mirror = d.mirror := rfl
@[simp] theorem Dev.freeStream_err (k : Nat) : (d.freeStream k).err = d.err := rfl
@[simp] theorem Dev.freeStream_log (k : Nat) : (d.freeStream k).log = d.log := rfl
@[simp] theorem Dev.freeStream_streamCks (k : Nat) : (d.freeStream k).streamCks = d.streamCks := rfl
@[simp] theorem Dev.freeStream_coreCks (k : Nat) : (d.freeStream k).coreCks = d.coreCks := rfl
@[simp] theorem Dev.freeStream_gov (k : Nat) : (d.freeStream k).gov = d.gov := rfl
@[simp] theorem Dev.freeStream_flr (k : Nat) : (d.freeStream k).flr = d.flr := rfl
@[simp] theorem Dev.freeStream_free (k : Nat) : (d.freeStream k).free = d.free := rfl
@[simp] theorem Dev.freeStream_holds (k : Nat) : (d.freeStream k).holds = d.holds := rfl

/-! `Dev.endStream` changes well, log, rings, out, err, msix, streams, seqs, moves, freed alone. -/

@[simp] theorem Dev.endStream_kindle (k : Nat) : (d.endStream k).kindle = d.kindle := by
  unfold Dev.endStream; dsimp only; split <;> simp
@[simp] theorem Dev.endStream_trust (k : Nat) : (d.endStream k).trust = d.trust := by
  unfold Dev.endStream; dsimp only; split <;> simp
@[simp] theorem Dev.endStream_tb (k : Nat) : (d.endStream k).tb = d.tb := by
  unfold Dev.endStream; dsimp only; split <;> simp
@[simp] theorem Dev.endStream_regs (k : Nat) : (d.endStream k).regs = d.regs := by
  unfold Dev.endStream; dsimp only; split <;> simp
@[simp] theorem Dev.endStream_shadow (k : Nat) : (d.endStream k).shadow = d.shadow := by
  unfold Dev.endStream; dsimp only; split <;> simp
@[simp] theorem Dev.endStream_staged (k : Nat) : (d.endStream k).staged = d.staged := by
  unfold Dev.endStream; dsimp only; split <;> simp
@[simp] theorem Dev.endStream_cntNow (k : Nat) : (d.endStream k).cntNow = d.cntNow := by
  unfold Dev.endStream; dsimp only; split <;> simp
@[simp] theorem Dev.endStream_cntLr (k : Nat) : (d.endStream k).cntLr = d.cntLr := by
  unfold Dev.endStream; dsimp only; split <;> simp
@[simp] theorem Dev.endStream_cores (k : Nat) : (d.endStream k).cores = d.cores := by
  unfold Dev.endStream; dsimp only; split <;> simp
@[simp] theorem Dev.endStream_slices (k : Nat) : (d.endStream k).slices = d.slices := by
  unfold Dev.endStream; dsimp only; split <;> simp
@[simp] theorem Dev.endStream_deep (k : Nat) : (d.endStream k).deep = d.deep := by
  unfold Dev.endStream; dsimp only; split <;> simp
@[simp] theorem Dev.endStream_poolUse (k : Nat) : (d.endStream k).poolUse = d.poolUse := by
  unfold Dev.endStream; dsimp only; split <;> simp
@[simp] theorem Dev.endStream_zeroing (k : Nat) : (d.endStream k).zeroing = d.zeroing := by
  unfold Dev.endStream; dsimp only; split <;> simp
@[simp] theorem Dev.endStream_jobs (k : Nat) : (d.endStream k).jobs = d.jobs := by
  unfold Dev.endStream; dsimp only; split <;> simp
@[simp] theorem Dev.endStream_cmds (k : Nat) : (d.endStream k).cmds = d.cmds := by
  unfold Dev.endStream; dsimp only; split <;> simp
@[simp] theorem Dev.endStream_cross (k : Nat) : (d.endStream k).cross = d.cross := by
  unfold Dev.endStream; dsimp only; split <;> simp
@[simp] theorem Dev.endStream_shipIn (k : Nat) : (d.endStream k).shipIn = d.shipIn := by
  unfold Dev.endStream; dsimp only; split <;> simp
@[simp] theorem Dev.endStream_dones (k : Nat) : (d.endStream k).dones = d.dones := by
  unfold Dev.endStream; dsimp only; split <;> simp
@[simp] theorem Dev.endStream_provs (k : Nat) : (d.endStream k).provs = d.provs := by
  unfold Dev.endStream; dsimp only; split <;> simp
@[simp] theorem Dev.endStream_bound (k : Nat) : (d.endStream k).bound = d.bound := by
  unfold Dev.endStream; dsimp only; split <;> simp
@[simp] theorem Dev.endStream_targets (k : Nat) : (d.endStream k).targets = d.targets := by
  unfold Dev.endStream; dsimp only; split <;> simp
@[simp] theorem Dev.endStream_samples (k : Nat) : (d.endStream k).samples = d.samples := by
  unfold Dev.endStream; dsimp only; split <;> simp
@[simp] theorem Dev.endStream_ports (k : Nat) : (d.endStream k).ports = d.ports := by
  unfold Dev.endStream; dsimp only; split <;> simp
@[simp] theorem Dev.endStream_links (k : Nat) : (d.endStream k).links = d.links := by
  unfold Dev.endStream; dsimp only; split <;> simp
@[simp] theorem Dev.endStream_fabric (k : Nat) : (d.endStream k).fabric = d.fabric := by
  unfold Dev.endStream; dsimp only; split <;> simp
@[simp] theorem Dev.endStream_mirror (k : Nat) : (d.endStream k).mirror = d.mirror := by
  unfold Dev.endStream; dsimp only; split <;> simp
@[simp] theorem Dev.endStream_streamCks (k : Nat) : (d.endStream k).streamCks = d.streamCks := by
  unfold Dev.endStream; dsimp only; split <;> simp
@[simp] theorem Dev.endStream_coreCks (k : Nat) : (d.endStream k).coreCks = d.coreCks := by
  unfold Dev.endStream; dsimp only; split <;> simp
@[simp] theorem Dev.endStream_gov (k : Nat) : (d.endStream k).gov = d.gov := by
  unfold Dev.endStream; dsimp only; split <;> simp
@[simp] theorem Dev.endStream_flr (k : Nat) : (d.endStream k).flr = d.flr := by
  unfold Dev.endStream; dsimp only; split <;> simp
@[simp] theorem Dev.endStream_free (k : Nat) : (d.endStream k).free = d.free := by
  unfold Dev.endStream; dsimp only; split <;> simp
@[simp] theorem Dev.endStream_holds (k : Nat) : (d.endStream k).holds = d.holds := by
  unfold Dev.endStream; dsimp only; split <;> simp

/-! `Dev.unstage` changes staged alone. -/

@[simp] theorem Dev.unstage_kindle (j : Nat) : (d.unstage j).kindle = d.kindle := rfl
@[simp] theorem Dev.unstage_trust (j : Nat) : (d.unstage j).trust = d.trust := rfl
@[simp] theorem Dev.unstage_tb (j : Nat) : (d.unstage j).tb = d.tb := rfl
@[simp] theorem Dev.unstage_regs (j : Nat) : (d.unstage j).regs = d.regs := rfl
@[simp] theorem Dev.unstage_shadow (j : Nat) : (d.unstage j).shadow = d.shadow := rfl
@[simp] theorem Dev.unstage_cntNow (j : Nat) : (d.unstage j).cntNow = d.cntNow := rfl
@[simp] theorem Dev.unstage_cntLr (j : Nat) : (d.unstage j).cntLr = d.cntLr := rfl
@[simp] theorem Dev.unstage_cores (j : Nat) : (d.unstage j).cores = d.cores := rfl
@[simp] theorem Dev.unstage_slices (j : Nat) : (d.unstage j).slices = d.slices := rfl
@[simp] theorem Dev.unstage_well (j : Nat) : (d.unstage j).well = d.well := rfl
@[simp] theorem Dev.unstage_deep (j : Nat) : (d.unstage j).deep = d.deep := rfl
@[simp] theorem Dev.unstage_poolUse (j : Nat) : (d.unstage j).poolUse = d.poolUse := rfl
@[simp] theorem Dev.unstage_zeroing (j : Nat) : (d.unstage j).zeroing = d.zeroing := rfl
@[simp] theorem Dev.unstage_jobs (j : Nat) : (d.unstage j).jobs = d.jobs := rfl
@[simp] theorem Dev.unstage_cmds (j : Nat) : (d.unstage j).cmds = d.cmds := rfl
@[simp] theorem Dev.unstage_streams (j : Nat) : (d.unstage j).streams = d.streams := rfl
@[simp] theorem Dev.unstage_seqs (j : Nat) : (d.unstage j).seqs = d.seqs := rfl
@[simp] theorem Dev.unstage_moves (j : Nat) : (d.unstage j).moves = d.moves := rfl
@[simp] theorem Dev.unstage_freed (j : Nat) : (d.unstage j).freed = d.freed := rfl
@[simp] theorem Dev.unstage_cross (j : Nat) : (d.unstage j).cross = d.cross := rfl
@[simp] theorem Dev.unstage_shipIn (j : Nat) : (d.unstage j).shipIn = d.shipIn := rfl
@[simp] theorem Dev.unstage_rings (j : Nat) : (d.unstage j).rings = d.rings := rfl
@[simp] theorem Dev.unstage_out (j : Nat) : (d.unstage j).out = d.out := rfl
@[simp] theorem Dev.unstage_msix (j : Nat) : (d.unstage j).msix = d.msix := rfl
@[simp] theorem Dev.unstage_dones (j : Nat) : (d.unstage j).dones = d.dones := rfl
@[simp] theorem Dev.unstage_provs (j : Nat) : (d.unstage j).provs = d.provs := rfl
@[simp] theorem Dev.unstage_bound (j : Nat) : (d.unstage j).bound = d.bound := rfl
@[simp] theorem Dev.unstage_targets (j : Nat) : (d.unstage j).targets = d.targets := rfl
@[simp] theorem Dev.unstage_samples (j : Nat) : (d.unstage j).samples = d.samples := rfl
@[simp] theorem Dev.unstage_ports (j : Nat) : (d.unstage j).ports = d.ports := rfl
@[simp] theorem Dev.unstage_links (j : Nat) : (d.unstage j).links = d.links := rfl
@[simp] theorem Dev.unstage_fabric (j : Nat) : (d.unstage j).fabric = d.fabric := rfl
@[simp] theorem Dev.unstage_mirror (j : Nat) : (d.unstage j).mirror = d.mirror := rfl
@[simp] theorem Dev.unstage_err (j : Nat) : (d.unstage j).err = d.err := rfl
@[simp] theorem Dev.unstage_log (j : Nat) : (d.unstage j).log = d.log := rfl
@[simp] theorem Dev.unstage_streamCks (j : Nat) : (d.unstage j).streamCks = d.streamCks := rfl
@[simp] theorem Dev.unstage_coreCks (j : Nat) : (d.unstage j).coreCks = d.coreCks := rfl
@[simp] theorem Dev.unstage_gov (j : Nat) : (d.unstage j).gov = d.gov := rfl
@[simp] theorem Dev.unstage_flr (j : Nat) : (d.unstage j).flr = d.flr := rfl
@[simp] theorem Dev.unstage_free (j : Nat) : (d.unstage j).free = d.free := rfl
@[simp] theorem Dev.unstage_holds (j : Nat) : (d.unstage j).holds = d.holds := rfl

/-! `Dev.send` changes fabric alone. -/

@[simp] theorem Dev.send_kindle (f : Flood) : (d.send f).kindle = d.kindle := rfl
@[simp] theorem Dev.send_trust (f : Flood) : (d.send f).trust = d.trust := rfl
@[simp] theorem Dev.send_tb (f : Flood) : (d.send f).tb = d.tb := rfl
@[simp] theorem Dev.send_regs (f : Flood) : (d.send f).regs = d.regs := rfl
@[simp] theorem Dev.send_shadow (f : Flood) : (d.send f).shadow = d.shadow := rfl
@[simp] theorem Dev.send_staged (f : Flood) : (d.send f).staged = d.staged := rfl
@[simp] theorem Dev.send_cntNow (f : Flood) : (d.send f).cntNow = d.cntNow := rfl
@[simp] theorem Dev.send_cntLr (f : Flood) : (d.send f).cntLr = d.cntLr := rfl
@[simp] theorem Dev.send_cores (f : Flood) : (d.send f).cores = d.cores := rfl
@[simp] theorem Dev.send_slices (f : Flood) : (d.send f).slices = d.slices := rfl
@[simp] theorem Dev.send_well (f : Flood) : (d.send f).well = d.well := rfl
@[simp] theorem Dev.send_deep (f : Flood) : (d.send f).deep = d.deep := rfl
@[simp] theorem Dev.send_poolUse (f : Flood) : (d.send f).poolUse = d.poolUse := rfl
@[simp] theorem Dev.send_zeroing (f : Flood) : (d.send f).zeroing = d.zeroing := rfl
@[simp] theorem Dev.send_jobs (f : Flood) : (d.send f).jobs = d.jobs := rfl
@[simp] theorem Dev.send_cmds (f : Flood) : (d.send f).cmds = d.cmds := rfl
@[simp] theorem Dev.send_streams (f : Flood) : (d.send f).streams = d.streams := rfl
@[simp] theorem Dev.send_seqs (f : Flood) : (d.send f).seqs = d.seqs := rfl
@[simp] theorem Dev.send_moves (f : Flood) : (d.send f).moves = d.moves := rfl
@[simp] theorem Dev.send_freed (f : Flood) : (d.send f).freed = d.freed := rfl
@[simp] theorem Dev.send_cross (f : Flood) : (d.send f).cross = d.cross := rfl
@[simp] theorem Dev.send_shipIn (f : Flood) : (d.send f).shipIn = d.shipIn := rfl
@[simp] theorem Dev.send_rings (f : Flood) : (d.send f).rings = d.rings := rfl
@[simp] theorem Dev.send_out (f : Flood) : (d.send f).out = d.out := rfl
@[simp] theorem Dev.send_msix (f : Flood) : (d.send f).msix = d.msix := rfl
@[simp] theorem Dev.send_dones (f : Flood) : (d.send f).dones = d.dones := rfl
@[simp] theorem Dev.send_provs (f : Flood) : (d.send f).provs = d.provs := rfl
@[simp] theorem Dev.send_bound (f : Flood) : (d.send f).bound = d.bound := rfl
@[simp] theorem Dev.send_targets (f : Flood) : (d.send f).targets = d.targets := rfl
@[simp] theorem Dev.send_samples (f : Flood) : (d.send f).samples = d.samples := rfl
@[simp] theorem Dev.send_ports (f : Flood) : (d.send f).ports = d.ports := rfl
@[simp] theorem Dev.send_links (f : Flood) : (d.send f).links = d.links := rfl
@[simp] theorem Dev.send_mirror (f : Flood) : (d.send f).mirror = d.mirror := rfl
@[simp] theorem Dev.send_err (f : Flood) : (d.send f).err = d.err := rfl
@[simp] theorem Dev.send_log (f : Flood) : (d.send f).log = d.log := rfl
@[simp] theorem Dev.send_streamCks (f : Flood) : (d.send f).streamCks = d.streamCks := rfl
@[simp] theorem Dev.send_coreCks (f : Flood) : (d.send f).coreCks = d.coreCks := rfl
@[simp] theorem Dev.send_gov (f : Flood) : (d.send f).gov = d.gov := rfl
@[simp] theorem Dev.send_flr (f : Flood) : (d.send f).flr = d.flr := rfl
@[simp] theorem Dev.send_free (f : Flood) : (d.send f).free = d.free := rfl
@[simp] theorem Dev.send_holds (f : Flood) : (d.send f).holds = d.holds := rfl

/-! `Dev.setTaskStates` changes cores alone. -/

@[simp] theorem Dev.setTaskStates_kindle (j : Nat) (st : TaskState) : (d.setTaskStates j st).kindle = d.kindle := by
  exact foldl_proj (fun x : Dev => x.kindle) _ _ d (fun b i _ => rfl)
@[simp] theorem Dev.setTaskStates_trust (j : Nat) (st : TaskState) : (d.setTaskStates j st).trust = d.trust := by
  exact foldl_proj (fun x : Dev => x.trust) _ _ d (fun b i _ => rfl)
@[simp] theorem Dev.setTaskStates_tb (j : Nat) (st : TaskState) : (d.setTaskStates j st).tb = d.tb := by
  exact foldl_proj (fun x : Dev => x.tb) _ _ d (fun b i _ => rfl)
@[simp] theorem Dev.setTaskStates_regs (j : Nat) (st : TaskState) : (d.setTaskStates j st).regs = d.regs := by
  exact foldl_proj (fun x : Dev => x.regs) _ _ d (fun b i _ => rfl)
@[simp] theorem Dev.setTaskStates_shadow (j : Nat) (st : TaskState) : (d.setTaskStates j st).shadow = d.shadow := by
  exact foldl_proj (fun x : Dev => x.shadow) _ _ d (fun b i _ => rfl)
@[simp] theorem Dev.setTaskStates_staged (j : Nat) (st : TaskState) : (d.setTaskStates j st).staged = d.staged := by
  exact foldl_proj (fun x : Dev => x.staged) _ _ d (fun b i _ => rfl)
@[simp] theorem Dev.setTaskStates_cntNow (j : Nat) (st : TaskState) : (d.setTaskStates j st).cntNow = d.cntNow := by
  exact foldl_proj (fun x : Dev => x.cntNow) _ _ d (fun b i _ => rfl)
@[simp] theorem Dev.setTaskStates_cntLr (j : Nat) (st : TaskState) : (d.setTaskStates j st).cntLr = d.cntLr := by
  exact foldl_proj (fun x : Dev => x.cntLr) _ _ d (fun b i _ => rfl)
@[simp] theorem Dev.setTaskStates_slices (j : Nat) (st : TaskState) : (d.setTaskStates j st).slices = d.slices := by
  exact foldl_proj (fun x : Dev => x.slices) _ _ d (fun b i _ => rfl)
@[simp] theorem Dev.setTaskStates_well (j : Nat) (st : TaskState) : (d.setTaskStates j st).well = d.well := by
  exact foldl_proj (fun x : Dev => x.well) _ _ d (fun b i _ => rfl)
@[simp] theorem Dev.setTaskStates_deep (j : Nat) (st : TaskState) : (d.setTaskStates j st).deep = d.deep := by
  exact foldl_proj (fun x : Dev => x.deep) _ _ d (fun b i _ => rfl)
@[simp] theorem Dev.setTaskStates_poolUse (j : Nat) (st : TaskState) : (d.setTaskStates j st).poolUse = d.poolUse := by
  exact foldl_proj (fun x : Dev => x.poolUse) _ _ d (fun b i _ => rfl)
@[simp] theorem Dev.setTaskStates_zeroing (j : Nat) (st : TaskState) : (d.setTaskStates j st).zeroing = d.zeroing := by
  exact foldl_proj (fun x : Dev => x.zeroing) _ _ d (fun b i _ => rfl)
@[simp] theorem Dev.setTaskStates_jobs (j : Nat) (st : TaskState) : (d.setTaskStates j st).jobs = d.jobs := by
  exact foldl_proj (fun x : Dev => x.jobs) _ _ d (fun b i _ => rfl)
@[simp] theorem Dev.setTaskStates_cmds (j : Nat) (st : TaskState) : (d.setTaskStates j st).cmds = d.cmds := by
  exact foldl_proj (fun x : Dev => x.cmds) _ _ d (fun b i _ => rfl)
@[simp] theorem Dev.setTaskStates_streams (j : Nat) (st : TaskState) : (d.setTaskStates j st).streams = d.streams := by
  exact foldl_proj (fun x : Dev => x.streams) _ _ d (fun b i _ => rfl)
@[simp] theorem Dev.setTaskStates_seqs (j : Nat) (st : TaskState) : (d.setTaskStates j st).seqs = d.seqs := by
  exact foldl_proj (fun x : Dev => x.seqs) _ _ d (fun b i _ => rfl)
@[simp] theorem Dev.setTaskStates_moves (j : Nat) (st : TaskState) : (d.setTaskStates j st).moves = d.moves := by
  exact foldl_proj (fun x : Dev => x.moves) _ _ d (fun b i _ => rfl)
@[simp] theorem Dev.setTaskStates_freed (j : Nat) (st : TaskState) : (d.setTaskStates j st).freed = d.freed := by
  exact foldl_proj (fun x : Dev => x.freed) _ _ d (fun b i _ => rfl)
@[simp] theorem Dev.setTaskStates_cross (j : Nat) (st : TaskState) : (d.setTaskStates j st).cross = d.cross := by
  exact foldl_proj (fun x : Dev => x.cross) _ _ d (fun b i _ => rfl)
@[simp] theorem Dev.setTaskStates_shipIn (j : Nat) (st : TaskState) : (d.setTaskStates j st).shipIn = d.shipIn := by
  exact foldl_proj (fun x : Dev => x.shipIn) _ _ d (fun b i _ => rfl)
@[simp] theorem Dev.setTaskStates_rings (j : Nat) (st : TaskState) : (d.setTaskStates j st).rings = d.rings := by
  exact foldl_proj (fun x : Dev => x.rings) _ _ d (fun b i _ => rfl)
@[simp] theorem Dev.setTaskStates_out (j : Nat) (st : TaskState) : (d.setTaskStates j st).out = d.out := by
  exact foldl_proj (fun x : Dev => x.out) _ _ d (fun b i _ => rfl)
@[simp] theorem Dev.setTaskStates_msix (j : Nat) (st : TaskState) : (d.setTaskStates j st).msix = d.msix := by
  exact foldl_proj (fun x : Dev => x.msix) _ _ d (fun b i _ => rfl)
@[simp] theorem Dev.setTaskStates_dones (j : Nat) (st : TaskState) : (d.setTaskStates j st).dones = d.dones := by
  exact foldl_proj (fun x : Dev => x.dones) _ _ d (fun b i _ => rfl)
@[simp] theorem Dev.setTaskStates_provs (j : Nat) (st : TaskState) : (d.setTaskStates j st).provs = d.provs := by
  exact foldl_proj (fun x : Dev => x.provs) _ _ d (fun b i _ => rfl)
@[simp] theorem Dev.setTaskStates_bound (j : Nat) (st : TaskState) : (d.setTaskStates j st).bound = d.bound := by
  exact foldl_proj (fun x : Dev => x.bound) _ _ d (fun b i _ => rfl)
@[simp] theorem Dev.setTaskStates_targets (j : Nat) (st : TaskState) : (d.setTaskStates j st).targets = d.targets := by
  exact foldl_proj (fun x : Dev => x.targets) _ _ d (fun b i _ => rfl)
@[simp] theorem Dev.setTaskStates_samples (j : Nat) (st : TaskState) : (d.setTaskStates j st).samples = d.samples := by
  exact foldl_proj (fun x : Dev => x.samples) _ _ d (fun b i _ => rfl)
@[simp] theorem Dev.setTaskStates_ports (j : Nat) (st : TaskState) : (d.setTaskStates j st).ports = d.ports := by
  exact foldl_proj (fun x : Dev => x.ports) _ _ d (fun b i _ => rfl)
@[simp] theorem Dev.setTaskStates_links (j : Nat) (st : TaskState) : (d.setTaskStates j st).links = d.links := by
  exact foldl_proj (fun x : Dev => x.links) _ _ d (fun b i _ => rfl)
@[simp] theorem Dev.setTaskStates_fabric (j : Nat) (st : TaskState) : (d.setTaskStates j st).fabric = d.fabric := by
  exact foldl_proj (fun x : Dev => x.fabric) _ _ d (fun b i _ => rfl)
@[simp] theorem Dev.setTaskStates_mirror (j : Nat) (st : TaskState) : (d.setTaskStates j st).mirror = d.mirror := by
  exact foldl_proj (fun x : Dev => x.mirror) _ _ d (fun b i _ => rfl)
@[simp] theorem Dev.setTaskStates_err (j : Nat) (st : TaskState) : (d.setTaskStates j st).err = d.err := by
  exact foldl_proj (fun x : Dev => x.err) _ _ d (fun b i _ => rfl)
@[simp] theorem Dev.setTaskStates_log (j : Nat) (st : TaskState) : (d.setTaskStates j st).log = d.log := by
  exact foldl_proj (fun x : Dev => x.log) _ _ d (fun b i _ => rfl)
@[simp] theorem Dev.setTaskStates_streamCks (j : Nat) (st : TaskState) : (d.setTaskStates j st).streamCks = d.streamCks := by
  exact foldl_proj (fun x : Dev => x.streamCks) _ _ d (fun b i _ => rfl)
@[simp] theorem Dev.setTaskStates_coreCks (j : Nat) (st : TaskState) : (d.setTaskStates j st).coreCks = d.coreCks := by
  exact foldl_proj (fun x : Dev => x.coreCks) _ _ d (fun b i _ => rfl)
@[simp] theorem Dev.setTaskStates_gov (j : Nat) (st : TaskState) : (d.setTaskStates j st).gov = d.gov := by
  exact foldl_proj (fun x : Dev => x.gov) _ _ d (fun b i _ => rfl)
@[simp] theorem Dev.setTaskStates_flr (j : Nat) (st : TaskState) : (d.setTaskStates j st).flr = d.flr := by
  exact foldl_proj (fun x : Dev => x.flr) _ _ d (fun b i _ => rfl)
@[simp] theorem Dev.setTaskStates_free (j : Nat) (st : TaskState) : (d.setTaskStates j st).free = d.free := by
  exact foldl_proj (fun x : Dev => x.free) _ _ d (fun b i _ => rfl)
@[simp] theorem Dev.setTaskStates_holds (j : Nat) (st : TaskState) : (d.setTaskStates j st).holds = d.holds := by
  exact foldl_proj (fun x : Dev => x.holds) _ _ d (fun b i _ => rfl)

/-! `Dev.closeWindows` changes cores alone. -/

@[simp] theorem Dev.closeWindows_kindle (j : Nat) : (d.closeWindows j).kindle = d.kindle := rfl
@[simp] theorem Dev.closeWindows_trust (j : Nat) : (d.closeWindows j).trust = d.trust := rfl
@[simp] theorem Dev.closeWindows_tb (j : Nat) : (d.closeWindows j).tb = d.tb := rfl
@[simp] theorem Dev.closeWindows_regs (j : Nat) : (d.closeWindows j).regs = d.regs := rfl
@[simp] theorem Dev.closeWindows_shadow (j : Nat) : (d.closeWindows j).shadow = d.shadow := rfl
@[simp] theorem Dev.closeWindows_staged (j : Nat) : (d.closeWindows j).staged = d.staged := rfl
@[simp] theorem Dev.closeWindows_cntNow (j : Nat) : (d.closeWindows j).cntNow = d.cntNow := rfl
@[simp] theorem Dev.closeWindows_cntLr (j : Nat) : (d.closeWindows j).cntLr = d.cntLr := rfl
@[simp] theorem Dev.closeWindows_slices (j : Nat) : (d.closeWindows j).slices = d.slices := rfl
@[simp] theorem Dev.closeWindows_well (j : Nat) : (d.closeWindows j).well = d.well := rfl
@[simp] theorem Dev.closeWindows_deep (j : Nat) : (d.closeWindows j).deep = d.deep := rfl
@[simp] theorem Dev.closeWindows_poolUse (j : Nat) : (d.closeWindows j).poolUse = d.poolUse := rfl
@[simp] theorem Dev.closeWindows_zeroing (j : Nat) : (d.closeWindows j).zeroing = d.zeroing := rfl
@[simp] theorem Dev.closeWindows_jobs (j : Nat) : (d.closeWindows j).jobs = d.jobs := rfl
@[simp] theorem Dev.closeWindows_cmds (j : Nat) : (d.closeWindows j).cmds = d.cmds := rfl
@[simp] theorem Dev.closeWindows_streams (j : Nat) : (d.closeWindows j).streams = d.streams := rfl
@[simp] theorem Dev.closeWindows_seqs (j : Nat) : (d.closeWindows j).seqs = d.seqs := rfl
@[simp] theorem Dev.closeWindows_moves (j : Nat) : (d.closeWindows j).moves = d.moves := rfl
@[simp] theorem Dev.closeWindows_freed (j : Nat) : (d.closeWindows j).freed = d.freed := rfl
@[simp] theorem Dev.closeWindows_cross (j : Nat) : (d.closeWindows j).cross = d.cross := rfl
@[simp] theorem Dev.closeWindows_shipIn (j : Nat) : (d.closeWindows j).shipIn = d.shipIn := rfl
@[simp] theorem Dev.closeWindows_rings (j : Nat) : (d.closeWindows j).rings = d.rings := rfl
@[simp] theorem Dev.closeWindows_out (j : Nat) : (d.closeWindows j).out = d.out := rfl
@[simp] theorem Dev.closeWindows_msix (j : Nat) : (d.closeWindows j).msix = d.msix := rfl
@[simp] theorem Dev.closeWindows_dones (j : Nat) : (d.closeWindows j).dones = d.dones := rfl
@[simp] theorem Dev.closeWindows_provs (j : Nat) : (d.closeWindows j).provs = d.provs := rfl
@[simp] theorem Dev.closeWindows_bound (j : Nat) : (d.closeWindows j).bound = d.bound := rfl
@[simp] theorem Dev.closeWindows_targets (j : Nat) : (d.closeWindows j).targets = d.targets := rfl
@[simp] theorem Dev.closeWindows_samples (j : Nat) : (d.closeWindows j).samples = d.samples := rfl
@[simp] theorem Dev.closeWindows_ports (j : Nat) : (d.closeWindows j).ports = d.ports := rfl
@[simp] theorem Dev.closeWindows_links (j : Nat) : (d.closeWindows j).links = d.links := rfl
@[simp] theorem Dev.closeWindows_fabric (j : Nat) : (d.closeWindows j).fabric = d.fabric := rfl
@[simp] theorem Dev.closeWindows_mirror (j : Nat) : (d.closeWindows j).mirror = d.mirror := rfl
@[simp] theorem Dev.closeWindows_err (j : Nat) : (d.closeWindows j).err = d.err := rfl
@[simp] theorem Dev.closeWindows_log (j : Nat) : (d.closeWindows j).log = d.log := rfl
@[simp] theorem Dev.closeWindows_streamCks (j : Nat) : (d.closeWindows j).streamCks = d.streamCks := rfl
@[simp] theorem Dev.closeWindows_coreCks (j : Nat) : (d.closeWindows j).coreCks = d.coreCks := rfl
@[simp] theorem Dev.closeWindows_gov (j : Nat) : (d.closeWindows j).gov = d.gov := rfl
@[simp] theorem Dev.closeWindows_flr (j : Nat) : (d.closeWindows j).flr = d.flr := rfl
@[simp] theorem Dev.closeWindows_free (j : Nat) : (d.closeWindows j).free = d.free := rfl
@[simp] theorem Dev.closeWindows_holds (j : Nat) : (d.closeWindows j).holds = d.holds := rfl

/-! `Dev.refreshSlices` changes slices alone. -/

@[simp] theorem Dev.refreshSlices_kindle  : (d.refreshSlices ).kindle = d.kindle := by
  exact foldl_proj (fun x : Dev => x.kindle) _ _ d (fun b i _ => by dsimp only; split <;> (try split) <;> rfl)
@[simp] theorem Dev.refreshSlices_trust  : (d.refreshSlices ).trust = d.trust := by
  exact foldl_proj (fun x : Dev => x.trust) _ _ d (fun b i _ => by dsimp only; split <;> (try split) <;> rfl)
@[simp] theorem Dev.refreshSlices_tb  : (d.refreshSlices ).tb = d.tb := by
  exact foldl_proj (fun x : Dev => x.tb) _ _ d (fun b i _ => by dsimp only; split <;> (try split) <;> rfl)
@[simp] theorem Dev.refreshSlices_regs  : (d.refreshSlices ).regs = d.regs := by
  exact foldl_proj (fun x : Dev => x.regs) _ _ d (fun b i _ => by dsimp only; split <;> (try split) <;> rfl)
@[simp] theorem Dev.refreshSlices_shadow  : (d.refreshSlices ).shadow = d.shadow := by
  exact foldl_proj (fun x : Dev => x.shadow) _ _ d (fun b i _ => by dsimp only; split <;> (try split) <;> rfl)
@[simp] theorem Dev.refreshSlices_staged  : (d.refreshSlices ).staged = d.staged := by
  exact foldl_proj (fun x : Dev => x.staged) _ _ d (fun b i _ => by dsimp only; split <;> (try split) <;> rfl)
@[simp] theorem Dev.refreshSlices_cntNow  : (d.refreshSlices ).cntNow = d.cntNow := by
  exact foldl_proj (fun x : Dev => x.cntNow) _ _ d (fun b i _ => by dsimp only; split <;> (try split) <;> rfl)
@[simp] theorem Dev.refreshSlices_cntLr  : (d.refreshSlices ).cntLr = d.cntLr := by
  exact foldl_proj (fun x : Dev => x.cntLr) _ _ d (fun b i _ => by dsimp only; split <;> (try split) <;> rfl)
@[simp] theorem Dev.refreshSlices_cores  : (d.refreshSlices ).cores = d.cores := by
  exact foldl_proj (fun x : Dev => x.cores) _ _ d (fun b i _ => by dsimp only; split <;> (try split) <;> rfl)
@[simp] theorem Dev.refreshSlices_well  : (d.refreshSlices ).well = d.well := by
  exact foldl_proj (fun x : Dev => x.well) _ _ d (fun b i _ => by dsimp only; split <;> (try split) <;> rfl)
@[simp] theorem Dev.refreshSlices_deep  : (d.refreshSlices ).deep = d.deep := by
  exact foldl_proj (fun x : Dev => x.deep) _ _ d (fun b i _ => by dsimp only; split <;> (try split) <;> rfl)
@[simp] theorem Dev.refreshSlices_poolUse  : (d.refreshSlices ).poolUse = d.poolUse := by
  exact foldl_proj (fun x : Dev => x.poolUse) _ _ d (fun b i _ => by dsimp only; split <;> (try split) <;> rfl)
@[simp] theorem Dev.refreshSlices_zeroing  : (d.refreshSlices ).zeroing = d.zeroing := by
  exact foldl_proj (fun x : Dev => x.zeroing) _ _ d (fun b i _ => by dsimp only; split <;> (try split) <;> rfl)
@[simp] theorem Dev.refreshSlices_jobs  : (d.refreshSlices ).jobs = d.jobs := by
  exact foldl_proj (fun x : Dev => x.jobs) _ _ d (fun b i _ => by dsimp only; split <;> (try split) <;> rfl)
@[simp] theorem Dev.refreshSlices_cmds  : (d.refreshSlices ).cmds = d.cmds := by
  exact foldl_proj (fun x : Dev => x.cmds) _ _ d (fun b i _ => by dsimp only; split <;> (try split) <;> rfl)
@[simp] theorem Dev.refreshSlices_streams  : (d.refreshSlices ).streams = d.streams := by
  exact foldl_proj (fun x : Dev => x.streams) _ _ d (fun b i _ => by dsimp only; split <;> (try split) <;> rfl)
@[simp] theorem Dev.refreshSlices_seqs  : (d.refreshSlices ).seqs = d.seqs := by
  exact foldl_proj (fun x : Dev => x.seqs) _ _ d (fun b i _ => by dsimp only; split <;> (try split) <;> rfl)
@[simp] theorem Dev.refreshSlices_moves  : (d.refreshSlices ).moves = d.moves := by
  exact foldl_proj (fun x : Dev => x.moves) _ _ d (fun b i _ => by dsimp only; split <;> (try split) <;> rfl)
@[simp] theorem Dev.refreshSlices_freed  : (d.refreshSlices ).freed = d.freed := by
  exact foldl_proj (fun x : Dev => x.freed) _ _ d (fun b i _ => by dsimp only; split <;> (try split) <;> rfl)
@[simp] theorem Dev.refreshSlices_cross  : (d.refreshSlices ).cross = d.cross := by
  exact foldl_proj (fun x : Dev => x.cross) _ _ d (fun b i _ => by dsimp only; split <;> (try split) <;> rfl)
@[simp] theorem Dev.refreshSlices_shipIn  : (d.refreshSlices ).shipIn = d.shipIn := by
  exact foldl_proj (fun x : Dev => x.shipIn) _ _ d (fun b i _ => by dsimp only; split <;> (try split) <;> rfl)
@[simp] theorem Dev.refreshSlices_rings  : (d.refreshSlices ).rings = d.rings := by
  exact foldl_proj (fun x : Dev => x.rings) _ _ d (fun b i _ => by dsimp only; split <;> (try split) <;> rfl)
@[simp] theorem Dev.refreshSlices_out  : (d.refreshSlices ).out = d.out := by
  exact foldl_proj (fun x : Dev => x.out) _ _ d (fun b i _ => by dsimp only; split <;> (try split) <;> rfl)
@[simp] theorem Dev.refreshSlices_msix  : (d.refreshSlices ).msix = d.msix := by
  exact foldl_proj (fun x : Dev => x.msix) _ _ d (fun b i _ => by dsimp only; split <;> (try split) <;> rfl)
@[simp] theorem Dev.refreshSlices_dones  : (d.refreshSlices ).dones = d.dones := by
  exact foldl_proj (fun x : Dev => x.dones) _ _ d (fun b i _ => by dsimp only; split <;> (try split) <;> rfl)
@[simp] theorem Dev.refreshSlices_provs  : (d.refreshSlices ).provs = d.provs := by
  exact foldl_proj (fun x : Dev => x.provs) _ _ d (fun b i _ => by dsimp only; split <;> (try split) <;> rfl)
@[simp] theorem Dev.refreshSlices_bound  : (d.refreshSlices ).bound = d.bound := by
  exact foldl_proj (fun x : Dev => x.bound) _ _ d (fun b i _ => by dsimp only; split <;> (try split) <;> rfl)
@[simp] theorem Dev.refreshSlices_targets  : (d.refreshSlices ).targets = d.targets := by
  exact foldl_proj (fun x : Dev => x.targets) _ _ d (fun b i _ => by dsimp only; split <;> (try split) <;> rfl)
@[simp] theorem Dev.refreshSlices_samples  : (d.refreshSlices ).samples = d.samples := by
  exact foldl_proj (fun x : Dev => x.samples) _ _ d (fun b i _ => by dsimp only; split <;> (try split) <;> rfl)
@[simp] theorem Dev.refreshSlices_ports  : (d.refreshSlices ).ports = d.ports := by
  exact foldl_proj (fun x : Dev => x.ports) _ _ d (fun b i _ => by dsimp only; split <;> (try split) <;> rfl)
@[simp] theorem Dev.refreshSlices_links  : (d.refreshSlices ).links = d.links := by
  exact foldl_proj (fun x : Dev => x.links) _ _ d (fun b i _ => by dsimp only; split <;> (try split) <;> rfl)
@[simp] theorem Dev.refreshSlices_fabric  : (d.refreshSlices ).fabric = d.fabric := by
  exact foldl_proj (fun x : Dev => x.fabric) _ _ d (fun b i _ => by dsimp only; split <;> (try split) <;> rfl)
@[simp] theorem Dev.refreshSlices_mirror  : (d.refreshSlices ).mirror = d.mirror := by
  exact foldl_proj (fun x : Dev => x.mirror) _ _ d (fun b i _ => by dsimp only; split <;> (try split) <;> rfl)
@[simp] theorem Dev.refreshSlices_err  : (d.refreshSlices ).err = d.err := by
  exact foldl_proj (fun x : Dev => x.err) _ _ d (fun b i _ => by dsimp only; split <;> (try split) <;> rfl)
@[simp] theorem Dev.refreshSlices_log  : (d.refreshSlices ).log = d.log := by
  exact foldl_proj (fun x : Dev => x.log) _ _ d (fun b i _ => by dsimp only; split <;> (try split) <;> rfl)
@[simp] theorem Dev.refreshSlices_streamCks  : (d.refreshSlices ).streamCks = d.streamCks := by
  exact foldl_proj (fun x : Dev => x.streamCks) _ _ d (fun b i _ => by dsimp only; split <;> (try split) <;> rfl)
@[simp] theorem Dev.refreshSlices_coreCks  : (d.refreshSlices ).coreCks = d.coreCks := by
  exact foldl_proj (fun x : Dev => x.coreCks) _ _ d (fun b i _ => by dsimp only; split <;> (try split) <;> rfl)
@[simp] theorem Dev.refreshSlices_gov  : (d.refreshSlices ).gov = d.gov := by
  exact foldl_proj (fun x : Dev => x.gov) _ _ d (fun b i _ => by dsimp only; split <;> (try split) <;> rfl)
@[simp] theorem Dev.refreshSlices_flr  : (d.refreshSlices ).flr = d.flr := by
  exact foldl_proj (fun x : Dev => x.flr) _ _ d (fun b i _ => by dsimp only; split <;> (try split) <;> rfl)
@[simp] theorem Dev.refreshSlices_free  : (d.refreshSlices ).free = d.free := by
  exact foldl_proj (fun x : Dev => x.free) _ _ d (fun b i _ => by dsimp only; split <;> (try split) <;> rfl)
@[simp] theorem Dev.refreshSlices_holds  : (d.refreshSlices ).holds = d.holds := by
  exact foldl_proj (fun x : Dev => x.holds) _ _ d (fun b i _ => by dsimp only; split <;> (try split) <;> rfl)

/-! `Dev.unroute` changes ports alone. -/

@[simp] theorem Dev.unroute_kindle (j : Nat) : (d.unroute j).kindle = d.kindle := rfl
@[simp] theorem Dev.unroute_trust (j : Nat) : (d.unroute j).trust = d.trust := rfl
@[simp] theorem Dev.unroute_tb (j : Nat) : (d.unroute j).tb = d.tb := rfl
@[simp] theorem Dev.unroute_regs (j : Nat) : (d.unroute j).regs = d.regs := rfl
@[simp] theorem Dev.unroute_shadow (j : Nat) : (d.unroute j).shadow = d.shadow := rfl
@[simp] theorem Dev.unroute_staged (j : Nat) : (d.unroute j).staged = d.staged := rfl
@[simp] theorem Dev.unroute_cntNow (j : Nat) : (d.unroute j).cntNow = d.cntNow := rfl
@[simp] theorem Dev.unroute_cntLr (j : Nat) : (d.unroute j).cntLr = d.cntLr := rfl
@[simp] theorem Dev.unroute_cores (j : Nat) : (d.unroute j).cores = d.cores := rfl
@[simp] theorem Dev.unroute_slices (j : Nat) : (d.unroute j).slices = d.slices := rfl
@[simp] theorem Dev.unroute_well (j : Nat) : (d.unroute j).well = d.well := rfl
@[simp] theorem Dev.unroute_deep (j : Nat) : (d.unroute j).deep = d.deep := rfl
@[simp] theorem Dev.unroute_poolUse (j : Nat) : (d.unroute j).poolUse = d.poolUse := rfl
@[simp] theorem Dev.unroute_zeroing (j : Nat) : (d.unroute j).zeroing = d.zeroing := rfl
@[simp] theorem Dev.unroute_jobs (j : Nat) : (d.unroute j).jobs = d.jobs := rfl
@[simp] theorem Dev.unroute_cmds (j : Nat) : (d.unroute j).cmds = d.cmds := rfl
@[simp] theorem Dev.unroute_streams (j : Nat) : (d.unroute j).streams = d.streams := rfl
@[simp] theorem Dev.unroute_seqs (j : Nat) : (d.unroute j).seqs = d.seqs := rfl
@[simp] theorem Dev.unroute_moves (j : Nat) : (d.unroute j).moves = d.moves := rfl
@[simp] theorem Dev.unroute_freed (j : Nat) : (d.unroute j).freed = d.freed := rfl
@[simp] theorem Dev.unroute_cross (j : Nat) : (d.unroute j).cross = d.cross := rfl
@[simp] theorem Dev.unroute_shipIn (j : Nat) : (d.unroute j).shipIn = d.shipIn := rfl
@[simp] theorem Dev.unroute_rings (j : Nat) : (d.unroute j).rings = d.rings := rfl
@[simp] theorem Dev.unroute_out (j : Nat) : (d.unroute j).out = d.out := rfl
@[simp] theorem Dev.unroute_msix (j : Nat) : (d.unroute j).msix = d.msix := rfl
@[simp] theorem Dev.unroute_dones (j : Nat) : (d.unroute j).dones = d.dones := rfl
@[simp] theorem Dev.unroute_provs (j : Nat) : (d.unroute j).provs = d.provs := rfl
@[simp] theorem Dev.unroute_bound (j : Nat) : (d.unroute j).bound = d.bound := rfl
@[simp] theorem Dev.unroute_targets (j : Nat) : (d.unroute j).targets = d.targets := rfl
@[simp] theorem Dev.unroute_samples (j : Nat) : (d.unroute j).samples = d.samples := rfl
@[simp] theorem Dev.unroute_links (j : Nat) : (d.unroute j).links = d.links := rfl
@[simp] theorem Dev.unroute_fabric (j : Nat) : (d.unroute j).fabric = d.fabric := rfl
@[simp] theorem Dev.unroute_mirror (j : Nat) : (d.unroute j).mirror = d.mirror := rfl
@[simp] theorem Dev.unroute_err (j : Nat) : (d.unroute j).err = d.err := rfl
@[simp] theorem Dev.unroute_log (j : Nat) : (d.unroute j).log = d.log := rfl
@[simp] theorem Dev.unroute_streamCks (j : Nat) : (d.unroute j).streamCks = d.streamCks := rfl
@[simp] theorem Dev.unroute_coreCks (j : Nat) : (d.unroute j).coreCks = d.coreCks := rfl
@[simp] theorem Dev.unroute_gov (j : Nat) : (d.unroute j).gov = d.gov := rfl
@[simp] theorem Dev.unroute_flr (j : Nat) : (d.unroute j).flr = d.flr := rfl
@[simp] theorem Dev.unroute_free (j : Nat) : (d.unroute j).free = d.free := rfl
@[simp] theorem Dev.unroute_holds (j : Nat) : (d.unroute j).holds = d.holds := rfl

/-! `Dev.addAction` changes err alone. -/

@[simp] theorem Dev.addAction_kindle (a : Action) : (d.addAction a).kindle = d.kindle := by
  unfold Dev.addAction; split <;> rfl
@[simp] theorem Dev.addAction_trust (a : Action) : (d.addAction a).trust = d.trust := by
  unfold Dev.addAction; split <;> rfl
@[simp] theorem Dev.addAction_tb (a : Action) : (d.addAction a).tb = d.tb := by
  unfold Dev.addAction; split <;> rfl
@[simp] theorem Dev.addAction_regs (a : Action) : (d.addAction a).regs = d.regs := by
  unfold Dev.addAction; split <;> rfl
@[simp] theorem Dev.addAction_shadow (a : Action) : (d.addAction a).shadow = d.shadow := by
  unfold Dev.addAction; split <;> rfl
@[simp] theorem Dev.addAction_staged (a : Action) : (d.addAction a).staged = d.staged := by
  unfold Dev.addAction; split <;> rfl
@[simp] theorem Dev.addAction_cntNow (a : Action) : (d.addAction a).cntNow = d.cntNow := by
  unfold Dev.addAction; split <;> rfl
@[simp] theorem Dev.addAction_cntLr (a : Action) : (d.addAction a).cntLr = d.cntLr := by
  unfold Dev.addAction; split <;> rfl
@[simp] theorem Dev.addAction_cores (a : Action) : (d.addAction a).cores = d.cores := by
  unfold Dev.addAction; split <;> rfl
@[simp] theorem Dev.addAction_slices (a : Action) : (d.addAction a).slices = d.slices := by
  unfold Dev.addAction; split <;> rfl
@[simp] theorem Dev.addAction_well (a : Action) : (d.addAction a).well = d.well := by
  unfold Dev.addAction; split <;> rfl
@[simp] theorem Dev.addAction_deep (a : Action) : (d.addAction a).deep = d.deep := by
  unfold Dev.addAction; split <;> rfl
@[simp] theorem Dev.addAction_poolUse (a : Action) : (d.addAction a).poolUse = d.poolUse := by
  unfold Dev.addAction; split <;> rfl
@[simp] theorem Dev.addAction_zeroing (a : Action) : (d.addAction a).zeroing = d.zeroing := by
  unfold Dev.addAction; split <;> rfl
@[simp] theorem Dev.addAction_jobs (a : Action) : (d.addAction a).jobs = d.jobs := by
  unfold Dev.addAction; split <;> rfl
@[simp] theorem Dev.addAction_cmds (a : Action) : (d.addAction a).cmds = d.cmds := by
  unfold Dev.addAction; split <;> rfl
@[simp] theorem Dev.addAction_streams (a : Action) : (d.addAction a).streams = d.streams := by
  unfold Dev.addAction; split <;> rfl
@[simp] theorem Dev.addAction_seqs (a : Action) : (d.addAction a).seqs = d.seqs := by
  unfold Dev.addAction; split <;> rfl
@[simp] theorem Dev.addAction_moves (a : Action) : (d.addAction a).moves = d.moves := by
  unfold Dev.addAction; split <;> rfl
@[simp] theorem Dev.addAction_freed (a : Action) : (d.addAction a).freed = d.freed := by
  unfold Dev.addAction; split <;> rfl
@[simp] theorem Dev.addAction_cross (a : Action) : (d.addAction a).cross = d.cross := by
  unfold Dev.addAction; split <;> rfl
@[simp] theorem Dev.addAction_shipIn (a : Action) : (d.addAction a).shipIn = d.shipIn := by
  unfold Dev.addAction; split <;> rfl
@[simp] theorem Dev.addAction_rings (a : Action) : (d.addAction a).rings = d.rings := by
  unfold Dev.addAction; split <;> rfl
@[simp] theorem Dev.addAction_out (a : Action) : (d.addAction a).out = d.out := by
  unfold Dev.addAction; split <;> rfl
@[simp] theorem Dev.addAction_msix (a : Action) : (d.addAction a).msix = d.msix := by
  unfold Dev.addAction; split <;> rfl
@[simp] theorem Dev.addAction_dones (a : Action) : (d.addAction a).dones = d.dones := by
  unfold Dev.addAction; split <;> rfl
@[simp] theorem Dev.addAction_provs (a : Action) : (d.addAction a).provs = d.provs := by
  unfold Dev.addAction; split <;> rfl
@[simp] theorem Dev.addAction_bound (a : Action) : (d.addAction a).bound = d.bound := by
  unfold Dev.addAction; split <;> rfl
@[simp] theorem Dev.addAction_targets (a : Action) : (d.addAction a).targets = d.targets := by
  unfold Dev.addAction; split <;> rfl
@[simp] theorem Dev.addAction_samples (a : Action) : (d.addAction a).samples = d.samples := by
  unfold Dev.addAction; split <;> rfl
@[simp] theorem Dev.addAction_ports (a : Action) : (d.addAction a).ports = d.ports := by
  unfold Dev.addAction; split <;> rfl
@[simp] theorem Dev.addAction_links (a : Action) : (d.addAction a).links = d.links := by
  unfold Dev.addAction; split <;> rfl
@[simp] theorem Dev.addAction_fabric (a : Action) : (d.addAction a).fabric = d.fabric := by
  unfold Dev.addAction; split <;> rfl
@[simp] theorem Dev.addAction_mirror (a : Action) : (d.addAction a).mirror = d.mirror := by
  unfold Dev.addAction; split <;> rfl
@[simp] theorem Dev.addAction_log (a : Action) : (d.addAction a).log = d.log := by
  unfold Dev.addAction; split <;> rfl
@[simp] theorem Dev.addAction_streamCks (a : Action) : (d.addAction a).streamCks = d.streamCks := by
  unfold Dev.addAction; split <;> rfl
@[simp] theorem Dev.addAction_coreCks (a : Action) : (d.addAction a).coreCks = d.coreCks := by
  unfold Dev.addAction; split <;> rfl
@[simp] theorem Dev.addAction_gov (a : Action) : (d.addAction a).gov = d.gov := by
  unfold Dev.addAction; split <;> rfl
@[simp] theorem Dev.addAction_flr (a : Action) : (d.addAction a).flr = d.flr := by
  unfold Dev.addAction; split <;> rfl
@[simp] theorem Dev.addAction_free (a : Action) : (d.addAction a).free = d.free := by
  unfold Dev.addAction; split <;> rfl
@[simp] theorem Dev.addAction_holds (a : Action) : (d.addAction a).holds = d.holds := by
  unfold Dev.addAction; split <;> rfl

end Sys2Proof.Machine
end

