-- ==== Sys2Proof/Laws/Kill.lean ====
section
/-! SUPPORT. Laws/Kill.lean: what the end of a job and a containment can change. -/

namespace Sys2Proof.Machine

/-- Fields that purging stale transfers leaves: it changes queues and counters. -/
theorem Dev.dropStale_keeps {α : Type} (g : Dev → α)
    (hc : ∀ d c f, g (Dev.onCore d c f) = g d) (hs : ∀ d k f, g (Dev.onSlice d k f) = g d)
    (hl : ∀ d l p, g (Dev.onLink d l (fun x => { x with pump := p })) = g d) (hn : ∀ d m, g { d with cntNow := m } = g d) (d : Dev) :
    g d.dropStale = g d := by
  have hcount : ∀ (d : Dev) off lo n, g (d.count off lo n) = g d := by
    intro d off lo n
    obtain ⟨m, h⟩ := d.count_eq off lo n
    rw [h, hn]
  unfold Dev.dropStale
  dsimp only
  rw [foldl_proj g _ _ _ (fun b a _ => by rw [hcount, hl])]
  rw [foldl_proj g _ _ _ (fun b a _ => foldl_proj g _ _ _ (fun b' a' _ => by rw [hcount, hs]))]
  rw [foldl_proj g _ _ _ (fun b a _ => by rw [hcount, hc])]

/-- The job slots after a kill: the killed one is KILLED with a new generation, every other as before (R86, R417). -/
theorem Dev.kill_jobs (d : Dev) (j : Nat) (load : Nat × Nat) (st : Nat) :
    (d.kill j load st).jobs = if (d.job j).state = .empty ∨ (d.job j).state = .killed then d.jobs
      else mset d.jobs j { d.job j with state := .killed, loadCmd := none, stopCmds := [], stopAt := none,
                                         replay := none, gen := ((d.job j).gen + 1) % 65536 } := by
  unfold Dev.kill
  dsimp only
  split
  · rename_i h
    rw [if_pos (by simpa using h)]
  · rename_i h
    rw [if_neg (by simpa using h)]
    rw [Dev.refreshSlices_jobs, Dev.dropStale_keeps (fun d => d.jobs) (fun _ _ _ => rfl) (fun _ _ _ => rfl) (fun _ _ _ => rfl) (fun _ _ => rfl)]
    rw [Dev.onJob_jobs]
    have key : ∀ x : Dev, x.jobs = d.jobs → mset x.jobs j { x.job j with state := .killed, loadCmd := none, stopCmds := [], stopAt := none, replay := none, gen := ((x.job j).gen + 1) % 65536 } =
        mset d.jobs j { d.job j with state := .killed, loadCmd := none, stopCmds := [], stopAt := none, replay := none, gen := ((d.job j).gen + 1) % 65536 } := by
      intro x hx
      unfold Dev.job
      rw [hx]
    apply key
    rw [foldl_proj (fun x : Dev => x.jobs) _ _ _ (fun b a _ => by simp)]
    cases (d.job j).loadCmd
    all_goals (try dsimp only)
    all_goals (try rw [Dev.finishCmd_jobs])
    all_goals
      simp only [Dev.logRec_jobs, Dev.unstage_jobs, Dev.closeWindows_jobs]
      rw [foldl_proj (fun x : Dev => x.jobs) _ _ _ (fun b a _ => by simp)]
      rw [foldl_proj (fun x : Dev => x.jobs) _ _ _ (fun b a _ => by simp)]
      rw [foldl_proj (fun x : Dev => x.jobs) _ _ _ (fun b a _ => by simp)]
      rw [foldl_proj (fun x : Dev => x.jobs) _ _ _ (fun b a _ => by simp)]
      dsimp only
      rw [foldl_proj (fun x : Dev => x.jobs) _ _ _ (fun b a _ => by simp)]
      simp

/-- A kill leaves alone what does not belong to jobs, tasks, streams, the well, the log, the host rings and the error block. -/
theorem Dev.kill_keeps {α : Type} (g : Dev → α)
    (hset : ∀ d c, g { d with cores := c } = g d) (hw : ∀ d w l r o b m, g { d with well := w, log := l, rings := r, out := o, err := b, msix := m } = g d)
    (hst : ∀ d a b c p q f, g { d with streams := a, seqs := b, moves := c, provs := p, dones := q, freed := f } = g d)
    (hsm : ∀ d z, g { d with samples := z } = g d) (hsg : ∀ d z, g { d with staged := z } = g d)
    (hz : ∀ d z, g { d with zeroing := z } = g d) (hj : ∀ d z, g { d with jobs := z } = g d)
    (hs : ∀ d z, g { d with slices := z } = g d) (hl : ∀ d l p, g (Dev.onLink d l (fun x => { x with pump := p })) = g d)
    (hn : ∀ d m, g { d with cntNow := m } = g d)
    (d : Dev) (j : Nat) (load : Nat × Nat) (st : Nat) : g (d.kill j load st) = g d := by
  have fin : ∀ (x : Dev) c, g (x.finish c) = g x := by
    intro x c; obtain ⟨w, l, r, o, b, m, h⟩ := x.finish_cases c; rw [h, hw]
  have finc : ∀ (x : Dev) j c s e, g (x.finishCmd j c s e) = g x := by
    intro x j c s e; obtain ⟨w, l, r, o, b, m, h⟩ := x.finishCmd_cases j c s e; rw [h, hw]
  have lg : ∀ (x : Dev) r, g (x.logRec r) = g x := by
    intro x r; obtain ⟨w, l, b, o, m, h⟩ := x.logRec_cases r; rw [h]; exact hw x w l x.rings o b m
  have sup : ∀ (x : Dev) p c, g (x.supersede p c) = g x := by
    intro x p c; unfold Dev.supersede; rw [fin]; exact hst x x.streams x.seqs x.moves _ x.dones x.freed
  have si : ∀ (x : Dev) h i c, g (x.supersedeItem h i c) = g x := by
    intro x h i c; exact foldl_proj g _ _ x (fun b a _ => sup b a c)
  have ei : ∀ (x : Dev) h i s c, g (x.endItem h i s c) = g x := by
    intro x h i s c
    unfold Dev.endItem
    dsimp only
    rw [fin, hsm, si]
    exact hst x _ x.seqs x.moves x.provs x.dones x.freed
  have ci : ∀ (x : Dev) h, g (x.cancelItems h) = g x := by
    intro x h; exact foldl_proj g _ _ x (fun b a _ => ei b h a _ _)
  have fs : ∀ (x : Dev) h, g (x.endStream h) = g x := by
    intro x h
    have drop : ∀ f, g (({ x with freed := x.freed ++ x.heldRecs h } : Dev).dropStream h f) = g x := fun f => hst x _ _ _ x.provs x.dones _
    unfold Dev.endStream
    dsimp only
    split
    · rw [finc, drop]
    · exact drop _
  have oc : ∀ (x : Dev) c f, g (x.onCore c f) = g x := fun x c f => hset x _
  have ss : ∀ (x : Dev) j s, g (x.setTaskStates j s) = g x := by
    intro x j s; exact foldl_proj g _ _ x (fun b a _ => hset b _)
  have rs : ∀ x : Dev, g x.refreshSlices = g x := by
    intro x
    refine foldl_proj g _ _ x (fun b a _ => ?_)
    dsimp only
    split
    · split
      · exact hs b _
      · rfl
    · split
      · rfl
      · exact hs b _
    · rfl
  unfold Dev.kill
  dsimp only
  split
  · rfl
  · rw [rs, Dev.dropStale_keeps g oc (fun x k f => hs x _) hl hn]
    show g (Dev.onJob _ j _) = _
    rw [show ∀ (x : Dev) f, g (x.onJob j f) = g x from fun x f => hj x _]
    rw [foldl_proj g _ _ _ (fun b a _ => finc b _ _ _ _)]
    cases (d.job j).loadCmd
    all_goals (try dsimp only)
    all_goals (try rw [finc])
    all_goals
      rw [lg, hz]
      show g (Dev.unstage (Dev.closeWindows _ j) j) = _
      rw [show ∀ x : Dev, g (x.unstage j) = g x from fun x => hsg x _]
      rw [show ∀ x : Dev, g (x.closeWindows j) = g x from fun x => hset x _]
      rw [foldl_proj g _ _ _ (fun b a _ => oc b _ _)]
      rw [foldl_proj g _ _ _ (fun b a _ => fs b _)]
      rw [foldl_proj g _ _ _ (fun b a _ => sup b _ _)]
      rw [foldl_proj g _ _ _ (fun b a _ => fin b _)]
      have hd : ∀ (x : Dev) z, g { x with dones := z } = g x := fun x z => hst x x.streams x.seqs x.moves x.provs z x.freed
      rw [hd, foldl_proj g _ _ _ (fun b a _ => ci b _), ss]

/-! ### Containment and retirement -/

theorem Dev.raise_retired (d : Dev) (e : Err) : (d.raise e).err.retired = d.err.retired := (d.raise_actions e).2.2.1

/-- What a minority check leaves alone of the cores, the retirements and the kindling. -/
theorem Dev.checkMinority_keeps (d : Dev) :
    d.checkMinority.cores = d.cores ∧ d.checkMinority.err.retired = d.err.retired ∧ d.checkMinority.kindle = d.kindle := by
  have jobs : ∀ x : Dev, x.haltFabricJobs.cores = x.cores ∧ x.haltFabricJobs.err = x.err ∧ x.haltFabricJobs.kindle = x.kindle := by
    intro x
    unfold Dev.haltFabricJobs Dev.onJobs
    refine ⟨foldl_proj (fun y : Dev => y.cores) _ _ x ?_, foldl_proj (fun y : Dev => y.err) _ _ x ?_, foldl_proj (fun y : Dev => y.kindle) _ _ x ?_⟩ <;>
      (intro b a _; split <;> (try split) <;> rfl)
  unfold Dev.checkMinority
  split
  · split
    · exact ⟨rfl, rfl, rfl⟩
    · dsimp only
      obtain ⟨h1, h2, h3⟩ := jobs { d.raise { code := 0x0904, cls := clsDevice, corr := false } with
        err := { (d.raise { code := 0x0904, cls := clsDevice, corr := false }).err with halting := d.err.halting }
        fabric := { (d.raise { code := 0x0904, cls := clsDevice, corr := false }).fabric with minority := true, state := 3 } }
      rw [h1, h2, h3]
      exact ⟨Dev.raise_cores d _, Dev.raise_retired d _, Dev.raise_kindle d _⟩
  · split <;> exact ⟨rfl, rfl, rfl⟩

/-- A link that goes DOWN changes no core, retires none and touches no kindling. -/
theorem linkDownD_keeps (l : Nat) (d : Dev) :
    (linkDownD l d).cores = d.cores ∧ (linkDownD l d).err.retired = d.err.retired ∧ (linkDownD l d).kindle = d.kindle := by
  have irq : ∀ x : Dev, (x.linkIrq l).cores = x.cores ∧ (x.linkIrq l).err = x.err ∧ (x.linkIrq l).kindle = x.kindle := by
    intro x; unfold Dev.linkIrq; split <;> simp
  have tr : ∀ x : Dev, (x.trainLink l).cores = x.cores ∧ (x.trainLink l).err = x.err ∧ (x.trainLink l).kindle = x.kindle := by
    intro x; unfold Dev.trainLink; split <;> exact ⟨rfl, rfl, rfl⟩
  have rep : ∀ x : Dev, x.reportMap.cores = x.cores ∧ x.reportMap.err = x.err ∧ x.reportMap.kindle = x.kindle := by
    intro x; unfold Dev.reportMap; split <;> exact ⟨rfl, rfl, rfl⟩
  have lost : ∀ x : Dev, x.lostParent.cores = x.cores ∧ x.lostParent.err = x.err ∧ x.lostParent.kindle = x.kindle := by
    intro x; unfold Dev.lostParent; split <;> exact ⟨rfl, rfl, rfl⟩
  unfold linkDownD
  split
  · exact ⟨rfl, rfl, rfl⟩
  · dsimp only
    generalize hx : (d.onLink l _).linkIrq l = x
    have hxs : x.cores = d.cores ∧ x.err = d.err ∧ x.kindle = d.kindle := by
      rw [← hx]; exact ⟨(irq _).1, (irq _).2.1, (irq _).2.2⟩
    generalize hy : (x.count (linkOff l + 0x10) 48 1).raise _ = y
    have hys : y.cores = d.cores ∧ y.err.retired = d.err.retired ∧ y.kindle = d.kindle := by
      rw [← hy]
      exact ⟨by simp [hxs.1], by rw [Dev.raise_retired, Dev.count_err, hxs.2.1], by simp [hxs.2.2]⟩
    generalize hz : ((y.trainLink l).advertise).reportMap = z
    have hzs : z.cores = d.cores ∧ z.err.retired = d.err.retired ∧ z.kindle = d.kindle := by
      rw [← hz, (rep _).1, (rep _).2.1, (rep _).2.2]
      exact ⟨(tr y).1.trans hys.1, (congrArg ErrBlock.retired (tr y).2.1).trans hys.2.1, (tr y).2.2.trans hys.2.2⟩
    have hm : ∀ w : Dev, (w.cores = d.cores ∧ w.err.retired = d.err.retired ∧ w.kindle = d.kindle) →
        ((if w.tb.parent = l ∧ ¬ w.fabric.isRoot ∧ w.tb.aligned then w.lostParent else w).cores = d.cores ∧
          (if w.tb.parent = l ∧ ¬ w.fabric.isRoot ∧ w.tb.aligned then w.lostParent else w).err.retired = d.err.retired ∧
          (if w.tb.parent = l ∧ ¬ w.fabric.isRoot ∧ w.tb.aligned then w.lostParent else w).kindle = d.kindle) := by
      intro w hw
      split
      · rw [(lost w).1, (lost w).2.1, (lost w).2.2]; exact hw
      · exact hw
    apply hm
    split
    · obtain ⟨a, b, c⟩ := z.checkMinority_keeps
      exact ⟨a.trans hzs.1, b.trans hzs.2.1, c.trans hzs.2.2⟩
    · exact hzs

/-- A containment of a slice stops its tasks; no byte, bank role or maintenance bit of a core changes, and no core retires. -/
theorem Dev.containSlice_spec (x : Dev) (s : Nat) :
    (∀ k, ((x.containSlice s).core k).mem = (x.core k).mem ∧ ((x.containSlice s).core k).roles = (x.core k).roles ∧
      ((x.containSlice s).core k).maint = (x.core k).maint) ∧ (x.containSlice s).err.retired = x.err.retired ∧
      (x.containSlice s).kindle = x.kindle := by
  have hc : ∀ k, mgetD (mmap (fun c y => if c / 64 = s then y.haltTasks else y) x.cores) k Core.reset = if k / 64 = s then (mgetD x.cores k Core.reset).haltTasks else mgetD x.cores k Core.reset := by
    intro k
    unfold mgetD
    rw [mget_mmap]
    cases mget x.cores k
    · simp only [Option.map_none, Option.getD_none]; split <;> rfl
    · simp only [Option.map_some, Option.getD_some]
  have links : ∀ (ls : List Nat) (d : Dev), (ls.foldl (fun d l => linkDownD l d) d).cores = d.cores ∧
      (ls.foldl (fun d l => linkDownD l d) d).err.retired = d.err.retired ∧ (ls.foldl (fun d l => linkDownD l d) d).kindle = d.kindle :=
    fun ls d => ⟨foldl_proj (fun y : Dev => y.cores) _ ls d (fun b l _ => (linkDownD_keeps l b).1),
      foldl_proj (fun y : Dev => y.err.retired) _ ls d (fun b l _ => (linkDownD_keeps l b).2.1),
      foldl_proj (fun y : Dev => y.kindle) _ ls d (fun b l _ => (linkDownD_keeps l b).2.2)⟩
  unfold Dev.containSlice
  dsimp only
  generalize hz : List.foldl (fun d l => linkDownD l d) _ _ = z
  have hzs : z.cores = mmap (fun c y => if c / 64 = s then y.haltTasks else y) x.cores ∧ z.err.retired = x.err.retired ∧ z.kindle = x.kindle := by
    rw [← hz]; exact links _ _
  split
  all_goals
    refine ⟨?_, hzs.2.1, hzs.2.2⟩
    intro k
    simp only [Dev.core, Dev.halt_cores]
    rw [hzs.1, hc k]
    split <;> exact ⟨rfl, rfl, rfl⟩

/-- A retirement sets the core's bit alone and changes no byte, bank role or maintenance bit. -/
theorem Dev.retireCore_spec (d : Dev) (c : Nat) :
    (∀ k, (d.retireCore c).coreRetired k = (d.coreRetired k || decide (k = c))) ∧
    (∀ k, ((d.retireCore c).core k).mem = (d.core k).mem ∧ ((d.retireCore c).core k).roles = (d.core k).roles ∧ ((d.retireCore c).core k).maint = (d.core k).maint) ∧ (d.retireCore c).kindle = d.kindle := by
  have hc := Dev.containSlice_spec
  unfold Dev.retireCore
  split
  · rename_i h
    refine ⟨?_, fun k => ⟨rfl, rfl, rfl⟩, rfl⟩
    intro k
    by_cases e : k = c
    · subst e; simp [h]
    · simp [e]
  · rename_i h
    dsimp only
    have hx : ∀ k, ((d.onCore c Core.haltTasks).core k).mem = (d.core k).mem ∧ ((d.onCore c Core.haltTasks).core k).roles = (d.core k).roles ∧ ((d.onCore c Core.haltTasks).core k).maint = (d.core k).maint := by
      intro k
      by_cases e : k = c
      · subst e; simp only [Dev.core_onCore]; exact ⟨rfl, rfl, rfl⟩
      · simp [e]
    have hb : ∀ k, (d.err.retired + 2 ^ c).testBit k = (d.coreRetired k || decide (k = c)) :=
      fun k => testBit_add_two_pow _ _ _ (by simpa [Dev.coreRetired, bit] using h)
    split
    · refine ⟨?_, ?_, ?_⟩
      · intro k
        show (Dev.containSlice _ _).err.retired.testBit k = _
        rw [(hc _ _).2.1]; exact hb k
      · intro k
        have := (hc { d.onCore c Core.haltTasks with err := { d.err with retired := d.err.retired + 2 ^ c, retiredAt := d.err.retiredAt ++ [(c, d.tb.round)] } } (c / 64)).1 k
        exact ⟨this.1.trans (hx k).1, this.2.1.trans (hx k).2.1, this.2.2.trans (hx k).2.2⟩
      · rw [(hc _ _).2.2]; rfl
    · exact ⟨hb, hx, rfl⟩

end Sys2Proof.Machine
end

