-- ==== Sys2Proof/Machine/ReadBack.lean ====
section
/-! DEFINITION. Machine/ReadBack.lean: what a host read of BAR0 returns (R6 to R12 and the register tables of every chapter). The
opcode table has no register read: this is a view of the state, and no command depends on it (entry 14). -/

namespace Sys2Proof.Machine

/-- A field of a register as it reads: lowest bit, width, value. -/
abbrev Shown := Nat × Nat × Nat

/-- Fields side by side; a value too wide for its field loses its upper bits. -/
def regWord (fs : List Shown) : Nat := fs.foldl (fun w f => w + (f.2.2 % 2 ^ f.2.1) * 2 ^ f.1) 0

/-- A count that saturates at its field's width. -/
def satField (n v : Nat) : Nat := min v (2 ^ n - 1)

/-- A counter field of the round before (R12). -/
def Dev.lrField (d : Dev) (off lo n : Nat) : Shown := (lo, n, d.lr off lo n)

/-! ### State codes -/

def SliceState.code : SliceState → Nat
  | .off => 0 | .kindling => 1 | .ready => 2 | .running => 3 | .contained => 4 | .scrubbing => 5 | .retired => 6

/-- A task that the barrier holds back is in overrun once a mark has passed since its program was due (R96). -/
def TaskState.code : TaskState → Nat
  | .none => 0 | .staged => 1 | .running => 2 | .ended => 3 | .held => 2 | .overrun => 4 | .stopped => 5

/-! ### Global and VMC registers -/

/-- TIM registers (R39 to R41, R43, R44, R516). -/
def Dev.readTime (d : Dev) (o : Nat) : Nat :=
  if o = 0x1000 then (if d.tb.aligned then d.tb.now else 0)
  else if o = 0x1010 then d.tb.round
  else if o = 0x1018 then d.tb.epoch
  else if o = 0x1020 then regWord [(0, 2, d.tb.state), (2, 6, d.tb.parent), (32, 32, unsext 32 d.tb.offset)]
  else if o = 0x1028 then d.tb.baseT
  else if o = 0x1030 then d.tb.baseN
  else 0

/-- GLB_KNDL_STAT (R598). -/
def Kindle.stat (k : Kindle) : Nat := regWord [(0, 1, k.fwOk.toNat), (1, 1, k.fwFail.toNat), (2, 1, k.fwSlotB.toNat), (3, 1, k.bistDone.toNat),
  (4, 1, k.wellDone.toNat), (5, 1, k.localReady.toNat), (6, 1, k.zeroed.toNat), (8, 8, k.wellFail), (32, 16, k.localMs)]

/-- VMC_JOBj_STAT, VMC_JOBj_GEN, VMC_ADPj_STAT (R87, R356, R442). -/
def Dev.readJob (d : Dev) (o : Nat) : Nat :=
  let x := d.job (o % 0x80 / 8)
  if o < 0x2080 then regWord [(0, 3, x.state.code), (16, 16, x.loadErr), (32, 32, x.actRound.getD 0)]
  else if o < 0x2100 then x.gen
  else match x.img with
    | some i => if bit i.jobFlags 1 then regWord [(0, 32, x.adpGens), (32, 8, x.adpStep), (40, 8, x.yielded.toNat), (48, 8, x.adpDisc)] else 0
    | none => 0

/-- FAB_MEMBERi (R515). -/
def Dev.readMember (d : Dev) (i : Nat) : Nat := match (idSort d.fabric.members)[i]? with
  | none => 0
  | some id =>
    let ix := (d.advert? id).bind (fun a => a.compiles.head?)
    regWord [(0, 48, leNat (id.take 6)), (48, 9, (ix.map Prod.snd).getD 0), (57, 1, ix.isSome.toNat),
      (58, 5, (hopsTo d.fabric.map d.trust.identity id).getD 0), (63, 1, 1)]

/-- ERR registers (R569 to R572). -/
def Dev.readErr (d : Dev) (o : Nat) : Nat :=
  if o = 0x6008 then regWord [(0, 1, d.err.ovf.toNat), (1, 1, d.err.halted.toNat), (8, 8, satField 8 d.err.queue.length), (16, 32, d.err.dropped)]
  else if o = 0x6010 then d.err.head
  else if 0x6020 ≤ o ∧ o < 0x6040 then bits d.err.retired (64 * ((o - 0x6020) / 8)) 64
  else if 0xA000 ≤ o ∧ o < 0xC000 then leAt (mgetD d.err.recs ((o - 0xA000) / 32) []) (o % 32) 8
  else 0

/-- PWR registers (R618, R619). -/
def Dev.readPower (d : Dev) (o : Nat) : Nat :=
  if o = 0x7008 then regWord [(0, 3, d.gov.level), (8, 12, d.gov.fMhz), (20, 12, d.gov.floorMhz), (32, 16, satField 16 d.gov.last.pAvg), (48, 1, d.gov.lvlEv.toNat)]
  else if 0x7010 ≤ o ∧ o < 0x7030 then
    let s := (o - 0x7010) / 8
    regWord [(0, 16, satField 16 (d.gov.last.sliceI.getD s 0)), (16, 16, unsext 16 (d.gov.last.sliceT.getD s 0)), (32, 16, unsext 16 (d.gov.tNow.getD s 0))]
  else 0

def Dev.readGlob (d : Dev) (o : Nat) : Nat :=
  if o = 0 then glbId
  else if o = 0x10 then regWord ((List.range 4).map (fun s => (8 * s, 3, (d.slice s).state.code)))
  else if o = 0x20 then d.kindle.stat
  else if 0x1000 ≤ o ∧ o < 0x2000 then d.readTime o
  else if 0x2000 ≤ o ∧ o < 0x2180 then d.readJob o
  else if o = 0x3000 then regWord [(0, 13, d.gov.active), (16, 13, d.gov.primed), (32, 16, d.gov.registered), (48, 16, satField 16 d.gov.waiting)]
  else if o = 0x3020 then d.log.head
  else if o = 0x4000 then regWord [(0, 10, max 1 d.fabric.members.length), (16, 2, d.fabric.state), (18, 1, d.fabric.isRoot.toNat), (32, 32, d.fabric.version)]
  else if o = 0x4008 then leNat (d.fabric.root.take 8)
  else if 0x5000 ≤ o ∧ o < 0x5020 then leAt d.trust.nonce (o - 0x5000) 8
  else if o = 0x5030 then regWord [(0, 2, d.trust.keyState), (2, 1, d.trust.keyEv.toNat), (8, 8, d.trust.keyErr)]
  else if 0x6000 ≤ o ∧ o < 0x7000 then d.readErr o
  else if 0x7000 ≤ o ∧ o < 0x8000 then d.readPower o
  else if 0x8000 ≤ o ∧ o < 0x9000 then d.readMember ((o - 0x8000) / 8)
  else if 0xA000 ≤ o ∧ o < 0xC000 then d.readErr o
  else 0

/-! ### Host queues (R524, R525, R537) -/

/-- JOB of a ring's CFG: the job that an intake ring feeds, the job of a result ring's source task. -/
def Dev.ringJob (d : Dev) (kind n : Nat) : Nat :=
  if kind = 2 then
    match d.jobs.find? (fun p => p.2.loaded && (match p.2.img with
      | some i => i.rings.any (fun r => srSource r == 3 && srProducer r == n)
      | none => false)) with
    | some p => p.1
    | none => 0
  else if kind = 3 then
    let k := d.task (d.regF (ringOff 3 n + 8) 32 8) (d.regF (ringOff 3 n + 8) 40 3)
    if k.state == .none then 0 else k.job
  else 0

def Dev.readHost (d : Dev) (o : Nat) : Nat :=
  match ringAt o with
  | some (kind, n) =>
    if o % 0x20 = 8 then regWord [(8, 4, d.ringJob kind n)]
    else if o % 0x20 = 0x18 then (d.ring (ringKey kind n)).devIdx
    else 0
  | none =>
    if o = 0x1230 then regWord [(0, 2, d.trust.attState), (2, 1, d.trust.attEv.toNat), (8, 8, d.trust.attErr), (16, 16, d.trust.attLen)]
    else if o = 0xF8000 then d.msix
    else 0

/-! ### Pumps (R438, R439) -/

/-- PMP_STAT and PMP_BYTES at +8 and +0x10 of PMP_REG. -/
def Dev.readPump (d : Dev) (p : PumpId) (o : Nat) : Nat :=
  let r := pumpReg p
  if o = 8 then regWord [(0, 1, ((d.pump p).queue.any (fun x => x.started)).toNat), (1, 7, (d.pump p).queue.length), d.lrField (r + 8) 16 16, d.lrField (r + 8) 32 16]
  else if o = 0x10 then d.lr (r + 0x10) 0 64
  else 0

/-! ### Links (R508 to R512) -/

def Dev.readLink (d : Dev) (l o : Nat) : Nat :=
  let x := d.link l
  if 36 ≤ l then 0
  else if o = 8 then regWord [(0, 3, x.state), (8, 9, x.partnerDev), (17, 1, x.partnerIdx.toNat), (18, 6, x.partnerLink), (32, 16, satField 16 x.latency),
    (48, 1, x.downEv.toNat), (49, 1, x.idEv.toNat)]
  else if o = 0x10 then regWord [d.lrField (linkOff l + 0x10) 0 16, d.lrField (linkOff l + 0x10) 16 16, d.lrField (linkOff l + 0x10) 32 16, d.lrField (linkOff l + 0x10) 48 16]
  else if o = 0x18 then d.lr (linkOff l + 0x18) 0 64
  else if o = 0x20 then leNat (x.partnerId.take 8)
  else if 0x100 ≤ o then d.readPump (.link (Fin.ofNat 36 l)) (o - 0x100)
  else 0

/-! ### Ports (R468 to R473) -/

/-- TDM_ROUTEr. -/
def routeWord (r : Rec) : Nat := regWord [(0, 1, 1), (1, 1, prDir r), (8, 7, prFirst r), (16, 7, prChans r), (24, 8, prCore r), (32, 3, prTask r), (40, 8, prRing r), (48, 16, prCap r)]

def Dev.readPort (d : Dev) (p o : Nat) : Nat :=
  let x := d.port p
  let b := portOff p
  if o = 8 then regWord [(0, 2, x.state), (2, 1, x.rateAct.toNat), (8, 5, bits x.ev 8 5)]
  else if o = 0x10 then regWord [(0, 32, satField 32 x.meas), (32, 32, d.pNominal p)]
  else if o = 0x18 then regWord [d.lrField (b + 0x18) 0 32, d.lrField (b + 0x18) 32 32]
  else if o = 0x20 then regWord [d.lrField (b + 0x20) 0 16, d.lrField (b + 0x20) 16 16, d.lrField (b + 0x20) 32 16, d.lrField (b + 0x20) 48 16]
  else if o = 0x28 then regWord [(0, 3, d.pEnc p), (3, 1, (x.routes.any (fun r => prPack r.2)).toNat), (8, 4, x.routes.length)]
  else if 0x40 ≤ o ∧ o < 0x80 then (match x.routes[(o - 0x40) / 8]? with
    | some r => routeWord r.2
    | none => 0)
  else 0

/-- An operation that an engine has begun and that waits: where it stands among the held words, and whether an interlock holds it. -/
structure HeldOp where
  order : Nat
  core : Nat
  task : Nat
  desc : Nat
  interlock : Bool
  deriving DecidableEq, Repr

/-- The operations of some opcodes that an interlock or an elastic slot holds on some cores, first issued first (R165, R378). -/
def Dev.heldOps (d : Dev) (cs ops : List Nat) : List HeldOp :=
  let all := cs.flatMap (fun c => (d.core c).tasks.filterMap (fun p => match p.2.wait, d.curWordOf c p.1 with
    | some ⟨.interlock, _, _, _, o⟩, some word => if ops.contains (wOpcode word) then some (⟨o, c, p.1, bits (wArgs word) 0 12, true⟩ : HeldOp) else none
    | some ⟨.ring _ _, _, _, _, o⟩, some word => if ops.contains (wOpcode word) then some ⟨o, c, p.1, bits (wArgs word) 0 12, false⟩ else none
    | _, _ => none))
  all.mergeSort (fun a b => decide (a.order ≤ b.order))

/-- The operation that holds a core's engine. -/
def Dev.heldTask (d : Dev) (c : Nat) (ops : List Nat) : Option HeldOp := (d.heldOps [c] ops).head?

/-- An interlock holds it (R161, R199). -/
def waiting (h : Option HeldOp) : Nat := (h.any (·.interlock)).toNat

/-- KIND of an element-engine word (R199). -/
def Dev.eleKind (d : Dev) (c : Nat) (held : HeldOp) : Nat := match d.curWordOf c held.task with
  | some w => if wOpcode w = 0x06 then 1 else if wOpcode w = 0x07 then 2 else if fld ((d.task c held.task).desc held.desc) 35 1 = 1 then 3 else 0
  | none => 0

/-! ### Slices (R306) -/

def Dev.readSlice (d : Dev) (s o : Nat) : Nat :=
  if o = 0x2000 then
    let e := (d.slice s).smpLast
    let hs := d.heldOps ((List.range 64).map (fun n => 64 * s + n)) [0x10]
    let cur := match hs.head? with
      | some h => (h.core % 64, h.task, h.desc)
      | none => (e.core, e.task, e.desc)
    regWord [(0, 1, (!hs.isEmpty).toNat), (1, 6, cur.1), (7, 3, cur.2.1), (10, 12, cur.2.2), (22, 10, satField 10 (hs.length - 1)), d.lrField (sliceOff s + 0x2000) 32 32]
  else if 0x3000 ≤ o ∧ o < 0x3080 then d.readPump (.well (Fin.ofNat 4 s) (Fin.ofNat 4 ((o - 0x3000) / 0x20))) (o % 0x20)
  else 0

/-! ### Cores -/

/-- BUSY, TASK, DESC of an engine whose operations complete within their command: it is busy while one of them waits. -/
def engFields (e : EngLast) (held : Option HeldOp) : List Shown :=
  [(0, 1, held.isSome.toNat), (1, 3, (held.map (·.task)).getD e.task), (4, 12, (held.map (·.desc)).getD e.desc)]

/-- STATE of a task (R96). A task that waits at the barrier of R36 reads ENDED in the round in which its END issued and, behind by more than a mark,
OVERRUN; after the first mark, which it reached in time, it reads RUNNING until its next program starts: no code of the table names it (DESIGN
CHOICE, entry 90). -/
def Dev.stateCode (d : Dev) (k : Task) : Nat :=
  if k.state == .held && k.endedAt == some d.tb.round then TaskState.ended.code
  else if k.state == .held && decide (k.progRound + 1 < d.tb.round) then TaskState.overrun.code else k.state.code

/-- Registers of a core's tasks: COR_TASKt_CTL, STAT, REGION, FLAGS, COR_NANTRAPt (R95 to R97, R126, R132). -/
def Dev.readTask (d : Dev) (c o : Nat) : Nat :=
  if o < 0x200 then
    let k := d.task c ((o - 0x100) / 0x20)
    if o % 0x20 = 0 then regWord [(0, 1, k.strict.toNat), (1, 1, k.nanTrap.toNat)]
    else if o % 0x20 = 8 then regWord [(0, 3, d.stateCode k), (8, 4, if k.state == .none then 0 else k.job), (16, 16, k.ovrCnt)]
    else if o % 0x20 = 0x10 then regWord [(0, 28, k.base), (32, 28, k.bound)]
    else 0
  else if o < 0x240 then
    let k := d.task c ((o - 0x200) / 8)
    regWord [(0, 4, k.flags.num), (8, 4, k.flagsLr.num)]
  else if 0x280 ≤ o then
    let k := d.task c ((o - 0x280) / 0x20)
    if o % 0x20 = 0 then k.trapA else if o % 0x20 = 8 then k.trapElem else if o % 0x20 = 0x10 then k.trapRound else 0
  else 0

/-- Matrix engine, expander, relay (R160 to R163, R440, R441). -/
def Dev.readMatrix (d : Dev) (c o : Nat) : Nat :=
  let x := d.core c
  let b := coreOff c
  if o = 0x400 then 0x4002004020
  else if o = 0x408 then
    let h := d.heldTask c [0x02]
    regWord (engFields x.matLast h ++ [(16, 1, waiting h), d.lrField (b + 0x408) 32 32])
  else if o = 0x480 then regWord [d.lrField (b + 0x480) 0 32, d.lrField (b + 0x480) 32 16]
  else if 0x490 ≤ o ∧ o < 0x4B0 then
    let g := x.gens.getD ((o - 0x490) / 8) GenSlot.reset
    if g.state = 0 then 0
    else regWord [(0, 2, g.state), (16, 16, g.gen), (32, 16, satField 16 (d.genRequests c g.gen (if g.state = 2 then g.retired else d.tb.round)))]
  else if o = 0x4B0 then regWord [(0, 16, (x.pendLoads.head?.map (·.gen)).getD 0), (16, 3, x.pendLoads.length), d.lrField (b + 0x4B0) 32 16]
  else if o = 0x4C0 then
    let inSeg := (List.range 64).any (fun k =>
      let e := c / 64 * 64 + k
      (d.core e).tasks.any (fun p => (d.job p.2.job).state == .active && (List.range p.2.schedWords).any (fun i =>
        let w := d.wordAt e p.1 i
        let r := p.2.desc (bits (wArgs w) 0 12 + 1)
        wOpcode w == 0x03 && decide (rkHead r ≤ chainPos c) && decide (chainPos c ≤ rkTail r))))
    regWord [(0, 6, chainPos c), (6, 1, inSeg.toNat), (8, 5, x.relay.buf.length), d.lrField (b + 0x4C0) 16 16, d.lrField (b + 0x4C0) 32 16]
  else 0

/-- Element engine, gate pipeline, reduction unit, summaries (R198 to R202). -/
def Dev.readEngines (d : Dev) (c o : Nat) : Nat :=
  let x := d.core c
  let b := coreOff c
  if o = 0x500 then 0xC08200100 * 2 ^ 16 + 0x8040
  else if o = 0x508 then
    let h := d.heldTask c [0x05, 0x06, 0x07]
    regWord (engFields x.eleLast h ++ [(16, 2, (h.map (d.eleKind c)).getD x.eleLast.kind), (18, 1, waiting h), d.lrField (b + 0x508) 32 32])
  else if o = 0x540 then regWord (engFields x.redLast (d.heldTask c [0x08]) ++ [(16, 1, x.redLast.empty.toNat), d.lrField (b + 0x540) 32 32])
  else if o = 0x580 then regWord (engFields x.gatLast none ++ [d.lrField (b + 0x580) 32 32])
  else if 0x800 ≤ o ∧ o < 0xC00 then
    let v := mgetD (x.task ((o - 0x800) / 0x80)).sums ((o - 0x800) % 0x80 / 8) (0, false)
    regWord [(0, 32, v.1), (32, 1, v.2.toNat)]
  else 0

/-- KV heads of a layer on a core of its range: HPC, or what the last group leaves (R233, R262). -/
def kvHeadsOn (l : Rec) (c : Nat) : Nat := min (kvHpc l) (kvHeads l - (c - kvCore0 l) / max 1 (kvSplit l) * kvHpc l)

/-- COR_KVt_POOL and COR_KVt_STAT (R262, R263). -/
def Dev.readKv (d : Dev) (c o : Nat) : Nat :=
  let t := (o - 0x600) / 0x10
  if o % 0x10 = 0 then (match d.poolLayer c t with
    | some (_, l) => regWord [(0, 16, kvPoolFrames l), (16, 5, kvPage l / 1024), (21, 4, kvHeadsOn l c), (32, 28, kvPoolBase l)]
    | none => 0)
  else
    let b := coreOff c + o
    regWord [(0, 16, satField 16 (d.task c t).kvFree), d.lrField b 16 16, d.lrField b 32 16, d.lrField b 48 16]

/-- CIS registers (R391 to R399). -/
def Dev.readCistern (d : Dev) (c o : Nat) : Nat :=
  let x := d.core c
  let b := coreOff c
  if o = 0x1800 then Config.cisternBytes
  else if o = 0x1808 then 0x8040249680402010
  else if o = 0x1810 then regWord [(0, 1, x.maint.toNat), (1, 1, x.locked.toNat), (2, 1, (d.coreActive c && x.roles.any (fun r => r.2 == 1)).toNat)]
  else if o = 0x1818 then regWord [d.lrField (b + 0x1818) 0 16, d.lrField (b + 0x1818) 16 16, d.lrField (b + 0x1818) 32 16]
  else if o = 0x1820 then regWord [d.lrField (b + 0x1820) 0 32, d.lrField (b + 0x1820) 32 16, d.lrField (b + 0x1820) 48 16]
  else if o = 0x1828 then satField 32 x.denied
  else if 0x1900 ≤ o ∧ o < 0x1A00 then (match mget x.windows ((o - 0x1900) / 0x10) with
    | none => 0
    | some w => if o % 0x10 = 0 then regWord [(0, 28, w.base), (32, 28, w.bound)]
      else regWord [(0, 1, w.isOpen.toNat), (1, 3, w.owner), d.lrField (b + o) 32 32])
  else if 0x2000 ≤ o ∧ o < 0x2400 then regWord ((List.range 8).map (fun k =>
    let g := mgetD x.tags ((o - 0x2000) + k) { full := false, wait := false, slipped := false }
    (8 * k, 3, g.full.toNat + 2 * g.wait.toNat + 4 * g.slipped.toNat)))
  else 0

/-- Peaks, scales, statistics, random bits (R230, R231, R287 to R289, R305). -/
def Dev.readTables (d : Dev) (c o : Nat) : Nat :=
  let x := d.core c
  let b := coreOff c
  if o = 0xC00 then regWord [(1, 1, x.stpeakClr.toNat), (16, 13, x.stpeakUsed), (32, 16, x.stpeakUnrec)]
  else if o = 0xC08 then regWord [(0, 9, x.groups.length), (16, 7, x.accs.length), d.lrField (b + 0xC08) 32 16]
  else if o = 0xD00 then
    let n := (d.jobs.map (fun j => match j.2.img with
      | some i => if j.2.loaded then (i.bindings.filter (fun r => fld r 0 2 == c)).length else 0
      | none => 0)).foldl (· + ·) 0
    regWord [(0, 9, satField 9 n), d.lrField (b + 0xD00) 32 32]
  else if 0x1000 ≤ o ∧ o < 0x1800 then (match x.accs[(o - 0x1000) / 0x20]? with
    | some a => leAt a.record (o % 0x20) 8
    | none => 0)
  else if 0x4000 ≤ o ∧ o < 0x8000 then regWord [(0, 32, mgetD x.stpeak ((o - 0x4000) / 4) 0), (32, 32, mgetD x.stpeak ((o - 0x4000) / 4 + 1) 0)]
  else if 0x8000 ≤ o then bits (x.scaleEntry ((o - 0x8000) / 8)) 0 40
  else 0

def Dev.readCore (d : Dev) (c o : Nat) : Nat :=
  if o < 0x100 then 0
  else if o < 0x380 then d.readTask c o
  else if 0x400 ≤ o ∧ o < 0x500 then d.readMatrix c o
  else if 0x500 ≤ o ∧ o < 0x600 ∨ 0x800 ≤ o ∧ o < 0xC00 then d.readEngines c o
  else if 0x600 ≤ o ∧ o < 0x680 then d.readKv c o
  else if 0xE00 ≤ o ∧ o < 0xF00 then d.readPump (.core (Fin.ofNat 256 c)) (o - 0xE00)
  else if 0x1800 ≤ o ∧ o < 0x2400 then d.readCistern c o
  else if o < 0x10000 then d.readTables c o
  else 0

/-! ### The register, and bytes of BAR0 -/

/-- The fields that read back what the host wrote (R9). -/
def Dev.writtenPart (d : Dev) (off : Nat) : Nat :=
  regWord (((fieldsAt off).filter (fun f => f.acc == .rw)).map (fun f => (f.lo, f.n, bits (d.curWord off) f.lo f.n)))

/-- The 64-bit register at an 8-byte-aligned offset; an offset with no register reads zero (R8). -/
def Dev.readReg (d : Dev) (off : Nat) : Nat :=
  let shown := match blkOf off with
    | .glob o => d.readGlob o
    | .host o => d.readHost o
    | .link l o => d.readLink l o
    | .port p o => d.readPort p o
    | .slice s o => d.readSlice s o
    | .core c o => d.readCore c o
    | .none => 0
  shown + d.writtenPart off

/-- A register that a host read reaches: every one from local readiness on; GLB_ID, GLB_KNDL_STAT, ERR_STAT and ERR_REC0 once firmware
verification has failed (R577, R578). -/
def Dev.readable (d : Dev) (off : Nat) : Bool :=
  d.kindle.localReady || (d.kindle.retryEnded && (off == 0 || off == 0x20 || off == 0x6008 || (decide (0xA000 ≤ off) && decide (off < 0xA020))))

/-- n bytes from an offset of BAR0 (R7). -/
def Dev.bar0Read (d : Dev) (off n : Nat) : Bytes := (List.range n).map (fun i =>
  let r := (off + i) / 8 * 8
  if d.readable r then BitVec.ofNat 8 (bits (d.readReg r) (8 * ((off + i) % 8)) 8) else 0)

end Sys2Proof.Machine
end

