-- ==== Sys2Proof/WellFormed.lean ====
section
/-! DEFINITION. WellFormed.lean: the commands that the outside world can send: operands within the widths and lengths that
spec/ gives the thing they name. Units are already bounded by their types; the meanings are total on every command. -/

namespace Sys2Proof

/-- A 256-bit identity (R492, R592). -/
def Bytes.isIdentity (b : Bytes) : Bool := b.length == 32

/-- The name of a time base: an identity, or nothing before alignment (R492). -/
def Bytes.isBase (b : Bytes) : Bool := b.isEmpty || b.length == 32

/-- DEVICE_INDEX in a fabric of up to 512 devices (R53). -/
def deviceOk (dev : Nat) : Bool := decide (dev < 512)

/-- COMPILE_ID, 8 bytes (R53). -/
def compileOk (c : Nat) : Bool := decide (c < 2 ^ 64)

/-- TIME, 64 bits (R23). -/
def timeOk (t : Nat) : Bool := decide (t < 2 ^ 64)

/-- A round length in half milliseconds (R38). -/
def roundLenOk (n : Nat) : Bool := decide (2 ≤ n) && decide (n ≤ 80)

/-- An index of a ring (R526). -/
def ringIdxOk (i : Nat) : Bool := decide (i < 2 ^ 32)

def Advert.wf (a : Advert) : Bool :=
  Bytes.isIdentity a.identity && Bytes.isBase a.baseRoot && timeOk a.epoch &&
    a.compiles.all (fun p => compileOk p.1 && deviceOk p.2) &&
    a.links.all (fun l => decide (l.link < 36) && Bytes.isIdentity l.partner && decide (l.state < 8))

/-- A slice has one current and one temperature sensor figure each (R602). -/
def Measure.wf (m : Measure) : Bool := m.sliceI.length == 4 && m.sliceT.length == 4

/-- Engine 0 to 7, an element within the 32-bit index of R133, a bank of R358 and an offset within the cistern (R391). -/
def Detect.wf : Detect → Bool
  | .none => true
  | .residue engine _ elem => decide (engine < 8) && decide (elem < 2 ^ 32)
  | .eccCorrected words => decide (1 ≤ words) && decide (words < 2 ^ 24)
  | .eccUncorrectable bank addr => decide (bank < 48) && decide (addr < 0x500000)

def EngEv.wf (e : EngEv) : Bool := decide (e.lost < 2 ^ 32) && e.detect.wf

def TaskEv.wf (e : TaskEv) : Bool := decide (e.lost < 2 ^ 32) && e.det.wf

def FlitEv.wf (e : FlitEv) : Bool := decide (e.lost < 2 ^ 32)

/-- A write of a remote port carries at least one byte (R400). -/
def RemoteBytes.wf (b : RemoteBytes) : Bool := decide (1 ≤ b.bytes.length) && decide (b.lost < 2 ^ 32)

def DeepRead.wf (x : DeepRead) : Bool := decide (x.lost < 2 ^ 32) && x.det.wf

/-- Well-formed commands. -/
def Instr.wf : Instr → Bool
  | .pwrGoodRise => true
  | .pwrGoodFall => true
  | .brdRstN => true
  | .perstN _ => true
  | .functionLevelReset => true
  | .pllLock => true
  | .firmwareVerification => true
  | .keySlotCheck => true
  | .cisternTest failing => decide failing.Nodup
  | .wellTraining _ _ => true
  | .localReadiness ms => decide (ms < 2 ^ 16)
  | .wellZeroingDone => true
  | .linkTrained _ => true
  | .linkIdentify _ nonce cert sig _ baseRoot _ => nonce.length == 32 && cert.length == 3796 && sig.length == 2420 && Bytes.isBase baseRoot
  | .linkDown _ => true
  | .linkFlitReceive _ _ corrected flit => flit.length == 640 && decide (corrected < 2 ^ 16)
  | .linkTransferArrival _ now => timeOk now
  | .windowReject _ => true
  | .advertisement a => a.wf
  | .mapConverged => true
  | .selfRoot => true
  | .alignmentStart => true
  | .timeExchange _ t1 t2 t3 t4 => timeOk t1 && timeOk t2 && timeOk t3 && timeOk t4
  | .alignedReport id => Bytes.isIdentity id
  | .epochFlood e => timeOk e.epoch && e.epoch % 1000000 == 0 && (match e.running with
    | some (t, n, len) => timeOk t && decide (e.epoch ≤ t) && timeOk n && roundLenOk len
    | none => true)
  | .membershipReport id => Bytes.isIdentity id
  | .membershipVersionFlood _ _ roundLen => match roundLen with
    | some n => roundLenOk n
    | none => true
  | .roundLenReport len id => roundLenOk len && Bytes.isIdentity id
  | .roundLenRefusal => true
  | .stagedReport compile dev => compileOk compile && deviceOk dev
  | .activationRoundFlood compile _ => compileOk compile
  | .stagingTimeout compile => compileOk compile
  | .jobAbortFlood compile => compileOk compile
  | .recoveryNotice compile _ _ => compileOk compile
  | .mirrorShipment _ => true
  | .roundMark m => m.wf
  | .tagTimeout _ _ => true
  | .taskWatchdog _ _ => true
  | .vmcWatchdog => true
  | .thermalTrip => true
  | .powerTrip => true
  | .intakeSeal => true
  | .nop _ task => task.wf
  | .wEnd _ task => task.wf
  | .matRun _ _ ev => ev.wf
  | .relay _ task => task.wf
  | .relayFlit _ ev => ev.wf
  | .gateSet _ task => task.wf
  | .eleRun _ _ ev => ev.wf
  | .eleScan _ _ ev => ev.wf
  | .convert _ _ ev => ev.wf
  | .redRun _ _ ev => ev.wf
  | .pump _ task => task.wf
  | .pumpReadRequest _ bytes now => decide (1 ≤ bytes) && timeOk now
  | .pumpDrainStart _ => true
  | .pumpTransferComplete _ now deep => timeOk now && deep.wf
  | .release _ task => task.wf
  | .elasticWaitEnd _ task cycle => task.wf && decide (cycle < 2 ^ 26)
  | .interlockWaitEnd _ task cycle => task.wf && decide (cycle < 2 ^ 26)
  | .tlyAdd _ task => task.wf
  | .tlyWait _ task => task.wf
  | .tlyWaitSatisfied _ task => task.wf
  | .tlyWaitTimeout _ _ => true
  | .summ _ task => task.wf
  | .branch _ task => task.wf
  | .wRepeat _ task => task.wf
  | .smpReq _ task => task.wf
  | .specOpen _ task => task.wf
  | .specCommit _ task => task.wf
  | .specAbort _ task => task.wf
  | .emberOut _ task => task.wf
  | .emberIn _ task => task.wf
  | .result _ task now => timeOk now && task.wf
  | .resultBacklogDrain kind ring => (kind == .cq && decide (ring.val < 16)) || kind == .rq
  | .window _ task => task.wf
  | .adaptSpan _ task => task.wf
  | .statFlush _ task => task.wf
  | .nanTrap _ _ word elem _ => decide (word < 2 ^ 15) && decide (elem < 2 ^ 32)
  | .errorRecordHandle => true
  | .scrubPatrol _ _ det => det.wf
  | .remoteWrite writer tgt off data => writer != tgt && data.wf && decide (off + data.bytes.length ≤ 0x500000)
  | .killScrubComplete _ _ => true
  | .sliceScrubComplete _ => true
  | .expSlotRelease _ _ => true
  | .tdmFrame _ slots now => decide (slots.length ≤ 128) && slots.all (fun v => decide (v < 2 ^ 32)) && timeOk now
  | .tdmMissingSync _ now => timeOk now
  | .tdmClockStop _ now => timeOk now
  | .tdmStopRepeatFrame _ now => timeOk now
  | .tdmPlayRefill _ _ => true
  | .sqDoorbell _ hostidx now => ringIdxOk hostidx && timeOk now
  | .iqDoorbell _ hostidx now => ringIdxOk hostidx && timeOk now
  | .ringHostidxConsume isRq ring hostidx => (isRq || decide (ring.val < 16)) && ringIdxOk hostidx
  | .ringRecordFetch intake ring record _ now => record.length == (if intake then 32 else 64) && (intake || decide (ring.val < 16)) && timeOk now
  | .intakeRecord _ => true
  | .ringIrqHoldoff kind ring now => (kind == .iq || kind == .rq || decide (ring.val < 16)) && timeOk now
  | .loadImage image => decide (image.length ≤ 2 ^ 30)
  | .loadStaged _ => true
  | .stopJob => true
  | .killJob => true
  | .register => true
  | .deregister => true
  | .resetMark => true
  | .target tokens => tokens.length % 4 == 0
  | .bar2Write off data now => decide (1 ≤ data.length) && decide (off % 2 ^ 26 + data.length ≤ 2 ^ 26) && decide (off < 2 ^ 31) && timeOk now
  | .bar2WriteApply => true
  | .bar2Read off n => decide (off % 2 ^ 26 + n.bytes ≤ 2 ^ 26) && decide (off < 2 ^ 31) && n.det.wf
  | .bar4Write off data => decide (off + data.length ≤ 2 ^ 36)
  | .bar4Read off n => decide (off + n ≤ 2 ^ 36)
  | .roundLenWrite value now => decide (value < 2 ^ 7) && timeOk now
  | .linkEnableWrite _ _ => true
  | .vmcLogTailWrite value => decide (value < 2 ^ 64)
  | .errTailWrite value => decide (value < 2 ^ 64)
  | .ovrClr _ _ => true
  | .cisScrubClr _ => true
  | .stpeakClr _ => true
  | .hqAttGo => true
  | .attestationReport _ => true
  | .vmcKeyGo => true
  | .keyRequestComplete _ => true
  | .registerWrite off data => decide (off + data.length ≤ 2 ^ 26)
  | .tdmFrameSync _ _ _ now => timeOk now
  | .sliceScrubStart _ => true
  | .weightRefetchComplete _ => true
  | .fwFailRetryEnd => true
  | .lateActivationReport compile dev => compileOk compile && deviceOk dev
  | .shipmentCompleteReport mirror _ => deviceOk mirror

end Sys2Proof
end

