-- ==== Sys2Proof/Tests/Slice0.lean ====
section
/-! SUPPORT. Tests/Slice0.lean: small tests: ill-formed commands are refused, and for each statement that has hypotheses states and
operands that meet them, clause by clause. Expected figures come from the rules of spec/ that the statements cite. -/

set_option Elab.async false

open Sys2Proof Sys2Proof.Machine

/-! ### States to test on -/

def Test.image : Image :=
  { minor := 0, compileId := 7, deviceIndex := 0, fabricSize := 1, roundLen := 20, jobFlags := 0, adaptShare := 0, endCycle := 1000,
    coreMask := 0, keySlot := 0, digest := [], placements := [], bankRoles := [], routes := [], rings := [], windows := [], descs := [],
    peat := [], tallies := [], jobSeed := 0, snumBase := 0, hasSeeds := false, bindings := [], sched := [], ranges := [], objects := [],
    pools := [], regulators := [], failover := [], classes := [], adapters := [] }

/-- A device past local readiness, its slices READY. -/
def Test.dev : Dev :=
  { Dev.reset with
    kindle := { Kindle.reset with powered := true, pllLocked := true, fwDone := true, fwOk := true, keysDone := true, bistDone := true, localReady := true }
    slices := [0, 1, 2, 3].map (fun k => (k, { Slice.reset with state := .ready })) }

/-- A task of job 1 on core 0 that runs the words of `ws` with descriptors and rings. -/
def Test.task (ws : List Nat) (ds : List Rec) (rs : List Ring) : Task :=
  { Task.reset with
    job := 1, base := 0, bound := 4096, schedAddr := 0, schedWords := ws.length, descs := ds, rings := rs, state := .running, progRound := 3 }

def Test.core (ws : List Nat) (k : Task) : Core :=
  { Core.reset with maint := false, mem := memWrite [] 0 (ws.flatMap (leBytes 8)), tasks := [(0, k)] }

def Test.on (d : Dev) : State := { State.reset with dev := d }

def Test.run (ws : List Nat) (k : Task) : Dev :=
  { Test.dev with
    jobs := [(1, { Job.reset with state := .active, img := some Test.image })]
    cores := [(0, Test.core ws k)]
    tb := { TimeBase.reset with round := 3, nextMark := 4, running := true } }

/-- A schedule word (R72): opcode in bits 36 to 31, ARGS below. -/
def Test.w (op args : Nat) : Nat := op * 2 ^ 31 + args

/-- One word and nothing else. -/
def Test.one (word : Nat) : State := Test.on (Test.run [word] (Test.task [word] [] []))


/-! ### The block as a whole -/

/-- The state after a command that goes on, for checks of one or two fields. -/
def Test.after (c : Instr) (s : State) (p : State → Bool) : Bool := match exec c s with
  | .next t => p t
  | _ => false

theorem witness_StepRunsFront : ({ State.reset with pending := [.pllLock, .vmcWatchdog] } : State).pending = .pllLock :: [.vmcWatchdog] := rfl

theorem witness_EveryStepGoesOn : State.reset.pending = [] := rfl

theorem witness_CommandsIgnoreTheQueue : exec .pllLock State.reset = .next State.reset := rfl

theorem witness_FusesOnlyBlow : State.reset.vault.Inv ∧ exec .pllLock State.reset = .next State.reset ∧
    State.reset.vault.slots[4]? = some ⟨zeros 32, true, false⟩ := ⟨by unfold Vault.Inv; decide, rfl, by decide⟩

theorem witness_StepsKeepVaultInvariant : State.reset.vault.Inv ∧ step State.reset = .next State.reset :=
  ⟨by unfold Vault.Inv; decide, rfl⟩

theorem witness_StepsKeepMemoriesCanonical : MemoriesCanonical State.reset.dev ∧ step State.reset = .next State.reset :=
  ⟨⟨rfl, rfl, fun _ => rfl⟩, rfl⟩

/-- A step takes the front command off and runs it (the bare model). -/
theorem test_step_pops : step { Test.on Test.dev with pending := [.pllLock] } =
    .next (Test.on Test.dev) := rfl

/-! ### Ill-formed commands -/

theorem test_wf_cistern : (Instr.cisternTest [3, 3]).wf = false := by decide
theorem test_wf_ready : (Instr.localReadiness 65536).wf = false := by decide
theorem test_wf_identify : (Instr.linkIdentify 0 [] [] [] 0 [] false).wf = false := by decide
theorem test_wf_flit : (Instr.linkFlitReceive 0 true 0 []).wf = false := by decide
theorem test_wf_time : (Instr.linkTransferArrival 0 (2 ^ 64)).wf = false ∧ (Instr.timeExchange 0 0 0 0 (2 ^ 64)).wf = false := by decide
theorem test_wf_epoch : (Instr.epochFlood ⟨1500000, none⟩).wf = false := by decide
theorem test_wf_identity : (Instr.alignedReport [1]).wf = false ∧ (Instr.membershipReport []).wf = false := by decide
theorem test_wf_version : (Instr.membershipVersionFlood 1 4 (some 81)).wf = false ∧ (Instr.roundLenReport 1 (zeros 32)).wf = false := by decide
theorem test_wf_compile : (Instr.stagedReport (2 ^ 64) 0).wf = false ∧ (Instr.stagedReport 0 512).wf = false ∧
    (Instr.activationRoundFlood (2 ^ 64) 0).wf = false ∧ (Instr.stagingTimeout (2 ^ 64)).wf = false ∧ (Instr.jobAbortFlood (2 ^ 64)).wf = false ∧
    (Instr.recoveryNotice (2 ^ 64) 0 true).wf = false := by decide
theorem test_wf_measure : (Instr.roundMark { Measure.reset with sliceI := [0] }).wf = false := by decide
theorem test_wf_engine : (Instr.matRun 0 0 ⟨2 ^ 32, .none⟩).wf = false ∧ (Instr.eleRun 0 0 ⟨0, .residue 8 true 0⟩).wf = false ∧
    (Instr.eleScan 0 0 ⟨0, .eccCorrected 0⟩).wf = false ∧ (Instr.convert 0 0 ⟨0, .eccUncorrectable 48 0⟩).wf = false ∧
    (Instr.redRun 0 0 ⟨0, .eccUncorrectable 0 0x500000⟩).wf = false := by decide
theorem test_wf_pump : (Instr.pumpReadRequest (.core 0) 0 0).wf = false ∧ (Instr.pumpTransferComplete (.core 0) (2 ^ 64) ⟨[], 0, .none⟩).wf = false := by decide
theorem test_wf_cycle : (Instr.elasticWaitEnd 0 (.of 0) (2 ^ 26)).wf = false ∧ (Instr.interlockWaitEnd 0 (.of 0) (2 ^ 26)).wf = false := by decide
theorem test_wf_result : (Instr.result 0 (.of 0) (2 ^ 64)).wf = false ∧ (Instr.resultBacklogDrain .cq 16).wf = false ∧
    (Instr.resultBacklogDrain .sq 0).wf = false := by decide
theorem test_wf_trap : (Instr.nanTrap 0 0 (2 ^ 15) 0 none).wf = false := by decide
theorem test_wf_remote : (Instr.remoteWrite 1 1 0 ⟨[1], 0⟩).wf = false ∧ (Instr.remoteWrite 1 2 0x4FFFFF ⟨[1, 2], 0⟩).wf = false := by decide
theorem test_wf_frame : (Instr.tdmFrame 0 [2 ^ 32] 0).wf = false ∧ (Instr.tdmMissingSync 0 (2 ^ 64)).wf = false ∧
    (Instr.tdmClockStop 0 (2 ^ 64)).wf = false ∧ (Instr.tdmStopRepeatFrame 0 (2 ^ 64)).wf = false ∧ (Instr.tdmFrameSync 0 true true (2 ^ 64)).wf = false := by decide
theorem test_wf_rings : (Instr.sqDoorbell 0 (2 ^ 32) 0).wf = false ∧ (Instr.iqDoorbell 0 0 (2 ^ 64)).wf = false ∧
    (Instr.ringHostidxConsume false 16 0).wf = false ∧ (Instr.ringIrqHoldoff .cq 16 0).wf = false := by decide
theorem test_wf_fetch : (Instr.ringRecordFetch true 0 [] [] 0).wf = false ∧ (Instr.ringRecordFetch false 16 (zeros 64) [] 0).wf = false := by decide
theorem test_wf_apertures : (Instr.bar2Write 0 [] 0).wf = false ∧ (Instr.bar2Write (2 ^ 26 - 1) [1, 2] 0).wf = false ∧
    (Instr.bar2Read (2 ^ 31) ⟨0, .none⟩).wf = false ∧ (Instr.bar4Write (2 ^ 36) [1]).wf = false ∧ (Instr.bar4Read (2 ^ 36) 1).wf = false := by decide
theorem test_wf_registers : (Instr.roundLenWrite 128 0).wf = false ∧ (Instr.vmcLogTailWrite (2 ^ 64)).wf = false ∧
    (Instr.errTailWrite (2 ^ 64)).wf = false ∧ (Instr.registerWrite (2 ^ 26) [1]).wf = false := by decide
theorem test_wf_reports : (Instr.lateActivationReport 0 512).wf = false ∧ (Instr.shipmentCompleteReport 512 0).wf = false ∧
    (Instr.target [1, 2, 3]).wf = false := by decide

/-- An advertisement with an ill-formed identity, time base, compile or link. -/
def Test.advert : Advert :=
  { identity := zeros 32, seq := 0, localReady := true, links := [], baseRoot := [], epoch := 0, aligned := false, compiles := [], busy := false }

theorem test_wf_advert : (Instr.advertisement Test.advert).wf = true ∧ (Instr.advertisement { Test.advert with identity := [] }).wf = false ∧
    (Instr.advertisement { Test.advert with baseRoot := [1] }).wf = false ∧ (Instr.advertisement { Test.advert with epoch := 2 ^ 64 }).wf = false ∧
    (Instr.advertisement { Test.advert with compiles := [(0, 512)] }).wf = false ∧
    (Instr.advertisement { Test.advert with links := [⟨36, zeros 32, 0⟩] }).wf = false := by decide

/-! ### Kindling and trust -/

/-- Kindling up to a step: powered, then what the step needs. -/
def Test.kindling (k : Kindle) : State := Test.on { Dev.reset with kindle := k }

theorem witness_PowerInputsStartKindling : State.reset.dev.kindle.powered = false ∧ (Test.on Test.dev).dev.kindle.powered = true := by decide

theorem witness_FunctionResetKillsEveryJob : (Test.on Test.dev).dev.kindle.localReady = true ∧ (Test.on Test.dev).dev.kindle.powered = true ∧
    Test.dev.anyLoaded = false ∧ (Test.one 0).dev.anyLoaded = true ∧ (Test.one 0).dev.kindle.localReady = true := by decide

theorem witness_PerstDeassertionTrainsTheHostLink : (Test.on Test.dev).dev.kindle.powered = true := by decide

theorem witness_KindlingStepsSetOneStatus : (Test.on Test.dev).dev.kindle.powered = true ∧
    (Test.kindling { Kindle.reset with fwFail := true }).dev.kindle.fwFail = true ∧
    (Test.kindling { Kindle.reset with fwOk := true, wellOk := 255 }).dev.kindle.fwOk = true ∧
    (Test.kindling { Kindle.reset with fwOk := true, wellOk := 255 }).dev.kindle.wellDone = true := by decide

/-- The flash of a new part holds no firmware, so that neither slot is accepted; that a slot is accepted rests on a signature, whose check is
too long to evaluate here. -/
theorem witness_BootRomTriesSlotAThenB : (Test.kindling { Kindle.reset with powered := true, pllLocked := true }).dev.kindle.pllLocked = true ∧
    (Test.kindling { Kindle.reset with powered := true, pllLocked := true }).dev.kindle.fwDone = false ∧
    (Test.kindling { Kindle.reset with powered := true, pllLocked := true }).dev.err = ErrBlock.reset ∧
    State.reset.vault.fwAccepts 0 = false ∧ State.reset.vault.fwAccepts 1 = false := by decide

theorem test_firmware_refused : Test.after .firmwareVerification (Test.kindling { Kindle.reset with powered := true, pllLocked := true })
    (fun t => t.dev.kindle.fwFail && !t.dev.kindle.faultN && t.dev.err.halted) = true := by decide

theorem witness_KeySlotCheckFindsUsableSlots : (Test.kindling { Kindle.reset with fwOk := true }).dev.kindle.fwOk = true ∧
    (Test.kindling { Kindle.reset with fwOk := true }).dev.kindle.keysDone = false := by decide

theorem witness_CisternTestZeroesAndRetires : (Test.kindling { Kindle.reset with fwOk := true }).dev.kindle.fwOk = true ∧
    (Test.kindling { Kindle.reset with fwOk := true }).dev.kindle.bistDone = false := by decide

theorem test_cistern_retires : Test.after (.cisternTest [255]) (Test.kindling { Kindle.reset with powered := true, fwOk := true })
    (fun t => t.dev.coreRetired 255 && !t.dev.coreRetired 254) = true := by decide

theorem witness_WellTrainingTriesTwice :
    (let s := Test.kindling { Kindle.reset with fwOk := true, wellTried := 0x80 }
     s.dev.kindle.fwOk = true ∧ bit s.dev.kindle.wellOk 7 = false ∧ bit s.dev.kindle.wellFail 7 = false ∧
       bit s.dev.kindle.wellTried 7 = true ∧ bit s.dev.kindle.wellTried 0 = false ∧ s.dev.err.head - s.dev.err.tail < 256) := by decide

theorem witness_LocalReadinessOpensTheDevice :
    (let s := Test.kindling { Kindle.reset with fwOk := true, keysDone := true, bistDone := true, wellOk := 0xFE, wellFail := 1 }
     s.dev.kindle.keysDone = true ∧ s.dev.kindle.bistDone = true ∧ s.dev.kindle.wellDone = true ∧ s.dev.kindle.localReady = false) := by decide

theorem witness_KeyGoSubmitsOneRequest : Test.dev.kindle.localReady = true ∧ Test.dev.trust.keyState ≠ 1 ∧
    ({ Test.dev with trust := { Trust.reset with keyState := 1 } } : Dev).trust.keyState = 1 := by decide

/-- A request of zeros is refused; that one is accepted rests on its signature, whose check is too long to evaluate here. -/
theorem witness_KeyRequestEnrolsOrIsRefused : State.reset.vault.Inv ∧
    ({ Test.dev with trust := { Trust.reset with keyState := 1 } } : Dev).trust.keyState = 1 ∧ keyRequestErr Vault.reset Test.dev (zeros 64) ≠ 0 :=
  ⟨by unfold Vault.Inv; decide, by decide, by decide⟩

theorem witness_AttestationReportsOnce : Test.dev.kindle.localReady = true ∧ Test.dev.trust.attState ≠ 1 ∧
    ({ Trust.reset with attState := 1, cert := leBytes 4 0x54524348 } : Trust).attState = 1 ∧ leAt (leBytes 4 0x54524348) 0 4 = 0x54524348 := by decide

/-! ### Links and the fabric -/

/-- A device with one link. -/
def Test.linked (x : Link) : Dev := { Test.dev with links := [(0, x)] }

theorem witness_LinksTrainThenIdentify : Test.dev.up = true ∧ ((Test.linked { Link.reset with state := 1 }).link 0).state = 1 ∧
    (Test.linked { Link.reset with state := 1 }).linkEn 0 = true ∧ (Test.linked { Link.reset with state := 1 }).linkUp 0 = true ∧
    ((Test.linked { Link.reset with state := 2 }).link 0).state = 2 ∧ ((Test.linked { Link.reset with state := 2 }).link 0).merge = false ∧
    Trust.reset.certOk [] = false ∧ Test.dev.err.head - Test.dev.err.tail < 256 := by decide

theorem test_link_refused : Test.after (.linkIdentify 0 [] [] [] 0 [] false) (Test.on (Test.linked { Link.reset with state := 2 }))
    (fun t => (t.dev.link 0).state == 4 && t.dev.err.head == 1) = true := by decide

/-- A device whose image routes link 0 (R488: a FORWARD entry of table 2). -/
def Test.routed : Dev :=
  { Test.linked { Link.reset with state := 3 } with
    jobs := [(1, { Job.reset with state := .active, img := some { Test.image with routes := [BitVec.ofNat 512 (2 + 0xFF * 2 ^ 40)] } })] }

theorem witness_LinkDownAndEnable : Test.dev.up = true ∧ ((Test.linked { Link.reset with state := 3 }).link 0).state ≠ 0 ∧
    ((Test.linked { Link.reset with state := 3 }).link 0).state ≠ 4 ∧
    Test.dev.kindle.localReady = true ∧ Test.dev.linkRuns 0 = false ∧ Test.dev.linkEn 0 = true ∧ Test.dev.linkUp 0 = true ∧
    ({ Test.dev with regs := [(linkOff 0, 0)] } : Dev).linkEn 0 = false ∧ Test.routed.linkRuns 0 = true ∧ Test.routed.linkEn 0 = true := by decide +kernel

/-- A data flit with SEQ 1; a flit that FEC cannot correct needs no more. -/
def Test.flit : Bytes := mkFlit 1 1 0 false 0 0 true true []

set_option maxRecDepth 100000 in
theorem witness_LinkReceiverTakesFlitsInOrder : Test.dev.up = true ∧ (Test.linked { Link.reset with state := 3 }).linkUp 0 = true ∧
    ((Test.linked { Link.reset with state := 3 }).link 0).state = 3 ∧ ((Test.linked { Link.reset with state := 3 }).link 0).naks < 15 ∧
    leAt Test.flit 636 4 = crc32c (Test.flit.take 636) ∧
    bits (hdrOf Test.flit) 0 4 = 1 ∧ (bits (hdrOf Test.flit) 4 12 + 4096 - 0) % 4096 = 1 ∧ (bits (hdrOf Test.flit) 4 12 + 4096 - 1) % 4096 = 0 := by decide +kernel

/-- A transfer of 8 bytes to window 0 of core 0 (R480): header and data. -/
def Test.xfer (fixed : Bool) : RxXfer :=
  { route := 0, path := 0, data := leBytes 8 7 ++ leBytes 2 0 ++ leBytes 2 0 ++ leBytes 1 0 ++ leBytes 1 0 ++ leBytes 2 0 ++ leBytes 8 4 ++ leBytes 8 100 ++
      leBytes 8 16 ++ leBytes 4 8 ++ leBytes 4 0 ++ leBytes 8 0x1122334455667788,
    whole := true, at_ := 0, link := 0, fixed := fixed, judged := false, late := false }

def Test.win : Win := { job := 1, owner := 0, base := 512, bound := 1024, devLo := 0, devHi := 3, writers := 2 ^ 256 - 1, isOpen := true }

/-- Job 1 on core 0 with an open window, and a transfer at link 0. -/
def Test.arrival (fixed : Bool) : Dev :=
  let d := Test.run [0] (Test.task [0] [] [])
  { d with
    links := [(0, { Link.reset with state := 3, rx := [Test.xfer fixed] })]
    cores := [(0, { Test.core [0] (Test.task [0] [] []) with windows := [(0, Test.win)] })] }

theorem witness_TransfersAreJudgedOnArrival :
    (∀ f : Bool, (Test.arrival f).up = true ∧ (Test.arrival f).linkUp 0 = true ∧
      ((Test.arrival f).link 0).rx.findIdx? (fun x => x.whole && !x.judged) = some 0 ∧ ((Test.arrival f).link 0).rx[0]? = some (Test.xfer f)) ∧
    thWell (Test.xfer true).data = false ∧ thDeadline (Test.xfer true).data = 100 ∧ thWell (Test.xfer false).data = false ∧
    mget ((Test.arrival false).core 0).windows 0 = some Test.win ∧
    ((Test.arrival false).at_ 50).accepts 0 (Test.xfer false).writer (0 + 512 + 16) 8 = some 0 ∧
    ({ Test.dev with fabric := { Fabric.reset with sentXfers := [⟨0, 0, 0, 0, 0, 0, 0, false, 0, false, 0, 0, none, [], []⟩] } } : Dev).fabric.sentXfers[0]? =
      some ⟨0, 0, 0, 0, 0, 0, 0, false, 0, false, 0, 0, none, [], []⟩ := by decide +kernel

theorem test_bulk_lands : Test.after (.linkTransferArrival 0 50) (Test.on (Test.arrival false))
    (fun t => memRead (t.dev.core 0).mem 528 8 == leBytes 8 0x1122334455667788) = true := by decide +kernel

theorem test_fixed_late : Test.after (.linkTransferArrival 0 101) (Test.on (Test.arrival true))
    (fun t => (t.dev.link 0).rx.map (·.late) == [true]) = true := by decide +kernel

/-- Another device, its identity above that of the test device (zeros). -/
def Test.other : Advert := { Test.advert with identity := List.replicate 32 1, seq := 5 }

def Test.mapped : Dev := { Test.dev with fabric := { Fabric.reset with state := 1, map := [{ Test.advert with seq := 3 }, Test.other] } }

theorem witness_TheMapFindsTheRoot : Test.dev.up = true ∧ Test.other.identity ≠ Test.dev.trust.identity ∧ Test.dev.advert? Test.other.identity = none ∧
    Test.mapped.advert? Test.other.identity = some Test.other ∧ Test.advert.identity = Test.dev.trust.identity ∧ 2 ≤ Test.mapped.fabric.map.length ∧
    Test.mapped.fabric.state = 1 ∧ Test.mapped.tb.aligned = false ∧ Test.dev.kindle.localReady = true ∧ Test.dev.fabric.map = [] ∧
    (∀ a ∈ Test.mapped.fabric.map, a.aligned = true → a.identity = Test.mapped.trust.identity) ∧
    (∃ a ∈ ({ Test.advert with seq := 3 } :: [{ Test.other with aligned := true, baseRoot := zeros 32 }] : List Advert), a.aligned = true ∧
      a.identity ≠ Test.mapped.trust.identity) := by decide +kernel

theorem test_self_root : Test.after .selfRoot (Test.on Test.dev) (fun t => t.dev.fabric.isRoot && t.dev.tb.epoch == 10000000 && t.dev.tb.aligned) = true := by
  decide +kernel

theorem test_map_root : Test.after .mapConverged (Test.on Test.mapped) (fun t => t.dev.fabric.isRoot && t.dev.fabric.state == 2) = true := by decide +kernel

theorem witness_AlignmentReachesTheEpoch :
    (let r := { Test.mapped with fabric := { Test.mapped.fabric with isRoot := true } }
     let a := { r with fabric := { r.fabric with aligning := true } }
     let m := Test.linked { Link.reset with state := 3 }
     r.up = true ∧ r.fabric.isRoot = true ∧ r.tb.aligned = false ∧ r.fabric.aligning = false ∧ r.kindle.localReady = true ∧
       (m.link 0).state = 3 ∧ m.fabric.isRoot = false ∧ m.tb.aligned = false ∧ a.fabric.isRoot = true ∧ a.fabric.aligning = true ∧
       (∀ x ∈ a.fabric.map, x.localReady = true → x.identity ≠ a.trust.identity → x.identity = Test.other.identity ∨ x.identity ∈ a.fabric.alignedReports) ∧
       (∃ x ∈ a.fabric.map, x.localReady = true ∧ x.identity ≠ a.trust.identity ∧ x.identity ≠ zeros 32 ∧ x.identity ∉ a.fabric.alignedReports)) := by
  decide +kernel

/-- A member of three whose map has lost the root, and the lowest of the two that remain. -/
def Test.rootless : Dev :=
  { Test.linked { Link.reset with state := 3, partnerId := Test.other.identity } with
    tb := { TimeBase.reset with aligned := true, round := 9, state := 3 }
    trust := { Test.dev.trust with identity := List.replicate 32 1 }
    fabric := { Fabric.reset with
      state := 2
      root := zeros 32
      members := [zeros 32, List.replicate 32 1, List.replicate 32 2]
      map := [{ Test.advert with identity := List.replicate 32 1, links := [{ link := 0, partner := List.replicate 32 2, state := 3 }] }, { Test.advert with identity := List.replicate 32 2 }] } }

theorem test_rootless_version : Test.after (.membershipReport (List.replicate 32 2)) (Test.on Test.rootless)
    (fun t => t.dev.fabric.pending == [⟨1, 13, [], none⟩]) = true := by decide +kernel

/-- A device that holds a job of base 5 meets base 3 on its link; when the job is gone it joins. -/
def Test.merging : Dev :=
  { Test.linked { Link.reset with state := 2, merge := true, partnerId := Test.other.identity, partnerBase := List.replicate 32 3 } with
    tb := { TimeBase.reset with aligned := true, state := 2, baseRoot := List.replicate 32 5 } }

theorem test_join_base : (Test.merging.joinIfIdle.link 0).state = 3 ∧ Test.merging.joinIfIdle.tb.aligned = false ∧
    (Test.after (.advertisement { Test.other with aligned := true, baseRoot := List.replicate 32 5 }) (Test.on Test.merging)
      (fun t => (t.dev.link 0).state == 3 && t.dev.tb.aligned)) = true := by decide +kernel

theorem test_time_exchange : Test.after (.timeExchange 0 100 160 170 210) (Test.on { Test.linked { Link.reset with state := 3 } with
    tb := { TimeBase.reset with now := 1000 } }) (fun t => t.dev.tb.offset == 10 && t.dev.tb.now == 990) = true := by decide +kernel

theorem witness_MembershipAndRoundLengthVersions :
    (let d := { Test.mapped with tb := { TimeBase.reset with aligned := true, round := 9 }, fabric := { Test.mapped.fabric with isRoot := true } }
     let b := { d with fabric := { d.fabric with map := [{ Test.other with busy := true }] } }
     d.up = true ∧ d.tb.aligned = true ∧ d.fabric.isRoot = true ∧ d.fabric.minority = false ∧ d.fabric.pending = [] ∧ d.fabric.version < 1 ∧
       (∃ a ∈ b.fabric.map, a.busy = true) ∧ (∀ a ∈ d.fabric.map, a.busy = false) ∧ d.fabric.lenReport = none ∧
       ({ d with fabric := { d.fabric with roundLenOut := true } } : Dev).fabric.roundLenOut = true) := by decide +kernel

/-- A staged job of a fabric of two devices. -/
def Test.fabricJob (r : Bool) : Dev :=
  { Test.mapped with
    fabric := { Test.mapped.fabric with isRoot := r, stagedReports := if r then [(7, 1)] else [] }
    jobs := [(2, { Job.reset with state := .staged, img := some { Test.image with fabricSize := 2 } })]
    tb := { TimeBase.reset with round := 9, nextMark := 10, running := true, aligned := true } }

theorem witness_FabricJobsActivateTogetherOrAbort :
    (let d := Test.fabricJob true
     let e := { d with fabric := { d.fabric with stagedReports := [] } }
     d.up = true ∧ d.fabric.isRoot = true ∧ (7, 0) ∉ d.fabric.stagedReports ∧
       (d.fabric.stagedReports.filter (fun p => p.1 == 7)).length + 1 = d.compileSize 7 ∧
       (e.fabric.stagedReports.filter (fun p => p.1 == 7)).length + 1 ≠ e.compileSize 7 ∧
       (d.job 2).img = some { Test.image with fabricSize := 2 } ∧ (d.job 2).state = .staged ∧ (d.job 2).standby = false ∧
       (d.job 2).actRound = none ∧ d.tb.round + 1 < 11 ∧ 10 ≤ d.tb.round + 1) := by decide +kernel

theorem test_abort_kills : Test.after (.jobAbortFlood 7) (Test.on (Test.fabricJob false)) (fun t => (t.dev.job 2).state == .killed) = true := by decide +kernel

/-- A shipment part 0 of compile 7, origin 3, round 9. -/
def Test.part : Bytes := leBytes 8 7 ++ leBytes 2 3 ++ zeros 2 ++ leBytes 4 1 ++ leBytes 8 9 ++ leBytes 8 4096 ++ zeros 32

theorem witness_RecoveryNoticesAndShipments :
    (let a : Action := { code := 0x0401, cls := 0, kind := 0, unit := 0, handles := [], job := 2, core := 0, task := 0, round := 8, markAt := 9 }
     let d := { Test.fabricJob false with err := { ErrBlock.reset with handling := some a } }
     let m := { Test.fabricJob false with jobs := [(2, { Job.reset with state := .staged, standby := true, img := some { Test.image with deviceIndex := 3 } })] }
     d.up = true ∧ d.err.handling = some a ∧ (d.job a.job).img = some { Test.image with fabricSize := 2 } ∧
       m.standbyOf (shCompile Test.part) (shOrigin Test.part) = some 2 ∧ shPart Test.part = 0 ∧ m.mirror.complete = [] ∧ m.mirror.parts = [] ∧
       m.mirror.reported = []) := by decide +kernel

/-! ### Schedule words -/

/-- A 64-byte record with values at byte offsets. -/
def Test.rec (fs : List (Nat × Nat)) : Rec := BitVec.ofNat 512 (fs.foldl (fun a f => a + f.2 * 2 ^ (8 * f.1)) 0)

/-- One task of one word, with descriptors and rings. -/
def Test.op (word : Nat) (ds : List Rec) (rs : List Ring) : State := Test.on (Test.run [word] (Test.task [word] ds rs))

def Test.onCore0 (s : State) (f : Core → Core) : State := { s with dev := s.dev.onCore 0 f }
def Test.onTask0 (s : State) (f : Task → Task) : State := { s with dev := s.dev.onTask 0 0 f }

/-- A word without physical events, and one that lost two accesses and corrected a word. -/
theorem Test.calm : Undisturbed (.of 0) 0 := ⟨rfl, nofun⟩
theorem Test.corrected : Undisturbed ⟨0, 2, .eccCorrected 1⟩ 0 := ⟨rfl, nofun⟩

theorem witness_ControlWordsSteer : Undisturbed (.of 0) 0 ∧
    Issues 0x00 0 0 (Test.w 0 0) (Test.one (Test.w 0 0)) ∧ ((Test.one (Test.w 0 0)).dev.core 0).bad = [] ∧ Issues 0x0F 0 0 (Test.w 0x0F 5) (Test.one (Test.w 0x0F 5)) ∧
    Issues 0x04 0 0 (Test.w 4 7) (Test.one (Test.w 4 7)) := by
  refine ⟨Test.calm, ?_⟩
  unfold Issues; decide

/-- NOP inside the last iteration but one of a loop: back to the body's first word (R74). -/
theorem test_loop_returns : Test.after (.nop 0 (.of 0)) (Test.onTask0 (Test.on (Test.run [0, 0, 0] (Test.task [0, 0, 0] [] [])))
    (fun k => { k with pc := 1, loop := some ⟨0, 1, 2, 0, 16⟩ }))
    (fun t => (t.dev.task 0 0).pc == 0 && (t.dev.task 0 0).loop == some ⟨0, 1, 1, 1, 16⟩) = true := by decide

theorem witness_BranchComparesItsRegister : Undisturbed (.of 0) 0 ∧
    Issues 0x0E 0 0 (Test.w 0x0E (3 + 2 * 2 ^ 4 + 2 ^ 7)) (Test.one (Test.w 0x0E (3 + 2 * 2 ^ 4 + 2 ^ 7))) ∧
    mgetD ((Test.one (Test.w 0x0E 0)).dev.task 0 0).sums 3 (0, false) = (0, false) ∧ BranchHolds 0 false 0 ∧ ¬ BranchHolds 0 false 2 := by
  refine ⟨Test.calm, ?_⟩
  unfold Issues BranchHolds; decide

/-- A negative zero is not below zero; a NaN is not equal to zero (R189). -/
theorem test_branch_fp : ([(0x80000000, 2, 1), (0x7FC00000, 1, 3), (0xBF800000, 2, 3)] : List (Nat × Nat × Nat)).all (fun (c : Nat × Nat × Nat) =>
    Test.after (.branch 0 (.of 0)) (Test.onTask0 (Test.one (Test.w 0x0E (c.2.1 * 2 ^ 4 + 2 * 2 ^ 7))) (fun k => { k with sums := [(0, (c.1, true))] }))
      (fun t => (t.dev.task 0 0).pc == c.2.2)) = true := by decide

theorem witness_SummLoadsOneRegister : Undisturbed (.of 0) 0 ∧
    ∀ src : Fin 4, Issues 0x0D 0 0 (Test.w 0x0D (2 + src * 16)) (Test.one (Test.w 0x0D (2 + src * 16))) ∧
    bits (wArgs (Test.w 0x0D (2 + src * 16))) 4 4 = src := by
  refine ⟨Test.calm, ?_⟩
  unfold Issues; decide

/-- A tally goes to an INT32 register. -/
theorem test_summ_tally : Test.after (.summ 0 (.of 0)) (Test.onCore0 (Test.one (Test.w 0x0D (2 + 3 * 16 + 9 * 256))) (fun x => { x with tallies := [(9, 41)] }))
    (fun t => mget (t.dev.task 0 0).sums 2 == some (41, false)) = true := by decide

theorem witness_TalliesCountAndWait : Undisturbed (.of 0) 0 ∧
    Issues 0x0B 0 0 (Test.w 0x0B (9 + 5 * 2 ^ 8 + 2 ^ 24)) (Test.one (Test.w 0x0B (9 + 5 * 2 ^ 8 + 2 ^ 24))) ∧
    Issues 0x0C 0 0 (Test.w 0x0C (9 + 3 * 2 ^ 8)) (Test.one (Test.w 0x0C (9 + 3 * 2 ^ 8))) ∧
    (Test.one (Test.w 0x0B 9)).dev.sliceUp 0 = true ∧ ({ Test.dev with slices := [(0, { Slice.reset with state := .contained })] } : Dev).sliceUp 0 = false ∧
    mgetD ((Test.one (Test.w 0x0C (9 + 3 * 2 ^ 8))).dev.core 0).tallies 9 0 < 3 ∧
    mgetD ((Test.onCore0 (Test.one (Test.w 0x0C (9 + 3 * 2 ^ 8))) (fun x => { x with tallies := [(9, 3)] })).dev.core 0).tallies 9 0 = 3 ∧
    ((Test.onTask0 (Test.one (Test.w 0x0C 9)) (fun k => { k with wait := some ⟨.tally 9, 3, 0, 1, 0⟩ })).dev.task 0 0).wait = some ⟨.tally 9, 3, 0, 1, 0⟩ := by
  refine ⟨Test.calm, ?_⟩
  unfold Issues; decide

/-- A tally stops at 2^20 − 1 (R76). -/
theorem test_tally_saturates : Test.after (.tlyAdd 0 (.of 0)) (Test.onCore0 (Test.one (Test.w 0x0B (9 + 5 * 2 ^ 8 + 2 ^ 24)))
    (fun x => { x with tallies := [(9, 1048573)] })) (fun t => (t.dev.core 0).tallies == [(9, 1048575)] && (t.dev.core 0).tallySat == [9]) = true := by decide +kernel

theorem test_tally_wait_ends : Test.after (.tlyWaitSatisfied 0 (.of 0)) (Test.onTask0 (Test.onCore0 (Test.one (Test.w 0x0C (9 + 3 * 2 ^ 8)))
    (fun x => { x with tallies := [(9, 7)] })) (fun k => { k with wait := some ⟨.tally 9, 3, 0, 1, 0⟩ }))
    (fun t => (t.dev.core 0).tallies == [(9, 4)] && (t.dev.task 0 0).pc == 1 && (t.dev.task 0 0).wait == none) = true := by decide +kernel

/-- A task that waits on a tally since a round, and one that waits on elastic ring 2. -/
def Test.waiting (op : Nat) (kind : WaitKind) (began budget : Nat) : State :=
  Test.onTask0 (Test.one (Test.w op 9)) (fun k => { k with wait := some ⟨kind, began, 5, budget, 0⟩ })

theorem witness_WaitsThatTimeOutAreAbandoned :
    (∀ b : Fin 4, (Test.waiting 0x0C (.tally 9) b 1).dev.up = true ∧ (Test.waiting 0x0C (.tally 9) b 1).dev.curWordOf 0 0 = some (Test.w 0x0C 9) ∧
      ((Test.waiting 0x0C (.tally 9) b 1).dev.task 0 0).wait = some ⟨.tally 9, b, 5, 1, 0⟩) ∧ (Test.waiting 0x0C (.tally 9) 2 1).dev.tb.round = 3 ∧
    (Test.waiting 5 (.ring 2 false) 2 1).dev.curWordOf 0 0 = some (Test.w 5 9) ∧ wOpcode (Test.w 5 9) = 5 ∧
    ((Test.waiting 5 (.ring 2 false) 2 1).dev.task 0 0).wait = some ⟨.ring 2 false, 2, 5, 1, 0⟩ ∧ (Test.waiting 5 (.ring 2 false) 2 1).dev.firstDue 0 2 = true ∧
    (Test.waiting 5 (.ring 2 false) 2 1).dev.replays 1 3 = false ∧
    ((Test.waiting 5 (.ring 2 false) 2 1).dev.onJob 1 (fun j => { j with replay := some ⟨0, 2, 1⟩ })).replays 1 3 = true := by decide

theorem test_tally_times_out : Test.after (.tlyWaitTimeout 0 0) (Test.waiting 0x0C (.tally 9) 1 1)
    (fun t => (t.dev.task 0 0).pc == 1 && (t.dev.task 0 0).wait == none && t.dev.err.head == 1) = true := by decide +kernel

theorem test_ring_times_out : Test.after (.tagTimeout 0 0) (Test.waiting 5 (.ring 2 false) 2 1)
    (fun t => (t.dev.task 0 0).pc == 1 && (t.dev.task 0 0).wait == none && t.dev.err.head == 1) = true := by decide +kernel

/-- Core 1 with a window of the job on bytes 512 to 1,023 of task 0. -/
def Test.windowed (open_ : Bool) : State :=
  let d := Test.run [Test.w 0x17 16] (Test.task [Test.w 0x17 16] [] [])
  Test.on { d with cores := [(0, Test.core [Test.w 0x17 16] (Test.task [Test.w 0x17 16] [] [])),
    (1, { Test.core [] (Test.task [] [] []) with windows := [(0, { Test.win with isOpen := open_ })] })] }

theorem witness_WindowsAdmitRemoteWrites : Undisturbed (.of 0) 0 ∧
    Issues 0x17 0 0 (Test.w 0x17 16) (Test.windowed true) ∧
    (Test.windowed true).dev.coreJob 0 = some (1, Test.image) ∧ (Test.windowed true).dev.sliceUp 0 = true ∧
    (Test.windowed true).dev.accepts 1 ⟨7, 0, 0⟩ 600 4 = some 0 ∧ (Test.windowed true).dev.putRing 0 1 600 4 = none ∧
    ((Test.windowed false).dev.core 1).windows.all (fun p => !p.2.isOpen) = true := by
  refine ⟨Test.calm, ?_⟩
  unfold Issues; decide +kernel

theorem test_remote_write : Test.after (.remoteWrite 0 1 600 ⟨[1, 2], 0⟩) (Test.windowed true) (fun t => (t.dev.core 1).mem == [(600, 1), (601, 2)]) = true ∧
    Test.after (.remoteWrite 0 1 1023 ⟨[1, 2], 0⟩) (Test.windowed true) (fun t => (t.dev.core 1).mem == []) = true ∧
    Test.after (.remoteWrite 0 1 600 ⟨[1, 2], 0⟩) (Test.windowed false) (fun t => (t.dev.core 1).mem == []) = true := by decide +kernel

theorem test_window_opens : Test.after (.window 0 (.of 0)) (Test.onCore0 (Test.one (Test.w 0x17 16))
    (fun x => { x with windows := [(0, { Test.win with isOpen := false }), (1, { Test.win with isOpen := false })] }))
    (fun t => (t.dev.core 0).windows.map (·.2.isOpen) == [true, false]) = true := by decide +kernel

def Test.accum : StatAcc :=
  { task := 0, desc := 6, isOpen := true, count := 3, clips := 1, sumsq := 0x41200000, maxmag := 0x40000000, nans := 0, chans := [], record := [] }

theorem witness_FlushesAndEndsClose : Undisturbed (.of 0) 0 ∧
    Issues 0x19 0 0 (Test.w 0x19 6) (Test.onCore0 (Test.one (Test.w 0x19 6)) (fun x => { x with accs := [Test.accum] })) ∧
    ((Test.onCore0 (Test.one (Test.w 0x19 6)) (fun x => { x with accs := [Test.accum] })).dev.core 0).accs.find? (fun a => a.task == 0 && a.desc == 6) =
      some Test.accum ∧
    Issues 0x01 0 0 (Test.w 1 0) (Test.one (Test.w 1 0)) ∧ (Test.one (Test.w 1 0)).dev.tb.round ≤ ((Test.one (Test.w 1 0)).dev.task 0 0).progRound := by
  refine ⟨Test.calm, ?_⟩
  unfold Issues; decide +kernel

theorem test_flush : Test.after (.statFlush 0 (.of 0)) (Test.onCore0 (Test.one (Test.w 0x19 6)) (fun x => { x with accs := [Test.accum] }))
    (fun t => (t.dev.core 0).accs.map (fun a => (a.isOpen, a.count)) == [(false, 0)] && (t.dev.task 0 0).pc == 1) = true := by decide +kernel

theorem test_end : Test.after (.wEnd 0 (.of 0)) (Test.one (Test.w 1 0)) (fun t => (t.dev.task 0 0).state == .ended && (t.dev.task 0 0).pc == 0) = true := by
  decide +kernel

/-! ### Engines -/

/-- A tensor of two dimensions in the task's region (R63): address, format code, sizes, strides. -/
def Test.tensor (addr fmt n0 n1 st0 st1 : Nat) : Rec :=
  Test.rec [(0, addr), (8, fmt), (9, 2), (11, 0xFF), (16, n0), (20, n1), (24, 1), (28, 1), (32, st0), (36, st1)]

def Test.fill (s : State) (a : Nat) (bs : Bytes) : State := Test.onCore0 s (fun x => { x with mem := memWrite x.mem a bs })

/-- A matrix run of K = 2, M = N = 1 on BF16: activations at 64, weights at 128 (R143). -/
def Test.matrix : State :=
  Test.fill (Test.fill (Test.op (Test.w 2 0)
    [Test.rec [(0, 1), (2, 2), (4, 1), (5, 1), (8, 1), (12, 2), (16, 1)], Test.tensor 64 1 2 1 2 4, Test.tensor 128 1 2 1 2 4] [])
    64 (leBytes 2 0x4040 ++ leBytes 2 0x4000)) 128 (leBytes 2 0x4080 ++ leBytes 2 0x3F80)

theorem witness_MatrixRunsAccumulate : Issues 0x02 0 0 (Test.w 2 0) Test.matrix ∧
    (let r := (Test.matrix.dev.task 0 0).desc 0
     let vw := (Test.matrix.dev.task 0 0).view 2 false []
     mrDrain r = false ∧ Test.matrix.dev.weightIdx ⟨0, 0, 0⟩ (mrWgt r) = 2 ∧ Unheld Test.matrix.dev 0 0 [1, 2] [] ∧ slipsOf Test.matrix.dev 0 0 [1, 2] [] = [] ∧
       Test.matrix.dev.takeOpen 0 (Test.matrix.dev.weightRanges 0 0 vw 2 1) = false ∧
       Test.matrix.dev.waitsTable ⟨0, 0, 0⟩ (Test.matrix.dev.evBad 0 ⟨0, .none⟩) vw 2 1 = false ∧ mrN r = 1 ∧ mrM r = 1) := by
  unfold Issues Unheld; decide +kernel

/-- 3 × 4 + 2 × 1 = 14. -/
theorem test_matrix : Test.after (.matRun 0 0 ⟨0, .none⟩) Test.matrix (fun t => mgetD (t.dev.core 0).acc 0 0 == 0x41600000 && (t.dev.task 0 0).pc == 1) = true := by
  decide +kernel

/-- A conversion of three FP32 values at 64 to BF16 at 128 (R123). -/
def Test.conv : State :=
  Test.fill (Test.op (Test.w 7 0) [Test.rec [(0, 1), (2, 2)], Test.tensor 64 0 3 1 4 12, Test.tensor 128 1 3 1 2 6] [])
    64 (leBytes 4 0x3F800000 ++ leBytes 4 0xC0400000 ++ leBytes 4 0x3F808001)

theorem witness_ConvertStoresConvertedValues : Issues 0x07 0 0 (Test.w 7 0) Test.conv ∧ Unheld Test.conv.dev 0 0 [1] [2] ∧
    slipsOf Test.conv.dev 0 0 [1] [2] = [] ∧
    (let td := (Test.conv.dev.task 0 0).desc 2
     let vd := (Test.conv.dev.task 0 0).view 2 true []
     bits (fld ((Test.conv.dev.task 0 0).desc 0) 7 1) 0 2 = 0 ∧ tFmt td = .bf16 ∧ tSize td 0 = 3 ∧ tSize td 1 = 1 ∧ tSize td 2 = 1 ∧ tSize td 3 = 1 ∧
       tStride td 0 = 2 ∧ vd.inside vd.base 6 = true ∧ (Test.conv.dev.core 0).bad = []) := by
  unfold Issues Unheld; decide +kernel

/-- The third value lies past the half of BF16's last place. -/
theorem test_convert : Test.after (.convert 0 0 ⟨0, .none⟩) Test.conv
    (fun t => memRead (t.dev.core 0).mem 128 6 == leBytes 2 0x3F80 ++ leBytes 2 0xC040 ++ leBytes 2 0x3F81) = true := by decide +kernel

/-- An element program, a scan, a reduction and a request, each of descriptor 0, with their tensors from 1. -/
def Test.engine (op : Nat) : State :=
  Test.op (Test.w op 4096) [if op = 5 then Test.rec [(32, 1), (33, 1)]
    else if op = 6 then Test.rec [(0, 1), (2, 0xFFFF), (4, 2), (6, 0xFFFF), (8, 0xFFFF), (10, 0xFFFF), (12, 0xFFFF), (14, 0xFFFF)]
    else if op = 7 then Test.rec [(0, 1), (2, 2)]
    else if op = 8 then Test.rec [(0, 1), (6, 2), (8, 0xFFFF), (10, 0xFFFF)]
    else Test.rec [(0, 1), (2, 2), (4, 1), (10, 0xFFFF)], Test.tensor 64 0 3 1 4 12, Test.tensor 128 0 3 1 4 12] []

theorem witness_EngineWordsStayInTheirRegion : Undisturbed (.of 0) 0 ∧
    ∀ op ∈ ([5, 6, 7, 8, 16] : List Nat), Issues op 0 0 (Test.w op 4096) (Test.engine op) ∧
    Unheld (Test.engine op).dev 0 0 (engineUses ((Test.engine op).dev.task 0 0) (Test.w op 4096)).1
      (engineUses ((Test.engine op).dev.task 0 0) (Test.w op 4096)).2 := by
  refine ⟨Test.calm, ?_⟩
  unfold Issues Unheld; decide +kernel

/-! ### Speculation and embers -/

/-- Job 1 with class 5 (draft and abort kinds, ember of 192 bytes at 4096) and stream 9 in slot 2. -/
def Test.class_ : Rec := Test.rec [(0, 5), (6, 7), (40, 4096), (48, 192)]

def Test.streaming (st : HandleState) (s : State) : State :=
  { s with dev := { s.dev with
      jobs := [(1, { Job.reset with state := .active, img := some { Test.image with classes := [(Test.class_, [], [])] } })]
      streams := [(9, { Stream.reset with
        state := st
        job := 1
        cls := 5
        slot := some 2
        dlen := 3
        items := [⟨0, 0, 1, 0, 1, 0, 0, [], some 3, 0, false, false, false, 0, 0, none, false⟩] })] } }

def Test.spec (op : Nat) (commit : Nat) : State :=
  Test.fill (Test.streaming .active (Test.op (Test.w op 0) [Test.rec [(0, 1), (4, 1)], Test.tensor 64 10 64 1 4 256] [])) 72 (leBytes 4 commit)

def Test.opened (s : State) : State := { s with dev := s.dev.onStream 9 (fun k => { k with specOpen := true, specGen := 8 }) }

theorem witness_SpeculationOpensCommitsAborts : Undisturbed (.of 0) 0 ∧
    (∀ op : Fin 3, Issues (0x11 + op) 0 0 (Test.w (0x11 + op) 0) (Test.spec (0x11 + op) 2)) ∧
    (Test.spec 0x11 2).dev.specSlots 1 3 0 1 = [(2, 9)] ∧ ((Test.opened (Test.spec 0x12 2)).dev.stream 9).specOpen = true ∧
    Unheld (Test.opened (Test.spec 0x12 2)).dev 0 0 [1] [] ∧ (Test.opened (Test.spec 0x12 2)).dev.specLenOf 9 = 4 ∧
    (Test.spec 0x11 2).dev.shed ⟨0, 0, 0⟩ = false ∧
    (let d := (Test.spec 0x11 2).dev
     ({ d with gov := { d.gov with shedRounds := [3] } } : Dev).shed ⟨0, 0, 0⟩ = true) := by
  refine ⟨Test.calm, ?_⟩
  unfold Issues Unheld; decide +kernel

theorem test_spec_open : Test.after (.specOpen 0 (.of 0)) (Test.spec 0x11 2) (fun t => (t.dev.stream 9).specOpen && (t.dev.stream 9).specGen == 1) = true := by
  decide +kernel

theorem test_spec_abort : Test.after (.specAbort 0 (.of 0)) (Test.opened (Test.spec 0x13 2))
    (fun t => !(t.dev.stream 9).specOpen && (t.dev.stream 9).proposed == 3) = true := by decide +kernel

/-- Two tokens committed: one drafted token accepted (R331); a count beyond SPEC_LEN commits none. -/
theorem test_spec_commit : Test.after (.specCommit 0 (.of 0)) (Test.opened (Test.spec 0x12 2))
      (fun t => !(t.dev.stream 9).specOpen && (t.dev.stream 9).committed == 2 && (t.dev.stream 9).accepted == 1 && (t.dev.stream 9).proposed == 3) = true ∧
    Test.after (.specCommit 0 (.of 0)) (Test.opened (Test.spec 0x12 5))
      (fun t => !(t.dev.stream 9).specOpen && (t.dev.stream 9).committed == 0 && t.dev.err.head == 1) = true := by decide +kernel

/-- An ember part of one tensor of 64 slots of 16 bytes, from byte 64 of the ember. -/
def Test.ember (op : Nat) (st : HandleState) : State :=
  Test.fill (Test.streaming st (Test.op (Test.w op 0) [Test.rec [(0, 1), (2, 1), (3, 0), (4, 64), (8, 64), (12, 5)], Test.tensor 64 0 4 64 4 16] []))
    96 (leBytes 4 0x12345678)

/-- The same with the ember that EMBER_OUT left in the well, the slot cleared. -/
def Test.emberBack : State :=
  match exec (.emberOut 0 (.of 0)) (Test.ember 0x14 .leaving) with
  | .next t => Test.onCore0 { Test.ember 0x15 .entering with dev := { (Test.ember 0x15 .entering).dev with well := t.dev.well } }
      (fun x => { x with mem := memZero x.mem 96 16 })
  | _ => Test.ember 0x15 .entering

set_option maxRecDepth 100000 in
theorem witness_EmbersMoveStreamState : Undisturbed (.of 0) 0 ∧
    Issues 0x14 0 0 (Test.w 0x14 0) (Test.ember 0x14 .leaving) ∧ Unheld (Test.ember 0x14 .leaving).dev 0 0 [1] [] ∧
    (Test.ember 0x14 .leaving).dev.cordSlots 1 ((Test.ember 0x14 .leaving).dev.task 0 0 |>.desc 0) (· == .leaving) = [(2, 9)] ∧
    (Test.ember 0x14 .leaving).dev.emberAddr 9 = 5824 ∧ (Test.ember 0x14 .leaving).dev.anyCtlDown = false ∧
    (Test.ember 0x14 .leaving).dev.namedByXfer 0 0 (emTensors ((Test.ember 0x14 .leaving).dev.task 0 0 |>.desc 0)) = [] ∧ Quiet (Test.ember 0x15 .entering).dev 1 ∧
    fld ((Test.ember 0x14 .leaving).dev.clsOf 9) 48 4 = 192 ∧ ((Test.ember 0x14 .leaving).dev.stream 9).accept.length = 8 ∧
    Issues 0x15 0 0 (Test.w 0x15 0) (Test.ember 0x15 .entering) ∧ Unheld (Test.ember 0x15 .entering).dev 0 0 [] [1] ∧
    slipsOf (Test.ember 0x15 .entering).dev 0 0 [] [1] = [] ∧
    (Test.ember 0x15 .entering).dev.cordSlots 1 ((Test.ember 0x15 .entering).dev.task 0 0 |>.desc 0) (fun x => x == .entering || x == .primed) = [(2, 9)] := by
  refine ⟨Test.calm, ?_⟩
  unfold Issues Unheld Quiet; decide +kernel

set_option maxRecDepth 100000 in
/-- What EMBER_OUT left, EMBER_IN brings back; an ember of zeros has a bad CRC. -/
theorem test_ember_round_trip : Test.after (.emberIn 0 (.of 0)) Test.emberBack (fun t => memRead (t.dev.core 0).mem 96 4 == leBytes 4 0x12345678 && t.dev.err.head == 0) = true ∧
    Test.after (.emberIn 0 (.of 0)) (Test.ember 0x15 .entering) (fun t => t.dev.err.head == 1) = true := by decide +kernel

/-! ### Relay and pumps -/

/-- The head of a chain from core 0 to core 1 injects one flit from 512 and takes it at 1024. -/
def Test.relaying : State :=
  Test.fill (Test.op (Test.w 3 0) [Test.tensor 1024 8 512 1 1 512, Test.rec [(0, 0), (4, 1), (8, 1), (12, 512), (16, 0), (17, 1), (18, 1)]] []) 512 [7, 8, 9]

def Test.relayed : State := match exec (.relay 0 (.of 0)) Test.relaying with
  | .next t => t
  | _ => Test.relaying

set_option maxRecDepth 100000 in
theorem witness_RelayPassesWeightsOn : Undisturbed (.of 0) 0 ∧
    Issues 0x03 0 0 (Test.w 3 0) Test.relaying ∧ (Test.relaying.dev.core 0).relay.buf = [] ∧ (Test.relaying.dev.core 0).bad = [] ∧
    (Test.relaying.dev.core 0).relay.past = [] ∧ rkRole ((Test.relaying.dev.task 0 0).desc 1) = 1 ∧ rkCount ((Test.relaying.dev.task 0 0).desc 1) = 1 ∧
    Test.relayed.dev.coreUp 0 = true ∧
    (match (Test.relayed.dev.core 0).relay.inbox with
      | [f] => ((Test.relayed.dev.core 0).relay.takes.find? (fun t => t.wants f.head f.pass f.num)).isSome && decide (chainPos 0 < f.tail) && decide (f.head ≤ chainPos 0)
      | _ => false) = true := by
  refine ⟨Test.calm, ?_⟩
  unfold Issues; decide +kernel

set_option maxRecDepth 100000 in
theorem test_relay_flit : Test.after (.relayFlit 0 ⟨true, 0, false⟩) Test.relayed
    (fun t => memRead (t.dev.core 0).mem 1024 3 == [7, 8, 9] && (t.dev.core 1).relay.inbox.length == 1 && (t.dev.core 0).relay.inbox.length == 0) = true := by
  decide +kernel

/-- PUMP of 8 bytes from 64 to 128 by the core's pump, the well's and none yet queued. -/
def Test.pumping (kind : Nat) : State :=
  Test.fill (Test.op (Test.w 9 (kind * 4096)) [Test.rec [(0, 1), (2, 2), (4, 0xFFFF), (12, 3), (14, 0xFFFF)], Test.tensor 64 8 8 1 1 8, Test.tensor 128 8 8 1 1 8] []) 64 [1, 2, 3]

def Test.pumped : State := match exec (.pump 0 (.of 0)) (Test.pumping 0) with
  | .next t => t
  | _ => Test.pumping 0

/-- What PUMP queues of it. -/
def Test.queued : Xfer :=
  { job := 1, gen := 0, core := 0, task := 0, desc := 0, word := 0, round := 3, started := false, charged := 0, dropped := false, deadline := 0, path := 0,
    wait := none, land := [], far := [] }

def Test.charged : State := match exec (.pumpReadRequest (.core 0) 8 1000) Test.pumped with
  | .next t => t
  | _ => Test.pumped

/-- Words that store no sequence record beside their own effect: no generation is open, or no task keeps records in memory. -/
theorem witness_QuietWords : Quiet Test.conv.dev 1 ∧ (∀ op ∈ ([5, 6, 7, 8, 16] : List Nat), Quiet (Test.engine op).dev 1) ∧ Quiet Test.relaying.dev 1 ∧
    Quiet (Test.pumping 1).dev 1 ∧ (∀ q ∈ ((Test.opened (Test.spec 0x13 2)).dev.job 1).tasks, (Test.opened (Test.spec 0x13 2)).dev.walkDescs q.1 q.2 = []) := by
  unfold Quiet; decide +kernel

theorem witness_PumpsQueueAndMeterTransfers : Undisturbed (.of 0) 0 ∧
    Issues 0x09 0 0 (Test.w 9 0) (Test.pumping 0) ∧ Issues 0x09 0 0 (Test.w 9 4096) (Test.pumping 1) ∧
    pwKind (Test.w 9 4096) = 1 ∧ Issues 0x09 0 0 (Test.w 9 8192) (Test.pumping 2) ∧ pwKind (Test.w 9 8192) = 2 ∧
    (Test.pumping 0).dev.interlocked 0 0 ((Test.pumping 0).dev.xferRanges Test.queued false) ((Test.pumping 0).dev.xferRanges Test.queued true) = false ∧ ((Test.pumping 0).dev.pump (.core 0)).queue = [] ∧
    Test.pumped.dev.pumpUp (.core 0) = true ∧ 8 * 1000 ≤ Test.pumped.dev.pumpLevel (.core 0) 1000 ∧ Test.pumped.dev.nextRead (.core 0) = some 0 ∧
    (Test.pumped.dev.pump (.core 0)).queue.length = 1 ∧ (Test.pumped.dev.onPump (.core 0) (fun y => { y with level := 0 })).pumpLevel (.core 0) 0 < 8 * 1000 ∧
    ((Test.pumping 0).dev.job 1).img = some Test.image ∧ ((Test.pumping 0).dev.job 1).pathOf Test.image 0 = none ∧ pdRoute ((Test.pumping 0).dev.task 0 0 |>.desc 0) = 0 ∧
    64 ≤ (((Test.pumping 0).dev.onPump (.core 0) (fun y => { y with queue := List.replicate 64 Test.queued })).pump (.core 0)).queue.length := by
  refine ⟨Test.calm, ?_⟩
  unfold Issues; decide +kernel

theorem witness_CompletedTransfersLand :
    (match (Test.charged.dev.pump (.core 0)).queue with
      | [x] => x.started && decide ((Test.charged.dev.pumpPlan x []).total ≤ x.charged) && !(Test.charged.dev.pumpPlan x []).waits && !Test.charged.dev.stale x &&
          !x.dropped && (Test.charged.dev.pump (.core 0)).queue.all (fun y => y.charged == 8)
      | _ => false) = true ∧
    (match (Test.pumped.dev.pump (.core 0)).queue with
      | [x] => decide (x.charged < (Test.pumped.dev.pumpPlan x []).total) && x.started
      | _ => false) = true ∧
    (let k := Test.charged.dev.task 0 0
     tDense (k.desc 1) = 8 ∧ tDense (k.desc 2) = 8 ∧ tSpace (k.desc 1) = 0 ∧ tRing (k.desc 2) = 0xFF ∧ tPeat (k.desc 1) = false ∧ (Test.charged.dev.core 0).bad = [] ∧
       pdMode (k.desc 0) = 0 ∧ pdAlloc (k.desc 0) = false ∧ pdTally (k.desc 0) = false ∧ 128 + 8 ≤ k.bound) := by decide +kernel

theorem test_transfer_lands : Test.after (.pumpTransferComplete (.core 0) 1000 ⟨[], 0, .none⟩) Test.charged
    (fun t => memRead (t.dev.core 0).mem 128 3 == [1, 2, 3] && (t.dev.pump (.core 0)).queue == []) = true := by decide +kernel

/-- A transfer of a generation that is over moves nothing (R418). -/
theorem test_stale_transfer : Test.after (.pumpTransferComplete (.core 0) 1000 ⟨[], 0, .none⟩) { Test.charged with dev := Test.charged.dev.onJob 1 (fun j => { j with gen := 1 }) }
    (fun t => memRead (t.dev.core 0).mem 128 3 == zeros 3 && (t.dev.pump (.core 0)).queue == []) = true := by decide +kernel

/-! ### Releases, held words, results -/

/-- Ring 2 of a task: two slots of 512 bytes at 512, tags from 4, by its SOURCE and producer. -/
def Test.ring (source producer : Nat) (elastic : Nat) : Ring :=
  ⟨Test.rec [(0, 2), (4, 4), (6, 2), (8, 512), (12, 512), (16, elastic), (17, 2), (18, source), (20, producer)], 0, 0⟩

/-- RELEASE of ring 2. -/
def Test.releasing (r : Ring) : State := Test.op (Test.w 0x0A 2) [] [r]

/-- The same with put slot 0 full. -/
def Test.full (s : State) : State := Test.onCore0 s (fun x => x.onTag 4 (fun _ => ⟨true, false, false⟩))

/-- A link transfer that lands in round 3: compile 7, core 0, 8 bytes at the slot's byte 16, over the route that delivers at link 5. -/
def Test.landing : State :=
  let s := Test.releasing (Test.ring 4 5 0)
  let data := leBytes 8 7 ++ leBytes 2 0 ++ leBytes 2 0 ++ leBytes 1 0 ++ leBytes 1 0 ++ leBytes 2 0 ++ leBytes 8 3 ++ leBytes 8 100 ++
    leBytes 8 16 ++ leBytes 4 8 ++ leBytes 4 0 ++ leBytes 8 0x1122334455667788
  let d := { s.dev with
    jobs := [(1, { Job.reset with state := .active, img := some { Test.image with routes := [Test.rec [(0, 2), (1, 0), (2, 0), (4, 5), (5, 0xFF)]] } })]
    links := [(5, { Link.reset with
      state := 3
      rx := [{ route := 0, path := 0, data := data, whole := true, at_ := 0, link := 5, fixed := true, judged := true, late := false }] })] }
  Test.onCore0 (Test.on d) (fun x => { x with windows := [(0, { Test.win with base := 0, bound := 4096 })] })

/-- A transfer that has landed for the crossing ring. -/
def Test.landed : Xfer := ⟨1, 0, 0, 0, 0, 0, 3, true, 8, false, 0, 0, none, [(0, [5, 6])], []⟩

def Test.crossing : State :=
  Test.onCore0 (Test.op (Test.w 0x0A 2) [Test.rec [(0, 1), (2, 2), (4, 0xFFFF), (14, 0xFFFF)], Test.tensor 64 8 8 1 1 8,
      Test.rec [(0, 0), (8, 8), (9, 2), (11, 2), (16, 8), (20, 1), (24, 1), (28, 1), (32, 1), (36, 8)]] [Test.ring 5 0 0])
    (fun x => { x with landed := [Test.landed] })

set_option maxRecDepth 100000 in
theorem witness_ReleaseTicksFillSlots : Undisturbed (.of 0) 0 ∧
    Issues 0x0A 0 0 (Test.w 0x0A 2) (Test.releasing (Test.ring 1 0 0)) ∧ Issues 0x0A 0 0 (Test.w 0x0A 2) (Test.releasing (Test.ring 3 1 0)) ∧
    ((Test.releasing (Test.ring 3 1 0)).dev.task 0 0).ring? 2 = some (Test.ring 3 1 0) ∧ srSource (Test.ring 3 1 0).decl = 3 ∧
    (2 : Nat) ∉ ((Test.releasing (Test.ring 3 1 0)).dev.task 0 0).released ∧ (Test.releasing (Test.ring 3 1 0)).dev.ringFails 0 0 (2, true) = false ∧
    (Test.full (Test.releasing (Test.ring 3 1 0))).dev.ringFails 0 0 (2, true) = true ∧ (Test.releasing (Test.ring 3 1 0)).dev.wellQueued ⟨0, 0, 0⟩ 2 = [] ∧
    ((Test.releasing (Test.ring 3 1 0)).dev.task 0 0).putSlot (Test.ring 3 1 0) + ((Test.releasing (Test.ring 3 1 0)).dev.intakeBlock 1 3).length = 576 ∧
    Test.image.classes = [] ∧ (Test.releasing (Test.ring 3 1 0)).dev.anyVoid 3 = false ∧
    (2 : Nat) ∈ ((Test.onTask0 (Test.releasing (Test.ring 4 5 0)) (fun k => { k with released := [2] })).dev.task 0 0).released ∧
    (Test.full Test.landing).dev.ringFails 0 0 (2, true) = true ∧ Test.landing.dev.ringFails 0 0 (2, true) = false ∧
    (Test.landing.dev.landings 1 0 (Test.ring 4 5 0) 3).all (fun x => !x.2.2.late) = true ∧
    Issues 0x0A 0 0 (Test.w 0x0A 2) (Test.releasing (Test.ring 4 5 0)) ∧ (Test.releasing (Test.ring 4 5 0)).dev.landings 1 0 (Test.ring 4 5 0) 3 = [] ∧
    Issues 0x0A 0 0 (Test.w 0x0A 2) Test.landing ∧ (Test.landing.dev.landings 1 0 (Test.ring 4 5 0) 3).map (fun x => (x.1, x.2.1)) = [(5, 0)] ∧
    (Test.landing.dev.landings 1 0 (Test.ring 4 5 0) 3).all (fun x => Test.landing.dev.accepts 0 x.2.2.writer (512 + 16) 8 == some 0) = true ∧
    Issues 0x0A 0 0 (Test.w 0x0A 2) Test.crossing ∧ Test.crossing.dev.wellQueued ⟨0, 0, 0⟩ 2 = [] ∧
    oldest (Test.crossing.dev.wellLanded ⟨0, 0, 0⟩ 2) = some Test.landed := by
  refine ⟨Test.calm, ?_⟩
  unfold Issues; decide +kernel

/-- The block of a round without records: the round and zeros (R532). -/
theorem test_release_intake : Test.after (.release 0 (.of 0)) (Test.releasing (Test.ring 3 1 0))
    (fun t => memRead (t.dev.core 0).mem 512 8 == leBytes 8 3 && ((t.dev.core 0).tag 4).full && (t.dev.task 0 0).pc == 1) = true := by decide +kernel

theorem test_release_full_waits : Test.after (.release 0 (.of 0)) (Test.full (Test.releasing (Test.ring 3 1 0)))
    (fun t => (t.dev.task 0 0).pc == 0 && (t.dev.task 0 0).wait.isSome) = true := by decide +kernel

theorem test_release_link : Test.after (.release 0 (.of 0)) Test.landing
    (fun t => memRead (t.dev.core 0).mem 528 8 == leBytes 8 0x1122334455667788 && ((t.dev.core 0).tag 4) == ⟨true, false, false⟩ && (t.dev.link 5).rx == []) = true := by
  decide +kernel

theorem test_release_slips : Test.after (.release 0 (.of 0)) (Test.releasing (Test.ring 4 5 0)) (fun t => ((t.dev.core 0).tag 4) == ⟨true, false, true⟩) = true := by
  decide +kernel

theorem test_release_well : Test.after (.release 0 (.of 0)) Test.crossing
    (fun t => memRead (t.dev.core 0).mem 512 2 == [5, 6] && (t.dev.core 0).landed == []) = true := by decide +kernel

/-- A conversion whose source lies in elastic ring 2. -/
def Test.heldConv (kind : WaitKind) : State :=
  Test.onTask0 (Test.op (Test.w 7 0) [Test.rec [(0, 1), (2, 2)],
      Test.rec [(8, 0), (9, 2), (11, 2), (16, 3), (20, 1), (24, 1), (28, 1), (32, 4), (36, 12)], Test.tensor 128 1 3 1 2 6] [Test.ring 1 0 1])
    (fun k => { k with wait := some ⟨kind, 3, 5, 2, 0⟩ })

theorem witness_HeldWordsGoOn : Undisturbed (.of 0) 0 ∧
    (Test.heldConv (.ring 2 false)).dev.up = true ∧ (Test.heldConv (.ring 2 false)).dev.taskRuns 0 0 = true ∧
    (Test.heldConv (.ring 2 false)).dev.curWordOf 0 0 = some (Test.w 7 0) ∧ ((Test.heldConv (.ring 2 false)).dev.task 0 0).wait = some ⟨.ring 2 false, 3, 5, 2, 0⟩ ∧
    engineUses ((Test.heldConv .interlock).dev.task 0 0) (Test.w 7 0) = ([1], [2]) ∧ Unheld (Test.full (Test.heldConv (.ring 2 false))).dev 0 0 [1] [2] ∧
    ((2, false) : Nat × Bool) ∈ ((Test.heldConv .interlock).dev.task 0 0).ringUses [1] [2] ∧ (Test.heldConv .interlock).dev.ringFails 0 0 (2, false) = true ∧
    ((Test.heldConv .interlock).dev.task 0 0).elastic 2 = true := by
  refine ⟨Test.calm, ?_⟩
  unfold Unheld; decide +kernel

theorem test_held_word : Test.after (.elasticWaitEnd 0 (.of 0) 40) (Test.full (Test.heldConv (.ring 2 false)))
      (fun t => (t.dev.task 0 0).pc == 1 && (t.dev.task 0 0).lastCycle == 40 && (t.dev.task 0 0).wait == none) = true ∧
    Test.after (.elasticWaitEnd 0 (.of 0) 40) (Test.heldConv (.ring 2 false)) (fun t => (t.dev.task 0 0).pc == 0 && (t.dev.task 0 0).wait.isSome) = true := by decide +kernel

/-- RESULT of ring 2 whose slot holds one record of stream 9: frame 0, one token, 4 bytes; result ring 6 names the ring, with entries of 64. -/
def Test.resulting (bound : Bool) : State :=
  let s := Test.full (Test.fill (Test.streaming .active (Test.op (Test.w 0x16 2) [] [Test.ring 0 0 0]))
    512 (leBytes 2 9 ++ leBytes 2 0 ++ leBytes 4 0 ++ leBytes 4 0 ++ leBytes 4 1 ++ leBytes 4 0 ++ leBytes 4 4 ++ leBytes 8 0 ++ [1, 2, 3, 4]))
  { s with dev := { s.dev with regs := if bound then [(ringOff 3 6 + 8, BitVec.ofNat 64 (1 + 2 ^ 16 + 2 * 2 ^ 24))] else [] } }

theorem witness_ResultsReachTheirRing : Undisturbed (.of 0) 0 ∧
    Issues 0x16 0 0 (Test.w 0x16 2) (Test.resulting true) ∧ (Test.resulting true).dev.ringFails 0 0 (2, false) = false ∧
    (Test.resulting true).dev.resultRing 0 0 2 false = some 6 ∧ (Test.resulting false).dev.resultRing 0 0 2 false = none ∧
    (match slotRecords 512 (memRead ((Test.resulting true).dev.core 0).readable 512 512) with
      | [x] => rrHandle x.1 == 9 && x.2 == [1, 2, 3, 4]
      | _ => false) = true ∧
    ((Test.resulting true).dev.recordItem 3 9 0 0).map (fun i => (i.detected, i.failed, i.replayed)) = some (0, 0, false) ∧
    ((Test.resulting true).dev.stream 9).job = 1 ∧ ((Test.resulting true).dev.core 0).bad = [] ∧ (Test.resulting true).dev.ringRoom 3 6 = true ∧
    (Test.resulting true).dev.regF (ringOff 3 6 + 8) 16 8 = 1 ∧ ((Test.resulting true).dev.ring (ringKey 3 6)).backlog = [] ∧ (Test.resulting true).dev.provs = [] ∧
    (let d : Dev := { (Test.resulting true).dev with kindle := { Kindle.reset with localReady := true }, rings := [(ringKey 3 6, { HostRing.reset with backlog := [zeros 64] })] }
     d.kindle.localReady = true ∧ (d.ring (ringKey (ringCode .rq) 6)).backlog = [zeros 64] ∧ d.ringRoom (ringCode .rq) 6 = true ∧ d.ringRoom (ringCode .rq) 7 = false) := by
  refine ⟨Test.calm, ?_⟩
  unfold Issues; decide +kernel

/-- The entry: handle, BYTES 4, TIME 77, the payload (R534). -/
theorem test_result : Test.after (.result 0 (.of 0) 77) (Test.resulting true) (fun t => (t.dev.ring (ringKey 3 6)).devIdx == 1 &&
      t.dev.out == [HostOut.entry 3 6 0 (leBytes 2 9 ++ zeros 6 ++ leBytes 4 0 ++ leBytes 4 1 ++ zeros 4 ++ leBytes 4 4 ++ leBytes 8 77 ++ [1, 2, 3, 4] ++ zeros 28)]) = true ∧
    Test.after (.result 0 (.of 0) 77) (Test.resulting false) (fun t => t.dev.err.head == 1 && (t.dev.task 0 0).pc == 1) = true := by decide +kernel

/-! ### Adaptation -/

/-- A span of one word, or the end of the last span and two words. -/
def Test.spans (begins : Nat) : List Nat := [Test.w 0x18 begins, Test.w 0 0, if begins = 1 then Test.w 0x18 0 else 0]

/-- An adapter of task 0 with STEP_ROUNDS 2 and host targets; ADAPT_SPAN begins or ends a span. -/
def Test.adapting (begins : Nat) (p : AdpState) : State :=
  let s := Test.on (Test.run (Test.spans begins) (Test.task (Test.spans begins) [] []))
  { s with dev := { s.dev with jobs := [(1, { Job.reset with
      state := .active
      adps := [(4, p)]
      img := some { Test.image with adapters := [Test.rec [(0, 4), (1, 1), (3, 1), (12, 2), (18, 0), (44, 8)]] } })] } }

/-- Round 3 yields the job's adaptation. -/
def Test.yielding (s : State) : State := { s with dev := s.dev.onJob 1 (fun j => { j with yieldRounds := [3] }) }

theorem witness_AdaptationSpansCountSamples : Undisturbed (.of 0) 0 ∧
    Issues 0x18 0 0 (Test.w 0x18 1) (Test.adapting 1 AdpState.start) ∧
    Issues 0x18 0 0 (Test.w 0x18 0) (Test.adapting 0 AdpState.start) ∧ (Test.adapting 0 AdpState.start).dev.yields ⟨0, 0, 0⟩ = false ∧ (Test.adapting 0 AdpState.start).dev.lastSpan ⟨0, 0, 0⟩ = true ∧
    (Test.yielding (Test.adapting 1 AdpState.start)).dev.yields ⟨0, 0, 0⟩ = true ∧ (Test.adapting 1 AdpState.start).dev.yields ⟨0, 0, 0⟩ = false ∧
    (match (Test.adapting 0 AdpState.start).dev.adaptersOf 0 0 with
      | [a] => adHost a && decide (adNum a = 4) && decide (adSteps a = 2)
      | _ => false) = true ∧
    ((Test.adapting 0 AdpState.start).dev.job 1).adp 4 = AdpState.start ∧ ((Test.adapting 0 AdpState.start).dev.core 0).bad = [] ∧ (Test.adapting 0 AdpState.start).dev.spanNan ⟨0, 0, 0⟩ = false ∧
    (Test.one (Test.w 0x18 0)).dev.adaptersOf 0 0 = [] ∧ wOpcode ((Test.adapting 1 AdpState.start).dev.wordAt 0 0 2) = 0x18 ∧
    bit (wArgs ((Test.adapting 1 AdpState.start).dev.wordAt 0 0 2)) 0 = false ∧ wOpcode ((Test.adapting 1 AdpState.start).dev.wordAt 0 0 1) = 0 := by
  refine ⟨Test.calm, ?_⟩
  unfold Issues; decide +kernel

/-- The first round of a step counts; the second ends a step without samples (R350). -/
theorem test_adapt : Test.after (.adaptSpan 0 (.of 0)) (Test.adapting 0 AdpState.start)
      (fun t => ((t.dev.job 1).adp 4) == { AdpState.start with step := 1, seen := 4 }) = true ∧
    Test.after (.adaptSpan 0 (.of 0)) (Test.adapting 0 { AdpState.start with step := 1 }) (fun t => ((t.dev.job 1).adp 4) == { AdpState.start with seen := 4 }) = true := by
  decide +kernel

/-- Within a span of a trapping task an infinite operand traps, though the value written saturates; outside a span it does not (R353). -/
theorem test_span_infinity : [true, false].all (fun a => Test.after (.convert 0 0 ⟨0, .none⟩)
    (Test.onTask0 (Test.fill Test.conv 64 (leBytes 4 0x7F800000)) (fun k => { k with adapting := a, nanTrap := true }))
    (fun t => (t.dev.task 0 0).cands.map (fun c => (c.elem, c.operand)) == (if a then [(0, 0)] else []))) = true := by decide +kernel

/-- A span that begins in a job that yields is skipped to the word that ends it (R346). -/
theorem test_adapt_yields : Test.after (.adaptSpan 0 (.of 0)) (Test.yielding (Test.adapting 1 AdpState.start))
    (fun t => (t.dev.task 0 0).pc == 2) = true := by decide +kernel

/-! ### Traps, watchdogs, scrubs -/

def Test.cand : NanCand := ⟨0, 2, 5, 7, 3⟩

def Test.trapping (nanTrap : Bool) : State :=
  Test.onTask0 (Test.streaming .active (Test.op (Test.w 7 0) [] [])) (fun k => { k with nanTrap := nanTrap, cands := [Test.cand] })

theorem witness_NanTrapsAndRecordHandling : ∀ b : Bool, (Test.trapping b).dev.up = true ∧
    ((Test.trapping b).dev.task 0 0).nanAt 0 7 = some Test.cand ∧ ((Test.trapping b).dev.task 0 0).cmdTrap = none ∧ ((Test.trapping b).dev.task 0 0).nanTrap = b ∧
    (∃ i ∈ ((Test.trapping b).dev.stream 9).items, (Test.trapping b).dev.trapsItem 9 Test.cand.round i = true) ∧ ((Test.trapping b).dev.task 0 0).trapA < 2 ^ 63 ∧
    (Test.trapping b).dev.spanWord 0 0 Test.cand.word = false ∧
    ({ ErrBlock.reset with queue := [⟨0x0302, 0, 0, 0, [], 1, 0, 0, 3, 0⟩] } : ErrBlock).queue = ⟨0x0302, 0, 0, 0, [], 1, 0, 0, 3, 0⟩ :: [] := by decide +kernel

/-- Whether a word serves a stream is left free (entry 6): where it does, the trap of its item is met. -/
theorem witness_NanTrapServesStream (h : Config.serves 0 0 0 9 = true) : (9 : Nat) ∈ (Test.trapping true).dev.opHandlesAt 0 0 Test.cand.word Test.cand.round :=
  List.mem_filter.mpr ⟨by decide +kernel, h⟩

/-- The trap of the command item: bit 31 says that there is no handle (R132). -/
theorem test_nan_trap : Test.after (.nanTrap 0 0 0 7 none) (Test.trapping true)
    (fun t => (t.dev.task 0 0).trapA == 2 ^ 63 + 5 * 2 ^ 35 + 2 * 2 ^ 32 + 2 ^ 31 && (t.dev.stream 9).items.map (·.failed) == [0] && (t.dev.task 0 0).cands == [] &&
      (t.dev.task 0 0).trapped && (t.dev.task 0 0).cmdTrap == some 3) = true := by
  decide +kernel

theorem witness_WatchdogsAndTripsStop : (Test.one 0).dev.up = true ∧ ((Test.one 0).dev.task 0 0).state = .running ∧ ((Test.one 0).dev.task 0 0).passed < 4 ∧
    ((Test.onTask0 (Test.one 0) (fun k => { k with passed := 4 })).dev.task 0 0).passed = 4 ∧ (Test.one 0).dev.err.head - (Test.one 0).dev.err.tail < 256 := by decide

theorem test_trip : Test.after .thermalTrip (Test.on Test.dev) (fun t => t.dev.err.halting && !t.dev.kindle.faultN) = true ∧
    Test.after .vmcWatchdog (Test.on Test.dev) (fun t => t.dev.err.halting && t.dev.kindle.faultN) = true := by decide +kernel

theorem test_task_watchdog : Test.after (.taskWatchdog 0 0) (Test.onTask0 (Test.one 0) (fun k => { k with passed := 4 }))
    (fun t => (t.dev.task 0 0).state == .stopped && t.dev.err.head == 1) = true := by decide +kernel

/-- Job 1 killed, on core 0. -/
def Test.killed (zeroing : List (Nat × Nat × Nat)) : State :=
  Test.on { Test.run [0] (Test.task [0] [] []) with
    jobs := [(1, { Job.reset with state := .killed, img := some { Test.image with placements := [Test.rec [(0, 0), (2, 0), (8, 4096)]] } })]
    zeroing := zeroing }

def Test.sliced (st : SliceState) : State := Test.on { Test.dev with slices := [(0, { Slice.reset with state := st })] }

/-- Core 0 of an ACTIVE job with a WEIGHT bank 3, a RETIRING table slot and maintenance. -/
def Test.weighted (maint : Bool) : State := Test.onCore0 (Test.one 0) (fun x => { x with
  maint := maint
  roles := [(3, 1)]
  bad := [(24, 1)]
  gens := [⟨2, 6, 0, [], 0, 1⟩, GenSlot.reset, GenSlot.reset, GenSlot.reset] })

theorem witness_ScrubsClearAndPatrolsRead : ((Test.killed []).dev.job 1).state = .killed ∧ ((Test.killed []).dev.job 2).state ≠ .killed ∧
    (∀ z ∈ (Test.killed []).dev.zeroing, z.1 ≠ 1) ∧ (∃ z ∈ (Test.killed [(1, 0, 16)]).dev.zeroing, z.1 = 1) ∧
    ((Test.sliced .contained).dev.slice 0).state = .contained ∧ ((Test.sliced .scrubbing).dev.slice 0).state = .scrubbing ∧
    mgetD ((Test.weighted false).dev.core 0).roles 3 0 = 1 ∧ mgetD ((Test.weighted false).dev.core 0).roles 4 0 ≠ 1 ∧ (Test.weighted false).dev.coreActive 0 = true ∧
    mget ((Test.weighted false).dev.core 0).patrolWb 3 = none ∧ ((Test.weighted false).dev.core 0).gens[0]? = some ⟨2, 6, 0, [], 0, 1⟩ ∧
    ((Test.weighted false).dev.core 0).gens[1]? = some GenSlot.reset ∧
    (Test.weighted false).dev.earlierRequests 0 6 1 = false ∧ ((Test.weighted true).dev.core 0).maint = true ∧ ((Test.weighted true).dev.core 0).locked = false ∧
    (Test.weighted true).dev.sliceUp 0 = true := by decide +kernel

theorem test_kill_scrub : Test.after (.killScrubComplete 1 false) (Test.killed []) (fun t => (t.dev.job 1).state == .empty) = true ∧
    Test.after (.killScrubComplete 1 false) (Test.killed [(1, 0, 16)]) (fun t => (t.dev.job 1).state == .killed && (t.dev.job 1).clear) = true := by decide +kernel

theorem test_slice_scrub : Test.after (.sliceScrubStart 0) (Test.sliced .contained) (fun t => (t.dev.slice 0).state == .scrubbing && (t.dev.core 63).maint) = true ∧
    Test.after (.sliceScrubComplete 0) (Test.sliced .scrubbing) (fun t => (t.dev.slice 0).state == .retired) = true := by decide +kernel

theorem test_patrol : Test.after (.scrubPatrol 0 3 .none) (Test.weighted false) (fun t => mgetD (t.dev.core 0).patrolPos 3 0 == 1) = true := by decide +kernel

/-- Word 24 lies at byte 192, in bank 3 (R358). -/
theorem test_refetch : Test.after (.weightRefetchComplete 0) (Test.weighted true) (fun t => !(t.dev.core 0).maint && (t.dev.core 0).bad == []) = true ∧
    Test.after (.expSlotRelease 0 0) (Test.weighted false) (fun t => (t.dev.core 0).gens.map (·.state) == [0, 0, 0, 0]) = true := by decide +kernel

/-! ### Ports -/

/-- Port 0 enabled: 48 kHz, 8-bit slots, two of them. -/
def Test.ported (x : Port) : State :=
  Test.on { Test.dev with
    regs := [(portOff 0, BitVec.ofNat 64 (1 + 2 ^ 5))]
    ports := [(0, x)]
    tb := { TimeBase.reset with aligned := true } }

def Test.lock : Port := { Port.reset with state := 2, opened := [⟨700, false, 0, false⟩], seq := 4, last := [9, 10] }

/-- A play route of ring 2 of core 0's task 0 on port 1 (µ-law, one channel, two frames), its slot full. -/
def Test.playRoute : Rec := Test.rec [(0, 4), (1, 1), (2, 1), (3, 1), (4, 0), (5, 1), (9, 0), (10, 0), (12, 2), (14, 2)]

def Test.playing : State :=
  let s := Test.full (Test.fill (Test.op 0 [] [Test.ring 0 0 0]) 512 [1, 0, 2, 0])
  { s with dev := { s.dev with regs := [(portOff 1, 1)], ports := [(1, { Port.reset with state := 2, routes := [(256, Test.playRoute)] })] } }

theorem witness_PortsFrameAndPlay : bit ((Test.ported Test.lock).dev.pctl 0) 16 = false ∧ (Test.ported Test.lock).dev.up = true ∧ (Test.ported Test.lock).dev.tb.aligned = true ∧ Test.dev.tb.aligned = false ∧ (Test.ported Test.lock).dev.portUp 0 = true ∧
    (Test.ported { Port.reset with state := 1 }).dev.portUp 0 = true ∧ ((Test.ported Test.lock).dev.port 0).opened = [⟨700, false, 0, false⟩] ∧
    ((Test.ported { Test.lock with opened := [] }).dev.port 0).opened = [] ∧
    ((Test.ported { Test.lock with opened := [⟨600, false, 0, false⟩, ⟨700, false, 0, false⟩] }).dev.port 0).opened = ⟨600, false, 0, false⟩ :: [] ++ [⟨700, false, 0, false⟩] ∧
    (∀ c, (Test.ported Test.lock).dev.rxCap 0 = some c → (Test.ported Test.lock).dev.queued 0 < c) ∧
    ((Test.ported { Port.reset with state := 3, stopT0 := 1000 }).dev.port 0).state = 3 ∧ (Test.ported { Port.reset with state := 3 }).dev.portUp 0 = true ∧
    (Test.ported { Port.reset with state := 3 }).dev.expectedRate 0 = 8000000 ∧ (2 * 1 + 1) * 10 ^ 12 ≤ 2 * 8000000 * (200000 - 0) ∧
    2 * 8000000 * (180000 - 0) < (2 * 1 + 1) * 10 ^ 12 ∧
    (Test.playing.dev.port 1).routes[0]? = some (256, Test.playRoute) ∧ Test.playing.dev.portUp 1 = true ∧ Test.playing.dev.pumpUp (.core 0) = true ∧
    (mgetD (Test.playing.dev.port 1).playQ 256 []).length < 2 ∧ (Test.playing.dev.core 0).bad = [] ∧ Test.playing.dev.ringFails 0 0 (2, false) = false ∧ prDir Test.playRoute = 1 ∧
    (Test.playing.dev.task 0 0).ring? 2 = some (Test.ring 0 0 0) := by
  refine ⟨by decide +kernel, by decide +kernel, by decide +kernel, by decide +kernel, by decide +kernel, by decide +kernel, by decide +kernel, by decide +kernel, by decide +kernel, ?_, ?_⟩
  · intro c h
    have h0 : (Test.ported Test.lock).dev.rxCap 0 = none := by decide +kernel
    rw [h0] at h
    cases h
  · decide +kernel

/-- A frame completes with its opening stamp and A-law values: D5 and 55 are the smallest of each sign (R448). -/
theorem test_frame : Test.after (.tdmFrame 0 [0xD5, 0x55] 800) (Test.ported Test.lock)
    (fun t => (t.dev.crossQ (srcKey 0 0)).items.map (fun x => (x.stamp, x.seq, (frameOf x).1, (frameOf x).2.1)) == [(700, 4, [8, -8], false)]) = true := by
  decide +kernel

theorem test_missing_sync : Test.after (.tdmMissingSync 0 900) (Test.ported { Test.lock with opened := [] })
    (fun t => (t.dev.crossQ (srcKey 0 0)).items.map (fun x => (x.stamp, (frameOf x).1, (frameOf x).2.1)) == [(900, [9, 10], true)]) = true := by decide +kernel

/-- The repeat of a missing sync follows the frame in progress; with no receive route loaded no frame has placed a sample since (R462, R465). -/
theorem test_missing_waits : Test.after (.tdmFrame 0 [0xD5, 0x55] 800) (Test.ported { Test.lock with opened := [⟨700, false, 0, false⟩, ⟨795, true, 2, true⟩] })
    (fun t => (t.dev.crossQ (srcKey 0 0)).items.map (fun x => (x.stamp, x.seq, (frameOf x).1, (frameOf x).2.1)) == [(700, 4, [8, -8], false), (795, 5, [9, 10], true)]) = true := by
  decide +kernel

theorem test_stop_repeats : Test.after (.tdmStopRepeatFrame 0 188500) (Test.ported { Port.reset with state := 3, stopT0 := 1000 })
      (fun t => (t.dev.crossQ (srcKey 0 0)).items.map (·.stamp) == [126000]) = true ∧
    Test.after (.tdmStopRepeatFrame 0 188499) (Test.ported { Port.reset with state := 3, stopT0 := 1000 }) (fun t => (t.dev.crossQ (srcKey 0 0)).items == []) = true := by decide +kernel

theorem test_early_sync : Test.after (.tdmFrameSync 0 false true 750) (Test.ported Test.lock)
    (fun t => (t.dev.crossQ (srcKey 0 0)).items.map (fun x => (x.stamp, (frameOf x).2.1)) == [(700, true)] && (t.dev.port 0).opened == [⟨750, true, 2, false⟩]) = true := by
  decide +kernel

theorem test_clock_stop : Test.after (.tdmClockStop 0 750) (Test.ported Test.lock)
    (fun t => (t.dev.port 0).state == 3 && (t.dev.crossQ (srcKey 0 0)).items.map (·.stamp) == [700]) = true := by decide +kernel

theorem test_play_refill : Test.after (.tdmPlayRefill 1 0) Test.playing
    (fun t => mgetD (t.dev.port 1).playQ 256 [] == [[[1], [2]]] && ((t.dev.core 0).tag 4) == ⟨false, false, false⟩) = true := by decide +kernel

/-! ### The cut -/

/-- Round 4 begins at 1,000,000; its window at 500,000, and with the guard of 200 µs it ends at 800,000. Frames before, in and after it. -/
def Test.item (stamp present seq : Nat) (data : Cross) : CrossItem := ⟨stamp, present, seq, 1, false, false, data⟩

def Test.sealing : State :=
  let s := Test.ported Test.lock
  { s with dev := { s.dev with
      tb := { TimeBase.reset with round := 3, nextMark := 4, running := true, winStart := 500000, baseT := 1000000, baseN := 4, epoch := 1 }
      cross := [(srcKey 0 0, { CrossQ.reset with items := [Test.item 400000 400000 1 (.frame [] false 0 0), Test.item 799999 979999 2 (.frame [] false 0 0),
        Test.item 800000 800000 3 (.frame [] false 0 0), Test.item 700000 990000 4 (.frame [] false 0 0)] })] } }

/-- An intake record of stream 9 on ring 2: two A-law samples and no mark. -/
def Test.intake : State :=
  let s := Test.streaming .active (Test.one 0)
  let r : Cross := .intake (leBytes 2 9 ++ zeros 2 ++ leBytes 4 2 ++ zeros 24) [0xD5, 0x55]
  let d : Dev := { s.dev with cross := [(srcKey 1 2, { CrossQ.reset with assigned := [(4, Test.item 0 0 7 r)] })] }
  { s with dev := d.onStream 9 (fun k => { k with port := 2 }) }

theorem witness_CutsAssignAndRecordsFeedStreams : Test.sealing.dev.up = true ∧ Test.sealing.dev.tb.running = true ∧ Test.sealing.dev.tb.sealed ≠ Test.sealing.dev.tb.nextMark + 1 ∧
    Test.sealing.dev.tb.markTime 4 = 1000000 ∧ max Test.sealing.dev.tb.winStart (1000000 - Test.sealing.dev.guardNs) = 800000 ∧ Test.sealing.dev.err.halting = false ∧ Test.sealing.dev.sourceJobs 0 0 = [] ∧
    Test.sealing.dev.log.head + 96 ≤ Test.sealing.dev.log.tail + Test.sealing.dev.logCap ∧ ((Test.sealing.dev.crossQ (srcKey 0 0)).items.map (·.seq)).Nodup ∧
    (Test.intake.dev.crossQ (srcKey 1 2)).assigned.findIdx? (fun p => !p.2.taken && decide (p.1 ≤ Test.intake.dev.tb.nextMark)) = some 0 ∧
    Test.intake.dev.onRing0 9 2 4 = true ∧ Test.intake.dev.onRing0 9 3 4 = false := by decide +kernel

set_option maxRecDepth 100000 in
/-- The first two are assigned, the first late; the third lies past the window, and the fourth comes too late for the seal. -/
theorem test_seal : Test.after .intakeSeal Test.sealing (fun t =>
      (t.dev.crossQ (srcKey 0 0)).assigned.map (fun x => (x.1, x.2.seq, x.2.late)) == [(4, 1, true), (4, 2, false)] &&
      (t.dev.crossQ (srcKey 0 0)).items.map (·.seq) == [3, 4] && t.dev.tb.winStart == 800000) = true := by decide +kernel

theorem test_intake_record : Test.after (.intakeRecord 2) Test.intake (fun t => (t.dev.stream 9).samples == [8, -8]) = true ∧
    Test.after (.intakeRecord 2) { Test.intake with dev := Test.intake.dev.onStream 9 (fun k => { k with port := 3 }) }
      (fun t => (t.dev.stream 9).samples == [] && t.dev.err.head == 1) = true := by decide +kernel

/-! ### Host rings and apertures -/

theorem witness_HostRingsMoveTheirIndices : Test.dev.kindle.localReady = true ∧ Test.dev.ringEntries 0 0 = 16 ∧ sub32 5 (Test.dev.ring (ringKey 0 0)).devIdx = 5 ∧
    sub32 17 (Test.dev.ring (ringKey 0 0)).devIdx = 17 ∧ sub32 (Test.dev.ring (ringKey 1 0)).devIdx 1 = 2 ^ 32 - 1 ∧
    (let d : Dev := { Test.dev with regs := [(ringOff 2 3 + 8, 1)], rings := [(ringKey 2 3, { HostRing.reset with hostIdx := 1, stamps := [(1, 55)] })] }
     d.ringEn 2 3 = true ∧ (d.ring (ringKey 2 3)).hostIdx ≠ (d.ring (ringKey 2 3)).devIdx ∧ (d.ring (ringKey 2 3)).stamps = [(1, 55)]) ∧
    Test.dev.ringEn 2 3 = false ∧ ({ HostRing.reset with holding := true, irqPending := true, lastIrq := 10 } : HostRing).holding = true ∧
    Test.dev.regF (msixCtl 7) 32 1 = 1 ∧ ({ Test.dev with regs := [(msixCtl 7, 0)] } : Dev).regF (msixCtl 7) 32 1 = 0 := by decide +kernel

theorem test_doorbell : Test.after (.sqDoorbell 0 16 9) (Test.on Test.dev) (fun t => (t.dev.ring (ringKey 0 0)).hostIdx == 16) = true ∧
    Test.after (.sqDoorbell 0 17 9) (Test.on Test.dev) (fun t => (t.dev.ring (ringKey 0 0)).hostIdx == 0 && t.dev.err.head == 1) = true ∧
    Test.after (.iqDoorbell 31 1 9) (Test.on Test.dev) (fun t => (t.dev.ring (ringKey 2 31)).hostIdx == 1) = true ∧
    Test.after (.ringHostidxConsume true 0 1) (Test.on Test.dev) (fun t => (t.dev.ring (ringKey 3 0)).hostIdx == 0 && t.dev.err.head == 1) = true := by decide +kernel

/-- A fetch stamps its record with its doorbell's TIME (R526). -/
theorem test_fetch : Test.after (.ringRecordFetch true 3 (zeros 64) [] 90)
    (Test.on { Test.dev with regs := [(ringOff 2 3 + 8, 1)], rings := [(ringKey 2 3, { HostRing.reset with hostIdx := 1, stamps := [(1, 55)] })] })
    (fun t => (t.dev.crossQ (srcKey 1 3)).items.map (·.stamp) == [55] && (t.dev.ring (ringKey 2 3)).devIdx == 1) = true := by decide +kernel

theorem test_holdoff : Test.after (.ringIrqHoldoff .rq 2 3010)
    (Test.on { Test.dev with
      regs := [(ringOff 3 2 + 8, BitVec.ofNat 64 (7 * 2 ^ 48 + 3 * 2 ^ 56)), (msixCtl 7, 0)]
      rings := [(ringKey 3 2, { HostRing.reset with holding := true, irqPending := true, lastIrq := 10 })] })
    (fun t => t.dev.out == [HostOut.vector 7]) = true := by decide +kernel

/-- Aperture 2 onto window 0 of core 1. -/
def Test.mappedB2 (open_ locked : Bool) : State :=
  let s := Test.windowed open_
  Test.on (({ s.dev with
    kindle := Test.dev.kindle
    regs := [(0x101010, BitVec.ofNat 64 (1 + 2 ^ 8))]
    cross := [(srcKey 3 2, { CrossQ.reset with assigned := [(3, Test.item 0 0 0 (.bar2 8 [5, 6]))] })] } : Dev).onCore 1 (fun x => { x with locked := locked }))

theorem witness_AperturesReachWindowsAndWell : (Test.mappedB2 true false).dev.kindle.localReady = true ∧ 2 * aperture / aperture % 32 = 2 ∧
    (Test.mappedB2 true false).dev.b2Window 2 = some (1, Test.win) ∧ (Test.mappedB2 false false).dev.b2Window 2 = some (1, { Test.win with isOpen := false }) ∧
    ((Test.mappedB2 true false).dev.crossQ (srcKey 3 2)).assigned = [((Test.mappedB2 true false).dev.tb.round, Test.item 0 0 0 (.bar2 8 [5, 6]))] ∧
    (∀ v : Fin 32, v.val ≠ 2 → ((Test.mappedB2 true false).dev.crossQ (srcKey 3 v)).assigned = []) ∧ ((Test.mappedB2 true true).dev.core 1).locked = true ∧
    ((Test.mappedB2 true false).dev.job 1).loaded = true ∧ Test.dev.b2Window 2 = none ∧ Test.dev.unmapped 4096 2 = false ∧ Test.dev.heldPage 4096 2 = false ∧
    Test.dev.anyCtlDown = false ∧ 4096 + 2 ≤ Config.wellBytes ∧ (Test.killed [(1, 4096, 4096)]).dev.unmapped 4096 2 = true ∧
    Test.dev.bar4Addr 4096 = 4096 := by decide +kernel

theorem test_bar2_apply : Test.after .bar2WriteApply (Test.mappedB2 true false) (fun t => memRead (t.dev.core 1).mem 520 2 == [5, 6] && t.dev.err.head == 0) = true ∧
    Test.after .bar2WriteApply (Test.mappedB2 false false) (fun t => memRead (t.dev.core 1).mem 520 2 == [0, 0] && t.dev.err.head == 1) = true ∧
    Test.after .bar2WriteApply (Test.mappedB2 true true) (fun t => (t.dev.core 1).denied == 1 && t.dev.err.head == 1) = true := by decide +kernel

theorem test_bar2 : Test.after (.bar2Read (2 * aperture + 8) ⟨2, .none⟩) (Test.onCore0 (Test.mappedB2 true false) id)
      (fun t => t.dev.out.getLast? == some (.read [0, 0])) = true ∧
    Test.after (.bar2Write (2 * aperture + 8) [1] 5) (Test.on Test.dev) (fun t => (t.dev.crossQ (srcKey 3 2)).items.map (·.data) == [.bar2 8 [1]]) = true := by
  decide +kernel

theorem test_bar4 : Test.after (.bar4Write 4096 [3, 4]) (Test.on Test.dev) (fun t => memRead t.dev.well 4096 2 == [3, 4]) = true ∧
    Test.after (.bar4Read 4096 2) (Test.on { Test.dev with well := [(4097, 8)] }) (fun t => t.dev.out.getLast? == some (.read [0, 8])) = true := by decide +kernel

/-! ### Registers -/

/-- 16 kHz × 128 slots × 32 bits = 65.5 MHz; 48 kHz × 32 × 32 is the limit itself. -/
theorem witness_TdmControlKeepsItsLimit : Test.dev.kindle.localReady = true ∧
    (let data := leBytes 8 (1 * 2 + 3 * 2 ^ 3 + 127 * 2 ^ 5)
     data.length = 8 ∧ 49152000 < tdmHz (bits (leNat data) 1 2) * (bits (leNat data) 5 7 + 1) * (8 * (bits (leNat data) 3 2 + 1))) ∧
    Test.dev.err.head - Test.dev.err.tail < 256 := by decide +kernel

theorem test_tdm_ctl : Test.after (.registerWrite (portOff 0) (leBytes 8 (1 * 2 + 3 * 2 ^ 3 + 127 * 2 ^ 5))) (Test.on Test.dev)
      (fun t => t.dev.err.head == 1 && t.dev.regs == []) = true ∧
    Test.after (.registerWrite (portOff 0) (leBytes 8 (2 * 2 + 3 * 2 ^ 3 + 31 * 2 ^ 5))) (Test.on Test.dev)
      (fun t => t.dev.err.head == 0 && bits (t.dev.reg (portOff 0)) 5 7 == 31) = true := by decide +kernel

theorem witness_RegisterWritesKeepTheirRules : State.reset.dev.kindle.localReady = false ∧ State.reset.dev.kindle.retryEnded = false ∧
    Test.dev.kindle.localReady = true ∧ fieldsAt 0 = [] ∧ Test.dev.anyLoaded = false ∧ Test.dev.tb.aligned = false ∧
    ({ Test.dev with err := { ErrBlock.reset with head := 3, tail := 1 } } : Dev).err.head = 3 ∧
    ({ Test.dev with log := { LogBlock.reset with head := 3, tail := 1 } } : Dev).log.tail ≤ 2 := by decide +kernel

theorem test_registers : Test.after (.registerWrite 0x1F0008 (leBytes 8 77)) (Test.on Test.dev) (fun t => t.dev.reg 0x1F0008 == 77) = true ∧
    Test.after (.registerWrite 0x1F0004 (leBytes 8 77)) (Test.on Test.dev) (fun t => t.dev.reg 0x1F0000 == 0 && t.dev.err.head == 1) = true ∧
    Test.after (.registerWrite 0x1F0008 (leBytes 8 77)) State.reset (fun t => t.dev.regs == []) = true := by decide +kernel

theorem test_tails : Test.after (.errTailWrite 3) (Test.on { Test.dev with err := { ErrBlock.reset with head := 3, tail := 1 } }) (fun t => t.dev.err.tail == 3) = true ∧
    Test.after (.errTailWrite 4) (Test.on { Test.dev with err := { ErrBlock.reset with head := 3, tail := 1 } }) (fun t => t.dev.err.tail == 1 && t.dev.err.head == 4) = true := by
  decide +kernel

theorem test_round_len : Test.after (.roundLenWrite 80 0) (Test.on Test.dev) (fun t => t.dev.tb.lenHalf == 80) = true ∧
    Test.after (.roundLenWrite 81 0) (Test.on Test.dev) (fun t => t.dev.tb.lenHalf == 20 && t.dev.err.head == 1) = true := by decide +kernel

theorem test_clears : Test.after (.ovrClr 0 0) (Test.onTask0 (Test.kindling Kindle.reset) (fun k => { k with ovrCnt := 5 })) (fun t => (t.dev.task 0 0).ovrCnt == 5) = true ∧
    Test.after (.ovrClr 0 0) (Test.onTask0 (Test.one 0) (fun k => { k with ovrCnt := 5 })) (fun t => (t.dev.task 0 0).ovrCnt == 0) = true := by decide +kernel

/-! ### Jobs, streams and the mark -/

/-- A host command of job 1 at the front (R529): opcode, then bytes from 16. -/
def Test.cmd (op : Nat) (tail : Bytes) : HostCmd := ⟨1, 6, leBytes 1 op ++ leBytes 1 1 ++ zeros 6 ++ leBytes 8 0xAB ++ tail, 4⟩

def Test.commanded (s : State) (x : HostCmd) : State := { s with dev := { s.dev with cmds := [x] } }

/-- A job in a state, with a completion ring. -/
def Test.jobbed (st : JobState) (x : HostCmd) : State :=
  Test.commanded (Test.on { Test.dev with
    regs := [(ringOff 1 1 + 8, 1)]
    jobs := [(1, { Job.reset with state := st, img := some { Test.image with classes := [(Test.class_, [], [])], rings := [(Test.ring 3 2 0).decl] } })] }) x

/-- An image of zeros fails its first check; that an image is accepted rests on its signature, whose check is too long to evaluate here. -/
theorem witness_ImagesLoadThenStage :
    (let s := Test.jobbed .empty (Test.cmd 1 (zeros 8 ++ leBytes 8 64 ++ leBytes 4 1000))
     s.dev.kindle.localReady = true ∧ (∃ x rest, s.dev.cmds = x :: rest ∧ cmOp x.bytes = 1 ∧ cmJob x.bytes = 1 ∧ leAt x.bytes 32 4 = 1000) ∧
       (s.dev.job 1).state = .empty ∧ s.dev.popCmd.checkImage 1 (zeros 64) false ≠ 0 ∧ s.dev.ringRoom 1 1 = true ∧ (s.dev.ring (ringKey 1 1)).backlog = []) ∧
    leAt (Test.cmd 1 (zeros 16 ++ leBytes 4 1001)).bytes 32 4 = 1001 ∧
    ((Test.jobbed .loading (Test.cmd 1 [])).dev.job 1).state = .loading ∧ (Test.jobbed .loading (Test.cmd 1 [])).dev.checkObjects (Test.image.deepBytes []) Test.image = 0 ∧
    ((Test.jobbed .active (Test.cmd 1 [])).dev.job 1).state ≠ .loading ∧ Test.image.fabricSize = 1 ∧
    (let i := { Test.image with objects := [Test.rec [(0, 4096 + 2 ^ 48), (8, 64)]] }
     Test.dev.checkObjects (i.deepBytes []) i ≠ 0) := by
  refine ⟨⟨by decide, ⟨_, _, rfl, by decide, by decide, by decide⟩, by decide +kernel⟩, by decide +kernel⟩

theorem test_load_refused : Test.after (.loadImage (zeros 64)) (Test.jobbed .active (Test.cmd 1 (zeros 16 ++ leBytes 4 1000)))
      (fun t => (t.dev.job 1).state == .active && t.dev.cmds == [] && t.dev.out.length == 1) = true ∧
    Test.after (.loadImage (zeros 64)) (Test.jobbed .empty (Test.cmd 1 (zeros 16 ++ leBytes 4 1001)))
      (fun t => (t.dev.job 1).state == .empty && t.dev.err.head == 1) = true := by decide +kernel

/-- A job of one device is ACTIVE two rounds after it is STAGED (R84). -/
theorem test_staged : Test.after (.loadStaged ⟨1, []⟩) (Test.on { Test.dev with jobs := [(1, { Job.reset with state := .loading, img := some Test.image })] })
    (fun t => (t.dev.job 1).state == .staged && (t.dev.job 1).actRound == some 2) = true := by decide +kernel

theorem witness_StopAndKillEndJobs : ∀ op : Fin 2, (∃ x, (Test.jobbed .active (Test.cmd (2 + op) [])).dev.cmds = [x] ∧ cmOp x.bytes = 2 + op ∧ cmJob x.bytes = 1) ∧
    ((Test.jobbed .active (Test.cmd (2 + op) [])).dev.job 1).state = .active ∧ ((Test.jobbed .empty (Test.cmd (2 + op) [])).dev.job 1).state = .empty ∧
    ((Test.jobbed .staged (Test.cmd (2 + op) [])).dev.job 1).state = .staged ∧ ((Test.jobbed .stopped (Test.cmd (2 + op) [])).dev.job 1).state = .stopped ∧
    (Test.jobbed .empty (Test.cmd (2 + op) [])).dev.ringRoom 1 1 = true := by
  intro op
  refine ⟨⟨_, rfl, ?_, ?_⟩, ?_⟩ <;> revert op <;> decide +kernel

theorem test_stop : Test.after .stopJob (Test.jobbed .active (Test.cmd 2 [])) (fun t => (t.dev.job 1).state == .stopping && (t.dev.job 1).stopAt == some 4) = true ∧
    Test.after .killJob (Test.jobbed .active (Test.cmd 3 [])) (fun t => (t.dev.job 1).state == .killed && (t.dev.job 1).gen == 1) = true ∧
    Test.after .killJob (Test.jobbed .empty (Test.cmd 3 [])) (fun t => (t.dev.job 1).state == .empty && t.dev.err.head == 1) = true := by decide +kernel

/-- REGISTER of handle 9, class 5, on intake ring 2. -/
def Test.registerCmd : HostCmd := Test.cmd 0x10 (leBytes 2 9 ++ leBytes 1 5 ++ leBytes 1 0 ++ leBytes 1 2)

def Test.registered (op : Nat) (tail : Bytes) : State :=
  let s := Test.jobbed .active (Test.cmd op (leBytes 2 9 ++ tail))
  { s with dev := { s.dev with streams := [(9, { Stream.reset with state := .active, job := 1, cls := 5 })] } }

theorem witness_StreamCommandsActOnTheirHandle :
    (let s := Test.jobbed .active Test.registerCmd
     s.dev.kindle.localReady = true ∧ cmOp Test.registerCmd.bytes = 0x10 ∧ cmJob Test.registerCmd.bytes = 1 ∧ leAt Test.registerCmd.bytes 16 2 = 9 ∧
       (s.dev.job 1).img.map (fun i => i.registerOk Test.registerCmd.bytes) = some true ∧ (s.dev.job 1).state ≠ .killed ∧ (s.dev.stream 9).state = .free ∧
       (s.dev.stream 9).regAt = none) ∧
    ((Test.registered 0x11 []).dev.stream 9).job = 1 ∧ ((Test.registered 0x11 []).dev.stream 9).state ≠ .free ∧ ((Test.registered 0x11 []).dev.stream 9).deregAt = none ∧
    leAt (Test.cmd 0x13 (leBytes 2 9 ++ zeros 6 ++ leBytes 4 4096)).bytes 24 4 = 4096 := by decide +kernel

theorem test_register : Test.after .register (Test.jobbed .active Test.registerCmd)
      (fun t => (t.dev.stream 9).regAt == some 4 && (t.dev.stream 9).cls == 5 && (t.dev.stream 9).port == 2) = true ∧
    Test.after .deregister (Test.registered 0x11 []) (fun t => (t.dev.stream 9).deregAt == some 4) = true := by decide +kernel

theorem test_marks : Test.after .resetMark (Test.registered 0x12 (zeros 6 ++ leBytes 8 320)) (fun t => (t.dev.stream 9).marks == [320]) = true ∧
    Test.after (.target (leBytes 4 17)) (Test.registered 0x13 (leBytes 2 3 ++ leBytes 4 40 ++ leBytes 4 1))
      (fun t => t.dev.targets == [⟨4, 9, 3, 40, leBytes 4 17⟩]) = true := by decide +kernel

/-- The mark of round 4 of Test.sealing, its cut sealed, with a shadow of a register and a change of the round's length. -/
def Test.marked (sealed_ : Nat) : State :=
  { Test.sealing with dev := { Test.sealing.dev with
      tb := { Test.sealing.dev.tb with sealed := sealed_, changes := [(4, 40)] }
      cross := []
      shadow := [(0x7000, 300)] } }

set_option maxRecDepth 100000 in
theorem witness_MarksBeginRounds : (Test.marked 5).dev.up = true ∧ (Test.marked 5).dev.tb.running = true ∧ (Test.marked 5).dev.tb.sealed = (Test.marked 5).dev.tb.nextMark + 1 ∧
    (Test.marked 4).dev.tb.sealed ≠ (Test.marked 4).dev.tb.nextMark + 1 ∧ (Test.marked 5).dev.tb.changes = [((Test.marked 5).dev.tb.nextMark, 40)] ∧
    mwf (Test.marked 5).dev.shadow = true ∧ mget (Test.marked 5).dev.shadow 0x7000 = some 300 := by decide +kernel

set_option maxRecDepth 100000 in
theorem test_mark : Test.after (.roundMark Measure.reset) (Test.marked 5) (fun t => t.dev.tb.round == 4 && t.dev.tb.nextMark == 5 && t.dev.tb.lenHalf == 40 &&
    t.dev.tb.now == 1000000 && t.dev.reg 0x7000 == 300 && t.dev.shadow == []) = true := by decide +kernel

/-- GLB_ID as a host reads it (R14). -/
theorem test_reads : (Test.on Test.dev).dev.readable 0 = true ∧ leNat ((Test.on Test.dev).dev.bar0Read 0 8) = 0x4004409646A1 := by decide +kernel

/-! ### Further clauses -/

/-- SPEC_OPEN and the SPEC_ABORT that ends its span, in a round whose speculation is shed. -/
def Test.shedSpan : State :=
  let s := Test.streaming .active (Test.on (Test.run [Test.w 0x11 0, 0, Test.w 0x13 0] (Test.task [Test.w 0x11 0, 0, Test.w 0x13 0] [Test.rec [(0, 1), (4, 1)]] [])))
  { s with dev := { s.dev with gov := { s.dev.gov with shedRounds := [3] } } }

theorem witness_SpeculationShedSpan : Issues 0x11 0 0 (Test.w 0x11 0) Test.shedSpan ∧ Test.shedSpan.dev.shed ⟨0, 0, 0⟩ = true ∧
    (Test.shedSpan.dev.task 0 0).loop = none ∧ wOpcode (Test.shedSpan.dev.wordAt 0 0 2) = 0x13 ∧ wOpcode (Test.shedSpan.dev.wordAt 0 0 1) = 0 ∧
    (Test.shedSpan.dev.task 0 0).schedWords = 3 ∧ Test.shedSpan.dev.yields ⟨0, 0, 0⟩ = false ∧
    ((Test.spec 0x12 2).dev.specSlots 1 3 0 1).map Prod.snd = [9] ∧ (∀ x ∈ (Test.spec 0x11 2).dev.cores, x.2.bad = []) := by
  unfold Issues; decide +kernel

theorem test_spec_shed : Test.after (.specOpen 0 (.of 0)) Test.shedSpan (fun t => (t.dev.task 0 0).pc == 2 && !(t.dev.stream 9).specOpen) = true := by decide +kernel

/-- A matrix run that drains through the gate program of descriptor 3 into BF16 at 256. -/
def Test.draining : State :=
  Test.onTask0 (Test.fill (Test.fill (Test.op (Test.w 2 0)
    [Test.rec [(0, 1), (2, 2), (4, 1), (5, 3), (8, 1), (12, 2), (16, 1)], Test.tensor 64 1 2 1 2 4, Test.tensor 128 1 2 1 2 4,
     Test.rec [(0, 4), (2, 0xFFFF), (4, 0xFFFF)], Test.tensor 256 1 1 1 2 2] [])
    64 (leBytes 2 0x4040 ++ leBytes 2 0x4000)) 128 (leBytes 2 0x4080 ++ leBytes 2 0x3F80)) (fun k => { k with gate := some 3 })

theorem witness_MatrixDrains : Issues 0x02 0 0 (Test.w 2 0) Test.draining ∧
    (let k := Test.draining.dev.task 0 0
     let vw := k.view 2 false []
     mrDrain (k.desc 0) = true ∧ k.gate = some 3 ∧ Unheld Test.draining.dev 0 0 ([1, 2] ++ k.gateReads) [gpOut k.gateRec] ∧ gpOut k.gateRec = 4 ∧ k.gateReads = [] ∧
       Test.draining.dev.takeOpen 0 (Test.draining.dev.weightRanges 0 0 vw 2 1) = false ∧
       Test.draining.dev.waitsTable ⟨0, 0, 0⟩ (Test.draining.dev.evBad 0 ⟨0, .none⟩) vw 2 1 = false ∧ Quiet Test.draining.dev 1) := by
  unfold Issues Unheld Quiet; decide +kernel

/-- The gate stores 3 × 4 + 2 × 1 = 14 as BF16. -/
theorem test_drain : Test.after (.matRun 0 0 ⟨0, .none⟩) Test.draining (fun t => memRead (t.dev.core 0).mem 256 2 == leBytes 2 0x4160) = true := by
  decide +kernel

/-- A transfer of task 0 that waits since round 1 for elastic ring 2, whose budget is two rounds. -/
def Test.stuck : Xfer := { Test.queued with started := true, charged := 8, wait := some 1 }

def Test.stuckRing : State :=
  Test.onCore0 (Test.full (Test.op (Test.w 0 0) [Test.rec [(0, 1), (2, 2), (4, 0xFFFF), (12, 3), (14, 0xFFFF)], Test.tensor 64 8 8 1 1 8,
      Test.rec [(0, 0), (8, 8), (9, 2), (11, 2), (16, 8), (20, 1), (24, 1), (28, 1), (32, 1), (36, 8)]] [Test.ring 1 0 1]))
    (fun x => { x with pump := { x.pump with queue := [Test.stuck] } })

theorem witness_TransferWaitsTimeOut : (Test.stuckRing.dev.task 0 0).wait = none ∧ Test.stuckRing.dev.dueXfer 0 0 = some (.core 0, Test.stuck, 2) ∧
    Test.stuckRing.dev.firstDue 0 2 = true ∧ Test.stuckRing.dev.replays 1 3 = false ∧ Test.stuckRing.dev.curWordOf 0 0 = some 0 := by decide +kernel

theorem test_transfer_times_out : Test.after (.tagTimeout 0 0) Test.stuckRing (fun t => (t.dev.pump (.core 0)).queue == [] && t.dev.err.head == 1) = true := by
  decide +kernel

/-- Core 1 with an open window over elastic ring 2, which core 0 feeds; its first slot full or empty. -/
def Test.fed (full : Bool) (held : Option FarWrite) : State :=
  let k := Test.task [] [] [Test.ring 1 0 1]
  let ds := [Test.rec [(0, 1), (2, 2), (4, 0xFFFF), (14, 0xFFFF)], Test.tensor 64 8 8 1 1 8, Test.rec [(6, 3), (8, 8), (16, 8)]]
  let x0 : Core := { Test.core [0] (Test.task [0] ds []) with pump := { Pump.reset with held := held, queue := if held.isSome then [{ Test.stuck with wait := none }] else [] } }
  let x1 : Core := { Test.core [] k with windows := [(0, { Test.win with base := 0, bound := 4096 })], tags := if full then [(4, ⟨true, false, false⟩)] else [] }
  let d := Test.run [0] (Test.task [0] ds [])
  Test.on { d with cores := [(0, x0), (1, x1)] }

def Test.far : FarWrite := ⟨1, 512, [5, 6], 3⟩

theorem witness_RemoteRingWrites : (∀ b : Bool, (Test.fed b none).dev.up = true ∧ (Test.fed b none).dev.coreJob 0 = some (1, Test.image) ∧
      ((Test.fed b none).dev.core 0).pump.held = none ∧ (Test.fed b none).dev.sliceUp 0 = true ∧ (Test.fed b none).dev.accepts 1 ⟨7, 0, 0⟩ 512 2 = some 0 ∧
      (Test.fed b none).dev.putRing 0 1 512 2 = some (0, 2) ∧ (Test.fed b none).dev.farXfer 0 = none ∧ ((Test.fed b none).dev.task 1 0).ring? 2 = some (Test.ring 1 0 1) ∧
      (Test.fed b none).dev.ringFails 1 0 (2, true) = b ∧ ((Test.fed b none).dev.task 1 0).elastic 2 = true) ∧
    (∀ b : Bool, (Test.fed b (some Test.far)).dev.farTask 0 = 0 ∧ ((Test.fed b (some Test.far)).dev.task 0 0).wait = none ∧
      ((Test.fed b (some Test.far)).dev.core 0).pump.held = some Test.far ∧ (Test.fed b (some Test.far)).dev.putRing 0 1 512 2 = some (0, 2) ∧
      (Test.fed b (some Test.far)).dev.farXfer 0 = some { Test.stuck with wait := none } ∧ Test.stuck.far = [] ∧
      (Test.fed b (some Test.far)).dev.outlasted 1 3 3 (((Test.fed b (some Test.far)).dev.task 1 0).budget 2) = false ∧
      (Test.fed b (some Test.far)).dev.ringFails 1 0 (2, true) = b) := by decide +kernel

theorem test_remote_ring : Test.after (.remoteWrite 0 1 512 ⟨[5, 6], 0⟩) (Test.fed false none)
      (fun t => memRead (t.dev.core 1).mem 512 2 == [5, 6] && ((t.dev.core 1).tag 4).full) = true ∧
    Test.after (.remoteWrite 0 1 512 ⟨[5, 6], 0⟩) (Test.fed true none)
      (fun t => (t.dev.core 1).mem == [] && (t.dev.core 0).pump.held == some Test.far && ((t.dev.core 1).tag 4).wait) = true ∧
    Test.after (.elasticWaitEnd 0 (.of 0) 9) (Test.fed false (some Test.far))
      (fun t => memRead (t.dev.core 1).mem 512 2 == [5, 6] && (t.dev.core 0).pump.held == none) = true := by decide +kernel

/-- The transfer that lands, not all of it come. -/
def Test.halfLanding : State := { Test.landing with dev := Test.landing.dev.onLink 5 (fun l => { l with rx := l.rx.map (fun y => { y with whole := false, judged := false }) }) }

theorem witness_LinkReleasesByName : Test.landing.dev.loggedFails 1 3 0x0901 = none ∧ (Test.releasing (Test.ring 4 5 0)).dev.named 1 0 (Test.ring 4 5 0) 3 = [] ∧
    (Test.halfLanding.dev.named 1 0 (Test.ring 4 5 0) 3).map (fun x => (x.1, x.2.1, x.2.2.whole, x.2.2.late)) = [(5, 0, false, false)] ∧
    (Test.landing.dev.named 1 0 (Test.ring 4 5 0) 3).map (fun x => (x.1, x.2.1, x.2.2.whole, x.2.2.late)) = [(5, 0, true, false)] ∧
    Test.halfLanding.dev.loggedFails 1 3 0x0901 = none ∧ ((Test.releasing (Test.ring 4 5 0)).dev.task 0 0).released = [] := by decide +kernel

/-- A transfer that has not come whole fails and leaves, and its slot slips (R482). -/
theorem test_release_half : Test.after (.release 0 (.of 0)) Test.halfLanding (fun t => ((t.dev.core 0).tag 4).slipped && (t.dev.link 5).rx == []) = true := by decide +kernel

theorem witness_HeldWordBudgets : (Test.heldConv (.ring 2 false)).dev.overdue 0 0 (Test.w 7 0) ⟨.ring 2 false, 3, 5, 2, 0⟩ = false ∧
    (Test.heldConv (.ring 2 false)).dev.overdue 0 0 (Test.w 7 0) ⟨.ring 2 false, 1, 5, 2, 0⟩ = true ∧ ((Test.heldConv .interlock).dev.core 0).pump.held = none ∧
    (Test.heldConv .interlock).dev.engineHeld ⟨0, 0, 0⟩ (Test.w 7 0) = false ∧
    (Test.heldConv (.drain [.core 0])).dev.overdue 0 0 (Test.w 7 0) ⟨.drain [.core 0], 3, 5, 2, 0⟩ = false ∧
    (Test.heldConv .queue).dev.overdue 0 0 (Test.w 7 0) ⟨.queue, 3, 5, 2, 0⟩ = false := by decide +kernel

theorem witness_FailedRecordsPostNothing :
    (let s : State := { Test.resulting true with dev := (Test.resulting true).dev.onStream 9 (fun k => { k with items := k.items.map (fun i => { i with failed := 0x0901 }) }) }
     (s.dev.recordItem 3 9 0 0).map (·.failed) = some 0x0901 ∧ s.dev.resultRing 0 0 2 false = some 6) := by decide +kernel

theorem witness_WithheldSpans : (let s := Test.yielding (Test.adapting 1 AdpState.start)
    (s.dev.task 0 0).loop = none ∧ s.dev.shed ⟨0, 0, 0⟩ = false ∧ (s.dev.task 0 0).schedWords = 3) := by decide +kernel

/-- A device whose slice 0 is contained refuses a BAR2 write, and so does a window that is too short for it (R19, R521). -/
theorem witness_Bar2Refusals :
    (let s := Test.mappedB2 true false
     let d : Dev := { s.dev with slices := [(0, { Slice.reset with state := .contained })] }
     (d.core 1).locked = false ∧ d.sliceUp 0 = false ∧ d.b2Window 2 = some (1, Test.win) ∧ (s.dev.core 1).locked = false ∧ s.dev.sliceUp 0 = true ∧
       Test.win.bound - Test.win.base < 511 + 2 ∧ 510 + 2 ≤ Test.win.bound - Test.win.base) := by decide +kernel

theorem witness_VectorTableAndRoundLength : (0x1F0070 : Nat) % 16 = 0 ∧ (0x1F0078 : Nat) % 16 = 8 ∧ (0x1F0078 - 0x1F0000) / 16 = 7 ∧
    bit ({ Test.dev with msix := 128 } : Dev).msix 7 = true ∧ Test.dev.regF 0x1008 0 7 = Test.dev.tb.lenHalf := by decide +kernel

/-- A vector that was pending goes out when its mask bit is cleared. -/
theorem test_unmask : Test.after (.registerWrite 0x1F0078 (zeros 8)) (Test.on { Test.dev with msix := 128 })
    (fun t => t.dev.out == [.vector 7] && t.dev.msix == 0 && t.dev.reg 0x1F0078 == 0) = true := by decide +kernel

/-- A job of another round length beside one that needs the length in use (R37). -/
theorem witness_StagingMeetsAnotherLength :
    (let s : State := Test.on { Test.dev with jobs := [(1, { Job.reset with state := .loading, img := some { Test.image with roundLen := 40 } }),
       (2, { Job.reset with state := .active, img := some Test.image })] }
     roundBusy s.dev 1 = true ∧ s.dev.regF 0x1008 0 7 ≠ 40) := by decide +kernel

theorem test_staging_length : Test.after (.loadStaged ⟨1, []⟩)
    (Test.on { Test.dev with jobs := [(1, { Job.reset with state := .loading, img := some { Test.image with roundLen := 40 } }),
      (2, { Job.reset with state := .active, img := some Test.image })] }) (fun t => (t.dev.job 1).state == .empty && (t.dev.job 1).loadErr == 0x0206) = true := by
  decide +kernel

/-- A staged job whose timeout of one round has passed at the root (R84). -/
theorem witness_StagingTimeouts :
    (let d := Test.fabricJob true
     let e : Dev := { d with jobs := [(2, { Job.reset with state := .staged, stagedRound := 2, timeout := 7, img := some { Test.image with fabricSize := 2 } })] }
     e.fabric.isRoot = true ∧ (e.job 2).actRound = none ∧ (e.job 2).stagedRound + (e.job 2).timeout ≤ e.tb.round ∧ e.fabricJobs 7 ≠ [] ∧
       (let f : Dev := { d with jobs := [(2, { Job.reset with state := .staged, stagedRound := 3, timeout := 7, img := some { Test.image with fabricSize := 2 } })] }
        f.fabricJobs 7 ≠ [] ∧ ∀ x ∈ f.fabricJobs 7, f.tb.round < x.stagedRound + x.timeout)) := by decide +kernel

theorem test_staging_timeout : Test.after (.stagingTimeout 7)
    (Test.on { Test.fabricJob true with jobs := [(2, { Job.reset with state := .staged, stagedRound := 2, timeout := 7, img := some { Test.image with fabricSize := 2 } })] })
    (fun t => (t.dev.job 2).state == .killed) = true := by decide +kernel

/-- A transfer for the well of a loaded job (R481, R389). -/
def Test.wellXfer : RxXfer := { Test.xfer false with
  data := leBytes 8 7 ++ leBytes 2 0 ++ leBytes 2 0 ++ leBytes 1 0 ++ leBytes 1 0 ++ leBytes 2 1 ++ leBytes 8 4 ++ leBytes 8 100 ++
      leBytes 8 8192 ++ leBytes 4 8 ++ leBytes 4 0 ++ leBytes 8 0x1122334455667788 }

/-- Job 1 holds the well's bytes from 8,192 on, for 4,096. -/
def Test.welled (own : Bool) : Dev :=
  { Test.linked { Link.reset with state := 3, rx := [Test.wellXfer] } with
    jobs := if own then [(1, { Job.reset with state := .active, img := some { Test.image with ranges := [Test.rec [(0, 8192), (6, 1), (8, 4096)]] } })] else [] }

theorem witness_WellTransfers : thWell Test.wellXfer.data = true ∧ Test.wellXfer.fixed = false ∧ thAddr Test.wellXfer.data = 8192 ∧ thBytes Test.wellXfer.data = 8 ∧
    (Test.welled true).anyCtlDown = false ∧ ((Test.welled true).job 1).loaded = true ∧ thCompile Test.wellXfer.data = Test.image.compileId ∧
    ({ Test.image with ranges := [Test.rec [(0, 8192), (6, 1), (8, 4096)]] } : Image).wellRanges = [(8192, 4096)] ∧ (Test.welled false).jobs = [] ∧
    ((Test.welled true).link 0).rx.findIdx? (fun x => x.whole && !x.judged) = some 0 := by decide +kernel

theorem test_well_transfer : Test.after (.linkTransferArrival 0 50) (Test.on (Test.welled true)) (fun t => memRead t.dev.well 8192 8 == leBytes 8 0x1122334455667788) = true ∧
    Test.after (.linkTransferArrival 0 50) (Test.on (Test.welled false)) (fun t => t.dev.well == [] && t.dev.fabric.sends.length == 1) = true := by decide +kernel

theorem witness_PatrolFindsUncorrectable : mget ((Test.weighted false).dev.core 0).patrolWb 3 = none ∧
    mget ((Test.onCore0 (Test.weighted false) (fun x => { x with patrolWb := [(3, 5)] })).dev.core 0).patrolWb 3 = some 5 := by decide +kernel

theorem test_patrol_marks : Test.after (.scrubPatrol 0 3 (.eccUncorrectable 3 192)) (Test.onCore0 (Test.weighted false) (fun x => { x with bad := [] }))
    (fun t => (t.dev.core 0).bad == [(24, 1)]) = true := by decide +kernel
end

section
/-! Lemmas about bit fields, registers and the generic register write, and what they settle: O55 (the rules of register writes) and O60
(the reset columns). -/

namespace Sys2Proof.Machine

/-! ### Bit fields of a register word -/

/-- The bits of a field. -/
theorem testBit_bits (w lo n i : Nat) : (bits w lo n).testBit i = (decide (i < n) && w.testBit (lo + i)) := by
  unfold bits
  rw [Nat.testBit_mod_two_pow, Nat.testBit_shiftRight]

theorem bits_lt (w lo n : Nat) : bits w lo n < 2 ^ n := Nat.mod_lt _ (Nat.two_pow_pos n)

/-- A replaced field shows the new value's bits, and every other bit stays. -/
theorem testBit_putBits (w lo n v i : Nat) :
    (putBits w lo n v).testBit i = if lo ≤ i ∧ i < lo + n then v.testBit (i - lo) else w.testBit i := by
  have hlow : w % 2 ^ lo < 2 ^ lo := Nat.mod_lt _ (Nat.two_pow_pos lo)
  have hmid : w / 2 ^ lo = 2 ^ n * (w / 2 ^ lo / 2 ^ n) + bits w lo n := by
    rw [bits, Nat.shiftRight_eq_div_pow]; exact (Nat.div_add_mod _ _).symm
  have hw : w = 2 ^ lo * (w / 2 ^ lo) + w % 2 ^ lo := (Nat.div_add_mod w _).symm
  have hput : putBits w lo n v = 2 ^ lo * (2 ^ n * (w / 2 ^ lo / 2 ^ n) + v % 2 ^ n) + w % 2 ^ lo := by
    have hsplit : w = 2 ^ lo * (2 ^ n * (w / 2 ^ lo / 2 ^ n)) + 2 ^ lo * bits w lo n + w % 2 ^ lo := by
      rw [← Nat.mul_add, ← hmid]; exact hw
    unfold putBits
    rw [Nat.mul_add, Nat.mul_comm (bits w lo n), Nat.mul_comm (v % 2 ^ n)]
    omega
  have hold : w.testBit i = if i < lo then (w % 2 ^ lo).testBit i else (w / 2 ^ lo).testBit (i - lo) := by
    conv_lhs => rw [hw]
    exact Nat.testBit_two_pow_mul_add _ hlow i
  have hdiv : (w / 2 ^ lo).testBit (i - lo) =
      if i - lo < n then (bits w lo n).testBit (i - lo) else (w / 2 ^ lo / 2 ^ n).testBit (i - lo - n) := by
    conv_lhs => rw [hmid]
    exact Nat.testBit_two_pow_mul_add _ (bits_lt w lo n) _
  rw [hput, Nat.testBit_two_pow_mul_add _ hlow, Nat.testBit_two_pow_mul_add _ (Nat.mod_lt _ (Nat.two_pow_pos n)), hold, hdiv, Nat.testBit_mod_two_pow]
  by_cases h1 : i < lo
  · have h2 : ¬ (lo ≤ i ∧ i < lo + n) := by omega
    simp [h1, h2]
  · by_cases h3 : i - lo < n
    · have h2 : lo ≤ i ∧ i < lo + n := by omega
      simp [h1, h2, h3]
    · have h2 : ¬ (lo ≤ i ∧ i < lo + n) := by omega
      simp only [h1, h2, h3, if_false]

/-! ### Registers after a field's write -/

/-- A field's write changes the registers and their shadows alone. -/
theorem Dev.putField_cases (d : Dev) (off lo n v : Nat) : ∃ r sh, d.putField off lo n v = { d with regs := r, shadow := sh } := by
  unfold Dev.putField
  dsimp only
  split
  · exact ⟨_, _, rfl⟩
  · exact ⟨_, d.shadow, rfl⟩

theorem Dev.putField_regs (d : Dev) (off lo n v : Nat) :
    (d.putField off lo n v).regs = mset d.regs off (BitVec.ofNat 64 (putBits (d.reg off) lo n v)) := by
  unfold Dev.putField
  dsimp only
  split <;> rfl

/-- The bits of the register whose field was written. -/
theorem Dev.testBit_reg_putField (d : Dev) (off lo n v i : Nat) (hi : i < 64) :
    ((d.putField off lo n v).reg off).testBit i = if lo ≤ i ∧ i < lo + n then v.testBit (i - lo) else (d.reg off).testBit i := by
  have hreg : (d.putField off lo n v).reg off = putBits (d.reg off) lo n v % 2 ^ 64 := by
    rw [Dev.reg, Dev.putField_regs, mget_mset_self]
    exact BitVec.toNat_ofNat _ _
  rw [hreg, Nat.testBit_mod_two_pow, testBit_putBits]
  simp [hi]

/-- A field's write leaves every other register. -/
theorem Dev.reg_putField_ne (d : Dev) (off lo n v r : Nat) (h : r ≠ off) : (d.putField off lo n v).reg r = d.reg r := by
  rw [Dev.reg, Dev.putField_regs, mget_mset_ne _ _ _ _ h]
  rfl

/-- The field itself reads as written. -/
theorem Dev.regF_putField (d : Dev) (off lo n v : Nat) (h : lo + n ≤ 64) : (d.putField off lo n v).regF off lo n = v % 2 ^ n := by
  apply Nat.eq_of_testBit_eq
  intro i
  rw [Dev.regF, testBit_bits, Nat.testBit_mod_two_pow]
  by_cases hi : i < n
  · rw [Dev.testBit_reg_putField _ _ _ _ _ _ (by omega), if_pos (by omega), Nat.add_sub_cancel_left]
  · simp [hi]

/-- A field of the register that lies apart from the written one stays. -/
theorem Dev.regF_putField_apart (d : Dev) (off lo n v lo' n' : Nat) (h : lo' + n' ≤ 64) (ha : lo + n ≤ lo' ∨ lo' + n' ≤ lo) :
    (d.putField off lo n v).regF off lo' n' = d.regF off lo' n' := by
  apply Nat.eq_of_testBit_eq
  intro i
  rw [Dev.regF, Dev.regF, testBit_bits, testBit_bits]
  by_cases hi : i < n'
  · rw [Dev.testBit_reg_putField _ _ _ _ _ _ (by omega), if_neg (by omega)]
  · simp [hi]

/-- Clearing a mask bit changes what has left and what is pending alone (R518). -/
theorem Dev.unmask_cases (d : Dev) (v : Nat) : ∃ o m, d.unmask v = { d with out := o, msix := m } := by
  unfold Dev.unmask
  split
  · exact ⟨_, _, rfl⟩
  · exact ⟨d.out, d.msix, rfl⟩

/-- A vector that is pending goes out when its mask bit falls. -/
theorem Dev.unmask_out_of_pending (d : Dev) (v : Nat) (h : bit d.msix v = true) : (d.unmask v).out = d.out ++ [.vector v] := by
  rw [Dev.unmask, if_pos h]
  rfl

/-! ### No byte of a memory changes -/

/-- Two devices whose cisterns and well hold the same bytes. -/
structure Dev.SameBytes (d e : Dev) : Prop where
  mem : ∀ x, (e.core x).mem = (d.core x).mem
  well : e.well = d.well

theorem Dev.SameBytes.refl (d : Dev) : d.SameBytes d := ⟨fun _ => rfl, rfl⟩

theorem Dev.SameBytes.trans {d e f : Dev} (h : d.SameBytes e) (h' : e.SameBytes f) : d.SameBytes f :=
  ⟨fun x => (h'.mem x).trans (h.mem x), h'.well.trans h.well⟩

theorem Dev.SameBytes.of_eq {d e : Dev} (hc : e.cores = d.cores) (hw : e.well = d.well) : d.SameBytes e :=
  ⟨fun x => by rw [Dev.core, hc]; rfl, hw⟩

theorem Dev.sameBytes_onCore (d : Dev) (c : Nat) (f : Core → Core) (hf : ∀ x, (f x).mem = x.mem) : d.SameBytes (d.onCore c f) := by
  refine ⟨fun x => ?_, rfl⟩
  by_cases h : x = c
  · subst h; rw [Dev.core_onCore, hf]
  · rw [Dev.core_onCore_ne _ _ _ _ h]

theorem Dev.sameBytes_onTask (d : Dev) (c t : Nat) (f : Task → Task) : d.SameBytes (d.onTask c t f) :=
  d.sameBytes_onCore c _ (fun _ => rfl)

theorem Dev.sameBytes_raise (d : Dev) (e : Err) : d.SameBytes (d.raise e) := .of_eq (d.raise_cores e) (d.raise_well e)

theorem Dev.sameBytes_putField (d : Dev) (off lo n v : Nat) : d.SameBytes (d.putField off lo n v) := by
  obtain ⟨r, sh, h⟩ := d.putField_cases off lo n v
  rw [h]
  exact .of_eq rfl rfl

theorem Dev.sameBytes_unmask (d : Dev) (v : Nat) : d.SameBytes (d.unmask v) := by
  obtain ⟨o, m, h⟩ := d.unmask_cases v
  rw [h]
  exact .of_eq rfl rfl

/-! ### LNK_CTL.EN touches no memory (R507) -/

theorem Dev.trainLink_cases (d : Dev) (l : Nat) : ∃ x, d.trainLink l = { d with links := x } := by
  unfold Dev.trainLink
  split <;> exact ⟨_, rfl⟩

theorem Dev.linkIrq_well (d : Dev) (l : Nat) : (d.linkIrq l).well = d.well := by
  unfold Dev.linkIrq
  split
  · exact d.vector_well _
  · rfl

theorem Dev.reportMap_well (d : Dev) : d.reportMap.well = d.well := by
  unfold Dev.reportMap
  split <;> rfl

theorem Dev.lostParent_well (d : Dev) : d.lostParent.well = d.well := by
  unfold Dev.lostParent
  split <;> rfl

theorem Dev.haltFabricJobs_well (d : Dev) : d.haltFabricJobs.well = d.well := by
  unfold Dev.haltFabricJobs Dev.onJobs
  refine foldl_proj (fun y : Dev => y.well) _ _ d (fun b j _ => ?_)
  split
  · split <;> rfl
  · rfl

theorem Dev.checkMinority_well (d : Dev) : d.checkMinority.well = d.well := by
  unfold Dev.checkMinority
  split
  · split
    · rfl
    · rw [Dev.haltFabricJobs_well]
      exact d.raise_well _
  · split <;> rfl

/-- A link that goes DOWN leaves the well. -/
theorem linkDownD_well (l : Nat) (d : Dev) : (linkDownD l d).well = d.well := by
  unfold linkDownD
  split
  · rfl
  · dsimp only
    generalize hy : Dev.raise _ _ = y
    have hyw : y.well = d.well := by
      rw [← hy, Dev.raise_well, Dev.count_well, Dev.linkIrq_well]; rfl
    generalize hz : ((y.trainLink l).advertise).reportMap = z
    have hzw : z.well = d.well := by
      obtain ⟨x, hx⟩ := y.trainLink_cases l
      rw [← hz, Dev.reportMap_well, hx]
      exact hyw
    generalize hm : (if z.tb.aligned = true then z.checkMinority else z) = m
    have hmw : m.well = d.well := by
      rw [← hm]
      split
      · exact z.checkMinority_well.trans hzw
      · exact hzw
    split
    · exact m.lostParent_well.trans hmw
    · exact hmw

theorem sameBytes_linkDownD (l : Nat) (d : Dev) : d.SameBytes (linkDownD l d) := .of_eq (linkDownD_keeps l d).1 (linkDownD_well l d)

theorem sameBytes_linkEnableD (l : Nat) (en : Bool) (d : Dev) : d.SameBytes (linkEnableD l en d) := by
  unfold linkEnableD
  split
  · exact .refl d
  · split
    · exact d.sameBytes_raise _
    · refine (d.sameBytes_putField (linkOff l) 0 1 en.toNat).trans ?_
      dsimp only
      generalize d.putField (linkOff l) 0 1 en.toNat = e
      split
      · obtain ⟨x, hx⟩ := e.trainLink_cases l
        rw [hx]
        exact .of_eq rfl rfl
      · split
        · exact .of_eq rfl rfl
        · exact (sameBytes_linkDownD l e).trans (.of_eq rfl rfl)

/-! ### No value that a field takes touches a memory -/

theorem Dev.sameBytes_acceptRoundLen (d : Dev) (v : Nat) : d.SameBytes (d.acceptRoundLen v) := by
  refine (d.sameBytes_putField 0x1008 0 7 v).trans ?_
  unfold Dev.acceptRoundLen
  dsimp only
  split
  · exact .of_eq rfl rfl
  · split <;> exact .of_eq rfl rfl

theorem Dev.sameBytes_portEnable (d : Dev) (p : Nat) (was now : Bool) : d.SameBytes (d.portEnable p was now) := by
  unfold Dev.portEnable
  split
  · exact .refl d
  · split <;> exact .of_eq rfl rfl

/-- An L-class value that takes effect (R92). -/
theorem Dev.sameBytes_takeField (d : Dev) (off : Nat) (f : Field) (v : Nat) : d.SameBytes (d.takeField off f v) := by
  have put := d.sameBytes_putField off f.lo f.n v
  unfold Dev.takeField
  dsimp only
  split
  case h_1 =>
    split
    · exact d.sameBytes_acceptRoundLen v
    · split
      · exact put.trans (.of_eq rfl rfl)
      · exact put
  case h_2 =>
    split
    · exact put.trans (Dev.sameBytes_portEnable _ _ _ _)
    · exact put
  case h_3 =>
    split
    · exact sameBytes_linkEnableD _ _ d
    · exact put
  case h_4 => exact put

theorem sameBytes_logTailD (v : Nat) (d : Dev) : d.SameBytes (logTailD v d) := by
  unfold logTailD
  split
  · exact d.sameBytes_raise _
  · exact .of_eq rfl rfl

theorem sameBytes_errTailD (v : Nat) (d : Dev) : d.SameBytes (errTailD v d) := by
  unfold errTailD
  split
  · exact d.sameBytes_raise _
  · exact .of_eq rfl rfl

theorem sameBytes_hostIdxD (kind n v : Nat) (d : Dev) : d.SameBytes (hostIdxD kind n v d) := by
  unfold hostIdxD
  dsimp only
  generalize (if kind = 0 ∨ kind = 2 then _ else _ : Nat) = count
  split
  · exact d.sameBytes_raise _
  · exact .of_eq rfl rfl

theorem sameBytes_keyGoD (d : Dev) : d.SameBytes (keyGoD d) := by
  unfold keyGoD
  split
  · exact .refl d
  · split <;> exact .of_eq rfl rfl

theorem sameBytes_attGoD (d : Dev) : d.SameBytes (attGoD d) := by
  unfold attGoD
  split
  · exact .refl d
  · split <;> exact .of_eq rfl rfl

/-- A D-class value or acknowledgement (R93), block by block. -/
theorem Dev.sameBytes_dClass (d : Dev) (off : Nat) (f : Field) (v : Nat) : d.SameBytes (d.dClass off f v) := by
  unfold Dev.dClass
  split
  case h_1 =>
    split; · exact sameBytes_logTailD v d
    split; · exact sameBytes_errTailD v d
    split; · exact .refl d
    split; · exact sameBytes_keyGoD d
    split; · exact .of_eq rfl rfl
    split; · exact .of_eq rfl rfl
    split <;> exact .of_eq rfl rfl
  case h_2 =>
    split
    · split
      · exact sameBytes_hostIdxD _ _ v d
      · exact .refl d
    split
    · have put := d.sameBytes_putField off f.lo f.n v
      dsimp only
      split
      · exact put.trans (Dev.sameBytes_unmask _ _)
      · exact put
    split; · exact .refl d
    split; · exact sameBytes_attGoD d
    split <;> exact .of_eq rfl rfl
  case h_3 =>
    split; · exact .refl d
    split <;> exact .of_eq rfl rfl
  case h_4 => split <;> exact .of_eq rfl rfl
  case h_5 =>
    split; · exact .refl d
    split; · exact d.sameBytes_onCore _ _ (fun _ => rfl)
    split; · exact d.sameBytes_onCore _ _ (fun _ => rfl)
    split; · exact d.sameBytes_onTask _ _ _
    split <;> exact d.sameBytes_onTask _ _ _
  case h_6 => exact .refl d

/-- One field of a write (R88). -/
theorem sameBytes_writeField (was : Dev) (off v : Nat) (f : Field) (a : WriteAcc) : a.d.SameBytes (writeField was off v f a).d := by
  unfold writeField
  split
  · split
    · exact .refl _
    · split
      · exact a.d.sameBytes_dClass off f v
      · split
        · split <;> exact .refl _
        · exact .of_eq rfl rfl
      · split
        · exact .refl _
        · split
          · exact .refl _
          · exact a.d.sameBytes_takeField off f v
  · exact a.d.sameBytes_dClass off f v
  · exact a.d.sameBytes_dClass off f v

/-! ### The generic write as a whole -/

/-- A write has the size and the place of a register or of one of its halves (R7). -/
def Sized (off : Nat) (data : Bytes) : Prop := data.length = 8 ∧ off % 8 = 0 ∨ data.length = 4 ∧ off % 4 = 0

theorem sized_iff (off : Nat) (data : Bytes) :
    ((data.length == 8 && off % 8 == 0) || (data.length == 4 && off % 4 == 0)) = true ↔ Sized off data := by
  simp [Sized]

/-- What a write's fields have met, in order (R88). -/
def Dev.fieldsWritten (d : Dev) (off : Nat) (data : Bytes) : WriteAcc :=
  ((fieldsAt (off / 8 * 8)).filter (fun f => f.touched (off % 8) data.length)).foldl (fun a f => writeField d (off / 8 * 8)
    (mergeField (d.curWord (off / 8 * 8)) f (off % 8) data.length (leNat data)) f a) { d := d, range := false, locked := false }

/-- A write after its fields: discarded whole, reported as locked, or done (R88, R92). -/
def Dev.concludeWrite (d : Dev) (off : Nat) (data : Bytes) : Dev :=
  if (d.fieldsWritten off data).range then d.raise recCfgRange
  else if (d.fieldsWritten off data).locked then
    (d.fieldsWritten off data).d.raise (recCfgLocked (off / 8 * 8) (leNat data <<< (8 * (off % 8))))
  else (d.fieldsWritten off data).d

/-- Before BAR0 reaches the device a write has no effect (R577). -/
theorem registerWriteD_of_closed (off : Nat) (data : Bytes) (d : Dev) (h : d.bar0Open off = false) : registerWriteD off data d = d := by
  simp [registerWriteD, h]

/-- A write of a wrong size or place is reported (R7). -/
theorem registerWriteD_of_not_sized (off : Nat) (data : Bytes) (d : Dev) (ho : d.bar0Open off = true) (h : ¬ Sized off data) :
    registerWriteD off data d = d.raise recHostAccess := by
  unfold registerWriteD
  dsimp only
  have hs : ((data.length == 8 && off % 8 == 0) || (data.length == 4 && off % 4 == 0)) = false := by
    rw [← Bool.not_eq_true, sized_iff]
    exact h
  rw [if_neg (by simp [ho]), hs, if_pos (by decide)]

/-- Any other write goes to its fields, unless it is one of a TDM_CTL above the limit of R445. -/
theorem registerWriteD_of_sized (off : Nat) (data : Bytes) (d : Dev) (ho : d.bar0Open off = true) (h : Sized off data) :
    ∃ beyond : Bool, (beyond = true → ∃ p, blkOf (off / 8 * 8) = .port p 0) ∧
      registerWriteD off data d = if beyond then d.raise recCfgRange else d.concludeWrite off data := by
  unfold registerWriteD
  dsimp only
  rw [if_neg (by simp [ho]), (sized_iff off data).mpr h, if_neg (by decide)]
  split
  · rename_i p hp
    exact ⟨_, fun _ => ⟨p, hp⟩, rfl⟩
  · exact ⟨false, nofun, rfl⟩

/-- What a write's fields have met differs from the state before in no byte of a memory. -/
theorem Dev.sameBytes_fieldsWritten (d : Dev) (off : Nat) (data : Bytes) : d.SameBytes (d.fieldsWritten off data).d :=
  foldl_keep (fun a : WriteAcc => d.SameBytes a.d) _ _ _ (.refl d) (fun a _ _ h => h.trans (sameBytes_writeField _ _ _ _ a))

/-- A register write changes no byte of a cistern or of the well. -/
theorem sameBytes_registerWriteD (off : Nat) (data : Bytes) (d : Dev) : d.SameBytes (registerWriteD off data d) := by
  by_cases ho : d.bar0Open off = true
  · by_cases hs : Sized off data
    · obtain ⟨beyond, -, h⟩ := registerWriteD_of_sized off data d ho hs
      rw [h]
      split
      · exact d.sameBytes_raise _
      · have fields := d.sameBytes_fieldsWritten off data
        unfold Dev.concludeWrite
        split
        · exact d.sameBytes_raise _
        · split
          · exact fields.trans (Dev.sameBytes_raise _ _)
          · exact fields
    · rw [registerWriteD_of_not_sized off data d ho hs]
      exact d.sameBytes_raise _
  · rw [registerWriteD_of_closed off data d (by simpa using ho)]
    exact .refl d

/-- A register without writable fields keeps its value, and so does everything else (R8, R9). -/
theorem registerWriteD_of_no_fields (off : Nat) (data : Bytes) (d : Dev) (ho : d.bar0Open off = true) (hs : Sized off data)
    (h : fieldsAt (off / 8 * 8) = []) : registerWriteD off data d = d := by
  obtain ⟨beyond, hlimit, he⟩ := registerWriteD_of_sized off data d ho hs
  have hnot : beyond = false := by
    by_contra hc
    obtain ⟨p, hp⟩ := hlimit (by simpa using hc)
    simp [fieldsAt, hp] at h
  rw [he, hnot, if_neg (by decide)]
  simp [Dev.concludeWrite, Dev.fieldsWritten, h]

/-! ### Whole-word writes of the MSI-X table (R518, entry 27) -/

/-- A D-class field within a register, without a range of its own. -/
structure Field.Plain (f : Field) : Prop where
  acc : f.acc = .rw
  cls : f.cls = .d
  min : f.min = 0
  max : f.max = 2 ^ 64
  width : 0 < f.n
  inside : f.lo + f.n ≤ 64

theorem plain_rwD (lo n : Nat) (hn : 0 < n) (h : lo + n ≤ 64) : (rwD lo n).Plain := ⟨rfl, rfl, rfl, rfl, hn, h⟩

section plain

variable {f : Field} (h : f.Plain)

include h

/-- A whole register's write touches the field. -/
theorem Field.Plain.touched : f.touched 0 8 = true := by
  have := h.width
  have := h.inside
  simp only [Field.touched, Bool.and_eq_true, decide_eq_true_eq]
  omega

/-- A whole register's write brings the field its bits of the data. -/
theorem Field.Plain.mergeField_whole (cur v : Nat) : mergeField cur f 0 8 v = bits v f.lo f.n := by
  have hin := h.inside
  unfold mergeField
  rw [h.acc]
  dsimp only
  apply Nat.eq_of_testBit_eq
  intro i
  rw [testBit_bits, testBit_bits, testBit_putBits]
  by_cases hi : i < f.n
  · rw [if_pos (by omega)]; rfl
  · simp [hi]

/-- The field takes its bits at once, whatever runs (R93). -/
theorem Field.Plain.writeField (was : Dev) (off v : Nat) (a : WriteAcc) :
    writeField was off (bits v f.lo f.n) f a = { a with d := a.d.dClass off f (bits v f.lo f.n) } := by
  have hin := h.inside
  have hle : bits v f.lo f.n < 2 ^ f.n := bits_lt _ _ _
  have hpow : 2 ^ f.n ≤ 2 ^ 64 := Nat.pow_le_pow_right (by decide) (by omega)
  have hrange : ¬ (bits v f.lo f.n < f.min ∨ f.max < bits v f.lo f.n) := by
    rw [h.min, h.max]
    omega
  unfold Machine.writeField
  rw [h.acc]
  dsimp only
  rw [if_neg hrange, h.cls]

end plain

/-- Plain fields take their bits of a whole register's write one after the other. -/
theorem foldl_writeField_plain (was : Dev) (off cur v : Nat) (fs : List Field) (h : ∀ f ∈ fs, f.Plain) (a : WriteAcc) :
    fs.foldl (fun a f => writeField was off (mergeField cur f 0 8 v) f a) a =
      { a with d := fs.foldl (fun d f => d.dClass off f (bits v f.lo f.n)) a.d } := by
  induction fs generalizing a with
  | nil => rfl
  | cons f fs ih =>
    have hf := h f (by simp)
    rw [List.foldl_cons, hf.mergeField_whole, hf.writeField, ih (fun g hg => h g (List.mem_cons_of_mem _ hg))]
    rfl

theorem blkOf_msix (off : Nat) (h1 : 0x1F0000 ≤ off) (h2 : off < 0x1F0400) : blkOf off = .host (off - 0x100000) := by
  unfold blkOf
  rw [if_neg (by omega), if_pos (by omega)]

/-- The data and mask word of a vector has two fields, an address word one. -/
theorem fieldsAt_msix (off : Nat) (h1 : 0x1F0000 ≤ off) (h2 : off < 0x1F0400) :
    fieldsAt off = if off % 16 = 8 then [rwD 0 32, rwD 32 1] else [rwD 2 62] := by
  unfold fieldsAt
  rw [blkOf_msix off h1 h2]
  have hmod : (off - 0x100000) % 16 = off % 16 := by omega
  dsimp only
  rw [if_neg (by omega), if_neg (by omega), if_neg (by omega), if_neg (by omega), if_neg (by omega), if_neg (by omega),
    if_neg (by omega), if_neg (by omega), if_neg (by omega), if_pos (by omega), hmod]

/-- A field of the table takes its value; a mask bit that falls lets its vector go. -/
theorem Dev.dClass_msix (d : Dev) (off : Nat) (f : Field) (v : Nat) (h1 : 0x1F0000 ≤ off) (h2 : off < 0x1F0400) :
    d.dClass off f v = if f.lo = 32 ∧ v = 0 then (d.putField off f.lo f.n v).unmask ((off - 0x1F0000) / 16)
      else d.putField off f.lo f.n v := by
  have hv : (off - 0x100000 - 0xF0000) / 16 = (off - 0x1F0000) / 16 := by omega
  unfold Dev.dClass
  rw [blkOf_msix off h1 h2]
  dsimp only
  rw [if_neg (by omega), if_pos (by omega), hv]

/-- The device whose MSI-X word holds a vector's data and mask bit. -/
def Dev.maskWord (d : Dev) (off v : Nat) : Dev := (d.putField off 0 32 (bits v 0 32)).putField off 32 1 (bits v 32 1)

section msix

variable (off : Nat) (data : Bytes) (d : Dev) (ho : d.bar0Open off = true) (hn : data.length = 8) (h8 : off % 8 = 0)
  (h1 : 0x1F0000 ≤ off) (h2 : off < 0x1F0400)

include ho hn h8 h1 h2

/-- A whole write of the table is the effect of its fields: none of them has a range or a running condition. -/
theorem registerWriteD_msix : registerWriteD off data d =
    (fieldsAt off).foldl (fun d f => d.dClass off f (bits (leNat data) f.lo f.n)) d := by
  have hoff : off / 8 * 8 = off := by omega
  have hplain : ∀ f ∈ fieldsAt off, f.Plain := by
    rw [fieldsAt_msix off h1 h2]
    split
    · simp [plain_rwD]
    · simp [plain_rwD]
  have hfields : d.fieldsWritten off data =
      ⟨(fieldsAt off).foldl (fun d f => d.dClass off f (bits (leNat data) f.lo f.n)) d, false, false⟩ := by
    unfold Dev.fieldsWritten
    rw [hoff, h8, hn, List.filter_eq_self.mpr (fun f hf => (hplain f hf).touched), foldl_writeField_plain _ _ _ _ _ hplain]
  obtain ⟨beyond, hlimit, he⟩ := registerWriteD_of_sized off data d ho (.inl ⟨hn, h8⟩)
  have hnot : beyond = false := by
    by_contra hc
    obtain ⟨p, hp⟩ := hlimit (by simpa using hc)
    rw [hoff, blkOf_msix off h1 h2] at hp
    exact absurd hp (by simp)
  rw [he, hnot, if_neg (by decide), Dev.concludeWrite, hfields]
  rfl

/-- An address word takes bits [63:2] of the data. -/
theorem registerWriteD_msix_address (h : off % 16 = 0) :
    registerWriteD off data d = d.putField off 2 62 (bits (leNat data) 2 62) := by
  rw [registerWriteD_msix off data d ho hn h8 h1 h2, fieldsAt_msix off h1 h2, if_neg (by omega), List.foldl_cons, List.foldl_nil,
    Dev.dClass_msix _ _ _ _ h1 h2, if_neg (by simp [rwD])]
  rfl

/-- The other word takes the vector's data and its mask bit; where that becomes 0, the vector is unmasked. -/
theorem registerWriteD_msix_mask (h : off % 16 = 8) :
    registerWriteD off data d =
      if bits (leNat data) 32 1 = 0 then (d.maskWord off (leNat data)).unmask ((off - 0x1F0000) / 16) else d.maskWord off (leNat data) := by
  rw [registerWriteD_msix off data d ho hn h8 h1 h2, fieldsAt_msix off h1 h2, if_pos h, List.foldl_cons, List.foldl_cons,
    List.foldl_nil, Dev.dClass_msix _ _ _ _ h1 h2, Dev.dClass_msix _ _ _ _ h1 h2]
  simp only [rwD, OfNat.zero_ne_ofNat, false_and, if_false, true_and]
  rfl

end msix

/-- A mask word keeps everything but the registers and their shadows. -/
theorem Dev.maskWord_cases (d : Dev) (off v : Nat) : ∃ r sh, d.maskWord off v = { d with regs := r, shadow := sh } := by
  obtain ⟨r, sh, h⟩ := d.putField_cases off 0 32 (bits v 0 32)
  obtain ⟨r', sh', h'⟩ := Dev.putField_cases { d with regs := r, shadow := sh } off 32 1 (bits v 32 1)
  exact ⟨r', sh', by rw [Dev.maskWord, h, h']⟩

/-- The mask word reads as written. -/
theorem Dev.bits_maskWord (d : Dev) (off v : Nat) : bits ((d.maskWord off v).reg off) 0 33 = bits v 0 33 := by
  apply Nat.eq_of_testBit_eq
  intro i
  rw [testBit_bits, testBit_bits, Nat.zero_add]
  by_cases hi : i < 33
  · rw [Dev.maskWord, Dev.testBit_reg_putField _ _ _ _ _ _ (by omega), Dev.testBit_reg_putField _ _ _ _ _ _ (by omega),
      testBit_bits, testBit_bits]
    by_cases hm : i < 32
    · rw [if_neg (by omega), if_pos (by omega)]
      simp [hm]
    · have h32 : i = 32 := by omega
      subst h32
      simp
  · simp [hi]

/-- An MSI-X entry takes its fields, and a pending vector that it unmasks goes out; no other register changes. -/
theorem registerWriteD_msix_spec (off : Nat) (data : Bytes) (d : Dev) (ho : d.bar0Open off = true) (hn : data.length = 8)
    (h8 : off % 8 = 0) (h1 : 0x1F0000 ≤ off) (h2 : off < 0x1F0400) :
    (∃ r sh o m, registerWriteD off data d = { d with regs := r, shadow := sh, out := o, msix := m }) ∧
    (off % 16 = 0 → bits ((registerWriteD off data d).reg off) 2 62 = bits (leNat data) 2 62 ∧ (registerWriteD off data d).out = d.out) ∧
    (off % 16 = 8 → bits ((registerWriteD off data d).reg off) 0 33 = bits (leNat data) 0 33 ∧
      (bit d.msix ((off - 0x1F0000) / 16) = true → bit (leNat data) 32 = false →
        (registerWriteD off data d).out = d.out ++ [.vector ((off - 0x1F0000) / 16)])) ∧
    ∀ r, r ≠ off → (registerWriteD off data d).reg r = d.reg r := by
  have hkind : off % 16 = 0 ∨ off % 16 = 8 := by omega
  rcases hkind with h | h
  · rw [registerWriteD_msix_address off data d ho hn h8 h1 h2 h]
    obtain ⟨r, sh, hp⟩ := d.putField_cases off 2 62 (bits (leNat data) 2 62)
    refine ⟨⟨r, sh, d.out, d.msix, hp⟩, fun _ => ⟨?_, by rw [hp]⟩, fun _ => by omega, fun r hr => d.reg_putField_ne _ _ _ _ r hr⟩
    exact (d.regF_putField off 2 62 _ (by omega)).trans (Nat.mod_eq_of_lt (bits_lt _ _ _))
  · obtain ⟨r, sh, hp⟩ := d.maskWord_cases off (leNat data)
    have hregs : (registerWriteD off data d).regs = (d.maskWord off (leNat data)).regs := by
      rw [registerWriteD_msix_mask off data d ho hn h8 h1 h2 h]
      obtain ⟨o, m, hu⟩ := (d.maskWord off (leNat data)).unmask_cases ((off - 0x1F0000) / 16)
      split
      · rw [hu]
      · rfl
    have hreg : ∀ r, (registerWriteD off data d).reg r = (d.maskWord off (leNat data)).reg r := fun r => by
      rw [Dev.reg, hregs]; rfl
    refine ⟨?_, fun _ => by omega, fun _ => ⟨by rw [hreg, Dev.bits_maskWord], fun hpend hmask => ?_⟩, fun r hr => ?_⟩
    · rw [registerWriteD_msix_mask off data d ho hn h8 h1 h2 h, hp]
      obtain ⟨o, m, hu⟩ := Dev.unmask_cases { d with regs := r, shadow := sh } ((off - 0x1F0000) / 16)
      split
      · exact ⟨r, sh, o, m, hu⟩
      · exact ⟨r, sh, d.out, d.msix, rfl⟩
    · have hzero : bits (leNat data) 32 1 = 0 := by
        apply Nat.eq_of_testBit_eq
        intro i
        rw [testBit_bits, Nat.zero_testBit]
        by_cases hi : i = 0
        · subst hi; simpa [bit] using hmask
        · have : ¬ i < 1 := by omega
          simp [this]
      rw [registerWriteD_msix_mask off data d ho hn h8 h1 h2 h, if_pos hzero, hp]
      exact Dev.unmask_out_of_pending _ _ hpend
    · rw [hreg, Dev.maskWord, Dev.reg_putField_ne _ _ _ _ _ _ hr, Dev.reg_putField_ne _ _ _ _ _ _ hr]

/-! ### The tails and the round length -/

/-- Host accesses reach a device that is locally ready (R577). -/
theorem onHost_of_ready (s : State) (f : Dev → Dev) (h : s.dev.kindle.localReady = true) : onHost s f = .next { s with dev := f s.dev } := by
  unfold onHost onDev
  dsimp only
  rw [if_pos h]

theorem Dev.bar0Open_of_ready (d : Dev) (off : Nat) (h : d.kindle.localReady = true) : d.bar0Open off = true := by
  simp [Dev.bar0Open, h]

/-- A record of the device alone changes the error ring and its interrupt (R568), and it is in the ring where that had room. -/
theorem Dev.raise_reports (d : Dev) (e : Err) (hr : e.round = none) :
    d.raise e = { d with err := (d.raise e).err, out := (d.raise e).out, msix := (d.raise e).msix } ∧
      (d.err.head - d.err.tail < 256 → mget (d.raise e).err.recs (d.err.head % 256) =
        some (errBytes e d.err.handling.isSome d.tb.round d.tb.now)) := by
  refine ⟨?_, fun h => ?_⟩
  · obtain ⟨b, o, m, h⟩ := d.raise_cases e
    rw [h]
  · obtain ⟨-, hrec, -, -⟩ := d.raise_room e h
    rw [hrec, hr]
    rfl

theorem Dev.raise_tail (d : Dev) (e : Err) : (d.raise e).err.tail = d.err.tail := by
  unfold Dev.raise
  dsimp only
  split <;> split <;> (try split) <;> simp [Dev.halt]

/-- A value out of range is reported and changes nothing else. -/
theorem outOfRange_raise (s : State) : OutOfRange s { s with dev := s.dev.raise recCfgRange } :=
  ⟨⟨rfl, rfl⟩, (s.dev.raise_reports recCfgRange rfl).1, s.dev.raise_tail _, (s.dev.raise_reports recCfgRange rfl).2⟩

/-- Without a loaded job no field of the global block runs, and none is being loaded (R90, R94). -/
theorem Dev.loadingUses_of_unloaded (d : Dev) (off : Nat) (h : d.anyLoaded = false) : d.loadingUses off = false := by
  unfold Dev.anyLoaded at h
  unfold Dev.loadingUses
  rw [List.any_eq_false] at h ⊢
  intro p hp
  have hempty : p.2.state = .empty := by simpa [Job.loaded] using h p hp
  simp [hempty]

/-- The field of the round length (R38, R92). -/
def roundLenField : Field := { rwL 0 7 with min := 2, max := 80 }

/-- An L-class value within its range takes effect where nothing runs, unless it is the value in effect (R92). -/
theorem writeField_of_idle_l (was : Dev) (off v : Nat) (f : Field) (a : WriteAcc) (hacc : f.acc = .rw) (hcls : f.cls = .l)
    (hrange : ¬ (v < f.min ∨ f.max < v)) (hruns : was.blockRuns off = false) (hloads : was.loadingUses off = false)
    (hnow : a.d.blockRuns off = false) :
    writeField was off v f a = if v = was.regF off f.lo f.n then a else { a with d := a.d.takeField off f v } := by
  unfold writeField
  rw [hacc]
  dsimp only
  rw [if_neg hrange, hcls]
  simp [hruns, hloads, hnow]

/-- A round length out of range is only reported (R92). -/
theorem roundLenWriteD_out_of_range (v now : Nat) (d : Dev) (h : v < 2 ∨ 80 < v) :
    roundLenWriteD v now d = (d.at_ now).raise recCfgRange := by
  have hw : writeField (d.at_ now) 0x1008 v roundLenField ⟨d.at_ now, false, false⟩ = ⟨d.at_ now, true, false⟩ := if_pos h
  unfold roundLenWriteD
  dsimp only
  rw [show ({ rwL 0 7 with min := 2, max := 80 } : Field) = roundLenField from rfl, hw]
  rfl

/-- A round length in range on a device that has no job and is not aligned is taken as it is, or the length in use is that already (R42). -/
theorem roundLenWriteD_in_range (v now : Nat) (d : Dev) (h2 : 2 ≤ v) (h80 : v ≤ 80) (hl : d.anyLoaded = false) :
    roundLenWriteD v now d = if v = d.regF 0x1008 0 7 then d.at_ now else (d.at_ now).acceptRoundLen v := by
  have hrange : ¬ (v < roundLenField.min ∨ roundLenField.max < v) := by
    simp only [roundLenField]; omega
  have hruns : (d.at_ now).blockRuns 0x1008 = false := hl
  have hloads : (d.at_ now).loadingUses 0x1008 = false := Dev.loadingUses_of_unloaded _ _ hl
  have htake : (d.at_ now).takeField 0x1008 roundLenField v = (d.at_ now).acceptRoundLen v := rfl
  unfold roundLenWriteD
  dsimp only
  rw [show ({ rwL 0 7 with min := 2, max := 80 } : Field) = roundLenField from rfl,
    writeField_of_idle_l (d.at_ now) 0x1008 v roundLenField ⟨d.at_ now, false, false⟩ rfl rfl hrange hruns hloads hruns, htake]
  show _ = if v = (d.at_ now).regF 0x1008 roundLenField.lo roundLenField.n then _ else _
  split <;> rfl

/-- The round length of a device that is not aligned takes effect at once (R42); the intake guard beside it stays. -/
theorem Dev.acceptRoundLen_of_unaligned (d : Dev) (v : Nat) (h : d.tb.aligned = false) :
    d.acceptRoundLen v = { d.putField 0x1008 0 7 v with tb := { d.tb with lenHalf := v } } := by
  obtain ⟨r, sh, hp⟩ := d.putField_cases 0x1008 0 7 v
  unfold Dev.acceptRoundLen
  dsimp only
  rw [hp]
  simp [h]

/-! ### Reset (R11) -/

/-- LNK_CTL of every link reads EN at reset (R507). -/
theorem resetWord_linkOff (l : Nat) (h : l < 36) : resetWord (linkOff l) = 1 := by
  unfold resetWord linkOff
  rw [if_neg (by omega), if_neg (by omega), if_neg (by omega), if_neg (by omega), if_neg (by omega), if_pos (by omega)]

/-- PMP_REG of every core reads its reset column (R437). -/
theorem resetWord_corePump (c : Nat) (h : c < 256) : resetWord (coreOff c + 0xE00) = 0xFFF + 0x40 * 2 ^ 16 := by
  unfold resetWord coreOff
  rw [if_neg (by omega), if_neg (by omega), if_neg (by omega), if_neg (by omega), if_neg (by omega), if_neg (by omega),
    if_neg (by omega), if_neg (by omega), if_pos (by omega)]

/-- Right after reset every register reads its reset column (R11). -/
theorem Dev.regF_reset (off lo n : Nat) : Dev.reset.regF off lo n = bits (resetWord off) lo n := rfl

/-- The fuses of a part as it leaves manufacture meet what every step keeps (R588, R589). -/
theorem Vault.inv_reset : Vault.reset.Inv :=
  ⟨rfl, rfl, by decide, by decide, rfl⟩

/-- Memories at reset list no byte. -/
theorem memoriesCanonical_reset : MemoriesCanonical Dev.reset :=
  ⟨rfl, rfl, fun _ => rfl⟩

end Sys2Proof.Machine

open Sys2Proof Sys2Proof.Machine

/-! ### The clauses of the register writes -/

theorem registerWrite_spec (off : Nat) (data : Bytes) (s : State) :
    exec (.registerWrite off data) s = .next { s with dev := registerWriteD off data s.dev } := rfl

/-- The tails move within what the device has written, and are refused outside it (R342, R570). -/
theorem tailWrites_spec (v : Nat) (s : State) (hr : s.dev.kindle.localReady = true) :
    (s.dev.log.tail ≤ v → v ≤ s.dev.log.head → exec (.vmcLogTailWrite v) s = .next { s with dev := { s.dev with log := { s.dev.log with tail := v } } }) ∧
    (s.dev.err.tail ≤ v → v ≤ s.dev.err.head → exec (.errTailWrite v) s = .next { s with dev := { s.dev with err := { s.dev.err with tail := v } } }) ∧
    (v < s.dev.log.tail ∨ s.dev.log.head < v → ∃ t, exec (.vmcLogTailWrite v) s = .next t ∧ OutOfRange s t) ∧
    (v < s.dev.err.tail ∨ s.dev.err.head < v → ∃ t, exec (.errTailWrite v) s = .next t ∧ OutOfRange s t) := by
  have hlog : exec (.vmcLogTailWrite v) s = .next { s with dev := logTailD v s.dev } := onHost_of_ready s _ hr
  have herr : exec (.errTailWrite v) s = .next { s with dev := errTailD v s.dev } := onHost_of_ready s _ hr
  refine ⟨fun h1 h2 => ?_, fun h1 h2 => ?_, fun h => ⟨_, hlog, ?_⟩, fun h => ⟨_, herr, ?_⟩⟩
  · rw [hlog, logTailD, if_neg (by omega)]
  · rw [herr, errTailD, if_neg (by omega)]
  · rw [logTailD, if_pos h]; exact outOfRange_raise s
  · rw [errTailD, if_pos h]; exact outOfRange_raise s

/-- The three clears act on their counter alone, or ask for the clear of the next mark (R88, R230, R388). -/
theorem clears_spec (core : Fin 256) (task : Fin 8) (s : State) (hr : s.dev.kindle.localReady = true) :
    (∃ t, exec (.ovrClr core task) s = .next t ∧ OnlyTask s t core task ∧ t.dev.task core task = { s.dev.task core task with ovrCnt := 0 }) ∧
    (∃ t, exec (.cisScrubClr core) s = .next t ∧ Keeps s t ∧ t.dev = { s.dev with cores := t.dev.cores } ∧
      t.dev.core core = { s.dev.core core with denied := 0 } ∧ ∀ x, x ≠ core.val → t.dev.core x = s.dev.core x) ∧
    (∃ t, exec (.stpeakClr core) s = .next t ∧ Keeps s t ∧ t.dev = { s.dev with cores := t.dev.cores } ∧
      t.dev.core core = { s.dev.core core with stpeakClr := true } ∧ ∀ x, x ≠ core.val → t.dev.core x = s.dev.core x) := by
  refine ⟨⟨_, onHost_of_ready s _ hr, ?_, ?_⟩, ⟨_, onHost_of_ready s _ hr, ⟨rfl, rfl⟩, rfl, ?_, fun x hx => ?_⟩,
    ⟨_, onHost_of_ready s _ hr, ⟨rfl, rfl⟩, rfl, ?_, fun x hx => ?_⟩⟩
  · refine ⟨⟨rfl, rfl⟩, rfl, fun x hx => Dev.core_onTask_ne _ _ _ _ _ hx, ?_, fun y hy => Dev.task_onTask_ne _ _ _ _ _ _ ?_⟩
    · show (ovrClrD core task s.dev).core core = { s.dev.core core with tasks := ((ovrClrD core task s.dev).core core).tasks }
      rw [ovrClrD, Dev.onTask, Dev.core_onCore]
      rfl
    · simpa using hy
  · exact Dev.task_onTask _ _ _ _
  · exact Dev.core_onCore _ _ _
  · exact Dev.core_onCore_ne _ _ _ _ hx
  · exact Dev.core_onCore _ _ _
  · exact Dev.core_onCore_ne _ _ _ _ hx

/-- A round length within its range takes effect at once on an idle device that is not aligned (R42). -/
theorem roundLenWrite_in_range (v now : Nat) (s : State) (hr : s.dev.kindle.localReady = true) (h2 : 2 ≤ v) (h80 : v ≤ 80)
    (hl : s.dev.anyLoaded = false) (ha : s.dev.tb.aligned = false) (hlen : s.dev.regF 0x1008 0 7 = s.dev.tb.lenHalf) :
    ∃ t, exec (.roundLenWrite v now) s = .next t ∧ Keeps s t ∧ t.dev.regF 0x1008 0 7 = v ∧ t.dev.tb.lenHalf = v ∧
      t.dev.guardNs = s.dev.guardNs ∧ t.dev.err = s.dev.err ∧ t.dev.cores = s.dev.cores := by
  refine ⟨_, onHost_of_ready s _ hr, ⟨rfl, rfl⟩, ?_⟩
  dsimp only
  rw [roundLenWriteD_in_range v now s.dev h2 h80 hl]
  split
  case isTrue h => exact ⟨h.symm, hlen.symm.trans h.symm, rfl, rfl, rfl⟩
  case isFalse =>
    rw [Dev.acceptRoundLen_of_unaligned (s.dev.at_ now) v ha]
    have hfield : ((s.dev.at_ now).putField 0x1008 0 7 v).regF 0x1008 0 7 = v :=
      (Dev.regF_putField _ _ _ _ _ (by decide)).trans (Nat.mod_eq_of_lt (by omega))
    have hguard : ((s.dev.at_ now).putField 0x1008 0 7 v).regF 0x1008 8 16 = s.dev.regF 0x1008 8 16 :=
      Dev.regF_putField_apart _ _ _ _ _ _ _ (by decide) (by decide)
    obtain ⟨r, sh, hp⟩ := (s.dev.at_ now).putField_cases 0x1008 0 7 v
    refine ⟨hfield, rfl, congrArg (· * 1000) hguard, ?_, ?_⟩
    · rw [hp]; rfl
    · rw [hp]; rfl

/-- A round length outside its range is refused (R92). -/
theorem roundLenWrite_out_of_range (v now : Nat) (s : State) (hr : s.dev.kindle.localReady = true) (h : v < 2 ∨ 80 < v) :
    ∃ t, exec (.roundLenWrite v now) s = .next t ∧ Keeps s t ∧
      t.dev = { s.dev.at_ now with err := t.dev.err, out := t.dev.out, msix := t.dev.msix } ∧
      (s.dev.err.head - s.dev.err.tail < 256 → mget t.dev.err.recs (s.dev.err.head % 256) = some (errBytes
        { code := 0x0102 } s.dev.err.handling.isSome s.dev.tb.round (max s.dev.tb.now now))) := by
  obtain ⟨heq, hrec⟩ := (s.dev.at_ now).raise_reports recCfgRange rfl
  refine ⟨_, onHost_of_ready s _ hr, ⟨rfl, rfl⟩, ?_⟩
  dsimp only
  rw [roundLenWriteD_out_of_range v now s.dev h]
  exact ⟨heq, hrec⟩

/-- Settles O55: each clause from the rule of its write. -/
theorem registerWritesKeepTheirRules : Obligations.RegisterWritesKeepTheirRules := by
  unfold Obligations.RegisterWritesKeepTheirRules
  refine ⟨fun off data s => ⟨?_, ?_, ?_, ?_, ?_⟩, tailWrites_spec, clears_spec, fun v now s hr =>
    ⟨roundLenWrite_in_range v now s hr, roundLenWrite_out_of_range v now s hr⟩⟩
  · obtain ⟨hmem, hwell⟩ := sameBytes_registerWriteD off data s.dev
    exact ⟨_, registerWrite_spec off data s, ⟨rfl, rfl⟩, hmem, hwell⟩
  · intro hready hretry
    rw [registerWrite_spec, registerWriteD_of_closed off data s.dev (by simp [Dev.bar0Open, hready, hretry])]
  · intro hready h8 h4
    have hs : ¬ Sized off data := by
      rintro (⟨hn, ho⟩ | ⟨hn, ho⟩)
      · exact h8 hn ho
      · exact h4 hn ho
    obtain ⟨heq, hrec⟩ := s.dev.raise_reports recHostAccess rfl
    refine ⟨_, registerWrite_spec off data s, ?_⟩
    dsimp only
    rw [registerWriteD_of_not_sized off data s.dev (s.dev.bar0Open_of_ready off hready) hs]
    exact ⟨heq, hrec⟩
  · intro hready hn h8 hf
    have hoff : off / 8 * 8 = off := by omega
    rw [registerWrite_spec, registerWriteD_of_no_fields off data s.dev (s.dev.bar0Open_of_ready off hready) (.inl ⟨hn, h8⟩) (by rwa [hoff])]
  · intro hready hn h8 h1 h2
    obtain ⟨⟨r, sh, o, m, heq⟩, haddress, hmask, hother⟩ :=
      registerWriteD_msix_spec off data s.dev (s.dev.bar0Open_of_ready off hready) hn h8 h1 h2
    exact ⟨_, registerWrite_spec off data s, by dsimp only; rw [heq], haddress, hmask, hother⟩

/-- Settles O60: reset columns of the links and of the cores' pumps for every unit, the rest read off the state at reset. -/
theorem resetHoldsTheResetColumns : Obligations.ResetHoldsTheResetColumns := by
  unfold Obligations.ResetHoldsTheResetColumns
  have links : ∀ l, l < 36 → Dev.reset.regF (linkOff l) 0 1 = 1 := fun l h => by
    rw [Dev.regF_reset, resetWord_linkOff l h]; rfl
  have pumps : ∀ c, c < 256 → Dev.reset.regF (coreOff c + 0xE00) 0 12 = 0xFFF ∧ Dev.reset.regF (coreOff c + 0xE00) 16 16 = 0x40 :=
    fun c h => by rw [Dev.regF_reset, Dev.regF_reset, resetWord_corePump c h]; decide
  exact ⟨rfl, Vault.inv_reset, memoriesCanonical_reset, rfl, rfl, fun _ => ⟨rfl, rfl, rfl, fun _ => rfl⟩, fun _ => rfl, fun _ => rfl,
    fun _ => rfl, fun _ => rfl, by decide, by decide, by decide, by decide, by decide, rfl, links, pumps, rfl, rfl, rfl, rfl⟩
end

section
/-! Lemmas about the issue of a word of no engine (R70, R72): the state in which its effect runs, what a counter and a clock leave alone, and where
the sequencer goes. -/

namespace Sys2Proof.Machine

/-! ### One task of one core -/

/-- A core after a change of one task. -/
theorem Dev.core_onTask (d : Dev) (c t x : Nat) (f : Task → Task) :
    (d.onTask c t f).core x = if x = c then (d.core c).setTask t (f (d.task c t)) else d.core x := by
  by_cases h : x = c
  · subst h; simp [Dev.onTask, Dev.task]
  · simp [Dev.onTask, h]

/-- What a change of one task leaves of every core. -/
theorem Dev.onTask_proj {α : Type} (g : Core → α) (hg : ∀ x m, g { x with tasks := m } = g x) (d : Dev) (c t x : Nat) (f : Task → Task) :
    g ((d.onTask c t f).core x) = g (d.core x) := by
  rw [Dev.core_onTask]
  split
  next h => subst h; exact hg _ _
  next => rfl

@[simp] theorem Dev.mem_onTask (d : Dev) (c t x : Nat) (f : Task → Task) : ((d.onTask c t f).core x).mem = (d.core x).mem :=
  Dev.onTask_proj Core.mem (fun _ _ => rfl) ..
@[simp] theorem Dev.bad_onTask (d : Dev) (c t x : Nat) (f : Task → Task) : ((d.onTask c t f).core x).bad = (d.core x).bad :=
  Dev.onTask_proj Core.bad (fun _ _ => rfl) ..
@[simp] theorem Dev.readable_onTask (d : Dev) (c t x : Nat) (f : Task → Task) : ((d.onTask c t f).core x).readable = (d.core x).readable :=
  Dev.onTask_proj Core.readable (fun _ _ => rfl) ..
@[simp] theorem Dev.tags_onTask (d : Dev) (c t x : Nat) (f : Task → Task) : ((d.onTask c t f).core x).tags = (d.core x).tags :=
  Dev.onTask_proj Core.tags (fun _ _ => rfl) ..
@[simp] theorem Dev.tag_onTask (d : Dev) (c t x i : Nat) (f : Task → Task) : ((d.onTask c t f).core x).tag i = (d.core x).tag i :=
  Dev.onTask_proj (Core.tag · i) (fun _ _ => rfl) ..
@[simp] theorem Dev.tallies_onTask (d : Dev) (c t x : Nat) (f : Task → Task) : ((d.onTask c t f).core x).tallies = (d.core x).tallies :=
  Dev.onTask_proj Core.tallies (fun _ _ => rfl) ..
@[simp] theorem Dev.tallySat_onTask (d : Dev) (c t x : Nat) (f : Task → Task) : ((d.onTask c t f).core x).tallySat = (d.core x).tallySat :=
  Dev.onTask_proj Core.tallySat (fun _ _ => rfl) ..

/-- One task changed after another change of it alone is that task alone. -/
theorem OnlyTask.trans {s t u : State} {c k : Nat} (h : OnlyTask s t c k) (h' : OnlyTask t u c k) : OnlyTask s u c k := by
  obtain ⟨⟨hp, hv⟩, hdev, hcore, hc, htask⟩ := h
  obtain ⟨⟨hp', hv'⟩, hdev', hcore', hc', htask'⟩ := h'
  refine ⟨⟨hp'.trans hp, hv'.trans hv⟩, hdev'.trans (by rw [hdev]), fun x hx => (hcore' x hx).trans (hcore x hx), hc'.trans (by rw [hc]),
    fun y hy => (htask' y hy).trans (htask y hy)⟩

theorem onlyTask_onTask (s : State) (c k : Nat) (f : Task → Task) : OnlyTask s { s with dev := s.dev.onTask c k f } c k := by
  refine ⟨⟨rfl, rfl⟩, rfl, fun x hx => Dev.core_onTask_ne _ _ _ _ _ hx, ?_, fun y hy => Dev.task_onTask_ne _ _ _ _ _ _ (by simpa using hy)⟩
  dsimp only
  rw [Dev.core_onTask, if_pos rfl]
  rfl

theorem onlyTask_counters (s : State) (c k : Nat) (m : SMap Nat) (h : Nat) : OnlyTask s { s with dev := { s.dev with cntNow := m, holds := h } } c k :=
  ⟨⟨rfl, rfl⟩, rfl, fun _ _ => rfl, rfl, fun _ _ => rfl⟩

/-! ### A task whose clock has moved -/

/-- The state in which a word's effect runs: a counter of the round, and the clock of the word's task, have moved on. -/
def Dev.clocked (d : Dev) (c t : Nat) (m : SMap Nat) (cycle : Nat) (issued : Bool) : Dev :=
  ({ d with cntNow := m } : Dev).onTask c t (fun k => { k with lastCycle := cycle, issued := issued })

section clocked
variable (d : Dev) (c t : Nat) (m : SMap Nat) (cycle : Nat) (issued : Bool)

/-- The clock apart, every task is as it was. -/
theorem Dev.task_clocked (x y : Nat) : (d.clocked c t m cycle issued).task x y =
    if (x, y) = (c, t) then { d.task c t with lastCycle := cycle, issued := issued } else d.task x y := by
  unfold Dev.clocked
  split
  next h => cases h; exact Dev.task_onTask _ _ _ _
  next h => exact Dev.task_onTask_ne _ _ _ _ _ _ h

/-- What does not read the clock of a task reads the same. -/
theorem Dev.task_clocked_proj {α : Type} (g : Task → α) (hg : ∀ k x i, g { k with lastCycle := x, issued := i } = g k) (x y : Nat) :
    g ((d.clocked c t m cycle issued).task x y) = g (d.task x y) := by
  rw [Dev.task_clocked]
  split
  next h => cases h; exact hg _ _ _
  next => rfl

theorem Dev.core_clocked_proj {α : Type} (g : Core → α) (hg : ∀ x m, g { x with tasks := m } = g x) (x : Nat) :
    g ((d.clocked c t m cycle issued).core x) = g (d.core x) :=
  Dev.onTask_proj g hg _ c t x _

end clocked

theorem onlyTask_clocked (s : State) (c k : Nat) (m : SMap Nat) (cycle : Nat) (issued : Bool) :
    OnlyTask s { s with dev := s.dev.clocked c k m cycle issued } c k :=
  (onlyTask_counters s c k m s.dev.holds).trans (onlyTask_onTask { s with dev := { s.dev with cntNow := m } } c k _)

/-! ### The course of a task -/

/-- The sequencer of a task finds alike where it stands, and whether the round of its program withholds spans (R77, R347). -/
structure Dev.SameCourse (d e : Dev) (c t : Nat) : Prop where
  pc : (e.task c t).pc = (d.task c t).pc
  loop : (e.task c t).loop = (d.task c t).loop
  job : (e.task c t).job = (d.task c t).job
  progRound : (e.task c t).progRound = (d.task c t).progRound
  gov : e.gov = d.gov
  mirror : e.mirror = d.mirror
  replay : (e.job (d.task c t).job).replay = (d.job (d.task c t).job).replay
  img : (e.job (d.task c t).job).img = (d.job (d.task c t).job).img
  yieldRounds : (e.job (d.task c t).job).yieldRounds = (d.job (d.task c t).job).yieldRounds

theorem Dev.SameCourse.refl (d : Dev) (c t : Nat) : d.SameCourse d c t := ⟨rfl, rfl, rfl, rfl, rfl, rfl, rfl, rfl, rfl⟩

theorem Dev.SameCourse.trans {d e f : Dev} {c t : Nat} (h : d.SameCourse e c t) (h' : e.SameCourse f c t) : d.SameCourse f c t where
  pc := h'.pc.trans h.pc
  loop := h'.loop.trans h.loop
  job := h'.job.trans h.job
  progRound := h'.progRound.trans h.progRound
  gov := h'.gov.trans h.gov
  mirror := h'.mirror.trans h.mirror
  replay := by have := h'.replay; rw [h.job] at this; exact this.trans h.replay
  img := by have := h'.img; rw [h.job] at this; exact this.trans h.img
  yieldRounds := by have := h'.yieldRounds; rw [h.job] at this; exact this.trans h.yieldRounds

/-- An update that keeps the task's course, the governor, the mirrors and the jobs. -/
theorem Dev.SameCourse.of_jobs {d e : Dev} {c t : Nat} (hp : (e.task c t).pc = (d.task c t).pc) (hl : (e.task c t).loop = (d.task c t).loop)
    (hk : (e.task c t).job = (d.task c t).job) (hr : (e.task c t).progRound = (d.task c t).progRound) (hg : e.gov = d.gov)
    (hm : e.mirror = d.mirror) (hj : e.jobs = d.jobs) : d.SameCourse e c t := by
  have hjob : ∀ j, e.job j = d.job j := fun j => by unfold Dev.job; rw [hj]
  exact ⟨hp, hl, hk, hr, hg, hm, by rw [hjob], by rw [hjob], by rw [hjob]⟩

theorem Dev.SameCourse.replayLog {d e : Dev} {c t : Nat} (h : d.SameCourse e c t) (n : Nat) :
    e.replayLog (d.task c t).job n = d.replayLog (d.task c t).job n := by
  unfold Dev.replayLog Job.originRound Dev.originLog
  rw [h.replay, h.img, h.mirror]

theorem Dev.SameCourse.shed {d e : Dev} {c t : Nat} (h : d.SameCourse e c t) (i : Nat) : e.shed ⟨c, t, i⟩ = d.shed ⟨c, t, i⟩ := by
  show e.shedIn (e.task c t).job (e.task c t).progRound = d.shedIn (d.task c t).job (d.task c t).progRound
  unfold Dev.shedIn
  rw [h.job, h.progRound, h.replayLog, h.gov]

theorem Dev.SameCourse.yields {d e : Dev} {c t : Nat} (h : d.SameCourse e c t) (i : Nat) : e.yields ⟨c, t, i⟩ = d.yields ⟨c, t, i⟩ := by
  show e.yieldedIn (e.task c t).job (e.task c t).progRound = d.yieldedIn (d.task c t).job (d.task c t).progRound
  unfold Dev.yieldedIn
  rw [h.job, h.progRound, h.replayLog, h.yieldRounds]

theorem Dev.sameCourse_clocked (d : Dev) (c t : Nat) (m : SMap Nat) (cycle : Nat) (issued : Bool) :
    d.SameCourse (d.clocked c t m cycle issued) c t :=
  have keep : ∀ {α : Type} (g : Task → α), (∀ k x i, g { k with lastCycle := x, issued := i } = g k) →
      g ((d.clocked c t m cycle issued).task c t) = g (d.task c t) := fun g hg => d.task_clocked_proj c t m cycle issued g hg c t
  .of_jobs (keep Task.pc fun _ _ _ => rfl) (keep Task.loop fun _ _ _ => rfl) (keep Task.job fun _ _ _ => rfl) (keep Task.progRound fun _ _ _ => rfl)
    rfl rfl rfl

/-! ### Where the sequencer goes (R73, R74) -/

theorem Task.goTo_jumps (k : Task) (next : Nat) : Jumps k (k.goTo next) next := by
  unfold Task.goTo
  refine ⟨fun h => by rw [h]; exact ⟨rfl, rfl⟩, fun l h => ?_⟩
  rw [h]
  refine ⟨fun h1 => ?_, fun h1 h2 => ?_, fun h1 h2 => ?_⟩
  · dsimp only; rw [if_pos h1]; exact ⟨rfl, rfl⟩
  · dsimp only; rw [if_neg (by omega), if_pos h2]; exact ⟨rfl, rfl⟩
  · dsimp only; rw [if_neg (by omega), if_neg (by omega)]; exact ⟨rfl, rfl⟩

/-- A jump looks at the place and the loop alone. -/
theorem Jumps.congr {k k' j j' : Task} {next : Nat} (h : Jumps k j next) (hl : k'.loop = k.loop) (hp : j'.pc = j.pc) (hj : j'.loop = j.loop) :
    Jumps k' j' next := by
  unfold Jumps at h ⊢
  rw [hl, hp, hj]
  exact h

/-- Without withheld spans the sequencer's place stays where a word has put it. -/
theorem Dev.skipSpan_of_open (d : Dev) (w : Who) (k : Task) (hs : d.shed w = false) (hy : d.yields w = false) : d.skipSpan w k = k := by
  unfold Dev.skipSpan
  simp [hs, hy]

/-- Nor does it move where the span of the place is not withheld, or the place is its end. -/
theorem Dev.skipSpan_stays (d : Dev) (w : Who) (k : Task)
    (hs : d.shed w = false ∨ (specSpans ((List.range k.schedWords).map (d.wordAt w.core w.task))).getD k.pc none = none ∨
      wOpcode (d.wordAt w.core w.task k.pc) = 0x12 ∨ wOpcode (d.wordAt w.core w.task k.pc) = 0x13)
    (hy : d.yields w = false ∨ d.spanWord w.core w.task k.pc = false ∨
      wOpcode (d.wordAt w.core w.task k.pc) = 0x18 ∧ bit (wArgs (d.wordAt w.core w.task k.pc)) 0 = false) : d.skipSpan w k = k := by
  unfold Dev.skipSpan
  dsimp only
  split
  next h =>
    rcases hs with hs | hs | hs | hs
    · simp [hs] at h
    · simp only [hs, Option.isSome_none, Bool.and_false, Bool.false_eq_true] at h
    · simp [hs]
    · simp [hs]
  next =>
    split
    next h =>
      rcases hy with hy | hy | ⟨hy, hb⟩
      · simp [hy] at h
      · simp [hy] at h
      · simp [hy, hb]
    next => rfl

/-- The next word of a kind is the first behind a place that is of it. -/
theorem Dev.findWord_eq_some {d : Dev} {c t i m : Nat} {p : Nat → Bool} (him : i < m) (hm : m < (d.task c t).schedWords)
    (hp : p (d.wordAt c t m) = true) (hfirst : ∀ j, i < j → j < m → p (d.wordAt c t j) = false) : d.findWord c t i p = some m := by
  unfold Dev.findWord
  rw [List.find?_filter, List.find?_range_eq_some]
  refine ⟨by simp [him, hp], by simpa using hm, fun j hj => ?_⟩
  by_cases hij : i < j
  · simp [hfirst j hij hj]
  · simp [hij]

theorem Task.goTo_of_within {k : Task} {next : Nat} (h : ∀ l, k.loop = some l → next ≤ l.last) :
    (k.goTo next).pc = next ∧ (k.goTo next).loop = k.loop := by
  obtain ⟨h1, h2⟩ := k.goTo_jumps next
  cases hl : k.loop with
  | none => exact h1 hl
  | some l => exact (h2 l hl).1 (h l hl)

/-- Opcodes that name their own next word: BRANCH, REPEAT, SPEC_OPEN and ADAPT_SPAN (R73, R74, R77). -/
def steersItself (op : Nat) : Bool := op == 0x0E || op == 0x0F || op == 0x11 || op == 0x18

/-- Any other word is followed by the next one. -/
theorem Dev.nextTask_of_plain (d : Dev) (w : Who) (word : Nat) (h : steersItself (wOpcode word) = false) :
    d.nextTask w word = d.skipSpan w ((d.tk w).goTo ((d.tk w).pc + 1)) := by
  have hn : ∀ n, steersItself n = true → wOpcode word ≠ n := fun n hn e => by rw [e, hn] at h; cases h
  unfold Dev.nextTask
  congr 1
  dsimp only
  split
  next ho => exact absurd ho (hn _ rfl)
  next ho => exact absurd ho (hn _ rfl)
  next ho => exact absurd ho (hn _ rfl)
  next ho => exact absurd ho (hn _ rfl)
  next => rfl

/-- Wherever the sequencer goes, its task differs in its place and its loop alone. -/
theorem Task.goTo_eq (k : Task) (next : Nat) : ∃ p l, k.goTo next = { k with pc := p, loop := l } := by
  unfold Task.goTo
  split
  next l hl =>
    split
    · exact ⟨_, k.loop, rfl⟩
    · split
      · exact ⟨_, _, rfl⟩
      · exact ⟨_, _, rfl⟩
  next => exact ⟨_, k.loop, rfl⟩

theorem Dev.skipSpan_eq (d : Dev) (w : Who) (k : Task) : ∃ p, d.skipSpan w k = { k with pc := p } := by
  unfold Dev.skipSpan
  dsimp only
  split
  · exact ⟨_, rfl⟩
  · split
    · exact ⟨_, rfl⟩
    · exact ⟨k.pc, rfl⟩

theorem Dev.nextTask_eq (d : Dev) (w : Who) (word : Nat) : ∃ p l, d.nextTask w word = { d.tk w with pc := p, loop := l } := by
  have go : ∀ next, ∃ p l, d.skipSpan w ((d.tk w).goTo next) = { d.tk w with pc := p, loop := l } := fun next => by
    obtain ⟨p, l, h⟩ := (d.tk w).goTo_eq next
    obtain ⟨p', h'⟩ := d.skipSpan_eq w ((d.tk w).goTo next)
    exact ⟨p', l, by rw [h', h]⟩
  unfold Dev.nextTask
  dsimp only
  split
  next => split <;> exact go _
  next =>
    obtain ⟨p, h⟩ := d.skipSpan_eq w { d.tk w with pc := (d.tk w).pc + 1, loop := some ⟨(d.tk w).pc + 1, (d.tk w).pc + rpLength word, rpCount word - 1, 0, rpPeriod word⟩ }
    exact ⟨p, _, h⟩
  next => split <;> exact go _
  next => split <;> exact go _
  next => exact go _

/-- What a task has beside its place, its loop and its wait, its word leaves as its effect left it. -/
theorem Dev.wordDone_task_proj {α : Type} (g : Task → α) (hg : ∀ k p l w, g { k with pc := p, loop := l, wait := w } = g k) (d : Dev) (w : Who)
    (word : Nat) (h : d.wordDone w word = d.onTask w.core w.task (fun _ => { d.nextTask w word with wait := none })) :
    g ((d.wordDone w word).task w.core w.task) = g (d.task w.core w.task) := by
  obtain ⟨p, l, hn⟩ := d.nextTask_eq w word
  rw [h, Dev.task_onTask, hn]
  exact hg (d.tk w) p l none

/-- The opcodes of words that store nothing into tensors which may be twins, SPEC_COMMIT's own copies apart. -/
def storesNoTwin (op : Nat) : Bool := !([2, 3, 5, 6, 7, 8, 9, 0x10, 0x15].contains op)

theorem wordTensors_snd_of_no_twin (desc : Nat → Rec) (gate : Option Nat) (word : Nat) (h : storesNoTwin (wOpcode word) = true)
    (hc : wOpcode word ≠ 0x12) : (wordTensors desc gate word).2 = [] := by
  have hn : ∀ n, storesNoTwin n = false → wOpcode word ≠ n := fun n hn e => by rw [e, hn] at h; cases h
  unfold wordTensors
  dsimp only
  rw [if_neg (hn 2 rfl), if_neg (hn 3 rfl), if_neg (hn 5 rfl), if_neg (hn 6 rfl), if_neg (hn 7 rfl), if_neg (hn 8 rfl), if_neg (hn 9 rfl),
    if_neg (hn 0x10 rfl), if_neg hc, if_neg (hn 0x15 rfl)]
  split <;> rfl

/-- The end of such a word moves its task's sequencer alone. -/
theorem Dev.wordDone_of_no_twin (d : Dev) (w : Who) (word : Nat) (h : storesNoTwin (wOpcode word) = true) :
    d.wordDone w word = d.onTask w.core w.task (fun _ => { d.nextTask w word with wait := none }) := by
  unfold Dev.wordDone
  dsimp only
  by_cases hc : wOpcode word = 0x12
  · simp [hc]
  · simp [wordTensors_snd_of_no_twin _ _ _ h hc]

/-- A word after which the sequencer goes to the next one steers its task there, whatever its effect was, if that kept the task's course. -/
theorem steers_wordDone_of_next {d e : Dev} {c t i word : Nat} (h : d.SameCourse e c t) (htwin : storesNoTwin (wOpcode word) = true)
    (hnext : e.nextTask ⟨c, t, i⟩ word = e.skipSpan ⟨c, t, i⟩ ((e.task c t).goTo ((e.task c t).pc + 1))) :
    Steers d c t ((e.wordDone ⟨c, t, i⟩ word).task c t) ((d.task c t).pc + 1) := by
  rw [Dev.wordDone_of_no_twin _ _ _ htwin, Dev.task_onTask, hnext]
  refine ⟨rfl, fun hs hy => ?_⟩
  rw [Dev.skipSpan_of_open e _ _ ((h.shed i).trans hs) ((h.yields i).trans hy), ← h.pc]
  exact (Task.goTo_jumps _ _).congr h.loop.symm rfl rfl

/-- A word that names no next word is one of these. -/
theorem steers_wordDone {d e : Dev} {c t : Nat} (h : d.SameCourse e c t) (i word : Nat) (htwin : storesNoTwin (wOpcode word) = true)
    (hplain : steersItself (wOpcode word) = false) :
    Steers d c t ((e.wordDone ⟨c, t, i⟩ word).task c t) ((d.task c t).pc + 1) :=
  steers_wordDone_of_next h htwin (e.nextTask_of_plain _ _ hplain)

/-! ### Issue -/

/-- Without an uncorrectable word what a detector saw counts. -/
theorem Dev.noted_cases (d : Dev) (c : Nat) {e : TaskEv} {task : Fin 8} (h : Undisturbed e task) : ∃ m, d.noted c e = { d with cntNow := m } := by
  unfold Dev.noted
  obtain ⟨m, hm⟩ : ∃ m, d.seen c e.det = { d with cntNow := m } := by
    unfold Dev.seen
    split
    · exact d.count_eq _ _ _
    · next b a hd => exact absurd hd (h.2 b a)
    · exact ⟨d.cntNow, rfl⟩
  rw [hm]
  exact Dev.count_eq _ _ _ _

/-- A word that its task can issue runs in the state of the issue, its clock and a counter apart. -/
theorem issueTD_of_issues {op : Nat} {core : Fin 256} {task : Fin 8} {word : Nat} {s : State} {e : TaskEv} (he : Undisturbed e task)
    (hi : Issues op core task word s) (now : Nat) :
    ∃ m, issueTD op core e now s.dev = (s.dev.clocked core task m ((s.dev.task core task).issueAt word).lastCycle true).runWord
      ⟨core, task, (s.dev.task core task).pc⟩ word evNone now := by
  obtain ⟨-, hruns, hword, hop, hwait⟩ := hi
  obtain ⟨m, hm⟩ := s.dev.noted_cases core he
  refine ⟨m, ?_⟩
  have htask : e.task = task := he.1
  unfold issueTD
  rw [hm, htask]
  have hcur : ({ s.dev with cntNow := m } : Dev).curWordOf core task = some word := hword
  have hrun : ({ s.dev with cntNow := m } : Dev).taskRuns core task = true := hruns
  have hw : (({ s.dev with cntNow := m } : Dev).task core task).wait = none := hwait
  have hcan : ({ s.dev with cntNow := m } : Dev).canIssue op core task = true := by
    unfold Dev.canIssue
    simp [hcur, hrun, hw, hop]
  rw [if_pos hcan]
  unfold issueD
  rw [hcur]
  dsimp only
  rw [if_neg (by simp [hop, hrun, hw])]
  rfl

/-- A word of no engine whose effect goes through is done. -/
theorem Dev.runWord_done {d d1 : Dev} {w : Who} {word : Nat} {ev : EngEv} {now : Nat} (h0 : engineOf (wOpcode word) = 0)
    (h : wordEffect d w word ev now = .done d1) : d.runWord w word ev now = d1.wordDone w word := by
  have hs : ∀ c n, d1.countStall c word n = d1 := fun c n => by
    unfold engineOf at h0
    unfold Dev.countStall
    split at h0
    · exact absurd h0 (by decide)
    · split at h0
      · exact absurd h0 (by decide)
      · rw [if_neg (by assumption), if_neg (by assumption)]
  unfold Dev.runWord Dev.engineHeld
  rw [h0]
  simp [h, hs]

/-- A word of no engine that is held, by neither an interlock nor the drain of a transfer, waits. -/
theorem Dev.runWord_hold {d : Dev} {w : Who} {word : Nat} {ev : EngEv} {now budget : Nat} {kind : WaitKind} (h0 : engineOf (wOpcode word) = 0)
    (hr : wOpcode word ≠ 0x0A) (h : wordEffect d w word ev now = .hold kind budget) (hk : isDataWait kind = false) :
    d.runWord w word ev now = d.holdWord w kind budget := by
  unfold Dev.runWord Dev.engineHeld
  rw [h0]
  simp [h, hr, hk]

/-- A change of a task is what it makes of the task that stands there. -/
theorem Dev.onTask_congr {d : Dev} {c t : Nat} {f g : Task → Task} (h : f (d.task c t) = g (d.task c t)) : d.onTask c t f = d.onTask c t g := by
  unfold Dev.onTask Dev.onCore
  exact congrArg (fun k => d.setCore c ((d.core c).setTask t k)) h

/-- A task whose word waits. -/
def Task.waitFor (k : Task) (w : Wait) : Task := { k with wait := some w }

/-- The state after a task's word has begun to wait. -/
def Dev.waiting (d : Dev) (c t : Nat) (kind : WaitKind) (budget : Nat) : Dev :=
  { d.onTask c t (fun k => k.waitFor ⟨kind, d.tb.round, k.lastCycle, budget, d.holds⟩) with holds := d.holds + 1 }

theorem Dev.task_waiting (d : Dev) (c t : Nat) (kind : WaitKind) (budget : Nat) :
    (d.waiting c t kind budget).task c t = (d.task c t).waitFor ⟨kind, d.tb.round, (d.task c t).lastCycle, budget, d.holds⟩ :=
  Dev.task_onTask d c t (fun k => k.waitFor ⟨kind, d.tb.round, k.lastCycle, budget, d.holds⟩)

theorem onlyTask_waiting (s : State) (c t : Nat) (kind : WaitKind) (budget : Nat) :
    OnlyTask s { s with dev := s.dev.waiting c t kind budget } c t :=
  (onlyTask_onTask s c t _).trans (onlyTask_counters { s with dev := s.dev.onTask c t _ } c t s.dev.cntNow (s.dev.holds + 1))

/-- A word that no ring holds and that did not wait before begins to. -/
theorem Dev.holdWord_of_free (d : Dev) (w : Who) {kind : WaitKind} (budget : Nat) (h : ∀ r wr, kind ≠ .ring r wr) (hw : (d.tk w).wait = none) :
    d.holdWord w kind budget = d.waiting w.core w.task kind budget := by
  have hf : ∀ f : Task → Task, f (d.tk w) = (d.tk w).waitFor ⟨kind, d.tb.round, (d.tk w).lastCycle, budget, d.holds⟩ →
      ({ d.onTask w.core w.task f with holds := d.holds + 1 } : Dev) = d.waiting w.core w.task kind budget := fun f e => by
    rw [Dev.waiting]
    exact congrArg (fun x : Dev => { x with holds := d.holds + 1 }) (Dev.onTask_congr
      (g := fun k => k.waitFor ⟨kind, d.tb.round, k.lastCycle, budget, d.holds⟩) e)
  unfold Dev.holdWord
  split
  next r wr => exact absurd rfl (h r wr)
  next =>
    refine hf _ ?_
    dsimp only
    rw [hw]
    rfl

/-- The end of a wait, of a word of no engine that no interlock held, tries the word again in a state whose clock alone has moved on. -/
theorem retryD_of_may {c cycle word : Nat} {e : TaskEv} {task : Fin 8} {may : WaitKind → Bool} {x : Wait} {d : Dev} (he : Undisturbed e task)
    (hcur : d.curWordOf c task = some word) (hwait : (d.task c task).wait = some x) (hmay : may x.kind = true) (hruns : d.taskRuns c task = true)
    (hdue : d.overdue c task word x = false) (h0 : engineOf (wOpcode word) = 0) (hkind : x.kind ≠ .interlock) :
    ∃ m, retryD c e cycle may d = (d.clocked c task m (max (d.task c task).lastCycle cycle) (d.task c task).issued).runWord
      ⟨c, task, (d.task c task).pc⟩ word evNone d.tb.now := by
  obtain ⟨m, hm⟩ := d.noted_cases c he
  have htask : e.task = task := he.1
  have hclock : ({ d with cntNow := m } : Dev).onTask c task (fun k => { k with lastCycle := max k.lastCycle cycle }) =
      d.clocked c task m (max (d.task c task).lastCycle cycle) (d.task c task).issued := Dev.onTask_congr rfl
  refine ⟨m, ?_⟩
  unfold retryD
  dsimp only
  rw [htask, hcur, hwait]
  dsimp only
  have hno : decide (1 ≤ engineOf (wOpcode word) ∧ engineOf (wOpcode word) ≤ 3) = false := by rw [h0]; rfl
  simp only [hmay, hruns, hdue, hno, hkind, hm, Bool.not_false, Bool.and_self, if_true, false_and, if_false, Bool.false_eq_true]
  rw [hclock]
  rfl

/-- While the firmware runs a command has its meaning. -/
theorem onUp_of_up (s : State) (f : Dev → Dev) (h : s.dev.up = true) : onUp s f = .next { s with dev := f s.dev } := by
  unfold onUp onDev
  dsimp only
  rw [if_pos h]

end Sys2Proof.Machine
end

section
/-! Lemmas about what a detection leaves alone (R540, R546 to R549): it halts tasks, withholds items and stops links, and no byte, tally, sequence
or result changes. -/

namespace Sys2Proof.Machine

/-! ### What a detection, an error record and a counter leave -/

/-- A task that differs at most in its state, its wait and its traps. -/
def Task.Aside (k j : Task) : Prop :=
  j = { k with state := j.state, wait := j.wait, trapA := j.trapA, trapElem := j.trapElem, trapRound := j.trapRound, cmdTrap := j.cmdTrap }

/-- A core that differs at most in such tasks and in its tags. -/
def Core.Aside (x y : Core) : Prop := y = { x with tasks := y.tasks, tags := y.tags } ∧ ∀ t, (x.task t).Aside (y.task t)

/-- `e` differs from `d` at most in such cores, in halting jobs, in what the items of streams have met, and outside cores, jobs and streams in the error block, what
leaves for the host, counters, slices, ports, links, fabric and the state of the time base. -/
structure Dev.Aside (d e : Dev) : Prop where
  rest : e = { d with
    cores := e.cores, jobs := e.jobs, streams := e.streams, err := e.err, out := e.out, msix := e.msix, cntNow := e.cntNow
    slices := e.slices, ports := e.ports, links := e.links, fabric := e.fabric, tb := { d.tb with state := e.tb.state } }
  core : ∀ c, (d.core c).Aside (e.core c)
  job : ∀ j, e.job j = { d.job j with halting := (e.job j).halting }
  stream : ∀ h, e.stream h = { d.stream h with items := (e.stream h).items }

theorem Task.Aside.refl (k : Task) : k.Aside k := rfl

theorem Task.Aside.trans {k j i : Task} (h : k.Aside j) (h' : j.Aside i) : k.Aside i := Eq.trans h' (by rw [h])

theorem Core.Aside.refl (x : Core) : x.Aside x := ⟨rfl, fun _ => .refl _⟩

theorem Core.Aside.trans {x y z : Core} (h : x.Aside y) (h' : y.Aside z) : x.Aside z :=
  ⟨h'.1.trans (by rw [h.1]), fun t => (h.2 t).trans (h'.2 t)⟩

/-- A core with one task changed that way. -/
theorem Core.Aside.setTask (x : Core) (t : Nat) {k : Task} (h : (x.task t).Aside k) : x.Aside (x.setTask t k) := by
  refine ⟨rfl, fun u => ?_⟩
  by_cases e : u = t
  · subst e; rwa [Core.task_setTask]
  · rw [Core.task_setTask_ne _ _ _ _ e]; exact .refl _

/-- Halted tasks keep all but their state and their wait, and their core all but its tasks and tags. -/
theorem Core.Aside.haltTasks (x : Core) : x.Aside x.haltTasks := by
  refine ⟨rfl, fun t => ?_⟩
  simp only [Core.task, Core.haltTasks, mgetD, mget_mmap]
  cases mget x.tasks t with
  | none => exact .refl _
  | some k => simp only [Option.map_some, Option.getD_some]; split <;> rfl

namespace Dev.Aside

theorem refl (d : Dev) : d.Aside d := ⟨rfl, fun _ => .refl _, fun _ => rfl, fun _ => rfl⟩

theorem trans {d e f : Dev} (h : d.Aside e) (h' : e.Aside f) : d.Aside f where
  rest := h'.rest.trans (by rw [h.rest])
  core c := (h.core c).trans (h'.core c)
  job j := (h'.job j).trans (by rw [h.job j])
  stream k := (h'.stream k).trans (by rw [h.stream k])

theorem task {d e : Dev} (h : d.Aside e) (c t : Nat) : (d.task c t).Aside (e.task c t) := (h.core c).2 t

theorem ite {p : Prop} [Decidable p] {d e f : Dev} (he : d.Aside e) (hf : d.Aside f) : d.Aside (if p then e else f) := by
  split <;> assumption

/-- Steps of a fold that stay aside make a fold that does. -/
theorem foldl {α : Type} (f : Dev → α → Dev) (l : List α) (d : Dev) (h : ∀ (e : Dev) a, a ∈ l → e.Aside (f e a)) : d.Aside (l.foldl f d) :=
  foldl_keep (d.Aside ·) f l d (refl d) (fun e a ha he => he.trans (h e a ha))

/-- A change of nothing that belongs to cores, jobs and streams. -/
theorem of_units {d e : Dev} (h : e = { d with
      err := e.err, out := e.out, msix := e.msix, cntNow := e.cntNow, slices := e.slices, ports := e.ports, links := e.links, fabric := e.fabric
      tb := { d.tb with state := e.tb.state } }) : d.Aside e where
  rest := by rw [h]
  core c := by rw [h]; exact .refl _
  job j := by rw [h]; rfl
  stream k := by rw [h]; rfl

theorem raise (d : Dev) (e : Err) : d.Aside (d.raise e) := by
  obtain ⟨b, o, m, h⟩ := d.raise_cases e
  rw [h]
  exact of_units rfl

theorem count (d : Dev) (off lo n : Nat) : d.Aside (d.count off lo n) := by
  obtain ⟨m, h⟩ := d.count_eq off lo n
  rw [h]
  exact of_units rfl

/-- Cores of which only tasks and tags changed. -/
theorem of_cores {d : Dev} {cs : SMap Core} (h : ∀ c, (d.core c).Aside (mgetD cs c Core.reset)) : d.Aside { d with cores := cs } :=
  ⟨rfl, h, fun _ => rfl, fun _ => rfl⟩

theorem onCore (d : Dev) (c : Nat) (f : Core → Core) (hf : ∀ x : Core, x.Aside (f x)) : d.Aside (d.onCore c f) := by
  refine of_cores (fun x => ?_)
  by_cases h : x = c
  · subst h; simpa using hf (d.core x)
  · rw [mgetD_mset_ne _ _ _ _ _ h]; exact .refl _

theorem onTask (d : Dev) (c t : Nat) (f : Task → Task) (hf : ∀ k : Task, k.Aside (f k)) : d.Aside (d.onTask c t f) :=
  onCore d c _ (fun x => .setTask x t (hf _))

/-- A change of one stream's items. -/
theorem onStream (d : Dev) (h : Nat) (f : Stream → Stream) (hf : ∀ x, f x = { x with items := (f x).items }) : d.Aside (d.onStream h f) := by
  refine ⟨rfl, fun _ => .refl _, fun _ => rfl, fun k => ?_⟩
  by_cases e : k = h
  · subst e; simpa using hf (d.stream k)
  · simp only [Dev.stream_onStream_ne _ _ _ _ e]

theorem onJob (d : Dev) (j : Nat) (f : Job → Job) (hf : ∀ x, f x = { x with halting := (f x).halting }) : d.Aside (d.onJob j f) := by
  refine ⟨rfl, fun _ => .refl _, fun i => ?_, fun _ => rfl⟩
  by_cases e : i = j
  · subst e; simpa using hf (d.job i)
  · simp only [Dev.job_onJob_ne _ _ _ _ e]

/-! ### Links, slices and cores that stop (R18, R478, R547) -/

theorem checkMinority (d : Dev) : d.Aside d.checkMinority := by
  have halts : ∀ x : Dev, x.Aside x.haltFabricJobs := fun x => foldl _ _ x (fun e j _ => by
    split
    · split
      · exact onJob e j _ (fun _ => rfl)
      · exact refl e
    · exact refl e)
  unfold Dev.checkMinority
  split
  · split
    · exact refl d
    · exact ((raise d _).trans (of_units rfl)).trans (halts _)
  · split
    · exact of_units rfl
    · exact refl d

theorem lostParent (d : Dev) : d.Aside d.lostParent := by
  unfold Dev.lostParent
  split
  · exact of_units rfl
  · exact refl d

theorem reportMap (d : Dev) : d.Aside d.reportMap := by
  unfold Dev.reportMap
  split
  · exact of_units rfl
  · exact refl d

theorem advertise (d : Dev) : d.Aside d.advertise := of_units rfl

theorem trainLink (d : Dev) (l : Nat) : d.Aside (d.trainLink l) := by
  obtain ⟨x, h⟩ := d.trainLink_cases l
  rw [h]
  exact of_units rfl

theorem linkIrq (d : Dev) (l : Nat) : d.Aside (d.linkIrq l) := by
  unfold Dev.linkIrq
  split
  · obtain ⟨vs, m, h⟩ := d.vector_eq (d.regF (linkOff l) 9 6)
    rw [h]
    exact of_units rfl
  · exact refl d

theorem linkDown (l : Nat) (d : Dev) : d.Aside (linkDownD l d) := by
  unfold linkDownD
  split
  · exact refl d
  · have parent : ∀ x : Dev, x.Aside (if x.tb.parent = l ∧ ¬ x.fabric.isRoot ∧ x.tb.aligned then x.lostParent else x) := fun x => by
      split
      · exact lostParent x
      · exact refl x
    dsimp only
    generalize hz : ((Dev.trainLink _ l).advertise).reportMap = z
    have down : d.Aside z := by
      rw [← hz]
      refine trans (trans (trans (trans (trans (trans ?_ (linkIrq _ l)) (count _ _ _ _)) (raise _ _)) (trainLink _ l)) (advertise _)) (reportMap _)
      exact of_units rfl
    split
    · exact (down.trans (checkMinority z)).trans (parent _)
    · exact down.trans (parent z)

theorem containSlice (d : Dev) (s : Nat) : d.Aside (d.containSlice s) := by
  have hc : ∀ k, mgetD (mmap (fun c y => if c / 64 = s then y.haltTasks else y) d.cores) k Core.reset =
      if k / 64 = s then (d.core k).haltTasks else d.core k := by
    intro k
    simp only [Dev.core, mgetD, mget_mmap]
    cases mget d.cores k with
    | none => simp only [Option.map_none, Option.getD_none]; split <;> rfl
    | some x => simp only [Option.map_some, Option.getD_some]
  have stop : d.Aside { d with cores := mmap (fun c y => if c / 64 = s then y.haltTasks else y) d.cores } := by
    refine of_cores (fun c => ?_)
    rw [hc]
    split
    · exact .haltTasks _
    · exact .refl _
  unfold Dev.containSlice
  dsimp only
  have links : ∀ (ls : List Nat) (e : Dev), e.Aside (ls.foldl (fun d l => linkDownD l d) e) := fun ls e => foldl _ ls e (fun e l _ => linkDown l e)
  have down := (stop.trans (of_units rfl : Dev.Aside _ { d.onSlice s (fun x => { x with state := .contained }) with
    cores := mmap (fun c x => if c / 64 = s then x.haltTasks else x) d.cores
    ports := mmap (fun p x => if p / 4 = s then { x with state := 0, opened := [] } else x) d.ports })).trans (links
      ((d.links.map Prod.fst).filter (fun l => l / 9 == s)) _)
  split
  · exact down.trans (of_units rfl)
  · exact down

theorem retireCore (d : Dev) (c : Nat) : d.Aside (d.retireCore c) := by
  unfold Dev.retireCore
  split
  · exact refl d
  · have halted : d.Aside (d.onCore c Core.haltTasks) := onCore d c _ (fun x => .haltTasks x)
    have retired : ∀ b, d.Aside { d.onCore c Core.haltTasks with err := b } := fun b => halted.trans (of_units rfl)
    dsimp only
    split
    · exact (retired _).trans (containSlice _ _)
    · exact retired _

theorem addAction (d : Dev) (a : Action) : d.Aside (d.addAction a) := by
  unfold Dev.addAction
  split <;> exact of_units rfl

theorem loseCore (d : Dev) (c code round : Nat) : d.Aside (d.loseCore c code round) := by
  unfold Dev.loseCore
  split
  · exact refl d
  · have lost := (retireCore d c).trans (addAction _ (lostAction code 0 clsCore c round d.tb.round))
    dsimp only
    split
    · exact lost.trans (addAction _ _)
    · exact lost

theorem loseSlice (d : Dev) (s code round : Nat) : d.Aside (d.loseSlice s code round) := by
  unfold Dev.loseSlice
  split
  · exact (containSlice d s).trans (addAction _ _)
  · exact refl d

theorem countDetection (d : Dev) (code kind unit round : Nat) : d.Aside (d.countDetection code kind unit round) := by
  unfold Dev.countDetection
  split
  · dsimp only
    have noted : ∀ b, d.Aside { d with err := b } := fun b => of_units rfl
    split
    · split
      · exact (noted _).trans (loseCore _ _ _ _)
      · split
        · exact (noted _).trans (loseSlice _ _ _ _)
        · split
          · exact ((noted _).trans (loseSlice _ _ _ _)).trans (of_units rfl)
          · exact noted _
    · exact noted _
  · exact refl d

/-! ### Items and traps (R131, R542) -/

theorem onRunning (d : Dev) (n : Nat) (hs : List Nat) (f : Item → Item) : d.Aside (d.onRunning n hs f) :=
  foldl _ hs d (fun e h _ => onStream e h _ (fun _ => rfl))

theorem discardTrap (d : Dev) (c t round : Nat) (handle : Option Nat) : d.Aside (d.discardTrap c t round handle) := by
  have withdrawn : ∀ p, d.Aside (d.withdraw p) := fun p => by
    unfold Dev.withdraw
    dsimp only
    split
    · exact refl d
    · exact of_units rfl
  unfold Dev.discardTrap
  dsimp only
  split
  · exact ((withdrawn _).trans (onTask _ c t _ (fun k => by unfold Task.Aside; dsimp only; split <;> rfl))).trans (onStream _ _ _ (fun _ => rfl))
  · exact ((withdrawn _).trans (onTask _ c t _ (fun k => by unfold Task.Aside; dsimp only; split <;> rfl))).trans (onTask _ c t _ (fun k => by unfold Task.Aside; split <;> rfl))

theorem discardTraps (d : Dev) (hs : List Nat) (job c t round : Nat) : d.Aside (d.discardTraps hs job c t round) := by
  have each : ∀ l : List Nat, d.Aside (l.foldl (fun d h => (d.job job).tasks.foldl (fun d p => d.discardTrap p.1 p.2 round (some h)) d) d) := fun l =>
    foldl _ l d (fun e h _ => foldl _ _ e (fun x p _ => discardTrap x p.1 p.2 round (some h)))
  unfold Dev.discardTraps
  dsimp only
  split
  · exact (each _).trans (discardTrap _ c t round none)
  · exact each _

theorem detect (d : Dev) (e : Err) (hs : List Nat) (job c t round : Nat) : d.Aside (d.detect e hs job c t round) := by
  unfold Dev.detect
  dsimp only
  generalize (if d.detectCls e t round hs = clsTask then _ else hs) = wide
  generalize hz : Dev.countDetection _ e.code e.kind e.unit round = z
  have counted : d.Aside z := by
    rw [← hz]
    refine trans ?_ (countDetection _ _ _ _ _)
    generalize hy : Dev.onRunning _ round wide _ = y
    have withheld : d.Aside y := by
      rw [← hy]
      refine trans ?_ (onRunning _ _ _ _)
      have traps := discardTraps d wide job c t round
      exact ite ((traps.trans (raise _ _)).trans (raise _ _)) (traps.trans (raise _ _))
    exact ite (withheld.trans (loseCore _ _ _ _)) (ite (withheld.trans (loseSlice _ _ _ _)) (ite withheld (withheld.trans (addAction _ _))))
  split
  · exact ite (counted.trans (of_units rfl)) counted
  · exact counted

theorem eccReadFor (d : Dev) (hs : List Nat) (c t round : Nat) (ws : List Nat) : d.Aside (d.eccReadFor hs c t round ws) :=
  foldl _ _ d (fun e _ _ => (count e _ _ _).trans (detect _ _ _ _ _ _ _))

theorem sliceDown (d : Dev) (c t i : Nat) : d.Aside (d.sliceDown c t i) := detect _ _ _ _ _ _ _

/-! ### What it means for a task -/

theorem sameCourse {d e : Dev} (h : d.Aside e) (c t : Nat) : d.SameCourse e c t where
  pc := by rw [h.task c t]
  loop := by rw [h.task c t]
  job := by rw [h.task c t]
  progRound := by rw [h.task c t]
  gov := by rw [h.rest]
  mirror := by rw [h.rest]
  replay := by rw [h.job]
  img := by rw [h.job]
  yieldRounds := by rw [h.job]

/-- What a core has beside its tasks and tags stays. -/
theorem core_proj {d e : Dev} (h : d.Aside e) {α : Type} (g : Core → α) (hg : ∀ x k m, g { x with tasks := k, tags := m } = g x) (c : Nat) :
    g (e.core c) = g (d.core c) := by
  rw [(h.core c).1]
  exact hg _ _ _

theorem mem {d e : Dev} (h : d.Aside e) (c : Nat) : (e.core c).mem = (d.core c).mem := h.core_proj Core.mem (fun _ _ _ => rfl) c

end Dev.Aside

end Sys2Proof.Machine
end

section
/-! What the two tally words do (R72, R76), and what they settle: O31. -/

namespace Sys2Proof.Machine

/-! ### Tallies -/

/-- A tally after TLY_ADD (R76). -/
theorem Core.tallies_addTally (x : Core) (i n k : Nat) :
    mgetD (x.addTally i n).tallies k 0 = if k = i then min (mgetD x.tallies i 0 + n) (2 ^ 20 - 1) else mgetD x.tallies k 0 := by
  unfold Core.addTally
  exact mgetD_mset _ _ _ _ _

/-- A sum that would pass 2^20 − 1 is noted. -/
theorem Core.mem_tallySat_addTally (x : Core) (i n : Nat) (h : 2 ^ 20 ≤ mgetD x.tallies i 0 + n) : i ∈ (x.addTally i n).tallySat := by
  unfold Core.addTally
  dsimp only
  rw [decide_eq_false (by omega), Bool.false_or]
  split
  next hc => simpa using hc
  next => simp

/-- A change of a core that keeps its tasks keeps every task. -/
theorem Dev.task_onCore {f : Core → Core} (hf : ∀ x, (f x).tasks = x.tasks) (d : Dev) (c x t : Nat) : (d.onCore c f).task x t = d.task x t := by
  by_cases h : x = c
  · subst h; simp [Dev.task, Core.task, hf]
  · simp [Dev.task, h]

/-- … and its course. -/
theorem Dev.sameCourse_onCore {f : Core → Core} (hf : ∀ x, (f x).tasks = x.tasks) (d : Dev) (c x t : Nat) : d.SameCourse (d.onCore c f) x t := by
  have h := d.task_onCore hf c x t
  exact .of_jobs (by rw [h]) (by rw [h]) (by rw [h]) (by rw [h]) rfl rfl rfl

/-- What a word that moves its task alone leaves of every core. -/
theorem Dev.wordDone_proj {α : Type} (g : Core → α) (hg : ∀ x m, g { x with tasks := m } = g x) (d : Dev) (w : Who) (word x : Nat)
    (h : storesNoTwin (wOpcode word) = true) : g ((d.wordDone w word).core x) = g (d.core x) := by
  rw [Dev.wordDone_of_no_twin _ _ _ h]
  exact Dev.onTask_proj g hg _ _ _ _ _

/-- … and the other cores as they are. -/
theorem Dev.core_wordDone_ne (d : Dev) (w : Who) (word x : Nat) (h : storesNoTwin (wOpcode word) = true) (hx : x ≠ w.core) :
    (d.wordDone w word).core x = d.core x := by
  rw [Dev.wordDone_of_no_twin _ _ _ h]
  exact Dev.core_onTask_ne _ _ _ _ _ hx

/-! ### The two words -/

section words
variable {d : Dev} {c t i word : Nat} (ev : EngEv) (now : Nat)

theorem runWord_tlyAdd_down (h : wOpcode word = 0x0B) (hs : d.sliceUp ((if bit (wArgs word) 24 then c else bits (wArgs word) 16 8) / 64) = false) :
    d.runWord ⟨c, t, i⟩ word ev now = (d.sliceDown c t i).wordDone ⟨c, t, i⟩ word := by
  refine Dev.runWord_done (by rw [h]; rfl) ?_
  simp [wordEffect, h, tlyAddW, hs]

theorem runWord_tlyAdd_up (h : wOpcode word = 0x0B) (hs : d.sliceUp ((if bit (wArgs word) 24 then c else bits (wArgs word) 16 8) / 64) = true) :
    d.runWord ⟨c, t, i⟩ word ev now = (d.onCore (if bit (wArgs word) 24 then c else bits (wArgs word) 16 8)
      (fun x => x.addTally (bits (wArgs word) 0 8) (bits (wArgs word) 8 8))).wordDone ⟨c, t, i⟩ word := by
  refine Dev.runWord_done (by rw [h]; rfl) ?_
  simp [wordEffect, h, tlyAddW, hs]

theorem runWord_tlyWait_reached (h : wOpcode word = 0x0C)
    (hv : bits (wArgs word) 8 20 ≤ mgetD (d.core c).tallies (bits (wArgs word) 0 8) 0) :
    d.runWord ⟨c, t, i⟩ word ev now = (d.onCore c (fun x => { x with tallies := mset x.tallies (bits (wArgs word) 0 8) (mgetD (d.core c).tallies (bits (wArgs word) 0 8) 0 - bits (wArgs word) 8 20) })).wordDone ⟨c, t, i⟩ word := by
  refine Dev.runWord_done (by rw [h]; rfl) ?_
  simp [wordEffect, h, tlyWaitW, hv]

theorem runWord_tlyWait_short (h : wOpcode word = 0x0C)
    (hv : mgetD (d.core c).tallies (bits (wArgs word) 0 8) 0 < bits (wArgs word) 8 20) :
    d.runWord ⟨c, t, i⟩ word ev now = d.holdWord ⟨c, t, i⟩ (.tally (bits (wArgs word) 0 8)) 1 := by
  refine Dev.runWord_hold (by rw [h]; rfl) (by rw [h]; decide) ?_ rfl
  simp [wordEffect, h, tlyWaitW, hv]

end words

/-! ### Their clauses -/

/-- TLY_ADD into a contained slice adds nothing (R19). -/
theorem tlyAdd_down {core : Fin 256} {task : Fin 8} {e : TaskEv} {word : Nat} {s : State} (he : Undisturbed e task)
    (hi : Issues 0x0B core task word s) (hs : s.dev.sliceUp ((if bit (wArgs word) 24 then core.val else bits (wArgs word) 16 8) / 64) = false) :
    ∃ t, exec (.tlyAdd core e) s = .next t ∧ Keeps s t ∧ (∀ x i, mgetD (t.dev.core x).tallies i 0 = mgetD (s.dev.core x).tallies i 0) ∧
      ∀ x, (t.dev.core x).mem = (s.dev.core x).mem := by
  obtain ⟨m, hm⟩ := issueTD_of_issues he hi 0
  refine ⟨_, onUp_of_up s _ hi.1, ⟨rfl, rfl⟩, ?_⟩
  dsimp only
  have hop := hi.2.2.2.1
  have htwin : storesNoTwin (wOpcode word) = true := by rw [hop]; rfl
  rw [hm, runWord_tlyAdd_down (d := s.dev.clocked _ _ _ _ _) _ _ hop hs]
  have keep : ∀ {α : Type} (g : Core → α), (∀ x k m, g { x with tasks := k, tags := m } = g x) → ∀ x,
      g ((Dev.wordDone ((s.dev.clocked core task m ((s.dev.task core task).issueAt word).lastCycle true).sliceDown core task
        (s.dev.task core task).pc) ⟨core, task, (s.dev.task core task).pc⟩ word).core x) = g (s.dev.core x) := by
    intro α g hg x
    have hg' : ∀ x k, g { x with tasks := k } = g x := fun x k => hg x k x.tags
    rw [Dev.wordDone_proj g hg' _ _ _ _ htwin, (Dev.Aside.sliceDown _ _ _ _).core_proj g hg]
    exact Dev.core_clocked_proj _ _ _ _ _ _ g hg' x
  exact ⟨fun x i => by rw [keep Core.tallies (fun _ _ _ => rfl)], keep Core.mem (fun _ _ _ => rfl)⟩

/-- TLY_ADD adds to one tally of one core, up to 2^20 − 1 (R76). -/
theorem tlyAdd_up {core : Fin 256} {task : Fin 8} {e : TaskEv} {word c : Nat} {s : State} (he : Undisturbed e task)
    (hi : Issues 0x0B core task word s) (hc : c = (if bit (wArgs word) 24 then core.val else bits (wArgs word) 16 8))
    (hs : s.dev.sliceUp (c / 64) = true) :
    ∃ t, exec (.tlyAdd core e) s = .next t ∧ Keeps s t ∧
      mgetD (t.dev.core c).tallies (bits (wArgs word) 0 8) 0 =
        min (mgetD (s.dev.core c).tallies (bits (wArgs word) 0 8) 0 + bits (wArgs word) 8 8) (2 ^ 20 - 1) ∧
      (2 ^ 20 ≤ mgetD (s.dev.core c).tallies (bits (wArgs word) 0 8) 0 + bits (wArgs word) 8 8 →
        bits (wArgs word) 0 8 ∈ (t.dev.core c).tallySat) ∧
      (∀ x i, x ≠ c ∨ i ≠ bits (wArgs word) 0 8 → mgetD (t.dev.core x).tallies i 0 = mgetD (s.dev.core x).tallies i 0) ∧
      (∀ x, (t.dev.core x).mem = (s.dev.core x).mem) ∧ t.dev = { s.dev with cores := t.dev.cores, cntNow := t.dev.cntNow } ∧
      Steers s.dev core task (t.dev.task core task) ((s.dev.task core task).pc + 1) := by
  obtain ⟨m, hm⟩ := issueTD_of_issues he hi 0
  refine ⟨_, onUp_of_up s _ hi.1, ⟨rfl, rfl⟩, ?_⟩
  dsimp only
  have hop := hi.2.2.2.1
  have htwin : storesNoTwin (wOpcode word) = true := by rw [hop]; rfl
  rw [hm, runWord_tlyAdd_up (d := s.dev.clocked _ _ _ _ _) _ _ hop (by rw [← hc]; exact hs), ← hc]
  set d := s.dev.clocked core task m ((s.dev.task core task).issueAt word).lastCycle true with hd
  have old : ∀ {α : Type} (g : Core → α), (∀ x m, g { x with tasks := m } = g x) → ∀ x, g (d.core x) = g (s.dev.core x) :=
    fun g hg x => Dev.core_clocked_proj _ _ _ _ _ _ g hg x
  have htal := old Core.tallies (fun _ _ => rfl)
  have hcourse := (s.dev.sameCourse_clocked core task m ((s.dev.task core task).issueAt word).lastCycle true).trans
    (Dev.sameCourse_onCore (f := fun x => x.addTally (bits (wArgs word) 0 8) (bits (wArgs word) 8 8)) (fun _ => rfl) d c core task)
  refine ⟨?_, fun h => ?_, fun x i h => ?_, fun x => ?_, ?_, steers_wordDone hcourse _ word htwin (by rw [hop]; rfl)⟩
  · rw [Dev.wordDone_proj Core.tallies (fun _ _ => rfl) _ _ _ _ htwin, Dev.core_onCore, Core.tallies_addTally, if_pos rfl, htal]
  · rw [Dev.wordDone_proj Core.tallySat (fun _ _ => rfl) _ _ _ _ htwin, Dev.core_onCore]
    exact Core.mem_tallySat_addTally _ _ _ (by rw [htal]; exact h)
  · rw [Dev.wordDone_proj Core.tallies (fun _ _ => rfl) _ _ _ _ htwin]
    by_cases hx : x = c
    · subst hx
      rw [Dev.core_onCore, Core.tallies_addTally, if_neg (h.resolve_left (fun h => h rfl)), htal]
    · rw [Dev.core_onCore_ne _ _ _ _ hx, htal]
  · rw [Dev.wordDone_proj Core.mem (fun _ _ => rfl) _ _ _ _ htwin]
    refine Eq.trans ?_ (old Core.mem (fun _ _ => rfl) x)
    by_cases hx : x = c
    · subst hx; rw [Dev.core_onCore]; rfl
    · rw [Dev.core_onCore_ne _ _ _ _ hx]
  · rw [Dev.wordDone_of_no_twin _ _ _ htwin]; rfl

/-- What the subtraction of a TLY_WAIT leaves, from a state that differs in the clock of its task alone. -/
theorem tlyWait_subtracts {d : Dev} {c t word : Nat} (m : SMap Nat) (cycle : Nat) (issued : Bool) (ev : EngEv) (now : Nat) (hop : wOpcode word = 0x0C)
    (hv : bits (wArgs word) 8 20 ≤ mgetD (d.core c).tallies (bits (wArgs word) 0 8) 0) {d' : Dev}
    (hd' : d' = (d.clocked c t m cycle issued).runWord ⟨c, t, (d.task c t).pc⟩ word ev now) :
    d' = { d with cores := d'.cores, cntNow := d'.cntNow } ∧
      (d'.core c).tallies = mset (d.core c).tallies (bits (wArgs word) 0 8) (mgetD (d.core c).tallies (bits (wArgs word) 0 8) 0 - bits (wArgs word) 8 20) ∧
      (d'.core c).mem = (d.core c).mem ∧ (∀ x, x ≠ c → d'.core x = d.core x) ∧ Steers d c t (d'.task c t) ((d.task c t).pc + 1) := by
  have htwin : storesNoTwin (wOpcode word) = true := by rw [hop]; rfl
  have htal : ((d.clocked c t m cycle issued).core c).tallies = (d.core c).tallies := Dev.core_clocked_proj _ _ _ _ _ _ Core.tallies (fun _ _ => rfl) c
  rw [runWord_tlyWait_reached ev now hop (by rw [htal]; exact hv), htal] at hd'
  subst hd'
  have hcourse := (d.sameCourse_clocked c t m cycle issued).trans (Dev.sameCourse_onCore (f := fun x => { x with tallies := mset x.tallies (bits (wArgs word) 0 8) (mgetD (d.core c).tallies (bits (wArgs word) 0 8) 0 - bits (wArgs word) 8 20) }) (fun _ => rfl) _ c c t)
  refine ⟨?_, ?_, ?_, fun x hx => ?_, steers_wordDone hcourse _ word htwin (by rw [hop]; rfl)⟩
  · rw [Dev.wordDone_of_no_twin _ _ _ htwin]; rfl
  · rw [Dev.wordDone_proj Core.tallies (fun _ _ => rfl) _ _ _ _ htwin, Dev.core_onCore, htal]
  · rw [Dev.wordDone_proj Core.mem (fun _ _ => rfl) _ _ _ _ htwin, Dev.core_onCore]
    exact Dev.core_clocked_proj _ _ _ _ _ _ Core.mem (fun _ _ => rfl) c
  · rw [Dev.core_wordDone_ne _ _ _ _ htwin hx, Dev.core_onCore_ne _ _ _ _ hx]
    exact Dev.core_onTask_ne _ _ _ _ _ hx

/-- A TLY_WAIT whose tally has not reached its threshold waits, and nothing else changes. -/
theorem tlyWait_waits {core : Fin 256} {task : Fin 8} {e : TaskEv} {word : Nat} {s : State} (he : Undisturbed e task)
    (hi : Issues 0x0C core task word s) (hv : mgetD (s.dev.core core).tallies (bits (wArgs word) 0 8) 0 < bits (wArgs word) 8 20) :
    ∃ t, exec (.tlyWait core e) s = .next t ∧ OnlyTask s t core task ∧
      (t.dev.task core task).pc = (s.dev.task core task).pc ∧ (t.dev.task core task).wait =
        some ⟨.tally (bits (wArgs word) 0 8), s.dev.tb.round, (t.dev.task core task).lastCycle, 1, s.dev.holds⟩ := by
  obtain ⟨m, hm⟩ := issueTD_of_issues he hi 0
  refine ⟨_, onUp_of_up s _ hi.1, ?_⟩
  dsimp only
  generalize ((s.dev.task core task).issueAt word).lastCycle = cycle at hm
  set d := s.dev.clocked core task m cycle true with hd
  have htal : (d.core core).tallies = (s.dev.core core).tallies := Dev.core_clocked_proj _ _ _ _ _ _ Core.tallies (fun _ _ => rfl) core
  have hk : d.task core task = { s.dev.task core task with lastCycle := cycle, issued := true } := (Dev.task_clocked _ _ _ _ _ _ _ _).trans (if_pos rfl)
  have hwait : (d.task core task).wait = none := by rw [hk]; exact hi.2.2.2.2
  rw [hm, runWord_tlyWait_short _ _ hi.2.2.2.1 (by rw [htal]; exact hv), Dev.holdWord_of_free d ⟨core, task, _⟩ _ (fun _ _ h => by cases h) hwait]
  refine ⟨(onlyTask_clocked s core task m cycle true).trans (onlyTask_waiting { s with dev := d } core task _ _), ?_, ?_⟩
  · rw [Dev.task_waiting, hk]; rfl
  · rw [Dev.task_waiting, hk]; rfl

/-- TLY_WAIT_SATISFIED tries the held word again, in a state whose clock alone has moved on, while its time has not passed (R75). -/
theorem tlyWaitSatisfied_retries {core : Fin 256} {task : Fin 8} {e : TaskEv} {word : Nat} {w : Wait} {s : State} (he : Undisturbed e task)
    (hup : s.dev.up = true) (hruns : s.dev.taskRuns core task = true) (hcur : s.dev.curWordOf core task = some word) (hop : wOpcode word = 0x0C)
    (hw : (s.dev.task core task).wait = some w) {n : Nat} (hkind : w.kind = .tally n) (htime : s.dev.tb.round ≤ w.began + w.budget) :
    ∃ m cycle issued now, exec (.tlyWaitSatisfied core e) s = .next { s with
      dev := (s.dev.clocked core task m cycle issued).runWord ⟨core, task, (s.dev.task core task).pc⟩ word evNone now } := by
  have hdue : s.dev.overdue core task word w = false := by
    unfold Dev.overdue Dev.outlasted
    rw [hkind]
    simp only [decide_eq_false (show ¬ w.began + (w.budget + 1) ≤ s.dev.tb.round by omega), Bool.and_false]
  obtain ⟨m, hm⟩ := retryD_of_may (cycle := 0) (may := isTallyWait) he hcur hw (by rw [hkind]; rfl) hruns hdue (by rw [hop]; rfl)
    (by rw [hkind]; nofun)
  exact ⟨m, _, _, _, (onUp_of_up s _ hup).trans (by rw [hm])⟩

end Sys2Proof.Machine

open Sys2Proof Sys2Proof.Machine

/-- Settles O31: each word's effect, in a state that differs from the issue's in the task's clock and a counter alone. -/
theorem talliesCountAndWait : Obligations.TalliesCountAndWait := by
  unfold Obligations.TalliesCountAndWait
  intro core task e word s he
  refine ⟨fun hi c hc => ⟨fun hs => tlyAdd_down he hi (hc ▸ hs), fun hs => tlyAdd_up he hi hc hs⟩,
    fun hi => ⟨fun hv => ?_, fun hv => tlyWait_waits he hi hv⟩, fun w hup hruns hcur hop hw hkind htime hv => ?_⟩
  · obtain ⟨m, hm⟩ := issueTD_of_issues he hi 0
    exact ⟨_, onUp_of_up s _ hi.1, ⟨rfl, rfl⟩, tlyWait_subtracts m _ _ _ _ hi.2.2.2.1 hv hm⟩
  · obtain ⟨m, cycle, issued, now, h⟩ := tlyWaitSatisfied_retries he hup hruns hcur hop hw hkind htime
    exact ⟨_, h, ⟨rfl, rfl⟩, tlyWait_subtracts m cycle issued _ now hop hv rfl⟩

end

section
/-! States that refute four statements, evaluated by the model: O25, O34, O43 and O51. -/

namespace Sys2Proof.Machine.Counter

/-! ### Common parts -/

/-- A device past local readiness, its slices READY. -/
def ready : Dev :=
  { Dev.reset with
    kindle := { Kindle.reset with powered := true, pllLocked := true, fwDone := true, fwOk := true, keysDone := true, bistDone := true, localReady := true }
    slices := [0, 1, 2, 3].map (fun k => (k, { Slice.reset with state := .ready })) }

/-- An image of compile 7 for one device, without objects. -/
def image : Image :=
  { minor := 0, compileId := 7, deviceIndex := 0, fabricSize := 1, roundLen := 20, jobFlags := 0, adaptShare := 0, endCycle := 1000, coreMask := 0, keySlot := 0
    digest := [], placements := [], bankRoles := [], routes := [], rings := [], windows := [], descs := [], peat := [], tallies := [], jobSeed := 0
    snumBase := 0, hasSeeds := false, bindings := [], sched := [], ranges := [], objects := [], pools := [], regulators := [], failover := [], classes := []
    adapters := [] }

/-- Task 0 of core 0 runs one word for job 1 in round 3, its program at byte 0 of the cistern. -/
def running (word : Nat) (k : Task) (j : Job) : Dev :=
  { ready with
    jobs := [(1, { j with state := .active })]
    cores := [(0, { Core.reset with
      maint := false
      mem := memWrite [] 0 (leBytes 8 word)
      tasks := [(0, { k with job := 1, base := 0, bound := 4096, schedAddr := 0, schedWords := 1, state := .running, progRound := 3 })] })]
    tb := { TimeBase.reset with round := 3, nextMark := 4, running := true } }

def state (d : Dev) : State := { State.reset with dev := d }

/-- A test of the device that a command leaves. -/
def leaves (c : Instr) (s : State) (p : Dev → Bool) : Bool := match exec c s with
  | .next t => p t.dev
  | _ => false

theorem leaves_next {c : Instr} {s t : State} (h : exec c s = .next t) (p : Dev → Bool) : leaves c s p = p t.dev := by
  unfold leaves
  rw [h]

/-- No detector saw anything. -/
def calm : TaskEv := .of 0

theorem undisturbed_calm : Undisturbed calm 0 := ⟨rfl, nofun⟩

/-! ### A refusal of a round length that ends the last job -/

/-- The only job waits for a round length that the root refuses; link 0 is held in IDENTIFY by a partner of a lower base (R500). -/
def refusedLength : Dev :=
  { ready with
    jobs := [(2, { Job.reset with state := .loading, img := some { image with roundLen := 30 }, loadCmd := some ⟨0, 0, 0⟩ })]
    links := [(0, { Link.reset with state := 2, merge := true, partnerId := List.replicate 32 1, partnerBase := List.replicate 32 3 })]
    fabric := { Fabric.reset with roundLenOut := true }
    tb := { TimeBase.reset with aligned := true, state := 2, baseRoot := List.replicate 32 5 } }

/-! ### An END that makes the update of a span -/

/-- Task 0 of core 0 is at its END behind the last span; the update reads a word with an uncorrectable error in a core that is being handled, so that the
slice is contained and its link 3, the parent, goes DOWN. -/
def endsSpan : Dev :=
  let d := running (1 * 2 ^ 31) { Task.reset with descs := [recOf [0, 1]], spanned := true } { Job.reset with
    adps := [(4, { AdpState.start with n := 1 })]
    img := some { image with adapters := [recOf ([4, 1, 0, 1] ++ zeros 8 ++ [1] ++ zeros 31 ++ [8])] } }
  { d with
    cores := d.cores.map (fun p => (p.1, { p.2 with bad := [(32, 1)] }))
    links := [(3, { Link.reset with state := 3 })]
    tb := { d.tb with aligned := true, state := 2, parent := 3 }
    err := { d.err with handling := some { code := 0x0401, cls := clsCore, kind := 0, unit := 0, handles := [], job := 1, core := 0, task := 0, round := 3, markAt := 4 } } }

/-! ### A link ring whose transfer stands behind an empty entry of its link -/

/-- Ring 2: four slots of 512 bytes from byte 512 on, released from link 5. -/
def linkRing : Ring := ⟨recOf ([2, 0, 0, 0, 4, 0, 2, 0, 0, 2, 0, 0, 0, 2, 0, 0, 0, 2, 4, 0, 5]), 0, 0⟩

/-- A transfer for the ring that lands in round 3 and has not come whole: compile 7, core 0, 8 bytes. -/
def halfCome : RxXfer :=
  { route := 0, path := 0, data := leBytes 8 7 ++ zeros 8 ++ leBytes 8 3 ++ leBytes 8 100 ++ leBytes 8 16 ++ leBytes 4 8 ++ zeros 12
    whole := false, at_ := 0, link := 5, fixed := true, judged := false, late := false }

/-- RELEASE of ring 2; link 5 is listed twice, and the transfer is in the second entry. -/
def twiceListed : Dev :=
  { running (0x0A * 2 ^ 31 + 2) { Task.reset with rings := [linkRing] } { Job.reset with img := some { image with routes := [recOf [2, 0, 0, 0, 5, 0xFF]] } } with
    links := [(5, Link.reset), (5, { Link.reset with state := 3, rx := [halfCome] })] }

/-! ### A command in a port's queue -/

/-- A stream command (R529) for job 1, present and stamped in round 4's window. -/
def command : CrossItem := ⟨600000, 600000, 1, 1, false, false, .submission (leBytes 1 0x10 ++ leBytes 1 1 ++ zeros 62)⟩

/-- Round 4 is to be sealed while job 1 replays it; port 0's queue holds the command. -/
def sealing : Dev :=
  { ready with
    jobs := [(1, { Job.reset with state := .active, replay := some ⟨0, 3, 1⟩ })]
    cross := [(srcKey 0 0, { CrossQ.reset with items := [command] })]
    tb := { TimeBase.reset with round := 3, nextMark := 4, running := true, winStart := 500000, baseT := 1000000, baseN := 4, epoch := 1 } }

end Sys2Proof.Machine.Counter

open Sys2Proof Sys2Proof.Machine

/-- Refutes O25: a refusal that ends the device's last job lets it join a partner of a lower time base (R500), so that its own does not stay. -/
theorem not_membershipAndRoundLengthVersions : ¬ Obligations.MembershipAndRoundLengthVersions := by
  unfold Obligations.MembershipAndRoundLengthVersions
  intro h
  obtain ⟨-, -, -, -, -, -, hrefused⟩ := h (Counter.state Counter.refusedLength) rfl rfl
  obtain ⟨t, hnext, -, -, -, htb, -⟩ := hrefused rfl
  have hleft : Counter.leaves .roundLenRefusal (Counter.state Counter.refusedLength) (fun d => !d.tb.aligned) = true := by decide +kernel
  rw [Counter.leaves_next hnext, htb] at hleft
  exact absurd hleft (by decide)

/-- Refutes O34: the update that END makes (R352) can meet an uncorrectable word whose detection contains the slice, which takes the parent link
DOWN: the time base goes to holdover. -/
theorem not_flushesAndEndsClose : ¬ Obligations.FlushesAndEndsClose := by
  unfold Obligations.FlushesAndEndsClose
  rintro ⟨-, hend⟩
  have hissues : Issues 0x01 0 0 (1 * 2 ^ 31) (Counter.state Counter.endsSpan) := by unfold Issues; decide +kernel
  obtain ⟨t, hnext, -, -, -, -, -, -, -, -, -, htb, -⟩ := hend 0 0 Counter.calm _ _ Counter.undisturbed_calm hissues (by decide +kernel)
  have hheld : Counter.leaves (.wEnd 0 Counter.calm) (Counter.state Counter.endsSpan) (fun d => d.tb.state == 3) = true := by decide +kernel
  rw [Counter.leaves_next hnext, htb] at hheld
  exact absurd hheld (by decide +kernel)

/-- Refutes O43: of a link that is listed twice the judgement reaches the first entry, so that a transfer in the second one is not found late and its
slot does not slip. -/
theorem not_releaseTicksFillSlots : ¬ Obligations.ReleaseTicksFillSlots := by
  unfold Obligations.ReleaseTicksFillSlots
  intro h
  have hissues : Issues 0x0A 0 0 (0x0A * 2 ^ 31 + 2) (Counter.state Counter.twiceListed) := by unfold Issues; decide +kernel
  obtain ⟨-, hring⟩ := h 0 0 Counter.calm _ _ _ Counter.undisturbed_calm hissues rfl
  obtain ⟨-, -, hmissed, -⟩ := hring Counter.linkRing 2 (by decide +kernel) (by decide +kernel)
  obtain ⟨t, hnext, -, -, -, htag, -⟩ := hmissed [(5, 0, Counter.halfCome)] (by decide +kernel) (by decide +kernel) (.inr ⟨5, 0, _, rfl, rfl, rfl⟩)
    (by decide +kernel) (by decide +kernel)
  have hkept : Counter.leaves (.release 0 Counter.calm) (Counter.state Counter.twiceListed)
      (fun d => !((d.core 0).tag (ringTag Counter.linkRing true)).slipped) = true := by decide +kernel
  rw [Counter.leaves_next hnext] at hkept
  have htag' : (t.dev.core 0).tag (ringTag Counter.linkRing true) = _ := htag
  rw [htag'] at hkept
  exact absurd hkept (by simp)

/-- Refutes O51: a stream command of a job whose rounds are replayed waits for their end (R30), in whatever queue it lies, so that the seal does not
assign it although it is present and stamped in the window. -/
theorem not_cutsAssignAndRecordsFeedStreams : ¬ Obligations.CutsAssignAndRecordsFeedStreams := by
  unfold Obligations.CutsAssignAndRecordsFeedStreams
  rintro ⟨hseal, -⟩
  obtain ⟨-, hcut⟩ := hseal (Counter.state Counter.sealing) rfl
  obtain ⟨t, hnext, -, -, -, -, -, hports⟩ := hcut _ _ rfl (by decide) rfl rfl
  obtain ⟨-, hassigns⟩ := hports 0 _ _ (by decide) rfl rfl
  obtain ⟨hassigned, -⟩ := hassigns rfl (.inl (by decide +kernel)) (by decide +kernel) (by decide +kernel)
  have hmem := hassigned Counter.command (by decide +kernel) (by decide +kernel) (by decide +kernel)
  have hnone : Counter.leaves .intakeSeal (Counter.state Counter.sealing) (fun d => (d.crossQ (srcKey 0 0)).assigned == []) = true := by decide +kernel
  rw [Counter.leaves_next hnext, beq_iff_eq] at hnone
  rw [hnone] at hmem
  cases hmem

end

section
/-! What an effect reads in a state whose clock has moved, and the words of adaptation spans (R346, R350 to R354), and what they settle: O46. -/

namespace Sys2Proof.Machine

/-! ### Reads in a state whose clock has moved -/

section clocked
variable (d : Dev) (c t : Nat) (m : SMap Nat) (cycle : Nat) (issued : Bool) (x y : Nat)

@[simp] theorem Dev.pc_clocked : ((d.clocked c t m cycle issued).task x y).pc = (d.task x y).pc :=
  d.task_clocked_proj c t m cycle issued Task.pc (fun _ _ _ => rfl) x y
@[simp] theorem Dev.loop_clocked : ((d.clocked c t m cycle issued).task x y).loop = (d.task x y).loop :=
  d.task_clocked_proj c t m cycle issued Task.loop (fun _ _ _ => rfl) x y
@[simp] theorem Dev.taskJob_clocked : ((d.clocked c t m cycle issued).task x y).job = (d.task x y).job :=
  d.task_clocked_proj c t m cycle issued Task.job (fun _ _ _ => rfl) x y
@[simp] theorem Dev.progRound_clocked : ((d.clocked c t m cycle issued).task x y).progRound = (d.task x y).progRound :=
  d.task_clocked_proj c t m cycle issued Task.progRound (fun _ _ _ => rfl) x y
@[simp] theorem Dev.schedWords_clocked : ((d.clocked c t m cycle issued).task x y).schedWords = (d.task x y).schedWords :=
  d.task_clocked_proj c t m cycle issued Task.schedWords (fun _ _ _ => rfl) x y
@[simp] theorem Dev.schedAddr_clocked : ((d.clocked c t m cycle issued).task x y).schedAddr = (d.task x y).schedAddr :=
  d.task_clocked_proj c t m cycle issued Task.schedAddr (fun _ _ _ => rfl) x y
@[simp] theorem Dev.base_clocked : ((d.clocked c t m cycle issued).task x y).base = (d.task x y).base :=
  d.task_clocked_proj c t m cycle issued Task.base (fun _ _ _ => rfl) x y
@[simp] theorem Dev.strict_clocked : ((d.clocked c t m cycle issued).task x y).strict = (d.task x y).strict :=
  d.task_clocked_proj c t m cycle issued Task.strict (fun _ _ _ => rfl) x y
@[simp] theorem Dev.nanTrap_clocked : ((d.clocked c t m cycle issued).task x y).nanTrap = (d.task x y).nanTrap :=
  d.task_clocked_proj c t m cycle issued Task.nanTrap (fun _ _ _ => rfl) x y
@[simp] theorem Dev.taskSpanNan_clocked : ((d.clocked c t m cycle issued).task x y).spanNan = (d.task x y).spanNan :=
  d.task_clocked_proj c t m cycle issued Task.spanNan (fun _ _ _ => rfl) x y
@[simp] theorem Dev.cands_clocked : ((d.clocked c t m cycle issued).task x y).cands = (d.task x y).cands :=
  d.task_clocked_proj c t m cycle issued Task.cands (fun _ _ _ => rfl) x y
@[simp] theorem Dev.wait_clocked : ((d.clocked c t m cycle issued).task x y).wait = (d.task x y).wait :=
  d.task_clocked_proj c t m cycle issued Task.wait (fun _ _ _ => rfl) x y
@[simp] theorem Dev.view_clocked (i : Nat) (writing : Bool) (slips : List (Nat × Bool)) :
    ((d.clocked c t m cycle issued).task x y).view i writing slips = (d.task x y).view i writing slips :=
  d.task_clocked_proj c t m cycle issued (fun k => k.view i writing slips) (fun _ _ _ => rfl) x y

@[simp] theorem Dev.mem_clocked : ((d.clocked c t m cycle issued).core x).mem = (d.core x).mem :=
  d.core_clocked_proj c t m cycle issued Core.mem (fun _ _ => rfl) x
@[simp] theorem Dev.bad_clocked : ((d.clocked c t m cycle issued).core x).bad = (d.core x).bad :=
  d.core_clocked_proj c t m cycle issued Core.bad (fun _ _ => rfl) x
@[simp] theorem Dev.readable_clocked : ((d.clocked c t m cycle issued).core x).readable = (d.core x).readable :=
  d.core_clocked_proj c t m cycle issued Core.readable (fun _ _ => rfl) x

@[simp] theorem Dev.job_clocked : (d.clocked c t m cycle issued).job x = d.job x := rfl
@[simp] theorem Dev.jobs_clocked : (d.clocked c t m cycle issued).jobs = d.jobs := rfl
@[simp] theorem Dev.stream_clocked : (d.clocked c t m cycle issued).stream x = d.stream x := rfl
@[simp] theorem Dev.streams_clocked : (d.clocked c t m cycle issued).streams = d.streams := rfl
@[simp] theorem Dev.samples_clocked : (d.clocked c t m cycle issued).samples = d.samples := rfl
@[simp] theorem Dev.targets_clocked : (d.clocked c t m cycle issued).targets = d.targets := rfl

/-- Schedule words are those that they were (R69). -/
@[simp] theorem Dev.wordAt_clocked : (d.clocked c t m cycle issued).wordAt x y = d.wordAt x y := by
  funext i
  simp [Dev.wordAt]

@[simp] theorem Dev.lastSpan_clocked (w : Who) : (d.clocked c t m cycle issued).lastSpan w = d.lastSpan w := by
  simp [Dev.lastSpan, Dev.tk]

@[simp] theorem Dev.adaptersOf_clocked : (d.clocked c t m cycle issued).adaptersOf x y = d.adaptersOf x y := by
  simp [Dev.adaptersOf]

@[simp] theorem Dev.spanNan_clocked (w : Who) : (d.clocked c t m cycle issued).spanNan w = d.spanNan w := by
  simp [Dev.spanNan, Dev.tk]

@[simp] theorem Dev.samplesFor_clocked (a : Rec) (n : Nat) : (d.clocked c t m cycle issued).samplesFor a n = d.samplesFor a n := by
  simp [Dev.samplesFor]

@[simp] theorem Dev.binding_clocked (purpose : Nat) : (d.clocked c t m cycle issued).binding x y purpose = d.binding x y purpose := by
  simp [Dev.binding]

@[simp] theorem Dev.slotStream_clocked (j slot : Nat) : (d.clocked c t m cycle issued).slotStream j slot = d.slotStream j slot := rfl

@[simp] theorem Dev.rmOf_clocked (round purpose : Nat) (sizes : Nat → Nat) (p : Pt) :
    (d.clocked c t m cycle issued).rmOf x y round purpose sizes p = d.rmOf x y round purpose sizes p := by
  simp [Dev.rmOf, Dev.draw, Dev.drawInputs]

@[simp] theorem Dev.updateHalf_clocked (w : Who) (a : Rec) (k n : Nat) (odd : Bool) :
    (d.clocked c t m cycle issued).updateHalf w a k n odd = d.updateHalf w a k n odd := by
  simp [Dev.updateHalf, Dev.tk]

end clocked

/-! ### What the end of a span changes -/

/-- `e` differs from `d` in one adapter of a task's job, in counters, and in a core's bytes and what its task has met. -/
structure Dev.Adapts (d e : Dev) (c t a : Nat) : Prop where
  rest : e = { d with cores := e.cores, jobs := e.jobs, cntNow := e.cntNow }
  core : ∀ y, y ≠ c → e.core y = d.core y
  pc : (e.task c t).pc = (d.task c t).pc
  loop : (e.task c t).loop = (d.task c t).loop
  taskJob : (e.task c t).job = (d.task c t).job
  progRound : (e.task c t).progRound = (d.task c t).progRound
  job : e.job (d.task c t).job = { d.job (d.task c t).job with adps := (e.job (d.task c t).job).adps }
  adp : ∀ b, b ≠ a → (e.job (d.task c t).job).adp b = (d.job (d.task c t).job).adp b

namespace Dev.Adapts
variable {d e f : Dev} {c t a : Nat}

theorem refl (d : Dev) (c t a : Nat) : d.Adapts d c t a := ⟨rfl, fun _ _ => rfl, rfl, rfl, rfl, rfl, rfl, fun _ _ => rfl⟩

theorem trans (h : d.Adapts e c t a) (h' : e.Adapts f c t a) : d.Adapts f c t a where
  rest := h'.rest.trans (by rw [h.rest])
  core y hy := (h'.core y hy).trans (h.core y hy)
  pc := h'.pc.trans h.pc
  loop := h'.loop.trans h.loop
  taskJob := h'.taskJob.trans h.taskJob
  progRound := h'.progRound.trans h.progRound
  job := by have h2 := h'.job; rw [h.taskJob] at h2; exact h2.trans (by rw [h.job])
  adp b hb := by have h2 := h'.adp b hb; rw [h.taskJob] at h2; exact h2.trans (h.adp b hb)

/-- The issue of the word moves a counter and its task's clock. -/
theorem clocked (d : Dev) (c t : Nat) (m : SMap Nat) (cycle a : Nat) : d.Adapts (d.clocked c t m cycle true) c t a where
  rest := rfl
  core _ hy := Dev.core_onTask_ne _ _ _ _ _ hy
  pc := Dev.pc_clocked ..
  loop := Dev.loop_clocked ..
  taskJob := Dev.taskJob_clocked ..
  progRound := Dev.progRound_clocked ..
  job := rfl
  adp _ _ := rfl

theorem sameCourse (h : d.Adapts e c t a) : d.SameCourse e c t where
  pc := h.pc
  loop := h.loop
  job := h.taskJob
  progRound := h.progRound
  gov := by rw [h.rest]
  mirror := by rw [h.rest]
  replay := by rw [h.job]
  img := by rw [h.job]
  yieldRounds := by rw [h.job]

theorem storeAll (d : Dev) (c t a : Nat) (ws : List (Nat × Bytes)) : d.Adapts (d.onCore c (fun x => x.storeAll ws)) c t a := by
  have hk : (d.onCore c (fun x => x.storeAll ws)).task c t = d.task c t := d.task_onCore (f := fun x => x.storeAll ws) (fun _ => rfl) c c t
  exact ⟨rfl, fun y hy => Dev.core_onCore_ne _ _ _ _ hy, by rw [hk], by rw [hk], by rw [hk], by rw [hk], rfl, fun _ _ => rfl⟩

theorem count (d : Dev) (c t a off lo n : Nat) : d.Adapts (d.count off lo n) c t a := by
  obtain ⟨m, h⟩ := d.count_eq off lo n
  rw [h]
  exact ⟨rfl, fun _ _ => rfl, rfl, rfl, rfl, rfl, rfl, fun _ _ => rfl⟩

theorem cands (d : Dev) (c t a : Nat) (l : List NanCand) : d.Adapts (d.onTask c t (fun k => { k with cands := k.cands ++ l })) c t a := by
  have hk := d.task_onTask c t (fun k => { k with cands := k.cands ++ l })
  exact ⟨rfl, fun y hy => Dev.core_onTask_ne _ _ _ _ _ hy, by rw [hk], by rw [hk], by rw [hk], by rw [hk], rfl, fun _ _ => rfl⟩

theorem onAdp (d : Dev) (c t a : Nat) (g : AdpState → AdpState) : d.Adapts (d.onAdp (d.task c t).job a g) c t a := by
  refine ⟨rfl, fun _ _ => rfl, rfl, rfl, rfl, rfl, ?_, fun b hb => ?_⟩
  · unfold Dev.onAdp; rw [Dev.job_onJob]
  · unfold Dev.onAdp Job.adp; rw [Dev.job_onJob, mgetD_mset_ne _ _ _ _ _ hb]

theorem clearGrads (d : Dev) (w : Who) (r : Rec) (a : Nat) : d.Adapts (d.clearGrads w r) w.core w.task a :=
  foldl_keep (d.Adapts · w.core w.task a) _ _ d (refl d _ _ _) (fun e _ _ he => he.trans (storeAll e _ _ _ _))

end Dev.Adapts

/-- An adapter's state after a change of it. -/
theorem Dev.adp_onAdp (d : Dev) (j a : Nat) (g : AdpState → AdpState) : ((d.onAdp j a g).job j).adp a = g ((d.job j).adp a) := by
  unfold Dev.onAdp Job.adp
  rw [Dev.job_onJob, mgetD_mset_self]

theorem Dev.core_onAdp (d : Dev) (j a : Nat) (g : AdpState → AdpState) (x : Nat) : (d.onAdp j a g).core x = d.core x := rfl

/-- Without bad words a read meets none. -/
theorem Core.badWords_of_clean {x : Core} (h : x.bad = []) (rs : List (Int × Int)) : x.badWords rs = [] := by
  unfold Core.badWords
  rw [h]
  rfl

theorem Dev.eccRead_nil (d : Dev) (c t w round : Nat) : d.eccRead c t w round [] = d := rfl

/-- A step that begins anew: R353's discard, an empty step, or one whose update is stored. -/
def AdpState.restart (p : AdpState) (n discard : Nat) (switchAt : Option Nat) : AdpState :=
  { p with step := 0, n := 0, seen := n + 1, discards := min 255 (p.discards + discard), switchAt := switchAt }

section step
variable (d : Dev) (w : Who) (a : Rec)

/-- Every value of both matrices is finite, as the task's trap has it judged (R353). -/
def Dev.updateHolds (tot : Nat) : Bool :=
  let hs := [0, 1].map (fun k => d.updateHalf w a k tot (((d.job (d.tk w).job).adp (adNum a)).gen % 2 = 1))
  if (d.tk w).nanTrap then hs.all (fun x => x.inner) else hs.all (fun x => x.kept)

/-- The bytes that an update stores in both matrices, and the random draws that it makes. -/
def Dev.updateWrites (tot : Nat) : List (Nat × Bytes) :=
  [0, 1].flatMap (fun k => (d.updateHalf w a k tot (((d.job (d.tk w).job).adp (adNum a)).gen % 2 = 1)).writes)

def Dev.updateDraws (tot : Nat) : Nat :=
  ([0, 1].map (fun k => (d.updateHalf w a k tot (((d.job (d.tk w).job).adp (adNum a)).gen % 2 = 1)).draws)).foldl (· + ·) 0

variable {d w a} {p : AdpState} (hp : p = (d.job (d.tk w).job).adp (adNum a)) (hseen : p.seen ≠ (d.tk w).progRound + 1)
include hp hseen

theorem Dev.adaptStep_nan (h : d.spanNan w = true) : d.adaptStep w a =
    (d.clearGrads w a).onAdp (d.tk w).job (adNum a) (fun x => x.restart (d.tk w).progRound 1 p.switchAt) := by
  subst hp
  unfold Dev.adaptStep
  rw [if_neg hseen, if_pos h]
  rfl

theorem Dev.adaptStep_count (h : d.spanNan w = false) (hs : p.step + 1 < adSteps a) : d.adaptStep w a =
    d.onAdp (d.tk w).job (adNum a) (fun x =>
      { x with step := p.step + 1, n := p.n + d.contributing a (d.tk w).progRound, seen := (d.tk w).progRound + 1 }) := by
  subst hp
  unfold Dev.adaptStep
  rw [if_neg hseen]
  dsimp only
  rw [h, if_neg (by simp), if_pos hs]

theorem Dev.adaptStep_empty (h : d.spanNan w = false) (hs : adSteps a ≤ p.step + 1) (hn : p.n + d.contributing a (d.tk w).progRound = 0) :
    d.adaptStep w a = d.onAdp (d.tk w).job (adNum a) (fun x => x.restart (d.tk w).progRound 0 p.switchAt) := by
  subst hp
  unfold Dev.adaptStep
  rw [if_neg hseen]
  dsimp only
  rw [h, if_neg (by simp), if_neg (by omega), if_pos hn]
  rfl

/-- A full step with samples: the update is stored and the copies switch, or it is discarded. -/
theorem Dev.adaptStep_update (hbad : (d.core w.core).bad = []) (h : d.spanNan w = false) (hs : adSteps a ≤ p.step + 1)
    {tot : Nat} (ht : tot = p.n + d.contributing a (d.tk w).progRound) (hn : tot ≠ 0) :
    d.adaptStep w a =
      let d0 := d.count (coreOff w.core + 0xD00) 32 (d.updateDraws w a tot)
      if d.updateHolds w a tot then
        ((d0.onCore w.core (fun x => x.storeAll (d.updateWrites w a tot))).clearGrads w a).onAdp (d.tk w).job (adNum a)
          (fun x => x.restart (d.tk w).progRound 0 (some ((d.tk w).progRound + 1)))
      else
        let d1 := (d0.clearGrads w a).onAdp (d.tk w).job (adNum a) (fun x => x.restart (d.tk w).progRound 1 p.switchAt)
        if (d.tk w).nanTrap then d1.onTask w.core w.task (fun x => { x with cands := x.cands ++ [⟨w.word, 2, 5, 0, (d.tk w).progRound⟩] }) else d1 := by
  subst hp ht
  unfold Dev.adaptStep
  rw [if_neg hseen]
  dsimp only
  rw [h, if_neg (by simp), if_neg (by omega), if_neg hn, Core.badWords_of_clean hbad, Dev.eccRead_nil]
  rfl

end step

end Sys2Proof.Machine
end

section
/-! The clauses of O46. -/

namespace Sys2Proof.Machine

/-! ### One adapter's step -/

section step
variable {d : Dev} {w : Who} {a : Rec}

theorem Dev.Adapts.thenAdp {d e : Dev} {c t a : Nat} (h : d.Adapts e c t a) (g : AdpState → AdpState) : d.Adapts (e.onAdp (d.task c t).job a g) c t a := by
  have h' := Dev.Adapts.onAdp e c t a g
  rw [h.taskJob] at h'
  exact h.trans h'

/-- Every step changes one adapter of the task's job, its core's bytes and counters alone. -/
theorem Dev.adapts_adaptStep (hbad : (d.core w.core).bad = []) : d.Adapts (d.adaptStep w a) w.core w.task (adNum a) := by
  by_cases hseen : ((d.job (d.tk w).job).adp (adNum a)).seen = (d.tk w).progRound + 1
  · unfold Dev.adaptStep
    rw [if_pos hseen]
    exact .refl _ _ _ _
  · cases hnan : d.spanNan w with
    | true =>
      rw [Dev.adaptStep_nan rfl hseen hnan]
      exact (Dev.Adapts.clearGrads d w a _).thenAdp _
    | false =>
      by_cases hs : ((d.job (d.tk w).job).adp (adNum a)).step + 1 < adSteps a
      · rw [Dev.adaptStep_count rfl hseen hnan hs]
        exact .onAdp d _ _ _ _
      · by_cases hn : ((d.job (d.tk w).job).adp (adNum a)).n + d.contributing a (d.tk w).progRound = 0
        · rw [Dev.adaptStep_empty rfl hseen hnan (by omega) hn]
          exact .onAdp d _ _ _ _
        · rw [Dev.adaptStep_update rfl hseen hbad hnan (by omega) rfl hn]
          dsimp only
          have counted := Dev.Adapts.count d w.core w.task (adNum a) (coreOff w.core + 0xD00) 32
            (d.updateDraws w a (((d.job (d.tk w).job).adp (adNum a)).n + d.contributing a (d.tk w).progRound))
          have discarded := (counted.trans (.clearGrads _ w a _)).thenAdp
            (fun x => x.restart (d.tk w).progRound 1 ((d.job (d.tk w).job).adp (adNum a)).switchAt)
          split
          · exact ((counted.trans (.storeAll _ _ _ _ _)).trans (.clearGrads _ w a _)).thenAdp _
          · split
            · exact discarded.trans (.cands _ _ _ _ _)
            · exact discarded

/-- Clearing the gradients keeps every job. -/
theorem Dev.jobs_clearGrads (d : Dev) (w : Who) (a : Rec) : (d.clearGrads w a).jobs = d.jobs :=
  foldl_proj Dev.jobs _ _ d (fun _ _ _ => rfl)

theorem Dev.job_clearGrads (d : Dev) (w : Who) (a : Rec) (j : Nat) : (d.clearGrads w a).job j = d.job j := by
  unfold Dev.job
  rw [Dev.jobs_clearGrads]

section outcomes
variable {p : AdpState} (hp : p = (d.job (d.tk w).job).adp (adNum a)) (hseen : p.seen ≠ (d.tk w).progRound + 1)
include hp hseen

theorem Dev.adp_adaptStep_nan (h : d.spanNan w = true) :
    ((d.adaptStep w a).job (d.tk w).job).adp (adNum a) = p.restart (d.tk w).progRound 1 p.switchAt := by
  rw [Dev.adaptStep_nan hp hseen h, Dev.adp_onAdp, Dev.job_clearGrads, ← hp]

theorem Dev.adaptStep_count_spec (h : d.spanNan w = false) (hs : p.step + 1 < adSteps a) :
    (d.adaptStep w a).cores = d.cores ∧ ((d.adaptStep w a).job (d.tk w).job).adp (adNum a) =
      { p with step := p.step + 1, n := p.n + d.contributing a (d.tk w).progRound, seen := (d.tk w).progRound + 1 } := by
  rw [Dev.adaptStep_count hp hseen h hs, Dev.adp_onAdp, ← hp]
  exact ⟨rfl, rfl⟩

theorem Dev.adaptStep_empty_spec (h : d.spanNan w = false) (hs : adSteps a ≤ p.step + 1) (hn : p.n + d.contributing a (d.tk w).progRound = 0) :
    (d.adaptStep w a).cores = d.cores ∧
      ((d.adaptStep w a).job (d.tk w).job).adp (adNum a) = p.restart (d.tk w).progRound 0 p.switchAt := by
  rw [Dev.adaptStep_empty hp hseen h hs hn, Dev.adp_onAdp, ← hp]
  exact ⟨rfl, rfl⟩

theorem Dev.adp_adaptStep_stored (hbad : (d.core w.core).bad = []) (h : d.spanNan w = false) (hs : adSteps a ≤ p.step + 1) {tot : Nat}
    (ht : tot = p.n + d.contributing a (d.tk w).progRound) (hn : tot ≠ 0) (hok : d.updateHolds w a tot = true) :
    ((d.adaptStep w a).job (d.tk w).job).adp (adNum a) = p.restart (d.tk w).progRound 0 (some ((d.tk w).progRound + 1)) := by
  rw [Dev.adaptStep_update hp hseen hbad h hs ht hn]
  dsimp only
  rw [if_pos hok, Dev.adp_onAdp, Dev.job_clearGrads]
  have hjob : ∀ j, ((d.count (coreOff w.core + 0xD00) 32 (d.updateDraws w a tot)).onCore w.core
      (fun x => x.storeAll (d.updateWrites w a tot))).job j = d.job j := fun j => by
    unfold Dev.job
    rw [Dev.onCore_jobs, Dev.count_jobs]
  rw [hjob, ← hp]

end outcomes

/-- An update whose values are all finite, in both matrices, holds. -/
theorem Dev.updateHolds_of_finite {tot : Nat} (h : ∀ k, k < 2 →
    (d.updateHalf w a k tot (((d.job (d.tk w).job).adp (adNum a)).gen % 2 == 1)).inner = true ∧
      (d.updateHalf w a k tot (((d.job (d.tk w).job).adp (adNum a)).gen % 2 == 1)).kept = true) : d.updateHolds w a tot = true := by
  obtain ⟨i0, k0⟩ := h 0 (by decide)
  obtain ⟨i1, k1⟩ := h 1 (by decide)
  unfold Dev.updateHolds
  split
  · simpa using ⟨i0, i1⟩
  · simpa using ⟨k0, k1⟩

/-- Equal tables read alike. -/
theorem Dev.job_of_jobs {d e : Dev} (h : e.jobs = d.jobs) (j : Nat) : e.job j = d.job j := by
  unfold Dev.job
  rw [h]

theorem Dev.mem_of_cores {d e : Dev} (h : e.cores = d.cores) (c : Nat) : (e.core c).mem = (d.core c).mem := by
  unfold Dev.core
  rw [h]

/-- With host targets every sample contributes (R350). -/
theorem Dev.contributing_of_host (d : Dev) {a : Rec} (h : adHost a = true) (n : Nat) : d.contributing a n = (d.samplesFor a n).length := by
  unfold Dev.contributing
  simp [h]

end step

/-! ### ADAPT_SPAN -/

section words
variable {d : Dev} {c t i word : Nat} (ev : EngEv) (now : Nat) (hop : wOpcode word = 0x18)
include hop

/-- ADAPT_SPAN goes to the next word but where it begins a span of a round that yields (R77). -/
theorem Dev.nextTask_adaptSpan (w : Who) (h : bit (wArgs word) 0 = false ∨ d.yields w = false) :
    d.nextTask w word = d.skipSpan w ((d.tk w).goTo ((d.tk w).pc + 1)) := by
  rcases h with h | h <;> simp [Dev.nextTask, hop, h]

theorem Dev.nextTask_adaptSpan_yields (w : Who) (hb : bit (wArgs word) 0 = true) (hy : d.yields w = true) :
    d.nextTask w word = d.skipSpan w ((d.tk w).goTo ((d.findWord w.core w.task (d.tk w).pc (fun x => wOpcode x == 0x18 && !bit (wArgs x) 0)).getD ((d.tk w).pc + 1))) := by
  simp [Dev.nextTask, hop, hb, hy]

theorem runWord_adaptSpan_yields (hy : d.yields ⟨c, t, i⟩ = true) : d.runWord ⟨c, t, i⟩ word ev now = d.wordDone ⟨c, t, i⟩ word := by
  refine Dev.runWord_done (by rw [hop]; rfl) ?_
  simp [wordEffect, hop, hy]

theorem runWord_adaptSpan_begin (hy : d.yields ⟨c, t, i⟩ = false) (hb : bit (wArgs word) 0 = true) :
    d.runWord ⟨c, t, i⟩ word ev now = (d.onTask c t (fun k => { k with adapting := true })).wordDone ⟨c, t, i⟩ word := by
  refine Dev.runWord_done (by rw [hop]; rfl) ?_
  simp [wordEffect, hop, hy, hb]

theorem runWord_adaptSpan_end (hy : d.yields ⟨c, t, i⟩ = false) (hb : bit (wArgs word) 0 = false) :
    d.runWord ⟨c, t, i⟩ word ev now = ((if d.lastSpan ⟨c, t, i⟩ then d.adaptSpanEnd ⟨c, t, i⟩ else d).onTask c t
      (fun k => { k with adapting := false, spanned := true })).wordDone ⟨c, t, i⟩ word := by
  refine Dev.runWord_done (by rw [hop]; rfl) ?_
  simp [wordEffect, hop, hy, hb]

end words

section clauses
variable {core : Fin 256} {task : Fin 8} {e : TaskEv} {word : Nat} {s : State} (he : Undisturbed e task) (hi : Issues 0x18 core task word s)
include he hi

/-- An ADAPT_SPAN goes through: its task issues it, and it runs in the state of the issue. -/
theorem adaptSpan_exec : ∃ m, exec (.adaptSpan core e) s = .next { s with
    dev := (s.dev.clocked core task m ((s.dev.task core task).issueAt word).lastCycle true).runWord ⟨core, task, (s.dev.task core task).pc⟩ word evNone 0 } := by
  obtain ⟨m, hm⟩ := issueTD_of_issues he hi 0
  exact ⟨m, (onUp_of_up s _ hi.1).trans (by rw [hm])⟩

/-- The begin of a span that runs. -/
theorem adaptSpan_begin (hb : bit (wArgs word) 0 = true) (hy : s.dev.yields ⟨core, task, (s.dev.task core task).pc⟩ = false) :
    ∃ t, exec (.adaptSpan core e) s = .next t ∧ OnlyTask s t core task ∧ Steers s.dev core task (t.dev.task core task) ((s.dev.task core task).pc + 1) ∧
      (t.dev.task core task).adapting = true := by
  obtain ⟨m, hexec⟩ := adaptSpan_exec he hi
  refine ⟨_, hexec, ?_⟩
  have hop := hi.2.2.2.1
  have htwin : storesNoTwin (wOpcode word) = true := by rw [hop]; rfl
  generalize ((s.dev.task core task).issueAt word).lastCycle = cycle
  have hclock := s.dev.sameCourse_clocked core task m cycle true
  have hy' := (hclock.yields (s.dev.task core task).pc).trans hy
  set d := s.dev.clocked core task m cycle true with hd
  dsimp only
  rw [runWord_adaptSpan_begin evNone 0 hop hy' hb]
  set d1 := d.onTask core task (fun k => { k with adapting := true }) with hd1
  have hk1 : d1.task core task = { d.task core task with adapting := true } := Dev.task_onTask _ _ _ _
  have hcourse : s.dev.SameCourse d1 core task :=
    hclock.trans (.of_jobs (by rw [hk1]) (by rw [hk1]) (by rw [hk1]) (by rw [hk1]) rfl rfl rfl)
  have hnext := d1.nextTask_adaptSpan hop ⟨core, task, (s.dev.task core task).pc⟩ (.inr ((hcourse.yields _).trans hy))
  refine ⟨?_, steers_wordDone_of_next hcourse htwin hnext, ?_⟩
  · rw [Dev.wordDone_of_no_twin _ _ _ htwin]
    exact ((onlyTask_clocked s core task m cycle true).trans (onlyTask_onTask { s with dev := d } core task _)).trans
      (onlyTask_onTask { s with dev := d1 } core task _)
  · refine (Dev.wordDone_task_proj Task.adapting (fun _ _ _ _ => rfl) d1 ⟨core, task, _⟩ word (Dev.wordDone_of_no_twin _ _ _ htwin)).trans ?_
    exact congrArg Task.adapting hk1

/-- The begin of a span of a round that yields: the sequencer goes to the word that ends the span. -/
theorem adaptSpan_begin_yields (hb : bit (wArgs word) 0 = true) (hy : s.dev.yields ⟨core, task, (s.dev.task core task).pc⟩ = true) {m : Nat}
    (hpc : (s.dev.task core task).pc < m) (hm : m < (s.dev.task core task).schedWords) (hend : wOpcode (s.dev.wordAt core task m) = 0x18)
    (hbit : bit (wArgs (s.dev.wordAt core task m)) 0 = false)
    (hfirst : ∀ j, (s.dev.task core task).pc < j → j < m →
      wOpcode (s.dev.wordAt core task j) ≠ 0x18 ∨ bit (wArgs (s.dev.wordAt core task j)) 0 = true) :
    ∃ t, exec (.adaptSpan core e) s = .next t ∧ OnlyTask s t core task ∧ (t.dev.task core task).wait = none ∧
      ((∀ l, (s.dev.task core task).loop = some l → m ≤ l.last) → s.dev.shed ⟨core, task, (s.dev.task core task).pc⟩ = false ∨
          (specSpans ((List.range (s.dev.task core task).schedWords).map (s.dev.wordAt core task))).getD m none = none →
        (t.dev.task core task).pc = m ∧ (t.dev.task core task).loop = (s.dev.task core task).loop) := by
  obtain ⟨c, hexec⟩ := adaptSpan_exec he hi
  refine ⟨_, hexec, ?_⟩
  have hop := hi.2.2.2.1
  have htwin : storesNoTwin (wOpcode word) = true := by rw [hop]; rfl
  generalize ((s.dev.task core task).issueAt word).lastCycle = cycle
  have hclock := s.dev.sameCourse_clocked core task c cycle true
  have hy' := (hclock.yields (s.dev.task core task).pc).trans hy
  set d := s.dev.clocked core task c cycle true with hd
  dsimp only
  rw [runWord_adaptSpan_yields evNone 0 hop hy', Dev.wordDone_of_no_twin _ _ _ htwin, Dev.task_onTask]
  refine ⟨(onlyTask_clocked s core task c cycle true).trans (onlyTask_onTask { s with dev := d } core task _), rfl, fun hloop hspan => ?_⟩
  have hfind : d.findWord core task (d.task core task).pc (fun x => wOpcode x == 0x18 && !bit (wArgs x) 0) = some m :=
    Dev.findWord_eq_some (by simpa [hd] using hpc) (by simpa [hd] using hm) (by simp [hd, hend, hbit]) (fun j h1 h2 => by
      rcases hfirst j (by simpa [hd] using h1) h2 with h | h
      · simp [hd, h]
      · simp [hd, h])
  have hnext : d.nextTask ⟨core, task, (s.dev.task core task).pc⟩ word =
      d.skipSpan ⟨core, task, (s.dev.task core task).pc⟩ ((d.task core task).goTo m) :=
    (d.nextTask_adaptSpan_yields hop _ hb hy').trans (by simp [Dev.tk, hfind])
  obtain ⟨hgpc, hgloop⟩ := Task.goTo_of_within (k := d.task core task) (next := m) (fun l hl => hloop l (by simpa [hd] using hl))
  have hwords : ((d.task core task).goTo m).schedWords = (s.dev.task core task).schedWords := by
    obtain ⟨p, l, h⟩ := (d.task core task).goTo_eq m
    rw [h]
    exact Dev.schedWords_clocked ..
  rw [hnext, Dev.skipSpan_stays _ _ _ (hspan.imp (fun h => (hclock.shed _).trans h) (fun h => .inl (by rw [hwords, hgpc]; simpa [hd] using h)))
    (.inr (.inr (by rw [hgpc]; simp [hd, hend, hbit])))]
  exact ⟨hgpc, hgloop.trans (Dev.loop_clocked ..)⟩

/-- The end of a span that updates no adapter. -/
theorem adaptSpan_end_idle (hb : bit (wArgs word) 0 = false) (h : s.dev.yields ⟨core, task, (s.dev.task core task).pc⟩ = true ∨
      s.dev.lastSpan ⟨core, task, (s.dev.task core task).pc⟩ = false ∨ s.dev.adaptersOf core task = []) :
    ∃ t, exec (.adaptSpan core e) s = .next t ∧ OnlyTask s t core task ∧
      Steers s.dev core task (t.dev.task core task) ((s.dev.task core task).pc + 1) := by
  obtain ⟨c, hexec⟩ := adaptSpan_exec he hi
  refine ⟨_, hexec, ?_⟩
  have hop := hi.2.2.2.1
  have htwin : storesNoTwin (wOpcode word) = true := by rw [hop]; rfl
  generalize ((s.dev.task core task).issueAt word).lastCycle = cycle
  have hclock := s.dev.sameCourse_clocked core task c cycle true
  have hy' := hclock.yields (s.dev.task core task).pc
  have honly := onlyTask_clocked s core task c cycle true
  set d := s.dev.clocked core task c cycle true with hd
  dsimp only
  cases hyield : s.dev.yields ⟨core, task, (s.dev.task core task).pc⟩ with
  | true =>
    rw [runWord_adaptSpan_yields evNone 0 hop (hy'.trans hyield)]
    refine ⟨?_, steers_wordDone_of_next hclock htwin (d.nextTask_adaptSpan hop _ (.inl hb))⟩
    rw [Dev.wordDone_of_no_twin _ _ _ htwin]
    exact honly.trans (onlyTask_onTask { s with dev := d } core task _)
  | false =>
    have hidle : (if d.lastSpan ⟨core, task, (s.dev.task core task).pc⟩ then d.adaptSpanEnd ⟨core, task, (s.dev.task core task).pc⟩ else d) = d := by
      rcases h with h | h | h
      · rw [hyield] at h; cases h
      · rw [hd, Dev.lastSpan_clocked, h]; rfl
      · rw [show d.adaptSpanEnd ⟨core, task, (s.dev.task core task).pc⟩ = d by simp [Dev.adaptSpanEnd, hd, h]]
        exact ite_self _
    rw [runWord_adaptSpan_end evNone 0 hop (hy'.trans hyield) hb, hidle]
    set d1 := d.onTask core task (fun k => { k with adapting := false, spanned := true }) with hd1
    have hk1 : d1.task core task = { d.task core task with adapting := false, spanned := true } := Dev.task_onTask _ _ _ _
    have hcourse : s.dev.SameCourse d1 core task :=
      hclock.trans (.of_jobs (by rw [hk1]) (by rw [hk1]) (by rw [hk1]) (by rw [hk1]) rfl rfl rfl)
    refine ⟨?_, steers_wordDone_of_next hcourse htwin (d1.nextTask_adaptSpan hop _ (.inl hb))⟩
    rw [Dev.wordDone_of_no_twin _ _ _ htwin]
    exact (honly.trans (onlyTask_onTask { s with dev := d } core task _)).trans (onlyTask_onTask { s with dev := d1 } core task _)

/-- The end of the last span of a task with one adapter: its step runs in the state of the issue, and the task goes on. -/
theorem adaptSpan_last {a : Rec} (hb : bit (wArgs word) 0 = false) (hy : s.dev.yields ⟨core, task, (s.dev.task core task).pc⟩ = false)
    (hlast : s.dev.lastSpan ⟨core, task, (s.dev.task core task).pc⟩ = true) (hads : s.dev.adaptersOf core task = [a])
    (hbad : (s.dev.core core).bad = []) :
    ∃ t m cycle, ∃ d1 : Dev, exec (.adaptSpan core e) s = .next t ∧
      d1 = (s.dev.clocked core task m cycle true).adaptStep ⟨core, task, (s.dev.task core task).pc⟩ a ∧ s.dev.Adapts d1 core task (adNum a) ∧
      Keeps s t ∧ (t.dev.task core task).adapting = false ∧ t.dev.jobs = d1.jobs ∧ (∀ y, y ≠ core.val → t.dev.core y = s.dev.core y) ∧
      (t.dev.core core).mem = (d1.core core).mem ∧ t.dev.streams = s.dev.streams ∧ t.dev.well = s.dev.well ∧
      Steers s.dev core task (t.dev.task core task) ((s.dev.task core task).pc + 1) := by
  obtain ⟨m, hexec⟩ := adaptSpan_exec he hi
  refine ⟨_, m, ((s.dev.task core task).issueAt word).lastCycle, _, hexec, rfl, ?_⟩
  have hop := hi.2.2.2.1
  have htwin : storesNoTwin (wOpcode word) = true := by rw [hop]; rfl
  generalize ((s.dev.task core task).issueAt word).lastCycle = cycle
  have hclock := s.dev.sameCourse_clocked core task m cycle true
  have hy' := (hclock.yields (s.dev.task core task).pc).trans hy
  have hadapts := (Dev.Adapts.clocked s.dev core task m cycle (adNum a)).trans
    (Dev.adapts_adaptStep (d := s.dev.clocked core task m cycle true) (w := ⟨core, task, (s.dev.task core task).pc⟩) (a := a) (by simpa using hbad))
  have hstep : (if (s.dev.clocked core task m cycle true).lastSpan ⟨core, task, (s.dev.task core task).pc⟩ then
        (s.dev.clocked core task m cycle true).adaptSpanEnd ⟨core, task, (s.dev.task core task).pc⟩ else s.dev.clocked core task m cycle true) =
      (s.dev.clocked core task m cycle true).adaptStep ⟨core, task, (s.dev.task core task).pc⟩ a := by
    simp [Dev.adaptSpanEnd, hlast, hads]
  dsimp only
  rw [runWord_adaptSpan_end evNone 0 hop hy' hb, hstep]
  set d1 := (s.dev.clocked core task m cycle true).adaptStep ⟨core, task, (s.dev.task core task).pc⟩ a
  set d2 := d1.onTask core task (fun k => { k with adapting := false, spanned := true }) with hd2
  have hk2 : d2.task core task = { d1.task core task with adapting := false, spanned := true } := Dev.task_onTask _ _ _ _
  have hcourse : s.dev.SameCourse d2 core task :=
    hadapts.sameCourse.trans (.of_jobs (by rw [hk2]) (by rw [hk2]) (by rw [hk2]) (by rw [hk2]) rfl rfl rfl)
  refine ⟨hadapts, ⟨rfl, rfl⟩, ?_, ?_, ?_, ?_, ?_, ?_, steers_wordDone_of_next hcourse htwin (d2.nextTask_adaptSpan hop _ (.inl hb))⟩
  · refine (Dev.wordDone_task_proj Task.adapting (fun _ _ _ _ => rfl) d2 ⟨core, task, _⟩ word (Dev.wordDone_of_no_twin _ _ _ htwin)).trans ?_
    rw [hk2]
  all_goals rw [Dev.wordDone_of_no_twin _ _ _ htwin]
  · rfl
  · intro y hy
    rw [Dev.core_onTask_ne _ _ _ _ _ hy, hd2, Dev.core_onTask_ne _ _ _ _ _ hy]
    exact hadapts.core y hy
  · simp [hd2]
  · show d1.streams = _
    rw [hadapts.rest]
  · show d1.well = _
    rw [hadapts.rest]

end clauses

end Sys2Proof.Machine

open Sys2Proof Sys2Proof.Machine

/-- Settles O46: each case of ADAPT_SPAN by its own lemma; the end of the last span by the cases of one adapter's step. -/
theorem adaptationSpansCountSamples : Obligations.AdaptationSpansCountSamples := by
  unfold Obligations.AdaptationSpansCountSamples
  intro core task e word k w s he hi hk hw
  subst hw hk
  refine ⟨adaptSpan_begin he hi, fun hb hy m => adaptSpan_begin_yields he hi hb hy, adaptSpan_end_idle he hi, ?_⟩
  intro a p n hb hy hlast hads hhost hbad hp hseen hn
  obtain ⟨t, m, cycle, _, hexec, rfl, hadapts, hkeeps, hadapting, hjobs, hcores, hmem, hstreams, hwell, hsteers⟩ :=
    adaptSpan_last he hi hb hy hlast hads hbad
  have hjob := Dev.job_of_jobs hjobs
  refine ⟨t, hexec, hkeeps, hsteers, hadapting, by rw [hjob]; exact hadapts.job, hstreams, hwell, hcores,
    fun b hne => by rw [hjob]; exact hadapts.adp b hne, ?_⟩
  rw [hjob, hmem, hn]
  set w : Who := ⟨core, task, (s.dev.task core task).pc⟩ with hw
  set d := s.dev.clocked core task m cycle true with hd
  have hround : (d.tk w).progRound = (s.dev.task core task).progRound := Dev.progRound_clocked ..
  have hjobOf : (d.tk w).job = (s.dev.task core task).job := Dev.taskJob_clocked ..
  have hp' : p = (d.job (d.tk w).job).adp (adNum a) := by rw [hjobOf]; exact hp
  have hseen' : p.seen ≠ (d.tk w).progRound + 1 := by rw [hround]; exact hseen
  have hcount : d.contributing a (d.tk w).progRound = (s.dev.samplesFor a (s.dev.task core task).progRound).length := by
    rw [Dev.contributing_of_host _ hhost, hround, hd, Dev.samplesFor_clocked]
  rw [← hcount, ← hjobOf, ← hround]
  have hnan : d.spanNan w = s.dev.spanNan w := Dev.spanNan_clocked ..
  rw [← hnan]
  refine ⟨Dev.adp_adaptStep_nan hp' hseen', fun h hs => ?_, fun h hs h0 => ?_, fun h hs h0 hfinite => ?_⟩
  · obtain ⟨hc, hadp⟩ := Dev.adaptStep_count_spec hp' hseen' h hs
    exact ⟨(Dev.mem_of_cores hc core).trans (Dev.mem_clocked ..), hadp⟩
  · obtain ⟨hc, hadp⟩ := Dev.adaptStep_empty_spec hp' hseen' h hs h0
    exact ⟨(Dev.mem_of_cores hc core).trans (Dev.mem_clocked ..), hadp⟩
  · refine Dev.adp_adaptStep_stored hp' hseen' (by simpa [hd, hw] using hbad) h hs rfl (by omega) (Dev.updateHolds_of_finite fun k hk => ?_)
    rw [hd, Dev.updateHalf_clocked, ← hd, ← hp']
    exact hfinite k hk
end

section
/-! Result records at their rings (R332, R534, R535, R527), and what they settle: O45. -/

namespace Sys2Proof.Machine

/-! ### Entries of host rings -/

/-- Equal tables read alike. -/
theorem Dev.ring_of_rings {d e : Dev} (h : e.rings = d.rings) (k : Nat) : e.ring k = d.ring k := by
  unfold Dev.ring
  rw [h]

/-- The interrupt of a ring leaves its indexes and what waits for it, and takes back nothing that has left for the host. -/
theorem Dev.ringIrq_keeps (d : Dev) (kind n : Nat) : ∃ vs, (d.ringIrq kind n).out = d.out ++ vs ∧
    ((d.ringIrq kind n).ring (ringKey kind n)).devIdx = (d.ring (ringKey kind n)).devIdx ∧
    ((d.ringIrq kind n).ring (ringKey kind n)).backlog = (d.ring (ringKey kind n)).backlog := by
  unfold Dev.ringIrq
  dsimp only
  split
  · exact ⟨[], by simp, rfl, rfl⟩
  · split
    · exact ⟨[], by simp [Dev.onRing], by simp, by simp⟩
    · obtain ⟨vs, m, h⟩ := Dev.vector_eq (d.onRing (ringKey kind n) (fun r =>
        { r with lastIrq := d.tb.now, holding := decide (0 < d.regF (ringOff kind n + 8) 56 8) })) (d.regF (ringOff kind n + 8) 48 6)
      refine ⟨vs, by rw [h]; rfl, ?_, ?_⟩
      all_goals rw [Dev.ring_of_rings (Dev.vector_rings _ _), Dev.ring_onRing]

/-- An entry goes out whole at DEVIDX with the ring's PHASE, and DEVIDX moves on (R527). -/
theorem Dev.writeEntry_posts (d : Dev) (kind n : Nat) (bs : Bytes) :
    HostOut.entry kind n (d.ring (ringKey kind n)).devIdx (withPhase bs (phaseAt kind) (d.phase kind n (d.ring (ringKey kind n)).devIdx)) ∈
      (d.writeEntry kind n bs).out.drop d.out.length ∧
    ((d.writeEntry kind n bs).ring (ringKey kind n)).devIdx = ((d.ring (ringKey kind n)).devIdx + 1) % 2 ^ 32 ∧
    ((d.writeEntry kind n bs).ring (ringKey kind n)).backlog = (d.ring (ringKey kind n)).backlog := by
  unfold Dev.writeEntry
  dsimp only
  obtain ⟨vs, hout, hidx, hback⟩ := Dev.ringIrq_keeps ((d.emit (.entry kind n (d.ring (ringKey kind n)).devIdx
    (withPhase bs (phaseAt kind) (d.phase kind n (d.ring (ringKey kind n)).devIdx)))).onRing (ringKey kind n)
      (fun r => { r with devIdx := ((d.ring (ringKey kind n)).devIdx + 1) % 2 ^ 32 })) kind n
  rw [hout, hidx, hback, Dev.ring_onRing]
  refine ⟨?_, rfl, rfl⟩
  simp [Dev.onRing, Dev.emit]

/-- With nothing waiting and room, an entry is written at once (R535). -/
theorem Dev.post_of_room {d : Dev} {kind n : Nat} (bs : Bytes) (hb : (d.ring (ringKey kind n)).backlog = []) (hr : d.ringRoom kind n = true) :
    d.post kind n bs = (d.writeEntry kind n bs, true) := by
  unfold Dev.post
  simp [hb, hr]

/-! ### The record of an item -/

/-- What the records of a RESULT change: what the host sees, the streams, the provisional records, the samples, and the log. -/
def Dev.Posted (d e : Dev) : Prop := e = { d with
  well := e.well, log := e.log, rings := e.rings, out := e.out, err := e.err, msix := e.msix, streams := e.streams, provs := e.provs, samples := e.samples }

namespace Dev.Posted

theorem refl (d : Dev) : d.Posted d := rfl

theorem trans {d e f : Dev} (h : d.Posted e) (h' : e.Posted f) : d.Posted f := Eq.trans h' (by rw [h])

theorem ite {p : Prop} [Decidable p] {d e f : Dev} (he : d.Posted e) (hf : d.Posted f) : d.Posted (if p then e else f) := by
  split <;> assumption

theorem foldl {α : Type} (f : Dev → α → Dev) (l : List α) (d : Dev) (h : ∀ (e : Dev) a, e.Posted (f e a)) : d.Posted (l.foldl f d) :=
  foldl_keep (d.Posted ·) f l d (refl d) (fun e a _ he => he.trans (h e a))

theorem raise (d : Dev) (e : Err) : d.Posted (d.raise e) := by
  obtain ⟨b, o, m, h⟩ := d.raise_cases e
  rw [h]
  rfl

theorem post (d : Dev) (kind n : Nat) (bs : Bytes) : d.Posted (d.post kind n bs).1 := by
  obtain ⟨r, o, m, ok, h⟩ := d.post_cases kind n bs
  rw [h]
  rfl

theorem supersede (d : Dev) (p : Prov) (code : Nat) : d.Posted (d.supersede p code) := by
  unfold Dev.supersede
  obtain ⟨w, l, r, o, b, m, h⟩ := Dev.finish_cases { d with provs := d.provs.filter (· != p) }
    { job := p.job, status := stSuperseded, kind := 4, handle := p.handle, code := code, item := p.index, ref := p.first }
  rw [h]
  rfl

theorem onStream (d : Dev) (h : Nat) (f : Stream → Stream) : d.Posted (d.onStream h f) := rfl

theorem postRecord (d : Dev) (w : Who) (n : Nat) (prov : Bool) (h payload : Bytes) (now : Nat) : d.Posted (d.postRecord w n prov h payload now) := by
  unfold Dev.postRecord
  dsimp only
  split
  next => exact refl d
  next i hi =>
    have written : ∀ (k : Nat) (f : Stream → Stream), d.Posted (Dev.onStream
        ((resultEntries (d.entrySize n) h payload prov now).foldl (fun x e => (x.post 3 n e).1) d) k f) := fun k f =>
      (foldl _ _ d (fun x e => post x 3 n e)).trans (onStream _ k f)
    refine ite (refl d) (ite ((onStream d _ _).trans (raise _ _)) (ite ((written _ _).trans rfl) ?_))
    have superseded : ∀ (ps : List Prov) (k : Nat) (f : Stream → Stream), d.Posted (ps.foldl (fun x p => x.supersede p 0) (Dev.onStream
        ((resultEntries (d.entrySize n) h payload prov now).foldl (fun x e => (x.post 3 n e).1) d) k f)) := fun ps k f =>
      (written k f).trans (foldl _ ps _ (fun x p => supersede x p 0))
    exact ite (superseded _ _ _) ((superseded _ _ _).trans rfl)

/-- A task, the course of a task and every core stay. -/
theorem cores {d e : Dev} (h : d.Posted e) : e.cores = d.cores := by rw [h]

theorem core {d e : Dev} (h : d.Posted e) (c : Nat) : e.core c = d.core c := by rw [h]; rfl

theorem sameCourse {d e : Dev} (h : d.Posted e) (c t : Nat) : d.SameCourse e c t := by
  have hk : e.task c t = d.task c t := by rw [h]; rfl
  exact .of_jobs (by rw [hk]) (by rw [hk]) (by rw [hk]) (by rw [hk]) (by rw [h]) (by rw [h]) (by rw [h])

end Dev.Posted

section record
variable {d : Dev} {w : Who} {n : Nat} {h payload : Bytes} {now : Nat} {i : Item}
  (hi : d.recordItem (d.tk w).progRound (rrHandle h) (rrUnit h) (rrFirst h) = some i)
include hi

/-- The record of an item that failed or met a detection posts nothing (R332). -/
theorem Dev.postRecord_of_failed (prov : Bool) (hf : i.detected ≠ 0 ∨ i.failed ≠ 0) : d.postRecord w n prov h payload now = d := by
  unfold Dev.postRecord
  simp only [hi]
  rw [if_pos (by rcases hf with hf | hf <;> simp [hf])]

end record

/-- A payload that fits one entry makes one (R534). -/
theorem resultEntries_one {size : Nat} {h payload : Bytes} (prov : Bool) (now : Nat) (hfit : payload.length ≤ size - 32) :
    resultEntries size h payload prov now = [resultEntry size h payload prov false false now] := by
  have hps : (if payload.isEmpty then [[]] else chunks (size - 32) payload) = [payload] := by
    cases payload with
    | nil => rfl
    | cons b bs =>
      have hone : chunks (size - 32) (b :: bs) = [b :: bs] := by
        have htail : ∀ f, chunksAux (size - 32) f [] = [] := fun f => by cases f <;> rfl
        show (b :: bs).take (size - 32) :: chunksAux (size - 32) bs.length ((b :: bs).drop (size - 32)) = _
        rw [List.take_of_length_le hfit, List.drop_of_length_le hfit, htail]
      simpa using hone
  unfold resultEntries
  rw [hps]
  rfl

/-- The entry size that REC_64 states (R525). -/
theorem Dev.entrySize_of_range {d : Dev} {n : Nat} (h1 : 1 ≤ d.regF (ringOff 3 n + 8) 16 8) (h2 : d.regF (ringOff 3 n + 8) 16 8 ≤ 64) :
    d.entrySize n = 64 * d.regF (ringOff 3 n + 8) 16 8 := by
  unfold Dev.entrySize
  simp [inR, h1, h2]

/-- A record of one entry, of an item in order, is written at once where nothing waits and its ring has room. -/
theorem Dev.postRecord_of_room {d : Dev} {w : Who} {n : Nat} {h payload : Bytes} {now : Nat} {i : Item}
    (hi : d.recordItem (d.tk w).progRound (rrHandle h) (rrUnit h) (rrFirst h) = some i) (hjob : (d.stream (rrHandle h)).job = (d.tk w).job)
    (hd : i.detected = 0) (hf : i.failed = 0) (hr : i.replayed = false) (hfit : payload.length ≤ d.entrySize n - 32)
    (hback : (d.ring (ringKey 3 n)).backlog = []) (hroom : d.ringRoom 3 n = true) (hprov : ∀ p ∈ d.provs, p.handle ≠ rrHandle h) :
    ∃ st sm, d.postRecord w n false h payload now =
      { d.writeEntry 3 n (resultEntry (d.entrySize n) h payload false false false now) with streams := st, samples := sm } := by
  have hes := resultEntries_one (size := d.entrySize n) (h := h) false now hfit
  have hresult : d.resultRoom n 1 (d.entrySize n) = true := by
    unfold Dev.ringRoom at hroom
    unfold Dev.resultRoom
    simp only [Bool.and_eq_true, decide_eq_true_eq] at hroom
    simp only [hback, List.isEmpty_nil, Bool.true_and, Bool.or_eq_true, decide_eq_true_eq]
    omega
  have hnone : ∀ q : Prov → Bool, (d.provs.filter (fun p => p.handle == rrHandle h && q p)) = [] := fun q => by
    rw [List.filter_eq_nil_iff]
    intro p hp
    simp [hprov p hp]
  obtain ⟨r, o, m, hw⟩ := d.writeEntry_cases 3 n (resultEntry (d.entrySize n) h payload false false false now)
  unfold Dev.postRecord
  simp only [hi]
  rw [if_neg (by simp [hjob, hd, hf, hr])]
  simp only [hes, List.length_singleton, hresult, Bool.not_true, Bool.false_eq_true, if_false, List.foldl_cons, List.foldl_nil,
    Dev.post_of_room _ hback hroom, hw, Dev.onStream, Bool.and_assoc, hnone]
  split <;> exact ⟨_, _, rfl⟩

/-! ### RESULT -/

/-- What a RESULT does with the records of its slot (R534). -/
def Dev.postSlot (d : Dev) (w : Who) (ring : Nat) (prov : Bool) (now : Nat) (bs : Bytes) : Dev :=
  match d.resultRing w.core w.task ring prov with
  | some n => (slotRecords bs.length bs).foldl (fun (d : Dev) (x : Bytes × Bytes) => d.postRecord w n prov x.1 x.2 now) d
  | none => d.raise { code := 0x0A06, kind := 0, task := w.task, unit := w.core, round := some (d.tk w).progRound }

theorem Dev.Posted.postSlot (d : Dev) (w : Who) (ring : Nat) (prov : Bool) (now : Nat) (bs : Bytes) : d.Posted (d.postSlot w ring prov now bs) := by
  unfold Dev.postSlot
  split
  · exact .foldl _ _ d (fun x r => .postRecord x w _ prov r.1 r.2 now)
  · exact .raise d _

/-- A RESULT that no result ring names is reported (R534). -/
theorem Dev.postSlot_of_unbound {d : Dev} {w : Who} {ring : Nat} {prov : Bool} {now : Nat} {bs : Bytes}
    (h : d.resultRing w.core w.task ring prov = none) : d.postSlot w ring prov now bs =
      d.raise { code := 0x0A06, kind := 0, task := w.task, unit := w.core, round := some (d.tk w).progRound } := by
  unfold Dev.postSlot
  rw [h]

/-- A slot of one record posts that. -/
theorem Dev.postSlot_of_one {d : Dev} {w : Who} {ring n : Nat} {prov : Bool} {now : Nat} {bs : Bytes} {r : Bytes × Bytes}
    (h : d.resultRing w.core w.task ring prov = some n) (hr : slotRecords bs.length bs = [r]) :
    d.postSlot w ring prov now bs = d.postRecord w n prov r.1 r.2 now := by
  unfold Dev.postSlot
  rw [h, hr]
  rfl

/-- The bytes of the slot that a task reads next. -/
def Dev.slotBytes (d : Dev) (w : Who) (x : Ring) : Bytes :=
  memRead (d.core w.core).readable ((d.tk w).base + srBase x.decl + x.get * srBytes x.decl) (srBytes x.decl)

/-- The uncorrectable words in it. -/
def Dev.slotBad (d : Dev) (w : Who) (x : Ring) : List Nat :=
  (d.core w.core).badWords [(((d.tk w).base + srBase x.decl + x.get * srBytes x.decl : Nat),
    ((d.tk w).base + srBase x.decl + x.get * srBytes x.decl + srBytes x.decl : Nat))]

/-- The state after the reads of a RESULT: TIME has moved on, and what the bad words of its slot mean is noted. -/
def Dev.resultRead (d : Dev) (w : Who) (x : Ring) (now : Nat) : Dev :=
  (d.at_ now).eccRead w.core w.task w.word (d.tk w).progRound (d.slotBad w x)

theorem Dev.Aside.resultRead (d : Dev) (w : Who) (x : Ring) (now : Nat) : (d.at_ now).Aside (d.resultRead w x now) := .eccReadFor _ _ _ _ _ _

/-- A RESULT whose slot is full posts its records and empties the slot. -/
theorem resultW_of_full {d : Dev} {w : Who} {ring : Nat} {x : Ring} (prov : Bool) (now : Nat) (hx : (d.tk w).ring? ring = some x)
    (hfull : d.ringFails w.core w.task (ring, false) = false) :
    resultW d w ring prov now =
      .done (((d.resultRead w x now).postSlot w ring prov now (d.slotBytes w x)).ringMove w.core w.task [] (ring, false)) := by
  have hround : ((d.resultRead w x now).tk w).progRound = (d.tk w).progRound := ((Dev.Aside.resultRead d w x now).sameCourse _ _).progRound
  unfold resultW Dev.postSlot
  rw [hround]
  dsimp only
  rw [hx, hfull]
  rfl

section move
variable {d : Dev} {c t ring : Nat} {x : Ring} (hx : (d.task c t).ring? ring = some x)
include hx

/-- The slot of a ring that a task has read is empty, and the task's ring moves on (R375). -/
theorem Dev.ringMove_of_ring : d.ringMove c t [] (ring, false) =
    (d.onCore c (fun y => y.onTag (ringTag x false) (fun g => { g with full := false, wait := false }))).onTask c t (fun k =>
      { k with rings := k.rings.map (fun z => if srRing z.decl = ring then { z with get := (z.get + 1) % max 1 (srSlots z.decl) } else z) }) := by
  unfold Dev.ringMove
  rw [hx]
  rfl

theorem Dev.task_ringMove : (d.ringMove c t [] (ring, false)).task c t = { d.task c t with
    rings := (d.task c t).rings.map (fun z => if srRing z.decl = ring then { z with get := (z.get + 1) % max 1 (srSlots z.decl) } else z) } := by
  rw [Dev.ringMove_of_ring hx, Dev.task_onTask,
    Dev.task_onCore (f := fun y => y.onTag (ringTag x false) (fun g => { g with full := false, wait := false })) (fun _ => rfl)]

theorem Dev.ring?_ringMove : ((d.ringMove c t [] (ring, false)).task c t).ring? ring = some { x with get := (x.get + 1) % max 1 (srSlots x.decl) } := by
  have hdecl : srRing x.decl = ring := by simpa using List.find?_some hx
  rw [Dev.task_ringMove hx]
  unfold Task.ring? at hx ⊢
  dsimp only
  rw [List.find?_map]
  have hsame : ((fun z : Ring => srRing z.decl == ring) ∘ fun z : Ring =>
      if srRing z.decl = ring then { z with get := (z.get + 1) % max 1 (srSlots z.decl) } else z) = fun z => srRing z.decl == ring := by
    funext z
    by_cases h : srRing z.decl = ring <;> simp [h]
  rw [hsame, hx]
  simp [hdecl]

theorem Dev.sameCourse_ringMove : d.SameCourse (d.ringMove c t [] (ring, false)) c t := by
  have hk := Dev.task_ringMove hx
  refine .of_jobs (by rw [hk]) (by rw [hk]) (by rw [hk]) (by rw [hk]) ?_ ?_ ?_ <;> rw [Dev.ringMove_of_ring hx] <;> rfl

theorem Dev.mem_ringMove (y : Nat) : ((d.ringMove c t [] (ring, false)).core y).mem = (d.core y).mem := by
  rw [Dev.ringMove_of_ring hx, Dev.mem_onTask]
  by_cases h : y = c
  · subst h; rw [Dev.core_onCore]; rfl
  · rw [Dev.core_onCore_ne _ _ _ _ h]

theorem Dev.tag_ringMove : ((d.ringMove c t [] (ring, false)).core c).tag (ringTag x false) =
    ⟨false, false, ((d.core c).tag (ringTag x false)).slipped⟩ := by
  rw [Dev.ringMove_of_ring hx, Dev.tag_onTask, Dev.core_onCore]
  unfold Core.onTag
  simp [Core.tag]

end move

@[simp] theorem Dev.ringFails_clocked (d : Dev) (c t : Nat) (m : SMap Nat) (cycle : Nat) (issued : Bool) (y k : Nat) (u : Nat × Bool) :
    (d.clocked c t m cycle issued).ringFails y k u = d.ringFails y k u := by
  unfold Dev.ringFails
  rw [Dev.task_clocked_proj _ _ _ _ _ _ (fun z => z.ring? u.1) (fun _ _ _ => rfl),
    Dev.core_clocked_proj _ _ _ _ _ _ (fun z => z.tag) (fun _ _ => rfl)]

section clauses
variable {core : Fin 256} {task : Fin 8} {e : TaskEv} {word ring : Nat} {x : Ring} {s : State} (he : Undisturbed e task)
  (hi : Issues 0x16 core task word s) (hx : (s.dev.task core task).ring? ring = some x) (hring : ring = bits (wArgs word) 0 8)
  (hfull : s.dev.ringFails core task (ring, false) = false) (now : Nat)
include he hi hx hring hfull

/-- A RESULT of a full slot goes through. -/
theorem result_exec : ∃ m, ∃ d d1 : Dev, d = s.dev.clocked core task m ((s.dev.task core task).issueAt word).lastCycle true ∧
    d1 = (d.resultRead ⟨core, task, (s.dev.task core task).pc⟩ x now).postSlot ⟨core, task, (s.dev.task core task).pc⟩ ring (bit (wArgs word) 8) now
      (d.slotBytes ⟨core, task, (s.dev.task core task).pc⟩ x) ∧
    exec (.result core e now) s = .next { s with dev := (d1.ringMove core task [] (ring, false)).wordDone ⟨core, task, (s.dev.task core task).pc⟩ word } := by
  obtain ⟨m, hm⟩ := issueTD_of_issues he hi now
  refine ⟨m, _, _, rfl, rfl, (onUp_of_up s _ hi.1).trans ?_⟩
  have hop := hi.2.2.2.1
  rw [hm, Dev.runWord_done (by rw [hop]; rfl)]
  have heffect : ∀ d : Dev, wordEffect d ⟨core, task, (s.dev.task core task).pc⟩ word evNone now =
      resultW d ⟨core, task, (s.dev.task core task).pc⟩ ring (bit (wArgs word) 8) now := fun d => by simp [wordEffect, hop, hring]
  rw [heffect]
  refine resultW_of_full _ _ ?_ ?_
  · exact (Dev.task_clocked_proj _ _ _ _ _ _ (fun k => k.ring? ring) (fun _ _ _ => rfl) _ _).trans hx
  · exact (Dev.ringFails_clocked ..).trans hfull

omit he hi hring hfull in
/-- The word that a task reads next in its ring stands there in the state of the posting too. -/
theorem result_posted {d d1 : Dev} (hd : ∃ m cycle, d = s.dev.clocked core task m cycle true)
    (hd1 : d1 = (d.resultRead ⟨core, task, (s.dev.task core task).pc⟩ x now).postSlot ⟨core, task, (s.dev.task core task).pc⟩ ring (bit (wArgs word) 8) now
      (d.slotBytes ⟨core, task, (s.dev.task core task).pc⟩ x)) :
    (d1.task core task).ring? ring = some x ∧ s.dev.SameCourse d1 core task ∧ ∀ y, (d1.core y).mem = (s.dev.core y).mem := by
  obtain ⟨m, cycle, rfl⟩ := hd
  have hread := Dev.Aside.resultRead (s.dev.clocked core task m cycle true) ⟨core, task, (s.dev.task core task).pc⟩ x now
  have hpost := Dev.Posted.postSlot ((s.dev.clocked core task m cycle true).resultRead ⟨core, task, (s.dev.task core task).pc⟩ x now)
    ⟨core, task, (s.dev.task core task).pc⟩ ring (bit (wArgs word) 8) now
    ((s.dev.clocked core task m cycle true).slotBytes ⟨core, task, (s.dev.task core task).pc⟩ x)
  rw [← hd1] at hpost
  have hat : (s.dev.clocked core task m cycle true).SameCourse ((s.dev.clocked core task m cycle true).at_ now) core task :=
    .of_jobs rfl rfl rfl rfl rfl rfl rfl
  refine ⟨?_, ?_, fun y => ?_⟩
  · rw [show d1.task core task = Dev.task _ core task from congrArg (Core.task · task) (hpost.core core), hread.task core task]
    exact (Dev.task_clocked_proj _ _ _ _ _ _ (fun k => k.ring? ring) (fun _ _ _ => rfl) _ _).trans hx
  · exact (((s.dev.sameCourse_clocked core task m cycle true).trans hat).trans
      (hread.sameCourse core task)).trans (hpost.sameCourse core task)
  · rw [hpost.core, hread.mem]
    exact Dev.mem_clocked ..

omit he hx hring hfull in
/-- Whatever its records are, a RESULT empties its slot, goes on, and changes no byte of a cistern. -/
theorem result_frame {d1 : Dev} (hring' : (d1.task core task).ring? ring = some x) (hcourse : s.dev.SameCourse d1 core task)
    (hmem : ∀ y, (d1.core y).mem = (s.dev.core y).mem) {t : State}
    (ht : t = { s with dev := (d1.ringMove core task [] (ring, false)).wordDone ⟨core, task, (s.dev.task core task).pc⟩ word }) :
    Keeps s t ∧ Steers s.dev core task (t.dev.task core task) ((s.dev.task core task).pc + 1) ∧
      (t.dev.task core task).ring? ring = some { x with get := (x.get + 1) % max 1 (srSlots x.decl) } ∧
      (t.dev.core core).tag (ringTag x false) = ⟨false, false, ((d1.core core).tag (ringTag x false)).slipped⟩ ∧
      (∀ y, (t.dev.core y).mem = (s.dev.core y).mem) ∧ t.dev = { d1 with cores := t.dev.cores } := by
  have hop := hi.2.2.2.1
  have htwin : storesNoTwin (wOpcode word) = true := by rw [hop]; rfl
  have hdone := Dev.wordDone_of_no_twin (d1.ringMove core task [] (ring, false)) ⟨core, task, (s.dev.task core task).pc⟩ word htwin
  subst ht
  refine ⟨⟨rfl, rfl⟩, steers_wordDone (hcourse.trans (Dev.sameCourse_ringMove hring')) _ word htwin (by rw [hop]; rfl), ?_, ?_, fun y => ?_, ?_⟩
  · exact (Dev.wordDone_task_proj (fun k => k.ring? ring) (fun _ _ _ _ => rfl) _ ⟨core, task, _⟩ word hdone).trans (Dev.ring?_ringMove hring')
  · dsimp only
    rw [hdone, Dev.tag_onTask, Dev.tag_ringMove hring']
  · dsimp only
    rw [hdone, Dev.mem_onTask, Dev.mem_ringMove hring', hmem]
  · dsimp only
    rw [hdone, Dev.ringMove_of_ring hring']
    rfl

/-- A RESULT of a slot without bad words posts it in the state of the issue, and changes nothing else outside its core. -/
theorem result_clean (hbad : (s.dev.core core).bad = []) :
    ∃ t, ∃ m cycle, ∃ d0 d1 : Dev, exec (.result core e now) s = .next t ∧ d0 = (s.dev.clocked core task m cycle true).at_ now ∧
      d1 = d0.postSlot ⟨core, task, (s.dev.task core task).pc⟩ ring (bit (wArgs word) 8) now
        (memRead (s.dev.core core).readable ((s.dev.task core task).base + srBase x.decl + x.get * srBytes x.decl) (srBytes x.decl)) ∧
      t.dev = { d1 with cores := t.dev.cores } ∧ Keeps s t ∧ Steers s.dev core task (t.dev.task core task) ((s.dev.task core task).pc + 1) ∧
      (t.dev.task core task).ring? ring = some { x with get := (x.get + 1) % max 1 (srSlots x.decl) } ∧
      (t.dev.core core).tag (ringTag x false) = ⟨false, false, ((s.dev.core core).tag (ringTag x false)).slipped⟩ ∧
      (∀ y, (t.dev.core y).mem = (s.dev.core y).mem) := by
  obtain ⟨m, _, _, rfl, rfl, hexec⟩ := result_exec he hi hx hring hfull now
  obtain ⟨hring', hcourse, hmem⟩ := result_posted (ring := ring) (word := word) hx now ⟨m, _, rfl⟩ rfl
  obtain ⟨hkeeps, hsteers, hget, htag, hbytes, hrest⟩ := result_frame hi hring' hcourse hmem rfl
  have hread : ∀ d : Dev, (d.core core).bad = [] → d.resultRead ⟨core, task, (s.dev.task core task).pc⟩ x now = d.at_ now := fun d h => by
    unfold Dev.resultRead Dev.slotBad
    rw [Core.badWords_of_clean h, Dev.eccRead_nil]
  have hslot : (s.dev.clocked core task m ((s.dev.task core task).issueAt word).lastCycle true).slotBytes ⟨core, task, (s.dev.task core task).pc⟩ x =
      memRead (s.dev.core core).readable ((s.dev.task core task).base + srBase x.decl + x.get * srBytes x.decl) (srBytes x.decl) := by
    simp [Dev.slotBytes, Dev.tk]
  rw [hread _ ((Dev.bad_clocked ..).trans hbad), hslot] at hexec hkeeps hsteers hget htag hbytes hrest
  refine ⟨_, m, _, _, _, hexec, rfl, rfl, hrest, hkeeps, hsteers, hget, ?_, hbytes⟩
  rw [htag, (Dev.Posted.postSlot _ _ _ _ _ _).core]
  exact congrArg (fun g : Nat → Tag => (⟨false, false, (g (ringTag x false)).slipped⟩ : Tag))
    (Dev.core_clocked_proj _ _ _ _ _ _ Core.tag (fun _ _ => rfl) core)

end clauses

/-- A length that a read of memory has. -/
theorem length_memRead (m : SMap Byte) (a n : Nat) : (memRead m a n).length = n := by
  have h : ∀ n a m, (memFill a n m).length = n := by
    intro n
    induction n with
    | zero => intro a m; rfl
    | succ n ih =>
      intro a m
      unfold memFill
      split <;> simp_all
      split <;> simp [ih]
  exact h n a _

/-- RESULT_BACKLOG_DRAIN: the oldest waiting entry goes out once its ring has room (R535). -/
theorem backlogDrain_of_room {kind n : Nat} {b : Bytes} {rest : List Bytes} {d : Dev} (hkind : kind = 1 ∨ kind = 3)
    (hb : (d.ring (ringKey kind n)).backlog = b :: rest) (hroom : d.ringRoom kind n = true) :
    backlogDrainD kind n d = (d.onRing (ringKey kind n) (fun x => { x with backlog := rest })).writeEntry kind n b := by
  unfold backlogDrainD
  rw [hb]
  dsimp only
  rw [if_pos ⟨hkind, hroom⟩]

theorem backlogDrain_of_full {kind n : Nat} {d : Dev} (hroom : d.ringRoom kind n = false) : backlogDrainD kind n d = d := by
  unfold backlogDrainD
  split
  next => rfl
  next => rw [if_neg (by simp [hroom])]

end Sys2Proof.Machine

open Sys2Proof Sys2Proof.Machine

/-- Settles O45: the slot is emptied whatever its records are; a slot of one record by the ways one record is posted. -/
theorem resultsReachTheirRing : Obligations.ResultsReachTheirRing := by
  unfold Obligations.ResultsReachTheirRing
  refine ⟨fun core task e word now ring x k prov s he hi hk hring hprov hx hfull => ?_, fun rk n b rest s hready hb => ⟨fun hkind hroom => ?_, fun hroom => ?_⟩⟩
  · subst hk hprov
    refine ⟨?_, fun hbad => ?_⟩
    · obtain ⟨m, _, _, rfl, rfl, hexec⟩ := result_exec he hi hx hring hfull now
      obtain ⟨hring', hcourse, hmem⟩ := result_posted (ring := ring) (word := word) hx now ⟨m, _, rfl⟩ rfl
      obtain ⟨hkeeps, hsteers, -, -, hbytes, -⟩ := result_frame hi hring' hcourse hmem rfl
      exact ⟨_, hexec, hkeeps, hsteers, hbytes⟩
    · obtain ⟨t, m, cycle, d0, d1, hexec, hd0, hd1, hrest, hkeeps, hsteers, hget, htag, hbytes⟩ := result_clean he hi hx hring hfull now hbad
      have hround : (d0.task core task).progRound = (s.dev.task core task).progRound := by rw [hd0]; exact Dev.progRound_clocked ..
      have hjobOf : (d0.task core task).job = (s.dev.task core task).job := by rw [hd0]; exact Dev.taskJob_clocked ..
      obtain ⟨cores, hd0'⟩ : ∃ cores, d0 = { s.dev with cores := cores, cntNow := m, tb := { s.dev.tb with now := max s.dev.tb.now now } } :=
        ⟨_, hd0⟩
      clear hd0
      refine ⟨t, hexec, hkeeps, hsteers, hget, htag, hbytes, fun hnone => ?_, fun n h payload i hn hrec hi' hjob => ⟨?_, ?_⟩⟩
      · rw [Dev.postSlot_of_unbound (by rw [hd0']; exact hnone)] at hd1
        have hreport := fun h => (Dev.raise_room d0 { code := 0x0A06, kind := 0, task := task, unit := core, round := some (d0.task core task).progRound } h).2.1
        refine ⟨?_, ?_, fun hroom => ?_⟩
        · rw [hrest, hd1]; dsimp only; rw [Dev.raise_streams, hd0']
        · rw [hrest, hd1]; dsimp only; rw [Dev.raise_rings, hd0']
        · rw [hround] at hreport
          rw [hrest, hd1]
          dsimp only [Dev.tk]
          rw [hround]
          rw [hd0'] at hreport ⊢
          exact hreport hroom
      · intro hf h1 h2
        rw [Dev.postSlot_of_one (n := n) (by rw [hd0']; exact hn) (by rw [length_memRead]; exact hrec),
          Dev.postRecord_of_failed (i := i) (by dsimp only [Dev.tk]; rw [hround, hd0']; exact hi') _ hf] at hd1
        rw [hrest, hd1, hd0']
        exact ⟨rfl, rfl⟩
      · intro size hsize hprov hdet hfail hrep h1 h2 hfit hback hroom hprovs
        have hentry : d0.entrySize n = size := by rw [hd0', hsize]; exact Dev.entrySize_of_range (d := s.dev) h1 h2
        obtain ⟨st, sm, hpost⟩ := Dev.postRecord_of_room (d := d0) (w := ⟨core, task, (s.dev.task core task).pc⟩) (payload := payload) (now := now)
          (by dsimp only [Dev.tk]; rw [hround, hd0']; exact hi') (by dsimp only [Dev.tk]; rw [hjobOf, hd0']; exact hjob) hdet hfail hrep
          (by rw [hentry]; exact hfit) (by rw [hd0']; exact hback) (by rw [hd0']; exact hroom) (by rw [hd0']; exact hprovs)
        rw [Dev.postSlot_of_one (n := n) (by rw [hd0']; exact hn) (by rw [length_memRead]; exact hrec), hprov, hpost, hentry] at hd1
        obtain ⟨hout, hidx, -⟩ := d0.writeEntry_posts 3 n (resultEntry size h payload false false false now)
        obtain ⟨r, o, ms, hw⟩ := d0.writeEntry_cases 3 n (resultEntry size h payload false false false now)
        rw [hrest, hd1]
        refine ⟨?_, ?_, ?_⟩
        · rw [hd0'] at hout ⊢
          exact hout
        · rw [hd0'] at hidx ⊢
          exact hidx
        · dsimp only
          rw [hw, hd0']
  · have hkind' : ringCode rk = 1 ∨ ringCode rk = 3 := by rcases hkind with rfl | rfl <;> simp [ringCode]
    set d := s.dev.onRing (ringKey (ringCode rk) n) (fun x => { x with backlog := rest }) with hd
    obtain ⟨hout, hidx, hback⟩ := d.writeEntry_posts (ringCode rk) n b
    obtain ⟨r, o, m, hw⟩ := d.writeEntry_cases (ringCode rk) n b
    have hring : d.ring (ringKey (ringCode rk) n) = { s.dev.ring (ringKey (ringCode rk) n) with backlog := rest } := Dev.ring_onRing _ _ _
    rw [hring] at hout hidx hback
    refine ⟨{ s with dev := d.writeEntry (ringCode rk) n b }, (onHost_of_ready s _ hready).trans (by rw [backlogDrain_of_room hkind' hb hroom]), ⟨rfl, rfl⟩, hback, hidx, hout, ?_⟩
    dsimp only
    rw [hw]
    rfl
  · exact (onHost_of_ready s _ hready).trans (by rw [backlogDrain_of_full hroom])

end

section
/-! What stores of bytes, detections and the ends of operations leave of tasks, streams and sequences, and the three words of speculation
(R77, R326 to R331). -/

namespace Sys2Proof.Machine

/-! ### Stores and detections beside streams and sequences -/

/-- `e` differs from `d` at most in bytes, in detections, and in what no task's course, no stream beside its items, no image and no sequence says. -/
structure Dev.Beside (d e : Dev) : Prop where
  course : ∀ c t, d.SameCourse e c t
  img : ∀ j, (e.job j).img = (d.job j).img
  stream : ∀ h, e.stream h = { d.stream h with items := (e.stream h).items }
  seqs : e.seqs = d.seqs

namespace Dev.Beside
variable {d e f : Dev}

theorem refl (d : Dev) : d.Beside d := ⟨fun _ _ => .refl _ _ _, fun _ => rfl, fun _ => rfl, rfl⟩

theorem trans (h : d.Beside e) (h' : e.Beside f) : d.Beside f where
  course c t := (h.course c t).trans (h'.course c t)
  img j := (h'.img j).trans (h.img j)
  stream k := (h'.stream k).trans (by rw [h.stream k])
  seqs := h'.seqs.trans h.seqs

theorem ite {p : Prop} [Decidable p] (he : d.Beside e) (hf : d.Beside f) : d.Beside (if p then e else f) := by
  split <;> assumption

theorem foldl {α : Type} (f : Dev → α → Dev) (l : List α) (d : Dev) (h : ∀ (e : Dev) a, e.Beside (f e a)) : d.Beside (l.foldl f d) :=
  foldl_keep (d.Beside ·) f l d (refl d) (fun e a _ he => he.trans (h e a))

theorem of_aside (h : d.Aside e) : d.Beside e where
  course := h.sameCourse
  img j := by rw [h.job j]
  stream := h.stream
  seqs := by rw [h.rest]

/-- A change that keeps jobs, streams, sequences, the governor, mirrors and the course of every task. -/
theorem of_tasks (hk : ∀ c t, (e.task c t).pc = (d.task c t).pc ∧ (e.task c t).loop = (d.task c t).loop ∧ (e.task c t).job = (d.task c t).job ∧
    (e.task c t).progRound = (d.task c t).progRound) (h : e = { d with cores := e.cores, well := e.well, deep := e.deep, out := e.out, cntNow := e.cntNow }) :
    d.Beside e where
  course c t := by
    obtain ⟨h1, h2, h3, h4⟩ := hk c t
    exact .of_jobs h1 h2 h3 h4 (by rw [h]) (by rw [h]) (by rw [h])
  img j := by rw [h]; rfl
  stream k := by rw [h]; rfl
  seqs := by rw [h]

theorem onCore (d : Dev) (c : Nat) (f : Core → Core) (hf : ∀ x, (f x).tasks = x.tasks) : d.Beside (d.onCore c f) :=
  of_tasks (fun x t => by rw [d.task_onCore hf c x t]; exact ⟨rfl, rfl, rfl, rfl⟩) rfl

theorem storeAll (d : Dev) (c : Nat) (ws : List (Nat × Bytes)) : d.Beside (d.onCore c (fun x => x.storeAll ws)) := onCore d c _ (fun _ => rfl)

theorem onTask (d : Dev) (c t : Nat) (f : Task → Task)
    (hf : ∀ k, (f k).pc = k.pc ∧ (f k).loop = k.loop ∧ (f k).job = k.job ∧ (f k).progRound = k.progRound) : d.Beside (d.onTask c t f) := by
  refine of_tasks (fun x y => ?_) rfl
  by_cases h : (x, y) = (c, t)
  · cases h
    rw [Dev.task_onTask]
    exact hf _
  · rw [Dev.task_onTask_ne _ _ _ _ _ _ h]
    exact ⟨rfl, rfl, rfl, rfl⟩

theorem wellWrite (d : Dev) (a : Nat) (bs : Bytes) : d.Beside (d.wellWrite a bs) := by
  unfold Dev.wellWrite
  dsimp only
  split <;> exact of_tasks (fun _ _ => ⟨rfl, rfl, rfl, rfl⟩) rfl

theorem count (d : Dev) (off lo n : Nat) : d.Beside (d.count off lo n) := of_aside (.count d off lo n)

/-! Pages, sequence records and page lists (R234, R237, R240) -/

theorem pageWrite (d : Dev) (l : Rec) (i p h : Nat) (ws : List (Nat × Bytes)) : d.Beside (d.pageWrite l i p h ws) := by
  unfold Dev.pageWrite
  dsimp only
  refine ite (storeAll d _ _) (ite (foldl _ ws d (fun x w => wellWrite x _ _)) (ite (ite (refl d) ?_) (refl d)))
  exact of_tasks (fun _ _ => ⟨rfl, rfl, rfl, rfl⟩) rfl

theorem onPages (d : Dev) (l : Rec) (i p : Nat) (ws : List (Nat × Bytes)) : d.Beside (d.onPages l i p ws) :=
  foldl _ _ d (fun x h => pageWrite x l i p h ws)

theorem copyPages (d : Dev) (l : Rec) (i src dst round : Nat) (hs : List Nat) : d.Beside (d.copyPages l i src dst round hs) :=
  foldl _ _ d (fun x h => (pageWrite x l i dst h _).trans (of_aside (.eccReadFor _ _ _ _ _ _)))

theorem putIn (d : Dev) (c t space : Nat) (ws : List (Nat × Bytes)) : d.Beside (d.putIn c t space ws) := by
  unfold Dev.putIn
  exact ite (storeAll d _ _) (ite (foldl _ ws d (fun x w => wellWrite x _ _)) (refl d))

theorem writeRow (d : Dev) (c t : Nat) (r : Rec) (q : Nat) : d.Beside (d.writeRow c t r q) := by
  unfold Dev.writeRow
  dsimp only
  split
  · exact refl d
  · exact ite (putIn d _ _ _ _) ((putIn d _ _ _ _).trans (putIn _ _ _ _ _))

theorem writeSeqs (d : Dev) (j : Nat) : d.Beside (d.writeSeqs j) :=
  foldl _ _ d (fun x p => foldl _ _ x (fun y r => foldl _ _ y (fun z q => writeRow z p.1 p.2 r q)))

/-! The end of an operation -/

theorem ringMove (d : Dev) (c t : Nat) (slips : List (Nat × Bool)) (u : Nat × Bool) : d.Beside (d.ringMove c t slips u) := by
  unfold Dev.ringMove
  split
  · refine trans ?_ (onTask _ c t _ ?_)
    · exact onCore d c _ (fun _ => rfl)
    · exact fun _ => ⟨rfl, rfl, rfl, rfl⟩
  · exact refl d

theorem opDone (d : Dev) (w : Who) (reads writes : List Nat) (slips : List (Nat × Bool)) {o : OpOut} (h : o.lost = 0) :
    d.Beside (d.opDone w reads writes slips o) := by
  unfold Dev.opDone
  dsimp only
  have hlost : ∀ x : Dev, x.boundFault w (d.tk w).progRound o.lost = x := fun x => by
    unfold Dev.boundFault
    rw [if_pos h]
  rw [hlost]
  refine trans ?_ (of_aside (.eccReadFor _ _ _ _ _ _))
  refine trans ?_ (foldl _ slips _ (fun x u => of_aside (.detect _ _ _ _ _ _ _)))
  refine trans ?_ (foldl _ _ _ (fun x u => ringMove x w.core w.task slips u))
  refine trans (trans (storeAll d w.core o.writes) (onTask _ _ _ _ ?_)) (count _ _ _ _)
  exact fun _ => ⟨rfl, rfl, rfl, rfl⟩

/-- What a stream says of its class's layers. -/
theorem layersOf (h : d.Beside e) (k : Nat) : e.layersOf k = d.layersOf k := by
  have hjob : (e.stream k).job = (d.stream k).job := by rw [h.stream k]
  have hcls : (e.stream k).cls = (d.stream k).cls := by rw [h.stream k]
  unfold Dev.layersOf
  simp only [hjob, hcls, h.img]

theorem seq (h : d.Beside e) (k l : Nat) : e.seq k l = d.seq k l := by
  unfold Dev.seq
  rw [h.seqs]

end Dev.Beside

/-! ### Generations -/

/-- `e` differs from `d`, beside bytes and detections, at most in what generations change: of streams and sequences of `S`; no stream's place. -/
structure Dev.Gen (S : Nat → Prop) (d e : Dev) : Prop where
  course : ∀ c t, d.SameCourse e c t
  img : ∀ j, (e.job j).img = (d.job j).img
  place : ∀ h, (e.stream h).frame = (d.stream h).frame ∧ (e.stream h).token = (d.stream h).token
  cls : ∀ h, (e.stream h).job = (d.stream h).job ∧ (e.stream h).cls = (d.stream h).cls
  stream : ∀ h, ¬ S h → e.stream h = { d.stream h with items := (e.stream h).items }
  seq : ∀ h l, ¬ S h → l < 256 → e.seq h l = d.seq h l

namespace Dev.Gen
variable {S : Nat → Prop} {d e f : Dev}

theorem refl (S : Nat → Prop) (d : Dev) : Dev.Gen S d d :=
  ⟨fun _ _ => .refl _ _ _, fun _ => rfl, fun _ => ⟨rfl, rfl⟩, fun _ => ⟨rfl, rfl⟩, fun _ _ => rfl, fun _ _ _ _ => rfl⟩

theorem trans (h : d.Gen S e) (h' : e.Gen S f) : d.Gen S f where
  course c t := (h.course c t).trans (h'.course c t)
  img j := (h'.img j).trans (h.img j)
  place k := ⟨(h'.place k).1.trans (h.place k).1, (h'.place k).2.trans (h.place k).2⟩
  cls k := ⟨(h'.cls k).1.trans (h.cls k).1, (h'.cls k).2.trans (h.cls k).2⟩
  stream k hk := (h'.stream k hk).trans (by rw [h.stream k hk])
  seq k l hk hl := (h'.seq k l hk hl).trans (h.seq k l hk hl)

theorem ite {p : Prop} [Decidable p] (he : d.Gen S e) (hf : d.Gen S f) : d.Gen S (if p then e else f) := by
  split <;> assumption

theorem foldl {α : Type} (f : Dev → α → Dev) (l : List α) (d : Dev) (h : ∀ (e : Dev) a, a ∈ l → e.Gen S (f e a)) : d.Gen S (l.foldl f d) :=
  foldl_keep (d.Gen S ·) f l d (refl S d) (fun e a ha he => he.trans (h e a ha))

theorem of_beside (h : d.Beside e) : d.Gen S e where
  course := h.course
  img := h.img
  place k := by rw [h.stream k]; exact ⟨rfl, rfl⟩
  cls k := by rw [h.stream k]; exact ⟨rfl, rfl⟩
  stream k _ := h.stream k
  seq k l _ _ := h.seq k l

/-- Another stream's sequences are other places of the table. -/
theorem seqKey_ne {h k l m : Nat} (hk : k ≠ h) (hl : l < 256) (hm : m < 256) : seqKey k m ≠ seqKey h l := by
  unfold seqKey
  omega

theorem kvLayer_lt (l : Rec) : kvLayer l < 256 := Nat.mod_lt _ (by decide)

theorem setSeq {h : Nat} (hS : S h) (d : Dev) (l : Rec) (f : Seq → Seq) : d.Gen S (d.setSeq h (kvLayer l) f) := by
  refine ⟨fun c t => .of_jobs rfl rfl rfl rfl rfl rfl rfl, fun _ => rfl, fun _ => ⟨rfl, rfl⟩, fun _ => ⟨rfl, rfl⟩, fun _ _ => rfl, fun k m hk hm => ?_⟩
  have hne : k ≠ h := fun e => hk (e ▸ hS)
  exact mgetD_mset_ne _ _ _ _ _ (seqKey_ne hne (kvLayer_lt l) hm)

theorem onStream {h : Nat} (hS : S h) (d : Dev) (f : Stream → Stream)
    (hf : ∀ x, (f x).frame = x.frame ∧ (f x).token = x.token ∧ (f x).job = x.job ∧ (f x).cls = x.cls) : d.Gen S (d.onStream h f) := by
  have hstream : ∀ k, (d.onStream h f).stream k = if k = h then f (d.stream k) else d.stream k := fun k => by
    split
    next e => subst e; exact Dev.stream_onStream ..
    next e => exact Dev.stream_onStream_ne _ _ _ _ e
  refine ⟨fun c t => .of_jobs rfl rfl rfl rfl rfl rfl rfl, fun _ => rfl, fun k => ?_, fun k => ?_, fun k hk => ?_, fun _ _ _ _ => rfl⟩
  · rw [hstream]
    split
    · exact ⟨(hf _).1, (hf _).2.1⟩
    · exact ⟨rfl, rfl⟩
  · rw [hstream]
    split
    · exact (hf _).2.2
    · exact ⟨rfl, rfl⟩
  · have hne : k ≠ h := fun e => hk (e ▸ hS)
    rw [hstream, if_neg hne]

end Dev.Gen

/-- The sequence that a change of one leaves at a place. -/
theorem Dev.seq_setSeq (d : Dev) (h l k m : Nat) (f : Seq → Seq) :
    (d.setSeq h l f).seq k m = if seqKey k m = seqKey h l then f (d.seq k m) else d.seq k m := by
  unfold Dev.setSeq Dev.seq
  dsimp only
  rw [mgetD_mset]
  split
  next e => rw [e]
  next => rfl

/-- No sequence's length or current pages differ. -/
def Dev.SameLists (d e : Dev) : Prop := ∀ h l, (e.seq h l).len = (d.seq h l).len ∧ (e.seq h l).cur = (d.seq h l).cur

namespace Dev.SameLists
variable {d e f : Dev}

theorem refl (d : Dev) : d.SameLists d := fun _ _ => ⟨rfl, rfl⟩

theorem trans (h : d.SameLists e) (h' : e.SameLists f) : d.SameLists f :=
  fun k l => ⟨(h' k l).1.trans (h k l).1, (h' k l).2.trans (h k l).2⟩

theorem of_seqs (h : e.seqs = d.seqs) : d.SameLists e := fun k l => by
  unfold Dev.seq
  rw [h]
  exact ⟨rfl, rfl⟩

theorem foldl {α : Type} (f : Dev → α → Dev) (l : List α) (d : Dev) (h : ∀ (e : Dev) a, e.SameLists (f e a)) : d.SameLists (l.foldl f d) :=
  foldl_keep (d.SameLists ·) f l d (refl d) (fun e a _ he => he.trans (h e a))

theorem setSeq (d : Dev) (h l : Nat) (f : Seq → Seq) (hf : ∀ s, (f s).len = s.len ∧ (f s).cur = s.cur) : d.SameLists (d.setSeq h l f) := fun k m => by
  rw [Dev.seq_setSeq]
  split
  · exact hf _
  · exact ⟨rfl, rfl⟩

end Dev.SameLists

/-! ### The opening of a generation (R252, R329) -/

/-- A stream's generation opens, or the one that is open goes on. -/
def Stream.opened (s : Stream) : Stream :=
  if s.specOpen then s else { s with specOpen := true, specLen := 0, specGen := (s.specGen + 1) % 256 }

/-- What SPEC_OPEN does for one slot of its cord. -/
def Dev.openSlot (w : Who) (round : Nat) (d : Dev) (s : Nat × Nat) : Dev :=
  let d1 := if (d.stream s.2).specOpen then d
    else ((d.layersOf s.2).foldl (fun d l => d.openSeq s.2 round l) d).onStream s.2 (fun x =>
      { x with specOpen := true, specLen := 0, specGen := (x.specGen + 1) % 256 })
  d1.onStream s.2 (fun x => { x with stamps := mset x.stamps (8 * w.core + w.task) x.specGen })

theorem specOpenW_eq (d : Dev) (w : Who) (desc : Nat) : specOpenW d w desc =
    .done (((d.specSlots (d.tk w).job (d.tk w).progRound (spCord ((d.tk w).desc desc)) (spKind ((d.tk w).desc desc))).foldl
      (Dev.openSlot w (d.tk w).progRound) d).writeSeqs (d.tk w).job) := rfl

/-- The copy of a tail page that an opening makes. -/
def Dev.openCopy (d : Dev) (h round : Nat) (l : Rec) : Dev :=
  match mget (d.seq h (kvLayer l)).twin ((d.seq h (kvLayer l)).len / 16 % max 1 (kvMaxPages l)) with
  | some t => if (d.seq h (kvLayer l)).len % 16 ≠ 0 ∧ entryOf (d.seq h (kvLayer l)).cur ((d.seq h (kvLayer l)).len / 16 % max 1 (kvMaxPages l)) ≠ noPage
      then d.copyPages l ((d.seq h (kvLayer l)).len / 16 % max 1 (kvMaxPages l))
        (entryOf (d.seq h (kvLayer l)).cur ((d.seq h (kvLayer l)).len / 16 % max 1 (kvMaxPages l))) t round [h]
      else d
  | none => d

theorem Dev.openSeq_eq (d : Dev) (h round : Nat) (l : Rec) : d.openSeq h round l = (d.openCopy h round l).setSeq h (kvLayer l)
    (fun s => { s with specOpen := true, specLen := 0, stamp := ((d.stream h).specGen + 1) % 256 }) := rfl

theorem Dev.Beside.openCopy (d : Dev) (h round : Nat) (l : Rec) : d.Beside (d.openCopy h round l) := by
  unfold Dev.openCopy
  split
  · exact .ite (.copyPages _ _ _ _ _ _ _) (.refl d)
  · exact .refl d

theorem Dev.Beside.openLayers (d : Dev) (h round : Nat) (ls : List Rec) :
    (∀ k, (ls.foldl (fun d l => d.openSeq h round l) d).stream k =
      { d.stream k with items := ((ls.foldl (fun d l => d.openSeq h round l) d).stream k).items }) ∧
    d.SameLists (ls.foldl (fun d l => d.openSeq h round l) d) ∧ ∀ S : Nat → Prop, S h → d.Gen S (ls.foldl (fun d l => d.openSeq h round l) d) := by
  refine ⟨fun k => ?_, .foldl _ ls d (fun x l => ?_), fun S hS => .foldl _ ls d (fun x l _ => ?_)⟩
  · refine foldl_keep (fun e => e.stream k = { d.stream k with items := (e.stream k).items }) _ ls d rfl (fun x l _ hx => ?_)
    exact ((Dev.Beside.openCopy x h round l).stream k).trans (by rw [hx]; rfl)
  · exact (Dev.SameLists.of_seqs (Dev.Beside.openCopy x h round l).seqs).trans (.setSeq _ _ _ _ (fun _ => ⟨rfl, rfl⟩))
  · rw [Dev.openSeq_eq]
    exact (Dev.Gen.of_beside (Dev.Beside.openCopy x h round l)).trans (.setSeq hS _ l _)

theorem Dev.Gen.openSlot {S : Nat → Prop} {s : Nat × Nat} (hS : S s.2) (w : Who) (round : Nat) (d : Dev) : d.Gen S (d.openSlot w round s) := by
  unfold Dev.openSlot
  refine trans (ite (refl S d) (trans ((Dev.Beside.openLayers d s.2 round _).2.2 S hS) (onStream hS _ _ ?_))) (onStream hS _ _ ?_)
  all_goals exact fun _ => ⟨rfl, rfl, rfl, rfl⟩

theorem Dev.SameLists.openSlot (w : Who) (round : Nat) (d : Dev) (s : Nat × Nat) : d.SameLists (d.openSlot w round s) := by
  unfold Dev.openSlot
  dsimp only
  split
  · exact of_seqs rfl
  · exact ((Dev.Beside.openLayers d s.2 round _).2.1).trans (of_seqs rfl)

/-- The stream of the slot opens; every other stream keeps its generation. -/
theorem Dev.stream_openSlot (w : Who) (round : Nat) (d : Dev) (s : Nat × Nat) (h : Nat) :
    ((d.openSlot w round s).stream h).specOpen = (if h = s.2 then (d.stream h).opened else d.stream h).specOpen ∧
      ((d.openSlot w round s).stream h).specGen = (if h = s.2 then (d.stream h).opened else d.stream h).specGen := by
  have hlayers : ∀ k, (((d.layersOf s.2).foldl (fun d l => d.openSeq s.2 round l) d).stream k).specOpen = (d.stream k).specOpen ∧
      (((d.layersOf s.2).foldl (fun d l => d.openSeq s.2 round l) d).stream k).specGen = (d.stream k).specGen := fun k => by
    rw [(Dev.Beside.openLayers d s.2 round (d.layersOf s.2)).1 k]
    exact ⟨rfl, rfl⟩
  unfold Dev.openSlot Stream.opened
  dsimp only
  by_cases hh : h = s.2
  · subst hh
    rw [Dev.stream_onStream, if_pos rfl]
    cases ho : (d.stream s.2).specOpen with
    | true => simp [ho]
    | false => simp [Dev.stream_onStream, (hlayers s.2).2]
  · rw [Dev.stream_onStream_ne _ _ _ _ hh, if_neg hh]
    cases ho : (d.stream s.2).specOpen with
    | true => simp
    | false => simpa [Dev.stream_onStream_ne _ _ _ _ hh] using hlayers h

/-- A fold whose steps each change what one key reads, always in the same way, changes the keys that it visits that way. -/
theorem foldl_visits {δ σ α : Type} (v : δ → Nat → α) (key : σ → Nat) (F : Nat → α → α) (hF : ∀ h a, F h (F h a) = F h a) (step : δ → σ → δ)
    (hstep : ∀ d s h, v (step d s) h = if h = key s then F h (v d h) else v d h) (l : List σ) (d : δ) (h : Nat) :
    v (l.foldl step d) h = if h ∈ l.map key then F h (v d h) else v d h := by
  induction l generalizing d with
  | nil => simp
  | cons s l ih =>
    rw [List.foldl_cons, ih, hstep]
    by_cases h1 : h = key s
    · simp [h1, hF]
    · simp [h1]

/-! In cores without bad words -/

/-- No core holds a word with an uncorrectable error. -/
def Dev.Clean (d : Dev) : Prop := ∀ x, (d.core x).bad = []

theorem Dev.Clean.storeAll {d : Dev} (h : d.Clean) (c : Nat) (ws : List (Nat × Bytes)) : (d.onCore c (fun x => x.storeAll ws)).Clean := by
  intro x
  by_cases hx : x = c
  · subst hx
    rw [Dev.core_onCore]
    unfold Core.storeAll
    simp [h x]
  · rw [Dev.core_onCore_ne _ _ _ _ hx]
    exact h x

/-- Without bad words a page's write leaves every stream. -/
theorem Dev.Clean.pageWrite {d : Dev} (hd : d.Clean) (l : Rec) (i p h : Nat) (ws : List (Nat × Bytes)) :
    (d.pageWrite l i p h ws).Clean ∧ (d.pageWrite l i p h ws).streams = d.streams := by
  have hwell : ∀ (x : Dev) a bs, (x.wellWrite a bs).cores = x.cores ∧ (x.wellWrite a bs).streams = x.streams := fun x a bs => by
    unfold Dev.wellWrite
    dsimp only
    split <;> exact ⟨rfl, rfl⟩
  have hcores : ∀ e : Dev, e.cores = d.cores → e.Clean := fun e he x => by
    unfold Dev.core
    rw [he]
    exact hd x
  unfold Dev.pageWrite
  dsimp only
  split
  · exact ⟨hd.storeAll _ _, rfl⟩
  · split
    · have hfold : ∀ g : Nat × Bytes → Nat, (ws.foldl (fun x w => x.wellWrite (g w) w.2) d).cores = d.cores ∧
          (ws.foldl (fun x w => x.wellWrite (g w) w.2) d).streams = d.streams := fun g =>
        ⟨foldl_proj Dev.cores _ ws d (fun x w _ => (hwell x _ _).1), foldl_proj Dev.streams _ ws d (fun x w _ => (hwell x _ _).2)⟩
      exact ⟨hcores _ (hfold _).1, (hfold _).2⟩
    · split
      · split
        · exact ⟨hd, rfl⟩
        · exact ⟨hcores _ rfl, rfl⟩
      · exact ⟨hd, rfl⟩

theorem Dev.Clean.copyPages {d : Dev} (hd : d.Clean) (l : Rec) (i src dst round : Nat) (hs : List Nat) :
    (d.copyPages l i src dst round hs).Clean ∧ (d.copyPages l i src dst round hs).streams = d.streams := by
  refine foldl_keep (fun e : Dev => e.Clean ∧ e.streams = d.streams) _ _ d ⟨hd, rfl⟩ (fun e h _ he => ?_)
  obtain ⟨hclean, hstreams⟩ := he
  obtain ⟨hclean', hstreams'⟩ := hclean.pageWrite l i dst h [(0, e.pageRead l i src h)]
  have hmet : (if src / 2 ^ 30 = 0 then (e.core (e.poolPlace l i (bits src 0 30) h).1).badWords
      [(((e.poolPlace l i (bits src 0 30) h).2 : Nat), ((e.poolPlace l i (bits src 0 30) h).2 + kvPage l : Nat))] else []) = [] := by
    rw [Core.badWords_of_clean (hclean _)]
    exact ite_self _
  dsimp only
  rw [hmet]
  exact ⟨hclean', hstreams'.trans hstreams⟩

/-- Without bad words an opening leaves every other stream as it was. -/
theorem Dev.Clean.openSlot {d : Dev} (hd : d.Clean) (w : Who) (round : Nat) (s : Nat × Nat) :
    (d.openSlot w round s).Clean ∧ ∀ h, h ≠ s.2 → (d.openSlot w round s).stream h = d.stream h := by
  have hlayers : ∀ ls : List Rec, (ls.foldl (fun d l => d.openSeq s.2 round l) d).Clean ∧
      (ls.foldl (fun d l => d.openSeq s.2 round l) d).streams = d.streams := fun ls => by
    refine foldl_keep (fun e : Dev => e.Clean ∧ e.streams = d.streams) _ ls d ⟨hd, rfl⟩ (fun e l _ he => ?_)
    obtain ⟨hclean, hstreams⟩ := he
    have hcopy : (e.openCopy s.2 round l).Clean ∧ (e.openCopy s.2 round l).streams = e.streams := by
      unfold Dev.openCopy
      split
      · split
        · exact hclean.copyPages _ _ _ _ _ _
        · exact ⟨hclean, rfl⟩
      · exact ⟨hclean, rfl⟩
    exact ⟨hcopy.1, hcopy.2.trans hstreams⟩
  unfold Dev.openSlot
  dsimp only
  split
  · exact ⟨hd, fun h hh => Dev.stream_onStream_ne _ _ _ _ hh⟩
  · refine ⟨(hlayers _).1, fun h hh => ?_⟩
    rw [Dev.stream_onStream_ne _ _ _ _ hh, Dev.stream_onStream_ne _ _ _ _ hh]
    unfold Dev.stream
    rw [(hlayers _).2]

/-! ### The end of a generation without a commit (R331) -/

/-- A stream after SPEC_ABORT. -/
def Stream.aborted (draft : Bool) (s : Stream) : Stream :=
  if s.specOpen then { s with specOpen := false, specLen := 0, proposed := s.proposed + (if draft then s.dlen else 0) } else s

theorem Stream.aborted_aborted (draft : Bool) (s : Stream) : (s.aborted draft).aborted draft = s.aborted draft := by
  unfold Stream.aborted
  cases h : s.specOpen <;> simp [h]

/-- What an abort leaves beside streams and sequences. -/
theorem Dev.abortGen_eq (d : Dev) (h : Nat) (draft : Bool) : ∃ st sq, d.abortGen h draft = { d with streams := st, seqs := sq } := by
  have hfold : ∀ ls : List Rec, ∃ sq, ls.foldl (fun d l => d.abortSeq h l) d = { d with seqs := sq } := fun ls =>
    foldl_keep (fun e => ∃ sq, e = { d with seqs := sq }) _ ls d ⟨d.seqs, rfl⟩ (fun e l _ he => by
      obtain ⟨sq, rfl⟩ := he
      exact ⟨_, rfl⟩)
  unfold Dev.abortGen
  split
  · obtain ⟨sq, hsq⟩ := hfold (d.layersOf h)
    rw [hsq]
    exact ⟨_, sq, rfl⟩
  · exact ⟨d.streams, d.seqs, rfl⟩

theorem Dev.stream_abortGen (d : Dev) (h : Nat) (draft : Bool) (k : Nat) :
    (d.abortGen h draft).stream k = if k = h then (d.stream k).aborted draft else d.stream k := by
  have hfold : ((d.layersOf h).foldl (fun d l => d.abortSeq h l) d).streams = d.streams := foldl_proj Dev.streams _ _ d (fun _ _ _ => rfl)
  unfold Dev.abortGen Stream.aborted
  by_cases hk : k = h
  · subst hk
    rw [if_pos rfl]
    split
    · rw [Dev.stream_onStream]
      unfold Dev.stream
      rw [hfold]
    · rfl
  · rw [if_neg hk]
    split
    · rw [Dev.stream_onStream_ne _ _ _ _ hk]
      unfold Dev.stream
      rw [hfold]
    · rfl

theorem Dev.SameLists.abortGen (d : Dev) (h : Nat) (draft : Bool) : d.SameLists (d.abortGen h draft) := by
  unfold Dev.abortGen
  split
  · have hfold : d.SameLists ((d.layersOf h).foldl (fun d l => d.abortSeq h l) d) :=
      foldl _ _ d (fun x l => setSeq x h (kvLayer l) (fun s => { s with specLen := 0, specOpen := false }) (fun _ => ⟨rfl, rfl⟩))
    exact hfold.trans (of_seqs rfl)
  · exact refl d

theorem Dev.Gen.abortGen {S : Nat → Prop} {h : Nat} (hS : S h) (d : Dev) (draft : Bool) : d.Gen S (d.abortGen h draft) := by
  have hfold : d.Gen S ((d.layersOf h).foldl (fun d l => d.abortSeq h l) d) :=
    foldl _ _ d (fun x l _ => setSeq hS x l (fun s => { s with specLen := 0, specOpen := false }))
  unfold Dev.abortGen
  refine ite (hfold.trans (onStream hS _ _ ?_)) (refl S d)
  exact fun _ => ⟨rfl, rfl, rfl, rfl⟩

theorem specAbortW_eq (d : Dev) (w : Who) (desc : Nat) {draft : Nat} (hdraft : draft = spKind ((d.tk w).desc desc)) : specAbortW d w desc =
    .done (((d.specSlots (d.tk w).job (d.tk w).progRound (spCord ((d.tk w).desc desc)) (spKind ((d.tk w).desc desc))).foldl
      (fun d s => d.abortGen s.2 (draft == 1)) d).writeSeqs (d.tk w).job) := by
  subst hdraft
  rfl

/-- A job none of whose tasks keeps records in memory has none written (R240). -/
theorem Dev.writeSeqs_of_no_walks {d : Dev} {j : Nat} (h : ∀ q ∈ (d.job j).tasks, d.walkDescs q.1 q.2 = []) : d.writeSeqs j = d := by
  refine foldl_keep (· = d) _ _ d rfl (fun e q hq he => ?_)
  subst he
  unfold Dev.writeRows
  rw [h q hq]
  rfl

/-! ### Commits (R253, R331) -/

/-- The pages that a commit of a sequence makes current. -/
def Dev.commitPages (d : Dev) (h : Nat) (l : Rec) (c : Nat) : Dev :=
  ((List.range (((d.seq h (kvLayer l)).len + c - 1) / 16 + 1 - (d.seq h (kvLayer l)).len / 16)).map ((d.seq h (kvLayer l)).len / 16 + ·)).foldl (fun x e =>
    match mget (x.seq h (kvLayer l)).twin (e % max 1 (kvMaxPages l)) with
    | some t => (x.onPages l (e % max 1 (kvMaxPages l)) t (clearSlots l (fun k => decide ((d.seq h (kvLayer l)).len + c ≤ 16 * e + k)))).setSeq h (kvLayer l)
        (fun s => { s with cur := mset s.cur (e % max 1 (kvMaxPages l)) t, twin := setEntry s.twin (e % max 1 (kvMaxPages l)) (entryOf s.cur (e % max 1 (kvMaxPages l))) })
    | none => x) d

theorem Dev.commitSeq_eq (d : Dev) (h : Nat) (l : Rec) (c : Nat) : d.commitSeq h l c = (d.commitPages h l c).setSeq h (kvLayer l)
    (fun s => { s with len := (d.seq h (kvLayer l)).len + c, specLen := 0, specOpen := false }) := rfl

theorem Dev.Gen.commitSeq {S : Nat → Prop} {h : Nat} (hS : S h) (d : Dev) (l : Rec) (c : Nat) : d.Gen S (d.commitSeq h l c) := by
  rw [Dev.commitSeq_eq]
  refine trans (foldl _ _ d (fun x e _ => ?_)) (setSeq hS _ l _)
  split
  · exact (of_beside (.onPages x l _ _ _)).trans (setSeq hS _ l _)
  · exact refl S x

/-- A commit's pages leave every stream, its items apart. -/
theorem Dev.stream_commitSeq (d : Dev) (h : Nat) (l : Rec) (c k : Nat) :
    (d.commitSeq h l c).stream k = { d.stream k with items := ((d.commitSeq h l c).stream k).items } := by
  rw [Dev.commitSeq_eq]
  show (d.commitPages h l c).stream k = { d.stream k with items := ((d.commitPages h l c).stream k).items }
  refine foldl_keep (fun e => e.stream k = { d.stream k with items := (e.stream k).items }) _ _ d rfl (fun x e _ hx => ?_)
  split
  next t ht =>
    exact ((Dev.Beside.onPages x l (e % max 1 (kvMaxPages l)) t _).stream k).trans (by rw [hx]; rfl)
  next => exact hx

/-- The length of a generation reads its stream and its class's sequences alone. -/
theorem Dev.Gen.specLenOf {S : Nat → Prop} {d e : Dev} (g : d.Gen S e) {h : Nat} (hS : ¬ S h) : e.specLenOf h = d.specLenOf h := by
  have hlayers : e.layersOf h = d.layersOf h := by
    unfold Dev.layersOf
    simp only [(g.cls h).1, (g.cls h).2, g.img]
  have hdlen : (e.stream h).dlen = (d.stream h).dlen := by rw [g.stream h hS]
  have hseqs : (e.layersOf h).map (fun l => (e.seq h (kvLayer l)).specLen) = (d.layersOf h).map (fun l => (d.seq h (kvLayer l)).specLen) := by
    rw [hlayers]
    exact List.map_congr_left (fun l _ => by rw [g.seq h _ hS (Dev.Gen.kvLayer_lt l)])
  unfold Dev.specLenOf
  rw [hseqs, hdlen]

section commitSlot
variable (d : Dev) (w : Who) (r : Rec) (pairs : List (Nat × Nat)) (slot h : Nat) (c : Int)

/-- The state in which the sequences of a generation are committed, and its stream's counts. -/
def Dev.committed (n : Nat) : Dev :=
  ((d.layersOf h).foldl (fun d l => d.commitSeq h l n) d).onStream h (fun s =>
    { s with specOpen := false, specLen := d.specLenOf h, committed := s.committed + n, proposed := s.proposed + s.dlen, accepted := s.accepted + (n - 1) })

/-- The state after a task's copies of its shadows. -/
def Dev.tookShadows (e : Dev) (st : Stream) (n : Nat) : Dev :=
  if mget st.stamps (8 * w.core + w.task) ≠ some st.specGen then e
  else (e.onCore w.core (fun x => x.storeAll (pairs.flatMap (fun p => shadowWrites (e.tk w) (e.core w.core).readable p.1 p.2 slot (n - 1))))).eccReadFor [h] w.core w.task
    (e.tk w).progRound ((e.core w.core).badWords (pairs.flatMap (fun p => shadowReads (e.tk w) p.1 p.2 slot (n - 1))))

theorem Dev.Beside.tookShadows (e : Dev) (st : Stream) (n : Nat) : e.Beside (e.tookShadows w pairs slot h st n) := by
  unfold Dev.tookShadows
  exact .ite (.refl e) ((storeAll e _ _).trans (of_aside (.eccReadFor _ _ _ _ _ _)))

theorem Dev.commitSlot_zero (ho : (d.stream h).specOpen = true) : d.commitSlot w r pairs slot h 0 = d.abortGen h true := by
  unfold Dev.commitSlot
  simp [ho]

/-- A count out of range ends the generation and is reported (R331). -/
theorem Dev.commitSlot_range (ho : (d.stream h).specOpen = true) (h0 : c ≠ 0) (hc : c < 0 ∨ (d.specLenOf h : Int) < c) :
    ∃ e, d.commitSlot w r pairs slot h c = (d.abortGen h true).raise e := by
  unfold Dev.commitSlot
  simp only [ho, Bool.not_true, Bool.false_eq_true, false_and, if_false, if_true, h0, hc]
  exact ⟨_, rfl⟩

theorem Dev.commitSlot_commits (ho : (d.stream h).specOpen = true) (h1 : 1 ≤ c) (hc : c ≤ d.specLenOf h) :
    d.commitSlot w r pairs slot h c = (d.committed h c.toNat).tookShadows w pairs slot h (d.stream h) c.toNat := by
  have h0 : ¬ c = 0 := by omega
  have hr : ¬ (c < 0 ∨ (d.specLenOf h : Int) < c) := by omega
  unfold Dev.commitSlot
  simp only [ho, Bool.not_true, Bool.false_eq_true, false_and, if_false, if_true, h0, hr]
  rfl

/-- A task that commits after another copies its shadows alone. -/
theorem Dev.commitSlot_closed (ho : (d.stream h).specOpen = false) :
    d.commitSlot w r pairs slot h c = d ∨ (∃ e, d.commitSlot w r pairs slot h c = d.raise e) ∨
      d.commitSlot w r pairs slot h c = d.tookShadows w pairs slot h (d.stream h) c.toNat := by
  have habort : d.abortGen h true = d := by
    unfold Dev.abortGen
    simp [ho]
  unfold Dev.commitSlot
  simp only [ho, Bool.not_false, true_and, Bool.false_eq_true, if_false, habort]
  split
  · exact .inl rfl
  · split
    · exact .inl rfl
    · split
      · exact .inr (.inl ⟨_, rfl⟩)
      · exact .inr (.inr rfl)

theorem Dev.Gen.committed {S : Nat → Prop} (hS : S h) (n : Nat) : d.Gen S (d.committed h n) := by
  unfold Dev.committed
  refine trans (foldl _ _ d (fun x l _ => commitSeq hS x l n)) (onStream hS _ _ ?_)
  exact fun _ => ⟨rfl, rfl, rfl, rfl⟩

theorem Dev.Gen.commitSlot {S : Nat → Prop} (hS : S h) : d.Gen S (d.commitSlot w r pairs slot h c) := by
  cases ho : (d.stream h).specOpen with
  | false =>
    rcases d.commitSlot_closed w r pairs slot h c ho with e | ⟨x, e⟩ | e
    · rw [e]; exact refl S d
    · rw [e]; exact of_beside (.of_aside (.raise d x))
    · rw [e]; exact of_beside (.tookShadows ..)
  | true =>
    by_cases h0 : c = 0
    · subst h0
      rw [d.commitSlot_zero w r pairs slot h ho]
      exact abortGen hS d true
    · by_cases hr : c < 0 ∨ (d.specLenOf h : Int) < c
      · obtain ⟨x, e⟩ := d.commitSlot_range w r pairs slot h c ho h0 hr
        rw [e]
        exact (abortGen hS d true).trans (of_beside (.of_aside (.raise _ x)))
      · rw [d.commitSlot_commits w r pairs slot h c ho (by omega) (by omega)]
        exact (committed d h hS _).trans (of_beside (.tookShadows ..))

/-- The counts of a stream whose generation a commit ends. -/
theorem Dev.stream_commitSlot (ho : (d.stream h).specOpen = true) :
    ((d.commitSlot w r pairs slot h c).stream h).specOpen = false ∧
      ((d.commitSlot w r pairs slot h c).stream h).proposed = (d.stream h).proposed + (d.stream h).dlen ∧
      (1 ≤ c → c ≤ d.specLenOf h → ((d.commitSlot w r pairs slot h c).stream h).committed = (d.stream h).committed + c.toNat ∧
        ((d.commitSlot w r pairs slot h c).stream h).accepted = (d.stream h).accepted + (c.toNat - 1)) ∧
      (c ≤ 0 ∨ (d.specLenOf h : Int) < c → ((d.commitSlot w r pairs slot h c).stream h).committed = (d.stream h).committed ∧
        ((d.commitSlot w r pairs slot h c).stream h).accepted = (d.stream h).accepted ∧ d.SameLists (d.commitSlot w r pairs slot h c)) := by
  have haborted : (d.stream h).aborted true = { d.stream h with
      specOpen := false, specLen := 0, proposed := (d.stream h).proposed + (d.stream h).dlen } := by simp [Stream.aborted, ho]
  by_cases hr : c ≤ 0 ∨ (d.specLenOf h : Int) < c
  · have hend : (d.commitSlot w r pairs slot h c).stream h = (d.stream h).aborted true ∧ d.SameLists (d.commitSlot w r pairs slot h c) := by
      have hself : (d.abortGen h true).stream h = (d.stream h).aborted true := by rw [Dev.stream_abortGen, if_pos rfl]
      by_cases h0 : c = 0
      · subst h0
        rw [d.commitSlot_zero w r pairs slot h ho]
        exact ⟨hself, .abortGen d h true⟩
      · obtain ⟨x, e⟩ := d.commitSlot_range w r pairs slot h c ho h0 (by omega)
        rw [e]
        refine ⟨?_, (SameLists.abortGen d h true).trans (.of_seqs (Dev.raise_seqs _ _))⟩
        unfold Dev.stream at hself ⊢
        rw [Dev.raise_streams]
        exact hself
    rw [hend.1, haborted]
    exact ⟨rfl, rfl, fun h1 h2 => absurd hr (by omega), fun _ => ⟨rfl, rfl, hend.2⟩⟩
  · rw [d.commitSlot_commits w r pairs slot h c ho (by omega) (by omega)]
    have hlayers : ∀ k, ((d.layersOf h).foldl (fun d l => d.commitSeq h l c.toNat) d).stream k =
        { d.stream k with items := (((d.layersOf h).foldl (fun d l => d.commitSeq h l c.toNat) d).stream k).items } := fun k =>
      foldl_keep (fun e => e.stream k = { d.stream k with items := (e.stream k).items }) _ _ d rfl
        (fun x l _ hx => (x.stream_commitSeq h l c.toNat k).trans (by rw [hx]))
    have hcommitted : (d.committed h c.toNat).stream h = { d.stream h with
        items := (((d.layersOf h).foldl (fun d l => d.commitSeq h l c.toNat) d).stream h).items
        specOpen := false, specLen := d.specLenOf h, committed := (d.stream h).committed + c.toNat
        proposed := (d.stream h).proposed + (d.stream h).dlen, accepted := (d.stream h).accepted + (c.toNat - 1) } := by
      unfold Dev.committed
      rw [Dev.stream_onStream, hlayers h]
    rw [(Dev.Beside.tookShadows w pairs slot h (d.committed h c.toNat) (d.stream h) c.toNat).stream h, hcommitted]
    exact ⟨rfl, rfl, fun _ _ => ⟨rfl, rfl⟩, fun h1 => absurd h1 hr⟩

end commitSlot

/-- What SPEC_COMMIT does for one slot of its cord. -/
def Dev.commitStep (w : Who) (r : Rec) (pairs : List (Nat × Nat)) (cs : Nat → Int) (d : Dev) (s : Nat × Nat) : Dev :=
  d.commitSlot w r pairs s.1 s.2 (cs s.1)

/-- Each stream's commit reads and leaves its own counts and sequences, whatever the others' do. -/
theorem Dev.commitStep_foldl {d : Dev} {w : Who} {r : Rec} {pairs : List (Nat × Nat)} {cs : Nat → Int} {ss : List (Nat × Nat)} {sl h : Nat}
    (hin : (sl, h) ∈ ss) (hnodup : (ss.map Prod.snd).Nodup) :
    ∃ e f : Dev, d.Gen (· ≠ h) e ∧ f = e.commitSlot w r pairs sl h (cs sl) ∧ f.Gen (· ≠ h) (ss.foldl (Dev.commitStep w r pairs cs) d) := by
  obtain ⟨before, after, rfl⟩ := List.append_of_mem hin
  simp only [List.map_append, List.map_cons, List.nodup_append, List.nodup_cons, List.mem_map, List.mem_cons] at hnodup
  obtain ⟨-, ⟨hafter, -⟩, hbefore⟩ := hnodup
  have others : ∀ (l : List (Nat × Nat)) (x : Dev), (∀ a ∈ l, a.2 ≠ h) → x.Gen (· ≠ h) (l.foldl (Dev.commitStep w r pairs cs) x) := fun l x hl =>
    .foldl _ l x (fun y a ha => .commitSlot y w r pairs a.1 a.2 _ (hl a ha))
  refine ⟨before.foldl (Dev.commitStep w r pairs cs) d, _, others before d (fun a ha e => ?_), rfl, ?_⟩
  · exact hbefore a.2 ⟨a, ha, rfl⟩ h (.inl rfl) e
  · rw [List.foldl_append, List.foldl_cons]
    exact others after _ (fun a ha e => hafter ⟨a, ha, e⟩)

/-- The records that a job's walks read are bytes alone. -/
theorem Dev.streams_writeSeqs (d : Dev) (j : Nat) : (d.writeSeqs j).streams = d.streams := by
  have hput : ∀ (x : Dev) c t space ws, (x.putIn c t space ws).streams = x.streams := fun x c t space ws => by
    unfold Dev.putIn
    dsimp only
    split
    · rfl
    · split
      · refine foldl_proj Dev.streams _ ws x (fun y w _ => ?_)
        unfold Dev.wellWrite
        dsimp only
        split <;> rfl
      · rfl
  refine foldl_proj Dev.streams _ _ d (fun x p _ => foldl_proj Dev.streams _ _ x (fun y r _ => foldl_proj Dev.streams _ _ y (fun z q _ => ?_)))
  unfold Dev.writeRow
  dsimp only
  split
  · rfl
  · split
    · exact hput _ _ _ _ _
    · exact (hput _ _ _ _ _).trans (hput _ _ _ _ _)

end Sys2Proof.Machine
end

section
/-! The tests of an operation in a state whose clock has moved (R165, R376), and what they settle with the three words of speculation: O38. -/

namespace Sys2Proof.Machine

section clocked
variable (d : Dev) (c t : Nat) (m : SMap Nat) (cycle : Nat) (issued : Bool) (x y : Nat)

@[simp] theorem Dev.bound_clocked : ((d.clocked c t m cycle issued).task x y).bound = (d.task x y).bound :=
  d.task_clocked_proj c t m cycle issued Task.bound (fun _ _ _ => rfl) x y
@[simp] theorem Dev.desc_clocked (i : Nat) : ((d.clocked c t m cycle issued).task x y).desc i = (d.task x y).desc i :=
  d.task_clocked_proj c t m cycle issued (fun k => k.desc i) (fun _ _ _ => rfl) x y
@[simp] theorem Dev.tStart_clocked (r : Rec) (wr : Bool) : ((d.clocked c t m cycle issued).task x y).tStart r wr = (d.task x y).tStart r wr :=
  d.task_clocked_proj c t m cycle issued (fun k => k.tStart r wr) (fun _ _ _ => rfl) x y
@[simp] theorem Dev.abs_clocked (a n : Nat) : ((d.clocked c t m cycle issued).task x y).abs a n = (d.task x y).abs a n :=
  d.task_clocked_proj c t m cycle issued (fun k => k.abs a n) (fun _ _ _ => rfl) x y
@[simp] theorem Dev.peatWrites_clocked (r : Rec) : ((d.clocked c t m cycle issued).task x y).peatWrites r = (d.task x y).peatWrites r :=
  d.task_clocked_proj c t m cycle issued (fun k => k.peatWrites r) (fun _ _ _ => rfl) x y
@[simp] theorem Dev.ringUses_clocked (reads writes : List Nat) :
    ((d.clocked c t m cycle issued).task x y).ringUses reads writes = (d.task x y).ringUses reads writes :=
  d.task_clocked_proj c t m cycle issued (fun k => k.ringUses reads writes) (fun _ _ _ => rfl) x y
@[simp] theorem Dev.elastic_clocked (r : Nat) : ((d.clocked c t m cycle issued).task x y).elastic r = (d.task x y).elastic r :=
  d.task_clocked_proj c t m cycle issued (fun k => k.elastic r) (fun _ _ _ => rfl) x y
@[simp] theorem Dev.table_clocked (n : Nat) : ((d.clocked c t m cycle issued).core x).table n = (d.core x).table n :=
  d.core_clocked_proj c t m cycle issued (fun z => z.table n) (fun _ _ => rfl) x

@[simp] theorem Dev.tablePending_clocked (n g : Nat) : ((d.clocked c t m cycle issued).core x).tablePending n g = (d.core x).tablePending n g :=
  d.core_clocked_proj c t m cycle issued (fun z => z.tablePending n g) (fun _ _ => rfl) x

@[simp] theorem Dev.rdSpace_clocked (deep : SMap Byte) : (d.clocked c t m cycle issued).rdSpace x y deep = d.rdSpace x y deep := by
  funext space a n
  simp only [Dev.rdSpace, Dev.readable_clocked, Dev.base_clocked, Dev.bound_clocked]
  rfl

@[simp] theorem Dev.partIn_clocked (space : Nat) : (d.clocked c t m cycle issued).partIn x y space = d.partIn x y space := by
  funext a n
  simp only [Dev.partIn, Dev.base_clocked, Dev.bound_clocked]
  rfl

@[simp] theorem Dev.blocksAt_clocked (p n : Nat) : (d.clocked c t m cycle issued).blocksAt x y p n = d.blocksAt x y p n := by
  simp only [Dev.blocksAt, Dev.readable_clocked, Dev.base_clocked, Dev.bound_clocked]

@[simp] theorem Dev.cisBlock_clocked (round : Nat) (mem : SMap Byte) (p b : Nat) :
    (d.clocked c t m cycle issued).cisBlock x y round mem p b = d.cisBlock x y round mem p b := by
  simp only [Dev.cisBlock, Dev.bad_clocked, Dev.base_clocked, Dev.bound_clocked, Dev.table_clocked]

@[simp] theorem Dev.planDecode_clocked (round : Nat) (s : Rec) (n : Nat) (place : Bytes → List (Nat × Bytes)) (ok : Int → Nat → Bool) :
    (d.clocked c t m cycle issued).planDecode x y round s n place ok = d.planDecode x y round s n place ok := by
  simp only [Dev.planDecode, Dev.readable_clocked, Dev.blocksAt_clocked, Dev.cisBlock_clocked, Dev.tablePending_clocked]

@[simp] theorem Dev.planWalk_clocked (z : Xfer) (r : Rec) (kst vst : Nat) (idx : Rec) (rd : Nat → Nat → Nat → Bytes) :
    (d.clocked c t m cycle issued).planWalk z r kst vst idx rd = d.planWalk z r kst vst idx rd := by
  simp only [Dev.planWalk, Dev.tStart_clocked, Dev.partIn_clocked]
  rfl

@[simp] theorem Dev.pumpPlan_clocked (z : Xfer) (deep : Bytes) : (d.clocked c t m cycle issued).pumpPlan z deep = d.pumpPlan z deep := by
  simp only [Dev.pumpPlan, Dev.tStart_clocked, Dev.partIn_clocked, Dev.desc_clocked, Dev.rdSpace_clocked, Dev.planWalk_clocked, Dev.planDecode_clocked]
  rfl

@[simp] theorem Dev.places_clocked (i : Nat) (wr : Bool) : (d.clocked c t m cycle issued).places x y i wr = d.places x y i wr := by
  simp only [Dev.places, Dev.peatReads, Dev.desc_clocked, Dev.peatWrites_clocked, Dev.abs_clocked, Dev.blocksAt_clocked, Dev.view_clocked]

@[simp] theorem Dev.xferRanges_clocked (z : Xfer) (dst : Bool) : (d.clocked c t m cycle issued).xferRanges z dst = d.xferRanges z dst := by
  simp only [Dev.xferRanges, Dev.desc_clocked, Dev.abs_clocked, Dev.places_clocked, Dev.pumpPlan_clocked]

@[simp] theorem Dev.takeRanges_clocked : (d.clocked c t m cycle issued).takeRanges x y = d.takeRanges x y := by
  have hrelay : ((d.clocked c t m cycle issued).core x).relay = (d.core x).relay := d.core_clocked_proj c t m cycle issued Core.relay (fun _ _ => rfl) x
  simp only [Dev.takeRanges, hrelay]

@[simp] theorem Dev.xfersOf_clocked : (d.clocked c t m cycle issued).xfersOf x y = d.xfersOf x y := by
  have hpump : ((d.clocked c t m cycle issued).core x).pump = (d.core x).pump := d.core_clocked_proj c t m cycle issued Core.pump (fun _ _ => rfl) x
  simp only [Dev.xfersOf, hpump]
  rfl

/-- Whether a transfer or a take stands in the way is what it was. -/
@[simp] theorem Dev.interlocked_clocked (reads writes : List (Int × Int)) :
    (d.clocked c t m cycle issued).interlocked x y reads writes = d.interlocked x y reads writes := by
  simp only [Dev.interlocked, Dev.takeRanges_clocked, Dev.xfersOf_clocked, Dev.xferRanges_clocked]

end clocked

/-- An operation that nothing holds goes on with the slots that slip, in a state whose clock has moved too (R376, R378). -/
theorem Dev.opTest_of_unheld {d : Dev} {c t : Nat} {reads writes : List Nat} (h : Unheld d c t reads writes) (m : SMap Nat) (cycle : Nat) (issued : Bool)
    (i : Nat) (k : List (Nat × Bool) → WRes) :
    (d.clocked c t m cycle issued).opTest ⟨c, t, i⟩ reads writes k = k (slipsOf d c t reads writes) := by
  obtain ⟨hring, hlock, -⟩ := h
  have hfind : (((d.clocked c t m cycle issued).tk ⟨c, t, i⟩).ringUses reads writes).find?
      (fun u => (d.clocked c t m cycle issued).ringFails c t u && ((d.clocked c t m cycle issued).tk ⟨c, t, i⟩).elastic u.1) = none := by
    rw [List.find?_eq_none]
    intro u hu
    simp only [Dev.tk, Dev.ringUses_clocked] at hu
    simp only [Dev.tk, Dev.ringFails_clocked, Dev.elastic_clocked, Bool.and_eq_true, not_and, Bool.not_eq_true]
    exact hring u hu
  unfold Dev.opTest
  dsimp only
  rw [hfind]
  simp only [Dev.places_clocked, Dev.interlocked_clocked, hlock, Bool.false_eq_true, if_false]
  congr 1
  simp only [slipsOf, Dev.tk, Dev.ringUses_clocked]
  exact List.filter_congr (fun u _ => Dev.ringFails_clocked ..)

@[simp] theorem Dev.walkDescs_clocked (d : Dev) (c t : Nat) (m : SMap Nat) (cycle : Nat) (issued : Bool) (x y : Nat) :
    (d.clocked c t m cycle issued).walkDescs x y = d.walkDescs x y :=
  d.task_clocked_proj c t m cycle issued (fun k => k.descs.filter (fun r => fld r 63 1 == 8 && pdMode r == 3 && decide (tSpace (k.desc (pdIdx r)) < 2) &&
    tRing (k.desc (pdIdx r)) == 0xFF)) (fun _ _ _ => rfl) x y

/-! ### SPEC_OPEN, SPEC_COMMIT and SPEC_ABORT -/

/-- A task that issues a word runs it in the state of the issue. -/
theorem issued_exec {op : Nat} {core : Fin 256} {task : Fin 8} {word : Nat} {s : State} {e : TaskEv} (he : Undisturbed e task)
    (hi : Issues op core task word s) : ∃ m cycle, onUp s (issueTD op core e 0) = .next { s with
      dev := (s.dev.clocked core task m cycle true).runWord ⟨core, task, (s.dev.task core task).pc⟩ word evNone 0 } := by
  obtain ⟨m, hm⟩ := issueTD_of_issues he hi 0
  exact ⟨m, _, (onUp_of_up s _ hi.1).trans (by rw [hm])⟩

/-- In a round whose speculation is shed the three words do nothing (R77). -/
theorem runWord_spec_shed {d : Dev} {w : Who} {word : Nat} {op : Nat} (hop : wOpcode word = op) (h : op = 0x11 ∨ op = 0x12 ∨ op = 0x13)
    (hs : d.shed w = true) : d.runWord w word evNone 0 = d.wordDone w word := by
  refine Dev.runWord_done ?_ ?_
  · rw [hop]
    rcases h with rfl | rfl | rfl <;> rfl
  · unfold wordEffect
    rw [hop]
    rcases h with rfl | rfl | rfl <;> simp [hs]

section shed
variable {op : Nat} {core : Fin 256} {task : Fin 8} {word : Nat} {s : State} {e : TaskEv} (he : Undisturbed e task) (hi : Issues op core task word s)
  (h : op = 0x11 ∨ op = 0x12 ∨ op = 0x13) (hs : s.dev.shed ⟨core, task, (s.dev.task core task).pc⟩ = true)
include he hi h hs

theorem specWord_shed : ∃ m cycle, ∃ d : Dev, d = s.dev.clocked core task m cycle true ∧
    onUp s (issueTD op core e 0) = .next { s with dev := d.onTask core task (fun _ =>
      { d.nextTask ⟨core, task, (s.dev.task core task).pc⟩ word with wait := none }) } := by
  obtain ⟨m, cycle, hexec⟩ := issued_exec he hi
  have hop := hi.2.2.2.1
  refine ⟨m, cycle, _, rfl, hexec.trans ?_⟩
  have htwin : storesNoTwin (wOpcode word) = true := by
    rw [hop]
    rcases h with rfl | rfl | rfl <;> rfl
  rw [runWord_spec_shed hop h (((s.dev.sameCourse_clocked core task m cycle true).shed _).trans hs), Dev.wordDone_of_no_twin _ _ _ htwin]

theorem specWord_shed_only : ∃ t, onUp s (issueTD op core e 0) = .next t ∧ OnlyTask s t core task ∧ (t.dev.task core task).wait = none := by
  obtain ⟨m, cycle, d, hd, hexec⟩ := specWord_shed he hi h hs
  refine ⟨_, hexec, ?_, by rw [Dev.task_onTask]⟩
  subst hd
  exact (onlyTask_clocked s core task m cycle true).trans (onlyTask_onTask { s with dev := s.dev.clocked core task m cycle true } core task _)

end shed

/-- SPEC_OPEN of a shed round goes on with the word that ends its span (R77). -/
theorem specOpen_shed {core : Fin 256} {task : Fin 8} {word : Nat} {s : State} {e : TaskEv} (he : Undisturbed e task) (hi : Issues 0x11 core task word s)
    (hs : s.dev.shed ⟨core, task, (s.dev.task core task).pc⟩ = true) :
    ∃ t, exec (.specOpen core e) s = .next t ∧ OnlyTask s t core task ∧ (t.dev.task core task).wait = none ∧
      ∀ m, (s.dev.task core task).loop = none → (s.dev.task core task).pc < m → m < (s.dev.task core task).schedWords →
        (wOpcode (s.dev.wordAt core task m) = 0x12 ∨ wOpcode (s.dev.wordAt core task m) = 0x13) →
        (∀ j, (s.dev.task core task).pc < j → j < m → wOpcode (s.dev.wordAt core task j) ≠ 0x12 ∧ wOpcode (s.dev.wordAt core task j) ≠ 0x13) →
        s.dev.yields ⟨core, task, (s.dev.task core task).pc⟩ = false ∨ s.dev.spanWord core task m = false →
        (t.dev.task core task).pc = m := by
  obtain ⟨c, cycle, d, hd, hexec⟩ := specWord_shed he hi (.inl rfl) hs
  have hclock : s.dev.SameCourse d core task := hd ▸ s.dev.sameCourse_clocked core task c cycle true
  have hop := hi.2.2.2.1
  refine ⟨_, hexec, ?_, by rw [Dev.task_onTask], fun m hloop hpc hm hend hfirst hyield => ?_⟩
  · subst hd
    exact (onlyTask_clocked s core task c cycle true).trans (onlyTask_onTask { s with dev := s.dev.clocked core task c cycle true } core task _)
  · have hfind : d.findWord core task (d.task core task).pc (fun x => wOpcode x == 0x12 || wOpcode x == 0x13) = some m :=
      Dev.findWord_eq_some (by rw [hclock.pc]; exact hpc) (by simpa [hd] using hm) (by simpa [hd] using hend)
        (fun j h1 h2 => by simpa [hd] using hfirst j (by rw [hclock.pc] at h1; exact h1) h2)
    have hnext : d.nextTask ⟨core, task, (s.dev.task core task).pc⟩ word =
        d.skipSpan ⟨core, task, (s.dev.task core task).pc⟩ ((d.task core task).goTo m) := by
      simp [Dev.nextTask, hop, (hclock.shed _).trans hs, Dev.tk, hfind]
    have hpcm : ((d.task core task).goTo m).pc = m :=
      (Task.goTo_of_within (k := d.task core task) (fun l hl => absurd (hclock.loop.trans hloop) (by rw [hl]; nofun))).1
    rw [Dev.task_onTask, hnext, Dev.skipSpan_stays _ _ _ (.inr (.inr (by rw [hpcm]; simpa [hd] using hend)))
      (hyield.imp (fun h => (hclock.yields _).trans h) (fun h => .inl (by rw [hpcm, hd]; simpa [Dev.spanWord] using h)))]
    exact hpcm

section ends
variable {op : Nat} {core : Fin 256} {task : Fin 8} {word : Nat} {s : State} {e : TaskEv} (he : Undisturbed e task) (hi : Issues op core task word s)
include he hi

/-- A word of speculation whose effect goes through: what its task, streams and sequences are after it are those of the effect. -/
theorem specWord_done (h : op = 0x11 ∨ op = 0x12 ∨ op = 0x13) (hs : s.dev.shed ⟨core, task, (s.dev.task core task).pc⟩ = false) {F : Dev → Dev}
    (heffect : ∀ m cycle, wordEffect (s.dev.clocked core task m cycle true) ⟨core, task, (s.dev.task core task).pc⟩ word evNone 0 =
      .done (F (s.dev.clocked core task m cycle true)))
    (hcourse : ∀ m cycle, (s.dev.clocked core task m cycle true).SameCourse (F (s.dev.clocked core task m cycle true)) core task) :
    ∃ t m cycle, ∃ d f : Dev, onUp s (issueTD op core e 0) = .next t ∧ d = s.dev.clocked core task m cycle true ∧ f = F d ∧ Keeps s t ∧
      Steers s.dev core task (t.dev.task core task) ((s.dev.task core task).pc + 1) ∧ t.dev.streams = f.streams ∧ t.dev.seqs = f.seqs ∧
      t.dev.well = f.well ∧ ∀ x, (t.dev.core x).mem = (f.core x).mem := by
  obtain ⟨m, cycle, hexec⟩ := issued_exec he hi
  have hop := hi.2.2.2.1
  have htwin : storesNoTwin (wOpcode word) = true := by
    rw [hop]
    rcases h with rfl | rfl | rfl <;> rfl
  have hengine : engineOf (wOpcode word) = 0 := by
    rw [hop]
    rcases h with rfl | rfl | rfl <;> rfl
  have hc := (s.dev.sameCourse_clocked core task m cycle true).trans (hcourse m cycle)
  have hnext : (F (s.dev.clocked core task m cycle true)).nextTask ⟨core, task, (s.dev.task core task).pc⟩ word =
      (F (s.dev.clocked core task m cycle true)).skipSpan ⟨core, task, (s.dev.task core task).pc⟩
        (((F (s.dev.clocked core task m cycle true)).task core task).goTo (((F (s.dev.clocked core task m cycle true)).task core task).pc + 1)) := by
    rcases h with rfl | h
    · simp [Dev.nextTask, hop, (hc.shed _).trans hs, Dev.tk]
    · exact Dev.nextTask_of_plain _ _ _ (by rw [hop]; rcases h with rfl | rfl <;> rfl)
  rw [Dev.runWord_done hengine (heffect m cycle)] at hexec
  refine ⟨_, m, cycle, _, _, hexec, rfl, rfl, ⟨rfl, rfl⟩, steers_wordDone_of_next hc htwin hnext, ?_⟩
  dsimp only
  rw [Dev.wordDone_of_no_twin _ _ _ htwin]
  exact ⟨rfl, rfl, rfl, fun x => Dev.mem_onTask ..⟩

end ends

/-- A member of the slots of a word. -/
theorem mem_snd_iff {l : List (Nat × Nat)} {h : Nat} : h ∈ l.map Prod.snd ↔ ∃ sl, (sl, h) ∈ l := by
  simp

/-- Equal tables read alike. -/
theorem Dev.stream_of_streams {d e : Dev} (h : e.streams = d.streams) (k : Nat) : e.stream k = d.stream k := by
  unfold Dev.stream
  rw [h]

theorem Dev.seq_of_seqs {d e : Dev} (h : e.seqs = d.seqs) (k l : Nat) : e.seq k l = d.seq k l := by
  unfold Dev.seq
  rw [h]

/-- What an opening reads and leaves of a stream's generation. -/
def Dev.generation (d : Dev) (h : Nat) : Bool × Nat := ((d.stream h).specOpen, (d.stream h).specGen)

/-- The generation of a stream that opens, or goes on. -/
def openedGen (g : Bool × Nat) : Bool × Nat := if g.1 then g else (true, (g.2 + 1) % 256)

theorem Dev.generation_foldl_openSlot (w : Who) (round : Nat) (slots : List (Nat × Nat)) (d : Dev) (h : Nat) :
    (slots.foldl (Dev.openSlot w round) d).generation h = if h ∈ slots.map Prod.snd then openedGen (d.generation h) else d.generation h := by
  refine foldl_visits Dev.generation Prod.snd (fun _ => openedGen) (fun _ g => ?_) (Dev.openSlot w round) (fun x a k => ?_) slots d h
  · obtain ⟨b, n⟩ := g
    cases b <;> rfl
  · obtain ⟨hopen, hgen⟩ := Dev.stream_openSlot w round x a k
    unfold Dev.generation openedGen
    rw [hopen, hgen]
    split
    · unfold Stream.opened
      cases h : (x.stream k).specOpen <;> simp [h]
    · rfl

/-- SPEC_OPEN opens the generations of its cord's streams, or goes on with those that are open (R329). -/
theorem specOpen_opens {core : Fin 256} {task : Fin 8} {word : Nat} {s : State} {e : TaskEv} (he : Undisturbed e task) (hi : Issues 0x11 core task word s) (hs : s.dev.shed ⟨core, task, (s.dev.task core task).pc⟩ = false) {r : Rec}
    (hr : r = (s.dev.task core task).desc (bits (wArgs word) 0 12)) {slots : List (Nat × Nat)}
    (hslots : slots = s.dev.specSlots (s.dev.task core task).job (s.dev.task core task).progRound (spCord r) (spKind r)) :
    ∃ t, exec (.specOpen core e) s = .next t ∧ Keeps s t ∧ Steers s.dev core task (t.dev.task core task) ((s.dev.task core task).pc + 1) ∧
      (∀ h, (∃ sl, (sl, h) ∈ slots) → (t.dev.stream h).specOpen = true ∧ (t.dev.stream h).specGen =
        if (s.dev.stream h).specOpen = true then (s.dev.stream h).specGen else ((s.dev.stream h).specGen + 1) % 256) ∧
      ((∀ x, (s.dev.core x).bad = []) → ∀ h, (∀ sl, (sl, h) ∉ slots) → t.dev.stream h = s.dev.stream h) ∧
      (∀ h l, (t.dev.seq h l).len = (s.dev.seq h l).len ∧ (t.dev.seq h l).cur = (s.dev.seq h l).cur) ∧
      (∀ h, (t.dev.stream h).frame = (s.dev.stream h).frame ∧ (t.dev.stream h).token = (s.dev.stream h).token) := by
  set w : Who := ⟨core, task, (s.dev.task core task).pc⟩ with hw
  have hop := hi.2.2.2.1
  have hclock : ∀ m cycle, (s.dev.clocked core task m cycle true).shed w = false := fun m cycle =>
    ((s.dev.sameCourse_clocked core task m cycle true).shed _).trans hs
  have hgen : ∀ d : Dev, d.Gen (fun _ => True) ((slots.foldl (Dev.openSlot w (s.dev.task core task).progRound) d).writeSeqs (s.dev.task core task).job) :=
    fun d => (Dev.Gen.foldl _ slots d (fun x a _ => .openSlot trivial w _ x)).trans (.of_beside (.writeSeqs _ _))
  obtain ⟨t, m, cycle, d, f, hexec, hd, hf, hkeeps, hsteers, hstreams, hseqs, -, -⟩ := specWord_done he hi (.inl rfl) hs
    (F := fun d => (slots.foldl (Dev.openSlot w (s.dev.task core task).progRound) d).writeSeqs (s.dev.task core task).job)
    (fun m cycle => by
      have heffect : wordEffect (s.dev.clocked core task m cycle true) w word evNone 0 =
          specOpenW (s.dev.clocked core task m cycle true) w (wDesc word) := by simp [wordEffect, hop, hclock]
      rw [heffect, specOpenW_eq, hslots, hr]
      simp only [Dev.tk, Dev.taskJob_clocked, Dev.progRound_clocked, Dev.desc_clocked, wDesc, hw]
      rfl)
    (fun m cycle => (hgen _).course core task)
  set g := slots.foldl (Dev.openSlot w (s.dev.task core task).progRound) d with hg
  have hstream : ∀ h, t.dev.stream h = g.stream h := Dev.stream_of_streams (by rw [hstreams, hf]; exact Dev.streams_writeSeqs g _)
  have hseq : ∀ h l, t.dev.seq h l = g.seq h l := Dev.seq_of_seqs (by rw [hseqs, hf]; exact (Dev.Beside.writeSeqs g _).seqs)
  have hlists : d.SameLists g := .foldl _ slots d (fun x a => .openSlot w _ x a)
  have hplace : d.Gen (fun _ => True) g := .foldl _ slots d (fun x a _ => .openSlot trivial w _ x)
  have hold : ∀ h, d.stream h = s.dev.stream h := fun h => by rw [hd]; rfl
  refine ⟨t, hexec, hkeeps, hsteers, fun h hin => ?_, fun hclean h hout => ?_, fun h l => ?_, fun h => ?_⟩
  · have hgeneration := Dev.generation_foldl_openSlot w (s.dev.task core task).progRound slots d h
    rw [if_pos (mem_snd_iff.2 hin), ← hg] at hgeneration
    unfold Dev.generation openedGen at hgeneration
    rw [hstream, ← hold]
    cases ho : (d.stream h).specOpen <;> simpa [ho] using hgeneration
  · have hd' : d.Clean := fun x => by rw [hd]; exact (Dev.bad_clocked ..).trans (hclean x)
    rw [hstream, ← hold]
    exact (foldl_keep (fun e : Dev => e.Clean ∧ e.stream h = d.stream h) _ slots d ⟨hd', rfl⟩ (fun x a ha hx => by
      obtain ⟨hx1, hx2⟩ := hx.1.openSlot w (s.dev.task core task).progRound a
      exact ⟨hx1, (hx2 h (fun e => hout a.1 (by rw [e]; exact ha))).trans hx.2⟩)).2
  · rw [hseq, show s.dev.seq h l = d.seq h l from by rw [hd]; rfl]
    exact hlists h l
  · rw [hstream, ← hold]
    exact hplace.place h

/-- SPEC_ABORT ends the generations of its cord's streams (R329, R331). -/
theorem specAbort_aborts {core : Fin 256} {task : Fin 8} {word : Nat} {s : State} {e : TaskEv} (he : Undisturbed e task)
    (hi : Issues 0x13 core task word s) (hs : s.dev.shed ⟨core, task, (s.dev.task core task).pc⟩ = false) {r : Rec}
    (hr : r = (s.dev.task core task).desc (bits (wArgs word) 0 12)) {slots : List (Nat × Nat)}
    (hslots : slots = s.dev.specSlots (s.dev.task core task).job (s.dev.task core task).progRound (spCord r) (spKind r)) :
    ∃ t, exec (.specAbort core e) s = .next t ∧ Keeps s t ∧ Steers s.dev core task (t.dev.task core task) ((s.dev.task core task).pc + 1) ∧
      (∀ h, t.dev.stream h = if h ∈ slots.map Prod.snd then (s.dev.stream h).aborted (spKind r == 1) else s.dev.stream h) ∧
      (∀ h l, (t.dev.seq h l).len = (s.dev.seq h l).len ∧ (t.dev.seq h l).cur = (s.dev.seq h l).cur) ∧
      ((∀ q ∈ (s.dev.job (s.dev.task core task).job).tasks, s.dev.walkDescs q.1 q.2 = []) →
        (∀ x, (t.dev.core x).mem = (s.dev.core x).mem) ∧ t.dev.well = s.dev.well) := by
  set w : Who := ⟨core, task, (s.dev.task core task).pc⟩ with hw
  have hop := hi.2.2.2.1
  have hclock : ∀ m cycle, (s.dev.clocked core task m cycle true).shed w = false := fun m cycle =>
    ((s.dev.sameCourse_clocked core task m cycle true).shed _).trans hs
  have hgen : ∀ d : Dev, d.Gen (fun _ => True) (slots.foldl (fun d s => d.abortGen s.2 (spKind r == 1)) d) :=
    fun d => .foldl _ slots d (fun x a _ => .abortGen trivial x _)
  obtain ⟨t, m, cycle, d, f, hexec, hd, hf, hkeeps, hsteers, hstreams, hseqs, hwell, hmem⟩ := specWord_done he hi (.inr (.inr rfl)) hs
    (F := fun d => (slots.foldl (fun d s => d.abortGen s.2 (spKind r == 1)) d).writeSeqs (s.dev.task core task).job)
    (fun m cycle => by
      have heffect : wordEffect (s.dev.clocked core task m cycle true) w word evNone 0 =
          specAbortW (s.dev.clocked core task m cycle true) w (wDesc word) := by simp [wordEffect, hop, hclock]
      rw [heffect, specAbortW_eq _ _ _ rfl, hslots, hr]
      simp only [Dev.tk, Dev.taskJob_clocked, Dev.progRound_clocked, Dev.desc_clocked, wDesc, hw]
      rfl)
    (fun m cycle => ((hgen _).trans (.of_beside (.writeSeqs _ _))).course core task)
  set g := slots.foldl (fun d s => d.abortGen s.2 (spKind r == 1)) d with hg
  have hstream : ∀ h, t.dev.stream h = g.stream h := Dev.stream_of_streams (by rw [hstreams, hf]; exact Dev.streams_writeSeqs g _)
  have hseq : ∀ h l, t.dev.seq h l = g.seq h l := Dev.seq_of_seqs (by rw [hseqs, hf]; exact (Dev.Beside.writeSeqs g _).seqs)
  have hlists : d.SameLists g := .foldl _ slots d (fun x a => .abortGen x a.2 _)
  have hold : ∀ h, d.stream h = s.dev.stream h := fun h => by rw [hd]; rfl
  refine ⟨t, hexec, hkeeps, hsteers, fun h => ?_, fun h l => ?_, fun hno => ?_⟩
  · rw [hstream, ← hold]
    exact foldl_visits Dev.stream Prod.snd (fun _ => Stream.aborted (spKind r == 1)) (fun _ x => x.aborted_aborted _) _
      (fun x a k => x.stream_abortGen a.2 _ k) slots d h
  · rw [hseq, show s.dev.seq h l = d.seq h l from by rw [hd]; rfl]
    exact hlists h l
  · obtain ⟨st, sq, hrest⟩ : ∃ st sq, g = { d with streams := st, seqs := sq } :=
      foldl_keep (fun e : Dev => ∃ st sq, e = { d with streams := st, seqs := sq }) _ slots d ⟨_, _, rfl⟩ (fun x a _ hx => by
        obtain ⟨st, sq, rfl⟩ := hx
        obtain ⟨st', sq', h'⟩ := Dev.abortGen_eq { d with streams := st, seqs := sq } a.2 (spKind r == 1)
        exact ⟨st', sq', h'⟩)
    have hf' : f = g := by
      rw [hf]
      refine Dev.writeSeqs_of_no_walks (fun q hq => ?_)
      rw [hrest, hd] at hq ⊢
      exact (Dev.walkDescs_clocked ..).trans (hno q hq)
    rw [hwell, hf', hrest, hd]
    refine ⟨fun x => ?_, rfl⟩
    rw [hmem, hf', hrest, hd]
    exact Dev.mem_clocked ..

theorem Dev.slot_lt_of_mem_specSlots {d : Dev} {job n cord kind sl h : Nat} (hin : (sl, h) ∈ d.specSlots job n cord kind) : sl < 64 := by
  unfold Dev.specSlots at hin
  simp only [List.mem_filterMap, List.mem_range] at hin
  obtain ⟨a, ha, hsome⟩ := hin
  split at hsome
  · split at hsome
    · simp only [Option.some.injEq, Prod.mk.injEq] at hsome
      omega
    · cases hsome
  · cases hsome

/-- What SPEC_COMMIT ends in for one stream (R331). -/
structure Stream.Committed (s x : Stream) (len : Nat) (c : Int) : Prop where
  closed : x.specOpen = false
  proposed : x.proposed = s.proposed + s.dlen
  counts : 1 ≤ c → c ≤ len → x.committed = s.committed + c.toNat ∧ x.accepted = s.accepted + (c.toNat - 1)
  keeps : c ≤ 0 ∨ (len : Int) < c → x.committed = s.committed ∧ x.accepted = s.accepted

/-- SPEC_COMMIT counts each stream's tokens and ends its generation (R329, R331). -/
theorem specCommit_commits {core : Fin 256} {task : Fin 8} {word : Nat} {s : State} {e : TaskEv} (he : Undisturbed e task)
    (hi : Issues 0x12 core task word s) (hs : s.dev.shed ⟨core, task, (s.dev.task core task).pc⟩ = false) {r : Rec}
    (hr : r = (s.dev.task core task).desc (bits (wArgs word) 0 12)) (hfree : Unheld s.dev core task [fld r 4 2] []) {slots : List (Nat × Nat)}
    (hslots : slots = s.dev.specSlots (s.dev.task core task).job (s.dev.task core task).progRound (spCord r) 1) (hnodup : (slots.map Prod.snd).Nodup) :
    ∃ t, exec (.specCommit core e) s = .next t ∧ Keeps s t ∧ Steers s.dev core task (t.dev.task core task) ((s.dev.task core task).pc + 1) ∧
      (∀ h, (t.dev.stream h).frame = (s.dev.stream h).frame ∧ (t.dev.stream h).token = (s.dev.stream h).token) ∧
      (∀ sl h c, (sl, h) ∈ slots → (s.dev.stream h).specOpen = true →
        sext 32 (((s.dev.task core task).view (fld r 4 2) false (slipsOf s.dev core task [fld r 4 2] [])).code (s.dev.core core).readable ⟨sl, 0, 0, 0⟩) = c →
        (s.dev.stream h).Committed (t.dev.stream h) (s.dev.specLenOf h) c ∧ (c ≤ 0 ∨ (s.dev.specLenOf h : Int) < c →
          ∀ l, l < 256 → (t.dev.seq h l).len = (s.dev.seq h l).len ∧ (t.dev.seq h l).cur = (s.dev.seq h l).cur)) := by
  set w : Who := ⟨core, task, (s.dev.task core task).pc⟩ with hw
  set slips := slipsOf s.dev core task [fld r 4 2] [] with hslips
  set cs : Nat → Int := fun sl => ((List.range 64).map (fun n =>
    sext 32 (((s.dev.task core task).view (fld r 4 2) false slips).code (s.dev.core core).readable ⟨n, 0, 0, 0⟩))).getD sl 0 with hcs
  have hop := hi.2.2.2.1
  have hclock : ∀ m cycle, (s.dev.clocked core task m cycle true).shed w = false := fun m cycle =>
    ((s.dev.sameCourse_clocked core task m cycle true).shed _).trans hs
  have hgen : ∀ d : Dev, d.Gen (fun _ => True) (slots.foldl (Dev.commitStep w r (spPairs (s.dev.task core task).desc (bits (wArgs word) 0 12)) cs) d) :=
    fun d => .foldl _ slots d (fun x a _ => .commitSlot x w r _ a.1 a.2 _ trivial)
  have hdone : ∀ d : Dev, d.Beside ((d.opDone w [fld r 4 2] [] slips {}).writeSeqs (s.dev.task core task).job) := fun d =>
    (Dev.Beside.opDone d w _ _ slips rfl).trans (.writeSeqs _ _)
  obtain ⟨t, m, cycle, d, f, hexec, hd, hf, hkeeps, hsteers, hstreams, hseqs, -, -⟩ := specWord_done he hi (.inr (.inl rfl)) hs
    (F := fun d => ((slots.foldl (Dev.commitStep w r (spPairs (s.dev.task core task).desc (bits (wArgs word) 0 12)) cs) d).opDone w [fld r 4 2] [] slips {}).writeSeqs
      (s.dev.task core task).job)
    (fun m cycle => by
      have heffect : wordEffect (s.dev.clocked core task m cycle true) w word evNone 0 =
          specCommitW (s.dev.clocked core task m cycle true) w (wDesc word) := by simp [wordEffect, hop, hclock]
      rw [heffect]
      unfold specCommitW
      dsimp only
      have hdesc : ((s.dev.clocked core task m cycle true).tk w).desc (wDesc word) = r := by rw [hr]; exact Dev.desc_clocked ..
      rw [hdesc, hw, Dev.opTest_of_unheld hfree, hslots]
      have hdescs : ((s.dev.clocked core task m cycle true).task core task).desc = (s.dev.task core task).desc := funext (fun i => Dev.desc_clocked ..)
      simp only [Dev.tk, Dev.taskJob_clocked, Dev.progRound_clocked, Dev.view_clocked, Dev.readable_clocked, hdescs]
      rfl)
    (fun m cycle => ((hgen _).trans (.of_beside (hdone _))).course core task)
  set g := slots.foldl (Dev.commitStep w r (spPairs (s.dev.task core task).desc (bits (wArgs word) 0 12)) cs) d with hg
  have hend : ∀ h, t.dev.stream h = { g.stream h with items := (t.dev.stream h).items } := fun h => by
    rw [Dev.stream_of_streams (hstreams.trans (congrArg Dev.streams hf)) h]
    exact (hdone g).stream h
  have hseq : ∀ h l, t.dev.seq h l = g.seq h l := Dev.seq_of_seqs (by rw [hseqs, hf]; exact (hdone g).seqs)
  have hold : ∀ h, d.stream h = s.dev.stream h := fun h => by rw [hd]; rfl
  refine ⟨t, hexec, hkeeps, hsteers, fun h => ?_, fun sl h c hin ho hc => ?_⟩
  · rw [hend h, ← hold]
    exact (hgen d).place h
  · have hcount : cs sl = c := by
      rw [hcs, ← hc]
      simp [Dev.slot_lt_of_mem_specSlots (hslots ▸ hin)]
    obtain ⟨x, y, hx, hy, hrest⟩ := Dev.commitStep_foldl (d := d) (w := w) (r := r)
      (pairs := spPairs (s.dev.task core task).desc (bits (wArgs word) 0 12)) (cs := cs) hin hnodup
    rw [hcount] at hy
    have hlen : x.specLenOf h = s.dev.specLenOf h := (hx.specLenOf (h := h) (by simp)).trans (by rw [hd]; rfl)
    have hxs : x.stream h = { s.dev.stream h with items := (x.stream h).items } := by rw [← hold]; exact hx.stream h (by simp)
    have hgs : g.stream h = { y.stream h with items := (g.stream h).items } := hrest.stream h (by simp)
    obtain ⟨hclosed, hproposed, hcommits, hkeep⟩ := x.stream_commitSlot w r (spPairs (s.dev.task core task).desc (bits (wArgs word) 0 12)) sl h c
      (by rw [hxs]; exact ho)
    rw [← hy, hlen] at hcommits hkeep
    rw [← hy] at hclosed hproposed
    rw [hxs] at hproposed hcommits hkeep
    refine ⟨?_, fun hout l hl => ?_⟩
    · rw [hend h, hgs]
      exact ⟨hclosed, hproposed, hcommits, fun hout => ⟨(hkeep hout).1, (hkeep hout).2.1⟩⟩
    · rw [hseq, hrest.seq h l (by simp) hl, show s.dev.seq h l = x.seq h l from ((hx.seq h l (by simp) hl).trans (by rw [hd]; rfl)).symm]
      exact (hkeep hout).2.2 h l

end Sys2Proof.Machine

open Sys2Proof Sys2Proof.Machine

/-- Settles O38: the shed words by their effect on the sequencer, the three words by what each leaves of streams and sequences. -/
theorem speculationOpensCommitsAborts : Obligations.SpeculationOpensCommitsAborts := by
  unfold Obligations.SpeculationOpensCommitsAborts
  intro core task e word r s he hr
  refine ⟨fun hs => ⟨fun hi => specOpen_shed he hi hs, fun hi => specWord_shed_only he hi (.inr (.inl rfl)) hs,
    fun hi => specWord_shed_only he hi (.inr (.inr rfl)) hs⟩, fun hi hs => specOpen_opens he hi hs hr rfl, fun hi hs => ?_, fun hi hs hfree hnodup => ?_⟩
  · obtain ⟨t, hexec, hkeeps, hsteers, hstream, hlists, hbytes⟩ := specAbort_aborts he hi hs hr rfl
    refine ⟨t, hexec, hkeeps, hsteers, fun h hin ho => ?_, fun h hout => ?_, hlists, hbytes⟩
    · rw [hstream, if_pos (mem_snd_iff.2 hin)]
      simp [Stream.aborted, ho]
    · rw [hstream]
      split
      next hin =>
        have ho := hout.resolve_left (fun h' => by obtain ⟨sl, hsl⟩ := mem_snd_iff.1 hin; exact h' sl hsl)
        simp [Stream.aborted, ho]
      next => rfl
  · obtain ⟨t, hexec, hkeeps, hsteers, hplace, hcommits⟩ := specCommit_commits he hi hs hr hfree rfl hnodup
    refine ⟨t, hexec, hkeeps, hsteers, hplace, fun sl h c hin ho hc => ?_⟩
    obtain ⟨⟨hclosed, hproposed, hcounts, hkeep⟩, hlists⟩ := hcommits sl h c hin ho hc
    exact ⟨hclosed, hproposed, hcounts, fun hout => ⟨(hkeep hout).1, (hkeep hout).2, hlists hout⟩⟩

end

section
/-! The face of the device that a mark keeps (R31, R33, R91): registers and shadows, values that wait for an activation, the time base beside its
state and its parent, and the measurements of the last mark. -/

namespace Sys2Proof.Machine

/-- The face: what of a device only the course of rounds, activations and the host change. -/
structure Face where
  regs : SMap Word
  shadow : SMap Word
  staged : SMap Word
  tb : TimeBase
  last : Measure

def Dev.face (d : Dev) : Face := ⟨d.regs, d.shadow, d.staged, { d.tb with state := 0, parent := 0 }, d.gov.last⟩

/-- An update of anything else keeps the face. -/
@[simp] theorem Dev.face_update (d : Dev) (kindle : Kindle) (trust : Trust) (cntNow cntLr : SMap Nat) (cores : SMap Core) (slices : SMap Slice) (well deep : SMap Byte)
    (poolUse : SMap Nat) (zeroing : List (Nat × Nat × Nat)) (jobs : SMap Job) (cmds : List HostCmd) (streams : SMap Stream) (seqs : SMap Seq)
    (moves : List Move) (freed : List Bytes) (cross : SMap CrossQ) (shipIn : Bytes) (rings : SMap HostRing) (out : List HostOut) (msix : Nat)
    (dones : List (Nat × Completion)) (provs : List Prov) (bound : List (Nat × Nat × Nat × Nat)) (targets : List Target) (samples : List Sample)
    (ports : SMap Port) (links : SMap Link) (fabric : Fabric) (mirror : Mirror) (err : ErrBlock) (log : LogBlock) (streamCks : List StreamCk)
    (coreCks : List CoreCk) (flr : Bool) (free holds : Nat) :
    Dev.face ⟨kindle, trust, d.tb, d.regs, d.shadow, d.staged, cntNow, cntLr, cores, slices, well, deep, poolUse, zeroing, jobs, cmds, streams, seqs,
      moves, freed, cross, shipIn, rings, out, msix, dones, provs, bound, targets, samples, ports, links, fabric, mirror, err, log, streamCks, coreCks,
      d.gov, flr, free, holds⟩ = d.face := rfl

@[simp] theorem Dev.face_ite (p : Prop) [Decidable p] (d e : Dev) : (if p then d else e).face = if p then d.face else e.face := apply_ite Dev.face p d e

/-- A fold whose steps keep the face keeps it. -/
theorem Dev.face_foldl {α : Type} {f : Dev → α → Dev} (h : ∀ e a, (f e a).face = e.face) (l : List α) (d : Dev) : (l.foldl f d).face = d.face :=
  foldl_proj Dev.face f l d (fun e a _ => h e a)

theorem Dev.face_foldl_fst {α β : Type} {f : Dev × β → α → Dev × β} (h : ∀ e a, (f e a).1.face = e.1.face) (l : List α) (d : Dev × β) :
    (l.foldl f d).1.face = d.1.face :=
  foldl_proj (fun x : Dev × β => x.1.face) f l d (fun e a _ => h e a)

/-- A detection keeps the face. -/
theorem Dev.Aside.face {d e : Dev} (h : d.Aside e) : e.face = d.face := by rw [h.rest]; rfl

end Sys2Proof.Machine
end

section
/-! The frame of the mark's operations (R33), one rule for each in the order of the model's files: none writes a register, a shadow, a value that
waits for an activation, the time base beside its state and its parent, or the measurements of the last mark. -/

namespace Sys2Proof.Machine

/-- What a word that goes on leaves of the face. -/
def WRes.Faces (r : WRes) (F : Face) : Prop := match r with
  | .done e => e.face = F
  | .hold _ _ => True

@[simp] theorem WRes.faces_done (F : Face) (e : Dev) : (WRes.done e).Faces F ↔ e.face = F := Iff.rfl

@[simp] theorem WRes.faces_hold (F : Face) (k : WaitKind) (b : Nat) : (WRes.hold k b).Faces F := trivial

theorem WRes.faces_ite {F : Face} {p : Prop} [Decidable p] {r s : WRes} (hr : r.Faces F) (hs : s.Faces F) : (if p then r else s).Faces F := by
  split <;> assumption

/-! ### Machine/Ops -/

@[simp] theorem Dev.face_setCore (d : Dev) (c : Nat) (x : Core) : (d.setCore c x).face = d.face := by
  unfold Dev.setCore
  rfl

@[simp] theorem Dev.face_onCore (d : Dev) (c : Nat) (f : Core → Core) : (d.onCore c f).face = d.face := by
  unfold Dev.onCore
  rfl

@[simp] theorem Dev.face_onTask (d : Dev) (c t : Nat) (f : Task → Task) : (d.onTask c t f).face = d.face := by
  unfold Dev.onTask
  rfl

@[simp] theorem Dev.face_onSlice (d : Dev) (s : Nat) (f : Slice → Slice) : (d.onSlice s f).face = d.face := by
  unfold Dev.onSlice
  rfl

@[simp] theorem Dev.face_onJob (d : Dev) (j : Nat) (f : Job → Job) : (d.onJob j f).face = d.face := by
  unfold Dev.onJob
  rfl

@[simp] theorem Dev.face_onStream (d : Dev) (h : Nat) (f : Stream → Stream) : (d.onStream h f).face = d.face := by
  unfold Dev.onStream
  rfl

@[simp] theorem Dev.face_onPort (d : Dev) (p : Nat) (f : Port → Port) : (d.onPort p f).face = d.face := by
  unfold Dev.onPort
  rfl

@[simp] theorem Dev.face_onLink (d : Dev) (l : Nat) (f : Link → Link) : (d.onLink l f).face = d.face := by
  unfold Dev.onLink
  rfl

@[simp] theorem Dev.face_onCross (d : Dev) (k : Nat) (f : CrossQ → CrossQ) : (d.onCross k f).face = d.face := by
  unfold Dev.onCross
  rfl

@[simp] theorem Dev.face_onRing (d : Dev) (k : Nat) (f : HostRing → HostRing) : (d.onRing k f).face = d.face := by
  unfold Dev.onRing
  rfl

@[simp] theorem Dev.face_at_now (d : Dev) : (d.at_ d.tb.now).face = d.face := by simp [Dev.at_, Dev.face]

@[simp] theorem Dev.face_count (d : Dev) (off lo n : Nat) : (d.count off lo n).face = d.face := (Dev.Aside.count d off lo n).face

@[simp] theorem Dev.face_noteLr (d : Dev) (off lo n : Nat) : (d.noteLr off lo n).face = d.face := by
  unfold Dev.noteLr
  simp

@[simp] theorem Dev.face_freeVal (d : Dev) (kind : Nat) : (d.freeVal kind).2.face = d.face := by
  unfold Dev.freeVal
  rfl

@[simp] theorem Dev.face_emit (d : Dev) (o : HostOut) : (d.emit o).face = d.face := by
  unfold Dev.emit
  rfl

@[simp] theorem Dev.face_vector (d : Dev) (v : Nat) : (d.vector v).face = d.face := by
  unfold Dev.vector
  simp

@[simp] theorem Dev.face_raise (d : Dev) (e : Err) : (d.raise e).face = d.face := (Dev.Aside.raise d e).face

@[simp] theorem Dev.face_logRec (d : Dev) (r : Bytes) : (d.logRec r).face = d.face := by
  unfold Dev.logRec
  simp

@[simp] theorem Dev.face_ringIrq (d : Dev) (kind n : Nat) : (d.ringIrq kind n).face = d.face := by
  unfold Dev.ringIrq
  simp

@[simp] theorem Dev.face_writeEntry (d : Dev) (kind n : Nat) (bs : Bytes) : (d.writeEntry kind n bs).face = d.face := by
  unfold Dev.writeEntry
  simp

@[simp] theorem Dev.face_post (d : Dev) (kind n : Nat) (bs : Bytes) : (d.post kind n bs).1.face = d.face := by
  unfold Dev.post
  dsimp only
  split
  · simp
  · split <;> simp

@[simp] theorem Dev.face_postCompletion (d : Dev) (c : Completion) : (d.postCompletion c).face = d.face := by
  have h := d.face_post 1 c.job (completionBytes c d.tb.now)
  unfold Dev.postCompletion
  split <;> rename_i hp <;> rw [hp] at h <;> simpa using h

@[simp] theorem Dev.face_finishAt (d : Dev) (c : Completion) (round : Nat) : (d.finishAt c round).face = d.face := by
  unfold Dev.finishAt
  simp

@[simp] theorem Dev.face_finish (d : Dev) (c : Completion) : (d.finish c).face = d.face := by
  unfold Dev.finish
  simp

@[simp] theorem Dev.face_finishCmd (d : Dev) (job : Nat) (r : CmdRef) (status code : Nat) : (d.finishCmd job r status code).face = d.face := by
  unfold Dev.finishCmd
  simp

/-! ### Machine/Contain -/

@[simp] theorem Dev.face_wellWrite (d : Dev) (a : Nat) (bs : Bytes) : (d.wellWrite a bs).face = d.face := by
  unfold Dev.wellWrite
  simp

@[simp] theorem Dev.face_onJobs {f : Dev → Nat → Dev} (h : ∀ e j, (f e j).face = e.face) (d : Dev) : (d.onJobs f).face = d.face :=
  Dev.face_foldl h _ _

@[simp] theorem Dev.face_refreshSlices (d : Dev) : d.refreshSlices.face = d.face := by
  refine Dev.face_foldl (fun e s => ?_) _ _
  split <;> simp

@[simp] theorem Dev.face_supersede (d : Dev) (p : Prov) (code : Nat) : (d.supersede p code).face = d.face := by
  unfold Dev.supersede
  simp

@[simp] theorem Dev.face_supersedeItem (d : Dev) (h : Nat) (i : Item) (code : Nat) : (d.supersedeItem h i code).face = d.face := by
  unfold Dev.supersedeItem
  simp [Dev.face_foldl]

@[simp] theorem Dev.face_endItem (d : Dev) (h : Nat) (i : Item) (status code : Nat) : (d.endItem h i status code).face = d.face := by
  unfold Dev.endItem
  simp

@[simp] theorem Dev.face_cancelItems (d : Dev) (h : Nat) : (d.cancelItems h).face = d.face := by
  unfold Dev.cancelItems
  simp [Dev.face_foldl]

@[simp] theorem Dev.face_dropStale (d : Dev) : (d.dropStale).face = d.face := by
  unfold Dev.dropStale
  simp [Dev.face_foldl]

@[simp] theorem Dev.face_closeWindows (d : Dev) (j : Nat) : (d.closeWindows j).face = d.face := by
  unfold Dev.closeWindows
  rfl

@[simp] theorem Dev.face_setTaskStates (d : Dev) (j : Nat) (st : TaskState) : (d.setTaskStates j st).face = d.face := by
  unfold Dev.setTaskStates
  simp [Dev.face_foldl]

@[simp] theorem Dev.face_dropStream (d : Dev) (h : Nat) (f : Stream → Stream) : (d.dropStream h f).face = d.face := by
  unfold Dev.dropStream
  rfl

@[simp] theorem Dev.face_freeStream (d : Dev) (h : Nat) : (d.freeStream h).face = d.face := by
  unfold Dev.freeStream
  rfl

@[simp] theorem Dev.face_endStream (d : Dev) (h : Nat) : (d.endStream h).face = d.face := by
  unfold Dev.endStream
  dsimp only
  split <;> simp

/-! ### Machine/Fabric -/

@[simp] theorem Dev.face_advertise (d : Dev) : (d.advertise).face = d.face := (Dev.Aside.advertise d).face

@[simp] theorem Dev.face_send (d : Dev) (f : Flood) : (d.send f).face = d.face := by
  unfold Dev.send
  rfl

@[simp] theorem Dev.face_reparent (d : Dev) : d.reparent.face = d.face := by
  unfold Dev.reparent
  dsimp only
  split <;> rfl

@[simp] theorem Dev.face_checkMinority (d : Dev) : (d.checkMinority).face = d.face := (Dev.Aside.checkMinority d).face

/-! ### Machine/HostPort -/

@[simp] theorem Dev.face_windowDrop (d : Dev) (c : Nat) : (d.windowDrop c).face = d.face := by
  unfold Dev.windowDrop
  rfl

/-! ### Machine/Detect -/

@[simp] theorem Dev.face_onRunning (d : Dev) (n : Nat) (hs : List Nat) (f : Item → Item) : (d.onRunning n hs f).face = d.face := (Dev.Aside.onRunning d n hs f).face

@[simp] theorem Dev.face_markFailed (d : Dev) (n : Nat) (hs : List Nat) (code : Nat) : (d.markFailed n hs code).face = d.face := by
  unfold Dev.markFailed
  simp

@[simp] theorem Dev.face_failItems (d : Dev) (e : Err) (n : Nat) (hs : List Nat) (ring : Option Nat) : (d.failItems e n hs ring).face = d.face := by
  unfold Dev.failItems
  simp

@[simp] theorem Dev.face_loseCore (d : Dev) (c code round : Nat) : (d.loseCore c code round).face = d.face := (Dev.Aside.loseCore d c code round).face

@[simp] theorem Dev.face_loseSlice (d : Dev) (s code round : Nat) : (d.loseSlice s code round).face = d.face := (Dev.Aside.loseSlice d s code round).face

@[simp] theorem Dev.face_loseCtl (d : Dev) (k code round : Nat) : (d.loseCtl k code round).face = d.face := by
  unfold Dev.loseCtl
  simp

@[simp] theorem Dev.face_detect (d : Dev) (e : Err) (hs : List Nat) (job c t round : Nat) : (d.detect e hs job c t round).face = d.face :=
  (Dev.Aside.detect d e hs job c t round).face

@[simp] theorem Dev.face_opDetectAt (d : Dev) (code cls c t w n a b : Nat) : (d.opDetectAt code cls c t w n a b).face = d.face := by
  unfold Dev.opDetectAt
  simp

@[simp] theorem Dev.face_opDetect (d : Dev) (code cls c t w a b : Nat) : (d.opDetect code cls c t w a b).face = d.face := by
  unfold Dev.opDetect
  simp

@[simp] theorem Dev.face_sliceDown (d : Dev) (c t i : Nat) : (d.sliceDown c t i).face = d.face := (Dev.Aside.sliceDown d c t i).face

@[simp] theorem Dev.face_blockFault (d : Dev) (code c t w n tgen blocks addr : Nat) : (d.blockFault code c t w n tgen blocks addr).face = d.face := by
  unfold Dev.blockFault
  simp

@[simp] theorem Dev.face_engEvent (d : Dev) (c t w : Nat) (ev : EngEv) : (d.engEvent c t w ev).face = d.face := by
  unfold Dev.engEvent
  split <;> simp

/-! ### Machine/Operands -/

@[simp] theorem Dev.face_ringMove (d : Dev) (c t : Nat) (slips : List (Nat × Bool)) (u : Nat × Bool) : (d.ringMove c t slips u).face = d.face := by
  unfold Dev.ringMove
  split <;> simp

@[simp] theorem Dev.face_slip (d : Dev) (w : Who) (ring : Nat) : (d.slip w ring).face = d.face := by
  unfold Dev.slip
  simp

@[simp] theorem Dev.face_endRingWait (d : Dev) (c t : Nat) : (d.endRingWait c t).face = d.face := by
  unfold Dev.endRingWait
  dsimp only
  split
  · split <;> simp
  · simp

@[simp] theorem Dev.face_eccReadFor (d : Dev) (hs : List Nat) (c t round : Nat) (ws : List Nat) : (d.eccReadFor hs c t round ws).face = d.face :=
  (Dev.Aside.eccReadFor d hs c t round ws).face

@[simp] theorem Dev.face_eccRead (d : Dev) (c t w round : Nat) (ws : List Nat) : (d.eccRead c t w round ws).face = d.face := by
  unfold Dev.eccRead
  simp

@[simp] theorem Dev.face_boundFault (d : Dev) (w : Who) (round n : Nat) : (d.boundFault w round n).face = d.face := by
  unfold Dev.boundFault
  simp

@[simp] theorem Dev.face_opDone (d : Dev) (w : Who) (reads writes : List Nat) (slips : List (Nat × Bool)) (o : OpOut) :
    (d.opDone w reads writes slips o).face = d.face := by
  unfold Dev.opDone
  simp [Dev.face_foldl]

@[simp] theorem Dev.face_evSeen (d : Dev) (c : Nat) (ev : EngEv) : (d.evSeen c ev).face = d.face := by
  unfold Dev.evSeen
  split <;> simp

@[simp] theorem Dev.face_seen (d : Dev) (c : Nat) (det : Detect) : (d.seen c det).face = d.face := by
  unfold Dev.seen
  split <;> simp

@[simp] theorem Dev.face_evMark (d : Dev) (w : Who) (ev : EngEv) : (d.evMark w ev).face = d.face := by
  unfold Dev.evMark
  simp

/-! ### Machine/Interlock -/

theorem faces_opTest {d : Dev} {w : Who} {reads writes : List Nat} {k : List (Nat × Bool) → WRes} {F : Face} (h : ∀ slips, (k slips).Faces F) :
    (d.opTest w reads writes k).Faces F := by
  unfold Dev.opTest
  dsimp only
  split
  · trivial
  · split
    · trivial
    · exact h _

/-! ### Machine/Matrix -/

@[simp] theorem faces_matRunW (d : Dev) (w : Who) (desc B wgt : Nat) (ev : EngEv) : (matRunW d w desc B wgt ev).Faces d.face := by
  unfold matRunW
  refine faces_opTest fun slips => ?_
  refine WRes.faces_ite trivial ((Dev.face_evMark _ _ _).trans ((Dev.face_foldl (fun e f => ?_) _ _).trans (by simp)))
  split <;> simp

@[simp] theorem faces_gateSetW (d : Dev) (w : Who) (desc : Nat) : (gateSetW d w desc).Faces d.face := by
  unfold gateSetW
  rfl

/-! ### Machine/Element -/

@[simp] theorem faces_elementMap (d : Dev) (w : Who) (desc first : Nat) (ev : EngEv) : (elementMap d w desc first ev).Faces d.face := by
  unfold elementMap
  refine faces_opTest fun _ => ?_
  exact (Dev.face_evMark _ _ _).trans ((Dev.face_opDone _ _ _ _ _ _).trans (by simp))

@[simp] theorem faces_elementLut (d : Dev) (w : Who) (desc first : Nat) (ev : EngEv) : (elementLut d w desc first ev).Faces d.face := by
  unfold elementLut
  refine faces_opTest fun _ => ?_
  exact (Dev.face_evMark _ _ _).trans ((Dev.face_opDone _ _ _ _ _ _).trans (by simp))

@[simp] theorem faces_eleRunW (d : Dev) (w : Who) (desc first : Nat) (ev : EngEv) : (eleRunW d w desc first ev).Faces d.face := by
  unfold eleRunW
  split <;> simp

/-! ### Machine/Scan -/

@[simp] theorem faces_eleScanW (d : Dev) (w : Who) (desc : Nat) (ev : EngEv) : (eleScanW d w desc ev).Faces d.face := by
  unfold eleScanW
  refine faces_opTest fun _ => ?_
  exact (Dev.face_evMark _ _ _).trans ((Dev.face_opDone _ _ _ _ _ _).trans (by simp))

/-! ### Machine/Reduce -/

@[simp] theorem faces_redRunW (d : Dev) (w : Who) (desc sum : Nat) (ev : EngEv) : (redRunW d w desc sum ev).Faces d.face := by
  unfold redRunW
  refine faces_opTest fun _ => ?_
  exact (Dev.face_evMark _ _ _).trans ((Dev.face_opDone _ _ _ _ _ _).trans (by simp))

/-! ### Machine/Convert -/

@[simp] theorem faces_convertW (d : Dev) (w : Who) (desc : Nat) (ev : EngEv) : (convertW d w desc ev).Faces d.face := by
  unfold convertW
  refine faces_opTest fun _ => ?_
  exact (Dev.face_evMark _ _ _).trans ((Dev.face_opDone _ _ _ _ _ _).trans (by simp))

@[simp] theorem faces_statFlushW (d : Dev) (w : Who) (desc : Nat) : (statFlushW d w desc).Faces d.face := by
  unfold statFlushW
  rfl

/-! ### Machine/Sampler -/

@[simp] theorem faces_smpReqW (d : Dev) (w : Who) (desc : Nat) : (smpReqW d w desc).Faces d.face := by
  unfold smpReqW
  refine faces_opTest fun _ => ?_
  exact (Dev.face_opDone _ _ _ _ _ _).trans (by simp)

/-! ### Machine/Relay -/

@[simp] theorem Dev.face_takeFault (d : Dev) (code c t lo hi b : Nat) : (d.takeFault code c t lo hi b).face = d.face := by
  unfold Dev.takeFault
  simp

@[simp] theorem faces_relayW (d : Dev) (w : Who) (desc : Nat) : (relayW d w desc).Faces d.face := by
  unfold relayW
  simp

/-! ### Machine/Pump -/

@[simp] theorem Dev.face_onPump (d : Dev) (p : PumpId) (f : Pump → Pump) : (d.onPump p f).face = d.face := by
  cases p <;> simp [Dev.onPump]

@[simp] theorem Dev.face_rebasePumps (d : Dev) : (d.rebasePumps).face = d.face := by
  unfold Dev.rebasePumps
  simp [Dev.face_foldl]

@[simp] theorem Dev.face_choosePaths (d : Dev) (j : Nat) : (d.choosePaths j).face = d.face := by
  unfold Dev.choosePaths
  split <;> simp

@[simp] theorem Dev.face_flitTime (d : Dev) (f : Nat) : (d.flitTime f).2.face = d.face := by
  unfold Dev.flitTime
  split <;> simp

@[simp] theorem Dev.face_enqueue (d : Dev) (p : PumpId) (x : Xfer) : (d.enqueue p x).face = d.face := by
  unfold Dev.enqueue
  simp

@[simp] theorem faces_pumpW (d : Dev) (w : Who) (desc kind : Nat) : (pumpW d w desc kind).Faces d.face := by
  unfold pumpW
  dsimp only
  (repeat' split) <;> simp

@[simp] theorem Dev.face_xferFail (d : Dev) (x : Xfer) (code : Nat) (ring : Option Nat) : (d.xferFail x code ring).face = d.face := by
  unfold Dev.xferFail
  simp

@[simp] theorem Dev.face_dropXfer (d : Dev) (p : PumpId) (x : Xfer) : (d.dropXfer p x).face = d.face := by
  unfold Dev.dropXfer
  simp

/-! ### Machine/Spec -/

@[simp] theorem Dev.face_pageWrite (d : Dev) (l : Rec) (i p h : Nat) (ws : List (Nat × Bytes)) : (d.pageWrite l i p h ws).face = d.face := by
  unfold Dev.pageWrite
  simp [Dev.face_foldl]

@[simp] theorem Dev.face_onPages (d : Dev) (l : Rec) (i p : Nat) (ws : List (Nat × Bytes)) : (d.onPages l i p ws).face = d.face := by
  unfold Dev.onPages
  simp [Dev.face_foldl]

@[simp] theorem Dev.face_copyPages (d : Dev) (l : Rec) (i src dst round : Nat) (hs : List Nat) : (d.copyPages l i src dst round hs).face = d.face := by
  unfold Dev.copyPages
  simp [Dev.face_foldl]

@[simp] theorem Dev.face_setSeq (d : Dev) (h layer : Nat) (f : Seq → Seq) : (d.setSeq h layer f).face = d.face := by
  unfold Dev.setSeq
  rfl

@[simp] theorem Dev.face_openSeq (d : Dev) (h round : Nat) (l : Rec) : (d.openSeq h round l).face = d.face := by
  unfold Dev.openSeq
  dsimp only
  split <;> simp

@[simp] theorem Dev.face_commitSeq (d : Dev) (h : Nat) (l : Rec) (c : Nat) : (d.commitSeq h l c).face = d.face := by
  unfold Dev.commitSeq
  simp only [Dev.face_setSeq]
  refine Dev.face_foldl (fun e n => ?_) _ _
  split <;> simp

@[simp] theorem Dev.face_abortSeq (d : Dev) (h : Nat) (l : Rec) : (d.abortSeq h l).face = d.face := by
  unfold Dev.abortSeq
  rfl

@[simp] theorem Dev.face_abortGen (d : Dev) (h : Nat) (draft : Bool) : (d.abortGen h draft).face = d.face := by
  unfold Dev.abortGen
  simp [Dev.face_foldl]

@[simp] theorem Dev.face_putIn (d : Dev) (c t space : Nat) (ws : List (Nat × Bytes)) : (d.putIn c t space ws).face = d.face := by
  unfold Dev.putIn
  simp [Dev.face_foldl]

@[simp] theorem Dev.face_writeRow (d : Dev) (c t : Nat) (r : Rec) (q : Nat) : (d.writeRow c t r q).face = d.face := by
  unfold Dev.writeRow
  dsimp only
  split <;> simp

@[simp] theorem Dev.face_writeRows (d : Dev) (c t : Nat) : (d.writeRows c t).face = d.face := by
  unfold Dev.writeRows
  simp [Dev.face_foldl]

@[simp] theorem Dev.face_writeSeqs (d : Dev) (j : Nat) : (d.writeSeqs j).face = d.face := by
  unfold Dev.writeSeqs
  simp [Dev.face_foldl]

@[simp] theorem faces_specOpenW (d : Dev) (w : Who) (desc : Nat) : (specOpenW d w desc).Faces d.face := by
  unfold specOpenW
  simp [Dev.face_foldl]

@[simp] theorem faces_specAbortW (d : Dev) (w : Who) (desc : Nat) : (specAbortW d w desc).Faces d.face := by
  unfold specAbortW
  simp [Dev.face_foldl]

@[simp] theorem Dev.face_commitSlot (d : Dev) (w : Who) (r : Rec) (pairs : List (Nat × Nat)) (slot h : Nat) (c : Int) :
    (d.commitSlot w r pairs slot h c).face = d.face := by
  unfold Dev.commitSlot
  simp [Dev.face_foldl]

@[simp] theorem faces_specCommitW (d : Dev) (w : Who) (desc : Nat) : (specCommitW d w desc).Faces d.face := by
  unfold specCommitW
  refine faces_opTest fun _ => ?_
  exact (Dev.face_writeSeqs _ _).trans ((Dev.face_opDone _ _ _ _ _ _).trans (Dev.face_foldl (fun _ _ => by simp) _ _))

@[simp] theorem Dev.face_specTrack (d : Dev) (w : Who) (writes : List Nat) : (d.specTrack w writes).face = d.face := by
  unfold Dev.specTrack
  simp [Dev.face_foldl]

@[simp] theorem Dev.face_sealEmber (d : Dev) (h round : Nat) (init : Bool) : (d.sealEmber h round init).face = d.face := by
  unfold Dev.sealEmber
  simp

@[simp] theorem faces_emberOutW (d : Dev) (w : Who) (desc : Nat) : (emberOutW d w desc).Faces d.face :=
  WRes.faces_ite trivial (faces_opTest fun _ => (Dev.face_opDone _ _ _ _ _ _).trans (Dev.face_foldl (fun _ _ => by simp) _ _))

@[simp] theorem faces_emberInW (d : Dev) (w : Who) (desc : Nat) : (emberInW d w desc).Faces d.face := by
  refine WRes.faces_ite trivial (faces_opTest fun slips => (Dev.face_opDone _ _ _ _ _ _).trans (Dev.face_foldl (fun e s => ?_) _ _))
  dsimp only
  split
  · simp
  · exact (Dev.face_foldl_fst (fun _ _ => by simp) _ _).trans (by simp)

/-! ### Machine/Release -/

@[simp] theorem Dev.face_countWindows (d : Dev) (c : Nat) (w : Writer) (lo n : Nat) : (d.countWindows c w lo n).face = d.face := by
  unfold Dev.countWindows
  simp [Dev.face_foldl]

@[simp] theorem faces_fillSlot (d : Dev) (c t ring : Nat) (writes : List (Nat × Bytes)) : (d.fillSlot c t ring writes).Faces d.face := by
  unfold Dev.fillSlot
  dsimp only
  split
  · trivial
  · split <;> simp

/-- A slot that was filled, or that no ring has, keeps the face. -/
theorem Dev.face_of_fillSlot {d e : Dev} {c t ring : Nat} {writes : List (Nat × Bytes)} (h : d.fillSlot c t ring writes = .done e) : e.face = d.face := by
  have keeps := faces_fillSlot d c t ring writes
  rw [h] at keeps
  exact keeps

@[simp] theorem Dev.face_slipSlot (d : Dev) (c t ring : Nat) : (d.slipSlot c t ring).face = d.face := by
  unfold Dev.slipSlot
  dsimp only
  split <;> simp

@[simp] theorem Dev.face_recordEach (d : Dev) (e : Err) (n : Nat) (hs : List Nat) (ring : Nat) (corr : Nat → Bool) : (d.recordEach e n hs ring corr).face = d.face := by
  unfold Dev.recordEach
  simp [Dev.face_foldl]

@[simp] theorem Dev.face_voidPort (d : Dev) (w : Who) (ring : Nat) (r : Rec) (n : Nat) : (d.voidPort w ring r n).face = d.face :=
  Dev.face_foldl_fst (fun _ _ => by dsimp only; split <;> simp) _ _

@[simp] theorem Dev.face_voidIntake (d : Dev) (w : Who) (ring src n : Nat) : (d.voidIntake w ring src n).face = d.face :=
  Dev.face_foldl_fst (fun _ _ => by dsimp only; split <;> simp) _ _

@[simp] theorem Dev.face_dropRx (d : Dev) (l k : Nat) : (d.dropRx l k).face = d.face := by
  unfold Dev.dropRx
  rfl

@[simp] theorem Dev.face_reject (d : Dev) (header : Bytes) : (d.reject header).face = d.face := by
  unfold Dev.reject
  rfl

@[simp] theorem Dev.face_countLate (d : Dev) (l : Nat) : (d.countLate l).face = d.face := by
  unfold Dev.countLate
  rfl

/-- A landing that was put in its slot, or dropped, keeps the face. -/
theorem Dev.face_of_landOne {d e : Dev} {w : Who} {ring : Nat} (h : d.landOne w ring = some e) : e.face = d.face := by
  unfold Dev.landOne at h
  dsimp only at h
  split at h
  · injection h with h; rw [h]
  · split at h
    · injection h with h; rw [h]
    · split at h
      · injection h with h; simp [← h]
      · split at h
        · nomatch h
        · split at h
          · split at h
            · next hd =>
              injection h with h
              rw [← h]
              simpa using Dev.face_of_fillSlot hd
            · nomatch h
          · injection h with h; simp [← h]

@[simp] theorem Dev.face_landAll (w : Who) (ring n : Nat) (d : Dev) : (Dev.landAll w ring n d).1.face = d.face := by
  induction n generalizing d with
  | zero => rfl
  | succ n ih =>
    unfold Dev.landAll
    split
    · rfl
    · next d1 h => exact (ih d1).trans (Dev.face_of_landOne h)

@[simp] theorem Dev.face_noteReleased (d : Dev) (w : Who) (ring : Nat) : (d.noteReleased w ring).face = d.face := by
  unfold Dev.noteReleased
  rfl

@[simp] theorem Dev.face_judgeRx (d : Dev) (late : Bool) (xs : List (Nat × Nat × RxXfer)) : (d.judgeRx late xs).face = d.face := by
  unfold Dev.judgeRx
  simp [Dev.face_foldl]

@[simp] theorem Dev.face_judgeTick (d : Dev) (w : Who) (ring : Nat) (r : Ring) : (d.judgeTick w ring r).1.face = d.face := by
  unfold Dev.judgeTick
  dsimp only
  (repeat' split) <;> simp [Dev.face_foldl]

@[simp] theorem faces_releaseLink (d : Dev) (w : Who) (ring : Nat) (r : Ring) : (d.releaseLink w ring r).Faces d.face := by
  unfold Dev.releaseLink
  dsimp only
  (repeat' split) <;> simp

@[simp] theorem Dev.face_onXfer (d : Dev) (p : PumpId) (x : Xfer) (f : Xfer → Xfer) : (d.onXfer p x f).face = d.face := by
  unfold Dev.onXfer
  simp

@[simp] theorem Dev.face_lateXfer (d : Dev) (w : Who) (p : PumpId) (x : Xfer) (ring : Nat) : (d.lateXfer w p x ring).1.face = d.face := by
  unfold Dev.lateXfer
  dsimp only
  (repeat' split) <;> simp [Dev.face_foldl]

@[simp] theorem faces_releaseWell (d : Dev) (w : Who) (ring : Nat) : (d.releaseWell w ring).Faces d.face := by
  unfold Dev.releaseWell
  dsimp only
  split
  · rfl
  · split
    · split
      · next hd => simp [Dev.face_of_fillSlot hd]
      · simp
    · split
      · rfl
      · split <;> simp

@[simp] theorem Dev.face_noteWell (d : Dev) (w : Who) (ring : Nat) : (d.noteWell w ring).face = d.face := by
  unfold Dev.noteWell
  split
  · simp
  · split <;> simp

@[simp] theorem Dev.face_noteLate (d : Dev) (w : Who) (ring : Nat) : (d.noteLate w ring).face = d.face := by
  unfold Dev.noteLate
  dsimp only
  (repeat' split) <;> simp

@[simp] theorem Dev.face_writeClsMeta (d : Dev) (job n : Nat) (sel : Option (Nat × Nat) → Bool) (x : Rec) : (d.writeClsMeta job n sel x).face = d.face := by
  unfold Dev.writeClsMeta
  simp [Dev.face_foldl]

@[simp] theorem Dev.face_writeMeta (d : Dev) (job n : Nat) (tasks : Nat → Nat → Bool) (sel : Option (Nat × Nat) → Bool) :
    (d.writeMeta job n tasks sel).face = d.face := by
  unfold Dev.writeMeta
  split <;> simp [Dev.face_foldl]

@[simp] theorem faces_releaseW (d : Dev) (w : Who) (ring : Nat) : (releaseW d w ring).Faces d.face := by
  unfold releaseW
  dsimp only
  split
  · rfl
  · split
    · split
      · split
        · rfl
        · split
          · next hd => simp [Dev.face_of_fillSlot hd]
          · simp
      · rfl
    · split
      · split
        · rfl
        · split
          · next hd => simp [Dev.face_of_fillSlot hd]
          · simp
      · split
        · simp
        · split
          · simp
          · rfl

/-! ### Machine/Recover -/

@[simp] theorem Dev.face_capture (d : Dev) (n h : Nat) : (d.capture n h).face = d.face := by
  unfold Dev.capture
  rfl

@[simp] theorem Dev.face_captureCore (d : Dev) (n c : Nat) : (d.captureCore n c).face = d.face := by
  unfold Dev.captureCore
  rfl

@[simp] theorem Dev.face_putSlices (d : Dev) (ck : StreamCk) (mv : Nat → Nat) : (d.putSlices ck mv).face = d.face := by
  unfold Dev.putSlices
  split <;> simp [Dev.face_foldl]

@[simp] theorem Dev.face_restoreSeq (d : Dev) (h : Nat) (l : Rec) (q : Seq) : (d.restoreSeq h l q).face = d.face := by
  unfold Dev.restoreSeq
  simp [Dev.face_foldl]

@[simp] theorem Dev.face_putState (d : Dev) (ck : StreamCk) (mv : Nat → Nat) : (d.putState ck mv).face = d.face := by
  unfold Dev.putState
  simp only [Dev.face_onStream]
  exact (Dev.face_foldl (fun e l => by split <;> simp) _ _).trans (by simp)

@[simp] theorem Dev.face_restoreStream (d : Dev) (h n code : Nat) (mv : Nat → Nat) (hit : Item → Bool) : (d.restoreStream h n code mv hit).face = d.face := by
  unfold Dev.restoreStream
  split <;> simp [Dev.face_foldl]

@[simp] theorem Dev.face_restoreState (d : Dev) (h n : Nat) : (d.restoreState h n).face = d.face := by
  unfold Dev.restoreState
  split <;> simp

@[simp] theorem Dev.face_restoreTask (d : Dev) (c t n : Nat) : (d.restoreTask c t n).face = d.face := by
  unfold Dev.restoreTask
  split
  · rfl
  · refine (Dev.face_foldl (fun e a => ?_) _ _).trans (by simp)
    split
    · split <;> simp
    · rfl

@[simp] theorem Dev.face_restoreCore (d : Dev) (c c' n : Nat) : (d.restoreCore c c' n).face = d.face := by
  unfold Dev.restoreCore
  split <;> simp [Dev.face_foldl]

@[simp] theorem Dev.face_restoreTimed (d : Dev) (h : Nat) : (d.restoreTimed h).face = d.face := by
  unfold Dev.restoreTimed
  dsimp only
  split
  · simp
  · split <;> simp

/-! ### Machine/Adapt -/

@[simp] theorem Dev.face_onAdp (d : Dev) (j a : Nat) (f : AdpState → AdpState) : (d.onAdp j a f).face = d.face := by
  unfold Dev.onAdp
  rfl

@[simp] theorem Dev.face_clearGrads (d : Dev) (w : Who) (a : Rec) : (d.clearGrads w a).face = d.face := by
  unfold Dev.clearGrads
  rfl

@[simp] theorem Dev.face_adaptStep (d : Dev) (w : Who) (a : Rec) : (d.adaptStep w a).face = d.face := by
  unfold Dev.adaptStep
  extract_lets k s n d0 step tot restart hs met ok d1 d2 d3
  have hr : ∀ e x y, (restart e x y).face = e.face := fun e _ _ => Dev.face_onAdp _ _ _ _
  clear_value restart
  split
  · rfl
  · split
    · rw [hr, Dev.face_clearGrads]
    · split
      · rw [Dev.face_onAdp]
      · split
        · exact hr _ _ _
        · rw [Dev.face_eccRead]
          show (if ok = true then _ else _ : Dev).face = _
          split
          · rw [hr, Dev.face_clearGrads, Dev.face_onCore, Dev.face_count]
          · split <;> simp [hr, d1, d2, d0]

@[simp] theorem Dev.face_adaptSpanEnd (d : Dev) (w : Who) : (d.adaptSpanEnd w).face = d.face := by
  unfold Dev.adaptSpanEnd
  simp [Dev.face_foldl]

@[simp] theorem Dev.face_switchAdapters (d : Dev) (c t r : Nat) : (d.switchAdapters c t r).face = d.face := by
  refine Dev.face_foldl (fun e x => ?_) _ _
  dsimp only
  split
  · split <;> simp
  · rfl

/-! ### Machine/Results -/

@[simp] theorem Dev.face_postRecord (d : Dev) (w : Who) (n : Nat) (prov : Bool) (h payload : Bytes) (now : Nat) :
    (d.postRecord w n prov h payload now).face = d.face := by
  unfold Dev.postRecord
  dsimp only
  split <;> simp [Dev.face_foldl]

@[simp] theorem faces_resultW (d : Dev) (w : Who) (ring : Nat) (prov : Bool) : (resultW d w ring prov d.tb.now).Faces d.face := by
  unfold resultW
  dsimp only
  split
  · simp
  · refine WRes.faces_ite trivial ?_
    rw [WRes.faces_done]
    simp only [Dev.face_ite, Dev.face_slip, Dev.face_ringMove, ite_self]
    split
    · exact (Dev.face_foldl (fun _ _ => by simp) _ _).trans (by simp)
    · simp

/-! ### Machine/Programs -/

@[simp] theorem Dev.face_captureDue (d : Dev) (j : Nat) : (d.captureDue j).face = d.face := by
  refine (Dev.face_foldl (fun e c => ?_) _ _).trans (Dev.face_foldl (fun _ _ => by split <;> simp) _ _)
  dsimp only
  split <;> simp

@[simp] theorem Dev.face_settleStop (d : Dev) (j : Nat) : (d.settleStop j).face = d.face := by
  unfold Dev.settleStop
  simp [Dev.face_foldl]

/-! ### Machine/Sequencer -/

@[simp] theorem faces_tlyAddW (d : Dev) (w : Who) (a : Nat) : (tlyAddW d w a).Faces d.face := by
  unfold tlyAddW
  dsimp only
  (repeat' split) <;> simp

@[simp] theorem faces_tlyWaitW (d : Dev) (w : Who) (a : Nat) : (tlyWaitW d w a).Faces d.face := by
  unfold tlyWaitW
  dsimp only
  split <;> simp

@[simp] theorem faces_windowW (d : Dev) (w : Who) (a : Nat) : (windowW d w a).Faces d.face := by
  unfold windowW
  rfl

@[simp] theorem faces_wordEffect (d : Dev) (w : Who) (word : Nat) (ev : EngEv) : (wordEffect d w word ev d.tb.now).Faces d.face := by
  unfold wordEffect
  dsimp only
  split
  case h_15 | h_16 | h_17 => split <;> simp
  case h_22 =>
    split
    · simp
    · split
      · simp
      · rw [WRes.faces_done, Dev.face_onTask]
        split <;> simp
  all_goals simp

@[simp] theorem Dev.face_wordDone (d : Dev) (w : Who) (word : Nat) : (d.wordDone w word).face = d.face := by
  unfold Dev.wordDone
  simp

@[simp] theorem Dev.face_lateReads (d : Dev) (w : Who) (word : Nat) : (d.lateReads w word).1.face = d.face :=
  Dev.face_foldl_fst (fun e y => by simp) _ _

@[simp] theorem Dev.face_holdWord (d : Dev) (w : Who) (kind : WaitKind) (budget : Nat) : (d.holdWord w kind budget).face = d.face := by
  unfold Dev.holdWord
  dsimp only
  split
  · split <;> simp
  · simp

@[simp] theorem Dev.face_countStall (d : Dev) (c word n : Nat) : (d.countStall c word n).face = d.face := by
  unfold Dev.countStall
  simp

/-- A word that went on keeps the face. -/
theorem Dev.face_of_wordEffect {d e : Dev} {w : Who} {word : Nat} {ev : EngEv} {now : Nat} (hnow : now = d.tb.now) (h : wordEffect d w word ev now = .done e) :
    e.face = d.face := by
  have keeps := faces_wordEffect d w word ev
  rw [← hnow, h] at keeps
  exact keeps

theorem Dev.now_of_face {d e : Dev} (h : e.face = d.face) : e.tb.now = d.tb.now := congrArg (fun f : Face => f.tb.now) h

theorem Dev.face_runWord {d : Dev} {w : Who} {word : Nat} {ev : EngEv} {now : Nat} (hnow : now = d.tb.now) : (d.runWord w word ev now).face = d.face := by
  unfold Dev.runWord
  split
  · simp
  · split
    · next hd => simp [Dev.face_of_wordEffect hnow hd]
    · split
      · simp
      · split
        · dsimp only
          split
          · split
            · next hd => simp [Dev.face_of_wordEffect (hnow.trans (Dev.now_of_face (d.face_lateReads w word)).symm) hd]
            · simp
          · simp
        · simp

@[simp] theorem Dev.face_noted (d : Dev) (c : Nat) (e : TaskEv) : (d.noted c e).face = d.face := by
  unfold Dev.noted
  simp

@[simp] theorem Dev.face_retryD (c : Nat) (e : TaskEv) (cycle : Nat) (may : WaitKind → Bool) (d : Dev) : (retryD c e cycle may d).face = d.face := by
  unfold retryD
  dsimp only
  split
  · split
    · have hrun : ∀ (z : Dev) f w word ev, ((z.onTask c e.task f).runWord w word ev z.tb.now).face = z.face := fun _ _ _ _ _ =>
        (Dev.face_runWord rfl).trans (Dev.face_onTask ..)
      simp [hrun]
    · rfl
  · rfl

/-! ### Machine/Jobs -/

@[simp] theorem Dev.face_placeTask (d : Dev) (j : Nat) (i : Image) (x : TaskImg) : (d.placeTask j i x).face = d.face := by
  unfold Dev.placeTask
  rfl

@[simp] theorem Dev.face_setRoles (d : Dev) (i : Image) (c : Nat) : (d.setRoles i c).face = d.face := by
  unfold Dev.setRoles
  simp

@[simp] theorem Dev.face_startCore (d : Dev) (j : Nat) (i : Image) (c : Nat) : (d.startCore j i c).face = d.face := by
  unfold Dev.startCore
  simp [Dev.face_foldl]

@[simp] theorem Dev.face_fillAdapter (d : Dev) (i : Image) (a : Rec) : (d.fillAdapter i a).face = d.face := by
  unfold Dev.fillAdapter
  rfl

@[simp] theorem Dev.face_startAdapters (d : Dev) (j : Nat) (i : Image) : (d.startAdapters j i).face = d.face := by
  unfold Dev.startAdapters
  simp [Dev.face_foldl]

@[simp] theorem Dev.face_readyTasks (d : Dev) (j r : Nat) : (d.readyTasks j r).face = d.face := by
  unfold Dev.readyTasks
  simp [Dev.face_foldl]

@[simp] theorem Dev.face_fillPumps (d : Dev) (j : Nat) (i : Image) : (d.fillPumps j i).face = d.face := by
  unfold Dev.fillPumps
  simp [Dev.face_foldl]

@[simp] theorem Dev.face_refuse (d : Dev) (x : HostCmd) (code : Nat) : (d.refuse x code).face = d.face := by
  unfold Dev.refuse
  simp

@[simp] theorem Dev.face_dropUndefined (d : Dev) : (d.dropUndefined).face = d.face := by
  unfold Dev.dropUndefined
  simp [Dev.face_foldl]

/-! ### Machine/Intake -/

@[simp] theorem Dev.face_takeCommands (d : Dev) (round : Nat) : (d.takeCommands round).face = d.face := by
  unfold Dev.takeCommands
  simp only [Dev.face_dropUndefined, Dev.face_update]
  exact Dev.face_foldl (fun e r => by split <;> simp) _ _

@[simp] theorem Dev.face_feed (d : Dev) (h : Nat) (r payload : Bytes) : (d.feed h r payload).face = d.face := by
  unfold Dev.feed
  rfl

@[simp] theorem Dev.face_takeRecord (d : Dev) (ring upTo : Nat) : (d.takeRecord ring upTo).face = d.face := by
  unfold Dev.takeRecord
  dsimp only
  (repeat' split) <;> simp

@[simp] theorem Dev.face_takeRecords (d : Dev) (upTo : Nat) : (d.takeRecords upTo).face = d.face :=
  Dev.face_foldl (fun _ _ => Dev.face_foldl (fun _ _ => by simp) _ _) _ _

/-! ### Machine/Tdm -/

@[simp] theorem Dev.face_portErrors (d : Dev) : d.portErrors.face = d.face :=
  Dev.face_foldl (fun _ _ => Dev.face_foldl (fun _ _ => by split <;> simp) _ _) _ _

@[simp] theorem Dev.face_portDiscards (d : Dev) : d.portDiscards.face = d.face := by
  refine Dev.face_foldl (fun e p => ?_) _ _
  split
  · rfl
  · exact Dev.face_foldl (fun _ _ => by split <;> simp) _ _

/-! ### Machine/Transfer -/

@[simp] theorem Dev.face_handleRejects (d : Dev) : (d.handleRejects).face = d.face := by
  unfold Dev.handleRejects
  simp [Dev.face_foldl]

@[simp] theorem Dev.face_restoreAdapters (d : Dev) (j : Nat) (i : Image) : (d.restoreAdapters j i).face = d.face := by
  refine Dev.face_foldl (fun _ _ => ?_) _ _
  split <;> simp

@[simp] theorem Dev.face_ship (d : Dev) (j : Nat) (logged : List Bytes) : (d.ship j logged).face = d.face := by
  unfold Dev.ship
  split <;> simp [Dev.face_foldl]

@[simp] theorem Dev.face_mirrorLate (d : Dev) (j since : Nat) : (d.mirrorLate j since).face = d.face := by
  unfold Dev.mirrorLate
  split <;> simp

/-! ### Machine/Pages -/

@[simp] theorem Dev.face_logPage (d : Dev) (action h : Nat) (l : Rec) (entry page : Nat) : (d.logPage action h l entry page).face = d.face := by
  unfold Dev.logPage
  simp

@[simp] theorem Dev.face_notePool (d : Dev) (l : Rec) (cs : List Nat) (lo : Nat) : (d.notePool l cs lo).face = d.face := by
  unfold Dev.notePool
  simp [Dev.face_foldl]

@[simp] theorem Dev.face_noteDefer (d : Dev) (h : Nat) : (d.noteDefer h).face = d.face := by
  unfold Dev.noteDefer
  simp [Dev.face_foldl]

@[simp] theorem Dev.face_notePools (d : Dev) : (d.notePools).face = d.face := by
  refine Dev.face_foldl (fun _ _ => ?_) _ _
  split <;> simp

@[simp] theorem Dev.face_endMove (d : Dev) (m : Move) : (d.endMove m).1.face = d.face := by
  unfold Dev.endMove
  dsimp only
  split
  · split <;> simp
  · simp

@[simp] theorem Dev.face_freeSeq (d : Dev) (h : Nat) (l : Rec) : (d.freeSeq h l).1.face = d.face := by
  unfold Dev.freeSeq
  rfl

@[simp] theorem Dev.face_settlePages (d : Dev) : d.settlePages.1.face = d.face := by
  refine (Dev.face_foldl_fst (fun e h => ?_) _ _).trans (Dev.face_foldl_fst (fun _ _ => by simp) _ _)
  split
  · rfl
  · exact Dev.face_foldl_fst (fun _ _ => by simp) _ _

@[simp] theorem Dev.face_startSegment (d : Dev) (h : Nat) (i : Item) : (d.startSegment h i).face = d.face := by
  unfold Dev.startSegment
  simp [Dev.face_foldl]

@[simp] theorem Dev.face_placeBuckets (d : Dev) (work : List (Nat × Item)) : (d.placeBuckets work).1.face = d.face :=
  Dev.face_foldl_fst (fun e x => by dsimp only; split <;> simp) _ _

/-- A frame that was taken keeps the face. -/
theorem Dev.face_of_takeFrame {d e : Dev} {h : Nat} {l : Rec} {n : Nat} {twin : Bool} (he : d.takeFrame h l n twin = some e) : e.face = d.face := by
  obtain ⟨p, -, rfl⟩ := Option.map_eq_some_iff.mp he
  simp

@[simp] theorem Dev.face_takeEntry (a : Dev × Missing) (h : Nat) (l : Rec) (e : Nat) (twin : Bool) : (Dev.takeEntry a h l e twin).1.face = a.1.face := by
  unfold Dev.takeEntry
  dsimp only
  generalize (mget (if twin = true then _ else _) e).isSome = found
  split
  · rfl
  · split
    · next ht => exact Dev.face_of_takeFrame ht
    · rfl

@[simp] theorem Dev.face_allocate (a : Dev × Missing) (h : Nat) : (Dev.allocate a h).1.face = a.1.face :=
  Dev.face_foldl_fst (fun _ _ => Dev.face_foldl_fst (fun _ _ => by simp) _ _) _ _

@[simp] theorem Dev.face_startMove (d : Dev) (action h : Nat) (l : Rec) (e src dst : Nat) : (d.startMove action h l e src dst).face = d.face := by
  unfold Dev.startMove
  simp

@[simp] theorem Dev.face_spillWell (d : Dev) (runs : List Nat) (m : Nat × Rec × Nat) : (d.spillWell runs m).1.face = d.face := by
  unfold Dev.spillWell
  split
  · simp
  · split <;> simp

@[simp] theorem Dev.face_spillDeep (d : Dev) (runs : List Nat) (m : Nat × Rec × Nat) : (d.spillDeep runs m).face = d.face := by
  unfold Dev.spillDeep
  split <;> simp

@[simp] theorem Dev.face_spill (d : Dev) (runs : List Nat) (ms : Missing) : (d.spill runs ms).face = d.face :=
  (Dev.face_foldl (fun _ _ => by simp) _ _).trans (Dev.face_foldl_fst (fun _ _ => by simp) _ _)

@[simp] theorem Dev.face_prime (d : Dev) (h tier action : Nat) : (d.prime h tier action).face = d.face :=
  Dev.face_foldl (fun _ _ => Dev.face_foldl (fun _ _ => by split <;> simp) _ _) _ _

@[simp] theorem Dev.face_revertSeqs (d : Dev) (saved : SMap Seq) (h : Nat) : (d.revertSeqs saved h).face = d.face := by
  unfold Dev.revertSeqs
  simp [Dev.face_foldl]

@[simp] theorem Dev.face_failList (d : Dev) (saved : SMap Seq) (h : Nat) (i : Item) : (d.failList saved h i).face = d.face := by
  unfold Dev.failList
  simp [Dev.face_foldl]

@[simp] theorem Dev.face_deferSeq (saved : SMap Seq) (a : Dev × List Nat) (h : Nat) : (Dev.deferSeq saved a h).1.face = a.1.face := by
  unfold Dev.deferSeq
  dsimp only
  split <;> simp [Dev.face_foldl]

@[simp] theorem Dev.face_givePages (d0 : Dev) (runs : List Nat) (saved : SMap Seq) : (d0.givePages runs saved).1.face = d0.face :=
  (Dev.face_foldl_fst (fun _ _ => by simp) _ _).trans ((Dev.face_spill _ _ _).trans (Dev.face_foldl_fst (fun _ _ => by simp) _ _))

@[simp] theorem Dev.face_pageStep (d0 : Dev) (recs : List Bytes) (runs held : List Nat) (saved : SMap Seq) : (d0.pageStep recs runs held saved).1.face = d0.face := by
  unfold Dev.pageStep
  simp [Dev.face_foldl]

/-! ### Machine/Govern -/

@[simp] theorem Dev.face_abortOpen (d : Dev) : (d.abortOpen).face = d.face := by
  unfold Dev.abortOpen
  simp [Dev.face_foldl]

@[simp] theorem Dev.face_advance (d : Dev) (h : Nat) : (d.advance h).face = d.face := by
  unfold Dev.advance
  simp [Dev.face_foldl]

@[simp] theorem Dev.face_logStream (d : Dev) (action h a : Nat) : (d.logStream action h a).face = d.face := by
  unfold Dev.logStream
  simp

@[simp] theorem Dev.face_registerNow (d : Dev) (h : Nat) : (d.registerNow h).face = d.face := by
  unfold Dev.registerNow
  dsimp only
  (repeat' split) <;> simp

@[simp] theorem Dev.face_deregisterNow (d : Dev) (h : Nat) : (d.deregisterNow h).1.face = d.face := by
  unfold Dev.deregisterNow
  dsimp only
  split <;> simp [Dev.face_foldl]

@[simp] theorem Dev.face_drained (d : Dev) (j : Nat) : (d.drained j).face = d.face := by
  unfold Dev.drained
  simp

@[simp] theorem Dev.face_registerStep (d0 : Dev) : d0.registerStep.1.face = d0.face := by
  refine (Dev.face_foldl_fst (fun e h => ?_) _ _).trans (Dev.face_onJobs (fun _ _ => by simp) { d0 with freed := [] })
  dsimp only
  split
  · simp
  · split
    · simp only [Dev.face_update, Dev.face_freeStream]
    · split <;> simp

@[simp] theorem Dev.face_emberStep (d : Dev) (h : Nat) : (d.emberStep h).face = d.face := by
  unfold Dev.emberStep
  dsimp only
  split
  · simp
  · split <;> simp

@[simp] theorem Dev.face_gather (d : Dev) (h : Nat) : (d.gather h).face = d.face := by
  unfold Dev.gather
  dsimp only
  split
  · simp
  · split <;> simp

@[simp] theorem Dev.face_failNow (d : Dev) (h : Nat) (i : Item) (code ring : Nat) : (d.failNow h i code ring).face = d.face := by
  unfold Dev.failNow
  simp

@[simp] theorem Dev.face_formChunk (d : Dev) (h : Nat) : (d.formChunk h).face = d.face := by
  unfold Dev.formChunk
  dsimp only
  (repeat' split) <;> simp

@[simp] theorem Dev.face_countQuiet (d : Dev) (h : Nat) : (d.countQuiet h).face = d.face := by
  unfold Dev.countQuiet
  rfl

@[simp] theorem Dev.face_idleStep (d : Dev) (h : Nat) : (d.idleStep h).face = d.face := by
  unfold Dev.idleStep
  simp

@[simp] theorem Dev.face_unprimeStep (d : Dev) (h : Nat) : (d.unprimeStep h).face = d.face := by
  unfold Dev.unprimeStep
  simp

@[simp] theorem Dev.face_letIn (d : Dev) (h : Nat) : (d.letIn h).face = d.face := by
  unfold Dev.letIn
  dsimp only
  split
  · simp
  · split
    · simp
    · split <;> simp

/-- The governor's other figures are not of the face. -/
theorem Dev.face_gov (d : Dev) {g : Governor} (h : g.last = d.gov.last) : Dev.face { d with gov := g } = d.face := by
  unfold Dev.face
  rw [h]

@[simp] theorem Dev.face_admitStep (d : Dev) : d.admitStep.face = d.face := by
  refine (Dev.face_gov _ rfl).trans ((Dev.face_foldl (fun e h => ?_) _ _).trans (Dev.face_foldl Dev.face_unprimeStep _ _))
  dsimp only
  split
  · rfl
  · split <;> simp

@[simp] theorem Dev.face_primeStep (d : Dev) : (d.primeStep).face = d.face := by
  refine Dev.face_foldl (fun _ _ => ?_) _ _
  split
  · simp
  · split <;> simp

@[simp] theorem Dev.face_lateStep (d : Dev) (h : Nat) : (d.lateStep h).face = d.face := by
  unfold Dev.lateStep
  simp [Dev.face_foldl]

@[simp] theorem Dev.face_draftStep (d : Dev) (h : Nat) : (d.draftStep h).face = d.face := by
  unfold Dev.draftStep
  simp

@[simp] theorem Dev.face_runItem (d : Dev) (h : Nat) (i : Item) : (d.runItem h i).face = d.face := by
  unfold Dev.runItem
  rfl

@[simp] theorem Dev.face_endLag (d : Dev) (h : Nat) : (d.endLag h).face = d.face := by
  unfold Dev.endLag
  rfl

@[simp] theorem Dev.face_governFirst (d : Dev) : (d.governFirst).face = d.face := by
  unfold Dev.governFirst
  simp [Dev.face_foldl]

/-! ### Machine/Faults -/

@[simp] theorem Dev.face_timeOutItem (d : Dev) (h : Nat) (i : Item) : (d.timeOutItem h i).face = d.face := by
  unfold Dev.timeOutItem
  simp

@[simp] theorem Dev.face_restoreAllTimed (d : Dev) (hs : List Nat) : (d.restoreAllTimed hs).face = d.face := by
  unfold Dev.restoreAllTimed
  simp [Dev.face_foldl]

@[simp] theorem Dev.face_timeOut (d : Dev) (c t ring progRound : Nat) (hs : List Nat) : (d.timeOut c t ring progRound hs).face = d.face := by
  unfold Dev.timeOut
  simp [Dev.face_foldl]

@[simp] theorem Dev.face_dropAwaited (d : Dev) (w : Who) (word : Nat) : (d.dropAwaited w word).face = d.face := by
  unfold Dev.dropAwaited
  dsimp only
  (repeat' split) <;> simp [Dev.face_foldl]

@[simp] theorem Dev.face_abandonWord (d : Dev) (c t ring : Nat) : (d.abandonWord c t ring).face = d.face := by
  unfold Dev.abandonWord
  split <;> simp

@[simp] theorem Dev.face_abandonXfer (d : Dev) (p : PumpId) (x : Xfer) (ring : Nat) : (d.abandonXfer p x ring).face = d.face := by
  unfold Dev.abandonXfer
  simp only [Dev.face_timeOut, Dev.face_count, Dev.face_dropXfer]
  exact Dev.face_foldl (fun _ _ => by split <;> simp) _ _

/-! ### Machine/Mirror -/

@[simp] theorem Dev.face_copySeq (d : Dev) (i : Image) (h : Nat) (l : Rec) : (d.copySeq i h l).face = d.face := by
  unfold Dev.copySeq
  simp [Dev.face_foldl]

@[simp] theorem Dev.face_copyStream (d : Dev) (j lag : Nat) (i : Image) (k : Nat) : (d.copyStream j lag i k).face = d.face := by
  unfold Dev.copyStream
  simp [Dev.face_foldl]

@[simp] theorem Dev.face_copyScale (d : Dev) (i : Image) (c : Nat) : (d.copyScale i c).face = d.face := by
  unfold Dev.copyScale
  rfl

@[simp] theorem Dev.face_copyProvs (d : Dev) (j : Nat) (i : Image) : (d.copyProvs j i).face = d.face := by
  unfold Dev.copyProvs
  rfl

@[simp] theorem Dev.face_copyState (d : Dev) (j lag : Nat) (i : Image) : (d.copyState j lag i).face = d.face := by
  unfold Dev.copyState
  simp [Dev.face_foldl]

@[simp] theorem Dev.face_replayNow (d : Dev) : d.replayNow.face = d.face := by
  unfold Dev.replayNow
  simp only [Dev.face_takeCommands]
  refine Dev.face_foldl (fun e s => ?_) _ _
  split
  · simp
  · split <;> simp

@[simp] theorem Dev.face_refetch (d : Dev) (j : Nat) (i : Image) : (d.refetch j i).face = d.face := by
  unfold Dev.refetch
  simp [Dev.face_foldl]

@[simp] theorem Dev.face_onReplays {f : Dev → Nat → Dev} (h : ∀ e j, (f e j).face = e.face) (d : Dev) : (d.onReplays f).face = d.face :=
  Dev.face_foldl h _ _

@[simp] theorem Dev.face_onItem (d : Dev) (j h seq : Nat) (f : Item → Item) : (d.onItem j h seq f).face = d.face := by
  unfold Dev.onItem
  rfl

@[simp] theorem Dev.face_replayOutcomes (d : Dev) (j : Nat) : (d.replayOutcomes j).face = d.face := by
  unfold Dev.replayOutcomes
  split <;> simp [Dev.face_foldl]

@[simp] theorem Dev.face_replayTimeouts (d : Dev) (j : Nat) : (d.replayTimeouts j).face = d.face := by
  unfold Dev.replayTimeouts
  split <;> simp [Dev.face_foldl]

@[simp] theorem Dev.face_mismatch (d : Dev) (j : Nat) (hs : List Nat) : (d.mismatch j hs).face = d.face := by
  unfold Dev.mismatch
  simp

@[simp] theorem Dev.face_checkDecisions (d : Dev) (j : Nat) (hs : List Nat) : (d.checkDecisions j hs).face = d.face := by
  unfold Dev.checkDecisions
  split <;> simp [Dev.face_foldl]

@[simp] theorem Dev.face_checkInput (d : Dev) (j : Nat) : (d.checkInput j).face = d.face := by
  unfold Dev.checkInput
  simp [Dev.face_foldl]

@[simp] theorem Dev.face_checkScale (d : Dev) (c : Nat) (g : Group) (gi : Nat) : (d.checkScale c g gi).face = d.face := by
  unfold Dev.checkScale
  dsimp only
  split <;> simp

@[simp] theorem Dev.face_endReplay (d : Dev) (j : Nat) : (d.endReplay j).face = d.face := by
  unfold Dev.endReplay
  split <;> simp [Dev.face_foldl]

/-! ### Machine/Failover -/

@[simp] theorem Dev.face_startSpare (d : Dev) (j : Nat) (i : Image) (c : Nat) : (d.startSpare j i c).face = d.face := by
  unfold Dev.startSpare
  simp [Dev.face_foldl]

@[simp] theorem Dev.face_moveRoutes (d : Dev) (j : Nat) (i : Image) : (d.moveRoutes j i).face = d.face := by
  unfold Dev.moveRoutes
  simp [Dev.face_foldl]

@[simp] theorem Dev.face_moveJob (d : Dev) (j : Nat) (i : Image) (a : Action) (e : Rec) : (d.moveJob j i a e).face = d.face := by
  unfold Dev.moveJob
  simp [Dev.face_foldl]

@[simp] theorem Dev.face_failJob (d : Dev) (j : Nat) : (d.failJob j).face = d.face := by
  unfold Dev.failJob
  simp [Dev.face_foldl]

@[simp] theorem Dev.face_riseAction (d : Dev) (a : Action) : (d.riseAction a).face = d.face := by
  unfold Dev.riseAction
  simp

@[simp] theorem Dev.face_failover (d : Dev) (a : Action) : (d.failover a).face = d.face := by
  unfold Dev.failover
  simp only [Dev.face_ite, Dev.face_riseAction, ite_self]
  refine Dev.face_foldl_fst (fun e j => ?_) _ _
  split
  · rfl
  · split
    · simp
    · split <;> simp

@[simp] theorem Dev.face_applyAltRoutes (d : Dev) (compile origin : Nat) : (d.applyAltRoutes compile origin).face = d.face := by
  refine Dev.face_foldl (fun _ _ => ?_) _ _
  split <;> simp

@[simp] theorem Dev.face_startReplay (d : Dev) (j : Nat) (i : Image) (c : Nat) : (d.startReplay j i c).face = d.face := by
  unfold Dev.startReplay
  simp only [Dev.face_refetch, Dev.face_replayNow, Dev.face_onJob, Dev.face_copyState]

/-! ### Machine/Mark -/

@[simp] theorem Dev.face_coreRecords (d : Dev) (c : Nat) : (d.coreRecords c).face = d.face := by
  unfold Dev.coreRecords
  simp [Dev.face_foldl]

@[simp] theorem Dev.face_turnOver (d : Dev) : (d.turnOver).face = d.face := by
  unfold Dev.turnOver
  simp [Dev.face_foldl]

@[simp] theorem Dev.face_foldLog (d : Dev) : (d.foldLog).face = d.face := by
  unfold Dev.foldLog
  rfl

@[simp] theorem Dev.face_passMark (d : Dev) (c t : Nat) : (d.passMark c t).face = d.face := by
  unfold Dev.passMark
  simp

@[simp] theorem Dev.face_stopUnstarted (d : Dev) (j : Nat) : (d.stopUnstarted j).face = d.face := by
  unfold Dev.stopUnstarted
  dsimp only
  (repeat' split) <;> simp [Dev.face_foldl]

@[simp] theorem Dev.face_endFailed (a : Dev × Ended) (h : Nat) : (Dev.endFailed a h).1.face = a.1.face := by
  refine Dev.face_foldl_fst (fun e i => ?_) _ _
  split
  · rfl
  · split <;> simp

@[simp] theorem Dev.face_endHalted (a : Dev × Ended) (h : Nat) : (Dev.endHalted a h).1.face = a.1.face := by
  unfold Dev.endHalted
  split
  · rfl
  · exact Dev.face_foldl_fst (fun _ _ => by split <;> simp) _ _

@[simp] theorem Dev.face_postpone (d : Dev) : (d.postpone).face = d.face := by
  unfold Dev.postpone
  rfl

@[simp] theorem Dev.face_clearDue (d : Dev) : (d.clearDue).face = d.face := by
  unfold Dev.clearDue
  rfl

@[simp] theorem Dev.face_replayLimit (a : Dev × Ended) (x : Action) : (Dev.replayLimit a x).1.face = a.1.face := by
  unfold Dev.replayLimit
  dsimp only
  split
  · rfl
  · split <;> simp [Dev.face_foldl]

@[simp] theorem Dev.face_recover (due : List Action) (runs : Plan) (d : Dev) : (Dev.recover due runs d).face = d.face := by
  unfold Dev.recover
  simp [Dev.face_foldl]

@[simp] theorem Dev.face_unitRecovery (d : Dev) (a : Action) : (d.unitRecovery a).face = d.face := by
  unfold Dev.unitRecovery
  simp

@[simp] theorem Dev.face_keepChecks (d : Dev) : (d.keepChecks).face = d.face := by
  unfold Dev.keepChecks
  rfl

@[simp] theorem Dev.face_finishItems (d : Dev) (h : Nat) : (d.finishItems h).face = d.face := by
  refine Dev.face_foldl (fun _ _ => ?_) _ _
  split
  · simp
  · split <;> simp

@[simp] theorem Dev.face_postDones (d : Dev) : (d.postDones).face = d.face := by
  unfold Dev.postDones
  simp [Dev.face_foldl]

@[simp] theorem Dev.face_scaleRecords (d : Dev) : (d.scaleRecords).face = d.face := by
  unfold Dev.scaleRecords
  simp [Dev.face_foldl]

@[simp] theorem Dev.face_tableLoads (d : Dev) : (d.tableLoads).face = d.face := by
  unfold Dev.tableLoads
  simp [Dev.face_foldl]

@[simp] theorem Dev.face_stopAnswers (d : Dev) (j : Nat) : (d.stopAnswers j).face = d.face := by
  unfold Dev.stopAnswers
  simp [Dev.face_foldl]

@[simp] theorem Dev.face_stopDue (d0 : Dev) (j : Nat) : (d0.stopDue j).face = d0.face := by
  unfold Dev.stopDue
  simp [Dev.face_foldl]

@[simp] theorem Dev.face_haltJob (d : Dev) (j : Nat) : (d.haltJob j).face = d.face := by
  unfold Dev.haltJob
  simp

@[simp] theorem Dev.face_haltDone (d : Dev) : (d.haltDone).face = d.face := by
  unfold Dev.haltDone
  simp

@[simp] theorem Dev.face_purgeOld (d : Dev) : (d.purgeOld).face = d.face := by
  unfold Dev.purgeOld
  rfl

@[simp] theorem Dev.face_clearUnnamed (d : Dev) : (d.clearUnnamed).face = d.face := by
  unfold Dev.clearUnnamed
  rfl

@[simp] theorem Dev.face_endTakeWait (d : Dev) (c t : Nat) : (d.endTakeWait c t).face = d.face := by
  unfold Dev.endTakeWait
  split <;> simp

@[simp] theorem Dev.face_keepPos (d : Dev) : (d.keepPos).face = d.face := by
  unfold Dev.keepPos
  simp [Dev.face_foldl]

end Sys2Proof.Machine
end

section
/-! A register that no activation, no job's end and no task's start writes, through a mark (R31, R33, R42, R91). -/

namespace Sys2Proof.Machine

/-! ### Registers of which no value waits for an activation -/

/-- `e` has the course of rounds and the measurements of `d`, and of a register for which no activation keeps a value also the value and the shadow. -/
structure Dev.Steady (off : Nat) (d e : Dev) : Prop where
  tb : e.face.tb = d.face.tb
  last : e.gov.last = d.gov.last
  staged : (∀ p ∈ d.staged, p.1 ≠ off) → ∀ p ∈ e.staged, p.1 ≠ off
  reg : (∀ p ∈ d.staged, p.1 ≠ off) → mget e.regs off = mget d.regs off
  shadow : (∀ p ∈ d.staged, p.1 ≠ off) → mget e.shadow off = mget d.shadow off

/-- Stores at other places leave a cell. -/
theorem mget_foldl_mset_ne {α : Type} (l : SMap α) (m : SMap α) {k : Nat} (h : ∀ p ∈ l, p.1 ≠ k) : mget (l.foldl (fun m p => mset m p.1 p.2) m) k = mget m k :=
  foldl_proj (fun m => mget m k) _ l m (fun _ p hp => mget_mset_ne _ _ _ _ (h p hp).symm)

namespace Dev.Steady

variable {off : Nat} {d e f : Dev}

theorem refl (off : Nat) (d : Dev) : d.Steady off d := ⟨rfl, rfl, id, fun _ => rfl, fun _ => rfl⟩

theorem trans (h : d.Steady off e) (h' : e.Steady off f) : d.Steady off f where
  tb := h'.tb.trans h.tb
  last := h'.last.trans h.last
  staged hs := h'.staged (h.staged hs)
  reg hs := (h'.reg (h.staged hs)).trans (h.reg hs)
  shadow hs := (h'.shadow (h.staged hs)).trans (h.shadow hs)

/-- What keeps the face. -/
theorem of_face (off : Nat) (h : e.face = d.face) : d.Steady off e := by
  simp only [Dev.face, Face.mk.injEq] at h
  obtain ⟨hr, hs, hg, ht, hl⟩ := h
  refine ⟨ht, hl, ?_, ?_, ?_⟩
  · rw [hg]; exact id
  · rw [hr]; exact fun _ => rfl
  · rw [hs]; exact fun _ => rfl

theorem foldl {α : Type} {f : Dev → α → Dev} (h : ∀ e a, Dev.Steady off e (f e a)) (l : List α) (d : Dev) : d.Steady off (l.foldl f d) :=
  foldl_keep (d.Steady off ·) f l d (refl off d) (fun e a _ he => he.trans (h e a))

theorem onJobs {f : Dev → Nat → Dev} (h : ∀ e j, Dev.Steady off e (f e j)) (d : Dev) : d.Steady off (d.onJobs f) := foldl h _ d

theorem ite {p : Prop} [Decidable p] (he : d.Steady off e) (hf : d.Steady off f) : d.Steady off (if p then e else f) := by
  split <;> assumption

/-! ### Jobs that start and jobs that end -/

theorem applyStaged (off : Nat) (d : Dev) (j : Nat) : d.Steady off (d.applyStaged j) where
  tb := rfl
  last := rfl
  staged hs p hp := hs p (List.mem_of_mem_filter hp)
  reg hs := mget_foldl_mset_ne _ _ (fun p hp => hs p (List.mem_of_mem_filter hp))
  shadow _ := rfl

theorem unstage (off : Nat) (d : Dev) (j : Nat) : d.Steady off (d.unstage j) where
  tb := rfl
  last := rfl
  staged hs p hp := hs p (List.mem_of_mem_filter hp)
  reg _ := rfl
  shadow _ := rfl

theorem activate (off : Nat) (d : Dev) (j r : Nat) : d.Steady off (d.activate j r) := by
  unfold Dev.activate
  split
  · exact refl off d
  · refine (applyStaged off d j).trans (of_face off ?_)
    dsimp only
    split <;> simp [Dev.face_foldl]

theorem activateDue (off : Nat) (d : Dev) (j : Nat) : d.Steady off (d.activateDue j) := by
  unfold Dev.activateDue
  dsimp only
  split
  · exact ite (activate off d j _) (refl off d)
  · exact refl off d

theorem takeOver (off : Nat) (d : Dev) (j : Nat) (i : Image) : d.Steady off (d.takeOver j i) := by
  unfold Dev.takeOver
  extract_lets d1 cs c mirror d2 d3
  have h2 : d2.face = d.face := (Dev.face_update _ ..).trans (Dev.face_applyAltRoutes _ _ _)
  have h3 : d.Steady off d3 := (of_face off ((Dev.face_onJob _ _ _).trans h2)).trans (activate off _ j _)
  exact h3.trans (of_face off (by simp))

theorem kill (off : Nat) (d : Dev) (j : Nat) (load : Nat × Nat) (status : Nat) : d.Steady off (d.kill j load status) := by
  unfold Dev.kill
  extract_lets job d1 d2 d2b d3 d4 d5 d6 zs d7 d8 d9 d10
  refine ite (refl off d) ?_
  have h1 : d1.face = d.face := Dev.face_setTaskStates _ _ _
  have h2 : d2.face = d1.face := Dev.face_foldl (fun _ _ => by simp) _ _
  have h2b : d2b.face = d2.face := Dev.face_foldl (fun _ _ => by simp) _ _
  have h3 : d3.face = d2b.face := Dev.face_foldl (fun _ _ => by simp) _ _
  have h4 : d4.face = d3.face := Dev.face_foldl (fun _ _ => by simp) _ _
  have h5 : d5.face = d4.face := Dev.face_foldl (fun _ _ => by simp) _ _
  have h9 : d9.face = d6.face := by
    have h8 : d8.face = d6.face := (Dev.face_logRec _ _).trans (Dev.face_update _ ..)
    rw [← h8]
    simp only [d9]
    split <;> simp
  have h10 : d10.face = d9.face := Dev.face_foldl (fun _ _ => by simp) _ _
  have before : d.Steady off (d5.closeWindows j) := of_face off (by rw [Dev.face_closeWindows, h5, h4, h3, h2b, h2, h1])
  refine (before.trans (unstage off _ j)).trans (of_face off ?_)
  rw [Dev.face_refreshSlices, Dev.face_dropStale, Dev.face_onJob, h10, h9]

theorem abortCompile (off : Nat) (d : Dev) (compile : Nat) : d.Steady off (d.abortCompile compile) :=
  onJobs (fun e j => by
    dsimp only
    split
    · exact ite ((of_face off (Dev.face_logRec _ _)).trans (kill off _ j _ _)) (refl off e)
    · exact refl off e) d

/-! ### Membership versions that are due -/

theorem applyVersion (off : Nat) (d : Dev) (v : Version) : d.Steady off (d.applyVersion v) := by
  unfold Dev.applyVersion
  extract_lets before members root changed fabric d1 d2 d3
  have h2 : d.Steady off d2 := of_face off (by
    have h1 : d1.face = d.face := Dev.face_update d ..
    refine (Dev.face_onJobs (fun _ _ => by simp) _).trans ?_
    rw [Dev.face_ite, Dev.face_reparent, Dev.face_checkMinority, ite_self, h1])
  have h3 : d2.Steady off d3 := by
    refine ite (onJobs (fun e j => ?_) d2) (refl off d2)
    split
    · exact ite (abortCompile off e _) (refl off e)
    · exact refl off e
  refine (h2.trans h3).trans (foldl (fun e o => ?_) _ _)
  refine (of_face off (Dev.face_applyAltRoutes e _ _)).trans (onJobs (fun x j => ?_) _)
  split
  · exact ite (takeOver off x j _) (refl off x)
  · exact refl off x

theorem applyVersions (off : Nat) (d : Dev) : d.Steady off d.applyVersions := by
  unfold Dev.applyVersions
  refine (of_face off (Dev.face_update d ..)).trans (foldl (fun e v => ?_) _ _)
  exact ite (of_face off (Dev.face_update e ..)) (applyVersion off e v)

/-! ### Programs that start -/

theorem applyDue (hoff : ∀ c k, off ≠ coreOff c + 0x100 + k * 0x20) (d : Dev) (c t r : Nat) : d.Steady off (d.applyDue c t r) := by
  unfold Dev.applyDue
  dsimp only
  have own := hoff c t
  split
  · exact refl off d
  · have set : ∀ (v : Nat) f, d.Steady off ((d.setReg (coreOff c + 0x100 + t * 0x20) v).onTask c t f) := fun v f =>
      { tb := rfl, last := rfl, staged := id, reg := fun _ => mget_mset_ne _ _ _ _ own, shadow := fun _ => rfl }
    have drop : ∀ e : Dev, e.Steady off { e with shadow := mdel e.shadow (coreOff c + 0x100 + t * 0x20) } := fun e =>
      { tb := rfl, last := rfl, staged := id, reg := fun _ => rfl, shadow := fun _ => (mget_filter _ (fun n => n != _) off).trans (if_pos (by simpa using own)) }
    exact ite ((set _ _).trans (drop _)) (set _ _)

theorem startProgram (hoff : ∀ c k, off ≠ coreOff c + 0x100 + k * 0x20) (d : Dev) (c t r : Nat) : d.Steady off (d.startProgram c t r) := by
  unfold Dev.startProgram
  extract_lets dp d0 d1 es d2 d3 d4 j
  have h0 : d0.face = d.face := (Dev.face_switchAdapters _ _ _ _).trans (by simp [dp])
  exact ((of_face off h0).trans (applyDue hoff d0 c t r)).trans (of_face off (by simp [d4, d3, d2, d1]))

theorem advanceJob (hoff : ∀ c k, off ≠ coreOff c + 0x100 + k * 0x20) (d : Dev) (j : Nat) : d.Steady off (d.advanceJob j) := by
  unfold Dev.advanceJob
  extract_lets d1 ts d2
  have h1 : d.Steady off d1 := of_face off (Dev.face_captureDue _ _)
  have h2 : d1.Steady off d2 := foldl (fun e p => ite (startProgram hoff e _ _ _) (of_face off (Dev.face_onTask _ _ _ _))) _ _
  refine (h1.trans h2).trans (ite (foldl (fun e p => ?_) _ _) (refl off d2))
  exact ite (of_face off (Dev.face_onTask _ _ _ _)) (refl off e)

theorem markRun (hoff : ∀ c k, off ≠ coreOff c + 0x100 + k * 0x20) (d : Dev) : d.Steady off d.markRun := by
  unfold Dev.markRun
  extract_lets d1 d2 d3 logged d4 d5 d6
  have h2 : d2.face = d.face := by
    refine (Dev.face_foldl (fun _ _ => by simp) _ _).trans ?_
    simp [d1]
  have h4 : d4.face = (d2.onJobs Dev.advanceJob).face := Dev.face_onJobs (fun _ _ => by simp) _
  have h6 : d6.face = d4.face := by simp [d6, d5]
  exact ((of_face off h2).trans (onJobs (advanceJob hoff) d2)).trans (of_face off (by simp [Dev.face_update, h6, h4]))

end Dev.Steady

end Sys2Proof.Machine
end

section
/-! The round mark (O59): what it writes of the time base, of the measurements and of registers whose shadows waited. -/

namespace Sys2Proof.Machine

/-! ### The governor takes the measurements (R602) -/

theorem Dev.face_powerStep (d : Dev) (m : Measure) : (d.powerStep m).face = { d.face with last := m } := by
  unfold Dev.powerStep
  extract_lets d0 g x old fl gov d1 d2
  have h0 : d0.face = d.face := Dev.face_logRec _ _
  have h1 : d1.face = { d0.face with last := m } := rfl
  have h2 : d2.face = d1.face := by simp [d2]
  rw [Dev.face_ite, Dev.face_logRec, ite_self, h2, h1, h0]

theorem Dev.face_governStep (d : Dev) (m : Measure) {restore : Dev → Dev} (hr : ∀ e, (restore e).face = e.face) :
    (d.governStep m restore).face = { d.face with last := m } := by
  unfold Dev.governStep
  extract_lets live r2 d2 r3 d4 d5 p6 d6 saved turn ready d7 full r8 d8 starting out deep d8a runs p9 r9 go d9 d10 d11 d12 d13 n
  have h4 : d4.face = d.face := (Dev.face_foldl (fun _ _ => by simp) _ _).trans (by simp [r3, d2, r2])
  have h5 : d5.face = d4.face := Dev.face_foldl Dev.face_idleStep _ _
  have h6 : d6.face = d5.face := (hr _).trans (by simp [p6])
  have h7 : d7.face = d6.face := Dev.face_foldl (fun _ _ => by split <;> simp) _ _
  have h8 : d8.face = d7.face := (Dev.face_foldl (fun _ _ => by simp) _ _).trans (Dev.face_placeBuckets _ _)
  have h8a : d8a.face = d8.face := Dev.face_foldl (fun _ _ => by split <;> simp) _ _
  have hp9 : p9.1.face = d8a.face := Dev.face_pageStep _ _ _ _ _
  have h9 : d9.face = d8a.face :=
    (Dev.face_foldl Dev.face_lateStep _ _).trans ((Dev.face_notePools _).trans ((Dev.face_foldl Dev.face_noteDefer _ _).trans hp9))
  have h10 : d10.face = d9.face := Dev.face_foldl (fun _ _ => by split; split <;> simp; rfl) _ _
  have h11 : d11.face = d10.face := Dev.face_foldl Dev.face_draftStep _ _
  have h12 : d12.face = { d11.face with last := m } := Dev.face_powerStep _ _
  have h13 : d13.face = d12.face := Dev.face_foldl Dev.face_endLag _ _
  refine (Dev.face_gov _ rfl).trans ?_
  rw [h13, h12, h11, h10, h9, h8a, h8, h7, h6, h5, h4]

theorem Dev.face_markDecide (d : Dev) (m : Measure) : (d.markDecide m).face = { d.face with last := m } := by
  unfold Dev.markDecide
  extract_lets hs dt d0 due e1 e2 e3 plan runs d1 f1 done d2 d4 d5
  have ht : dt.face = d.face :=
    (Dev.face_handleRejects _).trans ((Dev.face_tableLoads _).trans ((Dev.face_takeRecords _ _).trans (Dev.face_onJobs Dev.face_endReplay d)))
  have h0 : d0.face = dt.face := (Dev.face_onReplays Dev.face_replayOutcomes _).trans ((Dev.face_postpone _).trans (Dev.face_foldl Dev.face_emberStep _ _))
  clear_value d0
  have he1 : e1.1.face = d0.face := Dev.face_foldl_fst Dev.face_endHalted d0.handles (d0, [])
  have he2 : e2.1.face = e1.1.face := Dev.face_foldl_fst Dev.face_replayLimit _ _
  have he3 : e3.1.face = e2.1.face := Dev.face_foldl_fst Dev.face_endFailed _ _
  have h1 : d1.face = e3.1.face := Dev.face_foldl (fun _ _ => by simp) _ _
  have hdone : done.face = d1.face := (Dev.face_foldl Dev.face_finishItems _ _).trans (Dev.face_governFirst _)
  have h2 : d2.face = { done.face with last := m } := (Dev.face_governStep _ _ (Dev.face_recover _ _)).trans (by simp)
  have h4 : d4.face = d2.face := (Dev.face_onReplays Dev.face_checkInput _).trans (Dev.face_foldl (fun _ _ => by simp) _ _)
  have h5 : d5.face = d4.face := (Dev.face_foldl Dev.face_unitRecovery _ _).trans (Dev.face_clearDue _)
  refine (Dev.face_foldl (fun _ _ => by split <;> simp) _ _).trans ((Dev.face_keepChecks _).trans ?_)
  rw [h5, h4, h2, hdone, h1, he3, he2, he1, h0, ht]

/-- What a face with new measurements says of the fields. -/
theorem Dev.eqs_of_measured {d e : Dev} {m : Measure} (h : e.face = { d.face with last := m }) :
    e.regs = d.regs ∧ e.shadow = d.shadow ∧ e.staged = d.staged ∧ e.gov.last = m := by
  simp only [Dev.face, Face.mk.injEq] at h
  obtain ⟨hr, hs, hg, -, hl⟩ := h
  exact ⟨hr, hs, hg, hl⟩

/-- What a face says of the time base. -/
theorem Dev.eqs_of_tb {d e : Dev} (h : e.face.tb = d.face.tb) :
    (e.tb.round = d.tb.round ∧ e.tb.nextMark = d.tb.nextMark ∧ e.tb.running = d.tb.running ∧ e.tb.sealed = d.tb.sealed ∧ e.tb.now = d.tb.now) ∧
    e.tb.lenHalf = d.tb.lenHalf ∧ e.tb.baseT = d.tb.baseT ∧ e.tb.baseN = d.tb.baseN := by
  simp only [Dev.face, TimeBase.mk.injEq] at h
  simp [h]

/-! ### The number, TIME and the length of the round (R31, R42) -/

theorem Dev.tb_lenInForce (d : Dev) (len : Nat) : (d.lenInForce len).tb = d.tb := by
  unfold Dev.lenInForce Dev.putField
  split
  · rfl
  · dsimp only
    split <;> rfl

/-- ROUND_LEN alone is written. -/
theorem Dev.steady_lenInForce {off : Nat} (h : off ≠ 0x1008) (d : Dev) (len : Nat) : d.Steady off (d.lenInForce len) := by
  unfold Dev.lenInForce Dev.putField
  split
  · exact .refl off d
  · dsimp only
    split
    · exact { tb := rfl, last := rfl, staged := id, reg := fun _ => mget_mset_ne _ _ _ _ h, shadow := fun _ => mget_mset_ne _ _ _ _ h }
    · exact { tb := rfl, last := rfl, staged := id, reg := fun _ => mget_mset_ne _ _ _ _ h, shadow := fun _ => rfl }

theorem Dev.mwf_shadow_lenInForce {d : Dev} (h : mwf d.shadow = true) (len : Nat) : mwf (d.lenInForce len).shadow = true := by
  unfold Dev.lenInForce Dev.putField
  split
  · exact h
  · dsimp only
    split
    · exact mwf_mset _ _ _ h
    · exact h

/-- The time base of a mark, before a round length takes effect. -/
def TimeBase.marked (b : TimeBase) : TimeBase := { b with now := max b.now (b.markTime b.nextMark), round := b.nextMark, nextMark := b.nextMark + 1 }

/-- The time base of a mark at which a round length takes effect. -/
def TimeBase.relengthed (b : TimeBase) (len : Nat) : TimeBase :=
  { b.marked with baseT := b.markTime b.nextMark, baseN := b.nextMark, lenHalf := len, changes := b.changes.filter (fun x => decide (b.nextMark < x.1)) }

/-- The mark of the next round, with and without a round length that takes effect. -/
theorem Dev.nextRound_cases (d : Dev) :
    ((∀ c ∈ d.tb.changes, c.1 ≠ d.tb.nextMark) ∧ d.nextRound = { d with tb := d.tb.marked }) ∨
    (∃ c, d.tb.changes.find? (fun c => c.1 == d.tb.nextMark) = some c ∧ c ∈ d.tb.changes ∧ c.1 = d.tb.nextMark ∧
      d.nextRound = ({ d with tb := d.tb.relengthed c.2 }).lenInForce c.2) := by
  cases hf : d.tb.changes.find? (fun c => c.1 == d.tb.nextMark) with
  | none =>
    refine .inl ⟨fun c hc => by simpa using List.find?_eq_none.mp hf c hc, ?_⟩
    unfold Dev.nextRound Dev.at_
    dsimp only
    rw [hf]
    rfl
  | some c =>
    refine .inr ⟨c, rfl, List.mem_of_find?_eq_some hf, by simpa using List.find?_some hf, ?_⟩
    unfold Dev.nextRound Dev.at_
    dsimp only
    rw [hf]
    rfl

theorem Dev.tb_nextRound_of_quiet {d : Dev} (h : ∀ c ∈ d.tb.changes, c.1 ≠ d.tb.nextMark) : d.nextRound.tb = d.tb.marked := by
  obtain ⟨-, he⟩ | ⟨c, -, hc, hn, -⟩ := d.nextRound_cases
  · rw [he]
  · exact absurd hn (h c hc)

theorem Dev.tb_nextRound_of_change {d : Dev} {len : Nat} {rest : List (Nat × Nat)} (h : d.tb.changes = (d.tb.nextMark, len) :: rest) :
    d.nextRound.tb = d.tb.relengthed len := by
  obtain ⟨hq, -⟩ | ⟨c, hf, -, -, he⟩ := d.nextRound_cases
  · exact absurd rfl (hq (d.tb.nextMark, len) (by simp [h]))
  · rw [h, List.find?_cons_of_pos (by simp), Option.some.injEq] at hf
    rw [he, Dev.tb_lenInForce, ← hf]

/-- What every mark writes of the time base. -/
theorem Dev.tb_nextRound (d : Dev) : d.nextRound.tb.round = d.tb.nextMark ∧ d.nextRound.tb.nextMark = d.tb.nextMark + 1 ∧ d.nextRound.tb.running = d.tb.running ∧
    d.nextRound.tb.sealed = d.tb.sealed ∧ d.nextRound.tb.now = max d.tb.now (d.tb.markTime d.tb.nextMark) := by
  obtain ⟨-, he⟩ | ⟨c, -, -, -, he⟩ := d.nextRound_cases
  · rw [he]
    exact ⟨rfl, rfl, rfl, rfl, rfl⟩
  · rw [he, Dev.tb_lenInForce]
    exact ⟨rfl, rfl, rfl, rfl, rfl⟩

/-- No value of a register but ROUND_LEN at a change mark is written before the shadows. -/
theorem Dev.kept_nextRound {d : Dev} {off : Nat} (h : off ≠ 0x1008 ∨ ∀ c ∈ d.tb.changes, c.1 ≠ d.tb.nextMark) (hs : ∀ p ∈ d.staged, p.1 ≠ off) :
    mget d.nextRound.shadow off = mget d.shadow off ∧ ∀ p ∈ d.nextRound.staged, p.1 ≠ off := by
  obtain ⟨-, he⟩ | ⟨c, -, hc, hn, he⟩ := d.nextRound_cases
  · rw [he]
    exact ⟨rfl, hs⟩
  · have kept := Dev.steady_lenInForce (h.resolve_right (fun hq => hq c hc hn)) { d with tb := d.tb.relengthed c.2 } c.2
    rw [he]
    exact ⟨kept.shadow hs, kept.staged hs⟩

theorem Dev.mwf_shadow_nextRound {d : Dev} (h : mwf d.shadow = true) : mwf d.nextRound.shadow = true := by
  obtain ⟨-, he⟩ | ⟨c, -, -, -, he⟩ := d.nextRound_cases
  · rw [he]
    exact h
  · rw [he]
    exact Dev.mwf_shadow_lenInForce (d := { d with tb := d.tb.relengthed c.2 }) h _

/-! ### Shadows apply (R91) -/

/-- The cells of a map, stored one by one over another. -/
theorem mget_foldl_mset {α : Type} {l : SMap α} (hl : mwf l = true) (m : SMap α) {k : Nat} {x : α} (h : mget l k = some x) :
    mget (l.foldl (fun m p => mset m p.1 p.2) m) k = some x := by
  rw [mwf_iff_pairwise] at hl
  induction l generalizing m with
  | nil => nomatch h
  | cons p r ih =>
    obtain ⟨a, v⟩ := p
    obtain ⟨hlow, hr⟩ := List.pairwise_cons.mp hl
    rw [List.foldl_cons]
    by_cases ha : a = k
    · rw [mget_foldl_mset_ne r _ (fun q hq => by have := hlow q hq; simp only at this; omega)]
      simp only [mget, if_pos ha, Option.some.injEq] at h
      rw [← h, ← ha, mget_mset_self]
    · rw [mget, if_neg ha] at h
      exact ih hr _ h

theorem Dev.applyShadows_applies {d : Dev} {keep : Nat → Bool} {off : Nat} {w : Word} (hk : keep off = false) (hwf : mwf d.shadow = true)
    (h : mget d.shadow off = some w) : mget (d.applyShadows keep).regs off = some w ∧ mget (d.applyShadows keep).shadow off = none := by
  constructor
  · refine mget_foldl_mset (mwf_filter _ _ hwf) _ ?_
    rw [mget_filter _ (fun n => !(keep n)), hk]
    exact h
  · exact (mget_filter _ keep off).trans (by rw [hk]; rfl)

/-- Shadows of registers that are not the own block of a task apply at a mark. -/
theorem Dev.markShadows_applies {d : Dev} {off : Nat} {w : Word} (hoff : ∀ c k, off ≠ coreOff c + 0x100 + k * 0x20) (hwf : mwf d.shadow = true)
    (h : mget d.shadow off = some w) : mget d.markShadows.regs off = some w ∧ mget d.markShadows.shadow off = none := by
  unfold Dev.markShadows
  extract_lets late own d1
  have h1 : d1.rebasePumps.shadow = d.shadow :=
    congrArg Face.shadow ((Dev.face_rebasePumps d1).trans (Dev.face_foldl (fun _ _ => by split <;> simp) _ _))
  refine Dev.applyShadows_applies ?_ (by rwa [h1]) (by rwa [h1])
  rw [Bool.eq_false_iff, ne_eq, List.contains_iff_mem, List.mem_map]
  rintro ⟨p, -, hp⟩
  exact hoff p.1 p.2 hp.symm

theorem Dev.markShadows_keeps (d : Dev) : d.markShadows.face.tb = d.face.tb ∧ d.markShadows.staged = d.staged := by
  unfold Dev.markShadows
  extract_lets late own d1
  have h1 : d1.rebasePumps.face = d.face := (Dev.face_rebasePumps d1).trans (Dev.face_foldl (fun _ _ => by split <;> simp) _ _)
  have htb := congrArg Face.tb h1
  have hstaged := congrArg Face.staged h1
  exact ⟨htb, hstaged⟩

/-! ### The mark -/

/-- The state at which a mark applies the shadows. -/
def Dev.beforeShadows (d : Dev) : Dev :=
  let d2 := d.nextRound.turnOver.foldLog
  let d3 := d2.tasksHere.foldl (fun d p => d.passMark p.1 p.2) d2
  d3.tasksHere.foldl (fun d p => d.endTakeWait p.1 p.2) d3

theorem Dev.face_beforeShadows (d : Dev) : d.beforeShadows.face = d.nextRound.face :=
  (Dev.face_foldl (fun _ _ => by simp) _ _).trans ((Dev.face_foldl (fun _ _ => by simp) _ _).trans (by simp))

/-- After the shadows, jobs that start and versions that are due leave a register of which no value waits for an activation. -/
theorem Dev.steady_markStart (off : Nat) (d : Dev) : d.beforeShadows.markShadows.Steady off d.markStart := by
  have unstarted := Dev.Steady.of_face off (Dev.face_onJobs Dev.face_stopUnstarted d.beforeShadows.markShadows)
  exact ((unstarted.trans (.onJobs (Dev.Steady.activateDue off) _)).trans (.applyVersions off _)).trans (.of_face off (Dev.face_clearUnnamed _))

theorem Dev.tb_markStart (d : Dev) : d.markStart.face.tb = d.nextRound.face.tb :=
  (Dev.steady_markStart 0 d).tb.trans (d.beforeShadows.markShadows_keeps.1.trans (congrArg Face.tb d.face_beforeShadows))

theorem roundMarkD_of_sealed {d : Dev} (hrun : d.tb.running = true) (hseal : d.tb.sealed = d.tb.nextMark + 1) (m : Measure) :
    roundMarkD m d = (d.markStart.markDecide m).markRun := by
  unfold roundMarkD
  rw [if_pos (by simp [hrun, hseal])]

theorem roundMarkD_of_unsealed {d : Dev} (h : d.tb.running = false ∨ d.tb.sealed ≠ d.tb.nextMark + 1) (m : Measure) : roundMarkD m d = d := by
  unfold roundMarkD
  rw [if_neg]
  rcases h with h | h <;> simp [h]

/-- The time base that a mark leaves, but for its state and its parent. -/
theorem Dev.tb_mark (d : Dev) (m : Measure) : (d.markStart.markDecide m).markRun.face.tb = d.nextRound.face.tb :=
  (Dev.Steady.markRun (off := 1) (fun c k => by unfold coreOff; omega) _).tb.trans ((congrArg Face.tb (Dev.face_markDecide _ m)).trans d.tb_markStart)

/-- A mark gives a register the value that waited in its shadow (R91). -/
theorem Dev.mark_applies {d : Dev} (m : Measure) {off : Nat} {w : Word} (hwf : mwf d.shadow = true) (h : mget d.shadow off = some w)
    (hoff : ∀ c k, off ≠ coreOff c + 0x100 + k * 0x20) (hlen : off ≠ 0x1008 ∨ ∀ c ∈ d.tb.changes, c.1 ≠ d.tb.nextMark) (hs : ∀ p ∈ d.staged, p.1 ≠ off) :
    (d.markStart.markDecide m).markRun.reg off = w.toNat ∧ mget (d.markStart.markDecide m).markRun.shadow off = none := by
  obtain ⟨hshadow, hstaged⟩ := Dev.kept_nextRound hlen hs
  have bshadow : d.beforeShadows.shadow = d.nextRound.shadow := congrArg Face.shadow d.face_beforeShadows
  have bstaged : d.beforeShadows.staged = d.nextRound.staged := congrArg Face.staged d.face_beforeShadows
  obtain ⟨mreg, mshadow⟩ := Dev.markShadows_applies (d := d.beforeShadows) hoff (by rw [bshadow]; exact Dev.mwf_shadow_nextRound hwf)
    (by rw [bshadow, hshadow]; exact h)
  have mstaged : ∀ p ∈ d.beforeShadows.markShadows.staged, p.1 ≠ off := by
    rw [d.beforeShadows.markShadows_keeps.2, bstaged]
    exact hstaged
  have start := d.steady_markStart off
  obtain ⟨dreg, dshadow, dstaged, -⟩ := Dev.eqs_of_measured (d.markStart.face_markDecide m)
  have run := Dev.Steady.markRun hoff (d.markStart.markDecide m)
  have rstaged : ∀ p ∈ (d.markStart.markDecide m).staged, p.1 ≠ off := by
    rw [dstaged]
    exact start.staged mstaged
  constructor
  · unfold Dev.reg
    rw [run.reg rstaged, dreg, start.reg mstaged, mreg]
  · rw [run.shadow rstaged, dshadow, start.shadow mstaged, mshadow]

theorem Dev.last_mark (d : Dev) (m : Measure) : (d.markStart.markDecide m).markRun.gov.last = m :=
  (Dev.Steady.markRun (off := 1) (fun c k => by unfold coreOff; omega) _).last.trans (Dev.eqs_of_measured (Dev.face_markDecide _ m)).2.2.2

end Sys2Proof.Machine

open Sys2Proof Sys2Proof.Machine

/-- Settles O59: of what a mark does, only the number and length of the round, the governor's measurements, the shadows, an activation, a job's end and the own block
of a task that starts write the face, and each of the last three leaves the registers that the statement names. -/
theorem marksBeginRounds : Obligations.MarksBeginRounds := by
  unfold Obligations.MarksBeginRounds
  intro m s hup
  have step := onUp_of_up s (roundMarkD m) hup
  refine ⟨fun h => step.trans (by rw [roundMarkD_of_unsealed h]), fun hrun hseal => ⟨_, step, ⟨rfl, rfl⟩, ?_⟩⟩
  dsimp only
  rw [roundMarkD_of_sealed hrun hseal]
  obtain ⟨⟨hround, hnext, hrunning, hsealed, hnow⟩, hlen, hbaseT, hbaseN⟩ := Dev.eqs_of_tb (s.dev.tb_mark m)
  obtain ⟨bround, bnext, brunning, bsealed, bnow⟩ := s.dev.tb_nextRound
  refine ⟨hround.trans bround, hnext.trans bnext, hrunning.trans (brunning.trans hrun), hsealed.trans bsealed, hnow.trans bnow, s.dev.last_mark m,
    fun hq => ?_, fun len rest hc => ?_, fun hwf off w h hoff hlen hs => Dev.mark_applies m hwf h hoff hlen hs⟩
  · rw [hlen, hbaseT, hbaseN, Dev.tb_nextRound_of_quiet hq]
    exact ⟨rfl, rfl, rfl⟩
  · rw [hlen, hbaseT, hbaseN, Dev.tb_nextRound_of_change hc]
    exact ⟨rfl, rfl, rfl⟩
end

section
/-! Words that change their own task alone (R69, R70, R72, R74, R188), and what they settle: O28 and O30. -/

namespace Sys2Proof.Machine

/-- A word issues at its effective offset, or in the cycle after the word before it if that is later (R70). -/
theorem issuedAs_issueAt {k k' : Task} {word : Nat} (hi : k'.issued = true) (hc : k'.lastCycle = (k.issueAt word).lastCycle) : IssuedAs k k' word := by
  unfold IssuedAs
  rw [hi, hc]
  unfold Task.issueAt
  dsimp only
  split
  next h => exact ⟨rfl, by omega, fun _ => by omega, by omega⟩
  next h => exact ⟨rfl, Nat.le_refl _, fun h' => absurd h' h, .inl rfl⟩

/-- Tasks that stand at the same place for the same job and round, in states that differ in one task and counters alone, have one course. -/
theorem OnlyTask.sameCourse {s t : State} {c k : Nat} (h : OnlyTask s t c k) (hpc : (t.dev.task c k).pc = (s.dev.task c k).pc)
    (hl : (t.dev.task c k).loop = (s.dev.task c k).loop) (hj : (t.dev.task c k).job = (s.dev.task c k).job)
    (hr : (t.dev.task c k).progRound = (s.dev.task c k).progRound) : s.dev.SameCourse t.dev c k := by
  obtain ⟨-, hdev, -⟩ := h
  exact .of_jobs hpc hl hj hr (by rw [hdev]) (by rw [hdev]) (by rw [hdev])

theorem onlyTask_refl (s : State) (c k : Nat) : OnlyTask s s c k := ⟨⟨rfl, rfl⟩, rfl, fun _ _ => rfl, rfl, fun _ _ => rfl⟩

theorem sums_of_sameButPlace {k j : Task} (h : SameButPlace k j) : j.sums = k.sums := by rw [h]

/-- A task that begins the loop of a REPEAT (R74). -/
def Task.repeats (k : Task) (word : Nat) : Task :=
  { k with pc := k.pc + 1, loop := some ⟨k.pc + 1, k.pc + rpLength word, rpCount word - 1, 0, rpPeriod word⟩ }

theorem Dev.nextTask_repeat (d : Dev) {w : Who} {word : Nat} (hop : wOpcode word = 0x0F) :
    d.nextTask w word = d.skipSpan w ((d.tk w).repeats word) := by
  unfold Dev.nextTask
  rw [hop]
  rfl

/-! ### What SUMM reads and writes (R188) -/

/-- A task with a value in a summary register. -/
def Task.withSum (k : Task) (r : Nat) (v : Nat × Bool) : Task := { k with sums := mset k.sums r v }

@[simp] theorem Dev.summVal_clocked (d : Dev) (c t : Nat) (m : SMap Nat) (cycle : Nat) (issued : Bool) (w : Who) (src ix : Nat) :
    (d.clocked c t m cycle issued).summVal w src ix = d.summVal w src ix := by
  have hk : ∀ {α : Type} (g : Task → α), (∀ k x i, g { k with lastCycle := x, issued := i } = g k) →
      g ((d.clocked c t m cycle issued).tk w) = g (d.tk w) := fun g hg => d.task_clocked_proj c t m cycle issued g hg _ _
  unfold Dev.summVal
  dsimp only
  rw [hk Task.flagsProg fun _ _ _ => rfl, hk Task.redRes fun _ _ _ => rfl, hk Task.eleCnt fun _ _ _ => rfl, hk Task.emptyRow fun _ _ _ => rfl,
    Dev.core_clocked_proj _ _ _ _ _ _ Core.tallies (fun _ _ => rfl)]

theorem toNat_eq_one (b : Bool) : b.toNat = 1 ↔ b = true := by cases b <;> decide

/-- The value by its source. -/
theorem Dev.summVal_spec (d : Dev) (w : Who) {src : Nat} (ix : Nat) (h : src ≤ 3) :
    (src = 0 → d.summVal w src ix = (mget (d.tk w).redRes ix).getD (0, false)) ∧
    (src = 1 → d.summVal w src ix = ((mget (d.tk w).eleCnt ix).getD 0, false)) ∧
    (src = 2 → (d.summVal w src ix).2 = false ∧ (d.summVal w src ix).1 ≤ 1 ∧
      (ix = 0 → ((d.summVal w src ix).1 = 1 ↔ (d.tk w).flagsProg.nan = true)) ∧
      (ix = 1 → ((d.summVal w src ix).1 = 1 ↔ (d.tk w).flagsProg.ovf = true)) ∧
      (ix = 2 → ((d.summVal w src ix).1 = 1 ↔ (d.tk w).flagsProg.unf = true)) ∧
      (ix = 3 → ((d.summVal w src ix).1 = 1 ↔ (d.tk w).flagsProg.sat = true)) ∧
      (ix = 4 → ((d.summVal w src ix).1 = 1 ↔ (d.tk w).emptyRow = true))) ∧
    (src = 3 → d.summVal w src ix = ((mget (d.core w.core).tallies ix).getD 0, false)) := by
  refine ⟨?_, ?_, ?_, ?_⟩
  · rintro rfl; rfl
  · rintro rfl; rfl
  · rintro rfl
    refine ⟨rfl, Bool.toNat_le _, ?_, ?_, ?_, ?_, ?_⟩
    all_goals
      rintro rfl
      exact toNat_eq_one _
  · rintro rfl; rfl

/-! ### Words that change their own task alone -/

/-- A task that has issued a word and is changed by its effect: `k` before, `k1` what the effect makes of it. -/
structure Task.Took (k k1 j : Task) (word : Nat) : Prop where
  eq : j = { k1 with lastCycle := (k.issueAt word).lastCycle, issued := true }
  pc : k1.pc = k.pc
  loop : k1.loop = k.loop
  job : k1.job = k.job
  progRound : k1.progRound = k.progRound

section alone
variable {s : State} {core : Fin 256} {task : Fin 8} {word i : Nat} {k1 : Task} {d1 : Dev}
  (h1 : OnlyTask s { s with dev := d1 } core task) (hk : (s.dev.task core task).Took k1 (d1.task core task) word)
  (htwin : storesNoTwin (wOpcode word) = true)

include h1 htwin in
/-- The end of a word whose effect changed its task alone changes that task alone. -/
theorem onlyTask_wordDone : OnlyTask s { s with dev := d1.wordDone ⟨core, task, i⟩ word } core task := by
  rw [Dev.wordDone_of_no_twin _ _ _ htwin]
  exact h1.trans (onlyTask_onTask { s with dev := d1 } core task _)

include hk htwin in
theorem sameButPlace_wordDone : SameButPlace k1 ((d1.wordDone ⟨core, task, i⟩ word).task core task) := by
  obtain ⟨p, l, hn⟩ := d1.nextTask_eq ⟨core, task, i⟩ word
  rw [Dev.wordDone_of_no_twin _ _ _ htwin, Dev.task_onTask, hn]
  simp only [Dev.tk, hk.eq]
  rfl

include hk htwin in
theorem issuedAs_wordDone : IssuedAs (s.dev.task core task) ((d1.wordDone ⟨core, task, i⟩ word).task core task) word := by
  have hd := Dev.wordDone_of_no_twin d1 ⟨core, task, i⟩ word htwin
  refine issuedAs_issueAt ?_ ?_
  · exact (Dev.wordDone_task_proj Task.issued (fun _ _ _ _ => rfl) _ _ _ hd).trans (by rw [hk.eq])
  · exact (Dev.wordDone_task_proj Task.lastCycle (fun _ _ _ _ => rfl) _ _ _ hd).trans (by rw [hk.eq])

include h1 hk in
theorem Task.Took.sameCourse : s.dev.SameCourse d1 core task :=
  h1.sameCourse (by rw [hk.eq]; exact hk.pc) (by rw [hk.eq]; exact hk.loop) (by rw [hk.eq]; exact hk.job) (by rw [hk.eq]; exact hk.progRound)

end alone

section clauses
variable {op : Nat} {core : Fin 256} {task : Fin 8} {e : TaskEv} {word : Nat} {s : State} (he : Undisturbed e task) (hi : Issues op core task word s)
include he hi

/-- The state in which the effect of a word of no engine runs, and the task that stands there. -/
theorem issued_runs (now : Nat) : ∃ m, ∃ d : Dev, d = s.dev.clocked core task m ((s.dev.task core task).issueAt word).lastCycle true ∧
    onUp s (issueTD op core e now) = .next { s with dev := d.runWord ⟨core, task, (s.dev.task core task).pc⟩ word evNone now } ∧
    OnlyTask s { s with dev := d } core task ∧ (s.dev.task core task).Took (s.dev.task core task) (d.task core task) word := by
  obtain ⟨m, hm⟩ := issueTD_of_issues he hi now
  exact ⟨m, _, rfl, (onUp_of_up s _ hi.1).trans (by rw [hm]), onlyTask_clocked .., ⟨(Dev.task_clocked ..).trans (if_pos rfl), rfl, rfl, rfl, rfl⟩⟩

/-- A word of no engine that changes its own task alone, and is followed by the next one. -/
theorem plainWord_done (h0 : engineOf op = 0) (htwin : storesNoTwin op = true) (hplain : steersItself op = false) {k1 : Task}
    (heffect : ∀ d m, d = s.dev.clocked core task m ((s.dev.task core task).issueAt word).lastCycle true → ∃ d1,
      wordEffect d ⟨core, task, (s.dev.task core task).pc⟩ word evNone 0 = .done d1 ∧
      OnlyTask { s with dev := d } { s with dev := d1 } core task ∧ (s.dev.task core task).Took k1 (d1.task core task) word) :
    ∃ t, onUp s (issueTD op core e 0) = .next t ∧ OnlyTask s t core task ∧ SameButPlace k1 (t.dev.task core task) ∧
      IssuedAs (s.dev.task core task) (t.dev.task core task) word ∧ Steers s.dev core task (t.dev.task core task) ((s.dev.task core task).pc + 1) := by
  obtain ⟨m, d, hd, hexec, honly, -⟩ := issued_runs he hi 0
  obtain ⟨d1, hdone, h1, hk⟩ := heffect d m hd
  have hop := hi.2.2.2.1
  rw [← hop] at h0 htwin hplain
  refine ⟨_, hexec, ?_⟩
  rw [Dev.runWord_done h0 hdone]
  have honly1 := honly.trans h1
  exact ⟨onlyTask_wordDone honly1 htwin, sameButPlace_wordDone hk htwin, issuedAs_wordDone hk htwin,
    steers_wordDone (hk.sameCourse honly1) _ word htwin hplain⟩

/-- NOP where no word of its own bytes is bad. -/
theorem nop_done (hop : op = 0x00) (hbad : ∀ a : Nat, a = (s.dev.task core task).base + (s.dev.task core task).schedAddr + 8 * (s.dev.task core task).pc →
      (s.dev.core core).badWords [((a : Int), ((a + 8 : Nat) : Int))] = []) :
    ∃ t, onUp s (issueTD op core e 0) = .next t ∧ OnlyTask s t core task ∧ SameButPlace (s.dev.task core task) (t.dev.task core task) ∧
      IssuedAs (s.dev.task core task) (t.dev.task core task) word ∧ Steers s.dev core task (t.dev.task core task) ((s.dev.task core task).pc + 1) := by
  subst hop
  refine plainWord_done he hi rfl rfl rfl (fun d m hd => ⟨d, ?_, onlyTask_refl _ _ _, ⟨?_, rfl, rfl, rfl, rfl⟩⟩)
  · have hw : (d.core core).badWords = (s.dev.core core).badWords := by
      rw [hd]
      exact Dev.core_clocked_proj _ _ _ _ _ _ Core.badWords (fun _ _ => rfl) _
    have hat : (d.task core task).base + (d.task core task).schedAddr = (s.dev.task core task).base + (s.dev.task core task).schedAddr := by simp [hd]
    unfold wordEffect
    rw [hi.2.2.2.1]
    dsimp only [Dev.tk]
    rw [hw, hbad _ (by rw [hat])]
    rfl
  · rw [hd, Dev.task_clocked, if_pos rfl]

/-- GATE_SET. -/
theorem gateSet_done (hop : op = 0x04) :
    ∃ t, onUp s (issueTD op core e 0) = .next t ∧ OnlyTask s t core task ∧
      SameButPlace { s.dev.task core task with gate := some (bits (wArgs word) 0 12) } (t.dev.task core task) ∧
      IssuedAs (s.dev.task core task) (t.dev.task core task) word ∧ Steers s.dev core task (t.dev.task core task) ((s.dev.task core task).pc + 1) := by
  subst hop
  refine plainWord_done he hi rfl rfl rfl (fun d m hd => ⟨d.onTask core task (fun k => { k with gate := some (bits (wArgs word) 0 12) }), ?_,
    onlyTask_onTask { s with dev := d } core task _, ⟨?_, rfl, rfl, rfl, rfl⟩⟩)
  · unfold wordEffect
    rw [hi.2.2.2.1]
    rfl
  · rw [Dev.task_onTask, hd, Dev.task_clocked, if_pos rfl]

/-- REPEAT: a loop over the next words begins (R74). -/
theorem repeat_done (hop : op = 0x0F) :
    ∃ t, onUp s (issueTD op core e 0) = .next t ∧ OnlyTask s t core task ∧ SameButPlace (s.dev.task core task) (t.dev.task core task) ∧
      IssuedAs (s.dev.task core task) (t.dev.task core task) word ∧
      (s.dev.shed ⟨core, task, (s.dev.task core task).pc⟩ = false → s.dev.yields ⟨core, task, (s.dev.task core task).pc⟩ = false →
        (t.dev.task core task).pc = (s.dev.task core task).pc + 1) ∧ (t.dev.task core task).wait = none ∧
      (t.dev.task core task).loop = some { first := (s.dev.task core task).pc + 1
                                           last := (s.dev.task core task).pc + (bits (wArgs word) 10 7 + 1)
                                           left := bits (wArgs word) 0 10
                                           iter := 0
                                           period := 16 * bits (wArgs word) 17 14 } := by
  subst hop
  obtain ⟨m, d, hd, hexec, honly, hk⟩ := issued_runs he hi 0
  have hop := hi.2.2.2.1
  have htwin : storesNoTwin (wOpcode word) = true := by rw [hop]; rfl
  have hcourse := hk.sameCourse honly
  refine ⟨_, hexec, ?_⟩
  rw [Dev.runWord_done (d1 := d) (by rw [hop]; rfl) (by unfold wordEffect; rw [hop]; rfl)]
  refine ⟨onlyTask_wordDone honly htwin, sameButPlace_wordDone hk htwin, issuedAs_wordDone hk htwin, ?_⟩
  dsimp only
  rw [Dev.wordDone_of_no_twin _ _ _ htwin, Dev.task_onTask, d.nextTask_repeat hop, ← hcourse.pc]
  refine ⟨fun hs hy => ?_, rfl, ?_⟩
  · rw [Dev.skipSpan_of_open d _ _ ((hcourse.shed _).trans hs) ((hcourse.yields _).trans hy)]
    rfl
  · obtain ⟨p, hp⟩ := d.skipSpan_eq ⟨core, task, (d.task core task).pc⟩ ((d.tk ⟨core, task, (d.task core task).pc⟩).repeats word)
    rw [hp]
    unfold Task.repeats rpLength rpCount rpPeriod
    rw [Nat.add_sub_cancel, Nat.mul_comm _ 16]
    rfl

/-- SUMM (R188). -/
theorem summ_done (hop : op = 0x0D) :
    ∃ t, onUp s (issueTD op core e 0) = .next t ∧ OnlyTask s t core task ∧
      SameButPlace ((s.dev.task core task).withSum (bits (wArgs word) 0 4)
        (s.dev.summVal ⟨core, task, (s.dev.task core task).pc⟩ (bits (wArgs word) 4 4) (bits (wArgs word) 8 12))) (t.dev.task core task) ∧
      IssuedAs (s.dev.task core task) (t.dev.task core task) word ∧ Steers s.dev core task (t.dev.task core task) ((s.dev.task core task).pc + 1) := by
  subst hop
  refine plainWord_done he hi rfl rfl rfl (fun d m hd => ⟨d.onTask core task (fun k => k.withSum (bits (wArgs word) 0 4)
    (d.summVal ⟨core, task, (s.dev.task core task).pc⟩ (bits (wArgs word) 4 4) (bits (wArgs word) 8 12))), ?_,
    onlyTask_onTask { s with dev := d } core task _, ⟨?_, rfl, rfl, rfl, rfl⟩⟩)
  · unfold wordEffect
    rw [hi.2.2.2.1]
    rfl
  · rw [Dev.task_onTask, hd, Dev.summVal_clocked, Dev.task_clocked, if_pos rfl]
    rfl

end clauses

end Sys2Proof.Machine

open Sys2Proof Sys2Proof.Machine

/-- Settles O28: NOP and GATE_SET change their task at most in its gate program; REPEAT sets the loop that later words end in. -/
theorem controlWordsSteer : Obligations.ControlWordsSteer := by
  unfold Obligations.ControlWordsSteer
  intro core task e word s he
  exact ⟨fun hi => nop_done he hi rfl, fun hi => repeat_done he hi rfl, fun hi => gateSet_done he hi rfl⟩

/-- Settles O30: SUMM sets the register that it names to the value of its source. -/
theorem summLoadsOneRegister : Obligations.SummLoadsOneRegister := by
  unfold Obligations.SummLoadsOneRegister
  intro core task e word s he hi hsrc
  obtain ⟨t, hexec, honly, hsame, hissued, hsteers⟩ := summ_done he hi rfl
  have hsums := sums_of_sameButPlace hsame
  refine ⟨t, hexec, honly, by rw [hsums]; exact hsame, hissued, hsteers, fun r hr => ?_, _, ?_,
    s.dev.summVal_spec ⟨core, task, (s.dev.task core task).pc⟩ (bits (wArgs word) 8 12) hsrc⟩
  · rw [hsums]; exact mget_mset_ne _ _ _ _ hr
  · rw [hsums]; exact mget_mset_self _ _ _

end

section
/-! Windows and the writes of other cores (R67, R72, R376, R378, R383 to R386), and what they settle: O33. -/

namespace Sys2Proof.Machine

/-! ### WINDOW (R67, R385) -/

/-- A core with one of its windows opened or closed, if it has it. -/
def Core.switchWindow (x : Core) (n : Nat) (isOpen : Bool) : Core :=
  { x with windows := match mget x.windows n with
    | some v => mset x.windows n { v with isOpen := isOpen }
    | none => x.windows }

theorem Core.window_switchWindow (x : Core) (n : Nat) (isOpen : Bool) (k : Nat) : mget (x.switchWindow n isOpen).windows k =
    if k = n then (mget x.windows n).map (fun v => { v with isOpen := isOpen }) else mget x.windows k := by
  unfold Core.switchWindow
  dsimp only
  cases h : mget x.windows n with
  | none => split <;> simp_all
  | some v => simp [mget_mset]

/-- WINDOW switches one window of its core. -/
theorem window_switches {core : Fin 256} {task : Fin 8} {e : TaskEv} {word : Nat} {s : State} (he : Undisturbed e task)
    (hi : Issues 0x17 core task word s) :
    ∃ t, exec (.window core e) s = .next t ∧ Keeps s t ∧ t.dev = { s.dev with cores := t.dev.cores, cntNow := t.dev.cntNow } ∧
      (∀ x, (t.dev.core x).mem = (s.dev.core x).mem) ∧
      (∀ x n, x ≠ core.val ∨ n ≠ bits (wArgs word) 0 4 → mget (t.dev.core x).windows n = mget (s.dev.core x).windows n) ∧
      mget (t.dev.core core).windows (bits (wArgs word) 0 4) =
        (mget (s.dev.core core).windows (bits (wArgs word) 0 4)).map (fun v => { v with isOpen := bit (wArgs word) 4 }) ∧
      Steers s.dev core task (t.dev.task core task) ((s.dev.task core task).pc + 1) := by
  obtain ⟨m, d, hd, hexec, -, -⟩ := issued_runs he hi 0
  have hop := hi.2.2.2.1
  have htwin : storesNoTwin (wOpcode word) = true := by rw [hop]; rfl
  refine ⟨_, hexec, ⟨rfl, rfl⟩, ?_⟩
  dsimp only
  rw [Dev.runWord_done (d1 := d.onCore core (fun x => x.switchWindow (bits (wArgs word) 0 4) (bit (wArgs word) 4))) (by rw [hop]; rfl)
    (by unfold wordEffect; rw [hop]; rfl)]
  have hwin : ∀ x, (d.core x).windows = (s.dev.core x).windows := fun x => by
    rw [hd]; exact Dev.core_clocked_proj _ _ _ _ _ _ Core.windows (fun _ _ => rfl) x
  have hcourse := (s.dev.sameCourse_clocked core task m ((s.dev.task core task).issueAt word).lastCycle true).trans
    (Dev.sameCourse_onCore (f := fun x => x.switchWindow (bits (wArgs word) 0 4) (bit (wArgs word) 4)) (fun _ => rfl) _ core core task)
  rw [← hd] at hcourse
  refine ⟨?_, fun x => ?_, fun x n h => ?_, ?_, steers_wordDone hcourse _ word htwin (by rw [hop]; rfl)⟩
  · rw [Dev.wordDone_of_no_twin _ _ _ htwin, hd]; rfl
  · rw [Dev.wordDone_proj Core.mem (fun _ _ => rfl) _ _ _ _ htwin, ← Dev.mem_clocked s.dev core task m _ true x, ← hd]
    by_cases hx : x = core
    · subst hx; rw [Dev.core_onCore]; rfl
    · rw [Dev.core_onCore_ne _ _ _ _ hx]
  · rw [Dev.wordDone_proj Core.windows (fun _ _ => rfl) _ _ _ _ htwin]
    by_cases hx : x = core
    · subst hx
      rw [Dev.core_onCore, Core.window_switchWindow, if_neg (h.resolve_left (fun h => h rfl)), hwin]
    · rw [Dev.core_onCore_ne _ _ _ _ hx, hwin]
  · rw [Dev.wordDone_proj Core.windows (fun _ _ => rfl) _ _ _ _ htwin, Dev.core_onCore, Core.window_switchWindow, if_pos rfl, hwin]

/-! ### A put slot that another core fills (R375, R376) -/

/-- A ring whose put index has moved on. -/
def Ring.putNext (r : Ring) : Ring := { r with put := (r.put + 1) % max 1 (srSlots r.decl) }

section put
variable {d : Dev} {c t ring : Nat} {x : Ring} (hx : (d.task c t).ring? ring = some x)
include hx

theorem Dev.ringMove_put : d.ringMove c t [] (ring, true) =
    (d.onCore c (fun y => y.onTag (ringTag x true) (fun g => { g with full := true, wait := false }))).onTask c t (fun k =>
      { k with rings := k.rings.map (fun z => if srRing z.decl = ring then z.putNext else z) }) := by
  unfold Dev.ringMove
  rw [hx]
  rfl

theorem Dev.ring?_ringMove_put : ((d.ringMove c t [] (ring, true)).task c t).ring? ring = some x.putNext := by
  have hdecl : srRing x.decl = ring := by simpa using List.find?_some hx
  rw [Dev.ringMove_put hx, Dev.task_onTask,
    Dev.task_onCore (f := fun y => y.onTag (ringTag x true) (fun g => { g with full := true, wait := false })) (fun _ => rfl)]
  unfold Task.ring? at hx ⊢
  dsimp only
  rw [List.find?_map]
  have hsame : ((fun z : Ring => srRing z.decl == ring) ∘ fun z : Ring => if srRing z.decl = ring then z.putNext else z) =
      fun z => srRing z.decl == ring := by
    funext z
    by_cases h : srRing z.decl = ring <;> simp [h, Ring.putNext]
  rw [hsame, hx]
  simp [hdecl]

theorem Dev.mem_ringMove_put (y : Nat) : ((d.ringMove c t [] (ring, true)).core y).mem = (d.core y).mem := by
  rw [Dev.ringMove_put hx, Dev.mem_onTask]
  by_cases h : y = c
  · subst h; rw [Dev.core_onCore]; rfl
  · rw [Dev.core_onCore_ne _ _ _ _ h]

theorem Dev.full_ringMove_put : (((d.ringMove c t [] (ring, true)).core c).tag (ringTag x true)).full = true := by
  rw [Dev.ringMove_put hx, Dev.tag_onTask, Dev.core_onCore]
  unfold Core.onTag
  simp [Core.tag]

theorem Dev.core_ringMove_put_ne {y : Nat} (hy : y ≠ c) : (d.ringMove c t [] (ring, true)).core y = d.core y := by
  rw [Dev.ringMove_put hx, Dev.core_onTask_ne _ _ _ _ _ hy, Dev.core_onCore_ne _ _ _ _ hy]

theorem Dev.well_ringMove_put : (d.ringMove c t [] (ring, true)).well = d.well := by rw [Dev.ringMove_put hx]; rfl

end put

/-! ### A write of another core (R383, R384) -/

/-- A device on whose core some bytes were written. -/
def Dev.stored (d : Dev) (c off : Nat) (data : Bytes) : Dev := d.onCore c (fun x => x.store off data)

theorem Dev.memGet_stored (d : Dev) (c off : Nat) (data : Bytes) (a : Nat) : memGet ((d.stored c off data).core c).mem a =
    if off ≤ a ∧ a < off + data.length then data.getD (a - off) 0 else memGet (d.core c).mem a := by
  rw [Dev.stored, Dev.core_onCore]
  exact memGet_write _ _ _ _

theorem Dev.countWindows_eq (d : Dev) (c : Nat) (w : Writer) (lo n : Nat) : ∃ m, d.countWindows c w lo n = { d with cntNow := m } :=
  foldl_keep (fun e : Dev => ∃ m, e = { d with cntNow := m }) _ _ _ ⟨d.cntNow, rfl⟩ (fun e win _ ⟨m, hm⟩ => by
    obtain ⟨m', h⟩ := e.count_eq (coreOff c + 0x1908 + win * 0x10) 32 1
    exact ⟨m', by rw [h, hm]⟩)

section writes
variable {d : Dev} {writer target off j lost : Nat} {data : Bytes} {i : Image} (hjob : d.coreJob writer = some (j, i))
  (hheld : (d.core writer).pump.held = none)

include hjob hheld in
/-- A write that a window accepts lands, counters apart, where no ring's put slot takes it, and else uses the slot. -/
theorem remoteWrite_accepted {win : Nat} (hup : d.sliceUp (target / 64) = true)
    (hwin : d.accepts target ⟨i.compileId, i.deviceIndex, writer⟩ off data.length = some win) :
    ∃ m, remoteWriteD writer target off ⟨data, lost⟩ d = match d.putRing writer target off data.length with
      | none => ({ d with cntNow := m } : Dev).stored target off data
      | some (t, ring) => ({ d with cntNow := m } : Dev).farWrite writer target off data t ring := by
  obtain ⟨m, hm⟩ := d.count_eq (coreOff target + 0x1820) 0 lost
  obtain ⟨m', hm'⟩ := ({ d with cntNow := m } : Dev).countWindows_eq target ⟨i.compileId, i.deviceIndex, writer⟩ off data.length
  refine ⟨m', ?_⟩
  unfold remoteWriteD
  rw [hjob]
  dsimp only
  have hup' : ({ d with cntNow := m } : Dev).sliceUp (target / 64) = true := hup
  have hwin' : ({ d with cntNow := m } : Dev).accepts target ⟨i.compileId, i.deviceIndex, writer⟩ off data.length = some win := hwin
  rw [if_neg (by simp [hheld]), hm, if_neg (by simp [hup']), hwin']
  dsimp only
  rw [hm']
  rfl

/-- A window of another compile takes no write. -/
theorem accepts_none (h : ∀ p ∈ (d.core target).windows, p.2.isOpen = true → ∀ im, (d.job p.2.job).img = some im → im.compileId ≠ i.compileId)
    (n : Nat) : d.accepts target ⟨i.compileId, i.deviceIndex, writer⟩ off n = none := by
  unfold Dev.accepts
  rw [Option.map_eq_none_iff, List.find?_eq_none]
  intro p hp hacc
  unfold Dev.winAccepts at hacc
  cases himg : (d.job p.2.job).img with
  | none => simp [himg] at hacc
  | some im =>
    simp only [himg, Bool.and_eq_true, beq_iff_eq] at hacc
    exact h p hp (by tauto) im himg (by tauto)

theorem Dev.Aside.markFailed (d : Dev) (n : Nat) (hs : List Nat) (code : Nat) : d.Aside (d.markFailed n hs code) := onRunning _ _ _ _

theorem Dev.Aside.failItems (d : Dev) (e : Err) (n : Nat) (hs : List Nat) (ring : Option Nat) : d.Aside (d.failItems e n hs ring) :=
  (markFailed _ _ _ _).trans (raise _ _)

include hjob hheld in
/-- A write that no window accepts is an error of its items, and nothing lands. -/
theorem remoteWrite_denied (h : d.accepts target ⟨i.compileId, i.deviceIndex, writer⟩ off data.length = none) :
    d.Aside (remoteWriteD writer target off ⟨data, lost⟩ d) := by
  have counted := Dev.Aside.count d (coreOff target + 0x1820) 0 lost
  obtain ⟨m, hm⟩ := d.count_eq (coreOff target + 0x1820) 0 lost
  have h' : ({ d with cntNow := m } : Dev).accepts target ⟨i.compileId, i.deviceIndex, writer⟩ off data.length = none := h
  unfold remoteWriteD
  rw [hjob]
  dsimp only
  rw [if_neg (by simp [hheld])]
  rw [hm] at counted ⊢
  split
  next => exact counted.trans (.detect _ _ _ _ _ _ _)
  next =>
    rw [h']
    exact counted.trans ((Dev.Aside.count _ _ _ _).trans (.failItems _ _ _ _ _))

end writes

section slot
variable {d : Dev} {writer target off k ring : Nat} {data : Bytes} (hx : d.farXfer writer = none)
include hx

/-- A write of no transfer into an empty put slot fills it. -/
theorem Dev.farWrite_empty (hf : d.ringFails target k (ring, true) = false) :
    d.farWrite writer target off data k ring = (d.stored target off data).ringMove target k [] (ring, true) := by
  unfold Dev.farWrite
  simp [hx, hf, Dev.stored]

/-- One into a full slot of an elastic ring is held. -/
theorem Dev.farWrite_full (hf : d.ringFails target k (ring, true) = true) (he : (d.task target k).elastic ring = true) :
    d.farWrite writer target off data k ring =
      (d.onCore writer (fun c => { c with pump := { c.pump with held := some ⟨target, off, data, d.tb.round⟩ } })).farWait target k ring true := by
  unfold Dev.farWrite
  simp [hx, hf, he]

end slot

/-- A core whose pump holds a write back. -/
def Core.holdWrite (x : Core) (h : FarWrite) : Core := { x with pump := { x.pump with held := some h } }

section held
variable {d : Dev} {writer target k ring : Nat} {g : Ring} (hg : (d.task target k).ring? ring = some g) (h : FarWrite)
include hg

/-- The slot's tag shows that a write waits (R399). -/
theorem Dev.farWait_held : (d.onCore writer (·.holdWrite h)).farWait target k ring true =
    (d.onCore writer (·.holdWrite h)).onCore target (fun x => x.onTag (ringTag g true) (fun g => { g with wait := true, slipped := g.slipped && !true })) := by
  have hk : ((d.onCore writer (·.holdWrite h)).task target k).ring? ring = some g := by
    rw [Dev.task_onCore (f := (·.holdWrite h)) (fun _ => rfl)]; exact hg
  unfold Dev.farWait
  rw [hk]

theorem Dev.mem_farWait_held (x : Nat) : (((d.onCore writer (·.holdWrite h)).farWait target k ring true).core x).mem = (d.core x).mem := by
  rw [Dev.farWait_held hg h]
  exact ((Dev.sameBytes_onCore d writer (·.holdWrite h) (fun _ => rfl)).trans (Dev.sameBytes_onCore _ target
    (fun x => x.onTag (ringTag g true) (fun g => { g with wait := true, slipped := g.slipped && !true })) (fun _ => rfl))).mem x

theorem Dev.held_farWait_held : (((d.onCore writer (·.holdWrite h)).farWait target k ring true).core writer).pump.held = some h := by
  rw [Dev.farWait_held hg h]
  by_cases hc : writer = target
  · subst hc; rw [Dev.core_onCore, Dev.core_onCore]; rfl
  · rw [Dev.core_onCore_ne _ _ _ _ hc, Dev.core_onCore]; rfl

theorem Dev.wait_farWait_held : ((((d.onCore writer (·.holdWrite h)).farWait target k ring true).core target).tag (ringTag g true)).wait = true := by
  rw [Dev.farWait_held hg h, Dev.core_onCore]
  unfold Core.onTag
  simp [Core.tag]

theorem Dev.well_farWait_held : ((d.onCore writer (·.holdWrite h)).farWait target k ring true).well = d.well := by
  rw [Dev.farWait_held hg h]; rfl

end held

/-! ### The clauses about REMOTE_WRITE -/

section clauses
variable {writer target : Fin 256} {off j lost : Nat} {data : Bytes} {i : Image} {s : State} (hup : s.dev.up = true)
  (hjob : s.dev.coreJob writer = some (j, i)) (hheld : (s.dev.core writer).pump.held = none)
include hup hjob hheld

/-- A write into a window and no put slot changes its bytes alone. -/
theorem remoteWrite_plain {win : Nat} (hslice : s.dev.sliceUp (target.val / 64) = true)
    (hwin : s.dev.accepts target ⟨i.compileId, i.deviceIndex, writer.val⟩ off data.length = some win)
    (hput : s.dev.putRing writer target off data.length = none) :
    ∃ t, exec (.remoteWrite writer target off ⟨data, lost⟩) s = .next t ∧ Keeps s t ∧
      (∀ a, memGet (t.dev.core target).mem a =
        if off ≤ a ∧ a < off + data.length then data.getD (a - off) 0 else memGet (s.dev.core target).mem a) ∧
      (∀ x, x ≠ target.val → t.dev.core x = s.dev.core x) ∧ t.dev.well = s.dev.well ∧ t.dev.err = s.dev.err ∧
      t.dev.streams = s.dev.streams ∧ (t.dev.core target).tasks = (s.dev.core target).tasks ∧ (t.dev.core target).tags = (s.dev.core target).tags := by
  obtain ⟨m, hm⟩ := remoteWrite_accepted (lost := lost) hjob hheld hslice hwin
  rw [hput] at hm
  dsimp only at hm
  refine ⟨_, onUp_of_up s _ hup, ⟨rfl, rfl⟩, ?_⟩
  dsimp only
  rw [hm]
  refine ⟨fun a => Dev.memGet_stored _ _ _ _ _, fun x hx => Dev.core_onCore_ne _ _ _ _ hx, rfl, rfl, rfl, ?_, ?_⟩
  · rw [Dev.stored, Dev.core_onCore]; rfl
  · rw [Dev.stored, Dev.core_onCore]; rfl

variable {k ring win : Nat} {g : Ring} (hslice : s.dev.sliceUp (target.val / 64) = true)
  (hwin : s.dev.accepts target ⟨i.compileId, i.deviceIndex, writer.val⟩ off data.length = some win)
  (hput : s.dev.putRing writer target off data.length = some (k, ring)) (hfar : s.dev.farXfer writer = none)
  (hg : (s.dev.task target k).ring? ring = some g)
include hslice hwin hput hfar hg

/-- A write into an empty put slot fills it (R375, R376). -/
theorem remoteWrite_fills (hf : s.dev.ringFails target k (ring, true) = false) :
    ∃ t, exec (.remoteWrite writer target off ⟨data, lost⟩) s = .next t ∧ Keeps s t ∧
      (∀ a, memGet (t.dev.core target).mem a =
        if off ≤ a ∧ a < off + data.length then data.getD (a - off) 0 else memGet (s.dev.core target).mem a) ∧
      ((t.dev.core target).tag (ringTag g true)).full = true ∧ (t.dev.task target k).ring? ring = some g.putNext ∧
      (∀ x, x ≠ target.val → t.dev.core x = s.dev.core x) ∧ t.dev.well = s.dev.well := by
  obtain ⟨m, hm⟩ := remoteWrite_accepted (lost := lost) hjob hheld hslice hwin
  rw [hput] at hm
  dsimp only at hm
  rw [Dev.farWrite_empty (show Dev.farXfer { s.dev with cntNow := m } writer = none from hfar) hf] at hm
  have hg' : ((({ s.dev with cntNow := m } : Dev).stored target off data).task target k).ring? ring = some g := by
    rw [Dev.stored, Dev.task_onCore (f := fun x => x.store off data) (fun _ => rfl)]; exact hg
  refine ⟨_, onUp_of_up s _ hup, ⟨rfl, rfl⟩, ?_⟩
  dsimp only
  rw [hm]
  refine ⟨fun a => ?_, Dev.full_ringMove_put hg', Dev.ring?_ringMove_put hg', fun x hx => ?_, Dev.well_ringMove_put hg'⟩
  · rw [Dev.mem_ringMove_put hg']; exact Dev.memGet_stored _ _ _ _ _
  · rw [Dev.core_ringMove_put_ne hg' hx]; exact Dev.core_onCore_ne _ _ _ _ hx

/-- A write into a full slot of an elastic ring waits, and no byte changes (R378). -/
theorem remoteWrite_waits (hf : s.dev.ringFails target k (ring, true) = true) (he : (s.dev.task target k).elastic ring = true) :
    ∃ t, exec (.remoteWrite writer target off ⟨data, lost⟩) s = .next t ∧ Keeps s t ∧ (∀ x, (t.dev.core x).mem = (s.dev.core x).mem) ∧
      (t.dev.core writer).pump.held = some ⟨target, off, data, s.dev.tb.round⟩ ∧
      ((t.dev.core target).tag (ringTag g true)).wait = true ∧ t.dev.well = s.dev.well := by
  obtain ⟨m, hm⟩ := remoteWrite_accepted (lost := lost) hjob hheld hslice hwin
  rw [hput] at hm
  dsimp only at hm
  rw [Dev.farWrite_full (show Dev.farXfer { s.dev with cntNow := m } writer = none from hfar) hf he] at hm
  have hg' : (({ s.dev with cntNow := m } : Dev).task target k).ring? ring = some g := hg
  refine ⟨_, onUp_of_up s _ hup, ⟨rfl, rfl⟩, ?_⟩
  dsimp only
  rw [hm]
  exact ⟨Dev.mem_farWait_held hg' _, Dev.held_farWait_held hg' _, Dev.wait_farWait_held hg' _, Dev.well_farWait_held hg' _⟩

end clauses

end Sys2Proof.Machine

open Sys2Proof Sys2Proof.Machine

/-- Settles O33: WINDOW switches one entry of its core's windows; a remote write goes through the lowest window that accepts it, or is dropped. -/
theorem windowsAdmitRemoteWrites : Obligations.WindowsAdmitRemoteWrites := by
  unfold Obligations.WindowsAdmitRemoteWrites
  refine ⟨fun core task e word s he hi => window_switches he hi, fun writer target off j lost data i s hup hjob hheld =>
    ⟨fun win hslice hwin => ⟨fun hput => remoteWrite_plain hup hjob hheld hslice hwin hput, fun k ring g hput hfar hg =>
      ⟨fun hf => remoteWrite_fills hup hjob hheld hslice hwin hput hfar hg hf,
        fun hf he => remoteWrite_waits hup hjob hheld hslice hwin hput hfar hg hf he⟩⟩, fun hclosed => ?_⟩⟩
  have denied := remoteWrite_denied (lost := lost) (off := off) hjob hheld (accepts_none hclosed data.length)
  exact ⟨_, onUp_of_up s _ hup, ⟨rfl, rfl⟩, denied.mem, by rw [denied.rest]⟩

end

section
/-! Waits that time out (R75, R379 to R382, R414, R418), and what they settle: O32. -/

namespace Sys2Proof.Machine

/-! ### Restores of bytes, streams and sequences (R551, R554) -/

/-- `e` differs from `d` in bytes, streams and sequences, in a report of a deep page, and in no tag, tally, task or pump. -/
structure Dev.Refilled (d e : Dev) : Prop where
  rest : e = { d with cores := e.cores, well := e.well, deep := e.deep, streams := e.streams, seqs := e.seqs, out := e.out }
  core : ∀ c, e.core c = { d.core c with mem := (e.core c).mem, patrolWb := (e.core c).patrolWb, bad := (e.core c).bad }

namespace Dev.Refilled
variable {d e f : Dev}

theorem refl (d : Dev) : d.Refilled d := ⟨rfl, fun _ => rfl⟩

theorem trans (h : d.Refilled e) (h' : e.Refilled f) : d.Refilled f where
  rest := h'.rest.trans (by rw [h.rest])
  core c := (h'.core c).trans (by rw [h.core c])

theorem ite {p : Prop} [Decidable p] (he : d.Refilled e) (hf : d.Refilled f) : d.Refilled (if p then e else f) := by
  split <;> assumption

theorem foldl {α : Type} (f : Dev → α → Dev) (l : List α) (d : Dev) (h : ∀ (e : Dev) a, e.Refilled (f e a)) : d.Refilled (l.foldl f d) :=
  foldl_keep (d.Refilled ·) f l d (refl d) (fun e a _ he => he.trans (h e a))

/-- A change of nothing that belongs to cores. -/
theorem of_units (h : e = { d with well := e.well, deep := e.deep, streams := e.streams, seqs := e.seqs, out := e.out }) : d.Refilled e where
  rest := by rw [h]
  core c := by rw [h]; rfl

theorem storeAll (d : Dev) (c : Nat) (ws : List (Nat × Bytes)) : d.Refilled (d.onCore c (fun x => x.storeAll ws)) := by
  refine ⟨rfl, fun y => ?_⟩
  by_cases h : y = c
  · subst h; rw [Dev.core_onCore]; rfl
  · rw [Dev.core_onCore_ne _ _ _ _ h]

theorem wellWrite (d : Dev) (a : Nat) (bs : Bytes) : d.Refilled (d.wellWrite a bs) := by
  unfold Dev.wellWrite
  exact ite (of_units rfl) (of_units rfl)

theorem pageWrite (d : Dev) (l : Rec) (i p h : Nat) (ws : List (Nat × Bytes)) : d.Refilled (d.pageWrite l i p h ws) := by
  unfold Dev.pageWrite
  exact ite (storeAll d _ _) (ite (foldl _ ws d (fun x w => wellWrite x _ _)) (ite (ite (refl d) (of_units rfl)) (refl d)))

theorem onPages (d : Dev) (l : Rec) (i p : Nat) (ws : List (Nat × Bytes)) : d.Refilled (d.onPages l i p ws) :=
  foldl _ _ d (fun x h => pageWrite x l i p h ws)

theorem putSlices (d : Dev) (ck : StreamCk) (mv : Nat → Nat) : d.Refilled (d.putSlices ck mv) := by
  have slice : ∀ (e : Dev) (c : Nat) (g : Core → List (Nat × Bytes)), e.Refilled (e.onCore c (fun y => y.storeAll (g y))) := fun e c g =>
    storeAll e c (g (e.core c))
  unfold Dev.putSlices
  split
  · exact refl d
  · exact foldl _ _ d (fun e x => slice e _ _)

theorem restoreSeq (d : Dev) (h : Nat) (l : Rec) (q : Seq) : d.Refilled (d.restoreSeq h l q) :=
  ((of_units rfl : d.Refilled (d.setSeq h (kvLayer l) _)).trans (foldl _ _ _ (fun x _ => onPages x _ _ _ _))).trans
    (foldl _ _ _ (fun x _ => onPages x _ _ _ _))

theorem onStream (d : Dev) (h : Nat) (f : Stream → Stream) : d.Refilled (d.onStream h f) := of_units rfl

theorem putState (d : Dev) (ck : StreamCk) (mv : Nat → Nat) : d.Refilled (d.putState ck mv) := by
  unfold Dev.putState
  refine trans ((putSlices d ck mv).trans (foldl _ _ _ (fun x l => ?_))) (onStream _ _ _)
  split
  · exact restoreSeq x _ _ _
  · exact refl x

theorem restoreTimed (d : Dev) (h : Nat) : d.Refilled (d.restoreTimed h) := by
  unfold Dev.restoreTimed
  dsimp only
  split
  · exact refl d
  · split
    · exact onStream d _ _
    · exact (putState d _ _).trans (onStream _ _ _)

theorem restoreAllTimed (d : Dev) (hs : List Nat) : d.Refilled (d.restoreAllTimed hs) :=
  foldl _ hs d (fun x h => (restoreTimed x h).trans (onStream _ _ _))

end Dev.Refilled

/-! ### The record of a timeout stays in the error ring -/

/-- The record of place `n` is the latest one, or no further one comes from the log: its episode of a full ring has been reported. -/
def Dev.Latest (d : Dev) (n : Nat) : Prop := d.err.head = n + 1 ∨ d.log.fullEpisode = true ∧ d.logFull = true

theorem Dev.raise_below (d : Dev) (e : Err) {n : Nat} (hn : d.err.head = n + 1) :
    mget (d.raise e).err.recs (n % 256) = mget d.err.recs (n % 256) := by
  by_cases h : d.err.head - d.err.tail < 256
  · have hrecs : (d.raise e).err.recs = mset d.err.recs (d.err.head % 256) (errBytes e d.err.handling.isSome (e.round.getD d.tb.round) d.tb.now) := by
      have hn : ¬ (d.err.head - d.err.tail ≥ 256) := by omega
      unfold Dev.raise
      simp only [if_neg hn]
      split <;> split <;> simp [Dev.halt]
    rw [hrecs, mget_mset_ne _ _ _ _ (by omega)]
  · rw [(d.raise_full e (by omega)).2.1]

/-- `e` comes of `d` by restores, by log records and by the record of a full log: a record of place `n` that was the latest is still there. -/
structure Dev.Logs (d e : Dev) : Prop where
  rest : e = { d with
    cores := e.cores, well := e.well, deep := e.deep, streams := e.streams, seqs := e.seqs, out := e.out, log := e.log, err := e.err, msix := e.msix }
  core : ∀ c, e.core c = { d.core c with mem := (e.core c).mem, patrolWb := (e.core c).patrolWb, bad := (e.core c).bad }
  record : ∀ n, d.Latest n → e.Latest n ∧ mget e.err.recs (n % 256) = mget d.err.recs (n % 256)

namespace Dev.Logs
variable {d e f : Dev}

theorem refl (d : Dev) : d.Logs d := ⟨rfl, fun _ => rfl, fun _ h => ⟨h, rfl⟩⟩

theorem trans (h : d.Logs e) (h' : e.Logs f) : d.Logs f where
  rest := h'.rest.trans (by rw [h.rest])
  core c := (h'.core c).trans (by rw [h.core c])
  record n hn := by
    obtain ⟨h1, h2⟩ := h.record n hn
    obtain ⟨h3, h4⟩ := h'.record n h1
    exact ⟨h3, h4.trans h2⟩

theorem foldl {α : Type} (f : Dev → α → Dev) (l : List α) (d : Dev) (h : ∀ (e : Dev) a, e.Logs (f e a)) : d.Logs (l.foldl f d) :=
  foldl_keep (d.Logs ·) f l d (refl d) (fun e a _ he => he.trans (h e a))

theorem of_refilled (h : d.Refilled e) : d.Logs e where
  rest := by rw [h.rest]
  core := h.core
  record n hn := by
    have herr : e.err = d.err := by rw [h.rest]
    have hlog : e.log = d.log := by rw [h.rest]
    have hfull : e.logFull = d.logFull := by rw [h.rest]; rfl
    unfold Dev.Latest
    rw [herr, hlog, hfull]
    exact ⟨hn, rfl⟩

theorem logRec (d : Dev) (r : Bytes) : d.Logs (d.logRec r) := by
  obtain ⟨w, l, b, o, m, heq⟩ := d.logRec_cases r
  refine ⟨by rw [heq], fun c => by rw [heq]; rfl, fun n hn => ?_⟩
  unfold Dev.logRec
  split
  next hfull =>
    split
    next => exact ⟨hn, rfl⟩
    next hep =>
      have hhead : d.err.head = n + 1 := hn.resolve_right (fun h => hep h.1)
      obtain ⟨b, o, m, hb⟩ := Dev.raise_cases { d with log := { d.log with fullEpisode := true } } { code := 0x0705, cls := clsDevice, corr := false }
      refine ⟨.inr ?_, Dev.raise_below _ _ hhead⟩
      rw [hb]
      exact ⟨rfl, hfull⟩
  next hroom => exact ⟨.inl (hn.resolve_right (fun h => hroom h.2)), rfl⟩

theorem timeOutItem (d : Dev) (h : Nat) (i : Item) : d.Logs (d.timeOutItem h i) := by
  unfold Dev.timeOutItem
  dsimp only
  split
  · exact of_refilled (.onStream d _ _)
  · exact (logRec d _).trans (of_refilled (.onStream _ _ _))

end Dev.Logs

/-! ### What an end of a wait leaves -/

/-- `e` differs from `d` in tags, pumps, landed transfers and counters alone. -/
structure Dev.Drops (d e : Dev) : Prop where
  rest : e = { d with cores := e.cores, slices := e.slices, links := e.links, cntNow := e.cntNow }
  core : ∀ c, e.core c = { d.core c with tags := (e.core c).tags, pump := (e.core c).pump, landed := (e.core c).landed }

namespace Dev.Drops
variable {d e f : Dev}

theorem refl (d : Dev) : d.Drops d := ⟨rfl, fun _ => rfl⟩

theorem trans (h : d.Drops e) (h' : e.Drops f) : d.Drops f where
  rest := h'.rest.trans (by rw [h.rest])
  core c := (h'.core c).trans (by rw [h.core c])

theorem foldl {α : Type} (f : Dev → α → Dev) (l : List α) (d : Dev) (h : ∀ (e : Dev) a, e.Drops (f e a)) : d.Drops (l.foldl f d) :=
  foldl_keep (d.Drops ·) f l d (refl d) (fun e a _ he => he.trans (h e a))

theorem onCore (d : Dev) (c : Nat) (f : Core → Core) (hf : ∀ x, f x = { x with tags := (f x).tags, pump := (f x).pump, landed := (f x).landed }) :
    d.Drops (d.onCore c f) := by
  refine ⟨rfl, fun y => ?_⟩
  by_cases h : y = c
  · subst h; rw [Dev.core_onCore]; exact hf _
  · rw [Dev.core_onCore_ne _ _ _ _ h]

theorem count (d : Dev) (off lo n : Nat) : d.Drops (d.count off lo n) := by
  obtain ⟨m, h⟩ := d.count_eq off lo n
  rw [h]
  exact ⟨rfl, fun _ => rfl⟩

theorem onPump (d : Dev) (p : PumpId) (f : Pump → Pump) : d.Drops (d.onPump p f) := by
  cases p
  case core c => exact onCore d c.val (fun x => { x with pump := f x.pump }) (fun _ => rfl)
  case well s w => exact ⟨rfl, fun _ => rfl⟩
  case link l => exact ⟨rfl, fun _ => rfl⟩

theorem onXfer (d : Dev) (p : PumpId) (x : Xfer) (f : Xfer → Xfer) : d.Drops (d.onXfer p x f) := onPump d p _

theorem onTag (d : Dev) (c i : Nat) (f : Tag → Tag) : d.Drops (d.onCore c (fun y => y.onTag i f)) :=
  onCore d c (fun y => y.onTag i f) (fun _ => rfl)

theorem endRingWait (d : Dev) (c t : Nat) : d.Drops (d.endRingWait c t) := by
  unfold Dev.endRingWait
  dsimp only
  split
  · split
    · exact onTag d _ _ _
    · exact refl d
  · exact refl d

theorem dropAwaited (d : Dev) (w : Who) (word : Nat) : d.Drops (d.dropAwaited w word) := by
  unfold Dev.dropAwaited
  dsimp only
  split
  · split
    · split
      · exact (onXfer d _ _ _).trans (count _ _ _ _)
      · exact onCore d w.core (fun c => { c with landed := c.landed.erase _ }) (fun _ => rfl)
    · exact refl d
  · exact foldl _ _ d (fun e y => (onXfer e _ _ _).trans (count _ _ _ _))

theorem task (h : d.Drops e) (c t : Nat) : e.task c t = d.task c t := by
  unfold Dev.task
  rw [h.core c]
  rfl

theorem sameCourse (h : d.Drops e) (c t : Nat) : d.SameCourse e c t := by
  have hk := h.task c t
  exact .of_jobs (by rw [hk]) (by rw [hk]) (by rw [hk]) (by rw [hk]) (by rw [h.rest]) (by rw [h.rest]) (by rw [h.rest])

theorem runningItems (h : d.Drops e) (n : Nat) (hs : List Nat) : e.runningItems n hs = d.runningItems n hs := by rw [h.rest]; rfl

theorem lowestSeq (h : d.Drops e) (n : Nat) (hs : List Nat) : e.lowestSeq n hs = d.lowestSeq n hs := by rw [h.rest]; rfl

end Dev.Drops

/-- The record of a timeout (R379): its ring, its items, the task's round. -/
def Dev.timeOutErr (d : Dev) (c t ring round : Nat) (hs : List Nat) : Err :=
  { code := 0x0503, kind := 0, task := t, unit := c, corr := (d.runningItems round hs).isEmpty, handle := hs.head?
    a := ring % 256 + 256 * (d.runningItems round hs).length, b := d.lowestSeq round hs, round := some round }

/-- A timeout writes its record; what follows restores the items' streams. -/
theorem Dev.Logs.timeOut (d : Dev) (c t ring round : Nat) (hs : List Nat) :
    (d.raise (d.timeOutErr c t ring round hs)).Logs (d.timeOut c t ring round hs) :=
  (foldl _ _ _ (fun e (p : Nat × Item) => timeOutItem e p.1 p.2)).trans (of_refilled (.restoreAllTimed _ _))

theorem Dev.timeOut_record (d : Dev) (c t ring round : Nat) (hs : List Nat) (hroom : d.err.head - d.err.tail < 256) :
    mget (d.timeOut c t ring round hs).err.recs (d.err.head % 256) =
      some (errBytes (d.timeOutErr c t ring round hs) d.err.handling.isSome round d.tb.now) := by
  obtain ⟨hhead, hrec, -, -⟩ := d.raise_room (d.timeOutErr c t ring round hs) hroom
  rw [((Dev.Logs.timeOut d c t ring round hs).record _ (.inl hhead)).2]
  exact hrec

/-- Beside bytes, streams, sequences, log, error ring and interrupts a timeout changes nothing. -/
theorem Dev.timeOut_core (d : Dev) (c t ring round : Nat) (hs : List Nat) (x : Nat) : ∃ m p b,
    (d.timeOut c t ring round hs).core x = { d.core x with mem := m, patrolWb := p, bad := b } := by
  obtain ⟨b, o, m, h⟩ := d.raise_cases (d.timeOutErr c t ring round hs)
  have hc := (Dev.Logs.timeOut d c t ring round hs).core x
  rw [h] at hc
  exact ⟨_, _, _, hc⟩

theorem Dev.timeOut_rest (d : Dev) (c t ring round : Nat) (hs : List Nat) : ∃ e : Dev, d.timeOut c t ring round hs = { d with
    cores := e.cores, well := e.well, deep := e.deep, streams := e.streams, seqs := e.seqs, out := e.out, log := e.log, err := e.err, msix := e.msix } := by
  obtain ⟨b, o, m, h⟩ := d.raise_cases (d.timeOutErr c t ring round hs)
  have hr := (Dev.Logs.timeOut d c t ring round hs).rest
  rw [h] at hr
  exact ⟨_, hr⟩

/-! ### Where the sequencer goes from a word that is no branch -/

/-- Where no span is withheld, a word that is neither BRANCH nor REPEAT is followed by the next one. -/
theorem Dev.nextTask_of_open (d : Dev) (w : Who) (word : Nat) (hb : wOpcode word ≠ 0x0E) (hr : wOpcode word ≠ 0x0F)
    (hs : d.shed w = false) (hy : d.yields w = false) : d.nextTask w word = (d.tk w).goTo ((d.tk w).pc + 1) := by
  unfold Dev.nextTask
  dsimp only
  split
  next h => exact absurd h hb
  next h => exact absurd h hr
  next => rw [if_neg (by simp [hs]), Dev.skipSpan_of_open _ _ _ hs hy]
  next => rw [if_neg (by simp [hy]), Dev.skipSpan_of_open _ _ _ hs hy]
  next => exact Dev.skipSpan_of_open _ _ _ hs hy

/-! ### An abandoned word -/

section abandon
variable {d : Dev} {c t word : Nat} (ring : Nat) (hcur : d.curWordOf c t = some word)

/-- The device before a word's timeout: its wait has ended. -/
def Dev.waitEnded (d : Dev) (c t word : Nat) : Dev := (d.endRingWait c t).dropAwaited ⟨c, t, (d.task c t).pc⟩ word

theorem Dev.Drops.waitEnded (d : Dev) (c t word : Nat) : d.Drops (d.waitEnded c t word) := (endRingWait d c t).trans (dropAwaited _ _ _)

include hcur in
theorem Dev.abandonWord_eq : d.abandonWord c t ring =
    ((d.waitEnded c t word).timeOut c t ring (d.task c t).progRound (d.opHandles c t (d.task c t).pc)).onTask c t
      (fun _ => { (d.waitEnded c t word).nextTask ⟨c, t, (d.task c t).pc⟩ word with wait := none }) := by
  unfold Dev.abandonWord
  rw [hcur]
  rfl

end abandon

/-- A wait whose word is abandoned times out. -/
theorem timesOut_abandonWord {s : State} {c : Fin 256} {t : Fin 8} {word : Nat} (ring : Nat) (hcur : s.dev.curWordOf c t = some word)
    (hb : wOpcode word ≠ 0x0E) (hr : wOpcode word ≠ 0x0F) : TimesOut s { s with dev := s.dev.abandonWord c t ring } c t ring := by
  rw [Dev.abandonWord_eq ring hcur]
  have drops := Dev.Drops.waitEnded s.dev c t word
  set d1 := s.dev.waitEnded c t word with hd1
  set hs := s.dev.opHandles c t (s.dev.task c t).pc with hhs
  have hk : d1.tk ⟨c, t, (s.dev.task c t).pc⟩ = s.dev.task c t := drops.task c t
  have hcourse := drops.sameCourse c t
  obtain ⟨e, he⟩ := d1.timeOut_rest c t ring (s.dev.task c t).progRound hs
  refine ⟨⟨rfl, rfl⟩, ?_, ⟨?_, fun hshed hyield => ?_⟩, fun i => ?_, ?_, ?_, fun hroom => ?_⟩
  · obtain ⟨p, l, hn⟩ := d1.nextTask_eq ⟨c, t, (s.dev.task c t).pc⟩ word
    dsimp only
    rw [Dev.task_onTask, hn, hk]
    rfl
  · dsimp only; rw [Dev.task_onTask]
  · dsimp only
    rw [Dev.task_onTask, Dev.nextTask_of_open _ _ _ hb hr ((hcourse.shed _).trans hshed) ((hcourse.yields _).trans hyield), hk]
    exact (Task.goTo_jumps _ _).congr rfl rfl rfl
  · obtain ⟨m, p, b, hc⟩ := d1.timeOut_core c t ring (s.dev.task c t).progRound hs c
    dsimp only
    rw [Dev.tallies_onTask, hc, drops.core c]
  · show (d1.timeOut c t ring _ hs).jobs = _
    rw [he, drops.rest]
  · show (d1.timeOut c t ring _ hs).tb = _
    rw [he, drops.rest]
  · have herr : d1.err = s.dev.err := by rw [drops.rest]
    have hrec := d1.timeOut_record c t ring (s.dev.task c t).progRound hs (by rw [herr]; exact hroom)
    have htb : d1.tb = s.dev.tb := by rw [drops.rest]
    rw [Dev.timeOutErr, drops.runningItems, drops.lowestSeq, herr, htb] at hrec
    exact hrec


/-! ### A transfer that is abandoned (R418) -/

theorem Dev.pump_onPump (d : Dev) (p : PumpId) (f : Pump → Pump) : (d.onPump p f).pump p = f (d.pump p) := by
  cases p
  case core c => exact congrArg Core.pump (Dev.core_onCore d c.val _)
  case well s w =>
    unfold Dev.pump Dev.onPump
    simp
  case link l => exact congrArg Link.pump (Dev.link_onLink d l.val _)

/-- A pump is what its core, slice or link says. -/
theorem Dev.pump_congr {d e : Dev} (hc : ∀ c, (e.core c).pump = (d.core c).pump) (hs : e.slices = d.slices) (hl : e.links = d.links) (p : PumpId) :
    e.pump p = d.pump p := by
  cases p
  case core c => exact hc c.val
  case well s w => unfold Dev.pump Dev.slice; rw [hs]
  case link l => unfold Dev.pump Dev.link; rw [hl]

theorem Dev.pump_onTag (d : Dev) (c i : Nat) (f : Tag → Tag) (p : PumpId) : (d.onCore c (fun y => y.onTag i f)).pump p = d.pump p := by
  refine Dev.pump_congr (d := d) (e := d.onCore c (fun y => y.onTag i f)) (fun x => ?_) rfl rfl p
  by_cases h : x = c
  · subst h; rw [Dev.core_onCore]; rfl
  · rw [Dev.core_onCore_ne _ _ _ _ h]

/-- The tags of the slots that a transfer of a task waits for show no wait any more (R399). -/
def Dev.endXferWaits (d : Dev) (x : Xfer) : Dev :=
  (d.xferRings x).foldl (fun d u => match (d.task x.core x.task).ring? u.1 with
    | some r => d.onCore x.core (fun c => c.onTag (ringTag r u.2) (fun g => { g with wait := false }))
    | none => d) d

theorem Dev.endXferWaits_spec (d : Dev) (x : Xfer) : d.Drops (d.endXferWaits x) ∧ ∀ p, (d.endXferWaits x).pump p = d.pump p := by
  refine foldl_keep (fun e : Dev => d.Drops e ∧ ∀ p, e.pump p = d.pump p) _ _ _ ⟨.refl d, fun _ => rfl⟩ (fun e u _ he => ?_)
  split
  · exact ⟨he.1.trans (.onTag _ _ _ _), fun p => (e.pump_onTag _ _ _ p).trans (he.2 p)⟩
  · exact he

/-- The device before a transfer's timeout: its waits have ended and it has left its pump. -/
def Dev.xferEnded (d : Dev) (p : PumpId) (x : Xfer) : Dev := ((d.endXferWaits x).dropXfer p x).count (pumpReg p + 8) 32 1

theorem Dev.abandonXfer_eq (d : Dev) (p : PumpId) (x : Xfer) (ring : Nat) : d.abandonXfer p x ring =
    (d.xferEnded p x).timeOut x.core x.task ring x.round (d.opHandlesAt x.core x.task x.word x.round) := rfl

theorem Dev.Drops.xferEnded (d : Dev) (p : PumpId) (x : Xfer) : d.Drops (d.xferEnded p x) :=
  ((d.endXferWaits_spec x).1.trans (onPump _ _ _)).trans (count _ _ _ _)

theorem Dev.queue_xferEnded (d : Dev) (p : PumpId) (x : Xfer) : ((d.xferEnded p x).pump p).queue = (d.pump p).queue.erase x := by
  obtain ⟨m, hm⟩ := ((d.endXferWaits x).dropXfer p x).count_eq (pumpReg p + 8) 32 1
  have hp : (d.xferEnded p x).pump p = ((d.endXferWaits x).dropXfer p x).pump p := by
    unfold Dev.xferEnded
    rw [hm]
    exact Dev.pump_congr (fun _ => rfl) rfl rfl p
  rw [hp, Dev.dropXfer, Dev.pump_onPump, (d.endXferWaits_spec x).2]

/-- An abandoned transfer leaves its pump; no task, job or time base changes. -/
theorem Dev.abandonXfer_spec (d : Dev) (p : PumpId) (x : Xfer) (ring : Nat) :
    ((d.abandonXfer p x ring).pump p).queue = (d.pump p).queue.erase x ∧ (∀ c t, (d.abandonXfer p x ring).task c t = d.task c t) ∧
      (d.abandonXfer p x ring).jobs = d.jobs ∧ (d.abandonXfer p x ring).tb = d.tb := by
  have drops := Dev.Drops.xferEnded d p x
  rw [Dev.abandonXfer_eq]
  generalize d.opHandlesAt x.core x.task x.word x.round = hs
  obtain ⟨e, he⟩ := (d.xferEnded p x).timeOut_rest x.core x.task ring x.round hs
  have hcore := (d.xferEnded p x).timeOut_core x.core x.task ring x.round hs
  refine ⟨?_, fun c t => ?_, by rw [he, drops.rest], by rw [he, drops.rest]⟩
  · have hpump : ∀ c, (((d.xferEnded p x).timeOut x.core x.task ring x.round hs).core c).pump = ((d.xferEnded p x).core c).pump := fun c => by
      obtain ⟨m, q, b, hc⟩ := hcore c
      rw [hc]
    rw [← Dev.queue_xferEnded, Dev.pump_congr hpump (by rw [he]) (by rw [he])]
  · obtain ⟨m, q, b, hc⟩ := hcore c
    rw [Dev.task, hc]
    exact drops.task c t

/-! ### Whose time has come (R75, R379, R382) -/

section due
variable {d : Dev} {c t : Nat}

/-- A replay takes its timeouts from its log. -/
theorem Dev.dueRing_of_replays (h : d.replays (d.task c t).job (d.task c t).progRound = true) : d.dueRing c t = none := by
  unfold Dev.dueRing
  simp [h]

/-- The wait of a word on a ring is due once its budget has passed. -/
theorem Dev.dueRing_of_ring {ring began issued budget order : Nat} {wr : Bool}
    (hw : (d.task c t).wait = some ⟨.ring ring wr, began, issued, budget, order⟩) :
    d.dueRing c t = if d.replays (d.task c t).job (d.task c t).progRound then none else if began + budget ≤ d.tb.round then some ring else none := by
  unfold Dev.dueRing
  rw [hw]

theorem Dev.dueRing_of_xfer {p : PumpId} {x : Xfer} {ring : Nat} (hw : (d.task c t).wait = none) (hx : d.dueXfer c t = some (p, x, ring))
    (hr : d.replays (d.task c t).job (d.task c t).progRound = false) : d.dueRing c t = some ring := by
  unfold Dev.dueRing
  simp [hr, hw, hx]

theorem tagTimeoutD_none (h : d.dueRing c t = none) : tagTimeoutD c t d = d := by
  unfold tagTimeoutD
  rw [h]

theorem tagTimeoutD_word {ring began issued budget order : Nat} {wr : Bool}
    (hw : (d.task c t).wait = some ⟨.ring ring wr, began, issued, budget, order⟩) (hdue : d.dueRing c t = some ring) (hf : d.firstDue c ring = true) :
    tagTimeoutD c t d = d.abandonWord c t ring := by
  unfold tagTimeoutD
  rw [hdue, hw]
  simp [hf]

theorem tagTimeoutD_xfer {p : PumpId} {x : Xfer} {ring : Nat} (hw : (d.task c t).wait = none) (hx : d.dueXfer c t = some (p, x, ring))
    (hring : ring < 255) (hdue : d.dueRing c t = some ring) (hf : d.firstDue c ring = true) : tagTimeoutD c t d = d.abandonXfer p x ring := by
  unfold tagTimeoutD
  rw [hdue, hw, hx]
  simp [hf, show ¬ ring = 255 by omega]

theorem tlyTimeoutD_of_tally {i began issued budget order : Nat} (hw : (d.task c t).wait = some ⟨.tally i, began, issued, budget, order⟩) :
    tlyTimeoutD c t d = if d.replays (d.task c t).job (d.task c t).progRound = true ∨ ¬ began + budget < d.tb.round then d
      else d.abandonWord c t 255 := by
  unfold tlyTimeoutD
  rw [hw]
  dsimp only
  split
  next h => rw [if_pos (.inl h)]
  next h =>
    split
    next hb => rw [if_neg (by simp [h, hb])]
    next hb => rw [if_pos (.inr hb)]

theorem tlyTimeoutD_of_replays (h : d.replays (d.task c t).job (d.task c t).progRound = true) : tlyTimeoutD c t d = d := by
  unfold tlyTimeoutD
  rw [if_pos h]

end due

/-- A command that finds nothing to do leaves the state. -/
theorem onUp_same {s : State} {f : Dev → Dev} (h : f s.dev = s.dev) : onUp s f = .next s := by
  unfold onUp onDev
  dsimp only
  split
  · rw [h]
  · rfl

end Sys2Proof.Machine

open Sys2Proof Sys2Proof.Machine

/-- Settles O32: a due wait ends in `abandonWord` or `abandonXfer`, of which the record stays the one at the ring's head. -/
theorem waitsThatTimeOutAreAbandoned : Obligations.WaitsThatTimeOutAreAbandoned := by
  unfold Obligations.WaitsThatTimeOutAreAbandoned
  intro core task word began issued budget order s hup hcur
  refine ⟨fun i hw hop => ⟨fun htime hr => ?_, fun htime => onUp_same ?_⟩, fun ring wr hw => ⟨fun htime hr hf hb hrep => ?_, fun htime => onUp_same ?_⟩,
    fun p x ring hw hx hring hr hf => ?_, fun hr => ⟨onUp_same (tlyTimeoutD_of_replays hr), onUp_same (tagTimeoutD_none (Dev.dueRing_of_replays hr))⟩⟩
  · refine ⟨_, onUp_of_up s _ hup, ?_⟩
    rw [tlyTimeoutD_of_tally hw, if_neg (by simp [hr, htime])]
    exact timesOut_abandonWord 255 hcur (by omega) (by omega)
  · rw [tlyTimeoutD_of_tally hw, if_pos (.inr (by omega))]
  · refine ⟨_, onUp_of_up s _ hup, ?_⟩
    rw [tagTimeoutD_word hw ((Dev.dueRing_of_ring hw).trans (by simp [hr, htime])) hf]
    exact timesOut_abandonWord ring hcur hb hrep
  · exact tagTimeoutD_none ((Dev.dueRing_of_ring hw).trans (by simp [htime]))
  · refine ⟨_, onUp_of_up s _ hup, ⟨rfl, rfl⟩, ?_⟩
    dsimp only
    rw [tagTimeoutD_xfer hw hx hring (Dev.dueRing_of_xfer hw hx hr) hf]
    obtain ⟨hqueue, htask, hjobs, htb⟩ := s.dev.abandonXfer_spec p x ring
    exact ⟨hqueue, htask _ _, hjobs, htb⟩

end

section
/-! The answers of host commands (R529, R530, R533, R535) and the end of a job (R85, R86, R387), and what they settle: O57. -/

namespace Sys2Proof.Machine

/-! ### What leaves for the host is never taken back -/

/-- `e` differs from `d` in what the host sees and in the log, and what had left for the host still stands there. -/
structure Dev.Notes (d e : Dev) : Prop where
  rest : e = { d with well := e.well, log := e.log, rings := e.rings, out := e.out, err := e.err, msix := e.msix }
  out : d.out <+: e.out

namespace Dev.Notes
variable {d e f : Dev}

theorem refl (d : Dev) : d.Notes d := ⟨rfl, List.prefix_refl _⟩

theorem trans (h : d.Notes e) (h' : e.Notes f) : d.Notes f := ⟨h'.rest.trans (by rw [h.rest]), h.out.trans h'.out⟩

theorem ite {p : Prop} [Decidable p] (he : d.Notes e) (hf : d.Notes f) : d.Notes (if p then e else f) := by
  split <;> assumption

theorem foldl {α : Type} (f : Dev → α → Dev) (l : List α) (d : Dev) (h : ∀ (e : Dev) a, e.Notes (f e a)) : d.Notes (l.foldl f d) :=
  foldl_keep (d.Notes ·) f l d (refl d) (fun e a _ he => he.trans (h e a))

theorem raise (d : Dev) (e : Err) : d.Notes (d.raise e) := by
  obtain ⟨b, vs, m, h⟩ := d.raise_eq e
  rw [h]
  exact ⟨rfl, List.prefix_append _ _⟩

theorem logRec (d : Dev) (r : Bytes) : d.Notes (d.logRec r) := by
  unfold Dev.logRec
  have noted : ∀ l, d.Notes { d with log := l } := fun l => ⟨rfl, List.prefix_refl _⟩
  exact ite (ite (refl d) ((noted _).trans (raise _ _))) ⟨rfl, List.prefix_refl _⟩

theorem writeEntry (d : Dev) (kind n : Nat) (bs : Bytes) : d.Notes (d.writeEntry kind n bs) := by
  obtain ⟨r, o, m, h⟩ := d.writeEntry_cases kind n bs
  refine ⟨by rw [h], ?_⟩
  unfold Dev.writeEntry
  dsimp only
  obtain ⟨vs, hout, -⟩ := Dev.ringIrq_keeps ((d.emit (.entry kind n (d.ring (ringKey kind n)).devIdx
    (withPhase bs (phaseAt kind) (d.phase kind n (d.ring (ringKey kind n)).devIdx)))).onRing (ringKey kind n)
      (fun r => { r with devIdx := ((d.ring (ringKey kind n)).devIdx + 1) % 2 ^ 32 })) kind n
  rw [hout]
  exact (List.prefix_append _ _).trans (List.prefix_append _ _)

theorem post (d : Dev) (kind n : Nat) (bs : Bytes) : d.Notes (d.post kind n bs).1 := by
  unfold Dev.post
  dsimp only
  split
  · exact writeEntry d kind n bs
  · split
    · exact ⟨rfl, List.prefix_refl _⟩
    · exact refl d

theorem postCompletion (d : Dev) (c : Completion) : d.Notes (d.postCompletion c) := by
  have posted := post d 1 c.job (completionBytes c d.tb.now)
  unfold Dev.postCompletion
  split
  next d' h => rw [h] at posted; exact posted
  next d' h => rw [h] at posted; exact posted.trans (raise _ _)

theorem finishAt (d : Dev) (c : Completion) (round : Nat) : d.Notes (d.finishAt c round) := by
  unfold Dev.finishAt
  exact (ite (logRec d _) (refl d)).trans (postCompletion _ _)

theorem finishCmd (d : Dev) (j : Nat) (r : CmdRef) (status code : Nat) : d.Notes (d.finishCmd j r status code) := finishAt d _ _

theorem refuse (d : Dev) (x : HostCmd) (code : Nat) : d.Notes (d.refuse x code) := (raise d _).trans (finishAt _ _ _)

theorem answer (d : Dev) (x : HostCmd) (status code : Nat) : d.Notes (d.answer x status code) := finishCmd d _ _ _ _

/-- Undefined commands behind the front fail (R530). -/
theorem dropUndefined (d : Dev) : Dev.Notes { d with cmds := d.cmds.dropWhile HostCmd.undefined } d.dropUndefined :=
  foldl _ _ _ (fun e x => refuse e x _)

theorem core (h : d.Notes e) (k : Nat) : e.core k = d.core k := by rw [h.rest]; rfl
theorem job (h : d.Notes e) (k : Nat) : e.job k = d.job k := by rw [h.rest]; rfl
theorem stream (h : d.Notes e) (k : Nat) : e.stream k = d.stream k := by rw [h.rest]; rfl
theorem cores (h : d.Notes e) : e.cores = d.cores := by rw [h.rest]
theorem jobs (h : d.Notes e) : e.jobs = d.jobs := by rw [h.rest]
theorem streams (h : d.Notes e) : e.streams = d.streams := by rw [h.rest]
theorem cmds (h : d.Notes e) : e.cmds = d.cmds := by rw [h.rest]

end Dev.Notes

/-- What stands behind the first entries of a list still does when more follow. -/
theorem mem_drop_of_prefix {α : Type} {l m : List α} (h : l <+: m) {n : Nat} {x : α} (hx : x ∈ l.drop n) : x ∈ m.drop n := by
  obtain ⟨r, rfl⟩ := h
  rw [List.drop_append]
  exact List.mem_append_left _ hx

theorem mem_drop_of_le {α : Type} {l : List α} {n k : Nat} (h : n ≤ k) {x : α} (hx : x ∈ l.drop k) : x ∈ l.drop n := by
  obtain ⟨r, rfl⟩ := Nat.exists_eq_add_of_le h
  rw [← List.drop_drop] at hx
  exact List.drop_subset _ _ hx

/-! ### A command's completion (R533, R535) -/

/-- The completion of a job's command is among what `e` adds to what leaves for the host, where its ring in `d` has room and nothing waits. -/
def Dev.Completes (d e : Dev) (c : Completion) : Prop :=
  (d.ring (ringKey 1 c.job)).backlog = [] → d.ringRoom 1 c.job = true →
    HostOut.entry 1 c.job (d.ring (ringKey 1 c.job)).devIdx
      (withPhase (completionBytes c d.tb.now) 31 (d.phase 1 c.job (d.ring (ringKey 1 c.job)).devIdx)) ∈ e.out.drop d.out.length

namespace Dev.Completes
variable {d e f : Dev} {c : Completion}

/-- A completion among what comes later was not there before. -/
theorem before (hrings : e.rings = d.rings) (hregs : e.regs = d.regs) (htb : e.tb = d.tb) (hout : d.out <+: e.out) (h : e.Completes f c) :
    d.Completes f c := by
  intro hb hr
  have hring : ∀ k, e.ring k = d.ring k := Dev.ring_of_rings hrings
  have hreg : ∀ off, e.reg off = d.reg off := fun off => by unfold Dev.reg; rw [hregs]
  have hroom : e.ringRoom 1 c.job = true := by
    unfold Dev.ringRoom Dev.ringEn Dev.ringEntries Dev.regF at hr ⊢
    simpa only [hring, hreg] using hr
  have := h (by rw [hring]; exact hb) hroom
  unfold Dev.phase Dev.regF at this ⊢
  rw [hring, hreg, htb] at this
  exact mem_drop_of_le hout.length_le this

theorem after (h : d.Completes e c) (hout : e.out <+: f.out) : d.Completes f c := fun hb hr => mem_drop_of_prefix hout (h hb hr)

theorem postCompletion (d : Dev) (c : Completion) : d.Completes (d.postCompletion c) c := by
  intro hb hr
  unfold Dev.postCompletion
  rw [Dev.post_of_room _ hb hr]
  exact (d.writeEntry_posts 1 c.job (completionBytes c d.tb.now)).1

theorem raise (d : Dev) (e : Err) (h : (d.raise e).Completes f c) : d.Completes f c := by
  obtain ⟨b, o, m, hr⟩ := d.raise_cases e
  exact h.before (by rw [hr]) (by rw [hr]) (by rw [hr]) (Dev.Notes.raise d e).out

theorem logRec (d : Dev) (r : Bytes) (h : (d.logRec r).Completes f c) : d.Completes f c := by
  obtain ⟨w, l, b, o, m, hl⟩ := d.logRec_cases r
  exact h.before (by rw [hl]) (by rw [hl]) (by rw [hl]) (Dev.Notes.logRec d r).out

theorem finishAt (d : Dev) (c : Completion) (round : Nat) : d.Completes (d.finishAt c round) c := by
  unfold Dev.finishAt
  dsimp only
  split
  · exact logRec d _ (postCompletion _ c)
  · exact postCompletion d c

theorem refuse (d : Dev) (x : HostCmd) (code : Nat) : d.Completes (d.refuse x code) (cmdCompletion (cmJob x.bytes) x.ref stFailed code) :=
  raise d _ (finishAt _ _ _)

theorem answer (d : Dev) (x : HostCmd) (status code : Nat) : d.Completes (d.answer x status code) (cmdCompletion (cmJob x.bytes) x.ref status code) :=
  finishAt d _ _

end Dev.Completes

/-! ### A command at the front (R530) -/

section front
variable {s : State} {x : HostCmd} {rest : List HostCmd} {d : Dev}

theorem front_of_cons (hc : s.dev.cmds = x :: rest) {op : Nat} (hop : cmOp x.bytes = op) : s.dev.front op = some x := by
  unfold Dev.front
  rw [hc]
  exact if_pos hop

theorem onCommand_of_ready (hr : s.dev.kindle.localReady = true) (f : Dev → Dev) : onCommand s f = .next { s with dev := (f s.dev).dropUndefined } := by
  unfold onCommand onHost onDev
  dsimp only
  rw [if_pos hr]

theorem cmds_popCmd (hc : s.dev.cmds = x :: rest) : s.dev.popCmd.cmds = rest := by
  unfold Dev.popCmd
  rw [hc]
  rfl

theorem takesCommand_dropUndefined {j : Nat} (hc : d.cmds = rest) (hj : ∀ y, y ≠ j → d.job y = s.dev.job y) :
    TakesCommand s { s with dev := d.dropUndefined } rest j := by
  have notes := Dev.Notes.dropUndefined d
  refine ⟨⟨rfl, rfl⟩, ?_, fun y hy => ?_⟩
  · dsimp only; rw [notes.cmds, hc]
  · dsimp only; rw [notes.job]; exact hj y hy

/-- `e` has the cores, the jobs and the streams of `d`. -/
structure Dev.SameTables (d e : Dev) : Prop where
  cores : e.cores = d.cores
  jobs : e.jobs = d.jobs
  streams : e.streams = d.streams

namespace Dev.SameTables
variable {d e : Dev}

theorem core (h : d.SameTables e) (k : Nat) : e.core k = d.core k := by unfold Dev.core; rw [h.cores]
theorem job (h : d.SameTables e) (k : Nat) : e.job k = d.job k := by unfold Dev.job; rw [h.jobs]
theorem stream (h : d.SameTables e) (k : Nat) : e.stream k = d.stream k := by unfold Dev.stream; rw [h.streams]

theorem dropUndefined (d : Dev) : d.SameTables d.dropUndefined :=
  have notes := Dev.Notes.dropUndefined d
  ⟨notes.cores, notes.jobs, notes.streams⟩

end Dev.SameTables

theorem answers_dropUndefined {j status code : Nat} (hj : j = cmJob x.bytes)
    (h : s.dev.popCmd.Completes d (cmdCompletion (cmJob x.bytes) x.ref status code)) : Answers s { s with dev := d.dropUndefined } x j status code := by
  subst hj
  exact (h.after (Dev.Notes.dropUndefined d).out : Dev.Completes _ _ _)

end front

/-! ### STOP_JOB (R85) -/

/-- A job that stops at a mark, or has its command wait for one. -/
def Job.stopFrom (x : Job) (mark : Nat) (r : CmdRef) : Job :=
  { x with state := .stopping, stopAt := some mark, stopCmds := x.stopCmds ++ [r] }

def Job.stopWaits (x : Job) (mark : Nat) (r : CmdRef) : Job :=
  { x with stopAt := some (x.stopAt.getD mark), stopCmds := x.stopCmds ++ [r] }

section stop
variable {d : Dev} {x : HostCmd} (hf : d.front 0x02 = some x)
include hf

/-- STOP_JOB by the state of its job (R85; entry 32). -/
theorem stopJobD_cases : stopJobD d = match (d.job (cmJob x.bytes)).state with
    | .empty => d.popCmd.refuse x 0x0A03
    | .stopped => d.popCmd.answer x stOk 0
    | .killed => d.popCmd.answer x stOk 0
    | .active => d.popCmd.onJob (cmJob x.bytes) (·.stopFrom (d.cmdMark x) x.ref)
    | _ => d.popCmd.onJob (cmJob x.bytes) (·.stopWaits (d.cmdMark x) x.ref) := by
  unfold stopJobD
  rw [hf]
  dsimp only
  have hjob : d.popCmd.job (cmJob x.bytes) = d.job (cmJob x.bytes) := rfl
  rw [hjob]
  cases (d.job (cmJob x.bytes)).state <;> rfl

/-- It changes at most its job and what the host sees. -/
theorem stopJobD_keeps : (stopJobD d).cmds = d.popCmd.cmds ∧ (stopJobD d).streams = d.streams ∧ (stopJobD d).cores = d.cores ∧
    ∀ y, y ≠ cmJob x.bytes → (stopJobD d).job y = d.job y := by
  have noted : ∀ e : Dev, d.popCmd.Notes e → e.cmds = d.popCmd.cmds ∧ e.streams = d.streams ∧ e.cores = d.cores ∧
      ∀ y, y ≠ cmJob x.bytes → e.job y = d.job y := fun e h => ⟨h.cmds, h.streams, h.cores, fun y _ => h.job y⟩
  have put : ∀ f, (d.popCmd.onJob (cmJob x.bytes) f).cmds = d.popCmd.cmds ∧ (d.popCmd.onJob (cmJob x.bytes) f).streams = d.streams ∧
      (d.popCmd.onJob (cmJob x.bytes) f).cores = d.cores ∧ ∀ y, y ≠ cmJob x.bytes → (d.popCmd.onJob (cmJob x.bytes) f).job y = d.job y :=
    fun f => ⟨rfl, rfl, rfl, fun y hy => Dev.job_onJob_ne d.popCmd _ _ f hy⟩
  rw [stopJobD_cases hf]
  split
  · exact noted _ (.refuse _ _ _)
  · exact noted _ (.answer _ _ _ _)
  · exact noted _ (.answer _ _ _ _)
  · exact put _
  · exact put _

end stop

/-- STOP_JOB. -/
theorem stopJob_stops {x : HostCmd} {rest : List HostCmd} {j : Nat} {s : State} (hr : s.dev.kindle.localReady = true)
    (hc : s.dev.cmds = x :: rest) (hj : j = cmJob x.bytes) (hop : cmOp x.bytes = 0x02) :
    ∃ t, exec .stopJob s = .next t ∧ TakesCommand s t rest j ∧ t.dev.streams = s.dev.streams ∧ t.dev.cores = s.dev.cores ∧
      ((s.dev.job j).state = .active → t.dev.job j = (s.dev.job j).stopFrom (max x.round (s.dev.tb.round + 1)) ⟨x.ring, x.index, leAt x.bytes 8 8⟩) ∧
      ((s.dev.job j).state = .loading ∨ (s.dev.job j).state = .staged ∨ (s.dev.job j).state = .stopping →
        t.dev.job j = (s.dev.job j).stopWaits (max x.round (s.dev.tb.round + 1)) ⟨x.ring, x.index, leAt x.bytes 8 8⟩) ∧
      ((s.dev.job j).state = .empty → t.dev.job j = s.dev.job j ∧ Answers s t x j 2 0x0A03) ∧
      ((s.dev.job j).state = .stopped ∨ (s.dev.job j).state = .killed → t.dev.job j = s.dev.job j ∧ Answers s t x j 0 0) := by
  have hf := front_of_cons hc hop
  obtain ⟨hcmds, hstreams, hcores, hjobs⟩ := stopJobD_keeps hf
  have hcases := stopJobD_cases hf
  have notes := Dev.SameTables.dropUndefined (stopJobD s.dev)
  refine ⟨_, onCommand_of_ready hr _, takesCommand_dropUndefined (hcmds.trans (cmds_popCmd hc)) (hj ▸ hjobs),
    notes.streams.trans hstreams, notes.cores.trans hcores, ?_⟩
  have hjob : ∀ e : Dev, stopJobD s.dev = e → (stopJobD s.dev).dropUndefined.job j = e.job j := fun e h => by rw [notes.job, h]
  rw [← hj] at hcases
  refine ⟨fun h => ?_, fun h => ?_, fun h => ?_, fun h => ?_⟩
  · rw [h] at hcases
    exact (hjob _ hcases).trans (Dev.job_onJob _ _ _)
  · have hw : stopJobD s.dev = s.dev.popCmd.onJob j (·.stopWaits (s.dev.cmdMark x) x.ref) := by
      rcases h with h | h | h <;> rw [h] at hcases <;> exact hcases
    exact (hjob _ hw).trans (Dev.job_onJob _ _ _)
  · rw [h] at hcases
    exact ⟨(hjob _ hcases).trans ((Dev.Notes.refuse _ _ _).job j), answers_dropUndefined hj (hcases ▸ .refuse _ _ _)⟩
  · have hw : stopJobD s.dev = s.dev.popCmd.answer x stOk 0 := by
      rcases h with h | h <;> rw [h] at hcases <;> exact hcases
    exact ⟨(hjob _ hw).trans ((Dev.Notes.answer _ _ _ _).job j), answers_dropUndefined hj (hw ▸ .answer _ _ _ _)⟩


/-! ### What a kill leaves of cores and streams (R86, R310, R386, R387) -/

theorem Dev.Drops.streams {d e : Dev} (h : d.Drops e) : e.streams = d.streams := by rw [h.rest]

theorem Dev.Drops.onSlice (d : Dev) (k : Nat) (f : Slice → Slice) : d.Drops (d.onSlice k f) := ⟨rfl, fun _ => rfl⟩

theorem Dev.Drops.onLink (d : Dev) (k : Nat) (f : Link → Link) : d.Drops (d.onLink k f) := ⟨rfl, fun _ => rfl⟩

/-- Stale transfers leave their pumps (R418). -/
theorem Dev.Drops.dropStale (d : Dev) : d.Drops d.dropStale := by
  have core : ∀ (e : Dev) (c : Nat) (p : Pump) (l : List Xfer → List Xfer), e.Drops (e.onCore c (fun x => { x with pump := p, landed := l x.landed })) :=
    fun e c p l => onCore e c (fun x => { x with pump := p, landed := l x.landed }) (fun _ => rfl)
  unfold Dev.dropStale
  dsimp only
  refine trans ?_ (foldl _ _ _ (fun e _ => (onLink e _ _).trans (count _ _ _ _)))
  refine trans ?_ (foldl _ _ _ (fun e _ => foldl _ _ e (fun y _ => (onSlice y _ _).trans (count _ _ _ _))))
  exact foldl _ _ _ (fun e c => (core e c.1 _ (fun l => l.filter (fun y => !(e.stale y)))).trans (count _ _ _ _))

/-- A job's cores, in maintenance and locked for its scrub (R387 step 1). -/
def Dev.lockCores (d : Dev) (cs : List Nat) : Dev := cs.foldl (fun d c => d.onCore c (fun x => { x with maint := true, locked := true })) d

theorem Dev.lockCores_core (d : Dev) (cs : List Nat) (k : Nat) :
    (d.lockCores cs).core k = if k ∈ cs then { d.core k with maint := true, locked := true } else d.core k := by
  have := foldl_visits Dev.core id (fun _ x => { x with maint := true, locked := true }) (fun _ _ => rfl)
    (fun (d : Dev) (c : Nat) => d.onCore c (fun x => { x with maint := true, locked := true })) (fun d c h => by
      by_cases hc : h = c
      · subst hc; simp
      · rw [Dev.core_onCore_ne _ _ _ _ hc]; exact (if_neg hc).symm) cs d k
  rw [List.map_id] at this
  exact this

/-- A core with the windows of a job closed (R386). -/
def Core.closeWindows (x : Core) (j : Nat) : Core := { x with windows := mmap (fun _ w => if w.job = j then { w with isOpen := false } else w) x.windows }

theorem Dev.closeWindows_core (d : Dev) (j k : Nat) : (d.closeWindows j).core k = (d.core k).closeWindows j := by
  simp only [Dev.core, Dev.closeWindows, mgetD, mget_mmap]
  cases mget d.cores k <;> rfl

theorem Core.isOpen_closeWindows (x : Core) (j : Nat) : ∀ w ∈ (x.closeWindows j).windows, w.2.job = j → w.2.isOpen = false := by
  intro w hw hj
  obtain ⟨p, -, rfl⟩ := List.mem_map.1 hw
  dsimp only at hj ⊢
  split
  next => rfl
  next h => rw [if_neg h] at hj; exact absurd hj h

section kill
variable (d : Dev) (j : Nat)

/-- A kill up to the end of its streams: the tasks halt, every item, completion and provisional record ends, and the streams do. -/
def Dev.killItems : Dev := ((d.setTaskStates j .stopped).handlesOf j).foldl (fun d h => d.cancelItems h) (d.setTaskStates j .stopped)

def Dev.killRecords : Dev :=
  let e := (((d.killItems j).dones.filter (fun p => p.2.job == j)).foldl (fun d p => d.finish { p.2 with status := stCancelled, code := 0 })
    { d.killItems j with dones := (d.killItems j).dones.filter (fun p => p.2.job != j) })
  (e.provs.filter (fun p => p.job == j)).foldl (fun d p => d.supersede p 0) e

def Dev.killStreams : Dev := ((d.killRecords j).handlesOf j).foldl Dev.endStream (d.killRecords j)

/-- What a kill does after its cores are locked and its windows closed: ranges to be zeroed, the log, completions, the job's slot. -/
def Dev.killSlot (job : Job) (load : Nat × Nat) (st : Nat) : Dev :=
  let d6 := d.unstage j
  let zs := match job.img with
    | some i => i.wellRanges.map (fun r => (j, r.1, r.2))
    | none => []
  let d7 := { d6 with zeroing := d6.zeroing ++ zs }
  let d8 := d7.logRec (outcomeRec 0x31 st j 0 d7.logRound 0 0)
  let d9 := match job.loadCmd with
    | some r => d8.finishCmd j r load.1 load.2
    | none => d8
  (job.stopCmds.foldl (fun d r => d.finishCmd j r stCancelled 0) d9).onJob j (fun x =>
    { x with
      state := .killed
      loadCmd := none
      stopCmds := []
      stopAt := none
      replay := none
      gen := (x.gen + 1) % 65536 })

theorem Dev.kill_eq (load : Nat × Nat) (st : Nat) (he : (d.job j).state ≠ .empty) (hk : (d.job j).state ≠ .killed) : d.kill j load st =
    ((((d.killStreams j).lockCores (d.job j).cores).closeWindows j).killSlot j (d.job j) load st).dropStale.refreshSlices := by
  unfold Dev.kill
  dsimp only
  rw [if_neg (by simp [he, hk])]
  rfl

/-- The slot's part keeps every core and stream. -/
theorem Dev.killSlot_keeps (job : Job) (load : Nat × Nat) (st : Nat) :
    (d.killSlot j job load st).cores = d.cores ∧ (d.killSlot j job load st).streams = d.streams := by
  unfold Dev.killSlot
  dsimp only
  constructor
  · rw [Dev.onJob_cores, foldl_proj Dev.cores _ _ _ (fun b a _ => b.finishCmd_cores _ _ _ _)]
    cases job.loadCmd <;> simp
  · rw [Dev.onJob_streams, foldl_proj Dev.streams _ _ _ (fun b a _ => b.finishCmd_streams _ _ _ _)]
    cases job.loadCmd <;> simp

/-- Until the streams have ended only tasks and tags of cores change. -/
theorem Dev.killStreams_cores : (d.killStreams j).cores = (d.setTaskStates j .stopped).cores := by
  unfold Dev.killStreams Dev.killRecords
  rw [foldl_proj Dev.cores _ _ _ (fun b a _ => b.endStream_cores a)]
  dsimp only
  rw [foldl_proj Dev.cores _ _ _ (fun b a _ => b.supersede_cores a 0), foldl_proj Dev.cores _ _ _ (fun b a _ => b.finish_cores _)]
  exact foldl_proj Dev.cores _ _ _ (fun b a _ => b.cancelItems_cores a)

theorem Dev.setTaskStates_core (st : TaskState) (k : Nat) : ∃ ts gs, (d.setTaskStates j st).core k = { d.core k with tasks := ts, tags := gs } := by
  refine foldl_keep (fun e : Dev => ∃ ts gs, e.core k = { d.core k with tasks := ts, tags := gs }) _ _ _ ⟨_, _, rfl⟩ (fun e p _ ⟨ts, gs, he⟩ => ?_)
  by_cases h : k = p.1
  · subst h
    rw [Dev.core_onCore, Dev.core_onTask, if_pos rfl, he]
    exact ⟨_, _, rfl⟩
  · rw [Dev.core_onCore_ne _ _ _ _ h, Dev.core_onTask_ne _ _ _ _ _ h]
    exact ⟨ts, gs, he⟩

/-- A core after a kill of its device's job: tasks, tags and stale transfers aside it is locked, if the job had it, with the job's windows closed. -/
theorem Dev.kill_core (load : Nat × Nat) (st : Nat) (he : (d.job j).state ≠ .empty) (hk : (d.job j).state ≠ .killed) (k : Nat) : ∃ ts gs p l,
    (d.kill j load st).core k = { (if k ∈ (d.job j).cores then { (d.core k).closeWindows j with maint := true, locked := true } else (d.core k).closeWindows j) with
      tasks := ts, tags := gs, pump := p, landed := l } := by
  obtain ⟨ts, gs, hstates⟩ := d.setTaskStates_core j .stopped k
  rw [Dev.kill_eq d j load st he hk]
  generalize hslot : ((((d.killStreams j).lockCores (d.job j).cores).closeWindows j).killSlot j (d.job j) load st) = e
  have hcores : ∀ x y : Dev, x.cores = y.cores → x.core k = y.core k := fun x y h => by unfold Dev.core; rw [h]
  have hstreams := hcores _ _ (d.killStreams_cores j)
  have hcore : e.core k = (((d.killStreams j).lockCores (d.job j).cores).core k).closeWindows j := by
    rw [← hslot, hcores _ _ (Dev.killSlot_keeps _ j (d.job j) load st).1, Dev.closeWindows_core]
  rw [hcores _ _ e.dropStale.refreshSlices_cores, (Dev.Drops.dropStale e).core k, hcore, Dev.lockCores_core, hstreams, hstates]
  split <;> exact ⟨ts, _, _, _, rfl⟩

/-- No byte of a core changes at a kill. -/
theorem Dev.mem_kill (load : Nat × Nat) (st k : Nat) : ((d.kill j load st).core k).mem = (d.core k).mem := by
  by_cases h : (d.job j).state = .empty ∨ (d.job j).state = .killed
  · unfold Dev.kill
    rw [if_pos (by simpa using h)]
  · obtain ⟨he, hk⟩ := not_or.1 h
    obtain ⟨ts, gs, p, l, hc⟩ := d.kill_core j load st he hk k
    rw [hc]
    split <;> rfl

/-! Streams -/

/-- A stream that a job's end has taken: its state stays until the next mark (R310; entry 12). -/
def Stream.ended (s : Stream) : Stream := { Stream.reset with state := s.state, job := noJob }

theorem Dev.stream_endStream (h k : Nat) : (d.endStream h).stream k = if k = h then (d.stream k).ended else d.stream k := by
  have drop : ∀ f : Stream → Stream, (({ d with freed := d.freed ++ d.heldRecs h } : Dev).dropStream h f).stream k =
      if k = h then f (d.stream k) else d.stream k := fun f => mgetD_mset d.streams h k _ _ |>.trans (by split <;> simp_all [Dev.stream])
  unfold Dev.endStream
  dsimp only
  split
  · rw [(Dev.Notes.finishCmd _ _ _ _ _).stream]; exact drop _
  · exact drop _

/-- `e` has the streams of `d`, fewer items apart. -/
structure Dev.FewerItems (d e : Dev) : Prop where
  stream : ∀ h, e.stream h = { d.stream h with items := (e.stream h).items }
  handles : ∀ i h, h ∈ d.handlesOf i → h ∈ e.handlesOf i

theorem Dev.FewerItems.of_streams {d e : Dev} (h : e.streams = d.streams) : d.FewerItems e where
  stream k := by unfold Dev.stream; rw [h]
  handles i k hk := by unfold Dev.handlesOf at hk ⊢; rwa [h]

theorem Dev.FewerItems.trans {d e f : Dev} (h : d.FewerItems e) (h' : e.FewerItems f) : d.FewerItems f where
  stream k := (h'.stream k).trans (by rw [h.stream k])
  handles i k hk := h'.handles i k (h.handles i k hk)

/-- An entry of a map is still there after another is set, or is the one that was replaced. -/
theorem mem_mset_of_mem {α : Type} (m : SMap α) (k : Nat) (x : α) (p : Nat × α) (h : p ∈ m) :
    p ∈ mset m k x ∨ p.1 = k ∧ mget m k = some p.2 ∧ (k, x) ∈ mset m k x := by
  induction m with
  | nil => cases h
  | cons q r ih =>
    obtain ⟨a, v⟩ := q
    unfold mset
    split
    next => exact .inl (List.mem_cons_of_mem _ h)
    next hlt =>
      split
      next heq =>
        rcases List.mem_cons.1 h with rfl | hr
        · exact .inr ⟨heq.symm, by simp [mget, heq], List.mem_cons_self⟩
        · exact .inl (List.mem_cons_of_mem _ hr)
      next hne =>
        rcases List.mem_cons.1 h with rfl | hr
        · exact .inl List.mem_cons_self
        · rcases ih hr with hin | ⟨h1, h2, h3⟩
          · exact .inl (List.mem_cons_of_mem _ hin)
          · exact .inr ⟨h1, by rw [mget, if_neg (Ne.symm hne)]; exact h2, List.mem_cons_of_mem _ h3⟩

theorem Dev.FewerItems.onStream (d : Dev) (h : Nat) (f : Stream → Stream) (hf : ∀ s, f s = { s with items := (f s).items }) :
    d.FewerItems (d.onStream h f) where
  stream k := by
    by_cases hk : k = h
    · subst hk; rw [Dev.stream_onStream]; exact hf _
    · rw [Dev.stream_onStream_ne _ _ _ _ hk]
  handles i k hk := by
    unfold Dev.handlesOf at hk ⊢
    obtain ⟨p, hp, rfl⟩ := List.mem_map.1 hk
    obtain ⟨hin, hlive⟩ := List.mem_filter.1 hp
    rcases mem_mset_of_mem d.streams h (f (d.stream h)) p hin with hkeep | ⟨hkey, hget, hnew⟩
    · exact List.mem_map.2 ⟨p, List.mem_filter.2 ⟨hkeep, hlive⟩, rfl⟩
    · refine List.mem_map.2 ⟨_, List.mem_filter.2 ⟨hnew, ?_⟩, hkey.symm⟩
      have hs : d.stream h = p.2 := by unfold Dev.stream mgetD; rw [hget]; rfl
      rw [hf, hs]
      exact hlive

theorem Dev.FewerItems.endItem (d : Dev) (h : Nat) (i : Item) (status code : Nat) : d.FewerItems (d.endItem h i status code) := by
  refine (onStream d h (fun s => { s with items := s.items.filter (fun x => x.seq != i.seq) }) (fun _ => rfl)).trans (of_streams ?_)
  unfold Dev.endItem
  simp

theorem Dev.FewerItems.cancelItems (d : Dev) (h : Nat) : d.FewerItems (d.cancelItems h) :=
  foldl_keep (d.FewerItems ·) _ _ _ (of_streams rfl) (fun e i _ he => he.trans (endItem e h i _ _))

theorem Dev.FewerItems.killRecords : d.FewerItems (d.killRecords j) := by
  have items : d.FewerItems (d.killItems j) := by
    refine (of_streams (d.setTaskStates_streams j .stopped)).trans ?_
    exact foldl_keep ((d.setTaskStates j .stopped).FewerItems ·) _ _ _ (of_streams rfl) (fun e h _ he => he.trans (cancelItems e h))
  refine items.trans (of_streams ?_)
  unfold Dev.killRecords
  dsimp only
  rw [foldl_proj Dev.streams _ _ _ (fun b a _ => b.supersede_streams a 0), foldl_proj Dev.streams _ _ _ (fun b a _ => b.finish_streams _)]

/-- What a kill does to streams it has done once they have ended. -/
theorem Dev.kill_streams (load : Nat × Nat) (st : Nat) (he : (d.job j).state ≠ .empty) (hk : (d.job j).state ≠ .killed) :
    (d.kill j load st).streams = (d.killStreams j).streams := by
  rw [Dev.kill_eq d j load st he hk, Dev.refreshSlices_streams, (Dev.Drops.dropStale _).streams, (Dev.killSlot_keeps _ j (d.job j) load st).2]
  exact foldl_proj Dev.streams _ _ _ (fun _ _ _ => rfl)

/-- The streams of a killed job have ended. -/
theorem Dev.stream_kill (load : Nat × Nat) (st : Nat) (he : (d.job j).state ≠ .empty) (hk : (d.job j).state ≠ .killed) {h : Nat}
    (hh : h ∈ d.handlesOf j) : (d.kill j load st).stream h = (d.stream h).ended := by
  have records := Dev.FewerItems.killRecords d j
  have visits := foldl_visits Dev.stream id (fun _ s => Stream.ended s) (fun _ _ => rfl) Dev.endStream (fun e a k => e.stream_endStream a k)
    ((d.killRecords j).handlesOf j) (d.killRecords j) h
  rw [List.map_id, if_pos (records.handles j h hh), records.stream h] at visits
  unfold Dev.stream at visits ⊢
  rw [d.kill_streams j load st he hk]
  exact visits

end kill

/-! ### KILL_JOB (R86) -/

/-- A job with one more KILL_JOB to complete. -/
def Job.killedBy (x : Job) (r : CmdRef) : Job := { x with killCmds := x.killCmds ++ [r] }

/-- The device in which a KILL_JOB ends its job: the command is off the queue and waits for the scrubs. -/
def Dev.killing (d : Dev) (x : HostCmd) : Dev := d.popCmd.onJob (cmJob x.bytes) (·.killedBy x.ref)

section killing
variable {d : Dev} {x : HostCmd}

theorem killJobD_of_empty (hf : d.front 0x03 = some x) (h : (d.job (cmJob x.bytes)).state = .empty) : killJobD d = d.popCmd.refuse x 0x0A03 := by
  have hjob : (d.popCmd.job (cmJob x.bytes)).state = .empty := h
  unfold killJobD
  rw [hf]
  simp [hjob]

theorem killJobD_of_loaded (hf : d.front 0x03 = some x) (h : (d.job (cmJob x.bytes)).state ≠ .empty) :
    killJobD d = (d.killing x).kill (cmJob x.bytes) (stCancelled, 0) 2 := by
  have hjob : ¬ ((d.popCmd.job (cmJob x.bytes)).state == .empty) = true := by rw [beq_iff_eq]; exact h
  unfold killJobD
  rw [hf]
  dsimp only
  rw [if_neg hjob]
  rfl

theorem Dev.job_killing (d : Dev) (x : HostCmd) : (d.killing x).job (cmJob x.bytes) = (d.job (cmJob x.bytes)).killedBy x.ref :=
  Dev.job_onJob d.popCmd _ _

/-- The slots after a KILL_JOB. -/
theorem Dev.kill_job (d : Dev) (j : Nat) (load : Nat × Nat) (st y : Nat) : (d.kill j load st).job y =
    if y = j ∧ (d.job j).state ≠ .empty ∧ (d.job j).state ≠ .killed then
      { d.job j with state := .killed, loadCmd := none, stopCmds := [], stopAt := none, replay := none, gen := ((d.job j).gen + 1) % 65536 }
    else d.job y := by
  unfold Dev.job at *
  rw [Dev.kill_jobs]
  unfold Dev.job
  split
  next h => rw [if_neg (by tauto)]
  next h =>
    rw [mgetD_mset]
    by_cases hy : y = j
    · rw [if_pos hy, if_pos (by tauto)]
    · rw [if_neg hy, if_neg (by tauto)]

end killing

/-- KILL_JOB. -/
theorem killJob_kills {x : HostCmd} {rest : List HostCmd} {j : Nat} {s : State} (hr : s.dev.kindle.localReady = true)
    (hc : s.dev.cmds = x :: rest) (hj : j = cmJob x.bytes) (hop : cmOp x.bytes = 0x03) :
    ∃ t, exec .killJob s = .next t ∧ TakesCommand s t rest j ∧ (∀ k, (t.dev.core k).mem = (s.dev.core k).mem) ∧
      ((s.dev.job j).state ≠ .empty → (t.dev.job j).state = .killed ∧
        (t.dev.job j).killCmds = (s.dev.job j).killCmds ++ [⟨x.ring, x.index, leAt x.bytes 8 8⟩]) ∧
      ((s.dev.job j).state ≠ .empty → (s.dev.job j).state ≠ .killed → (t.dev.job j).gen = ((s.dev.job j).gen + 1) % 65536 ∧
        (∀ k ∈ (s.dev.job j).cores, (t.dev.core k).locked = true ∧ (t.dev.core k).maint = true) ∧
        (∀ h ∈ s.dev.handlesOf j, (t.dev.stream h).items = [] ∧ (t.dev.stream h).job = noJob ∧ (t.dev.stream h).slot = none ∧
          (t.dev.stream h).state = (s.dev.stream h).state) ∧
        (∀ k, ∀ w ∈ (t.dev.core k).windows, w.2.job = j → w.2.isOpen = false)) ∧
      ((s.dev.job j).state = .empty → t.dev.job j = s.dev.job j ∧ t.dev.cores = s.dev.cores ∧ t.dev.streams = s.dev.streams ∧
        Answers s t x j 2 0x0A03) := by
  subst hj
  have hf := front_of_cons hc hop
  have notes := Dev.SameTables.dropUndefined (killJobD s.dev)
  refine ⟨_, onCommand_of_ready hr _, ?_⟩
  dsimp only
  by_cases he : (s.dev.job (cmJob x.bytes)).state = .empty
  · have heq := killJobD_of_empty hf he
    have refused := Dev.Notes.refuse s.dev.popCmd x 0x0A03
    rw [heq] at notes ⊢
    refine ⟨takesCommand_dropUndefined (refused.cmds.trans (cmds_popCmd hc)) (fun y _ => refused.job y), fun k => ?_, fun h => absurd he h,
      fun h => absurd he h, fun _ => ⟨(notes.job _).trans (refused.job _), notes.cores.trans refused.cores, notes.streams.trans refused.streams,
        answers_dropUndefined rfl (.refuse _ _ _)⟩⟩
    rw [notes.core]
    exact congrArg Core.mem (refused.core k)
  · have heq := killJobD_of_loaded hf he
    have hkilling := s.dev.job_killing x
    have hother : ∀ y, y ≠ cmJob x.bytes → (s.dev.killing x).job y = s.dev.job y := fun y hy => Dev.job_onJob_ne s.dev.popCmd _ _ _ hy
    have hcmds : (killJobD s.dev).cmds = rest := by
      rw [heq, Dev.kill_keeps Dev.cmds (fun _ _ => rfl) (fun _ _ _ _ _ _ _ => rfl) (fun _ _ _ _ _ _ _ => rfl) (fun _ _ => rfl) (fun _ _ => rfl)
        (fun _ _ => rfl) (fun _ _ => rfl) (fun _ _ => rfl) (fun _ _ _ => rfl) (fun _ _ => rfl)]
      exact cmds_popCmd hc
    have hjobs : ∀ y, (killJobD s.dev).dropUndefined.job y = ((s.dev.killing x).kill (cmJob x.bytes) (stCancelled, 0) 2).job y := fun y => by
      rw [notes.job, heq]
    have hcores : ∀ k, (killJobD s.dev).dropUndefined.core k = ((s.dev.killing x).kill (cmJob x.bytes) (stCancelled, 0) 2).core k := fun k => by
      rw [notes.core, heq]
    have hstreams : ∀ h, (killJobD s.dev).dropUndefined.stream h = ((s.dev.killing x).kill (cmJob x.bytes) (stCancelled, 0) 2).stream h := fun h => by
      rw [notes.stream, heq]
    have he' : ((s.dev.killing x).job (cmJob x.bytes)).state ≠ .empty := by rw [hkilling]; exact he
    refine ⟨takesCommand_dropUndefined hcmds (fun y hy => ?_), fun k => ?_, fun _ => ?_, fun _ hk => ?_, fun h => absurd h he⟩
    · rw [heq, Dev.kill_job, if_neg (fun h => hy h.1), hother y hy]
    · rw [hcores]
      exact Dev.mem_kill _ _ _ _ k
    · rw [hjobs, Dev.kill_job]
      split
      next => rw [hkilling]; exact ⟨rfl, rfl⟩
      next h => rw [hkilling] at h ⊢; exact ⟨by by_contra hn; exact h ⟨rfl, he, hn⟩, rfl⟩
    · have hk' : ((s.dev.killing x).job (cmJob x.bytes)).state ≠ .killed := by rw [hkilling]; exact hk
      have hcore := Dev.kill_core _ _ (stCancelled, 0) 2 he' hk'
      refine ⟨?_, fun k hin => ?_, fun h hin => ?_, fun k w hw hwj => ?_⟩
      · rw [hjobs, Dev.kill_job, if_pos ⟨rfl, he', hk'⟩, hkilling]; rfl
      · obtain ⟨ts, gs, p, l, hk⟩ := hcore k
        have hin' : k ∈ ((s.dev.killing x).job (cmJob x.bytes)).cores := by rw [hkilling]; exact hin
        rw [hcores, hk, if_pos hin']
        exact ⟨rfl, rfl⟩
      · rw [hstreams, Dev.stream_kill _ _ _ _ he' hk' hin]
        exact ⟨rfl, rfl, rfl, rfl⟩
      · obtain ⟨ts, gs, p, l, hk⟩ := hcore k
        rw [hcores, hk] at hw
        refine Core.isOpen_closeWindows ((s.dev.killing x).core k) _ w ?_ hwj
        revert hw
        split <;> exact id

end Sys2Proof.Machine

open Sys2Proof Sys2Proof.Machine

/-- Settles O57: STOP_JOB by the state of its job, KILL_JOB by the parts of a kill. -/
theorem stopAndKillEndJobs : Obligations.StopAndKillEndJobs := by
  unfold Obligations.StopAndKillEndJobs
  intro x rest j s hr hc hj
  exact ⟨fun hop => stopJob_stops hr hc hj hop, fun hop => killJob_kills hr hc hj hop⟩

end

section
/-! The loading of images and their staging (R79, R83, R84, R529), and what they settle: O56. -/

namespace Sys2Proof.Machine

/-! ### LOAD_IMAGE (R79 steps 1 to 4) -/

/-- A slot that an image has been loaded into. -/
def Job.loadingFrom (y : Job) (i : Image) (x : HostCmd) (round spares : Nat) : Job :=
  { Job.reset with state := .loading, gen := y.gen, loadErr := y.loadErr, img := some i, standby := bit (leAt x.bytes 36 1) 0
                   timeout := leAt x.bytes 32 4, stagedRound := round, loadCmd := some x.ref, spares := spares }

/-- A slot that has seen a load fail. -/
def Job.failedLoad (y : Job) (code : Nat) : Job := { y with loadErr := code }

section loadImage
variable {image bs : Bytes} {d : Dev} {x : HostCmd} (hf : d.front 0x01 = some x) (hbs : bs = sliceZ image 0 (leAt x.bytes 24 8))
include hf

theorem loadImageD_of_timeout (ht : leAt x.bytes 32 4 < 1 ∨ 1000 < leAt x.bytes 32 4) : loadImageD image d = d.popCmd.refuse x 0x0A01 := by
  unfold loadImageD
  rw [hf]
  dsimp only
  rw [if_pos ht]

theorem loadImageD_of_used (ht : ¬ (leAt x.bytes 32 4 < 1 ∨ 1000 < leAt x.bytes 32 4)) (hs : (d.job (cmJob x.bytes)).state ≠ .empty) :
    loadImageD image d = d.popCmd.refuse x 0x0A02 := by
  have hs' : (d.popCmd.job (cmJob x.bytes)).state ≠ .empty := hs
  unfold loadImageD
  rw [hf]
  dsimp only
  rw [if_neg ht, if_pos (bne_iff_ne.2 hs')]

include hbs

/-- An image for an EMPTY slot, by what its checks find. -/
theorem loadImageD_of_empty (ht : ¬ (leAt x.bytes 32 4 < 1 ∨ 1000 < leAt x.bytes 32 4)) (hs : (d.job (cmJob x.bytes)).state = .empty) :
    ∃ spares, loadImageD image d = if d.popCmd.checkImage (cmJob x.bytes) bs (bit (leAt x.bytes 36 1) 0) ≠ 0 then
        (d.popCmd.onJob (cmJob x.bytes) (·.failedLoad (d.popCmd.checkImage (cmJob x.bytes) bs (bit (leAt x.bytes 36 1) 0)))).refuse x
          (d.popCmd.checkImage (cmJob x.bytes) bs (bit (leAt x.bytes 36 1) 0))
      else d.popCmd.onJob (cmJob x.bytes) (·.loadingFrom (parseImage bs) x d.tb.round spares) := by
  have hs' : ¬ ((d.popCmd.job (cmJob x.bytes)).state != .empty) = true := by rw [bne_iff_ne, not_not]; exact hs
  subst hbs
  unfold loadImageD
  rw [hf]
  dsimp only
  rw [if_neg ht, if_neg hs']
  exact ⟨_, rfl⟩

end loadImage

/-- `e` is `d` after a command on the slot `j` that starts no job: it completes with `code`, and the slot is as it was but for the
code that its last load ended with. -/
structure Dev.Refuses (d e : Dev) (x : HostCmd) (j code : Nat) : Prop where
  cmds : e.cmds = d.cmds
  cores : e.cores = d.cores
  streams : e.streams = d.streams
  other : ∀ y, y ≠ j → e.job y = d.job y
  slot : ∃ c, e.job j = (d.job j).failedLoad c
  completes : d.Completes e (cmdCompletion (cmJob x.bytes) x.ref stFailed code)

theorem Dev.Refuses.refuse (d : Dev) (x : HostCmd) (j code : Nat) : d.Refuses (d.refuse x code) x j code :=
  have notes := Dev.Notes.refuse d x code
  ⟨notes.cmds, notes.cores, notes.streams, fun y _ => notes.job y, ⟨(d.job j).loadErr, notes.job j⟩, .refuse d x code⟩

theorem Dev.Refuses.failedLoad (d : Dev) (x : HostCmd) (j code : Nat) : d.Refuses ((d.onJob j (·.failedLoad code)).refuse x code) x j code := by
  obtain ⟨y, hy⟩ : ∃ y, d.onJob j (·.failedLoad code) = { d with jobs := mset d.jobs j y } := ⟨_, rfl⟩
  have other := Dev.job_onJob_ne d j (f := (·.failedLoad code))
  have slot := Dev.job_onJob d j (·.failedLoad code)
  rw [hy] at other slot ⊢
  have notes := Dev.Notes.refuse { d with jobs := mset d.jobs j y } x code
  have completes := Dev.Completes.refuse { d with jobs := mset d.jobs j y } x code
  exact ⟨notes.cmds, notes.cores, notes.streams, fun k hk => (notes.job k).trans (other k hk), ⟨code, (notes.job j).trans slot⟩,
    completes.before rfl rfl rfl (List.prefix_refl _)⟩

/-- The code with which LOAD_IMAGE is refused (R529). -/
def LoadRefusal (d : Dev) (x : HostCmd) (j : Nat) (bs : Bytes) (code : Nat) : Prop :=
  (code = 0x0A01 ∧ (leAt x.bytes 32 4 < 1 ∨ 1000 < leAt x.bytes 32 4)) ∨
  (code = 0x0A02 ∧ 1 ≤ leAt x.bytes 32 4 ∧ leAt x.bytes 32 4 ≤ 1000 ∧ (d.job j).state ≠ .empty) ∨
  (code ≠ 0 ∧ 1 ≤ leAt x.bytes 32 4 ∧ leAt x.bytes 32 4 ≤ 1000 ∧ (d.job j).state = .empty ∧
    code = d.popCmd.checkImage j bs (bit (leAt x.bytes 36 1) 0))

section loadImage
variable {image bs : Bytes} {d : Dev} {x : HostCmd} (hf : d.front 0x01 = some x) (hbs : bs = sliceZ image 0 (leAt x.bytes 24 8))
include hf hbs

theorem loadImageD_refuses {code : Nat} (h : LoadRefusal d x (cmJob x.bytes) bs code) :
    d.popCmd.Refuses (loadImageD image d) x (cmJob x.bytes) code := by
  rcases h with ⟨rfl, ht⟩ | ⟨rfl, h1, h2, hs⟩ | ⟨h0, h1, h2, hs, hcode⟩
  · rw [loadImageD_of_timeout hf ht]
    exact .refuse _ _ _ _
  · rw [loadImageD_of_used hf (by omega) hs]
    exact .refuse _ _ _ _
  · obtain ⟨spares, heq⟩ := loadImageD_of_empty hf hbs (by omega) hs
    rw [heq, ← hcode, if_pos h0]
    exact .failedLoad _ _ _ _

theorem loadImageD_loads (h1 : 1 ≤ leAt x.bytes 32 4) (h2 : leAt x.bytes 32 4 ≤ 1000) (hs : (d.job (cmJob x.bytes)).state = .empty)
    (hcode : d.popCmd.checkImage (cmJob x.bytes) bs (bit (leAt x.bytes 36 1) 0) = 0) :
    ∃ spares, loadImageD image d = d.popCmd.onJob (cmJob x.bytes) (·.loadingFrom (parseImage bs) x d.tb.round spares) := by
  obtain ⟨spares, heq⟩ := loadImageD_of_empty hf hbs (by omega) hs
  rw [hcode, if_neg (by simp)] at heq
  exact ⟨spares, heq⟩

/-- A LOAD_IMAGE is refused or loads. -/
theorem loadImageD_cases : (∃ code, d.popCmd.Refuses (loadImageD image d) x (cmJob x.bytes) code) ∨
    ∃ spares, loadImageD image d = d.popCmd.onJob (cmJob x.bytes) (·.loadingFrom (parseImage bs) x d.tb.round spares) := by
  by_cases ht : leAt x.bytes 32 4 < 1 ∨ 1000 < leAt x.bytes 32 4
  · exact .inl ⟨_, loadImageD_refuses hf hbs (.inl ⟨rfl, ht⟩)⟩
  · obtain ⟨h1, h2⟩ : 1 ≤ leAt x.bytes 32 4 ∧ leAt x.bytes 32 4 ≤ 1000 := by omega
    by_cases hs : (d.job (cmJob x.bytes)).state = .empty
    · by_cases hcode : d.popCmd.checkImage (cmJob x.bytes) bs (bit (leAt x.bytes 36 1) 0) = 0
      · exact .inr (loadImageD_loads hf hbs h1 h2 hs hcode)
      · exact .inl ⟨_, loadImageD_refuses hf hbs (.inr (.inr ⟨hcode, h1, h2, hs, rfl⟩))⟩
    · exact .inl ⟨_, loadImageD_refuses hf hbs (.inr (.inl ⟨rfl, h1, h2, hs⟩))⟩

theorem loadImageD_keeps : (loadImageD image d).cmds = d.popCmd.cmds ∧ (loadImageD image d).cores = d.cores ∧
    (loadImageD image d).streams = d.streams ∧ ∀ y, y ≠ cmJob x.bytes → (loadImageD image d).job y = d.job y := by
  rcases loadImageD_cases hf hbs with ⟨code, hr⟩ | ⟨spares, heq⟩
  · exact ⟨hr.cmds, hr.cores, hr.streams, hr.other⟩
  · rw [heq]
    exact ⟨rfl, rfl, rfl, fun y hy => Dev.job_onJob_ne d.popCmd _ _ _ hy⟩

end loadImage

/-- LOAD_IMAGE. -/
theorem loadImage_loads {image bs : Bytes} {x : HostCmd} {rest : List HostCmd} {j : Nat} {s : State} (hr : s.dev.kindle.localReady = true)
    (hc : s.dev.cmds = x :: rest) (hop : cmOp x.bytes = 0x01) (hj : j = cmJob x.bytes) (hbs : bs = sliceZ image 0 (leAt x.bytes 24 8)) :
    ∃ t, exec (.loadImage image) s = .next t ∧ Keeps s t ∧ t.dev.cores = s.dev.cores ∧ t.dev.streams = s.dev.streams ∧
      t.dev.cmds = rest.dropWhile HostCmd.undefined ∧ (∀ y, y ≠ j → t.dev.job y = s.dev.job y) ∧
      (1 ≤ leAt x.bytes 32 4 → leAt x.bytes 32 4 ≤ 1000 → (s.dev.job j).state = .empty →
        s.dev.popCmd.checkImage j bs (bit (leAt x.bytes 36 1) 0) = 0 →
        ∃ spares, t.dev.job j = (s.dev.job j).loadingFrom (parseImage bs) x s.dev.tb.round spares) ∧
      (∀ code, LoadRefusal s.dev x j bs code → (∃ c, t.dev.job j = (s.dev.job j).failedLoad c) ∧ Answers s t x j 2 code) := by
  subst hj
  have hf := front_of_cons hc hop
  obtain ⟨hcmds, hcores, hstreams, hother⟩ := loadImageD_keeps hf hbs
  have notes := Dev.SameTables.dropUndefined (loadImageD image s.dev)
  obtain ⟨hkeeps, hrest, hjobs⟩ : TakesCommand s _ rest (cmJob x.bytes) := takesCommand_dropUndefined (hcmds.trans (cmds_popCmd hc)) hother
  refine ⟨_, onCommand_of_ready hr _, hkeeps, notes.cores.trans hcores, notes.streams.trans hstreams, hrest, hjobs, fun h1 h2 hs hcode => ?_,
    fun code h => ?_⟩
  · obtain ⟨spares, heq⟩ := loadImageD_loads hf hbs h1 h2 hs hcode
    exact ⟨spares, (notes.job _).trans ((congrArg (Dev.job · _) heq).trans (Dev.job_onJob s.dev.popCmd _ _))⟩
  · have refuses := loadImageD_refuses hf hbs h
    obtain ⟨c, hslot⟩ := refuses.slot
    exact ⟨⟨c, (notes.job _).trans hslot⟩, answers_dropUndefined rfl refuses.completes⟩

/-! ### Staging (R79 step 6, R84) -/

/-- `e` differs from `d` in its time base, its fabric, its links and its registers. -/
def Dev.Rebased (d e : Dev) : Prop := e = { d with tb := e.tb, fabric := e.fabric, regs := e.regs, shadow := e.shadow, links := e.links }

namespace Dev.Rebased
variable {d e f : Dev}

theorem refl (d : Dev) : d.Rebased d := rfl

theorem trans (h : d.Rebased e) (h' : e.Rebased f) : d.Rebased f := Eq.trans h' (by rw [h])

theorem acceptRoundLen (d : Dev) (v : Nat) : d.Rebased (d.acceptRoundLen v) := by
  obtain ⟨r, sh, hp⟩ := d.putField_cases 0x1008 0 7 v
  unfold Dev.acceptRoundLen
  dsimp only
  rw [hp]
  split
  · rfl
  · split <;> rfl

theorem memberLink (d : Dev) (l : Nat) : d.Rebased (d.memberLink l) := by
  unfold Dev.memberLink Dev.reportMap
  split <;> rfl

theorem joinIfIdle (d : Dev) : d.Rebased d.joinIfIdle := by
  unfold Dev.joinIfIdle
  split
  · exact refl d
  · split
    · exact refl d
    next l r _ => exact foldl_keep (d.Rebased ·) Dev.memberLink (l :: r) (d.leaveBase l) rfl (fun e a _ he => he.trans (memberLink e a))

theorem jobs (h : d.Rebased e) : e.jobs = d.jobs := by rw [h]
theorem cores (h : d.Rebased e) : e.cores = d.cores := by rw [h]
theorem streams (h : d.Rebased e) : e.streams = d.streams := by rw [h]
theorem well (h : d.Rebased e) : e.well = d.well := by rw [h]

end Dev.Rebased

/-- The windows of a core as an image declares them are closed. -/
theorem Image.isOpen_coreWindows (i : Image) (j c : Nat) : ∀ w ∈ i.coreWindows j c, w.2.isOpen = false := by
  refine foldl_keep (fun m : SMap Win => ∀ w ∈ m, w.2.isOpen = false) _ _ _ (fun w hw => absurd hw List.not_mem_nil) (fun m a _ hm w hw => ?_)
  rcases mem_mset _ _ _ _ hw with rfl | hin
  · rfl
  · exact hm w hin

section stage
variable (d : Dev) (j : Nat) (i : Image)

/-- The device with the tasks of an image in place. -/
def Dev.placeTasks (d : Dev) (j : Nat) (i : Image) (xs : List TaskImg) : Dev := xs.foldl (fun d x => d.placeTask j i x) d

/-- The device with the windows of an image in place, closed. -/
def Dev.putWindows (d : Dev) (j : Nat) (i : Image) (cs : List Nat) : Dev :=
  cs.foldl (fun d c => d.onCore c (fun x => { x with windows := i.coreWindows j c })) d

theorem Dev.placeTasks_rest (xs : List TaskImg) : d.placeTasks j i xs = { d with cores := (d.placeTasks j i xs).cores } :=
  foldl_keep (fun e : Dev => e = { d with cores := e.cores }) _ xs d rfl (fun e x _ he => by rw [he]; rfl)

theorem Dev.putWindows_rest (cs : List Nat) : d.putWindows j i cs = { d with cores := (d.putWindows j i cs).cores } :=
  foldl_keep (fun e : Dev => e = { d with cores := e.cores }) _ cs d rfl (fun e c _ he => by rw [he]; rfl)

/-- Staging changes cores, waiting register values and ports alone; the cores have the image's tasks, and those of the job its windows. -/
theorem Dev.stage_cases : ∃ st po, d.stage j i =
    { d with cores := ((d.placeTasks j i i.taskImgs).putWindows j i (d.job j).cores).cores, staged := st, ports := po } := by
  have hplaced := d.placeTasks_rest j i i.taskImgs
  have hput := (d.placeTasks j i i.taskImgs).putWindows_rest j i (d.job j).cores
  have hjob : (d.placeTasks j i i.taskImgs).job j = d.job j := by rw [hplaced]; rfl
  unfold Dev.stage
  dsimp only
  rw [show i.taskImgs.foldl (fun d x => d.placeTask j i x) d = d.placeTasks j i i.taskImgs from rfl, hjob,
    show (d.job j).cores.foldl (fun d c => d.onCore c (fun x => { x with windows := i.coreWindows j c })) (d.placeTasks j i i.taskImgs) =
      (d.placeTasks j i i.taskImgs).putWindows j i (d.job j).cores from rfl]
  have hrest : (d.placeTasks j i i.taskImgs).putWindows j i (d.job j).cores =
      { d with cores := ((d.placeTasks j i i.taskImgs).putWindows j i (d.job j).cores).cores } := by
    rw [hplaced] at hput ⊢
    exact hput
  generalize (d.placeTasks j i i.taskImgs).putWindows j i (d.job j).cores = e at hrest ⊢
  refine foldl_keep (fun f : Dev => ∃ st po, f = { d with cores := e.cores, staged := st, ports := po }) _ _ _ ?_ ?_
  · refine foldl_keep (fun f : Dev => ∃ st po, f = { d with cores := e.cores, staged := st, ports := po }) _ _ _ ⟨d.staged, d.ports, hrest⟩ ?_
    rintro f c - ⟨st, po, rfl⟩
    exact ⟨_, _, rfl⟩
  · rintro f r - ⟨st, po, rfl⟩
    exact ⟨_, _, rfl⟩

theorem Dev.putWindows_core (cs : List Nat) (c : Nat) : (d.putWindows j i cs).core c =
    if c ∈ cs then { d.core c with windows := i.coreWindows j c } else d.core c := by
  have := foldl_visits Dev.core id (fun c x => { x with windows := i.coreWindows j c }) (fun _ _ => rfl)
    (fun (d : Dev) (c : Nat) => d.onCore c (fun x => { x with windows := i.coreWindows j c })) (fun d c h => by
      by_cases hc : h = c
      · subst hc; simp
      · rw [Dev.core_onCore_ne _ _ _ _ hc]; exact (if_neg hc).symm) cs d c
  rwa [List.map_id] at this

/-- A core that no task of the image is placed on stays as it is. -/
theorem Dev.placeTasks_core_of_apart {xs : List TaskImg} {c : Nat} (h : ∀ x ∈ xs, x.core ≠ c) : (d.placeTasks j i xs).core c = d.core c :=
  foldl_proj (Dev.core · c) _ xs d (fun e x hx => Dev.core_onCore_ne e _ _ _ (h x hx).symm)

theorem Dev.task_placeTask (x : TaskImg) : (d.placeTask j i x).task x.core x.task = stagedTask j x (d.task x.core x.task) := by
  unfold Dev.task Dev.placeTask
  rw [Dev.core_onCore]
  exact Core.task_setTask _ _ _

/-- A STAGED task stays so when others are placed. -/
theorem Dev.placeTask_staged (x : TaskImg) {c t : Nat} (h : (d.task c t).state = .staged) : ((d.placeTask j i x).task c t).state = .staged := by
  by_cases hc : c = x.core
  · subst hc
    by_cases ht : t = x.task
    · subst ht
      rw [Dev.task_placeTask]
      rfl
    · unfold Dev.task Dev.placeTask at *
      rw [Dev.core_onCore]
      rw [← Core.task_setTask_ne (d.core x.core) x.task t (stagedTask j x ((d.core x.core).task x.task)) ht] at h
      exact h
  · unfold Dev.task Dev.placeTask at *
    rwa [Dev.core_onCore_ne _ _ _ _ hc]

theorem Dev.placeTasks_staged {xs : List TaskImg} {x : TaskImg} (h : x ∈ xs) : ((d.placeTasks j i xs).task x.core x.task).state = .staged := by
  obtain ⟨a, b, rfl⟩ := List.append_of_mem h
  unfold Dev.placeTasks
  rw [List.foldl_append, List.foldl_cons]
  refine foldl_keep (fun e : Dev => (e.task x.core x.task).state = .staged) _ _ _ ?_ (fun e y _ he => e.placeTask_staged j i y he)
  rw [Dev.task_placeTask]
  rfl

end stage

/-- `e` has the cores of `d` with the tasks and windows of an image in place, and its streams and its well. -/
structure Dev.Stages (d e : Dev) (j : Nat) (i : Image) : Prop where
  cores : e.cores = ((d.placeTasks j i i.taskImgs).putWindows j i (d.job j).cores).cores
  streams : e.streams = d.streams
  well : e.well = d.well

namespace Dev.Stages
variable {d e : Dev} {j : Nat} {i : Image}

theorem core (h : d.Stages e j i) (c : Nat) : e.core c =
    if c ∈ (d.job j).cores then { (d.placeTasks j i i.taskImgs).core c with windows := i.coreWindows j c } else (d.placeTasks j i i.taskImgs).core c := by
  rw [← Dev.putWindows_core]
  unfold Dev.core
  rw [h.cores]

theorem task_staged (h : d.Stages e j i) {x : TaskImg} (hx : x ∈ i.taskImgs) : (e.task x.core x.task).state = .staged := by
  have placed := d.placeTasks_staged j i hx
  unfold Dev.task at placed ⊢
  rw [h.core]
  split <;> exact placed

theorem window_closed (h : d.Stages e j i) {c : Nat} (hc : c ∈ (d.job j).cores) : ∀ w ∈ (e.core c).windows, w.2.isOpen = false := by
  rw [h.core, if_pos hc]
  exact i.isOpen_coreWindows j c

theorem core_apart (h : d.Stages e j i) {c : Nat} (hx : ∀ x ∈ i.taskImgs, x.core ≠ c) (hc : c ∉ (d.job j).cores) : e.core c = d.core c := by
  rw [h.core, if_neg hc]
  exact d.placeTasks_core_of_apart j i hx

end Dev.Stages

/-! ### LOAD_STAGED -/

/-- A slot whose image has been staged. -/
def Job.stagedIn (y : Job) (round : Nat) (objs : SMap Bytes) : Job := { y with state := .staged, stagedRound := round, deepObjs := objs }

/-- The device with an image's round length in use (R37). -/
def Dev.withRoundLen (d : Dev) (i : Image) : Dev := if d.regF 0x1008 0 7 == i.roundLen then d else d.acceptRoundLen i.roundLen

theorem Dev.Rebased.withRoundLen (d : Dev) (i : Image) : d.Rebased (d.withRoundLen i) := by
  unfold Dev.withRoundLen
  split
  · exact refl d
  · exact acceptRoundLen d _

/-- The device with an image staged in the slot `j`. -/
def Dev.stageImage (d : Dev) (j : Nat) (i : Image) (objs : SMap Bytes) : Dev :=
  (((d.withRoundLen i).stage j i).onJob j (·.stagedIn d.tb.round objs)).refreshSlices

section stageImage
variable (d : Dev) (j : Nat) (i : Image) (objs : SMap Bytes)

theorem Dev.stageImage_stages : (d.withRoundLen i).Stages (d.stageImage j i objs) j i := by
  obtain ⟨st, po, hstage⟩ := (d.withRoundLen i).stage_cases j i
  unfold Dev.stageImage
  rw [hstage]
  exact ⟨Dev.refreshSlices_cores _, Dev.refreshSlices_streams _, Dev.refreshSlices_well _⟩

theorem Dev.stageImage_jobs : (d.stageImage j i objs).jobs = mset d.jobs j ((d.job j).stagedIn d.tb.round objs) := by
  obtain ⟨st, po, hstage⟩ := (d.withRoundLen i).stage_cases j i
  have hjobs := (Dev.Rebased.withRoundLen d i).jobs
  unfold Dev.stageImage
  rw [hstage, Dev.refreshSlices_jobs]
  simp only [Dev.onJob, Dev.job, hjobs]

theorem Dev.job_stageImage : (d.stageImage j i objs).job j = (d.job j).stagedIn d.tb.round objs := by
  unfold Dev.job
  rw [Dev.stageImage_jobs, mgetD_mset, if_pos rfl]
  rfl

theorem Dev.job_stageImage_ne {y : Nat} (h : y ≠ j) : (d.stageImage j i objs).job y = d.job y := by
  unfold Dev.job
  rw [Dev.stageImage_jobs, mgetD_mset, if_neg h]

end stageImage

/-- `e` is `d` after the last step of a load: at most the slot's activation round and its command have changed, and what leaves for others. -/
structure Dev.Announces (d e : Dev) (j : Nat) : Prop where
  cores : e.cores = d.cores
  streams : e.streams = d.streams
  well : e.well = d.well
  other : ∀ y, y ≠ j → e.job y = d.job y
  slot : ∃ a c, e.job j = { d.job j with actRound := a, loadCmd := c }

theorem Dev.Announces.of_jobs {d e : Dev} {j : Nat} (hcores : e.cores = d.cores) (hstreams : e.streams = d.streams) (hwell : e.well = d.well)
    (hjobs : e.jobs = d.jobs) : d.Announces e j := by
  have hjob : ∀ y, e.job y = d.job y := fun y => by unfold Dev.job; rw [hjobs]
  exact ⟨hcores, hstreams, hwell, fun y _ => hjob y, _, _, hjob j⟩

/-- A successful completion leaves the well as it is: it has no record in the log. -/
theorem Dev.finishCmd_ok_well (d : Dev) (j : Nat) (r : CmdRef) : (d.finishCmd j r stOk 0).well = d.well := by
  unfold Dev.finishCmd Dev.finish Dev.finishAt
  exact Dev.postCompletion_well _ _

/-- The last step of LOAD_STAGED (R79 step 6, R84): a job in standby answers its command, a job of one device is to be activated, and a
fabric job reports to the root. -/
def Dev.announce (d e : Dev) (j : Nat) (i : Image) : Dev :=
  if (d.job j).standby then
    match (d.job j).loadCmd with
    | some r => (e.onJob j (fun y => { y with loadCmd := none })).finishCmd j r stOk 0
    | none => e
  else if i.fabricSize = 1 then e.onJob j (fun y => { y with actRound := some (d.tb.round + 2) })
  else if d.linkMapOk i then e.send (.staged i.compileId i.deviceIndex)
  else e.raise { code := 0x020C, kind := 5, unit := j, corr := true }

theorem Dev.announces (d e : Dev) (j : Nat) (i : Image) : e.Announces (d.announce e j i) j := by
  unfold Dev.announce
  split
  · split
    next r _ =>
      have hjobs : ∀ y, ((e.onJob j (fun y => { y with loadCmd := none })).finishCmd j r stOk 0).job y =
          (e.onJob j (fun y => { y with loadCmd := none })).job y := fun y => by unfold Dev.job; rw [Dev.finishCmd_jobs]
      exact ⟨Dev.finishCmd_cores _ _ _ _ _, Dev.finishCmd_streams _ _ _ _ _, Dev.finishCmd_ok_well _ _ _,
        fun y hy => (hjobs y).trans (Dev.job_onJob_ne e _ _ _ hy), _, _, (hjobs j).trans (Dev.job_onJob e _ _)⟩
    · exact .of_jobs rfl rfl rfl rfl
  · split
    · exact ⟨rfl, rfl, rfl, fun y hy => Dev.job_onJob_ne e _ _ _ hy, _, _, Dev.job_onJob e _ _⟩
    · split
      · exact .of_jobs rfl rfl rfl rfl
      · exact .of_jobs (Dev.raise_cores _ _) (Dev.raise_streams _ _) (Dev.raise_well _ _) (Dev.raise_jobs _ _)

/-- The code that a load's second checks find (R79 step 5, R37). -/
def Dev.loadCode (d : Dev) (j : Nat) (i : Image) (objs : SMap Bytes) : Nat :=
  if roundBusy d j = true ∧ d.regF 0x1008 0 7 ≠ i.roundLen then eImgRound else d.checkObjects objs i

/-- The device with a slot emptied after a failed load. -/
def Dev.emptySlot (d : Dev) (j code : Nat) : Dev := (d.onJob j (fun y => { Job.reset with gen := y.gen, loadErr := code })).joinIfIdle.refreshSlices

/-- The end of a failed LOAD_STAGED. -/
def Dev.failLoad (d : Dev) (j code : Nat) : Dev :=
  match (d.job j).loadCmd with
  | some r => ((d.emptySlot j code).raise { code := code, kind := 5, unit := j, corr := false, a := 1, b := r.index }).finishCmd j r stFailed code
  | none => d.emptySlot j code

section failLoad
variable (d : Dev) (j code : Nat)

theorem Dev.emptySlot_keeps : (d.emptySlot j code).cores = d.cores ∧ (d.emptySlot j code).streams = d.streams ∧
    (d.emptySlot j code).jobs = mset d.jobs j { Job.reset with gen := (d.job j).gen, loadErr := code } := by
  have rebased := Dev.Rebased.joinIfIdle (d.onJob j (fun y => { Job.reset with gen := y.gen, loadErr := code }))
  unfold Dev.emptySlot
  exact ⟨(Dev.refreshSlices_cores _).trans rebased.cores, (Dev.refreshSlices_streams _).trans rebased.streams,
    (Dev.refreshSlices_jobs _).trans rebased.jobs⟩

theorem Dev.Notes.failLoad : (d.emptySlot j code).Notes (d.failLoad j code) := by
  unfold Dev.failLoad
  split
  · exact (raise _ _).trans (finishCmd _ _ _ _ _)
  · exact refl _

theorem Dev.failLoad_keeps : (d.failLoad j code).cores = d.cores ∧ (d.failLoad j code).streams = d.streams ∧
    (d.failLoad j code).job j = { Job.reset with gen := (d.job j).gen, loadErr := code } ∧ ∀ y, y ≠ j → (d.failLoad j code).job y = d.job y := by
  obtain ⟨hcores, hstreams, hjobs⟩ := d.emptySlot_keeps j code
  have notes := Dev.Notes.failLoad d j code
  refine ⟨notes.cores.trans hcores, notes.streams.trans hstreams, ?_, fun y hy => ?_⟩
  · unfold Dev.job at hjobs ⊢
    rw [notes.jobs, hjobs, mgetD_mset, if_pos rfl]
  · unfold Dev.job
    rw [notes.jobs, hjobs, mgetD_mset, if_neg hy]

end failLoad

section loadStaged
variable {d : Dev} {j : Nat} {i : Image} (deep : List Bytes) (himg : (d.job j).img = some i)
include himg

/-- LOAD_STAGED by the slot's state and what its checks find. -/
theorem loadStagedD_cases : loadStagedD j deep d =
    if (d.job j).state ≠ .loading then d
    else if d.loadCode j i (i.deepBytes deep) ≠ 0 then d.failLoad j (d.loadCode j i (i.deepBytes deep))
    else d.announce (d.stageImage j i (i.deepBytes deep)) j i := by
  have hcode : (if roundBusy d j && d.regF 0x1008 0 7 != i.roundLen then eImgRound else d.checkObjects (i.deepBytes deep) i) =
      d.loadCode j i (i.deepBytes deep) := by
    unfold Dev.loadCode
    simp only [Bool.and_eq_true, bne_iff_ne]
  unfold loadStagedD
  rw [himg]
  dsimp only
  rw [hcode]
  simp only [bne_iff_ne]
  rfl

end loadStaged

/-- What LOAD_STAGED leaves when it stages. -/
theorem announce_staged (d : Dev) (j : Nat) (i : Image) (objs : SMap Bytes) (himg : (d.job j).img = some i) :
    ∃ e, e = d.announce (d.stageImage j i objs) j i ∧ (e.job j).state = .staged ∧ (e.job j).img = some i ∧
        (e.job j).deepObjs = objs ∧ (e.job j).stagedRound = d.tb.round ∧ e.streams = d.streams ∧ e.well = d.well ∧
        (∀ y, y ≠ j → e.job y = d.job y) ∧
        (∀ x ∈ i.taskImgs, (e.task x.core x.task).state = .staged) ∧
        (∀ c ∈ (d.job j).cores, ∀ w ∈ (e.core c).windows, w.2.isOpen = false) ∧
        (∀ c, (∀ x ∈ i.taskImgs, x.core ≠ c) → c ∉ (d.job j).cores → e.core c = d.core c) := by
  have rebased := Dev.Rebased.withRoundLen d i
  have stages := d.stageImage_stages j i objs
  have announces := d.announces (d.stageImage j i objs) j i
  have slot := d.job_stageImage j i objs
  have other := fun y => d.job_stageImage_ne j i objs (y := y)
  have hjob : (d.withRoundLen i).job j = d.job j := by unfold Dev.job; rw [rebased.jobs]
  have hcore : ∀ c, (d.withRoundLen i).core c = d.core c := fun c => by unfold Dev.core; rw [rebased.cores]
  generalize d.stageImage j i objs = b at *
  have ended : (d.withRoundLen i).Stages (d.announce b j i) j i :=
    ⟨announces.cores.trans stages.cores, announces.streams.trans stages.streams, announces.well.trans stages.well⟩
  obtain ⟨a, c, hslot⟩ := announces.slot
  rw [slot] at hslot
  refine ⟨_, rfl, ?_, ?_, ?_, ?_, ended.streams.trans rebased.streams, ended.well.trans rebased.well,
    fun y hy => (announces.other y hy).trans (other y hy), fun x hx => ended.task_staged hx, fun c hc => ended.window_closed (hjob ▸ hc),
    fun c hx hc => (ended.core_apart hx (hjob ▸ hc)).trans (hcore c)⟩ <;> rw [hslot]
  · rfl
  · exact himg
  · rfl
  · rfl

/-- LOAD_STAGED. -/
theorem loadStaged_stages {j : Fin 16} {deep : List Bytes} {i : Image} {code : Nat} {s : State} (hr : s.dev.kindle.localReady = true)
    (himg : (s.dev.job j).img = some i) (hcode : code = s.dev.loadCode j i (i.deepBytes deep)) :
    ((s.dev.job j).state ≠ .loading → exec (.loadStaged ⟨j, deep⟩) s = .next s) ∧
    ((s.dev.job j).state = .loading → code = 0 → exec (.loadStaged ⟨j, deep⟩) s =
      .next { s with dev := s.dev.announce (s.dev.stageImage j i (i.deepBytes deep)) j i }) ∧
    ((s.dev.job j).state = .loading → code ≠ 0 → exec (.loadStaged ⟨j, deep⟩) s = .next { s with dev := s.dev.failLoad j code }) := by
  have hexec : exec (.loadStaged ⟨j, deep⟩) s = .next { s with dev := loadStagedD j deep s.dev } := onHost_of_ready s _ hr
  have hcases := loadStagedD_cases deep himg
  rw [← hcode] at hcases
  refine ⟨fun hs => ?_, fun hs h0 => ?_, fun hs h0 => ?_⟩ <;> rw [hexec, hcases]
  · rw [if_pos hs]
  · rw [if_neg (not_not.2 hs), if_neg (not_not.2 h0)]
  · rw [if_neg (not_not.2 hs), if_pos h0]

section announce
variable {d e : Dev} {j : Nat} {i : Image}

theorem announce_of_standby (h : (d.job j).standby = true) (hl : (e.job j).loadCmd = (d.job j).loadCmd) :
    ((d.announce e j i).job j).loadCmd = none := by
  unfold Dev.announce
  rw [if_pos h]
  split
  · unfold Dev.job
    rw [Dev.finishCmd_jobs]
    exact congrArg Job.loadCmd (Dev.job_onJob e j _)
  next hnone => rw [hl, hnone]

theorem announce_of_alone (h : (d.job j).standby = false) (hi : i.fabricSize = 1) :
    ((d.announce e j i).job j).actRound = some (d.tb.round + 2) := by
  unfold Dev.announce
  rw [if_neg (by simp [h]), if_pos hi, Dev.job_onJob]

theorem announce_of_fabric (h : (d.job j).standby = false) (hi : i.fabricSize ≠ 1) (hm : d.linkMapOk i = true) :
    (d.announce e j i).fabric.sends.getLast? = some (.staged i.compileId i.deviceIndex) := by
  unfold Dev.announce
  rw [if_neg (by simp [h]), if_neg hi, if_pos hm]
  exact List.getLast?_concat

end announce

end Sys2Proof.Machine

open Sys2Proof Sys2Proof.Machine

/-- Settles O56: LOAD_IMAGE by its checks in their order, LOAD_STAGED by the code of its checks and the last step of the load. -/
theorem imagesLoadThenStage : Obligations.ImagesLoadThenStage := by
  unfold Obligations.ImagesLoadThenStage
  refine ⟨fun image bs x rest j s hr hc hop hj hbs => ?_, fun j deep i code s hr himg hcode => ?_⟩
  · obtain ⟨t, hexec, hkeeps, hcores, hstreams, hcmds, hother, hload, hrefuse⟩ := loadImage_loads hr hc hop hj hbs
    refine ⟨t, hexec, hkeeps, hcores, hstreams, hcmds, hother, fun h1 h2 hs h0 => ?_, fun code h => ?_⟩
    · obtain ⟨spares, hjob⟩ := hload h1 h2 hs h0
      rw [hjob]
      exact ⟨rfl, rfl, rfl, rfl, rfl, rfl⟩
    · obtain ⟨⟨c, hjob⟩, hanswer⟩ := hrefuse code h
      rw [hjob]
      exact ⟨rfl, rfl, hanswer⟩
  · obtain ⟨hidle, hstage, hfail⟩ := loadStaged_stages hr himg hcode
    refine ⟨hidle, fun hs h0 => ?_, fun hs h0 => ?_⟩
    · obtain ⟨e, rfl, hstate, himg', hobjs, hround, hstreams, hwell, hother, htasks, hclosed, hcores⟩ :=
        announce_staged s.dev j i (i.deepBytes deep) himg
      refine ⟨_, hstage hs h0, ⟨rfl, rfl⟩, hstate, himg', hobjs, hround, hstreams, hwell, hother, htasks, hclosed, hcores,
        announce_of_alone, announce_of_fabric, fun h => announce_of_standby h ?_⟩
      rw [Dev.job_stageImage]
      rfl
    · obtain ⟨hcores, hstreams, hslot, hother⟩ := s.dev.failLoad_keeps j code
      exact ⟨_, hfail hs h0, ⟨rfl, rfl⟩, congrArg Job.state hslot, congrArg Job.img hslot, congrArg Job.loadErr hslot, (congrArg Job.gen hslot :),
        hcores, hstreams, hother⟩

end

section
/-! Fabric jobs: their activation in a flooded round and the abort of their compile (R83, R84), and what they settle: O26. -/

namespace Sys2Proof.Machine

/-- A slot with an image is in the list of slots. -/
theorem Dev.mem_jobs_of_img {d : Dev} {j : Nat} {i : Image} (h : (d.job j).img = some i) : (j, d.job j) ∈ d.jobs := by
  cases hget : mget d.jobs j with
  | some x =>
    have hjob : d.job j = x := by unfold Dev.job mgetD; rw [hget]; rfl
    rw [hjob]
    exact mem_of_mget _ _ _ hget
  | none =>
    have hjob : d.job j = Job.reset := by unfold Dev.job mgetD; rw [hget]; rfl
    rw [hjob] at h
    cases h

theorem Dev.mem_slots_of_img {d : Dev} {j : Nat} {i : Image} (h : (d.job j).img = some i) : j ∈ d.jobs.map (·.1) :=
  List.mem_map.2 ⟨_, Dev.mem_jobs_of_img h, rfl⟩

/-! ### The activation round (R83) -/

/-- The image of a staged job that takes part in its compile's activation. -/
def Job.takesRound (compile : Nat) (x : Job) : Option Image :=
  x.img.filter (fun i => decide (i.compileId = compile) && x.state == .staged && !x.standby && decide (1 < i.fabricSize))

theorem Job.takesRound_of_staged {compile : Nat} {x : Job} {i : Image} (himg : x.img = some i) (hi : i.compileId = compile) (hn : 1 < i.fabricSize)
    (hs : x.state = .staged) (hb : x.standby = false) : x.takesRound compile = some i := by
  unfold Job.takesRound
  rw [himg, Option.filter_some, if_pos (by simp [hi, hn, hs, hb])]

/-- A slot once a round has been flooded to it. -/
def Job.flooded (compile round now : Nat) (x : Job) : Job :=
  if (x.takesRound compile).isSome ∧ now + 1 < round then { x with actRound := some round } else x

/-- What the activation round does at one slot: it is taken, or reported as late. -/
def activationStep (compile round : Nat) (d : Dev) (j : Nat) : Dev :=
  match (d.job j).takesRound compile with
  | some i => if round ≤ d.tb.round + 1 then d.send (.lateReport compile i.deviceIndex) else d.onJob j (fun x => { x with actRound := some round })
  | none => d

theorem activationFloodD_eq (compile round : Nat) (d : Dev) : activationFloodD compile round d = d.onJobs (activationStep compile round) := by
  unfold activationFloodD
  congr 1
  funext e j
  unfold activationStep Job.takesRound
  dsimp only
  cases (e.job j).img with
  | none => rfl
  | some i =>
    by_cases h : i.compileId = compile ∧ (e.job j).state == .staged ∧ !(e.job j).standby ∧ 1 < i.fabricSize
    · have hf : (decide (i.compileId = compile) && (e.job j).state == .staged && !(e.job j).standby && decide (1 < i.fabricSize)) = true := by
        simpa [and_assoc] using h
      simp only [Option.filter_some, if_pos h, if_pos hf]
    · have hf : ¬ (decide (i.compileId = compile) && (e.job j).state == .staged && !(e.job j).standby && decide (1 < i.fabricSize)) = true := by
        simpa [and_assoc] using h
      simp only [Option.filter_some, if_neg h, if_neg hf]

section activation
variable (compile round : Nat) (d : Dev)

theorem activationStep_cases (j : Nat) :
    (activationStep compile round d j).tb = d.tb ∧ (d.fabric.sends <+: (activationStep compile round d j).fabric.sends) ∧
    (d.tb.round + 1 < round → (activationStep compile round d j).fabric = d.fabric) ∧
    ∀ y, (activationStep compile round d j).job y = if y = j then (d.job y).flooded compile round d.tb.round else d.job y := by
  unfold activationStep Job.flooded
  split
  next i hi =>
    split
    next hl =>
      refine ⟨rfl, List.prefix_append _ _, fun h => absurd hl (by omega), fun y => ?_⟩
      split
      · rw [if_neg (by omega)]; rfl
      · rfl
    next hl =>
      refine ⟨rfl, List.prefix_refl _, fun _ => rfl, fun y => ?_⟩
      by_cases hy : y = j
      · subst hy
        rw [if_pos rfl, if_pos ⟨by rw [hi]; rfl, by omega⟩, Dev.job_onJob]
      · rw [if_neg hy, Dev.job_onJob_ne _ _ _ _ hy]
  next hi =>
    refine ⟨rfl, List.prefix_refl _, fun _ => rfl, fun y => ?_⟩
    by_cases hy : y = j
    · subst hy; rw [if_pos rfl, if_neg (by rw [hi]; simp)]
    · rw [if_neg hy]

/-- A round far enough ahead sends nothing. -/
theorem activationFloodD_fabric (h : d.tb.round + 1 < round) : (activationFloodD compile round d).fabric = d.fabric := by
  rw [activationFloodD_eq]
  refine (foldl_keep (fun e : Dev => e.tb = d.tb ∧ e.fabric = d.fabric) _ _ d ⟨rfl, rfl⟩ (fun e j _ ⟨htb, hfab⟩ => ?_)).2
  obtain ⟨htb', -, hfab', -⟩ := activationStep_cases compile round e j
  exact ⟨htb'.trans htb, (hfab' (htb ▸ h)).trans hfab⟩

/-- The time and the slot, as the flood reads them. -/
def Dev.slotNow (d : Dev) (j : Nat) : Nat × Job := (d.tb.round, d.job j)

theorem Job.flooded_idem (now : Nat) (x : Job) : (x.flooded compile round now).flooded compile round now = x.flooded compile round now := by
  have takes : ({ x with actRound := some round } : Job).takesRound compile = x.takesRound compile := rfl
  unfold Job.flooded
  by_cases h : (x.takesRound compile).isSome ∧ now + 1 < round
  · rw [if_pos h, takes, if_pos h]
  · rw [if_neg h, if_neg h]

/-- Every slot of the list is flooded. -/
theorem job_activationFloodD {j : Nat} (h : j ∈ d.jobs.map (·.1)) :
    (activationFloodD compile round d).job j = (d.job j).flooded compile round d.tb.round := by
  have visits := foldl_visits Dev.slotNow id (fun _ x => (x.1, x.2.flooded compile round x.1))
    (fun _ x => Prod.ext rfl (Job.flooded_idem compile round x.1 x.2)) (activationStep compile round) (fun e k y => by
      obtain ⟨htb, -, -, hjob⟩ := activationStep_cases compile round e k
      unfold Dev.slotNow
      rw [htb, hjob]
      dsimp only [id]
      split <;> rfl) (d.jobs.map (·.1)) d j
  rw [List.map_id, if_pos h] at visits
  rw [activationFloodD_eq]
  exact congrArg Prod.snd visits

/-- A staged job that a round reaches too late is reported. -/
theorem activationFloodD_late {j : Nat} {i : Image} (htake : (d.job j).takesRound compile = some i) (hj : j ∈ d.jobs.map (·.1))
    (hl : round ≤ d.tb.round + 1) : .lateReport compile i.deviceIndex ∈ (activationFloodD compile round d).fabric.sends := by
  have unmoved : ∀ (e : Dev) k, e.tb = d.tb ∧ e.job j = d.job j →
      (activationStep compile round e k).tb = d.tb ∧ (activationStep compile round e k).job j = d.job j := fun e k ⟨htb, hjob⟩ => by
    obtain ⟨htb', -, -, hjob'⟩ := activationStep_cases compile round e k
    refine ⟨htb'.trans htb, (hjob' j).trans ?_⟩
    unfold Job.flooded
    rw [htb, if_neg (c := _ ∧ d.tb.round + 1 < round) (by omega)]
    split <;> exact hjob
  obtain ⟨a, b, hab⟩ := List.append_of_mem hj
  rw [activationFloodD_eq]
  unfold Dev.onJobs
  rw [hab, List.foldl_append, List.foldl_cons]
  obtain ⟨htb, hjob⟩ := foldl_keep (fun e : Dev => e.tb = d.tb ∧ e.job j = d.job j) _ a d ⟨rfl, rfl⟩ (fun e k _ h => unmoved e k h)
  generalize a.foldl (activationStep compile round) d = e at *
  refine foldl_keep (fun f : Dev => .lateReport compile i.deviceIndex ∈ f.fabric.sends) _ b _ ?_
    (fun f k _ hf => (activationStep_cases compile round f k).2.1.subset hf)
  unfold activationStep
  rw [hjob, htake]
  dsimp only
  rw [if_pos (htb ▸ hl)]
  exact List.mem_append_right _ List.mem_cons_self

end activation

/-! ### STAGED_REPORT (R83) -/

section stagedReport
variable {compile dev : Nat} {d : Dev}

/-- The root with one more report. -/
def Dev.withReports (d : Dev) (reps : List (Nat × Nat)) : Dev := { d with fabric := { d.fabric with stagedReports := reps } }

theorem length_filter_report (l : List (Nat × Nat)) :
    ((l ++ [(compile, dev)]).filter (fun p => p.1 == compile)).length = (l.filter (fun p => p.1 == compile)).length + 1 := by simp

/-- A report that is not the last one is kept. -/
theorem stagedReportD_of_waiting (hroot : d.fabric.isRoot = true) (hnew : (compile, dev) ∉ d.fabric.stagedReports)
    (hn : (d.fabric.stagedReports.filter (fun p => p.1 == compile)).length + 1 ≠ d.compileSize compile) :
    stagedReportD compile dev d = d.withReports (d.fabric.stagedReports ++ [(compile, dev)]) := by
  unfold stagedReportD
  rw [if_neg (not_not.2 hroot)]
  simp only [List.contains_iff_mem, if_neg hnew, length_filter_report, if_neg hn]
  rfl

/-- With the last report the root floods the activation round, four rounds on. -/
theorem stagedReportD_of_last (hroot : d.fabric.isRoot = true) (hnew : (compile, dev) ∉ d.fabric.stagedReports)
    (hn : (d.fabric.stagedReports.filter (fun p => p.1 == compile)).length + 1 = d.compileSize compile) :
    ∃ e, stagedReportD compile dev d = activationFloodD compile (d.tb.round + 4) e ∧ e.tb = d.tb ∧ e.jobs = d.jobs ∧
      e.fabric.sends = d.fabric.sends ++ [.activate compile (d.tb.round + 4)] := by
  unfold stagedReportD
  rw [if_neg (not_not.2 hroot)]
  simp only [List.contains_iff_mem, if_neg hnew, length_filter_report, if_pos hn]
  exact ⟨_, rfl, rfl, rfl, rfl⟩

/-- A report already seen changes nothing while others are missing. -/
theorem stagedReportD_of_seen (hseen : (compile, dev) ∈ d.fabric.stagedReports)
    (hn : (d.fabric.stagedReports.filter (fun p => p.1 == compile)).length ≠ d.compileSize compile) : stagedReportD compile dev d = d := by
  unfold stagedReportD
  simp only [List.contains_iff_mem, if_pos hseen, if_neg hn]
  exact ite_self _

end stagedReport

/-! ### The abort of a compile (R84) -/

/-- A slot of a compile that an abort kills. -/
def Job.abortable (compile : Nat) (x : Job) : Bool :=
  x.img.any (fun i => decide (i.compileId = compile)) && x.state != .empty && x.state != .killed

def Job.killedOff (x : Job) : Job :=
  { x with state := .killed, loadCmd := none, stopCmds := [], stopAt := none, replay := none, gen := (x.gen + 1) % 65536 }

/-- A slot once its compile has been aborted. -/
def Job.aborted (compile : Nat) (x : Job) : Job := if x.abortable compile then x.killedOff else x

theorem Job.aborted_idem (compile : Nat) (x : Job) : (x.aborted compile).aborted compile = x.aborted compile := by
  unfold Job.aborted
  by_cases h : x.abortable compile = true
  · have dead : ¬ x.killedOff.abortable compile = true := by simp [Job.abortable, Job.killedOff]
    rw [if_pos h, if_neg dead]
  · rw [if_neg h, if_neg h]

theorem Job.aborted_state {compile : Nat} {x : Job} {i : Image} (himg : x.img = some i) (hi : i.compileId = compile) (hs : x.state ≠ .empty) :
    (x.aborted compile).state = .killed := by
  unfold Job.aborted
  by_cases hk : x.state = .killed
  · rw [if_neg (by simp [Job.abortable, hk])]; exact hk
  · rw [if_pos (by simp [Job.abortable, himg, hi, hs, hk])]; rfl

/-- What the abort of a compile does at one slot. -/
def Dev.abortStep (compile : Nat) (d : Dev) (j : Nat) : Dev :=
  if (d.job j).abortable compile then (d.logRec (outcomeRec 0x31 1 j 0 d.logRound 0 0x020B)).kill j (stFailed, 0x020B) 2 else d

theorem Dev.abortCompile_eq (d : Dev) (compile : Nat) : d.abortCompile compile = d.onJobs (Dev.abortStep compile) := by
  unfold Dev.abortCompile
  congr 1
  funext e j
  unfold Dev.abortStep Job.abortable
  cases (e.job j).img with
  | none => rfl
  | some i => simp [and_assoc]

theorem Dev.abortStep_fabric (compile : Nat) (d : Dev) (j : Nat) : (d.abortStep compile j).fabric = d.fabric := by
  unfold Dev.abortStep
  split
  · rw [Dev.kill_keeps Dev.fabric (fun _ _ => rfl) (fun _ _ _ _ _ _ _ => rfl) (fun _ _ _ _ _ _ _ => rfl) (fun _ _ => rfl) (fun _ _ => rfl)
      (fun _ _ => rfl) (fun _ _ => rfl) (fun _ _ => rfl) (fun _ _ _ => rfl) (fun _ _ => rfl)]
    exact d.logRec_fabric _
  · rfl

theorem Dev.job_abortStep (compile : Nat) (d : Dev) (j y : Nat) :
    (d.abortStep compile j).job y = if y = j then (d.job y).aborted compile else d.job y := by
  have logged : ∀ k, (d.logRec (outcomeRec 0x31 1 j 0 d.logRound 0 0x020B)).job k = d.job k := (Dev.Notes.logRec d _).job
  unfold Dev.abortStep Job.aborted
  by_cases h : (d.job j).abortable compile = true
  · have hlive : (d.job j).state ≠ .empty ∧ (d.job j).state ≠ .killed := by
      unfold Job.abortable at h
      simp only [Bool.and_eq_true, bne_iff_ne] at h
      exact ⟨h.1.2, h.2⟩
    rw [if_pos h, Dev.kill_job, logged, logged]
    by_cases hy : y = j
    · subst hy; rw [if_pos ⟨rfl, hlive⟩, if_pos rfl, if_pos h]; rfl
    · rw [if_neg (fun hc => hy hc.1), if_neg hy]
  · rw [if_neg h]
    split
    next hy => subst hy; rw [if_neg h]
    · rfl

/-- An abort sends nothing. -/
theorem Dev.abortCompile_fabric (d : Dev) (compile : Nat) : (d.abortCompile compile).fabric = d.fabric := by
  rw [Dev.abortCompile_eq]
  exact foldl_proj Dev.fabric _ _ d (fun e j _ => e.abortStep_fabric compile j)

theorem Dev.job_abortCompile (d : Dev) (compile : Nat) {j : Nat} (h : j ∈ d.jobs.map (·.1)) :
    (d.abortCompile compile).job j = (d.job j).aborted compile := by
  have visits := foldl_visits Dev.job id (fun _ => Job.aborted compile) (fun _ => Job.aborted_idem compile) (Dev.abortStep compile)
    (fun e k y => e.job_abortStep compile k y) (d.jobs.map (·.1)) d j
  rw [List.map_id, if_pos h] at visits
  rw [Dev.abortCompile_eq]
  exact visits

/-- An abort kills the compile's job. -/
theorem Dev.state_abortCompile {d : Dev} {compile j : Nat} {i : Image} (himg : (d.job j).img = some i) (hi : i.compileId = compile)
    (hs : (d.job j).state ≠ .empty) : ((d.abortCompile compile).job j).state = .killed := by
  rw [Dev.job_abortCompile d compile (Dev.mem_slots_of_img himg)]
  exact Job.aborted_state himg hi hs

/-! ### STAGING_TIMEOUT (R84; entry 122) -/

/-- A job that waits for reports is one of the compile's fabric jobs. -/
theorem Dev.mem_fabricJobs {d : Dev} {compile j : Nat} {i : Image} (himg : (d.job j).img = some i) (hi : i.compileId = compile)
    (hs : (d.job j).state ≠ .empty) (hb : (d.job j).standby = false) (hn : 1 < i.fabricSize) : d.job j ∈ d.fabricJobs compile := by
  refine List.mem_map.2 ⟨_, List.mem_filter.2 ⟨Dev.mem_jobs_of_img himg, ?_⟩, rfl⟩
  simp [himg, hi, hs, hb, hn]

section stagingTimeout
variable {compile : Nat} {d : Dev}

theorem stagingTimeoutD_of_unfixed (hroot : d.fabric.isRoot = true) (h : d.unfixed compile = true) : stagingTimeoutD compile d =
    ((d.withReports (d.fabric.stagedReports.filter (fun p => p.1 != compile))).send (.abort compile)).abortCompile compile := by
  unfold stagingTimeoutD
  rw [if_pos ⟨hroot, .inl h⟩]
  rfl

/-- While no staging timeout of the root's own job has passed nothing happens. -/
theorem stagingTimeoutD_of_early (hjobs : d.fabricJobs compile ≠ [])
    (h : ∀ x ∈ d.fabricJobs compile, x.actRound ≠ none ∨ d.tb.round < x.stagedRound + x.timeout) : stagingTimeoutD compile d = d := by
  have fixed : ¬ d.unfixed compile = true := by
    unfold Dev.unfixed
    rw [List.any_eq_true]
    rintro ⟨x, hx, hwait⟩
    simp only [Bool.and_eq_true, Option.isNone_iff_eq_none, decide_eq_true_eq] at hwait
    obtain ⟨⟨-, hnone⟩, hpast⟩ := hwait
    exact (h x hx).elim (fun hr => hr hnone) (fun hr => by omega)
  unfold stagingTimeoutD
  rw [if_neg]
  rintro ⟨-, hu | ⟨he, -⟩⟩
  · exact fixed hu
  · exact hjobs (List.isEmpty_iff.1 he)

end stagingTimeout

end Sys2Proof.Machine

open Sys2Proof Sys2Proof.Machine

/-- Settles O26: the flood of the activation round and the abort visit every slot, and each changes the slots of its compile alone. -/
theorem fabricJobsActivateTogetherOrAbort : Obligations.FabricJobsActivateTogetherOrAbort := by
  unfold Obligations.FabricJobsActivateTogetherOrAbort
  intro compile s hup
  refine ⟨fun dev hroot hnew => ⟨fun hn => ?_, fun hn => ?_⟩, fun dev hseen hn => ?_, fun round j i himg hi hfab hs hb => ?_,
    fun j i himg hi hs => ⟨?_, fun hroot => ⟨fun dev => ?_, fun hwait hact hb hfab hpast => ?_⟩⟩, fun hroot hjobs h => ?_⟩
  · obtain ⟨e, heq, htb, hjobs, hsends⟩ := stagedReportD_of_last hroot hnew hn
    have hahead : e.tb.round + 1 < s.dev.tb.round + 4 := by rw [htb]; omega
    refine ⟨_, onUp_of_up _ _ hup, ⟨rfl, rfl⟩, ?_, fun j i himg hi hfab hs hb => ?_⟩ <;> dsimp only <;> rw [heq]
    · rw [activationFloodD_fabric _ _ _ hahead, hsends]
    · have hjob : e.job j = s.dev.job j := by unfold Dev.job; rw [hjobs]
      have htake : (e.job j).takesRound compile = some i := hjob ▸ Job.takesRound_of_staged himg hi hfab hs hb
      rw [job_activationFloodD _ _ _ (hjobs ▸ Dev.mem_slots_of_img himg)]
      unfold Job.flooded
      rw [if_pos ⟨by rw [htake]; rfl, hahead⟩]
  · exact (onUp_of_up _ _ hup).trans (by rw [stagedReportD_of_waiting hroot hnew hn]; rfl)
  · exact (onUp_of_up _ _ hup).trans (by rw [stagedReportD_of_seen hseen hn])
  · have htake := Job.takesRound_of_staged himg hi hfab hs hb
    have hslot := Dev.mem_slots_of_img himg
    refine ⟨_, onUp_of_up _ _ hup, ⟨rfl, rfl⟩, fun hr => ?_, fun hr => ⟨?_, activationFloodD_late _ _ _ htake hslot hr⟩⟩ <;> dsimp only <;>
      rw [job_activationFloodD _ _ _ hslot] <;> unfold Job.flooded
    · rw [if_pos ⟨by rw [htake]; rfl, hr⟩]
      exact ⟨rfl, hs⟩
    · rw [if_neg (by omega)]
  · exact ⟨_, onUp_of_up _ (Dev.abortCompile · compile) hup, ⟨rfl, rfl⟩, Dev.state_abortCompile himg hi hs⟩
  · refine ⟨_, onUp_of_up _ _ hup, ⟨rfl, rfl⟩, ?_, ?_⟩ <;> dsimp only <;> unfold lateActivationD <;> rw [if_pos hroot]
    · exact Dev.state_abortCompile (d := s.dev.send _) himg hi hs
    · rw [Dev.abortCompile_fabric]
      exact List.mem_append_right _ List.mem_cons_self
  · have unfixed : s.dev.unfixed compile = true :=
      List.any_eq_true.2 ⟨_, Dev.mem_fabricJobs himg hi hs hb hfab, by simp [hact, hpast, hwait.symm]⟩
    refine ⟨_, onUp_of_up _ _ hup, ⟨rfl, rfl⟩, ?_, ?_⟩ <;> dsimp only <;> rw [stagingTimeoutD_of_unfixed hroot unfixed]
    · exact Dev.state_abortCompile (d := (s.dev.withReports _).send _) himg hi hs
    · rw [Dev.abortCompile_fabric]
      exact List.mem_append_right _ List.mem_cons_self
  · exact (onUp_of_up _ _ hup).trans (by rw [stagingTimeoutD_of_early hjobs h])

end

section
/-! Scrubs, the patrol, value-table slots and the refetch (R86, R366, R387 to R390, R433, R546), and what they settle: O49. -/

namespace Sys2Proof.Machine

/-! ### A scrubbed core (R387) -/

theorem Task.gone_gone (k : Task) : k.gone.gone = k.gone := rfl

theorem Core.scrubbed_idem (x : Core) : x.scrubbed.scrubbed = x.scrubbed := by
  have htasks : mmap (fun _ k => k.gone) (mmap (fun _ (k : Task) => k.gone) x.tasks) = mmap (fun _ k => k.gone) x.tasks := by
    simp [mmap, Function.comp_def, Task.gone_gone]
  unfold Core.scrubbed
  dsimp only
  rw [htasks]

/-- No task is left on a scrubbed core. -/
theorem Core.state_task_scrubbed (x : Core) (k : Nat) : (x.scrubbed.task k).state = .none := by
  unfold Core.task Core.scrubbed mgetD
  dsimp only
  rw [mget_mmap]
  cases mget x.tasks k <;> rfl

/-! ### KILL_SCRUB_COMPLETE (R86, R387 step 4, R389) -/

/-- A core that a killed job leaves; it stays in maintenance while its slice is scrubbed (entry 35). -/
def Core.released (x : Core) (inScrub : Bool) : Core := { x.scrubbed with locked := false, maint := inScrub }

theorem Core.released_idem (x : Core) (b : Bool) : (x.released b).released b = x.released b := by
  have hscrub := x.scrubbed_idem
  unfold Core.released
  unfold Core.scrubbed at hscrub ⊢
  simp only [Core.mk.injEq] at hscrub ⊢
  simpa using hscrub

/-- Whether a core's slice is being scrubbed. -/
def Dev.inScrub (d : Dev) (c : Nat) : Bool := (d.slice (c / 64)).state == .scrubbing

def Dev.releaseCores (d : Dev) (cs : List Nat) : Dev := cs.foldl (fun d c => d.onCore c (·.released (d.inScrub c))) d

theorem Dev.releaseCores_rest (d : Dev) (cs : List Nat) : d.releaseCores cs = { d with cores := (d.releaseCores cs).cores } :=
  foldl_keep (fun e : Dev => e = { d with cores := e.cores }) _ cs d rfl (fun e c _ he => by rw [he]; rfl)

/-- What the release of a core reads: whether it is in a scrub, and the core. -/
def Dev.coreInScrub (d : Dev) (c : Nat) : Bool × Core := (d.inScrub c, d.core c)

theorem Dev.releaseCores_core (d : Dev) (cs : List Nat) (c : Nat) :
    (d.releaseCores cs).core c = if c ∈ cs then (d.core c).released (d.inScrub c) else d.core c := by
  have visits := foldl_visits Dev.coreInScrub id (fun _ x => (x.1, x.2.released x.1)) (fun _ x => Prod.ext rfl (x.2.released_idem x.1))
    (fun (d : Dev) (c : Nat) => d.onCore c (·.released (d.inScrub c))) (fun e a h => by
      have hslice : (e.onCore a (·.released (e.inScrub a))).inScrub h = e.inScrub h := rfl
      unfold Dev.coreInScrub
      rw [hslice]
      dsimp only [id]
      by_cases ha : h = a
      · subst ha; rw [if_pos rfl, Dev.core_onCore]
      · rw [if_neg ha, Dev.core_onCore_ne _ _ _ _ ha]) cs d c
  rw [List.map_id] at visits
  refine (congrArg Prod.snd visits).trans ?_
  split <;> rfl

/-- A killed job whose cisterns are clear. -/
def Job.cleared (x : Job) : Job := { x with clear := true, spares := 0 }

theorem Dev.coresClear_cases (d : Dev) (j : Nat) : ∃ ck, d.coresClear j =
    { d with cores := (d.releaseCores (d.job j).cores).cores, coreCks := ck, jobs := mset d.jobs j (d.job j).cleared } := by
  have hrest := d.releaseCores_rest (d.job j).cores
  unfold Dev.coresClear
  dsimp only
  rw [show (d.job j).cores.foldl (fun d c => d.onCore c (fun x => { x.scrubbed with locked := false, maint := (d.slice (c / 64)).state == .scrubbing })) d =
    d.releaseCores (d.job j).cores from rfl]
  generalize d.releaseCores (d.job j).cores = e at hrest ⊢
  rw [hrest]
  exact ⟨_, rfl⟩

/-- The end of a Function Level Reset leaves cores and jobs. -/
theorem Dev.flrDone_keeps (d : Dev) : d.flrDone.cores = d.cores ∧ d.flrDone.jobs = d.jobs := by
  unfold Dev.flrDone
  split <;> exact ⟨rfl, rfl⟩

/-- The device with the slot of a killed job EMPTY, its ranges of the well clear. -/
def Dev.emptied (d : Dev) (j : Nat) : Dev :=
  let zs := d.zeroing.filter (fun z => z.1 == j)
  let d2 := zs.foldl (fun d z => d.zeroWell z.2.1 z.2.2) { d with zeroing := d.zeroing.filter (fun z => z.1 != j) }
  let d3 := { d2 with
    poolUse := d2.poolUse.filter (fun p => !(zs.any (fun z => decide (z.2.1 ≤ p.1) && decide (p.1 < z.2.1 + z.2.2))))
    streamCks := d2.streamCks.filter (fun k => k.stream.job != j) }
  (d3.unroute j).onJob j (fun x => { Job.reset with gen := x.gen, loadErr := x.loadErr })

/-- The completions of a kill, and what waits for the last one. -/
def Dev.killAnswered (d : Dev) (j : Nat) (rs : List CmdRef) : Dev :=
  (rs.foldl (fun d r => d.finishCmd j r stOk 0) d).flrDone.joinIfIdle.refreshSlices

theorem Dev.emptied_keeps (d : Dev) (j : Nat) : (d.emptied j).cores = d.cores ∧
    (d.emptied j).jobs = mset d.jobs j { Job.reset with gen := (d.job j).gen, loadErr := (d.job j).loadErr } := by
  obtain ⟨hcores, hjobs⟩ := foldl_keep (fun e : Dev => e.cores = d.cores ∧ e.jobs = d.jobs) (fun e z => e.zeroWell z.2.1 z.2.2)
    (d.zeroing.filter (fun z => z.1 == j)) { d with zeroing := d.zeroing.filter (fun z => z.1 != j) } ⟨rfl, rfl⟩ (fun _ _ _ he => he)
  unfold Dev.emptied
  dsimp only
  refine ⟨hcores, ?_⟩
  unfold Dev.onJob Dev.unroute Dev.job
  dsimp only
  rw [hjobs]

theorem Dev.killAnswered_keeps (d : Dev) (j : Nat) (rs : List CmdRef) : (d.killAnswered j rs).cores = d.cores ∧ (d.killAnswered j rs).jobs = d.jobs := by
  obtain ⟨hcores, hjobs⟩ := foldl_keep (fun e : Dev => e.cores = d.cores ∧ e.jobs = d.jobs) (fun d r => d.finishCmd j r stOk 0) rs d ⟨rfl, rfl⟩
    (fun e r _ ⟨hc, hj⟩ => ⟨(e.finishCmd_cores _ _ _ _).trans hc, (e.finishCmd_jobs _ _ _ _).trans hj⟩)
  unfold Dev.killAnswered
  generalize rs.foldl (fun d r => d.finishCmd j r stOk 0) d = e at *
  have joined := Dev.Rebased.joinIfIdle e.flrDone
  obtain ⟨fcores, fjobs⟩ := e.flrDone_keeps
  exact ⟨(Dev.refreshSlices_cores _).trans (joined.cores.trans (fcores.trans hcores)),
    (Dev.refreshSlices_jobs _).trans (joined.jobs.trans (fjobs.trans hjobs))⟩

section killDone
variable {d : Dev} {j : Nat} {wellToo : Bool}

theorem killDoneD_of_other (h : (d.job j).state ≠ .killed) : killDoneD j wellToo d = d := by
  unfold killDoneD
  exact if_pos (bne_iff_ne.2 h)

theorem killDoneD_of_killed (h : (d.job j).state = .killed) : killDoneD j wellToo d =
    if (!wellToo && !((d.coresClear j).zeroing.filter (fun z => z.1 == j)).isEmpty) = true then (d.coresClear j).refreshSlices
    else ((d.coresClear j).emptied j).killAnswered j (d.job j).killCmds := by
  unfold killDoneD
  dsimp only
  rw [if_neg (by simp [h])]
  rfl

theorem isEmpty_ranges {zs : List (Nat × Nat × Nat)} : (zs.filter (fun z => z.1 == j)).isEmpty = true ↔ ∀ z ∈ zs, z.1 ≠ j := by
  simp [List.isEmpty_iff, List.filter_eq_nil_iff]

/-- Cores after the scrub of a killed job: its own are released, and the others are as they were. -/
theorem killDoneD_core (h : (d.job j).state = .killed) (c : Nat) : (killDoneD j wellToo d).core c =
    if c ∈ (d.job j).cores then (d.core c).released (d.inScrub c) else d.core c := by
  obtain ⟨ck, hclear⟩ := d.coresClear_cases j
  have hcores : (killDoneD j wellToo d).cores = (d.releaseCores (d.job j).cores).cores := by
    rw [killDoneD_of_killed h]
    split
    · rw [Dev.refreshSlices_cores, hclear]
    · rw [(Dev.killAnswered_keeps _ _ _).1, (Dev.emptied_keeps _ _).1, hclear]
  rw [← Dev.releaseCores_core]
  unfold Dev.core
  rw [hcores]

/-- With the well clear the slot is EMPTY. -/
theorem killDoneD_empties (h : (d.job j).state = .killed) (hw : wellToo = true ∨ ∀ z ∈ d.zeroing, z.1 ≠ j) :
    ∃ g e, (killDoneD j wellToo d).job j = { Job.reset with gen := g, loadErr := e } := by
  obtain ⟨ck, hclear⟩ := d.coresClear_cases j
  have hz : (d.coresClear j).zeroing = d.zeroing := by rw [hclear]
  have hdone : ¬ (!wellToo && !((d.coresClear j).zeroing.filter (fun z => z.1 == j)).isEmpty) = true := by
    rw [hz, Bool.and_eq_true, Bool.not_eq_true', Bool.not_eq_true', ← Bool.not_eq_true, ← Bool.not_eq_true, isEmpty_ranges]
    tauto
  rw [killDoneD_of_killed h, if_neg hdone]
  unfold Dev.job
  rw [(Dev.killAnswered_keeps _ _ _).2, (Dev.emptied_keeps _ _).2, mgetD_mset_self]
  exact ⟨_, _, rfl⟩

/-- While its pages of the well are not clear the job stays KILLED. -/
theorem killDoneD_waits (h : (d.job j).state = .killed) (hw : wellToo = false) (hz : ∃ z ∈ d.zeroing, z.1 = j) :
    (killDoneD j wellToo d).job j = (d.job j).cleared ∧ (killDoneD j wellToo d).zeroing = d.zeroing := by
  obtain ⟨ck, hclear⟩ := d.coresClear_cases j
  have hwait : (!wellToo && !((d.coresClear j).zeroing.filter (fun z => z.1 == j)).isEmpty) = true := by
    rw [show (d.coresClear j).zeroing = d.zeroing by rw [hclear], Bool.and_eq_true, Bool.not_eq_true', Bool.not_eq_true', ← Bool.not_eq_true (List.isEmpty _),
      isEmpty_ranges]
    obtain ⟨z, hin, hj⟩ := hz
    exact ⟨hw, fun hn => hn z hin hj⟩
  rw [killDoneD_of_killed h, if_pos hwait]
  refine ⟨?_, by rw [Dev.refreshSlices_zeroing, hclear]⟩
  unfold Dev.job
  rw [Dev.refreshSlices_jobs, hclear, mgetD_mset_self]
  rfl

end killDone

/-! ### The scrub of a slice (R21, R372, R390) -/

theorem mem_slice_cores {s c : Nat} : c ∈ (List.range 64).map (64 * s + ·) ↔ c / 64 = s := by
  simp only [List.mem_map, List.mem_range]
  refine ⟨fun ⟨k, hk, h⟩ => by omega, fun h => ⟨c % 64, by omega, by omega⟩⟩

/-- The device with the 64 cores of a slice changed alike. -/
def Dev.onSliceCores (d : Dev) (s : Nat) (f : Core → Core) : Dev := (List.range 64).foldl (fun d k => d.onCore (64 * s + k) f) d

section onSliceCores
variable (d : Dev) (s : Nat) (f : Core → Core)

theorem Dev.onSliceCores_core (hf : ∀ x, f (f x) = f x) (c : Nat) : (d.onSliceCores s f).core c = if c / 64 = s then f (d.core c) else d.core c := by
  have visits := foldl_visits Dev.core (64 * s + ·) (fun _ => f) (fun _ => hf) (fun (d : Dev) (k : Nat) => d.onCore (64 * s + k) f) (fun e k h => by
    by_cases hk : h = 64 * s + k
    · subst hk; rw [if_pos rfl, Dev.core_onCore]
    · rw [if_neg hk, Dev.core_onCore_ne _ _ _ _ hk]) (List.range 64) d c
  simp only [mem_slice_cores] at visits
  exact visits

theorem Dev.onSliceCores_rest : d.onSliceCores s f = { d with cores := (d.onSliceCores s f).cores } :=
  foldl_keep (fun e : Dev => e = { d with cores := e.cores }) (fun d k => d.onCore (64 * s + k) f) (List.range 64) d rfl
    (fun e c _ he => by rw [he]; rfl)

theorem Dev.onSliceCores_keeps : (∀ k, (d.onSliceCores s f).slice k = d.slice k) ∧ (d.onSliceCores s f).well = d.well := by
  have hrest := d.onSliceCores_rest s f
  generalize d.onSliceCores s f = e at hrest ⊢
  rw [hrest]
  exact ⟨fun _ => rfl, rfl⟩

end onSliceCores

section slice
variable {d : Dev} {s : Nat}

theorem sliceScrubD_of_contained (h : (d.slice s).state = .contained) :
    sliceScrubD s d = (d.onSlice s (fun x => { x with state := .scrubbing })).onSliceCores s (fun x => { x with maint := true }) := by
  unfold sliceScrubD
  rw [h]
  rfl

theorem sliceScrubD_core (h : (d.slice s).state = .contained) (c : Nat) :
    (sliceScrubD s d).core c = if c / 64 = s then { d.core c with maint := true } else d.core c := by
  rw [sliceScrubD_of_contained h]
  exact Dev.onSliceCores_core _ s (fun x => { x with maint := true }) (fun _ => rfl) c

theorem sliceScrubD_state (h : (d.slice s).state = .contained) : ((sliceScrubD s d).slice s).state = .scrubbing := by
  rw [sliceScrubD_of_contained h, (Dev.onSliceCores_keeps _ _ _).1, Dev.slice_onSlice]

theorem sliceScrubD_of_other (h : (d.slice s).state ≠ .contained) : sliceScrubD s d = d := by
  unfold sliceScrubD
  split
  next hc => exact absurd hc h
  · rfl

/-- A core of a retired slice; a job that was killed still holds its lock (entry 35). -/
def Core.sliceScrubbed (x : Core) : Core := { x.scrubbed with maint := x.locked }

theorem Core.sliceScrubbed_idem (x : Core) : x.sliceScrubbed.sliceScrubbed = x.sliceScrubbed := by
  have hscrub := x.scrubbed_idem
  unfold Core.sliceScrubbed
  unfold Core.scrubbed at hscrub ⊢
  simp only [Core.mk.injEq] at hscrub ⊢
  simpa using hscrub

theorem sliceDoneD_of_scrubbing (h : (d.slice s).state = .scrubbing) :
    sliceDoneD s d = (d.onSlice s (fun x => { x with state := .retired })).onSliceCores s Core.sliceScrubbed := by
  unfold sliceDoneD
  rw [h]
  rfl

theorem sliceDoneD_core (h : (d.slice s).state = .scrubbing) (c : Nat) :
    (sliceDoneD s d).core c = if c / 64 = s then (d.core c).sliceScrubbed else d.core c := by
  rw [sliceDoneD_of_scrubbing h]
  exact Dev.onSliceCores_core _ s Core.sliceScrubbed Core.sliceScrubbed_idem c

theorem sliceDoneD_keeps (h : (d.slice s).state = .scrubbing) :
    ((sliceDoneD s d).slice s).state = .retired ∧ (sliceDoneD s d).well = d.well := by
  obtain ⟨hslice, hwell⟩ := Dev.onSliceCores_keeps (d.onSlice s (fun x => { x with state := .retired })) s Core.sliceScrubbed
  rw [sliceDoneD_of_scrubbing h, hslice, Dev.slice_onSlice]
  exact ⟨rfl, hwell⟩

theorem sliceDoneD_of_other (h : (d.slice s).state ≠ .scrubbing) : sliceDoneD s d = d := by
  unfold sliceDoneD
  split
  next hc => exact absurd hc h
  · rfl

end slice

/-! ### The patrol (R366) -/

/-- The bad words of a core once a check has found an error. -/
def Core.badAfter (x : Core) : Detect → SMap Nat
  | .eccUncorrectable _ addr => mset x.bad (addr / 8) 1
  | _ => x.bad

theorem badAfter_of_sound (x : Core) {det : Detect} (h : ∀ b a, det ≠ .eccUncorrectable b a) : x.badAfter det = x.bad := by
  unfold Core.badAfter
  split
  · exact absurd rfl (h _ _)
  · rfl

/-- The corrected bits that a check reports. -/
def correctedBits : Detect → Nat
  | .eccCorrected n => n
  | _ => 0

theorem Dev.core_seen (d : Dev) (c : Nat) (det : Detect) (k : Nat) :
    (d.seen c det).core k = if k = c then { d.core k with bad := (d.core k).badAfter det } else d.core k := by
  unfold Dev.seen
  split
  next n =>
    have hcore : (d.count (coreOff c + 0x1818) 0 n).core k = d.core k := by unfold Dev.core; rw [Dev.count_cores]
    rw [hcore]
    split <;> rfl
  next b addr =>
    by_cases hk : k = c
    · subst hk; rw [if_pos rfl, Dev.core_onCore]; rfl
    · rw [if_neg hk, Dev.core_onCore_ne _ _ _ _ hk]
  next h1 h2 =>
    rw [badAfter_of_sound _ h2]
    split <;> rfl

/-- A core once the patrol has read the next word of a bank. -/
def Core.patrolled (x : Core) (bank : Nat) (det : Detect) : Core :=
  { x with
    bad := x.badAfter det
    patrolPos := mset x.patrolPos bank ((mgetD x.patrolPos bank 0 + 1) % 1024)
    patrolWb := if 0 < correctedBits det then mset x.patrolWb bank (mgetD x.patrolPos bank 0 + 1) else x.patrolWb }

section patrol
variable {d : Dev} {c bank : Nat} {det : Detect}

theorem patrolD_of_idle (h : mgetD (d.core c).roles bank 0 ≠ 1 ∨ d.coreActive c = false) : patrolD c bank det d = d := by
  unfold patrolD
  dsimp only
  exact if_pos (h.imp_right (by simp [·]))

section active
variable (hrole : mgetD (d.core c).roles bank 0 = 1) (hact : d.coreActive c = true)
include hrole hact

/-- A corrected word that waits is written back first. -/
theorem patrolD_of_waiting (h : (mget (d.core c).patrolWb bank).isSome = true) :
    patrolD c bank det d = d.onCore c (fun x => { x with patrolWb := mdel x.patrolWb bank }) := by
  unfold patrolD
  dsimp only
  rw [if_neg (by simp [hrole, hact]), if_pos h]

/-- Beside the word that it reads, the patrol does what a detection does. -/
theorem patrolD_of_free (h : mget (d.core c).patrolWb bank = none) : ∃ f : Core → Core,
    (∀ x, f x = { x with
      patrolPos := mset x.patrolPos bank ((mgetD (d.core c).patrolPos bank 0 + 1) % 1024)
      patrolWb := if 0 < correctedBits det then mset x.patrolWb bank (mgetD (d.core c).patrolPos bank 0 + 1) else x.patrolWb }) ∧
    ((d.seen c det).onCore c f).Aside (patrolD c bank det d) := by
  unfold patrolD
  dsimp only
  rw [if_neg (by simp [hrole, hact]), if_neg (by simp [h])]
  refine ⟨_, ?_, (Dev.Aside.ite (Dev.Aside.count _ _ _ _) (.refl _)).trans (Dev.Aside.ite (.refl _) ?_)⟩
  · cases det <;> exact fun _ => rfl
  · generalize Core.ownerOf _ _ = owner
    cases owner with
    | none => exact Dev.Aside.count _ _ _ _
    | some p => exact (Dev.Aside.count _ _ _ _).trans (Dev.Aside.detect _ _ _ _ _ _ _)

/-- What of a core neither tasks nor tags say is that of a core whose next word has been read. -/
theorem patrolD_core (h : mget (d.core c).patrolWb bank = none) {α : Type} (g : Core → α) (hg : ∀ x k m, g { x with tasks := k, tags := m } = g x)
    (k : Nat) : g ((patrolD c bank det d).core k) = g (if k = c then (d.core k).patrolled bank det else d.core k) := by
  obtain ⟨f, hf, aside⟩ := patrolD_of_free (det := det) hrole hact h
  rw [aside.core_proj g hg]
  by_cases hk : k = c
  · subst hk
    rw [Dev.core_onCore, Dev.core_seen, if_pos rfl, if_pos rfl, hf]
    rfl
  · rw [Dev.core_onCore_ne _ _ _ _ hk, Dev.core_seen, if_neg hk, if_neg hk]

/-- Words written back leave everything else. -/
theorem patrolD_waiting_core (h : (mget (d.core c).patrolWb bank).isSome = true) {α : Type} (g : Core → α)
    (hg : ∀ x w, g { x with patrolWb := w } = g x) (k : Nat) : g ((patrolD c bank det d).core k) = g (d.core k) := by
  rw [patrolD_of_waiting hrole hact h]
  by_cases hk : k = c
  · subst hk; rw [Dev.core_onCore]; exact hg _ _
  · rw [Dev.core_onCore_ne _ _ _ _ hk]

/-- One step of the patrol. -/
theorem patrolD_steps : (∀ x, ((patrolD c bank det d).core x).mem = (d.core x).mem) ∧
    ((∀ b a, det ≠ .eccUncorrectable b a) → ∀ x, ((patrolD c bank det d).core x).bad = (d.core x).bad) ∧
    (∀ v, mget (d.core c).patrolWb bank = some v → ((patrolD c bank det d).core c).bad = (d.core c).bad ∧
      mgetD ((patrolD c bank det d).core c).patrolPos bank 0 = mgetD (d.core c).patrolPos bank 0) ∧
    (mget (d.core c).patrolWb bank = none →
      mgetD ((patrolD c bank det d).core c).patrolPos bank 0 = (mgetD (d.core c).patrolPos bank 0 + 1) % 1024 ∧
      (∀ b a, det = .eccUncorrectable b a → ((patrolD c bank det d).core c).bad = mset (d.core c).bad (a / 8) 1) ∧
      (∀ n, det = .eccCorrected n → 0 < n → mget ((patrolD c bank det d).core c).patrolWb bank = some (mgetD (d.core c).patrolPos bank 0 + 1)) ∧
      ((∀ n, det = .eccCorrected n → n = 0) → mget ((patrolD c bank det d).core c).patrolWb bank = none)) := by
  cases h : mget (d.core c).patrolWb bank with
  | some v =>
    have waiting : (mget (d.core c).patrolWb bank).isSome = true := by rw [h]; rfl
    have hbad := patrolD_waiting_core (det := det) hrole hact waiting Core.bad (fun _ _ => rfl)
    refine ⟨patrolD_waiting_core hrole hact waiting Core.mem (fun _ _ => rfl), fun _ => hbad, fun _ _ => ⟨hbad c, ?_⟩, fun hn => absurd hn nofun⟩
    rw [patrolD_waiting_core hrole hact waiting Core.patrolPos (fun _ _ => rfl)]
  | none =>
    have hmem := patrolD_core (det := det) hrole hact h Core.mem (fun _ _ _ => rfl)
    have hbad := patrolD_core (det := det) hrole hact h Core.bad (fun _ _ _ => rfl)
    have hpos := patrolD_core (det := det) hrole hact h Core.patrolPos (fun _ _ _ => rfl) c
    have hwb := patrolD_core (det := det) hrole hact h Core.patrolWb (fun _ _ _ => rfl) c
    rw [if_pos rfl] at hpos hwb
    rw [hpos, hwb]
    refine ⟨fun x => (hmem x).trans (by split <;> rfl), fun hdet x => (hbad x).trans ?_, fun v hv => absurd hv nofun, fun _ =>
      ⟨mgetD_mset_self _ _ _ _, fun b a hd => ?_, fun n hd hn => ?_, fun hn => ?_⟩⟩
    · split
      · exact badAfter_of_sound _ hdet
      · rfl
    · rw [hbad, if_pos rfl, hd]
      rfl
    · have hpos : 0 < correctedBits det := by rw [hd]; exact hn
      unfold Core.patrolled
      dsimp only
      rw [if_pos hpos, mget_mset_self]
    · have hnone : ¬ 0 < correctedBits det := by
        unfold correctedBits
        split
        · rw [hn _ rfl]; exact Nat.lt_irrefl 0
        · exact Nat.lt_irrefl 0
      unfold Core.patrolled
      dsimp only
      rw [if_neg hnone, h]

end active
end patrol

/-! ### EXP_SLOT_RELEASE (R433) -/

section freeSlot
variable (x : Core) (i : Nat)

theorem Core.freeSlot_of_idle (h : x.pendLoads = []) : x.freeSlot i = { x with gens := lset x.gens i (fun _ => GenSlot.reset) } := by
  unfold Core.freeSlot
  dsimp only
  rw [h]

/-- The generation that a load brings. -/
def TableLoad.slot (l : TableLoad) : GenSlot := { state := 1, gen := l.gen, ew := l.ew, values := l.values, since := l.since, retired := 0 }

/-- The oldest pending load takes a slot once one is free. -/
theorem Core.freeSlot_of_pending {l : TableLoad} {r : List TableLoad} (hi : i < x.gens.length) (h : x.pendLoads = l :: r) : ∃ k, k < x.gens.length ∧
    x.freeSlot i = { x with gens := lset (lset x.gens i (fun _ => GenSlot.reset)) k (fun _ => l.slot), pendLoads := r } := by
  have hfree : ∃ y ∈ lset x.gens i (fun _ => GenSlot.reset), (y.state == 0) = true := by
    refine ⟨GenSlot.reset, List.mem_of_getElem? (i := i) ?_, rfl⟩
    rw [lset_getElem?, if_pos rfl, List.getElem?_eq_getElem hi]
    rfl
  obtain ⟨k, hk⟩ := Option.isSome_iff_exists.1 (List.findIdx?_isSome.trans (List.any_eq_true.2 hfree))
  have hlt : k < x.gens.length := by
    rw [← lset_length x.gens i (fun _ => GenSlot.reset)]
    exact (List.findIdx?_eq_some_iff_getElem.1 hk).1
  refine ⟨k, hlt, ?_⟩
  unfold Core.freeSlot Core.takeSlot
  dsimp only
  rw [h]
  dsimp only
  rw [hk]
  rfl

/-- Freeing a slot changes the table's slots and the loads that wait alone. -/
theorem Core.freeSlot_keeps (hi : i < x.gens.length) : (x.freeSlot i).mem = x.mem ∧ (x.freeSlot i).gens.length = x.gens.length := by
  cases h : x.pendLoads with
  | nil => rw [x.freeSlot_of_idle i h]; exact ⟨rfl, lset_length x.gens i (fun _ => GenSlot.reset)⟩
  | cons l r =>
    obtain ⟨k, -, heq⟩ := x.freeSlot_of_pending i hi h
    rw [heq]
    exact ⟨rfl, by simp⟩

end freeSlot

section slotRelease
variable {d : Dev} {c slot : Nat} {g : GenSlot} (hg : (d.core c).gens[slot]? = some g)
include hg

theorem slotReleaseD_of_retired (h2 : g.state = 2) (he : d.earlierRequests c g.gen g.retired = false) :
    slotReleaseD c slot d = d.onCore c (·.freeSlot slot) := by
  unfold slotReleaseD
  rw [hg]
  exact if_pos ⟨h2, by simp [he]⟩

theorem slotReleaseD_of_used (h : g.state ≠ 2 ∨ d.earlierRequests c g.gen g.retired = true) : slotReleaseD c slot d = d := by
  unfold slotReleaseD
  rw [hg]
  refine if_neg (fun hc => ?_)
  obtain ⟨h2, he⟩ := hc
  exact h.elim (fun hn => hn h2) (fun hn => by simp [hn] at he)

end slotRelease

/-- A slot's release: the slot is free, and a load that waits takes a free one. -/
theorem slotRelease_frees {x : Core} {slot : Nat} {g : GenSlot} (hg : x.gens[slot]? = some g) :
    (x.freeSlot slot).mem = x.mem ∧ (x.freeSlot slot).gens.length = x.gens.length ∧
      (x.pendLoads = [] → (x.freeSlot slot).gens[slot]? = some GenSlot.reset ∧ ∀ i, i ≠ slot → (x.freeSlot slot).gens[i]? = x.gens[i]?) ∧
      (∀ l rest, x.pendLoads = l :: rest → (x.freeSlot slot).pendLoads = rest ∧
        ∃ y ∈ (x.freeSlot slot).gens, y.state = 1 ∧ y.gen = l.gen ∧ y.values = l.values) := by
  have hi : slot < x.gens.length := (List.getElem?_eq_some_iff.1 hg).1
  obtain ⟨hmem, hlen⟩ := x.freeSlot_keeps slot hi
  refine ⟨hmem, hlen, fun h => ?_, fun l rest h => ?_⟩
  · rw [x.freeSlot_of_idle slot h]
    refine ⟨?_, fun i hne => ?_⟩
    · rw [lset_getElem?, if_pos rfl, hg]; rfl
    · rw [lset_getElem?, if_neg hne]
  · obtain ⟨k, hk, heq⟩ := x.freeSlot_of_pending slot hi h
    rw [heq]
    refine ⟨rfl, l.slot, List.mem_of_getElem? (i := k) ?_, rfl, rfl, rfl⟩
    rw [lset_getElem?, if_pos rfl, List.getElem?_eq_getElem (by simpa using hk)]
    rfl

/-! ### WEIGHT_REFETCH_COMPLETE (R546) -/

/-- A core whose WEIGHT banks hold their objects again. -/
def Core.refetched (x : Core) : Core :=
  { x with maint := false, bad := x.bad.filter (fun b => mgetD x.roles (bankOf (8 * b.1)) 0 != 1) }

theorem refetchD_of_maint {d : Dev} {c : Nat} (hm : (d.core c).maint = true) (hl : (d.core c).locked = false) (ha : d.coreActive c = true)
    (hu : d.sliceUp (c / 64) = true) : refetchD c d = d.onCore c Core.refetched := by
  unfold refetchD
  dsimp only
  rw [if_pos (by simp [hm, hl, ha, hu])]
  rfl

theorem Core.mem_bad_refetched (x : Core) (w v : Nat) :
    (w, v) ∈ x.refetched.bad ↔ (w, v) ∈ x.bad ∧ mgetD x.roles (bankOf (8 * w)) 0 ≠ 1 := by
  unfold Core.refetched
  rw [List.mem_filter, bne_iff_ne]

end Sys2Proof.Machine

open Sys2Proof Sys2Proof.Machine

/-- Settles O49: every scrub, patrol step, slot release and refetch by the lemma about its own cores. -/
theorem scrubsClearAndPatrolsRead : Obligations.ScrubsClearAndPatrolsRead := by
  unfold Obligations.ScrubsClearAndPatrolsRead
  refine ⟨⟨fun j wellToo s hup => ⟨fun hk => ?kill, fun hk => ?other⟩,
    fun sl s hup => ⟨fun hs => ?start, fun hs => ?started, fun hs => ?done, fun hs => ?ended⟩⟩,
    fun core s hup => ⟨fun bank det => ⟨fun h => ?idle, fun hrole hact => ?patrol⟩,
      fun slot g hg => ⟨fun h2 he => ?release, fun h => ?used⟩, fun hm hl ha hu => ?refetch⟩⟩
  case kill =>
    have hcore := fun c => killDoneD_core (wellToo := wellToo) hk c
    refine ⟨_, onUp_of_up _ _ hup, ⟨rfl, rfl⟩, fun c hc => ?_, fun c hc => (hcore c).trans (if_neg hc), fun hw => ?_, fun hw hz => ?_⟩
    · have hreleased := (hcore c).trans (if_pos hc)
      unfold Dev.task
      dsimp only
      rw [hreleased]
      exact ⟨rfl, rfl, rfl, rfl, rfl, rfl, rfl, rfl, fun k => (s.dev.core c).state_task_scrubbed k⟩
    · obtain ⟨g, e, hslot⟩ := killDoneD_empties hk hw
      exact ⟨congrArg Job.state hslot, congrArg Job.img hslot⟩
    · obtain ⟨hslot, hzero⟩ := killDoneD_waits hk hw hz
      exact ⟨(congrArg Job.state hslot).trans hk, congrArg Job.clear hslot, hzero⟩
  case other => exact (onUp_of_up _ _ hup).trans (by rw [killDoneD_of_other hk])
  case start =>
    exact ⟨_, onUp_of_up _ _ hup, ⟨rfl, rfl⟩, sliceScrubD_state hs, fun c hc => (sliceScrubD_core hs c).trans (if_pos hc),
      fun c hc => (sliceScrubD_core hs c).trans (if_neg hc)⟩
  case started => exact (onUp_of_up _ _ hup).trans (by rw [sliceScrubD_of_other hs])
  case done =>
    obtain ⟨hstate, hwell⟩ := sliceDoneD_keeps hs
    refine ⟨_, onUp_of_up _ _ hup, ⟨rfl, rfl⟩, hstate, fun c hc => ?_, fun c hc => (sliceDoneD_core hs c).trans (if_neg hc), hwell⟩
    have hscrubbed := (sliceDoneD_core hs c).trans (if_pos hc)
    unfold Dev.task
    dsimp only
    rw [hscrubbed]
    exact ⟨rfl, rfl, rfl, rfl, rfl, fun k => (s.dev.core c).state_task_scrubbed k⟩
  case ended => exact (onUp_of_up _ _ hup).trans (by rw [sliceDoneD_of_other hs])
  case idle => exact (onUp_of_up _ _ hup).trans (by rw [patrolD_of_idle h])
  case patrol => exact ⟨_, onUp_of_up _ _ hup, ⟨rfl, rfl⟩, patrolD_steps hrole hact⟩
  case release =>
    obtain ⟨hmem, hlen, hidle, hpend⟩ := slotRelease_frees hg
    refine ⟨_, onUp_of_up _ _ hup, ⟨rfl, rfl⟩, ?_, fun x hx => ?_, ?_⟩ <;> dsimp only <;> rw [slotReleaseD_of_retired hg h2 he]
    · rfl
    · exact Dev.core_onCore_ne _ _ _ _ hx
    · rw [Dev.core_onCore]
      exact ⟨hmem, hlen, hidle, hpend⟩
  case used => exact (onUp_of_up _ _ hup).trans (by rw [slotReleaseD_of_used hg h])
  case refetch =>
    refine ⟨_, onUp_of_up _ _ hup, ⟨rfl, rfl⟩, ?_, fun x hx => ?_, ?_⟩ <;> dsimp only <;> rw [refetchD_of_maint hm hl ha hu]
    · rfl
    · exact Dev.core_onCore_ne _ _ _ _ hx
    · rw [Dev.core_onCore]
      exact ⟨rfl, fun w v => (s.dev.core core).mem_bad_refetched w v⟩

end

section
/-! What NAN_TRAP changes (R129 to R133, R353) and when the next queued action is handled (R549), and what they settle: O47. -/

namespace Sys2Proof.Machine

/-! ### The candidate that traps (R129) -/

/-- The candidate at a word and element stands in the task's list before those that its trap leaves. -/
theorem Task.cands_of_nanAt {k : Task} {word elem : Nat} {n : NanCand} (h : k.nanAt word elem = some n) :
    ∃ earlier, k.cands = earlier ++ n :: k.nansAfter word elem := by
  have first : ∀ l, k.cands.find? (fun m => m.word == word && m.elem == elem) = some l → ∃ earlier, k.cands = earlier ++ l :: k.nansAfter word elem := by
    intro l hl
    obtain ⟨hhere, earlier, later, hsplit, hnot⟩ := List.find?_eq_some_iff_append.mp hl
    refine ⟨earlier, ?_⟩
    unfold Task.nansAfter
    rw [hsplit, List.dropWhile_append_of_pos hnot, List.dropWhile_cons_of_neg (by simp only [hhere, Bool.not_true, Bool.false_eq_true, not_false_eq_true])]
    rfl
  unfold Task.nanAt at h
  split at h
  · exact first n h
  · obtain ⟨hhead, hhere⟩ := Option.filter_eq_some_iff.mp h
    refine first n ?_
    obtain ⟨rest, hrest⟩ := List.head?_eq_some_iff.mp hhead
    rw [hrest]
    exact List.find?_cons_of_pos hhere

/-- It is among the candidates that its trap takes off the list. -/
theorem Task.mem_taken_of_nanAt {k : Task} {word elem : Nat} {n : NanCand} (h : k.nanAt word elem = some n) :
    n ∈ k.cands.take (k.cands.length - (k.nansAfter word elem).length) := by
  obtain ⟨earlier, hsplit⟩ := Task.cands_of_nanAt h
  have hlen : k.cands.length - (k.nansAfter word elem).length = earlier.length + 1 := by
    have := congrArg List.length hsplit
    rw [List.length_append, List.length_cons] at this
    omega
  rw [hlen, hsplit, List.take_length_add_append]
  exact List.mem_append_right _ (List.mem_cons_self ..)

/-! ### Who may trap (R129, R353) -/

theorem Dev.mayTrap_stream {d : Dev} {c t h : Nat} {k : Task} {n : NanCand} : d.mayTrap c t k n (some h) = true ↔
    d.spanWord c t n.word = false ∧ h ∈ d.opHandlesAt c t n.word n.round ∧ ∃ i ∈ (d.stream h).items, d.trapsItem h n.round i = true := by
  simp [Dev.mayTrap, and_assoc]

theorem Dev.mayTrap_command {d : Dev} {c t : Nat} {k : Task} {n : NanCand} : d.mayTrap c t k n none = true ↔ k.cmdTrap ≠ some n.round := by
  simp [Dev.mayTrap]

/-! ### What a trap leaves (R130, R132) -/

/-- An item that traps: the NaN's round, and the code with which the item ends unless an earlier one stands. -/
def Item.trappedIn (i : Item) (n : Nat) : Item := { i with trapAt := some n, failed := if i.failed = 0 then 0x0302 else i.failed }

/-- A task whose NaN traps is done with its candidates up to that one (R129). -/
def Task.pastNan (k : Task) (word elem : Nat) (inSpan : Nat → Bool) : Task :=
  { k with
    cands := k.nansAfter word elem
    trapped := true
    spanNan := k.spanNan || (k.cands.take (k.cands.length - (k.nansAfter word elem).length)).any (fun x => x.round == k.progRound && inSpan x.word) }

/-- COR_NANTRAP captures a trap while VALID is 0 (R132). -/
def Task.capture (k : Task) (elem : Nat) (n : NanCand) (handle : Option Nat) : Task :=
  { k with
    trapA := if 2 ^ 63 ≤ k.trapA then k.trapA else trapWord n handle
    trapElem := if 2 ^ 63 ≤ k.trapA then k.trapElem else elem
    trapRound := if 2 ^ 63 ≤ k.trapA then k.trapRound else n.round }

/-- A task that has trapped shows the first trap that its host has not cleared. -/
theorem Task.capture_of_valid {k : Task} (elem : Nat) (n : NanCand) (handle : Option Nat) (h : 2 ^ 63 ≤ k.trapA) : k.capture elem n handle = k := by
  unfold Task.capture
  rw [if_pos h, if_pos h, if_pos h]

theorem Task.capture_of_clear {k : Task} (elem : Nat) (n : NanCand) (handle : Option Nat) (h : ¬ 2 ^ 63 ≤ k.trapA) :
    k.capture elem n handle = { k with trapA := trapWord n handle, trapElem := elem, trapRound := n.round } := by
  unfold Task.capture
  rw [if_neg h, if_neg h, if_neg h]

/-- The task of a trap is past its NaN, has captured it, and notes the trap of its command item. -/
def Task.trappedAt (k : Task) (word elem : Nat) (n : NanCand) (handle : Option Nat) (inSpan : Nat → Bool) : Task :=
  { (k.pastNan word elem inSpan).capture elem n handle with cmdTrap := if handle.isNone then some n.round else k.cmdTrap }

/-- A NaN of a span's word in the round of its program is remembered (R353). -/
theorem Task.spanNan_trappedAt {k : Task} {word elem : Nat} {n : NanCand} (handle : Option Nat) {inSpan : Nat → Bool} (hn : k.nanAt word elem = some n)
    (hr : n.round = k.progRound) (hs : inSpan n.word = true) : (k.trappedAt word elem n handle inSpan).spanNan = true :=
  Bool.or_eq_true_iff.mpr (.inr (List.any_eq_true.mpr ⟨n, Task.mem_taken_of_nanAt hn, by simp [hr, hs]⟩))

/-- The record of a trap (R133). -/
def trapErr (c t elem : Nat) (n : NanCand) (handle : Option Nat) : Err :=
  { code := 0x0302, kind := 0, task := t, unit := c, corr := false, handle := handle,
    a := n.word % 32768 + n.engine % 8 * 2 ^ 15 + n.operand % 16 * 2 ^ 18, b := elem, round := some n.round }

/-- The device once the task of a trap is past its NaN and has captured it. -/
def Dev.captured (d : Dev) (c t word elem : Nat) (n : NanCand) (handle : Option Nat) : Dev :=
  let d0 := d.onTask c t (·.pastNan word elem (d.spanWord c t))
  if 2 ^ 63 ≤ (d.task c t).trapA then d0 else d0.onTask c t (fun k => { k with trapA := trapWord n handle, trapElem := elem, trapRound := n.round })

section captured
variable (d : Dev) (c t word elem : Nat) (n : NanCand) (handle : Option Nat)

theorem Dev.captured_rest : ∃ cs, d.captured c t word elem n handle = { d with cores := cs } := by
  unfold Dev.captured
  dsimp only
  split <;> exact ⟨_, rfl⟩

theorem Dev.mem_captured (x : Nat) : ((d.captured c t word elem n handle).core x).mem = (d.core x).mem := by
  unfold Dev.captured
  dsimp only
  split <;> simp only [Dev.mem_onTask]

theorem Dev.task_captured : (d.captured c t word elem n handle).task c t =
    ((d.task c t).pastNan word elem (d.spanWord c t)).capture elem n handle := by
  unfold Dev.captured
  dsimp only
  split
  next h => rw [Dev.task_onTask]; exact (Task.capture_of_valid (k := (d.task c t).pastNan word elem (d.spanWord c t)) _ _ _ h).symm
  next h => rw [Dev.task_onTask, Dev.task_onTask]; exact (Task.capture_of_clear (k := (d.task c t).pastNan word elem (d.spanWord c t)) _ _ _ h).symm

theorem Dev.stream_captured (h : Nat) : (d.captured c t word elem n handle).stream h = d.stream h := by
  obtain ⟨cs, hcs⟩ := d.captured_rest c t word elem n handle
  rw [hcs]
  rfl

end captured

/-- A trap changes its task and, for a stream, the items of that stream that trap; no byte and no other stream. -/
structure Dev.Traps (d e : Dev) (c t word elem : Nat) (n : NanCand) (handle : Option Nat) : Prop where
  mem : ∀ x, (e.core x).mem = (d.core x).mem
  task : e.task c t = (d.task c t).trappedAt word elem n handle (d.spanWord c t)
  items : ∀ h, handle = some h → (e.stream h).items = (d.stream h).items.map (fun i => if d.trapsItem h n.round i then i.trappedIn n.round else i)
  others : ∀ h, handle ≠ some h → e.stream h = d.stream h

section traps
variable {d e : Dev} {c t word elem : Nat} {n : NanCand} {handle : Option Nat}

theorem Dev.Traps.raise (h : d.Traps e c t word elem n handle) (x : Err) : d.Traps (e.raise x) c t word elem n handle := by
  obtain ⟨b, o, m, hraise⟩ := e.raise_cases x
  rw [hraise]
  exact ⟨h.mem, h.task, h.items, h.others⟩

/-- A NaN that may trap does so, and its record is raised. -/
theorem nanTrapD_eq (hn : (d.task c t).nanAt word elem = some n) (ht : (d.task c t).nanTrap = true)
    (hm : d.mayTrap c t (d.task c t) n handle = true) : ∃ e, nanTrapD c t word elem handle d = e.raise (trapErr c t elem n handle) ∧
      e.err = d.err ∧ e.tb = d.tb ∧ d.Traps e c t word elem n handle := by
  obtain ⟨cs, hrest⟩ := d.captured_rest c t word elem n handle
  have htask := d.task_captured c t word elem n handle
  have hmay : ¬ ((!(d.task c t).nanTrap || !d.mayTrap c t (d.task c t) n handle) = true) := by simp [ht, hm]
  unfold nanTrapD
  dsimp only
  rw [hn]
  dsimp only
  rw [if_neg hmay]
  cases handle with
  | none =>
    refine ⟨(d.captured c t word elem n none).onTask c t (fun k => { k with cmdTrap := some n.round }), rfl, by rw [hrest]; rfl, by rw [hrest]; rfl,
      fun x => ?_, ?_, nofun, fun h _ => d.stream_captured c t word elem n none h⟩
    · rw [Dev.mem_onTask, Dev.mem_captured]
    · rw [Dev.task_onTask, htask]; rfl
  | some g =>
    refine ⟨(d.captured c t word elem n (some g)).onStream g
      (fun s => { s with items := s.items.map (fun i => if d.trapsItem g n.round i then i.trappedIn n.round else i) }), rfl, by rw [hrest]; rfl,
      by rw [hrest]; rfl, d.mem_captured c t word elem n _, ?_, ?_, fun h hh => ?_⟩
    · exact htask
    · rintro h ⟨⟩
      rw [Dev.stream_onStream, Dev.stream_captured]
    · rw [Dev.stream_onStream_ne _ _ _ _ (fun e => hh (by rw [e])), Dev.stream_captured]

theorem nanTrapD_traps (hn : (d.task c t).nanAt word elem = some n) (ht : (d.task c t).nanTrap = true)
    (hm : d.mayTrap c t (d.task c t) n handle = true) : d.Traps (nanTrapD c t word elem handle d) c t word elem n handle := by
  obtain ⟨e, heq, -, -, htraps⟩ := nanTrapD_eq hn ht hm
  rw [heq]
  exact htraps.raise _

/-- Its record names the NaN's word, engine, operand, element and round. -/
theorem nanTrapD_record (hn : (d.task c t).nanAt word elem = some n) (ht : (d.task c t).nanTrap = true)
    (hm : d.mayTrap c t (d.task c t) n handle = true) (hroom : d.err.head - d.err.tail < 256) :
    mget (nanTrapD c t word elem handle d).err.recs (d.err.head % 256) =
      some (errBytes (trapErr c t elem n handle) d.err.handling.isSome n.round d.tb.now) := by
  obtain ⟨e, heq, herr, htb, -⟩ := nanTrapD_eq hn ht hm
  rw [heq, ← herr, ← htb]
  exact (e.raise_room _ (by rw [herr]; exact hroom)).2.1

/-- Without NAN_TRAP, or where nothing may trap any more, the NaN changes nothing. -/
theorem nanTrapD_of_quiet (hn : (d.task c t).nanAt word elem = some n)
    (h : (d.task c t).nanTrap = false ∨ d.mayTrap c t (d.task c t) n handle = false) : nanTrapD c t word elem handle d = d := by
  unfold nanTrapD
  dsimp only
  rw [hn]
  exact if_pos (by simpa using h)

end traps

/-! ### COR_NANTRAP (R132) -/

/-- Its fields: the word, the handle and whether there is none, the engine, the operand, VALID. -/
theorem trapWord_fields (n : NanCand) (handle : Option Nat) :
    bits (trapWord n handle) 0 15 = n.word % 2 ^ 15 ∧ bits (trapWord n handle) 16 15 = handle.getD 0 % 2 ^ 15 ∧
      bit (trapWord n handle) 31 = handle.isNone ∧ bits (trapWord n handle) 32 3 = n.engine % 8 ∧ bits (trapWord n handle) 35 4 = n.operand % 16 ∧
      bit (trapWord n handle) 63 = true := by
  have hflag : handle.isNone.toNat ≤ 1 := Bool.toNat_le _
  unfold bits bit trapWord
  simp only [Nat.shiftRight_eq_div_pow, Nat.testBit_eq_decide_div_mod_eq]
  refine ⟨by omega, by omega, ?_, by omega, by omega, decide_eq_true (by omega)⟩
  cases handle.isNone <;> simp <;> omega

/-! ### ERROR_RECORD_HANDLE (R549) -/

theorem recordHandleD_of_idle {d : Dev} {a : Action} {rest : List Action} (hh : d.err.handling = none) (hq : d.err.queue = a :: rest) :
    recordHandleD d = { d with err := { d.err with handling := some a, queue := rest } } := by
  unfold recordHandleD
  rw [hh, hq]

theorem recordHandleD_of_busy {d : Dev} {a : Action} (hh : d.err.handling = some a) : recordHandleD d = d := by
  unfold recordHandleD
  rw [hh]

end Sys2Proof.Machine

open Sys2Proof Sys2Proof.Machine

/-- Settles O47: a NaN traps by `nanTrapD_traps` or changes nothing by `nanTrapD_of_quiet`, and an idle error block takes its next action. -/
theorem nanTrapsAndRecordHandling : Obligations.NanTrapsAndRecordHandling := by
  unfold Obligations.NanTrapsAndRecordHandling
  refine ⟨fun core task word elem handle n k s hup hk hn => ?trap, fun a rest s hup hh hq => ?idle, fun a s hh => ?busy⟩
  case trap =>
    subst hk
    refine ⟨fun ht hserved hfirst => ?_, fun hquiet => ?_⟩
    · have hmay : s.dev.mayTrap core task (s.dev.task core task) n (handle.map Fin.val) = true := by
        cases handle with
        | none => exact Dev.mayTrap_command.mpr (hfirst rfl)
        | some h => exact Dev.mayTrap_stream.mpr (hserved h rfl)
      obtain ⟨hmem, htask, hitems, hothers⟩ := nanTrapD_traps hn ht hmay
      refine ⟨_, onUp_of_up _ _ hup, ⟨rfl, rfl⟩, ?_⟩
      dsimp only
      rw [htask]
      refine ⟨rfl, rfl, fun hr hs => Task.spanNan_trappedAt _ hn hr hs, ?_, fun hclear => ?_, fun hvalid => ?_,
        fun h hh => hitems h (by rw [hh]; rfl), fun h hh => hothers h ?_, fun hroom => nanTrapD_record hn ht hmay hroom, hmem⟩
      · unfold Task.trappedAt
        rw [Option.isNone_map]
      · obtain ⟨hword, hhandle, hnone, hengine, hoperand, hbit⟩ := trapWord_fields n (handle.map Fin.val)
        have hnot : ¬ 2 ^ 63 ≤ (s.dev.task core task).trapA := by omega
        have htrapA : ((s.dev.task core task).trappedAt word elem n (handle.map Fin.val) (s.dev.spanWord core task)).trapA =
            trapWord n (handle.map Fin.val) := if_neg hnot
        rw [htrapA]
        refine ⟨hword, hhandle.trans (Nat.mod_eq_of_lt ?_), hnone.trans Option.isNone_map, hengine, hoperand, hbit, if_neg hnot, if_neg hnot⟩
        cases handle with
        | none => exact Nat.two_pow_pos 15
        | some h => exact h.isLt
      · exact ⟨if_pos hvalid, if_pos hvalid⟩
      · intro he
        obtain ⟨g, hg, hgh⟩ := Option.map_eq_some_iff.mp he
        exact hh g hg hgh
    · refine onUp_same (nanTrapD_of_quiet hn ?_)
      rcases hquiet with h | ⟨h, rfl, hno⟩ | ⟨rfl, hno⟩
      · exact .inl h
      · refine .inr (Bool.eq_false_iff.mpr fun hmay => ?_)
        obtain ⟨hspan, hserved, i, hi, htraps⟩ := Dev.mayTrap_stream.mp hmay
        rcases hno with h1 | h1 | h1
        · rw [hspan] at h1; cases h1
        · exact h1 hserved
        · have := h1 i hi; rw [htraps] at this; cases this
      · exact .inr (Bool.eq_false_iff.mpr fun hmay => Dev.mayTrap_command.mp hmay hno)
  case idle => exact (onUp_of_up _ _ hup).trans (by rw [recordHandleD_of_idle hh hq])
  case busy => exact onUp_same (recordHandleD_of_busy hh)

end

section
/-! Bytes that writes lay side by side in a memory, and what a view's points are stored as (R63, R167, R361). -/

namespace Sys2Proof.Machine

/-! ### Writes side by side -/

/-- A range of memory apart from a write reads as before. -/
theorem memRead_write_apart (m : SMap Byte) {a n b : Nat} {bs : Bytes} (h : a + n ≤ b ∨ b + bs.length ≤ a) :
    memRead (memWrite m b bs) a n = memRead m a n := by
  have hcells : (memCells b bs).filter (fun p => decide (a ≤ p.1) && decide (p.1 < a + n)) = [] := by
    rw [List.filter_eq_nil_iff]
    intro p hp
    have := memCells_mem b bs p hp
    simp only [Bool.and_eq_true, decide_eq_true_eq]
    omega
  unfold memRead memWrite
  rw [List.filter_append, List.filter_append, hcells, List.append_nil, List.filter_filter, List.filter_filter]
  rcases h with h | h
  · have hlow : m.filter (fun p => (decide (a ≤ p.1) && decide (p.1 < a + n)) && decide (p.1 < b)) =
        m.filter (fun p => decide (a ≤ p.1) && decide (p.1 < a + n)) := List.filter_congr fun p _ => by
      by_cases hp : p.1 < a + n
      · simp [hp, show p.1 < b by omega]
      · simp [hp]
    have hhigh : m.filter (fun p => (decide (a ≤ p.1) && decide (p.1 < a + n)) && decide (b + bs.length ≤ p.1)) = [] := by
      rw [List.filter_eq_nil_iff]
      intro p _
      simp only [Bool.and_eq_true, decide_eq_true_eq]
      omega
    rw [hlow, hhigh, List.append_nil]
  · have hlow : m.filter (fun p => (decide (a ≤ p.1) && decide (p.1 < a + n)) && decide (p.1 < b)) = [] := by
      rw [List.filter_eq_nil_iff]
      intro p _
      simp only [Bool.and_eq_true, decide_eq_true_eq]
      omega
    have hhigh : m.filter (fun p => (decide (a ≤ p.1) && decide (p.1 < a + n)) && decide (b + bs.length ≤ p.1)) =
        m.filter (fun p => decide (a ≤ p.1) && decide (p.1 < a + n)) := List.filter_congr fun p _ => by
      by_cases hp : a ≤ p.1
      · simp [hp, show b + bs.length ≤ p.1 by omega]
      · simp [hp]
    rw [hlow, hhigh, List.nil_append]

theorem length_leBytes (n v : Nat) : (leBytes n v).length = n := by
  induction n generalizing v with
  | zero => rfl
  | succ n ih => exact congrArg (· + 1) (ih (v / 256))

/-- The writes of n codes of z bytes each that lie side by side from a. -/
def sideBySide (a z n : Nat) (code : Nat → Nat) : List (Nat × Bytes) := (List.range n).map (fun f => (a + f * z, leBytes z (code f)))

/-- The memory after them. -/
def memSideBySide (m : SMap Byte) (a z n : Nat) (code : Nat → Nat) : SMap Byte :=
  (sideBySide a z n code).foldl (fun m w => memWrite m w.1 w.2) m

section sideBySide
variable (m : SMap Byte) (a z : Nat) (code : Nat → Nat)

theorem memSideBySide_succ (n : Nat) : memSideBySide m a z (n + 1) code = memWrite (memSideBySide m a z n code) (a + n * z) (leBytes z (code n)) := by
  unfold memSideBySide sideBySide
  rw [List.range_succ, List.map_append, List.foldl_append]
  rfl

/-- Each code is read back from its place. -/
theorem memRead_memSideBySide {n f : Nat} (hf : f < n) : memRead (memSideBySide m a z n code) (a + f * z) z = leBytes z (code f) := by
  induction n with
  | zero => omega
  | succ n ih =>
    rw [memSideBySide_succ]
    by_cases hn : f = n
    · subst hn
      have hlast := memRead_write (memSideBySide m a z f code) (a + f * z) (leBytes z (code f))
      rwa [length_leBytes] at hlast
    · have hlt : f < n := by omega
      have hplace : f * z + z ≤ n * z := by rw [← Nat.succ_mul]; exact Nat.mul_le_mul_right z hlt
      rw [memRead_write_apart _ (.inl (by omega))]
      exact ih hlt

/-- No byte beside them changes. -/
theorem memGet_memSideBySide {n x : Nat} (hx : x < a ∨ a + n * z ≤ x) : memGet (memSideBySide m a z n code) x = memGet m x := by
  induction n with
  | zero => rfl
  | succ n ih =>
    rw [Nat.succ_mul] at hx
    rw [memSideBySide_succ, memGet_write, length_leBytes, if_neg (by omega)]
    exact ih (by omega)

end sideBySide

/-! ### Stores of a view (R63, R167, R361) -/

/-- Where no store depends on the bytes before it, the gathered writes are those of the points one after another. -/
theorem gatherWrites_of_stores {l : List (View × Pt × Nat)} {w : View × Pt × Nat → Nat × Bytes}
    (h : ∀ q ∈ l, ∀ m, q.1.store m q.2.1 q.2.2 = some (w q)) (mem : SMap Byte) : gatherWrites mem l = l.map w := by
  have hfold : ∀ (l : List (View × Pt × Nat)) (acc : List (Nat × Bytes) × SMap Byte), (∀ q ∈ l, ∀ m, q.1.store m q.2.1 q.2.2 = some (w q)) →
      (l.foldl (fun (acc : List (Nat × Bytes) × SMap Byte) q => match q.1.store acc.2 q.2.1 q.2.2 with
        | some x => (acc.1 ++ [x], memWrite acc.2 x.1 x.2)
        | none => acc) acc).1 = acc.1 ++ l.map w := by
    intro l
    induction l with
    | nil => intro acc _; exact (List.append_nil _).symm
    | cons q r ih =>
      intro acc hl
      rw [List.foldl_cons, hl q (List.mem_cons_self ..) acc.2, ih _ (fun p hp => hl p (List.mem_cons_of_mem _ hp)), List.map_cons]
      simp
  exact (hfold l ([], mem) h).trans (List.nil_append _)

/-- A point of a view that is neither packed nor dead is stored as its bytes, where they lie in the region. -/
theorem View.store_of_inside {v : View} {p : Pt} (hf : tFmt v.t ≠ .int4) (hd : v.dead = false)
    (hin : v.inside (v.base + (tOff v.t p).1) (max 1 (tFmt v.t).size) = true) (m : SMap Byte) (code : Nat) :
    v.store m p code = some ((v.base + (tOff v.t p).1).toNat, leBytes (max 1 (tFmt v.t).size) code) := by
  unfold View.store
  simp [hf, hd, hin]

/-- A view without slips is live (R376). -/
theorem Task.view_alive (k : Task) (i : Nat) (writing : Bool) : (k.view i writing []).dead = false := by
  simp [Task.view]

/-- The points of a tensor of one dimension are its flat indices. -/
theorem tPt_of_row {t : Rec} (h1 : tSize t 1 = 1) (h2 : tSize t 2 = 1) {f : Nat} (hf : f < tSize t 0) : tPt t f = ⟨f, 0, 0, 0⟩ := by
  unfold tPt ptOf
  rw [h1, h2, Nat.mul_one, Nat.mul_one, Nat.mod_eq_of_lt hf, Nat.div_eq_of_lt hf]

theorem tOff_of_row {t : Rec} (hf : tFmt t ≠ .int4) (f : Nat) : (tOff t ⟨f, 0, 0, 0⟩).1 = f * tStride t 0 := by
  unfold tOff
  simp [hf]

end Sys2Proof.Machine
end

section
/-! The issue of an engine's word (R70, R164), and what the end of an operation leaves of cisterns and of what keeps a job quiet (R240, R361, R376). -/

namespace Sys2Proof.Machine

/-! ### Issue -/

@[simp] theorem Dev.accBytes_clocked (d : Dev) (c t : Nat) (m : SMap Nat) (cycle : Nat) (issued : Bool) (y : Who) (word : Nat) :
    (d.clocked c t m cycle issued).accBytes y word = d.accBytes y word := by
  have hdesc : ((d.clocked c t m cycle issued).tk y).desc = (d.tk y).desc := funext (fun n => Dev.desc_clocked ..)
  unfold Dev.accBytes
  dsimp only
  rw [hdesc]

/-- The place of a word among the held ones: its wait's, or behind them all. -/
def Dev.placeOf (d : Dev) (w : Who) : Nat := match (d.tk w).wait with
  | some x => x.order
  | none => d.holds

/-- A held word of another task that was issued before one. -/
theorem Dev.mem_ahead {d : Dev} {w y : Who} {cores : Nat → Bool} : y ∈ d.ahead w cores ↔
    ∃ x ∈ d.cores, cores x.1 = true ∧ ∃ k ∈ x.2.tasks, (!(x.1 == w.core && k.1 == w.task)) = true ∧
      k.2.wait.any (fun z => decide (z.order < d.placeOf w)) = true ∧ (⟨x.1, k.1, k.2.pc⟩ : Who) = y := by
  unfold Dev.ahead
  simp only [List.mem_flatMap, List.mem_map, List.mem_filter, Bool.and_eq_true]
  constructor
  · rintro ⟨x, ⟨hx, hc⟩, k, ⟨hk, hown, hwait⟩, rfl⟩
    exact ⟨x, hx, hc, k, hk, hown, hwait, rfl⟩
  · rintro ⟨x, hx, hc, k, hk, hown, hwait, rfl⟩
    exact ⟨x, ⟨hx, hc⟩, k, ⟨hk, hown, hwait⟩, rfl⟩

/-- The clock of a task is none of the words that stand before its own. -/
theorem Dev.mem_ahead_of_clocked {d : Dev} {c t i : Nat} {m : SMap Nat} {cycle : Nat} {issued : Bool} {y : Who} {cores : Nat → Bool}
    (h : y ∈ (d.clocked c t m cycle issued).ahead ⟨c, t, i⟩ cores) : y ∈ d.ahead ⟨c, t, i⟩ cores := by
  obtain ⟨x, hx, hc, k, hk, hown, hwait, rfl⟩ := Dev.mem_ahead.mp h
  have hplace : (d.clocked c t m cycle issued).placeOf ⟨c, t, i⟩ = d.placeOf ⟨c, t, i⟩ := by
    unfold Dev.placeOf Dev.tk
    rw [Dev.wait_clocked]
    rfl
  rw [hplace] at hwait
  rcases mem_mset _ _ _ _ hx with rfl | hx
  · rcases mem_mset _ _ _ _ hk with rfl | hk
    · simp at hown
    · cases hcore : mget d.cores c with
      | none =>
        have hreset : ({ d with cntNow := m } : Dev).core c = Core.reset := congrArg (·.getD Core.reset) hcore
        rw [hreset] at hk
        cases hk
      | some z =>
        have hz : ({ d with cntNow := m } : Dev).core c = z := congrArg (·.getD Core.reset) hcore
        rw [hz] at hk
        exact Dev.mem_ahead.mpr ⟨(c, z), mem_of_mget _ _ _ hcore, hc, k, hk, hown, hwait, rfl⟩
  · exact Dev.mem_ahead.mpr ⟨x, hx, hc, k, hk, hown, hwait, rfl⟩

/-- A word whose engine is free finds it free at its issue. -/
theorem Dev.engineHeld_clocked {d : Dev} {c t i word : Nat} (h : d.engineHeld ⟨c, t, i⟩ word = false) (m : SMap Nat) (cycle : Nat) (issued : Bool) :
    (d.clocked c t m cycle issued).engineHeld ⟨c, t, i⟩ word = false := by
  unfold Dev.engineHeld at h ⊢
  dsimp only at h ⊢
  split at h
  next h0 => rw [if_pos h0]
  next h0 =>
    rw [if_neg h0]
    rw [List.any_eq_false] at h ⊢
    intro y hy
    have := h y (Dev.mem_ahead_of_clocked hy)
    simpa only [Dev.wordAt_clocked, Dev.accBytes_clocked] using this

/-- An engine's word that its task can issue runs in the state of the issue. -/
theorem issueD_of_issues {op : Nat} {core : Fin 256} {task : Fin 8} {word : Nat} {s : State} (hi : Issues op core task word s) (ev : EngEv) (now : Nat) :
    issueD op core task ev now s.dev = (s.dev.clocked core task s.dev.cntNow ((s.dev.task core task).issueAt word).lastCycle true).runWord
      ⟨core, task, (s.dev.task core task).pc⟩ word ev now := by
  obtain ⟨-, hruns, hword, hop, hwait⟩ := hi
  unfold issueD
  rw [hword]
  dsimp only
  rw [if_neg (by simp [hop, hruns, hwait])]
  rfl

/-- A word is the one at its task's place. -/
theorem wordAt_of_issues {op : Nat} {core : Fin 256} {task : Fin 8} {word : Nat} {s : State} (hi : Issues op core task word s) :
    s.dev.wordAt core task (s.dev.task core task).pc = word := by
  obtain ⟨-, -, hword, -, -⟩ := hi
  unfold Dev.curWordOf at hword
  dsimp only at hword
  split at hword
  · exact Option.some.inj hword
  · cases hword

/-- A word whose engine is free and whose effect goes through is done. -/
theorem Dev.runWord_of_free {d e : Dev} {w : Who} {word : Nat} {ev : EngEv} {now : Nat} (hfree : d.engineHeld w word = false)
    (h : wordEffect d w word ev now = .done e) : d.runWord w word ev now = (e.countStall w.core word ev.lost).wordDone w word := by
  unfold Dev.runWord
  rw [if_neg (by rw [hfree]; decide), h]

theorem Dev.count_zero (d : Dev) (off lo : Nat) : d.count off lo 0 = d := if_pos rfl

theorem Dev.countStall_zero (d : Dev) (c word : Nat) : d.countStall c word 0 = d := by
  unfold Dev.countStall
  rw [Dev.count_zero, Dev.count_zero, ite_self, ite_self]

/-- An engine that nothing disturbs marks nothing. -/
theorem Dev.evMark_none (d : Dev) (w : Who) : d.evMark w ⟨0, .none⟩ = d := by
  unfold Dev.evMark Dev.evSeen Dev.engEvent
  exact Dev.count_zero _ _ _

/-! ### What keeps a job quiet -/

/-- `e` has no open generation of a job that `d` has not, and the tasks and descriptors of `d`. -/
structure Dev.AsQuiet (d e : Dev) : Prop where
  specOpen : ∀ p ∈ e.streams, p.2.specOpen = true → ∃ q ∈ d.streams, q.2.job = p.2.job ∧ q.2.specOpen = true
  tasks : ∀ j, (e.job j).tasks = (d.job j).tasks
  task : ∀ c t, (e.task c t).descs = (d.task c t).descs ∧ (e.task c t).job = (d.task c t).job

namespace Dev.AsQuiet
variable {d e f : Dev}

theorem refl (d : Dev) : d.AsQuiet d := ⟨fun p hp ho => ⟨p, hp, rfl, ho⟩, fun _ => rfl, fun _ _ => ⟨rfl, rfl⟩⟩

theorem trans (h : d.AsQuiet e) (h' : e.AsQuiet f) : d.AsQuiet f where
  specOpen p hp ho := by
    obtain ⟨q, hq, hjob, hopen⟩ := h'.specOpen p hp ho
    obtain ⟨r, hr, hjob', hopen'⟩ := h.specOpen q hq hopen
    exact ⟨r, hr, hjob'.trans hjob, hopen'⟩
  tasks j := (h'.tasks j).trans (h.tasks j)
  task c t := ⟨(h'.task c t).1.trans (h.task c t).1, (h'.task c t).2.trans (h.task c t).2⟩

theorem foldl {α : Type} (f : Dev → α → Dev) (l : List α) (d : Dev) (h : ∀ (e : Dev) a, e.AsQuiet (f e a)) : d.AsQuiet (l.foldl f d) :=
  foldl_keep (d.AsQuiet ·) f l d (refl d) (fun e a _ he => he.trans (h e a))

/-- A change of cores that keeps the descriptors and jobs of their tasks, or of nothing that belongs to cores, jobs and streams. -/
theorem of_tasks (ht : ∀ c t, (e.task c t).descs = (d.task c t).descs ∧ (e.task c t).job = (d.task c t).job) (hj : e.jobs = d.jobs)
    (hs : e.streams = d.streams) : d.AsQuiet e :=
  ⟨fun p hp ho => ⟨p, hs ▸ hp, rfl, ho⟩, fun j => by unfold Dev.job; rw [hj], ht⟩

theorem onCore (d : Dev) (c : Nat) (f : Core → Core) (hf : ∀ x, (f x).tasks = x.tasks) : d.AsQuiet (d.onCore c f) :=
  of_tasks (fun x t => by rw [d.task_onCore hf c x t]; exact ⟨rfl, rfl⟩) rfl rfl

theorem onTask (d : Dev) (c t : Nat) (f : Task → Task) (hf : ∀ k, (f k).descs = k.descs ∧ (f k).job = k.job) : d.AsQuiet (d.onTask c t f) := by
  refine of_tasks (fun x y => ?_) rfl rfl
  by_cases h : (x, y) = (c, t)
  · cases h
    rw [Dev.task_onTask]
    exact hf _
  · rw [Dev.task_onTask_ne _ _ _ _ _ _ h]
    exact ⟨rfl, rfl⟩

theorem clocked (d : Dev) (c t : Nat) (m : SMap Nat) (cycle : Nat) (issued : Bool) : d.AsQuiet (d.clocked c t m cycle issued) :=
  of_tasks (fun x y => ⟨d.task_clocked_proj c t m cycle issued Task.descs (fun _ _ _ => rfl) x y, Dev.taskJob_clocked ..⟩) rfl rfl

theorem count (d : Dev) (off lo n : Nat) : d.AsQuiet (d.count off lo n) := by
  obtain ⟨m, h⟩ := d.count_eq off lo n
  rw [h]
  exact of_tasks (fun _ _ => ⟨rfl, rfl⟩) rfl rfl

theorem raise (d : Dev) (x : Err) : d.AsQuiet (d.raise x) := by
  obtain ⟨b, o, m, h⟩ := d.raise_cases x
  rw [h]
  exact of_tasks (fun _ _ => ⟨rfl, rfl⟩) rfl rfl

/-- A change of a stream's items. -/
theorem onStream (d : Dev) (h : Nat) (f : Stream → Stream) (hf : ∀ x, (f x).job = x.job ∧ (f x).specOpen = x.specOpen) : d.AsQuiet (d.onStream h f) where
  specOpen p hp ho := by
    rcases mem_mset _ _ _ _ hp with rfl | hp
    · have hopen : (d.stream h).specOpen = true := (hf (d.stream h)).2.symm.trans ho
      cases hget : mget d.streams h with
      | none =>
        have hreset : d.stream h = Stream.reset := congrArg (·.getD Stream.reset) hget
        rw [hreset] at hopen
        cases hopen
      | some x =>
        have hx : d.stream h = x := congrArg (·.getD Stream.reset) hget
        exact ⟨(h, x), mem_of_mget _ _ _ hget, by rw [(hf _).1, hx], by rw [← hx]; exact hopen⟩
    · exact ⟨p, hp, rfl, ho⟩
  tasks _ := rfl
  task _ _ := ⟨rfl, rfl⟩

theorem onRunning (d : Dev) (n : Nat) (hs : List Nat) (f : Item → Item) : d.AsQuiet (d.onRunning n hs f) :=
  foldl _ hs d (fun e h => onStream e h _ (fun _ => ⟨rfl, rfl⟩))

theorem failItems (d : Dev) (x : Err) (n : Nat) (hs : List Nat) (ring : Option Nat) : d.AsQuiet (d.failItems x n hs ring) :=
  (onRunning d n hs _).trans (raise _ _)

theorem boundFault (d : Dev) (w : Who) (round n : Nat) : d.AsQuiet (d.boundFault w round n) := by
  unfold Dev.boundFault
  split
  · exact refl d
  · exact (count d _ _ _).trans (failItems _ _ _ _ _)

theorem ringMove (d : Dev) (c t : Nat) (slips : List (Nat × Bool)) (u : Nat × Bool) : d.AsQuiet (d.ringMove c t slips u) := by
  unfold Dev.ringMove
  split
  · refine trans ?_ (onTask _ c t _ (fun _ => ⟨rfl, rfl⟩))
    exact onCore d c _ (fun _ => rfl)
  · exact refl d

/-- The end of an operation that no slot slips and that meets no bad word. -/
theorem opDone (d : Dev) (w : Who) (reads writes : List Nat) (o : OpOut) (hbad : (d.core w.core).bad = []) : d.AsQuiet (d.opDone w reads writes [] o) := by
  have hmet : ∀ vs, (d.core w.core).badFor vs = [] := fun vs => by
    unfold Core.badFor Core.badWords
    rw [hbad]
    rfl
  unfold Dev.opDone
  dsimp only
  rw [hmet, List.foldl_nil]
  refine trans ?_ (boundFault _ _ _ _)
  refine trans ?_ (foldl _ _ _ (fun x u => ringMove x w.core w.task [] u))
  refine trans (trans (onCore d w.core (·.storeAll o.writes) (fun _ => rfl)) (onTask _ _ _ _ ?_)) (count _ _ _ _)
  exact fun _ => ⟨rfl, rfl⟩

theorem walkDescs (h : d.AsQuiet e) (c t : Nat) : e.walkDescs c t = d.walkDescs c t := by
  unfold Dev.walkDescs Task.desc
  rw [(h.task c t).1]

theorem quiet (h : d.AsQuiet e) {j : Nat} (hq : Quiet d j) : Quiet e j := by
  rcases hq with hclosed | hnone
  · refine .inl fun p hp hj => Bool.eq_false_iff.mpr fun ho => ?_
    obtain ⟨q, hq, hjob, hopen⟩ := h.specOpen p hp ho
    rw [hclosed q hq (hjob.trans hj)] at hopen
    cases hopen
  · refine .inr fun q hq => ?_
    rw [h.walkDescs]
    exact hnone q (by rwa [h.tasks] at hq)

end Dev.AsQuiet

/-! ### The bytes that an operation leaves -/

/-- Beside its writes the end of an operation changes no byte of a cistern. -/
theorem Dev.mem_opDone (d : Dev) (w : Who) (reads writes : List Nat) (slips : List (Nat × Bool)) (o : OpOut) (x : Nat) :
    ((d.opDone w reads writes slips o).core x).mem = ((d.onCore w.core (·.storeAll o.writes)).core x).mem := by
  have hring : ∀ (e : Dev) u, ((e.ringMove w.core w.task slips u).core x).mem = (e.core x).mem := fun e u => by
    unfold Dev.ringMove
    split
    · rw [Dev.mem_onTask]
      by_cases hx : x = w.core
      · subst hx; rw [Dev.core_onCore]; rfl
      · rw [Dev.core_onCore_ne _ _ _ _ hx]
    · rfl
  have hbound : ∀ e : Dev, e.Aside (e.boundFault w (d.tk w).progRound o.lost) := fun e => by
    unfold Dev.boundFault
    split
    · exact .refl e
    · exact (Dev.Aside.count e _ _ _).trans (.failItems _ _ _ _ _)
  have hslip : ∀ e : Dev, e.Aside (slips.foldl (fun d u => d.slip w u.1) e) := fun e => .foldl _ slips e (fun x u _ => .detect _ _ _ _ _ _ _)
  unfold Dev.opDone
  dsimp only
  refine (Dev.Aside.mem (.eccReadFor _ _ _ _ _ _) x).trans (((hbound _).mem x).trans (((hslip _).mem x).trans ?_))
  refine (foldl_proj (fun e : Dev => (e.core x).mem) _ _ _ (fun e u _ => hring e u)).trans ?_
  exact ((Dev.Aside.count _ _ _ _).mem x).trans (Dev.mem_onTask ..)

/-- Positions counted in twins change sequences alone, where the job's tasks keep no records (R240, R252). -/
theorem Dev.specTrack_of_no_walks {d : Dev} {w : Who} (h : ∀ q ∈ (d.job (d.tk w).job).tasks, d.walkDescs q.1 q.2 = []) (ws : List Nat) :
    ∃ sq, d.specTrack w ws = { d with seqs := sq } := by
  have hrows : ∀ e : Dev, (∃ sq, e = { d with seqs := sq }) → ∃ sq, (if e.seqs == d.seqs then e else e.writeSeqs (d.tk w).job) = { d with seqs := sq } := by
    rintro e ⟨sq, rfl⟩
    have hkeep : ({ d with seqs := sq } : Dev).writeSeqs (d.tk w).job = { d with seqs := sq } := Dev.writeSeqs_of_no_walks h
    exact ⟨sq, by rw [hkeep, ite_self]⟩
  unfold Dev.specTrack
  dsimp only
  split
  · exact ⟨d.seqs, rfl⟩
  · refine hrows _ (foldl_keep (fun e : Dev => ∃ sq, e = { d with seqs := sq }) _ _ d ⟨d.seqs, rfl⟩ fun e p _ he => ?_)
    refine foldl_keep (fun e : Dev => ∃ sq, e = { d with seqs := sq }) _ _ e he fun e l _ he => ?_
    obtain ⟨sq, rfl⟩ := he
    split <;> exact ⟨_, rfl⟩

/-- Nor do they change anything where the job has no open generation. -/
theorem Dev.specTrack_of_closed {d : Dev} {w : Who} (h : ∀ p ∈ d.streams, p.2.job = (d.tk w).job → p.2.specOpen = false) (ws : List Nat) :
    d.specTrack w ws = d := by
  have hopen : d.streams.filter (fun p => p.2.job == (d.tk w).job && p.2.specOpen) = [] := by
    rw [List.filter_eq_nil_iff]
    intro p hp
    simp only [Bool.and_eq_true, beq_iff_eq, not_and]
    exact fun hj => by rw [h p hp hj]; decide
  unfold Dev.specTrack
  dsimp only
  rw [hopen]
  rfl

/-- A word of a quiet job writes no byte beside its effect (R240, R252). -/
theorem Dev.mem_wordDone_of_quiet {d : Dev} {w : Who} (h : Quiet d (d.tk w).job) (word x : Nat) : ((d.wordDone w word).core x).mem = (d.core x).mem := by
  have htrack : ∀ ws, ((d.specTrack w ws).core x).mem = (d.core x).mem := fun ws => by
    rcases h with hclosed | hnone
    · rw [Dev.specTrack_of_closed hclosed]
    · obtain ⟨sq, hsq⟩ := Dev.specTrack_of_no_walks hnone ws
      rw [hsq]
      rfl
  unfold Dev.wordDone
  dsimp only
  rw [Dev.mem_onTask]
  split
  · rfl
  · exact htrack _

end Sys2Proof.Machine
end

section
/-! CONVERT (R123, R125), and what it settles: O37. -/

namespace Sys2Proof.Machine

/-- A field of two clear bits. -/
theorem bit_of_bits_two {n : Nat} (h : bits n 0 2 = 0) : bit n 0 = false ∧ bit n 1 = false := by
  have hbit : ∀ i, i < 2 → n.testBit i = false := fun i hi => by
    have := testBit_bits n 0 2 i
    rw [h, Nat.zero_testBit, Nat.zero_add] at this
    simpa [hi] using this.symm
  exact ⟨hbit 0 (by decide), hbit 1 (by decide)⟩

theorem Core.readable_of_clean {x : Core} (h : x.bad = []) : x.readable = x.mem := by
  unfold Core.readable
  rw [h]
  rfl

/-- The code that a conversion without MAP stores at a point (R125). -/
def Dev.convCode (d : Dev) (c t : Nat) (r : Rec) (vs vd : View) (p : Pt) : Nat :=
  (convOne (d.task c t).strict (tFmt vd.t) (fld r 5 1 == 0) none false (d.rmOf c t (fld r 4 1) (fld r 6 1) (tSize vd.t) p)
    (vs.val (d.task c t).strict (d.core c).mem p)).code

/-- A core whose element engine a task's descriptor has used last. -/
def Dev.eleBy (d : Dev) (c t desc : Nat) : Dev := d.onCore c (fun x => { x with eleLast := ⟨c, t, desc, 2, false⟩ })

theorem Dev.core_eleBy (d : Dev) (c t desc : Nat) : (d.eleBy c t desc).core c = { d.core c with eleLast := ⟨c, t, desc, 2, false⟩ } := Dev.core_onCore ..

theorem Dev.asQuiet_eleBy (d : Dev) (c t desc : Nat) : d.AsQuiet (d.eleBy c t desc) := .onCore d c _ (fun _ => rfl)

section convert
variable {s : State} {core : Fin 256} {task : Fin 8} {word : Nat} {r : Rec} {vs vd : View} (hr : r = (s.dev.task core task).desc (wDesc word))
  (hvs : vs = (s.dev.task core task).view (fld r 0 2) false []) (hvd : vd = (s.dev.task core task).view (fld r 2 2) true [])
  (hfree : Unheld s.dev core task [fld r 0 2] [fld r 2 2]) (hslips : slipsOf s.dev core task [fld r 0 2] [fld r 2 2] = [])
  (hplain : bits (fld r 7 1) 0 2 = 0) (hbad : (s.dev.core core).bad = [])
include hr hvs hvd hfree hslips hplain hbad

/-- A conversion that nothing holds or disturbs, without MAP and STATS, is an operation that writes the code of each point of its destination. -/
theorem convertW_of_plain (i : Nat) (m : SMap Nat) (cycle : Nat) (issued : Bool) :
    ∃ out, convertW (s.dev.clocked core task m cycle issued) ⟨core, task, i⟩ (wDesc word) ⟨0, .none⟩ =
        .done (((s.dev.clocked core task m cycle issued).eleBy core task (wDesc word)).opDone ⟨core, task, i⟩ [fld r 0 2] [fld r 2 2] [] out) ∧
      out.writes = gatherWrites (s.dev.core core).mem ((List.range (tCount vd.t)).map (fun f =>
        (vd, tPt vd.t f, s.dev.convCode core task r vs vd (tPt vd.t f)))) := by
  obtain ⟨hstats, hmap⟩ := bit_of_bits_two hplain
  have hdesc : ((s.dev.clocked core task m cycle issued).tk ⟨core, task, i⟩).desc (wDesc word) = r := (Dev.desc_clocked ..).trans hr.symm
  have hmem : (s.dev.clocked core task m cycle issued).evBad core ⟨0, .none⟩ = (s.dev.core core).mem :=
    (Dev.readable_clocked ..).trans (Core.readable_of_clean hbad)
  unfold convertW
  dsimp only
  rw [hdesc, Dev.opTest_of_unheld hfree, hslips]
  simp only [hstats, hmap, hmem, Dev.tk, Dev.view_clocked, Dev.strict_clocked, Dev.rmOf_clocked, Bool.false_eq_true, if_false, Option.map_none, Bool.false_and,
    Dev.evMark_none, ← hvs, ← hvd]
  refine ⟨_, rfl, ?_⟩
  dsimp only
  rw [List.map_map]
  rfl

/-- Issued in a quiet job, it leaves in its core's cistern the bytes that it writes, and no others. -/
theorem convert_exec (hi : Issues 0x07 core task word s) (hquiet : Quiet s.dev (s.dev.task core task).job) :
    ∃ u, exec (.convert core task ⟨0, .none⟩) s = .next u ∧ Keeps s u ∧
      (u.dev.core core).mem = (gatherWrites (s.dev.core core).mem ((List.range (tCount vd.t)).map (fun f =>
        (vd, tPt vd.t f, s.dev.convCode core task r vs vd (tPt vd.t f))))).foldl (fun m w => memWrite m w.1 w.2) (s.dev.core core).mem := by
  obtain ⟨hup, -, -, hop, -⟩ := id hi
  have hengine := hfree.2.2
  rw [wordAt_of_issues hi] at hengine
  generalize hcycle : ((s.dev.task core task).issueAt word).lastCycle = cycle
  obtain ⟨out, heffect, hwrites⟩ := convertW_of_plain hr hvs hvd hfree hslips hplain hbad (s.dev.task core task).pc s.dev.cntNow cycle true
  generalize he : (s.dev.clocked core task s.dev.cntNow cycle true).eleBy core task (wDesc word) = e at heffect
  have hlast : s.dev.AsQuiet e := he ▸ (Dev.AsQuiet.clocked ..).trans (Dev.asQuiet_eleBy ..)
  have hcore : (e.core core).mem = (s.dev.core core).mem ∧ (e.core core).bad = [] := by
    rw [← he, Dev.core_eleBy]
    exact ⟨Dev.mem_clocked .., (Dev.bad_clocked ..).trans hbad⟩
  have hkept := hlast.trans (.opDone e ⟨core, task, (s.dev.task core task).pc⟩ [fld r 0 2] [fld r 2 2] out hcore.2)
  have hdone : wordEffect (s.dev.clocked core task s.dev.cntNow cycle true) ⟨core, task, (s.dev.task core task).pc⟩ word ⟨0, .none⟩ 0 =
      .done (e.opDone ⟨core, task, (s.dev.task core task).pc⟩ [fld r 0 2] [fld r 2 2] [] out) := by
    unfold wordEffect
    rw [hop]
    exact heffect
  have hrun := issueD_of_issues hi ⟨0, .none⟩ 0
  rw [hcycle, Dev.runWord_of_free (Dev.engineHeld_clocked hengine _ _ _) hdone, Dev.countStall_zero] at hrun
  have hexec := onUp_of_up s (issueD 0x07 core task ⟨0, .none⟩ 0) hup
  rw [hrun] at hexec
  refine ⟨_, hexec, ⟨rfl, rfl⟩, ?_⟩
  dsimp only
  rw [Dev.mem_wordDone_of_quiet (by unfold Dev.tk; rw [(hkept.task core task).2]; exact hkept.quiet hquiet), Dev.mem_opDone, Dev.core_onCore, ← hwrites]
  exact congrArg (fun m => out.writes.foldl (fun m w => memWrite m w.1 w.2) m) hcore.1

end convert

/-- The stores of a tensor of one dimension whose elements lie side by side in its region. -/
theorem gatherWrites_of_row {v : View} {n : Nat} (hf : tFmt v.t ≠ .int4) (hdead : v.dead = false) (hz : 0 < (tFmt v.t).size) (h0 : tSize v.t 0 = n)
    (h1 : tSize v.t 1 = 1) (h2 : tSize v.t 2 = 1) (h3 : tSize v.t 3 = 1) (hstride : tStride v.t 0 = ((tFmt v.t).size : Nat)) (hbase : 0 ≤ v.base)
    (hin : v.inside v.base (n * (tFmt v.t).size) = true) (code : Pt → Nat) (mem : SMap Byte) :
    gatherWrites mem ((List.range (tCount v.t)).map (fun f => (v, tPt v.t f, code (tPt v.t f)))) =
      sideBySide v.base.toNat (tFmt v.t).size n (fun f => code ⟨f, 0, 0, 0⟩) := by
  have hcount : tCount v.t = n := by
    unfold tCount
    rw [h0, h1, h2, h3, Nat.mul_one, Nat.mul_one, Nat.mul_one]
  have hpts : (List.range n).map (fun f => (v, tPt v.t f, code (tPt v.t f))) = (List.range n).map (fun f => (v, (⟨f, 0, 0, 0⟩ : Pt), code ⟨f, 0, 0, 0⟩)) :=
    List.map_congr_left fun f hmem => by rw [tPt_of_row h1 h2 (by rw [h0]; exact List.mem_range.mp hmem)]
  obtain ⟨hlo, hhi⟩ : (v.lo : Int) ≤ v.base ∧ v.base + (n * (tFmt v.t).size : Nat) ≤ v.hi := by simpa [View.inside] using hin
  have hmax : max 1 (tFmt v.t).size = (tFmt v.t).size := by omega
  rw [hcount, hpts, gatherWrites_of_stores (w := fun q => (v.base.toNat + q.2.1.i0 * (tFmt v.t).size, leBytes (tFmt v.t).size q.2.2)), List.map_map]
  · rfl
  · rintro q hq m
    obtain ⟨f, hmem, rfl⟩ := List.mem_map.mp hq
    have hlt : f * (tFmt v.t).size + (tFmt v.t).size ≤ n * (tFmt v.t).size := by
      rw [← Nat.succ_mul]
      exact Nat.mul_le_mul_right _ (List.mem_range.mp hmem)
    have hoff : (tOff v.t ⟨f, 0, 0, 0⟩).1 = (f * (tFmt v.t).size : Nat) := by rw [tOff_of_row hf, hstride, Nat.cast_mul]
    dsimp only
    rw [View.store_of_inside hf hdead ?_, hoff, hmax]
    · congr 2
      omega
    · rw [hoff, hmax]
      unfold View.inside
      simp only [Bool.and_eq_true, decide_eq_true_eq]
      omega

end Sys2Proof.Machine

open Sys2Proof Sys2Proof.Machine

/-- Settles O37: the conversion writes the codes of its points side by side, and a quiet job writes no other byte. -/
theorem convertStoresConvertedValues : Obligations.ConvertStoresConvertedValues := by
  unfold Obligations.ConvertStoresConvertedValues
  intro core task word n r td vs vd s hi hr htd hfree hslips hvs hvd hquiet hplain hf _ hz h0 h1 h2 h3 hstride hin hbad
  have ht : vd.t = td := by rw [hvd, htd]; rfl
  obtain ⟨u, hexec, hkeeps, hmem⟩ := convert_exec hr hvs hvd hfree hslips hplain hbad hi hquiet
  rw [← ht] at hf hz h0 h1 h2 h3 hstride hin ⊢
  rw [gatherWrites_of_row hf (by rw [hvd]; exact Task.view_alive ..) hz h0 h1 h2 h3 hstride (by rw [hvd]; exact Int.natCast_nonneg _) hin] at hmem
  refine ⟨u, hexec, hkeeps, fun f hlt => ?_, fun a ha => ?_⟩
  · rw [hmem]
    exact memRead_memSideBySide _ _ _ _ hlt
  · rw [hmem]
    exact memGet_memSideBySide _ _ _ _ ha

end

section
/-! The weight relay: RELAY and the flits at a port (R154 to R158, R371), and what they settle: O40. -/

namespace Sys2Proof.Machine

/-! ### The end of any word that is followed by the next one -/

/-- Positions counted in twins leave every task's course. -/
theorem Dev.sameCourse_specTrack (d : Dev) (w : Who) (ws : List Nat) (c t : Nat) : d.SameCourse (d.specTrack w ws) c t := by
  have hrows : ∀ e : Dev, d.SameCourse e c t → d.SameCourse (if e.seqs == d.seqs then e else e.writeSeqs (d.tk w).job) c t := fun e he => by
    split
    · exact he
    · exact he.trans ((Dev.Beside.writeSeqs e _).course c t)
  unfold Dev.specTrack
  dsimp only
  split
  · exact .refl d c t
  · refine hrows _ (foldl_keep (d.SameCourse · c t) _ _ d (.refl d c t) fun e p _ he => ?_)
    refine foldl_keep (d.SameCourse · c t) _ _ e he fun e l _ he => ?_
    split
    · exact he.trans (.of_jobs rfl rfl rfl rfl rfl rfl rfl)
    · exact he

/-- A word that names no next word steers its task to the next one, whatever it stores, if its effect kept the task's course. -/
theorem steers_wordDone_of_plain {d e : Dev} {c t i word : Nat} (h : d.SameCourse e c t) (hplain : steersItself (wOpcode word) = false) :
    Steers d c t ((e.wordDone ⟨c, t, i⟩ word).task c t) ((d.task c t).pc + 1) := by
  have hsteer : ∀ f : Dev, d.SameCourse f c t →
      Steers d c t ((f.onTask c t (fun _ => { f.nextTask ⟨c, t, i⟩ word with wait := none })).task c t) ((d.task c t).pc + 1) := fun f hf => by
    rw [Dev.task_onTask, f.nextTask_of_plain _ _ hplain]
    refine ⟨rfl, fun hs hy => ?_⟩
    rw [Dev.skipSpan_of_open f _ _ ((hf.shed i).trans hs) ((hf.yields i).trans hy), ← hf.pc]
    exact (Task.goTo_jumps _ _).congr hf.loop.symm rfl rfl
  unfold Dev.wordDone
  dsimp only
  split
  · exact hsteer e h
  · exact hsteer _ (h.trans (e.sameCourse_specTrack _ _ c t))

/-- Beside its effect a word of a quiet job changes sequences and its own task alone (R240, R252). -/
theorem Dev.wordDone_of_quiet {d : Dev} {w : Who} (h : Quiet d (d.tk w).job) (word : Nat) :
    ∃ sq k, d.wordDone w word = ({ d with seqs := sq } : Dev).onTask w.core w.task (fun _ => k) := by
  have htrack : ∀ ws, ∃ sq, d.specTrack w ws = { d with seqs := sq } := fun ws => by
    rcases h with hclosed | hnone
    · exact ⟨d.seqs, Dev.specTrack_of_closed hclosed ws⟩
    · exact Dev.specTrack_of_no_walks hnone ws
  unfold Dev.wordDone
  dsimp only
  split
  · exact ⟨d.seqs, _, rfl⟩
  · obtain ⟨sq, hsq⟩ := htrack (wordTensors (d.tk w).desc (d.tk w).gate word).2
    rw [hsq]
    exact ⟨sq, _, rfl⟩

section quiet
variable {d : Dev} {w : Who} (h : Quiet d (d.tk w).job) (word x : Nat)
include h

/-- What it leaves of every core. -/
theorem Dev.wordDone_proj_of_quiet {α : Type} (g : Core → α) (hg : ∀ y m, g { y with tasks := m } = g y) : g ((d.wordDone w word).core x) = g (d.core x) := by
  obtain ⟨sq, k, hdone⟩ := d.wordDone_of_quiet h word
  rw [hdone]
  exact Dev.onTask_proj g hg _ _ _ _ _

/-- … and the other cores as they are. -/
theorem Dev.core_wordDone_of_quiet_ne (hx : x ≠ w.core) : (d.wordDone w word).core x = d.core x := by
  obtain ⟨sq, k, hdone⟩ := d.wordDone_of_quiet h word
  rw [hdone]
  exact Dev.core_onTask_ne _ _ _ _ _ hx

end quiet

/-! ### Changes of a core -/

/-- A change of a core is what it makes of the core that stands there. -/
theorem Dev.onCore_congr {d : Dev} {c : Nat} {f g : Core → Core} (h : f (d.core c) = g (d.core c)) : d.onCore c f = d.onCore c g :=
  congrArg (d.setCore c) h

/-- A change of a core's relay alone. -/
def Dev.onRelay (d : Dev) (c : Nat) (f : Relay → Relay) : Dev := d.onCore c (fun x => { x with relay := f x.relay })

@[simp] theorem Dev.core_onRelay (d : Dev) (c : Nat) (f : Relay → Relay) : (d.onRelay c f).core c = { d.core c with relay := f (d.core c).relay } :=
  Dev.core_onCore ..

@[simp] theorem Dev.core_onRelay_ne (d : Dev) (c x : Nat) (f : Relay → Relay) (h : x ≠ c) : (d.onRelay c f).core x = d.core x :=
  Dev.core_onCore_ne _ _ _ _ h

@[simp] theorem Dev.mem_onRelay (d : Dev) (c x : Nat) (f : Relay → Relay) : ((d.onRelay c f).core x).mem = (d.core x).mem := by
  by_cases h : x = c
  · subst h
    rw [Dev.core_onRelay]
  · rw [Dev.core_onRelay_ne _ _ _ _ h]

/-- A change that finds its core as it would leave it changes no core. -/
theorem Dev.core_onCore_of_fixed {d : Dev} {c : Nat} {f : Core → Core} (h : f (d.core c) = d.core c) (x : Nat) : (d.onCore c f).core x = d.core x := by
  by_cases hx : x = c
  · subst hx
    rw [Dev.core_onCore, h]
  · exact Dev.core_onCore_ne _ _ _ _ hx

@[simp] theorem Dev.core_count (d : Dev) (off lo n x : Nat) : (d.count off lo n).core x = d.core x := by
  obtain ⟨m, h⟩ := d.count_eq off lo n
  rw [h]
  rfl

/-! ### Buffered flits (R158, R371) -/

theorem Core.tasks_flushFlits (x : Core) : x.flushFlits.tasks = x.tasks :=
  foldl_proj Core.tasks _ _ x fun y f _ => by split <;> rfl

/-- An empty buffer leaves nothing to land. -/
theorem Core.flushFlits_of_empty {x : Core} (h : x.relay.buf = []) : x.flushFlits = x := by
  unfold Core.flushFlits
  rw [h, List.foldl_nil]

/-- Landing a flit writes its bytes at their place of the take's destination (R156). -/
theorem Core.memGet_takeFlit (x : Core) (t : Take) (num : Nat) (data : Bytes) (a : Nat) : memGet (x.takeFlit t num data).mem a =
    if t.dst + 512 * (num - t.first) ≤ a ∧ a < t.dst + 512 * (num - t.first) + data.length then data.getD (a - (t.dst + 512 * (num - t.first))) 0
    else memGet x.mem a :=
  memGet_write ..

/-- A take's fault is a detection. -/
theorem Dev.Aside.takeFault (d : Dev) (code c t lo hi b : Nat) : d.Aside (d.takeFault code c t lo hi b) := detect _ _ _ _ _ _ _

/-! ### RELAY (R156, R157) -/

/-- Whatever waits in the buffer and went by before, RELAY keeps the course of every task. -/
theorem relayW_beside (d : Dev) (w : Who) (desc : Nat) : ∃ e, relayW d w desc = .done e ∧ d.Beside e := by
  refine ⟨_, rfl, .trans ?_ (.of_aside (.ite (.refl _) ((Dev.Aside.count _ _ _ _).trans (.takeFault _ _ _ _ _ _ _))))⟩
  refine .trans (.onCore d w.core _ ?_) (.of_aside (.eccReadFor _ _ _ _ _ _))
  exact fun _ => Core.tasks_flushFlits _

/-- The flit that the head of a chain injects as number i of a pass, from the bytes at `src` (R155, R156). -/
def RFlit.injected (m : SMap Byte) (src : Nat) (r : Rec) (pass i : Nat) : RFlit :=
  { head := rkHead r, tail := rkTail r, pass := pass, num := i, data := memRead m (src + 512 * i) 512, crc := crc32c (memRead m (src + 512 * i) 512)
    last := decide (i + 1 = rkFlits r) }

/-- The take that a RELAY word begins when no flit of it has gone by (R157). -/
def Take.begun (task dst : Nat) (r : Rec) (pass : Nat) : Take :=
  { task := task, head := rkHead r, pass := pass, first := rkFirst r, count := rkCount r, dst := dst, got := 0, bad := false, late := false }

@[simp] theorem Dev.relay_clocked (d : Dev) (c t : Nat) (m : SMap Nat) (cycle : Nat) (issued : Bool) (x : Nat) :
    ((d.clocked c t m cycle issued).core x).relay = (d.core x).relay :=
  d.core_clocked_proj c t m cycle issued Core.relay (fun _ _ => rfl) x

/-- At a port that nothing has passed, over clean words, RELAY changes the port alone: its flits join those in flight, and its take begins. -/
theorem relayW_of_idle {d : Dev} {c t desc : Nat} {t0 r : Rec} (ht0 : t0 = (d.task c t).desc desc) (hr : r = (d.task c t).desc (desc + 1))
    (hbuf : (d.core c).relay.buf = []) (hpast : (d.core c).relay.past = []) (hbad : (d.core c).bad = []) (m : SMap Nat) (cycle : Nat) (issued : Bool) (i : Nat) :
    ∃ pass rl, relayW (d.clocked c t m cycle issued) ⟨c, t, i⟩ desc = .done ((d.clocked c t m cycle issued).onRelay c (fun _ => rl)) ∧
      rl.inbox = (d.core c).relay.inbox ++
        (if rkRole r = 1 then (List.range (rkFlits r)).map (RFlit.injected (d.core c).readable ((d.task c t).base + rkSrc r) r pass) else []) ∧
      rl.takes = (d.core c).relay.takes.filter (fun y => decide (y.got < y.count)) ++
        (if rkCount r = 0 then [] else [Take.begun t ((d.task c t).base + tAddr t0) r pass]) := by
  have hlost : ∀ head pass n first k, min ((d.core c).relay.pastOf head pass).gone n - first - k = 0 := fun head pass n first k => by
    have hgone : ((d.core c).relay.pastOf head pass).gone = 0 := by
      unfold Relay.pastOf
      rw [hpast]
      rfl
    omega
  unfold relayW Dev.tk
  dsimp only
  simp only [Dev.desc_clocked, Dev.base_clocked, Dev.progRound_clocked, Dev.readable_clocked, Dev.relay_clocked, ← ht0, ← hr]
  rw [Core.badWords_of_clean ((Dev.bad_clocked ..).trans hbad)]
  simp only [hlost, ite_self, Dev.eccRead_nil, true_or, if_true]
  generalize passNo (d.task c t).progRound _ = pass
  refine ⟨pass, ⟨_, [], [], _, mset (d.core c).relay.passes (rkHead r) pass⟩, congrArg WRes.done (Dev.onCore_congr ?_), rfl, rfl⟩
  rw [Core.flushFlits_of_empty (by rw [Dev.relay_clocked, hbuf, List.filter_nil]), Dev.relay_clocked, hbuf, hpast]
  rfl

/-- A RELAY word that its task can issue takes effect in the state of the issue, and its task goes on. -/
theorem relay_exec {core : Fin 256} {task : Fin 8} {e : TaskEv} {word : Nat} {s : State} (he : Undisturbed e task) (hi : Issues 0x03 core task word s) :
    ∃ m cycle, ∀ d1, relayW (s.dev.clocked core task m cycle true) ⟨core, task, (s.dev.task core task).pc⟩ (wDesc word) = .done d1 →
      exec (.relay core e) s = .next { s with dev := d1.wordDone ⟨core, task, (s.dev.task core task).pc⟩ word } := by
  obtain ⟨m, cycle, hrun⟩ := issued_exec he hi
  obtain ⟨-, -, -, hop, -⟩ := hi
  refine ⟨m, cycle, fun d1 hd1 => ?_⟩
  have heffect : wordEffect (s.dev.clocked core task m cycle true) ⟨core, task, (s.dev.task core task).pc⟩ word evNone 0 = .done d1 := by
    unfold wordEffect
    rw [hop]
    exact hd1
  rw [Dev.runWord_done (by rw [hop]; rfl) heffect] at hrun
  exact hrun

/-- The task of a RELAY word goes on with the next word. -/
theorem relay_steers (core : Fin 256) (s : State) (task : Fin 8) (e : TaskEv) (word : Nat) (he : Undisturbed e task) (hi : Issues 0x03 core task word s) :
    ∃ t, exec (.relay core e) s = .next t ∧ Keeps s t ∧ Steers s.dev core task (t.dev.task core task) ((s.dev.task core task).pc + 1) := by
  obtain ⟨m, cycle, hexec⟩ := relay_exec he hi
  obtain ⟨d1, hd1, hbeside⟩ := relayW_beside (s.dev.clocked core task m cycle true) ⟨core, task, (s.dev.task core task).pc⟩ (wDesc word)
  obtain ⟨-, -, -, hop, -⟩ := hi
  refine ⟨_, hexec d1 hd1, ⟨rfl, rfl⟩, ?_⟩
  exact steers_wordDone_of_plain ((s.dev.sameCourse_clocked core task m cycle true).trans (hbeside.course core task)) (by rw [hop]; rfl)

/-- In a quiet job RELAY at an idle port changes no byte and no other core; its core's port is as its effect leaves it. -/
theorem relay_of_idle {core : Fin 256} {s : State} {task : Fin 8} {e : TaskEv} {word : Nat} {t0 r : Rec} (he : Undisturbed e task)
    (hi : Issues 0x03 core task word s) (hquiet : Quiet s.dev (s.dev.task core task).job) (ht0 : t0 = (s.dev.task core task).desc (wDesc word))
    (hr : r = (s.dev.task core task).desc (wDesc word + 1)) (hbuf : (s.dev.core core).relay.buf = []) (hpast : (s.dev.core core).relay.past = [])
    (hbad : (s.dev.core core).bad = []) :
    ∃ t pass, exec (.relay core e) s = .next t ∧ Keeps s t ∧ (∀ x, (t.dev.core x).mem = (s.dev.core x).mem) ∧
      (∀ x, x ≠ core.val → t.dev.core x = s.dev.core x) ∧
      (t.dev.core core).relay.inbox = (s.dev.core core).relay.inbox ++ (if rkRole r = 1 then
        (List.range (rkFlits r)).map (RFlit.injected (s.dev.core core).readable ((s.dev.task core task).base + rkSrc r) r pass) else []) ∧
      (t.dev.core core).relay.takes = (s.dev.core core).relay.takes.filter (fun y => decide (y.got < y.count)) ++
        (if rkCount r = 0 then [] else [Take.begun task ((s.dev.task core task).base + tAddr t0) r pass]) := by
  obtain ⟨m, cycle, hexec⟩ := relay_exec he hi
  obtain ⟨pass, rl, hd1, hinbox, htakes⟩ := relayW_of_idle ht0 hr hbuf hpast hbad m cycle true (s.dev.task core task).pc
  generalize hg : (s.dev.clocked core task m cycle true).onRelay core (fun _ => rl) = g at hd1
  have hkept : s.dev.AsQuiet g := hg ▸ (Dev.AsQuiet.clocked ..).trans (.onCore _ _ _ fun _ => rfl)
  have hstill : Quiet g (g.tk ⟨core, task, (s.dev.task core task).pc⟩).job := by
    unfold Dev.tk
    rw [(hkept.task core task).2]
    exact hkept.quiet hquiet
  have hrelay : ((g.wordDone ⟨core, task, (s.dev.task core task).pc⟩ word).core core).relay = rl := by
    rw [Dev.wordDone_proj_of_quiet hstill word core Core.relay (fun _ _ => rfl), ← hg, Dev.core_onRelay]
  refine ⟨_, pass, hexec g hd1, ⟨rfl, rfl⟩, fun x => ?_, fun x hx => ?_, (congrArg Relay.inbox hrelay).trans hinbox,
    (congrArg Relay.takes hrelay).trans htakes⟩
  · dsimp only
    rw [Dev.mem_wordDone_of_quiet hstill, ← hg, Dev.mem_onRelay, Dev.mem_clocked]
  · dsimp only
    rw [Dev.core_wordDone_of_quiet_ne hstill _ _ hx, ← hg, Dev.core_onRelay_ne _ _ _ _ hx]
    exact Dev.core_onTask_ne _ _ _ _ _ hx

/-! ### A flit at a port (R155, R157, R158, R371) -/

/-- The next core of a chain is another one. -/
theorem coreAtPos_succ_ne (c : Fin 256) : coreAtPos (c.val / 64) (chainPos c + 1) ≠ c.val := by
  unfold coreAtPos chainPos
  dsimp only
  split <;> split <;> omega

/-- A port before its oldest flit is looked at: buffered flits whose takes have begun have landed, unless their write still waits (R371). -/
def Dev.flushed (d : Dev) (c : Nat) (ev : FlitEv) : Dev :=
  (if ev.waits then d else d.onCore c Core.flushFlits).count (coreOff c + 0x1820) 0 ev.lost

/-- The oldest flit leaves a port and goes on to the next core while its tail lies further on (R155); the last one of a pass counts. -/
def Dev.passOn (d : Dev) (c : Nat) (f : RFlit) (rest : List RFlit) : Dev :=
  let d1 := d.onRelay c (fun x => { x with inbox := rest })
  let d2 := if chainPos c < f.tail ∧ f.head ≤ chainPos c then
      d1.onRelay (coreAtPos (c / 64) (chainPos c + 1)) (fun x => { x with inbox := x.inbox ++ [f] })
    else d1
  if f.last then d2.count (coreOff c + 0x4C0) 16 1 else d2

/-- RELAY_FLIT of a flit that a begun take wants. -/
theorem relayFlitD_of_wanted {d : Dev} {c : Nat} {ev : FlitEv} {f : RFlit} {rest : List RFlit} {k : Take}
    (hin : ((d.flushed c ev).core c).relay.inbox = f :: rest)
    (htake : (((d.flushed c ev).passOn c f rest).core c).relay.takes.find? (fun t => t.wants f.head f.pass f.num) = some k) :
    relayFlitD c ev d = takenFlitD c f k ev ((d.flushed c ev).passOn c f rest) := by
  unfold relayFlitD
  dsimp only
  split
  next h => cases h.symm.trans hin
  next g l h =>
    cases h.symm.trans hin
    split
    next t ht =>
      cases ht.symm.trans htake
      rfl
    next ht => cases ht.symm.trans htake

/-- With nothing in the buffer no core changes before the oldest flit. -/
theorem Dev.core_flushed {d : Dev} {c : Nat} {ev : FlitEv} (h : ev.waits = true ∨ (d.core c).relay.buf = []) (x : Nat) :
    (d.flushed c ev).core x = d.core x := by
  unfold Dev.flushed
  rw [Dev.core_count]
  split
  next => rfl
  next hw => exact Dev.core_onCore_of_fixed (Core.flushFlits_of_empty (h.resolve_left hw)) x

theorem Dev.flushed_rest (d : Dev) (c : Nat) (ev : FlitEv) : (d.flushed c ev).err = d.err ∧ (d.flushed c ev).streams = d.streams := by
  unfold Dev.flushed
  rw [Dev.count_err, Dev.count_streams]
  split <;> exact ⟨rfl, rfl⟩

section passOn
variable (d : Dev) (c : Fin 256) (f : RFlit) (rest : List RFlit)

/-- The port has lost its oldest flit and nothing else. -/
theorem Dev.core_passOn : (d.passOn c f rest).core c = { d.core c with relay := { (d.core c).relay with inbox := rest } } := by
  unfold Dev.passOn
  rw [apply_ite (fun e : Dev => e.core c), Dev.core_count, ite_self]
  split
  · rw [Dev.core_onRelay_ne _ _ _ _ (coreAtPos_succ_ne c).symm, Dev.core_onRelay]
  · rw [Dev.core_onRelay]

theorem Dev.inbox_passOn_next (htail : chainPos c < f.tail) (hhead : f.head ≤ chainPos c) :
    ((d.passOn c f rest).core (coreAtPos (c.val / 64) (chainPos c + 1))).relay.inbox =
      (d.core (coreAtPos (c.val / 64) (chainPos c + 1))).relay.inbox ++ [f] := by
  unfold Dev.passOn
  rw [apply_ite (fun e : Dev => e.core _), Dev.core_count, ite_self, if_pos ⟨htail, hhead⟩, Dev.core_onRelay, Dev.core_onRelay_ne _ _ _ _ (coreAtPos_succ_ne c)]

theorem Dev.mem_passOn (x : Nat) : ((d.passOn c f rest).core x).mem = (d.core x).mem := by
  unfold Dev.passOn
  rw [apply_ite (fun e : Dev => e.core x), Dev.core_count, ite_self]
  split
  · rw [Dev.mem_onRelay, Dev.mem_onRelay]
  · rw [Dev.mem_onRelay]

theorem Dev.passOn_rest : (d.passOn c f rest).err = d.err ∧ (d.passOn c f rest).streams = d.streams := by
  unfold Dev.passOn
  split <;> split <;> simp only [Dev.count_err, Dev.count_streams] <;> exact ⟨rfl, rfl⟩

end passOn

/-- A flit whose write waits goes behind those in the buffer, which has room (R371). -/
theorem takenFlitD_of_waiting {d : Dev} {c : Nat} (f : RFlit) (t : Take) (lost : Nat) (h : (d.core c).relay.buf.length < 16) :
    takenFlitD c f t ⟨true, lost, true⟩ d = d.onRelay c (fun x => { x with buf := x.buf ++ [f] }) := by
  unfold takenFlitD
  dsimp only
  rw [if_pos rfl, if_pos h]
  rfl

/-- The bytes that a take stores of a flit: zeros when its CRC is bad (R156). -/
def RFlit.stored (f : RFlit) (crcOk : Bool) : Bytes := if crcOk then f.data else zeros 512

/-- A flit whose write does not wait lands in its take; a bad CRC is a detection beside that (R158). -/
theorem takenFlitD_of_landing (d : Dev) (c : Nat) (f : RFlit) (t : Take) (crcOk : Bool) (lost : Nat) :
    ∃ e, takenFlitD c f t ⟨crcOk, lost, false⟩ d = e ∧ (d.onCore c (·.takeFlit t f.num (f.stored crcOk))).Aside e ∧
      (crcOk = true → e = d.onCore c (·.takeFlit t f.num (f.stored crcOk))) := by
  refine ⟨_, rfl, ?_⟩
  cases crcOk with
  | true => exact ⟨.refl _, fun _ => rfl⟩
  | false => exact ⟨.takeFault _ _ _ _ _ _ _, nofun⟩

theorem RFlit.stored_length (f : RFlit) (crcOk : Bool) : (f.stored crcOk).length = if crcOk then f.data.length else 512 := by
  cases crcOk with
  | true => rfl
  | false => exact List.length_replicate

theorem RFlit.stored_getD (f : RFlit) (crcOk : Bool) (i : Nat) : (f.stored crcOk).getD i 0 = if crcOk then f.data.getD i 0 else 0 := by
  cases crcOk with
  | true => rfl
  | false => exact List.getD_eq_getElem?_getD.trans (List.getElem?_getD_replicate_default_eq ..)

/-- At a core in service RELAY_FLIT has its effect. -/
theorem relayFlit_exec {core : Fin 256} {s : State} (hup : s.dev.coreUp core = true) (ev : FlitEv) :
    exec (.relayFlit core ev) s = .next { s with dev := relayFlitD core ev s.dev } := by
  show onDev s (fun d => if d.coreUp core.val then relayFlitD core.val ev d else d) = _
  unfold onDev
  dsimp only
  rw [if_pos hup]

section wanted
variable {core : Fin 256} {s : State} {f : RFlit} {rest : List RFlit} {k : Take} (hin : (s.dev.core core).relay.inbox = f :: rest)
  (htake : (s.dev.core core).relay.takes.find? (fun t => t.wants f.head f.pass f.num) = some k)
include hin htake

/-- A wanted flit is taken in the state in which its port has passed it on. -/
theorem relayFlitD_taken {ev : FlitEv} (hbuf : ev.waits = true ∨ (s.dev.core core).relay.buf = []) :
    relayFlitD core ev s.dev = takenFlitD core f k ev ((s.dev.flushed core ev).passOn core f rest) := by
  refine relayFlitD_of_wanted (by rw [Dev.core_flushed hbuf, hin]) ?_
  rw [Dev.core_passOn, Dev.core_flushed hbuf]
  exact htake

/-- A wanted flit whose write waits goes from the port into the buffer. -/
theorem relayFlit_waits (lost : Nat) (hup : s.dev.coreUp core = true) (hroom : (s.dev.core core).relay.buf.length < 16) :
    ∃ t, exec (.relayFlit core ⟨true, lost, true⟩) s = .next t ∧ Keeps s t ∧ (t.dev.core core).relay.inbox = rest ∧
      (t.dev.core core).relay.buf = (s.dev.core core).relay.buf ++ [f] ∧ (t.dev.core core).relay.takes = (s.dev.core core).relay.takes ∧
      (∀ x, (t.dev.core x).mem = (s.dev.core x).mem) ∧ t.dev.err = s.dev.err := by
  have hwait : (⟨true, lost, true⟩ : FlitEv).waits = true ∨ (s.dev.core core).relay.buf = [] := .inl rfl
  have hport := Dev.core_passOn (s.dev.flushed core ⟨true, lost, true⟩) core f rest
  rw [Dev.core_flushed hwait] at hport
  refine ⟨_, relayFlit_exec hup _, ⟨rfl, rfl⟩, ?_⟩
  dsimp only
  rw [relayFlitD_taken hin htake hwait, takenFlitD_of_waiting f k lost (by rw [hport]; exact hroom), Dev.core_onRelay, hport]
  refine ⟨rfl, rfl, rfl, fun x => ?_, (Dev.passOn_rest ..).1.trans (Dev.flushed_rest ..).1⟩
  rw [Dev.mem_onRelay, Dev.mem_passOn, Dev.core_flushed hwait]

/-- A wanted flit that does not wait lands in its take, beside what its port passes on. -/
theorem relayFlit_lands (crcOk : Bool) (lost : Nat) (hup : s.dev.coreUp core = true) (hbuf : (s.dev.core core).relay.buf = []) :
    ∃ t, exec (.relayFlit core ⟨crcOk, lost, false⟩) s = .next t ∧ Keeps s t ∧ (t.dev.core core).relay.inbox = rest ∧
      (chainPos core < f.tail → f.head ≤ chainPos core → (t.dev.core (coreAtPos (core.val / 64) (chainPos core + 1))).relay.inbox =
        (s.dev.core (coreAtPos (core.val / 64) (chainPos core + 1))).relay.inbox ++ [f]) ∧
      (∀ a, memGet (t.dev.core core).mem a =
        if k.dst + 512 * (f.num - k.first) ≤ a ∧ a < k.dst + 512 * (f.num - k.first) + (f.stored crcOk).length then
          (f.stored crcOk).getD (a - (k.dst + 512 * (f.num - k.first))) 0
        else memGet (s.dev.core core).mem a) ∧
      (∀ x, x ≠ core.val → (t.dev.core x).mem = (s.dev.core x).mem) ∧
      (crcOk = true → t.dev.err = s.dev.err ∧ t.dev.streams = s.dev.streams) := by
  have hidle : (⟨crcOk, lost, false⟩ : FlitEv).waits = true ∨ (s.dev.core core).relay.buf = [] := .inr hbuf
  have hcore := Dev.core_flushed hidle
  obtain ⟨herr, hstreams⟩ := s.dev.flushed_rest core ⟨crcOk, lost, false⟩
  generalize hp : (s.dev.flushed core ⟨crcOk, lost, false⟩).passOn core f rest = p
  have hport : p.core core = { s.dev.core core with relay := { (s.dev.core core).relay with inbox := rest } } := by rw [← hp, Dev.core_passOn, hcore]
  have hmem : ∀ x, (p.core x).mem = (s.dev.core x).mem := fun x => by rw [← hp, Dev.mem_passOn, hcore]
  obtain ⟨e, he, haside, hgood⟩ := takenFlitD_of_landing p core f k crcOk lost
  have hrelay : ∀ x, (e.core x).relay.inbox = ((p.onCore core (·.takeFlit k f.num (f.stored crcOk))).core x).relay.inbox :=
    haside.core_proj (·.relay.inbox) (fun _ _ _ => rfl)
  refine ⟨_, relayFlit_exec hup _, ⟨rfl, rfl⟩, ?_⟩
  dsimp only
  rw [relayFlitD_taken hin htake hidle, hp, he]
  refine ⟨?_, fun htail hhead => ?_, fun a => ?_, fun x hx => ?_, fun hok => ?_⟩
  · rw [hrelay, Dev.core_onCore, hport]
    rfl
  · rw [hrelay, Dev.core_onCore_ne _ _ _ _ (coreAtPos_succ_ne core), ← hp, Dev.inbox_passOn_next _ _ _ _ htail hhead, hcore]
  · rw [haside.mem, Dev.core_onCore, Core.memGet_takeFlit, hmem]
  · rw [haside.mem, Dev.core_onCore_ne _ _ _ _ hx, hmem]
  · rw [hgood hok, ← hp]
    exact ⟨(Dev.passOn_rest ..).1.trans herr, (Dev.passOn_rest ..).2.trans hstreams⟩

end wanted

end Sys2Proof.Machine

open Sys2Proof Sys2Proof.Machine

/-- Settles O40, clause by clause: what RELAY leaves of its task and, at an idle port, of its core, then a wanted flit whose write waits or lands. -/
theorem relayPassesWeightsOn : Obligations.RelayPassesWeightsOn := by
  unfold Obligations.RelayPassesWeightsOn
  intro core s
  refine ⟨relay_steers core s, ?_, ?_, ?_⟩
  · intro task e word t0 r he hi hquiet ht0 hr hbuf hpast hbad
    obtain ⟨t, pass, hexec, hkeeps, hmem, hother, hinbox, htakes⟩ := relay_of_idle he hi hquiet ht0 hr hbuf hpast hbad
    refine ⟨t, hexec, hkeeps, hmem, hother, fun hrole => ?_, fun hrole => ?_, fun hcount => ?_⟩
    · rw [hinbox, if_neg hrole, List.append_nil]
    · rw [if_pos hrole] at hinbox
      refine ⟨by rw [hinbox, List.length_append, List.length_map, List.length_range], fun i hi => ⟨RFlit.injected _ _ r pass i, ?_, rfl, rfl, rfl, rfl, rfl⟩⟩
      rw [hinbox, List.getElem?_append_right (Nat.le_add_right _ _), Nat.add_sub_cancel_left, List.getElem?_map, List.getElem?_range hi]
      rfl
    · rw [if_neg (by omega)] at htakes
      exact ⟨_, htakes, rfl, rfl, rfl, rfl, rfl⟩
  · exact fun f rest k lost hup hin htake hroom => relayFlit_waits hin htake lost hup hroom
  · intro f rest k crcOk lost hup hin htake hbuf
    obtain ⟨t, hexec, hkeeps, hinbox, hnext, hbytes, hother, hgood⟩ := relayFlit_lands hin htake crcOk lost hup hbuf
    refine ⟨t, hexec, hkeeps, hinbox, hnext, fun a => ?_, hother, hgood⟩
    rw [hbytes, RFlit.stored_length, RFlit.stored_getD]

end

section
/-! A state that refutes O35, evaluated by the model. -/

namespace Sys2Proof.Machine.Counter

/-- A plain tensor of one BF16 element at an offset of the task's region. -/
def oneElement (addr : Byte) : Rec := recOf ([addr, 0, 0, 0, 0, 0, 0, 0, 1, 2, 0, 0xFF, 0, 0, 0, 0] ++ (List.replicate 8 [1, 0, 0, 0]).flatten)

/-- A Peat tensor of one BF16 element: its index at 256, its blocks from 4096 on, where the region of `running` ends. -/
def peatBeyond : Rec := recOf ([0, 16, 0, 0, 0, 0, 0, 0, 1, 2, 1, 0xFF, 0, 0, 0, 0] ++ (List.replicate 8 [1, 0, 0, 0]).flatten ++ [0, 1])

/-- A matrix run of K = M = N = 1 with CLEAR and DRAIN; the gate program of descriptor 3, without bias and gate, stores it into descriptor 4. -/
def drainsBeyond : Dev :=
  running (2 * 2 ^ 31) { Task.reset with
    descs := [recOf [1, 0, 2, 0, 1, 3, 0, 0, 1, 0, 0, 0, 1, 0, 0, 0, 1], oneElement 64, oneElement 128, recOf [4, 0, 0xFF, 0xFF, 0xFF, 0xFF], peatBeyond]
    gate := some 3 } Job.reset

end Sys2Proof.Machine.Counter

open Sys2Proof Sys2Proof.Machine

/-- Refutes O35: a drain places the blocks of a Peat OUT tensor one after another from its ADDRESS (R426) and tests no region, so that one into a tensor
which begins where the task's region ends stores behind it. R79 refuses such an image, but the statement is about every state. -/
theorem not_matrixRunsAccumulate : ¬ Obligations.MatrixRunsAccumulate := by
  unfold Obligations.MatrixRunsAccumulate
  intro h
  have hissues : Issues 0x02 0 0 (2 * 2 ^ 31) (Counter.state Counter.drainsBeyond) := by unfold Issues; decide +kernel
  obtain ⟨hdrain, -⟩ := h 0 0 _ ⟨0, .none⟩ _ _ hissues rfl
  obtain ⟨t, hnext, -, -, -, -, hframe⟩ := hdrain 2 3 [] _ _ (by decide +kernel) rfl (by decide +kernel) (by decide +kernel)
    (by unfold Unheld; decide +kernel) (by decide +kernel) rfl (by decide +kernel) (by decide +kernel)
  obtain ⟨-, hkept⟩ := hframe (.inr (by decide +kernel))
  have hbyte := hkept 0 4096 (.inr (.inr (by decide +kernel)))
  have hstored : Counter.leaves (.matRun 0 0 ⟨0, .none⟩) (Counter.state Counter.drainsBeyond) (fun d => memGet (d.core 0).mem 4096 == 4) = true := by
    decide +kernel
  rw [Counter.leaves_next hnext, beq_iff_eq, hbyte] at hstored
  exact absurd hstored (by decide +kernel)

end

section
/-! BRANCH: the sign that it compares with zero (R189), and what it settles: O29. -/

namespace Sys2Proof.Machine

/-! ### The sign of a summary register (R188, R189) -/

/-- What BRANCH compares with zero: an INT32 value, the sign of an FP32 one, and nothing for a NaN. -/
def branchSign (v : Nat × Bool) : Option Int :=
  if v.2 then (match f32 v.1 with
    | .nan _ _ => none
    | .zero _ => some 0
    | x => some (if x.neg then -1 else 1))
  else some (sext 32 v.1)

/-- The condition codes of R72 on such a sign. -/
def signMeets (x : Option Int) (cond : Nat) : Bool := match x with
  | none => cond == 1
  | some s =>
    if cond = 0 then s == 0 else if cond = 1 then s != 0 else if cond = 2 then decide (s < 0) else if cond = 3 then decide (0 ≤ s)
    else if cond = 4 then decide (0 < s) else if cond = 5 then decide (s ≤ 0) else false

theorem branchTaken_eq (v : Nat × Bool) (cond : Nat) : branchTaken v cond = signMeets (branchSign v) cond := rfl

theorem signMeets_some (x : Int) {cond : Nat} (hc : cond ≤ 5) : signMeets (some x) cond = true ↔
    (x = 0 → cond = 0 ∨ cond = 3 ∨ cond = 5) ∧ (0 < x → cond = 1 ∨ cond = 3 ∨ cond = 4) ∧ (x < 0 → cond = 1 ∨ cond = 2 ∨ cond = 5) := by
  unfold signMeets
  interval_cases cond <;> simp <;> omega

theorem signMeets_none (cond : Nat) : signMeets none cond = true ↔ cond = 1 := beq_iff_eq

/-- An FP32 code by its fields (R99). -/
theorem f32_eq (c : Nat) : f32 c =
    if c / 2 ^ 23 % 2 ^ 8 = 0 then
      if c % 2 ^ 23 = 0 then .zero (decide (c / 2 ^ 31 % 2 = 1))
      else .num (if decide (c / 2 ^ 31 % 2 = 1) then -((c % 2 ^ 23 : Nat) : Int) else (c % 2 ^ 23 : Nat)) (1 - 127 - (23 : Nat))
    else if c / 2 ^ 23 % 2 ^ 8 = 2 ^ 8 - 1 then
      if c % 2 ^ 23 = 0 then .inf (decide (c / 2 ^ 31 % 2 = 1)) else .nan (decide (c / 2 ^ 31 % 2 = 1)) (c % 2 ^ 23 * 2 ^ (23 - 23))
    else .num (if decide (c / 2 ^ 31 % 2 = 1) then -((2 ^ 23 + c % 2 ^ 23 : Nat) : Int) else (2 ^ 23 + c % 2 ^ 23 : Nat))
      ((c / 2 ^ 23 % 2 ^ 8 : Nat) - 127 - (23 : Nat)) := rfl

/-- The sign of an FP32 code by its magnitude: beyond infinity it is a NaN, and both zeros are zero. -/
theorem branchSign_float {c : Nat} (hc : c < 2 ^ 32) : branchSign (c, true) =
    if 0x7F800000 < c % 2 ^ 31 then none else if c % 2 ^ 31 = 0 then some 0 else some (if c < 2 ^ 31 then 1 else -1) := by
  have hneg : decide (c / 2 ^ 31 % 2 = 1) = decide (¬ c < 2 ^ 31) := decide_eq_decide.mpr (by omega)
  have hnum : ∀ (m : Nat) (x : Int), 0 < m → (if (Val.num (if decide (¬ c < 2 ^ 31) then -(m : Int) else m) x).neg then (-1 : Int) else 1) =
      if c < 2 ^ 31 then 1 else -1 := fun m x hm => by
    unfold Val.neg
    grind
  unfold branchSign
  dsimp only
  rw [if_pos rfl, f32_eq, hneg]
  by_cases hex : c / 2 ^ 23 % 2 ^ 8 = 0
  · rw [if_pos hex, if_neg (show ¬ 0x7F800000 < c % 2 ^ 31 by omega)]
    by_cases hman : c % 2 ^ 23 = 0
    · rw [if_pos hman, if_pos (show c % 2 ^ 31 = 0 by omega)]
    · rw [if_neg hman, if_neg (show ¬ c % 2 ^ 31 = 0 by omega)]
      exact congrArg some (hnum _ _ (by omega))
  · rw [if_neg hex, if_neg (show ¬ c % 2 ^ 31 = 0 by omega)]
    by_cases htop : c / 2 ^ 23 % 2 ^ 8 = 2 ^ 8 - 1
    · rw [if_pos htop]
      by_cases hman : c % 2 ^ 23 = 0
      · rw [if_pos hman, if_neg (show ¬ 0x7F800000 < c % 2 ^ 31 by omega)]
        unfold Val.neg
        grind
      · rw [if_neg hman, if_pos (show 0x7F800000 < c % 2 ^ 31 by omega)]
    · rw [if_neg htop, if_neg (show ¬ 0x7F800000 < c % 2 ^ 31 by omega)]
      exact congrArg some (hnum _ _ (by omega))

theorem branchSign_int {c : Nat} (hc : c < 2 ^ 32) : branchSign (c, false) = some (if c < 2 ^ 31 then (c : Int) else c - 2 ^ 32) := by
  unfold branchSign sext
  simp only [Bool.false_eq_true, if_false, Nat.mod_eq_of_lt hc]

/-- BRANCH takes its condition as R189 states it. -/
theorem branchTaken_iff {code cond : Nat} (isFp : Bool) (hcode : code < 2 ^ 32) (hcond : cond ≤ 5) :
    branchTaken (code, isFp) cond = true ↔ BranchHolds code isFp cond := by
  rw [branchTaken_eq]
  unfold BranchHolds
  cases isFp with
  | false =>
    rw [branchSign_int hcode, signMeets_some _ hcond, if_neg Bool.false_ne_true]
    by_cases hzero : code = 0
    · rw [if_pos hzero, if_pos (show code < 2 ^ 31 by omega)]
      omega
    · rw [if_neg hzero]
      split <;> omega
  | true =>
    rw [branchSign_float hcode, if_pos rfl]
    by_cases hnan : 0x7F800000 < code % 2 ^ 31
    · rw [if_pos hnan, if_pos hnan]
      exact signMeets_none cond
    · rw [if_neg hnan, if_neg hnan]
      by_cases hzero : code % 2 ^ 31 = 0
      · rw [if_pos hzero, if_pos hzero, signMeets_some _ hcond]
        omega
      · rw [if_neg hzero, if_neg hzero, signMeets_some _ hcond]
        split <;> omega

/-! ### The word -/

/-- A word that stores nothing steers its task to the word that it names. -/
theorem steers_wordDone_to {d e : Dev} {c t i word next : Nat} (h : d.SameCourse e c t) (htwin : storesNoTwin (wOpcode word) = true)
    (hnext : e.nextTask ⟨c, t, i⟩ word = e.skipSpan ⟨c, t, i⟩ ((e.task c t).goTo next)) :
    Steers d c t ((e.wordDone ⟨c, t, i⟩ word).task c t) next := by
  rw [Dev.wordDone_of_no_twin _ _ _ htwin, Dev.task_onTask, hnext]
  refine ⟨rfl, fun hs hy => ?_⟩
  rw [Dev.skipSpan_of_open e _ _ ((h.shed i).trans hs) ((h.yields i).trans hy)]
  exact (Task.goTo_jumps _ _).congr h.loop.symm rfl rfl

theorem Dev.nextTask_branch (d : Dev) {w : Who} {word : Nat} (hop : wOpcode word = 0x0E) : d.nextTask w word = d.skipSpan w ((d.tk w).goTo
    (if branchTaken (mgetD (d.tk w).sums (bits (wArgs word) 0 4) (0, false)) (brCond word) then (d.tk w).pc + 1 + brSkip word else (d.tk w).pc + 1)) := by
  rw [apply_ite (d.tk w).goTo]
  unfold Dev.nextTask
  rw [hop]
  rfl

/-- BRANCH changes its task's place alone, and goes where its condition says (R72, R189). -/
theorem branch_done {core : Fin 256} {task : Fin 8} {e : TaskEv} {word : Nat} {s : State} (he : Undisturbed e task) (hi : Issues 0x0E core task word s) :
    ∃ t, exec (.branch core e) s = .next t ∧ OnlyTask s t core task ∧ SameButPlace (s.dev.task core task) (t.dev.task core task) ∧
      IssuedAs (s.dev.task core task) (t.dev.task core task) word ∧ Steers s.dev core task (t.dev.task core task)
        (if branchTaken (mgetD (s.dev.task core task).sums (bits (wArgs word) 0 4) (0, false)) (brCond word) then
          (s.dev.task core task).pc + 1 + brSkip word else (s.dev.task core task).pc + 1) := by
  obtain ⟨m, d, hd, hexec, honly, hk⟩ := issued_runs he hi 0
  obtain ⟨-, -, -, hop, -⟩ := hi
  have htwin : storesNoTwin (wOpcode word) = true := by rw [hop]; rfl
  have hcourse := hk.sameCourse honly
  have hsums : (d.task core task).sums = (s.dev.task core task).sums := by rw [hk.eq]
  refine ⟨_, hexec, ?_⟩
  rw [Dev.runWord_done (d1 := d) (by rw [hop]; rfl) (by unfold wordEffect; rw [hop]; rfl)]
  refine ⟨onlyTask_wordDone honly htwin, sameButPlace_wordDone hk htwin, issuedAs_wordDone hk htwin, steers_wordDone_to hcourse htwin ?_⟩
  rw [d.nextTask_branch hop]
  unfold Dev.tk
  dsimp only
  rw [hsums, hcourse.pc]

end Sys2Proof.Machine

open Sys2Proof Sys2Proof.Machine

/-- Settles O29: the condition by the sign of the register, then the place that it chooses. -/
theorem branchComparesItsRegister : Obligations.BranchComparesItsRegister := by
  unfold Obligations.BranchComparesItsRegister
  intro core task e word code isFp s he hi hreg hcode hcond
  obtain ⟨t, hexec, honly, hsame, hissued, hsteers⟩ := branch_done he hi
  have htaken := branchTaken_iff isFp hcode hcond
  rw [hreg] at hsteers
  unfold brCond brSkip at hsteers
  refine ⟨t, hexec, honly, hsame, hissued, fun hholds => ?_, fun hfails => ?_⟩
  · rwa [if_pos (htaken.mpr hholds)] at hsteers
  · rwa [if_neg (fun h => hfails (htaken.mp h))] at hsteers

end

section
/-! What detections, stores and the end of an operation leave of open generations, cisterns, accumulators and the engines' marks (R165, R361, R540). -/

namespace Sys2Proof.Machine

/-! ### Detections open no generation and use no sampler (R329, R540, R546 to R549) -/

/-- `e` has no open generation of a job that `d` has not, and each slice's sampler was last used as in `d`. -/
structure Dev.Still (d e : Dev) : Prop where
  specOpen : ∀ p ∈ e.streams, p.2.specOpen = true → ∃ q ∈ d.streams, q.2.job = p.2.job ∧ q.2.specOpen = true
  smpLast : ∀ k, (e.slice k).smpLast = (d.slice k).smpLast

namespace Dev.Still
variable {d e f : Dev}

theorem refl (d : Dev) : d.Still d := ⟨fun p hp ho => ⟨p, hp, rfl, ho⟩, fun _ => rfl⟩

theorem trans (h : d.Still e) (h' : e.Still f) : d.Still f where
  specOpen p hp ho := by
    obtain ⟨q, hq, hjob, hopen⟩ := h'.specOpen p hp ho
    obtain ⟨r, hr, hjob', hopen'⟩ := h.specOpen q hq hopen
    exact ⟨r, hr, hjob'.trans hjob, hopen'⟩
  smpLast k := (h'.smpLast k).trans (h.smpLast k)

theorem ite {p : Prop} [Decidable p] (he : d.Still e) (hf : d.Still f) : d.Still (if p then e else f) := by
  split <;> assumption

theorem foldl {α : Type} (f : Dev → α → Dev) (l : List α) (d : Dev) (h : ∀ (e : Dev) a, e.Still (f e a)) : d.Still (l.foldl f d) :=
  foldl_keep (d.Still ·) f l d (refl d) (fun e a _ he => he.trans (h e a))

/-- A change of neither streams nor slices. -/
theorem of_units (hs : e.streams = d.streams) (hk : e.slices = d.slices) : d.Still e :=
  ⟨fun p hp ho => ⟨p, hs ▸ hp, rfl, ho⟩, fun k => by unfold Dev.slice; rw [hk]⟩

theorem raise (d : Dev) (x : Err) : d.Still (d.raise x) := of_units (d.raise_streams x) (d.raise_slices x)

theorem count (d : Dev) (off lo n : Nat) : d.Still (d.count off lo n) := of_units (d.count_streams off lo n) (d.count_slices off lo n)

theorem addAction (d : Dev) (a : Action) : d.Still (d.addAction a) := of_units (d.addAction_streams a) (d.addAction_slices a)

theorem onStream (d : Dev) (h : Nat) (f : Stream → Stream) (hf : ∀ x, (f x).job = x.job ∧ (f x).specOpen = x.specOpen) : d.Still (d.onStream h f) :=
  ⟨(Dev.AsQuiet.onStream d h f hf).specOpen, fun _ => rfl⟩

theorem onSlice (d : Dev) (k : Nat) (f : Slice → Slice) (hf : ∀ x, (f x).smpLast = x.smpLast) : d.Still (d.onSlice k f) := by
  refine ⟨fun p hp ho => ⟨p, hp, rfl, ho⟩, fun j => ?_⟩
  by_cases h : j = k
  · subst h
    rw [Dev.slice_onSlice, hf]
  · rw [Dev.slice_onSlice_ne _ _ _ _ h]

theorem onRunning (d : Dev) (n : Nat) (hs : List Nat) (f : Item → Item) : d.Still (d.onRunning n hs f) :=
  foldl _ hs d (fun e h => onStream e h _ (fun _ => ⟨rfl, rfl⟩))

theorem failItems (d : Dev) (x : Err) (n : Nat) (hs : List Nat) (ring : Option Nat) : d.Still (d.failItems x n hs ring) :=
  (onRunning d n hs _).trans (raise _ _)

theorem checkMinority (d : Dev) : d.Still d.checkMinority := by
  have hhalt : ∀ x : Dev, x.Still x.haltFabricJobs := fun x => foldl _ _ x (fun e j => by
    split
    · exact ite (of_units rfl rfl) (refl e)
    · exact refl e)
  unfold Dev.checkMinority
  refine ite (ite (refl d) (trans ?_ (hhalt _))) (ite (of_units rfl rfl) (refl d))
  exact of_units (d.raise_streams _) (d.raise_slices _)

theorem linkDown (l : Nat) (d : Dev) : d.Still (linkDownD l d) := by
  have hirq : ∀ x : Dev, x.Still (x.linkIrq l) := fun x => ite (of_units (x.vector_streams _) (x.vector_slices _)) (refl x)
  have htrain : ∀ x : Dev, x.Still (x.trainLink l) := fun x => ite (of_units rfl rfl) (of_units rfl rfl)
  have hadvert : ∀ x : Dev, x.Still x.advertise := fun x => of_units rfl rfl
  have hmap : ∀ x : Dev, x.Still x.reportMap := fun x => ite (of_units rfl rfl) (refl x)
  have hlost : ∀ x : Dev, x.Still x.lostParent := fun x => ite (of_units rfl rfl) (refl x)
  have hminority : ∀ x : Dev, x.Still (if x.tb.aligned then x.checkMinority else x) := fun x => ite (checkMinority x) (refl x)
  have hparent : ∀ x : Dev, x.Still (if x.tb.parent = l ∧ ¬ x.fabric.isRoot ∧ x.tb.aligned then x.lostParent else x) := fun x => ite (hlost x) (refl x)
  unfold linkDownD
  refine ite (refl d) (trans (trans ?_ (hminority _)) (hparent _))
  refine trans (trans (trans (trans (trans (trans ?_ (hirq _)) (count _ _ _ _)) (raise _ _)) (htrain _)) (hadvert _)) (hmap _)
  exact of_units rfl rfl

theorem containSlice (d : Dev) (s : Nat) : d.Still (d.containSlice s) := by
  have hlinks : ∀ (ls : List Nat) (x : Dev), x.Still (ls.foldl (fun d l => linkDownD l d) x) := fun ls x => foldl _ ls x (fun e l => linkDown l e)
  have hstop := onSlice d s (fun x => { x with state := .contained }) (fun _ => rfl)
  have hhalt : ∀ x : Dev, x.Still x.halt := fun x => of_units rfl rfl
  unfold Dev.containSlice
  dsimp only
  generalize hz : List.foldl (fun d l => linkDownD l d) _ _ = z
  have hdown : d.Still z := by
    rw [← hz]
    refine (hstop.trans ?_).trans (hlinks _ _)
    exact of_units rfl rfl
  exact ite (hdown.trans (hhalt z)) hdown

theorem retireCore (d : Dev) (c : Nat) : d.Still (d.retireCore c) := by
  unfold Dev.retireCore
  refine ite (refl d) (ite (trans ?_ (containSlice _ _)) ?_)
  all_goals exact of_units rfl rfl

theorem loseCore (d : Dev) (c code round : Nat) : d.Still (d.loseCore c code round) :=
  ite (refl d) (ite (((retireCore d c).trans (addAction _ _)).trans (addAction _ _)) ((retireCore d c).trans (addAction _ _)))

theorem loseSlice (d : Dev) (s code round : Nat) : d.Still (d.loseSlice s code round) :=
  ite ((containSlice d s).trans (addAction _ _)) (refl d)

theorem loseCtl (d : Dev) (k code round : Nat) : d.Still (d.loseCtl k code round) :=
  (loseSlice d _ _ _).trans (onSlice _ _ _ (fun _ => rfl))

theorem countDetection (d : Dev) (code kind unit round : Nat) : d.Still (d.countDetection code kind unit round) := by
  have hnoted : ∀ b, d.Still { d with err := b } := fun b => of_units rfl rfl
  unfold Dev.countDetection
  exact ite (ite (ite ((hnoted _).trans (loseCore _ _ _ _)) (ite ((hnoted _).trans (loseSlice _ _ _ _)) (ite ((hnoted _).trans (loseCtl _ _ _ _)) (hnoted _))))
    (hnoted _)) (refl d)

theorem discardTrap (d : Dev) (c t round : Nat) (handle : Option Nat) : d.Still (d.discardTrap c t round handle) := by
  have hwithdrawn : ∀ p, d.Still (d.withdraw p) := fun p => ite (refl d) (of_units rfl rfl)
  have htask : ∀ (x : Dev) (f : Task → Task), x.Still (x.onTask c t f) := fun x f => of_units rfl rfl
  unfold Dev.discardTrap
  dsimp only
  split
  · exact ((hwithdrawn _).trans (htask _ _)).trans (onStream _ _ _ (fun _ => ⟨rfl, rfl⟩))
  · exact ((hwithdrawn _).trans (htask _ _)).trans (htask _ _)

theorem discardTraps (d : Dev) (hs : List Nat) (job c t round : Nat) : d.Still (d.discardTraps hs job c t round) := by
  have heach : ∀ l : List Nat, d.Still (l.foldl (fun d h => (d.job job).tasks.foldl (fun d p => d.discardTrap p.1 p.2 round (some h)) d) d) := fun l =>
    foldl _ l d (fun e h => foldl _ _ e (fun x p => discardTrap x p.1 p.2 round (some h)))
  unfold Dev.discardTraps
  exact ite ((heach _).trans (discardTrap _ c t round none)) (heach _)

theorem detect (d : Dev) (e : Err) (hs : List Nat) (job c t round : Nat) : d.Still (d.detect e hs job c t round) := by
  unfold Dev.detect
  dsimp only
  generalize (if d.detectCls e t round hs = clsTask then _ else hs) = wide
  have hrecords : d.Still (if d.detectCls e t round hs ≠ e.cls then
      ((d.discardTraps wide job c t round).raise { e with corr := hs.isEmpty && e.cls == clsItem, handle := hs.head?, round := some round }).raise
        { e with cls := d.detectCls e t round hs, esc := true, corr := false, handle := hs.head?, round := some round }
      else (d.discardTraps wide job c t round).raise { e with corr := hs.isEmpty && e.cls == clsItem, handle := hs.head?, round := some round }) :=
    ite (((discardTraps d wide job c t round).trans (raise _ _)).trans (raise _ _)) ((discardTraps d wide job c t round).trans (raise _ _))
  generalize hz : Dev.countDetection _ e.code e.kind e.unit round = z
  have hcounted : d.Still z := by
    rw [← hz]
    refine trans ?_ (countDetection _ _ _ _ _)
    generalize hy : Dev.onRunning _ round wide _ = y
    have hwithheld : d.Still y := hy ▸ hrecords.trans (onRunning _ _ _ _)
    exact ite (hwithheld.trans (loseCore _ _ _ _)) (ite (hwithheld.trans (loseSlice _ _ _ _)) (ite hwithheld (hwithheld.trans (addAction _ _))))
  split
  · exact ite (hcounted.trans (of_units rfl rfl)) hcounted
  · exact hcounted

theorem eccReadFor (d : Dev) (hs : List Nat) (c t round : Nat) (ws : List Nat) : d.Still (d.eccReadFor hs c t round ws) :=
  foldl _ _ d (fun e _ => (count e _ _ _).trans (detect _ _ _ _ _ _ _))

end Dev.Still

/-- What a detection leaves keeps a job quiet. -/
theorem Dev.Aside.asQuiet {d e : Dev} (h : d.Aside e) (hs : d.Still e) : d.AsQuiet e :=
  ⟨hs.specOpen, fun j => by rw [h.job]; rfl, fun c t => by rw [h.task c t]; exact ⟨rfl, rfl⟩⟩

/-! ### Stores inside a region (R361) -/

/-- Writes that lie between two addresses. -/
def WritesWithin (lo hi : Nat) (ws : List (Nat × Bytes)) : Prop := ∀ w ∈ ws, lo ≤ w.1 ∧ w.1 + w.2.length ≤ hi

theorem View.store_within {v : View} {m : SMap Byte} {p : Pt} {code : Nat} {w : Nat × Bytes} (h : v.store m p code = some w) :
    v.lo ≤ w.1 ∧ w.1 + w.2.length ≤ v.hi := by
  unfold View.store at h
  dsimp only at h
  split at h
  · cases h
  next hin =>
    have hrange : (v.lo : Int) ≤ v.base + (tOff v.t p).1 ∧ v.base + (tOff v.t p).1 + (max 1 (tFmt v.t).size : Nat) ≤ v.hi := by
      simpa [View.inside] using (Bool.or_eq_false_iff.mp (Bool.eq_false_iff.mpr hin)).2
    split at h
    · cases h
      dsimp only [List.length_cons, List.length_nil]
      omega
    · cases h
      rw [length_leBytes]
      omega

/-- What an operation gathers from views of one region lies in that region. -/
theorem gatherWrites_within {lo hi : Nat} (mem : SMap Byte) {l : List (View × Pt × Nat)} (h : ∀ q ∈ l, q.1.lo = lo ∧ q.1.hi = hi) :
    WritesWithin lo hi (gatherWrites mem l) := by
  unfold gatherWrites
  refine foldl_keep (fun a : List (Nat × Bytes) × SMap Byte => WritesWithin lo hi a.1) _ l _ (fun _ h => absurd h List.not_mem_nil) fun a q hq ha => ?_
  split
  next x hx =>
    obtain ⟨hlo, hhi⟩ := h q hq
    intro w hw
    rcases List.mem_append.mp hw with hw | hw
    · exact ha w hw
    · rw [List.mem_singleton.mp hw, ← hlo, ← hhi]
      exact View.store_within hx
  next => exact ha

/-- Writes inside a region leave every byte outside it. -/
theorem Core.memGet_storeAll_outside {x : Core} {lo hi a : Nat} {ws : List (Nat × Bytes)} (h : WritesWithin lo hi ws) (ha : a < lo ∨ hi ≤ a) :
    memGet (x.storeAll ws).mem a = memGet x.mem a := by
  refine foldl_proj (fun m => memGet m a) (fun m (w : Nat × Bytes) => memWrite m w.1 w.2) ws x.mem fun m w hw => ?_
  obtain ⟨hlo, hhi⟩ := h w hw
  rw [memGet_write, if_neg (by omega)]

/-! ### What an operation leaves beside its region (R164, R361) -/

/-- What the sequencer and the quiet of a job read of a task. -/
def Task.place (k : Task) : Nat × Option Loop × Nat × Nat × List Rec × Nat := (k.pc, k.loop, k.job, k.progRound, k.descs, k.lastCycle)

/-- `e` is `d` after something that changes of cisterns at most the bytes of core `c` from `lo` to `hi`, and neither the place of task `t` of that
core, nor the well, accumulators, scale entries or open generations. -/
structure Dev.Stays (c t lo hi : Nat) (d e : Dev) : Prop where
  quiet : d.AsQuiet e
  course : d.SameCourse e c t
  clock : (e.task c t).lastCycle = (d.task c t).lastCycle
  well : e.well = d.well
  bytes : ∀ x a, x ≠ c ∨ a < lo ∨ hi ≤ a → memGet (e.core x).mem a = memGet (d.core x).mem a
  banks : ∀ x, (e.core x).acc = (d.core x).acc ∧ (e.core x).scale = (d.core x).scale

/-- What the words of engines mark: summary registers and counts of their task, and the last operation of each engine of their core. -/
structure Marks where
  sums : SMap (Nat × Bool)
  eleCnt : SMap Nat
  ele : EngLast
  red : EngLast
  smp : EngLast

def Dev.marks (d : Dev) (c t : Nat) : Marks :=
  ⟨(d.task c t).sums, (d.task c t).eleCnt, (d.core c).eleLast, (d.core c).redLast, (d.slice (c / 64)).smpLast⟩

/-- The same, with no mark made. -/
structure Dev.Settles (c t lo hi : Nat) (d e : Dev) : Prop extends Dev.Stays c t lo hi d e where
  marks : e.marks c t = d.marks c t

namespace Dev.Stays
variable {c t lo hi : Nat} {d e f : Dev}

theorem trans (h : d.Stays c t lo hi e) (h' : e.Stays c t lo hi f) : d.Stays c t lo hi f where
  quiet := h.quiet.trans h'.quiet
  course := h.course.trans h'.course
  clock := h'.clock.trans h.clock
  well := h'.well.trans h.well
  bytes x a ha := (h'.bytes x a ha).trans (h.bytes x a ha)
  banks x := ⟨(h'.banks x).1.trans (h.banks x).1, (h'.banks x).2.trans (h.banks x).2⟩

/-- A change of nothing that belongs to cores, jobs, streams and the well. -/
theorem of_units (h : e = { d with slices := e.slices, cntNow := e.cntNow }) : d.Stays c t lo hi e where
  quiet := by rw [h]; exact .of_tasks (fun _ _ => ⟨rfl, rfl⟩) rfl rfl
  course := by rw [h]; exact .of_jobs rfl rfl rfl rfl rfl rfl rfl
  clock := by rw [h]; rfl
  well := by rw [h]
  bytes x a _ := by rw [h]; rfl
  banks x := by rw [h]; exact ⟨rfl, rfl⟩

/-- A change of its core that keeps tasks, accumulators, scale entries and the bytes outside the region. -/
theorem onCore (f : Core → Core) (hf : ∀ x, (f x).tasks = x.tasks ∧ (f x).acc = x.acc ∧ (f x).scale = x.scale)
    (hm : ∀ x a, a < lo ∨ hi ≤ a → memGet (f x).mem a = memGet x.mem a) : d.Stays c t lo hi (d.onCore c f) where
  quiet := .onCore d c f (fun x => (hf x).1)
  course := Dev.sameCourse_onCore (fun x => (hf x).1) d c c t
  clock := by rw [Dev.task_onCore (fun x => (hf x).1)]
  well := rfl
  bytes x a ha := by
    by_cases hx : x = c
    · subst hx
      rw [Dev.core_onCore]
      exact hm _ _ (ha.resolve_left (fun h => h rfl))
    · rw [Dev.core_onCore_ne _ _ _ _ hx]
  banks x := by
    by_cases hx : x = c
    · subst hx
      rw [Dev.core_onCore]
      exact (hf _).2
    · rw [Dev.core_onCore_ne _ _ _ _ hx]
      exact ⟨rfl, rfl⟩

/-- A change of its task that keeps the task's place. -/
theorem onTask (f : Task → Task) (hf : ∀ k, (f k).place = k.place) : d.Stays c t lo hi (d.onTask c t f) := by
  have hplace : ∀ x y, ((d.onTask c t f).task x y).place = (d.task x y).place := fun x y => by
    by_cases h : (x, y) = (c, t)
    · cases h
      rw [Dev.task_onTask, hf]
    · rw [Dev.task_onTask_ne _ _ _ _ _ _ h]
  have hown := hplace c t
  simp only [Task.place, Prod.mk.injEq] at hplace hown
  obtain ⟨hpc, hloop, hjob, hround, -, hclock⟩ := hown
  exact
    { quiet := .of_tasks (fun x y => by obtain ⟨-, -, hj, -, hdescs, -⟩ := hplace x y; exact ⟨hdescs, hj⟩) rfl rfl
      course := .of_jobs hpc hloop hjob hround rfl rfl rfl
      clock := hclock
      well := rfl
      bytes := fun x a _ => by rw [Dev.mem_onTask]
      banks := fun x => ⟨Dev.onTask_proj Core.acc (fun _ _ => rfl) .., Dev.onTask_proj Core.scale (fun _ _ => rfl) ..⟩ }

theorem of_aside (h : d.Aside e) (hs : d.Still e) : d.Stays c t lo hi e where
  quiet := h.asQuiet hs
  course := h.sameCourse c t
  clock := by rw [h.task c t]
  well := by rw [h.rest]
  bytes x a _ := by rw [h.mem]
  banks x := ⟨h.core_proj Core.acc (fun _ _ _ => rfl) x, h.core_proj Core.scale (fun _ _ _ => rfl) x⟩

end Dev.Stays

namespace Dev.Settles
variable {c t lo hi : Nat} {d e f : Dev}

theorem refl (d : Dev) : d.Settles c t lo hi d := ⟨.of_units rfl, rfl⟩

theorem trans (h : d.Settles c t lo hi e) (h' : e.Settles c t lo hi f) : d.Settles c t lo hi f :=
  ⟨h.toStays.trans h'.toStays, h'.marks.trans h.marks⟩

theorem foldl {α : Type} (f : Dev → α → Dev) (l : List α) (d : Dev) (h : ∀ (e : Dev) a, e.Settles c t lo hi (f e a)) :
    d.Settles c t lo hi (l.foldl f d) :=
  foldl_keep (d.Settles c t lo hi ·) f l d (refl d) (fun e a _ he => he.trans (h e a))

theorem of_aside (h : d.Aside e) (hs : d.Still e) : d.Settles c t lo hi e := by
  refine ⟨.of_aside h hs, ?_⟩
  unfold Dev.marks
  rw [h.core_proj Core.eleLast (fun _ _ _ => rfl), h.core_proj Core.redLast (fun _ _ _ => rfl), hs.smpLast, h.task c t]

theorem count (d : Dev) (off lo' n : Nat) : d.Settles c t lo hi (d.count off lo' n) := of_aside (.count d _ _ _) (.count d _ _ _)

theorem detect (d : Dev) (x : Err) (hs : List Nat) (job c' t' round : Nat) : d.Settles c t lo hi (d.detect x hs job c' t' round) :=
  of_aside (.detect d _ _ _ _ _ _) (.detect d _ _ _ _ _ _)

theorem onCore (f : Core → Core) (hf : ∀ x, (f x).tasks = x.tasks ∧ (f x).acc = x.acc ∧ (f x).scale = x.scale)
    (hm : ∀ x a, a < lo ∨ hi ≤ a → memGet (f x).mem a = memGet x.mem a) (hl : ∀ x, (f x).eleLast = x.eleLast ∧ (f x).redLast = x.redLast) :
    d.Settles c t lo hi (d.onCore c f) := by
  refine ⟨.onCore f hf hm, ?_⟩
  unfold Dev.marks
  rw [Dev.task_onCore (fun x => (hf x).1), Dev.core_onCore, (hl _).1, (hl _).2]
  rfl

theorem onTask (f : Task → Task) (hf : ∀ k, (f k).place = k.place) (hs : ∀ k, (f k).sums = k.sums ∧ (f k).eleCnt = k.eleCnt) :
    d.Settles c t lo hi (d.onTask c t f) := by
  refine ⟨.onTask f hf, ?_⟩
  unfold Dev.marks
  rw [Dev.task_onTask, (hs _).1, (hs _).2, Dev.onTask_proj Core.eleLast (fun _ _ => rfl), Dev.onTask_proj Core.redLast (fun _ _ => rfl)]
  rfl

theorem ringMove (d : Dev) (slips : List (Nat × Bool)) (u : Nat × Bool) : d.Settles c t lo hi (d.ringMove c t slips u) := by
  unfold Dev.ringMove
  split
  · refine trans ?_ (onTask _ (fun _ => rfl) (fun _ => ⟨rfl, rfl⟩))
    exact onCore _ (fun _ => ⟨rfl, rfl, rfl⟩) (fun _ _ _ => rfl) (fun _ => ⟨rfl, rfl⟩)
  · exact refl d

theorem boundFault (d : Dev) (w : Who) (round n : Nat) : d.Settles c t lo hi (d.boundFault w round n) := by
  unfold Dev.boundFault
  split
  · exact refl d
  · exact (count d _ _ _).trans (of_aside (.failItems _ _ _ _ _) (.failItems _ _ _ _ _))

/-- The end of an operation whose writes lie in the region. -/
theorem opDone (d : Dev) (i : Nat) (reads writes : List Nat) (slips : List (Nat × Bool)) {o : OpOut} (h : WritesWithin lo hi o.writes) :
    d.Settles c t lo hi (d.opDone ⟨c, t, i⟩ reads writes slips o) := by
  have hstore : d.Settles c t lo hi (d.onCore c (fun x => x.storeAll o.writes)) :=
    onCore _ (fun _ => ⟨rfl, rfl, rfl⟩) (fun _ _ ha => Core.memGet_storeAll_outside h ha) (fun _ => ⟨rfl, rfl⟩)
  have hevent : ∀ (x : Dev) cs, x.Settles c t lo hi (x.onTask c t (fun k => { k.event o.fl with cands := k.cands ++ cs })) := fun x cs =>
    onTask _ (fun _ => rfl) (fun _ => ⟨rfl, rfl⟩)
  have hmoves : ∀ (x : Dev) (us : List (Nat × Bool)), x.Settles c t lo hi (us.foldl (fun d u => d.ringMove c t slips u) x) := fun x us =>
    foldl _ us x (fun y u => ringMove y slips u)
  have hslips : ∀ x : Dev, x.Settles c t lo hi (slips.foldl (fun d u => d.slip ⟨c, t, i⟩ u.1) x) := fun x =>
    foldl _ slips x (fun y u => detect y _ _ _ _ _ _)
  have hread : ∀ (x : Dev) (n : Nat) (ws : List Nat), x.Settles c t lo hi (x.eccRead c t i n ws) := fun x n ws =>
    of_aside (.eccReadFor _ _ _ _ _ _) (.eccReadFor _ _ _ _ _ _)
  unfold Dev.opDone
  exact (((((hstore.trans (hevent _ _)).trans (count _ _ _ _)).trans (hmoves _ _)).trans (hslips _)).trans (boundFault _ _ _ _)).trans (hread _ _ _)

/-- What the detectors saw in an operation (R365, R369, R540). -/
theorem evMark (d : Dev) (i : Nat) (ev : EngEv) : d.Settles c t lo hi (d.evMark ⟨c, t, i⟩ ev) := by
  have hseen : d.Settles c t lo hi (d.evSeen c ev) := by
    unfold Dev.evSeen
    split
    · exact onCore _ (fun _ => ⟨rfl, rfl, rfl⟩) (fun _ _ _ => rfl) (fun _ => ⟨rfl, rfl⟩)
    · exact refl d
  have hevent : ∀ x : Dev, x.Settles c t lo hi (x.engEvent c t i ev) := fun x => by
    unfold Dev.engEvent
    dsimp only
    split
    · exact count x _ _ _
    · exact (count x _ _ _).trans (detect _ _ _ _ _ _ _)
    · exact (count x _ _ _).trans (count _ _ _ _)
    · exact ((count x _ _ _).trans (count _ _ _ _)).trans (detect _ _ _ _ _ _ _)
  exact hseen.trans (hevent _)

end Dev.Settles

/-! ### Sequence records beside an operation (R240, R252) -/

/-- `e` differs from `d` in each core at most in bytes and what stands beside them, and in no slice. -/
structure Dev.OnlyBytes (d e : Dev) : Prop where
  core : ∀ x, ∃ m p b, e.core x = { d.core x with mem := m, patrolWb := p, bad := b }
  slices : e.slices = d.slices

namespace Dev.OnlyBytes
variable {d e f : Dev}

theorem of_units (hc : e.cores = d.cores) (hs : e.slices = d.slices) : d.OnlyBytes e :=
  ⟨fun x => ⟨_, _, _, show mgetD e.cores x Core.reset = mgetD d.cores x Core.reset by rw [hc]⟩, hs⟩

theorem refl (d : Dev) : d.OnlyBytes d := of_units rfl rfl

theorem trans (h : d.OnlyBytes e) (h' : e.OnlyBytes f) : d.OnlyBytes f := by
  refine ⟨fun x => ?_, h'.slices.trans h.slices⟩
  obtain ⟨m, p, b, he⟩ := h.core x
  obtain ⟨m', p', b', hf⟩ := h'.core x
  exact ⟨m', p', b', by rw [hf, he]⟩

theorem ite {p : Prop} [Decidable p] (he : d.OnlyBytes e) (hf : d.OnlyBytes f) : d.OnlyBytes (if p then e else f) := by
  split <;> assumption

theorem foldl {α : Type} (f : Dev → α → Dev) (l : List α) (d : Dev) (h : ∀ (e : Dev) a, e.OnlyBytes (f e a)) : d.OnlyBytes (l.foldl f d) :=
  foldl_keep (d.OnlyBytes ·) f l d (refl d) (fun e a _ he => he.trans (h e a))

theorem storeAll (d : Dev) (c : Nat) (ws : List (Nat × Bytes)) : d.OnlyBytes (d.onCore c (fun x => x.storeAll ws)) := by
  refine ⟨fun x => ?_, rfl⟩
  by_cases hx : x = c
  · subst hx
    rw [Dev.core_onCore]
    exact ⟨_, _, _, rfl⟩
  · rw [Dev.core_onCore_ne _ _ _ _ hx]
    exact ⟨_, _, _, rfl⟩

theorem wellWrite (d : Dev) (a : Nat) (bs : Bytes) : d.OnlyBytes (d.wellWrite a bs) := by
  unfold Dev.wellWrite
  exact ite (of_units rfl rfl) (of_units rfl rfl)

theorem putIn (d : Dev) (c t space : Nat) (ws : List (Nat × Bytes)) : d.OnlyBytes (d.putIn c t space ws) := by
  unfold Dev.putIn
  exact ite (storeAll d _ _) (ite (foldl _ ws d (fun x w => wellWrite x _ _)) (refl d))

theorem writeRow (d : Dev) (c t : Nat) (r : Rec) (q : Nat) : d.OnlyBytes (d.writeRow c t r q) := by
  unfold Dev.writeRow
  dsimp only
  split
  · exact refl d
  · exact ite (putIn d _ _ _ _) ((putIn d _ _ _ _).trans (putIn _ _ _ _ _))

theorem writeSeqs (d : Dev) (j : Nat) : d.OnlyBytes (d.writeSeqs j) :=
  foldl _ _ d (fun x p => foldl _ _ x (fun y r => foldl _ _ y (fun z q => writeRow z p.1 p.2 r q)))

/-- Positions counted in twins. -/
theorem specTrack (d : Dev) (w : Who) (ws : List Nat) : d.OnlyBytes (d.specTrack w ws) := by
  unfold Dev.specTrack
  dsimp only
  refine ite (refl d) ?_
  generalize hz : List.foldl _ d _ = z
  have htwins : d.OnlyBytes z := hz ▸ foldl _ _ d (fun x p => foldl _ _ x (fun y l => ite (of_units rfl rfl) (refl y)))
  exact ite htwins (htwins.trans (writeSeqs z _))

/-- What a core has beside its bytes stays. -/
theorem core_proj (h : d.OnlyBytes e) {α : Type} (g : Core → α) (hg : ∀ x m p b, g { x with mem := m, patrolWb := p, bad := b } = g x) (c : Nat) :
    g (e.core c) = g (d.core c) := by
  obtain ⟨m, p, b, hc⟩ := h.core c
  rw [hc, hg]

end Dev.OnlyBytes

/-- A word's end as a change of its task in a state that differs from its effect's at most in sequence records and what they belong to. -/
theorem Dev.wordDone_cases (d : Dev) (w : Who) (word : Nat) : ∃ e p l, d.OnlyBytes e ∧
    d.wordDone w word = e.onTask w.core w.task (fun _ => { e.tk w with pc := p, loop := l, wait := none }) := by
  have hend : ∀ e : Dev, d.OnlyBytes e → ∃ e' p l, d.OnlyBytes e' ∧ e.onTask w.core w.task (fun _ => { e.nextTask w word with wait := none }) =
      e'.onTask w.core w.task (fun _ => { e'.tk w with pc := p, loop := l, wait := none }) := fun e he => by
    obtain ⟨p, l, hn⟩ := e.nextTask_eq w word
    exact ⟨e, p, l, he, by rw [hn]⟩
  unfold Dev.wordDone
  dsimp only
  split
  · exact hend d (.refl d)
  · exact hend _ (.specTrack d w _)

section wordDone
variable (d : Dev) (w : Who) (word : Nat)

/-- What a core has beside its tasks and bytes, a word leaves as its effect left it. -/
theorem Dev.wordDone_core_proj {α : Type} (g : Core → α) (hg : ∀ x ts m p b, g { x with tasks := ts, mem := m, patrolWb := p, bad := b } = g x) (x : Nat) :
    g ((d.wordDone w word).core x) = g (d.core x) := by
  obtain ⟨e, p, l, he, hdone⟩ := d.wordDone_cases w word
  rw [hdone, Dev.onTask_proj g (fun y ts => hg y ts y.mem y.patrolWb y.bad)]
  exact he.core_proj g (fun y => hg y y.tasks) x

/-- Nor does it change of its task more than its place, its loop and its wait. -/
theorem Dev.wordDone_own_proj {α : Type} (g : Task → α) (hg : ∀ k p l z, g { k with pc := p, loop := l, wait := z } = g k) :
    g ((d.wordDone w word).task w.core w.task) = g (d.task w.core w.task) := by
  obtain ⟨e, p, l, he, hdone⟩ := d.wordDone_cases w word
  rw [hdone, Dev.task_onTask]
  refine (hg _ _ _ _).trans ?_
  exact congrArg (fun ts => g (mgetD ts w.task Task.reset)) (he.core_proj Core.tasks (fun _ _ _ _ => rfl) w.core)

theorem Dev.marks_wordDone : (d.wordDone w word).marks w.core w.task = d.marks w.core w.task := by
  have hslice : ((d.wordDone w word).slice (w.core / 64)).smpLast = (d.slice (w.core / 64)).smpLast := by
    obtain ⟨e, p, l, he, hdone⟩ := d.wordDone_cases w word
    rw [hdone]
    exact congrArg (fun m => (mgetD m (w.core / 64) Slice.reset).smpLast) he.slices
  unfold Dev.marks
  rw [d.wordDone_core_proj w word Core.eleLast (fun _ _ _ _ _ => rfl), d.wordDone_core_proj w word Core.redLast (fun _ _ _ _ _ => rfl), hslice,
    d.wordDone_own_proj w word Task.sums (fun _ _ _ _ => rfl), d.wordDone_own_proj w word Task.eleCnt (fun _ _ _ _ => rfl)]

end wordDone

end Sys2Proof.Machine
end

section
/-! The words of the element engine, the reduction unit and the sampler as operations of their tensors (R164, R169, R178, R183, R298). -/

namespace Sys2Proof.Machine

/-! ### The marks of a word -/

/-- The marks that an engine's word may make: the last operation of its engine, a reduction's summary register, an element program's count. -/
structure Marks.After (m m' : Marks) (c t word : Nat) : Prop where
  sums : ∀ n, wOpcode word ≠ 0x08 ∨ n ≠ bits (wArgs word) 12 4 → mget m'.sums n = mget m.sums n
  eleCnt : ∀ n, wOpcode word ≠ 0x05 ∨ n ≠ wDesc word → mget m'.eleCnt n = mget m.eleCnt n
  ele : wOpcode word = 0x05 ∨ wOpcode word = 0x06 ∨ wOpcode word = 0x07 → m'.ele.desc = wDesc word ∧ m'.ele.task = t
  red : wOpcode word = 0x08 → m'.red.desc = wDesc word ∧ m'.red.task = t
  smp : wOpcode word = 0x10 → m'.smp = ⟨c % 64, t, wDesc word, 0, false⟩

theorem Dev.marks_onTask (d : Dev) (c t : Nat) (f : Task → Task) :
    (d.onTask c t f).marks c t = { d.marks c t with sums := (f (d.task c t)).sums, eleCnt := (f (d.task c t)).eleCnt } := by
  unfold Dev.marks
  rw [Dev.task_onTask, Dev.onTask_proj Core.eleLast (fun _ _ => rfl), Dev.onTask_proj Core.redLast (fun _ _ => rfl)]
  rfl

theorem Dev.marks_onCore {d : Dev} {c t : Nat} {f : Core → Core} (hf : ∀ x, (f x).tasks = x.tasks) :
    (d.onCore c f).marks c t = { d.marks c t with ele := (f (d.core c)).eleLast, red := (f (d.core c)).redLast } := by
  unfold Dev.marks
  rw [Dev.task_onCore hf, Dev.core_onCore]
  rfl

theorem Dev.marks_onSlice (d : Dev) (c t : Nat) (f : Slice → Slice) :
    (d.onSlice (c / 64) f).marks c t = { d.marks c t with smp := (f (d.slice (c / 64))).smpLast } := by
  unfold Dev.marks
  rw [Dev.slice_onSlice]
  rfl

/-- An engine's word has run in `d`: of cisterns it has changed the region of its task at most, and of the marks those of its opcode. -/
structure Dev.Ran (d : Dev) (w : Who) (word : Nat) (e : Dev) : Prop where
  stays : d.Stays w.core w.task (d.tk w).base (d.tk w).bound e
  marks : (d.marks w.core w.task).After (e.marks w.core w.task) w.core w.task word

/-- An operation of some tensors that is held or runs so. -/
def WRes.Operates (d : Dev) (w : Who) (word : Nat) (reads writes : List Nat) (r : WRes) : Prop :=
  ∃ k, r = d.opTest w reads writes k ∧ ∀ slips, ∃ e, k slips = .done e ∧ d.Ran w word e

section ran
variable {d d1 : Dev} {w : Who} {word : Nat} (hstays : d.Stays w.core w.task (d.tk w).base (d.tk w).bound d1)
  (hmarks : (d.marks w.core w.task).After (d1.marks w.core w.task) w.core w.task word) {o : OpOut} (hwrites : WritesWithin (d.tk w).base (d.tk w).bound o.writes)
include hstays hmarks hwrites

/-- What an operation leaves after its marks are made. -/
theorem Dev.Ran.of_opDone (reads writes : List Nat) (slips : List (Nat × Bool)) : d.Ran w word (d1.opDone w reads writes slips o) := by
  have hend : d1.Settles w.core w.task (d.tk w).base (d.tk w).bound (d1.opDone w reads writes slips o) := .opDone d1 w.word reads writes slips hwrites
  exact ⟨hstays.trans hend.toStays, by rw [hend.marks]; exact hmarks⟩

theorem Dev.Ran.of_evMark (reads writes : List Nat) (slips : List (Nat × Bool)) (ev : EngEv) :
    d.Ran w word ((d1.opDone w reads writes slips o).evMark w ev) := by
  obtain ⟨hstays', hmarks'⟩ := Dev.Ran.of_opDone hstays hmarks hwrites reads writes slips
  have hend : (d1.opDone w reads writes slips o).Settles w.core w.task (d.tk w).base (d.tk w).bound ((d1.opDone w reads writes slips o).evMark w ev) :=
    .evMark _ w.word ev
  exact ⟨hstays'.trans hend.toStays, by rw [hend.marks]; exact hmarks'⟩

end ran

/-- A core whose element engine was used last by some operation. -/
theorem Dev.stays_eleLast (d : Dev) (c t lo hi : Nat) (last : EngLast) : d.Stays c t lo hi (d.onCore c (fun x => { x with eleLast := last })) :=
  .onCore _ (fun _ => ⟨rfl, rfl, rfl⟩) (fun _ _ _ => rfl)

/-! ### Element programs (R169, R190) -/

/-- A state whose element engine has run an element program: its count and the engine's last operation. -/
def Dev.programBy (d : Dev) (w : Who) (desc cnt kind : Nat) : Dev :=
  (d.onTask w.core w.task (fun k => { k with eleCnt := mset k.eleCnt desc cnt })).onCore w.core
    (fun x => { x with eleLast := ⟨w.core, w.task, desc, kind, false⟩ })

theorem Dev.marks_programBy (d : Dev) (w : Who) (desc cnt kind : Nat) : (d.programBy w desc cnt kind).marks w.core w.task =
    { d.marks w.core w.task with
      eleCnt := mset (d.marks w.core w.task).eleCnt desc cnt
      ele := ⟨w.core, w.task, desc, kind, false⟩ } := by
  unfold Dev.programBy
  rw [Dev.marks_onCore (f := fun x => { x with eleLast := ⟨w.core, w.task, desc, kind, false⟩ }) (fun _ => rfl), Dev.marks_onTask,
    Dev.onTask_proj Core.redLast (fun _ _ => rfl)]
  rfl

theorem Dev.stays_programBy (d : Dev) (w : Who) (lo hi desc cnt kind : Nat) : d.Stays w.core w.task lo hi (d.programBy w desc cnt kind) := by
  refine .trans ?_ (Dev.stays_eleLast _ _ _ _ _ _)
  exact .onTask _ (fun _ => rfl)

/-- An element program runs so in its task's region, whatever it gathers there. -/
theorem Dev.programBy_ran {d : Dev} {w : Who} {word : Nat} (hop : wOpcode word = 0x05) (cnt kind : Nat) {o : OpOut}
    (hwrites : WritesWithin (d.tk w).base (d.tk w).bound o.writes) (reads writes : List Nat) (slips : List (Nat × Bool)) (ev : EngEv) :
    d.Ran w word (((d.programBy w (wDesc word) cnt kind).opDone w reads writes slips o).evMark w ev) := by
  refine .of_evMark (Dev.stays_programBy ..) ?_ hwrites reads writes slips ev
  rw [Dev.marks_programBy]
  exact
    { sums := fun _ _ => rfl
      eleCnt := fun n hn => mget_mset_ne _ _ _ _ (hn.resolve_left (fun h => h hop))
      ele := fun _ => ⟨rfl, rfl⟩
      red := fun h => absurd (hop.symm.trans h) (by decide)
      smp := fun h => absurd (hop.symm.trans h) (by decide) }

/-! ### Stores through a task's tensors -/

/-- Stores that all go through tensors of a task. -/
def Task.Puts (k : Task) (slips : List (Nat × Bool)) (l : List (View × Pt × Nat)) : Prop := ∀ q ∈ l, ∃ i, q.1 = k.view i true slips

namespace Task.Puts
variable {k : Task} {slips : List (Nat × Bool)} {α : Type}

theorem nil : k.Puts slips [] := fun _ h => absurd h List.not_mem_nil

theorem append {l m : List (View × Pt × Nat)} (hl : k.Puts slips l) (hm : k.Puts slips m) : k.Puts slips (l ++ m) :=
  fun q hq => (List.mem_append.mp hq).elim (hl q) (hm q)

theorem ite {p : Prop} [Decidable p] {l m : List (View × Pt × Nat)} (hl : k.Puts slips l) (hm : k.Puts slips m) :
    k.Puts slips (if p then l else m) := by
  split <;> assumption

/-- One element of one tensor for each item. -/
theorem map (l : List α) (i : α → Nat) (g : α → Pt × Nat) : k.Puts slips (l.map (fun x => (k.view (i x) true slips, g x))) := fun q hq => by
  obtain ⟨x, -, rfl⟩ := List.mem_map.mp hq
  exact ⟨_, rfl⟩

theorem flatMap {l : List α} {f : α → List (View × Pt × Nat)} (h : ∀ x, k.Puts slips (f x)) : k.Puts slips (l.flatMap f) := fun q hq => by
  obtain ⟨x, -, hq⟩ := List.mem_flatMap.mp hq
  exact h x q hq

theorem filterMap {l : List α} {f : α → Option (View × Pt × Nat)} (h : ∀ x ∈ l, ∀ q, f x = some q → ∃ i, q.1 = k.view i true slips) :
    k.Puts slips (l.filterMap f) := fun q hq => by
  obtain ⟨x, hx, hq⟩ := List.mem_filterMap.mp hq
  exact h x hx q hq

/-- A scan's results, an element of one tensor for each. -/
theorem putAll {β : Type} (l : List α) (i : Nat) (ys : α → List β) (g : α → β × Nat → Pt × Nat) :
    k.Puts slips (if i = 0xFFFF then [] else l.flatMap (fun x => (ys x).zipIdx.map (fun y => (k.view i true slips, g x y)))) :=
  .ite .nil (.flatMap fun _ => .map _ _ _)

/-- The last of each row. -/
theorem putLast {β : Type} (l : List α) (i : Nat) (ys : α → Option β) (g : α → β → Pt × Nat) :
    k.Puts slips (if i = 0xFFFF then [] else l.filterMap (fun x => (ys x).map (fun y => (k.view i true slips, g x y)))) :=
  .ite .nil (.filterMap fun x _ q hq => by
    obtain ⟨y, -, rfl⟩ := Option.map_eq_some_iff.mp hq
    exact ⟨i, rfl⟩)

/-- They lie in the task's region. -/
theorem within (mem : SMap Byte) {l : List (View × Pt × Nat)} (h : k.Puts slips l) : WritesWithin k.base k.bound (gatherWrites mem l) :=
  gatherWrites_within mem fun q hq => by
    obtain ⟨i, hi⟩ := h q hq
    rw [hi]
    exact ⟨rfl, rfl⟩

end Task.Puts

/-! ### Element programs, scans and conversions (R169, R178, R123) -/

theorem elementMap_operates (d : Dev) (w : Who) {word : Nat} (hop : wOpcode word = 0x05) (first : Nat) (ev : EngEv) :
    (elementMap d w (wDesc word) first ev).Operates d w word
      (((List.range (epNin ((d.tk w).desc (wDesc word)))).filter (fun n => !bit (fld ((d.tk w).desc (wDesc word)) 37 1) n)).map (fun n => first + n))
      ((List.range (epNout ((d.tk w).desc (wDesc word)))).map (fun n => first + epNin ((d.tk w).desc (wDesc word)) + n)) := by
  unfold elementMap
  refine ⟨_, rfl, fun slips => ?_⟩
  refine ⟨_, rfl, Dev.programBy_ran hop _ 0 (Task.Puts.within (slips := slips) _ (.flatMap fun p => .filterMap fun v hv q hq => ?_)) _ _ _ _⟩
  obtain ⟨y, -, rfl⟩ := Option.map_eq_some_iff.mp hq
  obtain ⟨n, -, hview⟩ := List.mem_map.mp (List.fst_mem_of_mem_zipIdx hv)
  exact ⟨n, hview.symm⟩

theorem elementLut_operates (d : Dev) (w : Who) {word : Nat} (hop : wOpcode word = 0x05) (first : Nat) (ev : EngEv) :
    (elementLut d w (wDesc word) first ev).Operates d w word [first, first + 1] [first + 2] := by
  unfold elementLut
  refine ⟨_, rfl, fun slips => ?_⟩
  exact ⟨_, rfl, Dev.programBy_ran hop _ 3 (Task.Puts.within (slips := slips) _ (.map _ _ _)) _ _ _ _⟩

theorem eleRunW_operates (d : Dev) (w : Who) {word : Nat} (hop : wOpcode word = 0x05) (ev : EngEv) :
    (eleRunW d w (wDesc word) (wFirst word) ev).Operates d w word (engineUses (d.tk w) word).1 (engineUses (d.tk w) word).2 := by
  unfold eleRunW engineUses
  simp only [hop, ↓reduceIte]
  split
  · exact elementLut_operates d w hop _ ev
  · exact elementMap_operates d w hop _ ev

/-- A scan or a conversion runs so in its task's region: it marks the element engine's last operation, and may count in its core's statistics. -/
theorem Dev.eleLast_ran {d : Dev} {w : Who} {word : Nat} (hop : wOpcode word = 0x06 ∨ wOpcode word = 0x07) {kind : Nat} {f : Core → Core}
    (hf : ∀ x, ∃ accs, f x = { x with eleLast := ⟨w.core, w.task, wDesc word, kind, false⟩, accs := accs }) {o : OpOut}
    (hwrites : WritesWithin (d.tk w).base (d.tk w).bound o.writes) (reads writes : List Nat) (slips : List (Nat × Bool)) (ev : EngEv) :
    d.Ran w word (((d.onCore w.core f).opDone w reads writes slips o).evMark w ev) := by
  have hkeeps : ∀ {α : Type} (g : Core → α), (∀ x l a, g { x with eleLast := l, accs := a } = g x) → ∀ x, g (f x) = g x := fun g hg x => by
    obtain ⟨accs, hx⟩ := hf x
    rw [hx, hg]
  have hstays : d.Stays w.core w.task (d.tk w).base (d.tk w).bound (d.onCore w.core f) :=
    .onCore f (fun x => ⟨hkeeps Core.tasks (fun _ _ _ => rfl) x, hkeeps Core.acc (fun _ _ _ => rfl) x, hkeeps Core.scale (fun _ _ _ => rfl) x⟩)
      (fun x a _ => by rw [hkeeps Core.mem (fun _ _ _ => rfl)])
  refine .of_evMark hstays ?_ hwrites reads writes slips ev
  rw [Dev.marks_onCore (hkeeps Core.tasks (fun _ _ _ => rfl)), hkeeps Core.redLast (fun _ _ _ => rfl)]
  obtain ⟨accs, hx⟩ := hf (d.core w.core)
  exact
    { sums := fun _ _ => rfl
      eleCnt := fun _ _ => rfl
      ele := fun _ => by rw [hx]; exact ⟨rfl, rfl⟩
      red := fun h => by omega
      smp := fun h => by omega }

theorem eleScanW_operates (d : Dev) (w : Who) {word : Nat} (hop : wOpcode word = 0x06) (ev : EngEv) :
    (eleScanW d w (wDesc word) ev).Operates d w word (engineUses (d.tk w) word).1 (engineUses (d.tk w) word).2 := by
  unfold engineUses
  simp only [hop, Nat.reduceEqDiff, ↓reduceIte]
  unfold eleScanW
  refine ⟨_, rfl, fun slips => ?_⟩
  refine ⟨_, rfl, Dev.eleLast_ran (.inl hop) (fun x => ⟨x.accs, rfl⟩) (Task.Puts.within (slips := slips) _ ?_) _ _ _ _⟩
  exact .append (.append (.append (.putAll _ _ _ _) (.putAll _ _ _ _)) (.putLast _ _ _ _))
    (.ite (.append (.append (.putAll _ _ _ _) (.ite .nil (.putAll _ _ _ _))) (.ite .nil (.putLast _ _ _ _))) .nil)

theorem convertW_operates (d : Dev) (w : Who) {word : Nat} (hop : wOpcode word = 0x07) (ev : EngEv) :
    (convertW d w (wDesc word) ev).Operates d w word (engineUses (d.tk w) word).1 (engineUses (d.tk w) word).2 := by
  unfold engineUses
  simp only [hop, Nat.reduceEqDiff, ↓reduceIte]
  unfold convertW
  refine ⟨_, rfl, fun slips => ?_⟩
  refine ⟨_, rfl, Dev.eleLast_ran (kind := 2) (.inr hop) (fun x => ?_) (Task.Puts.within (slips := slips) _ (.map _ _ _)) _ _ _ _⟩
  split
  · exact ⟨_, rfl⟩
  · exact ⟨x.accs, rfl⟩

/-! ### Reductions and sampler requests (R183, R298) -/

/-- A reduction runs so in its task's region: it loads at most the summary register that its word names, and marks the reduction unit's last operation. -/
theorem Dev.redLast_ran {d : Dev} {w : Who} {word : Nat} (hop : wOpcode word = 0x08) {f : Task → Task} {empty : Bool}
    (hf : ∀ k, ∃ e m s, f k = { k with emptyRow := e, redRes := m, sums := s } ∧ ∀ n, n ≠ bits (wArgs word) 12 4 → mget s n = mget k.sums n)
    {off lo' n : Nat} {o : OpOut} (hwrites : WritesWithin (d.tk w).base (d.tk w).bound o.writes) (reads writes : List Nat) (slips : List (Nat × Bool)) (ev : EngEv) :
    d.Ran w word ((((((d.onTask w.core w.task f).onCore w.core (fun x => { x with redLast := ⟨w.core, w.task, wDesc word, 0, empty⟩ })).count off lo' n).opDone
      w reads writes slips o)).evMark w ev) := by
  have hkeeps : ∀ {α : Type} (g : Task → α), (∀ k e m s, g { k with emptyRow := e, redRes := m, sums := s } = g k) → ∀ k, g (f k) = g k := fun g hg k => by
    obtain ⟨e, m, s, hk, -⟩ := hf k
    rw [hk, hg]
  have htask : d.Stays w.core w.task (d.tk w).base (d.tk w).bound (d.onTask w.core w.task f) := .onTask f (hkeeps Task.place (fun _ _ _ _ => rfl))
  have hcore : (d.onTask w.core w.task f).Stays w.core w.task (d.tk w).base (d.tk w).bound
      ((d.onTask w.core w.task f).onCore w.core (fun x => { x with redLast := ⟨w.core, w.task, wDesc word, 0, empty⟩ })) :=
    .onCore _ (fun _ => ⟨rfl, rfl, rfl⟩) (fun _ _ _ => rfl)
  have hcount := Dev.Settles.count (c := w.core) (t := w.task) (lo := (d.tk w).base) (hi := (d.tk w).bound)
    ((d.onTask w.core w.task f).onCore w.core (fun x => { x with redLast := ⟨w.core, w.task, wDesc word, 0, empty⟩ })) off lo' n
  refine .of_evMark ((htask.trans hcore).trans hcount.toStays) ?_ hwrites reads writes slips ev
  rw [hcount.marks, Dev.marks_onCore (f := fun x => { x with redLast := ⟨w.core, w.task, wDesc word, 0, empty⟩ }) (fun _ => rfl), Dev.marks_onTask,
    hkeeps Task.eleCnt (fun _ _ _ _ => rfl)]
  obtain ⟨e, m, s, hk, hs⟩ := hf (d.task w.core w.task)
  exact
    { sums := fun n hn => by rw [hk]; exact hs n (hn.resolve_left (fun h => h hop))
      eleCnt := fun _ _ => rfl
      ele := fun h => by omega
      red := fun _ => ⟨rfl, rfl⟩
      smp := fun h => by omega }

theorem redRunW_operates (d : Dev) (w : Who) {word : Nat} (hop : wOpcode word = 0x08) (ev : EngEv) :
    (redRunW d w (wDesc word) (bits (wArgs word) 12 4) ev).Operates d w word (engineUses (d.tk w) word).1 (engineUses (d.tk w) word).2 := by
  unfold engineUses redRunW
  simp only [hop, Nat.reduceEqDiff, ↓reduceIte, decide_eq_true_eq]
  refine ⟨_, rfl, fun slips => ?_⟩
  refine ⟨_, rfl, Dev.redLast_ran hop (fun k => ⟨_, _, _, rfl, fun n hn => ?_⟩) (Task.Puts.within (slips := slips) _ (.flatMap fun _ => .map _ _ _)) _ _ _ _⟩
  split
  · exact mget_mset_ne _ _ _ _ hn
  · rfl

/-- A sampler request runs so in its task's region: it marks the sampler's last operation. -/
theorem Dev.smpLast_ran {d : Dev} {w : Who} {word : Nat} (hop : wOpcode word = 0x10) {off lo' n : Nat} {o : OpOut}
    (hwrites : WritesWithin (d.tk w).base (d.tk w).bound o.writes) (reads writes : List Nat) (slips : List (Nat × Bool)) :
    d.Ran w word (((d.onSlice (w.core / 64) (fun x => { x with smpLast := ⟨w.core % 64, w.task, wDesc word, 0, false⟩ })).count off lo' n).opDone
      w reads writes slips o) := by
  have hslice : d.Stays w.core w.task (d.tk w).base (d.tk w).bound
      (d.onSlice (w.core / 64) (fun x => { x with smpLast := ⟨w.core % 64, w.task, wDesc word, 0, false⟩ })) := .of_units rfl
  have hcount := Dev.Settles.count (c := w.core) (t := w.task) (lo := (d.tk w).base) (hi := (d.tk w).bound)
    (d.onSlice (w.core / 64) (fun x => { x with smpLast := ⟨w.core % 64, w.task, wDesc word, 0, false⟩ })) off lo' n
  refine .of_opDone (hslice.trans hcount.toStays) ?_ hwrites reads writes slips
  rw [hcount.marks, Dev.marks_onSlice]
  exact
    { sums := fun _ _ => rfl
      eleCnt := fun _ _ => rfl
      ele := fun h => by omega
      red := fun h => by omega
      smp := fun _ => rfl }

theorem smpReqW_operates (d : Dev) (w : Who) {word : Nat} (hop : wOpcode word = 0x10) :
    (smpReqW d w (wDesc word)).Operates d w word (engineUses (d.tk w) word).1 (engineUses (d.tk w) word).2 := by
  unfold engineUses smpReqW
  simp only [hop, Nat.reduceEqDiff, ↓reduceIte, decide_eq_true_eq]
  refine ⟨_, rfl, fun slips => ?_⟩
  refine ⟨_, rfl, Dev.smpLast_ran hop ?_ _ _ _⟩
  split
  · exact Task.Puts.within (slips := slips) _ (.map _ _ _)
  · exact Task.Puts.within (slips := slips) _ (.map _ _ _)

end Sys2Proof.Machine
end

section
/-! The words of the element engine, the reduction unit and the sampler from their issue or the end of their wait to their end (R164, R165, R183, R298, R361, R378). -/

namespace Sys2Proof.Machine

/-! ### A word that nothing holds runs to its end -/

/-- An opcode of the element engine, of the reduction unit or of the sampler. -/
def unitOp (op : Nat) : Prop := op = 0x05 ∨ op = 0x06 ∨ op = 0x07 ∨ op = 0x08 ∨ op = 0x10

theorem steersItself_of_unitOp {op : Nat} (h : unitOp op) : steersItself op = false := by
  rcases h with rfl | rfl | rfl | rfl | rfl <;> rfl

theorem wordEffect_operates (d : Dev) (w : Who) {word : Nat} (h : unitOp (wOpcode word)) (ev : EngEv) (now : Nat) :
    (wordEffect d w word ev now).Operates d w word (engineUses (d.tk w) word).1 (engineUses (d.tk w) word).2 := by
  unfold wordEffect
  rcases h with hop | hop | hop | hop | hop <;> rw [hop]
  · exact eleRunW_operates d w hop ev
  · exact eleScanW_operates d w hop ev
  · exact convertW_operates d w hop ev
  · exact redRunW_operates d w hop ev
  · exact smpReqW_operates d w hop

@[simp] theorem Dev.engineUses_clocked (d : Dev) (c t : Nat) (m : SMap Nat) (cycle : Nat) (issued : Bool) (x y word : Nat) :
    engineUses ((d.clocked c t m cycle issued).task x y) word = engineUses (d.task x y) word :=
  d.task_clocked_proj c t m cycle issued (fun k => engineUses k word) (fun _ _ _ => rfl) x y

@[simp] theorem Dev.marks_clocked (d : Dev) (c t : Nat) (m : SMap Nat) (cycle : Nat) (issued : Bool) (x y : Nat) :
    (d.clocked c t m cycle issued).marks x y = d.marks x y := by
  unfold Dev.marks
  rw [d.core_clocked_proj c t m cycle issued Core.eleLast (fun _ _ => rfl), d.core_clocked_proj c t m cycle issued Core.redLast (fun _ _ => rfl),
    d.task_clocked_proj c t m cycle issued Task.sums (fun _ _ _ => rfl), d.task_clocked_proj c t m cycle issued Task.eleCnt (fun _ _ _ => rfl)]
  rfl

/-- An operation that nothing holds runs in its task's region. -/
theorem WRes.Operates.ran_of_unheld {d : Dev} {c t : Nat} {m : SMap Nat} {cycle : Nat} {issued : Bool} {i word : Nat} {reads writes : List Nat} {r : WRes}
    (h : r.Operates (d.clocked c t m cycle issued) ⟨c, t, i⟩ word reads writes) (hfree : Unheld d c t reads writes) :
    ∃ e, r = .done e ∧ (d.clocked c t m cycle issued).Ran ⟨c, t, i⟩ word e := by
  obtain ⟨k, hr, hk⟩ := h
  obtain ⟨e, he, hran⟩ := hk (slipsOf d c t reads writes)
  exact ⟨e, hr.trans ((Dev.opTest_of_unheld hfree m cycle issued i k).trans he), hran⟩

theorem Dev.Settles.countStall {c t lo hi : Nat} (d : Dev) (x word n : Nat) : d.Settles c t lo hi (d.countStall x word n) := by
  unfold Dev.countStall
  split
  · exact .count d _ _ _
  · split
    · exact .count d _ _ _
    · exact .refl d

/-- What a word of an engine leaves at its end: of cisterns it has changed the region of its task at most, and of the marks those of its opcode. -/
structure Dev.Ends (d : Dev) (c t word cycle : Nat) (f : Dev) : Prop where
  steers : Steers d c t (f.task c t) ((d.task c t).pc + 1)
  clock : (f.task c t).lastCycle = cycle
  region : Quiet d (d.task c t).job → f.well = d.well ∧
    ∀ x a, x ≠ c ∨ a < (d.task c t).base ∨ (d.task c t).bound ≤ a → memGet (f.core x).mem a = memGet (d.core x).mem a
  banks : ∀ x, (f.core x).acc = (d.core x).acc ∧ (f.core x).scale = (d.core x).scale
  marks : (d.marks c t).After (f.marks c t) c t word

/-- A state in which a word has run differs in its end as the word's effect says. -/
theorem Dev.Stays.ends {d e : Dev} {c t i word : Nat} {m : SMap Nat} {cycle : Nat} {issued : Bool} (hop : unitOp (wOpcode word))
    (hstays : (d.clocked c t m cycle issued).Stays c t (d.task c t).base (d.task c t).bound e)
    (hmarks : (d.marks c t).After (e.marks c t) c t word) : d.Ends c t word cycle (e.wordDone ⟨c, t, i⟩ word) where
  steers := steers_wordDone_of_plain ((d.sameCourse_clocked c t m cycle issued).trans hstays.course) (steersItself_of_unitOp hop)
  clock := by
    rw [e.wordDone_own_proj ⟨c, t, i⟩ word Task.lastCycle (fun _ _ _ _ => rfl), hstays.clock, Dev.task_clocked, if_pos rfl]
  region hquiet := by
    have hkept : d.AsQuiet e := (Dev.AsQuiet.clocked d c t m cycle issued).trans hstays.quiet
    have hquiet' : Quiet e (e.tk ⟨c, t, i⟩).job := by
      rw [Dev.tk, (hkept.task c t).2]
      exact hkept.quiet hquiet
    refine ⟨?_, fun x a ha => ?_⟩
    · obtain ⟨sq, k, hdone⟩ := Dev.wordDone_of_quiet hquiet' word
      rw [hdone]
      exact hstays.well
    · rw [Dev.mem_wordDone_of_quiet hquiet', hstays.bytes x a ha, Dev.mem_clocked]
  banks x := by
    rw [e.wordDone_core_proj ⟨c, t, i⟩ word Core.acc (fun _ _ _ _ _ => rfl), e.wordDone_core_proj ⟨c, t, i⟩ word Core.scale (fun _ _ _ _ _ => rfl),
      (hstays.banks x).1, (hstays.banks x).2]
    exact ⟨d.core_clocked_proj c t m cycle issued Core.acc (fun _ _ => rfl) x, d.core_clocked_proj c t m cycle issued Core.scale (fun _ _ => rfl) x⟩
  marks := by rw [e.marks_wordDone ⟨c, t, i⟩ word]; exact hmarks

/-- A word of an engine that nothing holds runs to its end. -/
theorem Dev.runWord_ends {d : Dev} {c t word : Nat} (hop : unitOp (wOpcode word)) (hword : d.wordAt c t (d.task c t).pc = word)
    (hfree : Unheld d c t (engineUses (d.task c t) word).1 (engineUses (d.task c t) word).2) (m : SMap Nat) (cycle : Nat) (issued : Bool)
    (ev : EngEv) (now : Nat) : d.Ends c t word cycle ((d.clocked c t m cycle issued).runWord ⟨c, t, (d.task c t).pc⟩ word ev now) := by
  have hoperates := wordEffect_operates (d.clocked c t m cycle issued) ⟨c, t, (d.task c t).pc⟩ hop ev now
  rw [show (d.clocked c t m cycle issued).tk ⟨c, t, (d.task c t).pc⟩ = (d.clocked c t m cycle issued).task c t from rfl, Dev.engineUses_clocked] at hoperates
  obtain ⟨e, heffect, hran⟩ := hoperates.ran_of_unheld hfree
  have hengine := hfree.2.2
  rw [hword] at hengine
  rw [Dev.runWord_of_free (Dev.engineHeld_clocked hengine m cycle issued) heffect]
  obtain ⟨hstays, hmarks⟩ := hran
  rw [Dev.tk, Dev.base_clocked, Dev.bound_clocked] at hstays
  rw [Dev.marks_clocked] at hmarks
  have hstall := Dev.Settles.countStall (c := c) (t := t) (lo := (d.task c t).base) (hi := (d.task c t).bound) e c word ev.lost
  exact (hstays.trans hstall.toStays).ends hop (by rw [hstall.marks]; exact hmarks)

theorem opcode_of_issues {op : Nat} {core : Fin 256} {task : Fin 8} {word : Nat} {s : State} (hi : Issues op core task word s) : wOpcode word = op := by
  obtain ⟨-, -, -, hop, -⟩ := hi
  exact hop

/-- The state after an engine's word, as O36 speaks of it. -/
theorem Dev.Ends.exec {s : State} {f : Dev} {core : Fin 256} {task : Fin 8} {word cycle op : Nat} {r : Host.Outcome State Fault Refusal}
    (h : s.dev.Ends core task word cycle f) (hop : wOpcode word = op) (hr : r = .next { s with dev := f }) :
    ∃ t, r = .next t ∧ StaysInRegion s t core task word op ∧ (s.dev.marks core task).After (t.dev.marks core task) core task word := by
  subst hop
  exact ⟨_, hr, ⟨⟨rfl, rfl⟩, h.steers, h.region, h.banks, h.marks.sums, h.marks.eleCnt⟩, h.marks⟩

section issued
variable {op : Nat} {core : Fin 256} {task : Fin 8} {word : Nat} {s : State} (hi : Issues op core task word s) (hunit : unitOp op)
  (hfree : Unheld s.dev core task (engineUses (s.dev.task core task) word).1 (engineUses (s.dev.task core task) word).2)
include hi hunit hfree

/-- A word of the element engine or the reduction unit, issued. -/
theorem issueD_staysInRegion (ev : EngEv) : ∃ t, onUp s (issueD op core task ev 0) = .next t ∧ StaysInRegion s t core task word op ∧
    (s.dev.marks core task).After (t.dev.marks core task) core task word := by
  obtain ⟨hup, -⟩ := id hi
  have hop := opcode_of_issues hi
  have hends := Dev.runWord_ends (hop ▸ hunit) (wordAt_of_issues hi) hfree s.dev.cntNow ((s.dev.task core task).issueAt word).lastCycle true ev 0
  rw [← issueD_of_issues hi ev 0] at hends
  exact hends.exec hop (onUp_of_up s _ hup)

/-- A request to the sampler, issued. -/
theorem issueTD_staysInRegion {e : TaskEv} (he : Undisturbed e task) : ∃ t, onUp s (issueTD op core e 0) = .next t ∧
    StaysInRegion s t core task word op ∧ (s.dev.marks core task).After (t.dev.marks core task) core task word := by
  obtain ⟨m, cycle, hexec⟩ := issued_exec he hi
  have hop := opcode_of_issues hi
  exact (Dev.runWord_ends (hop ▸ hunit) (wordAt_of_issues hi) hfree m cycle true evNone 0).exec hop hexec

end issued

end Sys2Proof.Machine

open Sys2Proof Sys2Proof.Machine

/-- Settles O36: each of these words runs its effect in its task's region, and its end moves the task's place on. -/
theorem engineWordsStayInTheirRegion : Obligations.EngineWordsStayInTheirRegion := by
  intro core task word ev e s he hfree
  refine ⟨fun hi => ?_, fun hi => ?_, fun hi => ?_, fun hi => ?_, fun hi => ?_⟩
  · obtain ⟨t, hexec, hregion, hmarks⟩ := issueD_staysInRegion hi (.inl rfl) hfree ev
    exact ⟨t, hexec, hregion, hmarks.ele (.inl (opcode_of_issues hi))⟩
  · obtain ⟨t, hexec, hregion, hmarks⟩ := issueD_staysInRegion hi (.inr (.inl rfl)) hfree ev
    exact ⟨t, hexec, hregion, hmarks.ele (.inr (.inl (opcode_of_issues hi)))⟩
  · obtain ⟨t, hexec, hregion, hmarks⟩ := issueD_staysInRegion hi (.inr (.inr (.inl rfl))) hfree ev
    exact ⟨t, hexec, hregion, hmarks.ele (.inr (.inr (opcode_of_issues hi)))⟩
  · obtain ⟨t, hexec, hregion, hmarks⟩ := issueD_staysInRegion hi (.inr (.inr (.inr (.inl rfl)))) hfree ev
    exact ⟨t, hexec, hregion, hmarks.red (opcode_of_issues hi)⟩
  · obtain ⟨t, hexec, hregion, hmarks⟩ := issueTD_staysInRegion hi (.inr (.inr (.inr (.inr rfl)))) hfree he
    exact ⟨t, hexec, hregion, hmarks.smp (opcode_of_issues hi)⟩
end

section
/-! Held words of engines and held writes of cores at the end of their waits (R165, R376, R378, R401). -/

namespace Sys2Proof.Machine

/-! ### A retry that leaves everything (R378, R379) -/

/-- A wait of another kind is not ended, nor one of a task that does not run, nor one that has outlasted its budget. -/
theorem retryD_of_not_ended {c cycle : Nat} {e : TaskEv} {may : WaitKind → Bool} {d : Dev}
    (h : ∀ word x, d.curWordOf c e.task.val = some word → (d.task c e.task.val).wait = some x → may x.kind = true → d.overdue c e.task.val word x = true) :
    retryD c e cycle may d = d := by
  unfold retryD
  dsimp only
  split
  next word x hword hwait =>
    refine if_neg fun hends => ?_
    simp only [Bool.and_eq_true, Bool.not_eq_true'] at hends
    obtain ⟨⟨hmay, -⟩, hdue⟩ := hends
    rw [h word x hword hwait hmay] at hdue
    cases hdue
  next => rfl

theorem isRingWait_iff {kind : WaitKind} : isRingWait kind = true ↔ ∃ r wr, kind = .ring r wr := by
  cases kind <;> simp [isRingWait]

theorem isStallWait_iff {kind : WaitKind} : isStallWait kind = true ↔ kind = .interlock ∨ kind = .queue ∨ ∃ ps, kind = .drain ps := by
  cases kind <;> simp [isStallWait]

/-- A word's own wait that is of another kind or has outlasted its budget stays. -/
theorem retryD_of_wait_kept {c cycle word : Nat} {e : TaskEv} {task : Fin 8} {may : WaitKind → Bool} {x : Wait} {d : Dev} (htask : e.task = task)
    (hcur : d.curWordOf c task = some word) (hwait : (d.task c task).wait = some x) (h : may x.kind = true → d.overdue c task word x = true) :
    retryD c e cycle may d = d := by
  subst htask
  refine retryD_of_not_ended fun word' y hword hy hmay => ?_
  cases hcur.symm.trans hword
  cases hwait.symm.trans hy
  exact h hmay

/-- The end of an elastic wait leaves a task that waits for no ring. -/
theorem retryD_of_no_ring {c cycle : Nat} {e : TaskEv} {d : Dev} (h : ∀ r wr, (d.task c e.task).wait.map (·.kind) ≠ some (.ring r wr)) :
    retryD c e cycle isRingWait d = d :=
  retryD_of_not_ended fun word x _ hx hmay => by
    obtain ⟨r, wr, hr⟩ := isRingWait_iff.mp hmay
    exact absurd (by rw [hx]; exact congrArg some hr) (h r wr)

/-- A core without a held write has none to retry. -/
theorem Dev.retryFar_of_none {d : Dev} {c : Nat} (h : (d.core c).pump.held = none) : d.retryFar c = d := by
  unfold Dev.retryFar
  rw [h]

/-! ### The word is tried again (R165, R378) -/

theorem Dev.countStall_eq (d : Dev) (c word n : Nat) : ∃ m, d.countStall c word n = { d with cntNow := m } := by
  unfold Dev.countStall
  split
  · exact d.count_eq _ _ _
  · split
    · exact d.count_eq _ _ _
    · exact ⟨d.cntNow, rfl⟩

theorem Dev.countStall_if_eq (d : Dev) (c word n : Nat) {p : Prop} [Decidable p] : ∃ m, (if p then d.countStall c word n else d) = { d with cntNow := m } := by
  split
  · exact d.countStall_eq c word n
  · exact ⟨d.cntNow, rfl⟩

/-- The end of the wait of an engine's word tries the word again in a state whose clock alone has moved on; counters aside, nothing else comes of it. -/
theorem retryD_of_unit {c cycle word : Nat} {e : TaskEv} {task : Fin 8} {may : WaitKind → Bool} {x : Wait} {d : Dev} (he : Undisturbed e task)
    (hcur : d.curWordOf c task = some word) (hwait : (d.task c task).wait = some x) (hmay : may x.kind = true) (hruns : d.taskRuns c task = true)
    (hdue : d.overdue c task word x = false) :
    ∃ m ev f, (d.clocked c task m (max (d.task c task).lastCycle cycle) (d.task c task).issued).runWord ⟨c, task, (d.task c task).pc⟩ word ev d.tb.now = f ∧
      ∃ m', retryD c e cycle may d = { f with cntNow := m' } := by
  have htask : e.task = task := he.1
  have hclock : ∀ m, ({ d with cntNow := m } : Dev).onTask c task (fun k => { k with lastCycle := max k.lastCycle cycle }) =
      d.clocked c task m (max (d.task c task).lastCycle cycle) (d.task c task).issued := fun m => Dev.onTask_congr rfl
  have hstart : ∃ m, (if decide (1 ≤ engineOf (wOpcode word) ∧ engineOf (wOpcode word) ≤ 3) = true then d else d.noted c e) = { d with cntNow := m } := by
    split
    · exact ⟨d.cntNow, rfl⟩
    · exact d.noted_cases c he
  obtain ⟨m, hm⟩ := hstart
  unfold retryD
  dsimp only
  rw [htask, hcur, hwait]
  dsimp only
  rw [if_pos (by simp [hmay, hruns, hdue]), hm, hclock m]
  generalize (if decide (1 ≤ engineOf (wOpcode word) ∧ engineOf (wOpcode word) ≤ 3) = true then e.ev else evNone) = ev
  generalize hrun : Dev.runWord _ _ _ _ _ = f
  refine ⟨m, ev, f, hrun, ?_⟩
  exact f.countStall_if_eq c word _

/-- While an elastic ring fails its tag test an operation is held, in a state whose clock has moved too (R378). -/
theorem Dev.opTest_of_ring {d : Dev} {c t : Nat} {reads writes : List Nat}
    (h : ∃ u ∈ (d.task c t).ringUses reads writes, d.ringFails c t u = true ∧ (d.task c t).elastic u.1 = true) (m : SMap Nat) (cycle : Nat) (issued : Bool)
    (i : Nat) :
    ∃ u ∈ (d.task c t).ringUses reads writes, (d.ringFails c t u = true ∧ (d.task c t).elastic u.1 = true) ∧
      ∃ budget, ∀ k, (d.clocked c t m cycle issued).opTest ⟨c, t, i⟩ reads writes k = .hold (.ring u.1 u.2) budget := by
  cases hfind : ((d.task c t).ringUses reads writes).find? (fun u => d.ringFails c t u && (d.task c t).elastic u.1) with
  | none =>
    obtain ⟨u, hu, hfails, helastic⟩ := h
    have hno := List.find?_eq_none.mp hfind u hu
    rw [hfails, helastic] at hno
    exact absurd rfl hno
  | some u =>
    refine ⟨u, List.mem_of_find?_eq_some hfind, by simpa using List.find?_some hfind,
      ((d.clocked c t m cycle issued).task c t).budget u.1, fun k => ?_⟩
    unfold Dev.opTest
    simp only [Dev.tk, Dev.ringUses_clocked, Dev.ringFails_clocked, Dev.elastic_clocked, hfind]

/-- A word of an engine whose ring holds it waits for that ring. -/
theorem Dev.runWord_of_ring {d : Dev} {w : Who} {word budget : Nat} {ev : EngEv} {now : Nat} {u : Nat × Bool} (hop : unitOp (wOpcode word))
    (hengine : d.engineHeld w word = false) (h : wordEffect d w word ev now = .hold (.ring u.1 u.2) budget) :
    d.runWord w word ev now = d.holdWord w (.ring u.1 u.2) budget := by
  have hrelease : wOpcode word ≠ 0x0A := fun h => by
    rw [h] at hop
    rcases hop with h | h | h | h | h <;> cases h
  unfold Dev.runWord
  rw [hengine, h]
  simp [hrelease, isDataWait]

/-- The wait of a word that waits for a ring. -/
def Wait.forRing (x : Wait) (d : Dev) (w : Who) (u : Nat × Bool) (budget : Nat) : Wait :=
  if x.kind = .ring u.1 u.2 then x else ⟨.ring u.1 u.2, d.tb.round, (d.tk w).lastCycle, budget, x.order⟩

/-- A held word that waits for a ring: tags of its core and its own wait change, and no byte. -/
structure Dev.WaitsOn (d : Dev) (w : Who) (u : Nat × Bool) (e : Dev) : Prop where
  rest : e = { d with cores := e.cores, cntNow := e.cntNow, holds := e.holds }
  mem : ∀ x, (e.core x).mem = (d.core x).mem
  pc : (e.task w.core w.task).pc = (d.task w.core w.task).pc
  wait : ∀ x, (d.task w.core w.task).wait = some x → ∃ budget, (e.task w.core w.task).wait = some (x.forRing d w u budget)

theorem Dev.WaitsOn.of_onTask {d e : Dev} {w : Who} {u : Nat × Bool} {f : Task → Task} {y : Option Wait} (n : Nat) (he : e = { d with cores := e.cores })
    (hmem : ∀ x, (e.core x).mem = (d.core x).mem) (htask : e.task w.core w.task = d.task w.core w.task)
    (hf : f (d.task w.core w.task) = { d.task w.core w.task with wait := y })
    (hy : ∀ x, (d.task w.core w.task).wait = some x → ∃ budget, y = some (x.forRing d w u budget)) :
    d.WaitsOn w u { e.onTask w.core w.task f with holds := n } := by
  have hown : (e.onTask w.core w.task f).task w.core w.task = { d.task w.core w.task with wait := y } := by rw [Dev.task_onTask, htask, hf]
  exact
    { rest := by rw [he]; rfl
      mem := fun x => (Dev.mem_onTask ..).trans (hmem x)
      pc := (congrArg Task.pc hown :)
      wait := fun x hx => by
        obtain ⟨budget, hx⟩ := hy x hx
        exact ⟨budget, (congrArg Task.wait hown :).trans hx⟩ }

theorem Dev.waitsOn_holdWord (d : Dev) (w : Who) (u : Nat × Bool) (budget : Nat) : d.WaitsOn w u (d.holdWord w (.ring u.1 u.2) budget) := by
  unfold Dev.holdWord
  dsimp only [Dev.tk]
  split
  next r hr =>
    have hmem := Dev.sameBytes_onCore d w.core (fun c => c.onTag (ringTag r u.2) (fun g => { g with wait := true, slipped := false })) (fun _ => rfl)
    have htask := Dev.task_onCore (f := fun c => c.onTag (ringTag r u.2) (fun g => { g with wait := true, slipped := false })) (fun _ => rfl) d w.core
    refine .of_onTask _ rfl hmem.mem (htask w.core w.task) rfl fun x hx => ⟨budget, ?_⟩
    rw [hx]
    exact (apply_ite some ..).symm
  next =>
    refine .of_onTask _ rfl (fun _ => rfl) rfl rfl fun x hx => ⟨budget, ?_⟩
    rw [hx]
    exact (apply_ite some ..).symm

/-! ### The end of a held word's wait -/

theorem Dev.wordAt_of_curWordOf {d : Dev} {c t word : Nat} (h : d.curWordOf c t = some word) : d.wordAt c t (d.task c t).pc = word := by
  unfold Dev.curWordOf at h
  dsimp only at h
  split at h
  · exact Option.some.inj h
  · cases h

theorem Wait.kind_forRing (x : Wait) (d : Dev) (w : Who) (u : Nat × Bool) (budget : Nat) : (x.forRing d w u budget).kind = .ring u.1 u.2 := by
  unfold Wait.forRing
  split
  · assumption
  · rfl

theorem Wait.forRing_of_kind {x : Wait} (d : Dev) (w : Who) {u : Nat × Bool} (budget : Nat) (h : x.kind = .ring u.1 u.2) : x.forRing d w u budget = x :=
  if_pos h

section retried
variable {core : Fin 256} {task : Fin 8} {e : TaskEv} {word cycle : Nat} {x : Wait} {may : WaitKind → Bool} {s : State} (he : Undisturbed e task)
  (hcur : s.dev.curWordOf core task = some word) (hwait : (s.dev.task core task).wait = some x) (hmay : may x.kind = true)
  (hruns : s.dev.taskRuns core task = true) (hdue : s.dev.overdue core task word x = false) (hop : unitOp (wOpcode word))
include he hcur hwait hmay hruns hdue hop

/-- A word that nothing holds any more runs to its end. -/
theorem goesOn_retryD (hfree : Unheld s.dev core task (engineUses (s.dev.task core task) word).1 (engineUses (s.dev.task core task) word).2) :
    GoesOn s { s with dev := retryD core e cycle may s.dev } core task cycle := by
  obtain ⟨m, ev, f, hrun, m', hretry⟩ := retryD_of_unit (cycle := cycle) he hcur hwait hmay hruns hdue
  have hends := Dev.runWord_ends hop (Dev.wordAt_of_curWordOf hcur) hfree m (max (s.dev.task core task).lastCycle cycle) (s.dev.task core task).issued ev s.dev.tb.now
  rw [hrun] at hends
  rw [hretry]
  exact ⟨⟨rfl, rfl⟩, hends.steers, hends.clock, hends.region⟩

/-- A word whose ring still fails its tag test stays held. -/
theorem staysHeld_retryD (hengine : s.dev.engineHeld ⟨core, task, (s.dev.task core task).pc⟩ word = false)
    (hring : ∃ u ∈ (s.dev.task core task).ringUses (engineUses (s.dev.task core task) word).1 (engineUses (s.dev.task core task) word).2,
      s.dev.ringFails core task u = true ∧ (s.dev.task core task).elastic u.1 = true) :
    StaysHeld s { s with dev := retryD core e cycle may s.dev } core task word := by
  obtain ⟨m, ev, f, hrun, m', hretry⟩ := retryD_of_unit (cycle := cycle) he hcur hwait hmay hruns hdue
  have hoperates := wordEffect_operates
    (s.dev.clocked core task m (max (s.dev.task core task).lastCycle cycle) (s.dev.task core task).issued) ⟨core, task, (s.dev.task core task).pc⟩ hop ev s.dev.tb.now
  rw [Dev.tk, Dev.engineUses_clocked] at hoperates
  obtain ⟨k, heffect, -⟩ := hoperates
  obtain ⟨u, hu, ⟨hfails, helastic⟩, budget, hheld⟩ := Dev.opTest_of_ring hring m (max (s.dev.task core task).lastCycle cycle) (s.dev.task core task).issued
    (s.dev.task core task).pc
  rw [hheld] at heffect
  rw [Dev.runWord_of_ring hop (Dev.engineHeld_clocked hengine _ _ _) heffect] at hrun
  obtain ⟨hrest, hmem, hpc, hends⟩ := Dev.waitsOn_holdWord
    (s.dev.clocked core task m (max (s.dev.task core task).lastCycle cycle) (s.dev.task core task).issued) ⟨core, task, (s.dev.task core task).pc⟩ u budget
  rw [hrun] at hrest hmem hpc hends
  obtain ⟨budget', hend⟩ := hends x ((Dev.wait_clocked ..).trans hwait)
  rw [hretry]
  refine ⟨⟨rfl, rfl⟩, congrArg (fun z : Dev => { z with cntNow := m' }) hrest, hpc.trans (Dev.pc_clocked ..), fun y => (hmem y).trans (Dev.mem_clocked ..),
    u, hu, hfails, helastic, ?_, fun y hy hkind => ?_⟩
  · exact (congrArg (Option.map Wait.kind) hend).trans (congrArg some (Wait.kind_forRing ..))
  · cases hwait.symm.trans hy
    exact hend.trans (congrArg some (Wait.forRing_of_kind _ _ _ hkind))

end retried

end Sys2Proof.Machine
end

section
/-! A core's write that waits at a full slot of another core's ring (R376, R378, R401). -/

namespace Sys2Proof.Machine

theorem Dev.core_onCore_proj {α : Type} (g : Core → α) (f : Core → Core) (hf : ∀ x, g (f x) = g x) (d : Dev) (c y : Nat) :
    g ((d.onCore c f).core y) = g (d.core y) := by
  by_cases h : y = c
  · subst h
    rw [Dev.core_onCore, hf]
  · rw [Dev.core_onCore_ne _ _ _ _ h]

/-- A mark of a tag other than FULL. -/
theorem Core.full_onTag (x : Core) (i j : Nat) {f : Tag → Tag} (hf : ∀ g, (f g).full = g.full) : ((x.onTag i f).tag j).full = (x.tag j).full := by
  unfold Core.onTag Core.tag mgetD
  dsimp only
  by_cases h : j = i
  · subst h
    rw [mget_mset_self]
    exact hf _
  · rw [mget_mset_ne _ _ _ _ h]

/-- What a test of a slot and a write's transfer are read from: tasks, queues of pumps, bytes, and which tags are full. -/
structure Dev.SlotsAs (d e : Dev) : Prop where
  tasks : ∀ y, (e.core y).tasks = (d.core y).tasks
  mem : ∀ y, (e.core y).mem = (d.core y).mem
  queue : ∀ y, (e.core y).pump.queue = (d.core y).pump.queue
  full : ∀ y i, ((e.core y).tag i).full = ((d.core y).tag i).full

namespace Dev.SlotsAs
variable {d e f : Dev}

theorem trans (h : d.SlotsAs e) (h' : e.SlotsAs f) : d.SlotsAs f where
  tasks y := (h'.tasks y).trans (h.tasks y)
  mem y := (h'.mem y).trans (h.mem y)
  queue y := (h'.queue y).trans (h.queue y)
  full y i := (h'.full y i).trans (h.full y i)

theorem onCore (d : Dev) (c : Nat) {f : Core → Core} (htasks : ∀ x, (f x).tasks = x.tasks) (hmem : ∀ x, (f x).mem = x.mem)
    (hqueue : ∀ x, (f x).pump.queue = x.pump.queue) (hfull : ∀ x i, ((f x).tag i).full = (x.tag i).full) : d.SlotsAs (d.onCore c f) where
  tasks := d.core_onCore_proj Core.tasks f htasks c
  mem := d.core_onCore_proj Core.mem f hmem c
  queue := d.core_onCore_proj (fun x => x.pump.queue) f hqueue c
  full y i := d.core_onCore_proj (fun x => (x.tag i).full) f (fun x => hfull x i) c y

theorem task (h : d.SlotsAs e) (c t : Nat) : e.task c t = d.task c t := congrArg (fun ts => mgetD ts t Task.reset) (h.tasks c)

theorem ringFails (h : d.SlotsAs e) (c t : Nat) (u : Nat × Bool) : e.ringFails c t u = d.ringFails c t u := by
  unfold Dev.ringFails
  rw [h.task]
  split
  · rw [h.full]
  · rfl

theorem farXfer (h : d.SlotsAs e) (c : Nat) : e.farXfer c = d.farXfer c := by
  unfold Dev.farXfer
  simp only [h.queue, h.task]

theorem farFree (d : Dev) (c : Nat) : d.SlotsAs (d.farFree c) := onCore d c (fun _ => rfl) (fun _ => rfl) (fun _ => rfl) (fun _ _ => rfl)

theorem farWait (d : Dev) (c t ring : Nat) (wait : Bool) : d.SlotsAs (d.farWait c t ring wait) := by
  unfold Dev.farWait
  split
  · exact onCore d c (fun _ => rfl) (fun _ => rfl) (fun _ => rfl) (fun x i => Core.full_onTag x _ i (fun _ => rfl))
  · exact ⟨fun _ => rfl, fun _ => rfl, fun _ => rfl, fun _ _ => rfl⟩

end Dev.SlotsAs

theorem Dev.pump_farWait (d : Dev) (c t ring : Nat) (wait : Bool) (y : Nat) : ((d.farWait c t ring wait).core y).pump = (d.core y).pump := by
  unfold Dev.farWait
  split
  next r _ =>
    exact d.core_onCore_proj Core.pump (fun x => x.onTag (ringTag r true) (fun g => { g with wait := wait, slipped := g.slipped && !wait })) (fun _ => rfl) c y
  next => rfl

/-- The first write of a transfer into an empty slot lands, and the transfer notes the slot (R376). -/
theorem Dev.farWrite_first {d : Dev} {writer target off k ring : Nat} {data : Bytes} {x : Xfer} (hx : d.farXfer writer = some x)
    (hfirst : x.far.find? (fun f => f.core == target && f.task == k && f.ring == ring) = none) (hf : d.ringFails target k (ring, true) = false) :
    d.farWrite writer target off data k ring = (d.stored target off data).onXfer (.core (Fin.ofNat 256 writer)) x
      (fun y => { y with far := y.far ++ [⟨target, k, ring, false⟩] }) := by
  unfold Dev.farWrite
  simp [hx, hfirst, hf, Dev.stored]

/-- A change of one transfer in a core's queue changes nothing else of cores. -/
theorem Dev.core_onXfer_proj {α : Type} (g : Core → α) (hg : ∀ x q, g { x with pump := { x.pump with queue := q } } = g x) (d : Dev) (p : Fin 256) (z : Xfer)
    (f : Xfer → Xfer) (y : Nat) : g ((d.onXfer (.core p) z f).core y) = g (d.core y) := by
  unfold Dev.onXfer Dev.onPump
  refine d.core_onCore_proj g _ (fun x => ?_) p y
  dsimp only
  split
  · exact hg _ _
  · rfl

/-- A held write stays held while its slot is full. -/
theorem Dev.retryFar_of_full {d : Dev} {writer k ring : Nat} {h : FarWrite} (hheld : (d.core writer).pump.held = some h)
    (hring : d.putRing writer h.target h.off h.data.length = some (k, ring)) (hfull : d.ringFails h.target k (ring, true) = true) :
    d.retryFar writer = d := by
  unfold Dev.retryFar
  simp [hheld, hring, hfull]

section lands
variable {d : Dev} {writer : Fin 256} {k ring : Nat} {h : FarWrite} {x : Xfer} (hheld : (d.core writer).pump.held = some h)
  (hring : d.putRing writer h.target h.off h.data.length = some (k, ring)) (hx : d.farXfer writer = some x)
  (hfirst : x.far.find? (fun f => f.core == h.target && f.task == k && f.ring == ring) = none)
  (hdue : d.outlasted x.job x.round h.began ((d.task h.target k).budget ring) = false) (hempty : d.ringFails h.target k (ring, true) = false)
include hheld hring hx hfirst hdue hempty

/-- A held write lands once its slot is empty. -/
theorem Dev.retryFar_of_empty : ∃ e : Dev, d.SlotsAs e ∧ (e.core writer).pump.held = none ∧ d.retryFar writer =
    (e.stored h.target h.off h.data).onXfer (.core (Fin.ofNat 256 writer)) x (fun y => { y with far := y.far ++ [⟨h.target, k, ring, false⟩] }) := by
  have hslots := (Dev.SlotsAs.farFree d writer).trans (.farWait _ h.target k ring false)
  refine ⟨_, hslots, ?_, ?_⟩
  · rw [Dev.pump_farWait, Dev.farFree, Dev.core_onCore]
  · rw [← Dev.farWrite_first ((hslots.farXfer _).trans hx) hfirst ((hslots.ringFails ..).trans hempty)]
    unfold Dev.retryFar
    simp only [hheld, hring, hx, hdue, hempty, Bool.or_self, Bool.false_eq_true, if_false]

/-- … and leaves its core's pump, with no task changed. -/
theorem Dev.retryFar_lands : ((d.retryFar writer).core writer).pump.held = none ∧ (∀ c t, (d.retryFar writer).task c t = d.task c t) ∧
    (∀ a, memGet ((d.retryFar writer).core h.target).mem a =
      if h.off ≤ a ∧ a < h.off + h.data.length then h.data.getD (a - h.off) 0 else memGet (d.core h.target).mem a) ∧
    ∀ y, y ≠ h.target → ((d.retryFar writer).core y).mem = (d.core y).mem := by
  obtain ⟨e, hslots, hfreed, hlands⟩ := Dev.retryFar_of_empty hheld hring hx hfirst hdue hempty
  rw [hlands]
  have hmem := Dev.core_onXfer_proj Core.mem (fun _ _ => rfl) (e.stored h.target h.off h.data) (Fin.ofNat 256 writer) x
    (fun y => { y with far := y.far ++ [⟨h.target, k, ring, false⟩] })
  have htasks := Dev.core_onXfer_proj Core.tasks (fun _ _ => rfl) (e.stored h.target h.off h.data) (Fin.ofNat 256 writer) x
    (fun y => { y with far := y.far ++ [⟨h.target, k, ring, false⟩] })
  refine ⟨?_, fun c t => ?_, fun a => ?_, fun y hy => ?_⟩
  · rw [Dev.core_onXfer_proj (fun z => z.pump.held) (fun _ _ => rfl), Dev.stored, Dev.core_onCore_proj (fun z => z.pump.held) (·.store h.off h.data) (fun _ => rfl), hfreed]
  · refine (congrArg (fun ts => mgetD ts t Task.reset) ((htasks c).trans ?_)).trans (hslots.task c t)
    exact e.core_onCore_proj Core.tasks (·.store h.off h.data) (fun _ => rfl) h.target c
  · rw [hmem, Dev.memGet_stored, hslots.mem]
  · rw [hmem, Dev.stored, Dev.core_onCore_ne _ _ _ _ hy, hslots.mem]

end lands

/-- ELASTIC_WAIT_END retries the core's held write, if it is the task's, and then the task's word. -/
theorem exec_elasticWaitEnd {s : State} (hup : s.dev.up = true) (core : Fin 256) (e : TaskEv) (cycle : Nat) : exec (.elasticWaitEnd core e cycle) s =
    .next { s with dev := retryD core e cycle isRingWait (if s.dev.farTask core = e.task.val then s.dev.retryFar core else s.dev) } :=
  onUp_of_up s (fun d => retryD core e cycle isRingWait (if d.farTask core = e.task.val then d.retryFar core else d)) hup

end Sys2Proof.Machine

open Sys2Proof Sys2Proof.Machine

/-- Settles O44: the end of a wait tries the word again as its issue tried it, and a held write as its arrival did. -/
theorem heldWordsGoOn : Obligations.HeldWordsGoOn := by
  refine ⟨fun core task e word cycle w k s hup he hidle hruns hcur hk hwait => ?_, fun core e cycle k ring h x s hup hfar hwait hheld hring hx hfirst hdue => ?_⟩
  · subst hk
    have hfar : (if s.dev.farTask core = e.task.val then s.dev.retryFar core else s.dev) = s.dev := by
      rcases hidle with hnone | hother
      · rw [Dev.retryFar_of_none hnone, ite_self]
      · exact if_neg (fun h => hother (h.trans (congrArg Fin.val he.1)))
    have hring : exec (.elasticWaitEnd core e cycle) s = .next { s with dev := retryD core e cycle isRingWait s.dev } := by
      rw [exec_elasticWaitEnd hup, hfar]
    have hstall : exec (.interlockWaitEnd core e cycle) s = .next { s with dev := retryD core e cycle isStallWait s.dev } := onUp_of_up s _ hup
    have hkeeps : ∀ may : WaitKind → Bool, (may w.kind = true → s.dev.overdue core task word w = true) → retryD core e cycle may s.dev = s.dev :=
      fun may => retryD_of_wait_kept he.1 hcur hwait
    rw [hring, hstall]
    refine ⟨fun hdue => ?_, fun hdue hop => ?_, fun hkind => ?_, fun hlock hqueue hdrain => ?_⟩
    · rw [hkeeps _ fun _ => hdue, hkeeps _ fun _ => hdue]
      exact ⟨rfl, rfl⟩
    · have hunit : unitOp (wOpcode word) := by unfold unitOp; omega
      refine ⟨fun hfree => ⟨fun hkind => ?_, fun hkind => ?_⟩, fun hengine hheld => ⟨fun hkind => ?_, fun hkind => ?_⟩⟩
      · exact ⟨_, rfl, goesOn_retryD he hcur hwait (isRingWait_iff.mpr hkind) hruns hdue hunit hfree⟩
      · exact ⟨_, rfl, goesOn_retryD he hcur hwait (isStallWait_iff.mpr hkind) hruns hdue hunit hfree⟩
      · exact ⟨_, rfl, staysHeld_retryD he hcur hwait (isRingWait_iff.mpr hkind) hruns hdue hunit hengine hheld⟩
      · exact ⟨_, rfl, staysHeld_retryD he hcur hwait (isStallWait_iff.mpr hkind) hruns hdue hunit hengine hheld⟩
    · rw [hkeeps _ fun hmay => ?_]
      obtain ⟨r, wr, hr⟩ := isRingWait_iff.mp hmay
      exact absurd hr (hkind r wr)
    · rw [hkeeps _ fun hmay => ?_]
      rcases isStallWait_iff.mp hmay with h | h | ⟨ps, h⟩
      · exact absurd h hlock
      · exact absurd h hqueue
      · exact absurd h (hdrain ps)
  · have hexec : exec (.elasticWaitEnd core e cycle) s = .next { s with dev := retryD core e cycle isRingWait (s.dev.retryFar core) } := by
      rw [exec_elasticWaitEnd hup, if_pos hfar]
    have hkeeps : ∀ d : Dev, d.task core e.task = s.dev.task core e.task → retryD core e cycle isRingWait d = d := fun d hd =>
      retryD_of_no_ring fun r wr => by rw [hd]; exact hwait r wr
    rw [hexec]
    refine ⟨fun hfull => ?_, fun hempty => ?_⟩
    · rw [Dev.retryFar_of_full hheld hring hfull, hkeeps _ rfl]
    · obtain ⟨hfreed, htasks, hlands, hothers⟩ := Dev.retryFar_lands hheld hring hx hfirst hdue hempty
      rw [hkeeps _ (htasks ..)]
      exact ⟨_, rfl, ⟨rfl, rfl⟩, hfreed, hlands, hothers⟩

end

section
/-! The commands that name a stream's handle (R219, R311, R348, R529, R530), and what they settle: O58. -/

namespace Sys2Proof.Machine

/-! ### What a stream's command leaves -/

/-- `e` has the cores, the jobs and the waiting commands of `d`, and every stream but that of handle `h`. -/
structure Dev.StreamAlone (d : Dev) (h : Nat) (e : Dev) : Prop where
  cores : e.cores = d.cores
  jobs : e.jobs = d.jobs
  cmds : e.cmds = d.cmds
  others : ∀ y, y ≠ h → e.stream y = d.stream y

theorem Dev.Notes.streamAlone {d e : Dev} (n : d.Notes e) (h : Nat) : d.StreamAlone h e := ⟨n.cores, n.jobs, n.cmds, fun y _ => n.stream y⟩

theorem Dev.Notes.targets {d e : Dev} (n : d.Notes e) : e.targets = d.targets := by rw [n.rest]

namespace Dev.StreamAlone
variable {d e f : Dev} {h : Nat}

theorem trans (a : d.StreamAlone h e) (b : e.StreamAlone h f) : d.StreamAlone h f :=
  ⟨b.cores.trans a.cores, b.jobs.trans a.jobs, b.cmds.trans a.cmds, fun y hy => (b.others y hy).trans (a.others y hy)⟩

theorem onStream (d : Dev) (h : Nat) (f : Stream → Stream) : d.StreamAlone h (d.onStream h f) :=
  ⟨rfl, rfl, rfl, fun _ hy => Dev.stream_onStream_ne d _ _ f hy⟩

theorem refuse (d : Dev) (h : Nat) (x : HostCmd) (code : Nat) : d.StreamAlone h (d.refuse x code) := (Dev.Notes.refuse d x code).streamAlone h

theorem answer (d : Dev) (h : Nat) (x : HostCmd) (status code : Nat) : d.StreamAlone h (d.answer x status code) :=
  (Dev.Notes.answer d x status code).streamAlone h

theorem ite {p : Prop} [Decidable p] (he : d.StreamAlone h e) (hf : d.StreamAlone h f) : d.StreamAlone h (if p then e else f) := by
  split <;> assumption

end Dev.StreamAlone

section front
variable {s : State} {x : HostCmd} {rest : List HostCmd} {d : Dev} {h : Nat}

theorem streamOnly_dropUndefined (hc : s.dev.cmds = x :: rest) (alone : s.dev.popCmd.StreamAlone h d) :
    StreamOnly s { s with dev := d.dropUndefined } rest h := by
  have notes := Dev.Notes.dropUndefined d
  obtain ⟨hcores, hjobs, hcmds, hothers⟩ := alone
  refine ⟨⟨rfl, rfl⟩, notes.cores.trans hcores, notes.jobs.trans hjobs, ?_, fun y hy => (notes.stream y).trans (hothers y hy)⟩
  dsimp only
  rw [notes.cmds, hcmds, cmds_popCmd hc]

theorem Dev.stream_popCmd (d : Dev) (y : Nat) : d.popCmd.stream y = d.stream y := rfl

theorem Dev.stream_dropUndefined (d : Dev) (y : Nat) : d.dropUndefined.stream y = d.stream y := (Dev.Notes.dropUndefined d).stream y

theorem Dev.targets_dropUndefined (d : Dev) : d.dropUndefined.targets = d.targets := (Dev.Notes.dropUndefined d).targets

theorem Dev.stream_refuse_popCmd (d : Dev) (x : HostCmd) (code y : Nat) : (d.popCmd.refuse x code).stream y = d.stream y :=
  (Dev.Notes.refuse d.popCmd x code).stream y

end front

/-! ### The stream that a command names -/

/-- A handle in use: its stream is not FREE, or waits for the mark that parks it (R310, R311). -/
abbrev Stream.Taken (k : Stream) : Prop := k.state ≠ .free ∨ k.regAt.isSome = true

theorem Stream.not_taken {k : Stream} : ¬ k.Taken ↔ k.state = .free ∧ k.regAt = none := by
  rw [not_or, not_not, Bool.not_eq_true, Option.isSome_eq_false_iff, Option.isNone_iff_eq_none]

theorem Stream.not_taken_iff_beq {k : Stream} : (k.state == .free) = true ∧ k.regAt.isNone = true ↔ ¬ k.Taken := by
  rw [Stream.not_taken, beq_iff_eq, Option.isNone_iff_eq_none]

/-- The handle that a command names (R529). -/
abbrev HostCmd.handle (x : HostCmd) : Nat := leAt x.bytes 16 2

/-- The command names a stream of its job. -/
abbrev HostCmd.Names (x : HostCmd) (d : Dev) : Prop := (d.stream x.handle).Taken ∧ (d.stream x.handle).job = cmJob x.bytes

/-- The command's handle is free: it names none. -/
theorem HostCmd.not_names {x : HostCmd} {d : Dev} (hfree : (d.stream x.handle).state = .free) (hreg : (d.stream x.handle).regAt = none) : ¬ x.Names d :=
  fun hnames => Stream.not_taken.mpr ⟨hfree, hreg⟩ hnames.1

/-- The stream that REGISTER puts at its handle until the mark that parks it (R311, R529). -/
def HostCmd.registered (x : HostCmd) (i : Image) (mark : Nat) : Stream :=
  { Stream.reset with
    job := cmJob x.bytes
    cls := leAt x.bytes 18 1
    source := leAt x.bytes 19 1
    port := leAt x.bytes 20 1
    tdmSlot := if leAt x.bytes 19 1 = 1 then leAt x.bytes 21 1 else 0
    rate := leAt x.bytes 22 1 % 4
    seed := if leAt x.bytes 24 8 = 0 then i.jobSeed else leAt x.bytes 24 8
    snum := (i.snumBase + x.handle) % 2 ^ 24
    dlen := match i.cls (leAt x.bytes 18 1) with
      | some c => fld c.1 10 1
      | none => 0
    regAt := some mark
    regCmd := some x.ref }

/-- A stream that ends at a mark, but not at the one that parks it (R311). -/
def Stream.endsFrom (k : Stream) (mark : Nat) (r : CmdRef) : Stream :=
  { k with deregAt := some (max mark (k.regAt.getD 0 + 1)), deregCmd := some r }

/-- What TARGET adds (R348, R529). -/
def HostCmd.target (x : HostCmd) (tokens : Bytes) : Target :=
  { round := x.round, handle := x.handle, seg := leAt x.bytes 18 2, first := leAt x.bytes 20 4, tokens := sliceZ tokens 0 (4 * leAt x.bytes 24 4) }

/-! ### The four commands, each by what its handle is -/

section commands
variable {d : Dev} {x : HostCmd}

/-- REGISTER fails for what its job's image does not have, and for a handle that is taken (R530). -/
theorem registerD_cases (hf : d.front 0x10 = some x) : registerD d = match (d.job (cmJob x.bytes)).img with
    | none => d.popCmd.refuse x 0x0A01
    | some i =>
      if (d.job (cmJob x.bytes)).state = .killed ∨ i.registerOk x.bytes = false then d.popCmd.refuse x 0x0A01
      else if (d.stream x.handle).Taken then d.popCmd.refuse x 0x0A04
      else d.popCmd.onStream x.handle (fun _ => x.registered i (d.cmdMark x)) := by
  unfold registerD
  rw [hf]
  dsimp only
  have hjob : d.popCmd.job (cmJob x.bytes) = d.job (cmJob x.bytes) := rfl
  rw [hjob, Dev.stream_popCmd]
  cases (d.job (cmJob x.bytes)).img with
  | none => rfl
  | some i =>
    refine if_congr ?_ rfl (if_congr ?_ rfl rfl)
    · rw [beq_iff_eq, Bool.not_eq_true']
    · rw [bne_iff_ne]

/-- DEREGISTER, RESET_MARK and TARGET act on a stream of their job or fail with E_CMD (R530). -/
theorem deregisterD_cases (hf : d.front 0x11 = some x) : deregisterD d =
    if x.Names d ∧ (d.stream x.handle).deregAt = none ∧ x.handle < 32768 then d.popCmd.onStream x.handle (·.endsFrom (d.cmdMark x) x.ref)
    else d.popCmd.refuse x 0x0A01 := by
  unfold deregisterD
  rw [hf, ← ite_not]
  dsimp only
  refine if_congr ?_ rfl rfl
  rw [Dev.stream_popCmd, Stream.not_taken_iff_beq, not_and_or, not_and_or, not_and_or, not_lt, ← Option.ne_none_iff_isSome, or_assoc]

theorem resetMarkD_cases (hf : d.front 0x12 = some x) : resetMarkD d =
    if x.Names d then (d.popCmd.onStream x.handle (fun k => { k with marks := k.marks ++ [leAt x.bytes 24 8] })).answer x stOk 0
    else d.popCmd.refuse x 0x0A01 := by
  unfold resetMarkD
  rw [hf, ← ite_not]
  dsimp only
  refine if_congr ?_ rfl rfl
  rw [Dev.stream_popCmd, Stream.not_taken_iff_beq, not_and_or]

theorem targetD_cases (tokens : Bytes) (hf : d.front 0x13 = some x) : targetD tokens d =
    if x.Names d ∧ 1 ≤ leAt x.bytes 24 4 ∧ leAt x.bytes 24 4 ≤ 4096 then
      Dev.answer { d.popCmd with targets := d.targets ++ [x.target tokens] } x stOk 0
    else d.popCmd.refuse x 0x0A01 := by
  unfold targetD
  rw [hf, ← ite_not]
  dsimp only
  refine if_congr ?_ rfl rfl
  rw [Dev.stream_popCmd, Stream.not_taken_iff_beq, not_and_or, not_and_or, not_and_or, not_le, not_le, or_assoc]

theorem streamAlone_registerD (hf : d.front 0x10 = some x) : d.popCmd.StreamAlone x.handle (registerD d) := by
  rw [registerD_cases hf]
  split
  · exact .refuse _ _ _ _
  · exact .ite (.refuse _ _ _ _) (.ite (.refuse _ _ _ _) (.onStream _ _ _))

/-- REGISTER of a handle that is taken fails, whatever else is wrong with it. -/
theorem registerD_of_taken (hf : d.front 0x10 = some x) (ht : (d.stream x.handle).Taken) : ∃ code, registerD d = d.popCmd.refuse x code := by
  rw [registerD_cases hf]
  split
  · exact ⟨_, rfl⟩
  · rw [if_pos ht, ← apply_ite (d.popCmd.refuse x)]
    exact ⟨_, rfl⟩

/-- REGISTER of a handle that is free, for what its job's image has. -/
theorem registerD_of_free (hf : d.front 0x10 = some x) {i : Image} (hi : (d.job (cmJob x.bytes)).img = some i)
    (hk : (d.job (cmJob x.bytes)).state ≠ .killed) (hok : i.registerOk x.bytes = true) (hfree : ¬ (d.stream x.handle).Taken) :
    registerD d = d.popCmd.onStream x.handle (fun _ => x.registered i (d.cmdMark x)) := by
  have hfits : ¬ ((d.job (cmJob x.bytes)).state = .killed ∨ i.registerOk x.bytes = false) :=
    not_or.mpr ⟨hk, by rw [hok]; exact Bool.noConfusion⟩
  rw [registerD_cases hf, hi]
  dsimp only
  rw [if_neg hfits, if_neg hfree]

theorem streamAlone_deregisterD (hf : d.front 0x11 = some x) : d.popCmd.StreamAlone x.handle (deregisterD d) := by
  rw [deregisterD_cases hf]
  exact .ite (.onStream _ _ _) (.refuse _ _ _ _)

theorem streamAlone_resetMarkD (hf : d.front 0x12 = some x) : d.popCmd.StreamAlone x.handle (resetMarkD d) := by
  rw [resetMarkD_cases hf]
  exact .ite (.trans (.onStream _ _ _) (.answer _ _ _ _ _)) (.refuse _ _ _ _)

theorem streamAlone_targetD (tokens : Bytes) (hf : d.front 0x13 = some x) : d.popCmd.StreamAlone x.handle (targetD tokens d) := by
  rw [targetD_cases tokens hf]
  have hqueued : d.popCmd.StreamAlone x.handle { d.popCmd with targets := d.targets ++ [x.target tokens] } := ⟨rfl, rfl, rfl, fun _ _ => rfl⟩
  exact .ite (hqueued.trans (.answer _ _ _ _ _)) (.refuse _ _ _ _)

/-- TARGET leaves its own handle's stream alone too. -/
theorem stream_targetD (tokens : Bytes) (hf : d.front 0x13 = some x) (y : Nat) : (targetD tokens d).stream y = d.stream y := by
  rw [targetD_cases tokens hf]
  split
  · exact (Dev.Notes.answer _ _ _ _).stream y
  · exact (Dev.Notes.refuse _ _ _).stream y

end commands

end Sys2Proof.Machine

open Sys2Proof Sys2Proof.Machine

/-- Settles O58: each command by whether its handle is free, or names a stream of its job. -/
theorem streamCommandsActOnTheirHandle : Obligations.StreamCommandsActOnTheirHandle := by
  unfold Obligations.StreamCommandsActOnTheirHandle
  intro tokens x rest j h k s hr hc hj hh hk
  subst hj hh hk
  refine ⟨fun hop => ?_, fun hop => ?_, fun hop => ?_, fun hop => ?_⟩
  all_goals have hf := front_of_cons hc hop
  · refine ⟨_, onCommand_of_ready hr _, streamOnly_dropUndefined hc (streamAlone_registerD hf), fun i hi hkill hok hfree hreg => ?_, fun htaken => ?_⟩
    · dsimp only
      rw [Dev.stream_dropUndefined, registerD_of_free hf hi hkill hok (Stream.not_taken.mpr ⟨hfree, hreg⟩), Dev.stream_onStream]
      exact ⟨rfl, rfl, rfl, rfl, rfl, rfl, rfl, rfl, rfl, rfl⟩
    · obtain ⟨code, hrefused⟩ := registerD_of_taken hf htaken
      dsimp only
      rw [Dev.stream_dropUndefined, hrefused, Dev.stream_refuse_popCmd]
  · refine ⟨_, onCommand_of_ready hr _, streamOnly_dropUndefined hc (streamAlone_deregisterD hf), fun htaken hjob hfirst hlt => ?_, fun hfree hreg => ?_⟩
    · dsimp only
      rw [Dev.stream_dropUndefined, deregisterD_cases hf, if_pos ⟨⟨htaken, hjob⟩, hfirst, hlt⟩, Dev.stream_onStream]
      rfl
    · dsimp only
      rw [Dev.stream_dropUndefined, deregisterD_cases hf, if_neg fun hnames => HostCmd.not_names hfree hreg hnames.1, Dev.stream_refuse_popCmd]
  · refine ⟨_, onCommand_of_ready hr _, streamOnly_dropUndefined hc (streamAlone_resetMarkD hf), fun htaken hjob => ?_, fun hfree hreg => ?_⟩
    · dsimp only
      rw [Dev.stream_dropUndefined, resetMarkD_cases hf, if_pos ⟨htaken, hjob⟩, (Dev.Notes.answer _ _ _ _).stream, Dev.stream_onStream]
      rfl
    · dsimp only
      rw [Dev.stream_dropUndefined, resetMarkD_cases hf, if_neg (HostCmd.not_names hfree hreg), Dev.stream_refuse_popCmd]
  · refine ⟨_, onCommand_of_ready hr _, streamOnly_dropUndefined hc (streamAlone_targetD tokens hf), (Dev.stream_dropUndefined _ _).trans (stream_targetD tokens hf _),
      fun htaken hjob hlo hhi => ?_, fun hfree hreg => ?_⟩
    · dsimp only
      rw [Dev.targets_dropUndefined, targetD_cases tokens hf, if_pos ⟨⟨htaken, hjob⟩, hlo, hhi⟩, (Dev.Notes.answer _ _ _ _).targets]
      rfl
    · dsimp only
      rw [Dev.targets_dropUndefined, targetD_cases tokens hf, if_neg fun hnames => HostCmd.not_names hfree hreg hnames.1,
        (Dev.Notes.refuse _ _ _).targets]
      rfl

end

section
/-! The canonical form of memories (log entry 86) under the state's own operations: what each of them leaves of the well, the deep well's frames and the
cisterns (R364, R436, R579). -/

namespace Sys2Proof.Machine

/-! ### One memory -/

/-- Bytes that a test drops leave the canonical form. -/
theorem Memory.wf_filter {m : SMap Byte} (h : Memory.wf m = true) (p : Nat × Byte → Bool) : Memory.wf (m.filter p) = true := by
  rw [Memory.wf_iff] at h ⊢
  exact ⟨h.1.filter p, fun q hq => h.2 q (List.mem_filter.mp hq).1⟩

/-- Writes one after another keep the canonical form. -/
theorem Memory.wf_foldl {α : Type} {f : SMap Byte → α → SMap Byte} (hf : ∀ m a, Memory.wf m = true → Memory.wf (f m a) = true) (l : List α)
    {m : SMap Byte} (h : Memory.wf m = true) : Memory.wf (l.foldl f m) = true :=
  foldl_keep (fun m => Memory.wf m = true) f l m h (fun m a _ => hf m a)

/-! ### The cistern of one core -/

/-- A core whose cistern is in the canonical form. -/
def Core.Canonical (x : Core) : Prop := Memory.wf x.mem = true

namespace Core.Canonical

variable {x y : Core}

/-- Only the bytes of the cistern matter. -/
theorem of_mem (hx : x.Canonical) (h : y.mem = x.mem) : y.Canonical := by
  unfold Core.Canonical
  rw [h]
  exact hx

theorem of_nil (h : x.mem = []) : x.Canonical := by
  unfold Core.Canonical
  rw [h]
  rfl

theorem reset : Core.reset.Canonical := of_nil rfl

theorem foldl {α : Type} {f : Core → α → Core} (hf : ∀ x a, x.Canonical → (f x a).Canonical) (hx : x.Canonical) (l : List α) : (l.foldl f x).Canonical :=
  foldl_keep Core.Canonical f l x hx (fun x a _ => hf x a)

theorem ite {p : Prop} [Decidable p] (hx : x.Canonical) (hy : y.Canonical) : (if p then x else y).Canonical := by
  split <;> assumption

/-- A table that gives every core on a list a cistern in the canonical form. -/
theorem listed {f : Nat → Core} (hf : ∀ c, (f c).Canonical) (l : List Nat) (c : Nat) : (mgetD (l.map fun k => (k, f k)) c Core.reset).Canonical := by
  induction l with
  | nil => exact reset
  | cons k r ih =>
    simp only [List.map_cons, mgetD, mget] at ih ⊢
    split
    · exact hf k
    · exact ih

theorem storeAll (hx : x.Canonical) (ws : List (Nat × Bytes)) : (x.storeAll ws).Canonical := by
  unfold Core.Canonical Core.storeAll
  refine Memory.wf_foldl (fun m w hm => ?_) ws hx
  exact Memory.wf_write m w.1 w.2 hm

theorem zeroAt (hx : x.Canonical) (a n : Nat) : (x.zeroAt a n).Canonical := Memory.wf_zero x.mem a n hx

theorem store (hx : x.Canonical) (off : Nat) (data : Bytes) : (x.store off data).Canonical := hx.storeAll _

theorem takeSlot (hx : x.Canonical) (l : TableLoad) : (x.takeSlot l).Canonical := by
  unfold Core.takeSlot
  split <;> exact hx

theorem freeSlot (hx : x.Canonical) (i : Nat) : (x.freeSlot i).Canonical := by
  unfold Core.freeSlot
  extract_lets y
  split
  · refine takeSlot ?_ _
    exact hx.of_mem rfl
  · exact hx

theorem applyLoad (hx : x.Canonical) (l : TableLoad) : (x.applyLoad l).1.Canonical := by
  unfold Core.applyLoad
  split
  · exact hx
  · extract_lets y
    split
    · exact hx
    · refine takeSlot ?_ _
      exact hx.of_mem rfl

/-- A history's lanes are written to the cistern as they fold in (R278, R279). -/
theorem closeAcc (hx : x.Canonical) (k : Task) (a : StatAcc) : (x.closeAcc k a).Canonical := by
  unfold Core.Canonical Core.closeAcc
  refine Memory.wf_foldl (fun m c hm => ?_) _ hx
  split
  · exact Memory.wf_write _ _ _ hm
  · exact hm

theorem closeAll (hx : x.Canonical) (t : Nat) (k : Task) : (x.closeAll t k).Canonical := hx.foldl (fun _ _ hx => hx.closeAcc _ _) _

theorem decided (hx : x.Canonical) (c gi reason round : Nat) (vals : List (Nat × Nat)) : (x.decided c gi reason round vals).Canonical := by
  unfold Core.decided
  extract_lets ch
  split
  · exact hx
  · split <;> exact hx

/-- The slot that the next round writes becomes zero (R280). -/
theorem decideAll (hx : x.Canonical) (c t n : Nat) (k : Task) : (x.decideAll c t n k).Canonical := by
  unfold Core.decideAll
  extract_lets mine x1 changed x2
  have hx1 : x1.Canonical := by
    refine hx.foldl (fun y i hy => ?_) _
    split
    · exact (hy.decided _ _ _ _ _).ite hy
    · exact hy
  have hx2 : x2.Canonical := by
    refine hx1.foldl (fun y i hy => ?_) _
    split
    · exact (hy.decided _ _ _ _ _).ite hy
    · exact hy
  refine hx2.foldl (fun y i hy => ?_) _
  split
  · unfold Core.Canonical
    dsimp only
    split
    · exact Memory.wf_zero _ _ _ hy
    · exact hy
  · exact hy

theorem takeFlit (hx : x.Canonical) (t : Take) (num : Nat) (data : Bytes) : (x.takeFlit t num data).Canonical :=
  hx.storeAll [(t.dst + 512 * (num - t.first), data)]

theorem flushFlits (hx : x.Canonical) : x.flushFlits.Canonical := by
  refine hx.foldl (fun y f hy => ?_) _
  split
  · refine takeFlit ?_ _ _ _
    exact hy.of_mem rfl
  · exact hy

theorem clearHist (hx : x.Canonical) (g : Rec) : (x.clearHist g).Canonical := (hx.zeroAt _ _).ite hx

theorem clearPeaks (hx : x.Canonical) : x.clearPeaks.Canonical := ite hx hx

theorem foldPeaks (hx : x.Canonical) (n : Nat) (sel : Nat → Task → Bool) (kept : Nat → Nat → Nat → Bool) : (x.foldPeaks n sel kept).Canonical :=
  hx.of_mem rfl

/-- A lane of a matrix run changes accumulators alone. -/
theorem runOne {d : Dev} {w : Who} {mem : SMap Byte} {r : Rec} {B : Nat} {va : View} {ws : WeightRows} {wf : Fmt} {vo vg vb : View} {p m l : Nat} {a : RunAcc}
    (ha : a.core.Canonical) : (d.runOne w mem r B va ws wf vo vg vb p m l a).core.Canonical := by
  unfold Dev.runOne
  extract_lets
  split
  · exact ha
  · split <;> exact ha.of_mem rfl

theorem foldl_run {α : Type} {f : RunAcc → α → RunAcc} (hf : ∀ a x, a.core.Canonical → (f a x).core.Canonical) {a : RunAcc} (ha : a.core.Canonical)
    (l : List α) : (l.foldl f a).core.Canonical := foldl_keep (fun a => a.core.Canonical) f l a ha (fun a x _ => hf a x)

end Core.Canonical

/-! ### The device -/

namespace MemoriesCanonical

variable {d e : Dev}

theorem well (hd : MemoriesCanonical d) : Memory.wf d.well = true := hd.1

theorem deep (hd : MemoriesCanonical d) : Memory.wf d.deep = true := hd.2.1

theorem core (hd : MemoriesCanonical d) (c : Nat) : (d.core c).Canonical := hd.2.2 c

/-- Only the bytes of the well, the deep well and the cisterns matter. -/
theorem of_bytes (hd : MemoriesCanonical d) (hw : e.well = d.well) (hp : e.deep = d.deep) (hm : ∀ c, (e.core c).mem = (d.core c).mem) : MemoriesCanonical e :=
  ⟨hw ▸ hd.well, hp ▸ hd.deep, fun c => (hd.core c).of_mem (hm c)⟩

/-- What a detection, an error record or a counter leaves. -/
theorem of_aside (hd : MemoriesCanonical d) (h : d.Aside e) : MemoriesCanonical e :=
  hd.of_bytes (by rw [h.rest]) (by rw [h.rest]) (fun c => by rw [(h.core c).1])

/-- What the end of a wait leaves. -/
theorem of_drops (hd : MemoriesCanonical d) (h : d.Drops e) : MemoriesCanonical e :=
  hd.of_bytes (by rw [h.rest]) (by rw [h.rest]) (fun c => by rw [h.core c])

/-- An update of anything else keeps the memories. -/
theorem update (hd : MemoriesCanonical d) {kindle : Kindle} {trust : Trust} {tb : TimeBase} {regs shadow staged : SMap Word} {cntNow cntLr : SMap Nat}
    {slices : SMap Slice} {poolUse : SMap Nat} {zeroing : List (Nat × Nat × Nat)} {jobs : SMap Job} {cmds : List HostCmd} {streams : SMap Stream}
    {seqs : SMap Seq} {moves : List Move} {freed : List Bytes} {cross : SMap CrossQ} {shipIn : Bytes} {rings : SMap HostRing} {out : List HostOut} {msix : Nat}
    {dones : List (Nat × Completion)} {provs : List Prov} {bound : List (Nat × Nat × Nat × Nat)} {targets : List Target} {samples : List Sample}
    {ports : SMap Port} {links : SMap Link} {fabric : Fabric} {mirror : Mirror} {err : ErrBlock} {log : LogBlock} {streamCks : List StreamCk}
    {coreCks : List CoreCk} {gov : Governor} {flr : Bool} {free holds : Nat} :
    MemoriesCanonical ⟨kindle, trust, tb, regs, shadow, staged, cntNow, cntLr, d.cores, slices, d.well, d.deep, poolUse, zeroing, jobs, cmds, streams, seqs,
      moves, freed, cross, shipIn, rings, out, msix, dones, provs, bound, targets, samples, ports, links, fabric, mirror, err, log, streamCks, coreCks,
      gov, flr, free, holds⟩ := hd

theorem of_well (hd : MemoriesCanonical d) {w : SMap Byte} (hw : Memory.wf w = true) : MemoriesCanonical { d with well := w } := ⟨hw, hd.deep, hd.2.2⟩

theorem of_deep (hd : MemoriesCanonical d) {m : SMap Byte} (hm : Memory.wf m = true) : MemoriesCanonical { d with deep := m } := ⟨hd.well, hm, hd.2.2⟩

theorem of_cores (hd : MemoriesCanonical d) {cs : SMap Core} (h : ∀ c, (mgetD cs c Core.reset).Canonical) :
    MemoriesCanonical { d with cores := cs } := ⟨hd.well, hd.deep, h⟩

/-- A change of every core that keeps each cistern. -/
theorem mapCores (hd : MemoriesCanonical d) {f : Nat → Core → Core} (hf : ∀ c x, x.Canonical → (f c x).Canonical) :
    MemoriesCanonical { d with cores := mmap f d.cores } :=
  hd.of_cores fun c => by
    have hc := hd.core c
    simp only [Dev.core, mgetD, mget_mmap] at hc ⊢
    cases hget : mget d.cores c with
    | none => exact .reset
    | some x => rw [hget] at hc; exact hf c x hc

theorem ite {p : Prop} [Decidable p] (hd : MemoriesCanonical d) (he : MemoriesCanonical e) : MemoriesCanonical (if p then d else e) := by
  split <;> assumption

theorem foldl {α : Type} {f : Dev → α → Dev} (hf : ∀ d a, MemoriesCanonical d → MemoriesCanonical (f d a)) (hd : MemoriesCanonical d) (l : List α) :
    MemoriesCanonical (l.foldl f d) := foldl_keep MemoriesCanonical f l d hd (fun d a _ => hf d a)

/-- A fold that gathers something beside the device. -/
theorem foldl_fst {α β : Type} {f : Dev × β → α → Dev × β} (hf : ∀ x a, MemoriesCanonical x.1 → MemoriesCanonical (f x a).1) {x : Dev × β}
    (hx : MemoriesCanonical x.1) (l : List α) : MemoriesCanonical (l.foldl f x).1 := foldl_keep (fun x => MemoriesCanonical x.1) f l x hx (fun x a _ => hf x a)

theorem foldl_pair {α β : Type} {f : Dev × β → α → Dev × β} (hf : ∀ x a, MemoriesCanonical x.1 → MemoriesCanonical (f x a).1) (hd : MemoriesCanonical d)
    (b : β) (l : List α) : MemoriesCanonical (l.foldl f (d, b)).1 := foldl_fst (x := (d, b)) hf hd l

/-- The device of a pair. -/
theorem of_fst {β : Type} {x : Dev × β} {b : β} (hx : MemoriesCanonical x.1) (h : x = (e, b)) : MemoriesCanonical e := by
  subst h
  exact hx

theorem of_snd {β : Type} {x : β × Dev} {b : β} (hx : MemoriesCanonical x.2) (h : x = (b, e)) : MemoriesCanonical e := by
  subst h
  exact hx

/-- One of two pairs: the pair stays a name of its own. -/
theorem ite_snd {β : Type} {p : Prop} [Decidable p] {r x y : β × Dev} (hr : r = if p then x else y) (hx : MemoriesCanonical x.2) (hy : MemoriesCanonical y.2) :
    MemoriesCanonical r.2 := by
  rw [hr]
  split <;> assumption

theorem of_some (hd : MemoriesCanonical d) : ∀ y ∈ some d, MemoriesCanonical y := fun _ hy => Option.mem_some.mp hy ▸ hd

theorem of_none : ∀ y ∈ (none : Option Dev), MemoriesCanonical y := fun _ hy => absurd hy (Option.not_mem_none _)

theorem setCore (hd : MemoriesCanonical d) (c : Nat) {x : Core} (hx : x.Canonical) : MemoriesCanonical (d.setCore c x) :=
  hd.of_cores fun k => by
    rw [mgetD_mset]
    split
    · exact hx
    · exact hd.core k

theorem onCore (hd : MemoriesCanonical d) (c : Nat) {f : Core → Core} (hf : ∀ x, x.Canonical → (f x).Canonical) : MemoriesCanonical (d.onCore c f) :=
  hd.setCore c (hf _ (hd.core c))

/-- A change of a core beside its bytes. -/
theorem onUnit (hd : MemoriesCanonical d) (c : Nat) {f : Core → Core} (hf : ∀ x, (f x).mem = x.mem) : MemoriesCanonical (d.onCore c f) :=
  hd.onCore c fun x hx => hx.of_mem (hf x)

theorem onTask (hd : MemoriesCanonical d) (c t : Nat) (f : Task → Task) : MemoriesCanonical (d.onTask c t f) := hd.onUnit c fun _ => rfl

theorem onSlice (hd : MemoriesCanonical d) (s : Nat) (f : Slice → Slice) : MemoriesCanonical (d.onSlice s f) := hd.update

theorem onJob (hd : MemoriesCanonical d) (j : Nat) (f : Job → Job) : MemoriesCanonical (d.onJob j f) := hd.update

theorem onStream (hd : MemoriesCanonical d) (h : Nat) (f : Stream → Stream) : MemoriesCanonical (d.onStream h f) := hd.update

theorem onPort (hd : MemoriesCanonical d) (p : Nat) (f : Port → Port) : MemoriesCanonical (d.onPort p f) := hd.update

theorem onLink (hd : MemoriesCanonical d) (l : Nat) (f : Link → Link) : MemoriesCanonical (d.onLink l f) := hd.update

theorem onCross (hd : MemoriesCanonical d) (k : Nat) (f : CrossQ → CrossQ) : MemoriesCanonical (d.onCross k f) := hd.update

theorem onRing (hd : MemoriesCanonical d) (k : Nat) (f : HostRing → HostRing) : MemoriesCanonical (d.onRing k f) := hd.update

end MemoriesCanonical

/-- What a word that goes on leaves of the memories. -/
def WRes.Canonical (r : WRes) : Prop := match r with
  | .done e => MemoriesCanonical e
  | .hold _ _ => True

namespace WRes.Canonical

theorem done {e : Dev} (he : MemoriesCanonical e) : (WRes.done e).Canonical := he

theorem of_done {r : WRes} {e : Dev} (hr : r.Canonical) (h : r = .done e) : MemoriesCanonical e := by
  subst h
  exact hr

theorem hold (k : WaitKind) (b : Nat) : (WRes.hold k b).Canonical := trivial

theorem ite {p : Prop} [Decidable p] {r s : WRes} (hr : r.Canonical) (hs : s.Canonical) : (if p then r else s).Canonical := by
  split <;> assumption

end WRes.Canonical

end Sys2Proof.Machine
end

section
/-! What each operation of the model leaves of the memories: one rule for each in the order of the model's files (R364, R436, R579). -/

namespace Sys2Proof.Machine.MemoriesCanonical

variable {d : Dev}

/-! ### The operations of Machine/Ops -/

theorem at_ (hd : MemoriesCanonical d) (now : Nat) : MemoriesCanonical (d.at_ now) := hd.update

theorem setReg (hd : MemoriesCanonical d) (off v : Nat) : MemoriesCanonical (d.setReg off v) := hd.update

theorem putField (hd : MemoriesCanonical d) (off lo n v : Nat) : MemoriesCanonical (d.putField off lo n v) := by
  unfold Dev.putField
  extract_lets d1
  have hd1 : MemoriesCanonical d1 := hd.setReg _ _
  split
  · exact hd1.update
  · exact hd1

theorem count (hd : MemoriesCanonical d) (off lo n : Nat) : MemoriesCanonical (d.count off lo n) := hd.of_aside (.count _ _ _ _)

theorem noteLr (hd : MemoriesCanonical d) (off lo n : Nat) : MemoriesCanonical (d.noteLr off lo n) := hd.ite hd.update

theorem freeVal (hd : MemoriesCanonical d) (kind : Nat) : MemoriesCanonical (d.freeVal kind).2 := hd.update

theorem emit (hd : MemoriesCanonical d) (o : HostOut) : MemoriesCanonical (d.emit o) := hd.update

theorem vector (hd : MemoriesCanonical d) (v : Nat) : MemoriesCanonical (d.vector v) := hd.update.ite (hd.emit _)

theorem unmask (hd : MemoriesCanonical d) (v : Nat) : MemoriesCanonical (d.unmask v) := (hd.update.emit _).ite hd

theorem raise (hd : MemoriesCanonical d) (e : Err) : MemoriesCanonical (d.raise e) := hd.of_aside (.raise _ _)

/-- A log record is written to the log ring in the well. -/
theorem logRec (hd : MemoriesCanonical d) (r : Bytes) : MemoriesCanonical (d.logRec r) := by
  unfold Dev.logRec
  split
  · exact hd.ite (hd.update.raise _)
  · exact (hd.of_well (Memory.wf_write _ _ _ hd.well)).update

theorem ringIrq (hd : MemoriesCanonical d) (kind n : Nat) : MemoriesCanonical (d.ringIrq kind n) := by
  unfold Dev.ringIrq
  extract_lets cfg
  exact hd.ite ((hd.onRing _ _).ite ((hd.onRing _ _).vector _))

theorem writeEntry (hd : MemoriesCanonical d) (kind n : Nat) (bs : Bytes) : MemoriesCanonical (d.writeEntry kind n bs) := by
  unfold Dev.writeEntry
  extract_lets idx d1
  have hd1 : MemoriesCanonical d1 := hd.emit _
  exact (hd1.onRing _ _).ringIrq _ _

theorem post (hd : MemoriesCanonical d) (kind n : Nat) (bs : Bytes) : MemoriesCanonical (d.post kind n bs).1 := by
  unfold Dev.post
  extract_lets r
  split
  · exact hd.writeEntry _ _ _
  · split
    · exact hd.onRing _ _
    · exact hd

theorem postCompletion (hd : MemoriesCanonical d) (c : Completion) : MemoriesCanonical (d.postCompletion c) := by
  unfold Dev.postCompletion
  split
  · rename_i heq
    have he := (hd.post _ _ _).of_fst heq
    exact he
  · rename_i heq
    have he := (hd.post _ _ _).of_fst heq
    exact he.raise _

theorem finishAt (hd : MemoriesCanonical d) (c : Completion) (round : Nat) : MemoriesCanonical (d.finishAt c round) := by
  unfold Dev.finishAt
  extract_lets d1
  have hd1 : MemoriesCanonical d1 := (hd.logRec _).ite hd
  exact hd1.postCompletion _

theorem finish (hd : MemoriesCanonical d) (c : Completion) : MemoriesCanonical (d.finish c) := hd.finishAt _ _

theorem finishCmd (hd : MemoriesCanonical d) (job : Nat) (r : CmdRef) (status code : Nat) : MemoriesCanonical (d.finishCmd job r status code) := hd.finish _

/-! ### The operations of Machine/Contain -/

/-- A write of the well leaves the bytes behind a stopped controller (R18) and keeps the form of the rest. -/
theorem wellWrite (hd : MemoriesCanonical d) (a : Nat) (bs : Bytes) : MemoriesCanonical (d.wellWrite a bs) := by
  unfold Dev.wellWrite
  extract_lets past
  exact (hd.of_well (Memory.wf_write _ _ _ hd.well)).ite (hd.of_well (Memory.wf_write _ _ _ hd.well))

theorem onJobs (hd : MemoriesCanonical d) {f : Dev → Nat → Dev} (hf : ∀ e j, MemoriesCanonical e → MemoriesCanonical (f e j)) :
    MemoriesCanonical (d.onJobs f) :=
  hd.foldl hf _

theorem refreshSlices (hd : MemoriesCanonical d) : MemoriesCanonical d.refreshSlices := by
  unfold Dev.refreshSlices
  refine hd.foldl (fun e a he => ?_) _
  extract_lets used
  split
  · exact (he.onSlice _ _).ite he
  · exact he.ite (he.onSlice _ _)
  · exact he

theorem supersede (hd : MemoriesCanonical d) (p : Prov) (code : Nat) : MemoriesCanonical (d.supersede p code) := hd.update.finish _

theorem supersedeItem (hd : MemoriesCanonical d) (h : Nat) (i : Item) (code : Nat) : MemoriesCanonical (d.supersedeItem h i code) :=
  hd.foldl (fun _ _ he => he.supersede _ _) _

theorem endItem (hd : MemoriesCanonical d) (h : Nat) (i : Item) (status code : Nat) : MemoriesCanonical (d.endItem h i status code) := by
  unfold Dev.endItem
  extract_lets d1 d2 d21
  have hd1 : MemoriesCanonical d1 := hd.onStream _ _
  have hd2 : MemoriesCanonical d2 := hd1.supersedeItem _ _ _
  have hd21 : MemoriesCanonical d21 := hd2.update
  exact hd21.finish _

theorem cancelItems (hd : MemoriesCanonical d) (h : Nat) : MemoriesCanonical (d.cancelItems h) := hd.foldl (fun _ _ he => he.endItem _ _ _ _) _

theorem dropStale (hd : MemoriesCanonical d) : MemoriesCanonical d.dropStale := hd.of_drops (.dropStale _)

theorem unroute (hd : MemoriesCanonical d) (j : Nat) : MemoriesCanonical (d.unroute j) := hd.update

/-- Windows are no bytes of a cistern. -/
theorem closeWindows (hd : MemoriesCanonical d) (j : Nat) : MemoriesCanonical (d.closeWindows j) := hd.mapCores fun _ _ hx => hx.of_mem rfl

theorem unstage (hd : MemoriesCanonical d) (j : Nat) : MemoriesCanonical (d.unstage j) := hd.update

theorem unplace (hd : MemoriesCanonical d) (j : Nat) : MemoriesCanonical (d.unplace j) :=
  ((hd.unroute _).unstage _).foldl (fun _ _ he => he.onUnit _ fun _ => by rfl) _

theorem setTaskStates (hd : MemoriesCanonical d) (j : Nat) (st : TaskState) : MemoriesCanonical (d.setTaskStates j st) :=
  hd.foldl (fun _ _ he => (he.onTask _ _ _).onUnit _ fun _ => by rfl) _

theorem dropStream (hd : MemoriesCanonical d) (h : Nat) (f : Stream → Stream) : MemoriesCanonical (d.dropStream h f) := (hd.onStream _ _).update

theorem freeStream (hd : MemoriesCanonical d) (h : Nat) : MemoriesCanonical (d.freeStream h) := hd.dropStream _ _

theorem endStream (hd : MemoriesCanonical d) (h : Nat) : MemoriesCanonical (d.endStream h) := by
  unfold Dev.endStream
  extract_lets s _ d1
  have hd1 : MemoriesCanonical d1 := hd.update.dropStream _ _
  split
  · exact hd1.finishCmd _ _ _ _
  · exact hd1

theorem kill (hd : MemoriesCanonical d) (j : Nat) (load : Nat × Nat) (logStatus : Nat) : MemoriesCanonical (d.kill j load logStatus) := by
  unfold Dev.kill
  extract_lets job d1 d2 d2b d3 d4 d5 d6 zs d7 d8 d9 d10
  have hd1 : MemoriesCanonical d1 := hd.setTaskStates _ _
  have hd2 : MemoriesCanonical d2 := hd1.foldl (fun _ _ he => he.cancelItems _) _
  have hd2b : MemoriesCanonical d2b := hd2.update.foldl (fun _ _ he => he.finish _) _
  have hd3 : MemoriesCanonical d3 := hd2b.foldl (fun _ _ he => he.supersede _ _) _
  have hd4 : MemoriesCanonical d4 := hd3.foldl (fun _ _ he => he.endStream _) _
  have hd5 : MemoriesCanonical d5 := hd4.foldl (fun _ _ he => he.onUnit _ fun _ => by rfl) _
  have hd6 : MemoriesCanonical d6 := (hd5.closeWindows _).unstage _
  have hd7 : MemoriesCanonical d7 := hd6.update
  have hd8 : MemoriesCanonical d8 := hd7.logRec _
  have hd9 : MemoriesCanonical d9 := by
    unfold d9
    split
    · exact hd8.finishCmd _ _ _ _
    · exact hd8
  have hd10 : MemoriesCanonical d10 := hd9.foldl (fun _ _ he => he.finishCmd _ _ _ _) _
  exact hd.ite (((hd10.onJob _ _).dropStale).refreshSlices)

theorem abortCompile (hd : MemoriesCanonical d) (compile : Nat) : MemoriesCanonical (d.abortCompile compile) := by
  unfold Dev.abortCompile
  refine hd.onJobs (fun e j he => ?_)
  split
  · split
    · extract_lets d1
      have hd1 : MemoriesCanonical d1 := he.logRec _
      exact hd1.kill _ _ _
    · exact he
  · exact he

theorem flrDone (hd : MemoriesCanonical d) : MemoriesCanonical d.flrDone := hd.update.ite hd

theorem functionReset (hd : MemoriesCanonical d) : MemoriesCanonical d.functionReset := (hd.update.onJobs (fun _ _ he => he.kill _ _ _)).flrDone

/-! ### The operations of Machine/Fabric -/

theorem advertise (hd : MemoriesCanonical d) : MemoriesCanonical d.advertise := hd.of_aside (.advertise _)

theorem send (hd : MemoriesCanonical d) (f : Flood) : MemoriesCanonical (d.send f) := hd.update

theorem setBase (hd : MemoriesCanonical d) (epoch baseT baseN : Nat) (root : Bytes) (parent : Nat) :
    MemoriesCanonical (d.setBase epoch baseT baseN root parent) := by
  unfold Dev.setBase
  extract_lets _ tb n
  exact hd.update

theorem setEpoch (hd : MemoriesCanonical d) (epoch : Nat) (root : Bytes) (parent : Nat) : MemoriesCanonical (d.setEpoch epoch root parent) :=
  hd.setBase _ _ _ _ _

theorem linkIrq (hd : MemoriesCanonical d) (l : Nat) : MemoriesCanonical (d.linkIrq l) := hd.of_aside (.linkIrq _ _)

theorem reportMap (hd : MemoriesCanonical d) : MemoriesCanonical d.reportMap := hd.of_aside (.reportMap _)

theorem trainLink (hd : MemoriesCanonical d) (l : Nat) : MemoriesCanonical (d.trainLink l) := hd.of_aside (.trainLink _ _)

theorem reparent (hd : MemoriesCanonical d) : MemoriesCanonical d.reparent := by
  unfold Dev.reparent
  extract_lets p
  exact hd.update.ite hd.update

theorem linkTrained (hd : MemoriesCanonical d) (l : Nat) : MemoriesCanonical (linkTrainedD l d) := ((hd.onLink _ _).advertise).ite hd

theorem leaveBase (hd : MemoriesCanonical d) (l : Nat) : MemoriesCanonical (d.leaveBase l) := hd.update

theorem memberLink (hd : MemoriesCanonical d) (l : Nat) : MemoriesCanonical (d.memberLink l) := ((hd.onLink _ _).advertise).reportMap

theorem linkIdentify (hd : MemoriesCanonical d) (l : Nat) (nonce cert sig : Bytes) (partnerLink : Nat) (baseRoot : Bytes) (busy : Bool) :
    MemoriesCanonical (linkIdentifyD l nonce cert sig partnerLink baseRoot busy d) := by
  unfold linkIdentifyD
  split
  · exact hd
  · extract_lets own d1 id ok d11 d12 survives idle
    have hd1 : MemoriesCanonical d1 := hd.update
    have hd11 : MemoriesCanonical d11 := (hd1.onLink _ _).linkIrq _
    have hd12 : MemoriesCanonical d12 := hd1.onLink _ _
    exact ((hd11.raise _).advertise).ite (((hd12.memberLink _).ite (((hd12.leaveBase _).memberLink _).ite ((hd12.onLink _ _).raise _))).ite (hd12.memberLink _))

theorem joinIfIdle (hd : MemoriesCanonical d) : MemoriesCanonical d.joinIfIdle := by
  unfold Dev.joinIfIdle
  split
  · exact hd
  · split
    · exact hd
    · exact (hd.leaveBase _).foldl (fun _ _ he => he.memberLink _) _

theorem mergeOn (hd : MemoriesCanonical d) (a : Advert) (l : Nat) : MemoriesCanonical (d.mergeOn a l) := by
  unfold Dev.mergeOn
  extract_lets x
  exact hd.ite ((hd.memberLink _).ite ((hd.onLink _ _).ite hd))

theorem checkMinority (hd : MemoriesCanonical d) : MemoriesCanonical d.checkMinority := hd.of_aside (.checkMinority _)

theorem linkDown (hd : MemoriesCanonical d) (l : Nat) : MemoriesCanonical (linkDownD l d) := hd.of_aside (.linkDown _ _)

theorem containSlice (hd : MemoriesCanonical d) (s : Nat) : MemoriesCanonical (d.containSlice s) := hd.of_aside (.containSlice _ _)

theorem retireCore (hd : MemoriesCanonical d) (c : Nat) : MemoriesCanonical (d.retireCore c) := hd.of_aside (.retireCore _ _)

theorem linkEnable (hd : MemoriesCanonical d) (l : Nat) (en : Bool) : MemoriesCanonical (linkEnableD l en d) := by
  unfold linkEnableD
  split
  · exact hd
  · split
    · exact hd.raise _
    · extract_lets d1 d2
      have hd1 : MemoriesCanonical d1 := hd.putField _ _ _ _
      have hd2 : MemoriesCanonical d2 := (hd1.onLink _ _).ite (hd1.linkDown _)
      exact ((hd1.trainLink _).advertise).ite hd2.advertise

theorem sendFlit (hd : MemoriesCanonical d) (l type route len : Nat) (first last : Bool) (payload : Bytes) :
    MemoriesCanonical (d.sendFlit l type route len first last payload) :=
  (hd.onLink _ _).ite hd

theorem sendNak (hd : MemoriesCanonical d) (l : Nat) : MemoriesCanonical (d.sendNak l) := (hd.onLink _ _).count _ _ _

theorem acceptFlit (hd : MemoriesCanonical d) (l : Nat) (flit : Bytes) : MemoriesCanonical (d.acceptFlit l flit) := by
  unfold Dev.acceptFlit
  extract_lets h type route len payload
  split
  · exact hd
  · split
    · exact hd
    · exact (hd.sendFlit _ _ _ _ _ _ _).ite (hd.onLink _ _)

theorem linkFlit (hd : MemoriesCanonical d) (l : Nat) (fecOk : Bool) (corrected : Nat) (flit : Bytes) :
    MemoriesCanonical (linkFlitD l fecOk corrected flit d) := by
  unfold linkFlitD
  extract_lets st d1 h d11 seq gap
  have hd1 : MemoriesCanonical d1 := hd.count _ _ _
  have hd11 : MemoriesCanonical d11 := hd1.onLink _ _
  exact hd.ite (((hd.count _ _ _).sendNak _).ite ((hd1.sendNak _).ite ((hd11.linkDown _).ite (hd11.ite (((hd11.onLink _ _).acceptFlit _ _).ite
    (hd11.ite (hd11.sendNak _)))))))

theorem advertisement (hd : MemoriesCanonical d) (a : Advert) : MemoriesCanonical (advertisementD a d) := by
  unfold advertisementD
  extract_lets old newer changed report _ d1 d2 d3 d4
  have hd1 : MemoriesCanonical d1 := hd.update
  have hd2 : MemoriesCanonical d2 := hd1.update
  have hd3 : MemoriesCanonical d3 := hd2.reportMap.ite hd2
  have hd4 : MemoriesCanonical d4 := (hd3.foldl (fun _ _ he => he.mergeOn _ _) _).joinIfIdle
  exact hd.ite (hd4.checkMinority.ite hd4)

theorem mapConverged (hd : MemoriesCanonical d) : MemoriesCanonical (mapConvergedD d) := by
  unfold mapConvergedD
  split
  · exact hd
  · extract_lets root isRoot changed _ f _ d1
    have hd1 : MemoriesCanonical d1 := hd.update
    exact hd.update.checkMinority.ite (hd1.update.ite hd1.reparent)

theorem selfRoot (hd : MemoriesCanonical d) : MemoriesCanonical (selfRootD d) := by
  unfold selfRootD
  split
  · exact hd
  · extract_lets _ _ d1
    have hd1 : MemoriesCanonical d1 := hd.update
    exact (hd1.setEpoch _ _ _).advertise

theorem alignmentStart (hd : MemoriesCanonical d) : MemoriesCanonical (alignmentStartD d) := hd.update.ite hd

theorem halve (hd : MemoriesCanonical d) (x : Int) : MemoriesCanonical (d.halve x).2 := by
  unfold Dev.halve
  split
  · exact hd
  · exact hd.freeVal 0

theorem timeExchange (hd : MemoriesCanonical d) (l : Nat) (t1 t2 t3 t4 : Nat) : MemoriesCanonical (timeExchangeD l t1 t2 t3 t4 d) := by
  unfold timeExchangeD
  extract_lets st
  split
  · exact hd
  · split
    rename_i theta d' htheta
    have hd' : MemoriesCanonical d' := (hd.halve _).of_snd htheta
    split
    rename_i delay d2 hdelay
    have hd2 : MemoriesCanonical d2 := (hd'.halve _).of_snd hdelay
    extract_lets d1 d3 good d4
    have hd1 : MemoriesCanonical d1 := hd2.onLink _ _
    have hd3 : MemoriesCanonical d3 := hd1.ite hd1.reparent
    exact hd1.ite (hd3.ite (hd3.update.ite (hd3.update.ite ((hd3.update.send _).ite hd3.update))))

theorem alignedReport (hd : MemoriesCanonical d) (id : Bytes) : MemoriesCanonical (alignedReportD id d) := by
  unfold alignedReportD
  split
  · exact hd
  · extract_lets reports _ d1 need t epoch
    have hd1 : MemoriesCanonical d1 := hd.update
    exact (((hd1.setEpoch _ _ _).send _).advertise).ite hd1

theorem epochFlood (hd : MemoriesCanonical d) (epoch : Nat) (running : Option (Nat × Nat × Nat)) : MemoriesCanonical (epochFloodD epoch running d) := by
  unfold epochFloodD
  split
  · exact hd
  · extract_lets root
    split
    · extract_lets d1
      have hd1 : MemoriesCanonical d1 := hd.update
      exact ((hd1.putField _ _ _ _).setBase _ _ _ _ _).advertise
    · exact ((hd.setEpoch _ _ _).advertise).ite hd

theorem newVersion (hd : MemoriesCanonical d) (len : Option Nat) : MemoriesCanonical (d.newVersion len) := by
  unfold Dev.newVersion
  extract_lets eff fresh v
  exact hd.ite (hd.update.send _)

theorem membershipReport (hd : MemoriesCanonical d) (_id : Bytes) : MemoriesCanonical (membershipReportD _id d) := (hd.newVersion _).ite hd

theorem membershipVersion (hd : MemoriesCanonical d) (version eff : Nat) (len : Option Nat) : MemoriesCanonical (membershipVersionD version eff len d) := by
  unfold membershipVersionD
  split
  · extract_lets _ d1 later
    have hd1 : MemoriesCanonical d1 := hd.update
    split
    · exact hd1.ite hd1.update
    · exact hd1
  · exact hd

theorem roundLenReport (hd : MemoriesCanonical d) (len : Nat) (id : Bytes) : MemoriesCanonical (roundLenReportD len id d) := by
  unfold roundLenReportD
  split
  · exact hd
  · split
    · exact hd.send _
    · extract_lets nc loses _ d1 d2
      have hd1 : MemoriesCanonical d1 := hd.update
      have hd2 : MemoriesCanonical d2 := hd1.newVersion _
      exact hd.ite hd2.update

theorem roundLenRefusal (hd : MemoriesCanonical d) : MemoriesCanonical (roundLenRefusalD d) := by
  unfold roundLenRefusalD
  split
  · exact hd
  · extract_lets _ d1 d2 d3
    have hd1 : MemoriesCanonical d1 := hd.update
    have hd2 : MemoriesCanonical d2 := hd1.putField _ _ _ _
    have hd3 : MemoriesCanonical d3 := hd2.raise _
    refine ((hd3.onJobs (fun e j he => ?_)).joinIfIdle).refreshSlices
    extract_lets job
    split
    · exact (((he.unplace _).finishCmd _ _ _ _).onJob _ _).ite he
    · exact he

theorem activationFlood (hd : MemoriesCanonical d) (compile round : Nat) : MemoriesCanonical (activationFloodD compile round d) := by
  unfold activationFloodD
  refine hd.onJobs (fun e j he => ?_)
  extract_lets job
  split
  · exact ((he.send _).ite (he.onJob _ _)).ite he
  · exact he

theorem stagedReport (hd : MemoriesCanonical d) (compile dev : Nat) : MemoriesCanonical (stagedReportD compile dev d) := by
  unfold stagedReportD
  split
  · exact hd
  · extract_lets reps _ d1 a
    have hd1 : MemoriesCanonical d1 := hd.update
    exact ((hd1.update.send _).activationFlood _ _).ite hd1

theorem stagingTimeout (hd : MemoriesCanonical d) (compile : Nat) : MemoriesCanonical (stagingTimeoutD compile d) := ((hd.update.send _).abortCompile _).ite hd

theorem lateActivation (hd : MemoriesCanonical d) (compile : Nat) : MemoriesCanonical (lateActivationD compile d) := ((hd.send _).abortCompile _).ite hd

theorem recoveryNotice (hd : MemoriesCanonical d) (compile round : Nat) (everyDevice : Bool) :
    MemoriesCanonical (recoveryNoticeD compile round everyDevice d) := by
  unfold recoveryNoticeD
  extract_lets mark fix _ _ d1
  have hd1 : MemoriesCanonical d1 := hd.update
  exact (hd1.send _).ite hd1

theorem shipmentReport (hd : MemoriesCanonical d) (mirror round : Nat) : MemoriesCanonical (shipmentReportD mirror round d) := hd.ite hd.update

/-! ### The operations of Machine/Kindling -/

theorem perst (hd : MemoriesCanonical d) (asserted : Bool) : MemoriesCanonical (perstD asserted d) := by
  unfold perstD
  split
  · exact hd
  · split
    · extract_lets _ d1
      have hd1 : MemoriesCanonical d1 := hd.update
      exact hd1.functionReset.ite hd1
    · exact hd.update

theorem firmware (hd : MemoriesCanonical d) (v : Vault) : MemoriesCanonical (firmwareD v d) := by
  unfold firmwareD
  refine hd.ite ?_
  extract_lets _ take d1
  have htake : ∀ slot, MemoriesCanonical (take slot) := fun _ => hd.update.foldl (fun _ _ he => he.trainLink _) _
  exact (htake 0).ite ((htake 1).ite (hd.raise _).update)

theorem keySlot (hd : MemoriesCanonical d) (v : Vault) : MemoriesCanonical (keySlotD v d) := hd.update.ite hd

/-- The test of the cisterns leaves them empty (R579). -/
theorem cisternTest (hd : MemoriesCanonical d) (failing : List Nat) : MemoriesCanonical (cisternTestD failing d) := by
  unfold cisternTestD
  extract_lets _ d1
  have hd1 : MemoriesCanonical d1 := mapCores (hd.update (kindle := { d.kindle with bistDone := true })) fun _ _ _ => Core.Canonical.of_nil rfl
  exact hd.ite (hd1.foldl (fun _ _ he => (he.raise _).retireCore _) _)

theorem wellTraining (hd : MemoriesCanonical d) (ch : Nat) (ok : Bool) : MemoriesCanonical (wellTrainingD ch ok d) := by
  unfold wellTrainingD
  split
  · exact hd
  · split
    · exact hd.update
    · split
      · extract_lets _ d1 d2
        have hd1 : MemoriesCanonical d1 := hd.update
        have hd2 : MemoriesCanonical d2 := hd1.raise _
        exact (hd2.containSlice _).onSlice _ _
      · exact hd.update

/-- Local readiness keeps the bytes of every core. -/
theorem localReady (hd : MemoriesCanonical d) (ms : Nat) : MemoriesCanonical (localReadyD ms d) := by
  unfold localReadyD
  extract_lets k _ d1
  have hcore : ∀ c, Core.Canonical { d.core c with maint := d.coreRetired c } := fun c => (hd.core c).of_mem rfl
  have hd1 : MemoriesCanonical d1 := ⟨hd.well, hd.deep, Core.Canonical.listed hcore _⟩
  exact hd.ite hd1.advertise

theorem boxIrq (hd : MemoriesCanonical d) (ctl : Nat) : MemoriesCanonical (d.boxIrq ctl) := (hd.vector _).ite hd

theorem keyGo (hd : MemoriesCanonical d) : MemoriesCanonical (keyGoD d) := hd.ite (hd.update.ite hd.update)

theorem attGo (hd : MemoriesCanonical d) : MemoriesCanonical (attGoD d) := hd.ite (hd.update.ite hd.update)

theorem attReport (hd : MemoriesCanonical d) (v : Vault) (reachable : Bool) : MemoriesCanonical (attReportD v reachable d) := by
  unfold attReportD
  split
  · exact hd
  · split
    · exact hd.update.boxIrq _
    · split
      · exact hd.update.boxIrq _
      · extract_lets body report
        exact (hd.update.emit _).boxIrq _

/-! ### The operations of Machine/Registers -/

theorem portEnable (hd : MemoriesCanonical d) (p : Nat) (was now : Bool) : MemoriesCanonical (d.portEnable p was now) :=
  hd.ite ((hd.onPort _ _).ite (hd.onPort _ _))

theorem setLogRing (hd : MemoriesCanonical d) : MemoriesCanonical d.setLogRing := hd.update

theorem acceptRoundLen (hd : MemoriesCanonical d) (v : Nat) : MemoriesCanonical (d.acceptRoundLen v) := by
  unfold Dev.acceptRoundLen
  extract_lets d1 _ nc
  have hd1 : MemoriesCanonical d1 := hd.putField _ _ _ _
  exact hd1.update.ite (hd1.update.ite (hd1.update.send _))

theorem takeField (hd : MemoriesCanonical d) (off : Nat) (f : Field) (v : Nat) : MemoriesCanonical (d.takeField off f v) := by
  unfold Dev.takeField
  extract_lets d1
  have hd1 : MemoriesCanonical d1 := hd.putField _ _ _ _
  split
  · exact (hd.acceptRoundLen _).ite (hd1.setLogRing.ite hd1)
  · exact (hd1.portEnable _ _ _).ite hd1
  · exact (hd.linkEnable _ _).ite hd1
  · exact hd1

theorem logTail (hd : MemoriesCanonical d) (v : Nat) : MemoriesCanonical (logTailD v d) := (hd.raise _).ite hd.update

theorem errTail (hd : MemoriesCanonical d) (v : Nat) : MemoriesCanonical (errTailD v d) := (hd.raise _).ite hd.update

theorem hostIdx (hd : MemoriesCanonical d) (kind n v : Nat) : MemoriesCanonical (hostIdxD kind n v d) := by
  unfold hostIdxD
  extract_lets r v1 count stamp
  exact (hd.raise _).ite (hd.onRing _ _)

theorem ovrClr (hd : MemoriesCanonical d) (c t : Nat) : MemoriesCanonical (ovrClrD c t d) := hd.onTask _ _ _

theorem cisScrubClr (hd : MemoriesCanonical d) (c : Nat) : MemoriesCanonical (cisScrubClrD c d) := hd.onUnit _ fun _ => by rfl

theorem stpeakClr (hd : MemoriesCanonical d) (c : Nat) : MemoriesCanonical (stpeakClrD c d) := hd.onUnit _ fun _ => by rfl

theorem dClass (hd : MemoriesCanonical d) (off : Nat) (f : Field) (v : Nat) : MemoriesCanonical (d.dClass off f v) := by
  unfold Dev.dClass
  split
  · exact (hd.logTail _).ite ((hd.errTail _).ite (hd.ite (hd.keyGo.ite (hd.update.ite (hd.update.ite (hd.update.ite hd))))))
  · split
    · split
      · exact hd.hostIdx _ _ _
      · exact hd
    · split
      · extract_lets d1
        have hd1 : MemoriesCanonical d1 := hd.putField _ _ _ _
        exact (hd1.unmask _).ite hd1
      · exact hd.ite (hd.attGo.ite (hd.update.ite hd))
  · exact hd.ite ((hd.onLink _ _).ite (hd.onLink _ _))
  · exact hd.ite (hd.onPort _ _)
  · exact hd.ite ((hd.stpeakClr _).ite ((hd.cisScrubClr _).ite ((hd.ovrClr _ _).ite ((hd.onTask _ _ _).ite (hd.onTask _ _ _)))))
  · exact hd

theorem writeField {a : WriteAcc} (ha : MemoriesCanonical a.d) (was : Dev) (off v : Nat) (f : Field) : MemoriesCanonical (writeField was off v f a).d := by
  unfold Sys2Proof.Machine.writeField
  split
  · split
    · exact ha
    · split
      · exact ha.dClass _ _ _
      · split
        · split
          · exact ha
          · exact ha
        · exact ha.update
      · split
        · exact ha
        · split
          · exact ha
          · exact ha.takeField _ _ _
  · exact ha.dClass _ _ _
  · exact ha.dClass _ _ _

theorem registerWrite (hd : MemoriesCanonical d) (off : Nat) (data : Bytes) : MemoriesCanonical (registerWriteD off data d) := by
  unfold registerWriteD
  extract_lets n reg b v fs cur tdmBad a
  have ha : MemoriesCanonical a.d := foldl_keep (fun a : WriteAcc => MemoriesCanonical a.d) _ _ _ hd (fun _ _ _ he => he.writeField _ _ _ _)
  exact hd.ite ((hd.raise _).ite ((hd.raise _).ite ((hd.raise _).ite ((ha.raise _).ite ha))))

theorem applyShadows (hd : MemoriesCanonical d) (keep : Nat → Bool) : MemoriesCanonical (d.applyShadows keep) := hd.update

theorem roundLenWrite (hd : MemoriesCanonical d) (v now : Nat) : MemoriesCanonical (roundLenWriteD v now d) := by
  unfold roundLenWriteD
  extract_lets e _ a e1
  have ha : MemoriesCanonical a.d := writeField (a := { d := e, range := false, locked := false }) (hd.at_ _) _ _ _ _
  have he1 : MemoriesCanonical e1 := (ha.raise _).ite ha
  exact (he1.raise _).ite he1

/-! ### The operations of Machine/HostPort -/

theorem ringFetch (hd : MemoriesCanonical d) (intake : Bool) (n : Nat) (record payload : Bytes) (now : Nat) :
    MemoriesCanonical (ringFetchD intake n record payload now d) := by
  unfold ringFetchD
  extract_lets kind d1 r stamp record1 payload1 data len it d11 d2
  have hd1 : MemoriesCanonical d1 := hd.at_ _
  have hd11 : MemoriesCanonical d11 := hd1.onRing _ _
  have hd2 : MemoriesCanonical d2 := hd11.onCross _ _
  exact hd1.ite (hd2.ringIrq _ _)

theorem backlogDrain (hd : MemoriesCanonical d) (kind n : Nat) : MemoriesCanonical (backlogDrainD kind n d) := by
  unfold backlogDrainD
  split
  · exact hd
  · exact ((hd.onRing _ _).writeEntry _ _ _).ite hd

theorem irqHoldoff (hd : MemoriesCanonical d) (kind n now : Nat) : MemoriesCanonical (irqHoldoffD kind n now d) := by
  unfold irqHoldoffD
  extract_lets d1 r cfg
  have hd1 : MemoriesCanonical d1 := hd.at_ _
  exact hd1.ite (((hd1.onRing _ _).vector _).ite (hd1.onRing _ _))

theorem bar2Write (hd : MemoriesCanonical d) (off : Nat) (data : Bytes) (now : Nat) : MemoriesCanonical (bar2WriteD off data now d) := by
  unfold bar2WriteD
  extract_lets d1
  have hd1 : MemoriesCanonical d1 := hd.at_ _
  exact hd1.onCross _ _

theorem deny (hd : MemoriesCanonical d) (c : Nat) : MemoriesCanonical (d.deny c) := (hd.onUnit _ fun _ => by rfl).raise _

theorem windowDrop (hd : MemoriesCanonical d) (c : Nat) : MemoriesCanonical (d.windowDrop c) := hd.count _ _ _

theorem bar2Apply (hd : MemoriesCanonical d) (w off : Nat) (data : Bytes) : MemoriesCanonical (d.bar2Apply w off data) := by
  unfold Dev.bar2Apply
  split
  · extract_lets m d1
    have hd1 : MemoriesCanonical d1 := hd.raise _
    exact (hd1.windowDrop _).ite hd1
  · split
    · exact hd.deny _
    · split
      · exact hd.raise _
      · split
        · extract_lets base m
          exact (hd.onCore _ (fun _ hx => hx.storeAll _)).count _ _ _
        · exact (hd.raise _).windowDrop _

theorem bar2ApplyCmd (hd : MemoriesCanonical d) : MemoriesCanonical (bar2ApplyD d) := by
  unfold bar2ApplyD
  extract_lets n ws d1
  have hd1 : MemoriesCanonical d1 := hd.foldl (fun _ _ he => he.ite (he.onCross _ _)) _
  refine hd1.foldl (fun e a he => ?_) _
  split
  · exact he.bar2Apply _ _ _
  · exact he

theorem bar4Write (hd : MemoriesCanonical d) (off : Nat) (data : Bytes) : MemoriesCanonical (bar4WriteD off data d) := by
  unfold bar4WriteD
  extract_lets a
  exact (hd.raise _).ite ((hd.raise _).ite (hd.wellWrite _ _))

theorem bar4Read (hd : MemoriesCanonical d) (off n : Nat) : MemoriesCanonical (bar4ReadD off n d) := by
  unfold bar4ReadD
  extract_lets a
  exact ((hd.raise _).emit _).ite (hd.emit _)

/-! ### The operations of Machine/Detect -/

theorem markFailed (hd : MemoriesCanonical d) (n : Nat) (hs : List Nat) (code : Nat) : MemoriesCanonical (d.markFailed n hs code) :=
  hd.of_aside (.markFailed _ _ _ _)

theorem failItems (hd : MemoriesCanonical d) (e : Err) (n : Nat) (hs : List Nat) (ring : Option Nat) : MemoriesCanonical (d.failItems e n hs ring) :=
  hd.of_aside (.failItems _ _ _ _ _)

theorem loseCore (hd : MemoriesCanonical d) (c code round : Nat) : MemoriesCanonical (d.loseCore c code round) := hd.of_aside (.loseCore _ _ _ _)

theorem loseSlice (hd : MemoriesCanonical d) (s code round : Nat) : MemoriesCanonical (d.loseSlice s code round) := hd.of_aside (.loseSlice _ _ _ _)

theorem loseCtl (hd : MemoriesCanonical d) (k code round : Nat) : MemoriesCanonical (d.loseCtl k code round) := (hd.loseSlice _ _ _).onSlice _ _

theorem detect (hd : MemoriesCanonical d) (e : Err) (hs : List Nat) (job core task round : Nat) : MemoriesCanonical (d.detect e hs job core task round) :=
  hd.of_aside (.detect _ _ _ _ _ _ _)

theorem opDetectAt (hd : MemoriesCanonical d) (code cls c t w n a b : Nat) : MemoriesCanonical (d.opDetectAt code cls c t w n a b) := hd.detect _ _ _ _ _ _

theorem opDetect (hd : MemoriesCanonical d) (code cls c t w a b : Nat) : MemoriesCanonical (d.opDetect code cls c t w a b) := hd.opDetectAt _ _ _ _ _ _ _ _

theorem sliceDown (hd : MemoriesCanonical d) (c t w : Nat) : MemoriesCanonical (d.sliceDown c t w) := hd.of_aside (.sliceDown _ _ _ _)

theorem blockFault (hd : MemoriesCanonical d) (code c t w n tgen blocks addr : Nat) : MemoriesCanonical (d.blockFault code c t w n tgen blocks addr) := by
  unfold Dev.blockFault
  extract_lets a hs
  exact (hd.opDetectAt _ _ _ _ _ _ _ _).ite ((hd.markFailed _ _ _).raise _)

theorem engEvent (hd : MemoriesCanonical d) (c t w : Nat) (ev : EngEv) : MemoriesCanonical (d.engEvent c t w ev) := by
  unfold Dev.engEvent
  extract_lets d1 n d2
  have hd1 : MemoriesCanonical d1 := hd.count _ _ _
  have hd2 : MemoriesCanonical d2 := hd1.count _ _ _
  split
  · exact hd1
  · exact hd1.opDetect _ _ _ _ _ _ _
  · exact hd1.count _ _ _
  · extract_lets cls
    exact hd2.opDetect _ _ _ _ _ _ _

/-! ### The operations of Machine/Operands -/

/-- A ring's pointers and tags are no bytes of a cistern. -/
theorem ringMove (hd : MemoriesCanonical d) (c t : Nat) (slips : List (Nat × Bool)) (u : Nat × Bool) : MemoriesCanonical (d.ringMove c t slips u) := by
  unfold Dev.ringMove
  split
  · extract_lets slip d1
    have hd1 : MemoriesCanonical d1 := hd.onUnit _ fun _ => by rfl
    exact hd1.onTask _ _ _
  · exact hd

theorem slip (hd : MemoriesCanonical d) (w : Who) (ring : Nat) : MemoriesCanonical (d.slip w ring) := by
  unfold Dev.slip
  extract_lets hs r
  exact hd.opDetect _ _ _ _ _ _ _

theorem endRingWait (hd : MemoriesCanonical d) (c t : Nat) : MemoriesCanonical (d.endRingWait c t) := hd.of_drops (.endRingWait _ _ _)

theorem eccReadFor (hd : MemoriesCanonical d) (hs : List Nat) (c t round : Nat) (ws : List Nat) : MemoriesCanonical (d.eccReadFor hs c t round ws) :=
  hd.of_aside (.eccReadFor _ _ _ _ _ _)

theorem eccRead (hd : MemoriesCanonical d) (c t w round : Nat) (ws : List Nat) : MemoriesCanonical (d.eccRead c t w round ws) := hd.eccReadFor _ _ _ _ _

theorem boundFault (hd : MemoriesCanonical d) (w : Who) (round n : Nat) : MemoriesCanonical (d.boundFault w round n) := by
  unfold Dev.boundFault
  split
  · exact hd
  · extract_lets d1
    have hd1 : MemoriesCanonical d1 := hd.count _ _ _
    exact hd1.failItems _ _ _ _

/-- An operation stores its results in the cistern of its core. -/
theorem opDone (hd : MemoriesCanonical d) (w : Who) (reads writes : List Nat) (slips : List (Nat × Bool)) (o : OpOut) :
    MemoriesCanonical (d.opDone w reads writes slips o) := by
  unfold Dev.opDone
  extract_lets tk read met d1 infs d2 d3 d4 d5
  have hd1 : MemoriesCanonical d1 := hd.onCore _ (fun _ hx => hx.storeAll _)
  have hd2 : MemoriesCanonical d2 := hd1.onTask _ _ _
  have hd3 : MemoriesCanonical d3 := hd2.count _ _ _
  have hd4 : MemoriesCanonical d4 := hd3.foldl (fun _ _ he => he.ringMove _ _ _ _) _
  have hd5 : MemoriesCanonical d5 := hd4.foldl (fun _ _ he => he.slip _ _) _
  exact (hd5.boundFault _ _ _).eccRead _ _ _ _ _

theorem evSeen (hd : MemoriesCanonical d) (c : Nat) (ev : EngEv) : MemoriesCanonical (d.evSeen c ev) := by
  unfold Dev.evSeen
  split
  · exact hd.onUnit _ fun _ => by rfl
  · exact hd

theorem seen (hd : MemoriesCanonical d) (c : Nat) (det : Detect) : MemoriesCanonical (d.seen c det) := by
  unfold Dev.seen
  split
  · exact hd.count _ _ _
  · exact hd.onUnit _ fun _ => by rfl
  · exact hd

theorem evMark (hd : MemoriesCanonical d) (w : Who) (ev : EngEv) : MemoriesCanonical (d.evMark w ev) := (hd.evSeen _ _).engEvent _ _ _ _

/-! ### The operations of Machine/Interlock -/

/-- A held operation changes nothing, so only the operation that goes on counts. -/
theorem opTest {w : Who} {reads writes : List Nat} {k : List (Nat × Bool) → WRes} (hk : ∀ slips, (k slips).Canonical) :
    (d.opTest w reads writes k).Canonical := by
  unfold Dev.opTest
  extract_lets tk uses
  split
  · exact .hold _ _
  · exact .ite (.hold _ _) (hk _)

/-! ### The operations of Machine/Matrix -/

/-- A matrix run stores nothing before its operation is done. -/
theorem matRun (hd : MemoriesCanonical d) (w : Who) (desc B wgt : Nat) (ev : EngEv) : (matRunW d w desc B wgt ev).Canonical := by
  unfold matRunW
  extract_lets k r g drains reads writes mem P
  refine opTest (fun slips => ?_)
  extract_lets va vw vo vg vb ws a ds _ x1 x2 grp pts x3 d1 out d2 d3 d4
  have ha : a.core.Canonical := .foldl_run (fun _ _ ha => .foldl_run (fun _ _ ha => .foldl_run (fun _ _ ha => .runOne ha) ha _) ha _) (hd.core _) _
  have hx2 : x2.Canonical := .ite (ha.of_mem rfl) (ha.of_mem rfl)
  have hd1 : MemoriesCanonical d1 := hd.setCore _ (.ite (hx2.of_mem rfl) hx2)
  have hd3 : MemoriesCanonical d3 := ((hd1.opDone _ _ _ _ _).count _ _ _).count _ _ _
  have hd4 : MemoriesCanonical d4 := hd3.foldl (fun _ _ he => by
    extract_lets d5
    have hd5 : MemoriesCanonical d5 := (he.count _ _ _).ite ((he.count _ _ _).ite he)
    exact (hd5.eccRead _ _ _ _ _).ite (hd5.blockFault _ _ _ _ _ _ _ _)) _
  exact .ite (.hold _ _) (.done (hd4.evMark _ _))

theorem gateSet (hd : MemoriesCanonical d) (w : Who) (desc : Nat) : (gateSetW d w desc).Canonical := .done (hd.onTask _ _ _)

/-! ### The operations of Machine/Element -/

theorem elementMap (hd : MemoriesCanonical d) (w : Who) (desc first : Nat) (ev : EngEv) : (elementMap d w desc first ev).Canonical := by
  unfold Sys2Proof.Machine.elementMap
  extract_lets k r nin nout isAcc ins outs reads mem x t0 us outFmt
  refine opTest (fun slips => ?_)
  extract_lets vin vout res ws cands cnt lost out d1 d2
  have hd1 : MemoriesCanonical d1 := hd.onTask _ _ _
  have hd2 : MemoriesCanonical d2 := hd1.onUnit _ fun _ => by rfl
  exact .done ((hd2.opDone _ _ _ _ _).evMark _ _)

theorem elementLut (hd : MemoriesCanonical d) (w : Who) (desc first : Nat) (ev : EngEv) : (elementLut d w desc first ev).Canonical := by
  unfold Sys2Proof.Machine.elementLut
  extract_lets k r reads outs mem x
  refine opTest (fun slips => ?_)
  extract_lets vx vw vy K N xs xsum ys nanX at_ cands out d1 d2
  have hd1 : MemoriesCanonical d1 := hd.onTask _ _ _
  have hd2 : MemoriesCanonical d2 := hd1.onUnit _ fun _ => by rfl
  exact .done ((hd2.opDone _ _ _ _ _).evMark _ _)

theorem eleRun (hd : MemoriesCanonical d) (w : Who) (desc first : Nat) (ev : EngEv) : (eleRunW d w desc first ev).Canonical :=
  .ite (hd.elementLut _ _ _ _) (hd.elementMap _ _ _ _)

/-! ### The operations of Machine/Scan -/

theorem eleScan (hd : MemoriesCanonical d) (w : Who) (desc : Nat) (ev : EngEv) : (eleScanW d w desc ev).Canonical := by
  unfold eleScanW
  extract_lets k r comp low reads writes mem isInt kind hiOf d1
  have hd1 : MemoriesCanonical d1 := hd.onUnit _ fun _ => by rfl
  refine opTest (fun slips => ?_)
  extract_lets vw xa T rows rowRes wr put putRow lowOut ws anyNan out
  exact .done ((hd1.opDone _ _ _ _ _).evMark _ _)

/-! ### The operations of Machine/Reduce -/

theorem redRun (hd : MemoriesCanonical d) (w : Who) (desc sum : Nat) (ev : EngEv) : (redRunW d w desc sum ev).Canonical := by
  unfold redRunW
  extract_lets k r merge reads writes mem tyF
  refine opTest (fun slips => ?_)
  extract_lets v isInt t s0 rows ws nEmpty first out d1 d2 d3
  have hd1 : MemoriesCanonical d1 := hd.onTask _ _ _
  have hd2 : MemoriesCanonical d2 := hd1.onUnit _ fun _ => by rfl
  have hd3 : MemoriesCanonical d3 := hd2.count _ _ _
  exact .done ((hd3.opDone _ _ _ _ _).evMark _ _)

/-! ### The operations of Machine/Convert -/

theorem convert (hd : MemoriesCanonical d) (w : Who) (desc : Nat) (ev : EngEv) : (convertW d w desc ev).Canonical := by
  unfold convertW
  extract_lets k r si di mem x map grp
  refine opTest (fun slips => ?_)
  extract_lets vs vd fs fd pts nan cps out d1
  have hd1 : MemoriesCanonical d1 := by
    unfold d1
    refine hd.onCore _ (fun x1 hx => ?_)
    extract_lets y
    split
    · exact hx.of_mem rfl
    · exact hx.of_mem rfl
  exact .done ((hd1.opDone _ _ _ _ _).evMark _ _)

theorem statFlush (hd : MemoriesCanonical d) (w : Who) (desc : Nat) : (statFlushW d w desc).Canonical := by
  unfold statFlushW
  refine .done (hd.onCore _ (fun x hx => ?_))
  split
  · exact hx.closeAcc _ _
  · exact hx

/-! ### The operations of Machine/Sampler -/

theorem smpReq (hd : MemoriesCanonical d) (w : Who) (desc : Nat) : (smpReqW d w desc).Canonical := by
  unfold smpReqW
  extract_lets k r token reads writes mem cand s d1 d2
  have hd1 : MemoriesCanonical d1 := hd.onSlice _ _
  have hd2 : MemoriesCanonical d2 := hd1.count _ _ _
  refine opTest (fun slips => ?_)
  extract_lets vd vs vm V rows vt T pts out
  exact .done (hd2.opDone _ _ _ _ _)

/-! ### The operations of Machine/Relay -/

theorem takeFault (hd : MemoriesCanonical d) (code c t lo hi b : Nat) : MemoriesCanonical (d.takeFault code c t lo hi b) :=
  hd.of_aside (.takeFault _ _ _ _ _ _ _)

theorem relay (hd : MemoriesCanonical d) (w : Who) (desc : Nat) : (relayW d w desc).Canonical := by
  unfold relayW
  extract_lets k t r x head n pass fresh inj met past held lostN dst take d1 d2
  have hd1 : MemoriesCanonical d1 := by
    unfold d1
    refine hd.onCore _ (fun _ hx => Core.Canonical.flushFlits ?_)
    exact hx.of_mem rfl
  have hd2 : MemoriesCanonical d2 := hd1.eccRead _ _ _ _ _
  exact .done (hd2.ite ((hd2.count _ _ _).takeFault _ _ _ _ _ _))

theorem earlyFlit (hd : MemoriesCanonical d) (c : Nat) (f : RFlit) (crcOk : Bool) : MemoriesCanonical (earlyFlitD c f crcOk d) := by
  unfold earlyFlitD
  extract_lets issued past note d1
  have hnote : ∀ s, MemoriesCanonical (note s d) := fun _ => hd.onUnit _ fun _ => by rfl
  refine hd.ite ?_
  split
  · exact hnote _
  · extract_lets r dst fault
    have hfault : ∀ code e, MemoriesCanonical e → MemoriesCanonical (fault code e) := fun _ _ he => he.takeFault _ _ _ _ _ _
    have hd1 : MemoriesCanonical d1 := (hnote _).onUnit _ fun _ => by rfl
    exact (hnote _).ite ((hd1.ite (hfault _ _ hd1)).ite ((hnote _).ite (hfault _ _ ((hnote _).count _ _ _))))

theorem takenFlit (hd : MemoriesCanonical d) (c : Nat) (f : RFlit) (t : Take) (ev : FlitEv) : MemoriesCanonical (takenFlitD c f t ev d) := by
  unfold takenFlitD
  extract_lets g fault d1 d2 d3
  have hfault : ∀ code e, MemoriesCanonical e → MemoriesCanonical (fault code e) := fun _ _ he => he.takeFault _ _ _ _ _ _
  have hd1 : MemoriesCanonical d1 := hd.onUnit _ fun _ => by rfl
  have hd2 : MemoriesCanonical d2 := hd.onUnit _ fun _ => by rfl
  have hd3 : MemoriesCanonical d3 := hd.onCore _ fun _ hx => hx.takeFlit _ _ _
  exact ((hd1.ite (hfault _ _ hd1)).ite (hd2.ite (hfault _ _ (hd2.count _ _ _)))).ite (hd3.ite (hfault _ _ hd3))

/-- Flits land in the cistern at the places of the take they belong to. -/
theorem relayFlit (hd : MemoriesCanonical d) (c : Nat) (ev : FlitEv) : MemoriesCanonical (relayFlitD c ev d) := by
  unfold relayFlitD
  extract_lets d1 p
  have hd1 : MemoriesCanonical d1 := (hd.ite (hd.onCore _ (fun _ hx => hx.flushFlits))).count _ _ _
  split
  · exact hd1
  · extract_lets d11 d2 d3
    have hd11 : MemoriesCanonical d11 := hd1.onUnit _ fun _ => by rfl
    have hd2 : MemoriesCanonical d2 := (hd11.onUnit _ fun _ => by rfl).ite hd11
    have hd3 : MemoriesCanonical d3 := (hd2.count _ _ _).ite hd2
    split
    · exact hd3.takenFlit _ _ _ _
    · exact hd3.earlyFlit _ _ _

/-! ### The operations of Machine/Pump -/

theorem onPump (hd : MemoriesCanonical d) (p : PumpId) (f : Pump → Pump) : MemoriesCanonical (d.onPump p f) := hd.of_drops (.onPump _ _ _)

theorem rebasePumps (hd : MemoriesCanonical d) : MemoriesCanonical d.rebasePumps := hd.foldl (fun _ _ he => he.onPump _ _) _

theorem choosePaths (hd : MemoriesCanonical d) (j : Nat) : MemoriesCanonical (d.choosePaths j) := by
  unfold Dev.choosePaths
  split
  · exact hd
  · extract_lets ps
    exact hd.onJob _ _

theorem flitTime (hd : MemoriesCanonical d) (f : Nat) : MemoriesCanonical (d.flitTime f).2 := by
  unfold Dev.flitTime
  split
  · exact hd
  · extract_lets v
    have hv : MemoriesCanonical v.2 := hd.freeVal _
    exact hv

theorem enqueue (hd : MemoriesCanonical d) (p : PumpId) (x : Xfer) : MemoriesCanonical (d.enqueue p x) := by
  unfold Dev.enqueue
  extract_lets r ew d1
  have hd1 : MemoriesCanonical d1 := (hd.onUnit _ fun _ => by rfl).ite hd
  exact hd1.onPump _ _

theorem pump (hd : MemoriesCanonical d) (w : Who) (desc kind : Nat) : (pumpW d w desc kind).Canonical := by
  unfold pumpW
  extract_lets k r job x go
  have hgo : ∀ p x e, MemoriesCanonical e → (go p e x).Canonical := fun _ _ _ he => .ite (.hold _ _) (.done (he.enqueue _ _))
  refine .ite (.hold _ _) (.ite (hgo _ _ _ hd) (.ite (hgo _ _ _ hd) ?_))
  split
  · exact .done hd
  · exact hgo _ _ _ ((hd.flitTime _).ite hd)

theorem pumpRead (hd : MemoriesCanonical d) (p : PumpId) (n now : Nat) : MemoriesCanonical (pumpReadD p n now d) := by
  unfold pumpReadD
  extract_lets d1 lvl
  have hd1 : MemoriesCanonical d1 := hd.at_ _
  split
  · exact hd1
  · split
    · exact hd1
    · split
      · exact hd1
      · exact (hd1.onPump _ _).count _ _ _

theorem pumpDrain (hd : MemoriesCanonical d) (p : PumpId) : MemoriesCanonical (pumpDrainD p d) := (hd.onPump _ _).ite hd

theorem landIn (hd : MemoriesCanonical d) (x : Xfer) (space : Nat) (ws : List (Nat × Bytes)) : MemoriesCanonical (d.landIn x space ws) := by
  unfold Dev.landIn
  extract_lets k ok size ok1
  exact ((hd.onCore _ (fun _ hx => hx.storeAll _)).boundFault _ _ _).ite ((hd.foldl (fun _ _ he => he.wellWrite _ _) _).ite
    (((hd.foldl (fun _ _ he => he.emit _) _).boundFault _ _ _).ite hd))

theorem sendXfer (hd : MemoriesCanonical d) (l : Nat) (fixed : Bool) (route : Nat) (bs : Bytes) : MemoriesCanonical (d.sendXfer l fixed route bs) := by
  unfold Dev.sendXfer
  extract_lets cs
  exact hd.foldl (fun _ _ he => he.sendFlit _ _ _ _ _ _ _) _

theorem wellFault (hd : MemoriesCanonical d) (x : Xfer) (reads : List (Nat × Nat × Nat)) : MemoriesCanonical (d.wellFault x reads) := by
  unfold Dev.wellFault
  split
  · exact hd
  · split
    · exact hd
    · extract_lets u
      exact hd.detect _ _ _ _ _ _

theorem readFaults (hd : MemoriesCanonical d) (x : Xfer) (pl : PumpPlan) (met : List Nat) : MemoriesCanonical (d.readFaults x pl met) :=
  ((hd.boundFault _ _ _).wellFault _ _).eccRead _ _ _ _ _

theorem xferFail (hd : MemoriesCanonical d) (x : Xfer) (code : Nat) (ring : Option Nat) : MemoriesCanonical (d.xferFail x code ring) := hd.failItems _ _ _ _

theorem planFail (hd : MemoriesCanonical d) (x : Xfer) (pl : PumpPlan) : MemoriesCanonical (d.planFail x pl) := by
  unfold Dev.planFail
  extract_lets r code hs
  exact hd.ite (hd.failItems _ _ _ _)

theorem dropXfer (hd : MemoriesCanonical d) (p : PumpId) (x : Xfer) : MemoriesCanonical (d.dropXfer p x) := hd.onPump _ _

theorem farDone (hd : MemoriesCanonical d) (x : Xfer) : MemoriesCanonical (d.farDone x) := hd.foldl (fun _ _ he => he.ringMove _ _ _ _) _

theorem xferDone (hd : MemoriesCanonical d) (p : PumpId) (x : Xfer) : MemoriesCanonical (d.xferDone p x) := by
  unfold Dev.xferDone
  extract_lets r d1
  have hd1 : MemoriesCanonical d1 := (hd.dropXfer _ _).farDone _
  exact hd1.ite ((hd1.onUnit _ fun _ => by rfl).ite (hd1.sliceDown _ _ _))

theorem decodeFaults (hd : MemoriesCanonical d) (x : Xfer) (p : PumpPlan) : MemoriesCanonical (d.decodeFaults x p) := by
  unfold Dev.decodeFaults
  extract_lets d1
  have hd1 : MemoriesCanonical d1 := hd.count _ _ _
  refine hd1.foldl (fun e a he => ?_) _
  extract_lets d2
  have hd2 : MemoriesCanonical d2 := (he.count _ _ _).ite ((he.count _ _ _).ite he)
  exact (hd2.eccRead _ _ _ _ _).ite (hd2.blockFault _ _ _ _ _ _ _ _)

/-- A transfer lands in the cistern, the well or the deep well. -/
theorem landXfer (hd : MemoriesCanonical d) (p : PumpId) (x : Xfer) (pl : PumpPlan) : MemoriesCanonical (d.landXfer p x pl) := by
  unfold Dev.landXfer
  extract_lets k r s t uses slips dstSlip srcSlip ws bs bs1 ew d1 d2 d3 d4 d5 d6
  have hd1 : MemoriesCanonical d1 := by
    unfold d1
    split
    · split
      · extract_lets d'
        have hd' : MemoriesCanonical d' := hd.sendXfer _ _ _ _
        exact hd'.update
      · exact hd
    · exact (hd.onUnit _ fun _ => by rfl).ite (hd.ite (hd.landIn _ _ _))
  have hd2 : MemoriesCanonical d2 := hd1.landIn _ _ _
  have hd3 : MemoriesCanonical d3 := hd2.update.ite hd2
  have hd4 : MemoriesCanonical d4 := hd3.foldl (fun _ _ he => he.ringMove _ _ _ _) _
  have hd5 : MemoriesCanonical d5 := hd4.foldl (fun _ _ he => he.slip _ _) _
  have hd6 : MemoriesCanonical d6 := (hd5.decodeFaults _ _).readFaults _ _ _
  exact (hd6.planFail _ _).xferDone _ _

theorem xferWaits (hd : MemoriesCanonical d) (p : PumpId) (x : Xfer) (us : List (Nat × Bool)) : MemoriesCanonical (d.xferWaits p x us) := by
  unfold Dev.xferWaits
  refine (hd.onPump _ _).foldl (fun e a he => ?_) _
  split
  · exact he.onUnit _ fun _ => by rfl
  · exact he

theorem pumpComplete (hd : MemoriesCanonical d) (p : PumpId) (now : Nat) (deep : Bytes) : MemoriesCanonical (pumpCompleteD p now deep d) := by
  unfold pumpCompleteD
  extract_lets d1
  have hd1 : MemoriesCanonical d1 := hd.at_ _
  split
  · exact hd1
  · extract_lets pl k
    refine hd1.ite ((hd1.dropXfer _ _).ite (((hd1.dropXfer _ _).count _ _ _).ite (hd1.ite ?_)))
    split
    · extract_lets off y d2
      have hd2 : MemoriesCanonical d2 := (hd1.onUnit _ fun _ => by rfl).readFaults _ _ _
      exact (hd2.planFail _ _).xferDone _ _
    · split
      · exact hd1.landXfer _ _ _
      · exact hd1.xferWaits _ _ _

/-! ### The operations of Machine/Spec -/

/-- A page's parts are written in the cistern, the well or the deep well (R436). -/
theorem pageWrite (hd : MemoriesCanonical d) (l : Rec) (i p h : Nat) (ws : List (Nat × Bytes)) : MemoriesCanonical (d.pageWrite l i p h ws) := by
  unfold Dev.pageWrite
  extract_lets f a b m
  have hm : Memory.wf m = true := Memory.wf_foldl (fun _ _ hm => Memory.wf_write _ _ _ hm) _ hd.deep
  exact ite (hd.onCore _ fun _ hx => hx.storeAll _) (ite (hd.foldl (fun _ _ he => he.wellWrite _ _) _) (ite (hd.ite ((hd.of_deep hm).emit _)) hd))

theorem onPages (hd : MemoriesCanonical d) (l : Rec) (i p : Nat) (ws : List (Nat × Bytes)) : MemoriesCanonical (d.onPages l i p ws) :=
  hd.foldl (fun _ _ he => he.pageWrite _ _ _ _ _) _

theorem copyPages (hd : MemoriesCanonical d) (l : Rec) (i src dst round : Nat) (hs : List Nat) : MemoriesCanonical (d.copyPages l i src dst round hs) := by
  unfold Dev.copyPages
  refine hd.foldl (fun e a he => ?_) _
  extract_lets a1 met
  exact (he.pageWrite _ _ _ _ _).eccReadFor _ _ _ _ _

theorem setSeq (hd : MemoriesCanonical d) (h layer : Nat) (f : Seq → Seq) : MemoriesCanonical (d.setSeq h layer f) := hd.update

theorem openSeq (hd : MemoriesCanonical d) (h round : Nat) (l : Rec) : MemoriesCanonical (d.openSeq h round l) := by
  unfold Dev.openSeq
  extract_lets s i d1
  have hd1 : MemoriesCanonical d1 := by
    unfold d1
    split
    · exact (hd.copyPages _ _ _ _ _ _).ite hd
    · exact hd
  exact hd1.setSeq _ _ _

theorem commitSeq (hd : MemoriesCanonical d) (h : Nat) (l : Rec) (c : Nat) : MemoriesCanonical (d.commitSeq h l c) := by
  unfold Dev.commitSeq
  extract_lets s L2 es d1
  have hd1 : MemoriesCanonical d1 := by
    unfold d1
    refine hd.foldl (fun e a he => ?_) _
    extract_lets i
    split
    · extract_lets d11
      have hd11 : MemoriesCanonical d11 := he.onPages _ _ _ _
      exact hd11.setSeq _ _ _
    · exact he
  exact hd1.setSeq _ _ _

theorem abortSeq (hd : MemoriesCanonical d) (h : Nat) (l : Rec) : MemoriesCanonical (d.abortSeq h l) := hd.setSeq _ _ _

theorem abortGen (hd : MemoriesCanonical d) (h : Nat) (draft : Bool) : MemoriesCanonical (d.abortGen h draft) :=
  ((hd.foldl (fun _ _ he => he.abortSeq _ _) _).onStream _ _).ite hd

theorem putIn (hd : MemoriesCanonical d) (c t space : Nat) (ws : List (Nat × Bytes)) : MemoriesCanonical (d.putIn c t space ws) := by
  unfold Dev.putIn
  extract_lets k
  exact (hd.onCore _ (fun _ hx => hx.storeAll _)).ite ((hd.foldl (fun _ _ he => he.wellWrite _ _) _).ite hd)

theorem writeRow (hd : MemoriesCanonical d) (c t : Nat) (r : Rec) (q : Nat) : MemoriesCanonical (d.writeRow c t r q) := by
  unfold Dev.writeRow
  extract_lets k idx ia row la
  split
  · exact hd
  · extract_lets s mx new d1
    have hd1 : MemoriesCanonical d1 := hd.putIn _ _ _ _
    exact hd1.ite (hd1.putIn _ _ _ _)

theorem writeRows (hd : MemoriesCanonical d) (c t : Nat) : MemoriesCanonical (d.writeRows c t) :=
  hd.foldl (fun _ _ he => he.foldl (fun _ _ he1 => he1.writeRow _ _ _ _) _) _

theorem writeSeqs (hd : MemoriesCanonical d) (j : Nat) : MemoriesCanonical (d.writeSeqs j) := hd.foldl (fun _ _ he => he.writeRows _ _) _

theorem specOpen (hd : MemoriesCanonical d) (w : Who) (desc : Nat) : (specOpenW d w desc).Canonical := by
  unfold specOpenW
  extract_lets k r
  refine .done ((hd.foldl (fun e a he => ?_) _).writeSeqs _)
  extract_lets d1
  have hd1 : MemoriesCanonical d1 := he.ite ((he.foldl (fun _ _ he1 => he1.openSeq _ _ _) _).onStream _ _)
  exact hd1.onStream _ _

theorem specAbort (hd : MemoriesCanonical d) (w : Who) (desc : Nat) : (specAbortW d w desc).Canonical := by
  unfold specAbortW
  extract_lets k r
  exact .done ((hd.foldl (fun _ _ he => he.abortGen _ _) _).writeSeqs _)

theorem commitSlot (hd : MemoriesCanonical d) (w : Who) (r : Rec) (pairs : List (Nat × Nat)) (slot h : Nat) (c : Int) :
    MemoriesCanonical (d.commitSlot w r pairs slot h c) := by
  unfold Dev.commitSlot
  extract_lets st len d1 r1 x n d11 m met
  have hd1 : MemoriesCanonical d1 := hd.abortGen _ _
  have hd11 : MemoriesCanonical d11 := ((hd.foldl (fun _ _ he => he.commitSeq _ _ _) _).onStream _ _).ite hd
  exact hd.ite (hd1.ite ((hd1.raise _).ite (hd11.ite ((hd11.onCore _ (fun _ hx => hx.storeAll _)).eccReadFor _ _ _ _ _))))

theorem specCommit (hd : MemoriesCanonical d) (w : Who) (desc : Nat) : (specCommitW d w desc).Canonical := by
  unfold specCommitW
  extract_lets k r m
  refine opTest (fun slips => ?_)
  extract_lets v cs d1
  have hd1 : MemoriesCanonical d1 := hd.foldl (fun _ _ he => he.commitSlot _ _ _ _ _ _) _
  exact .done ((hd1.opDone _ _ _ _ _).writeSeqs _)

theorem specTrack (hd : MemoriesCanonical d) (w : Who) (writes : List Nat) : MemoriesCanonical (d.specTrack w writes) := by
  unfold Dev.specTrack
  extract_lets k open_ addrs d1
  have hd1 : MemoriesCanonical d1 := by
    unfold d1
    refine hd.foldl (fun _ _ he => he.foldl (fun e1 a1 he1 => ?_) _) _
    extract_lets s mx rc hit ps top
    exact (he1.setSeq _ _ _).ite he1
  exact hd.ite (hd1.ite (hd1.writeSeqs _))

theorem sealEmber (hd : MemoriesCanonical d) (h round : Nat) (init : Bool) : MemoriesCanonical (d.sealEmber h round init) := by
  unfold Dev.sealEmber
  extract_lets a n d1
  have hd1 : MemoriesCanonical d1 := hd.wellWrite _ _
  exact hd1.wellWrite _ _

theorem emberOut (hd : MemoriesCanonical d) (w : Who) (desc : Nat) : (emberOutW d w desc).Canonical := by
  unfold emberOutW
  extract_lets k r m slots d1
  have hd1 : MemoriesCanonical d1 := by
    unfold d1
    refine hd.foldl (fun e a he => ?_) _
    extract_lets ck ts rs
    exact (he.wellWrite _ _).sealEmber _ _ _
  exact .ite (.hold _ _) ((opTest (fun _ => .done (hd1.opDone _ _ _ _ _))))

theorem emberIn (hd : MemoriesCanonical d) (w : Who) (desc : Nat) : (emberInW d w desc).Canonical := by
  unfold emberInW
  extract_lets k r slots d1
  have hd1 : MemoriesCanonical d1 := by
    unfold d1
    refine hd.foldl (fun e a he => ?_) _
    extract_lets a1 n e1 part m ws d2 d3
    have hd2 : MemoriesCanonical d2 := he.onCore _ (fun _ hx => hx.storeAll _)
    have hd3 : MemoriesCanonical d3 := hd2.onStream _ _
    split
    · exact he.detect _ _ _ _ _ _
    · refine hd3.foldl_fst (fun x a2 he1 => ?_) _
      extract_lets b
      exact he1.setSeq _ _ _
  exact .ite (.hold _ _) ((opTest (fun _ => .done (hd1.opDone _ _ _ _ _))))

/-! ### The operations of Machine/Release -/

theorem countWindows (hd : MemoriesCanonical d) (c : Nat) (w : Writer) (lo n : Nat) : MemoriesCanonical (d.countWindows c w lo n) :=
  hd.foldl (fun _ _ he => he.count _ _ _) _

/-- A release stores the bytes of its slot, or waits. -/
theorem fillSlot (hd : MemoriesCanonical d) (c t ring : Nat) (writes : List (Nat × Bytes)) : (d.fillSlot c t ring writes).Canonical := by
  unfold Dev.fillSlot
  extract_lets k
  split
  · exact .hold _ _
  · split
    · exact .done hd
    · extract_lets a ws
      exact .done ((hd.onCore _ (fun _ hx => hx.storeAll _)).ringMove _ _ _ _)

theorem slipSlot (hd : MemoriesCanonical d) (c t ring : Nat) : MemoriesCanonical (d.slipSlot c t ring) := by
  unfold Dev.slipSlot
  extract_lets k
  split
  · exact hd
  · split
    · exact hd.ringMove _ _ _ _
    · extract_lets tag d1
      have hd1 : MemoriesCanonical d1 := (hd.onCore _ (fun _ hx => hx.storeAll _)).ringMove _ _ _ _
      exact hd1.onUnit _ fun _ => by rfl

theorem recordEach (hd : MemoriesCanonical d) (e : Err) (n : Nat) (hs : List Nat) (ring : Nat) (corr : Nat → Bool) :
    MemoriesCanonical (d.recordEach e n hs ring corr) :=
  hd.foldl (fun _ _ he => he.raise _) _

theorem voidPort (hd : MemoriesCanonical d) (w : Who) (ring : Nat) (r : Rec) (n : Nat) : MemoriesCanonical (d.voidPort w ring r n) := by
  unfold Dev.voidPort
  extract_lets rec_ chans new
  refine hd.foldl_fst (fun x a he => ?_) _
  extract_lets bs f back ws
  split
  · exact he
  · exact he.onCore _ (fun _ hx => hx.storeAll _)

theorem voidIntake (hd : MemoriesCanonical d) (w : Who) (ring src n : Nat) : MemoriesCanonical (d.voidIntake w ring src n) := by
  unfold Dev.voidIntake
  extract_lets audio given new
  refine hd.foldl_fst (fun x a he => ?_) _
  extract_lets bs rs ws
  split
  · exact he
  · exact he.onCore _ (fun _ hx => hx.storeAll _)

theorem dropRx (hd : MemoriesCanonical d) (l k : Nat) : MemoriesCanonical (d.dropRx l k) := hd.onLink _ _

theorem reject (hd : MemoriesCanonical d) (header : Bytes) : MemoriesCanonical (d.reject header) := hd.send _

theorem countLate (hd : MemoriesCanonical d) (l : Nat) : MemoriesCanonical (d.countLate l) := hd.count _ _ _

theorem landOne (hd : MemoriesCanonical d) (w : Who) (ring : Nat) : ∀ y ∈ d.landOne w ring, MemoriesCanonical y := by
  unfold Dev.landOne
  extract_lets k
  split
  · exact hd.of_some
  · split
    · exact hd.of_some
    · split
      · exact ((hd.dropRx _ _).slipSlot _ _ _).of_some
      · split
        · exact of_none
        · extract_lets bs
          split
          · split
            · rename_i hfill
              exact ((((hd.countWindows _ _ _ _).dropRx _ _).fillSlot _ _ _ _).of_done hfill).of_some
            · exact of_none
          · exact (((hd.dropRx _ _).windowDrop _).reject _).of_some

theorem landAll (hd : MemoriesCanonical d) (w : Who) (ring n : Nat) : MemoriesCanonical (Dev.landAll w ring n d).1 := by
  induction n generalizing d with
  | zero => exact hd
  | succ n ih =>
    unfold Dev.landAll
    split
    · exact hd
    · rename_i hland
      exact ih (hd.landOne _ _ _ hland)

theorem noteReleased (hd : MemoriesCanonical d) (w : Who) (ring : Nat) : MemoriesCanonical (d.noteReleased w ring) := hd.onTask _ _ _

theorem judgeRx (hd : MemoriesCanonical d) (late : Bool) (xs : List (Nat × Nat × RxXfer)) : MemoriesCanonical (d.judgeRx late xs) :=
  hd.foldl (fun _ _ he => he.onLink _ _) _

theorem judgeTick (hd : MemoriesCanonical d) (w : Who) (ring : Nat) (r : Ring) : MemoriesCanonical (d.judgeTick w ring r).1 := by
  unfold Dev.judgeTick
  extract_lets k hs all bad link e fail d1
  have hfail : ∀ e, MemoriesCanonical e → MemoriesCanonical (fail e) := fun _ he => (he.recordEach _ _ _ _ _).markFailed _ _ _
  have hd1 : MemoriesCanonical d1 := hd.foldl (fun _ _ he => he.countLate _) _
  split
  · split
    · exact (hd.slipSlot _ _ _).ite (hd.judgeRx _ _)
    · exact hd.judgeRx _ _
  · split
    · exact (((hfail _ hd).countLate _).slipSlot _ _ _).onTask _ _ _
    · exact (hd1.foldl (fun _ _ he => hfail _ he) _).judgeRx _ _

/-- A release tick that has not been judged is. -/
theorem startTick (hd : MemoriesCanonical d) (w : Who) (ring : Nat) (r : Ring) {p : Prop} [Decidable p] :
    MemoriesCanonical (if p then (d, true) else d.judgeTick w ring r).1 := by
  split
  · exact hd
  · exact hd.judgeTick _ _ _

theorem releaseLink (hd : MemoriesCanonical d) (w : Who) (ring : Nat) (r : Ring) : (d.releaseLink w ring r).Canonical := by
  unfold Dev.releaseLink
  extract_lets k j a
  have hj : MemoriesCanonical j.1 := hd.startTick _ _ _
  exact .ite (.hold _ _) (.ite (.done ((hj.landAll _ _ _).noteReleased _ _)) (.hold _ _))

theorem onXfer (hd : MemoriesCanonical d) (p : PumpId) (x : Xfer) (f : Xfer → Xfer) : MemoriesCanonical (d.onXfer p x f) := hd.of_drops (.onXfer _ _ _ _)

theorem lateXfer (hd : MemoriesCanonical d) (w : Who) (p : PumpId) (x : Xfer) (ring : Nat) : MemoriesCanonical (d.lateXfer w p x ring).1 := by
  unfold Dev.lateXfer
  extract_lets hs items noted count drop keep spec anyWaits d2 d1
  have hcount : ∀ e, MemoriesCanonical e → MemoriesCanonical (count e) := fun _ he => he.ite (he.count _ _ _)
  have hdrop : ∀ e, MemoriesCanonical e → MemoriesCanonical (drop e) := fun _ he => (he.onXfer _ _ _).count _ _ _
  have hkeep : ∀ e, MemoriesCanonical e → MemoriesCanonical (keep e) := fun _ he => he.onXfer _ _ _
  have hd1 : MemoriesCanonical d1 := hd.ite (((hcount _ hd).recordEach _ _ _ _ _).markFailed _ _ _)
  split
  · exact hkeep _ (hcount _ hd)
  · split
    · exact hdrop _ (hcount _ (hd.foldl (fun _ _ he => he.abortGen _ _) _))
    · split
      · split
        · exact hdrop _ (hcount _ hd)
        · exact hkeep _ (hcount _ hd)
      · split
        · exact hkeep _ hd1
        · exact hdrop _ hd1

theorem releaseWell (hd : MemoriesCanonical d) (w : Who) (ring : Nat) : (d.releaseWell w ring).Canonical := by
  unfold Dev.releaseWell
  extract_lets k q l
  split
  · exact .done hd
  · split
    · split
      · rename_i heq
        have he := (hd.fillSlot _ _ _ _).of_done heq
        exact .done (he.onUnit _ fun _ => by rfl)
      · exact hd.fillSlot _ _ _ _
    · split
      · exact .done hd
      · extract_lets r
        have hr : MemoriesCanonical r.1 := hd.lateXfer _ _ _ _
        exact .ite (.hold _ _) (.done (hr.slipSlot _ _ _))

theorem noteWell (hd : MemoriesCanonical d) (w : Who) (ring : Nat) : MemoriesCanonical (d.noteWell w ring) := by
  unfold Dev.noteWell
  split
  · exact hd
  · split
    · exact hd.lateXfer _ _ _ _
    · exact hd

theorem noteLate (hd : MemoriesCanonical d) (w : Who) (ring : Nat) : MemoriesCanonical (d.noteLate w ring) := by
  unfold Dev.noteLate
  split
  · extract_lets k j
    have hj : MemoriesCanonical j.1 := hd.startTick _ _ _
    exact (((hj.landAll _ _ _).noteReleased _ _).ite hj).ite (hd.noteWell _ _)
  · exact hd

theorem farWait (hd : MemoriesCanonical d) (target t ring : Nat) (wait : Bool) : MemoriesCanonical (d.farWait target t ring wait) := by
  unfold Dev.farWait
  split
  · exact hd.onUnit _ fun _ => by rfl
  · exact hd

theorem farWrite (hd : MemoriesCanonical d) (writer target off : Nat) (data : Bytes) (t ring : Nat) :
    MemoriesCanonical (d.farWrite writer target off data t ring) := by
  unfold Dev.farWrite
  extract_lets x note
  have hnote : ∀ s e, MemoriesCanonical e → MemoriesCanonical (note s e) := fun _ _ he => by
    unfold note
    cases x with
    | some => exact he.onXfer _ _ _
    | none => exact he.ringMove _ _ _ _
  have hstore : MemoriesCanonical (d.onCore target fun c => c.store off data) := hd.onCore _ fun _ hx => hx.store _ _
  split
  · exact hd.ite hstore
  · refine ite (hnote _ _ hstore) (ite ((hd.onUnit _ fun _ => by rfl).farWait _ _ _ _) ?_)
    cases x with
    | some => exact (hnote _ _ hd).detect _ _ _ _ _ _
    | none => exact (hnote _ _ hd).slip _ _

theorem farFree (hd : MemoriesCanonical d) (writer : Nat) : MemoriesCanonical (d.farFree writer) := hd.onUnit _ fun _ => by rfl

theorem retryFar (hd : MemoriesCanonical d) (writer : Nat) : MemoriesCanonical (d.retryFar writer) := by
  unfold Dev.retryFar
  split
  · exact hd
  · split
    · exact hd.farFree _
    · extract_lets outlasted
      exact hd.ite (((hd.farFree _).farWait _ _ _ _).farWrite _ _ _ _ _ _)

theorem writeClsMeta (hd : MemoriesCanonical d) (job n : Nat) (sel : Option (Nat × Nat) → Bool) (x : Rec) : MemoriesCanonical (d.writeClsMeta job n sel x) := by
  unfold Dev.writeClsMeta
  refine hd.foldl (fun e a he => ?_) _
  extract_lets c base
  exact he.onCore _ (fun _ hx => hx.storeAll _)

theorem writeMeta (hd : MemoriesCanonical d) (job n : Nat) (tasks : Nat → Nat → Bool) (sel : Option (Nat × Nat) → Bool) :
    MemoriesCanonical (d.writeMeta job n tasks sel) := by
  unfold Dev.writeMeta
  split
  · exact hd
  · exact hd.foldl (fun _ _ he => he.writeClsMeta _ _ _ _) _

theorem release (hd : MemoriesCanonical d) (w : Who) (ring : Nat) : (releaseW d w ring).Canonical := by
  unfold releaseW
  extract_lets k
  split
  · exact .done hd
  · extract_lets src once
    have honce : ∀ bs old, (∀ e, MemoriesCanonical e → MemoriesCanonical (old e)) → (once bs old).Canonical := fun bs old hold => by
      refine .ite (.done hd) ?_
      split
      · rename_i hfill
        have he := (hd.fillSlot _ _ _ _).of_done hfill
        exact .done ((((hold _ he).ite he).noteReleased _ _).writeMeta _ _ _ _)
      · exact hd.fillSlot _ _ _ _
    refine .ite ?_ (.ite (honce _ _ fun _ he => he.voidIntake _ _ _ _) (.ite (hd.releaseLink _ _ _) (.ite (hd.releaseWell _ _) (.done hd))))
    split
    · exact honce _ _ fun _ he => he.voidPort _ _ _ _
    · exact .done hd

/-! ### The operations of Machine/Recover -/

theorem capture (hd : MemoriesCanonical d) (n h : Nat) : MemoriesCanonical (d.capture n h) := by
  unfold Dev.capture
  extract_lets s ck mine
  exact hd.update

theorem captureCore (hd : MemoriesCanonical d) (n c : Nat) : MemoriesCanonical (d.captureCore n c) := by
  unfold Dev.captureCore
  extract_lets x ck mine
  exact hd.update

theorem putSlices (hd : MemoriesCanonical d) (ck : StreamCk) (mv : Nat → Nat) : MemoriesCanonical (d.putSlices ck mv) := by
  unfold Dev.putSlices
  split
  · exact hd
  · refine hd.foldl (fun e a he => ?_) _
    extract_lets t
    exact he.onCore _ (fun _ hx => hx.storeAll _)

theorem restoreSeq (hd : MemoriesCanonical d) (h : Nat) (l : Rec) (q : Seq) : MemoriesCanonical (d.restoreSeq h l q) := by
  unfold Dev.restoreSeq
  extract_lets d1 mx past d2
  have hd1 : MemoriesCanonical d1 := hd.setSeq _ _ _
  have hd2 : MemoriesCanonical d2 := hd1.foldl (fun _ _ he => he.onPages _ _ _ _) _
  exact hd2.foldl (fun _ _ he => he.onPages _ _ _ _) _

theorem putState (hd : MemoriesCanonical d) (ck : StreamCk) (mv : Nat → Nat) : MemoriesCanonical (d.putState ck mv) := by
  unfold Dev.putState
  extract_lets h d1 d2 taken again
  have hd1 : MemoriesCanonical d1 := hd.putSlices _ _
  have hd2 : MemoriesCanonical d2 := by
    unfold d2
    refine hd1.foldl (fun e a he => ?_) _
    split
    · exact he.restoreSeq _ _ _
    · exact he
  exact hd2.onStream _ _

theorem restoreStream (hd : MemoriesCanonical d) (h n code : Nat) (mv : Nat → Nat) (hit : Item → Bool) :
    MemoriesCanonical (d.restoreStream h n code mv hit) := by
  unfold Dev.restoreStream
  split
  · exact hd
  · extract_lets again d1 d2
    have hd1 : MemoriesCanonical d1 := hd.putState _ _
    have hd2 : MemoriesCanonical d2 := hd1.foldl (fun _ _ he => he.logRec _) _
    exact hd2.onStream _ _

theorem restoreState (hd : MemoriesCanonical d) (h n : Nat) : MemoriesCanonical (d.restoreState h n) := by
  unfold Dev.restoreState
  split
  · exact hd
  · exact hd.putState _ _

theorem restoreTask (hd : MemoriesCanonical d) (c t n : Nat) : MemoriesCanonical (d.restoreTask c t n) := by
  unfold Dev.restoreTask
  split
  · exact hd
  · extract_lets rs d1 d2 k d3
    have hd1 : MemoriesCanonical d1 := hd.onTask _ _ _
    have hd2 : MemoriesCanonical d2 := hd1.onUnit _ fun _ => by rfl
    have hd3 : MemoriesCanonical d3 := hd2.onCore _ (fun _ hx => hx.foldl (fun x1 _ hx1 => hx1.storeAll _) _)
    refine hd3.foldl (fun e a he => ?_) _
    split
    · exact (he.onJob _ _).ite he
    · exact he

theorem restoreCore (hd : MemoriesCanonical d) (c c' n : Nat) : MemoriesCanonical (d.restoreCore c c' n) := by
  unfold Dev.restoreCore
  split
  · exact hd
  · extract_lets d1 place d2
    have hd1 : MemoriesCanonical d1 := hd.onUnit _ fun _ => by rfl
    have hd2 : MemoriesCanonical d2 := hd1.onCore _ (fun _ hx => hx.foldl (fun x1 _ hx1 => hx1.storeAll _) _)
    exact hd2.foldl (fun _ _ he => he.onJob _ _) _

theorem restoreTimed (hd : MemoriesCanonical d) (h : Nat) : MemoriesCanonical (d.restoreTimed h) := by
  unfold Dev.restoreTimed
  extract_lets runs
  split
  · exact hd
  · extract_lets b
    split
    · exact hd.onStream _ _
    · exact (hd.putState _ _).onStream _ _

/-! ### The operations of Machine/Adapt -/

theorem onAdp (hd : MemoriesCanonical d) (j a : Nat) (f : AdpState → AdpState) : MemoriesCanonical (d.onAdp j a f) := hd.onJob _ _

theorem clearGrads (hd : MemoriesCanonical d) (w : Who) (a : Rec) : MemoriesCanonical (d.clearGrads w a) := by
  unfold Dev.clearGrads
  extract_lets k m
  refine hd.foldl (fun e a1 he => ?_) _
  extract_lets v
  exact he.onCore _ (fun _ hx => hx.storeAll _)

theorem adaptStep (hd : MemoriesCanonical d) (w : Who) (a : Rec) : MemoriesCanonical (d.adaptStep w a) := by
  unfold Dev.adaptStep
  extract_lets k s n d0 step tot restart hs met ok e0 e1 e2
  have hrestart : ∀ disc sw e, MemoriesCanonical e → MemoriesCanonical (restart e disc sw) := fun _ _ _ he => he.onAdp _ _ _
  have he0 : MemoriesCanonical e0 := hd.count _ _ _
  have he1 : MemoriesCanonical e1 := hrestart _ _ _ (he0.clearGrads _ _)
  have he2 : MemoriesCanonical e2 := ite (hrestart _ _ _ ((he0.onCore _ fun _ hx => hx.storeAll _).clearGrads _ _)) ((he1.onTask _ _ _).ite he1)
  exact hd.ite (ite (hrestart _ _ _ (hd.clearGrads _ _)) (ite (hd.onAdp _ _ _) (ite (hrestart _ _ _ hd) (he2.eccRead _ _ _ _ _))))

theorem adaptSpanEnd (hd : MemoriesCanonical d) (w : Who) : MemoriesCanonical (d.adaptSpanEnd w) := hd.foldl (fun _ _ he => he.adaptStep _ _) _

theorem switchAdapters (hd : MemoriesCanonical d) (c t r : Nat) : MemoriesCanonical (d.switchAdapters c t r) := by
  unfold Dev.switchAdapters
  refine hd.foldl (fun e a he => ?_) _
  extract_lets j
  split
  · exact (he.onAdp _ _ _).ite he
  · exact he

/-! ### The operations of Machine/Results -/

theorem postRecord (hd : MemoriesCanonical d) (w : Who) (n : Nat) (prov : Bool) (h payload : Bytes) (now : Nat) :
    MemoriesCanonical (d.postRecord w n prov h payload now) := by
  unfold Dev.postRecord
  extract_lets header st j unit stop size es tooLate masked index d1 d2 d3
  have hd1 : MemoriesCanonical d1 := hd.foldl (fun _ _ he => he.post _ _ _) _
  have hd2 : MemoriesCanonical d2 := hd1.onStream _ _
  have hd3 : MemoriesCanonical d3 := hd2.foldl (fun _ _ he => he.supersede _ _) _
  split
  · exact hd
  · extract_lets again d4
    have hd4 : MemoriesCanonical d4 := hd.onStream _ _
    exact hd.ite ((hd4.raise _).ite (hd2.update.ite (hd3.ite hd3.update)))

theorem result (hd : MemoriesCanonical d) (w : Who) (ring : Nat) (prov : Bool) (now : Nat) : (resultW d w ring prov now).Canonical := by
  unfold resultW
  extract_lets k empty
  split
  · exact .done hd
  · split
    · exact .hold _ _
    · extract_lets a bs met d1 d2 d3
      have hd1 : MemoriesCanonical d1 := (hd.at_ _).eccRead _ _ _ _ _
      have hd2 : MemoriesCanonical d2 := by
        unfold d2
        split
        · exact hd1.foldl (fun _ _ he => he.postRecord _ _ _ _ _ _) _
        · exact hd1.raise _
      have hd3 : MemoriesCanonical d3 := hd2.ringMove _ _ _ _
      exact .done ((hd3.slip _ _).ite hd3)

/-! ### The operations of Machine/Programs -/

theorem applyDue (hd : MemoriesCanonical d) (c t r : Nat) : MemoriesCanonical (d.applyDue c t r) := by
  unfold Dev.applyDue
  extract_lets own later
  split
  · exact hd
  · extract_lets d1
    have hd1 : MemoriesCanonical d1 := (hd.setReg _ _).onTask _ _ _
    exact hd1.update.ite hd1

theorem startProgram (hd : MemoriesCanonical d) (c t r : Nat) : MemoriesCanonical (d.startProgram c t r) := by
  unfold Dev.startProgram
  extract_lets dp d0 d1 es d2 d3 d4 j
  have hdp : MemoriesCanonical dp := (hd.onUnit _ fun _ => by rfl).ite hd
  have hd0 : MemoriesCanonical d0 := hdp.switchAdapters _ _ _
  have hd1 : MemoriesCanonical d1 := hd0.applyDue _ _ _
  have hd2 : MemoriesCanonical d2 := hd1.onUnit _ fun _ => by rfl
  have hd3 : MemoriesCanonical d3 := hd2.onTask _ _ _
  have hd4 : MemoriesCanonical d4 := hd3.writeRows _ _
  exact hd4.writeMeta _ _ _ _

theorem captureDue (hd : MemoriesCanonical d) (j : Nat) : MemoriesCanonical (d.captureDue j) := by
  unfold Dev.captureDue
  extract_lets d1
  have hd1 : MemoriesCanonical d1 := by
    unfold d1
    refine hd.foldl (fun e a he => ?_) _
    split
    · exact he.capture _ _
    · exact he
  refine hd1.foldl (fun e a he => ?_) _
  extract_lets n
  split
  · exact (he.captureCore _ _).ite he
  · exact he.captureCore _ _

theorem advanceJob (hd : MemoriesCanonical d) (j : Nat) : MemoriesCanonical (d.advanceJob j) := by
  unfold Dev.advanceJob
  extract_lets d1 ts d2
  have hd1 : MemoriesCanonical d1 := hd.captureDue _
  have hd2 : MemoriesCanonical d2 := by
    unfold d2
    refine hd1.foldl (fun e a he => ?_) _
    extract_lets r
    exact (he.startProgram _ _ _).ite (he.onTask _ _ _)
  split
  · refine hd2.foldl (fun e a he => ?_) _
    extract_lets k
    exact (he.onTask _ _ _).ite he
  · exact hd2

theorem settleStop (hd : MemoriesCanonical d) (j : Nat) : MemoriesCanonical (d.settleStop j) := by
  unfold Dev.settleStop
  extract_lets x due idle d1
  have hd1 : MemoriesCanonical d1 := (hd.closeWindows _).onJob _ _
  exact (hd1.foldl (fun _ _ he => he.finishCmd _ _ _ _) _).ite hd

theorem endProgram (hd : MemoriesCanonical d) (c t : Nat) : MemoriesCanonical (d.endProgram c t) := by
  unfold Dev.endProgram
  extract_lets k d1 d11 d2
  have hd1 : MemoriesCanonical d1 := (hd.adaptSpanEnd _).ite hd
  have hd11 : MemoriesCanonical d11 := hd1.onCore _ (fun _ hx => (hx.closeAll _ _).decideAll _ _ _ _)
  have hd2 : MemoriesCanonical d2 := hd11.onTask _ _ _
  exact (hd2.advanceJob _).settleStop _

/-! ### The operations of Machine/Sequencer -/

theorem tlyAdd (hd : MemoriesCanonical d) (w : Who) (a : Nat) : (tlyAddW d w a).Canonical := by
  unfold tlyAddW
  extract_lets c
  exact .ite (.done (hd.onUnit _ fun _ => by rfl)) (.done (hd.sliceDown _ _ _))

theorem tlyWait (hd : MemoriesCanonical d) (w : Who) (a : Nat) : (tlyWaitW d w a).Canonical := by
  unfold tlyWaitW
  extract_lets v
  exact .ite (.done (hd.onUnit _ fun _ => by rfl)) (.hold _ _)

theorem window (hd : MemoriesCanonical d) (w : Who) (a : Nat) : (windowW d w a).Canonical := .done (hd.onUnit _ fun _ => by rfl)

/-- Each instruction word in turn. -/
theorem wordEffect (hd : MemoriesCanonical d) (w : Who) (word : Nat) (ev : EngEv) (now : Nat) : (wordEffect d w word ev now).Canonical := by
  unfold Sys2Proof.Machine.wordEffect
  extract_lets a i at_
  split
  · exact .done (hd.eccRead _ _ _ _ _)
  · exact hd.matRun _ _ _ _ _
  · exact hd.relay _ _
  · exact hd.gateSet _ _
  · exact hd.eleRun _ _ _ _
  · exact hd.eleScan _ _ _
  · exact hd.convert _ _ _
  · exact hd.redRun _ _ _ _
  · exact hd.pump _ _ _
  · exact hd.release _ _
  · exact hd.tlyAdd _ _
  · exact hd.tlyWait _ _
  · exact .done (hd.onTask _ _ _)
  · exact hd.smpReq _ _
  · exact .ite (.done hd) (hd.specOpen _ _)
  · exact .ite (.done hd) (hd.specCommit _ _)
  · exact .ite (.done hd) (hd.specAbort _ _)
  · exact hd.emberOut _ _
  · exact hd.emberIn _ _
  · exact hd.result _ _ _ _
  · exact hd.window _ _
  · exact .ite (.done hd) ((.ite (.done (hd.onTask _ _ _)) ((.done (((hd.adaptSpanEnd _).ite hd).onTask _ _ _)))))
  · exact hd.statFlush _ _
  · exact .done hd

theorem wordDone (hd : MemoriesCanonical d) (w : Who) (word : Nat) : MemoriesCanonical (d.wordDone w word) := by
  unfold Dev.wordDone
  extract_lets k ws d1 k1
  have hd1 : MemoriesCanonical d1 := hd.ite (hd.specTrack _ _)
  exact hd1.onTask _ _ _

theorem lateReads (hd : MemoriesCanonical d) (w : Who) (word : Nat) : MemoriesCanonical (d.lateReads w word).1 := by
  unfold Dev.lateReads
  refine hd.foldl_fst (fun x a he => ?_) _
  extract_lets r
  have hr : MemoriesCanonical r.1 := he.lateXfer _ _ _ _
  exact hr

theorem holdWord (hd : MemoriesCanonical d) (w : Who) (kind : WaitKind) (budget : Nat) : MemoriesCanonical (d.holdWord w kind budget) := by
  unfold Dev.holdWord
  extract_lets k d1 fresh
  have hd1 : MemoriesCanonical d1 := by
    unfold d1
    split
    · split
      · exact hd.onUnit _ fun _ => by rfl
      · exact hd
    · exact hd
  exact (hd1.onTask _ _ _).update

theorem countStall (hd : MemoriesCanonical d) (c word n : Nat) : MemoriesCanonical (d.countStall c word n) := (hd.count _ _ _).ite ((hd.count _ _ _).ite hd)

theorem runWord (hd : MemoriesCanonical d) (w : Who) (word : Nat) (ev : EngEv) (now : Nat) : MemoriesCanonical (d.runWord w word ev now) := by
  unfold Dev.runWord
  split
  · exact hd.holdWord _ _ _
  · split
    · rename_i heq
      have he := (hd.wordEffect _ _ _ _).of_done heq
      exact (he.countStall _ _ _).wordDone _ _
    · split
      · exact (hd.noteLate _ _).holdWord _ _ _
      · split
        · extract_lets r
          have hr : MemoriesCanonical r.1 := hd.lateReads _ _
          split
          · split
            · rename_i heq
              have he := (hr.wordEffect _ _ _ _).of_done heq
              exact (he.countStall _ _ _).wordDone _ _
            · exact hr.holdWord _ _ _
          · exact hr.holdWord _ _ _
        · exact hd.holdWord _ _ _

theorem noted (hd : MemoriesCanonical d) (c : Nat) (e : TaskEv) : MemoriesCanonical (d.noted c e) := (hd.seen _ _).count _ _ _

theorem issue (hd : MemoriesCanonical d) (op c t : Nat) (ev : EngEv) (now : Nat) : MemoriesCanonical (issueD op c t ev now d) := by
  unfold issueD
  split
  · exact hd
  · exact hd.ite ((hd.onTask _ _ _).runWord _ _ _ _)

theorem issueT (hd : MemoriesCanonical d) (op c : Nat) (e : TaskEv) (now : Nat) : MemoriesCanonical (issueTD op c e now d) :=
  ((hd.noted _ _).issue _ _ _ _ _).ite hd

theorem endWord (hd : MemoriesCanonical d) (c t : Nat) : MemoriesCanonical (endD c t d) := by
  unfold endD
  split
  · exact hd
  · exact hd.ite ((hd.onTask _ _ _).endProgram _ _)

theorem endT (hd : MemoriesCanonical d) (c : Nat) (e : TaskEv) : MemoriesCanonical (endTD c e d) := ((hd.noted _ _).endWord _ _).ite hd

theorem retry (hd : MemoriesCanonical d) (c : Nat) (e : TaskEv) (cycle : Nat) (may : WaitKind → Bool) : MemoriesCanonical (retryD c e cycle may d) := by
  unfold retryD
  extract_lets t
  split
  · split
    · extract_lets engine d1 d11 held
      have hd1 : MemoriesCanonical d1 := hd.ite (hd.noted _ _)
      have hd11 : MemoriesCanonical d11 := (hd1.onTask _ _ _).runWord _ _ _ _
      exact (hd11.countStall _ _ _).ite hd11
    · exact hd
  · exact hd

/-! ### The operations of Machine/Jobs -/

theorem placeTask (hd : MemoriesCanonical d) (j : Nat) (i : Image) (x : TaskImg) : MemoriesCanonical (d.placeTask j i x) := by
  unfold Dev.placeTask
  refine hd.onCore _ (fun _ hx => Core.Canonical.storeAll ?_ _)
  exact hx.of_mem rfl

theorem stage (hd : MemoriesCanonical d) (j : Nat) (i : Image) : MemoriesCanonical (d.stage j i) := by
  unfold Dev.stage
  extract_lets d1 d2 d3
  have hd1 : MemoriesCanonical d1 := hd.foldl (fun _ _ he => he.placeTask _ _ _) _
  have hd2 : MemoriesCanonical d2 := hd1.foldl (fun _ _ he => he.onUnit _ fun _ => by rfl) _
  have hd3 : MemoriesCanonical d3 := by
    unfold d3
    refine hd2.foldl (fun e a he => ?_) _
    extract_lets v
    exact he.update
  exact hd3.foldl (fun _ _ he => he.onPort _ _) _

/-- A bank whose role changes is zeroed (R362, R363): its bytes leave the list. -/
theorem setRoles (hd : MemoriesCanonical d) (i : Image) (c : Nat) : MemoriesCanonical (d.setRoles i c) := by
  unfold Dev.setRoles
  extract_lets new x ch
  exact hd.ite (hd.onCore _ fun _ hx => Memory.wf_filter hx _)

theorem startCore (hd : MemoriesCanonical d) (j : Nat) (i : Image) (c : Nat) : MemoriesCanonical (d.startCore j i c) := by
  unfold Dev.startCore
  extract_lets d1 d2 tl init slot opens sc ts total p d3 d4
  have hd1 : MemoriesCanonical d1 := hd.setRoles _ _
  have hd2 : MemoriesCanonical d2 := hd1.foldl (fun _ _ he => he.onCore _ (fun _ hx => hx.storeAll _)) _
  have hd3 : MemoriesCanonical d3 := hd2.onUnit _ fun _ => by rfl
  have hd4 : MemoriesCanonical d4 := hd3.foldl (fun _ _ he => he.onCore _ (fun _ hx => hx.clearHist _)) _
  exact hd4.onPump _ _

theorem fillAdapter (hd : MemoriesCanonical d) (i : Image) (a : Rec) : MemoriesCanonical (d.fillAdapter i a) := by
  unfold Dev.fillAdapter
  extract_lets k
  exact hd.onCore _ fun _ hx => hx.storeAll _

theorem startAdapters (hd : MemoriesCanonical d) (j : Nat) (i : Image) : MemoriesCanonical (d.startAdapters j i) :=
  hd.foldl (fun _ _ he => ((he.clearGrads _ _).fillAdapter _ _).onJob _ _) _

theorem readyTasks (hd : MemoriesCanonical d) (j r : Nat) : MemoriesCanonical (d.readyTasks j r) := hd.foldl (fun _ _ he => he.onTask _ _ _) _

theorem applyStaged (hd : MemoriesCanonical d) (j : Nat) : MemoriesCanonical (d.applyStaged j) := by
  unfold Dev.applyStaged
  extract_lets mine
  exact hd.update

theorem fillPumps (hd : MemoriesCanonical d) (j : Nat) (i : Image) : MemoriesCanonical (d.fillPumps j i) := by
  unfold Dev.fillPumps
  extract_lets wells links
  exact hd.foldl (fun _ _ he => he.onPump _ _) _

theorem activate (hd : MemoriesCanonical d) (j r : Nat) : MemoriesCanonical (d.activate j r) := by
  unfold Dev.activate
  split
  · exact hd
  · extract_lets d1 d2 d3 d4
    have hd1 : MemoriesCanonical d1 := ((hd.applyStaged _).foldl (fun _ _ he => he.startCore _ _ _) _).fillPumps _ _
    have hd2 : MemoriesCanonical d2 := (hd1.startAdapters _ _).choosePaths _
    have hd3 : MemoriesCanonical d3 := hd2.onJob _ _
    have hd4 : MemoriesCanonical d4 := (hd3.readyTasks _ _).logRec _
    split
    · exact hd4.finishCmd _ _ _ _
    · exact hd4

theorem popCmd (hd : MemoriesCanonical d) : MemoriesCanonical d.popCmd := hd.update

theorem answer (hd : MemoriesCanonical d) (x : HostCmd) (status code : Nat) : MemoriesCanonical (d.answer x status code) := hd.finishCmd _ _ _ _

theorem refuse (hd : MemoriesCanonical d) (x : HostCmd) (code : Nat) : MemoriesCanonical (d.refuse x code) := (hd.raise _).finishAt _ _

theorem dropUndefined (hd : MemoriesCanonical d) : MemoriesCanonical d.dropUndefined := hd.update.foldl (fun _ _ he => he.refuse _ _) _

theorem loadImage (hd : MemoriesCanonical d) (image : Bytes) : MemoriesCanonical (loadImageD image d) := by
  unfold loadImageD
  split
  · exact hd
  · extract_lets d1 j bs timeout standby code i sp
    have hd1 : MemoriesCanonical d1 := hd.popCmd
    exact (hd1.refuse _ _).ite ((hd1.refuse _ _).ite (((hd1.onJob _ _).refuse _ _).ite (hd1.onJob _ _)))

theorem loadStaged (hd : MemoriesCanonical d) (j : Nat) (deep : List Bytes) : MemoriesCanonical (loadStagedD j deep d) := by
  unfold loadStagedD
  split
  · exact hd
  · split
    · exact hd
    · extract_lets objs code _ d1 d11 d2 d3
      have hd1 : MemoriesCanonical d1 := ((hd.onJob _ _).joinIfIdle).refreshSlices
      have hd11 : MemoriesCanonical d11 := hd.ite (hd.acceptRoundLen _)
      have hd2 : MemoriesCanonical d2 := (hd11.stage _ _).onJob _ _
      have hd3 : MemoriesCanonical d3 := hd2.refreshSlices
      split
      · split
        · exact (hd1.raise _).finishCmd _ _ _ _
        · exact hd1
      · split
        · split
          · exact (hd3.onJob _ _).finishCmd _ _ _ _
          · exact hd3
        · exact (hd3.onJob _ _).ite ((hd3.send _).ite (hd3.raise _))

theorem stopJob (hd : MemoriesCanonical d) : MemoriesCanonical (stopJobD d) := by
  unfold stopJobD
  split
  · exact hd
  · extract_lets d1 j
    have hd1 : MemoriesCanonical d1 := hd.popCmd
    split
    · exact hd1.refuse _ _
    · exact hd1.answer _ _ _
    · exact hd1.answer _ _ _
    · exact hd1.onJob _ _
    · exact hd1.onJob _ _

theorem killJob (hd : MemoriesCanonical d) : MemoriesCanonical (killJobD d) := by
  unfold killJobD
  split
  · exact hd
  · extract_lets d1 j
    have hd1 : MemoriesCanonical d1 := hd.popCmd
    exact (hd1.refuse _ _).ite ((hd1.onJob _ _).kill _ _ _)

theorem register (hd : MemoriesCanonical d) : MemoriesCanonical (registerD d) := by
  unfold registerD
  split
  · exact hd
  · extract_lets d1 b j h
    have hd1 : MemoriesCanonical d1 := hd.popCmd
    split
    · exact hd1.refuse _ _
    · exact (hd1.refuse _ _).ite ((hd1.refuse _ _).ite (hd1.onStream _ _))

theorem deregister (hd : MemoriesCanonical d) : MemoriesCanonical (deregisterD d) := by
  unfold deregisterD
  split
  · exact hd
  · extract_lets d1 h s
    have hd1 : MemoriesCanonical d1 := hd.popCmd
    exact (hd1.refuse _ _).ite (hd1.onStream _ _)

theorem resetMark (hd : MemoriesCanonical d) : MemoriesCanonical (resetMarkD d) := by
  unfold resetMarkD
  split
  · exact hd
  · extract_lets d1 h s
    have hd1 : MemoriesCanonical d1 := hd.popCmd
    exact (hd1.refuse _ _).ite ((hd1.onStream _ _).answer _ _ _)

theorem target (hd : MemoriesCanonical d) (tokens : Bytes) : MemoriesCanonical (targetD tokens d) := by
  unfold targetD
  split
  · exact hd
  · extract_lets d1 b h s
    have hd1 : MemoriesCanonical d1 := hd.popCmd
    exact (hd1.refuse _ _).ite (hd1.update.answer _ _ _)

/-! ### The operations of Machine/Intake -/

theorem cutOne (hd : MemoriesCanonical d) (c : Cut) (ty id : Nat) : MemoriesCanonical (d.cutOne c ty id) := by
  unfold Dev.cutOne
  extract_lets key q items old fit logged asg gone left d1
  have hd1 : MemoriesCanonical d1 := hd.ite (hd.onCross _ _)
  exact (hd1.foldl (fun _ _ he => he.raise _) _).logRec _

theorem takeCommands (hd : MemoriesCanonical d) (round : Nat) : MemoriesCanonical (d.takeCommands round) := by
  unfold Dev.takeCommands
  extract_lets xs d1
  have hd1 : MemoriesCanonical d1 := hd.foldl (fun _ _ he => he.ite (he.onCross _ _)) _
  exact hd1.update.dropUndefined

theorem intakeSeal (hd : MemoriesCanonical d) : MemoriesCanonical (intakeSealD d) := by
  unfold intakeSealD
  split
  · exact hd
  · extract_lets c d0 d1
    have hd0 : MemoriesCanonical d0 := (hd.at_ _).foldl (fun _ _ he => he.cutOne _ _ _) _
    have hd1 : MemoriesCanonical d1 := hd0.update
    exact hd1.update.takeCommands _

theorem feed (hd : MemoriesCanonical d) (h : Nat) (r payload : Bytes) : MemoriesCanonical (d.feed h r payload) := by
  unfold Dev.feed
  extract_lets tokens fits
  exact hd.onStream _ _

theorem takeRecord (hd : MemoriesCanonical d) (ring upTo : Nat) : MemoriesCanonical (d.takeRecord ring upTo) := by
  unfold Dev.takeRecord
  extract_lets key as_
  split
  · exact hd
  · split
    · split
      · extract_lets h
        exact ((hd.onCross _ _).feed _ _ _).ite ((hd.onCross _ _).raise _)
      · exact hd
    · exact hd

theorem takeRecords (hd : MemoriesCanonical d) (upTo : Nat) : MemoriesCanonical (d.takeRecords upTo) :=
  hd.foldl (fun _ _ he => he.foldl (fun _ _ he1 => he1.takeRecord _ _) _) _

theorem bar2Read (hd : MemoriesCanonical d) (off n : Nat) (det : Detect) : MemoriesCanonical (bar2ReadD off n det d) := by
  unfold bar2ReadD
  extract_lets o
  split
  · split
    · exact (hd.deny _).emit _
    · split
      · extract_lets d1 a
        have hd1 : MemoriesCanonical d1 := hd.seen _ _
        exact (hd1.eccReadFor _ _ _ _ _).emit _
      · exact (hd.raise _).emit _
  · exact (hd.raise _).emit _

/-! ### The operations of Machine/Tdm -/

theorem portEvent (hd : MemoriesCanonical d) (p b : Nat) : MemoriesCanonical (d.portEvent p b) := by
  unfold Dev.portEvent
  extract_lets d1
  have hd1 : MemoriesCanonical d1 := hd.onPort _ _
  exact (hd1.vector _).ite hd1

theorem measure (hd : MemoriesCanonical d) (p stamp : Nat) (real : Bool) : MemoriesCanonical (d.measure p stamp real) := by
  unfold Dev.measure
  split
  · exact hd.onPort _ _
  · extract_lets x ss span m nom dev devRun okRun starts act d1
    have hd1 : MemoriesCanonical d1 := hd.onPort _ _
    exact (hd.onPort _ _).ite (((hd1.count _ _ _).portEvent _ _).ite hd1)

theorem emitFrame (hd : MemoriesCanonical d) (p : Nat) (f : OpenFrame) (vals : List Int) (now : Nat) : MemoriesCanonical (d.emitFrame p f vals now) := by
  unfold Dev.emitFrame
  split
  · exact hd
  · extract_lets full_ x rep last vs d1 ev it d2 d3
    have hd1 : MemoriesCanonical d1 := hd.measure _ _ _
    have hd2 : MemoriesCanonical d2 := hd1.onCross _ _
    have hd3 : MemoriesCanonical d3 := hd2.onPort _ _
    exact ((hd3.count _ _ _).portEvent _ _).ite hd3

theorem playFrame (hd : MemoriesCanonical d) (p : Nat) : MemoriesCanonical (d.playFrame p) := by
  unfold Dev.playFrame
  extract_lets enc w idle rs r _ d1
  have hd1 : MemoriesCanonical d1 := hd.onPort _ _
  exact ((hd1.count _ _ _).portEvent _ _).ite hd1

theorem playRefill (hd : MemoriesCanonical d) (p route : Nat) : MemoriesCanonical (playRefillD p route d) := by
  unfold playRefillD
  split
  · exact hd
  · split
    · exact hd
    · split
      · exact hd
      · extract_lets d1 k met
        have hd1 : MemoriesCanonical d1 := hd.onPort _ _
        exact (hd1.ringMove _ _ _ _).eccReadFor _ _ _ _ _

theorem flushReady (hd : MemoriesCanonical d) (p now : Nat) : MemoriesCanonical (d.flushReady p now) := by
  unfold Dev.flushReady
  extract_lets fs
  exact (hd.onPort _ _).foldl (fun _ _ he => (he.emitFrame _ _ _ _).playFrame _) _

theorem tdmFrame (hd : MemoriesCanonical d) (p : Nat) (slots : List Nat) (now : Nat) : MemoriesCanonical (tdmFrameD p slots now d) := by
  unfold tdmFrameD
  extract_lets d1 vals
  have hd1 : MemoriesCanonical d1 := hd.at_ _
  split
  · exact hd1
  · exact hd1.ite ((((hd1.onPort _ _).emitFrame _ _ _ _).playFrame _).flushReady _ _)

theorem glitch (hd : MemoriesCanonical d) (p : Nat) : MemoriesCanonical (d.glitch p) := (hd.count _ _ _).portEvent _ _

theorem openFrame (hd : MemoriesCanonical d) (p : Nat) (f : OpenFrame) : MemoriesCanonical (d.openFrame p f) := hd.onPort _ _

theorem frameSync (hd : MemoriesCanonical d) (p : Nat) (atExpected early : Bool) (now : Nat) : MemoriesCanonical (frameSyncD p atExpected early now d) := by
  unfold frameSyncD
  extract_lets d1 at_ d11 d2
  have hd1 : MemoriesCanonical d1 := hd.at_ _
  have hd11 : MemoriesCanonical d11 := hd1.glitch _
  have hd2 : MemoriesCanonical d2 := by
    unfold d2
    split
    · exact ((hd11.onPort _ _).flushReady _ _).ite hd11
    · exact hd11
  exact hd1.ite ((hd1.openFrame _ _).ite (hd2.openFrame _ _))

theorem missingSync (hd : MemoriesCanonical d) (p now : Nat) : MemoriesCanonical (missingSyncD p now d) := by
  unfold missingSyncD
  extract_lets d1
  have hd1 : MemoriesCanonical d1 := hd.at_ _
  exact hd1.ite (((hd1.glitch _).onPort _ _).flushReady _ _)

theorem clockStop (hd : MemoriesCanonical d) (p now : Nat) : MemoriesCanonical (clockStopD p now d) := by
  unfold clockStopD
  extract_lets d1 fs d11
  have hd1 : MemoriesCanonical d1 := hd.at_ _
  have hd11 : MemoriesCanonical d11 := (hd1.onPort _ _).count _ _ _
  exact hd1.ite ((hd11.portEvent _ _).foldl (fun _ _ he => he.emitFrame _ _ _ _) _)

theorem stopRepeat (hd : MemoriesCanonical d) (p now : Nat) : MemoriesCanonical (stopRepeatD p now d) := by
  unfold stopRepeatD
  extract_lets d1 x j f r
  have hd1 : MemoriesCanonical d1 := hd.at_ _
  have hr : MemoriesCanonical r.2 := ite_snd rfl hd1 (hd1.freeVal _)
  exact hd1.ite ((hr.onPort _ _).emitFrame _ _ _ _)

theorem portErrors (hd : MemoriesCanonical d) : MemoriesCanonical d.portErrors := hd.foldl (fun _ _ he => he.foldl (fun _ _ he1 => he1.ite (he1.raise _)) _) _

theorem portDiscards (hd : MemoriesCanonical d) : MemoriesCanonical d.portDiscards := by
  unfold Dev.portDiscards
  refine hd.foldl (fun e a he => ?_) _
  split
  · exact he
  · refine he.foldl (fun e1 a1 he1 => ?_) _
    split
    · exact (he1.ringMove _ _ _ _).count _ _ _
    · exact he1

/-! ### The operations of Machine/Transfer -/

theorem missedTick (hd : MemoriesCanonical d) (l : Nat) (x : RxXfer) (c t ring : Nat) : MemoriesCanonical (d.missedTick l x c t ring) := by
  unfold Dev.missedTick
  extract_lets n j hs d1
  have hd1 : MemoriesCanonical d1 := hd.countLate _
  exact (hd.onTask _ _ _).ite (hd1.ite ((hd1.recordEach _ _ _ _ _).markFailed _ _ _))

theorem arriveFixed (hd : MemoriesCanonical d) (l i now : Nat) (x : RxXfer) : MemoriesCanonical (d.arriveFixed l i now x) := by
  unfold Dev.arriveFixed
  extract_lets late wait
  have hwait : MemoriesCanonical (wait d) := ((hd.countLate _).ite hd).onLink _ _
  split
  · exact ((hd.dropRx _ _).missedTick _ _ _ _ _).ite hwait
  · exact hwait

theorem landWell (hd : MemoriesCanonical d) (x : RxXfer) : MemoriesCanonical (d.landWell x) := by
  unfold Dev.landWell
  extract_lets a n
  exact (hd.wellWrite _ _).ite (hd.reject _)

theorem landWindow (hd : MemoriesCanonical d) (x : RxXfer) : MemoriesCanonical (d.landWindow x) := by
  unfold Dev.landWindow
  extract_lets c bs
  split
  · exact (hd.raise _).reject _
  · split
    · exact (hd.windowDrop _).reject _
    · extract_lets a
      split
      · exact (hd.countWindows _ _ _ _).onCore _ (fun _ hx => hx.storeAll _)
      · exact (hd.windowDrop _).reject _

theorem arrival (hd : MemoriesCanonical d) (l now : Nat) : MemoriesCanonical (arrivalD l now d) := by
  unfold arrivalD
  extract_lets d1
  have hd1 : MemoriesCanonical d1 := hd.at_ _
  split
  · exact hd1
  · split
    · exact hd1
    · exact hd1.ite ((hd1.arriveFixed _ _ _ _).ite (((hd1.dropRx _ _).countLate _).ite (((hd1.dropRx _ _).landWell _).ite ((hd1.dropRx _ _).landWindow _))))

theorem windowReject (hd : MemoriesCanonical d) (sent : Nat) : MemoriesCanonical (windowRejectD sent d) := by
  unfold windowRejectD
  split
  · exact hd
  · exact hd.update

theorem handleRejects (hd : MemoriesCanonical d) : MemoriesCanonical d.handleRejects := hd.update.foldl (fun _ _ he => he.xferFail _ _ _) _

theorem takeAdapters (hd : MemoriesCanonical d) (compile origin : Nat) (l : List Rec) (b : Bytes) : MemoriesCanonical (d.takeAdapters compile origin l b) := by
  induction l generalizing d b with
  | nil => exact hd
  | cons a r ih => exact ih hd.update _

theorem restoreAdapters (hd : MemoriesCanonical d) (j : Nat) (i : Image) : MemoriesCanonical (d.restoreAdapters j i) := by
  unfold Dev.restoreAdapters
  refine hd.foldl (fun e a he => ?_) _
  split
  · exact he
  · extract_lets ws
    exact (he.onCore _ (fun _ hx => hx.storeAll _)).onAdp _ _ _

theorem takeShipment (hd : MemoriesCanonical d) (j compile origin round : Nat) : MemoriesCanonical (d.takeShipment j compile origin round) := by
  unfold Dev.takeShipment
  extract_lets m bytes u e d1 mine keep oldest
  have he : MemoriesCanonical e := hd.update
  have hd1 : MemoriesCanonical d1 := by
    unfold d1
    split
    · exact he.takeAdapters _ _ _ _
    · exact he
  exact hd.update.ite (hd1.update.send _)

theorem shipment (hd : MemoriesCanonical d) (b : Bytes) : MemoriesCanonical (shipmentD b d) := by
  unfold shipmentD
  split
  · exact hd
  · split
    · exact hd
    · extract_lets body parts _ d1
      have hd1 : MemoriesCanonical d1 := hd.update
      exact (hd1.takeShipment _ _ _ _).ite hd1

theorem ship (hd : MemoriesCanonical d) (j : Nat) (logged : List Bytes) : MemoriesCanonical (d.ship j logged) := by
  unfold Dev.ship
  split
  · exact hd
  · refine hd.ite ?_
    extract_lets n whole part
    have hpart : ∀ e p, MemoriesCanonical e → MemoriesCanonical (part e p) := fun e p he =>
      ite (he.send _) (ite (he.send _) (ite ((he.send _).foldl (fun _ _ he => he.onAdp _ _ _) _) (((he.freeVal _).freeVal _).send _)))
    exact (hd.foldl hpart _).onJob _ _

theorem mirrorLate (hd : MemoriesCanonical d) (j since : Nat) : MemoriesCanonical (d.mirrorLate j since) := by
  unfold Dev.mirrorLate
  split
  · exact hd
  · extract_lets n
    exact (hd.raise _).ite hd

/-! ### The operations of Machine/Pages -/

theorem logPage (hd : MemoriesCanonical d) (action h : Nat) (l : Rec) (entry page : Nat) : MemoriesCanonical (d.logPage action h l entry page) := hd.logRec _

theorem notePool (hd : MemoriesCanonical d) (l : Rec) (cs : List Nat) (lo : Nat) : MemoriesCanonical (d.notePool l cs lo) :=
  hd.foldl (fun _ _ he => he.noteLr _ _ _) _

theorem noteDefer (hd : MemoriesCanonical d) (h : Nat) : MemoriesCanonical (d.noteDefer h) := hd.foldl (fun _ _ he => he.notePool _ _ _) _

theorem notePools (hd : MemoriesCanonical d) : MemoriesCanonical d.notePools := by
  unfold Dev.notePools
  refine hd.foldl (fun e a he => ?_) _
  split
  · exact he.onTask _ _ _
  · exact he

theorem endMove (hd : MemoriesCanonical d) (m : Move) : MemoriesCanonical (d.endMove m).1 := by
  unfold Dev.endMove
  extract_lets h
  split
  · split
    · exact hd
    · exact (hd.copyPages _ _ _ _ _ _).setSeq _ _ _
  · exact hd

theorem freeSeq (hd : MemoriesCanonical d) (h : Nat) (l : Rec) : MemoriesCanonical (d.freeSeq h l).1 := by
  unfold Dev.freeSeq
  extract_lets s old recs
  exact hd.setSeq _ _ _

theorem settlePages (hd : MemoriesCanonical d) : MemoriesCanonical d.settlePages.1 := by
  unfold Dev.settlePages
  extract_lets r
  have hr : MemoriesCanonical r.1 := by
    unfold r
    refine hd.update.foldl_fst (fun x a he => ?_) _
    extract_lets x1
    have hx1 : MemoriesCanonical x1.1 := he.endMove _
    exact hx1
  refine hr.foldl_fst (fun x a he => ?_) _
  split
  · exact he
  · refine he.foldl_fst (fun x1 a1 he1 => ?_) _
    extract_lets x2
    have hx2 : MemoriesCanonical x2.1 := he1.freeSeq _ _
    exact hx2

theorem startSegment (hd : MemoriesCanonical d) (h : Nat) (i : Item) : MemoriesCanonical (d.startSegment h i) := by
  unfold Dev.startSegment
  split
  · exact hd
  · extract_lets new
    exact hd.foldl (fun _ _ he => he.setSeq _ _ _) _

theorem placeBuckets (hd : MemoriesCanonical d) (work : List (Nat × Item)) : MemoriesCanonical (d.placeBuckets work).1 := by
  unfold Dev.placeBuckets
  extract_lets keyed order r
  refine hd.foldl_fst (fun x a he => ?_) _
  extract_lets s key used log
  split
  · exact he.logRec _
  · exact he.logRec _

theorem takeFrame (hd : MemoriesCanonical d) (h : Nat) (l : Rec) (e : Nat) (twin : Bool) : ∀ y ∈ d.takeFrame h l e twin, MemoriesCanonical y := by
  unfold Dev.takeFrame
  intro y hy
  obtain ⟨p, -, rfl⟩ := Option.mem_map.mp hy
  exact ((hd.onPages _ _ _ _).setSeq _ _ _).logPage _ _ _ _ _

theorem takeEntry {a : Dev × Missing} (hd : MemoriesCanonical a.1) (h : Nat) (l : Rec) (e : Nat) (twin : Bool) :
    MemoriesCanonical (Dev.takeEntry a h l e twin).1 := by
  unfold Dev.takeEntry
  extract_lets s
  by_cases hin : (mget (if twin then s.twin else s.cur) e).isSome = true
  · rw [if_pos hin]
    exact hd
  · rw [if_neg hin]
    split
    · rename_i htake
      exact hd.takeFrame _ _ _ _ _ htake
    · exact hd

theorem allocate {a : Dev × Missing} (hd : MemoriesCanonical a.1) (h : Nat) : MemoriesCanonical (Dev.allocate a h).1 :=
  hd.foldl_fst (fun _ _ he => he.foldl_fst (fun _ _ he1 => (he1.takeEntry _ _ _ _).takeEntry _ _ _ _) _) _

theorem startMove (hd : MemoriesCanonical d) (action h : Nat) (l : Rec) (e src dst : Nat) : MemoriesCanonical (d.startMove action h l e src dst) := by
  unfold Dev.startMove
  extract_lets d1
  have hd1 : MemoriesCanonical d1 := hd.update.logPage _ _ _ _ _
  exact (hd1.notePool _ _ _).ite ((hd1.notePool _ _ _).ite hd1)

theorem spillWell (hd : MemoriesCanonical d) (runs : List Nat) (m : Nat × Rec × Nat) : MemoriesCanonical (d.spillWell runs m).1 := by
  unfold Dev.spillWell
  split
  · exact hd
  · split
    · exact hd.startMove _ _ _ _ _ _
    · exact hd

theorem spillDeep (hd : MemoriesCanonical d) (runs : List Nat) (m : Nat × Rec × Nat) : MemoriesCanonical (d.spillDeep runs m) := by
  unfold Dev.spillDeep
  split
  · exact hd.startMove _ _ _ _ _ _
  · exact hd

theorem spill (hd : MemoriesCanonical d) (runs : List Nat) (ms : Missing) : MemoriesCanonical (d.spill runs ms) := by
  unfold Dev.spill
  extract_lets a
  have ha : MemoriesCanonical a.1 := by
    unfold a
    refine hd.foldl_fst (fun x a1 he => ?_) _
    extract_lets x1
    have hx1 : MemoriesCanonical x1.1 := he.spillWell _ _
    exact hx1
  exact ha.foldl (fun _ _ he => he.spillDeep _ _) _

theorem prime (hd : MemoriesCanonical d) (h tier action : Nat) : MemoriesCanonical (d.prime h tier action) := by
  unfold Dev.prime
  refine hd.foldl (fun e a he => ?_) _
  extract_lets s
  refine he.foldl (fun e1 a1 he1 => ?_) _
  split
  · exact he1.startMove _ _ _ _ _ _
  · exact he1

theorem revertSeqs (hd : MemoriesCanonical d) (saved : SMap Seq) (h : Nat) : MemoriesCanonical (d.revertSeqs saved h) :=
  hd.foldl (fun _ _ he => he.setSeq _ _ _) _

theorem failList (hd : MemoriesCanonical d) (saved : SMap Seq) (h : Nat) (i : Item) : MemoriesCanonical (d.failList saved h i) := by
  unfold Dev.failList
  extract_lets past
  exact ((hd.revertSeqs _ _).ite hd).foldl (fun _ _ he => he.setSeq _ _ _) _

theorem deferSeq {a : Dev × List Nat} (hd : MemoriesCanonical a.1) (saved : SMap Seq) (h : Nat) : MemoriesCanonical (Dev.deferSeq saved a h).1 := by
  unfold Dev.deferSeq
  extract_lets y
  have hy : MemoriesCanonical y.1 := hd.allocate _
  split
  · exact hy
  · exact (hd.revertSeqs _ _).foldl (fun _ _ he => he.logPage _ _ _ _ _) _

theorem givePages (hd : MemoriesCanonical d) (runs : List Nat) (saved : SMap Seq) : MemoriesCanonical (d.givePages runs saved).1 := by
  unfold Dev.givePages
  extract_lets a
  have ha : MemoriesCanonical a.1 := hd.foldl_fst (fun _ _ he => he.allocate _) _
  exact (ha.spill _ _).foldl_fst (fun _ _ he => he.deferSeq _ _) _

theorem pageStep (hd : MemoriesCanonical d) (recs : List Bytes) (runs held : List Nat) (saved : SMap Seq) :
    MemoriesCanonical (d.pageStep recs runs held saved).1 := by
  unfold Dev.pageStep
  extract_lets d1 g d3 out on d4 d5
  have hd1 : MemoriesCanonical d1 := hd.foldl (fun _ _ he => he.logRec _) _
  have hg : MemoriesCanonical g.1 := hd1.givePages _ _
  have hd4 : MemoriesCanonical d4 := hg.foldl (fun _ _ he => he.prime _ _ _) _
  have hd5 : MemoriesCanonical d5 := hd4.foldl (fun _ _ he => he.prime _ _ _) _
  exact hd5.foldl (fun _ _ he => he.foldl (fun _ _ he1 => he1.setSeq _ _ _) _) _

/-! ### The operations of Machine/Govern -/

theorem abortOpen (hd : MemoriesCanonical d) : MemoriesCanonical d.abortOpen := hd.foldl (fun _ _ he => (he.abortGen _ _).onStream _ _) _

theorem advance (hd : MemoriesCanonical d) (h : Nat) : MemoriesCanonical (d.advance h) := by
  unfold Dev.advance
  extract_lets s c es drafted d1
  have hd1 : MemoriesCanonical d1 := hd.ite (hd.foldl (fun _ _ he => he.foldl (fun _ _ he1 => he1.setSeq _ _ _) _) _)
  exact hd1.onStream _ _

theorem logStream (hd : MemoriesCanonical d) (action h a : Nat) : MemoriesCanonical (d.logStream action h a) := hd.logRec _

theorem registerNow (hd : MemoriesCanonical d) (h : Nat) : MemoriesCanonical (d.registerNow h) := by
  unfold Dev.registerNow
  extract_lets s j d1 d11 d2
  have hd1 : MemoriesCanonical d1 := hd.onStream _ _
  have hd11 : MemoriesCanonical d11 := (hd.wellWrite _ _).sealEmber _ _ _
  have hd2 : MemoriesCanonical d2 := (hd11.onStream _ _).logStream _ _ _
  split
  · split
    · exact hd1.finishCmd _ _ _ _
    · exact hd1
  · split
    · exact hd2.finishCmd _ _ _ _
    · exact hd2

theorem deregisterNow (hd : MemoriesCanonical d) (h : Nat) : MemoriesCanonical (d.deregisterNow h).1 := by
  unfold Dev.deregisterNow
  extract_lets s d1 d2 recs busy _ d3
  have hd1 : MemoriesCanonical d1 := (hd.logStream _ _ _).cancelItems _
  have hd2 : MemoriesCanonical d2 := hd1.foldl (fun _ _ he => he.supersede _ _) _
  have hd3 : MemoriesCanonical d3 := (hd2.freeStream _).update.onJob _ _
  split
  · exact hd3.finishCmd _ _ _ _
  · exact hd3

theorem drained (hd : MemoriesCanonical d) (j : Nat) : MemoriesCanonical (d.drained j) := hd.ite (hd.onJob _ _)

theorem registerStep (hd : MemoriesCanonical d) : MemoriesCanonical d.registerStep.1 := by
  unfold Dev.registerStep
  extract_lets d1
  have hd1 : MemoriesCanonical d1 := hd.update.onJobs (fun _ _ he => he.drained _)
  refine hd1.foldl_fst (fun x a he => ?_) _
  extract_lets s _ x1
  have hx1 : MemoriesCanonical x1.1 := he.deregisterNow _
  split
  · exact he.registerNow _
  · split
    · exact (he.freeStream _).update
    · split
      · exact hx1
      · exact he

theorem emberStep (hd : MemoriesCanonical d) (h : Nat) : MemoriesCanonical (d.emberStep h) := by
  unfold Dev.emberStep
  extract_lets s op
  split
  · exact hd
  · split
    · exact hd.detect _ _ _ _ _ _
    · exact hd.onStream _ _

theorem gather (hd : MemoriesCanonical d) (h : Nat) : MemoriesCanonical (d.gather h) := by
  unfold Dev.gather
  extract_lets s
  split
  · exact hd
  · split
    · extract_lets vs
      exact hd.onStream _ _
    · exact hd

theorem failNow (hd : MemoriesCanonical d) (h : Nat) (i : Item) (code ring : Nat) : MemoriesCanonical (d.failNow h i code ring) := by
  unfold Dev.failNow
  extract_lets a
  exact (hd.raise _).endItem _ _ _ _

theorem formChunk (hd : MemoriesCanonical d) (h : Nat) : MemoriesCanonical (d.formChunk h) := by
  unfold Dev.formChunk
  extract_lets s c tok H C F m seg vs e quiet item lo d1 held
  have hd1 : MemoriesCanonical d1 := hd.onStream _ _
  split
  · exact hd
  · split
    · exact (hd1.failNow _ _ _ _).ite hd1
    · exact hd1

theorem countQuiet (hd : MemoriesCanonical d) (h : Nat) : MemoriesCanonical (d.countQuiet h) := by
  unfold Dev.countQuiet
  extract_lets c
  exact hd.onStream _ _

theorem idleStep (hd : MemoriesCanonical d) (h : Nat) : MemoriesCanonical (d.idleStep h) := by
  unfold Dev.idleStep
  extract_lets s c done
  exact ((hd.onStream _ _).logStream _ _ _).ite hd

theorem unprimeStep (hd : MemoriesCanonical d) (h : Nat) : MemoriesCanonical (d.unprimeStep h) := by
  unfold Dev.unprimeStep
  extract_lets s
  exact ((hd.logStream _ _ _).onStream _ _).ite hd

theorem letIn (hd : MemoriesCanonical d) (h : Nat) : MemoriesCanonical (d.letIn h) := by
  unfold Dev.letIn
  extract_lets s e slots
  split
  · exact (hd.onStream _ _).logStream _ _ _
  · split
    · exact (hd.onStream _ _).logStream _ _ _
    · split
      · extract_lets d1
        have hd1 : MemoriesCanonical d1 := (hd.logStream _ _ _).onStream _ _
        exact (hd1.onStream _ _).logStream _ _ _
      · exact hd

theorem admitStep (hd : MemoriesCanonical d) : MemoriesCanonical d.admitStep := by
  unfold Dev.admitStep
  extract_lets d1 cs low d2 waiting
  have hd1 : MemoriesCanonical d1 := hd.foldl (fun _ _ he => he.unprimeStep _) _
  have hd2 : MemoriesCanonical d2 := by
    unfold d2
    refine hd1.foldl (fun e a he => ?_) _
    extract_lets j
    exact he.ite ((he.logStream _ _ _).ite (he.letIn _))
  exact hd2.update

theorem primeStep (hd : MemoriesCanonical d) : MemoriesCanonical d.primeStep := by
  unfold Dev.primeStep
  extract_lets cs low
  refine hd.foldl (fun e a he => ?_) _
  split
  · exact he.logStream _ _ _
  · split
    · exact (he.onStream _ _).logStream _ _ _
    · exact he

theorem lateStep (hd : MemoriesCanonical d) (h : Nat) : MemoriesCanonical (d.lateStep h) := by
  unfold Dev.lateStep
  extract_lets s
  exact hd.foldl (fun _ _ he => (he.failNow _ _ _ _).ite ((he.raise _).ite he)) _

theorem draftStep (hd : MemoriesCanonical d) (h : Nat) : MemoriesCanonical (d.draftStep h) := by
  unfold Dev.draftStep
  extract_lets s c t n d1
  have hd1 : MemoriesCanonical d1 := hd.onStream _ _
  exact (hd.onStream _ _).ite (hd1.ite (hd1.logRec _))

theorem powerStep (hd : MemoriesCanonical d) (m : Measure) : MemoriesCanonical (d.powerStep m) := by
  unfold Dev.powerStep
  extract_lets d0 g x old fl _ d1 d2
  have hd0 : MemoriesCanonical d0 := hd.logRec _
  have hd1 : MemoriesCanonical d1 := hd0.update
  have hd2 : MemoriesCanonical d2 := (hd1.vector _).ite hd1
  exact (hd2.logRec _).ite hd2

theorem runItem (hd : MemoriesCanonical d) (h : Nat) (i : Item) : MemoriesCanonical (d.runItem h i) := hd.onStream _ _

theorem endLag (hd : MemoriesCanonical d) (h : Nat) : MemoriesCanonical (d.endLag h) := by
  unfold Dev.endLag
  extract_lets c H
  exact hd.onStream _ _

theorem governFirst (hd : MemoriesCanonical d) : MemoriesCanonical d.governFirst := hd.abortOpen.foldl (fun _ _ he => he.advance _) _

/-- The governor's step, whatever the recovery inside it is, as long as that keeps the memories. -/
theorem governStep (hd : MemoriesCanonical d) (m : Measure) {restore : Dev → Dev} (hrestore : ∀ e, MemoriesCanonical e → MemoriesCanonical (restore e)) :
    MemoriesCanonical (d.governStep m restore) := by
  unfold Dev.governStep
  extract_lets live r2 d2 r3 d4 d5 p6 d6 saved turn ready d7 full r8 d8 starting out deep d8a runs p9 r9 go d9 d10 d11 d12 d13 n
  have hr2 : MemoriesCanonical r2.1 := hd.registerStep
  have hr3 : MemoriesCanonical r3.1 := hr2.settlePages
  have hd4 : MemoriesCanonical d4 := hr3.foldl (fun _ _ he => ((he.gather _).formChunk _).countQuiet _) _
  have hd5 : MemoriesCanonical d5 := hd4.foldl (fun _ _ he => he.idleStep _) _
  have hp6 : MemoriesCanonical p6 := hd5.admitStep.primeStep
  have hd6 : MemoriesCanonical d6 := hrestore _ hp6
  have hd7 : MemoriesCanonical d7 := hd6.foldl (fun _ _ he => (he.startSegment _ _).ite he) _
  have hr8 : MemoriesCanonical r8.1 := hd7.placeBuckets _
  have hd8 : MemoriesCanonical d8 := hr8.foldl (fun _ _ he => (he.failList _ _ _).failNow _ _ _ _) _
  have hd8a : MemoriesCanonical d8a := hd8.foldl (fun _ _ he => (he.revertSeqs _ _).ite he) _
  have hp9 : MemoriesCanonical p9.1 := hd8a.pageStep _ _ _ _
  have hr9 : MemoriesCanonical r9.1 := (hp9.foldl (fun _ _ he => he.noteDefer _) _).notePools
  have hd9 : MemoriesCanonical d9 := hr9.foldl (fun _ _ he => he.lateStep _) _
  have hd10 : MemoriesCanonical d10 := by
    unfold d10
    refine hd9.foldl (fun e a he => ?_) _
    split
    · exact (he.runItem _ _).ite he
    · exact he
  have hd11 : MemoriesCanonical d11 := hd10.foldl (fun _ _ he => he.draftStep _) _
  have hd12 : MemoriesCanonical d12 := hd11.powerStep _
  have hd13 : MemoriesCanonical d13 := hd12.foldl (fun _ _ he => he.endLag _) _
  exact hd13.update

/-! ### The operations of Machine/Faults -/

theorem taskWatchdog (hd : MemoriesCanonical d) (c t : Nat) : MemoriesCanonical (taskWatchdogD c t d) := by
  unfold taskWatchdogD
  extract_lets k d1
  have hd1 : MemoriesCanonical d1 := hd.detect _ _ _ _ _ _
  exact ((hd1.endRingWait _ _).onTask _ _ _).ite hd

theorem trip (hd : MemoriesCanonical d) (code : Nat) : MemoriesCanonical (d.trip code) := by
  unfold Dev.trip
  extract_lets d1
  have hd1 : MemoriesCanonical d1 := hd.raise _
  exact hd1.update

theorem timeOutItem (hd : MemoriesCanonical d) (h : Nat) (i : Item) : MemoriesCanonical (d.timeOutItem h i) := by
  unfold Dev.timeOutItem
  extract_lets put
  exact (hd.onStream _ _).ite ((hd.logRec _).onStream _ _)

theorem restoreAllTimed (hd : MemoriesCanonical d) (hs : List Nat) : MemoriesCanonical (d.restoreAllTimed hs) :=
  hd.foldl (fun _ _ he => (he.restoreTimed _).onStream _ _) _

theorem timeOut (hd : MemoriesCanonical d) (c t ring progRound : Nat) (hs : List Nat) : MemoriesCanonical (d.timeOut c t ring progRound hs) := by
  unfold Dev.timeOut
  extract_lets items d1
  have hd1 : MemoriesCanonical d1 := hd.raise _
  exact (hd1.foldl (fun _ _ he => he.timeOutItem _ _) _).restoreAllTimed _

theorem dropAwaited (hd : MemoriesCanonical d) (w : Who) (word : Nat) : MemoriesCanonical (d.dropAwaited w word) := hd.of_drops (.dropAwaited _ _ _)

theorem abandonWord (hd : MemoriesCanonical d) (c t ring : Nat) : MemoriesCanonical (d.abandonWord c t ring) := by
  unfold Dev.abandonWord
  extract_lets k hs
  split
  · exact hd
  · extract_lets d1
    have hd1 : MemoriesCanonical d1 := (hd.endRingWait _ _).dropAwaited _ _
    exact (hd1.timeOut _ _ _ _ _).onTask _ _ _

theorem abandonXfer (hd : MemoriesCanonical d) (p : PumpId) (x : Xfer) (ring : Nat) : MemoriesCanonical (d.abandonXfer p x ring) := by
  unfold Dev.abandonXfer
  extract_lets d1
  have hd1 : MemoriesCanonical d1 := by
    unfold d1
    refine (hd.foldl (fun e a he => ?_) _).dropXfer _ _
    split
    · exact he.onUnit _ fun _ => by rfl
    · exact he
  exact (hd1.count _ _ _).timeOut _ _ _ _ _

theorem abandonFar (hd : MemoriesCanonical d) (c : Nat) (h : FarWrite) (t ring : Nat) : MemoriesCanonical (d.abandonFar c h t ring) := by
  unfold Dev.abandonFar
  extract_lets d1
  have hd1 : MemoriesCanonical d1 := (hd.farWait _ _ _ _).farFree _
  split
  · exact hd1.abandonXfer _ _ _
  · exact hd1.timeOut _ _ _ _ _

theorem tagTimeout (hd : MemoriesCanonical d) (c t : Nat) : MemoriesCanonical (tagTimeoutD c t d) := by
  unfold tagTimeoutD
  split
  · exact hd
  · split
    · exact hd
    · extract_lets word
      split
      · exact hd.abandonWord _ _ _
      · split
        · exact hd.abandonXfer _ _ _
        · exact hd.abandonFar _ _ _ _
        · exact hd

theorem tlyTimeout (hd : MemoriesCanonical d) (c t : Nat) : MemoriesCanonical (tlyTimeoutD c t d) := by
  unfold tlyTimeoutD
  split
  · exact hd
  · split
    · exact (hd.abandonWord _ _ _).ite hd
    · exact hd

theorem nanTrap (hd : MemoriesCanonical d) (c t word elem : Nat) (handle : Option Nat) : MemoriesCanonical (nanTrapD c t word elem handle d) := by
  unfold nanTrapD
  extract_lets k d0
  have hd0 : MemoriesCanonical d0 := hd.onTask _ _ _
  split
  · exact hd
  · split
    · exact hd
    · extract_lets d1 d3
      have hd1 : MemoriesCanonical d1 := hd0.ite (hd0.onTask _ _ _)
      have hd3 : MemoriesCanonical d3 := by
        unfold d3
        split
        · exact hd1.onStream _ _
        · exact hd1.onTask _ _ _
      exact hd3.raise _

theorem recordHandle (hd : MemoriesCanonical d) : MemoriesCanonical (recordHandleD d) := by
  unfold recordHandleD
  split
  · exact hd.update
  · exact hd

theorem patrol (hd : MemoriesCanonical d) (c bank : Nat) (det : Detect) : MemoriesCanonical (patrolD c bank det d) := by
  unfold patrolD
  extract_lets x pos a n d1 d2 met d3
  have hd1 : MemoriesCanonical d1 := (hd.seen _ _).onUnit _ fun _ => by rfl
  have hd2 : MemoriesCanonical d2 := (hd1.count _ _ _).ite hd1
  have hd3 : MemoriesCanonical d3 := hd2.count _ _ _
  split
  · exact hd
  · split
    · exact hd.onUnit _ fun _ => by rfl
    · split
      · exact hd2
      · split
        · exact hd3.detect _ _ _ _ _ _
        · exact hd3

theorem remoteWrite (hd : MemoriesCanonical d) (writer target off : Nat) (data : RemoteBytes) : MemoriesCanonical (remoteWriteD writer target off data d) := by
  unfold remoteWriteD
  split
  · exact hd
  · split
    · exact hd
    · extract_lets d1 n who round hs d11
      have hd1 : MemoriesCanonical d1 := hd.count _ _ _
      have hd11 : MemoriesCanonical d11 := hd1.countWindows _ _ _ _
      split
      · exact hd1.detect _ _ _ _ _ _
      · split
        · exact (hd1.windowDrop _).failItems _ _ _ _
        · split
          · exact hd11.onCore _ (fun _ hx => hx.store _ _)
          · exact hd11.farWrite _ _ _ _ _ _

/-- Zeroing a range of the well drops its bytes (R389). -/
theorem zeroWell (hd : MemoriesCanonical d) (base n : Nat) : MemoriesCanonical (d.zeroWell base n) := hd.of_well (Memory.wf_filter hd.well _)

/-- The cisterns of a killed job become empty (R387). -/
theorem coresClear (hd : MemoriesCanonical d) (j : Nat) : MemoriesCanonical (d.coresClear j) := by
  unfold Dev.coresClear
  extract_lets job d1
  have hd1 : MemoriesCanonical d1 := hd.foldl (fun _ _ he => he.onCore _ fun _ _ => Core.Canonical.of_nil rfl) _
  exact hd1.update.onJob _ _

theorem killDone (hd : MemoriesCanonical d) (j : Nat) (wellToo : Bool) : MemoriesCanonical (killDoneD j wellToo d) := by
  unfold killDoneD
  extract_lets job d1 zs d2 d3 _ d4 d5
  have hd1 : MemoriesCanonical d1 := hd.coresClear _
  have hd2 : MemoriesCanonical d2 := hd1.update.foldl (fun _ _ he => he.zeroWell _ _) _
  have hd3 : MemoriesCanonical d3 := hd2.update
  have hd4 : MemoriesCanonical d4 := (hd3.unroute _).onJob _ _
  have hd5 : MemoriesCanonical d5 := hd4.foldl (fun _ _ he => he.finishCmd _ _ _ _) _
  exact hd.ite (hd1.refreshSlices.ite hd5.flrDone.joinIfIdle.refreshSlices)

theorem sliceScrub (hd : MemoriesCanonical d) (s : Nat) : MemoriesCanonical (sliceScrubD s d) := by
  unfold sliceScrubD
  split
  · exact (hd.onSlice _ _).foldl (fun _ _ he => he.onUnit _ fun _ => by rfl) _
  · exact hd

/-- The cisterns of a scrubbed slice become empty (R390). -/
theorem sliceDone (hd : MemoriesCanonical d) (s : Nat) : MemoriesCanonical (sliceDoneD s d) := by
  unfold sliceDoneD
  split
  · exact (hd.onSlice _ _).foldl (fun _ _ he => he.onCore _ fun _ _ => Core.Canonical.of_nil rfl) _
  · exact hd

theorem slotRelease (hd : MemoriesCanonical d) (c slot : Nat) : MemoriesCanonical (slotReleaseD c slot d) := by
  unfold slotReleaseD
  split
  · exact (hd.onCore _ (fun _ hx => hx.freeSlot _)).ite hd
  · exact hd

theorem refetch (hd : MemoriesCanonical d) (c : Nat) : MemoriesCanonical (refetchD c d) := by
  unfold refetchD
  extract_lets x
  exact (hd.onUnit _ fun _ => by rfl).ite hd

/-! ### The operations of Machine/Mirror -/

theorem copySeq (hd : MemoriesCanonical d) (i : Image) (h : Nat) (l : Rec) : MemoriesCanonical (d.copySeq i h l) := by
  unfold Dev.copySeq
  extract_lets at_ b list cur ret _ d1
  have hd1 : MemoriesCanonical d1 := hd.setSeq _ _ _
  exact hd1.foldl (fun _ _ he => he.foldl (fun _ _ he1 => he1.foldl (fun _ _ he2 => he2.pageWrite _ _ _ _ _) _) _) _

theorem copyStream (hd : MemoriesCanonical d) (j lag : Nat) (i : Image) (k : Nat) : MemoriesCanonical (d.copyStream j lag i k) := by
  unfold Dev.copyStream
  extract_lets b h s0 slot n samples marks d1 shapes total bytes slices d2
  have hd1 : MemoriesCanonical d1 := hd.onStream _ _
  have hd2 : MemoriesCanonical d2 := hd1.putSlices _ _
  exact hd.ite (hd2.foldl (fun _ _ he => he.copySeq _ _ _) _)

theorem copyScale (hd : MemoriesCanonical d) (i : Image) (c : Nat) : MemoriesCanonical (d.copyScale i c) := by
  unfold Dev.copyScale
  refine hd.onCore _ (fun x hx => ?_)
  extract_lets at_ es hs
  refine Core.Canonical.storeAll ?_ _
  exact hx.of_mem rfl

theorem copyProvs (hd : MemoriesCanonical d) (j : Nat) (i : Image) : MemoriesCanonical (d.copyProvs j i) := by
  unfold Dev.copyProvs
  extract_lets n new
  exact hd.update

theorem copyState (hd : MemoriesCanonical d) (j lag : Nat) (i : Image) : MemoriesCanonical (d.copyState j lag i) := by
  unfold Dev.copyState
  extract_lets n d1 d2
  have hd1 : MemoriesCanonical d1 := hd.foldl (fun _ _ he => he.copyStream _ _ _ _) _
  have hd2 : MemoriesCanonical d2 := hd1.foldl (fun _ _ he => he.copyScale _ _) _
  exact (hd2.restoreAdapters _ _).copyProvs _ _

theorem replayNow (hd : MemoriesCanonical d) : MemoriesCanonical d.replayNow := by
  unfold Dev.replayNow
  extract_lets n swap d1
  have hd1 : MemoriesCanonical d1 := by
    refine hd.foldl (fun _ _ he => ite (he.onCross _ _) ?_) _
    split
    · exact he
    · exact he.onCross _ _
  exact hd1.takeCommands _

theorem refetchUnit (hd : MemoriesCanonical d) (j : Nat) (i : Image) : MemoriesCanonical (d.refetch j i) := by
  unfold Dev.refetch
  extract_lets intake out
  exact (hd.foldl (fun _ _ he => he.emit _) _).foldl (fun _ _ he => he.emit _) _

theorem onReplays (hd : MemoriesCanonical d) {f : Dev → Nat → Dev} (hf : ∀ e j, MemoriesCanonical e → MemoriesCanonical (f e j)) :
    MemoriesCanonical (d.onReplays f) :=
  hd.foldl hf _

theorem onItem (hd : MemoriesCanonical d) (j h seq : Nat) (f : Item → Item) : MemoriesCanonical (d.onItem j h seq f) := hd.onStream _ _

theorem replayOutcomes (hd : MemoriesCanonical d) (j : Nat) : MemoriesCanonical (d.replayOutcomes j) := by
  unfold Dev.replayOutcomes
  split
  · exact hd
  · extract_lets d1
    have hd1 : MemoriesCanonical d1 := hd.foldl (fun _ _ he => he.onItem _ _ _ _) _
    exact hd1.foldl (fun _ _ he => he.onItem _ _ _ _) _

theorem replayTimeouts (hd : MemoriesCanonical d) (j : Nat) : MemoriesCanonical (d.replayTimeouts j) := by
  unfold Dev.replayTimeouts
  split
  · exact hd
  · extract_lets named hs waits d1 xs d2 left
    have hd1 : MemoriesCanonical d1 := hd.foldl (fun _ _ he => (he.abandonWord _ _ _).ite he) _
    have hd2 : MemoriesCanonical d2 := hd1.foldl (fun _ _ he => he.abandonXfer _ _ _) _
    exact (hd2.foldl (fun _ _ he => he.timeOutItem _ _) _).restoreAllTimed _

theorem mismatch (hd : MemoriesCanonical d) (j : Nat) (hs : List Nat) : MemoriesCanonical (d.mismatch j hs) := hd.failItems _ _ _ _

theorem checkDecisions (hd : MemoriesCanonical d) (j : Nat) (hs : List Nat) : MemoriesCanonical (d.checkDecisions j hs) := by
  unfold Dev.checkDecisions
  split
  · exact hd
  · extract_lets of own
    exact hd.foldl (fun _ _ he => he.mismatch _ _) _

theorem checkInput (hd : MemoriesCanonical d) (j : Nat) : MemoriesCanonical (d.checkInput j) := by
  unfold Dev.checkInput
  refine hd.foldl (fun e a he => ?_) _
  split
  · exact he.raise _
  · refine he.foldl (fun e1 a1 he1 => ?_) _
    extract_lets is_
    exact (he1.onStream _ _).raise _

theorem checkScale (hd : MemoriesCanonical d) (c : Nat) (g : Group) (gi : Nat) : MemoriesCanonical (d.checkScale c g gi) := by
  unfold Dev.checkScale
  extract_lets t cut
  split
  · exact hd
  · extract_lets logged
    exact hd.ite (hd.failItems _ _ _ _)

theorem endReplay (hd : MemoriesCanonical d) (j : Nat) : MemoriesCanonical (d.endReplay j) := by
  unfold Dev.endReplay
  split
  · exact hd
  · split
    · exact hd
    · extract_lets missing tdm d1
      have hd1 : MemoriesCanonical d1 := by
        unfold d1
        refine hd.foldl (fun e a he => ?_) _
        extract_lets s c C H n
        refine he.foldl (fun e1 a1 he1 => ?_) _
        extract_lets s1 i x
        exact (he1.onStream _ _).failNow _ _ _ _
      exact hd1.onJob _ _

/-! ### The operations of Machine/Failover -/

theorem startSpare (hd : MemoriesCanonical d) (j : Nat) (i : Image) (c : Nat) : MemoriesCanonical (d.startSpare j i c) := by
  unfold Dev.startSpare
  extract_lets d1
  have hd1 : MemoriesCanonical d1 := hd.foldl (fun _ _ he => he.placeTask _ _ _) _
  exact (hd1.onUnit _ fun _ => by rfl).startCore _ _ _

theorem moveRoutes (hd : MemoriesCanonical d) (j : Nat) (i : Image) : MemoriesCanonical (d.moveRoutes j i) := by
  unfold Dev.moveRoutes
  extract_lets rs moved d1 new
  have hd1 : MemoriesCanonical d1 := hd.update
  exact hd1.foldl (fun _ _ he => he.onPort _ _) _

theorem moveJob (hd : MemoriesCanonical d) (j : Nat) (i : Image) (a : Action) (e : Rec) : MemoriesCanonical (d.moveJob j i a e) := by
  unfold Dev.moveJob
  extract_lets asc dead hs i' spare d1 d2 d3 d4 mv d5
  have hd1 : MemoriesCanonical d1 := ((hd.onJob _ _).dropStale).moveRoutes _ _
  have hd2 : MemoriesCanonical d2 := hd1.foldl (fun _ _ he => he.startSpare _ _ _) _
  have hd3 : MemoriesCanonical d3 := hd2.foldl (fun _ _ he => he.restoreCore _ _ _) _
  have hd4 : MemoriesCanonical d4 := hd3.foldl (fun _ _ he => he.onUnit _ fun _ => by rfl) _
  have hd5 : MemoriesCanonical d5 := (hd4.readyTasks _ _).foldl (fun _ _ he => he.restoreStream _ _ _ _ _) _
  exact hd5.refreshSlices

theorem failJob (hd : MemoriesCanonical d) (j : Nat) : MemoriesCanonical (d.failJob j) := by
  unfold Dev.failJob
  extract_lets hs n first low d1 d2 d3 cmds d4
  have hd1 : MemoriesCanonical d1 := hd.raise _
  have hd2 : MemoriesCanonical d2 := hd1.foldl (fun _ _ he => he.foldl (fun _ _ he1 => he1.endItem _ _ _ _) _) _
  have hd3 : MemoriesCanonical d3 := (hd2.setTaskStates _ _).closeWindows _
  have hd4 : MemoriesCanonical d4 := hd3.onJob _ _
  exact hd4.foldl (fun _ _ he => he.finishCmd _ _ _ _) _

theorem riseAction (hd : MemoriesCanonical d) (a : Action) : MemoriesCanonical (d.riseAction a) := by
  unfold Dev.riseAction
  extract_lets e s
  exact ((hd.raise _).loseSlice _ _ _).ite (hd.raise _)

theorem failover (hd : MemoriesCanonical d) (a : Action) : MemoriesCanonical (d.failover a) := by
  unfold Dev.failover
  extract_lets js r
  have hr : MemoriesCanonical r.1 := by
    unfold r
    refine hd.foldl_fst (fun x a1 he => ?_) _
    split
    · exact he
    · split
      · exact he.moveJob _ _ _ _
      · split
        · exact he.failJob _
        · exact he
  exact (hr.riseAction _).ite hr

theorem applyAltRoutes (hd : MemoriesCanonical d) (compile origin : Nat) : MemoriesCanonical (d.applyAltRoutes compile origin) := by
  unfold Dev.applyAltRoutes
  extract_lets routed here d1
  have hd1 : MemoriesCanonical d1 := hd.update
  refine hd1.onJobs (fun e j he => ?_)
  split
  · exact (he.moveRoutes _ _).ite he
  · exact he

theorem startReplay (hd : MemoriesCanonical d) (j : Nat) (i : Image) (c : Nat) : MemoriesCanonical (d.startReplay j i c) := by
  unfold Dev.startReplay
  extract_lets lag held n d1
  have hd1 : MemoriesCanonical d1 := (hd.copyState _ _ _).onJob _ _
  exact hd1.replayNow.refetchUnit _ _

theorem takeOver (hd : MemoriesCanonical d) (j : Nat) (i : Image) : MemoriesCanonical (d.takeOver j i) := by
  unfold Dev.takeOver
  extract_lets d1 cs c _ d2 d3
  have hd1 : MemoriesCanonical d1 := hd.applyAltRoutes _ _
  have hd2 : MemoriesCanonical d2 := hd1.update
  have hd3 : MemoriesCanonical d3 := (hd2.onJob _ _).activate _ _
  exact (hd3.ite (hd3.startReplay _ _ _)).advertise

theorem applyVersion (hd : MemoriesCanonical d) (v : Version) : MemoriesCanonical (d.applyVersion v) := by
  unfold Dev.applyVersion
  extract_lets before members root changed _ d1 d2 d3
  have hd1 : MemoriesCanonical d1 := hd.update
  have hd2 : MemoriesCanonical d2 := (hd1.checkMinority.reparent.ite hd1).onJobs (fun _ _ he => he.choosePaths _)
  have hd3 : MemoriesCanonical d3 := by
    unfold d3
    split
    · refine hd2.onJobs (fun e j he => ?_)
      split
      · exact (he.abortCompile _).ite he
      · exact he
    · exact hd2
  refine hd3.foldl (fun _ _ he => (he.applyAltRoutes _ _).onJobs (fun e1 j he1 => ?_)) _
  split
  · exact (he1.takeOver _ _).ite he1
  · exact he1

theorem applyVersions (hd : MemoriesCanonical d) : MemoriesCanonical d.applyVersions := by
  unfold Dev.applyVersions
  extract_lets due
  exact hd.update.foldl (fun _ _ he => he.update.ite (he.applyVersion _)) _

/-! ### The operations of Machine/Mark -/

theorem lenInForce (hd : MemoriesCanonical d) (len : Nat) : MemoriesCanonical (d.lenInForce len) := hd.ite (hd.update.putField _ _ _ _)

theorem nextRound (hd : MemoriesCanonical d) : MemoriesCanonical d.nextRound := by
  unfold Dev.nextRound
  extract_lets r t d1 _ d2 later
  have hd1 : MemoriesCanonical d1 := hd.at_ _
  have hd2 : MemoriesCanonical d2 := hd1.update
  split
  · exact hd2
  · exact hd2.update.lenInForce _

theorem coreRecords (hd : MemoriesCanonical d) (c : Nat) : MemoriesCanonical (d.coreRecords c) := by
  unfold Dev.coreRecords
  extract_lets prev x d1 ecc v d2 lost d3 d4
  have hd1 : MemoriesCanonical d1 := hd.foldl (fun _ _ he => (he.raise _).ite he) _
  have hv : MemoriesCanonical v.2 := hd1.freeVal _
  have hd2 : MemoriesCanonical d2 := hd1.ite (hv.raise _)
  have hd3 : MemoriesCanonical d3 := hd2.ite (hd2.raise _)
  have hd4 : MemoriesCanonical d4 := hd3.foldl (fun _ _ he => he.raise _) _
  exact hd4.onUnit _ fun _ => by rfl

theorem turnOver (hd : MemoriesCanonical d) : MemoriesCanonical d.turnOver := by
  unfold Dev.turnOver
  extract_lets d1
  have hd1 : MemoriesCanonical d1 := hd.portErrors.foldl (fun _ _ he => he.coreRecords _) _
  exact hd1.update

theorem foldLog (hd : MemoriesCanonical d) : MemoriesCanonical d.foldLog := by
  unfold Dev.foldLog
  extract_lets old
  exact hd.update

theorem passMark (hd : MemoriesCanonical d) (c t : Nat) : MemoriesCanonical (d.passMark c t) := by
  unfold Dev.passMark
  extract_lets k ctl held d1
  have hd1 : MemoriesCanonical d1 := hd.onTask _ _ _
  exact hd.ite ((hd1.vector _).ite hd1)

theorem markShadows (hd : MemoriesCanonical d) : MemoriesCanonical d.markShadows := by
  unfold Dev.markShadows
  extract_lets late own d1
  have hd1 : MemoriesCanonical d1 := by
    unfold d1
    refine hd.foldl (fun e a he => ?_) _
    split
    · exact he.onTask _ _ _
    · exact he
  exact hd1.rebasePumps.applyShadows _

theorem stopUnstarted (hd : MemoriesCanonical d) (j : Nat) : MemoriesCanonical (d.stopUnstarted j) := by
  unfold Dev.stopUnstarted
  extract_lets x due d1 d2
  have hd1 : MemoriesCanonical d1 := (hd.setTaskStates _ _).onJob _ _
  have hd2 : MemoriesCanonical d2 := by
    unfold d2
    split
    · exact hd1.finishCmd _ _ _ _
    · exact hd1
  exact (hd2.foldl (fun _ _ he => he.finishCmd _ _ _ _) _).ite hd

theorem activateDue (hd : MemoriesCanonical d) (j : Nat) : MemoriesCanonical (d.activateDue j) := by
  unfold Dev.activateDue
  extract_lets x
  split
  · exact (hd.activate _ _).ite hd
  · exact hd

theorem endFailed {a : Dev × Ended} (hd : MemoriesCanonical a.1) (h : Nat) : MemoriesCanonical (Dev.endFailed a h).1 := by
  unfold Dev.endFailed
  refine hd.foldl_fst (fun x a1 he => ?_) _
  split
  · exact he
  · split
    · exact he.endItem _ _ _ _
    · exact he

theorem endHalted {a : Dev × Ended} (hd : MemoriesCanonical a.1) (h : Nat) : MemoriesCanonical (Dev.endHalted a h).1 := by
  unfold Dev.endHalted
  split
  · exact hd
  · refine hd.foldl_fst (fun x a1 he => ?_) _
    split
    · exact he
    · exact he.endItem _ _ _ _

theorem postpone (hd : MemoriesCanonical d) : MemoriesCanonical d.postpone := by
  unfold Dev.postpone
  extract_lets late
  exact hd.update

theorem clearDue (hd : MemoriesCanonical d) : MemoriesCanonical d.clearDue := by
  unfold Dev.clearDue
  extract_lets stays
  exact hd.update

theorem replayLimit {a : Dev × Ended} (hd : MemoriesCanonical a.1) (x : Action) : MemoriesCanonical (Dev.replayLimit a x).1 := by
  unfold Dev.replayLimit
  split
  · exact hd
  · dsimp only
    split
    · exact hd
    · have hend : ∀ e (l : List (Nat × Item)), MemoriesCanonical (l.foldl (fun d p => d.endItem p.1 p.2 stFailed 0x0406) (a.1.raise e)) :=
        fun _ l => (hd.raise _).foldl (fun _ _ he => he.endItem _ _ _ _) l
      exact ((hend _ _).loseCore _ _ _).ite (((hend _ _).loseSlice _ _ _).ite (((hend _ _).loseCtl _ _ _).ite (hend _ _)))

theorem recover (hd : MemoriesCanonical d) (due : List Action) (runs : Plan) : MemoriesCanonical (Dev.recover due runs d) := by
  unfold Dev.recover
  extract_lets d1
  have hd1 : MemoriesCanonical d1 := hd.foldl (fun _ _ he => he.restoreStream _ _ _ _ _) _
  exact hd1.clearDue.foldl (fun _ _ he => he.failover _) _

theorem unitRecovery (hd : MemoriesCanonical d) (a : Action) : MemoriesCanonical (d.unitRecovery a) := by
  unfold Dev.unitRecovery
  split
  · extract_lets d1
    have hd1 : MemoriesCanonical d1 := hd.restoreTask _ _ _
    exact (hd1.onUnit _ fun _ => by rfl).ite ((hd1.onTask _ _ _).ite hd1)
  · exact hd

theorem keepChecks (hd : MemoriesCanonical d) : MemoriesCanonical d.keepChecks := by
  unfold Dev.keepChecks
  extract_lets hs
  exact hd.update

theorem finishItems (hd : MemoriesCanonical d) (h : Nat) : MemoriesCanonical (d.finishItems h) := by
  unfold Dev.finishItems
  refine hd.foldl (fun e a he => ?_) _
  split
  · exact he
  · split
    · exact he
    · extract_lets d1 d2
      have hd1 : MemoriesCanonical d1 := he.onStream _ _
      have hd2 : MemoriesCanonical d2 := hd1.supersedeItem _ _ _
      exact hd2.update

theorem postDones (hd : MemoriesCanonical d) : MemoriesCanonical d.postDones := by
  unfold Dev.postDones
  extract_lets ready
  exact hd.update.foldl (fun _ _ he => he.finish _) _

theorem scaleRecords (hd : MemoriesCanonical d) : MemoriesCanonical d.scaleRecords := by
  unfold Dev.scaleRecords
  refine hd.foldl (fun e a he => ?_) _
  extract_lets d0 d1
  have hd0 : MemoriesCanonical d0 := he.foldl (fun _ _ he1 => he1.checkScale _ _ _) _
  have hd1 : MemoriesCanonical d1 := hd0.foldl (fun _ _ he1 => (he1.logRec _).noteLr _ _ _) _
  exact hd1.onUnit _ fun _ => by rfl

theorem tableLoads (hd : MemoriesCanonical d) : MemoriesCanonical d.tableLoads := by
  unfold Dev.tableLoads
  refine hd.foldl (fun e c he => ?_) _
  extract_lets r
  have hr : r.1.Canonical := foldl_keep (fun a : Core × List Nat => a.1.Canonical) _ _ _ (he.core c) (fun a l _ ha => ha.applyLoad l)
  have hempty : Core.Canonical { r.1 with staged := [] } := hr.of_mem rfl
  exact (he.setCore _ hempty).foldl (fun _ _ he => he.raise _) _

theorem stopAnswers (hd : MemoriesCanonical d) (j : Nat) : MemoriesCanonical (d.stopAnswers j) := by
  unfold Dev.stopAnswers
  extract_lets x
  exact ((hd.onJob _ _).foldl (fun _ _ he => he.finishCmd _ _ _ _) _).ite hd

theorem stopDue (hd : MemoriesCanonical d) (j : Nat) : MemoriesCanonical (d.stopDue j) := by
  unfold Dev.stopDue
  extract_lets d1 x d11
  have hd1 : MemoriesCanonical d1 := hd.stopAnswers _
  have hd11 : MemoriesCanonical d11 := hd1.foldl (fun _ _ he => he.onTask _ _ _) _
  exact ((hd11.onJob _ _).dropStale).ite hd1

theorem haltJob (hd : MemoriesCanonical d) (j : Nat) : MemoriesCanonical (d.haltJob j) := by
  unfold Dev.haltJob
  extract_lets busy
  exact (hd.onJob _ _).ite hd

theorem haltDone (hd : MemoriesCanonical d) : MemoriesCanonical d.haltDone := hd.update.ite hd

theorem purgeOld (hd : MemoriesCanonical d) : MemoriesCanonical d.purgeOld := by
  unfold Dev.purgeOld
  extract_lets oldest kept
  exact hd.update

theorem clearUnnamed (hd : MemoriesCanonical d) : MemoriesCanonical d.clearUnnamed := hd.mapCores fun _ _ hx => hx.of_mem rfl

theorem endTakeWait (hd : MemoriesCanonical d) (c t : Nat) : MemoriesCanonical (d.endTakeWait c t) := by
  unfold Dev.endTakeWait
  extract_lets k
  split
  · exact hd
  · extract_lets r rng d1
    have hd1 : MemoriesCanonical d1 := hd.onUnit _ fun _ => by rfl
    exact ((hd1.slip _ _).retry _ _ _ _).ite hd

theorem markStart (hd : MemoriesCanonical d) : MemoriesCanonical d.markStart := by
  unfold Dev.markStart
  extract_lets d1 d2 d3 d4
  have hd1 : MemoriesCanonical d1 := hd.nextRound
  have hd2 : MemoriesCanonical d2 := hd1.turnOver.foldLog
  have hd3 : MemoriesCanonical d3 := hd2.foldl (fun _ _ he => he.passMark _ _) _
  have hd4 : MemoriesCanonical d4 := ((hd3.foldl (fun _ _ he => he.endTakeWait _ _) _).markShadows).onJobs (fun _ _ he => he.stopUnstarted _)
  exact ((hd4.onJobs (fun _ _ he => he.activateDue _)).applyVersions).clearUnnamed

theorem markDecide (hd : MemoriesCanonical d) (m : Measure) : MemoriesCanonical (d.markDecide m) := by
  unfold Dev.markDecide
  extract_lets hs dt d1 due e1 e2 e3 plan runs d11 f1 done d2 d4 d5
  have hdt : MemoriesCanonical dt := (((hd.onJobs (fun _ _ he => he.endReplay _)).takeRecords _).tableLoads).handleRejects
  have hd1 : MemoriesCanonical d1 := ((hdt.foldl (fun _ _ he => he.emberStep _) _).postpone).onReplays (fun _ _ he => he.replayOutcomes _)
  have he1 : MemoriesCanonical e1.1 := hd1.foldl_pair (fun _ _ he => he.endHalted _) _ _
  have he2 : MemoriesCanonical e2.1 := he1.foldl_fst (fun _ _ he => he.replayLimit _) _
  have he3 : MemoriesCanonical e3.1 := he2.foldl_fst (fun _ _ he => he.endFailed _) _
  have hd11 : MemoriesCanonical d11 := he3.foldl (fun _ _ he => he.restoreState _ _) _
  have hf1 : MemoriesCanonical f1 := hd11.governFirst
  have hdone : MemoriesCanonical done := hf1.foldl (fun _ _ he => he.finishItems _) _
  have hd2 : MemoriesCanonical d2 := hdone.postDones.governStep _ (fun e he => he.recover _ _)
  have hd4 : MemoriesCanonical d4 := (hd2.foldl (fun _ _ he => he.checkDecisions _ _) _).onReplays (fun _ _ he => he.checkInput _)
  have hd5 : MemoriesCanonical d5 := hd4.clearDue.foldl (fun _ _ he => he.unitRecovery _) _
  refine hd5.keepChecks.foldl (fun e a he => ?_) _
  split
  · exact he.onCore _ fun _ hx => hx.clearPeaks.foldPeaks _ _ _
  · exact he

theorem keepPos (hd : MemoriesCanonical d) : MemoriesCanonical d.keepPos := by
  unfold Dev.keepPos
  extract_lets bs d1
  have hd1 : MemoriesCanonical d1 := hd.update
  exact hd1.foldl (fun _ _ he => he.onStream _ _) _

theorem markRun (hd : MemoriesCanonical d) : MemoriesCanonical d.markRun := by
  unfold Dev.markRun
  extract_lets d1 d2 d3 logged d4 d5 d6
  have hd1 : MemoriesCanonical d1 := (hd.keepPos.onJobs (fun _ _ he => he.haltJob _)).onJobs (fun _ _ he => he.stopDue _)
  have hd2 : MemoriesCanonical d2 := hd1.scaleRecords.foldl (fun _ _ he => he.finishItems _) _
  have hd3 : MemoriesCanonical d3 := hd2.onJobs (fun _ _ he => he.advanceJob _)
  have hd4 : MemoriesCanonical d4 := hd3.onJobs (fun _ _ he => (he.ship _ _).mirrorLate _ _)
  have hd5 : MemoriesCanonical d5 := hd4.postDones.portDiscards.onJobs (fun _ _ he => he.settleStop _)
  have hd6 : MemoriesCanonical d6 := hd5.haltDone.purgeOld
  exact hd6.update.refreshSlices.onReplays (fun _ _ he => he.replayTimeouts _)

/-- A round mark: its start, its decisions and its run. -/
theorem roundMark (hd : MemoriesCanonical d) (m : Measure) : MemoriesCanonical (roundMarkD m d) := ((hd.markStart.markDecide _).markRun).ite hd

end Sys2Proof.Machine.MemoriesCanonical
end

section
/-! Every command keeps the memories in their canonical form, and so does every step (R364, R436, R579; log entry 86). -/

namespace Sys2Proof.Machine

/-- A state that an outcome goes on with has its memories in the canonical form. -/
def OutcomeCanonical (o : Host.Outcome State Fault Refusal) : Prop := ∀ t, o = .next t → MemoriesCanonical t.dev

namespace OutcomeCanonical

variable {s : State} {f : Dev → Dev}

theorem next (hs : MemoriesCanonical s.dev) : OutcomeCanonical (.next s) := fun _ h => by
  cases h
  exact hs

theorem onDev (hf : MemoriesCanonical (f s.dev)) : OutcomeCanonical (onDev s f) := next (s := { s with dev := f s.dev }) hf

theorem onUp (hs : MemoriesCanonical s.dev) (hf : MemoriesCanonical (f s.dev)) : OutcomeCanonical (onUp s f) := onDev (hf.ite hs)

theorem onHost (hs : MemoriesCanonical s.dev) (hf : MemoriesCanonical (f s.dev)) : OutcomeCanonical (onHost s f) := onDev (hf.ite hs)

theorem onCommand (hs : MemoriesCanonical s.dev) (hf : MemoriesCanonical (f s.dev)) : OutcomeCanonical (onCommand s f) := onHost hs hf.dropUndefined

end OutcomeCanonical

/-! ### The commands -/

namespace MemoriesCanonical

/-- Loss of power leaves no byte (R573). -/
theorem powerOff (free : Nat) : MemoriesCanonical (powerOff free) := memoriesCanonical_reset.update

/-- Kindling starts without a byte (R11, R576). -/
theorem coldStart (free : Nat) : MemoriesCanonical (coldStart free) := memoriesCanonical_reset.update

/-- A key request changes fuses and keys (R591). -/
theorem keyComplete {s : State} (hs : MemoriesCanonical s.dev) (request : Option Bytes) : MemoriesCanonical (keyCompleteS request s).dev := by
  have hdraw : ∀ e : Nat, MemoriesCanonical (if e = 8 then s.dev.freeVal 1 else (e, s.dev)).2 := fun _ => ite_snd rfl (hs.freeVal _) hs
  unfold keyCompleteS
  dsimp only
  split
  · exact hs
  · split
    · exact hs.update.boxIrq _
    · exact (hdraw _).update.boxIrq _

/-- Every command keeps the memories in their canonical form: its arm of `exec` is a change of the device for which a rule stands above. -/
theorem exec {s : State} (hs : MemoriesCanonical s.dev) (c : Instr) : OutcomeCanonical (exec c s) := by
  cases c with unfold Machine.exec
  | pwrGoodRise => exact .onDev (hs.ite (coldStart _))
  | pwrGoodFall =>
    refine .onDev ?_
    exact powerOff _
  | brdRstN =>
    refine .onDev ?_
    exact (coldStart _).ite hs
  | perstN => exact .onDev (hs.perst _)
  | functionLevelReset => exact .onDev (hs.functionReset.ite hs)
  | pllLock | wellZeroingDone | fwFailRetryEnd => exact .onDev (hs.update.ite hs)
  | firmwareVerification => exact .onDev (hs.firmware _)
  | keySlotCheck => exact .onDev (hs.keySlot _)
  | cisternTest => exact .onDev (hs.cisternTest _)
  | wellTraining => exact .onDev (hs.wellTraining _ _)
  | localReadiness => exact .onDev (hs.localReady _)
  | linkTrained => exact .onUp hs (hs.linkTrained _)
  | linkIdentify => exact .onUp hs (hs.linkIdentify _ _ _ _ _ _ _)
  | linkDown => exact .onUp hs (hs.linkDown _)
  | linkFlitReceive => exact .onUp hs (hs.linkFlit _ _ _ _)
  | linkTransferArrival => exact .onUp hs (hs.arrival _ _)
  | windowReject => exact .onUp hs (hs.windowReject _)
  | advertisement => exact .onUp hs (hs.advertisement _)
  | mapConverged => exact .onUp hs hs.mapConverged
  | selfRoot => exact .onUp hs hs.selfRoot
  | alignmentStart => exact .onUp hs hs.alignmentStart
  | timeExchange => exact .onUp hs (hs.timeExchange _ _ _ _ _)
  | alignedReport => exact .onUp hs (hs.alignedReport _)
  | epochFlood => exact .onUp hs (hs.epochFlood _ _)
  | membershipReport => exact .onUp hs (hs.membershipReport _)
  | membershipVersionFlood => exact .onUp hs (hs.membershipVersion _ _ _)
  | roundLenReport => exact .onUp hs (hs.roundLenReport _ _)
  | roundLenRefusal => exact .onUp hs hs.roundLenRefusal
  | stagedReport => exact .onUp hs (hs.stagedReport _ _)
  | activationRoundFlood => exact .onUp hs (hs.activationFlood _ _)
  | stagingTimeout => exact .onUp hs (hs.stagingTimeout _)
  | jobAbortFlood =>
    refine .onUp hs ?_
    exact hs.abortCompile _
  | recoveryNotice => exact .onUp hs (hs.recoveryNotice _ _ _)
  | mirrorShipment => exact .onUp hs (hs.shipment _)
  | roundMark => exact .onUp hs (hs.roundMark _)
  | tagTimeout => exact .onUp hs (hs.tagTimeout _ _)
  | taskWatchdog => exact .onUp hs (hs.taskWatchdog _ _)
  | vmcWatchdog =>
    refine .onUp hs ?_
    exact hs.raise _
  | thermalTrip | powerTrip =>
    refine .onUp hs ?_
    exact hs.trip _
  | intakeSeal => exact .onUp hs hs.intakeSeal
  | nop | relay | gateSet | pump | release | tlyAdd | tlyWait | summ | branch | wRepeat | smpReq | specOpen | specCommit | specAbort | emberOut
  | emberIn | result | window | adaptSpan | statFlush => exact .onUp hs (hs.issueT _ _ _ _)
  | wEnd => exact .onUp hs (hs.endT _ _)
  | matRun | eleRun | eleScan | convert | redRun => exact .onUp hs (hs.issue _ _ _ _ _)
  | relayFlit => exact .onDev ((hs.relayFlit _ _).ite hs)
  | pumpReadRequest => exact .onDev (hs.pumpRead _ _ _)
  | pumpDrainStart => exact .onDev (hs.pumpDrain _)
  | pumpTransferComplete =>
    refine .onDev ?_
    exact ((hs.seen _ _).count _ _ _).pumpComplete _ _ _
  | elasticWaitEnd =>
    refine .onUp hs ?_
    exact ((hs.retryFar _).ite hs).retry _ _ _ _
  | interlockWaitEnd => exact .onUp hs (hs.retry _ _ _ _)
  | tlyWaitSatisfied => exact .onUp hs (hs.retry _ _ _ _)
  | tlyWaitTimeout => exact .onUp hs (hs.tlyTimeout _ _)
  | resultBacklogDrain => exact .onHost hs (hs.backlogDrain _ _)
  | nanTrap => exact .onUp hs (hs.nanTrap _ _ _ _ _)
  | errorRecordHandle => exact .onUp hs hs.recordHandle
  | scrubPatrol => exact .onUp hs (hs.patrol _ _ _)
  | remoteWrite => exact .onUp hs (hs.remoteWrite _ _ _ _)
  | killScrubComplete => exact .onUp hs (hs.killDone _ _)
  | sliceScrubComplete => exact .onUp hs (hs.sliceDone _)
  | expSlotRelease => exact .onUp hs (hs.slotRelease _ _)
  | tdmFrame => exact .onUp hs (hs.tdmFrame _ _ _)
  | tdmMissingSync => exact .onUp hs (hs.missingSync _ _)
  | tdmClockStop => exact .onUp hs (hs.clockStop _ _)
  | tdmStopRepeatFrame => exact .onUp hs (hs.stopRepeat _ _)
  | tdmPlayRefill => exact .onUp hs (hs.playRefill _ _)
  | sqDoorbell | iqDoorbell =>
    refine .onHost hs ?_
    exact (hs.at_ _).hostIdx _ _ _
  | ringHostidxConsume =>
    refine .onHost hs ?_
    exact (hs.hostIdx _ _ _).ite ((hs.hostIdx _ _ _).ite hs)
  | ringRecordFetch => exact .onHost hs (hs.ringFetch _ _ _ _ _)
  | intakeRecord =>
    refine .onUp hs ?_
    exact hs.takeRecord _ _
  | ringIrqHoldoff => exact .onHost hs (hs.irqHoldoff _ _ _)
  | loadImage => exact .onCommand hs (hs.loadImage _)
  | loadStaged => exact .onHost hs (hs.loadStaged _ _)
  | stopJob => exact .onCommand hs hs.stopJob
  | killJob => exact .onCommand hs hs.killJob
  | register => exact .onCommand hs hs.register
  | deregister => exact .onCommand hs hs.deregister
  | resetMark => exact .onCommand hs hs.resetMark
  | target => exact .onCommand hs (hs.target _)
  | bar2Write => exact .onHost hs (hs.bar2Write _ _ _)
  | bar2WriteApply => exact .onHost hs hs.bar2ApplyCmd
  | bar2Read => exact .onHost hs (hs.bar2Read _ _ _)
  | bar4Write => exact .onHost hs (hs.bar4Write _ _)
  | bar4Read => exact .onHost hs (hs.bar4Read _ _)
  | roundLenWrite => exact .onHost hs (hs.roundLenWrite _ _)
  | linkEnableWrite => exact .onDev ((hs.linkEnable _ _).ite hs)
  | vmcLogTailWrite => exact .onHost hs (hs.logTail _)
  | errTailWrite => exact .onHost hs (hs.errTail _)
  | ovrClr => exact .onHost hs (hs.ovrClr _ _)
  | cisScrubClr => exact .onHost hs (hs.cisScrubClr _)
  | stpeakClr => exact .onHost hs (hs.stpeakClr _)
  | hqAttGo => exact .onDev hs.attGo
  | attestationReport => exact .onDev (hs.attReport _ _)
  | vmcKeyGo => exact .onDev hs.keyGo
  | keyRequestComplete => exact .next (hs.keyComplete _)
  | registerWrite => exact .onDev (hs.registerWrite _ _)
  | tdmFrameSync => exact .onUp hs (hs.frameSync _ _ _ _)
  | sliceScrubStart => exact .onUp hs (hs.sliceScrub _)
  | weightRefetchComplete => exact .onUp hs (hs.refetch _)
  | lateActivationReport => exact .onUp hs (hs.lateActivation _)
  | shipmentCompleteReport => exact .onUp hs (hs.shipmentReport _ _)

/-- A step is a command or leaves the state. -/
theorem step {s : State} (hs : MemoriesCanonical s.dev) : OutcomeCanonical (step s) := by
  unfold Machine.step
  split
  · exact .next hs
  · next c rest _ => exact exec (s := { s with pending := rest }) hs c

end MemoriesCanonical

end Sys2Proof.Machine

open Sys2Proof Sys2Proof.Machine

/-- Settles O6: the memories change by writes, by zeroing and by dropping bytes, each of which keeps the canonical form; so every operation of the model,
every command and every step does. -/
theorem stepsKeepMemoriesCanonical : Obligations.StepsKeepMemoriesCanonical := by
  unfold Obligations.StepsKeepMemoriesCanonical
  intro s t hs h
  exact hs.step t h
end
